-- ==== Sys2Proof/Word.lean ====
section
/-!
DEFINITION. The word types of the Talyar 4810 and the sparse map that holds registers and memory.
-/

namespace Sys2Proof

/-- A byte, the smallest addressable unit (R230). -/
abbrev Byte := BitVec 8

/-- A scalar register, address or special register (R32, R40). -/
abbrev Word := BitVec 64

/-- One 32-bit element of a vector register (R32). -/
abbrev Elem := BitVec 32

/-- One bit for each of the 256 lanes, lane `i` in bit `i` (R40). -/
abbrev Mask := BitVec 256

/-- The 256 elements of one vector register, lane 0 first (R32). -/
abbrev Lanes := List Elem

/-- A map from numbers to plain data: pairs in strictly rising order of their number. -/
abbrev SMap (β : Type) := List (Nat × β)

/-- Every lane (R32: the value of `p0`, `laneact` and `memmask` at group start). -/
abbrev Mask.all : Mask := BitVec.allOnes 256

end Sys2Proof
end

