-- ==== Sys2Proof/Syntax.lean ====
section
/-!
DEFINITION. The instructions, packets, commands and events of the Talyar 4810: one constructor of `Instr` for each row of
spec/opcode_table.json, and the operand shapes they carry.
-/

namespace Sys2Proof

/-! ### Codes (R10, R46, R49 to R52) -/

/-- Element types (R49), in code order. -/
inductive Ty where
  | i32 | n32 | f32 | f16 | bf16 | i16 | n16 | i8 | n8 | e4m3 | e5m2 | gd8 | i64 | n64
  deriving DecidableEq, Repr

/-- Rounding modes (R10). -/
inductive Rnd where
  | rn | rz | ru | rd
  deriving DecidableEq, Repr

/-- The modifier field (R10). -/
structure Modf where
  sat : Bool
  rnd : Rnd
  deriving DecidableEq, Repr

/-- Scopes (R50). -/
inductive Scope where
  | group | block | cluster | die | package | system
  deriving DecidableEq, Repr

/-- Orders (R51). -/
inductive Order where
  | relaxed | acquire | release | acqRel
  deriving DecidableEq, Repr

/-- Fence kinds (R113). -/
inductive FenceKind where
  | seq | acq | rel | acqRel
  deriving DecidableEq, Repr

/-- Relations (R52). -/
inductive Rel where
  | eq | ne | lt | le | gt | ge | ltn | len | gtn | gen | ord | unord
  deriving DecidableEq, Repr

/-- Phaser modes (R196). -/
inductive PhMode where
  | sig | wait | sw
  deriving DecidableEq, Repr

/-! ### Shapes of scalar instructions (R43, R59) -/

/-- A scalar register number. -/
abbrev SReg := BitVec 7
/-- A vector register number. -/
abbrev VReg := BitVec 11
/-- A lane predicate number. -/
abbrev PReg := BitVec 4
/-- A scalar predicate number, as a guard or a destination. -/
abbrev CReg := BitVec 3
/-- A handle register number. -/
abbrev HReg := BitVec 4

/-! ### Shapes of lane instructions (R45) -/

/-- The guard of a lane word (R54). -/
structure LGuard where
  inv : Bool
  pg : PReg
  deriving DecidableEq, Repr

/-- Operand b or c (R46). -/
inductive Opnd where
  | v (r : VReg)
  | s (r : SReg)
  | imm (x : Elem)
  deriving DecidableEq, Repr

/-- One source (R120, R124). -/
structure Un where
  g : LGuard
  ty : Ty
  m : Modf
  d : VReg
  a : VReg
  deriving DecidableEq, Repr

/-- Two sources (R120, R124). -/
structure Bin where
  g : LGuard
  ty : Ty
  m : Modf
  d : VReg
  a : VReg
  b : Opnd
  deriving DecidableEq, Repr

/-- Three sources (R120, R124). -/
structure Ter where
  g : LGuard
  ty : Ty
  m : Modf
  d : VReg
  a : VReg
  b : Opnd
  c : Opnd
  deriving DecidableEq, Repr

/-- Conversions (R128, R129). -/
structure Cvt where
  g : LGuard
  dst : Ty
  src : Ty
  m : Modf
  d : VReg
  a : VReg
  deriving DecidableEq, Repr

/-- How a compare combines its result (R130). -/
inductive Combine where
  | set | and | or
  deriving DecidableEq, Repr

/-- `vcmp` (R130). -/
structure CmpL where
  g : LGuard
  ty : Ty
  rel : Rel
  comb : Combine
  pd : PReg
  a : VReg
  b : Opnd
  deriving DecidableEq, Repr

/-- `vsel` (R131). -/
structure SelL where
  g : LGuard
  ty : Ty
  d : VReg
  a : VReg
  b : Opnd
  q : PReg
  inv : Bool
  deriving DecidableEq, Repr

/-- `vpand`, `vpor`, `vpxor` (R132). -/
structure PLog where
  g : LGuard
  pd : PReg
  pa : PReg
  pb : PReg
  deriving DecidableEq, Repr

/-- Address modes (R135). -/
inductive AMode where
  | contig (sb : SReg)
  | indexed (sb : SReg) (va : VReg)
  | pointer (va : VReg)
  deriving DecidableEq, Repr

/-- Plain lane memory instructions (R134). -/
structure MemL where
  g : LGuard
  ty : Ty
  d : VReg
  mode : AMode
  off : BitVec 32
  deriving DecidableEq, Repr

/-- Atomic kinds (R142). -/
inductive AKind where
  | add | and | or | xor | min | max | exch
  deriving DecidableEq, Repr

/-- Vector atomics (R142). -/
structure AtomL where
  g : LGuard
  ty : Ty
  kind : AKind
  d : VReg
  mode : AMode
  scope : Scope
  order : Order
  c : Opnd
  deriving DecidableEq, Repr

/-- Fill of a lane shift (R153). -/
inductive Fill where
  | zero | keep | rot
  | c (x : Opnd)
  deriving DecidableEq, Repr

/-- `vshup`, `vshdn` (R153). -/
structure ShiftL where
  g : LGuard
  ty : Ty
  d : VReg
  a : VReg
  count : Opnd
  fill : Fill
  deriving DecidableEq, Repr

/-- `vperm`, `vbcast` (R153). -/
structure PermL where
  g : LGuard
  ty : Ty
  d : VReg
  a : VReg
  b : Opnd
  deriving DecidableEq, Repr

/-- Kinds of reduction (R156). -/
inductive RKind where
  | add | min | max | and | or | xor
  deriving DecidableEq, Repr

/-- `vred`, `vscan` (R153). -/
structure RedL where
  g : LGuard
  ty : Ty
  sat : Bool
  kind : RKind
  ex : Bool
  d : VReg
  a : VReg
  deriving DecidableEq, Repr

/-- Kinds of vote (R153). -/
inductive VoteKind where
  | ballot | any | all
  deriving DecidableEq, Repr

/-- `mma`, `mmas` (R161). -/
structure MmaL where
  g : LGuard
  tile : BitVec 6
  fw : VReg
  sa : SReg
  sb : SReg
  deriving DecidableEq, Repr

/-- Activation of `mepi` (R168). -/
inductive Act where
  | none | relu | clamp
  deriving DecidableEq, Repr

/-- `mepi` (R161, R168). -/
structure MepiL where
  g : LGuard
  tile : BitVec 6
  ty : Ty
  m : Modf
  glob : Bool
  add : Bool
  act : Act
  sb : Bool
  int : Bool
  base : SReg
  par : SReg
  deriving DecidableEq, Repr

/-- `vdist` (R161, R173). -/
structure DistL where
  g : LGuard
  ty : Ty
  l2 : Bool
  d : VReg
  q : SReg
  c : SReg
  deriving DecidableEq, Repr

/-! ### Packets and commands -/

/-- Header of a packet (R353); the code is the constructor. -/
structure PktHdr where
  urgent : Bool
  after : Bool
  tag : BitVec 32
  issue : Word
  deriving DecidableEq, Repr

/-- Body of LAUNCH and LAUNCH_ACTIVITY (R354). -/
structure LaunchBody where
  desc : Word
  bitmap : Word
  deriving DecidableEq, Repr

/-- Body of WAIT_WORD (R354). -/
structure WaitBody where
  addr : Word
  value : Word
  mask : Word
  rel : Rel
  timeout : Word
  deriving DecidableEq, Repr

/-- The groups a debug command names (R341): of a launch, of one of its blocks, or one group. -/
structure DbgTarget where
  launch : Word
  block : Option Nat
  idx : Option Nat
  deriving DecidableEq, Repr

/-- What a debug READ or WRITE names (R341, R342). -/
inductive DbgReg where
  | s (r : SReg)
  | v (r : VReg)
  | c (r : CReg)
  | p (r : PReg)
  | scalarPc
  | lanePc (split : Nat)
  | faultmask | lanedone | memmask
  | handle (r : HReg)
  | counter (k : Nat)
  | special (idx : BitVec 10)
  deriving DecidableEq, Repr

/-- A value that a debug WRITE carries. -/
inductive DbgVal where
  | word (x : Word)
  | mask (x : Mask)
  | lanes (x : Lanes)
  | pc (ov off : Nat)
  deriving DecidableEq, Repr

/-- Quotas of a virtual interface (R281). -/
structure Quota where
  clusters : BitVec 32
  slots : List Nat
  queues : Nat
  heap : Nat
  phasers : Nat
  contexts : Nat
  deriving DecidableEq, Repr

/-- Who asks for a core (R343). -/
inductive Requester where
  | waitingBlock (b : Nat)
  | gating
  | inField
  | selfTest
  | fencing
  deriving DecidableEq, Repr

/-- Where an uncorrectable error strikes (R172, R382). -/
inductive ErrSite where
  | line (pa : Nat) (ctx : Option Nat)
  | tileOp (op : Nat)
  | tile (g t : Nat)
  | group (g : Nat)
  | stackEntry (act : Nat) (seq : Nat)
  | engine (op : Nat)
  | link (die : Nat)
  | saveRecord (b : Nat)
  deriving DecidableEq, Repr

/-- Units named in an error record (R382). -/
inductive ErrUnit where
  | core | accumulator | sharedCache | hbm | dieLink | hostPort | stack
  deriving DecidableEq, Repr

/-- What an error record says of the place of a corrected error: its address, and the context that was involved, if there was one (R382). -/
structure ErrPlace where
  addr : Nat
  ctx : Option Nat
  deriving DecidableEq, Repr

/-- One way of an IDE stream of the host port: what it sends, or what it receives (R371, R372). -/
structure IdeWay where
  stream : Nat
  rx : Bool
  deriving DecidableEq, Repr

/-- A flit of what the package sends in an IDE stream (R372). -/
structure IdeFlit where
  stream : Nat
  flit : Nat
  deriving DecidableEq, Repr

/-- A decoupled queue (R95). -/
inductive QUnit where
  | laneRuns (g : Nat)
  | copyCmds (core : Nat)
  | dieLink (die : Nat)
  deriving DecidableEq, Repr

/-- A firmware image as its checks see it (R385). -/
structure FwImage where
  version : Nat
  signed : Bool
  deriving DecidableEq, Repr

/-- An access that reaches memory from outside through the host port or the peer port (R264, R375). -/
inductive ExtAccess where
  | read (pa : Nat) (size : Nat)
  | write (pa : Nat) (size : Nat) (value : Word)
  | atom (pa : Nat) (ty : Ty) (op : AKind) (value : Word)
  | cas (pa : Nat) (ty : Ty) (old new : Word)
  deriving DecidableEq, Repr

/-- A register the driver writes that does nothing of its own (R348, R362). -/
inductive PlainReg where
  | queueDesc (q : Nat) (bits : BitVec 512)
  | crd (q : Nat) (value : Word)
  | hostWindow (i : Nat) (base limit : Nat)
  | gateHold (die : Nat) (ns : Option Nat)
  | testInterval (cluster : Nat) (ns : Nat)
  deriving DecidableEq, Repr

/-! ### The instructions -/

/-- One constructor for each row of spec/opcode_table.json. -/
inductive Instr where
  -- register arithmetic, R98
  | sadd (d a b : SReg) (g : CReg)
  | ssub (d a b : SReg) (g : CReg)
  | smul (d a b : SReg) (g : CReg)
  | smulh (d a b : SReg) (g : CReg)
  | smulhn (d a b : SReg) (g : CReg)
  | sand (d a b : SReg) (g : CReg)
  | sor (d a b : SReg) (g : CReg)
  | sxor (d a b : SReg) (g : CReg)
  | sshl (d a b : SReg) (g : CReg)
  | sshr (d a b : SReg) (g : CReg)
  | ssra (d a b : SReg) (g : CReg)
  | smin (d a b : SReg) (g : CReg)
  | smax (d a b : SReg) (g : CReg)
  | sminn (d a b : SReg) (g : CReg)
  | smaxn (d a b : SReg) (g : CReg)
  | ssel (d a b : SReg) (g : CReg)
  | sbfx (d a b : SReg) (g : CReg)
  | sbfi (d a b : SReg) (g : CReg)
  | spopc (d a : SReg) (g : CReg)
  | sclz (d a : SReg) (g : CReg)
  | sctz (d a : SReg) (g : CReg)
  | smov (d a : SReg) (g : CReg)
  | scmp (cd : CReg) (rel : Rel) (a b : SReg) (g : CReg)
  -- immediates, R100
  | saddi (d a : SReg) (imm : BitVec 10)
  | sandi (d a : SReg) (imm : BitVec 10)
  | sori (d a : SReg) (imm : BitVec 10)
  | sxori (d a : SReg) (imm : BitVec 10)
  | sshli (d a : SReg) (sh : BitVec 6)
  | sshri (d a : SReg) (sh : BitVec 6)
  | ssrai (d a : SReg) (sh : BitVec 6)
  | smovi (d : SReg) (imm : BitVec 17)
  | scmpi (cd : CReg) (rel : Rel) (a : SReg) (imm : BitVec 10)
  -- control transfer, R103
  | sbr (g : CReg) (n : Bool) (off : BitVec 20)
  | sjmpr (a : SReg) (g : CReg)
  | scall (g : CReg) (n : Bool) (off : BitVec 20)
  | sxcall (ov : BitVec 8) (entry : BitVec 12)
  | sret (g : CReg)
  | sloop (d : SReg) (imm : BitVec 10)
  | sexit (g : CReg)
  | syield (g : CReg)
  | snop (g : CReg)
  | sprog (a : SReg) (g : CReg)
  -- scalar memory, R109
  | sldb (d a : SReg) (imm : BitVec 10)
  | sldh (d a : SReg) (imm : BitVec 10)
  | sldw (d a : SReg) (imm : BitVec 10)
  | sldd (d a : SReg) (imm : BitVec 10)
  | sstb (d a : SReg) (imm : BitVec 10)
  | ssth (d a : SReg) (imm : BitVec 10)
  | sstw (d a : SReg) (imm : BitVec 10)
  | sstd (d a : SReg) (imm : BitVec 10)
  | satom (d a b : SReg) (g : CReg) (scope : Scope) (order : Order)
  | scas (d a b : SReg) (g : CReg) (scope : Scope) (order : Order) (e : SReg)
  | sfence (scope : Scope) (kind : FenceKind)
  -- lane runs, waits, votes
  | lrun (off : BitVec 12)
  | lrunr (a : SReg) (g : CReg)
  | lwait (g : CReg)
  | svote (d : SReg) (q : BitVec 2) (g : CReg)
  | swait (ld st cp tl : BitVec 6)
  -- engines and handles
  | cpy (h : HReg) (a b : SReg) (sub : BitVec 2)
  | cpyg (h : HReg) (a b : SReg) (glob : Bool)
  | cpyst (h : HReg) (a b : SReg)
  | scwp (d : SReg) (ch : BitVec 3)
  | ovld (h : HReg) (a : SReg)
  | ovrel (h : HReg)
  | hwait (h : HReg)
  | htest (h : HReg) (b : SReg)
  | hcancel (h : HReg)
  | hsend (h : HReg) (a : SReg)
  | hrecv (h : HReg) (a : SReg)
  -- phasers, R202; `pkg` is sub[0]
  | phreg (d a b : SReg) (mode : PhMode) (pkg : Bool)
  | phdrop (a : SReg) (pkg : Bool)
  | pharr (d a b : SReg) (pkg : Bool)
  | phaw (d a b : SReg) (pkg : Bool)
  | phwt (a b : SReg) (pkg : Bool)
  | phqry (d a : SReg) (pkg : Bool)
  | wsplit (d : SReg)
  | wret (a : SReg)
  | phdrain (d a b : SReg)
  -- launch
  | disp (d : SReg)
  | dlqry (d : SReg) (dl : Bool)
  | wupok
  | sndon
  | sndoff
  -- activity
  | actopen (d a : SReg) (commute : Bool)
  | actseal
  | actend
  | actabn
  | actdep (a : SReg)
  | cmpok
  | cmpfail (a : SReg)
  -- time, special registers, traps
  | stime (d : SReg) (g : CReg)
  | scyc (d : SReg) (g : CReg)
  | sgetx (d : SReg) (idx : BitVec 10)
  | ssetx (a : SReg) (idx : BitVec 10)
  | strap (code : BitVec 10)
  | stret (skip : Bool)
  | sbrk (g : CReg)
  | slit (d : SReg) (hi : Bool) (lit : BitVec 32)
  -- lane integer, R121
  | vadd (w : Bin)
  | vsub (w : Bin)
  | vmul (w : Bin)
  | vmulh (w : Bin)
  | vmad (w : Ter)
  | vand (w : Bin)
  | vor (w : Bin)
  | vxor (w : Bin)
  | vnot (w : Un)
  | vshl (w : Bin)
  | vshr (w : Bin)
  | vsra (w : Bin)
  | vmin (w : Bin)
  | vmax (w : Bin)
  | vabs (w : Un)
  | vneg (w : Un)
  | vclz (w : Un)
  | vpopc (w : Un)
  | vbfx (w : Bin)
  | vbfi (w : Bin)
  | vbrev (w : Un)
  | vaddmin (w : Ter)
  | vaddmax (w : Ter)
  -- lane floating point, R125
  | vfadd (w : Bin)
  | vfsub (w : Bin)
  | vfmul (w : Bin)
  | vfma (w : Ter)
  | vfmin (w : Bin)
  | vfmax (w : Bin)
  | vfabs (w : Un)
  | vfneg (w : Un)
  | vfrcp (w : Un)
  | vfrsq (w : Un)
  | vfsqrt (w : Un)
  | vfex2 (w : Un)
  | vflg2 (w : Un)
  | vfsin (w : Un)
  | vfcos (w : Un)
  | vfdiv (w : Bin)
  | vfrnd (w : Un)
  | vfcls (w : Un)
  | vfscl (w : Bin)
  -- conversions, compares, predicates, moves, R128 to R133
  | vcvt (w : Cvt)
  | vpack (w : Cvt)
  | vunpk (w : Cvt)
  | vcmp (w : CmpL)
  | vsel (w : SelL)
  | vpand (w : PLog)
  | vpor (w : PLog)
  | vpxor (w : PLog)
  | vpnot (g : LGuard) (pd pa : PReg)
  | vmov (g : LGuard) (ty : Ty) (d : VReg) (b : Opnd)
  | vmovi (g : LGuard) (ty : Ty) (d : VReg) (imm : Elem)
  | vlaneid (g : LGuard) (d : VReg)
  | vp2v (g : LGuard) (d : VReg) (pa : PReg)
  | vv2p (g : LGuard) (pd : PReg) (a : VReg)
  -- lane memory, R137 to R145
  | vld (w : MemL)
  | vst (w : MemL)
  | vlds (w : MemL)
  | vsts (w : MemL)
  | vldsf (w : MemL)
  | vstsf (w : MemL)
  | vldsp (w : MemL)
  | vatom (w : AtomL)
  | vatoms (w : AtomL)
  | vcas (w : AtomL)
  | vprf (w : MemL)
  | vldx (w : MemL)
  | vstx (w : MemL)
  -- exchange, R153
  | vshup (w : ShiftL)
  | vshdn (w : ShiftL)
  | vperm (w : PermL)
  | vbcast (w : PermL)
  | vred (w : RedL)
  | vscan (w : RedL)
  | vvote (g : LGuard) (kind : VoteKind) (pd pa : PReg)
  | velect (g : LGuard) (pd : PReg)
  -- tile, R161
  | mma (w : MmaL)
  | mmas (w : MmaL)
  | mzero (g : LGuard) (tile : BitVec 6)
  | mepi (w : MepiL)
  | mtrd (g : LGuard) (d : VReg) (tile : BitVec 6) (col : BitVec 5)
  | vdist (w : DistL)
  | topk (g : LGuard) (a b : VReg) (list : SReg)
  | topkm (g : LGuard) (dst src : SReg)
  -- lane control, R82
  | lbr (g : LGuard) (target rc : BitVec 12)
  | ljmp (target : BitVec 12)
  | lrec
  | lexit (g : LGuard)
  | lend
  | lcall (target : BitVec 12)
  | lret
  | lpack
  | lwaitc (ld st cp tl : BitVec 6)
  | lnop
  | ltrap (g : LGuard) (code : BitVec 10)
  -- packets, R354
  | nop (h : PktHdr)
  | launch (h : PktHdr) (b : LaunchBody)
  | launchActivity (h : PktHdr) (b : LaunchBody) (id : BitVec 32) (report : Word)
  | copy (h : PktHdr) (dst src len : Word)
  | signal (h : PktHdr) (addr value : Word) (add : Bool)
  | waitWord (h : PktHdr) (b : WaitBody)
  | rangeCommit (h : PktHdr) (image : Word) (invalidate : Bool)
  | preloadOverlay (h : PktHdr) (table : Word) (len index : BitVec 16)
  | activityResume (h : PktHdr) (id : BitVec 32) (report : Word)
  | activityDiscard (h : PktHdr) (id : BitVec 32) (report : Word)
  | queueBarrier (h : PktHdr) (mask : Word)
  -- the driver's answers to a translation fault, R276
  | retry (ctx : Nat) (seq : BitVec 32)
  | faultTrap (ctx : Nat) (seq : BitVec 32)
  | fatal (ctx : Nat) (seq : BitVec 32)
  -- debug port, R341
  | stop (ctx : Nat) (t : DbgTarget)
  | resume (ctx : Nat) (t : DbgTarget)
  | read (ctx : Nat) (t : DbgTarget) (r : DbgReg)
  | write (ctx : Nat) (t : DbgTarget) (r : DbgReg) (x : DbgVal)
  | enable (ctx : Nat)
  | disable (ctx : Nat)
  -- events of groups and operations; `g` is a group's key, `op` an operation's key
  | groupStart (g : Nat)
  | groupExitComplete (g : Nat)
  | loadComplete (op : Nat) (lo hi : Mask)
  | storeAck (op : Nat) (part : Mask)
  | tileOpRetire (op : Nat)
  | copyComplete (op : Nat)
  | nvmeCompletion (op : Nat) (ok : Bool)
  | fullEmptyWaitDone (g split : Nat) (lane : BitVec 8)
  | rejectedAccessRetry (op : Nat) (accepted : Bool)
  | translationMissRetry (cluster miss : Nat) (accepted : Bool)
  | queueBlockTimeout (q down : QUnit)
  | probeToken (tok : Nat) (next : Option QUnit)
  | slackClassRecompute
  | syieldWindowExpiry (g : Nat)
  | ageingFloor (g : Nat) (split : Option Nat)
  | overlayLoadEnd (core copy : Nat) (verified : Bool)
  | dispenserRequest (g : Nat)
  | blockStart (b : Nat)
  | wrapTime (l : Nat)
  | deadline (l : Nat)
  | sectionOverrun (g : Nat)
  | launchComplete (l : Nat)
  | launchReplay (l : Nat)
  -- completions of packets
  | copyPacketComplete (p : Nat)
  | waitWordSatisfied (p : Nat)
  | waitWordTimeout (p : Nat)
  | rangeCommitComplete (p : Nat)
  -- ostler and driver
  | completionRoom (q : Nat)
  | msixCoalesceTimeout (q : Nat)
  | msixRateDelay (vif : Nat)
  | ostlerWatchdog
  | queueBind (vif q : Nat) (desc : BitVec 512)
  | queueUnbind (q : Nat)
  | storageWindowRegister (ctx w : Nat) (entry : BitVec 512)
  | storageWindowWithdraw (ctx w : Nat)
  | quotaSet (vif : Nat) (quota : Quota)
  | contextCreate (vif pa : Nat)
  | contextFlagsWrite (ctx : Nat) (flags : BitVec 16)
  | teardown (ctx : Nat)
  | contextRelease (ctx : Nat)
  -- a group reached a STOP boundary, R341
  | groupStopped (g : Nat)
  -- pre-emption, R343 to R347
  | preempt (b : Nat) (who : Requester)
  | drainBudgetExpire (b : Nat)
  | saveRecordWrite (b : Nat)
  | restore (b core : Nat)
  -- reliability, R380 to R384
  | uncorrectableError (site : ErrSite) (unit : ErrUnit)
  | correctedError (unit : ErrUnit) (loc : BitVec 16) (addr : ErrPlace)
  | selfTest (core : Nat)
  | selfTestResult (core : Nat) (pass : Bool)
  | inFieldTest (cluster : Nat)
  | audit (l tile core : Nat)
  | auditCompare (a : Nat)
  -- activity, R324, R325
  | compensationStart (act core : Nat)
  | compensationBudgetExpire (g : Nat)
  -- coherence, R260 to R264; `line` is a physical address divided by 64
  | rdS (die line : Nat)
  | rdX (die line : Nat)
  | upg (die line : Nat)
  | wb (die line : Nat)
  | evC (die line : Nat)
  | invAck (die line : Nat)
  | fwdData (die line : Nat)
  | data (die line : Nat)
  | grant (die line : Nat)
  | inv (die line : Nat)
  | fwdS (die line : Nat)
  | fwdX (die line : Nat)
  | wbAck (die line : Nat)
  | hostSnoop (line : Nat)
  | backInvalidate (line : Nat)
  | backInvalidateResponse (line : Nat)
  | hostAccess (a : ExtAccess) (cache : Bool)
  | peerAccess (peer : BitVec 4) (a : ExtAccess)
  | peerLinkDown (peer : BitVec 4) (down : Bool)
  | peerNumberSet (peer : BitVec 4) (up : Bool)
  -- link, R364 to R370
  | wakeRequest (die : Nat)
  | powerGood (die : Nat)
  | hitch (die : Nat)
  | hitchTimeout (die : Nat)
  | gateRequest (die : Nat)
  | resetRequest (die : Nat)
  | gateHoldTimeout (die : Nat)
  | dieDrainComplete (die : Nat)
  | linkLoss (die : Nat)
  | packageReset
  | firmwareLoad (image : FwImage)
  -- host port, R372, R373, R386
  | keyRollover (way : IdeWay)
  | markerAck (way : IdeWay)
  | ideIntegrityFailure
  | timeSourceSelect (src : BitVec 2)
  | timeMeasurement (offset : BitVec 32)
  | holdover
  | getVersion
  | getCapabilities
  | negotiateAlgorithms (ed25519 sha512 : Bool)
  | getDigests
  | getCertificate (slot : Nat)
  | challenge (slot : Nat)
  | getMeasurements (index : Nat)
  | keyExchange (slot : Nat)
  | finish
  -- module, R387, R388
  | powerWindow (watts : BitVec 16)
  | thermalThrottle (die : Nat) (temp : BitVec 8)
  | thermalTrip (die : Nat) (temp : BitVec 8)
  | errpendClear
  | registerWrite (r : PlainReg)
  | copyBytesDelivered (op n : Nat)
  | queuePairDeleted (ctx w : Nat)
  | inFieldTestEnd (cluster : Nat) (pass : Bool)
  | replayRequest (flit : IdeFlit)
  deriving DecidableEq, Repr

/-- What the protocol between a directory and a party does (R260). -/
inductive CohEv where
  | rdS | rdX | upg | wb | evC | invAck | fwdData | data | grant | inv | fwdS | fwdX | wbAck
  deriving DecidableEq, Repr, Inhabited

/-- What an L1 does of itself with a line (R258): it reads it, takes it exclusive and clean, or drops it. -/
inductive L1Act where
  | read | own | evict
  deriving DecidableEq, Repr, Inhabited

/-- Who moves in the next step: a stream of a group, the ostler, a die switching to a committed set of range
registers (R274), a core reading one word of an overlay image it loads (R181), a tile operation
writing some lanes of its register (R163), a store performed at die scope before its acknowledgement (R257), a die's home slices or an L1 (R258, R259), a
decoupled queue whose head is blocked by a full queue or moves (R95), a sender of an IDE stream that reports its replay buffer free of old flits (R372), the edge
of the 1PPS input (R373), a step of the bring-up (R387), or an event. The spec fixes no order among them (R87, R91, R389). -/
inductive Turn where
  | idle
  | scalar (g : Nat)
  | lane (g split : Nat)
  | ostler
  | rangeSwitch (die ctx : Nat)
  | overlayRead (copy word : Nat)
  | tileLanes (op : Nat) (lanes : BitVec 256)
  | storePerform (op : Nat) (lanes : BitVec 256)
  | home (die : Nat) (ev : CohEv) (cluster line : Nat)
  | l1 (core line : Nat) (act : L1Act)
  | queueBlocks (q down : QUnit)
  | queueMoves (q : QUnit)
  | ideFree (stream : Nat) (rx : Bool)
  | ideBad (stream : Nat)
  | ppsEdge
  | hbmTrained
  | hostTrained (width speed : Nat)
  | event (e : Instr)
  deriving DecidableEq, Repr, Inhabited

/-- A turn, with the time-base nanoseconds and core clocks that pass before it. -/
structure Slot where
  turn : Turn
  ns : Nat
  clk : Nat
  deriving DecidableEq, Repr, Inhabited

end Sys2Proof
end

