-- ==== Sys2Proof/WellFormed.lean ====
section
/-!
DEFINITION. Which instructions are well formed: the legality rules that a word must meet beyond the layout of its fields
(R11, R16, R46, R47, R49 to R52 and each instruction's own encoding table). `decode` refuses a word that breaks one.
-/

namespace Sys2Proof

namespace Ty

/-- Two's complement or unsigned integer types (R5). -/
def isInt : Ty → Bool
  | .i32 | .n32 | .i16 | .n16 | .i8 | .n8 | .i64 | .n64 => true
  | .f32 | .f16 | .bf16 | .e4m3 | .e5m2 | .gd8 => false

/-- Signed integer types (R52). -/
def isSigned : Ty → Bool
  | .i32 | .i16 | .i8 | .i64 => true
  | .n32 | .n16 | .n8 | .n64 | .f32 | .f16 | .bf16 | .e4m3 | .e5m2 | .gd8 => false

/-- Width in bits (R5). -/
def bits : Ty → Nat
  | .i32 | .n32 | .f32 => 32
  | .f16 | .bf16 | .i16 | .n16 => 16
  | .i8 | .n8 | .e4m3 | .e5m2 | .gd8 => 8
  | .i64 | .n64 => 64

/-- Access size in bytes (R136). -/
def size (t : Ty) : Nat := t.bits / 8

/-- Types that use a register pair (R16). -/
def wide (t : Ty) : Bool := t.bits == 64

/-- f32, f16 and bf16, the types of the floating-point instructions (R124). -/
def isFp : Ty → Bool
  | .f32 | .f16 | .bf16 => true
  | .i32 | .n32 | .i16 | .n16 | .i8 | .n8 | .e4m3 | .e5m2 | .gd8 | .i64 | .n64 => false

end Ty

namespace Wf

/-- A pair starts at an even register (R16). -/
def pair (t : Ty) (r : VReg) : Bool := !t.wide || !r.getLsbD 0

/-- No rounding mode but rn (R11). -/
def rnOnly (m : Modf) : Bool := m.rnd == .rn

/-- No saturation (R11). -/
def noSat (m : Modf) : Bool := !m.sat

/-- No modifier at all. -/
def plain (m : Modf) : Bool := rnOnly m && noSat m

/-- The bits of an immediate above an 8- or 16-bit value are those R15 places there (R47). -/
def imm (t : Ty) (x : Elem) : Bool :=
  match t with
  | .i8 => x == (x.truncate 8).signExtend 32
  | .i16 => x == (x.truncate 16).signExtend 32
  | .n8 | .e4m3 | .e5m2 | .gd8 => x == (x.truncate 8).zeroExtend 32
  | .n16 | .f16 | .bf16 => x == (x.truncate 16).zeroExtend 32
  | .i32 | .n32 | .f32 | .i64 | .n64 => true

/-- Operand b of type t (R16, R46, R47). -/
def opnd (t : Ty) : Opnd → Bool
  | .v r => pair t r
  | .s _ => true
  | .imm x => imm t x

/-- Operand c, or an operand b that may not be immediate (R46). -/
def opndC (t : Ty) : Opnd → Bool
  | .v r => pair t r
  | .s _ => true
  | .imm _ => false

/-- A unary integer instruction (R120, R121). -/
def intUn (sat : Bool) (w : Un) : Bool :=
  w.ty.isInt && rnOnly w.m && (sat || noSat w.m) && pair w.ty w.d && pair w.ty w.a

/-- A binary integer instruction whose b has the type (R120, R121). -/
def intBin (sat : Bool) (w : Bin) : Bool :=
  w.ty.isInt && rnOnly w.m && (sat || noSat w.m) && pair w.ty w.d && pair w.ty w.a && opnd w.ty w.b

/-- A shift or bit field, whose b is n32 (R122). -/
def intShift (sat : Bool) (w : Bin) : Bool :=
  w.ty.isInt && rnOnly w.m && (sat || noSat w.m) && pair w.ty w.d && pair w.ty w.a && opnd .n32 w.b

/-- The registers of three operands (R16, R46). -/
def terRegs (w : Ter) : Bool :=
  pair w.ty w.d && pair w.ty w.a && opndC w.ty w.b && opndC w.ty w.c

/-- `vaddmin`, `vaddmax` (R120, R123). -/
def addSel (w : Ter) : Bool := terRegs w && (w.ty.isFp || (w.ty.isInt && rnOnly w.m))

/-- A unary floating-point instruction, with its rnd and sat columns of R125. -/
def fpUn (rnd sat : Bool) (w : Un) : Bool :=
  w.ty.isFp && (rnd || rnOnly w.m) && (sat || noSat w.m)

/-- A binary floating-point instruction, with its rnd and sat columns of R125. -/
def fpBin (rnd sat : Bool) (w : Bin) : Bool :=
  w.ty.isFp && (rnd || rnOnly w.m) && (sat || noSat w.m) && opnd w.ty w.b

/-- The modifier of a conversion from src to dst (R11, R128). -/
def cvtMod (dst src : Ty) (m : Modf) : Bool :=
  match dst.isInt, src.isInt, dst with
  | _, _, .gd8 => rnOnly m
  | true, true, _ => rnOnly m
  | _, _, _ => true

/-- `vpack` destination and source types (R129). -/
def packTypes (dst src : Ty) : Bool :=
  (dst.bits != 32 && dst.bits != 64) && src.bits == 32

/-- `vcmp` relation and type (R52). -/
def relTy (t : Ty) (r : Rel) : Bool :=
  match r with
  | .eq | .ne | .lt | .le | .gt | .ge => true
  | .ltn | .len | .gtn | .gen => t.isInt
  | .ord | .unord => !t.isInt

/-- A scalar compare's relation (R102). -/
def relScalar (r : Rel) : Bool := r != .ord && r != .unord

/-- An address mode; a global pointer is a register pair (R135). -/
def mode (glob : Bool) : AMode → Bool
  | .contig _ => true
  | .indexed _ _ => true
  | .pointer va => !glob || !va.getLsbD 0

/-- A plain memory instruction (R134, R136). -/
def mem (glob : Bool) (w : MemL) : Bool := pair w.ty w.d && mode glob w.mode

/-- A full/empty instruction (R140). -/
def fullEmpty (w : MemL) : Bool := (w.ty == .i32 || w.ty == .n32 || w.ty == .f32) && mode false w.mode

/-- Types of a vector atomic of a kind (R142). -/
def atomTy (t : Ty) (k : AKind) : Bool :=
  match t with
  | .i32 | .n32 | .i64 | .n64 => true
  | .f32 => k == .add || k == .min || k == .max || k == .exch
  | .f16 | .bf16 | .i16 | .n16 | .i8 | .n8 | .e4m3 | .e5m2 | .gd8 => false

/-- A vector atomic (R142). -/
def atom (w : AtomL) : Bool :=
  atomTy w.ty w.kind && pair w.ty w.d && mode true w.mode && opndC w.ty w.c

/-- A lane shift (R153). -/
def shift (w : ShiftL) : Bool :=
  pair w.ty w.d && pair w.ty w.a &&
  match w.count, w.fill with
  | .v _, _ => false
  | .imm _, .c _ => false
  | .s _, .c x => opndC w.ty x
  | _, _ => true

/-- Kind, type and saturation of a reduction (R156). -/
def red (w : RedL) : Bool :=
  pair w.ty w.d && pair w.ty w.a &&
  (match w.kind with
   | .add => w.ty.isInt || w.ty == .f32
   | .min | .max => w.ty.isInt || w.ty.isFp
   | .and | .or | .xor => w.ty.isInt) &&
  (!w.sat || (w.kind == .add && w.ty.isInt))

/-- The type `mepi` converts from (R169). -/
def mepiSrc (w : MepiL) : Ty := if w.int && !w.sb && w.act != .clamp then .i32 else .f32

/-- `mepi` (R161, R168). -/
def mepi (w : MepiL) : Bool :=
  !w.ty.wide && cvtMod w.ty (mepiSrc w) w.m && w.base != 127 &&
  (!w.add || ((w.ty == .f32 || w.ty == .i32) && plain w.m)) &&
  (w.sb || w.act == .clamp || w.par == 0)

/-- Element types of `vdist` (R173) and its two-register run (R161). -/
def dist (w : DistL) : Bool :=
  (w.ty == .bf16 || w.ty == .e4m3 || w.ty == .gd8 || w.ty == .i8) && w.q != 127

end Wf

/-- Is the instruction well formed? Packets and events have no legality rule on their operands: a packet's are judged when it
is executed (R353), and an event names objects that its meaning looks up. -/
def Instr.wf : Instr → Bool
  | .sadd _ _ _ _ | .ssub _ _ _ _ | .smul _ _ _ _ | .smulh _ _ _ _ | .smulhn _ _ _ _ | .sand _ _ _ _ | .sor _ _ _ _
  | .sxor _ _ _ _ | .sshl _ _ _ _ | .sshr _ _ _ _ | .ssra _ _ _ _ | .smin _ _ _ _ | .smax _ _ _ _ | .sminn _ _ _ _
  | .smaxn _ _ _ _ | .ssel _ _ _ _ | .sbfx _ _ _ _ | .sbfi _ _ _ _ | .spopc _ _ _ | .sclz _ _ _ | .sctz _ _ _
  | .smov _ _ _ => true
  | .scmp _ rel _ _ _ => Wf.relScalar rel
  | .saddi _ _ _ | .sandi _ _ _ | .sori _ _ _ | .sxori _ _ _ | .sshli _ _ _ | .sshri _ _ _ | .ssrai _ _ _
  | .smovi _ _ => true
  | .scmpi _ rel _ _ => Wf.relScalar rel
  | .sbr _ _ _ | .sjmpr _ _ | .scall _ _ _ | .sxcall _ _ | .sret _ | .sloop _ _ | .sexit _ | .syield _ | .snop _
  | .sprog _ _ => true
  | .sldb _ _ _ | .sldh _ _ _ | .sldw _ _ _ | .sldd _ _ _ | .sstb _ _ _ | .ssth _ _ _ | .sstw _ _ _ | .sstd _ _ _
  | .satom _ _ _ _ _ _ | .scas _ _ _ _ _ _ _ | .sfence _ _ => true
  | .lrun _ | .lrunr _ _ | .lwait _ | .svote _ _ _ | .swait _ _ _ _ => true
  | .cpy _ a _ _ => a.toNat ≤ 125
  | .cpyg _ a _ _ => a.toNat ≤ 123
  | .cpyst _ a _ => a.toNat ≤ 124
  | .scwp _ _ | .ovld _ _ | .ovrel _ | .hwait _ | .htest _ _ | .hcancel _ | .hsend _ _ | .hrecv _ _ => true
  | .phreg _ _ _ _ _ | .phdrop _ _ | .pharr _ _ _ _ | .phaw _ _ _ _ | .phwt _ _ _ | .phqry _ _ _ | .wsplit _ | .wret _
  | .phdrain _ _ _ => true
  | .disp _ | .dlqry _ _ | .wupok | .sndon | .sndoff => true
  | .actopen _ a _ => a.toNat ≤ 123
  | .actseal | .actend | .actabn | .actdep _ | .cmpok | .cmpfail _ => true
  | .stime _ _ | .scyc _ _ | .sgetx _ _ | .ssetx _ _ | .strap _ | .stret _ | .sbrk _ | .slit _ _ _ => true
  | .vadd w | .vsub w | .vmul w => Wf.intBin true w
  | .vmulh w | .vand w | .vor w | .vxor w | .vmin w | .vmax w => Wf.intBin false w
  | .vmad w => Wf.terRegs w && w.ty.isInt && Wf.rnOnly w.m
  | .vnot w | .vclz w | .vpopc w | .vbrev w => Wf.intUn false w
  | .vneg w => Wf.intUn true w
  | .vabs w => Wf.intUn true w && w.ty.isSigned
  | .vshl w => Wf.intShift true w
  | .vshr w | .vsra w | .vbfx w | .vbfi w => Wf.intShift false w
  | .vaddmin w | .vaddmax w => Wf.addSel w
  | .vfadd w | .vfsub w | .vfmul w | .vfdiv w => Wf.fpBin true true w
  | .vfma w => Wf.terRegs w && w.ty.isFp
  | .vfmin w | .vfmax w => Wf.fpBin false false w
  | .vfabs w | .vfneg w | .vfcls w => Wf.fpUn false false w
  | .vfrcp w | .vfrsq w | .vfsqrt w | .vfex2 w | .vflg2 w | .vfsin w | .vfcos w => Wf.fpUn true true w
  | .vfrnd w => Wf.fpUn true false w
  | .vfscl w => w.ty.isFp && Wf.opnd .i32 w.b
  | .vcvt w => Wf.cvtMod w.dst w.src w.m && Wf.pair w.dst w.d && Wf.pair w.src w.a
  | .vpack w => Wf.packTypes w.dst w.src && Wf.cvtMod w.dst w.src w.m
  | .vunpk w => Wf.packTypes w.src w.dst && Wf.cvtMod w.dst w.src w.m
  | .vcmp w => Wf.relTy w.ty w.rel && Wf.pair w.ty w.a && Wf.opnd w.ty w.b
  | .vsel w => Wf.pair w.ty w.d && Wf.pair w.ty w.a && Wf.opnd w.ty w.b
  | .vpand _ | .vpor _ | .vpxor _ | .vpnot _ _ _ => true
  | .vmov _ ty d b => Wf.pair ty d && Wf.opndC ty b
  | .vmovi _ ty d x => Wf.pair ty d && Wf.imm ty x
  | .vlaneid _ _ | .vp2v _ _ _ | .vv2p _ _ _ => true
  | .vld w | .vst w => Wf.mem true w
  | .vlds w | .vsts w | .vldx w | .vstx w => Wf.mem false w
  | .vldsf w | .vstsf w | .vldsp w => Wf.fullEmpty w
  | .vatom w => Wf.atom w
  | .vatoms w => Wf.atom w && w.d == 0
  | .vcas w => Wf.atom w && w.ty.isInt && w.kind == .add
  | .vprf w => Wf.mode true w.mode && w.d == 0
  | .vshup w | .vshdn w => Wf.shift w
  | .vperm w => Wf.pair w.ty w.d && Wf.pair w.ty w.a
  | .vbcast w => Wf.pair w.ty w.d && Wf.pair w.ty w.a && (match w.b with | .v _ => false | .s _ | .imm _ => true)
  | .vred w => Wf.red w && !w.ex
  | .vscan w => Wf.red w
  | .vvote _ k pd _ => k != .ballot || pd == 0
  | .velect _ _ => true
  | .mma _ | .mmas _ | .mzero _ _ | .mtrd _ _ _ _ => true
  | .mepi w => Wf.mepi w
  | .vdist w => Wf.dist w
  | .topk _ _ _ _ | .topkm _ _ _ => true
  | .lbr _ _ _ | .ljmp _ | .lrec | .lexit _ | .lend | .lcall _ | .lret | .lpack | .lwaitc _ _ _ _ | .lnop
  | .ltrap _ _ => true
  | .groupStart _ | .groupExitComplete _ | .loadComplete _ _ _ | .storeAck _ _ | .tileOpRetire _ | .copyComplete _
  | .nvmeCompletion _ _ | .fullEmptyWaitDone _ _ _ | .rejectedAccessRetry _ _ | .translationMissRetry _ _ _
  | .queueBlockTimeout _ _ | .probeToken _ _ | .slackClassRecompute | .syieldWindowExpiry _ | .ageingFloor _ _
  | .overlayLoadEnd _ _ _ | .dispenserRequest _ | .blockStart _ | .wrapTime _ | .deadline _ | .sectionOverrun _
  | .launchComplete _ | .launchReplay _ => true
  | .nop _ | .launch _ _ | .launchActivity _ _ _ _ | .copy _ _ _ _ | .copyPacketComplete _ | .signal _ _ _ _
  | .waitWordSatisfied _ | .waitWordTimeout _ | .rangeCommit _ _ _ | .rangeCommitComplete _
  | .preloadOverlay _ _ _ _ | .activityResume _ _ _ | .activityDiscard _ _ _ | .queueBarrier _ _ => true
  | .waitWord _ b => Wf.relScalar b.rel
  | .completionRoom _ | .msixCoalesceTimeout _ | .msixRateDelay _ | .ostlerWatchdog | .queueBind _ _ _ | .queueUnbind _
  | .storageWindowRegister _ _ _ | .storageWindowWithdraw _ _ | .quotaSet _ _ | .contextCreate _ _
  | .contextFlagsWrite _ _ | .teardown _ | .contextRelease _ | .retry _ _ | .faultTrap _ _ | .fatal _ _ => true
  | .stop _ _ | .groupStopped _ | .resume _ _ | .read _ _ _ | .write _ _ _ _ | .enable _ | .disable _ => true
  | .preempt _ _ | .drainBudgetExpire _ | .saveRecordWrite _ | .restore _ _ | .uncorrectableError _ _
  | .correctedError _ _ _ | .selfTest _ | .selfTestResult _ _ | .inFieldTest _ | .audit _ _ _ | .auditCompare _
  | .compensationStart _ _ | .compensationBudgetExpire _ => true
  | .rdS _ _ | .rdX _ _ | .upg _ _ | .wb _ _ | .evC _ _ | .invAck _ _ | .fwdData _ _ | .data _ _ | .grant _ _ | .inv _ _
  | .fwdS _ _ | .fwdX _ _ | .wbAck _ _ | .hostSnoop _ | .backInvalidate _ | .backInvalidateResponse _ | .hostAccess _ _
  | .peerAccess _ _ | .peerLinkDown _ _ | .peerNumberSet _ _ => true
  | .wakeRequest _ | .powerGood _ | .hitch _ | .hitchTimeout _ | .gateRequest _ | .resetRequest _ | .gateHoldTimeout _
  | .dieDrainComplete _ | .linkLoss _ | .packageReset | .firmwareLoad _ | .keyRollover _ | .markerAck _
  | .ideIntegrityFailure | .timeSourceSelect _ | .timeMeasurement _ | .holdover => true
  | .getVersion | .getCapabilities | .negotiateAlgorithms _ _ | .getDigests | .getCertificate _ | .challenge _
  | .getMeasurements _ | .keyExchange _ | .finish => true
  | .powerWindow _ | .thermalThrottle _ _ | .thermalTrip _ _ | .errpendClear | .registerWrite _ | .copyBytesDelivered _ _
  | .queuePairDeleted _ _ | .inFieldTestEnd _ _ | .replayRequest _ => true

end Sys2Proof
end

