-- ==== Sys2Proof/Decode.lean ====
section
/-!
DEFINITION. Decoding of scalar words, lane words and packets, and the encoders that go the other way.
Decoding is total: a word that is no instruction is rejected by name (R67), which the machine turns into the
illegal-instruction trap, and a packet into the outcome REFUSED (R353).
-/

namespace Sys2Proof

/-- Why a word or packet is no instruction (R67, R353). -/
inductive Reject where
  /-- An opcode, packet code or command that the maps do not assign. -/
  | unassigned
  /-- A reserved or unused field is not zero. -/
  | reserved
  /-- A field holds a code without meaning, or an operand kind the instruction does not take. -/
  | code
  /-- The instruction's own legality rules fail (`Instr.wf`). -/
  | illFormed
  /-- A two-word form has no second word in its section (R44). -/
  | truncated
  deriving DecidableEq, Repr

abbrev Dec (α : Type) := Except Reject α

/-- Goes on only if reserved and unused fields are zero. -/
def reserve {α : Type} (ok : Bool) (k : Dec α) : Dec α := if ok then k else .error .reserved

/-! ### Codes -/

/-- Type codes (R49). -/
def Ty.code : Ty → BitVec 4
  | .i32 => 0 | .n32 => 1 | .f32 => 2 | .f16 => 3 | .bf16 => 4 | .i16 => 5 | .n16 => 6 | .i8 => 7 | .n8 => 8
  | .e4m3 => 9 | .e5m2 => 10 | .gd8 => 11 | .i64 => 12 | .n64 => 13

def Ty.ofCode (x : BitVec 4) : Option Ty :=
  match x.toNat with
  | 0 => some .i32 | 1 => some .n32 | 2 => some .f32 | 3 => some .f16 | 4 => some .bf16 | 5 => some .i16
  | 6 => some .n16 | 7 => some .i8 | 8 => some .n8 | 9 => some .e4m3 | 10 => some .e5m2 | 11 => some .gd8
  | 12 => some .i64 | 13 => some .n64 | _ => none

/-- Rounding codes (R10). -/
def Rnd.code : Rnd → BitVec 2
  | .rn => 0 | .rz => 1 | .ru => 2 | .rd => 3

def Rnd.ofCode (x : BitVec 2) : Rnd :=
  match x.toNat with
  | 0 => .rn | 1 => .rz | 2 => .ru | _ => .rd

/-- The modifier field (R10); bit 41 of the lane word must be zero. -/
def Modf.code (m : Modf) : BitVec 4 := (0 : BitVec 1) ++ BitVec.ofBool m.sat ++ m.rnd.code

def Modf.ofCode (x : BitVec 4) : Option Modf :=
  if x.getLsbD 3 then none else some ⟨x.getLsbD 2, Rnd.ofCode (x.extractLsb' 0 2)⟩

/-- Scope codes (R50). -/
def Scope.code : Scope → BitVec 3
  | .group => 0 | .block => 1 | .cluster => 2 | .die => 3 | .package => 4 | .system => 5

def Scope.ofCode (x : BitVec 3) : Option Scope :=
  match x.toNat with
  | 0 => some .group | 1 => some .block | 2 => some .cluster | 3 => some .die | 4 => some .package | 5 => some .system
  | _ => none

/-- Order codes (R51). -/
def Order.code : Order → BitVec 2
  | .relaxed => 0 | .acquire => 1 | .release => 2 | .acqRel => 3

def Order.ofCode (x : BitVec 2) : Order :=
  match x.toNat with
  | 0 => .relaxed | 1 => .acquire | 2 => .release | _ => .acqRel

/-- Fence kinds (R113). -/
def FenceKind.code : FenceKind → BitVec 2
  | .seq => 0 | .acq => 1 | .rel => 2 | .acqRel => 3

def FenceKind.ofCode (x : BitVec 2) : FenceKind :=
  match x.toNat with
  | 0 => .seq | 1 => .acq | 2 => .rel | _ => .acqRel

/-- Relation codes (R52). -/
def Rel.code : Rel → BitVec 4
  | .eq => 0 | .ne => 1 | .lt => 2 | .le => 3 | .gt => 4 | .ge => 5 | .ltn => 6 | .len => 7 | .gtn => 8 | .gen => 9
  | .ord => 10 | .unord => 11

def Rel.ofCode (x : BitVec 4) : Option Rel :=
  match x.toNat with
  | 0 => some .eq | 1 => some .ne | 2 => some .lt | 3 => some .le | 4 => some .gt | 5 => some .ge | 6 => some .ltn
  | 7 => some .len | 8 => some .gtn | 9 => some .gen | 10 => some .ord | 11 => some .unord | _ => none

/-- Phaser modes (R196). -/
def PhMode.code : PhMode → BitVec 2
  | .sig => 1 | .wait => 2 | .sw => 3

def PhMode.ofCode (x : BitVec 2) : Option PhMode :=
  match x.toNat with
  | 1 => some .sig | 2 => some .wait | 3 => some .sw | _ => none

/-- Atomic kinds (R142). -/
def AKind.code : AKind → BitVec 4
  | .add => 0 | .and => 1 | .or => 2 | .xor => 3 | .min => 4 | .max => 5 | .exch => 6

def AKind.ofCode (x : BitVec 4) : Option AKind :=
  match x.toNat with
  | 0 => some .add | 1 => some .and | 2 => some .or | 3 => some .xor | 4 => some .min | 5 => some .max | 6 => some .exch
  | _ => none

/-- Kinds of reduction (R156). -/
def RKind.code : RKind → BitVec 3
  | .add => 0 | .min => 1 | .max => 2 | .and => 3 | .or => 4 | .xor => 5

def RKind.ofCode (x : BitVec 3) : Option RKind :=
  match x.toNat with
  | 0 => some .add | 1 => some .min | 2 => some .max | 3 => some .and | 4 => some .or | 5 => some .xor | _ => none

/-- Kinds of vote (R153). -/
def VoteKind.code : VoteKind → BitVec 2
  | .ballot => 0 | .any => 1 | .all => 2

def VoteKind.ofCode (x : BitVec 2) : Option VoteKind :=
  match x.toNat with
  | 0 => some .ballot | 1 => some .any | 2 => some .all | _ => none

/-- Activations of `mepi` (R168). -/
def Act.code : Act → BitVec 2
  | .none => 0 | .relu => 1 | .clamp => 2

def Act.ofCode (x : BitVec 2) : Option Act :=
  match x.toNat with
  | 0 => some .none | 1 => some .relu | 2 => some .clamp | _ => Option.none

/-- How a compare combines (R130). -/
def Combine.code : Combine → BitVec 2
  | .set => 0 | .and => 1 | .or => 2

def Combine.ofCode (x : BitVec 2) : Option Combine :=
  match x.toNat with
  | 0 => some .set | 1 => some .and | 2 => some .or | _ => none

/-! ### Scalar words (R43, R59) -/

namespace Decode

/-- Field d, bits 23:17. -/
def fd (w : BitVec 32) : SReg := w.extractLsb' 17 7
/-- Field a, bits 16:10. -/
def fa (w : BitVec 32) : SReg := w.extractLsb' 10 7
/-- Field b, bits 9:3. -/
def fb (w : BitVec 32) : SReg := w.extractLsb' 3 7
/-- Field g, bits 2:0, or sub. -/
def fg (w : BitVec 32) : CReg := w.extractLsb' 0 3
/-- Field imm10, bits 9:0. -/
def fimm (w : BitVec 32) : BitVec 10 := w.extractLsb' 0 10
/-- A handle field names h0 to h15: bits 23:21 zero. -/
def fh (w : BitVec 32) : Bool := w.extractLsb' 21 3 == 0
def hreg (w : BitVec 32) : HReg := w.extractLsb' 17 4

def rSR (w : BitVec 32) (mk : SReg → SReg → SReg → CReg → Instr) : Dec (Instr × Nat) :=
  .ok (mk (fd w) (fa w) (fb w) (fg w), 1)

def rSR2 (w : BitVec 32) (mk : SReg → SReg → CReg → Instr) : Dec (Instr × Nat) :=
  reserve (fb w == 0) (.ok (mk (fd w) (fa w) (fg w), 1))

def rA (w : BitVec 32) (mk : SReg → CReg → Instr) : Dec (Instr × Nat) :=
  reserve (fd w == 0 && fb w == 0) (.ok (mk (fa w) (fg w), 1))

def rG (w : BitVec 32) (mk : CReg → Instr) : Dec (Instr × Nat) :=
  reserve (fd w == 0 && fa w == 0 && fb w == 0) (.ok (mk (fg w), 1))

def rNone (w : BitVec 32) (i : Instr) : Dec (Instr × Nat) :=
  reserve (w.extractLsb' 0 24 == 0) (.ok (i, 1))

def rD (w : BitVec 32) (mk : SReg → Instr) : Dec (Instr × Nat) :=
  reserve (fa w == 0 && fb w == 0 && fg w == 0) (.ok (mk (fd w), 1))

def rSI (w : BitVec 32) (mk : SReg → SReg → BitVec 10 → Instr) : Dec (Instr × Nat) :=
  .ok (mk (fd w) (fa w) (fimm w), 1)

/-- A shift immediate; bits 9:6 zero (R100). -/
def rSh (w : BitVec 32) (mk : SReg → SReg → BitVec 6 → Instr) : Dec (Instr × Nat) :=
  reserve (w.extractLsb' 6 4 == 0) (.ok (mk (fd w) (fa w) (w.extractLsb' 0 6), 1))

def rCmp (w : BitVec 32) : Dec (Instr × Nat) :=
  match Rel.ofCode (w.extractLsb' 17 4) with
  | some r => .ok (.scmp (w.extractLsb' 21 3) r (fa w) (fb w) (fg w), 1)
  | none => .error .code

def rCmpI (w : BitVec 32) : Dec (Instr × Nat) :=
  match Rel.ofCode (w.extractLsb' 17 4) with
  | some r => .ok (.scmpi (w.extractLsb' 21 3) r (fa w) (fimm w), 1)
  | none => .error .code

def rSB (w : BitVec 32) (mk : CReg → Bool → BitVec 20 → Instr) : Dec (Instr × Nat) :=
  .ok (mk (w.extractLsb' 21 3) (w.getLsbD 20) (w.extractLsb' 0 20), 1)

def rSO (w : BitVec 32) : Dec (Instr × Nat) :=
  reserve (w.extractLsb' 12 4 == 0) (.ok (.sxcall (w.extractLsb' 16 8) (w.extractLsb' 0 12), 1))

def rHA (w : BitVec 32) (mk : HReg → SReg → Instr) : Dec (Instr × Nat) :=
  reserve (fh w && fb w == 0 && fg w == 0) (.ok (mk (hreg w) (fa w), 1))

def rH (w : BitVec 32) (mk : HReg → Instr) : Dec (Instr × Nat) :=
  reserve (fh w && fa w == 0 && fb w == 0 && fg w == 0) (.ok (mk (hreg w), 1))

def rFence (w : BitVec 32) : Dec (Instr × Nat) :=
  reserve (fd w == 0 && fa w == 0 && w.extractLsb' 5 5 == 0) <|
    match Scope.ofCode (w.extractLsb' 2 3) with
    | some s => .ok (.sfence s (FenceKind.ofCode (w.extractLsb' 0 2)), 1)
    | none => .error .code

/-- The second word of satom and scas. -/
def rSX (w2 : Option (BitVec 32)) (k : Scope → Order → SReg → Dec (Instr × Nat)) : Dec (Instr × Nat) :=
  match w2 with
  | none => .error .truncated
  | some x =>
    reserve (x.extractLsb' 7 20 == 0) <|
      match Scope.ofCode (x.extractLsb' 29 3) with
      | some s => k s (Order.ofCode (x.extractLsb' 27 2)) (x.extractLsb' 0 7)
      | none => .error .code

def rSatom (w : BitVec 32) (w2 : Option (BitVec 32)) : Dec (Instr × Nat) :=
  rSX w2 fun s o e => reserve (e == 0) (.ok (.satom (fd w) (fa w) (fb w) (fg w) s o, 2))

def rScas (w : BitVec 32) (w2 : Option (BitVec 32)) : Dec (Instr × Nat) :=
  rSX w2 fun s o e => .ok (.scas (fd w) (fa w) (fb w) (fg w) s o e, 2)

def rSlit (w : BitVec 32) (w2 : Option (BitVec 32)) : Dec (Instr × Nat) :=
  match w2 with
  | none => .error .truncated
  | some x => reserve (w.extractLsb' 0 16 == 0) (.ok (.slit (fd w) (w.getLsbD 16) x, 2))

def rPhreg (w : BitVec 32) : Dec (Instr × Nat) :=
  match PhMode.ofCode (w.extractLsb' 1 2) with
  | some m => .ok (.phreg (fd w) (fa w) (fb w) m (w.getLsbD 0), 1)
  | none => .error .code

/-- A phaser word whose sub holds only the scope bit. -/
def rPh (w : BitVec 32) (ok : Bool) (mk : Bool → Instr) : Dec (Instr × Nat) :=
  reserve (ok && w.extractLsb' 1 2 == 0) (.ok (mk (w.getLsbD 0), 1))

/-- The scalar map (R61). The number beside the instruction is how many words it takes. -/
def scalarRaw (w : BitVec 32) (w2 : Option (BitVec 32)) : Dec (Instr × Nat) :=
  match (w.extractLsb' 24 8).toNat with
  | 0x01 => rSR w .sadd
  | 0x02 => rSR w .ssub
  | 0x03 => rSR w .smul
  | 0x04 => rSR w .smulh
  | 0x05 => rSR w .smulhn
  | 0x06 => rSR w .sand
  | 0x07 => rSR w .sor
  | 0x08 => rSR w .sxor
  | 0x09 => rSR w .sshl
  | 0x0A => rSR w .sshr
  | 0x0B => rSR w .ssra
  | 0x0C => rSR w .smin
  | 0x0D => rSR w .smax
  | 0x0E => rSR w .sminn
  | 0x0F => rSR w .smaxn
  | 0x10 => rSR w .ssel
  | 0x11 => rSR w .sbfx
  | 0x12 => rSR w .sbfi
  | 0x13 => rSR2 w .spopc
  | 0x14 => rSR2 w .sclz
  | 0x15 => rSR2 w .sctz
  | 0x16 => rSR2 w .smov
  | 0x17 => rCmp w
  | 0x20 => rSI w .saddi
  | 0x21 => rSI w .sandi
  | 0x22 => rSI w .sori
  | 0x23 => rSI w .sxori
  | 0x24 => rSh w .sshli
  | 0x25 => rSh w .sshri
  | 0x26 => rSh w .ssrai
  | 0x27 => .ok (.smovi (fd w) (w.extractLsb' 0 17), 1)
  | 0x28 => rCmpI w
  | 0x30 => rSB w .sbr
  | 0x31 => rA w .sjmpr
  | 0x32 => rSB w .scall
  | 0x33 => rSO w
  | 0x34 => rG w .sret
  | 0x35 => reserve (fa w == 0) (.ok (.sloop (fd w) (fimm w), 1))
  | 0x36 => rG w .sexit
  | 0x37 => rG w .syield
  | 0x38 => rG w .snop
  | 0x39 => rA w .sprog
  | 0x40 => rSI w .sldb
  | 0x41 => rSI w .sldh
  | 0x42 => rSI w .sldw
  | 0x43 => rSI w .sldd
  | 0x44 => rSI w .sstb
  | 0x45 => rSI w .ssth
  | 0x46 => rSI w .sstw
  | 0x47 => rSI w .sstd
  | 0x48 => rSatom w w2
  | 0x49 => rScas w w2
  | 0x4A => rFence w
  | 0x50 => reserve (w.extractLsb' 12 12 == 0) (.ok (.lrun (w.extractLsb' 0 12), 1))
  | 0x51 => rA w .lrunr
  | 0x52 => rG w .lwait
  | 0x53 => reserve (fa w == 0 && w.extractLsb' 5 5 == 0) (.ok (.svote (fd w) (w.extractLsb' 3 2) (fg w), 1))
  | 0x54 => .ok (.swait (w.extractLsb' 18 6) (w.extractLsb' 12 6) (w.extractLsb' 6 6) (w.extractLsb' 0 6), 1)
  | 0x60 => reserve (fh w && !(fg w).getLsbD 2) (.ok (.cpy (hreg w) (fa w) (fb w) (w.extractLsb' 0 2), 1))
  | 0x61 => reserve (fh w && w.extractLsb' 1 2 == 0) (.ok (.cpyg (hreg w) (fa w) (fb w) (w.getLsbD 0), 1))
  | 0x62 => reserve (fh w && fg w == 0) (.ok (.cpyst (hreg w) (fa w) (fb w), 1))
  | 0x63 => reserve (fa w == 0 && fb w == 0) (.ok (.scwp (fd w) (fg w), 1))
  | 0x64 => rHA w .ovld
  | 0x65 => rH w .ovrel
  | 0x66 => rH w .hwait
  | 0x67 => reserve (fh w && fa w == 0 && fg w == 0) (.ok (.htest (hreg w) (fb w), 1))
  | 0x68 => rH w .hcancel
  | 0x69 => rHA w .hsend
  | 0x6A => rHA w .hrecv
  | 0x80 => rPhreg w
  | 0x81 => rPh w (fd w == 0 && fb w == 0) (fun p => .phdrop (fa w) p)
  | 0x82 => rPh w true (fun p => .pharr (fd w) (fa w) (fb w) p)
  | 0x83 => rPh w true (fun p => .phaw (fd w) (fa w) (fb w) p)
  | 0x84 => rPh w (fd w == 0) (fun p => .phwt (fa w) (fb w) p)
  | 0x85 => rPh w (fb w == 0) (fun p => .phqry (fd w) (fa w) p)
  | 0x86 => rD w .wsplit
  | 0x87 => reserve (fd w == 0 && fb w == 0 && fg w == 0) (.ok (.wret (fa w), 1))
  | 0x88 => reserve (fg w == 1) (.ok (.phdrain (fd w) (fa w) (fb w), 1))
  | 0x90 => rD w .disp
  | 0x91 => reserve (fa w == 0 && fb w == 0 && w.extractLsb' 1 2 == 0) (.ok (.dlqry (fd w) (w.getLsbD 0), 1))
  | 0x92 => rNone w .wupok
  | 0x93 => rNone w .sndon
  | 0x94 => rNone w .sndoff
  | 0xA0 => reserve (fb w == 0 && w.extractLsb' 1 2 == 0) (.ok (.actopen (fd w) (fa w) (w.getLsbD 0), 1))
  | 0xA1 => rNone w .actseal
  | 0xA2 => rNone w .actend
  | 0xA3 => rNone w .actabn
  | 0xA4 => reserve (fd w == 0 && fb w == 0 && fg w == 0) (.ok (.actdep (fa w), 1))
  | 0xA5 => rNone w .cmpok
  | 0xA6 => reserve (fd w == 0 && fb w == 0 && fg w == 0) (.ok (.cmpfail (fa w), 1))
  | 0xB0 => reserve (fa w == 0 && fb w == 0) (.ok (.stime (fd w) (fg w), 1))
  | 0xB1 => reserve (fa w == 0 && fb w == 0) (.ok (.scyc (fd w) (fg w), 1))
  | 0xB2 => reserve (fa w == 0) (.ok (.sgetx (fd w) (fimm w), 1))
  | 0xB3 => reserve (fd w == 0) (.ok (.ssetx (fa w) (fimm w), 1))
  | 0xB4 => reserve (fd w == 0 && fa w == 0) (.ok (.strap (fimm w), 1))
  | 0xB5 => reserve (fd w == 0 && fa w == 0 && w.extractLsb' 1 9 == 0) (.ok (.stret (w.getLsbD 0), 1))
  | 0xB6 => rG w .sbrk
  | 0xFF => rSlit w w2
  | _ => .error .unassigned

end Decode

/-- Decodes a scalar word, with the word that follows it in its section if there is one (R44). -/
def decodeScalar (w : BitVec 32) (w2 : Option (BitVec 32)) : Dec (Instr × Nat) :=
  match Decode.scalarRaw w w2 with
  | .error r => .error r
  | .ok (i, n) => if i.wf then .ok (i, n) else .error .illFormed

namespace Encode

def wSR (op : BitVec 8) (d a b : SReg) (g : BitVec 3) : BitVec 32 := op ++ d ++ a ++ b ++ g
def wSI (op : BitVec 8) (d a : SReg) (imm : BitVec 10) : BitVec 32 := op ++ d ++ a ++ imm
def wSC (op : BitVec 8) (cd : CReg) (rel : BitVec 4) (a : SReg) (x : BitVec 10) : BitVec 32 := op ++ cd ++ rel ++ a ++ x
def wSB (op : BitVec 8) (g : CReg) (n : Bool) (off : BitVec 20) : BitVec 32 := op ++ g ++ BitVec.ofBool n ++ off
def wSE (op : BitVec 8) (h : HReg) (a b : SReg) (sub : BitVec 3) : BitVec 32 := wSR op ((0 : BitVec 3) ++ h) a b sub
def wSX (s : Scope) (o : Order) (e : SReg) : BitVec 32 := s.code ++ o.code ++ (0 : BitVec 20) ++ e
def wPh (b : Bool) : BitVec 3 := (0 : BitVec 2) ++ BitVec.ofBool b

end Encode

open Encode in
/-- The words of a scalar instruction (R43, R59, R61); nothing for a lane instruction, a packet or an event. -/
def encodeScalar : Instr → Option (List (BitVec 32))
  | .sadd d a b g => some [wSR 0x01 d a b g]
  | .ssub d a b g => some [wSR 0x02 d a b g]
  | .smul d a b g => some [wSR 0x03 d a b g]
  | .smulh d a b g => some [wSR 0x04 d a b g]
  | .smulhn d a b g => some [wSR 0x05 d a b g]
  | .sand d a b g => some [wSR 0x06 d a b g]
  | .sor d a b g => some [wSR 0x07 d a b g]
  | .sxor d a b g => some [wSR 0x08 d a b g]
  | .sshl d a b g => some [wSR 0x09 d a b g]
  | .sshr d a b g => some [wSR 0x0A d a b g]
  | .ssra d a b g => some [wSR 0x0B d a b g]
  | .smin d a b g => some [wSR 0x0C d a b g]
  | .smax d a b g => some [wSR 0x0D d a b g]
  | .sminn d a b g => some [wSR 0x0E d a b g]
  | .smaxn d a b g => some [wSR 0x0F d a b g]
  | .ssel d a b g => some [wSR 0x10 d a b g]
  | .sbfx d a b g => some [wSR 0x11 d a b g]
  | .sbfi d a b g => some [wSR 0x12 d a b g]
  | .spopc d a g => some [wSR 0x13 d a 0 g]
  | .sclz d a g => some [wSR 0x14 d a 0 g]
  | .sctz d a g => some [wSR 0x15 d a 0 g]
  | .smov d a g => some [wSR 0x16 d a 0 g]
  | .scmp cd rel a b g => some [wSC 0x17 cd rel.code a (b ++ g)]
  | .saddi d a imm => some [wSI 0x20 d a imm]
  | .sandi d a imm => some [wSI 0x21 d a imm]
  | .sori d a imm => some [wSI 0x22 d a imm]
  | .sxori d a imm => some [wSI 0x23 d a imm]
  | .sshli d a sh => some [wSI 0x24 d a ((0 : BitVec 4) ++ sh)]
  | .sshri d a sh => some [wSI 0x25 d a ((0 : BitVec 4) ++ sh)]
  | .ssrai d a sh => some [wSI 0x26 d a ((0 : BitVec 4) ++ sh)]
  | .smovi d imm => some [(0x27 : BitVec 8) ++ d ++ imm]
  | .scmpi cd rel a imm => some [wSC 0x28 cd rel.code a imm]
  | .sbr g n off => some [wSB 0x30 g n off]
  | .sjmpr a g => some [wSR 0x31 0 a 0 g]
  | .scall g n off => some [wSB 0x32 g n off]
  | .sxcall ov e => some [(0x33 : BitVec 8) ++ ov ++ (0 : BitVec 4) ++ e]
  | .sret g => some [wSR 0x34 0 0 0 g]
  | .sloop d imm => some [wSI 0x35 d 0 imm]
  | .sexit g => some [wSR 0x36 0 0 0 g]
  | .syield g => some [wSR 0x37 0 0 0 g]
  | .snop g => some [wSR 0x38 0 0 0 g]
  | .sprog a g => some [wSR 0x39 0 a 0 g]
  | .sldb d a imm => some [wSI 0x40 d a imm]
  | .sldh d a imm => some [wSI 0x41 d a imm]
  | .sldw d a imm => some [wSI 0x42 d a imm]
  | .sldd d a imm => some [wSI 0x43 d a imm]
  | .sstb d a imm => some [wSI 0x44 d a imm]
  | .ssth d a imm => some [wSI 0x45 d a imm]
  | .sstw d a imm => some [wSI 0x46 d a imm]
  | .sstd d a imm => some [wSI 0x47 d a imm]
  | .satom d a b g s o => some [wSR 0x48 d a b g, wSX s o 0]
  | .scas d a b g s o e => some [wSR 0x49 d a b g, wSX s o e]
  | .sfence s k => some [wSI 0x4A 0 0 ((0 : BitVec 5) ++ s.code ++ k.code)]
  | .lrun off => some [(0x50 : BitVec 8) ++ (0 : BitVec 12) ++ off]
  | .lrunr a g => some [wSR 0x51 0 a 0 g]
  | .lwait g => some [wSR 0x52 0 0 0 g]
  | .svote d q g => some [wSR 0x53 d 0 ((0 : BitVec 5) ++ q) g]
  | .swait ld st cp tl => some [(0x54 : BitVec 8) ++ ld ++ st ++ cp ++ tl]
  | .cpy h a b s => some [wSE 0x60 h a b ((0 : BitVec 1) ++ s)]
  | .cpyg h a b s => some [wSE 0x61 h a b ((0 : BitVec 2) ++ BitVec.ofBool s)]
  | .cpyst h a b => some [wSE 0x62 h a b 0]
  | .scwp d ch => some [wSR 0x63 d 0 0 ch]
  | .ovld h a => some [wSE 0x64 h a 0 0]
  | .ovrel h => some [wSE 0x65 h 0 0 0]
  | .hwait h => some [wSE 0x66 h 0 0 0]
  | .hcancel h => some [wSE 0x68 h 0 0 0]
  | .htest h b => some [wSE 0x67 h 0 b 0]
  | .hsend h a => some [wSE 0x69 h a 0 0]
  | .hrecv h a => some [wSE 0x6A h a 0 0]
  | .phreg d a b m p => some [wSR 0x80 d a b (m.code ++ BitVec.ofBool p)]
  | .phdrop a p => some [wSR 0x81 0 a 0 (wPh p)]
  | .pharr d a b p => some [wSR 0x82 d a b (wPh p)]
  | .phaw d a b p => some [wSR 0x83 d a b (wPh p)]
  | .phwt a b p => some [wSR 0x84 0 a b (wPh p)]
  | .phqry d a p => some [wSR 0x85 d a 0 (wPh p)]
  | .wsplit d => some [wSR 0x86 d 0 0 0]
  | .wret a => some [wSR 0x87 0 a 0 0]
  | .phdrain d a b => some [wSR 0x88 d a b 1]
  | .disp d => some [wSR 0x90 d 0 0 0]
  | .dlqry d s => some [wSR 0x91 d 0 0 (wPh s)]
  | .wupok => some [wSR 0x92 0 0 0 0]
  | .sndon => some [wSR 0x93 0 0 0 0]
  | .sndoff => some [wSR 0x94 0 0 0 0]
  | .actseal => some [wSR 0xA1 0 0 0 0]
  | .actend => some [wSR 0xA2 0 0 0 0]
  | .actabn => some [wSR 0xA3 0 0 0 0]
  | .cmpok => some [wSR 0xA5 0 0 0 0]
  | .actopen d a c => some [wSR 0xA0 d a 0 (wPh c)]
  | .actdep a => some [wSR 0xA4 0 a 0 0]
  | .cmpfail a => some [wSR 0xA6 0 a 0 0]
  | .stime d g => some [wSR 0xB0 d 0 0 g]
  | .scyc d g => some [wSR 0xB1 d 0 0 g]
  | .sgetx d i => some [wSI 0xB2 d 0 i]
  | .ssetx a i => some [wSI 0xB3 0 a i]
  | .strap i => some [wSI 0xB4 0 0 i]
  | .stret k => some [wSI 0xB5 0 0 ((0 : BitVec 9) ++ BitVec.ofBool k)]
  | .sbrk g => some [wSR 0xB6 0 0 0 g]
  | .slit d h l => some [(0xFF : BitVec 8) ++ d ++ BitVec.ofBool h ++ (0 : BitVec 16), l]
  | _ => none

/-! ### Lane words (R45) -/

/-- The fields of a lane word. -/
structure LaneF where
  op : BitVec 10
  n : Bool
  pg : BitVec 4
  d : BitVec 11
  a : BitVec 11
  b : BitVec 11
  bk : BitVec 2
  ty : BitVec 4
  mod : BitVec 4
  ext : BitVec 6
  imm : BitVec 32
  deriving DecidableEq, Repr

/-- Takes a lane word apart. -/
def LaneF.unpack (w : BitVec 96) : LaneF where
  op := w.extractLsb' 86 10
  n := w.getLsbD 85
  pg := w.extractLsb' 81 4
  d := w.extractLsb' 70 11
  a := w.extractLsb' 59 11
  b := w.extractLsb' 48 11
  bk := w.extractLsb' 46 2
  ty := w.extractLsb' 42 4
  mod := w.extractLsb' 38 4
  ext := w.extractLsb' 32 6
  imm := w.extractLsb' 0 32

/-- Puts a lane word together. -/
def LaneF.pack (f : LaneF) : BitVec 96 :=
  f.op ++ BitVec.ofBool f.n ++ f.pg ++ f.d ++ f.a ++ f.b ++ f.bk ++ f.ty ++ f.mod ++ f.ext ++ f.imm

namespace Decode

def gd (f : LaneF) : LGuard := ⟨f.n, f.pg⟩
/-- A field that holds a predicate number. -/
def isP (x : BitVec 11) : Bool := x.extractLsb' 4 7 == 0
def preg (x : BitVec 11) : PReg := x.extractLsb' 0 4
/-- A field that holds a tile number (R158). -/
def isT (x : BitVec 11) : Bool := x.extractLsb' 6 5 == 0
/-- A field that holds a scalar register number. -/
def isS (x : BitVec 11) : Bool := x.extractLsb' 7 4 == 0
def sreg (x : BitVec 11) : SReg := x.extractLsb' 0 7

/-- Operand b, with imm32 free for an immediate (R46). -/
def opB (f : LaneF) : Option Opnd :=
  match f.bk.toNat with
  | 0 => some (.v f.b)
  | 1 => if isS f.b then some (.s (sreg f.b)) else none
  | 2 => if f.b == 0 then some (.imm f.imm) else none
  | _ => none

/-- Operand b where imm32 is used otherwise (R46). -/
def opBx (f : LaneF) : Option Opnd :=
  match f.bk.toNat with
  | 0 => some (.v f.b)
  | 1 => if isS f.b then some (.s (sreg f.b)) else none
  | _ => none

/-- Operand c in imm32 (R46). -/
def opC (x : BitVec 32) : Option Opnd :=
  if x.extractLsb' 13 19 != 0 then none else
  match (x.extractLsb' 11 2).toNat with
  | 0 => some (.v (x.extractLsb' 0 11))
  | 1 => if x.extractLsb' 7 4 == 0 then some (.s (x.extractLsb' 0 7)) else none
  | _ => none

/-- Operand c that must be a scalar register (R161). -/
def opCs (x : BitVec 32) : Option SReg :=
  match opC x with
  | some (.s r) => some r
  | _ => none

/-- imm32 is zero unless b is an immediate. -/
def immFree (f : LaneF) : Bool := f.bk == 2 || f.imm == 0

def uUn (f : LaneF) (mk : Un → Instr) : Dec Instr :=
  reserve (f.b == 0 && f.bk == 0 && f.ext == 0 && f.imm == 0) <|
    match Ty.ofCode f.ty, Modf.ofCode f.mod with
    | some t, some m => .ok (mk ⟨gd f, t, m, f.d, f.a⟩)
    | _, _ => .error .code

def uBin (f : LaneF) (mk : Bin → Instr) : Dec Instr :=
  reserve (f.ext == 0 && immFree f) <|
    match Ty.ofCode f.ty, Modf.ofCode f.mod, opB f with
    | some t, some m, some b => .ok (mk ⟨gd f, t, m, f.d, f.a, b⟩)
    | _, _, _ => .error .code

def uTer (f : LaneF) (mk : Ter → Instr) : Dec Instr :=
  reserve (f.ext == 0) <|
    match Ty.ofCode f.ty, Modf.ofCode f.mod, opBx f, opC f.imm with
    | some t, some m, some b, some c => .ok (mk ⟨gd f, t, m, f.d, f.a, b, c⟩)
    | _, _, _, _ => .error .code

def uCvt (f : LaneF) (mk : Cvt → Instr) : Dec Instr :=
  reserve (f.b == 0 && f.bk == 0 && f.ext.extractLsb' 4 2 == 0 && f.imm == 0) <|
    match Ty.ofCode f.ty, Ty.ofCode (f.ext.extractLsb' 0 4), Modf.ofCode f.mod with
    | some t, some s, some m => .ok (mk ⟨gd f, t, s, m, f.d, f.a⟩)
    | _, _, _ => .error .code

def uCmp (f : LaneF) : Dec Instr :=
  reserve (isP f.d && f.mod == 0 && immFree f) <|
    match Ty.ofCode f.ty, Rel.ofCode (f.ext.extractLsb' 0 4), Combine.ofCode (f.ext.extractLsb' 4 2), opB f with
    | some t, some r, some k, some b => .ok (.vcmp ⟨gd f, t, r, k, preg f.d, f.a, b⟩)
    | _, _, _, _ => .error .code

def uSel (f : LaneF) : Dec Instr :=
  reserve (f.mod == 0 && !f.ext.getLsbD 5 && immFree f) <|
    match Ty.ofCode f.ty, opB f with
    | some t, some b => .ok (.vsel ⟨gd f, t, f.d, f.a, b, f.ext.extractLsb' 0 4, f.ext.getLsbD 4⟩)
    | _, _ => .error .code

def uPLog (f : LaneF) (mk : PLog → Instr) : Dec Instr :=
  reserve (isP f.d && isP f.a && isP f.b && f.bk == 0 && f.ty == 0 && f.mod == 0 && f.ext == 0 && f.imm == 0)
    (.ok (mk ⟨gd f, preg f.d, preg f.a, preg f.b⟩))

def uPNot (f : LaneF) : Dec Instr :=
  reserve (isP f.d && isP f.a && f.b == 0 && f.bk == 0 && f.ty == 0 && f.mod == 0 && f.ext == 0 && f.imm == 0)
    (.ok (.vpnot (gd f) (preg f.d) (preg f.a)))

def uMov (f : LaneF) : Dec Instr :=
  reserve (f.a == 0 && f.mod == 0 && f.ext == 0 && f.imm == 0) <|
    match Ty.ofCode f.ty, opBx f with
    | some t, some b => .ok (.vmov (gd f) t f.d b)
    | _, _ => .error .code

def uMovi (f : LaneF) : Dec Instr :=
  reserve (f.a == 0 && f.b == 0 && f.mod == 0 && f.ext == 0) <|
    match Ty.ofCode f.ty with
    | some t => if f.bk == 2 then .ok (.vmovi (gd f) t f.d f.imm) else .error .code
    | none => .error .code

/-- A word with only d and a. -/
def uPlain (f : LaneF) (ok : Bool) (i : Instr) : Dec Instr :=
  reserve (ok && f.b == 0 && f.bk == 0 && f.ty == 0 && f.mod == 0 && f.ext == 0 && f.imm == 0) (.ok i)

/-- The address mode of a memory word (R134, R135). -/
def amode (f : LaneF) : Option AMode :=
  match (f.ext.extractLsb' 4 2).toNat with
  | 0 => if f.a == 0 && f.bk == 1 && isS f.b then some (.contig (sreg f.b)) else none
  | 1 => if f.bk == 1 && isS f.b then some (.indexed (sreg f.b) f.a) else none
  | 2 => if f.bk == 0 && f.b == 0 then some (.pointer f.a) else none
  | _ => none

def uMem (f : LaneF) (mk : MemL → Instr) : Dec Instr :=
  reserve (f.mod == 0 && f.ext.extractLsb' 0 4 == 0) <|
    match Ty.ofCode f.ty, amode f with
    | some t, some m => .ok (mk ⟨gd f, t, f.d, m, f.imm⟩)
    | _, _ => .error .code

def uAtom (f : LaneF) (mk : AtomL → Instr) : Dec Instr :=
  reserve (f.mod == 0 && f.imm.extractLsb' 13 14 == 0) <|
    match Ty.ofCode f.ty, AKind.ofCode (f.ext.extractLsb' 0 4), amode f, Scope.ofCode (f.imm.extractLsb' 29 3),
        opC (f.imm.extractLsb' 0 13 |>.zeroExtend 32) with
    | some t, some k, some m, some s, some c =>
      .ok (mk ⟨gd f, t, k, f.d, m, s, Order.ofCode (f.imm.extractLsb' 27 2), c⟩)
    | _, _, _, _, _ => .error .code

def uShift (f : LaneF) (mk : ShiftL → Instr) : Dec Instr :=
  reserve (f.mod == 0 && f.ext.extractLsb' 2 4 == 0) <|
    match Ty.ofCode f.ty, (f.ext.extractLsb' 0 2).toNat with
    | some t, 3 =>
      match opBx f, opC f.imm with
      | some b, some c => .ok (mk ⟨gd f, t, f.d, f.a, b, .c c⟩)
      | _, _ => .error .code
    | some t, k =>
      reserve (immFree f) <|
        match opB f with
        | some b => .ok (mk ⟨gd f, t, f.d, f.a, b, if k == 0 then .zero else if k == 1 then .keep else .rot⟩)
        | none => .error .code
    | none, _ => .error .code

def uPerm (f : LaneF) (mk : PermL → Instr) : Dec Instr :=
  reserve (f.mod == 0 && f.ext == 0 && immFree f) <|
    match Ty.ofCode f.ty, opB f with
    | some t, some b => .ok (mk ⟨gd f, t, f.d, f.a, b⟩)
    | _, _ => .error .code

def uRed (f : LaneF) (mk : RedL → Instr) : Dec Instr :=
  reserve (f.b == 0 && f.bk == 0 && f.imm == 0 && f.ext.extractLsb' 4 2 == 0 && (f.mod &&& 11) == 0) <|
    match Ty.ofCode f.ty, RKind.ofCode (f.ext.extractLsb' 0 3) with
    | some t, some k => .ok (mk ⟨gd f, t, f.mod.getLsbD 2, k, f.ext.getLsbD 3, f.d, f.a⟩)
    | _, _ => .error .code

def uVote (f : LaneF) : Dec Instr :=
  reserve (isP f.d && isP f.a && f.b == 0 && f.bk == 0 && f.ty == 0 && f.mod == 0 && f.imm == 0 &&
      f.ext.extractLsb' 2 4 == 0) <|
    match VoteKind.ofCode (f.ext.extractLsb' 0 2) with
    | some k => .ok (.vvote (gd f) k (preg f.d) (preg f.a))
    | none => .error .code

def uElect (f : LaneF) : Dec Instr := uPlain f (isP f.d && f.a == 0) (.velect (gd f) (preg f.d))

def uMma (f : LaneF) (mk : MmaL → Instr) : Dec Instr :=
  reserve (isT f.d && isS f.b && f.ty == 0 && f.mod == 0 && f.ext == 0) <|
    match f.bk == 1, opCs f.imm with
    | true, some c => .ok (mk ⟨gd f, f.d.extractLsb' 0 6, f.a, sreg f.b, c⟩)
    | _, _ => .error .code

def uMepi (f : LaneF) : Dec Instr :=
  reserve (isT f.d && f.a == 0 && isS f.b) <|
    match Ty.ofCode f.ty, Modf.ofCode f.mod, Act.ofCode (f.ext.extractLsb' 2 2), f.bk == 1 with
    | some t, some m, some k, true =>
      let sb := f.ext.getLsbD 1
      let mk := fun c => Instr.mepi ⟨gd f, f.d.extractLsb' 0 6, t, m, f.ext.getLsbD 5, f.ext.getLsbD 4, k, sb,
        f.ext.getLsbD 0, sreg f.b, c⟩
      if sb || k == .clamp then
        match opCs f.imm with
        | some c => .ok (mk c)
        | none => .error .code
      else reserve (f.imm == 0) (.ok (mk 0))
    | _, _, _, _ => .error .code

def uMtrd (f : LaneF) : Dec Instr :=
  reserve (isT f.a && f.b == 0 && f.bk == 0 && f.ty == 0 && f.mod == 0 && !f.ext.getLsbD 5 && f.imm == 0)
    (.ok (.mtrd (gd f) f.d (f.a.extractLsb' 0 6) (f.ext.extractLsb' 0 5)))

def uDist (f : LaneF) : Dec Instr :=
  reserve (f.a == 0 && isS f.b && f.mod == 0 && f.ext.extractLsb' 1 5 == 0) <|
    match Ty.ofCode f.ty, opCs f.imm, f.bk == 1 with
    | some t, some c, true => .ok (.vdist ⟨gd f, t, f.ext.getLsbD 0, f.d, sreg f.b, c⟩)
    | _, _, _ => .error .code

def uTopk (f : LaneF) : Dec Instr :=
  reserve (f.d == 0 && f.mod == 0 && f.ext == 0) <|
    match f.ty == 2, opCs f.imm, f.bk == 0 with
    | true, some c, true => .ok (.topk (gd f) f.a f.b c)
    | _, _, _ => .error .code

def uTopkm (f : LaneF) : Dec Instr :=
  reserve (f.d == 0 && f.a == 0 && isS f.b && f.ty == 0 && f.mod == 0 && f.ext == 0) <|
    match opCs f.imm, f.bk == 1 with
    | some c, true => .ok (.topkm (gd f) c (sreg f.b))
    | _, _ => .error .code

/-- A lane control word (R82). -/
def uCtl (f : LaneF) (guarded : Bool) (ok : BitVec 32 → Bool) (i : Instr) : Dec Instr :=
  reserve (f.d == 0 && f.a == 0 && f.b == 0 && f.bk == 0 && f.ty == 0 && f.mod == 0 && f.ext == 0 && ok f.imm &&
    (guarded || (f.pg == 0 && !f.n))) (.ok i)

/-- The lane map (R62). -/
def laneRaw (f : LaneF) : Dec Instr :=
  match f.op.toNat with
  | 0x001 => uBin f .vadd
  | 0x002 => uBin f .vsub
  | 0x003 => uBin f .vmul
  | 0x004 => uBin f .vmulh
  | 0x005 => uTer f .vmad
  | 0x006 => uBin f .vand
  | 0x007 => uBin f .vor
  | 0x008 => uBin f .vxor
  | 0x009 => uUn f .vnot
  | 0x00A => uBin f .vshl
  | 0x00B => uBin f .vshr
  | 0x00C => uBin f .vsra
  | 0x00D => uBin f .vmin
  | 0x00E => uBin f .vmax
  | 0x00F => uUn f .vabs
  | 0x010 => uUn f .vneg
  | 0x011 => uUn f .vclz
  | 0x012 => uUn f .vpopc
  | 0x013 => uBin f .vbfx
  | 0x014 => uBin f .vbfi
  | 0x015 => uUn f .vbrev
  | 0x016 => uTer f .vaddmin
  | 0x017 => uTer f .vaddmax
  | 0x080 => uBin f .vfadd
  | 0x081 => uBin f .vfsub
  | 0x082 => uBin f .vfmul
  | 0x083 => uTer f .vfma
  | 0x084 => uBin f .vfmin
  | 0x085 => uBin f .vfmax
  | 0x086 => uUn f .vfabs
  | 0x087 => uUn f .vfneg
  | 0x088 => uUn f .vfrcp
  | 0x089 => uUn f .vfrsq
  | 0x08A => uUn f .vfsqrt
  | 0x08B => uUn f .vfex2
  | 0x08C => uUn f .vflg2
  | 0x08D => uUn f .vfsin
  | 0x08E => uUn f .vfcos
  | 0x08F => uBin f .vfdiv
  | 0x090 => uUn f .vfrnd
  | 0x091 => uUn f .vfcls
  | 0x092 => uBin f .vfscl
  | 0x100 => uCvt f .vcvt
  | 0x101 => uCvt f .vpack
  | 0x102 => uCvt f .vunpk
  | 0x103 => uCmp f
  | 0x104 => uSel f
  | 0x105 => uPLog f .vpand
  | 0x106 => uPLog f .vpor
  | 0x107 => uPLog f .vpxor
  | 0x108 => uPNot f
  | 0x109 => uMov f
  | 0x10A => uMovi f
  | 0x10B => uPlain f (f.a == 0) (.vlaneid (gd f) f.d)
  | 0x10C => uPlain f (isP f.a) (.vp2v (gd f) f.d (preg f.a))
  | 0x10D => uPlain f (isP f.d) (.vv2p (gd f) (preg f.d) f.a)
  | 0x140 => uMem f .vld
  | 0x141 => uMem f .vst
  | 0x142 => uMem f .vlds
  | 0x143 => uMem f .vsts
  | 0x144 => uMem f .vldsf
  | 0x145 => uMem f .vstsf
  | 0x146 => uMem f .vldsp
  | 0x14A => uMem f .vprf
  | 0x14B => uMem f .vldx
  | 0x14C => uMem f .vstx
  | 0x147 => uAtom f .vatom
  | 0x148 => uAtom f .vatoms
  | 0x149 => uAtom f .vcas
  | 0x1C0 => uShift f .vshup
  | 0x1C1 => uShift f .vshdn
  | 0x1C2 => uPerm f .vperm
  | 0x1C3 => uPerm f .vbcast
  | 0x1C4 => uRed f .vred
  | 0x1C5 => uRed f .vscan
  | 0x1C6 => uVote f
  | 0x1C7 => uElect f
  | 0x200 => uMma f .mma
  | 0x201 => uMma f .mmas
  | 0x202 => uPlain f (isT f.d && f.a == 0) (.mzero (gd f) (f.d.extractLsb' 0 6))
  | 0x203 => uMepi f
  | 0x204 => uMtrd f
  | 0x205 => uDist f
  | 0x206 => uTopk f
  | 0x207 => uTopkm f
  | 0x240 => uCtl f true (fun x => x.extractLsb' 28 4 == 0 && x.extractLsb' 12 4 == 0) (.lbr (gd f) (f.imm.extractLsb' 0 12) (f.imm.extractLsb' 16 12))
  | 0x241 => uCtl f false (fun x => x.extractLsb' 12 20 == 0) (.ljmp (f.imm.extractLsb' 0 12))
  | 0x245 => uCtl f false (fun x => x.extractLsb' 12 20 == 0) (.lcall (f.imm.extractLsb' 0 12))
  | 0x242 => uCtl f false (fun x => x == 0) .lrec
  | 0x244 => uCtl f false (fun x => x == 0) .lend
  | 0x246 => uCtl f false (fun x => x == 0) .lret
  | 0x247 => uCtl f false (fun x => x == 0) .lpack
  | 0x249 => uCtl f false (fun x => x == 0) .lnop
  | 0x243 => uCtl f true (fun x => x == 0) (.lexit (gd f))
  | 0x248 => uCtl f false (fun x => x.extractLsb' 24 8 == 0) (.lwaitc (f.imm.extractLsb' 18 6) (f.imm.extractLsb' 12 6) (f.imm.extractLsb' 6 6) (f.imm.extractLsb' 0 6))
  | 0x24A => uCtl f true (fun x => x.extractLsb' 10 22 == 0) (.ltrap (gd f) (f.imm.extractLsb' 0 10))
  | _ => .error .unassigned

end Decode

/-- Decodes the fields of a lane word. -/
def decodeLaneF (f : LaneF) : Dec Instr :=
  match Decode.laneRaw f with
  | .error r => .error r
  | .ok i => if i.wf then .ok i else .error .illFormed

/-- Decodes a lane word (R45). -/
def decodeLane (w : BitVec 96) : Dec Instr := decodeLaneF (LaneF.unpack w)

namespace Encode

/-- A lane word with a guard and nothing else. -/
def base (op : BitVec 10) (g : LGuard) : LaneF := ⟨op, g.inv, g.pg, 0, 0, 0, 0, 0, 0, 0, 0⟩
/-- The guard of a word whose guard fields must be zero (R82). -/
def noGuard : LGuard := ⟨false, 0⟩
def wP (p : PReg) : BitVec 11 := (0 : BitVec 7) ++ p
def wT (t : BitVec 6) : BitVec 11 := (0 : BitVec 5) ++ t
def wS (r : SReg) : BitVec 11 := (0 : BitVec 4) ++ r

/-- Operand c in imm32 (R46). -/
def wC : Opnd → BitVec 32
  | .v r => (0 : BitVec 19) ++ (0 : BitVec 2) ++ r
  | .s r => (0 : BitVec 19) ++ (1 : BitVec 2) ++ (0 : BitVec 4) ++ r
  | .imm _ => 0

/-- Operand b with its kind and imm32 (R46). -/
def setB (f : LaneF) : Opnd → LaneF
  | .v r => { f with b := r, bk := 0 }
  | .s r => { f with b := wS r, bk := 1 }
  | .imm x => { f with b := 0, bk := 2, imm := x }

def wUn (op : BitVec 10) (w : Un) : LaneF :=
  { base op w.g with d := w.d, a := w.a, ty := w.ty.code, mod := w.m.code }

def wBin (op : BitVec 10) (w : Bin) : LaneF :=
  setB { base op w.g with d := w.d, a := w.a, ty := w.ty.code, mod := w.m.code } w.b

def wTer (op : BitVec 10) (w : Ter) : LaneF :=
  { setB { base op w.g with d := w.d, a := w.a, ty := w.ty.code, mod := w.m.code } w.b with imm := wC w.c }

def wCvt (op : BitVec 10) (w : Cvt) : LaneF :=
  { base op w.g with d := w.d, a := w.a, ty := w.dst.code, mod := w.m.code, ext := (0 : BitVec 2) ++ w.src.code }

def wCmp (w : CmpL) : LaneF :=
  setB { base 0x103 w.g with d := wP w.pd, a := w.a, ty := w.ty.code, ext := w.comb.code ++ w.rel.code } w.b

def wSel (w : SelL) : LaneF :=
  setB { base 0x104 w.g with d := w.d, a := w.a, ty := w.ty.code, ext := (0 : BitVec 1) ++ BitVec.ofBool w.inv ++ w.q } w.b

def wPreds (op : BitVec 10) (g : LGuard) (pd pa : PReg) : LaneF := { base op g with d := wP pd, a := wP pa }

def wPLog (op : BitVec 10) (w : PLog) : LaneF := { wPreds op w.g w.pd w.pa with b := wP w.pb }

def wMov (g : LGuard) (ty : Ty) (d : VReg) (b : Opnd) : LaneF := setB { base 0x109 g with d := d, ty := ty.code } b

/-- Address mode into a, b, bk and ext[5:4] (R134, R135). -/
def setMode (f : LaneF) : AMode → LaneF
  | .contig sb => { f with a := 0, b := wS sb, bk := 1, ext := (0 : BitVec 2) ++ f.ext.extractLsb' 0 4 }
  | .indexed sb va => { f with a := va, b := wS sb, bk := 1, ext := (1 : BitVec 2) ++ f.ext.extractLsb' 0 4 }
  | .pointer va => { f with a := va, b := 0, bk := 0, ext := (2 : BitVec 2) ++ f.ext.extractLsb' 0 4 }

def wMem (op : BitVec 10) (w : MemL) : LaneF :=
  setMode { base op w.g with d := w.d, ty := w.ty.code, imm := w.off } w.mode

def wAtom (op : BitVec 10) (w : AtomL) : LaneF :=
  setMode { base op w.g with
    d := w.d, ty := w.ty.code, ext := (0 : BitVec 2) ++ w.kind.code
    imm := w.scope.code ++ w.order.code ++ (0 : BitVec 14) ++ (wC w.c).extractLsb' 0 13 } w.mode

def wShift (op : BitVec 10) (w : ShiftL) : LaneF :=
  let f := setB { base op w.g with d := w.d, a := w.a, ty := w.ty.code } w.count
  match w.fill with
  | .zero => f
  | .keep => { f with ext := 1 }
  | .rot => { f with ext := 2 }
  | .c x => { f with ext := 3, imm := wC x }

def wPerm (op : BitVec 10) (w : PermL) : LaneF :=
  setB { base op w.g with d := w.d, a := w.a, ty := w.ty.code } w.b

def wRed (op : BitVec 10) (w : RedL) : LaneF :=
  { base op w.g with
    d := w.d, a := w.a, ty := w.ty.code
    mod := (0 : BitVec 1) ++ BitVec.ofBool w.sat ++ (0 : BitVec 2)
    ext := (0 : BitVec 2) ++ BitVec.ofBool w.ex ++ w.kind.code }

def wMma (op : BitVec 10) (w : MmaL) : LaneF :=
  { base op w.g with d := wT w.tile, a := w.fw, b := wS w.sa, bk := 1, imm := wC (.s w.sb) }

def wMepi (w : MepiL) : LaneF :=
  { base 0x203 w.g with
    d := wT w.tile, b := wS w.base, bk := 1, ty := w.ty.code, mod := w.m.code
    ext := BitVec.ofBool w.glob ++ BitVec.ofBool w.add ++ w.act.code ++ BitVec.ofBool w.sb ++ BitVec.ofBool w.int
    imm := if w.sb || w.act == .clamp then wC (.s w.par) else 0 }

def wDist (w : DistL) : LaneF :=
  { base 0x205 w.g with
    d := w.d, b := wS w.q, bk := 1, ty := w.ty.code, ext := (0 : BitVec 5) ++ BitVec.ofBool w.l2, imm := wC (.s w.c) }

end Encode

open Encode in
/-- The fields of a lane instruction's word; nothing for any other instruction. -/
def encodeLaneF : Instr → Option LaneF
  | .vadd w => some (wBin 0x001 w)
  | .vsub w => some (wBin 0x002 w)
  | .vmul w => some (wBin 0x003 w)
  | .vmulh w => some (wBin 0x004 w)
  | .vmad w => some (wTer 0x005 w)
  | .vand w => some (wBin 0x006 w)
  | .vor w => some (wBin 0x007 w)
  | .vxor w => some (wBin 0x008 w)
  | .vnot w => some (wUn 0x009 w)
  | .vshl w => some (wBin 0x00A w)
  | .vshr w => some (wBin 0x00B w)
  | .vsra w => some (wBin 0x00C w)
  | .vmin w => some (wBin 0x00D w)
  | .vmax w => some (wBin 0x00E w)
  | .vabs w => some (wUn 0x00F w)
  | .vneg w => some (wUn 0x010 w)
  | .vclz w => some (wUn 0x011 w)
  | .vpopc w => some (wUn 0x012 w)
  | .vbfx w => some (wBin 0x013 w)
  | .vbfi w => some (wBin 0x014 w)
  | .vbrev w => some (wUn 0x015 w)
  | .vaddmin w => some (wTer 0x016 w)
  | .vaddmax w => some (wTer 0x017 w)
  | .vfadd w => some (wBin 0x080 w)
  | .vfsub w => some (wBin 0x081 w)
  | .vfmul w => some (wBin 0x082 w)
  | .vfma w => some (wTer 0x083 w)
  | .vfmin w => some (wBin 0x084 w)
  | .vfmax w => some (wBin 0x085 w)
  | .vfabs w => some (wUn 0x086 w)
  | .vfneg w => some (wUn 0x087 w)
  | .vfrcp w => some (wUn 0x088 w)
  | .vfrsq w => some (wUn 0x089 w)
  | .vfsqrt w => some (wUn 0x08A w)
  | .vfex2 w => some (wUn 0x08B w)
  | .vflg2 w => some (wUn 0x08C w)
  | .vfsin w => some (wUn 0x08D w)
  | .vfcos w => some (wUn 0x08E w)
  | .vfdiv w => some (wBin 0x08F w)
  | .vfrnd w => some (wUn 0x090 w)
  | .vfcls w => some (wUn 0x091 w)
  | .vfscl w => some (wBin 0x092 w)
  | .vcvt w => some (wCvt 0x100 w)
  | .vpack w => some (wCvt 0x101 w)
  | .vunpk w => some (wCvt 0x102 w)
  | .vcmp w => some (wCmp w)
  | .vsel w => some (wSel w)
  | .vpand w => some (wPLog 0x105 w)
  | .vpor w => some (wPLog 0x106 w)
  | .vpxor w => some (wPLog 0x107 w)
  | .vpnot g pd pa => some (wPreds 0x108 g pd pa)
  | .vmov g ty d b => some (wMov g ty d b)
  | .vmovi g ty d x => some { base 0x10A g with d := d, bk := 2, ty := ty.code, imm := x }
  | .vlaneid g d => some { base 0x10B g with d := d }
  | .vp2v g d pa => some { base 0x10C g with d := d, a := wP pa }
  | .vv2p g pd a => some { base 0x10D g with d := wP pd, a := a }
  | .vld w => some (wMem 0x140 w)
  | .vst w => some (wMem 0x141 w)
  | .vlds w => some (wMem 0x142 w)
  | .vsts w => some (wMem 0x143 w)
  | .vldsf w => some (wMem 0x144 w)
  | .vstsf w => some (wMem 0x145 w)
  | .vldsp w => some (wMem 0x146 w)
  | .vprf w => some (wMem 0x14A w)
  | .vldx w => some (wMem 0x14B w)
  | .vstx w => some (wMem 0x14C w)
  | .vatom w => some (wAtom 0x147 w)
  | .vatoms w => some (wAtom 0x148 w)
  | .vcas w => some (wAtom 0x149 w)
  | .vshup w => some (wShift 0x1C0 w)
  | .vshdn w => some (wShift 0x1C1 w)
  | .vperm w => some (wPerm 0x1C2 w)
  | .vbcast w => some (wPerm 0x1C3 w)
  | .vred w => some (wRed 0x1C4 w)
  | .vscan w => some (wRed 0x1C5 w)
  | .vvote g k pd pa => some { wPreds 0x1C6 g pd pa with ext := (0 : BitVec 4) ++ k.code }
  | .velect g pd => some (wPreds 0x1C7 g pd 0)
  | .mma w => some (wMma 0x200 w)
  | .mmas w => some (wMma 0x201 w)
  | .mzero g t => some { base 0x202 g with d := wT t }
  | .mepi w => some (wMepi w)
  | .mtrd g d t c => some { base 0x204 g with d := d, a := wT t, ext := (0 : BitVec 1) ++ c }
  | .vdist w => some (wDist w)
  | .topk g a b l => some { base 0x206 g with a := a, b := b, ty := 2, imm := wC (.s l) }
  | .topkm g d s => some { base 0x207 g with b := wS s, bk := 1, imm := wC (.s d) }
  | .lbr g t rc => some { base 0x240 g with imm := (0 : BitVec 4) ++ rc ++ (0 : BitVec 4) ++ t }
  | .ljmp t => some { base 0x241 noGuard with imm := (0 : BitVec 20) ++ t }
  | .lcall t => some { base 0x245 noGuard with imm := (0 : BitVec 20) ++ t }
  | .lrec => some (base 0x242 noGuard)
  | .lend => some (base 0x244 noGuard)
  | .lret => some (base 0x246 noGuard)
  | .lpack => some (base 0x247 noGuard)
  | .lnop => some (base 0x249 noGuard)
  | .lexit g => some (base 0x243 g)
  | .lwaitc ld st cp tl => some { base 0x248 noGuard with imm := (0 : BitVec 8) ++ ld ++ st ++ cp ++ tl }
  | .ltrap g c => some { base 0x24A g with imm := (0 : BitVec 22) ++ c }
  | _ => none

/-- The word of a lane instruction. -/
def encodeLane (i : Instr) : Option (BitVec 96) := (encodeLaneF i).map LaneF.pack

/-! ### Packets (R353, R354) and commands -/

namespace Decode

/-- `n` bytes of a packet from byte `k` on, as a little-endian number (R3). -/
def pfield (p : BitVec 512) (k n : Nat) : BitVec (8 * n) := p.extractLsb' (8 * k) (8 * n)

/-- Every byte from `k` on is zero. -/
def pzero (p : BitVec 512) (k : Nat) : Bool := p >>> (8 * k) == 0

/-- The header (R353). -/
def phdr (p : BitVec 512) : Option PktHdr :=
  let flags := p.extractLsb' 8 8
  if flags.extractLsb' 2 6 == 0 && p.extractLsb' 16 16 == 0 then
    some ⟨flags.getLsbD 0, flags.getLsbD 1, p.extractLsb' 32 32, p.extractLsb' 64 64⟩
  else none

/-- A packet that uses its header, with a zero issue time unless it is a launch. -/
def withHdr (p : BitVec 512) (launch ok : Bool) (k : PktHdr → Dec Instr) : Dec Instr :=
  match phdr p with
  | none => .error .reserved
  | some h => reserve (ok && (launch || h.issue == 0)) (k h)

/-- Is a 64-bit address a multiple of `n`? -/
def aligned (a : Word) (n : Nat) : Bool := a.toNat % n == 0

def packetRaw (p : BitVec 512) : Dec Instr :=
  let w := fun k => p.extractLsb' (8 * k) 64
  match (p.extractLsb' 0 8).toNat with
  | 0x00 => withHdr p false (pzero p 16) fun h => .ok (.nop h)
  | 0x01 => withHdr p true (pzero p 32) fun h => .ok (.launch h ⟨w 16, w 24⟩)
  | 0x02 => withHdr p true (pzero p 48 && p.extractLsb' 288 32 == 0) fun h =>
      .ok (.launchActivity h ⟨w 16, w 24⟩ (p.extractLsb' 256 32) (w 40))
  | 0x03 => withHdr p false (pzero p 40) fun h =>
      if (w 32).toNat ≤ 2 ^ 40 then .ok (.copy h (w 16) (w 24) (w 32)) else .error .code
  | 0x04 => withHdr p false (pzero p 33) fun h =>
      if aligned (w 16) 8 && p.extractLsb' 257 7 == 0 then .ok (.signal h (w 16) (w 24) (p.getLsbD 256)) else .error .code
  | 0x05 => withHdr p false (pzero p 56 && p.extractLsb' 328 56 == 0) fun h =>
      match Rel.ofCode (p.extractLsb' 320 4) with
      | some r =>
        if aligned (w 16) 8 && p.extractLsb' 324 4 == 0 then .ok (.waitWord h ⟨w 16, w 24, w 32, r, w 48⟩) else .error .code
      | none => .error .code
  | 0x06 => withHdr p false (pzero p 25 && p.extractLsb' 193 7 == 0) fun h => .ok (.rangeCommit h (w 16) (p.getLsbD 192))
  | 0x07 => withHdr p false (pzero p 28) fun h =>
      .ok (.preloadOverlay h (w 16) (p.extractLsb' 192 16) (p.extractLsb' 208 16))
  | 0x08 => withHdr p false (pzero p 32 && p.extractLsb' 160 32 == 0) fun h =>
      .ok (.activityResume h (p.extractLsb' 128 32) (w 24))
  | 0x09 => withHdr p false (pzero p 32 && p.extractLsb' 160 32 == 0) fun h =>
      .ok (.activityDiscard h (p.extractLsb' 128 32) (w 24))
  | 0x0A => withHdr p false (pzero p 24) fun h => .ok (.queueBarrier h (w 16))
  | _ => .error .unassigned

end Decode

/-- Decodes a 64-byte packet, byte 0 in bits 7:0. -/
def decodePacket (p : BitVec 512) : Dec Instr :=
  match Decode.packetRaw p with
  | .error r => .error r
  | .ok i => if i.wf then .ok i else .error .illFormed

/-- The first 16 bytes of a packet (R353). -/
def encodeHdr (code : BitVec 8) (h : PktHdr) : BitVec 128 :=
  h.issue ++ h.tag ++ (0 : BitVec 16) ++ ((0 : BitVec 6) ++ BitVec.ofBool h.after ++ BitVec.ofBool h.urgent) ++ code

/-- The 64 bytes of a packet (R354); nothing for any other instruction. -/
def encodePacket : Instr → Option (BitVec 512)
  | .nop h => some ((0 : BitVec 384) ++ encodeHdr 0x00 h)
  | .launch h b => some ((0 : BitVec 256) ++ b.bitmap ++ b.desc ++ encodeHdr 0x01 h)
  | .launchActivity h b id rep =>
    some ((0 : BitVec 128) ++ rep ++ (0 : BitVec 32) ++ id ++ b.bitmap ++ b.desc ++ encodeHdr 0x02 h)
  | .copy h dst src len => some ((0 : BitVec 192) ++ len ++ src ++ dst ++ encodeHdr 0x03 h)
  | .signal h addr value add =>
    some ((0 : BitVec 255) ++ BitVec.ofBool add ++ value ++ addr ++ encodeHdr 0x04 h)
  | .waitWord h b =>
    some ((0 : BitVec 64) ++ b.timeout ++ (0 : BitVec 60) ++ b.rel.code ++ b.mask ++ b.value ++ b.addr ++ encodeHdr 0x05 h)
  | .rangeCommit h image inval => some ((0 : BitVec 319) ++ BitVec.ofBool inval ++ image ++ encodeHdr 0x06 h)
  | .preloadOverlay h table len index => some ((0 : BitVec 288) ++ index ++ len ++ table ++ encodeHdr 0x07 h)
  | .activityResume h id rep => some ((0 : BitVec 256) ++ rep ++ (0 : BitVec 32) ++ id ++ encodeHdr 0x08 h)
  | .activityDiscard h id rep => some ((0 : BitVec 256) ++ rep ++ (0 : BitVec 32) ++ id ++ encodeHdr 0x09 h)
  | .queueBarrier h mask => some ((0 : BitVec 320) ++ mask ++ encodeHdr 0x0A h)
  | _ => none

/-- A write to a context's fault-response register (R284). -/
def decodeAnswer (ctx : Nat) (seq answer : BitVec 32) : Dec Instr :=
  match answer.toNat with
  | 1 => .ok (.retry ctx seq)
  | 2 => .ok (.faultTrap ctx seq)
  | 3 => .ok (.fatal ctx seq)
  | _ => .error .unassigned

/-- A command to a context's debug port (R341). -/
def decodeDebug (ctx : Nat) (cmd : BitVec 32) (t : DbgTarget) (r : DbgReg) (x : DbgVal) : Dec Instr :=
  match cmd.toNat with
  | 1 => .ok (.stop ctx t)
  | 2 => .ok (.resume ctx t)
  | 3 => .ok (.read ctx t r)
  | 4 => .ok (.write ctx t r x)
  | 5 => .ok (.enable ctx)
  | 6 => .ok (.disable ctx)
  | _ => .error .unassigned

/-! ### Bytes -/

/-- The bytes of a number, least significant first (R3). -/
def leBytes (n x : Nat) : List Byte := (List.range n).map fun i => BitVec.ofNat 8 (x / 256 ^ i)

/-- A number from its bytes, least significant first (R3). -/
def leNat : List Byte → Nat
  | [] => 0
  | b :: bs => b.toNat + 256 * leNat bs

/-- The instruction in a run of bytes of a scalar section (R44), with the bytes behind it. -/
def decodeScalarBytes (bs : List Byte) : Dec (Instr × List Byte) :=
  let w := fun k => BitVec.ofNat 32 (leNat ((bs.drop k).take 4))
  if bs.length < 4 then .error .truncated
  else match decodeScalar (w 0) (if bs.length < 8 then none else some (w 4)) with
    | .ok (i, n) => .ok (i, bs.drop (4 * n))
    | .error r => .error r

/-- The instruction in a run of bytes of a lane section (R48), with the bytes behind it. -/
def decodeLaneBytes (bs : List Byte) : Dec (Instr × List Byte) :=
  if bs.length < 12 then .error .truncated
  else match decodeLane (BitVec.ofNat 96 (leNat (bs.take 12))) with
    | .ok i => .ok (i, bs.drop 12)
    | .error r => .error r

/-- The instruction of a row of the opcode table, its bits numbered as the table numbers them: up to 64 bits a scalar
instruction with its second word, up to 96 a lane instruction, more a packet. Bits above `nbits` are zero. -/
def decodeTableWord (nbits w : Nat) : Option Instr :=
  let x := w % 2 ^ nbits
  if nbits ≤ 64 then
    match decodeScalarBytes (leBytes 8 x) with
    | .ok (i, _) => some i
    | .error _ => none
  else if nbits ≤ 96 then
    match decodeLaneBytes (leBytes 12 x) with
    | .ok (i, _) => some i
    | .error _ => none
  else
    match decodePacket (BitVec.ofNat 512 x) with
    | .ok i => some i
    | .error _ => none

end Sys2Proof
end

