-- ==== Sys2Proof/Config.lean ====
section
/-!
DEFINITION. What the part fixes in numbers (R1), what an implementation may choose, and the values the spec leaves free.
A free value is an opaque constant without a body: nothing can evaluate it, and a statement that mentions it holds for every value.
-/

namespace Sys2Proof.Config

/-- Nimlas dies of the package (R1). -/
def numDies : Nat := 8

/-- Cores of one Nimlas die (R1); a core's global number is `16 * die + corenum`. -/
def coresPerDie : Nat := 16

/-- Clusters of the package: 4 on each of 8 dies, each of 4 cores (R1). -/
def numClusters : Nat := 32

/-- Bytes of one scratchpad, 1536 KiB (R1, R136). -/
def scratchBytes : Nat := 0x180000

/-- Distance between two scratchpads in the model's one scratch map: the reach of an offset, bits 20:0 (R136). -/
def scratchSpan : Nat := 0x200000

/-- Slots of one instruction store (R177). -/
def storeSlots : Nat := 256

/-- Entries of one core's range-lock table (R147). -/
def lockEntries : Nat := 64

/-- Vector registers of one core (R1). -/
def coreVregs : Nat := 4096

/-- Groups one core can hold, 16 in each of 8 partitions (R91). -/
def coreGroups : Nat := 128

/-- Runs in one lane-run queue (R73). -/
def runQueueLen : Nat := 8

/-- Entries of one split table (R79). -/
def splitEntries : Nat := 4

/-- Entries of one reconvergence stack (R79). -/
def stackDepth : Nat := 16

/-- Entries of the scalar call stack (R103). -/
def callDepth : Nat := 32

/-- The value of `dlqry` and of the deadline field without a deadline (R289, R301). -/
def noDeadline : Nat := 0x7FFFFFFFFFFFFFFF

/-- Root weight of a phaser's phase, 2^32 units (R206). -/
def rootWeight : Nat := 2 ^ 32

/-- Units a root grants at once, 2^16 (R207). -/
def grantUnits : Nat := 2 ^ 16

/-- Clocks a no-divert section may take (R303). -/
def sectionClocks : Nat := 65536

/-- Issue slots for which a stream may be ready without issuing (R93), and clocks that a syield holds (R93) and that a queue is blocked before it
probes (R95). -/
def ageingSlots : Nat := 64
def yieldClocks : Nat := 256
def probeClocks : Nat := 512

/-- Entries one activity holds at most (R319). -/
def activityEntries : Nat := 65536

/-- Lines of 64 bytes in one core's L1, one cluster's slice, one die's slices together, and the Girth host-line cache (R1). -/
def l1Lines : Nat := 4096
def sliceLines : Nat := 131072
def dieLines : Nat := 524288
def hostCacheLines : Nat := 262144

/-- Precision, in bits after the binary point, of one attempt at a transcendental function; attempt `k` of `transcTries`
uses `(k + 1)` times as many. UNVERIFIED that these attempts always decide the rounding of R12 (log 20). -/
def transcBits : Nat := 96

/-- Attempts at a transcendental function. -/
def transcTries : Nat := 6

/-- A bit the spec leaves free: which of two allowed values an access returns (R57, R163, R270, R275). -/
opaque freeBit : Nat → Bool

/-- A number the spec leaves free, for the use that the second argument names (a partition, a placement, a length). -/
opaque freeNat : Nat → Nat → Nat

/-- Clocks for which the instruction after one that issues at a step is interlocked, in a stream (of a group; 0, or its split's number and 1): R56 lists the
interlocks and gives no latency. -/
opaque issueLatency : Nat → Nat → Nat → Nat

/-- Entries of the table of host-holds bits, less one (R264 gives the table no size). -/
opaque hostHoldsMore : Nat

/-- Whether CRC64 takes each byte from its low bit (R288, R380 give the polynomial, the initial value and the final XOR, not the bit order). -/
opaque crcReflected : Bool

/-- A word the spec leaves free: a certificate, a measurement, a check code whose input layout it does not give. -/
opaque freeWord : Nat → Nat → BitVec 64

/-- The byte that a drive holds at an address when a step reads it (R146: what a drive holds is not in the spec). -/
opaque freeDriveByte : Nat → Nat → BitVec 8

/-- Who moves after step number `tick`, and how much time passes before (R87, R91, R389: nothing fixes them). -/
opaque freeSlot : Nat → Slot

end Sys2Proof.Config
end

