-- ==== Sys2Proof/Machine/State.lean ====
section
/-!
DEFINITION. The state of the whole package as plain data, the reasons a step can stop, and the state after reset.
Sparse maps (`SMap`) list what differs from the value an unlisted number reads as. A place in memory is one number:
a physical address below 2^52 (R267), or `2^52 + 2^21 * core + offset` for a scratchpad byte (R136).
-/

namespace Sys2Proof.Machine

/-! ### Groups -/

/-- States of a group (R69). -/
inductive GState where
  | placed | running | stopped | saved | exiting | exited | killed
  deriving DecidableEq, Repr

/-- A stream of a group: the scalar stream, or the split in an entry of the split table (R79). -/
inductive Stream where
  | scalar
  | split (k : Nat)
  deriving DecidableEq, Repr

/-! ### The order of accesses (R229 to R245) -/

/-- An agent (R229): a group with its block and core, a copy engine or tile engine of a core, the ostler, the host threads, a peer. -/
inductive Agent where
  | group (g blk core : Nat)
  | engine (core : Nat)
  | tile (core : Nat)
  | ostler
  | host
  | peer (p : Nat)
  deriving DecidableEq, Repr

/-- Writes that happen before something (R237): every write of the operations `ops`, the single writes numbered in `pos`, and all writes numbered
below `upto`. -/
structure View where
  ops : List Nat := []
  pos : List Nat := []
  upto : Nat := 0
  deriving DecidableEq, Repr

/-- A release that a write makes (R235): who released, at which scope, and the writes of its earlier set with all that happens before it. -/
structure Release where
  who : Agent
  scope : Scope
  view : View
  deriving DecidableEq, Repr

/-- What a write carries: the operation that writes, the releases that an acquire which reads it meets, and what happens before it (R237). -/
structure Stamp where
  op : Nat := 0
  rels : List Release := []
  view : View := {}
  deriving DecidableEq, Repr

/-- One write (R230, R231). `n` numbers the writes of the machine in the order in which they were performed, `was` are the bytes that stood there before;
`inv`: the dies whose copies of the line it has invalidated (R257). -/
structure MemWrite where
  n : Nat
  loc : Nat
  was : List Byte
  stamp : Stamp
  inv : List Nat := []
  deriving DecidableEq, Repr

/-- A read that a later fence made an acquire (R236): the operation, the fence's scope, and the reader. -/
structure AcqRead where
  op : Nat
  scope : Scope
  who : Agent
  deriving DecidableEq, Repr

/-- What comes before something in happens-before (R234 to R237): operations; reads that fences made acquires; reads whose writes a sequential fence
orders (R240); and writes known already. -/
structure Earlier where
  ops : List Nat := []
  acq : List AcqRead := []
  seen : List Nat := []
  view : View := {}
  deriving DecidableEq, Repr

/-- The order that a stream keeps (R231 to R237). `own`: its accesses so far. `prior`: earlier accesses of the lane stream, of earlier runs and of splits that
merged, which only accesses to the same bytes follow. `cov`: accesses of runs that an `lwait` of the scalar stream has covered, which its later fences order
(R113). `before`: what every later access follows; `gained`: what acquires have put there, which engine and tile operations that issue later follow too (R236).
`fences`: release fences, whose earlier set later writes follow (R235). `mine`: writes that the stream's later accesses see and that no release passes on (R243). -/
structure Ord where
  own : List Nat := []
  prior : List Nat := []
  cov : List Nat := []
  before : Earlier := {}
  gained : Earlier := {}
  fences : List (Scope × Earlier) := []
  mine : View := {}
  deriving DecidableEq, Repr

/-- What stays of an operation that has left (R231, R237): the writes that happen before what follows it, and the numbers of the writes that it read. -/
structure OpPast where
  view : View
  saw : List Nat
  deriving DecidableEq, Repr

/-- A sequential fence (R240): its group, its scope, its earlier set. -/
structure SeqFence where
  who : Agent
  scope : Scope
  earlier : Earlier
  deriving DecidableEq, Repr

/-! ### Groups: streams -/

/-- A join of the reconvergence stacks (R79). `before`: what the splits that arrived put before the merged split (R88), and `ran` their accesses (R231);
`ord0`: the order of the split that pushed it, for lanes that were deferred. -/
structure Join where
  rc : Nat
  arrived : Mask
  defmask : Mask
  defpc : Nat
  before : Earlier := {}
  ran : List Nat := []
  ord0 : Ord := {}
  deriving DecidableEq, Repr

/-- An entry of a reconvergence stack: a shared join by its key, or a call (R79). -/
inductive SEntry where
  | join (j : Nat)
  | call (ret : Nat)
  deriving DecidableEq, Repr

/-- An entry of the split table (R79), with the order of its accesses. `fe` is the operation of a full/empty instruction in progress; `redo`: an instruction
of the split was interrupted, and its lanes that are done stand in lanedone (R141, R144); `free`: the clock up to which its next instruction is interlocked
(R56), and `ready`: since when it has been ready, if it is (R93). -/
structure Split where
  pc : Nat
  mask : Mask
  stack : List SEntry
  ord : Ord := {}
  fe : Option Nat := none
  redo : Bool := false
  free : Nat := 0
  ready : Option Nat := none
  deriving DecidableEq, Repr

/-- A queued or running lane run (R73): its overlay, its copy in the instruction store, and the order that its accesses begin with: what comes before them
(R77), and the fences and writes that the scalar stream had (R113, R149). -/
structure Run where
  key : Nat
  ov : Nat
  copy : Nat
  off : Nat
  ord : Ord := {}
  deriving DecidableEq, Repr

/-- States of a handle (R39); FAILED carries its reason (R150). -/
inductive HState where
  | empty | pending | done
  | failed (reason : Nat)
  | cancelled
  deriving DecidableEq, Repr

/-- A handle register (R39). `ov` is set for a handle of `ovld`: table index and copy (R185); `op` is the engine operation. -/
structure Handle where
  st : HState
  ov : Option (Nat × Nat) := none
  op : Option Nat := none
  deriving DecidableEq, Repr

/-- A membership of a phaser (R196, R197, R207). -/
structure Memb where
  mode : PhMode
  ag : BitVec 32
  drain : Bool
  hold : Nat := 0
  deriving DecidableEq, Repr

/-- One page at which an access is held (R279), with the lanes that meet it and the address that its trap names. -/
structure HeldPage where
  page : Nat
  lanes : Mask
  addr : Word
  kind : Nat
  level : Nat
  deriving DecidableEq, Repr

/-- A stream held at a replayable fault (R279). -/
structure Hold where
  str : Stream
  pages : List HeldPage
  deriving DecidableEq, Repr

/-- What a scalar instruction that takes several steps has reached. -/
inductive SWait where
  | none
  /-- `phaw` or `phdrain` has arrived in this phase, or `phwt` waits for it (R203, R205). -/
  | arrived (pkg : Bool) (id : Nat) (phase : BitVec 32)
  /-- `disp` has sent its request (R297). -/
  | dispSent
  /-- The dispenser has answered (R297). -/
  | dispAnswer (x : Word)
  /-- An instruction waits for a PENDING handle (R39). -/
  | onHandle
  /-- An entry waits for the auto-load of this copy (R187); `sret` has popped its entry. -/
  | entering (copy ov off : Nat) (popped : Bool)
  /-- The load failed (R187). -/
  | entryFailed
  /-- `actabn` has taken effect (R322). -/
  | abandoned
  /-- `actend` has begun its wait (R322). -/
  | ending
  /-- `sexit` has executed (R71). -/
  | leaving
  deriving DecidableEq, Repr

/-- The trap registers (R333) other than faultmask. -/
structure TrapRegs where
  cause : BitVec 8 := 0
  code : BitVec 10 := 0
  lane : Bool := false
  ov : Nat := 0
  off : Nat := 0
  addr : Word := 0
  split : Nat := 0
  deriving DecidableEq, Repr

/-- What trap mode keeps for `stret` (R336, R338): the scalar call stack at the trap, the stopped boundary with its copy in the instruction store
(R192), and the wait of a scalar instruction that had begun and that a trap does not end (R205, R331). -/
structure TrapMode where
  calls : List (Nat × Nat)
  ov : Nat
  off : Nat
  copy : Nat
  wait : SWait
  deriving DecidableEq, Repr

/-- A group (R32, R37, R40, R69). `core` is `16 * die + corenum`; `tile` is the tile in hand (R298)
with its audit (R380); `copy` is the copy in the instruction store that the scalar pc runs in (R181); `compDone`: its compensation has succeeded or failed
(R320). `laneDone`: what a covering `lwait` puts before later accesses (R77), and `laneRan` the accesses of the lane stream among it. `stall`: the split whose `mtrd` waits, and the operations it waits for (R171).
`free`: the clock up to which its next scalar instruction is interlocked (R56), and `ready`: since when its scalar stream has been ready, if it is (R93). -/
structure Group where
  blk : Nat
  idx : Nat
  core : Nat
  part : Nat
  st : GState
  n : Nat
  sreg : SMap Word
  vreg : SMap Lanes
  creg : BitVec 8
  preg : SMap Mask
  hreg : SMap Handle
  cld : Nat
  cst : Nat
  ccp : Nat
  ctl : Nat
  laneact : Mask
  faultmask : Mask
  lanedone : Mask
  memmask : Mask
  vote : Mask
  trap : TrapRegs
  wrapflag : Bool
  ov : Nat
  copy : Nat
  pc : Nat
  calls : List (Nat × Nat)
  wait : SWait
  runs : List Run
  splits : SMap Split
  joins : SMap Join
  exitMarks : Mask
  laneDone : List Nat
  laneRan : List Nat := []
  ord : Ord
  tileOps : List Nat
  holds : List Hold
  stall : Option (Nat × List Nat)
  trapMode : Option TrapMode
  stopWanted : Bool
  sect : Option (Nat × Nat)
  divertDue : Bool
  yieldAt : Option Nat
  free : Nat := 0
  ready : Option Nat := none
  aged : List Stream
  memb : SMap Memb
  tile : Option (Nat × Option Nat)
  openEntry : Option Nat
  comp : Option (Nat × Nat)
  compDone : Bool
  audit : Option Nat
  lastTime : Nat
  deriving DecidableEq, Repr

/-! ### Operations in flight (R37) -/

/-- Where a load or atomic puts its value. -/
inductive Dst where
  | none
  | s (r : Nat)
  | v (r : Nat)
  deriving DecidableEq, Repr

/-- What a memory operation does to one place. -/
inductive MKind where
  | load | store
  | atom (k : AKind)
  | cas
  | feTake | feKeep | fePut
  deriving DecidableEq, Repr

/-- The access of one lane (lane 0 for the scalar stream): place, address as the program gave it, operand, and the expected value of a compare. -/
structure LaneAcc where
  lane : Nat
  loc : Nat
  ea : Word := 0
  x : Word := 0
  y : Word := 0
  deriving DecidableEq, Repr

/-- A memory operation. `todo`: lanes whose effect on memory is due; `unack`: lanes performed at die scope that are not acknowledged (R257); `lo`, `hi`: lanes whose lower and upper register is due;
`got`: values read by lanes whose registers are not all written; `saw`: numbers of the writes read (R231). `more`: lanes of a full/empty instruction still wait. -/
structure MemOp where
  kind : MKind
  ty : Ty
  dst : Dst
  acc : List LaneAcc
  todo : Mask
  lo : Mask
  hi : Mask
  got : List (Nat × Word) := []
  saw : List Nat := []
  more : Bool := false
  unack : Mask := 0
  deriving DecidableEq, Repr

/-- A range register (R272). -/
structure RangeReg where
  w : Bool
  r : Bool
  e : Bool
  vbase : Nat
  vlimit : Nat
  pbase : Nat
  deriving DecidableEq, Repr

/-- Kinds of copy (R146, R354). -/
inductive CKind where
  | cpy | gather | storage | packet
  deriving DecidableEq, Repr

/-- An engine operation (R146 to R150). Addresses are virtual, or scratch places where the flag says so. `done`: bytes
delivered without a gap; `sent` and `cmds`: NVMe commands sent and completed; `idx`: the row of a gather whose index has been read, and the index;
`rset`: the range registers it translated with first (R274); `hold`: the page it is held at. -/
structure CopyOp where
  kind : CKind
  chan : Nat
  dst : Nat
  dstScr : Bool
  src : Nat
  srcScr : Bool
  len : Nat
  table : Nat := 0
  stride : Nat := 0
  row : Nat := 0
  window : Nat := 0
  lba : Nat := 0
  done : Nat := 0
  sent : Nat := 0
  cmds : Nat := 0
  idx : Option (Nat × Nat) := none
  rset : Option (List RangeReg) := none
  hold : Option HeldPage := none
  cancel : Bool := false
  fail : Option Nat := none
  deriving DecidableEq, Repr

/-- What a tile operation does (R166 to R175), with its operands as read at issue. Global rows of `mepi` carry the page map. -/
inductive TileDo where
  | mma (sparse : Bool) (fa fb : Nat) (a b : Nat)
  | mzero
  | mepi (w : MepiL) (base : Nat) (stride : Nat) (par : Nat) (pages : List (Nat × Nat))
  | vdist (ty : Ty) (l2 : Bool) (d : Nat) (q dim stride cand : Nat)
  | topk (list k : Nat) (asc : Bool) (pairs : List (Elem × Elem))
  | topkm (dst src k k2 : Nat) (asc : Bool)
  deriving DecidableEq, Repr

/-- A tile operation: the tile it acts on and its lanes; `begun`: it has read its operands and written some lanes. -/
structure TileOp where
  what : TileDo
  tile : Option Nat
  mask : Mask
  ov : Nat
  off : Nat
  split : Nat
  begun : Bool := false
  deriving DecidableEq, Repr

inductive OpBody where
  | mem (m : MemOp)
  | copy (c : CopyOp)
  | tile (t : TileOp)
  deriving DecidableEq, Repr

/-- An operation in flight. `ord`: the order of its stream at its issue; `scope`, `acq`, `relse`: the scope it carries, and whether it acquires and
releases (R233). `unit`: the phaser and phase that its drain unit returns to (R207). `aud`: the audit that follows
its writes, and whether it belongs to the replay (R380, R381). `deps`: operations that must leave first; `perf`: those whose writes must be performed first
(R113); `rel`: the same where only its release orders them, which a compare that fails need not follow (R111). `since`: how many writes had been performed
when it issued. -/
structure Op where
  grp : Option Nat
  str : Stream
  run : Option Nat
  core : Nat
  ctx : Nat
  launch : Option Nat
  blk : Option Nat
  ldc : Bool := false
  stc : Bool := false
  deps : List Nat
  perf : List Nat := []
  rel : List Nat := []
  since : Nat := 0
  ord : Ord := {}
  scope : Scope := .group
  acq : Bool := false
  relse : Bool := false
  unit : Option (Nat × BitVec 32) := none
  aud : Option (Nat × Bool) := none
  body : OpBody
  deriving DecidableEq, Repr

/-! ### Overlays (R177 to R193) -/

/-- An entry of the overlay table (R178). -/
structure OvEntry where
  image : Nat
  s : Nat
  l : Nat
  auto : Bool
  lib : Bool
  deriving DecidableEq, Repr

/-- Identity of a copy (R190, R191). -/
inductive OvId where
  | tenant (ctx image s l : Nat)
  | lib (digest : List Byte)
  /-- A library overlay whose trailer could not be read yet (R185): known by its image until it can. -/
  | unread (ctx image s l : Nat)
  deriving DecidableEq, Repr

/-- Who waits for a load (R180): a handle, an entry of a scalar stream, a block's fixed overlay, a preload. -/
inductive Waiter where
  | handle (g h : Nat)
  | entry (g : Nat)
  | fixed (b : Nat)
  | preload (vif : Nat)
  deriving DecidableEq, Repr

/-- What a table entry of a context names: its image, S and L (R178). -/
structure OvName where
  ctx : Nat
  image : Nat
  s : Nat
  l : Nat
  deriving DecidableEq, Repr

/-- A copy on a core (R180). Word `i` of `code` is scalar word `i`, or lane word `i - s`. `vifs`: the interfaces it is charged to (R189); `names`: the table
entries by which the core knows a library copy (log 80). -/
structure OvCopy where
  core : Nat
  id : OvId
  ctx : Nat
  ent : OvEntry
  slots : List Nat
  loading : Bool
  code : SMap (BitVec 96)
  got : List Nat
  waiters : List Waiter
  used : Nat
  vifs : List Nat
  hold : Option HeldPage := none
  names : List OvName := []
  deriving DecidableEq, Repr

/-! ### Phasers (R194 to R208) -/

/-- A phaser; `root0` and `root1` are the root weights of the current and the next phase (R206), and `wt0` and `wt1` the accesses whose weight has come home
to them (R251). `rel` is what the releases of the current phase's arrivals order; `ended` lists by phase what the end of each ended phase orders (R204, R237). -/
structure Phaser where
  cur : BitVec 32 := 0
  expect : Option Nat := none
  arr : Nat := 0
  drain : Bool := false
  broken : Bool := false
  root0 : Nat := Config.rootWeight
  root1 : Nat := Config.rootWeight
  wt0 : Earlier := {}
  wt1 : Earlier := {}
  rel : Earlier := {}
  ended : SMap Earlier := []
  deriving DecidableEq, Repr

/-- The weight unit of a run, until it has ended and its operations are acknowledged (R207), with its accesses (R251). -/
structure RunUnit where
  run : Nat
  launch : Nat
  ph : Nat
  phase : BitVec 32
  ran : List Nat := []
  deriving DecidableEq, Repr

/-! ### Blocks and launches -/

inductive BState where
  | waiting | loading | started | saving | saved | restoring | ended
  deriving DecidableEq, Repr

/-- The record of one saved group (R287, R288): the state it was in, the bytes of the record and where in memory they are written; a record in the area of
HBM that is reserved for in-field tests has no place that the spec gives (R384). -/
structure SaveRec where
  grp : Nat
  was : GState
  bytes : List Byte
  at_ : Option Nat
  bad : Bool := false
  deriving DecidableEq, Repr

/-- A handle in a scratch word between `hsend` and `hrecv` (R152, R210), with its serial, its drain unit (R207) and the write of its tag (R251). -/
structure Tag where
  serial : BitVec 16
  h : Handle
  blk : Nat
  core : Nat
  unit : Option (Nat × BitVec 32)
  op : Nat := 0
  deriving DecidableEq, Repr

/-- Why a block is pre-empted, with the end of its drain budget (R343, R344); `asked`: a no-divert section holds the choice back (R303). -/
structure Preempt where
  who : Requester
  until_ : Option Nat
  asked : Bool := false
  deriving DecidableEq, Repr

/-- A block (R72, R294). `fixed` lists its fixed overlays as core, table index and copy (R193). `core` is its core, or the first core of a wide block's cluster. `phasers` are its block phasers;
a package phaser's held memberships after FLUSH-RESTART stand in `held` with group index and phaser (R346). `scr`, `full` and `tags`
are the saved scratch area, by core within the block and offset (R345); `brec`: where its block record stands in the save area, and its bytes; `home`: the
cluster that an in-field test saved it from (R384). -/
structure Block where
  launch : Nat
  lin : Nat
  core : Nat
  wide : Bool
  st : BState
  scrOff : Nat
  fixed : List (Nat × Nat × Nat)
  phasers : SMap Phaser
  progress : Option Nat
  done : Nat
  held : List (Nat × Nat × Memb)
  killed : Bool
  pre : Option Preempt
  save : List SaveRec
  scr : List Host.Cell
  full : List Nat
  tags : SMap Tag
  comp : Option (Nat × Nat)
  budgetEnd : Option Nat
  audit : Option Nat
  brec : Option (Nat × List Byte) := none
  home : Option Nat := none
  deriving DecidableEq, Repr

/-- The launch descriptor (R289). -/
structure LDesc where
  table : Nat
  tablelen : Nat
  regs : Nat
  groups : Nat
  pphasers : Nat
  scratch : Nat
  level : Nat
  acctiles : Nat
  workset : Nat
  rootov : Nat
  rootent : Nat
  trapov : Nat
  trapent : Nat
  wrapov : Nat
  wrapent : Nat
  flags : BitVec 32
  args : Word
  tilespace : Nat
  wrapafter : Nat
  deadline : Nat
  wrapbudget : Nat
  estimate : Nat
  audit : Nat
  snaplist : Nat
  snapcount : Nat
  deriving DecidableEq, Repr

inductive LState where
  | admitted | running | wrapping | rolling | complete
  deriving DecidableEq, Repr

/-- A launch (R292) with its dispenser (R296), validity bits (R304) and snapshot (R308). `quota`: the interface's slot quota on each core at its
admission, 0 outside its clusters (R189, R281). -/
structure Launch where
  id : Word
  vif : Nat
  ctx : Nat
  pkt : Nat
  urgent : Bool
  desc : LDesc
  tab : List OvEntry
  bitmap : Nat
  st : LState
  order : Nat
  deadline : Option Nat
  wrap : Option Nat
  wrapped : Option Nat
  killed : Bool
  next : Nat
  handed : Nat
  returns : List Nat
  done : Nat
  dispWrapped : Bool
  blockcnt : Nat
  valid : BitVec 128
  phasers : SMap Phaser
  faulted : Bool
  stopStart : Bool
  endedLate : Bool
  act : Option Nat
  slack : Nat
  replays : Nat
  pages : List (Nat × List Host.Cell)
  pagesLost : Bool
  snaps : List (Nat × Nat)
  eligible : List Nat
  quota : List Nat
  deriving DecidableEq, Repr

/-! ### Activities (R315 to R328) -/

inductive ActState where
  | running | ended | abandoning | abandoned | stuck
  deriving DecidableEq, Repr

inductive EntState where
  | open_ | sealed | undone | failed
  deriving DecidableEq, Repr

/-- An entry of the rein-back stack (R319). `bad`: lost or struck by an uncorrectable error (R327, R370); `done`: what its compensation's `cmpok` orders (R328). -/
structure StackEntry where
  seq : Nat
  entry : Nat
  ov : Nat
  commute : Bool
  st : EntState
  die : Nat
  budget : Nat
  launch : Word
  args : List Word
  spilled : Bool
  bad : Bool
  done : Earlier := {}
  deriving DecidableEq, Repr

/-- An activity (R315, R316) with its report (R318), its dependences (R322) and its abandonment set (R324). -/
structure Activity where
  ctx : Nat
  id : BitVec 32
  launch : Nat
  desc : LDesc
  tab : List OvEntry
  st : ActState
  entries : List StackEntry
  deps : List Nat
  set : Nat
  report : Nat
  reason : Nat
  cause : Nat
  seq : Nat
  code : BitVec 16
  torn : Bool
  answer : Option Nat
  deriving DecidableEq, Repr

/-- An audit of one tile (R380, R381): the tile, its core, block, group and scratch offset, its writes, whether it must not be audited,
whether the tile is done, the replay's core and writes, whether the replay took its tile and whether it ended. -/
structure Audit where
  launch : Nat
  tile : Nat
  core : Nat
  lin : Nat
  idx : Nat
  off : Nat
  rcore : Nat := 0
  writes : List Host.Cell := []
  barred : Bool := false
  done : Bool := false
  started : Bool := false
  replay : List Host.Cell := []
  served : Bool := false
  ended : Bool := false
  deriving DecidableEq, Repr

/-! ### Contexts (R282 to R285) -/

inductive CState where
  | free | active | tearing | dead
  deriving DecidableEq, Repr

/-- An unanswered fault record (R284). -/
structure FaultRec where
  seq : BitVec 32
  page : Nat
  kind : Nat
  level : Nat
  deriving DecidableEq, Repr

/-- A storage window (R362), with the tail of its submission queue, the head of its completion queue and what was last written to the doorbell. -/
structure Window where
  sq : Nat
  cq : Nat
  doorbell : Nat
  nsid : BitVec 32
  qdepth : Nat
  valid : Bool
  lbas : Nat
  tail : Nat := 0
  head : Nat := 0
  rung : Nat := 0
  deriving DecidableEq, Repr

/-- A cached page translation of a context (R276): a page of `size` bytes. -/
structure TlbEnt where
  ctx : Nat
  va : Nat
  size : Nat
  pa : Nat
  r : Bool
  w : Bool
  deriving DecidableEq, Repr

/-- A context (R282). `cause`: what a fatal fault reported to the host (R280). `dbgOut`: what the debug port's last READ answered (R341). -/
structure Context where
  st : CState
  root : Nat
  savebase : Nat
  savesize : Nat
  flags : BitVec 16
  faultring : Nat
  faultents : Nat
  seq : BitVec 32
  recs : List FaultRec
  ranges : List RangeReg
  dieRanges : SMap (List RangeReg)
  windows : SMap Window
  cause : Option (BitVec 8)
  debug : Bool
  dbgOut : Option DbgVal
  deriving DecidableEq, Repr

/-! ### Queues and packets (R348 to R360) -/

/-- A packet that started and has not completed (R356); a commit keeps the step at which it was taken up. -/
inductive PBody where
  | launch (l : Nat)
  | copy (op : Nat)
  | signal (addr value : Word) (add : Bool)
  | wait (b : WaitBody) (since : Nat)
  | commit (ctx at_ : Nat) (new : List RangeReg) (inval : Bool) (dies : List Nat) (ops : List Nat)
  | barrier (pkts : List Nat)
  | act (a : Nat)
  deriving DecidableEq, Repr

structure Pkt where
  q : Nat
  idx : Nat
  code : Nat
  tag : BitVec 32
  urgent : Bool
  ctx : Nat
  report : Nat := 0
  hold : Option HeldPage := none
  body : PBody
  deriving DecidableEq, Repr

/-- A completion record (R358). -/
structure CRec where
  tag : BitVec 32
  outcome : Nat
  code : Nat
  blocks : Nat
  valid : Word
  now : Bool
  deriving DecidableEq, Repr

/-- What the ostler reads for a LAUNCH or LAUNCH_ACTIVITY when it takes the packet (R290): the descriptor, the overlay table, the pages of the
snapshot ranges, and the slots of the distinct fixed overlays. -/
structure LaunchLook where
  desc : LDesc
  tab : List OvEntry
  snaps : List (Nat × Nat)
  fixed : Nat
  deriving DecidableEq, Repr

/-- What the ostler finds as it takes a packet: the time (R291), what it reads for a launch if nothing is wrong with it, whether the report
address can be written (R318), and whether it can read a descriptor with a finite deadline (R360). -/
structure PktLook where
  time : Nat
  launch : Option LaunchLook
  report : Bool
  finite : Bool := false
  deriving DecidableEq, Repr

/-- A hardware queue since its bind (R348): the fields of its descriptor, the ostler's indices, a packet taken and not started with what was read for
it, and held records. -/
structure Queue where
  bound : Bool
  vif : Nat
  ring : Nat
  ctl : Nat
  cring : Nat
  ctx : Nat
  slots : Nat
  cslots : Nat
  vector : Nat
  coal : Nat
  rd : Nat
  cwr : Nat
  taken : Option (Nat × BitVec 512)
  look : PktLook
  held : List CRec
  pend : Option Nat
  deriving DecidableEq, Repr

/-- A virtual interface (R281, R385): quotas, messages waiting for the rate limit, when the last was sent, messages sent, and whether the driver's last
create or flags change was done or REFUSED (R282). -/
structure Vif where
  quota : Quota
  msgs : List Nat
  last : Option Nat
  sent : List Nat
  faultIrq : Nat
  answer : Option Bool
  deriving DecidableEq, Repr

/-! ### Dies, directory, links, module -/

inductive DState where
  | gated | waking | hitching | hitched | draining | fenced
  deriving DecidableEq, Repr

/-- A Nimlas die (R364 to R369): its capability words (R365), hitch attempts that timed out, when its state began, clocks since its last
hitch (R116), whether it drains for a reset, the hold time the driver set, since when it holds no block, whether it may be gated, and the wake latch of its
always-on island. `tb`: how far its copy of the time base stands from the Girth's, in ns, 50 meaning not at all (R115). -/
structure Die where
  st : DState
  cap0 : BitVec 32
  cap1 : BitVec 32
  tries : Nat
  since : Nat
  clk : Nat
  tb : Nat
  toReset : Bool
  hold : Option Nat
  empty : Option Nat
  mayGate : Bool
  temp : BitVec 8
  throttled : Bool
  wake : Bool := false
  deriving DecidableEq, Repr

/-- Generation of a die (R365). -/
def Die.gen (d : Die) : Nat := (d.cap0.extractLsb' 28 4).toNat

/-- Stable states of a line in the Girth directory (R260); in a home slice the owner fields of R259 say which. -/
inductive LineState where
  | i | s | x | o
  deriving DecidableEq, Repr

/-- State of a line at a place that caches it (R258): a die towards the Girth, a cluster's slice towards its die's home, or an L1, which never is in O. -/
inductive Moesi where
  | i | s | e | o | m
  deriving DecidableEq, Repr

/-- Requests for a line (R260). -/
inductive Req where
  | rdS | rdX | upg
  deriving DecidableEq, Repr

/-- A request in progress on a region (R260, R261): B_MEM; B_INV with the parties whose acknowledgements are due; B_FWD. A party is a die at the Girth, and
a cluster number at a die's home. -/
inductive Trans where
  | mem (r : Req) (die line : Nat)
  | inv (r : Req) (die line : Nat) (due : List Nat)
  | fwd (r : Req) (die line owner : Nat)
  deriving DecidableEq, Repr

/-- Messages from a directory to a party that have not arrived (R260); data says whether memory is stale. -/
inductive Msg where
  | data (r : Req) (dirty : Bool) | grant | inv | fwdS | fwdX | wbAck
  deriving DecidableEq, Repr

/-- A region's entry in a directory (R259, R260): the parties that hold any of its lines; state and owner of each line; the request in
progress and the queue behind it (R261); when the last request joined the queue, and whose it was. -/
structure Region where
  dies : List Nat
  lines : SMap (LineState × Option Nat)
  busy : Option Trans
  queue : List (Req × Nat × Nat)
  last : Option (Nat × Nat) := none
  deriving DecidableEq, Repr

/-- What a party has sent in answer to a snoop and the directory has not seen (R260, R263): whether it evicts, and whether its data is dirty. -/
inductive Answering where
  | invAck (evicting : Bool)
  | fwdData (evicting dirty : Bool)
  deriving DecidableEq, Repr

/-- A line at a party (R258, R263): its state; whether it is in the write-back buffer and its WB under way; the answer under way; the request it
waits for. -/
structure DieLine where
  st : Moesi
  buffer : Bool
  wbOut : Bool
  answer : Option Answering
  waits : Option Req
  deriving DecidableEq, Repr

/-- A directory with its parties' lines: the Girth's with the dies (R260), or one die's home slices with the clusters (R259); a region stands in the slice
that the hash of its address picks. `lines` has the key `2^46 * party + line`. `seen`: evictions of which the directory has seen one of the two copies.
`slices`: it is the home slices', which know of no line that nobody holds it. -/
structure Dir where
  slices : Bool
  regions : SMap Region
  lines : SMap DieLine
  msgs : List (Nat × Nat × Msg)
  seen : List (Nat × Nat)
  deriving DecidableEq, Repr

/-- The coherence state (R256 to R264). `homes` by die; `l1` by `2^46 * core + line`. `hostLines`: the host-line cache; `hostHolds`: the host-holds bits;
`hostMod`: lines that the host holds modified; `backInv`: back-invalidates under way. -/
structure Coherence where
  girth : Dir
  homes : SMap Dir
  l1 : SMap Moesi
  hostLines : List Nat
  hostHolds : List Nat
  hostMod : List Nat
  backInv : List Nat
  deriving DecidableEq, Repr

/-- The time base's register, its bits 63:62, 61:60 and 31:0 (R373), with what moves it: good measurements in a row, when the last came, whether it was ever
LOCKED, and when the 1PPS edge came whose time of day is still awaited. -/
structure TimeBase where
  state : BitVec 2
  source : BitVec 2
  offset : BitVec 32
  good : Nat
  last : Nat
  everLocked : Bool
  edge : Option Nat := none
  deriving DecidableEq, Repr

/-- One direction of an IDE stream (R372): the key in use; while a rollover lasts, the key before it, the number of the flit that carries the marker, whether
the marker has been acknowledged and whether the sender has reported its replay buffer free of flits under the key before; the last flit acknowledged; the flit
that the last replay began with; whether the stream has stopped; and whether a received flit has failed its check, which is not reported yet. -/
structure Ide where
  key : Nat
  old : Option Nat
  mark : Nat
  acked : Nat
  replay : Option Nat
  stopped : Bool
  marked : Bool := false
  free : Bool := false
  bad : Bool := false
  deriving DecidableEq, Repr

/-- SPDM (R386): how far the connection and the session have come. -/
structure Spdm where
  version : Bool
  caps : Bool
  algs : Bool
  exchanged : Bool
  session : Bool
  answers : List Word
  deriving DecidableEq, Repr

/-- An error record (R382). -/
structure ErrRec where
  time : Nat
  kind : Nat
  unit : Nat
  where_ : BitVec 16
  ctx : BitVec 16
  addr : Nat
  launch : BitVec 32
  deriving DecidableEq, Repr

/-- Firmware and module (R385, R387, R388). `up`: how many of the first three steps of the bring-up are done: firmware, HBM, host port; `link`: lanes and GT/s
to which the host port has trained (R371). -/
structure Module where
  version : Nat
  rollback : Nat
  power : BitVec 16
  throttle : BitVec 4
  tripped : Bool
  errpend : Bool
  errs : List ErrRec
  viferrs : List (Nat × ErrRec)
  hostWindows : SMap (Nat × Nat)
  up : Nat := 0
  link : Option (Nat × Nat) := none
  deriving DecidableEq, Repr

/-- A peer (R375): its number is set up, its link is up. -/
structure Peer where
  set : Bool
  up : Bool
  deriving DecidableEq, Repr

/-- A queue whose head is blocked by a full queue below it, since a clock (R95). -/
structure Jam where
  q : QUnit
  down : QUnit
  since : Nat
  deriving DecidableEq, Repr

/-- A probe token under way (R95). -/
structure Probe where
  origin : QUnit
  at_ : QUnit
  deriving DecidableEq, Repr

/-! ### The machine -/

/-- The whole package. The fields `turn`, `sched`, `tick` and `nextId` are the model's own (log 1, 2): who moves, who moves
after that, how many steps have passed (the argument of the free values), and the next unused key. `hist` holds the writes to memory, newest first, and
`wcount` how many there have been; `past` what stays of operations that have left; `seqs` the sequential fences in their order (R240); `accPoison` and `accSick` list tiles with an uncorrectable error that
has been found and with one that has not (R172); `ides` has the key `2 * stream`, and one more for the direction in which the package receives (R371, R372);
`outside` is what the host threads (0) and peer `p` (p + 1) know to have been written. -/
structure State where
  turn : Turn
  sched : List Slot
  tick : Nat
  nextId : Nat
  now : Nat
  mem : List Host.Cell
  hist : List MemWrite
  wcount : Nat
  past : SMap OpPast
  seqs : List SeqFence
  outside : SMap View
  full : List Nat
  tags : SMap Tag
  poison : List Nat
  acc : SMap Lanes
  accPoison : List Nat
  accSick : List Nat
  groups : SMap Group
  ops : SMap Op
  runUnits : List RunUnit
  copies : SMap OvCopy
  chans : SMap Nat
  fencedCores : List Nat
  testing : List Nat
  fieldTests : List Nat
  suspects : List Nat
  testEvery : SMap Nat
  lastTest : SMap Nat
  blocks : SMap Block
  launches : SMap Launch
  acts : SMap Activity
  actSeq : Nat
  audits : SMap Audit
  ctxs : SMap Context
  tlbCore : SMap (List TlbEnt)
  tlbCluster : SMap (List TlbEnt)
  vifs : SMap Vif
  queues : SMap Queue
  qdescs : SMap (BitVec 512)
  pkts : SMap Pkt
  batch : List Nat
  dies : List Die
  coh : Coherence
  tb : TimeBase
  ides : SMap Ide
  spdm : Spdm
  modl : Module
  peers : SMap Peer
  jams : List Jam
  probes : List Probe
  reserve : List QUnit
  deriving DecidableEq, Repr

/-- Reasons a step stops without a next state. Neither is an outcome of the hardware: `exec` was asked to run an instruction
of a stream although the state gives the turn to something else, or names a group that does not exist. -/
inductive Fault where
  /-- Raised by the meanings of scalar and lane instructions and packets when the turn is not theirs; safe: `step` never asks so. -/
  | notIssuing
  /-- Raised by `step` and the meanings when the turn names no group that can issue; safe: it only stops. -/
  | noGroup
  deriving DecidableEq, Repr

/-- Instructions without a meaning. -/
inductive Refusal where
  /-- Raised by an arm of `exec` for an instruction that is not modelled; safe: it only stops. -/
  | notModelled (mnemonic : String)
  deriving DecidableEq, Repr

/-! ### Reset (R364, R367, R373, R386 to R388) -/

/-- Die number `d` at package reset: WAKING (R364). The fused words give even numbers generation 4 and odd ones generation 3, with
the least that R365 admits (log 5). -/
def Die.reset (d : Nat) : Die :=
  { st := .waking, cap0 := if d % 2 = 0 then 0x43100400 else 0x32100400, cap1 := 0x04400840, tries := 0, since := 0, clk := 0, tb := 50,
    toReset := false, hold := none, empty := none, mayGate := false, temp := 0, throttled := false }

def Quota.none : Quota := { clusters := 0, slots := [], queues := 0, heap := 0, phasers := 0, contexts := 0 }

def Vif.reset : Vif := { quota := Quota.none, msgs := [], last := none, sent := [], faultIrq := 0, answer := none }

def Ide.reset : Ide :=
  { key := 0, old := none, mark := 0, acked := 0, replay := none, stopped := false }

/-- The machine right after package reset: no context, no group, every die WAKING, the time base in FREE_RUN. -/
def State.reset : State :=
  { turn := .idle, sched := [], tick := 0, nextId := 1, now := 0, mem := [], hist := [], wcount := 0, past := [], seqs := [],
    outside := [], full := [], tags := [],
    poison := [], acc := [], accPoison := [], accSick := [], groups := [], ops := [], runUnits := [], copies := [], chans := [],
    fencedCores := [], testing := [], fieldTests := [], suspects := [], testEvery := [], lastTest := [], blocks := [], launches := [],
    acts := [], actSeq := 1, audits := [], ctxs := [], tlbCore := [], tlbCluster := [], vifs := [], queues := [], qdescs := [], pkts := [], batch := [],
    dies := (List.range 8).map Die.reset,
    coh := { girth := { slices := false, regions := [], lines := [], msgs := [], seen := [] }, homes := [], l1 := [], hostLines := [], hostHolds := [],
             hostMod := [], backInv := [] },
    tb := { state := 0, source := 0, offset := 0, good := 0, last := 0, everLocked := false },
    ides := [],
    spdm := { version := false, caps := false, algs := false, exchanged := false, session := false, answers := [] },
    modl := { version := 0, rollback := 0, power := 0, throttle := 0, tripped := false, errpend := false, errs := [],
              viferrs := [], hostWindows := [] },
    peers := [], jams := [], probes := [], reserve := [] }

end Sys2Proof.Machine
end

