-- ==== Sys2Proof/Machine/Ops.lean ====
section
/-!
DEFINITION. The named operations: sparse maps, memory, registers, handles, phaser weights, the shared entry of a trap and the
return from it, and the ends of groups and blocks. Every meaning is written over these.
-/

namespace Sys2Proof.Machine

/-- The outcome of a step. -/
abbrev Out := Host.Outcome State Fault Refusal

/-! ### Sparse maps -/

def mget {β : Type} : SMap β → Nat → Option β
  | [], _ => none
  | (k, v) :: m, i => if i = k then some v else mget m i

def mput {β : Type} : SMap β → Nat → β → SMap β
  | [], i, x => [(i, x)]
  | (k, v) :: m, i, x => if i = k then (i, x) :: m else if i < k then (i, x) :: (k, v) :: m else (k, v) :: mput m i x

def mdel {β : Type} (m : SMap β) (i : Nat) : SMap β := m.filter (fun p => p.1 != i)

def mupd {β : Type} (m : SMap β) (i : Nat) (f : β → β) : SMap β :=
  match mget m i with
  | some x => mput m i (f x)
  | none => m

/-- Writes `x`, or removes the entry when `x` is what an unlisted number reads as. -/
def mset {β : Type} [DecidableEq β] (dflt : β) (m : SMap β) (i : Nat) (x : β) : SMap β :=
  if x = dflt then mdel m i else mput m i x

def mkeys {β : Type} (m : SMap β) : List Nat := m.map (·.1)

/-- Adds a number to an ascending list without repeats. -/
def insNat : List Nat → Nat → List Nat
  | [], i => [i]
  | k :: m, i => if i = k then k :: m else if i < k then i :: k :: m else k :: insNat m i

def sunion (a b : List Nat) : List Nat := b.foldl insNat a

/-! ### Memory (R3, R230, R267) -/

/-- The place of a scratch byte: core and offset (R136). -/
def scrLoc (core off : Nat) : Nat := 2 ^ 52 + Config.scratchSpan * core + off

/-- A place is scratch. -/
def isScr (loc : Nat) : Bool := decide (2 ^ 52 ≤ loc)

/-- The core whose scratchpad holds a place. -/
def scrCore (loc : Nat) : Nat := (loc - 2 ^ 52) / Config.scratchSpan

/-- What an unlisted place reads as (DESIGN CHOICE, log 3; a block's scratch area is zero at its start by R286). -/
def memDefault : Byte := 0

/-- One byte of memory. -/
def memRead (m : List Host.Cell) (a : Nat) : Byte := (mget m a).getD memDefault

/-- Writes one byte, keeping the canonical form. -/
def memWrite (m : List Host.Cell) (a : Nat) (b : Byte) : List Host.Cell := mset memDefault m a b

/-- The canonical form: addresses strictly rising, and no entry equal to what an unlisted address reads as. -/
def memWf : List Host.Cell → Bool
  | [] => true
  | [c] => c.2 != memDefault
  | c :: d :: m => c.2 != memDefault && decide (c.1 < d.1) && memWf (d :: m)

def State.byte (s : State) (a : Nat) : Byte := memRead s.mem a

/-- `n` bytes from `a`, little-endian (R3). -/
def readLE (m : List Host.Cell) (a : Nat) : Nat → Nat
  | 0 => 0
  | n + 1 => (memRead m a).toNat + 256 * readLE m (a + 1) n

def writeLE (m : List Host.Cell) (a : Nat) : Nat → Nat → List Host.Cell
  | 0, _ => m
  | n + 1, x => writeLE (memWrite m a (BitVec.ofNat 8 x)) (a + 1) n (x / 256)

def State.read (s : State) (a n : Nat) : Nat := readLE s.mem a n

/-- The bytes of `[a, a + n)`. -/
def bytesAt (m : List Host.Cell) (a n : Nat) : List Byte := (List.range n).map fun i => memRead m (a + i)

/-- Bytes that a record of `n` bytes takes in a save area: records begin on 64 bytes (R287). -/
def recRoom (n : Nat) : Nat := (n + 63) / 64 * 64

/-- Bytes of a context's save area in use: records of saved groups and blocks, and page copies of snapshots (R287, R308, R345). -/
def saveUsed (s : State) (ctx : Nat) : Nat :=
  let ofCtx (l : Nat) : Bool := (mget s.launches l).any (·.ctx == ctx)
  s.blocks.foldl (fun n (_, B) => if ofCtx B.launch then
      B.save.foldl (fun n r => if r.at_.isSome then n + recRoom r.bytes.length else n) (n + ((B.brec.map fun r => recRoom r.2.length).getD 0)) else n) 0 +
  s.launches.foldl (fun n (_, L) => if L.ctx == ctx then n + 4096 * L.pages.length else n) 0

/-- The first write to a page of a snapshot range copies the page (R308); with the save area full, the launch can no longer
be rolled back. -/
def notePage (s : State) (ctx : Option Nat) (a : Nat) : SMap Launch :=
  s.launches.map fun (k, l) =>
    let page := a / 4096
    if ctx = some l.ctx ∧ l.st ≠ .complete ∧ l.snaps.any (·.2 == page) ∧ ¬ l.pages.any (·.1 == page) then
      let room := match mget s.ctxs l.ctx with
        | some c => decide (saveUsed s l.ctx + 4096 ≤ 1024 * c.savesize)
        | none => false
      if room then (k, { l with pages := l.pages ++ [(page, s.mem.filter fun c => c.1 / 4096 == page)] })
      else (k, { l with pagesLost := true })
    else (k, l)

/-- Writes `n` bytes on behalf of a context, as one write (R230). -/
def State.write (s : State) (ctx : Option Nat) (a n x : Nat) (st : Stamp := {}) : State :=
  { s with mem := writeLE s.mem a n x, hist := { n := s.wcount, loc := a, was := bytesAt s.mem a n, stamp := st } :: s.hist,
           wcount := s.wcount + 1, launches := notePage s ctx a }

/-- What stood at `[lo, lo + n)` before can no longer be read: the bytes are given to a new owner (R286). -/
def State.forget (s : State) (lo n : Nat) : State :=
  { s with hist := s.hist.filter fun e => !(decide (lo ≤ e.loc) && decide (e.loc < lo + n)) }

/-- A write of all 64 bytes of a poisoned line clears the poison (R382). -/
def State.unpoison (s : State) (bytes : List Nat) : State :=
  if s.poison.isEmpty then s else
  { s with poison := s.poison.filter fun l => !(List.range 64).all fun i => bytes.contains (64 * l + i) }

/-! ### Registers (R32, R34) -/

/-- A scalar register; s0 reads zero. -/
def Group.rs (G : Group) (r : SReg) : Word := if r = 0 then 0 else (mget G.sreg r.toNat).getD 0

/-- A write to s0 is discarded. -/
def Group.ws (G : Group) (r : SReg) (x : Word) : Group :=
  if r = 0 then G else { G with sreg := mset 0 G.sreg r.toNat x }

/-- A scalar predicate; c0 reads true. -/
def Group.rc (G : Group) (c : CReg) : Bool := c == 0 || G.creg.getLsbD c.toNat

def Group.wc (G : Group) (c : CReg) (b : Bool) : Group :=
  if c = 0 then G else
  { G with creg := if b then G.creg ||| ((1 : BitVec 8) <<< c.toNat) else G.creg &&& ~~~((1 : BitVec 8) <<< c.toNat) }

def lanesZero : Lanes := List.replicate 256 0

/-- A vector register. -/
def Group.rv (G : Group) (r : Nat) : Lanes := (mget G.vreg r).getD lanesZero

def Group.wv (G : Group) (r : Nat) (x : Lanes) : Group := { G with vreg := mset lanesZero G.vreg r x }

def lane (x : Lanes) (i : Nat) : Elem := x.getD i 0

/-- The lanes of `m`, from number `i` on, replaced by `f`. -/
def setLanes (m : Mask) (f : Nat → Elem) : Nat → Lanes → Lanes
  | _, [] => []
  | i, x :: xs => (if m.getLsbD i then f i else x) :: setLanes m f (i + 1) xs

/-- Writes the lanes of `m`; every other lane keeps its value (R54). -/
def Group.wvMask (G : Group) (r : Nat) (m : Mask) (f : Nat → Elem) : Group :=
  if m = 0 then G else G.wv r (setLanes m f 0 (G.rv r))

/-- A lane predicate; p0 reads true in every lane. -/
def Group.rp (G : Group) (p : PReg) : Mask := if p = 0 then Mask.all else (mget G.preg p.toNat).getD 0

def Group.wp (G : Group) (p : PReg) (x : Mask) : Group :=
  if p = 0 then G else { G with preg := mset 0 G.preg p.toNat x }

def Group.wpMask (G : Group) (p : PReg) (m x : Mask) : Group := G.wp p ((G.rp p &&& ~~~m) ||| (x &&& m))

def Group.rh (G : Group) (h : Nat) : Handle := (mget G.hreg h).getD { st := .empty }

def Group.wh (G : Group) (h : Nat) (x : Handle) : Group := { G with hreg := mset { st := .empty } G.hreg h x }

/-- A mask from a predicate on lane numbers. -/
def maskOf (f : Nat → Bool) : Mask :=
  (List.range 256).foldl (fun m i => if f i then m ||| (1 <<< i) else m) 0

/-- The lanes of a mask in ascending order. -/
def lanesOf (m : Mask) : List Nat := if m = 0 then [] else (List.range 256).filter fun i => m.getLsbD i

def lowest (m : Mask) : Option Nat := (lanesOf m).head?

/-! ### State access -/

def State.grp (s : State) (g : Nat) (G : Group) : State := { s with groups := mput s.groups g G }

def State.modGrp (s : State) (g : Nat) (f : Group → Group) : State := { s with groups := mupd s.groups g f }

def State.modOp (s : State) (o : Nat) (f : Op → Op) : State := { s with ops := mupd s.ops o f }

def State.modBlk (s : State) (b : Nat) (f : Block → Block) : State := { s with blocks := mupd s.blocks b f }

def State.modLaunch (s : State) (l : Nat) (f : Launch → Launch) : State := { s with launches := mupd s.launches l f }

def State.modCtx (s : State) (c : Nat) (f : Context → Context) : State := { s with ctxs := mupd s.ctxs c f }

/-- A key that nothing uses. -/
def State.fresh (s : State) : Nat × State := (s.nextId, { s with nextId := s.nextId + 1 })

/-- The group that a turn names as issuing, with what it issues. -/
def withScalar (s : State) (k : Nat → Group → Out) : Out :=
  match s.turn with
  | .scalar g =>
    match mget s.groups g with
    | some G => k g G
    | none => .fault .noGroup
  | _ => .fault .notIssuing

/-- The split that a turn names as issuing. -/
def withSplit (s : State) (k : Nat → Group → Nat → Split → Out) : Out :=
  match s.turn with
  | .lane g n =>
    match mget s.groups g with
    | some G =>
      match mget G.splits n with
      | some S => k g G n S
      | none => .fault .noGroup
    | none => .fault .noGroup
  | _ => .fault .notIssuing

/-- Die of a core, its number in the die, its cluster in the package. -/
def dieOf (core : Nat) : Nat := core / 16
def clusterOf (core : Nat) : Nat := core / 4

/-- Core number `c` of a cluster that holds `core`. -/
def mateOf (core c : Nat) : Nat := core / 4 * 4 + c % 4

def State.die (s : State) (d : Nat) : Die := s.dies.getD d (Die.reset d)

def State.modDie (s : State) (d : Nat) (f : Die → Die) : State := { s with dies := s.dies.modify d f }

/-- Chegon level of a generation (R64, R365). -/
def levelOf (gen : Nat) : Nat := if gen = 4 then 3 else 2

def State.level (s : State) (core : Nat) : Nat := levelOf (s.die (dieOf core)).gen

def State.blk? (s : State) (G : Group) : Option Block := mget s.blocks G.blk

def State.launch? (s : State) (G : Group) : Option Launch := (s.blk? G).bind fun b => mget s.launches b.launch

/-- The overlay table that a group's table indices name: its launch's, or for a compensation the Girth's copy (R315, R324). -/
def State.table (s : State) (G : Group) : List OvEntry := ((s.launch? G).map (·.tab)).getD []

/-- The copy of one of a group's fixed overlays on its core (R193); for a compensation, of its one overlay (R324). -/
def fixedCopy (s : State) (G : Group) (ov : Nat) : Nat :=
  (((s.blk? G).bind fun b => b.fixed.find? fun f => f.1 == G.core && f.2.1 == ov).map (·.2.2)).getD 0

/-- The words of an overlay: scalar section and lane section (R44, R48). -/
def OvCopy.scalarWord (c : OvCopy) (n : Nat) : Option (BitVec 32) :=
  if n < c.ent.s then some (((mget c.code n).getD 0).truncate 32) else none

def OvCopy.laneWord (c : OvCopy) (n : Nat) : Option (BitVec 96) :=
  if n < c.ent.l then some ((mget c.code (c.ent.s + n)).getD 0) else none

/-- The 4-byte piece `i` of an image. -/
def OvCopy.piece (c : OvCopy) (i : Nat) : Nat :=
  if i < c.ent.s then ((mget c.code i).getD 0).toNat % 2 ^ 32
  else ((mget c.code (c.ent.s + (i - c.ent.s) / 3)).getD 0).toNat / 2 ^ (32 * ((i - c.ent.s) % 3)) % 2 ^ 32

/-- A library copy as an entry with another S and L names it: the same bytes, cut into words as that entry says (R177, R190). -/
def OvCopy.cut (c : OvCopy) (e : OvEntry) : OvCopy :=
  if c.ent.s = e.s ∧ c.ent.l = e.l then c else
  let word (i : Nat) : Nat :=
    if i < e.s then c.piece i else
    let j := e.s + 3 * (i - e.s)
    c.piece j + 2 ^ 32 * c.piece (j + 1) + 2 ^ 64 * c.piece (j + 2)
  { c with ent := { c.ent with s := e.s, l := e.l }, code := (List.range (e.s + e.l)).foldl (fun m i => mset 0 m i (BitVec.ofNat 96 (word i))) [] }

/-- The code of one of a group's overlays in a copy, in the words of the group's table entry (R181, R190). -/
def State.code (s : State) (G : Group) (ov copy : Nat) : Option OvCopy :=
  (mget s.copies copy).map fun c => match (s.table G)[ov]? with
    | some e => c.cut e
    | none => c

/-- Slots of an overlay (R177). -/
def slotsOf (e : OvEntry) : Nat := (4 * e.s + 12 * e.l + 2047) / 2048

/-- Lengths of the sections of a group's overlay. -/
def scalarLen (s : State) (G : Group) : Nat := (((s.table G)[G.ov]?).map (·.s)).getD 0

/-- The overlay of the running run (R73). -/
def runOv (G : Group) : Nat := (G.runs.head?.map (·.ov)).getD G.ov

def laneLen (s : State) (G : Group) : Nat := (((s.table G)[runOv G]?).map (·.l)).getD 0

/-! ### The order of accesses (R229 to R240) -/

/-- The scope instance of `a` at a scope holds `b` (R232). -/
def reaches (sc : Scope) (a b : Agent) : Bool :=
  match sc, a, b with
  | .system, _, _ => true
  | .package, _, .host => false
  | .package, _, .peer _ => false
  | .package, _, _ => true
  | .group, .group g _ _, .group h _ _ => g == h
  | .block, .group _ b _, .group _ c _ => b == c
  | .cluster, .group _ _ c, .group _ _ d => clusterOf c == clusterOf d
  | .die, .group _ _ c, .group _ _ d => dieOf c == dieOf d
  | _, a, b => a == b

def View.join (v w : View) : View := { ops := sunion v.ops w.ops, pos := sunion v.pos w.pos, upto := max v.upto w.upto }

def Earlier.join (e f : Earlier) : Earlier :=
  { ops := sunion e.ops f.ops, acq := e.acq ++ f.acq.filter (!e.acq.contains ·), seen := sunion e.seen f.seen, view := e.view.join f.view }

/-- Some more operations come first. -/
def Earlier.addOps (e : Earlier) (ks : List Nat) : Earlier := { e with ops := sunion e.ops ks }

/-- The operations that something waits for. -/
def Earlier.keys (e : Earlier) : List Nat := sunion e.ops (e.acq.map (·.op))

/-- What a release of the stream orders before itself, and what its accesses come before at a merge or a run (R88, R235). -/
def Ord.earlier (o : Ord) : Earlier := o.before.addOps o.own

/-- Operations that come before every later access of the stream. -/
def Ord.follow (o : Ord) (ks : List Nat) : Ord := { o with before := o.before.addOps ks }

/-- What an acquire of the stream puts before everything that issues later (R236). -/
def Ord.gain (o : Ord) (e : Earlier) : Ord := { o with before := o.before.join e, gained := o.gained.join e }

/-- Writes that an acquire puts before everything that issues later. -/
def Ord.learn (o : Ord) (v : View) : Ord := o.gain { view := v }

/-- The order of a split that goes on for several that merge, or for itself after a point at which it might have merged (R88): what they accessed, and what
comes before. -/
def Ord.merged (o : Ord) (ran : List Nat) (before : Earlier) : Ord :=
  { o with own := [], prior := sunion o.prior ran, before := before }

/-- The accesses of the stream in program order (R231). -/
def Ord.ran (o : Ord) : List Nat := sunion o.own o.prior

/-- A release fence: one of the same scope takes the place of an older one, whose earlier set it holds. -/
def Ord.fence (o : Ord) (sc : Scope) (e : Earlier) : Ord := { o with fences := (o.fences.filter (·.1 != sc)) ++ [(sc, e)] }

/-- The agent of a group (R229). -/
def Group.agent (g : Nat) (G : Group) : Agent := .group g G.blk G.core

/-- The agent of an operation (R229). -/
def Op.agent (o : Op) : Agent :=
  match o.body with
  | .copy _ => .engine o.core
  | .tile _ => .tile o.core
  | .mem _ => .group (o.grp.getD 0) (o.blk.getD 0) o.core

/-- Numbers of the writes that an operation has read. -/
def State.saw (s : State) (k : Nat) : List Nat :=
  match mget s.past k with
  | some p => p.saw
  | none => match (mget s.ops k).map (·.body) with
    | some (OpBody.mem m) => m.saw
    | _ => []

def State.writeNo (s : State) (n : Nat) : Option MemWrite := s.hist.find? (·.n == n)

/-- What an acquire by `who` at a scope gains from the writes it read: each of their releases that reaches it and that it reaches (R237). -/
def gain (s : State) (who : Agent) (sc : Scope) (saw : List Nat) : View :=
  saw.foldl (fun v n => match s.writeNo n with
    | none => v
    | some e => e.stamp.rels.foldl (fun v r =>
        if reaches r.scope r.who who && reaches sc who r.who then (v.join r.view).join { pos := [n] } else v) v) {}

/-- What an operation puts before what follows it, beside its own accesses: once it has left, what it left; before, what it has acquired. -/
def State.pastView (s : State) (k : Nat) : View :=
  match mget s.past k with
  | some p => p.view
  | none => match mget s.ops k with
    | some o => if o.acq then gain s o.agent o.scope (s.saw k) else {}
    | none => {}

/-- The writes that happen before what follows `e`: R237's closure. A write that a sequential fence orders because its group has read it brings what happens
before it (R240). -/
def State.viewOf (s : State) (e : Earlier) : View :=
  let v := e.ops.foldl (fun v k => (v.join (s.pastView k)).join { ops := [k] }) e.view
  let v := e.acq.foldl (fun v a => ((v.join (s.pastView a.op)).join { ops := [a.op] }).join (gain s a.who a.scope (s.saw a.op))) v
  e.seen.foldl (fun v k => (s.saw k).foldl (fun v n => match s.writeNo n with
    | some e => ((v.join e.stamp.view).join { ops := if e.stamp.op = 0 then [] else [e.stamp.op] }).join { pos := [n] }
    | none => v) v) v

/-- An access of the stream may not return a value from before this write (R231, R238): it happens before the access, it is an earlier write of the
stream, or an earlier read of the stream returned it. -/
def Ord.knows (s : State) (o : Ord) : MemWrite → Bool :=
  let v := (s.viewOf o.before).join o.mine
  let seen := o.ran.flatMap s.saw
  fun e => decide (e.n < v.upto) || v.ops.contains e.stamp.op || v.pos.contains e.n || o.ran.contains e.stamp.op || seen.contains e.n

/-- An operation may not return a value from before this write: its stream's order forbids it, or its die had a copy of the line and the write, acknowledged
before the operation issued, has invalidated that copy (R257, R262; DEDUCED, log 81). -/
def Op.knows (s : State) (o : Op) : MemWrite → Bool :=
  let k := o.ord.knows s
  fun e => k e || (decide (e.n < o.since) && e.inv.contains (dieOf o.core))

/-- How many of the newest writes may be looked past by a read of `[a, a + n)`, beside none. -/
def passes (knows : MemWrite → Bool) (a n : Nat) : List MemWrite → Nat → List Nat
  | [], _ => []
  | e :: h, i =>
    if e.loc < a + n && decide (a < e.loc + e.was.length) then (if knows e then [] else (i + 1) :: passes knows a n h (i + 1))
    else passes knows a n h (i + 1)

/-- How many of the newest writes a read of `[a, a + n)` must look past: it happens before them (R238). -/
def mustPass (after : MemWrite → Bool) (a n : Nat) : List MemWrite → Nat → Nat → Nat
  | [], _, k => k
  | e :: h, i, k => mustPass after a n h (i + 1) (if decide (e.loc < a + n) && decide (a < e.loc + e.was.length) && after e then i + 1 else k)

/-- A byte as it stood before the newest `k` writes. -/
def byteBack : List MemWrite → Nat → Nat → Byte → Byte
  | [], _, _, b => b
  | _, 0, _, b => b
  | e :: h, k + 1, a, b => byteBack h k a (if decide (e.loc ≤ a) && decide (a < e.loc + e.was.length) then e.was.getD (a - e.loc) b else b)

/-- A read of `n` bytes at one moment that the order allows, by a free choice (R231, R238, R239): its value, little-endian, and the numbers of the writes
it read. `after`: the writes before which it happens; `use` tells the choices of one step apart. -/
def State.readAt (s : State) (knows after : MemWrite → Bool) (use a n : Nat) : Nat × List Nat :=
  let least := mustPass after a n s.hist 0 0
  let ks := (0 :: passes knows a n s.hist 0).filter (decide <| least ≤ ·)
  let k := if ks.length ≤ 1 then least else ks.getD (Config.freeNat s.tick use % ks.length) least
  ((List.range n).foldr (fun i x => (byteBack s.hist k (a + i) (s.byte (a + i))).toNat + 256 * x) 0,
   (List.range n).foldl (fun l i => match (s.hist.drop k).find? fun e => decide (e.loc ≤ a + i) && decide (a + i < e.loc + e.was.length) with
     | some e => insNat l e.n
     | none => l) [])

/-- Numbers of the writes that stand in `[a, a + n)` now. -/
def State.writersOf (s : State) (a n : Nat) : List Nat :=
  (List.range n).foldl (fun l i => match s.hist.find? fun e => decide (e.loc ≤ a + i) && decide (a + i < e.loc + e.was.length) with
    | some e => insNat l e.n
    | none => l) []

/-- The read of operation `k`. -/
def State.readOf (s : State) (k : Nat) (o : Op) (use a n : Nat) : Nat × List Nat :=
  s.readAt (o.knows s) (fun e => e.stamp.view.ops.contains k) use a n

/-- The releases that a write of an operation makes: its own, and those of the fences before it (R235). -/
def Op.releases (s : State) (o : Op) : List Release :=
  let own : List Release := if o.relse then [{ who := o.agent, scope := o.scope, view := s.viewOf o.ord.earlier }] else []
  own ++ o.ord.fences.map fun (sc, e) => { who := o.agent, scope := sc, view := s.viewOf e }

/-- What happens before a write of an operation: what comes before its stream's accesses, what release fences put before it, and for a release everything of
the stream. -/
def Op.beforeWrite (o : Op) : Earlier := o.ord.fences.foldl (fun e f => e.join f.2) (if o.relse then o.ord.earlier else o.ord.before)

/-- What a write of operation `k` carries. -/
def Op.stamp (s : State) (k : Nat) (o : Op) : Stamp := { op := k, rels := o.releases s, view := s.viewOf o.beforeWrite }

/-- An operation has left: what it leaves to those that follow it (R237). -/
def pastOf (s : State) (k : Nat) (o : Op) : OpPast :=
  let v := s.viewOf (if s.hist.any (·.stamp.op == k) then o.beforeWrite else o.ord.before)
  { view := if o.acq then v.join (gain s o.agent o.scope (s.saw k)) else v, saw := s.saw k }

/-! ### Phasers: places and weights (R194 to R208) -/

/-- Key of a membership: a block phaser's id, or 64 + a package phaser's id. -/
def phKey (pkg : Bool) (id : Nat) : Nat := if pkg then 64 + id else id

def State.ph (s : State) (G : Group) (k : Nat) : Phaser :=
  if k < 64 then ((s.blk? G).bind fun b => mget b.phasers k).getD {}
  else ((s.launch? G).bind fun l => mget l.phasers (k - 64)).getD {}

def State.setPh (s : State) (blk : Nat) (k : Nat) (p : Phaser) : State :=
  match mget s.blocks blk with
  | none => s
  | some b =>
    if k < 64 then s.modBlk blk fun b => { b with phasers := mput b.phasers k p }
    else s.modLaunch b.launch fun l => { l with phasers := mput l.phasers (k - 64) p }

/-- Groups that share a phaser with a group of block `blk`: those of the block, or of the launch. -/
def sharers (s : State) (blk k : Nat) : List Nat :=
  let l := (mget s.blocks blk).map (·.launch)
  s.groups.filterMap fun (g, G) =>
    if (G.blk == blk || (k ≥ 64 && (mget s.blocks G.blk).map (·.launch) == l)) && (mget G.memb k).isSome then some g else none

/-- Arrivals in phase `cur` reach the expected count (R198). For block phaser 0 every remaining member must have arrived (R195). -/
def phFull (s : State) (blk k : Nat) (p : Phaser) : Bool :=
  if k = 0 then
    let ms := s.groups.filterMap fun (_, G) => if G.blk == blk then mget G.memb 0 else none
    decide (0 < p.arr) && ms.all fun m => m.ag == p.cur + 1
  else match p.expect with
    | some n => decide (n ≤ p.arr)
    | none => false

/-- A phase ends (R197, R198): what its arrivals released, and in a drain phase every access of its weight, is what its end orders (R237, R251); cur rises, memberships that are behind catch up and their holding returns without effect. -/
def endPhase (s : State) (blk k : Nat) (p : Phaser) : State :=
  let old := p.cur
  let catchUp (m : Memb) : Memb := if m.ag == old then { m with ag := old + 1, hold := 0 } else m
  let p' : Phaser := { p with cur := old + 1, expect := none, arr := 0, drain := false, root0 := p.root1, root1 := Config.rootWeight,
                              wt0 := p.wt1, wt1 := {}, rel := {}, ended := mput p.ended old.toNat (if p.drain then p.rel.join p.wt0 else p.rel) }
  let s := s.setPh blk k p'
  if k = 0 then s else
  let gs := sharers s blk k
  let s := gs.foldl (fun s g => s.modGrp g fun G => { G with memb := mupd G.memb k catchUp }) s
  if k < 64 then s else
  { s with blocks := s.blocks.map fun (b, B) =>
      (b, { B with held := B.held.map fun (i, k', m) => if k' == k && (mget s.blocks blk).map (·.launch) == some B.launch then (i, k', catchUp m) else (i, k', m) }) }

/-- Ends the current phase if its count, and in a drain phase its weight, is home (R198, R206). -/
def settlePh (s : State) (blk k : Nat) : State :=
  match mget s.blocks blk with
  | none => s
  | some b =>
    let p := if k < 64 then (mget b.phasers k).getD {} else ((mget s.launches b.launch).bind fun l => mget l.phasers (k - 64)).getD {}
    if !p.broken && phFull s blk k p && (!p.drain || p.root0 == Config.rootWeight) then endPhase s blk k p else s

/-- Units return to a package phaser's root (R206, R208): current or next; any other phase takes them without effect.
More than 2^32 breaks the phaser (R200). `l` is the launch, `e` the accesses that the units stood for (R251). -/
def rootAdd (s : State) (l ph : Nat) (phase : BitVec 32) (n : Nat) (e : Earlier := {}) : State :=
  match mget s.launches l with
  | none => s
  | some L =>
    let p := (mget L.phasers ph).getD {}
    let p' := if phase == p.cur then { p with root0 := p.root0 + n, wt0 := p.wt0.join e }
      else if phase == p.cur + 1 then { p with root1 := p.root1 + n, wt1 := p.wt1.join e } else p
    let p' := { p' with broken := p'.broken || decide (p'.root0 > Config.rootWeight) || decide (p'.root1 > Config.rootWeight) }
    let s : State := { s with launches := mput s.launches l { L with phasers := mput L.phasers ph p' } }
    match s.blocks.find? fun (_, b) => b.launch == l with
    | some (b, _) => settlePh s b (64 + ph)
    | none => s

/-- The group's drain membership (R196): phaser id and membership. -/
def drainOf (G : Group) : Option (Nat × Memb) :=
  (G.memb.find? fun (_, m) => m.drain).map fun (k, m) => (k - 64, m)

/-- Takes `n` units from H, after a grant if H is below what is needed (R207). `none`: the root is empty and the event waits.
A group without a drain membership takes nothing. -/
def takeUnits (s : State) (g : Nat) (G : Group) (need take : Nat) : Option (State × Group × Option (Nat × BitVec 32)) :=
  match drainOf G with
  | none => some (s, G, none)
  | some (ph, m) =>
    let p := s.ph G (64 + ph)
    let root := if m.ag == p.cur then p.root0 else p.root1
    let grant := if m.hold < need then min Config.grantUnits root else 0
    if m.hold + grant < need then none else
    let p' := if m.ag == p.cur then { p with root0 := p.root0 - grant } else { p with root1 := p.root1 - grant }
    let s := s.setPh G.blk (64 + ph) p'
    let G := { G with memb := mput G.memb (64 + ph) { m with hold := m.hold + grant - take } }
    some (s.grp g G, G, some (ph, m.ag))

/-! ### Ends of groups and blocks -/

/-- Empties the handles of a group; the pins of its tokens drop with them (R71, R192). -/
def Group.emptyHandles (G : Group) : Group := { G with hreg := [] }

/-- What comes before the end of the running run: its accesses with what they follow (R77). -/
def Group.runOps (G : Group) : List Nat :=
  G.joins.foldl (fun l p => sunion l p.2.before.ops) (G.splits.foldl (fun l p => sunion l p.2.ord.earlier.ops) [])

/-- The accesses of the running run, which those of later runs to the same bytes follow (R231). -/
def Group.runRan (G : Group) : List Nat :=
  G.joins.foldl (fun l p => sunion l p.2.ran) (G.splits.foldl (fun l p => sunion l p.2.ord.ran) [])

/-- Discards the lane stream: runs, splits, joins; lanes marked by lexit leave laneact (R96, R336). What has issued stays in order (R77). -/
def Group.dropRuns (G : Group) : Group :=
  { G with runs := [], splits := [], joins := [], laneDone := sunion G.laneDone G.runOps, laneRan := sunion G.laneRan G.runRan, laneact := G.laneact &&& ~~~G.exitMarks, exitMarks := 0,
           holds := G.holds.filter (·.str == .scalar), stall := none }

/-- A store, an atomic or a tile operation that is not acknowledged. -/
def OpBody.writing : OpBody → Bool
  | .mem m => m.todo != 0 || m.unack != 0
  | .tile _ => true
  | .copy _ => false

/-- Runs that have ended, and whose stores, atomics and tile operations are all acknowledged, return their drain units (R207). -/
def settleRuns (s : State) : State :=
  if s.runUnits.isEmpty then s else
  let busy (u : RunUnit) : Bool :=
    s.groups.any (fun (_, G) => G.runs.any (·.key == u.run)) || s.ops.any (fun (_, o) => o.run == some u.run && o.body.writing)
  let home := s.runUnits.filter fun u => !busy u
  home.foldl (fun s u => rootAdd s u.launch u.ph u.phase 1 { ops := u.ran }) { s with runUnits := s.runUnits.filter busy }

/-- A tile in hand is done (R298). A tile that was in hand at wrap time or at a kill is not audited (R380). -/
def tileDone (s : State) (g : Nat) (bar : Bool) : State :=
  match mget s.groups g with
  | none => s
  | some G =>
    match G.tile, s.blk? G with
    | some (_, a), some b =>
      let s := s.modBlk G.blk fun b => { b with done := b.done + 1 }
      let s := s.modLaunch b.launch fun l => { l with done := l.done + 1 }
      let s := s.modGrp g fun G => { G with tile := none }
      match a with
      | some k => { s with audits := mupd s.audits k fun a => { a with done := true, barred := a.barred || bar } }
      | none => s
    | _, _ => s

/-- The phasers of a killed member break, and every wait on them traps when it is tried again (R200, R201). -/
def breakPhasers (s : State) (g : Nat) : State :=
  match mget s.groups g with
  | none => s
  | some G => (mkeys G.memb).foldl (fun s k => s.setPh G.blk k { s.ph G k with broken := true }) s

/-- Leaves a phaser (R203, R205): the holding returns to the root of phase a_g. -/
def leavePh (s : State) (g k : Nat) : State :=
  match mget s.groups g with
  | none => s
  | some G =>
    match mget G.memb k with
    | none => s
    | some m =>
      let s := s.grp g { G with memb := mdel G.memb k }
      let s : State := match s.blk? G with
        | some b => if m.drain && m.hold > 0 then rootAdd s b.launch (k - 64) m.ag m.hold else s
        | none => s
      if k = 0 then settlePh s G.blk 0 else s

/-- A load without a waiter is given up, and its slots are free (R180). -/
def dropIdleLoads (s : State) : State := { s with copies := s.copies.filter fun (_, c) => !(c.loading && c.waiters.isEmpty) }

/-- Some waiters no longer wait for any load. -/
def dropWaiters (s : State) (out : Waiter → Bool) : State :=
  { s with copies := s.copies.map fun (k, c) => (k, { c with waiters := c.waiters.filter fun w => !out w }) }

/-- A group that waited to enter an overlay no longer does. -/
def unwait (s : State) (g : Nat) : State := dropWaiters s (· == .entry g)

/-- A group requests no load any more. -/
def unrequest (s : State) (g : Nat) : State :=
  dropIdleLoads (dropWaiters s fun w => match w with
    | .entry x => x == g
    | .handle x _ => x == g
    | _ => false)

/-- A block with every group EXITED or KILLED ends (R72): its scratch, phasers and split tables are freed; held memberships
drop (R346); a block that ends before wrap time with no group killed is valid (R304). -/
def tryEndBlock (s : State) (b : Nat) : State :=
  match mget s.blocks b with
  | none => s
  | some B =>
    let gs := s.groups.filter fun (_, G) => G.blk == b
    if B.st ≠ .ended ∧ B.st ≠ .waiting ∧ !gs.isEmpty ∧
        gs.all (fun (_, G) => G.st = .exited || G.st = .killed) then
      let s := B.held.foldl (fun s (h : Nat × Nat × Memb) =>
        if h.2.2.drain && h.2.2.hold > 0 then rootAdd s B.launch (h.2.1 - 64) h.2.2.ag h.2.2.hold else s) s
      let s := dropIdleLoads (dropWaiters s (· == .fixed b))
      let s : State := { s with tags := s.tags.filter fun (_, t) => t.blk != b }
      let s := s.modBlk b fun B => { B with st := .ended, held := [], pre := none, phasers := [], fixed := [], save := [], brec := none }
      if B.comp.isSome || B.audit.isSome then s else
      s.modLaunch B.launch fun l =>
        let before := match l.wrapped, l.wrap with
          | some _, _ => false
          | none, some w => decide (s.now < w)
          | none, none => true
        { l with valid := if before && !B.killed then l.valid ||| (1 <<< B.lin) else l.valid, endedLate := l.endedLate || !before }
    else s

/-! ### Ends of operations -/

/-- The counters of a group fall. -/
def Group.fall (G : Group) (ld st cp tl : Bool) : Group :=
  { G with cld := G.cld - ld.toNat, cst := G.cst - st.toNat, ccp := G.ccp - cp.toNat, ctl := G.ctl - tl.toNat }

/-- Changes a group that may be absent. -/
def modGrp? (s : State) (g : Option Nat) (f : Group → Group) : State :=
  match g with
  | some g => s.modGrp g f
  | none => s

/-- An operation leaves: its drain unit returns to its root (R207). -/
def dropOp (s : State) (k : Nat) : State :=
  match mget s.ops k with
  | none => s
  | some o =>
    let s : State := { s with ops := mdel s.ops k, past := mput s.past k (pastOf s k o) }
    let s : State := match o.unit, o.launch with
      | some (ph, p), some l => rootAdd s l ph p 1 { ops := [k] }
      | _, _ => s
    settleRuns s

/-- After a change of a memory operation: counters fall when their part is over (R37), and the operation leaves when all is. -/
def settleMem (s : State) (k : Nat) : State :=
  match mget s.ops k with
  | none => s
  | some o =>
    match o.body with
    | .mem m =>
      let ldOver := o.ldc && m.lo = 0 && m.hi = 0 && !m.more
      let stOver := o.stc && m.todo = 0 && m.unack = 0 && !m.more
      let s := modGrp? s o.grp fun G => G.fall ldOver stOver false false
      let s := s.modOp k fun o => { o with ldc := o.ldc && !ldOver, stc := o.stc && !stOver }
      if m.lo = 0 && m.hi = 0 && m.todo = 0 && m.unack = 0 && !m.more then dropOp s k else settleRuns s
    | _ => s

/-- A full/empty instruction in progress is interrupted (R141): finished lanes are recorded in lanedone, the others hold nothing. -/
def interruptFe (s : State) (g : Nat) : State :=
  match mget s.groups g with
  | none => s
  | some G => G.splits.foldl (fun s (n, S) =>
    match S.fe.bind fun k => (mget s.ops k).map fun o => (k, o) with
    | some (k, o) =>
      match o.body with
      | .mem m =>
        let fin : Mask := m.acc.foldl (fun (x : Mask) a => if m.todo.getLsbD a.lane then x else x ||| (1 <<< a.lane)) 0
        let s := s.modGrp g fun G => { G with lanedone := G.lanedone ||| fin, splits := mupd G.splits n fun S => { S with fe := none, redo := true } }
        settleMem (s.modOp k fun o => { o with body := .mem { m with todo := 0, more := false } }) k
      | _ => s
    | none => s) s

/-- An instruction of split `n` that skips the lanes in lanedone completes, and lanedone is cleared (R40, R141, R144); what another split's
interrupted instruction has recorded stays for its own replay. -/
def Group.clearDone (G : Group) (n : Nat) : Group :=
  { G with lanedone := G.lanedone &&& G.splits.foldl (fun (m : Mask) p => if p.1 != n && p.2.redo then m ||| p.2.mask else m) 0
           splits := mupd G.splits n fun S => { S with redo := false, fe := none } }

/-- Kills a group (R69, R335): no trap entry runs, its issued operations complete. `fatal` breaks its phasers and faults its
launch; a kill at the deadline or by its activity's abandonment does neither. A killed group leaves block phaser 0 (R195), and lanes of a
full/empty instruction that have not finished hold nothing (R141, log 23). -/
def killGroup (s : State) (fatal : Bool) (g : Nat) : State :=
  match mget s.groups g with
  | none => s
  | some G =>
    if G.st = .exited ∨ G.st = .killed then s else
    let s : State := unrequest (interruptFe (if fatal then breakPhasers s g else s) g) g
    let s := s.modGrp g fun G => { G.dropRuns.emptyHandles with st := .killed, wait := .none, holds := [], stopWanted := false, sect := none, trapMode := none,
                                                                  memb := mdel G.memb 0 }
    let s := settlePh (settleRuns (tileDone s g true)) G.blk 0
    let s := s.modBlk G.blk fun B => { B with killed := true }
    let s : State := match s.blk? G with
      | some B =>
        if B.audit.isSome then s
        else s.modLaunch B.launch fun l => { l with killed := l.killed || B.comp.isNone, faulted := l.faulted || fatal }
      | none => s
    tryEndBlock s G.blk

/-! ### Taking a trap, and the return (R331 to R338) -/

/-- An entry whose compensation has neither succeeded nor failed (R320). -/
def StackEntry.pending (e : StackEntry) : Bool := e.st == .open_ || e.st == .sealed

/-- A compensation fails (R325): its entry, OPEN or SEALED until now (R320), becomes FAILED, and every activity of its set that is not ABANDONED
becomes STUCK. -/
def compFail (s : State) (act seq reason cause : Nat) (code : BitVec 16) : State :=
  match mget s.acts act with
  | none => s
  | some A =>
    if !A.entries.any (fun e => e.seq == seq && e.pending) then s else
    let failed (e : StackEntry) : StackEntry := if e.seq == seq then { e with st := .failed } else e
    { s with acts := s.acts.map fun (k, B) =>
        if B.set == A.set && B.st = .abandoning then
          (k, { B with st := .stuck, entries := B.entries.map failed, reason := reason, cause := cause, seq := seq, code := code })
        else if B.set == A.set then (k, { B with entries := B.entries.map failed }) else (k, B) }

/-- A fatal trap that runs no trap entry (R335): a compensation fails with it (R325). -/
def fatalKill (s : State) (cause g : Nat) : State :=
  match mget s.groups g with
  | none => s
  | some G => match G.comp with
    | some (act, seq) => killGroup (if G.compDone then s else compFail s act seq 1 cause 0) true g
    | none => killGroup s true g

/-- Where a trap stands and what its registers receive (R333, R334). `bound`: it is raised at a boundary, between two instructions. -/
structure TrapInfo where
  cause : BitVec 8
  code : BitVec 10 := 0
  str : Stream
  ov : Nat
  off : Nat
  addr : Word := 0
  lanes : Mask := 0
  bound : Bool := false

/-- A group traps (R331, R332). In trap mode, and in a compensation group, the trap is fatal (R335); the replay of an audited tile traps like any other group.
Otherwise the trap registers are written,
the lane stream freezes, and the scalar stream goes to the launch's trap entry. An access held at a fault is made anew when its stream goes on, and a
scalar instruction of which the trap is not keeps its wait, so that an `sret` that had popped its entry does not pop a second one after `stret` (DESIGN
CHOICE, log 76: R106 does not say). A group that is EXITING returns to RUNNING with its sexit as the stopped boundary
(R71, R336), and its tile in hand is done (R298). -/
def trap (s : State) (g : Nat) (t : TrapInfo) : State :=
  let s := dropIdleLoads (unwait (interruptFe s g) g)
  match mget s.groups g with
  | none => s
  | some G =>
    let regs : TrapRegs :=
      { cause := t.cause, code := t.code, lane := t.str != .scalar, ov := t.ov, off := t.off, addr := t.addr,
        split := match t.str with
          | .scalar => 0
          | .split k => k }
    let G' := { G with trap := regs, faultmask := t.lanes }
    match G.comp with
    | some (act, seq) =>
      let s := s.grp g G'
      killGroup (if G.compDone then s else compFail s act seq 1 t.cause.toNat 0) true g
    | none =>
      if G.trapMode.isSome then killGroup (s.grp g G') true g else
      match s.launch? G with
      | none => killGroup (s.grp g G') true g
      | some L =>
        let s := if G.st = .exiting then tileDone s g false else s
        let tile := if G.st = .exiting then none else G.tile
        s.grp g { G' with
          st := if G.st = .exiting then .running else G.st
          trapMode := some { calls := G.calls, ov := G.ov, off := G.pc, copy := G.copy, wait := if G.st = .exiting then .leaving else if t.str == .scalar && !t.bound then .none else G.wait }
          ov := L.desc.trapov, copy := fixedCopy s G L.desc.trapov, pc := L.desc.trapent, wait := .none, sect := none, holds := [], stall := none, tile := tile }

/-- A trap of the scalar stream at the instruction it is about to issue; past the last scalar word, trapoff is the section's length (R44). -/
def trapS (s : State) (g : Nat) (cause : BitVec 8) (addr : Word := 0) (code : BitVec 10 := 0) : State :=
  match mget s.groups g with
  | none => s
  | some G => trap s g { cause, code, str := .scalar, ov := G.ov, off := min G.pc (scalarLen s G), addr }

/-- A trap of a split at the lane instruction it is about to issue; past the last lane word, trapoff is the section's length (R75). -/
def trapL (s : State) (g n : Nat) (cause : BitVec 8) (lanes : Mask) (addr : Word := 0) (code : BitVec 10 := 0) : State :=
  match mget s.groups g with
  | none => s
  | some G => trap s g { cause, code, str := .split n, ov := runOv G, off := min (((mget G.splits n).map (·.pc)).getD 0) (laneLen s G), addr, lanes }

/-- A trap at a boundary (causes 0x0E, 0x0F): it names the first scalar instruction that did not issue (R333). -/
def trapBoundary (s : State) (g : Nat) (cause : BitVec 8) (addr : Word) : State :=
  match mget s.groups g with
  | none => s
  | some G => trap s g { cause, str := .scalar, ov := G.ov, off := min G.pc (scalarLen s G), addr, bound := true }

/-- Diversion to the wrap-up entry (R302, R96, R336). -/
def divert (s : State) (g : Nat) : State :=
  let s := dropIdleLoads (unwait (interruptFe s g) g)
  match mget s.groups g, (mget s.groups g).bind s.launch? with
  | some G, some L =>
    settleRuns <| s.grp g { G.dropRuns with
      ov := L.desc.wrapov, copy := fixedCopy s G L.desc.wrapov, pc := L.desc.wrapent, wrapflag := true, calls := [], wait := .none, holds := [], trapMode := none
      divertDue := false }
  | _, _ => s

/-- `stret`: the state after leaving trap mode for the target of R338, the target overlay being enterable (R187). A scalar instruction that the trap
stopped goes on with its wait, unless the skip passes it. -/
def trapReturn (s : State) (g : Nat) (G : Group) (m : TrapMode) (copy off : Nat) : State :=
  if !G.trap.lane then
    s.grp g { G with calls := m.calls, ov := G.trap.ov, copy := copy, pc := off, trapMode := none, wait := if off = G.trap.off then m.wait else .none }
  else
    s.grp g { G with calls := m.calls, ov := m.ov, copy := copy, pc := m.off, trapMode := none, wait := m.wait,
                     splits := mupd G.splits G.trap.split fun S => { S with pc := off } }

/-! ### Issue helpers -/

/-- The guard of a scalar word holds (R53). -/
def guardOk (G : Group) (g : CReg) : Bool := G.rc g

/-- The scalar pc moves past the words of an instruction. -/
def Group.adv (G : Group) (n : Nat) : Group := { G with pc := G.pc + n }

/-- Executes a guarded scalar instruction of `n` words that only changes the group. -/
def scalarStep (s : State) (n : Nat) (gd : CReg) (f : Group → Group) : Out :=
  withScalar s fun g G => .next (s.grp g ((if guardOk G gd then f G else G).adv n))

/-- The active lanes of a lane word in a split (R54). -/
def active (G : Group) (S : Split) (g : LGuard) : Mask :=
  S.mask &&& (if g.inv then ~~~(G.rp g.pg) else G.rp g.pg)

/-- The counters as a list in the order ld, st, cp, tl (R37). -/
def Group.atMost (G : Group) (ld st cp tl : BitVec 6) : Bool :=
  decide (G.cld ≤ ld.toNat ∧ G.cst ≤ st.toNat ∧ G.ccp ≤ cp.toNat ∧ G.ctl ≤ tl.toNat)

end Sys2Proof.Machine
end

