-- ==== Sys2Proof/Machine/Flags.lean ====
section
/-!
DEFINITION. Relations (R52) and the integer readings that comparisons, minima and saturation rest on (R17). The hardware has
no condition flags: a compare writes a predicate.
-/

namespace Sys2Proof.Machine

/-- An `n`-bit pattern as an integer, signed or unsigned. -/
def toInt (signed : Bool) (n x : Nat) : Int := if signed && decide (2 ^ (n - 1) ≤ x % 2 ^ n) then (x % 2 ^ n : Int) - 2 ^ n else (x % 2 ^ n : Nat)

/-- The `n`-bit pattern of an integer, wrapping (R17). -/
def wrap (n : Nat) (x : Int) : Nat := (x % (2 ^ n : Nat)).toNat

/-- Least and largest value of an `n`-bit type (R17). -/
def minOf (signed : Bool) (n : Nat) : Int := if signed then -(2 ^ (n - 1) : Nat) else 0
def maxOf (signed : Bool) (n : Nat) : Int := if signed then (2 ^ (n - 1) : Nat) - 1 else (2 ^ n : Nat) - 1

/-- The exact result clamped to the range of a type (R17). -/
def clamp (signed : Bool) (n : Nat) (x : Int) : Int := max (minOf signed n) (min (maxOf signed n) x)

/-- Wraps or clamps an exact result (R17). -/
def narrow (sat signed : Bool) (n : Nat) (x : Int) : Nat := wrap n (if sat then clamp signed n x else x)

/-- The relations on two values and on their unsigned readings; ord and unord never reach here (R52). -/
def relInt (r : Rel) (x y ux uy : Int) : Bool :=
  match r with
  | .eq => x == y
  | .ne => x != y
  | .lt => decide (x < y)
  | .le => decide (x ≤ y)
  | .gt => decide (x > y)
  | .ge => decide (x ≥ y)
  | .ltn => decide (ux < uy)
  | .len => decide (ux ≤ uy)
  | .gtn => decide (ux > uy)
  | .gen => decide (ux ≥ uy)
  | .ord => true
  | .unord => false

/-- Scalar compares (R102). -/
def relWord (r : Rel) (x y : Word) : Bool := relInt r x.toInt y.toInt x.toNat y.toNat

/-- Integer lane compares (R130). -/
def relTy (r : Rel) (signed : Bool) (n x y : Nat) : Bool :=
  relInt r (toInt signed n x) (toInt signed n y) (toInt false n x) (toInt false n y)

end Sys2Proof.Machine
end

