-- ==== Sys2Proof/Machine/Splits.lean ====
section
/-!
DEFINITION. The split table: advancing, reconvergence, the end of lanes and of runs (R74, R79 to R89).
-/

namespace Sys2Proof.Machine

/-- The operations of a list that are still in flight. -/
def live (s : State) (ids : List Nat) : List Nat := ids.filter fun i => (mget s.ops i).isSome

/-- The group's tile operations that a wait with this immediate for tl covers: their writes happen before what follows it (R244). -/
def tilesOver (s : State) (G : Group) (tl : BitVec 6) : List Nat :=
  if tl = 63 then [] else G.tileOps.filter fun k => (mget s.ops k).isNone

def Split.top (S : Split) : Option SEntry := S.stack.head?

/-- A split holds a join when the join is anywhere in its stack (R79). -/
def Split.holds (S : Split) (j : Nat) : Bool := S.stack.contains (.join j)

/-- Lanes marked by lexit leave laneact (R81, R85). -/
def Group.dropMarks (G : Group) : Group := { G with laneact := G.laneact &&& ~~~G.exitMarks, exitMarks := 0 }

/-- The streams of a group begin again, on the die that it is restored to: nothing is interlocked, and none is ready yet (R93). -/
def Group.begins (G : Group) : Group :=
  { G with free := 0, ready := none, splits := G.splits.map fun (n, S) => (n, { S with free := 0, ready := none }) }

/-- Starts the run at the head of the queue; with laneact zero it ends at once (R74). Its accesses follow those of earlier runs to the same bytes (R231). -/
def startRun : Nat → Group → Group
  | 0, G => G
  | n + 1, G =>
    match G.runs with
    | [] => G
    | r :: rs =>
      if G.laneact = 0 then startRun n { G with runs := rs }
      else { G with splits := [(0, { pc := r.off, mask := G.laneact, stack := [], ord := { r.ord with prior := G.laneRan } })], joins := [] }

/-- A run ends (R74): marked lanes leave laneact (R81), and the next queued run starts. -/
def endRun (G : Group) : Group :=
  startRun Config.runQueueLen { G.dropMarks with runs := G.runs.tail, splits := [], joins := [] }

/-- Frees a split's entry; with no split left the run ends. -/
def freeSplit (G : Group) (n : Nat) (S : Split) : Group :=
  let G := { G with splits := mdel G.splits n, laneDone := sunion G.laneDone S.ord.earlier.ops, laneRan := sunion G.laneRan S.ord.ran }
  if G.splits.isEmpty then endRun G else G

/-- What a split has accessed, and what comes before the accesses of those that merge at a join (R88, R231). -/
def Join.meet (J : Join) (o : Ord) : Join := { J with before := J.before.join o.earlier, ran := sunion J.ran o.ran }

/-- Arrival at the join on top of the stack, repeated while the pc stays at the next join's address (R81). -/
def arrive : Nat → Group → Nat → Group
  | 0, G, _ => G
  | k + 1, G, n =>
    match mget G.splits n with
    | none => G
    | some S =>
      match S.stack with
      | .join j :: rest =>
        match mget G.joins j with
        | none => G
        | some J =>
          if J.rc ≠ S.pc then G else
          let J : Join := { J.meet S.ord with arrived := J.arrived ||| S.mask }
          if J.defmask ≠ 0 then
            let S : Split := { S with mask := J.defmask, pc := J.defpc, ord := J.ord0 }
            { G with splits := mput G.splits n S, joins := mput G.joins j { J with defmask := 0 } }
          else if G.splits.any (fun (m, T) => m != n && T.holds j) then
            { G with splits := mdel G.splits n, joins := mput G.joins j J }
          else
            let S : Split := { S with mask := J.arrived, stack := rest, ord := S.ord.merged J.ran J.before }
            arrive k { G.dropMarks with splits := mput G.splits n S, joins := mdel G.joins j } n
      | _ => G

/-- Ends the lanes of a split (R81). -/
def endLanes : Nat → Group → Nat → Group
  | 0, G, _ => G
  | k + 1, G, n =>
    match mget G.splits n with
    | none => G
    | some S =>
      match S.stack with
      | [] => freeSplit G n S
      | .call _ :: rest => endLanes k { G with splits := mput G.splits n { S with stack := rest } } n
      | .join j :: rest =>
        match mget G.joins j with
        | none => endLanes k { G with splits := mput G.splits n { S with stack := rest } } n
        | some J =>
          let J : Join := J.meet S.ord
          if J.defmask ≠ 0 then
            let S : Split := { S with mask := J.defmask, pc := J.defpc, ord := J.ord0 }
            { G with splits := mput G.splits n S, joins := mput G.joins j { J with defmask := 0 } }
          else if G.splits.any (fun (m, T) => m != n && T.holds j) then
            { G with splits := mdel G.splits n, joins := mput G.joins j J }
          else
            let S : Split := { S with stack := rest, ord := S.ord.merged J.ran J.before }
            let G := { G.dropMarks with joins := mdel G.joins j }
            if J.arrived ≠ 0 then
              arrive k { G with splits := mput G.splits n { S with mask := J.arrived, pc := J.rc } } n
            else endLanes k { G with splits := mput G.splits n S } n

/-- More than the entries of a stack (R79), so that the loops of R81 end by themselves. -/
def loopFuel : Nat := 2 * Config.stackDepth + 2

/-- Sets the pc of a split and lets it arrive (R81). -/
def Group.goto (G : Group) (n pc : Nat) : Group :=
  arrive loopFuel { G with splits := mupd G.splits n fun S => { S with pc := pc } } n

/-- The state after a lane instruction that only changed the group: the split's pc advances (R81). -/
def afterLane (s : State) (g n : Nat) (G : Group) : State :=
  settleRuns (s.grp g (G.goto n (((mget G.splits n).map (·.pc)).getD 0 + 1)))

/-- Issue of a lane instruction after decode (R55): level, register bound, then the instruction. The faultmask of the checks
holds the active lanes (R334). -/
def laneIssue (s : State) (gd : LGuard) (level3 : Bool) (regs : List Nat) (tiles : List Nat)
    (k : Nat → Group → Nat → Split → Out) : Out :=
  withSplit s fun g G n S =>
    if level3 && decide (s.level G.core < 3) then .next (trapL s g n 0x02 (active G S gd))
    else if regs.any (fun r => decide (G.n ≤ r)) ||
        tiles.any (fun t => decide (((s.launch? G).map fun l => if (s.blk? G).any (·.comp.isSome) then 0 else l.desc.acctiles).getD 0 ≤ t)) then
      .next (trapL s g n 0x03 (active G S gd))
    else k g G n S

/-- A lane instruction that only writes registers of the group in its active lanes (R118). -/
def laneAlu (s : State) (gd : LGuard) (regs : List Nat) (f : Group → Mask → Group) : Out :=
  laneIssue s gd false regs [] fun g G n S => .next (afterLane s g n (f G (active G S gd)))

/-- Participants of a collective (R90); an active lane outside the member mask traps first. A write of the member mask, or of a scalar register, that is made
during a queued or running run is read by every lane instruction that issues after it: of R57's old or new value, always the new one (DESIGN CHOICE, log 78). -/
def collective (s : State) (gd : LGuard) (level3 : Bool) (regs tiles : List Nat)
    (k : Nat → Group → Nat → Split → Mask → Out) : Out :=
  laneIssue s gd level3 regs tiles fun g G n S =>
    let act := active G S gd
    if act &&& ~~~G.memmask ≠ 0 then .next (trapL s g n 0x09 (act &&& ~~~G.memmask)) else k g G n S act

end Sys2Proof.Machine
end

