-- ==== Sys2Proof/Machine/Float.lean ====
section
/-!
DEFINITION. Number formats and their arithmetic (R5 to R29): decoding to exact values, one rounding, saturation, gd8, and the
fixed sum orders. An exact value is a sign and a fraction of natural numbers, so no step before the rounding is inexact.
-/

namespace Sys2Proof.Machine

/-- NaN, an infinity, or `(-1)^neg * n / d` with `d > 0`; `n = 0` is a signed zero. -/
inductive FVal where
  | nan
  | inf (neg : Bool)
  | fin (neg : Bool) (n d : Nat)
  deriving DecidableEq, Repr

/-- A binary format (R5): fraction bits, least exponent of a normal number, largest finite pattern, infinity, canonical NaN. -/
structure Fmt where
  bits : Nat
  frac : Nat
  emin : Int
  maxFin : Nat
  inf : Option Nat
  nan : Nat

def fmtF32 : Fmt := { bits := 32, frac := 23, emin := -126, maxFin := 0x7F7FFFFF, inf := some 0x7F800000, nan := 0x7FC00000 }
def fmtF16 : Fmt := { bits := 16, frac := 10, emin := -14, maxFin := 0x7BFF, inf := some 0x7C00, nan := 0x7E00 }
def fmtBf16 : Fmt := { bits := 16, frac := 7, emin := -126, maxFin := 0x7F7F, inf := some 0x7F80, nan := 0x7FC0 }
def fmtE4m3 : Fmt := { bits := 8, frac := 3, emin := -6, maxFin := 0x7E, inf := none, nan := 0x7F }
def fmtE5m2 : Fmt := { bits := 8, frac := 2, emin := -14, maxFin := 0x7B, inf := some 0x7C, nan := 0x7E }

/-- `x * 2^e` as a fraction. -/
def scale2 (n d : Nat) (e : Int) : Nat × Nat := if 0 ≤ e then (n * 2 ^ e.toNat, d) else (n, d * 2 ^ (-e).toNat)

/-- Decode(F, x) for the binary formats (R6). -/
def decodeFmt (f : Fmt) (x : Nat) : FVal :=
  let neg := decide (x / 2 ^ (f.bits - 1) % 2 = 1)
  let m := x % 2 ^ (f.bits - 1)
  if m ≤ f.maxFin then
    let e := m / 2 ^ f.frac
    let fr := m % 2 ^ f.frac
    let (k, e') : Nat × Int := if e = 0 then (fr, f.emin) else (2 ^ f.frac + fr, f.emin + e - 1)
    let (n, d) := scale2 k 1 (e' - f.frac)
    .fin neg n d
  else if f.inf = some m then .inf neg else .nan

/-- Whether a magnitude cut at `k` with remainder `r` of `d` rounds away from zero (R10). -/
def roundUp (m : Rnd) (neg : Bool) (k r d : Nat) : Bool :=
  match m with
  | .rn => decide (d < 2 * r) || (decide (2 * r = d) && decide (k % 2 = 1))
  | .rz => false
  | .ru => !neg && decide (r ≠ 0)
  | .rd => neg && decide (r ≠ 0)

/-- `floor (log2 (n / d))` for `n > 0`. -/
def log2Ratio (n d : Nat) : Int :=
  let e : Int := (Nat.log2 n : Int) - Nat.log2 d
  let (a, b) := scale2 d 1 e
  if n * b < a then e - 1 else e

/-- Round(x, F, mode) of a magnitude `n / d`, then Sat (R12, R13). -/
def roundFin (f : Fmt) (m : Rnd) (sat neg : Bool) (n d : Nat) : Nat :=
  let sign := if neg then 2 ^ (f.bits - 1) else 0
  if n = 0 then sign else
  let e := max (log2Ratio n d) f.emin
  let (num, den) := scale2 n d (f.frac - e)
  let k := num / den
  let k := if roundUp m neg k (num % den) den then k + 1 else k
  let r := (e - f.emin).toNat * 2 ^ f.frac + k
  if r ≤ f.maxFin then sign + r
  else if sat then sign + f.maxFin
  else match m, neg, f.inf with
    | .rz, _, _ => sign + f.maxFin
    | .ru, true, _ => sign + f.maxFin
    | .rd, false, _ => sign + f.maxFin
    | _, _, some i => sign + i
    | _, _, none => f.nan

/-- Encodes an exact result into a binary format with one rounding (R7, R12, R13). -/
def encodeFmt (f : Fmt) (m : Rnd) (sat : Bool) : FVal → Nat
  | .nan => f.nan
  | .inf neg =>
    let sign := if neg then 2 ^ (f.bits - 1) else 0
    if sat then sign + f.maxFin else match f.inf with
      | some i => sign + i
      | none => f.nan
  | .fin neg n d => roundFin f m sat neg n d

/-! ### gd8 (R18, R19) -/

/-- The fields of a positive gd8 code: exponent, fraction, fraction bits. -/
def gd8Fields (c : Nat) : Int × Nat × Nat :=
  if c ≥ 0x40 then ((c / 32 % 2 : Nat) - 1, c % 32, 5)
  else if c ≥ 0x20 then ([-3, -2, 1, 2].getD (c / 8 % 4) 0, c % 8, 3)
  else if c ≥ 0x10 then ([-5, -4, 3, 4].getD (c / 4 % 4) 0, c % 4, 2)
  else if c ≥ 0x08 then ([-7, -6, 5, 6].getD (c / 2 % 4) 0, c % 2, 1)
  else if c ≥ 0x04 then ([-9, -8, 7, 8].getD (c % 4) 0, 0, 0)
  else if c ≥ 0x02 then ([-10, 9].getD (c % 2) 0, 0, 0)
  else (-11, 0, 0)

/-- The magnitude of a nonzero gd8 code (R18). -/
def gd8Mag (c : Nat) : Nat × Nat :=
  let (e, fr, m) := gd8Fields c
  let n := 2 ^ m + 9 * fr
  if 0 ≤ e then (n * 10 ^ e.toNat, 2 ^ m) else (n, 2 ^ m * 10 ^ (-e).toNat)

def decodeGd8 (x : Nat) : FVal :=
  let x := x % 256
  if x = 0 then .fin false 0 1
  else if x = 0x80 then .nan
  else let (n, d) := gd8Mag (x % 128); .fin (decide (x ≥ 128)) n d

/-- Distance of a code from `n / d`, as a fraction over the common denominator. -/
def gd8Dist (n d c : Nat) : Nat × Nat :=
  let (a, b) := gd8Mag c
  (if a * d ≤ n * b then n * b - a * d else a * d - n * b, b * d)

/-- Code `c` is nearer to `n / d` than `best`, or wins the tie: even F, then larger magnitude (R19). -/
def gd8Better (n d best c : Nat) : Bool :=
  let (p, q) := gd8Dist n d best
  let (x, y) := gd8Dist n d c
  if x * q ≠ p * y then decide (x * q < p * y) else
    let even (c : Nat) : Bool := let (_, fr, m) := gd8Fields c; m == 0 || fr % 2 == 0
    if even c != even best then even c else
      let (a, b) := gd8Mag best
      let (a', b') := gd8Mag c
      decide (a * b' < a' * b)

/-- EncodeGD8 (R19). -/
def encodeGd8 : FVal → Nat
  | .nan => 0x80
  | .inf neg => if neg then 0x83 else 0x03
  | .fin neg n d =>
    let sign := if neg then 128 else 0
    if n > d * 10 ^ 9 then sign + 0x03
    else if n * 2 * 10 ^ 11 < d then 0
    else sign + (List.range 127).foldl (fun best i => if gd8Better n d best (i + 1) then i + 1 else best) 1

/-! ### Types -/

def fmtOf : Ty → Option Fmt
  | .f32 => some fmtF32
  | .f16 => some fmtF16
  | .bf16 => some fmtBf16
  | .e4m3 => some fmtE4m3
  | .e5m2 => some fmtE5m2
  | _ => none

/-- Decode(F, x) for every element type; an integer type denotes its integer (R6, R14). -/
def decodeTy (t : Ty) (x : Nat) : FVal :=
  match fmtOf t with
  | some f => decodeFmt f (x % 2 ^ f.bits)
  | none =>
    if t = .gd8 then decodeGd8 x else
      let i := toInt t.isSigned t.bits x
      .fin (decide (i < 0)) i.natAbs 1

/-- RoundNE32 (R12). -/
def roundNE32 (v : FVal) : Nat := encodeFmt fmtF32 .rn false v

/-- DecodeF32 (R6). -/
def decodeF32 (t : Ty) (x : Nat) : FVal := decodeFmt fmtF32 (roundNE32 (decodeTy t x))

/-- Rounds an exact value to an integer in a mode (R14). -/
def roundInt (m : Rnd) (neg : Bool) (n d : Nat) : Int :=
  let k := n / d
  let k := if roundUp m neg k (n % d) d then k + 1 else k
  if neg then -(k : Int) else k

/-- Float to integer: rounds, then always saturates (R14). -/
def toIntTy (t : Ty) (m : Rnd) : FVal → Nat
  | .nan => 0
  | .inf neg => wrap t.bits (if neg then minOf t.isSigned t.bits else maxOf t.isSigned t.bits)
  | .fin neg n d => wrap t.bits (clamp t.isSigned t.bits (roundInt m neg n d))

/-- Converts one element (R128). -/
def convert (dst src : Ty) (m : Modf) (x : Nat) : Nat :=
  if dst = .gd8 then encodeGd8 (decodeTy src x)
  else match fmtOf dst with
    | some f => encodeFmt f m.rnd m.sat (decodeTy src x)
    | none =>
      if src.isInt then narrow m.sat dst.isSigned dst.bits (toInt src.isSigned src.bits x)
      else toIntTy dst m.rnd (decodeTy src x)

/-! ### Exact arithmetic (R12, R126) -/

/-- The sum; an exact zero from operands of opposite sign is signed by the mode (R126). -/
def fAdd (m : Rnd) : FVal → FVal → FVal
  | .nan, _ => .nan
  | _, .nan => .nan
  | .inf a, .inf b => if a = b then .inf a else .nan
  | .inf a, _ => .inf a
  | _, .inf b => .inf b
  | .fin a n d, .fin b p q =>
    let x : Int := (if a then -((n * q : Nat) : Int) else (n * q : Nat)) + (if b then -((p * d : Nat) : Int) else (p * d : Nat))
    if x = 0 then .fin (if a = b then a else m = .rd) 0 1 else .fin (decide (x < 0)) x.natAbs (d * q)

def fNeg : FVal → FVal
  | .nan => .nan
  | .inf a => .inf !a
  | .fin a n d => .fin (!a) n d

def fMul : FVal → FVal → FVal
  | .nan, _ => .nan
  | _, .nan => .nan
  | .inf a, .inf b => .inf (a != b)
  | .inf a, .fin b n _ => if n = 0 then .nan else .inf (a != b)
  | .fin a n _, .inf b => if n = 0 then .nan else .inf (a != b)
  | .fin a n d, .fin b p q => .fin (a != b) (n * p) (d * q)

def fDiv : FVal → FVal → FVal
  | .nan, _ => .nan
  | _, .nan => .nan
  | .inf _, .inf _ => .nan
  | .inf a, .fin b _ _ => .inf (a != b)
  | .fin a _ _, .inf b => .fin (a != b) 0 1
  | .fin a n d, .fin b p q =>
    if p = 0 then (if n = 0 then .nan else .inf (a != b)) else .fin (a != b) (n * q) (d * p)

/-- Order of two values that are not NaN, with -0 below +0 (R28). -/
def fLt : FVal → FVal → Bool
  | .inf true, y => decide (y ≠ .inf true)
  | .inf false, _ => false
  | .fin _ _ _, .inf b => !b
  | .fin a n d, .fin b p q =>
    if a && !b then true else if !a && b then false
    else if a then decide (p * d < n * q) else decide (n * q < p * d)
  | _, _ => false

/-- Equality of the float column of R52: -0 = +0, NaN equals nothing. -/
def fEq : FVal → FVal → Bool
  | .inf a, .inf b => a == b
  | .fin a n d, .fin b p q => decide (n * q = p * d) && (a == b || n == 0)
  | _, _ => false

/-- Float compares (R52, R130). -/
def relFloat (r : Rel) (x y : FVal) : Bool :=
  let un := x = .nan || y = .nan
  let lt (x y : FVal) : Bool := fLt x y && !fEq x y
  match r with
  | .eq => fEq x y
  | .ne => !fEq x y
  | .lt => !un && lt x y
  | .le => !un && (lt x y || fEq x y)
  | .gt => !un && lt y x
  | .ge => !un && (lt y x || fEq x y)
  | .ord => !un
  | .unord => un
  | _ => false

/-- Minimum and maximum on patterns of a type (R28). -/
def fMinMax (mx : Bool) (f : Fmt) (x y : Nat) : Nat :=
  let a := decodeFmt f x
  let b := decodeFmt f y
  if a = .nan then (if b = .nan then f.nan else y)
  else if b = .nan then x
  else if fLt a b != mx then x else y

/-! ### Sum orders (R23 to R27) -/

def addF32 (x y : Nat) : Nat := roundNE32 (fAdd .rn (decodeFmt fmtF32 x) (decodeFmt fmtF32 y))

def pairUp : List Nat → List Nat
  | x :: y :: r => addF32 x y :: pairUp r
  | r => r

/-- TreeSum (R23) of a list of `2^k` f32 patterns. -/
def treeSum : Nat → List Nat → Nat
  | 0, t => t.headD 0
  | k + 1, t => treeSum k (pairUp t)

def mulF32 (x y : FVal) : Nat := roundNE32 (fMul x y)

end Sys2Proof.Machine
end

