-- ==== Sys2Proof/Machine/Transc.lean ====
section
/-!
DEFINITION. Square roots and the transcendental functions, each rounded once (R12, R126). A root is cut far below every
rounding boundary with a sticky bit. The others are enclosed in an interval of integers over `2^p`, and the precision rises
until both ends round alike (log 20).
-/

namespace Sys2Proof.Machine

/-- Integer square root, bit by bit from bit `k - 1`. -/
def isqrt : Nat → Nat → Nat → Nat
  | 0, _, r => r
  | k + 1, x, r => isqrt k x (if (r + 2 ^ k) * (r + 2 ^ k) ≤ x then r + 2 ^ k else r)

/-- The root of `n / d`, exact, or cut at 400 bits with a sticky bit. -/
def fRoot (n d : Nat) : FVal :=
  let x := n * 2 ^ 800 / d
  let r := isqrt (Nat.log2 x / 2 + 1) x 0
  if r * r * d = n * 2 ^ 800 then .fin false r (2 ^ 400) else .fin false (2 * r + 1) (2 ^ 401)

def fSqrt : FVal → FVal
  | .nan => .nan
  | .inf neg => if neg then .nan else .inf false
  | .fin neg n d => if n = 0 then .fin neg 0 1 else if neg then .nan else fRoot n d

def fRsq : FVal → FVal
  | .nan => .nan
  | .inf neg => if neg then .nan else .fin false 0 1
  | .fin neg n d => if n = 0 then .inf neg else if neg then .nan else fRoot d n

/-- An enclosure: the value times `2^p` lies in `[lo, hi]`. -/
structure Encl where
  lo : Int
  hi : Int

/-- `ln 2 * 2^p`, from below: sum of `1 / (k 2^k)`. -/
def ln2Lo (p : Nat) : Nat := (List.range p).foldl (fun a i => a + 2 ^ p / ((i + 1) * 2 ^ (i + 1))) 0

/-- `exp y * 2^p` for `y / 2^p` in [0, 1), from below. -/
def expLo (p y : Nat) : Nat :=
  ((List.range p).foldl (fun (a : Nat × Nat) i => let t := a.2 * y / 2 ^ p / (i + 1); (a.1 + t, t)) (2 ^ p, 2 ^ p)).1

/-- `2^f` for `f = n / d` in [0, 1): the sums cut off less than `8 p` units. -/
def exp2Encl (p n d : Nat) : Encl :=
  let lo := expLo p (ln2Lo p * n / d)
  { lo := lo, hi := lo + 8 * p }

/-- `atanh (n / d) * 2^p` from below, for `n / d ≤ 1 / 3`. -/
def atanhLo (p n d : Nat) : Nat :=
  ((List.range p).foldl (fun (a : Nat × Nat) i => (a.1 + a.2 / (2 * i + 1), a.2 * (n * n) / (d * d))) (0, 2 ^ p * n / d)).1

/-- `log2 (n / d)` with `1 ≤ n / d < 2`, as the quotient of two enclosed logarithms. -/
def log2Encl (p n d : Nat) : Encl :=
  let a := 2 * atanhLo p (n - d) (n + d)
  let b := ln2Lo p
  { lo := a * 2 ^ p / (b + 4 * p), hi := (a + 8 * p) * 2 ^ p / b + 1 }

/-- `atan (1 / k) * 2^p` within `p` units. -/
def atanInv (p k : Nat) : Int :=
  ((List.range p).foldl (fun (a : Int × Int) i => (a.1 + (if i % 2 = 0 then a.2 / (2 * i + 1 : Nat) else -(a.2 / (2 * i + 1 : Nat))), a.2 / (k * k : Nat)))
    (0, (2 ^ p / k : Nat))).1

/-- `pi / 2 * 2^p` within `64 p` units, by Machin's formula. -/
def halfPi (p : Nat) : Int := 8 * atanInv p 5 - 2 * atanInv p 239

/-- Taylor series of sine (`odd`) or cosine at `y / 2^p` in [0, 2), within `4 p` units. -/
def sinCos (odd : Bool) (p : Nat) (y : Int) : Int :=
  ((List.range p).foldl (fun (a : Int × Int) i =>
    let k : Nat := if odd then 2 * i + 1 else 2 * i
    (a.1 + a.2, -(a.2 * y / 2 ^ p * y / 2 ^ p) / ((k + 1) * (k + 2) : Nat))) (0, if odd then y else 2 ^ p)).1

/-- Sine or cosine of a fraction: reduced by quarter turns with enough digits of pi. -/
def trigEncl (cosine neg : Bool) (p n d : Nat) : Encl :=
  let q := p + Nat.log2 (n / d + 1) + 8
  let hp := halfPi q
  let x : Int := (n * 2 ^ q / d : Nat)
  let k := x / hp
  let y := x - k * hp
  let quad := ((k + (if cosine then 1 else 0)) % 4).toNat
  let v := sinCos (quad % 2 = 0) q y
  let v := if quad ≥ 2 then -v else v
  let v := if neg && !cosine then -v else v
  let err : Int := (64 * q : Nat) * (k + 2) + (8 * q : Nat)
  { lo := (v - err) / (2 ^ (q - p) : Nat), hi := (v + err) / (2 ^ (q - p) : Nat) + 1 }

/-- An end of an enclosure as an exact value, times `2^e`. -/
def enclVal (p : Nat) (e : Int) (x : Int) : FVal :=
  let (n, d) := scale2 x.natAbs (2 ^ p) e
  .fin (decide (x < 0)) n d

/-- The first precision at which both ends of the enclosure round alike decides; the last attempt's lower end otherwise. -/
def decideRound (f : Fmt) (m : Modf) (e : Int) (encl : Nat → Encl) : Nat → Nat
  | 0 => encodeFmt f m.rnd m.sat (enclVal (Config.transcBits * Config.transcTries) e (encl (Config.transcBits * Config.transcTries)).lo)
  | k + 1 =>
    let p := Config.transcBits * (Config.transcTries - k)
    let c := encl p
    let a := encodeFmt f m.rnd m.sat (enclVal p e c.lo)
    if a = encodeFmt f m.rnd m.sat (enclVal p e c.hi) then a else decideRound f m e encl k

/-- `vfex2` (R125, R126). Beyond 2^12 in magnitude the result overflows, or lies below every subnormal. -/
def ex2 (f : Fmt) (m : Modf) (v : FVal) : Nat :=
  match v with
  | .nan => f.nan
  | .inf neg => encodeFmt f m.rnd m.sat (if neg then .fin false 0 1 else .inf false)
  | .fin neg n d =>
    let x : Int := if neg then -(n : Int) else n
    let k := x / (d : Int)
    let r := (x - k * d).toNat
    let k := max (-4096) (min 4096 k)
    if r = 0 then let (a, b) := scale2 1 1 k; roundFin f m.rnd m.sat false a b
    else if k ≤ -4096 then roundFin f m.rnd m.sat false 1 (2 ^ 4096)
    else if k ≥ 4096 then roundFin f m.rnd m.sat false (2 ^ 4096) 1
    else decideRound f m k (fun p => exp2Encl p r d) Config.transcTries

/-- `vflg2` (R125, R126). -/
def lg2 (f : Fmt) (m : Modf) (v : FVal) : Nat :=
  match v with
  | .nan => f.nan
  | .inf neg => if neg then f.nan else encodeFmt f m.rnd m.sat (.inf false)
  | .fin neg n d =>
    if n = 0 then encodeFmt f m.rnd m.sat (.inf true) else if neg then f.nan else
    let e := log2Ratio n d
    let (a, b) := scale2 n d (-e)
    if a = b then roundFin f m.rnd m.sat (decide (e < 0)) e.natAbs 1
    else decideRound f m 0 (fun p => let c := log2Encl p a b; { lo := e * 2 ^ p + c.lo, hi := e * 2 ^ p + c.hi }) Config.transcTries

/-- `vfsin` and `vfcos` (R125, R126). -/
def trig (cosine : Bool) (f : Fmt) (m : Modf) (v : FVal) : Nat :=
  match v with
  | .nan => f.nan
  | .inf _ => f.nan
  | .fin neg n d =>
    if n = 0 then (if cosine then roundFin f m.rnd m.sat false 1 1 else encodeFmt f m.rnd m.sat v)
    else decideRound f m 0 (fun p => trigEncl cosine neg p n d) Config.transcTries

end Sys2Proof.Machine
end

