-- ==== Sys2Proof/Machine/Operands.lean ====
section
/-!
DEFINITION. Operand forms: scalar immediates, and the lane operands a, b and c with the placement of narrow and 64-bit values
(R15, R16, R36, R46, R47, R119).
-/

namespace Sys2Proof.Machine

/-- imm10 sign-extended (R43, R100). -/
def imm10 (x : BitVec 10) : Word := x.signExtend 64

/-- Where a register of a run stands (R43, R59). -/
def SReg.nth (a : SReg) (i : Nat) : SReg := a + BitVec.ofNat 7 i

/-- Registers of one operand: one, or the pair of a 64-bit type (R16). -/
def tyRegs (t : Ty) (r : VReg) : List Nat := if t.wide then [r.toNat, r.toNat + 1] else [r.toNat]

/-- Registers that an operand b or c names. -/
def opndRegs (t : Ty) : Opnd → List Nat
  | .v r => tyRegs t r
  | _ => []

/-- Places an `n`-bit pattern of a narrow type in 32 bits: sign-extended for i8 and i16, else zero-extended (R15). -/
def place (t : Ty) (x : Nat) : Elem :=
  if t.bits ≤ 32 then (if t.isSigned then BitVec.ofInt 32 (toInt true t.bits x) else BitVec.ofNat 32 (x % 2 ^ t.bits)) else BitVec.ofNat 32 x

/-- The pattern of type `t` in lane `i` of register `r`, or of the pair (R15, R16). -/
def Group.el (G : Group) (t : Ty) (r : Nat) : Nat → Nat :=
  if t.wide then
    let a := G.rv r
    let b := G.rv (r + 1)
    fun i => (lane a i).toNat + 2 ^ 32 * (lane b i).toNat
  else
    let a := G.rv r
    fun i => (lane a i).toNat % 2 ^ t.bits

/-- The pattern of an immediate (R47). -/
def immEl (t : Ty) (x : Elem) : Nat :=
  if t = .i64 then (x.signExtend 64).toNat else if t = .n64 then x.toNat else x.toNat % 2 ^ t.bits

/-- Operand b or c as a pattern of type `t` in each lane (R36, R46, R47). -/
def Group.opnd (G : Group) (t : Ty) : Opnd → Nat → Nat
  | .v r => G.el t r.toNat
  | .s r => fun _ => (G.rs r).toNat % 2 ^ t.bits
  | .imm x => fun _ => immEl t x

/-- A whole 32-bit register operand of `vsel` and the fills of the lane shifts (R36, R131, R154): a narrow scalar or immediate is placed as R15
places a result. -/
def Group.opnd32 (G : Group) (t : Ty) : Opnd → Nat → Elem
  | .v r => let a := G.rv r.toNat; lane a
  | .s r => fun _ => place t ((G.rs r).toNat)
  | .imm x => fun _ => x

/-- An operand read as n32 whatever the type (R119, R122, R155). -/
def Group.opndN32 (G : Group) : Opnd → Nat → Nat := G.opnd .n32

/-- Writes patterns of type `t` to lane register or pair `r` in the lanes of `m` (R15, R16, R54). -/
def Group.putEl (G : Group) (t : Ty) (r : Nat) (m : Mask) (f : Nat → Nat) : Group :=
  if t.wide then (G.wvMask r m fun i => BitVec.ofNat 32 (f i)).wvMask (r + 1) m fun i => BitVec.ofNat 32 (f i / 2 ^ 32)
  else G.wvMask r m fun i => place t (f i)

/-- A lane instruction with one source (R120, R124). -/
def unStep (s : State) (w : Un) (f : Nat → Nat) : Out :=
  laneAlu s w.g (tyRegs w.ty w.d ++ tyRegs w.ty w.a) fun G m => G.putEl w.ty w.d.toNat m fun i => f (G.el w.ty w.a.toNat i)

/-- A lane instruction with two sources of one type. -/
def binStep (s : State) (w : Bin) (f : Nat → Nat → Nat) : Out :=
  laneAlu s w.g (tyRegs w.ty w.d ++ tyRegs w.ty w.a ++ opndRegs w.ty w.b) fun G m =>
    G.putEl w.ty w.d.toNat m fun i => f (G.el w.ty w.a.toNat i) (G.opnd w.ty w.b i)

/-- A lane instruction whose operand b is a 32-bit count or descriptor; `f` also gets the old destination. -/
def cntStep (s : State) (w : Bin) (f : Nat → Nat → Nat → Nat) : Out :=
  laneAlu s w.g (tyRegs w.ty w.d ++ tyRegs w.ty w.a ++ opndRegs .n32 w.b) fun G m =>
    G.putEl w.ty w.d.toNat m fun i => f (G.el w.ty w.d.toNat i) (G.el w.ty w.a.toNat i) (G.opndN32 w.b i)

/-- A lane instruction with three sources of one type. -/
def terStep (s : State) (w : Ter) (f : Nat → Nat → Nat → Nat) : Out :=
  laneAlu s w.g (tyRegs w.ty w.d ++ tyRegs w.ty w.a ++ opndRegs w.ty w.b ++ opndRegs w.ty w.c) fun G m =>
    G.putEl w.ty w.d.toNat m fun i => f (G.el w.ty w.a.toNat i) (G.opnd w.ty w.b i) (G.opnd w.ty w.c i)

end Sys2Proof.Machine
end

