-- ==== Sys2Proof/Machine/ScalarAlu.lean ====
section
/-!
DEFINITION. Scalar register arithmetic, immediates, literals and compares (R97 to R102).
-/

namespace Sys2Proof.Machine

/-- `s_d := f G` under a guard (R97). -/
def aluStep (s : State) (gd : CReg) (d : SReg) (f : Group → Word) : Out := scalarStep s 1 gd fun G => G.ws d (f G)

/-- `s_d := f s_a s_b` (R98). -/
def srStep (s : State) (gd : CReg) (d a b : SReg) (f : Word → Word → Word) : Out := aluStep s gd d fun G => f (G.rs a) (G.rs b)

def srStep1 (s : State) (gd : CReg) (d a : SReg) (f : Word → Word) : Out := aluStep s gd d fun G => f (G.rs a)

/-- Number of 1 bits among the low `n` bits. -/
def popc : Nat → Nat → Nat
  | 0, _ => 0
  | n + 1, x => x % 2 + popc n (x / 2)

/-- Number of 0 bits below the lowest 1 bit among `n` bits. -/
def ctz : Nat → Nat → Nat
  | 0, _ => 0
  | n + 1, x => if x % 2 = 1 then 0 else 1 + ctz n (x / 2)

/-- Number of 0 bits above the highest 1 bit among `n` bits. -/
def clz (n x : Nat) : Nat := if x % 2 ^ n = 0 then n else n - 1 - Nat.log2 (x % 2 ^ n)

/-- Shift count: bits 5:0 (R98). -/
def shamt (x : Word) : Nat := x.toNat % 64

def execSadd (d a b : SReg) (g : CReg) (s : State) : Out := srStep s g d a b fun x y => x + y
def execSsub (d a b : SReg) (g : CReg) (s : State) : Out := srStep s g d a b fun x y => x - y
def execSmul (d a b : SReg) (g : CReg) (s : State) : Out := srStep s g d a b fun x y => x * y
def execSmulh (d a b : SReg) (g : CReg) (s : State) : Out :=
  srStep s g d a b fun x y => BitVec.ofInt 64 (x.toInt * y.toInt / 2 ^ 64)
def execSmulhn (d a b : SReg) (g : CReg) (s : State) : Out :=
  srStep s g d a b fun x y => BitVec.ofNat 64 (x.toNat * y.toNat / 2 ^ 64)
def execSand (d a b : SReg) (g : CReg) (s : State) : Out := srStep s g d a b fun x y => x &&& y
def execSor (d a b : SReg) (g : CReg) (s : State) : Out := srStep s g d a b fun x y => x ||| y
def execSxor (d a b : SReg) (g : CReg) (s : State) : Out := srStep s g d a b fun x y => x ^^^ y
def execSshl (d a b : SReg) (g : CReg) (s : State) : Out := srStep s g d a b fun x y => x <<< shamt y
def execSshr (d a b : SReg) (g : CReg) (s : State) : Out := srStep s g d a b fun x y => x >>> shamt y
def execSsra (d a b : SReg) (g : CReg) (s : State) : Out := srStep s g d a b fun x y => x.sshiftRight (shamt y)
def execSmin (d a b : SReg) (g : CReg) (s : State) : Out := srStep s g d a b fun x y => if x.slt y then x else y
def execSmax (d a b : SReg) (g : CReg) (s : State) : Out := srStep s g d a b fun x y => if x.slt y then y else x
def execSminn (d a b : SReg) (g : CReg) (s : State) : Out := srStep s g d a b fun x y => if x.ult y then x else y
def execSmaxn (d a b : SReg) (g : CReg) (s : State) : Out := srStep s g d a b fun x y => if x.ult y then y else x
def execSsel (d a b : SReg) (g : CReg) (s : State) : Out :=
  aluStep s g d fun G => if G.rs d ≠ 0 then G.rs a else G.rs b

/-- Position and length of a field descriptor (R99). -/
def fieldPos (y : Word) : Nat := y.toNat % 64
def fieldLen (y : Word) : Nat := min (y.toNat / 256 % 128) 64

/-- Mask(n) (R99). -/
def maskN (n : Nat) : Word := BitVec.ofNat 64 (2 ^ n - 1)

def execSbfx (d a b : SReg) (g : CReg) (s : State) : Out :=
  srStep s g d a b fun x y => (x >>> fieldPos y) &&& maskN (fieldLen y)
def execSbfi (d a b : SReg) (g : CReg) (s : State) : Out :=
  aluStep s g d fun G =>
    let y := G.rs b
    let m := maskN (fieldLen y) <<< fieldPos y
    (G.rs d &&& ~~~m) ||| ((G.rs a <<< fieldPos y) &&& m)
def execSpopc (d a : SReg) (g : CReg) (s : State) : Out := srStep1 s g d a fun x => BitVec.ofNat 64 (popc 64 x.toNat)
def execSclz (d a : SReg) (g : CReg) (s : State) : Out := srStep1 s g d a fun x => BitVec.ofNat 64 (clz 64 x.toNat)
def execSctz (d a : SReg) (g : CReg) (s : State) : Out := srStep1 s g d a fun x => BitVec.ofNat 64 (ctz 64 x.toNat)
def execSmov (d a : SReg) (g : CReg) (s : State) : Out := srStep1 s g d a fun x => x

def execScmp (cd : CReg) (rel : Rel) (a b : SReg) (g : CReg) (s : State) : Out :=
  scalarStep s 1 g fun G => G.wc cd (relWord rel (G.rs a) (G.rs b))

/-! Immediates and literals (R100, R101): unguarded. -/

def siStep (s : State) (d a : SReg) (f : Word → Word) : Out := srStep1 s 0 d a f

def execSaddi (d a : SReg) (imm : BitVec 10) (s : State) : Out := siStep s d a fun x => x + imm10 imm
def execSandi (d a : SReg) (imm : BitVec 10) (s : State) : Out := siStep s d a fun x => x &&& imm10 imm
def execSori (d a : SReg) (imm : BitVec 10) (s : State) : Out := siStep s d a fun x => x ||| imm10 imm
def execSxori (d a : SReg) (imm : BitVec 10) (s : State) : Out := siStep s d a fun x => x ^^^ imm10 imm
def execSshli (d a : SReg) (sh : BitVec 6) (s : State) : Out := siStep s d a fun x => x <<< sh.toNat
def execSshri (d a : SReg) (sh : BitVec 6) (s : State) : Out := siStep s d a fun x => x >>> sh.toNat
def execSsrai (d a : SReg) (sh : BitVec 6) (s : State) : Out := siStep s d a fun x => x.sshiftRight sh.toNat
def execSmovi (d : SReg) (imm : BitVec 17) (s : State) : Out := aluStep s 0 d fun _ => imm.signExtend 64
def execScmpi (cd : CReg) (rel : Rel) (a : SReg) (imm : BitVec 10) (s : State) : Out :=
  scalarStep s 1 0 fun G => G.wc cd (relWord rel (G.rs a) (imm10 imm))
def execSlit (d : SReg) (hi : Bool) (lit : BitVec 32) (s : State) : Out :=
  scalarStep s 2 0 fun G => G.ws d (if hi then lit ++ (G.rs d).truncate 32 else lit.signExtend 64)

/-! Time (R115, R116). -/

/-- What `stime` reads (R115): the copy of the group's die, within 50 ns of the Girth's, and never less than the group has read before. -/
def dieTime (s : State) (G : Group) : Nat := max G.lastTime (s.now + min (s.die (dieOf G.core)).tb 100 - 50)

def execStime (d : SReg) (g : CReg) (s : State) : Out :=
  scalarStep s 1 g fun G => { G with lastTime := dieTime s G }.ws d (BitVec.ofNat 64 (dieTime s G))

/-- The clocks of the group's core since the hitch (R116). The cores of a die hitch together and have one clock, so the die holds one count; in a step every
hitched die counts the slot's clocks, less what its clock is lowered by (DESIGN CHOICE, log 74: no rule gives the rates of two dies). -/
def execScyc (d : SReg) (g : CReg) (s : State) : Out := aluStep s g d fun G => BitVec.ofNat 64 (s.die (dieOf G.core)).clk
def execSnop (g : CReg) (s : State) : Out := scalarStep s 1 g id

end Sys2Proof.Machine
end

