-- ==== Sys2Proof/Machine/LaneInt.lean ====
section
/-!
DEFINITION. Lane integer instructions (R118 to R123).
-/

namespace Sys2Proof.Machine

/-- An exact integer function of two operands, then wrapped or clamped (R17, R121). -/
def intBin (s : State) (w : Bin) (f : Int → Int → Int) : Out :=
  binStep s w fun x y =>
    narrow w.m.sat w.ty.isSigned w.ty.bits (f (toInt w.ty.isSigned w.ty.bits x) (toInt w.ty.isSigned w.ty.bits y))

def intUn (s : State) (w : Un) (f : Int → Int) : Out :=
  unStep s w fun x => narrow w.m.sat w.ty.isSigned w.ty.bits (f (toInt w.ty.isSigned w.ty.bits x))

def execVadd (w : Bin) (s : State) : Out := intBin s w fun x y => x + y
def execVsub (w : Bin) (s : State) : Out := intBin s w fun x y => x - y
def execVmul (w : Bin) (s : State) : Out := intBin s w fun x y => x * y
def execVmulh (w : Bin) (s : State) : Out := intBin s w fun x y => x * y / (2 ^ w.ty.bits : Nat)
def execVmad (w : Ter) (s : State) : Out :=
  terStep s w fun x y z =>
    let i := toInt w.ty.isSigned w.ty.bits
    narrow w.m.sat w.ty.isSigned w.ty.bits (i x * i y + i z)
def execVand (w : Bin) (s : State) : Out := binStep s w fun x y => x &&& y
def execVor (w : Bin) (s : State) : Out := binStep s w fun x y => x ||| y
def execVxor (w : Bin) (s : State) : Out := binStep s w fun x y => x ^^^ y
def execVnot (w : Un) (s : State) : Out := unStep s w fun x => 2 ^ w.ty.bits - 1 - x
def execVshl (w : Bin) (s : State) : Out :=
  cntStep s w fun _ x c =>
    if w.m.sat then
      -- a count of n or more clamps as a count of n does (R122)
      narrow true w.ty.isSigned w.ty.bits (toInt w.ty.isSigned w.ty.bits x * (2 ^ min c w.ty.bits : Nat))
    else if c ≥ w.ty.bits then 0 else x * 2 ^ c % 2 ^ w.ty.bits
def execVshr (w : Bin) (s : State) : Out := cntStep s w fun _ x c => if c ≥ w.ty.bits then 0 else x / 2 ^ c
def execVsra (w : Bin) (s : State) : Out :=
  cntStep s w fun _ x c => wrap w.ty.bits (toInt true w.ty.bits x / (2 ^ min c w.ty.bits : Nat))
def execVmin (w : Bin) (s : State) : Out := intBin s w fun x y => min x y
def execVmax (w : Bin) (s : State) : Out := intBin s w fun x y => max x y
def execVabs (w : Un) (s : State) : Out := intUn s w fun x => (x.natAbs : Int)
def execVneg (w : Un) (s : State) : Out := intUn s w fun x => -x
def execVclz (w : Un) (s : State) : Out := unStep s w fun x => clz w.ty.bits x
def execVpopc (w : Un) (s : State) : Out := unStep s w fun x => popc w.ty.bits x

/-- The field of R122: position, and length cut at bit n - 1. -/
def vfieldPos (b : Nat) : Nat := b % 64
def vfieldLen (n b : Nat) : Nat := if vfieldPos b < n then min (b / 256 % 128) (n - vfieldPos b) else 0

def execVbfx (w : Bin) (s : State) : Out :=
  cntStep s w fun _ x b =>
    let l := vfieldLen w.ty.bits b
    let f := x / 2 ^ vfieldPos b % 2 ^ l
    if l = 0 then 0 else wrap w.ty.bits (toInt w.ty.isSigned l f)
def execVbfi (w : Bin) (s : State) : Out :=
  cntStep s w fun old x b =>
    let p := vfieldPos b
    let l := vfieldLen w.ty.bits b
    if l = 0 then old else old / 2 ^ (p + l) * 2 ^ (p + l) + x % 2 ^ l * 2 ^ p + old % 2 ^ p

/-- The low `n` bits in reverse order. -/
def bitrev : Nat → Nat → Nat
  | 0, _ => 0
  | n + 1, x => x % 2 * 2 ^ n + bitrev n (x / 2)

def execVbrev (w : Un) (s : State) : Out := unStep s w fun x => bitrev w.ty.bits x

/-- `vaddmin` and `vaddmax` (R123): integer forms, and float forms with one rounding. -/
def addSel (mx : Bool) (s : State) (w : Ter) : Out :=
  terStep s w fun x y z =>
    match fmtOf w.ty with
    | some f =>
      fMinMax mx f (encodeFmt f w.m.rnd w.m.sat (fAdd w.m.rnd (decodeFmt f x) (decodeFmt f y))) z
    | none =>
      let i := toInt w.ty.isSigned w.ty.bits
      let t := i (narrow w.m.sat w.ty.isSigned w.ty.bits (i x + i y))
      wrap w.ty.bits (if mx then max t (i z) else min t (i z))

def execVaddmin (w : Ter) (s : State) : Out := addSel false s w
def execVaddmax (w : Ter) (s : State) : Out := addSel true s w

end Sys2Proof.Machine
end

