-- ==== Sys2Proof/Machine/LaneFloat.lean ====
section
/-!
DEFINITION. Lane floating-point instructions (R124 to R127).
-/

namespace Sys2Proof.Machine

/-- The binary format of a floating-point instruction's type (R124). -/
def fmt (t : Ty) : Fmt := (fmtOf t).getD fmtF32

/-- Decodes, computes exactly, rounds once and saturates (R12). -/
def fBin (s : State) (w : Bin) (f : FVal → FVal → FVal) : Out :=
  binStep s w fun x y => encodeFmt (fmt w.ty) w.m.rnd w.m.sat (f (decodeFmt (fmt w.ty) x) (decodeFmt (fmt w.ty) y))

def fUn (s : State) (w : Un) (f : FVal → FVal) : Out :=
  unStep s w fun x => encodeFmt (fmt w.ty) w.m.rnd w.m.sat (f (decodeFmt (fmt w.ty) x))

def execVfadd (w : Bin) (s : State) : Out := fBin s w (fAdd w.m.rnd)
def execVfsub (w : Bin) (s : State) : Out := fBin s w fun x y => fAdd w.m.rnd x (fNeg y)
def execVfmul (w : Bin) (s : State) : Out := fBin s w fMul
def execVfma (w : Ter) (s : State) : Out :=
  terStep s w fun x y z =>
    let f := fmt w.ty
    encodeFmt f w.m.rnd w.m.sat (fAdd w.m.rnd (fMul (decodeFmt f x) (decodeFmt f y)) (decodeFmt f z))
def execVfmin (w : Bin) (s : State) : Out := binStep s w (fMinMax false (fmt w.ty))
def execVfmax (w : Bin) (s : State) : Out := binStep s w (fMinMax true (fmt w.ty))
def execVfabs (w : Un) (s : State) : Out := unStep s w fun x => x % 2 ^ (w.ty.bits - 1)
def execVfneg (w : Un) (s : State) : Out := unStep s w fun x => x ^^^ 2 ^ (w.ty.bits - 1)
def execVfrcp (w : Un) (s : State) : Out := fUn s w (fDiv (.fin false 1 1))
def execVfrsq (w : Un) (s : State) : Out := fUn s w fRsq
def execVfsqrt (w : Un) (s : State) : Out := fUn s w fSqrt
def execVfex2 (w : Un) (s : State) : Out := unStep s w fun x => ex2 (fmt w.ty) w.m (decodeFmt (fmt w.ty) x)
def execVflg2 (w : Un) (s : State) : Out := unStep s w fun x => lg2 (fmt w.ty) w.m (decodeFmt (fmt w.ty) x)
def execVfsin (w : Un) (s : State) : Out := unStep s w fun x => trig false (fmt w.ty) w.m (decodeFmt (fmt w.ty) x)
def execVfcos (w : Un) (s : State) : Out := unStep s w fun x => trig true (fmt w.ty) w.m (decodeFmt (fmt w.ty) x)
def execVfdiv (w : Bin) (s : State) : Out := fBin s w fDiv

/-- The integral value next to a, keeping its sign (R125, R126). -/
def fRound (m : Rnd) : FVal → FVal
  | .fin neg n d => .fin neg (roundInt m neg n d).natAbs 1
  | x => x

def execVfrnd (w : Un) (s : State) : Out := fUn s w (fRound w.m.rnd)

/-- The class mask (R127). -/
def fClass (f : Fmt) (x : Nat) : Nat :=
  let neg := decide (x / 2 ^ (f.bits - 1) % 2 = 1)
  let m := x % 2 ^ (f.bits - 1)
  let k :=
    if m = 0 then (if neg then 3 else 4)
    else if m < 2 ^ f.frac then (if neg then 2 else 5)
    else if m ≤ f.maxFin then (if neg then 1 else 6)
    else if f.inf = some m then (if neg then 0 else 7)
    else if m / 2 ^ (f.frac - 1) % 2 = 0 then 8 else 9
  2 ^ k

def execVfcls (w : Un) (s : State) : Out :=
  laneAlu s w.g (tyRegs w.ty w.d ++ tyRegs w.ty w.a) fun G m =>
    G.putEl .n32 w.d.toNat m fun i => fClass (fmt w.ty) (G.el w.ty w.a.toNat i)

/-- `a * 2^b` exactly; a scale beyond 2^14 in magnitude acts as 2^14 does, past every format's range (R125). -/
def fScale (b : Int) : FVal → FVal
  | .fin neg n d =>
    if n = 0 then .fin neg 0 1 else
    let (p, q) := scale2 n d (max (-16384) (min 16384 b))
    .fin neg p q
  | x => x

def execVfscl (w : Bin) (s : State) : Out :=
  laneAlu s w.g (tyRegs w.ty w.d ++ tyRegs w.ty w.a ++ opndRegs .i32 w.b) fun G m =>
    G.putEl w.ty w.d.toNat m fun i =>
      encodeFmt (fmt w.ty) w.m.rnd w.m.sat (fScale (toInt true 32 (G.opnd .i32 w.b i)) (decodeFmt (fmt w.ty) (G.el w.ty w.a.toNat i)))

end Sys2Proof.Machine
end

