-- ==== Sys2Proof/Machine/LaneConv.lean ====
section
/-!
DEFINITION. Conversions, packing, compares, selects, predicates and moves of the lane stream (R128 to R133).
-/

namespace Sys2Proof.Machine

def execVcvt (w : Cvt) (s : State) : Out :=
  laneAlu s w.g (tyRegs w.dst w.d ++ tyRegs w.src w.a) fun G m =>
    G.putEl w.dst w.d.toNat m fun i => convert w.dst w.src w.m (G.el w.src w.a.toNat i)

/-- Elements packed into one register: 2 of 16 bits or 4 of 8 bits (R129). -/
def packCount (t : Ty) : Nat := 32 / t.bits

def runRegs (r : VReg) (n : Nat) : List Nat := (List.range n).map (r.toNat + ·)

def execVpack (w : Cvt) (s : State) : Out :=
  let n := packCount w.dst
  laneAlu s w.g (w.d.toNat :: runRegs w.a n) fun G m =>
    let src := (List.range n).map fun j => G.el w.src (w.a.toNat + j)
    G.putEl .n32 w.d.toNat m fun i =>
      (src.zipIdx).foldl (fun acc (f, j) => acc + convert w.dst w.src w.m (f i) % 2 ^ w.dst.bits * 2 ^ (w.dst.bits * j)) 0

def execVunpk (w : Cvt) (s : State) : Out :=
  let n := packCount w.src
  laneAlu s w.g (runRegs w.d n ++ [w.a.toNat]) fun G m =>
    let a := G.el .n32 w.a.toNat
    (List.range n).foldl (fun G' j =>
      G'.putEl w.dst (w.d.toNat + j) m fun i => convert w.dst w.src w.m (a i / 2 ^ (w.src.bits * j) % 2 ^ w.src.bits)) G

/-- The relation of a lane compare (R130). -/
def relLane (t : Ty) (r : Rel) (x y : Nat) : Bool :=
  if t.isInt then relTy r t.isSigned t.bits x y else relFloat r (decodeTy t x) (decodeTy t y)

def execVcmp (w : CmpL) (s : State) : Out :=
  laneAlu s w.g (tyRegs w.ty w.a ++ opndRegs w.ty w.b) fun G m =>
    let f := G.el w.ty w.a.toNat
    let h := G.opnd w.ty w.b
    let r := maskOf fun i => m.getLsbD i && relLane w.ty w.rel (f i) (h i)
    G.wpMask w.pd m (match w.comb with
      | .set => r
      | .and => G.rp w.pd &&& r
      | .or => G.rp w.pd ||| r)

def execVsel (w : SelL) (s : State) : Out :=
  laneAlu s w.g (tyRegs w.ty w.d ++ tyRegs w.ty w.a ++ opndRegs w.ty w.b) fun G m =>
    let q := if w.inv then ~~~(G.rp w.q) else G.rp w.q
    if w.ty.wide then
      let x := G.el w.ty w.a.toNat
      let y := G.opnd w.ty w.b
      G.putEl w.ty w.d.toNat m fun i => if q.getLsbD i then x i else y i
    else
      let x := G.rv w.a.toNat
      let y := G.opnd32 w.ty w.b
      G.wvMask w.d.toNat m fun i => if q.getLsbD i then lane x i else y i

/-- A predicate instruction (R132). -/
def predStep (s : State) (gd : LGuard) (pd : PReg) (f : Group → Mask) : Out :=
  laneAlu s gd [] fun G m => G.wpMask pd m (f G)

def execVpand (w : PLog) (s : State) : Out := predStep s w.g w.pd fun G => G.rp w.pa &&& G.rp w.pb
def execVpor (w : PLog) (s : State) : Out := predStep s w.g w.pd fun G => G.rp w.pa ||| G.rp w.pb
def execVpxor (w : PLog) (s : State) : Out := predStep s w.g w.pd fun G => G.rp w.pa ^^^ G.rp w.pb
def execVpnot (g : LGuard) (pd pa : PReg) (s : State) : Out := predStep s g pd fun G => ~~~(G.rp pa)

/-- A vector operand is copied bit for bit, 32 bits or a pair; a scalar is broadcast and placed (R133). -/
def execVmov (g : LGuard) (ty : Ty) (d : VReg) (b : Opnd) (s : State) : Out :=
  laneAlu s g (tyRegs ty d ++ opndRegs ty b) fun G m =>
    if ty.wide then G.putEl ty d.toNat m (G.opnd ty b) else G.wvMask d.toNat m (G.opnd32 ty b)

def execVmovi (g : LGuard) (ty : Ty) (d : VReg) (imm : Elem) (s : State) : Out :=
  laneAlu s g (tyRegs ty d) fun G m => G.putEl ty d.toNat m fun _ => immEl ty imm

def execVlaneid (g : LGuard) (d : VReg) (s : State) : Out :=
  laneAlu s g [d.toNat] fun G m => G.putEl .n32 d.toNat m id

def execVp2v (g : LGuard) (d : VReg) (pa : PReg) (s : State) : Out :=
  laneAlu s g [d.toNat] fun G m => G.putEl .n32 d.toNat m fun i => if (G.rp pa).getLsbD i then 1 else 0

def execVv2p (g : LGuard) (pd : PReg) (a : VReg) (s : State) : Out :=
  laneAlu s g [a.toNat] fun G m =>
    let x := G.rv a.toNat
    G.wpMask pd m (maskOf fun i => lane x i != 0)

end Sys2Proof.Machine
end

