-- ==== Sys2Proof/Machine/Page.lean ====
section
/-!
DEFINITION. Translation of virtual addresses (R267 to R278), range locks (R147), and the checks of a group's accesses
(R110, R138).
-/

namespace Sys2Proof.Machine

/-- How a translation ends (R278). -/
inductive TrRes where
  | ok (pa : Nat)
  | absent (level : Nat)
  | prot
  | fatal
  deriving DecidableEq, Repr

/-- Class of a physical address (R267). -/
def paClass (pa : Nat) : Nat := pa / 2 ^ 50 % 4

/-- A physical address that R267 calls malformed. -/
def paBad (pa : Nat) : Bool := decide (pa ≥ 2 ^ 52) || decide (paClass pa = 3) || (decide (paClass pa = 0) && decide (pa % 2 ^ 50 ≥ 2 ^ 39))

/-- A peer's memory is reachable: its number is set up and its link is up (R267, R375). -/
def peerUp (s : State) (pa : Nat) : Bool :=
  if paClass pa ≠ 2 then true else
  match mget s.peers (pa / 2 ^ 46 % 16) with
  | some p => p.set && p.up
  | none => false

/-- How a walk ends: a leaf with the page's first virtual and physical byte, its size and permissions. -/
inductive Walk where
  | leaf (e : TlbEnt) (c : Bool)
  | absent (level : Nat)
  | bad
  deriving DecidableEq, Repr

def bitN (x i : Nat) : Bool := x / 2 ^ i % 2 == 1

/-- A leaf entry at a level (R269, R270). -/
def leafOf (va level e : Nat) : Walk :=
  let c := bitN e 4
  let size := if c then 2 ^ 16 else 2 ^ (12 + 9 * (level - 1))
  let addr := e / 4096 % 2 ^ 40 * 4096
  if level = 4 || (bitN e 3 && !bitN e 2) || (c && level != 1) || addr % size != 0 || paBad addr then .bad
  else .leaf { ctx := 0, va := va / size * size, size := size, pa := addr, r := bitN e 2, w := bitN e 3 } c

/-- The walk from a table at a level (R268, R269). It reads the bytes that stand in memory now; R271 would let a relaxed read find an older entry that the order
still allows (DESIGN CHOICE, log 29). -/
def walkFrom (s : State) (va : Nat) : Nat → Nat → Walk
  | 0, _ => .bad
  | level + 1, table =>
    let e := s.read (table + 8 * (va / 2 ^ (12 + 9 * level) % 512)) 8
    if !bitN e 0 then .absent (level + 1)
    else if e / 2 ^ 52 != 0 || e / 32 % 128 != 0 then .bad
    else if bitN e 1 then leafOf va (level + 1) e
    else if level = 0 || e / 4 % 8 != 0 then .bad
    else
      let next := e / 4096 % 2 ^ 40 * 4096
      if paClass next != 0 || paBad next then .bad else walkFrom s va level next

/-- A walk. With C set, any of the 16 entries may serve: its address without bits 15:12, and its permissions. Which one serves where they
differ is not fixed (R270). -/
def walk (s : State) (root va : Nat) : Walk :=
  match walkFrom s va 4 root with
  | .leaf e true =>
    let base := va / 2 ^ 16 * 2 ^ 16
    let all := (List.range 16).map fun i => walkFrom s (base + 4096 * i) 4 root
    if all.all (· == .leaf e true) then .leaf e true
    else match all.getD (Config.freeNat s.tick va % 16) .bad with
      | .leaf e' _ => .leaf { e' with va := base, size := 2 ^ 16, pa := e'.pa / 2 ^ 16 * 2 ^ 16 } true
      | other => other
  | w => w

/-- The range registers a die uses for a context (R274). -/
def rangesOf (c : Context) (die : Nat) : List RangeReg := (mget c.dieRanges die).getD c.ranges

/-- The lowest-numbered enabled register that covers an address (R273). -/
def rangeHit (rs : List RangeReg) (va : Nat) : Option RangeReg := rs.find? fun r => r.e && decide (r.vbase ≤ va) && decide (va ≤ r.vlimit)

/-- Permissions that an access needs (R271). -/
structure Need where
  r : Bool
  w : Bool

def Need.held (n : Need) (r w : Bool) : Bool := (!n.r || r) && (!n.w || w)

/-- What decides a translation (R273, R278): a range register, a leaf, an entry that is not present, or something malformed. -/
inductive Found where
  | range (r : RangeReg)
  | leaf (e : TlbEnt)
  | absent (level : Nat)
  | bad
  deriving DecidableEq, Repr

/-- Cached translations of an address that serve a core: those of its own cache and of its cluster's (R276). -/
def cachedFor (s : State) (ctx core va : Nat) : List TlbEnt :=
  ((mget s.tlbCore core).getD [] ++ (mget s.tlbCluster (clusterOf core)).getD []).filter fun e =>
    e.ctx == ctx && decide (e.va ≤ va) && decide (va < e.va + e.size)

/-- Looks an address up (R273, R275, R276). A cached translation that differs from the walk may still serve until the commit that invalidates it;
which one serves is not fixed. -/
def lookup (s : State) (c : Context) (ctx core : Nat) (rset : Option (List RangeReg)) (va : Nat) : Found :=
  match rangeHit (rset.getD (rangesOf c (dieOf core))) va with
  | some r => .range r
  | none =>
    let w := walk s c.root va
    let old := (cachedFor s ctx core va).filter fun e => match w with
      | .leaf x _ => { x with ctx := ctx } != e
      | _ => true
    let use := match old with
      | [] => w
      | _ :: _ => (w :: old.map fun e => Walk.leaf e false).getD (Config.freeNat s.tick (va / 4096) % (old.length + 1)) w
    match use with
    | .leaf e _ => .leaf e
    | .absent l => .absent l
    | .bad => .bad

/-- Translates one address for a context on a core (R273, R278). -/
def translate (s : State) (ctx core : Nat) (rset : Option (List RangeReg)) (va : Nat) (need : Need) : TrRes :=
  match mget s.ctxs ctx with
  | none => .fatal
  | some c =>
    if c.st ≠ .active then .fatal else
    let fin (pa : Nat) (r w : Bool) : TrRes := if !need.held r w || !peerUp s pa then .prot else .ok pa
    match lookup s c ctx core rset va with
    | .range r => fin (r.pbase + (va - r.vbase)) r.r r.w
    | .leaf e => fin (e.pa + (va - e.va)) e.r e.w
    | .absent l => .absent l
    | .bad => .fatal

/-- The page of an address, by its first byte and its size: the page of the leaf that maps it (R268), else 4 KiB (R279). -/
def pageAt (s : State) (ctx core va : Nat) : Nat × Nat :=
  match (mget s.ctxs ctx).map fun c => lookup s c ctx core none va with
  | some (.leaf e) => (e.va, e.size)
  | _ => (va / 4096 * 4096, 4096)

/-- Pages of `[va, va + n)`. -/
def pagesOf (va n : Nat) : List Nat := if n = 0 then [] else (List.range ((va + n - 1) / 4096 - va / 4096 + 1)).map (va / 4096 + ·)

/-- Entries of one core's translation cache, and of one cluster's (R276). -/
def tlbCoreSize : Nat := 256
def tlbClusterSize : Nat := 4096

/-- Caches the translations of some pages in a core's cache and its cluster's (R276): valid leaves only, and none for an address that a range register
translates; the oldest entries make room. -/
def fillTlb (s : State) (ctx core : Nat) (pages : List Nat) (rset : Option (List RangeReg) := none) : State :=
  match mget s.ctxs ctx with
  | none => s
  | some c =>
    let add (size : Nat) (p : Nat) (tlb : List TlbEnt) : List TlbEnt :=
      if tlb.any fun e => e.ctx == ctx && decide (e.va ≤ 4096 * p) && decide (4096 * p < e.va + e.size) then tlb
      else match walk s c.root (4096 * p) with
        | .leaf e _ => ({ e with ctx := ctx } :: tlb).take size
        | _ => tlb
    pages.foldl (fun s p =>
      if (rangeHit (rset.getD (rangesOf c (dieOf core))) (4096 * p)).isSome then s else
      { s with tlbCore := mset [] s.tlbCore core (add tlbCoreSize p ((mget s.tlbCore core).getD []))
               tlbCluster := mset [] s.tlbCluster (clusterOf core) (add tlbClusterSize p ((mget s.tlbCluster (clusterOf core)).getD [])) }) s

/-- The cached translations that `out` names by die and context are gone, from every core's cache and every cluster's. -/
def dropTlb (s : State) (out : Nat → Nat → Bool) : State :=
  { s with tlbCore := (s.tlbCore.map fun (k, l) => (k, l.filter fun e => !out (k / 16) e.ctx)).filter (!·.2.isEmpty)
           tlbCluster := (s.tlbCluster.map fun (k, l) => (k, l.filter fun e => !out (k / 4) e.ctx)).filter (!·.2.isEmpty) }

/-! ### Range locks (R147) -/

/-- Physical pieces of a virtual range, where it translates. -/
def pieces (s : State) (ctx core : Nat) (rset : Option (List RangeReg)) (va n : Nat) : List (Nat × Nat) :=
  (pagesOf va n).filterMap fun p =>
    let lo := max va (4096 * p)
    let hi := min (va + n) (4096 * p + 4096)
    match (if 2 ^ 48 ≤ lo then TrRes.prot else translate s ctx core rset lo { r := false, w := false }) with
    | .ok pa => some (pa, hi - lo)
    | _ => none

def overlaps (a n b m : Nat) : Bool := decide (a < b + m) && decide (b < a + n) && decide (0 < n) && decide (0 < m)

/-- Places that the destination entry of an engine operation holds: `[wp, end)`. -/
def dstHeld (s : State) (o : Op) (c : CopyOp) : List (Nat × Nat) :=
  if c.dstScr then [(scrLoc o.core (c.dst + c.done), c.len - c.done)] else pieces s o.ctx o.core c.rset (c.dst + c.done) (c.len - c.done)

/-- Places that its source entry holds: the source of a copy, or the index list of a gather. -/
def srcHeld (s : State) (o : Op) (c : CopyOp) : List (Nat × Nat) :=
  match c.kind with
  | .cpy => if c.srcScr then [(c.src, c.len)] else pieces s o.ctx o.core c.rset c.src c.len
  | .gather => [(c.src, 4 * (c.len / c.row))]
  | _ => []

/-- Engine operations of a context that hold entries of a core's table. -/
def lockers (s : State) (ctx core : Nat) : List (Op × CopyOp) :=
  s.ops.filterMap fun (_, o) =>
    match o.body with
    | .copy c => if o.core == core && o.ctx == ctx && c.kind != .packet then some (o, c) else none
    | _ => none

/-- An access to `[loc, loc + n)` meets a held range of the table of the core that owns the bytes. -/
def lockHit (s : State) (ctx core loc n : Nat) (write : Bool) : Bool :=
  (lockers s ctx (if isScr loc then scrCore loc else core)).any fun (o, c) =>
    (dstHeld s o c).any (fun (a, m) => overlaps loc n a m) ||
    (write && (srcHeld s o c).any fun (a, m) => overlaps loc n a m)

/-! ### Checks of a group's accesses (R110, R138) -/

/-- How the checks of an access end: the place of each lane, a trap, a hold at pages not present, or a fatal fault. -/
inductive Chk where
  | ok (locs : List (Nat × Nat))
  | trap (cause : BitVec 8) (lanes : Mask) (addr : Word)
  | hold (pages : List HeldPage)
  | fatal
  deriving DecidableEq, Repr

/-- The lanes of a list, and the lowest-numbered one's address. -/
def failTrap (cause : BitVec 8) (bad : List (Nat × Word)) : Chk :=
  .trap cause (maskOf fun i => (bad.map (·.1)).contains i) ((bad.head?.map (·.2)).getD 0)

/-- Groups held addresses by page. A page's address is that of its lowest-numbered lane (R138, R279). -/
def heldPages (kind : Nat) (l : List (Nat × Word × Nat)) : List HeldPage :=
  l.foldl (fun ps (i, a, lv) =>
    let p := a.toNat / 4096
    if ps.any (·.page == p) then
      ps.map fun h => if h.page == p then { h with lanes := h.lanes ||| (1 <<< i) } else h
    else ps ++ [{ page := p, lanes := 1 <<< i, addr := a, kind := kind, level := lv }]) []

/-- The translation check for some lanes (R278): a fatal fault first, then protection, then a page not present. -/
def chkTranslate (s : State) (ctx core : Nat) (eas : List (Nat × Word)) (need : Need) (kind : Nat) : Chk :=
  let rs := eas.map fun (i, a) => (i, a, translate s ctx core none a.toNat need)
  if rs.any (·.2.2 == .fatal) then .fatal else
  match rs.filter (·.2.2 == .prot) with
  | b :: bs => failTrap 0x06 ((b :: bs).map fun (i, a, _) => (i, a))
  | [] =>
    match rs.filterMap fun (i, a, r) => (match r with
        | .absent l => some (i, a, l)
        | _ => none) with
    | b :: bs => .hold (heldPages kind (b :: bs))
    | [] => .ok (rs.filterMap fun (i, _, r) => match r with
        | .ok pa => some (i, pa)
        | _ => none)

/-- Checks 1 and 2 of R110 and R138 for global addresses. -/
def chkAddr (eas : List (Nat × Word)) (size : Nat) : Option Chk :=
  match eas.filter fun (_, a) => a.toNat % size != 0 with
  | b :: bs => some (failTrap 0x04 (b :: bs))
  | [] =>
    match eas.filter fun (_, a) => decide (a.toNat ≥ 2 ^ 48) with
    | b :: bs => some (failTrap 0x06 (b :: bs))
    | [] => none

/-- The lock check for places already found. -/
def chkLocks (s : State) (ctx core : Nat) (eas : List (Nat × Word)) (locs : List (Nat × Nat)) (size : Nat) (write : Bool) : Chk :=
  match (eas.zip locs).filter fun (_, l) => lockHit s ctx core l.2 size write with
  | b :: bs => failTrap 0x07 ((b :: bs).map (·.1))
  | [] => .ok locs

/-- All checks of a global access of some lanes, in the order of R110 and R138. -/
def chkGlobal (s : State) (ctx core : Nat) (eas : List (Nat × Word)) (size : Nat) (need : Need) (kind : Nat) : Chk :=
  match chkAddr eas size with
  | some c => c
  | none =>
    match chkTranslate s ctx core eas need kind with
    | .ok locs => chkLocks s ctx core eas locs size need.w
    | c => c

/-- The scratch area of a block on a core: first offset and bytes (R294). -/
def scrArea (s : State) (b : Nat) : Nat × Nat :=
  match mget s.blocks b with
  | none => (0, 0)
  | some B => (B.scrOff, ((mget s.launches B.launch).map (·.desc.scratch)).getD 0)

/-- `[off, off + n)` lies in the block's own scratch area. -/
def inArea (s : State) (b off n : Nat) : Bool :=
  let (o, m) := scrArea s b
  decide (o ≤ off) && decide (off + n ≤ o + m) && decide (off + n ≤ Config.scratchBytes)

/-- A cluster scratch address names a scratch area of a block of the same context (R138), or of the same block (R152). -/
def inClusterArea (s : State) (ctx : Nat) (only : Option Nat) (core off n : Nat) : Bool :=
  s.blocks.any fun (b, B) =>
    (only.isNone || only == some b) && (B.st = .loading || B.st = .started || B.st = .saving || B.st = .restoring) && (B.core == core || (B.wide && clusterOf B.core == clusterOf core)) &&
    ((mget s.launches B.launch).map (·.ctx)) == some ctx && inArea s b off n

/-- All checks of a scratch access of some lanes (R138). `cluster`: the addresses are cluster scratch addresses (R136). -/
def chkScratch (s : State) (ctx core blk : Nat) (cluster : Bool) (only : Option Nat) (eas : List (Nat × Word)) (size : Nat) (write : Bool) : Chk :=
  match eas.filter fun (_, a) => a.toNat % size != 0 with
  | b :: bs => failTrap 0x04 (b :: bs)
  | [] =>
    let place (a : Word) : Nat := if cluster then scrLoc (mateOf core (a.toNat / 2 ^ 21 % 4)) (a.toNat % 2 ^ 21) else scrLoc core a.toNat
    let good (a : Word) : Bool :=
      if cluster then decide (a.toNat < 2 ^ 23) && inClusterArea s ctx only (mateOf core (a.toNat / 2 ^ 21 % 4)) (a.toNat % 2 ^ 21) size
      else inArea s blk a.toNat size
    match eas.filter fun (_, a) => !good a with
    | b :: bs => failTrap 0x06 (b :: bs)
    | [] => chkLocks s ctx core eas (eas.map fun (i, a) => (i, place a)) size write

/-- The context of a group (R282). -/
def State.ctxOf (s : State) (G : Group) : Nat := ((s.launch? G).map (·.ctx)).getD 0

end Sys2Proof.Machine
end

