-- ==== Sys2Proof/Machine/Cache.lean ====
section
/-!
DEFINITION. The caches and their directories (R256 to R265): one protocol, which the Girth keeps with the dies and a die's home slices keep with their
clusters; the L1s; and what an access does to them before it is performed. Memory holds the value that every line's order of writes gives (R231), so
the protocol moves no bytes (R266).
-/

namespace Sys2Proof.Machine

/-! ### A directory and its parties' lines -/

/-- Region of a line: 8 lines (R256). -/
def regionOf (line : Nat) : Nat := line / 8

def lineKey (p line : Nat) : Nat := 2 ^ 46 * p + line

def DieLine.none : DieLine := { st := .i, buffer := false, wbOut := false, answer := .none, waits := .none }

def Region.none : Region := { dies := [], lines := [], busy := .none, queue := [] }

def Dir.empty (slices : Bool) : Dir := { slices := slices, regions := [], lines := [], msgs := [], seen := [] }

def Dir.at_ (D : Dir) (p line : Nat) : DieLine := (mget D.lines (lineKey p line)).getD DieLine.none

def Dir.region (D : Dir) (r : Nat) : Region := (mget D.regions r).getD Region.none

def Dir.set (D : Dir) (p line : Nat) (x : DieLine) : Dir := { D with lines := mset DieLine.none D.lines (lineKey p line) x }

def Dir.setRegion (D : Dir) (r : Nat) (x : Region) : Dir := { D with regions := mset Region.none D.regions r x }

def Region.line (R : Region) (line : Nat) : LineState × Option Nat := (mget R.lines line).getD (.i, .none)

def Region.setLine (R : Region) (line : Nat) (st : LineState) (owner : Option Nat) : Region :=
  { R with lines := mset (.i, .none) R.lines line (st, owner) }

def Dir.send (D : Dir) (p line : Nat) (m : Msg) : Dir := { D with msgs := D.msgs ++ [(p, line, m)] }

/-- Held exclusive: the holder may write (R257). -/
def Moesi.own : Moesi → Bool
  | .e => true
  | .m => true
  | _ => false

def Moesi.dirty : Moesi → Bool
  | .m => true
  | .o => true
  | _ => false

def Msg.gives : Msg → Bool
  | .data _ _ => true
  | .grant => true
  | _ => false

/-- A party holds some line of a region, or is being given one. -/
def Dir.holds (D : Dir) (p r : Nat) : Bool :=
  (D.lines.any fun (k, x) => k / 2 ^ 46 == p && regionOf (k % 2 ^ 46) == r && x.st != .i) ||
  D.msgs.any fun (d, l, m) => d == p && regionOf l == r && m.gives

/-- Parties that hold no line of a region any more leave its vector. -/
def Dir.trim (D : Dir) (r : Nat) : Dir := D.setRegion r { D.region r with dies := (D.region r).dies.filter fun p => D.holds p r }

/-- Some party holds a line, or is being given a copy of it, and if so the line is shared. -/
def Dir.shared (D : Dir) (line : Nat) : LineState :=
  if (D.lines.any fun (k, x) => k % 2 ^ 46 == line && x.st == .s) || D.msgs.any fun (_, l, m) => l == line && m.gives then .s else .i

/-! ### Requests (R260 to R262) -/

def Dir.sendInvs (D : Dir) (line : Nat) (ps : List Nat) : Dir := ps.foldl (fun D p => D.send p line .inv) D

def Dir.busy (D : Dir) (line : Nat) (t : Trans) : Dir := D.setRegion (regionOf line) { D.region (regionOf line) with busy := some t }

/-- Starts a request. An upgrade whose copy is gone is served as RdX (R262). A home slice sends its invalidates to every other cluster in the vector, whatever
it knows of the line (R259). -/
def Dir.begin (D : Dir) (r : Req) (p line : Nat) : Dir :=
  let R := D.region (regionOf line)
  let others := R.dies.filter (· != p)
  let inv (r : Req) (ps : List Nat) : Dir := (D.sendInvs line ps).busy line (.inv r p line ps)
  let fwd (r : Req) (o : Nat) (m : Msg) : Dir := (D.send o line m).busy line (.fwd r p line o)
  let r := if r = .upg && (D.at_ p line).st = .i then .rdX else r
  match r, R.line line with
  | .rdS, (.x, some o) => fwd r o .fwdS
  | .rdS, (.o, some o) => fwd r o .fwdS
  | .rdS, _ => D.busy line (.mem r p line)
  | .rdX, (.x, some o) => if (others.filter (· != o)).isEmpty || !D.slices then fwd r o .fwdX else inv r (others.filter (· != o))
  | .rdX, (.o, some o) => if (others.filter (· != o)).isEmpty then fwd r o .fwdX else inv r (others.filter (· != o))
  | .rdX, (.s, _) => if others.isEmpty then D.busy line (.mem r p line) else inv r others
  | .rdX, _ => if others.isEmpty || !D.slices then D.busy line (.mem r p line) else inv r others
  | .upg, _ => if others.isEmpty then (D.setRegion (regionOf line) (R.setLine line .x (some p))).send p line .grant else inv r others

/-- Serves the head of a region's queue while nothing is in progress (R261). -/
def Dir.serveRegion : Nat → Dir → Nat → Dir
  | 0, D, _ => D
  | n + 1, D, r =>
    let R := D.region r
    match R.busy, R.queue with
    | .none, (q, p, line) :: rest => Dir.serveRegion n ((D.setRegion r { R with queue := rest }).begin q p line) r
    | _, _ => D

def Dir.serve (D : Dir) (line : Nat) : Dir := D.serveRegion ((D.region (regionOf line)).queue.length + 1) (regionOf line)

/-- The request in progress on a line's region is over. -/
def Dir.over (D : Dir) (line : Nat) (st : LineState) (owner : Option Nat) : Dir :=
  let R := (D.region (regionOf line)).setLine line st owner
  ((D.setRegion (regionOf line) { R with busy := .none }).trim (regionOf line)).serve line

/-- A request ends with a line for its party. -/
def Dir.endReq (D : Dir) (p line : Nat) (st : LineState) (owner : Option Nat) : Dir :=
  let R := D.region (regionOf line)
  (D.setRegion (regionOf line) { R with dies := insNat R.dies p }).over line st owner

/-- A request of a party would come after one of a higher number in this cycle: it comes a cycle later (R261; one instant of the time base counts as a
cycle, log 62). -/
def Dir.late (D : Dir) (now p line : Nat) : Bool := (D.region (regionOf line)).last.any fun l => l.1 == now && decide (p < l.2)

/-- A request of a party whose line is in a state that needs it: RdS and RdX without a copy, Upg with one that is not exclusive. R260 gives Upg from S only and
names no request of an owner in O; the model lets it send Upg (DESIGN CHOICE, log 82). Requests of one cycle join the queue in ascending number (R261). -/
def Dir.request (D : Dir) (now : Nat) (r : Req) (p line : Nat) : Dir :=
  let x := D.at_ p line
  let R := D.region (regionOf line)
  let needs : Bool := match r with
    | .upg => x.st == .s || x.st == .o
    | _ => x.st == .i
  if x.waits.isSome || x.buffer || x.answer.isSome || !needs || D.late now p line then D else
  ((D.set p line { x with waits := some r }).setRegion (regionOf line) { R with queue := R.queue ++ [(r, p, line)], last := some (now, p) }).serve line

/-! ### Answers of parties (R260, R263) -/

/-- An eviction that no request meets: the party owns the line no more. -/
def Dir.dropOwner (D : Dir) (p line : Nat) : Dir :=
  let R := D.region (regionOf line)
  if (R.line line).2 = some p then D.setRegion (regionOf line) (R.setLine line (D.shared line) .none) else D

/-- The owner's data, or its write-back, serves a forwarded request; an owner that keeps the line dirty stays its owner. The data of an evicting owner is
written to memory (R263). A requester that has been fenced gets nothing (R265). -/
def Dir.serveFwd (D : Dir) (r : Req) (p line owner : Nat) (evicting dirty : Bool) : Dir :=
  let left : LineState × Option Nat := if dirty && !evicting && r = .rdS then (.o, some owner) else (D.shared line, .none)
  if (D.at_ p line).waits.isNone then D.over line left.1 left.2 else
  let D := D.send p line (.data r (dirty && !evicting && r != .rdS))
  match r with
  | .rdS => if dirty && !evicting then D.endReq p line .o (some owner) else D.endReq p line .s .none
  | _ => D.endReq p line .x (some p)

/-- Both copies of an eviction have been seen (R263). -/
def Dir.retire (D : Dir) (p line : Nat) : Dir := { D with seen := D.seen.filter (· != (p, line)) }.send p line .wbAck

def Dir.noteSeen (D : Dir) (p line : Nat) : Dir := { D with seen := D.seen ++ [(p, line)] }

/-- WB: first the party evicts a dirty line into its buffer and sends it, then it reaches the directory. It and the answer to a forwarded snoop
are two copies of one reply (R263); an acknowledgement of an invalidate is none. -/
def Dir.wb (D : Dir) (p line : Nat) : Dir :=
  let x := D.at_ p line
  if !x.buffer then
    if x.st.dirty && x.waits.isNone && x.answer.isNone then D.set p line { x with st := .i, buffer := true, wbOut := true } else D
  else if !x.wbOut then D else
  let D := D.set p line { x with wbOut := false }
  if D.seen.contains (p, line) then D.retire p line else
  match (D.region (regionOf line)).busy with
  | some (.fwd r q l o) =>
    if l = line && o = p then (D.noteSeen p line).serveFwd r q line p true true else ((D.dropOwner p line).retire p line).trim (regionOf line)
  | _ => ((D.dropOwner p line).retire p line).trim (regionOf line)

/-- A snoop for a line is under way to a party, or its answer is. -/
def Dir.snooped (D : Dir) (p line : Nat) : Bool :=
  (D.at_ p line).answer.isSome || D.msgs.any fun (d, l, m) => d == p && l == line && (m == .inv || m == .fwdS || m == .fwdX)

/-- EVC: a party drops a clean line, and the directory knows at once. -/
def Dir.evC (D : Dir) (p line : Nat) : Dir :=
  let x := D.at_ p line
  if (x.st ≠ .s && x.st ≠ .e) || x.waits.isSome || D.snooped p line then D else
  let D := (D.set p line { x with st := .i }).dropOwner p line
  let R := D.region (regionOf line)
  let D := if (R.line line).1 = .s && R.busy.isNone then D.setRegion (regionOf line) (R.setLine line (D.shared line) .none) else D
  D.trim (regionOf line)

/-- The invalidates of a request are all answered. -/
def Dir.afterInvs (D : Dir) (r : Req) (p line : Nat) : Dir :=
  let R := D.region (regionOf line)
  let (st, owner) := R.line line
  if (D.at_ p line).waits.isNone then
    match owner with
    | some _ => D.over line st owner
    | none => D.over line (D.shared line) .none
  else match r, st, owner with
  | .upg, _, _ => (D.send p line .grant).endReq p line .x (some p)
  | _, .o, some o => (D.send o line .fwdX).busy line (.fwd r p line o)
  | _, .x, some o => (D.send o line .fwdX).busy line (.fwd r p line o)
  | _, _, _ => D.busy line (.mem r p line)

/-- INVACK reaches the directory. -/
def Dir.invAck (D : Dir) (p line : Nat) : Dir :=
  let x := D.at_ p line
  match x.answer with
  | some (.invAck _) =>
    let D := D.set p line { x with answer := .none }
    match (D.region (regionOf line)).busy with
    | some (.inv r q l due) =>
      if l ≠ line then D else
      let due := due.filter (· != p)
      if due.isEmpty then D.afterInvs r q line else D.busy line (.inv r q l due)
    | _ => D
  | _ => D

/-- FWDDATA reaches the directory. -/
def Dir.fwdData (D : Dir) (p line : Nat) : Dir :=
  let x := D.at_ p line
  match x.answer with
  | some (.fwdData ev dirty) =>
    let D := D.set p line { x with answer := .none }
    if ev && D.seen.contains (p, line) then D.retire p line else
    let D := if ev then D.noteSeen p line else D
    match (D.region (regionOf line)).busy with
    | some (.fwd r q l o) => if l = line && o = p then D.serveFwd r q line p ev dirty else D
    | _ => D
  | _ => D

/-! ### Messages to parties -/

/-- A message to a party arrives; those to one party for one line arrive in order. -/
def Dir.takeMsg (D : Dir) (p line : Nat) (m : Msg) : Option Dir :=
  if (D.msgs.find? fun x => x.1 == p && x.2.1 == line) = some (p, line, m) then some { D with msgs := D.msgs.erase (p, line, m) } else none

/-- The party has its line. -/
def Dir.got (D : Dir) (p line : Nat) (st : Moesi) : Dir := D.set p line { D.at_ p line with st := st, waits := .none }

/-- The state that the data of a request brings. -/
def Req.brings (r : Req) (dirty : Bool) : Moesi :=
  match r with
  | .rdS => .s
  | _ => if dirty then .m else .e

/-- The request for which memory is being read, if it is a party's for a line (B_MEM). -/
def Dir.reading (D : Dir) (p line : Nat) : Option Req :=
  match (D.region (regionOf line)).busy with
  | some (.mem r q l) => if q = p && l = line then some r else none
  | _ => none

/-- DATA: memory's data ends a request in B_MEM, or forwarded data arrives. -/
def Dir.data (D : Dir) (p line : Nat) : Dir :=
  match D.reading p line with
  | some r =>
    let D := D.got p line (r.brings false)
    if r = .rdS then D.endReq p line .s .none else D.endReq p line .x (some p)
  | none =>
    match D.msgs.find? fun x => x.1 == p && x.2.1 == line with
    | some (_, _, .data r dirty) => ((D.takeMsg p line (.data r dirty)).map (·.got p line (r.brings dirty))).getD D
    | _ => D

/-- GRANT: the party writes the copy it has. -/
def Dir.grant (D : Dir) (p line : Nat) : Dir := ((D.takeMsg p line .grant).map (·.got p line .m)).getD D

/-- A snoop reaches a party whose last answer for the line has left it: its answers go out in order, and none takes the place of another (R263). -/
def Dir.takeSnoop (D : Dir) (p line : Nat) (m : Msg) : Option Dir := if (D.at_ p line).answer.isSome then none else D.takeMsg p line m

/-- INV: the party's copy goes; a line in the buffer stays, and the answer is marked evicting (R263). -/
def Dir.inv (D : Dir) (p line : Nat) : Dir :=
  match D.takeSnoop p line .inv with
  | some D =>
    let x := D.at_ p line
    D.set p line (if x.buffer then { x with answer := some (.invAck true) } else { x with st := .i, answer := some (.invAck false) })
  | none => D

/-- A forwarded request reaches the owner, which answers from its cache or its buffer. -/
def Dir.fwd (D : Dir) (p line : Nat) (m : Msg) : Dir :=
  match D.takeSnoop p line m with
  | some D =>
    let x := D.at_ p line
    let keep : Moesi := if m = .fwdX then .i else if x.st.dirty then .o else .s
    D.set p line (if x.buffer then { x with answer := some (.fwdData true true) }
                  else { x with st := keep, answer := some (.fwdData false x.st.dirty) })
  | none => D

/-- WBACK frees the buffer (R263). -/
def Dir.wbAck (D : Dir) (p line : Nat) : Dir :=
  match D.takeMsg p line .wbAck with
  | some D => (D.set p line { D.at_ p line with buffer := false }).trim (regionOf line)
  | none => D

/-- One event of the protocol for a party and a line. -/
def Dir.event (D : Dir) (now : Nat) (ev : CohEv) (p line : Nat) : Dir :=
  match ev with
  | .rdS => D.request now .rdS p line
  | .rdX => D.request now .rdX p line
  | .upg => D.request now .upg p line
  | .wb => D.wb p line
  | .evC => D.evC p line
  | .invAck => D.invAck p line
  | .fwdData => D.fwdData p line
  | .data => D.data p line
  | .grant => D.grant p line
  | .inv => D.inv p line
  | .fwdS => D.fwd p line .fwdS
  | .fwdX => D.fwd p line .fwdX
  | .wbAck => D.wbAck p line

/-! ### What is under way comes to its end -/

def Msg.event : Msg → CohEv
  | .data _ _ => .data
  | .grant => .grant
  | .inv => .inv
  | .fwdS => .fwdS
  | .fwdX => .fwdX
  | .wbAck => .wbAck

/-- An event that is due in a region: memory's data, an answer or a write-back at the directory, or a message at a party. -/
def Dir.due (D : Dir) (r : Nat) : Option (CohEv × Nat × Nat) :=
  let mem : Option (CohEv × Nat × Nat) := match (D.region r).busy with
    | some (.mem _ p l) => some (.data, p, l)
    | _ => none
  let answer := D.lines.findSome? fun (k, x) =>
    if regionOf (k % 2 ^ 46) != r then (none : Option (CohEv × Nat × Nat)) else
    match x.answer with
    | some (.invAck _) => some (CohEv.invAck, k / 2 ^ 46, k % 2 ^ 46)
    | some (.fwdData _ _) => some (CohEv.fwdData, k / 2 ^ 46, k % 2 ^ 46)
    | none => if x.wbOut then some (CohEv.wb, k / 2 ^ 46, k % 2 ^ 46) else none
  let msg := D.msgs.findSome? fun (p, l, m) => if regionOf l == r then some (m.event, p, l) else none
  (mem.or answer).or msg

/-- Runs what is due in a region, at most `n` events. -/
def Dir.run : Nat → Dir → Nat → Dir
  | 0, D, _ => D
  | n + 1, D, r => match D.due r with
    | some (ev, p, l) => Dir.run n (D.event 0 ev p l) r
    | none => D

/-- Serves every request of a line's region, and ends what is under way there, in the order of the queue (R261). A request takes at most a message and an
answer of each party. -/
def Dir.drain (D : Dir) (line : Nat) : Dir :=
  D.run (32 * ((D.region (regionOf line)).queue.length + 1) + 4 * (D.msgs.length + D.lines.length)) (regionOf line)

/-! ### Requests served at once

Where nothing is under way for a line, an access may have its line at once; the protocol's events give the same end (log 62). -/

/-- Nothing is under way for a line or in its region's queue. -/
def Dir.idle (D : Dir) (line : Nat) : Bool :=
  let R := D.region (regionOf line)
  R.busy.isNone && R.queue.isEmpty && !D.msgs.any (fun m => m.2.1 == line) &&
  !D.lines.any fun (k, x) => k % 2 ^ 46 == line && (x.buffer || x.answer.isSome || x.waits.isSome)

/-- No party holds a line; what was dirty is written back. -/
def Dir.clear (D : Dir) (line : Nat) : Dir :=
  let D := { D with lines := D.lines.filter fun p => p.1 % 2 ^ 46 != line }
  (D.setRegion (regionOf line) ((D.region (regionOf line)).setLine line .i .none)).trim (regionOf line)

/-- One party is the only holder of a line. -/
def Dir.take (D : Dir) (p line : Nat) (st : Moesi) : Dir :=
  let D := (D.clear line).set p line { DieLine.none with st := st }
  let R := (D.region (regionOf line)).setLine line .x (some p)
  D.setRegion (regionOf line) { R with dies := insNat R.dies p }

/-- Every holder of a line keeps at most a clean copy of it, or a dirty one that it owns. -/
def Dir.soften (D : Dir) (line : Nat) (clean : Bool) : Dir :=
  let soft (x : Moesi) : Moesi := match x with
    | .i => .i
    | .s => .s
    | .e => .s
    | _ => if clean then .s else .o
  let D : Dir := { D with lines := D.lines.map fun (k, x) => if k % 2 ^ 46 == line then (k, { x with st := soft x.st }) else (k, x) }
  let R := D.region (regionOf line)
  match R.line line with
  | (.i, _) => D
  | (_, o) => match o.filter fun p => (D.at_ p line).st == Moesi.o with
    | some p => D.setRegion (regionOf line) (R.setLine line .o (some p))
    | none => D.setRegion (regionOf line) (R.setLine line (D.shared line) .none)

/-- A party has a copy of a line. -/
def Dir.share (D : Dir) (p line : Nat) : Dir :=
  let D := (D.soften line false).set p line { DieLine.none with st := .s }
  let R := D.region (regionOf line)
  let R := if (R.line line).1 = .o then R else R.setLine line .s .none
  D.setRegion (regionOf line) { R with dies := insNat R.dies p }

/-- A line that is held exclusive is written: its holder does so without a word (R265). -/
def Dir.mark (D : Dir) (p line : Nat) (st : Moesi) : Dir := if st = .m then D.set p line { D.at_ p line with st := .m } else D

/-- A party's request for a line joins an idle region's queue, and is served (R261). -/
def Dir.asks (D : Dir) (now p line : Nat) : Option Dir :=
  if !D.idle line || D.late now p line then none
  else some (D.setRegion (regionOf line) { D.region (regionOf line) with last := some (now, p) })

/-- Lines that take room at a party: those it holds, and those it has asked for (R1). -/
def Dir.taken (D : Dir) (p : Nat) : List Nat :=
  D.lines.filterMap fun (k, x) => if k / 2 ^ 46 == p && (x.st != .i || x.waits.isSome) then some (k % 2 ^ 46) else none

/-- A party has room for a line in `cap` lines. -/
def Dir.hasRoom (D : Dir) (cap p line : Nat) : Bool := decide ((D.taken p).length < cap) || (D.taken p).contains line

/-- The line that a full party gives up: one that nothing is under way for, whichever it likes (R1). -/
def Dir.victim (D : Dir) (p pick : Nat) : Option Nat :=
  let free := (D.taken p).filter D.idle
  free[pick % max 1 free.length]?

/-- A party holds a line no more; what was dirty is written back. -/
def Dir.evict (D : Dir) (p line : Nat) : Dir :=
  let D := (D.set p line DieLine.none).dropOwner p line
  let R := D.region (regionOf line)
  (if (R.line line).1 = .s then D.setRegion (regionOf line) (R.setLine line (D.shared line) .none) else D).trim (regionOf line)

/-! ### The Girth, the home slices and the L1s -/

def State.home (s : State) (d : Nat) : Dir := (mget s.coh.homes d).getD (Dir.empty true)

def State.setGirth (s : State) (D : Dir) : State := { s with coh := { s.coh with girth := D } }

def State.setHome (s : State) (d : Nat) (D : Dir) : State := { s with coh := { s.coh with homes := mset (Dir.empty true) s.coh.homes d D } }

/-- State of a line in the L1 of a core (R258). -/
def State.l1 (s : State) (core line : Nat) : Moesi := (mget s.coh.l1 (lineKey core line)).getD .i

def State.setL1 (s : State) (core line : Nat) (st : Moesi) : State :=
  { s with coh := { s.coh with l1 := mset .i s.coh.l1 (lineKey core line) st } }

/-- What a cluster's filter records of a line (R258): the cores of the cluster that hold it, and the one that holds it in E or M. -/
def State.filterOf (s : State) (cluster line : Nat) : List Nat × Option Nat :=
  let cs := (List.range 4).filter fun c => s.l1 (4 * cluster + c) line != .i
  (cs, cs.find? fun c => (s.l1 (4 * cluster + c) line).own)

/-- The L1s of a die keep of the lines of a region what its clusters' slices still hold. -/
def syncL1 (s : State) (d line : Nat) : State :=
  let D := s.home d
  { s with coh := { s.coh with l1 := s.coh.l1.filterMap fun (k, x) =>
      if k % 2 ^ 46 / 8 != line / 8 || dieOf (k / 2 ^ 46) != d then some (k, x) else
      match (D.at_ (clusterOf (k / 2 ^ 46) % 4) (k % 2 ^ 46)).st with
      | .i => none
      | .s => some (k, .s)
      | .o => some (k, .s)
      | _ => some (k, x) } }

/-- Lines of a region. -/
def regionLines (line : Nat) : List Nat := (List.range 8).map fun i => 8 * regionOf line + i

/-- A line of which a cluster of the die has a modified copy is dirty at the die, without a word to the Girth (R265). -/
def markUp (s : State) (d line : Nat) : State :=
  if (s.coh.girth.at_ d line).st.own && (List.range 4).any (fun c => ((s.home d).at_ c line).st == .m) then s.setGirth (s.coh.girth.mark d line .m) else s

/-- The home slice of a die ends what is under way in a region, while the die still has its lines (R259, R261). -/
def drainHome (s : State) (d line : Nat) : State :=
  (regionLines line).foldl (fun s l => markUp s d l) (syncL1 (s.setHome d ((s.home d).drain line)) d line)

/-- A die's slices keep of a line what the die still holds; requests under way in the die for the line are served before it goes. -/
def syncDie (s : State) (line d : Nat) : State :=
  let loses (clean : Bool) : Bool := (s.home d).lines.any fun (k, x) => k % 2 ^ 46 == line && (x.st.own || x.waits.isSome || (clean && x.st == Moesi.o))
  let soft (clean : Bool) : State :=
    if !loses clean then s else
    let s := drainHome s d line
    syncL1 (s.setHome d ((s.home d).soften line clean)) d line
  match (s.coh.girth.at_ d line).st with
  | .i =>
    let s := drainHome s d line
    syncL1 (s.setHome d ((s.home d).clear line)) d line
  | .s => soft true
  | .o => soft false
  | _ => s

/-- After a change at the Girth, the slices of the dies follow. -/
def syncDies (s : State) (line : Nat) : State := (mkeys s.coh.homes).foldl (fun s d => syncDie s line d) s

/-- The Girth ends what is under way in a line's region, and the slices of the dies follow. -/
def drainGirth (s : State) (line : Nat) : State := (regionLines line).foldl syncDies (s.setGirth (s.coh.girth.drain line))

/-- Room in a die for a line; `none` while every line of a full die has something under way. -/
def dieRoom (s : State) (d line : Nat) : Option State :=
  if s.coh.girth.hasRoom Config.dieLines d line then some s else
  (s.coh.girth.victim d (Config.freeNat s.tick line)).map fun l => syncDie (s.setGirth (s.coh.girth.evict d l)) l d

def sliceRoom (s : State) (d c line : Nat) : Option State :=
  if (s.home d).hasRoom Config.sliceLines c line then some s else
  ((s.home d).victim c (Config.freeNat s.tick line)).map fun l => syncL1 (s.setHome d ((s.home d).evict c l)) d l

/-- Room in an L1: a line that falls out of it stays in the slice. -/
def l1Room (s : State) (core line : Nat) : State :=
  let mine := s.coh.l1.filterMap fun (k, _) => if k / 2 ^ 46 == core then some (k % 2 ^ 46) else none
  if mine.length < Config.l1Lines || mine.contains line then s else s.setL1 core (mine.getD (Config.freeNat s.tick line % mine.length) 0) .i

/-- The die becomes the only holder of a line (R257). `none`: the line's region is busy, and the access waits. -/
def dieTakes (s : State) (d line : Nat) (st : Moesi) : Option State :=
  let D := s.coh.girth
  if (D.at_ d line).st.own then some (s.setGirth (D.mark d line st)) else
  (dieRoom s d line).bind fun s => (s.coh.girth.asks s.now d line).map fun D => syncDies (s.setGirth (D.take d line st)) line

/-- The slice of a core's cluster becomes the only holder. -/
def sliceTakes (s : State) (core line : Nat) (st : Moesi) : Option State :=
  let d := dieOf core
  let c := clusterOf core % 4
  (dieTakes s d line st).bind fun s =>
    if ((s.home d).at_ c line).st.own then some (s.setHome d ((s.home d).mark c line st)) else
    (sliceRoom s d c line).bind fun s => ((s.home d).asks s.now c line).map fun D => syncL1 (s.setHome d (D.take c line st)) d line

/-- A core's L1 becomes the only holder (R257): the filter of its cluster invalidates the other L1s. -/
def coreTakes (s : State) (core line : Nat) (st : Moesi) : Option State :=
  (sliceTakes s core line st).map fun s =>
    let s := (s.filterOf (clusterOf core) line).1.foldl (fun s c => s.setL1 (4 * clusterOf core + c) line .i) (l1Room s core line)
    s.setL1 core line st

/-- The Girth fetches a line that the host holds modified (R264). -/
def fetchHost (s : State) (line : Nat) : State := { s with coh := { s.coh with hostMod := s.coh.hostMod.filter (· != line) } }

/-- A die has a copy of a line. -/
def dieReads (s : State) (d line : Nat) : Option State :=
  if (s.coh.girth.at_ d line).st != .i then some s else
  (dieRoom s d line).bind fun s => (s.coh.girth.asks s.now d line).map fun D => syncDies ((fetchHost s line).setGirth (D.share d line)) line

def sliceReads (s : State) (core line : Nat) : Option State :=
  let d := dieOf core
  let c := clusterOf core % 4
  if ((s.home d).at_ c line).st != .i then some s else
  (dieReads s d line).bind fun s => (sliceRoom s d c line).bind fun s =>
    ((s.home d).asks s.now c line).map fun D => syncL1 (s.setHome d (D.share c line)) d line

/-- A core's L1 has a copy. -/
def coreReads (s : State) (core line : Nat) : Option State :=
  if s.l1 core line != .i then some s else
  (sliceReads s core line).map fun s =>
    let s := match (s.filterOf (clusterOf core) line).2 with
      | some c => s.setL1 (4 * clusterOf core + c) line .s
      | none => s
    (l1Room s core line).setL1 core line .s

/-- A die's home slice acts on a line: its die alone holds it, and none of its clusters (R112). -/
def homeTakes (s : State) (d line : Nat) : Option State :=
  (dieTakes s d line .m).bind fun s =>
    if !(s.home d).idle line then none else some (syncL1 (s.setHome d ((s.home d).clear line)) d line)

/-- A memory port acts on a line: no die holds it. -/
def portTakes (s : State) (line : Nat) : Option State :=
  if !s.coh.girth.idle line then none else some (syncDies (s.setGirth (s.coh.girth.clear line)) line)

/-- A memory port reads a line: an owner gives its data and keeps it shared; what the host has modified is fetched (R260, R264, R375). -/
def portReads (s : State) (line : Nat) : Option State :=
  if !s.coh.girth.idle line then none else some (syncDies ((fetchHost s line).setGirth (s.coh.girth.soften line false)) line)

/-- The Girth takes a line from every die, once what is under way for its region has come to its end. -/
def girthTakes (s : State) (line : Nat) : State :=
  let s := drainGirth s line
  syncDies (s.setGirth (s.coh.girth.clear line)) line

/-- The host takes a copy of a line: no die may write it any more without the Girth. -/
def hostShares (s : State) (line : Nat) : State :=
  let s := drainGirth s line
  syncDies (s.setGirth (s.coh.girth.soften line true)) line

/-- The host reads a line and keeps no copy. -/
def hostReads (s : State) (line : Nat) : State :=
  let s := drainGirth s line
  syncDies (s.setGirth (s.coh.girth.soften line false)) line

/-! ### Accesses -/

/-- The host holds a line of device memory: a write to it waits for the back-invalidate (R264). -/
def hostHeld (s : State) (loc : Nat) : Bool := !isScr loc && s.coh.hostHolds.contains (loc / 64)

/-- The host holds a line no more. -/
def dropHost (s : State) (line : Nat) : State :=
  { s with coh := { s.coh with hostHolds := s.coh.hostHolds.filter (· != line), hostMod := s.coh.hostMod.filter (· != line),
                               backInv := s.coh.backInv.filter (· != line) } }

/-- Where an access to device memory is made: in the L1 of a core, in the home slices of a die, or at the memory port (R112, R170, R363). -/
inductive Via where
  | core (c : Nat)
  | home (d : Nat)
  | port
  deriving DecidableEq, Repr

/-- A line of host memory comes into the Girth host-line cache (R256, R264); a full cache drops another, whichever it likes. -/
def noteHost (s : State) (line : Nat) : State :=
  let l := s.coh.hostLines
  if l.contains line then s else
  let l := if l.length < Config.hostCacheLines then l else l.eraseIdx (Config.freeNat s.tick line % l.length)
  { s with coh := { s.coh with hostLines := insNat l line } }

/-- A core's store takes its line from the caches while the host still holds it: a line that the host has modified is fetched first (R257, R264). -/
def reachDie (s : State) (core line : Nat) : Option State :=
  if (s.die (dieOf core)).st ≠ .hitched then none else
  (coreTakes s core line .m).map fun s => fetchHost s line

/-- An access may reach `loc` now, with what that does to the caches. `none`: it waits. Scratch and peers' memory are cached nowhere (R256, R257). A die that
is not HITCHED makes no new request (R265): what it still has in flight goes to the memory port (log 73). -/
def reachLine (s : State) (v : Via) (write : Bool) (loc : Nat) : Option State :=
  let line := loc / 64
  if isScr loc then some s
  else if paClass loc = 1 then some (noteHost s line)
  else if paClass loc ≠ 0 then some s
  else if write && hostHeld s loc then none
  else match v, write with
    | .core c, true => if (s.die (dieOf c)).st = .hitched then coreTakes s c line .m else portTakes s line
    | .core c, false => if (s.die (dieOf c)).st = .hitched then coreReads s c line else portReads s line
    | .home d, true => if (s.die d).st = .hitched then homeTakes s d line else portTakes s line
    | .home d, false => if (s.die d).st = .hitched then dieReads s d line else portReads s line
    | .port, true => portTakes s line
    | .port, false => portReads s line

/-- A write that the Girth itself makes: no die has the line, and the host gives it up first: the back-invalidate and its response are part of the same step
(R264, R361, log 63). -/
def girthReaches (s : State) (pa : Nat) : State :=
  if paClass pa = 0 then dropHost (girthTakes s (pa / 64)) (pa / 64) else if paClass pa = 1 then noteHost s (pa / 64) else s

/-- A write through the home slices of a die that does not wait: what is under way for the line comes to its end, and the host gives it up (R264, R265). -/
def homeReaches (s : State) (d pa : Nat) : State :=
  let s := dropHost (drainHome (drainGirth s (pa / 64)) d (pa / 64)) (pa / 64)
  (reachLine s (.home d) true pa).getD (girthReaches s pa)

/-- The lines of `[loc, loc + n)`, reached one after the other. -/
def reachBytes (s : State) (v : Via) (write : Bool) (loc n : Nat) : Option State :=
  (List.range ((loc + n - 1) / 64 - loc / 64 + 1)).foldl (fun s i => s.bind fun s => reachLine s v write (max loc (64 * (loc / 64 + i)))) (some s)

end Sys2Proof.Machine
end

