-- ==== Sys2Proof/Machine/Queue.lean ====
section
/-!
DEFINITION. Error records (R382), completion records and their messages (R358 to R360), the end of packets (R356), activity
reports (R318) and the end of launches (R292, R306).
-/

namespace Sys2Proof.Machine

/-- The core number under which the Girth translates: no die's registers or cache match it, so the current set serves (R390). -/
def girthCore : Nat := 2 ^ 20

/-- Logs an error (R382). -/
def logErr (s : State) (kind unit : Nat) (wh : BitVec 16) (ctx : Option Nat) (addr : Nat) (launch : Option Nat) : State :=
  let r : ErrRec := { time := s.now, kind := kind, unit := unit, where_ := wh, ctx := BitVec.ofNat 16 (ctx.getD 0xFFFF), addr := addr,
                      launch := ((launch.bind fun l => mget s.launches l).map fun l => l.id.truncate 32).getD 0 }
  let copy := match ctx with
    | some c => [(c / 64, r)]
    | none => []
  { s with modl := { s.modl with errs := s.modl.errs ++ [r], viferrs := s.modl.viferrs ++ copy, errpend := true } }

/-- Host memory is open to the ostler only through the windows of the physical-function driver (R385). -/
def ostlerMay (s : State) (pa : Nat) : Bool :=
  paClass pa != 1 || s.modl.hostWindows.any fun (_, b, l) => decide (b ≤ pa % 2 ^ 50) && decide (pa % 2 ^ 50 ≤ l)

/-- The ostler's own read of 8 bytes; a blocked read gives nothing. -/
def ostlerRead (s : State) (pa : Nat) : Nat := if ostlerMay s pa then s.read pa 8 else 0

/-- Logs the blocked ones among some reads of the ostler. -/
def logBlocked (s : State) (pas : List Nat) : State := (pas.filter fun pa => !ostlerMay s pa).foldl (fun s pa => logErr s 4 5 0 none pa none) s

/-- A write of the Girth or the ostler, which is a release at system scope of every write performed before (R245, log 61). -/
def girthWrite (s : State) (ctx : Option Nat) (pa n x : Nat) : State :=
  (girthReaches s pa).write ctx pa n x { rels := [{ who := .ostler, scope := .system, view := { upto := s.wcount } }], view := { upto := s.wcount } }

/-- A write of the ostler on a context's behalf; outside the windows it is blocked and logged (R385). -/
def ostlerPut (s : State) (ctx : Option Nat) (pa n x : Nat) : State :=
  if ostlerMay s pa then girthWrite s ctx pa n x else logErr s 4 5 0 none pa none

/-- The 64 bytes of a slot, read by the ostler in 8-byte words. -/
def readSlot (s : State) (a : Nat) : BitVec 512 :=
  BitVec.ofNat 512 ((List.range 8).foldr (fun i x => ostlerRead s (a + 8 * i) + 2 ^ 64 * x) 0)

/-- A write from outside the package, of the host threads (0) or of peer `p` (p + 1): a release at system scope of what was written before it or known
there (R245). Whether a plain access of a host or a peer is a release or an acquire is its own architecture's (R230); the model takes each for both (DESIGN
CHOICE, log 61). -/
def outsideWrite (s : State) (k : Nat) (pa n x : Nat) : State :=
  let v := (mget s.outside k).getD {}
  let who : Agent := if k = 0 then .host else .peer (k - 1)
  let t := s.write none pa n x { rels := [{ who := who, scope := .system, view := v }], view := v }
  { t with outside := mput t.outside k (v.join { pos := [s.wcount] }) }

/-- A read from outside the package is an acquire at system scope: what it reads is known there afterwards, with what was released to it (R245). -/
def outsideRead (s : State) (k : Nat) (pa n : Nat) : State :=
  let who : Agent := if k = 0 then .host else .peer (k - 1)
  let ws := s.writersOf pa n
  { s with outside := mput s.outside k ((((mget s.outside k).getD {}).join { pos := ws }).join (gain s who .system ws)) }

/-- The ostler's own write. -/
def ostlerWrite (s : State) (pa n x : Nat) : State := ostlerPut s none pa n x

/-- The MSI-X message of a queue: sent, or delayed to one message per 4 µs and interface (R360, R385). One message covers
every record pending at its send. -/
def sendMsix (s : State) (q : Nat) : State :=
  match mget s.queues q with
  | none => s
  | some Q =>
    let v := (mget s.vifs Q.vif).getD Vif.reset
    if (v.last.map fun t => decide (s.now < t + 4000)).getD false then
      { s with vifs := mput s.vifs Q.vif { v with msgs := if v.msgs.contains q then v.msgs else v.msgs ++ [q] } }
    else
      { s with vifs := mput s.vifs Q.vif { v with last := some s.now, sent := v.sent ++ [Q.vector], msgs := v.msgs.filter (· != q) },
               queues := mput s.queues q { Q with pend := none } }

/-- The record of a packet that is refused unread: its tag and code; `finite`: a launch with a finite deadline, whose message goes at once (R353, R360). -/
def refusal (w : BitVec 512) (finite : Bool) : CRec :=
  { tag := w.extractLsb' 32 32, outcome := 4, code := (w.extractLsb' 0 8).toNat, blocks := 0, valid := 0, now := w.getLsbD 8 || finite }

/-- Whether the completion ring has no room (R359). -/
def cringFull (s : State) (Q : Queue) : Bool := Q.cwr == ostlerRead s (Q.ctl + 32) + 2 ^ Q.cslots

/-- Writes one completion record, then cwr, then raises or schedules the message (R358, R360). -/
def writeRecord (s : State) (q : Nat) (Q : Queue) (r : CRec) : State :=
  let a := Q.cring + 16 * (Q.cwr % 2 ^ Q.cslots)
  let s := ostlerWrite s a 8 (r.tag.toNat + 2 ^ 32 * r.outcome + 2 ^ 40 * r.code + 2 ^ 48 * r.blocks)
  let s := ostlerWrite s (a + 8) 8 r.valid.toNat
  let s := ostlerWrite s (Q.ctl + 24) 8 (Q.cwr + 1)
  let s : State := { s with queues := mupd s.queues q fun Q => { Q with cwr := Q.cwr + 1, pend := some (Q.pend.getD s.now) } }
  if r.now then sendMsix s q else s

/-- A record goes to the ring, or is held until crd moves (R359). -/
def putRecord (s : State) (q : Nat) (r : CRec) : State :=
  match mget s.queues q with
  | none => s
  | some Q =>
    if !Q.held.isEmpty then { s with queues := mput s.queues q { Q with held := Q.held ++ [r] } } else
    let full := cringFull s Q
    let s := logBlocked s [Q.ctl + 32]
    if full then { s with queues := mput s.queues q { Q with held := Q.held ++ [r] } } else writeRecord s q Q r

/-- Writes held records while there is room. -/
def drainRecords : Nat → State → Nat → State
  | 0, s, _ => s
  | n + 1, s, q =>
    match mget s.queues q with
    | none => s
    | some Q =>
      match Q.held with
      | [] => s
      | r :: rs =>
        let full := cringFull s Q
        let s := logBlocked s [Q.ctl + 32]
        if full then s else drainRecords n (writeRecord { s with queues := mput s.queues q { Q with held := rs } } q Q r) q

/-- A queue that a teardown unbound is gone once its last record is written and its last message sent (R359, R360). -/
def dropDead (s : State) (q : Nat) : State :=
  if ((mget s.queues q).map fun Q => !Q.bound && Q.taken.isNone && Q.held.isEmpty && Q.pend.isNone && (mget s.ctxs Q.ctx).map (·.st) != some .active).getD false then
    { s with queues := mdel s.queues q }
  else s

/-- Key of a packet: its queue and index. -/
def pktKey (q idx : Nat) : Nat := q * 2 ^ 64 + idx

/-- A packet has been taken and has not completed. -/
def pktOpen (s : State) (k : Nat) : Bool :=
  (mget s.pkts k).isSome || s.queues.any fun (q, Q) => (Q.taken.map fun t => pktKey q t.1 == k).getD false

/-- Ends a packet with its record. -/
def endPkt (s : State) (k : Nat) (outcome blocks : Nat) (valid : Word) (now : Bool) : State :=
  match mget s.pkts k with
  | none => s
  | some p =>
    putRecord { s with pkts := mdel s.pkts k } p.q
      { tag := p.tag, outcome := outcome, code := p.code, blocks := blocks, valid := valid, now := now || p.urgent }

/-- Completes every QUEUE_BARRIER whose packets have completed (R356). -/
def settleBarriers : Nat → State → State
  | 0, s => s
  | n + 1, s =>
    match s.pkts.find? fun (_, p) => match p.body with
        | .barrier l => l.all fun k => !pktOpen s k
        | _ => false with
    | none => s
    | some (k, _) => settleBarriers n (endPkt s k 0 0 0 false)

/-- A packet completes, and barriers that waited for it. -/
def finishPkt (s : State) (k : Nat) (outcome : Nat) (blocks : Nat := 0) (valid : Word := 0) (now : Bool := false) : State :=
  settleBarriers (s.pkts.length + 1) (endPkt s k outcome blocks valid now)

/-! ### Activity reports and the end of a launch -/

def ActState.num : ActState → Nat
  | .running => 0 | .ended => 1 | .abandoning => 2 | .abandoned => 3 | .stuck => 4

/-- Entries not yet UNDONE. -/
def Activity.left (A : Activity) : Nat := (A.entries.filter (·.st != .undone)).length

/-- Writes an activity report unless its address meets a fault (R318), or a window of the ostler does not hold it (R385). -/
def writeReport (s : State) (A : Activity) (addr : Nat) : State :=
  match translate s A.ctx girthCore none addr { r := false, w := true } with
  | .ok pa =>
    let w (s : State) (i x : Nat) : State := ostlerPut s (some A.ctx) (pa + i) 8 x
    let s := w s 0 (A.id.toNat + 2 ^ 32 * A.st.num + 2 ^ 40 * A.reason + 2 ^ 48 * A.cause)
    let s := w s 8 A.seq
    let s := w s 16 (A.code.toNat + 2 ^ 32 * A.left)
    w s 24 0
  | _ => s

/-- Every block of a launch has ended, never started before wrap time, or never started for want of a fixed overlay (R292). -/
def blocksOver (s : State) (l : Nat) (L : Launch) : Bool :=
  s.blocks.all fun (_, b) => b.launch != l || b.comp.isSome || b.audit.isSome || b.st = .ended ||
    ((b.st = .waiting || b.st = .loading) && (L.wrapped.isSome || L.stopStart))

/-- An operation of the replay of an audited tile. -/
def Op.replays (o : Op) : Bool := (o.aud.map (·.2)).getD false

/-- Every block is over, and every operation issued by the launch's groups (R292); the farrier's replays delay nothing (R381). -/
def launchOver (s : State) (l : Nat) (L : Launch) : Bool := blocksOver s l L && !s.ops.any fun (_, o) => o.launch == some l && !o.replays

/-- The outcome of R306 (codes of R358). -/
def launchOutcome (s : State) (L : Launch) : Nat :=
  let n := L.blockcnt
  let all := L.valid.toNat % 2 ^ n
  let act : Option ActState := (L.act.bind fun a => mget s.acts a).map (·.st)
  if L.faulted then 5
  else if act = some .abandoned then 6
  else if act = some .stuck then 7
  else if L.wrapped.isNone || !L.endedLate then 0
  else if all = 2 ^ n - 1 then 1
  else if all ≠ 0 then 2
  else 3

/-- A launch completes (R292): activity report, validity bitmap, record, and its package phasers are freed. -/
def finishLaunch (s : State) (l : Nat) (L : Launch) : State :=
  let out := launchOutcome s L
  let s : State := match L.act.bind fun a => mget s.acts a with
    | some A => writeReport s A A.report
    | none => s
  let s : State := match translate s L.ctx girthCore none L.bitmap { r := false, w := true } with
    | .ok pa => ostlerWrite (ostlerWrite s pa 8 (L.valid.toNat % 2 ^ 64)) (pa + 8) 8 (L.valid.toNat / 2 ^ 64)
    | _ => s
  let s : State := { s with acts := match L.act, L.act.bind fun a => mget s.acts a with
    | some a, some A => if A.st = ActState.stuck then s.acts else mdel s.acts a
    | _, _ => s.acts }
  let s := s.modLaunch l fun L => { L with st := .complete, phasers := [], pages := [] }
  finishPkt s L.pkt out L.blockcnt (BitVec.ofNat 64 L.valid.toNat) L.deadline.isSome

end Sys2Proof.Machine
end

