-- ==== Sys2Proof/Machine/Perform.lean ====
section
/-!
DEFINITION. Operations in flight: issue with its order, the effect of a memory operation on its places, and the end of an
operation with its counter, handle and drain unit (R37, R39, R111, R143, R207, R231 to R240).
-/

namespace Sys2Proof.Machine

/-- Bytes an access of type `t` touches (R136). -/
def accSize (t : Ty) : Nat := t.size

/-- The new value of an atomic (R111, R142). -/
def atomNew (k : AKind) (t : Ty) (old x : Nat) : Nat :=
  let i := toInt t.isSigned t.bits
  match k with
  | .add => if t = .f32 then addF32 old x else (old + x) % 2 ^ t.bits
  | .and => old &&& x
  | .or => old ||| x
  | .xor => old ^^^ x
  | .min => if t = .f32 then fMinMax false fmtF32 old x else if i x < i old then x else old
  | .max => if t = .f32 then fMinMax true fmtF32 old x else if i old < i x then x else old
  | .exch => x

/-- A list of written bytes with `n` bytes at `a` written anew; zero bytes are listed as well. -/
def putBytes (l : List Host.Cell) (a : Nat) : Nat → Nat → List Host.Cell
  | 0, _ => l
  | n + 1, x => putBytes (mput l a (BitVec.ofNat 8 x)) (a + 1) n (x / 256)

/-- Under which address the comparator lists a written byte (R381): the physical address of global memory; for scratch, which R311 counts among a tile's
stores too, its place in the cluster as seen from the core, so that it is the same for both runs (DEDUCED, log 46). -/
def auditPlace (core a : Nat) : Nat :=
  if isScr a then 2 ^ 60 + Config.scratchSpan * ((scrCore a + 4 - core % 4) % 4) + a % Config.scratchSpan else a

/-- Writes of an audited or replayed tile: the comparator gets them, and a replay's reach no memory (R381). A replay has its own scratch, which it reads
again, so its writes there are made as well (log 46). -/
def auditWrite (s : State) (aud : Option (Nat × Bool)) (ctx a n x : Nat) (st : Stamp := {}) : State :=
  match aud with
  | none => s.write (some ctx) a n x st
  | some (k, replay) =>
    let s := if replay && !isScr a then s else s.write (some ctx) a n x st
    { s with audits := mupd s.audits k fun A =>
        if replay then { A with replay := putBytes A.replay (auditPlace A.rcore a) n x } else { A with writes := putBytes A.writes (auditPlace A.core a) n x } }

/-- A `vldsf` that empties a word holding a handle tag discards the handle; its carried unit returns to its root (R210). -/
def dropTag (s : State) (w : Nat) : State :=
  match mget s.tags w with
  | none => s
  | some t =>
    let s : State := { s with tags := mdel s.tags w }
    match t.unit, mget s.blocks t.blk with
    | some (ph, p), some b => rootAdd s b.launch ph p 1 { ops := [t.op] }
    | _, _ => s

/-- The releases that a write of an atomic carries on: those of the write that it read (R237). -/
def carried (s : State) (saw : List Nat) : List Release := saw.flatMap fun n => ((s.writeNo n).map (·.stamp.rels)).getD []

/-- What one lane of an operation did: the state, the value it read, and the numbers of the writes it read. -/
abbrev LaneDone := State × Word × List Nat

/-- The effect on memory of one lane of operation `k`. An atomic and a full/empty access read the newest write (R111, R140). -/
def performLane (s : State) (k : Nat) (o : Op) (m : MemOp) (a : LaneAcc) : LaneDone :=
  let n := accSize m.ty
  let old := s.read a.loc n
  let saw := s.writersOf a.loc n
  let st := o.stamp s k
  let atomic (x : Nat) : State := auditWrite s o.aud o.ctx a.loc n x { st with rels := st.rels ++ carried s saw }
  match m.kind with
  | .load => (s, 0, [])
  | .store => (auditWrite s o.aud o.ctx a.loc n a.x.toNat st, 0, [])
  | .atom f => (atomic (atomNew f m.ty old (a.x.toNat % 2 ^ m.ty.bits)), BitVec.ofNat 64 old, saw)
  | .cas => (if old = a.y.toNat % 2 ^ m.ty.bits then atomic a.x.toNat else s, BitVec.ofNat 64 old, saw)
  | .feTake => (dropTag { s with full := s.full.filter (· != a.loc / 4) } (a.loc / 4), BitVec.ofNat 64 old, saw)
  | .feKeep => (s, BitVec.ofNat 64 old, saw)
  | .fePut => (let s := s.write (some o.ctx) a.loc 4 a.x.toNat st; { s with full := insNat s.full (a.loc / 4) }, 0, [])

/-- The lanes of a mask performed in ascending order; values read are kept for the registers, with the writes they came from. -/
def performLanes (s : State) (k : Nat) (o : Op) (m : MemOp) (lanes : Mask) : State × List (Nat × Word) × List Nat :=
  (m.acc.filter fun a => lanes.getLsbD a.lane).foldl (fun (s, got, saw) a =>
    let (s, x, seen) := performLane s k o m a
    (s, got ++ [(a.lane, x)], sunion saw seen)) (s, [], [])

/-- Bytes that some lanes write, for the clearing of poison (R382). -/
def laneBytes (m : MemOp) (lanes : Mask) : List Nat :=
  (m.acc.filter fun a => lanes.getLsbD a.lane).flatMap fun a => (List.range (accSize m.ty)).map (a.loc + ·)

def Group.rise (G : Group) (ld st cp tl : Bool) : Group :=
  { G with cld := G.cld + ld.toNat, cst := G.cst + st.toNat, ccp := G.ccp + cp.toNat, ctl := G.ctl + tl.toNat }

/-- An issue that would raise a counter above 63 waits (R38). -/
def Group.roomFor (G : Group) (ld st cp tl : Bool) : Bool :=
  decide (G.cld + ld.toNat ≤ 63 ∧ G.cst + st.toNat ≤ 63 ∧ G.ccp + cp.toNat ≤ 63 ∧ G.ctl + tl.toNat ≤ 63)

/-- Writes one lane's value to the destination: whole scalar register, or the chosen halves of a lane's registers. -/
def writeDst (s : State) (o : Op) (m : MemOp) (lo hi : Mask) (vals : List (Nat × Word)) : State :=
  let val (i : Nat) : Nat := ((vals.find? (·.1 == i)).map (·.2.toNat)).getD 0
  modGrp? s o.grp fun G =>
    match m.dst with
    | .none => G
    | .s r => if lo = 0 then G else G.ws (BitVec.ofNat 7 r) (BitVec.ofNat 64 (val 0))
    | .v r =>
      if m.ty.wide then
        (G.wvMask r lo fun i => BitVec.ofNat 32 (val i)).wvMask (r + 1) hi fun i => BitVec.ofNat 32 (val i / 2 ^ 32)
      else G.wvMask r lo fun i => place m.ty (val i)

/-- The handle of a group that holds an engine operation ends in a state (R39). -/
def setHandle (s : State) (g : Option Nat) (op : Nat) (st : HState) : State :=
  modGrp? s g fun G => { G with hreg := G.hreg.map fun (i, h) => if h.op == some op then (i, { h with st := st }) else (i, h) }

/-- An engine operation ends (R147, R150, R207): handle, counter, locks, channel and drain unit. For a COPY packet, its packet ends. -/
def endCopy (s : State) (k : Nat) (st : HState) : State :=
  match mget s.ops k with
  | none => s
  | some o =>
    match o.body with
    | .copy c =>
      let s := setHandle s o.grp k st
      let s : State := if o.grp.isSome then modGrp? s o.grp fun G => G.fall false false true false else s
      let s := dropOp s k
      if c.kind = .packet then
        match s.pkts.find? fun (_, p) => p.body == .copy k with
        | some (p, _) => finishPkt s p (if st = .done then 0 else 5)
        | none => s
      else s
    | _ => s

/-! ### Issue -/

def opMem (s : State) (i : Nat) : Option MemOp :=
  match mget s.ops i with
  | none => none
  | some o => match o.body with
    | .mem m => some m
    | _ => none

/-- The operations of a list that touch any of some bytes (R231). -/
def touching (s : State) (ids : List Nat) (locs : List Nat) (n : Nat) : List Nat :=
  ids.filter fun i => match opMem s i with
    | some m => m.acc.any fun a => locs.any fun l => overlaps a.loc (accSize m.ty) l n
    | _ => false

/-- The operation of a group's stream with the stream's order and what it must follow. -/
def newOp (s : State) (g : Nat) (G : Group) (str : Stream) (ord : Ord) (deps : List Nat) (body : OpBody) : Op :=
  let b := s.blk? G
  { grp := some g, str := str, run := if str = .scalar then none else G.runs.head?.map (·.key), core := G.core, ctx := s.ctxOf G,
    launch := b.map (·.launch), blk := some G.blk, deps := live s deps, since := s.wcount, ord := ord,
    aud := match G.audit, G.tile with
      | some k, _ => some (k, true)
      | none, some (_, some k) => some (k, false)
      | _, _ => none
    body := body }

/-- Adds an operation; its key joins the stream's own list, and the accesses of its run (R251). -/
def addOp (s : State) (g : Nat) (o : Op) : Nat × State :=
  let (k, s) := s.fresh
  let s : State := { s with ops := mput s.ops k o, runUnits := s.runUnits.map fun u => if o.run = some u.run then { u with ran := u.ran ++ [k] } else u }
  (k, s.modGrp g fun G => match o.str with
    | .scalar => { G with ord := { G.ord with own := G.ord.own ++ [k] } }
    | .split n => { G with splits := mupd G.splits n fun S => { S with ord := { S.ord with own := S.ord.own ++ [k] } } })

/-- What an access of a stream waits for: everything an acquire, a run boundary or a reconvergence puts before it, and earlier accesses of the stream to
the same bytes (R113, R231, R234). -/
def accDeps (s : State) (o : Ord) (locs : List Nat) (n : Nat) : List Nat := live s (sunion o.before.keys (touching s o.ran locs n))

/-- What an engine or tile operation waits for: everything a release at its place would order (R241, R244). -/
def unitDeps (s : State) (o : Ord) : List Nat := live s o.earlier.keys

/-- The writes among some operations that are not performed at die scope (R113, R257). -/
def unperf (s : State) (ids : List Nat) : List Nat :=
  ids.filter fun i => ((opMem s i).map fun m => m.todo != 0).getD false

/-- The stores and atomics among some operations that are not acknowledged (R113, R240). -/
def unacked (s : State) (ids : List Nat) : List Nat :=
  ids.filter fun i => ((opMem s i).map fun m => m.todo != 0 || m.unack != 0).getD false

/-- The writes that must be performed before a write of the stream: those that release fences put before it (R113). Earlier reads need no wait: they may not
return what follows the fence (`State.readOf`, R238). -/
def fencePerf (s : State) (o : Ord) : List Nat := unperf s (o.fences.foldl (fun l f => sunion l f.2.keys) [])

/-- The reads among some operations: loads and atomics that have not returned (R113), and those that have and read some write. -/
def readsOf (s : State) (ids : List Nat) : List Nat :=
  ids.filter fun i => match opMem s i with
    | some m => m.lo != 0 || m.hi != 0 || m.kind != .store
    | none => !(s.saw i).isEmpty

/-- Operations in flight that a scalar-stream release or fence orders before itself (R113, R235). -/
def scalarEarlier (s : State) (G : Group) : List Nat := live s G.ord.earlier.keys

def splitEarlier (s : State) (S : Split) : List Nat := live s S.ord.earlier.keys

/-- A tile whose group issues an atomic, a full/empty access, a phaser instruction, hsend, hrecv or cpyst is not audited (R380). -/
def barAudit (s : State) (G : Group) : State :=
  match G.tile with
  | some (_, some k) => { s with audits := mupd s.audits k fun a => { a with barred := true } }
  | _ => s

def scopeWide : Scope → Bool
  | .package => true
  | .system => true
  | _ => false

def ordAcq : Order → Bool
  | .acquire => true
  | .acqRel => true
  | _ => false

def ordRel : Order → Bool
  | .release => true
  | .acqRel => true
  | _ => false

/-! ### Reaching memory (R257, R261, R264) -/

/-- Where an operation reaches memory: a load or store in its core's L1, an atomic in the home slices of its die or, at a wide scope, at the memory
port (R112, R257). -/
def opVia (o : Op) (m : MemOp) : Via :=
  match m.kind with
  | .atom _ | .cas => if scopeWide o.scope then .port else .home (dieOf o.core)
  | _ => .core o.core

/-- The writes of an audit's replay reach no memory (R381), and no cache. -/
def opWrites (o : Op) (m : MemOp) : Bool := m.kind != .load && !o.replays

/-- The lanes of a mask whose lines can be reached now, with what that does to the caches; the others wait (R257, R261, R264). -/
def reachLanes (s : State) (o : Op) (m : MemOp) (lanes : Mask) : State × Mask :=
  (m.acc.filter fun a => lanes.getLsbD a.lane).foldl (fun (s, l) a =>
    match reachLine s (opVia o m) (opWrites o m) a.loc with
    | some t => (t, l)
    | none => (s, l &&& ~~~((1 : Mask) <<< a.lane))) (s, lanes)

/-- The lanes of a mask whose line the host does not hold (R264). -/
def hostFree (s : State) (m : MemOp) (lanes : Mask) : Mask :=
  lanes &&& ~~~(maskOf fun i => m.acc.any fun a => a.lane == i && hostHeld s a.loc)

end Sys2Proof.Machine
end

