-- ==== Sys2Proof/Machine/Context.lean ====
section
/-!
DEFINITION. Replayable faults and their records (R279, R284), teardown of a context (R280, R285), abandonment of activities
(R316, R317, R322) and the consumption of uncorrectable errors (R309, R327, R382).
-/

namespace Sys2Proof.Machine

/-- Posts a fault record, unless the page has an unanswered one or the entry that the next seq names is taken (R284). -/
def postFault (s : State) (ctx : Nat) (h : HeldPage) : State :=
  match mget s.ctxs ctx with
  | none => s
  | some c =>
    if c.recs.any (·.page == h.page) || c.faultents = 0 || c.recs.any (fun r => r.seq.toNat % c.faultents == c.seq.toNat % c.faultents) then s else
    let a := c.faultring + 32 * (c.seq.toNat % c.faultents)
    let w (s : State) (i x : Nat) : State := girthWrite s none (a + i) 8 x
    let s := w s 0 (4096 * h.page)
    let s := w s 8 (c.seq.toNat + 2 ^ 32 * h.kind + 2 ^ 40 * h.level + 2 ^ 48 * ctx)
    let s := w (w s 16 0) 24 0
    let s := s.modCtx ctx fun c => { c with seq := c.seq + 1, recs := c.recs ++ [{ seq := c.seq, page := h.page, kind := h.kind, level := h.level }] }
    { s with vifs := mput s.vifs (ctx / 64) { (mget s.vifs (ctx / 64)).getD Vif.reset with faultIrq := ((mget s.vifs (ctx / 64)).getD Vif.reset).faultIrq + 1 } }

/-- Replay is enabled for a context (R282). -/
def replayOn (s : State) (ctx : Nat) : Bool := ((mget s.ctxs ctx).map fun c => c.flags.getLsbD 1).getD false

/-- Every page at which something of a context is held (R279). -/
def heldOf (s : State) (ctx : Nat) : List HeldPage :=
  (s.groups.flatMap fun (_, G) => if s.ctxOf G == ctx then G.holds.flatMap (·.pages) else []) ++
  (s.ops.filterMap fun (_, o) => match o.body with
    | .copy c => if o.ctx == ctx then c.hold else none
    | _ => none) ++
  (s.copies.filterMap fun (_, c) => if c.ctx == ctx then c.hold else none) ++
  (s.pkts.filterMap fun (_, p) => if p.ctx == ctx then p.hold else none)

/-- Faults that waited for a free entry post their records (R284). -/
def postWaiting (s : State) (ctx : Nat) : State := (heldOf s ctx).foldl (fun s h => postFault s ctx h) s

/-- A trap of either stream. -/
def trapStr (s : State) (g : Nat) (str : Stream) (cause : BitVec 8) (lanes : Mask) (addr : Word) : State :=
  match str with
  | .scalar => trapS s g cause addr
  | .split n => trapL s g n cause lanes addr

/-- A stream holds at pages that are not present; with replay disabled it traps at once, at the page of its lowest-numbered lane (R138, R279, R284). -/
def holdGroup (s : State) (g : Nat) (str : Stream) (pages : List HeldPage) : State :=
  match mget s.groups g with
  | none => s
  | some G =>
    let ctx := s.ctxOf G
    if replayOn s ctx then
      let s := s.grp g { G with holds := G.holds ++ [{ str := str, pages := pages }] }
      pages.foldl (fun s h => postFault s ctx h) s
    else
      match pages with
      | h :: _ => trapStr s g str 0x05 h.lanes h.addr
      | [] => s

/-! ### Abandonment -/

/-- Activities that an abandonment reaches: those named, and every running one that depends on one of them, transitively (R322). -/
def depClosure : Nat → SMap Activity → List Nat → List Nat
  | 0, _, l => l
  | n + 1, acts, l =>
    depClosure n acts (acts.foldl (fun l (k, A) => if A.st = .running && A.deps.any l.contains then insNat l k else l) l)

/-- Activities enter ABANDONING (R316, R317): their dispensers wrap, and every group other than one waiting in `actabn` is killed without
a trap entry and without breaking phasers. They form one set (R324). -/
def abandon (s : State) (a : Nat) : State :=
  match mget s.acts a with
  | none => s
  | some A =>
    if A.st ≠ .running then s else
    (depClosure (s.acts.length + 1) s.acts [a]).foldl (fun s k =>
      match mget s.acts k with
      | none => s
      | some B =>
        if B.st ≠ .running then s else
        let s : State := { s with acts := mput s.acts k { B with st := .abandoning, set := a } }
        let s := s.modLaunch B.launch fun l => { l with dispWrapped := true }
        (s.groups.filter fun (_, G) => ((mget s.blocks G.blk).map fun b => b.launch == B.launch && b.comp.isNone && b.audit.isNone).getD false && G.wait != .abandoned).foldl
          (fun s (g, _) => killGroup s false g) s) s

/-! ### Uncorrectable errors -/

/-- The groups of a launch, its audits and compensations left out. -/
def launchGroups (s : State) (l : Nat) : List Nat :=
  s.groups.filterMap fun (g, G) =>
    if ((mget s.blocks G.blk).map fun b => b.launch == l && b.comp.isNone && b.audit.isNone).getD false then some g else none

/-- Whether a launch can be rolled back (R309). -/
def canRoll (L : Launch) : Bool := L.desc.flags.getLsbD 2 && L.act.isNone && !L.pagesLost

/-- A launch consumes an uncorrectable error (R306, R309, R327, R382): it rolls back, abandons its activity, or will complete FAULTED. -/
def launchError (s : State) (l : Nat) : State :=
  match mget s.launches l with
  | none => s
  | some L =>
    match L.act with
    | some a =>
      -- an activity that can no longer be abandoned does not answer the error (R306)
      match (mget s.acts a).map (·.st) with
      | some ActState.running => abandon s a
      | some ActState.abandoning => s
      | _ => s.modLaunch l fun L => { L with faulted := true }
    | none =>
      if canRoll L then
        let s := s.modLaunch l fun L => { L with st := .rolling }
        (launchGroups s l).foldl (fun s g => killGroup s false g) s
      else s.modLaunch l fun L => { L with faulted := true }

/-- Logs an error of a core, which the Girth will test (R382, R383). -/
def coreErr (s : State) (kind unit core : Nat) (ctx : Option Nat) (addr : Nat) (launch : Option Nat) : State :=
  let s := logErr s kind unit (BitVec.ofNat 16 (256 * dieOf core + core % 16)) ctx addr launch
  { s with suspects := insNat s.suspects core }

/-- An operation reads a poisoned line: the error is logged as consumed (R382). -/
def noteConsumed (s : State) (o : Op) (addr : Nat) : State := coreErr s 1 3 o.core (some o.ctx) addr o.launch

/-- An engine operation of a launch's group consumes an uncorrectable error (R150, R382). -/
def engineConsumes (s : State) (o : Op) (addr : Nat) : State :=
  if o.core = girthCore then logErr s 1 3 0 (some o.ctx) addr none else
  let s := noteConsumed s o addr
  match o.launch, o.blk, o.blk.bind fun b => mget s.blocks b with
  | some l, some b, some B =>
    match B.comp with
    | some (act, seq) =>
      -- the compensation consumes the error: it fails (R325), and its group is killed
      (s.groups.filter fun (_, G) => G.blk == b && !G.compDone).foldl (fun s (g, _) => killGroup (compFail s act seq 1 0x0F 0) true g) s
    | none => if B.audit.isNone then launchError s l else s
  | _, _, _ => s

/-- A group consumes an uncorrectable error: cause 0x0F, fatal when its launch rolls back or abandons (R335). -/
def groupError (s : State) (g : Nat) (addr : Nat) (at_ : Option (Stream × Nat × Nat)) : State :=
  match mget s.groups g with
  | none => s
  | some G =>
    let boundary := match at_ with
      | none => trapBoundary s g 0x0F (BitVec.ofNat 64 addr)
      | some (str, ov, off) => trap s g { cause := 0x0F, str := str, ov := ov, off := off, addr := BitVec.ofNat 64 addr }
    if G.st = .exited ∨ G.st = .killed then s
    else if G.comp.isSome then boundary else
      match s.blk? G with
      | none => s
      | some b =>
        if b.audit.isSome then killGroup s false g else
        let s' := launchError s b.launch
        match mget s'.groups g with
        | some G' => if G'.st = .killed then s' else
            match (mget s'.launches b.launch).map (·.faulted) with
            | some true => (match at_ with
                | none => trapBoundary s' g 0x0F (BitVec.ofNat 64 addr)
                | some (str, ov, off) => trap s' g { cause := 0x0F, str := str, ov := ov, off := off, addr := BitVec.ofNat 64 addr })
            | _ => killGroup s' false g
        | none => s'

/-! ### Teardown (R285) -/

/-- A memory operation still in flight at a teardown: either its write was performed before step 1, in lines that its die could take and the host did not
hold, or it never is. Which is not fixed, but an operation that follows one that was dropped is dropped (R257, R264, R285). -/
def sweepMem (s : State) (ctx : Nat) : State :=
  (s.ops.foldl (fun (s, dropped) (k, o) =>
    match o.body with
    | .mem m =>
      if o.ctx ≠ ctx then (s, dropped)
      else if m.todo ≠ 0 && !m.more && !o.deps.any (dropped : List Nat).contains && Config.freeBit (s.tick + k) then
        let (t, lanes) := reachLanes s o m (hostFree s m m.todo)
        (dropOp (performLanes t k o m lanes).1 k, if lanes = m.todo then dropped else k :: dropped)
      else (dropOp s k, k :: dropped)
    | .tile _ => if o.ctx ≠ ctx then (s, dropped) else (dropOp s k, dropped)
    | _ => (s, dropped)) (s, ([] : List Nat))).1

/-- Engine operations end FAILED(2); NVMe commands already sent run to completion, and keep the operation's buffers (R285). -/
def sweepCopies (s : State) (ctx : Nat) : State :=
  s.ops.foldl (fun s (k, o) =>
    match o.body with
    | .copy c =>
      if o.ctx ≠ ctx then s else
      let s := endCopy s k (.failed 2)
      if c.kind = .storage && c.cmds != c.sent then { s with ops := mput s.ops k { o with grp := none, launch := none, blk := none, unit := none, body := .copy { c with cancel := true, fail := some 2 } } }
      else s
    | _ => s) s

/-- Clears `bound` in a queue's descriptor (R348). -/
def unbindDesc (s : State) (q : Nat) : State := { s with qdescs := mupd s.qdescs q fun d => d &&& ~~~1 }

/-- Completes what the ostler holds of a queue, and the packets still in its ring, and unbinds it (R285). The queue stays until its records are written and
their message is sent. The index rd in the control block stays as it was: R285 does not say that it moves past what is refused (DESIGN CHOICE, log 87). -/
def dropQueue (s : State) (q : Nat) : State :=
  match mget s.queues q with
  | none => s
  | some Q =>
    let s : State := match Q.taken with
      | some (_, w) => putRecord { s with queues := mput s.queues q { Q with taken := none } } q (refusal w Q.look.finite)
      | none => s
    let wr := if Q.bound then ostlerRead s (Q.ctl + 8) else Q.rd
    let s := if Q.bound then logBlocked s [Q.ctl + 8] else s
    let s : State := (List.range (min (wr - Q.rd) (2 ^ Q.slots))).foldl (fun s i =>
      let a := Q.ring + 64 * ((Q.rd + i) % 2 ^ Q.slots)
      putRecord (logBlocked s [a]) q (refusal (readSlot s a) false)) s
    dropDead (unbindDesc { s with queues := mupd s.queues q fun Q => { Q with bound := false }, batch := s.batch.filter (· != q) } q) q

/-- Whose image a waiter of a load would read instead: its context and the entry of its overlay table. -/
def waiterSource (s : State) (copy : Nat) : Waiter → Option (Nat × OvEntry)
  | .handle g h => (mget s.groups g).bind fun G => (G.rh h).ov.bind fun x => ((s.table G)[x.1]?).map fun e => (s.ctxOf G, e)
  | .entry g => (mget s.groups g).bind fun G => match G.wait with
    | .entering _ ov _ _ => ((s.table G)[ov]?).map fun e => (s.ctxOf G, e)
    | _ => none
  | .fixed b => (mget s.blocks b).bind fun B => (mget s.launches B.launch).bind fun L =>
    (B.fixed.find? (·.2.2 == copy)).bind fun f => (L.tab[f.2.1]?).map fun e => (L.ctx, e)
  | .preload _ => none

/-- The copies of a context that is torn down are gone (R285). A library copy stays (R190); its load goes on from the image of another context that
waits for it, which the teardown does not concern (R286). -/
def dropCopies (s : State) (ctx : Nat) : State :=
  { s with copies := s.copies.filterMap fun (k, c) =>
      let c := { c with names := c.names.filter (·.ctx != ctx) }
      if c.ctx != ctx then some (k, c)
      else if !c.ent.lib then none
      else if !c.loading then some (k, c)
      else (c.waiters.filterMap (waiterSource s k)).head?.map fun (x, e) =>
        (k, { c with ctx := x, ent := e, code := [], got := [], hold := none,
                     id := match c.id with
                       | .unread _ _ _ _ => .unread x e.image e.s e.l
                       | id => id }) }

/-- Teardown of a context: address space, groups, engines, queues, resources (R285), each step complete before the next. A packet that waits for an
activity ends with the state in which the activity settles (R326). R285 names no outcome for a RANGE_COMMIT or a QUEUE_BARRIER that has started: it is FAULTED,
and for a barrier of which every packet ends first DONE (DESIGN CHOICE, log 87). -/
def teardown (s : State) (ctx : Nat) : State :=
  match mget s.ctxs ctx with
  | none => s
  | some c =>
    if c.st ≠ .active then s else
    -- 1: address space; writes in flight were performed before, or never are
    let s := dropTlb (sweepMem s ctx) fun _ x => x == ctx
    let s := s.modCtx ctx fun c => { c with st := .tearing, ranges := [], dieRanges := [], recs := [] }
    -- 2: groups
    let s : State := (s.groups.filter fun (_, G) => s.ctxOf G == ctx).foldl (fun s (g, _) => killGroup s true g) s
    -- 3: engines and windows
    let s := sweepCopies s ctx
    let s := s.modCtx ctx fun c => { c with windows := c.windows.map fun (i, w) => (i, { w with valid := false }) }
    -- 4: launches, activities, packets, rings
    let s : State := { s with acts := s.acts.map fun (k, A) =>
      if A.ctx == ctx && (A.st = .running || A.st = .abandoning) then (k, { A with st := .stuck, torn := true }) else (k, A) }
    let s : State := { s with blocks := s.blocks.map fun (k, b) =>
      if ((mget s.launches b.launch).map fun l => l.ctx == ctx).getD false then (k, { b with st := .ended, phasers := [], held := [], save := [], brec := none, scr := [], full := [], tags := [], fixed := [] }) else (k, b) }
    let s : State := (s.launches.filter fun (_, L) => L.ctx == ctx && L.st != .complete).foldl (fun s (l, _) =>
      match mget s.launches l with
      | some L => finishLaunch s l { L with faulted := true }
      | none => s) s
    let s : State := (s.pkts.filter fun (_, p) => p.ctx == ctx).foldl (fun s (k, p) => finishPkt s k (match p.body with
      | .act _ => 7
      | _ => 5)) s
    let s : State := (s.queues.filter fun (_, Q) => Q.ctx == ctx).foldl (fun s (q, _) => dropQueue s q) s
    -- barriers of other queues that waited for the packets refused (R356)
    let s := settleBarriers (s.pkts.length + 1) s
    -- 5: resources
    let s := dropCopies s ctx
    let s : State := { s with tags := s.tags.filter fun (_, t) => s.blocks.any fun (b, B) => b == t.blk && B.st != .ended
                              chans := s.chans.filter fun (k, _) => k / 2 ^ 32 != ctx }
    s.modCtx ctx fun c => { c with st := if s.ops.any fun (_, o) => o.ctx == ctx then .tearing else .dead }

/-- A fatal fault, or the driver's FATAL answer, ends a context; the host learns of it as protection, 0x06 (R279, R280). -/
def fatalFault (s : State) (ctx : Nat) : State :=
  teardown (s.modCtx ctx fun c => if c.st = .active then { c with cause := some 0x06 } else c) ctx

/-- What follows the checks of an access (R110, R138, R278). -/
def onChk (s : State) (g : Nat) (str : Stream) (c : Chk) (k : List (Nat × Nat) → Out) : Out :=
  match c with
  | .ok locs => k locs
  | .trap cause lanes addr => .next (trapStr s g str cause lanes addr)
  | .hold pages => .next (holdGroup s g str pages)
  | .fatal => .next (match mget s.groups g with
      | some G => fatalFault s (s.ctxOf G)
      | none => s)

end Sys2Proof.Machine
end

