-- ==== Sys2Proof/Machine/Overlay.lean ====
section
/-!
DEFINITION. The instruction store: residency, pins, the working set, loads, eviction, and entering an overlay (R180 to R193).
-/

namespace Sys2Proof.Machine

/-- A group that can hold a pin: neither ended nor saved off its core. -/
def GState.here : GState → Bool
  | .exited => false
  | .killed => false
  | .saved => false
  | _ => true

/-- Copies that one group pins (R182): its tokens, its scalar pc, its runs, and in trap mode the pc that the trap stopped (R192). `pc` false leaves its
scalar pc out. -/
def groupPins (pc : Bool) (G : Group) : List Nat :=
  if !G.st.here then [] else
  (if pc then [G.copy] else []) ++ ((G.trapMode.map (·.copy)).toList) ++ G.runs.map (·.copy) ++
  (G.hreg.filterMap fun (_, h) => if h.st = .done then h.ov.map (·.2) else none)

/-- The copy that a tag's token pins: only a DONE handle is a token (R182). -/
def Tag.pin (t : Tag) : Option Nat := if t.h.st = .done then t.h.ov.map (·.2) else none

/-- Copies that a block holds on a core (R183): pins of its groups, its tokens in scratch words, loads it asked for, its fixed overlays. -/
def blockHolds (s : State) (b core : Nat) (without : Option Nat) : List Nat :=
  let gs := s.groups.filter fun (_, G) => G.blk == b && G.core == core
  let pins := gs.flatMap fun (g, G) => groupPins (without != some g) G
  let toks := s.tags.filterMap fun (_, t) => if t.blk == b && t.core == core then t.pin else none
  let fixed := ((mget s.blocks b).map fun B => B.fixed.filterMap fun f => if f.1 == core then some f.2.2 else none).getD []
  let loads := s.copies.filterMap fun (k, c) =>
    if c.core == core && c.waiters.any (fun w => match w with
      | .handle g _ => (gs.map (·.1)).contains g
      | .entry g => (gs.map (·.1)).contains g
      | .fixed b' => b' == b
      | .preload _ => false) then some k else none
  (pins ++ toks ++ fixed ++ loads).foldl insNat []

def copySlots (s : State) (k : Nat) : Nat := ((mget s.copies k).map fun c => slotsOf c.ent).getD 0

def sumSlots (s : State) (ks : List Nat) : Nat := (ks.map (copySlots s)).foldl (· + ·) 0

/-- A copy is pinned (R182); a waiter that has yet to enter holds it too (R180). -/
def pinned (s : State) (k : Nat) : Bool :=
  s.groups.any (fun (_, G) => (groupPins true G).contains k) ||
  s.tags.any (fun (_, t) => t.pin == some k) ||
  s.blocks.any (fun (b, B) => B.fixed.any (·.2.2 == k) && B.st != .ended && s.groups.any fun (_, G) => G.blk == b && G.st.here) ||
  ((mget s.copies k).map fun c => !c.waiters.isEmpty).getD false

/-- A library overlay's trailer as a load reads it (R177): its digest, the translation that fails, or an uncorrectable error. -/
inductive Trailer where
  | digest (d : List Byte)
  | fault (va : Nat) (r : TrRes)
  | poison
  deriving DecidableEq, Repr

/-- Reads the digest and the signature of a library overlay. -/
def readTrailer (s : State) (ctx core : Nat) (e : OvEntry) : Trailer :=
  let a := e.image + (4 * e.s + 12 * e.l + 63) / 64 * 64
  (List.range 128).foldl (fun t i =>
    match t with
    | .digest d =>
      match (if 2 ^ 48 ≤ a + i then TrRes.prot else translate s ctx core none (a + i) { r := true, w := false }) with
      | .ok pa => if s.poison.contains (pa / 64) then .poison else .digest (if i < 64 then d ++ [s.byte pa] else d)
      | r => .fault (a + i) r
    | t => t) (.digest [])

/-- The identity of an overlay: a library overlay's digest stands in its trailer (R177, R190, R191). -/
def ovId (s : State) (ctx core : Nat) (e : OvEntry) : OvId :=
  if e.lib then (match readTrailer s ctx core e with
    | .digest d => .lib d
    | _ => .unread ctx e.image e.s e.l)
  else .tenant ctx e.image e.s e.l

/-- A copy of an overlay on a core. -/
def findCopy (s : State) (core : Nat) (id : OvId) : Option (Nat × OvCopy) := s.copies.find? fun (_, c) => c.core == core && c.id == id

def freeSlots (s : State) (core : Nat) : List Nat :=
  let used := s.copies.flatMap fun (_, c) => if c.core == core then c.slots else []
  (List.range Config.storeSlots).filter fun i => !used.contains i

/-- Slot quota of an interface on a core (R189). -/
def slotQuota (s : State) (vif core : Nat) : Nat := ((mget s.vifs vif).map fun v => v.quota.slots.getD core 0).getD 0

/-- Interfaces with a block that holds a copy (R189), and those whose preload waits for it. -/
def holders (s : State) (k : Nat) (c : OvCopy) : List Nat :=
  (s.blocks.foldl (fun l (b, B) =>
    if (blockHolds s b c.core none).contains k then (match mget s.launches B.launch with
      | some L => insNat l L.vif
      | none => l) else l) []) |> fun l => c.waiters.foldl (fun l w => match w with
        | .preload v => insNat l v
        | _ => l) l

/-- Resident slots on a core that are charged to an interface (R188, R189); `loads`: those of its loads as well. -/
def vifSlots (s : State) (vif core : Nat) (loads : Bool := false) : Nat :=
  (s.copies.map fun (_, c) => if c.core == core && (loads || !c.loading) && c.vifs.contains vif then slotsOf c.ent else 0).foldl (· + ·) 0

/-- Whether copy `x` is evicted before copy `y`: over quota first, then longest unused, then lowest slot (R188). The quota is the one now in force, also for copies of
launches admitted before it changed: R188 and R281 do not say which (DESIGN CHOICE, log 89). -/
def evictBefore (s : State) (x y : OvCopy) : Bool :=
  let above (c : OvCopy) : Bool := c.vifs.any fun v => decide (slotQuota s v c.core < vifSlots s v c.core)
  if above x != above y then above x
  else if x.used != y.used then decide (x.used < y.used) else decide (x.slots.headD 0 < y.slots.headD 0)

/-- Evicts RESIDENT copies one at a time until `n` slots are free (R188). -/
def evict : Nat → State → Nat → Nat → State
  | 0, s, _, _ => s
  | f + 1, s, core, n =>
    if n ≤ (freeSlots s core).length then s else
    let able := s.copies.filter fun (k, c) => c.core == core && !c.loading && !pinned s k
    match able.foldl (fun (b : Option (Nat × OvCopy)) x => match b with
        | none => some x
        | some y => if evictBefore s x.2 y.2 then some x else b) none with
    | none => s
    | some (k, _) => evict f { s with copies := mdel s.copies k } core n

def State.modCopy (s : State) (k : Nat) (f : OvCopy → OvCopy) : State := { s with copies := mupd s.copies k f }

/-- What an entry of a context's table names. -/
def OvEntry.name (ctx : Nat) (e : OvEntry) : OvName := { ctx := ctx, image := e.image, s := e.s, l := e.l }

/-- The copy of a table entry on a core, if any. A library overlay is known by its digest (R190); the core knows a copy that an entry has led to again by that
entry, and reads no trailer (R185; DESIGN CHOICE, log 80). -/
def copyOf (s : State) (core ctx : Nat) (e : OvEntry) : Option (Nat × OvCopy) :=
  match (if e.lib then s.copies.find? fun (_, c) => c.core == core && c.ent.lib && c.names.contains (e.name ctx) else none) with
  | some x => some x
  | none => findCopy s core (ovId s ctx core e)

/-- A copy was named by an `ovld` or an entry, through a table entry (R188). -/
def touch (s : State) (k ctx : Nat) (e : OvEntry) : State :=
  s.modCopy k fun c => { c with used := s.tick, names := if e.lib && !c.names.contains (e.name ctx) then c.names ++ [e.name ctx] else c.names }

/-- Gives a load its slots if they can be found. -/
def takeSlots (s : State) (k : Nat) (mayEvict : Bool) : State :=
  match mget s.copies k with
  | none => s
  | some c =>
    if !c.slots.isEmpty then s else
    let n := slotsOf c.ent
    let s : State := if mayEvict then evict Config.storeSlots s c.core n else s
    let free := freeSlots s c.core
    if n ≤ free.length then { s with copies := mupd s.copies k fun c => { c with slots := free.take n } } else s

/-- Starts a load, or joins the one under way (R180, R185). -/
def startLoad (s : State) (core ctx : Nat) (e : OvEntry) (w : Waiter) : State × Nat :=
  match copyOf s core ctx e with
  | some (k, _) => ((touch s k ctx e).modCopy k fun c => { c with waiters := c.waiters ++ [w] }, k)
  | none =>
    let (k, s') := s.fresh
    let c : OvCopy :=
      { core := core, id := ovId s ctx core e, ctx := ctx, ent := e, slots := [], loading := true, code := [], got := [], waiters := [w], used := s.tick, vifs := [ctx / 64],
        names := if e.lib then [e.name ctx] else [] }
    (takeSlots { s' with copies := mput s'.copies k c } k true, k)

/-- W of a group's launch (R183). -/
def State.workset (s : State) (G : Group) : Nat := ((s.launch? G).map (·.desc.workset)).getD 0

/-- How entering an overlay goes (R187). -/
inductive Enter where
  | now (copy : Nat)
  | wait (copy : Nat) (s : State)
  | absent

/-- Enters overlay `ov` (R187). The working set counts what the block would hold once the transfer is made. -/
def enter (s : State) (g : Nat) (G : Group) (ov : Nat) : Enter :=
  match (s.table G)[ov]? with
  | none => .absent
  | some e =>
    let ctx := s.ctxOf G
    let held := blockHolds s G.blk G.core (some g)
    let c := copyOf s G.core ctx e
    let extra := match c with
      | some (k, _) => if held.contains k then 0 else slotsOf e
      | none => slotsOf e
    if sumSlots s held + extra > s.workset G then .absent else
    match c with
    | some (k, c) =>
      if !c.loading then .now k
      else if e.auto then let (s, k) := startLoad s G.core ctx e (.entry g); .wait k s
      else .absent
    | none => if e.auto then let (s, k) := startLoad s G.core ctx e (.entry g); .wait k s else .absent

/-- A copy was named by an entry of overlay `ov` (R188). -/
def touchOv (s : State) (G : Group) (ov k : Nat) : State :=
  match (s.table G)[ov]? with
  | some e => touch s k (s.ctxOf G) e
  | none => s

/-- Shared by `sxcall`, `sret` and `stret`: enters, waits for the auto-load, or gives up (R106, R187). `k` gives the state once in the copy,
`popped` the group as it waits. A wait that a trap interrupted asks for its load again. -/
def enterStep (s : State) (g : Nat) (G waiting : Group) (ov off : Nat) (popped : Bool) (k : State → Group → Nat → State) (fail : State → State) : Out :=
  let ask (G : Group) : Out := match enter s g G ov with
    | .now c => .next (k (touchOv s G ov c) { G with wait := .none } c)
    | .wait c s => .next (s.grp g { G with wait := .entering c ov off popped })
    | .absent => .next (fail (s.grp g { G with wait := .none }))
  match G.wait with
  | .entryFailed => .next (fail (unwait (s.grp g { G with wait := .none }) g))
  | .entering c _ _ _ =>
    match (mget s.copies c).filter fun cp => cp.waiters.contains (.entry g) with
    | some cp => if cp.loading then .next s else .next (k (touchOv (unwait s g) G ov c) { G with wait := .none } c)
    | none => ask G
  | _ => ask waiting

/-! ### ovld, ovrel (R185, R186) -/

/-- A group observes that an engine operation has ended: its later accesses follow every byte that it wrote (R242). -/
def Group.observe (G : Group) (x : Handle) : Group :=
  match x.op with
  | some k => { G with ord := G.ord.follow [k] }
  | none => G

/-- A group that waited for a handle, and does no longer, has observed its operation's end (R39, R242). -/
def Group.unblock (G : Group) (x : Handle) : Group := if G.wait = .onHandle then { G.observe x with wait := .none } else G

/-- A handle that is PENDING makes an instruction that reads or overwrites it wait (R39, R151); one that has waited observes the end (R242). -/
def whenHandle (s : State) (h : HReg) (k : State → Nat → Group → Handle → Out) : Out :=
  withScalar s fun g G =>
    let x := G.rh h.toNat
    if x.st = .pending then .next (s.grp g { G with wait := .onHandle })
    else
      let s := if G.wait = .onHandle then s.grp g (G.unblock x) else s
      k s g (G.unblock x) x

def execOvld (h : HReg) (a : SReg) (s : State) : Out :=
  whenHandle s h fun s g G _ =>
    let done (s : State) (G : Group) (x : Handle) : Out := .next (s.grp g ((G.wh h.toNat x).adv 1))
    let x := (G.rs a).toNat
    match (s.table G)[x]? with
    | none => done s G { st := .failed 1, ov := some (x, 0) }
    | some e =>
      if x > 255 then done s G { st := .failed 1, ov := some (x, 0) } else
      -- the old token is given up first; the overlay stays pinned when it is the same one
      let G' := G.wh h.toNat { st := .empty }
      let s' := s.grp g G'
      let ctx := s.ctxOf G
      let held := blockHolds s' G.blk G.core none
      let c := copyOf s G.core ctx e
      let extra := match c with
        | some (k, _) => if held.contains k then 0 else slotsOf e
        | none => slotsOf e
      if sumSlots s' held + extra > s.workset G then
        done (match c with
          | some (k, _) => touch s k ctx e
          | none => s) G' { st := .failed 5, ov := some (x, 0) }
      else
      match c with
      | some (k, c) =>
        if !c.loading then done (touch s k ctx e) G' { st := .done, ov := some (x, k) }
        else let (s, k) := startLoad s G.core ctx e (.handle g h.toNat); done s G' { st := .pending, ov := some (x, k) }
      | none => let (s, k) := startLoad s' G.core ctx e (.handle g h.toNat); done s G' { st := .pending, ov := some (x, k) }

def execOvrel (h : HReg) (s : State) : Out :=
  whenHandle s h fun s g G x =>
    if x.ov.isNone then .next (trapS s g 0x0B) else .next (s.grp g ((G.wh h.toNat { st := .empty }).adv 1))

end Sys2Proof.Machine
end

