-- ==== Sys2Proof/Machine/ScalarCtl.lean ====
section
/-!
DEFINITION. Control transfer, lane runs, waits, special registers and software traps of the scalar stream
(R71 to R78, R93, R103 to R108, R114, R117, R307, R337 to R339).
-/

namespace Sys2Proof.Machine

/-- The overlay entry that the scalar pc runs in. -/
def curOv (s : State) (G : Group) : Option OvEntry := (s.table G)[G.ov]?

/-- The target of a scalar branch, if it lies in the current section (R104). -/
def branchTo (s : State) (G : Group) (off : Int) : Option Nat :=
  let t := (G.pc : Int) + off
  if 0 ≤ t && decide (t < scalarLen s G) then some t.toNat else none

/-- A branch is taken (R53). -/
def taken (G : Group) (g : CReg) (n : Bool) : Bool := guardOk G g != n

def execSbr (g : CReg) (n : Bool) (off : BitVec 20) (s : State) : Out :=
  withScalar s fun i G =>
    match branchTo s G off.toInt with
    | none => .next (trapS s i 0x01)
    | some t => .next (s.grp i (if taken G g n then { G with pc := t } else G.adv 1))

/-- Pushes a return entry (R103). -/
def Group.push (G : Group) (off : Nat) : Group := { G with calls := (G.ov, off) :: G.calls }

def execScall (g : CReg) (n : Bool) (off : BitVec 20) (s : State) : Out :=
  withScalar s fun i G =>
    match branchTo s G off.toInt with
    | none => .next (trapS s i 0x01)
    | some t =>
      if !taken G g n then .next (s.grp i (G.adv 1))
      else if G.calls.length ≥ Config.callDepth then .next (trapS s i 0x01)
      else .next (s.grp i { G.push (G.pc + 1) with pc := t })

def execSjmpr (a : SReg) (g : CReg) (s : State) : Out :=
  withScalar s fun i G =>
    if !guardOk G g then .next (s.grp i (G.adv 1))
    else if (G.rs a).toNat < 4096 && decide ((G.rs a).toNat < scalarLen s G) then .next (s.grp i { G with pc := (G.rs a).toNat })
    else .next (trapS s i 0x01)

def execSxcall (ov : BitVec 8) (entry : BitVec 12) (s : State) : Out :=
  withScalar s fun i G =>
    match (s.table G)[ov.toNat]? with
    | none => .next (trapS s i 0x01)
    | some e =>
      if entry.toNat ≥ e.s || G.calls.length ≥ Config.callDepth then .next (trapS s i 0x01)
      else enterStep s i G G ov.toNat entry.toNat false
        (fun s G c => s.grp i { G.push (G.pc + 1) with ov := ov.toNat, copy := c, pc := entry.toNat })
        (fun s => trapS s i 0x0A)

/-- `sret` pops before it enters; while it waits for an auto-load the entry is kept aside (R106, R187). -/
def execSret (g : CReg) (s : State) : Out :=
  withScalar s fun i G =>
    let go (ov off : Nat) (popped : Group) : Out :=
      enterStep s i G popped ov off true (fun s G c => s.grp i { G with ov := ov, copy := c, pc := off }) (fun s => trapS s i 0x0A)
    match G.wait with
    | .entering _ ov off _ => go ov off G
    | .entryFailed => go G.ov G.pc G
    | _ =>
      if !guardOk G g then .next (s.grp i (G.adv 1)) else
      match G.calls with
      | [] => .next (trapS s i 0x01)
      | (ov, off) :: rest =>
        if ov = G.ov then .next (s.grp i { G with calls := rest, pc := off })
        else go ov off { G with calls := rest }

def execSloop (d : SReg) (imm : BitVec 10) (s : State) : Out :=
  withScalar s fun i G =>
    match branchTo s G imm.toInt with
    | none => .next (trapS s i 0x01)
    | some t =>
      let x := G.rs d - 1
      let G := G.ws d x
      .next (s.grp i (if x ≠ 0 then { G with pc := t } else G.adv 1))

/-- A group leaves for EXITING (R71); in trap mode the frozen lane state is discarded first (R336), and an open section closes (R303). -/
def exitGroup (s : State) (g : Nat) (G : Group) : State :=
  let G := if G.trapMode.isSome then G.dropRuns else G
  settleRuns (s.grp g { G with st := .exiting, trapMode := none, sect := none, wait := .none })

/-- `sexit` (R71). When it runs again after `stret` because its group was taken back from EXITING, its guard is not asked again: once it has executed,
no instruction after it issues. -/
def execSexit (g : CReg) (s : State) : Out :=
  withScalar s fun i G => .next (if G.wait = .leaving || guardOk G g then exitGroup s i G else s.grp i (G.adv 1))

def execSyield (g : CReg) (s : State) : Out :=
  scalarStep s 1 g fun G => { G with yieldAt := some (s.die (dieOf G.core)).clk }

def execSprog (a : SReg) (g : CReg) (s : State) : Out :=
  withScalar s fun i G =>
    if !guardOk G g then .next (s.grp i (G.adv 1))
    else if (G.rs a).toNat ≥ 2 ^ 32 then .next (trapS s i 0x01)
    else .next ((s.grp i (G.adv 1)).modBlk G.blk fun b => { b with progress := some (G.rs a).toNat })

/-! ### Lane runs (R73 to R78) -/

/-- Queues a run, or waits while the queue is full or its drain unit cannot be granted (R73, R207). -/
def queueRun (s : State) (g : Nat) (G : Group) (off : Nat) : Out :=
  if G.runs.length ≥ Config.runQueueLen then .next s else
  match takeUnits s g G 1 1 with
  | none => .next s
  | some (s, G, unit) =>
    let (k, s) := s.fresh
    let r : Run := { key := k, ov := G.ov, copy := G.copy, off := off, ord := { before := G.ord.earlier, fences := G.ord.fences, mine := G.ord.mine } }
    let s : State := match unit, s.blk? G with
      | some (ph, p), some b => { s with runUnits := s.runUnits ++ [{ run := k, launch := b.launch, ph := ph, phase := p }] }
      | _, _ => s
    let G := { G with runs := G.runs ++ [r] }
    .next (settleRuns (s.grp g ((if G.splits.isEmpty then startRun Config.runQueueLen G else G).adv 1)))

def execLrun (off : BitVec 12) (s : State) : Out :=
  withScalar s fun g G =>
    if off.toNat ≥ ((curOv s G).map (·.l)).getD 0 || G.trapMode.isSome then .next (trapS s g 0x01) else queueRun s g G off.toNat

def execLrunr (a : SReg) (gd : CReg) (s : State) : Out :=
  withScalar s fun g G =>
    if !guardOk G gd then .next (s.grp g (G.adv 1))
    else if (G.rs a).toNat ≥ 4096 || (G.rs a).toNat ≥ ((curOv s G).map (·.l)).getD 0 || G.trapMode.isSome then .next (trapS s g 0x01)
    else queueRun s g G (G.rs a).toNat

def execLwait (gd : CReg) (s : State) : Out :=
  withScalar s fun g G =>
    if !guardOk G gd then .next (s.grp g (G.adv 1))
    else if G.trapMode.isSome then .next (trapS s g 0x01)
    else if !G.runs.isEmpty then .next s
    else .next (s.grp g ({ G with ord := { G.ord.follow G.laneDone with cov := sunion G.ord.cov G.laneRan } }.adv 1))

def execSvote (d : SReg) (q : BitVec 2) (gd : CReg) (s : State) : Out :=
  withScalar s fun g G =>
    if !guardOk G gd then .next (s.grp g (G.adv 1))
    else if G.trapMode.isSome then .next (trapS s g 0x01)
    else .next (s.grp g ((G.ws d (G.vote.extractLsb' (64 * q.toNat) 64)).adv 1))

def execSwait (ld st cp tl : BitVec 6) (s : State) : Out :=
  withScalar s fun g G => .next (if G.atMost ld st cp tl then s.grp g ({ G with ord := G.ord.follow (tilesOver s G tl) }.adv 1) else s)

/-! ### Special registers (R40, R41, R117) -/

/-- Register `j` of a lane mask (R40). -/
def maskPart (m : Mask) (j : Nat) : Word := m.extractLsb' (64 * j) 64

def setMaskPart (m : Mask) (j : Nat) (x : Word) : Mask :=
  (m &&& ~~~((maskPart Mask.all 0).setWidth 256 <<< (64 * j))) ||| (x.setWidth 256 <<< (64 * j))

/-- Lowest Chegon level among the HITCHED dies (R40, R368); 0 with none. -/
def comlevel (s : State) : Nat :=
  (s.dies.filter (·.st = .hitched)).foldl (fun m d => if m = 0 then levelOf d.gen else min m (levelOf d.gen)) 0

/-- The id of the activity that a group belongs to; 0 if none (R315, R324). -/
def State.actOf (s : State) (G : Group) : Option (Nat × Activity) :=
  let k := match G.comp with
    | some (a, _) => some a
    | none => (s.launch? G).bind (·.act)
  k.bind fun k => (mget s.acts k).map fun A => (k, A)

/-- The value of a special register; `none` for an index that R40 does not list. -/
def special (s : State) (G : Group) (idx : Nat) : Option Word :=
  let nat (n : Nat) : Option Word := some (BitVec.ofNat 64 n)
  let L := s.launch? G
  let comp := G.comp.isSome
  if idx < 4 then some (maskPart G.laneact idx)
  else if idx < 8 then some (maskPart G.faultmask (idx - 4))
  else if idx < 12 then some (maskPart G.lanedone (idx - 8))
  else match idx with
    | 0x010 => nat (G.trap.cause.toNat + 2 ^ 16 * G.trap.code.toNat)
    | 0x011 => nat G.trap.lane.toNat
    | 0x012 => nat G.trap.ov
    | 0x013 => nat G.trap.off
    | 0x014 => some G.trap.addr
    | 0x015 => nat G.trap.split
    | 0x020 => some ((L.map (·.id)).getD 0)
    | 0x021 => nat (if comp then 0 else ((s.blk? G).map (·.lin)).getD 0)
    | 0x022 => nat (if comp then 1 else (L.map (·.blockcnt)).getD 0)
    | 0x023 => nat G.idx
    | 0x024 => nat (if comp then 1 else (L.map (·.desc.groups)).getD 0)
    | 0x025 => some ((L.map (·.desc.args)).getD 0)
    | 0x026 => nat ((s.blk? G).map (·.scrOff) |>.getD 0)
    | 0x030 => nat (dieOf G.core)
    | 0x031 => nat (s.die (dieOf G.core)).gen
    | 0x032 => nat (comlevel s)
    | 0x033 => nat (G.core % 16)
    | 0x034 => nat (G.core % 16 / 4)
    | 0x040 => some (maskPart G.memmask 0)
    | 0x041 => some (maskPart G.memmask 1)
    | 0x042 => some (maskPart G.memmask 2)
    | 0x043 => some (maskPart G.memmask 3)
    | 0x050 => nat G.wrapflag.toNat
    | 0x060 => nat (((s.actOf G).map (·.2.id.toNat)).getD 0)
    | 0x070 => nat G.n
    | 0x080 => nat ((((mget s.ctxs (s.ctxOf G)).map fun c => c.flags.getLsbD 0).getD false).toNat)
    | _ => none

/-- Writes a special register that may be written (R40, R41). -/
def setSpecial (G : Group) (idx : Nat) (x : Word) : Option Group :=
  if 4 ≤ idx && idx < 8 then some { G with faultmask := setMaskPart G.faultmask (idx - 4) x }
  else if 8 ≤ idx && idx < 12 then some { G with lanedone := setMaskPart G.lanedone (idx - 8) x }
  else if 0x40 ≤ idx && idx < 0x44 then some { G with memmask := setMaskPart G.memmask (idx - 0x40) x }
  else none

def execSgetx (d : SReg) (idx : BitVec 10) (s : State) : Out :=
  withScalar s fun g G =>
    match special s G idx.toNat with
    | some x => .next (s.grp g ((G.ws d x).adv 1))
    | none => .next (trapS s g 0x01)

def execSsetx (a : SReg) (idx : BitVec 10) (s : State) : Out :=
  withScalar s fun g G =>
    match setSpecial G idx.toNat (G.rs a) with
    | some G' => .next (s.grp g (G'.adv 1))
    | none => .next (trapS s g 0x01)

/-! ### Traps and breakpoints (R337 to R339) -/

def execStrap (code : BitVec 10) (s : State) : Out :=
  withScalar s fun g _ => .next (trapS s g 0x10 0 code)

/-- Words of the scalar instruction at an offset of a group's overlay (R44, R338). -/
def wordsAt (s : State) (G : Group) (ov copy off : Nat) : Nat :=
  match (s.code G ov copy).bind fun c => c.scalarWord off with
  | some w => if w.extractLsb' 24 8 = 0x48 || w.extractLsb' 24 8 = 0x49 || w.extractLsb' 24 8 = 0xFF then 2 else 1
  | none => 1

def execStret (skip : Bool) (s : State) : Out :=
  withScalar s fun g G =>
    match G.trapMode with
    | none => .next (trapS s g 0x01)
    | some m =>
      if G.trap.cause = 0x0F then .next (exitGroup s g G) else
      let lane := G.trap.lane
      let ov := if lane then m.ov else G.trap.ov
      enterStep s g G G ov 0 false
        (fun s G c =>
          let G := if skip && lane then G.clearDone G.trap.split else G
          if lane then
            let s := trapReturn s g G m c G.trap.off
            if skip then s.modGrp g fun G => G.goto G.trap.split (G.trap.off + 1) else s
          else trapReturn s g G m c (if skip then G.trap.off + wordsAt s G G.trap.ov c G.trap.off else G.trap.off))
        (fun s => trapS s g 0x0A)

def execSbrk (gd : CReg) (s : State) : Out :=
  withScalar s fun g G =>
    if !guardOk G gd then .next (s.grp g (G.adv 1))
    else if ((mget s.ctxs (s.ctxOf G)).map (·.debug)).getD false then .next (interruptFe (s.grp g { G.adv 1 with stopWanted := true }) g)
    else .next (trapS s g 0x11)

end Sys2Proof.Machine
end

