-- ==== Sys2Proof/Machine/ScalarMem.lean ====
section
/-!
DEFINITION. Scalar loads, stores, atomics and fences (R109 to R113).
-/

namespace Sys2Proof.Machine

/-- The order that an access carries (R233): its scope, whether it acquires, whether it releases. -/
structure Carries where
  scope : Scope := .group
  acq : Bool := false
  rel : Bool := false
  deriving DecidableEq, Repr

/-- Issues a memory operation of the scalar stream: counters rise, the pc moves past `words` words. Every later access follows an acquire. -/
def issueScalar (s : State) (g : Nat) (G : Group) (words : Nat) (m : MemOp) (ld st : Bool) (deps : List Nat) (c : Carries) (page : Nat) : State :=
  let o : Op := { newOp s g G .scalar G.ord deps (.mem m) with
    ldc := ld, stc := st, perf := if m.kind = .load then [] else fencePerf s G.ord, rel := if c.rel then unperf s (scalarEarlier s G) else [], scope := c.scope, acq := c.acq, relse := c.rel }
  let (k, s) := addOp (fillTlb s (s.ctxOf G) G.core [page]) g o
  s.modGrp g fun G =>
    let G := (G.rise ld st false false).adv words
    if c.acq then { G with ord := G.ord.gain { ops := [k] } } else G

/-- The checks of a scalar access (R110); lanes play no part. -/
def scalarChk (s : State) (G : Group) (ea : Word) (size : Nat) (need : Need) (kind : Nat) : Chk :=
  chkGlobal s (s.ctxOf G) G.core [(0, ea)] size need kind

/-- A scalar load of a type's size, zero-extended into s_d (R109). -/
def loadStep (s : State) (ty : Ty) (d a : SReg) (imm : BitVec 10) : Out :=
  withScalar s fun g G =>
    let ea := G.rs a + imm10 imm
    onChk s g .scalar (scalarChk s G ea (accSize ty) { r := true, w := false } 0) fun locs =>
      if !G.roomFor true false false false then .next s else
      let loc := (locs.headD (0, 0)).2
      .next (issueScalar s g G 1 { kind := .load, ty := ty, dst := .s d.toNat, acc := [{ lane := 0, loc := loc, ea := ea }], todo := 0, lo := 1, hi := 0 }
        true false (accDeps s G.ord [loc] (accSize ty)) {} (ea.toNat / 4096))

/-- A scalar store of the low bytes of s_d, read at issue (R109). -/
def storeStep (s : State) (ty : Ty) (d a : SReg) (imm : BitVec 10) : Out :=
  withScalar s fun g G =>
    let ea := G.rs a + imm10 imm
    onChk s g .scalar (scalarChk s G ea (accSize ty) { r := false, w := true } 1) fun locs =>
      if !G.roomFor false true false false then .next s else
      let loc := (locs.headD (0, 0)).2
      .next (issueScalar s g G 1 { kind := .store, ty := ty, dst := .none, acc := [{ lane := 0, loc := loc, ea := ea, x := G.rs d }], todo := 1, lo := 0, hi := 0 }
        false true (accDeps s G.ord [loc] (accSize ty)) {} (ea.toNat / 4096))

def execSldb (d a : SReg) (imm : BitVec 10) (s : State) : Out := loadStep s .n8 d a imm
def execSldh (d a : SReg) (imm : BitVec 10) (s : State) : Out := loadStep s .n16 d a imm
def execSldw (d a : SReg) (imm : BitVec 10) (s : State) : Out := loadStep s .n32 d a imm
def execSldd (d a : SReg) (imm : BitVec 10) (s : State) : Out := loadStep s .n64 d a imm
def execSstb (d a : SReg) (imm : BitVec 10) (s : State) : Out := storeStep s .n8 d a imm
def execSsth (d a : SReg) (imm : BitVec 10) (s : State) : Out := storeStep s .n16 d a imm
def execSstw (d a : SReg) (imm : BitVec 10) (s : State) : Out := storeStep s .n32 d a imm
def execSstd (d a : SReg) (imm : BitVec 10) (s : State) : Out := storeStep s .n64 d a imm

/-- `satom` and `scas` (R111): two words, guarded. A package or system release waits for earlier stores and atomics. -/
def atomStep (s : State) (kind : MKind) (d a : SReg) (gd : CReg) (scope : Scope) (order : Order) (x y : Group → Word) : Out :=
  withScalar s fun g G =>
    if !guardOk G gd then .next (s.grp g (G.adv 2)) else
    let ea := G.rs a
    onChk s g .scalar (scalarChk s G ea 8 { r := true, w := true } 2) fun locs =>
      if !G.roomFor (d != 0) true false false then .next s
      else if ordRel order && scopeWide scope && !(unacked s (scalarEarlier s G)).isEmpty then .next s else
      let s := barAudit s G
      let loc := (locs.headD (0, 0)).2
      .next (issueScalar s g G 2
        { kind := kind, ty := .n64, dst := if d = 0 then .none else .s d.toNat, acc := [{ lane := 0, loc := loc, ea := ea, x := x G, y := y G }], todo := 1,
          lo := if d = 0 then 0 else 1, hi := 0 }
        (d != 0) true (accDeps s G.ord [loc] 8) { scope := scope, acq := ordAcq order, rel := ordRel order } (ea.toNat / 4096))

def execSatom (d a b : SReg) (g : CReg) (scope : Scope) (order : Order) (s : State) : Out :=
  atomStep s (.atom .add) d a g scope order (fun G => G.rs b) (fun _ => 0)

def execScas (d a b : SReg) (g : CReg) (scope : Scope) (order : Order) (e : SReg) (s : State) : Out :=
  atomStep s .cas d a g scope order (fun G => G.rs e) (fun G => G.rs b)

/-- The accesses that a fence of the scalar stream orders before itself: the stream's own, and those of the runs that an `lwait` has covered (R113). -/
def Ord.fenced (o : Ord) : List Nat := sunion o.own o.cov

/-- The stream's order after the acquire part of a fence: the reads before it take the acquire's place (R236). -/
def Ord.acquireFence (s : State) (o : Ord) (who : Agent) (sc : Scope) : Ord :=
  o.gain { acq := (readsOf s o.fenced).map fun k => { op := k, scope := sc, who := who } }

/-- Sequential fences that come first and whose instances reach this one, as its own reaches them (R240). -/
def seqBefore (s : State) (who : Agent) (sc : Scope) : Earlier :=
  (s.seqs.filter fun f => reaches f.scope f.who who && reaches sc who f.who).foldl (fun e f => e.join f.earlier) {}

/-- `sfence` (R113, R235, R236, R240). -/
def execSfence (scope : Scope) (kind : FenceKind) (s : State) : Out :=
  withScalar s fun g G =>
    if kind != .acq && scopeWide scope && !(unacked s (scalarEarlier s G)).isEmpty then .next s else
    let who := G.agent g
    let acq := G.ord.acquireFence s who scope
    match kind with
    | .acq => .next (s.grp g ({ G with ord := acq }.adv 1))
    | .rel => .next (s.grp g ({ G with ord := G.ord.fence scope G.ord.earlier }.adv 1))
    | .acqRel => .next (s.grp g ({ G with ord := acq.fence scope acq.earlier }.adv 1))
    | .seq =>
      -- a sequential fence also orders the writes that its group has read
      let mine : Earlier := { acq.earlier with seen := sunion acq.earlier.seen acq.fenced }
      let all := mine.join (seqBefore s who scope)
      let s : State := { s with seqs := s.seqs ++ [{ who := who, scope := scope, earlier := mine }] }
      .next (s.grp g ({ G with ord := (acq.gain all).fence scope all }.adv 1))

end Sys2Proof.Machine
end

