-- ==== Sys2Proof/Machine/LaneMem.lean ====
section
/-!
DEFINITION. Lane memory instructions (R134 to R145): addresses, plain and remote accesses, full/empty words, vector atomics.
-/

namespace Sys2Proof.Machine

/-- Registers that an address mode names (R135). -/
def modeRegs (global : Bool) : AMode → List Nat
  | .contig _ => []
  | .indexed _ va => [va.toNat]
  | .pointer va => if global then [va.toNat, va.toNat + 1] else [va.toNat]

/-- EA_i in 64 bits for global addresses, in 32 bits for scratch (R135). -/
def laneEA (G : Group) (global : Bool) (size : Nat) (mode : AMode) (off : BitVec 32) (i : Nat) : Word :=
  let full : Word := match mode with
    | .contig sb => G.rs sb + off.signExtend 64 + BitVec.ofNat 64 (size * i)
    | .indexed sb va => G.rs sb + off.signExtend 64 + (lane (G.rv va.toNat) i).signExtend 64
    | .pointer va => (if global then lane (G.rv (va.toNat + 1)) i ++ lane (G.rv va.toNat) i else (lane (G.rv va.toNat) i).setWidth 64) + off.signExtend 64
  if global then full else (full.truncate 32).setWidth 64

def laneEAs (G : Group) (global : Bool) (size : Nat) (mode : AMode) (off : BitVec 32) (m : Mask) : List (Nat × Word) :=
  (lanesOf m).map fun i => (i, laneEA G global size mode off i)

/-- Spaces of the plain memory instructions (R137). -/
inductive Space where
  | global | own | cluster
  deriving DecidableEq, Repr

/-- The checks of R138 in each space. -/
def laneChk (s : State) (G : Group) (sp : Space) (eas : List (Nat × Word)) (size : Nat) (need : Need) (kind : Nat) : Chk :=
  match sp with
  | .global => chkGlobal s (s.ctxOf G) G.core eas size need kind
  | .own => chkScratch s (s.ctxOf G) G.core G.blk false none eas size need.w
  | .cluster => chkScratch s (s.ctxOf G) G.core G.blk true none eas size need.w

/-- Pages that some global addresses touch. -/
def eaPages (sp : Space) (eas : List (Nat × Word)) : List Nat :=
  if sp = .global then eas.foldl (fun l (_, a) => insNat l (a.toNat / 4096)) [] else []

/-- The address of a lane's access. -/
def addrOf (eas : List (Nat × Word)) (i : Nat) : Word := ((eas.find? (·.1 == i)).map (·.2)).getD 0

/-- Issues a lane memory operation: counters rise; every later access of the split follows an acquire. -/
def issueLane (s : State) (g n : Nat) (G : Group) (S : Split) (m : MemOp) (ld st : Bool) (deps : List Nat) (c : Carries) (pages : List Nat) : Nat × State :=
  let o : Op := { newOp s g G (.split n) S.ord deps (.mem m) with
    ldc := ld, stc := st, perf := if m.kind = .load then [] else fencePerf s S.ord, rel := if c.rel then unperf s (splitEarlier s S) else [], scope := c.scope, acq := c.acq, relse := c.rel }
  let (k, s) := addOp (fillTlb s (s.ctxOf G) G.core pages) g o
  (k, s.modGrp g fun G =>
    let G := G.rise ld st false false
    if c.acq then { G with splits := mupd G.splits n fun S => { S with ord := S.ord.gain { ops := [k] } } } else G)

/-- The split advances after an issue that changed the state. -/
def advanceLane (s : State) (g n : Nat) : State :=
  match mget s.groups g with
  | some G => afterLane s g n G
  | none => s

/-- Plain loads and stores (R137, R138). -/
def plainStep (s : State) (w : MemL) (sp : Space) (store : Bool) : Out :=
  laneIssue s w.g false (tyRegs w.ty w.d ++ modeRegs (sp = .global) w.mode) [] fun g G n S =>
    let act := active G S w.g
    let size := accSize w.ty
    let eas := laneEAs G (sp = .global) size w.mode w.off act
    onChk s g (.split n) (laneChk s G sp eas size { r := !store, w := store } store.toNat) fun locs =>
      if !G.roomFor (!store) store false false then .next s
      else if act = 0 then .next (advanceLane s g n) else
      let x := G.el w.ty w.d.toNat
      let m : MemOp :=
        { kind := if store then .store else .load, ty := w.ty, dst := if store then .none else .v w.d.toNat,
          acc := locs.map fun (i, l) => { lane := i, loc := l, ea := addrOf eas i, x := if store then BitVec.ofNat 64 (x i) else 0 },
          todo := if store then act else 0, lo := if store then 0 else act, hi := if store || !w.ty.wide then 0 else act }
      let deps := accDeps s S.ord (locs.map (·.2)) size
      .next (advanceLane (issueLane s g n G S m (!store) store deps {} (eaPages sp eas)).2 g n)

def execVld (w : MemL) (s : State) : Out := plainStep s w .global false
def execVst (w : MemL) (s : State) : Out := plainStep s w .global true
def execVlds (w : MemL) (s : State) : Out := plainStep s w .own false
def execVsts (w : MemL) (s : State) : Out := plainStep s w .own true
def execVldx (w : MemL) (s : State) : Out := plainStep s w .cluster false
def execVstx (w : MemL) (s : State) : Out := plainStep s w .cluster true

/-- `vprf` (R145): no effect that a program can see; its pages may be cached. -/
def execVprf (w : MemL) (s : State) : Out :=
  laneIssue s w.g false (modeRegs true w.mode) [] fun g G n S =>
    let eas := laneEAs G true (accSize w.ty) w.mode w.off (active G S w.g)
    .next (advanceLane (fillTlb s (s.ctxOf G) G.core (eaPages .global (eas.filter fun e => decide (e.2.toNat < 2 ^ 48)))) g n)

/-- Full/empty instructions (R140, R141). The split stays until every active lane has finished; FULL_EMPTY_WAIT_DONE finishes one lane. -/
def feStep (s : State) (w : MemL) (kind : MKind) : Out :=
  laneIssue s w.g false (tyRegs w.ty w.d ++ modeRegs false w.mode) [] fun g G n S =>
    match S.fe with
    | some k =>
      if ((opMem s k).map (·.more)).getD false then .next s
      else .next (advanceLane (s.modGrp g fun G => G.clearDone n) g n)
    | none =>
      let put := kind == .fePut
      let act := active G S w.g &&& ~~~G.lanedone
      let eas := laneEAs G false 4 w.mode w.off act
      onChk s g (.split n) (laneChk s G .own eas 4 { r := !put, w := put } 0) fun locs =>
        if !G.roomFor (!put) put false false then .next s
        else if act = 0 then .next (advanceLane (s.modGrp g fun G => G.clearDone n) g n) else
        let s := barAudit s G
        let x := G.el w.ty w.d.toNat
        let m : MemOp :=
          { kind := kind, ty := w.ty, dst := if put then .none else .v w.d.toNat,
            acc := locs.map fun (i, l) => { lane := i, loc := l, ea := addrOf eas i, x := BitVec.ofNat 64 (x i) }, todo := act, lo := 0, hi := 0, more := true }
        let (k, s) := issueLane s g n G S m (!put) put (accDeps s S.ord (locs.map (·.2)) 4)
          { scope := .block, acq := !put, rel := put } []
        .next (s.modGrp g fun G => { G with splits := mupd G.splits n fun S => { S with fe := some k } })

def execVldsf (w : MemL) (s : State) : Out := feStep s w .feTake
def execVstsf (w : MemL) (s : State) : Out := feStep s w .fePut
def execVldsp (w : MemL) (s : State) : Out := feStep s w .feKeep

/-! ### Vector atomics (R142 to R144) -/

/-- A page's trap names the lowest of its failing lanes' addresses (R144). -/
def lowestAddr (eas : List (Nat × Word)) : Chk → Chk
  | .trap c m a => .trap c m (least m a)
  | .hold ps => .hold (ps.map fun h => { h with addr := least h.lanes h.addr })
  | c => c
where
  least (m : Mask) (a : Word) : Word := eas.foldl (fun b e => if m.getLsbD e.1 && decide (e.2.toNat < b.toNat) then e.2 else b) a

/-- The pages of some addresses, by first byte and size, in ascending order (R144). -/
def atomPages (s : State) (G : Group) (eas : List (Nat × Word)) : List (Nat × Nat) :=
  let m : SMap Nat := eas.foldl (fun m (_, a) =>
    if m.any fun p => decide (p.1 ≤ a.toNat) && decide (a.toNat < p.1 + p.2) then m
    else let (lo, n) := pageAt s (s.ctxOf G) G.core a.toNat; mput m lo n) []
  m

/-- Takes the lanes page by page in ascending order: the places of the pages that pass, and the first failure (R144). -/
def chkPages (s : State) (G : Group) (size : Nat) (eas : List (Nat × Word)) : List (Nat × Nat) → List (Nat × Nat) → List (Nat × Nat) × Option Chk
  | [], ok => (ok, none)
  | (lo, n) :: ps, ok =>
    let here := eas.filter fun e => decide (lo ≤ e.2.toNat) && decide (e.2.toNat < lo + n) && !(ok.map (·.1)).contains e.1
    match chkTranslate s (s.ctxOf G) G.core here { r := true, w := true } 2 with
    | .ok locs =>
      match chkLocks s (s.ctxOf G) G.core here locs size true with
      | .ok locs => chkPages s G size eas ps (ok ++ locs)
      | c => (ok, some (lowestAddr here c))
    | c => (ok, some (lowestAddr here c))

/-- `vatom`, `vatoms` and `vcas`. -/
def vatomStep (s : State) (w : AtomL) (kind : MKind) (ret : Bool) : Out :=
  laneIssue s w.g false ((if ret then tyRegs w.ty w.d else []) ++ modeRegs true w.mode ++ opndRegs w.ty w.c) [] fun g G n S =>
    let act := active G S w.g &&& ~~~G.lanedone
    let size := accSize w.ty
    let eas := laneEAs G true size w.mode 0 act
    match chkAddr eas size with
    | some c => onChk s g (.split n) c fun _ => .next s
    | none =>
      if !G.roomFor ret true false false then .next s
      else if ordRel w.order && scopeWide w.scope && !(unacked s (splitEarlier s S)).isEmpty then .next s
      else
        let (locs, bad) := chkPages s G size eas (atomPages s G eas) []
        let x := G.opnd w.ty w.c
        let y := G.el w.ty w.d.toNat
        let done : Mask := maskOf fun i => (locs.map (·.1)).contains i
        let s : State := if locs.isEmpty then s else barAudit s G
        let s : State := if locs.isEmpty then s else
          let m : MemOp :=
            { kind := kind, ty := w.ty, dst := if ret then .v w.d.toNat else .none,
              acc := locs.map fun (i, l) => { lane := i, loc := l, ea := addrOf eas i, x := BitVec.ofNat 64 (x i), y := BitVec.ofNat 64 (y i) },
              todo := done, lo := if ret then done else 0, hi := if ret && w.ty.wide then done else 0 }
          (issueLane s g n G S m ret true (accDeps s S.ord (locs.map (·.2)) size)
            { scope := w.scope, acq := ordAcq w.order, rel := ordRel w.order } (eaPages .global eas)).2
        match bad with
        | none => .next (advanceLane (s.modGrp g fun G => G.clearDone n) g n)
        | some c => onChk (s.modGrp g fun G => { G with lanedone := G.lanedone ||| done, splits := mupd G.splits n fun S => { S with redo := true } }) g (.split n) c fun _ => .next s

def execVatom (w : AtomL) (s : State) : Out := vatomStep s w (.atom w.kind) true
def execVatoms (w : AtomL) (s : State) : Out := vatomStep s w (.atom w.kind) false
def execVcas (w : AtomL) (s : State) : Out := vatomStep s w .cas true

end Sys2Proof.Machine
end

