-- ==== Sys2Proof/Machine/Exchange.lean ====
section
/-!
DEFINITION. Lane exchange: shifts, permutes, reductions, scans and votes (R153 to R157, R27, R28).
-/

namespace Sys2Proof.Machine

/-- Sums a left-to-right scan of f32 patterns (R27). -/
def scanF32 : Nat → List Nat → List Nat
  | _, [] => []
  | acc, x :: xs => addF32 acc x :: scanF32 (addF32 acc x) xs

/-- The pattern that a shift gives lane `i` (R154); `j` is the source lane before the range check. -/
def shiftStep (s : State) (up : Bool) (w : ShiftL) : Out :=
  let fillRegs := match w.fill with
    | .c x => opndRegs w.ty x
    | _ => []
  laneAlu s w.g (tyRegs w.ty w.d ++ tyRegs w.ty w.a ++ fillRegs) fun G m =>
    let k := G.opndN32 w.count 0
    let src (i : Nat) : Option Nat :=
      match w.fill with
      | .rot => some (if up then (i + 256 - k % 256) % 256 else (i + k) % 256)
      | _ => if up then (if k ≤ i then some (i - k) else none) else (if i + k ≤ 255 then some (i + k) else none)
    if w.ty.wide then
      let a := G.el w.ty w.a.toNat
      let old := G.el w.ty w.d.toNat
      G.putEl w.ty w.d.toNat m fun i => match src i, w.fill with
        | some j, _ => a j
        | none, .keep => old i
        | none, .c x => G.opnd w.ty x i
        | none, _ => 0
    else
      let a := G.rv w.a.toNat
      let old := G.rv w.d.toNat
      G.wvMask w.d.toNat m fun i => match src i, w.fill with
        | some j, _ => lane a j
        | none, .keep => lane old i
        | none, .c x => G.opnd32 w.ty x i
        | none, _ => 0

def execVshup (w : ShiftL) (s : State) : Out := shiftStep s true w
def execVshdn (w : ShiftL) (s : State) : Out := shiftStep s false w

/-- `vperm` and `vbcast` (R155): whole registers or pairs; a lane that is no participant gives 0. -/
def permStep (s : State) (w : PermL) (index : Group → Nat → Nat) : Out :=
  collective s w.g false (tyRegs w.ty w.d ++ tyRegs w.ty w.a ++ opndRegs .n32 w.b) [] fun g G n _ m =>
    let t : Ty := if w.ty.wide then w.ty else .n32
    let a := G.el t w.a.toNat
    let f := index G
    .next (afterLane s g n (G.putEl t w.d.toNat m fun i => if m.getLsbD (f i % 256) then a (f i % 256) else 0))

def execVperm (w : PermL) (s : State) : Out := permStep s w fun G => G.opndN32 w.b
def execVbcast (w : PermL) (s : State) : Out := permStep s w fun G => G.opndN32 w.b

/-- Identity of a kind of reduction (R156). -/
def redId (t : Ty) (k : RKind) : Nat :=
  match fmtOf t with
  | some f => (match k with
    | .add => 2 ^ (f.bits - 1)
    | .min => f.inf.getD f.maxFin
    | _ => 2 ^ (f.bits - 1) + f.inf.getD f.maxFin)
  | none => (match k with
    | .min => wrap t.bits (maxOf t.isSigned t.bits)
    | .max => wrap t.bits (minOf t.isSigned t.bits)
    | .and => 2 ^ t.bits - 1
    | _ => 0)

/-- One step of a reduction that is not a sum. -/
def redOp (t : Ty) (k : RKind) (x y : Nat) : Nat :=
  match fmtOf t with
  | some f => fMinMax (k = .max) f x y
  | none =>
    let i := toInt t.isSigned t.bits
    match k with
    | .min => if i y < i x then y else x
    | .max => if i x < i y then y else x
    | .and => x &&& y
    | .or => x ||| y
    | _ => x ^^^ y

/-- The sum of integer positions, exact and then narrowed once (R156). -/
def redSum (t : Ty) (sat : Bool) (xs : List Nat) : Nat :=
  narrow sat t.isSigned t.bits ((xs.map (toInt t.isSigned t.bits)).foldl (· + ·) 0)

/-- The reduction of some positions in order, which is not a sum: of one position it is that position's value, a NaN in its canonical form (R28); of
none it is the identity (R156). -/
def reduceList (t : Ty) (k : RKind) : List Nat → Nat
  | [] => redId t k
  | x :: xs => xs.foldl (redOp t k) (redOp t k x x)

/-- The reduction of all positions (R156, R27). -/
def reduce (t : Ty) (sat : Bool) (k : RKind) (xs : List Nat) : Nat :=
  if k = .add then (if t = .f32 then treeSum 8 xs else redSum t sat xs)
  else if k = .xor then xs.foldl (redOp t k) 0
  else reduceList t k xs

/-- Inclusive scan of all positions (R156, R27). -/
def scanAll (t : Ty) (sat : Bool) (k : RKind) (xs : List Nat) : List Nat :=
  if k = .add && t = .f32 then scanF32 0x80000000 xs
  else (List.range xs.length).map fun i => reduce t sat k (xs.take (i + 1))

/-- Positions of a collective: the participants' values, and the identity elsewhere (R90). -/
def positions (G : Group) (w : RedL) (m : Mask) : List Nat :=
  (List.range 256).map fun i => if m.getLsbD i then G.el w.ty w.a.toNat i else redId w.ty w.kind

def execVred (w : RedL) (s : State) : Out :=
  collective s w.g false (tyRegs w.ty w.d ++ tyRegs w.ty w.a) [] fun g G n _ m =>
    let r := reduce w.ty w.sat w.kind (positions G w m)
    .next (afterLane s g n (G.putEl w.ty w.d.toNat m fun _ => r))

def execVscan (w : RedL) (s : State) : Out :=
  collective s w.g false (tyRegs w.ty w.d ++ tyRegs w.ty w.a) [] fun g G n _ m =>
    let xs := scanAll w.ty w.sat w.kind (positions G w m)
    let out := if w.ex then redId w.ty w.kind :: xs else xs
    .next (afterLane s g n (G.putEl w.ty w.d.toNat m fun i => out.getD i 0))

/-- `vvote` (R157). -/
def execVvote (gd : LGuard) (kind : VoteKind) (pd pa : PReg) (s : State) : Out :=
  collective s gd false [] [] fun g G n _ m =>
    let v := m &&& G.rp pa
    let G' := { G with vote := v }
    .next (afterLane s g n (match kind with
      | .ballot => G'
      | .any => G'.wpMask pd m (if v = 0 then 0 else Mask.all)
      | .all => G'.wpMask pd m (if v = m then Mask.all else 0)))

/-- `velect` (R157). -/
def execVelect (gd : LGuard) (pd : PReg) (s : State) : Out :=
  collective s gd false [] [] fun g G n _ m =>
    .next (afterLane s g n (G.wpMask pd m (match lowest m with
      | some i => 1 <<< i
      | none => 0)))

end Sys2Proof.Machine
end

