-- ==== Sys2Proof/Machine/LaneCtl.lean ====
section
/-!
DEFINITION. Lane control: branches, calls, reconvergence, exits, waits and software traps of splits (R80 to R86, R337).
-/

namespace Sys2Proof.Machine

/-- A key for a join that no join of the group has. -/
def freeJoin (G : Group) : Nat := G.joins.foldl (fun m p => max m (p.1 + 1)) 0

/-- Pushes a new join on a split's stack (R80). -/
def pushJoin (G : Group) (n : Nat) (S : Split) (rc : Nat) : Nat × Group × Split :=
  let j := freeJoin G
  let S : Split := { S with stack := .join j :: S.stack }
  let J : Join := { rc := rc, arrived := 0, defmask := 0, defpc := 0, ord0 := S.ord }
  (j, { G with joins := mput G.joins j J, splits := mput G.splits n S }, S)

/-- The lowest free entry of the split table (R333). -/
def freeSplitKey (G : Group) : Option Nat := (List.range Config.splitEntries).find? fun k => (mget G.splits k).isNone

/-- The branch of R80 for the lanes `T` that take it; `none` is the trap of a full stack, before any change. -/
def branch (G : Group) (n : Nat) (S : Split) (T : Mask) (target rc : Nat) : Option Group :=
  let F := S.mask &&& ~~~T
  let next := S.pc + 1
  let set (G : Group) (S : Split) : Group := { G with splits := mput G.splits n S }
  if F = 0 then some (G.goto n target)
  else if T = 0 then some (G.goto n next)
  else if target = rc && next = rc then some (G.goto n rc)
  else if target = rc || next = rc then
    let (H, R, rpc) := if target = rc then (T, F, next) else (F, T, target)
    let top := S.top.bind fun e => match e with
      | .join j => (mget G.joins j).bind fun J => if J.rc = rc then some j else none
      | .call _ => none
    match top with
    | some j =>
      some (set { G with joins := mupd G.joins j fun J => { J.meet S.ord with arrived := J.arrived ||| H } } { S with mask := R, pc := rpc })
    | none =>
      if S.stack.length ≥ Config.stackDepth then none else
      let (j, G, S) := pushJoin G n S rc
      some (set { G with joins := mupd G.joins j fun J => { J.meet S.ord with arrived := H } } { S with mask := R, pc := rpc })
  else if S.stack.length ≥ Config.stackDepth then none
  else
    let (j, G, S) := pushJoin G n S rc
    match freeSplitKey G with
    | some k => some { set G { S with mask := F, pc := next } with splits := mput (set G { S with mask := F, pc := next }).splits k { S with mask := T, pc := target, fe := none } }
    | none => some (set { G with joins := mupd G.joins j fun J => { J with defmask := F, defpc := next } } { S with mask := T, pc := target })

/-- A target at or beyond the end of the lane section traps at decode (R80, R83). -/
def inSection (s : State) (G : Group) (t : Nat) : Bool := decide (t < laneLen s G)

/-- `lbr` (R80). A trap 0x01 for a target or reconvergence address outside the section, or for a full stack, concerns the whole split and not the guarded
lanes only: faultmask names all of its lanes (DESIGN CHOICE, log 77: the rules leave open which lanes are active for lane control). -/
def execLbr (gd : LGuard) (target rc : BitVec 12) (s : State) : Out :=
  withSplit s fun g G n S =>
    if !inSection s G target.toNat || !inSection s G rc.toNat then .next (trapL s g n 0x01 S.mask) else
    match branch G n S (active G S gd) target.toNat rc.toNat with
    | some G => .next (settleRuns (s.grp g G))
    | none => .next (trapL s g n 0x01 S.mask)

def execLjmp (target : BitVec 12) (s : State) : Out :=
  withSplit s fun g G n S =>
    if !inSection s G target.toNat then .next (trapL s g n 0x01 S.mask)
    else .next (settleRuns (s.grp g (G.goto n target.toNat)))

def execLrec (s : State) : Out :=
  withSplit s fun g G n S =>
    match S.stack with
    | .join j :: _ => .next (settleRuns (s.grp g (G.goto n (((mget G.joins j).map (·.rc)).getD 0))))
    | _ => .next (afterLane s g n { G with splits := mput G.splits n { S with ord := S.ord.merged S.ord.own S.ord.earlier } })

def execLexit (gd : LGuard) (s : State) : Out :=
  withSplit s fun g G n S =>
    let out := active G S gd
    let G := { G with exitMarks := G.exitMarks ||| out, splits := mput G.splits n { S with mask := S.mask &&& ~~~out } }
    if S.mask &&& ~~~out = 0 then .next (settleRuns (s.grp g (endLanes loopFuel G n))) else .next (afterLane s g n G)

def execLend (s : State) : Out :=
  withSplit s fun g G n _ => .next (settleRuns (s.grp g (endLanes loopFuel G n)))

def execLcall (target : BitVec 12) (s : State) : Out :=
  withSplit s fun g G n S =>
    if !inSection s G target.toNat || S.stack.length ≥ Config.stackDepth then .next (trapL s g n 0x01 S.mask)
    else .next (s.grp g { G with splits := mput G.splits n { S with stack := .call (S.pc + 1) :: S.stack, pc := target.toNat } })

def execLret (s : State) : Out :=
  withSplit s fun g G n S =>
    match S.stack with
    | .call r :: rest => .next (settleRuns (s.grp g ({ G with splits := mput G.splits n { S with stack := rest } }.goto n r)))
    | _ => .next (trapL s g n 0x01 S.mask)

def execLpack (s : State) : Out := withSplit s fun g G n _ => .next (afterLane s g n G)
def execLnop (s : State) : Out := withSplit s fun g G n _ => .next (afterLane s g n G)

def execLwaitc (ld st cp tl : BitVec 6) (s : State) : Out :=
  withSplit s fun g G n S =>
    if G.atMost ld st cp tl then .next (afterLane s g n { G with splits := mput G.splits n { S with ord := S.ord.follow (tilesOver s G tl) } }) else .next s

def execLtrap (gd : LGuard) (code : BitVec 10) (s : State) : Out :=
  withSplit s fun g G n S =>
    if active G S gd = 0 then .next (afterLane s g n G) else .next (trapL s g n 0x10 (active G S gd) 0 code)

end Sys2Proof.Machine
end

