-- ==== Sys2Proof/Machine/Engine.lean ====
section
/-!
DEFINITION. Copy engines and handles (R146 to R152): issue, the bytes they deliver, their ends, and the passing of handles
through scratch words.
-/

namespace Sys2Proof.Machine

/-! ### Issue -/

/-- Entries of a core's range-lock table that an operation takes (R146). -/
def lockNeed : CKind → Nat
  | .cpy => 2
  | .gather => 2
  | .storage => 1
  | .packet => 0

/-- Engine operations of a core whose handles are PENDING. -/
def coreCopies (s : State) (core : Nat) : List CopyOp :=
  s.ops.filterMap fun (_, o) =>
    match o.body with
    | .copy c => if o.core == core && o.grp.isSome then some c else none
    | _ => none

/-- An issue waits (R147): no entries left, its channel held, or its ranges overlap held ones. -/
def engineBlocked (s : State) (o : Op) (c : CopyOp) : Bool :=
  let cs := coreCopies s o.core
  decide ((cs.map fun x => lockNeed x.kind).foldl (· + ·) 0 + lockNeed c.kind > Config.lockEntries) ||
  cs.any (fun x => x.chan == c.chan) ||
  (dstHeld s o c).any (fun (a, n) => lockHit s o.ctx o.core a n true) ||
  (srcHeld s o c).any (fun (a, n) => lockHit s o.ctx o.core a n false)

/-- A unit returns to the root it came from (R207), for the accesses that it stood for (R251). -/
def unitHome (s : State) (blk : Nat) (u : Option (Nat × BitVec 32)) (e : Earlier := {}) : State :=
  match u, mget s.blocks blk with
  | some (ph, p), some b => rootAdd s b.launch ph p 1 e
  | _, _ => s

/-- A storage window of a context that is valid (R362). -/
def window? (s : State) (ctx w : Nat) : Option Window := ((mget s.ctxs ctx).bind fun c => mget c.windows w).filter (·.valid)

/-- NVMe Read commands of a cpyst: up to 256 blocks each (R146). -/
def cmdsOf (c : CopyOp) : Nat := if c.kind = .storage then (c.len + 2 ^ 20 - 1) / 2 ^ 20 else 0

def setCopy (s : State) (k : Nat) (c : CopyOp) : State := s.modOp k fun o => { o with body := .copy c }

/-- Commands sent on a window that have not completed. -/
def windowBusy (s : State) (ctx w : Nat) : Nat :=
  s.ops.foldl (fun n (_, o) => match o.body with
    | .copy c => if c.kind = .storage && o.ctx == ctx && c.window == w then n + (c.sent - c.cmds) else n
    | _ => n) 0

/-- Writes an entry of a queue of a storage window: its form is NVMe's, which the spec does not give, so the words are free (log 64). -/
def freeEntry (s : State) (pa n : Nat) : State :=
  (List.range (n / 8)).foldl (fun s i => girthWrite s none (pa + 8 * i) 8 (Config.freeWord s.tick (pa + 8 * i)).toNat) s

/-- Sends up to `n` commands of a cpyst: an entry at the tail of the submission queue, then the doorbell (R146, R362). A full queue holds the others
back; a withdrawn window fails them (R150). -/
def sendSome : Nat → State → Nat → State
  | 0, s, _ => s
  | n + 1, s, k =>
    match mget s.ops k with
    | none => s
    | some o =>
      match o.body with
      | .copy c =>
        if cmdsOf c ≤ c.sent || c.cancel || c.fail.isSome then s else
        match window? s o.ctx c.window with
        | none => setCopy s k { c with fail := some 3 }
        | some W =>
          if W.qdepth ≤ windowBusy s o.ctx c.window + 1 then s else
          let s := freeEntry s (W.sq + 64 * W.tail) 64
          let tail := (W.tail + 1) % W.qdepth
          let s := s.modCtx o.ctx fun x => { x with windows := mupd x.windows c.window fun W => { W with tail := tail, rung := tail } }
          sendSome n (setCopy s k { c with sent := c.sent + 1 }) k
      | _ => s

def sendCmds (s : State) (k : Nat) : State := sendSome 4096 s k

/-- Commands that waited for room in a window's queue are sent, the oldest operation's first. -/
def sendWaiting (s : State) (ctx w : Nat) : State :=
  s.ops.foldl (fun s (k, o) => match o.body with
    | .copy c => if c.kind = .storage && o.ctx == ctx && c.window == w then sendCmds s k else s
    | _ => s) s

/-- Key of a core's channel in the list of write pointers (R149), one for each context, which learns nothing of another's copies (R286; DEDUCED, log 90). -/
def chanKey (ctx core ch : Nat) : Nat := 2 ^ 32 * ctx + 8 * core + ch

/-- Issue shared by the engine instructions. `mk` builds the operation from its descriptor; `none` is an illegal descriptor (R150). -/
def engineStep (s : State) (h : HReg) (b : SReg) (bar : Bool) (mk : State → Group → Nat → Option CopyOp) : Out :=
  whenHandle s h fun s g G _ =>
    let ch := (G.rs b).toNat
    if 8 ≤ ch then .next (trapS s g 0x01)
    else if !G.roomFor false false true false then .next s
    else
      let s0 : State := if bar then barAudit s G else s
      match takeUnits s0 g G 1 1 with
      | none => .next s
      | some (s1, G1, unit) =>
        let atOnce (st : HState) : Out := .next ((unitHome s1 G.blk unit).modGrp g fun G => (G.wh h.toNat { st := st }).adv 1)
        match mk s1 G1 ch with
        | none => atOnce (.failed 1)
        | some c =>
          if c.len = 0 then atOnce .done else
          let o : Op := { newOp s1 g G1 .scalar { before := G1.ord.earlier } (unitDeps s1 G1.ord) (.copy c) with unit := unit }
          if engineBlocked s1 o c then .next s else
          let (k, s2) := s1.fresh
          let s3 : State := { s2 with ops := mput s2.ops k o, chans := mput s2.chans (chanKey (s1.ctxOf G) G.core ch) c.dst }
          .next (sendCmds (s3.modGrp g fun G => ((G.wh h.toNat { st := .pending, op := some k }).rise false false true false).adv 1) k)

/-- A scratch operand lies in the block's own area; an empty one lies anywhere (R146). -/
def scrOk (s : State) (G : Group) (off n : Nat) : Bool := n == 0 || inArea s G.blk off n

def execCpy (h : HReg) (a b : SReg) (sub : BitVec 2) (s : State) : Out :=
  engineStep s h b false fun s G ch =>
    let dst := (G.rs a).toNat
    let src := (G.rs (SReg.nth a 1)).toNat
    let len := (G.rs (SReg.nth a 2)).toNat
    let ds := sub == 0 || sub == 2
    let ss := sub == 1 || sub == 2
    if len < 2 ^ 32 && (!ds || scrOk s G dst len) && (!ss || scrOk s G src len) then
      some { kind := .cpy, chan := ch, dst := dst, dstScr := ds, src := if ss then scrLoc G.core src else src, srcScr := ss, len := len }
    else none

def execCpyg (h : HReg) (a b : SReg) (glob : Bool) (s : State) : Out :=
  engineStep s h b false fun s G ch =>
    let dst := (G.rs a).toNat
    let idx := (G.rs (SReg.nth a 2)).toNat
    let d := (G.rs (SReg.nth a 4)).toNat
    let row := d % 2 ^ 32
    let count := d / 2 ^ 32 % 2 ^ 16
    if d < 2 ^ 48 && (glob || scrOk s G dst (row * count)) && scrOk s G idx (4 * count) then
      some { kind := .gather, chan := ch, dst := dst, dstScr := !glob, src := scrLoc G.core idx, srcScr := true, len := row * count,
             table := (G.rs (SReg.nth a 1)).toNat, stride := (G.rs (SReg.nth a 3)).toNat, row := row }
    else none

/-- The destination of a `cpyst` has a byte that is known not to be device memory (R146). -/
def notDevice (s : State) (ctx core va n : Nat) : Bool :=
  (pagesOf va n).any fun p =>
    let a := max va (4096 * p)
    match (if 2 ^ 48 ≤ a then TrRes.prot else translate s ctx core none a { r := false, w := true }) with
    | .ok pa => paClass pa != 0
    | _ => false

def execCpyst (h : HReg) (a b : SReg) (s : State) : Out :=
  engineStep s h b true fun s G ch =>
    let w := (G.rs (SReg.nth a 1)).toNat
    let lba := (G.rs (SReg.nth a 2)).toNat
    let count := (G.rs (SReg.nth a 3)).toNat
    match if w < 8 then window? s (s.ctxOf G) w else none with
    | none => none
    | some W =>
      if count ≤ 65536 && decide (lba + count ≤ W.lbas) && !notDevice s (s.ctxOf G) G.core (G.rs a).toNat (4096 * count) then
        some { kind := .storage, chan := ch, dst := (G.rs a).toNat, dstScr := false, src := 0, srcScr := false, len := 4096 * count, window := w, lba := lba }
      else none

/-- The writes so far of the group's own operation that holds a channel (R243). -/
def ownWrites (s : State) (g core ch : Nat) : List Nat :=
  s.ops.flatMap fun (k, o) =>
    match o.body with
    | .copy c => if o.grp == some g && o.core == core && c.chan == ch then s.hist.filterMap fun e => if e.stamp.op == k then some e.n else none else []
    | _ => []

/-- `scwp` (R149): what the group's operation has written below the pointer comes before the group's later accesses, and before nobody else's (R243). -/
def execScwp (d : SReg) (ch : BitVec 3) (s : State) : Out :=
  withScalar s fun g G =>
    let G := { G with ord := { G.ord with mine := G.ord.mine.join { pos := ownWrites s g G.core ch.toNat } } }
    .next (s.grp g ((G.ws d (BitVec.ofNat 64 ((mget s.chans (chanKey (s.ctxOf G) G.core ch.toNat)).getD 0))).adv 1))

/-! ### Running (R148 to R150) -/

/-- A translation of an engine's byte: an address above 48 bits has no translation that permits it (R110). -/
def engineTr (s : State) (o : Op) (c : CopyOp) (va : Nat) (w : Bool) : TrRes :=
  if 2 ^ 48 ≤ va then .prot else translate s o.ctx o.core c.rset va { r := !w, w := w }

/-- The index of the row that the next byte of a gather belongs to, if it has been read. -/
def CopyOp.rowIdx (c : CopyOp) : Option Nat := (c.idx.filter (·.1 == c.done / c.row)).map (·.2)

/-- The virtual address that the next byte is read from; `none` for scratch and drives. -/
def copySrcVa (c : CopyOp) : Option Nat :=
  match c.kind with
  | .cpy => if c.srcScr then none else some ((c.src + c.done) % 2 ^ 64)
  | .packet => some ((c.src + c.done) % 2 ^ 64)
  | .gather => some ((c.table + c.rowIdx.getD 0 * c.stride + c.done % c.row) % 2 ^ 64)
  | .storage => none

/-- What a drive gives for the next byte. -/
def driveByte (s : State) (o : Op) (c : CopyOp) : Byte :=
  let ns := (((mget s.ctxs o.ctx).bind fun x => mget x.windows c.window).map (·.nsid.toNat)).getD 0
  Config.freeDriveByte s.tick (ns * 2 ^ 76 + 4096 * c.lba + c.done)

/-- An engine meets a translation that does not end in a place (R150, R278, R279, R280). -/
def engineFault (s : State) (k : Nat) (o : Op) (c : CopyOp) (va : Nat) (w : Bool) : TrRes → State
  | .ok _ => s
  | .prot => setCopy s k { c with fail := some 2 }
  | .fatal => fatalFault (setCopy s k { c with fail := some 2 }) o.ctx
  | .absent level =>
    if replayOn s o.ctx then
      let h : HeldPage := { page := va / 4096, lanes := 0, addr := BitVec.ofNat 64 va, kind := if w then 4 else 3, level := level }
      postFault (setCopy s k { c with hold := some h }) o.ctx h
    else setCopy s k { c with fail := some 2 }

/-- Where an engine reads and writes: the home slices of its core's die; the Girth's own copy works at the memory port (R257, R354). -/
def engineVia (o : Op) : Via := if o.core = girthCore then .port else .home (dieOf o.core)

/-- Reads the index of a gather's row, once (R146): from scratch, by a choice that the order allows (R238); a poisoned line fails the operation (R150). -/
def readIdx (s : State) (k : Nat) (o : Op) (c : CopyOp) : State × Bool :=
  if c.kind != .gather || c.rowIdx.isSome then (s, true) else
  let a := c.src + 4 * (c.done / c.row)
  if s.poison.contains (a / 64) || s.poison.contains ((a + 3) / 64) then (engineConsumes (setCopy s k { c with fail := some 4 }) o a, false)
  else (setCopy s k { c with idx := some (c.done / c.row, (s.readOf k o (2 ^ 40 * k + c.done) a 4).1) }, true)

/-- Writes byte `x` of an operation at place `b`, by whose ranges it has translated from now on; its channel's write pointer moves past address `va` (R149). -/
def putCopied (s : State) (k : Nat) (o : Op) (c : CopyOp) (va b x : Nat) : State :=
  let used := c.rset.getD (((mget s.ctxs o.ctx).map fun x => rangesOf x (dieOf o.core)).getD [])
  let s := if o.core = girthCore then s else fillTlb s o.ctx o.core ((copySrcVa c).toList.map (· / 4096) ++ if c.dstScr then [] else [va / 4096]) (some used)
  let s := auditWrite s o.aud o.ctx b 1 x (o.stamp s k)
  let s := setCopy s k { c with done := c.done + 1, rset := if c.dstScr && (copySrcVa c).isNone then c.rset else some used }
  if c.kind = .packet then s else { s with chans := mput s.chans (chanKey o.ctx o.core c.chan) (va + 1) }

/-- Delivers one byte: `none` when the operation cannot go on. The places written are collected. Each byte is read just before it is written, so a copy whose
own ranges overlap reads what it has written (R149; DESIGN CHOICE, log 65). -/
def copyByte (s : State) (k : Nat) (out : List Nat) : State × Option (List Nat) :=
  match mget s.ops k with
  | none => (s, none)
  | some o =>
    match o.body with
    | .copy c =>
      if c.hold.isSome || c.fail.isSome || (c.cancel && c.kind != .storage) || decide (c.len ≤ c.done) ||
          (c.kind == .storage && decide (c.sent * 2 ^ 20 ≤ c.done)) then (s, none) else
      match readIdx s k o c with
      | (s, false) => (s, none)
      | (s, true) =>
      let c := match (mget s.ops k).map (·.body) with
        | some (.copy c) => c
        | _ => c
      let src : TrRes × Nat := match copySrcVa c with
        | some va => (engineTr s o c va false, va)
        | none => (.ok (c.src + c.done), 0)
      let va := c.dst + c.done
      let dst : TrRes := if c.dstScr then .ok (scrLoc o.core va) else engineTr s o c va true
      match src.1, dst with
      | .ok a, .ok b =>
        if c.kind == .storage && paClass b != 0 then (setCopy s k { c with fail := some 1 }, none)
        else if c.kind != .storage && s.poison.contains (a / 64) then (engineConsumes (setCopy s k { c with fail := some 4 }) o a, none)
        else
          let reached := (if c.kind == .storage then some s else reachLine s (engineVia o) false a).bind fun s => reachLine s (engineVia o) true b
          match reached with
          | none => (s, none)
          | some s =>
            let x : Nat := if c.kind == .storage then (driveByte s o c).toNat else (s.readOf k o (2 ^ 40 * k + c.len + c.done) a 1).1
            (putCopied s k o c va b x, some (out ++ [b]))
      | .ok _, r => (engineFault s k o c va true r, none)
      | r, _ => (engineFault s k o c src.2 false r, none)
    | _ => (s, none)

def copyBytes : Nat → State → Nat → List Nat → State × List Nat
  | 0, s, _, out => (s, out)
  | n + 1, s, k, out =>
    match copyByte s k out with
    | (s, some out) => copyBytes n s k out
    | (s, none) => (s, out)

/-- COPY_BYTES_DELIVERED (R149): up to `n` further bytes, in ascending order, stopping at a fault. -/
def execCopyBytesDelivered (op n : Nat) (s : State) : Out :=
  match mget s.ops op with
  | some o =>
    if (live s o.deps).isEmpty then
      let (s, out) := copyBytes n s op []
      .next (s.unpoison (if o.replays then [] else out))
    else .next s
  | none => .next s

/-- NVME_COMPLETION (R150, R362): a command of a cpyst that was sent completes, with success only after its bytes have come; the drive fills an entry of the
completion queue, and commands that waited for room are sent. -/
def execNvmeCompletion (op : Nat) (ok : Bool) (s : State) : Out :=
  match mget s.ops op with
  | some o =>
    match o.body with
    | .copy c =>
      if c.kind != .storage || decide (c.sent ≤ c.cmds) then .next s
      else if ok && c.fail.isNone && !c.cancel && decide (c.done < min c.len ((c.cmds + 1) * 2 ^ 20)) then .next s
      else
        let s := setCopy s op { c with cmds := c.cmds + 1, fail := if ok then c.fail else some (c.fail.getD 3) }
        let s := match (mget s.ctxs o.ctx).bind fun x => mget x.windows c.window with
          | some W => (freeEntry s (W.cq + 16 * W.head) 16).modCtx o.ctx fun x => { x with windows := mupd x.windows c.window fun W => { W with head := (W.head + 1) % W.qdepth } }
          | none => s
        .next (sendWaiting s o.ctx c.window)
    | _ => .next s
  | none => .next s

/-- How an engine operation can end now (R150, R151): every byte delivered, a failure, or a cancellation; a cpyst only after each of the commands
that it sent. Where a cancelled operation has delivered everything, either end may come first. -/
def copyEnd (s : State) (k : Nat) (c : CopyOp) : Option HState :=
  if c.sent ≠ c.cmds then none
  else match c.fail with
    | some r => some (.failed r)
    | none =>
      if c.cancel then some (if c.done = c.len && Config.freeBit (s.tick + k) then .done else .cancelled)
      else if c.done = c.len && c.cmds = cmdsOf c then some .done else none

/-- COPY_COMPLETE: the handle leaves PENDING. -/
def execCopyComplete (op : Nat) (s : State) : Out :=
  match mget s.ops op with
  | some o =>
    match o.body with
    | .copy c =>
      if c.kind = .packet then .next s else
      match copyEnd s op c with
      | some st => .next (endCopy s op st)
      | none => .next s
    | _ => .next s
  | none => .next s

/-- QUEUE_PAIR_DELETED (R362): the PENDING operations of a window end DONE or FAILED(3). -/
def execQueuePairDeleted (ctx w : Nat) (s : State) : Out :=
  .next (s.ops.foldl (fun s (k, o) =>
    match o.body with
    | .copy c =>
      if c.kind = .storage && o.ctx == ctx && c.window == w then
        endCopy s k ((copyEnd s k c).getD (if c.cancel then .cancelled else .failed (c.fail.getD 3)))
      else s
    | _ => s) s)

/-! ### Handles (R151, R152) -/

/-- `hwait` observes the end of the handle's operation (R242). -/
def execHwait (h : HReg) (s : State) : Out := whenHandle s h fun s g G x => .next (s.grp g ((G.observe x).adv 1))

/-- The state of a handle as `htest` reads it (R151). -/
def HState.code : HState → Nat
  | .empty => 0
  | .pending => 1
  | .done => 2
  | .failed r => 3 + 256 * r
  | .cancelled => 4

/-- `htest`: one that reports an end observes it (R242). -/
def execHtest (h : HReg) (b : SReg) (s : State) : Out :=
  withScalar s fun g G =>
    let x := G.rh h.toNat
    let G := if x.st = .pending || x.st = .empty then G else G.observe x
    .next (s.grp g ((G.ws b (BitVec.ofNat 64 x.st.code)).adv 1))

/-- `hcancel` returns when the handle has left PENDING, and observes that (R242). -/
def execHcancel (h : HReg) (s : State) : Out :=
  withScalar s fun g G =>
    let x := G.rh h.toNat
    match x.st with
    | .empty => .next (trapS s g 0x0B)
    | .pending =>
      match x.op with
      | some k => .next (s.modOp k fun o => match o.body with
          | .copy c => { o with body := .copy { c with cancel := true } }
          | _ => o)
      | none =>
        .next (dropIdleLoads ((dropWaiters s (· == .handle g h.toNat)).grp g ((G.wh h.toNat { x with st := .cancelled }).adv 1)))
    | _ => .next (s.grp g ((G.observe x).adv 1))

/-- The word that `hsend` and `hrecv` name: s_a[31:0], in a scratch area of the same block (R152). -/
def handleWord (s : State) (G : Group) (a : SReg) (write : Bool) : Chk :=
  chkScratch s (s.ctxOf G) G.core G.blk true (some G.blk) [(0, ((G.rs a).truncate 32).setWidth 64)] 4 write

/-- `hsend` (R152, R210): its write of the tag releases at block scope. The serial of the tag carries no meaning, and is free. -/
def execHsend (h : HReg) (a : SReg) (s : State) : Out :=
  withScalar s fun g G =>
    onChk s g .scalar (handleWord s G a true) fun locs =>
      let loc := (locs.headD (0, 0)).2
      let x := G.rh h.toNat
      if x.st = .pending then .next (s.grp g { G with wait := .onHandle })
      else if x.st = .empty then .next (trapS s g 0x0B)
      else if s.full.contains (loc / 4) || !(unperf s (scalarEarlier s G)).isEmpty then .next s
      else match takeUnits (barAudit s G) g (G.unblock x) 1 1 with
        | none => .next s
        | some (s, G, unit) =>
          let serial : BitVec 16 := BitVec.ofNat 16 (Config.freeNat s.tick loc)
          let (k, s) := s.fresh
          let t : Tag := { serial := serial, h := x, blk := G.blk, core := G.core, unit := unit, op := k }
          let o : Op := { newOp s g G .scalar G.ord [] (.mem { kind := .store, ty := .n32, dst := .none, acc := [], todo := 0, lo := 0, hi := 0 }) with
            scope := .block, relse := true }
          let s := s.write (some (s.ctxOf G)) loc 4 (0xC0000000 + serial.toNat) (o.stamp s k)
          let s : State := { s with full := insNat s.full (loc / 4), tags := mput s.tags (loc / 4) t, past := mput s.past k (pastOf s k o) }
          .next (s.grp g (({ G with ord := { G.ord with own := G.ord.own ++ [k] } }.wh h.toNat { st := .empty }).adv 1))

/-- A carried unit joins the receiver's holding, or returns to its root (R208). -/
def joinUnit (s : State) (g : Nat) (G : Group) (u : Option (Nat × BitVec 32)) (e : Earlier) : State :=
  match u, drainOf G with
  | some (ph, p), some (ph', m) =>
    if ph = ph' && m.ag == p then s.modGrp g fun G => { G with memb := mput G.memb (64 + ph) { m with hold := m.hold + 1 } }
    else unitHome s G.blk u e
  | some _, none => unitHome s G.blk u e
  | none, _ => s

/-- `hrecv` (R152): it acquires at block scope from the write of the tag. -/
def execHrecv (h : HReg) (a : SReg) (s : State) : Out :=
  withScalar s fun g G =>
    onChk s g .scalar (handleWord s G a false) fun locs =>
      let loc := (locs.headD (0, 0)).2
      if (G.rh h.toNat).st ≠ .empty then .next (trapS s g 0x0B)
      else if !s.full.contains (loc / 4) then .next s
      else match mget s.tags (loc / 4) with
        | none => .next (trapS s g 0x0B)
        | some t =>
          if s.read loc 4 ≠ 0xC0000000 + t.serial.toNat || (t.h.st = .done && t.h.ov.isSome && t.core ≠ G.core) then .next (trapS s g 0x0B) else
          let s := barAudit s G
          let s : State := { s with full := s.full.filter (· != loc / 4), tags := mdel s.tags (loc / 4) }
          let G := { G with ord := G.ord.learn (gain s (G.agent g) .block (s.writersOf loc 4)) }
          .next (joinUnit (s.grp g ((G.wh h.toNat t.h).adv 1)) g (G.wh h.toNat t.h) t.unit { ops := [t.op] })

end Sys2Proof.Machine
end

