-- ==== Sys2Proof/Machine/Tile.lean ====
section
/-!
DEFINITION. The tile engine (R158 to R176): issue checks, matrix products, draining, distances and ranked lists. A tile operation
reads and writes when it retires; bytes written since its issue are read old or new, element by element (R163).
-/

namespace Sys2Proof.Machine

/-! ### Issue checks (R162) -/

/-- An operand of a tile instruction: `n` bytes from `addr`, and the lanes that a failure names. With `n = 0` only the alignment counts;
`bad` marks one that is misaligned whatever its address. -/
structure Area where
  space : Space
  addr : Nat
  n : Nat
  align : Nat := 1
  write : Bool := false
  bad : Bool := false
  lanes : Mask

/-- A trap that names the lanes of some failures and their lowest address. -/
def areaTrap (cause : BitVec 8) (bad : List (Nat × Mask)) : Chk :=
  .trap cause (bad.foldl (fun m b => m ||| b.2) 0)
    (BitVec.ofNat 64 (match bad.map (·.1) with
      | [] => 0
      | a :: l => l.foldl min a))

/-- The first of `n` addresses from `a` for which `bad` holds. -/
def firstAt (a n : Nat) (bad : Nat → Bool) : Option Nat := ((List.range n).map (a + ·)).find? bad

/-- Bytes `[a, a + n)` of a space may be named by the group, translation left out. Those of a cluster may lie in areas of several blocks (R138). -/
def areaIn (s : State) (G : Group) (sp : Space) (a n : Nat) : Bool :=
  let inOne (a n : Nat) : Bool := decide (a < 2 ^ 23) && inClusterArea s (s.ctxOf G) none (mateOf G.core (a / 2 ^ 21 % 4)) (a % 2 ^ 21) n
  match sp with
  | .global => decide (a + n ≤ 2 ^ 48)
  | .own => inArea s G.blk a n
  | .cluster => inOne a n || (List.range n).all fun i => inOne (a + i) 1

/-- The place of a scratch address. -/
def areaLoc (G : Group) (sp : Space) (a : Nat) : Nat :=
  match sp with
  | .cluster => scrLoc (mateOf G.core (a / 2 ^ 21 % 4)) (a % 2 ^ 21)
  | _ => scrLoc G.core a

/-- First address of each page of a global area, with its page. -/
def areaPages (x : Area) : List (Nat × Nat) := (pagesOf x.addr x.n).map fun p => (max x.addr (4096 * p), p)

/-- Checks 5 and 6 of R162. A pass gives the physical page of each global page. `add`: an add-on-store, only to this device's memory (R169). -/
def chkAreas (s : State) (G : Group) (add : Bool) (xs : List Area) : Chk :=
  let ctx := s.ctxOf G
  match xs.filter fun x => x.bad || x.addr % x.align != 0 with
  | b :: bs => areaTrap 0x04 ((b :: bs).map fun x => (x.addr, x.lanes))
  | [] =>
    match xs.filter fun x => x.n != 0 && !areaIn s G x.space x.addr x.n with
    | b :: bs => areaTrap 0x06 ((b :: bs).map fun x => ((firstAt x.addr x.n fun a => !areaIn s G x.space a 1).getD x.addr, x.lanes))
    | [] =>
      let gs := (xs.filter fun x => x.space = .global).flatMap fun x => (areaPages x).map fun p => (x, p)
      let tr := gs.map fun (x, a, p) =>
        (x, a, p, match translate s ctx G.core none a { r := add, w := x.write } with
          | .ok pa => if add && paClass pa != 0 then TrRes.prot else .ok pa
          | r => r)
      if tr.any fun (_, _, _, r) => r == .fatal then .fatal else
      match tr.filter fun (_, _, _, r) => r == .prot with
      | b :: bs => areaTrap 0x06 ((b :: bs).map fun (x, a, _, _) => (a, x.lanes))
      | [] =>
        match tr.filterMap fun (x, a, p, r) => (match r with
            | .absent lv => some (x, a, p, lv)
            | _ => none) with
        | b :: bs => .hold ((b :: bs).foldl (fun hs (x, a, p, lv) =>
            if hs.any (·.page == p) then hs.map fun h => if h.page == p then { h with lanes := h.lanes ||| x.lanes, addr := if a < h.addr.toNat then BitVec.ofNat 64 a else h.addr } else h
            else hs ++ [{ page := p, lanes := x.lanes, addr := BitVec.ofNat 64 a, kind := if add then 2 else 1, level := lv }]) [])
        | [] =>
          let pages := tr.filterMap fun (_, a, p, r) => match r with
            | .ok pa => some (p, pa - a % 4096)
            | _ => none
          let loc (x : Area) (a : Nat) : Nat :=
            if x.space = .global then (((pages.find? (·.1 == a / 4096)).map (·.2)).getD 0) + a % 4096 else areaLoc G x.space a
          let hit (x : Area) (a : Nat) : Bool := lockHit s ctx G.core (loc x a) 1 x.write
          -- the table is empty on most cores; only then are the bytes looked at one by one
          if s.ops.any (fun (_, o) => match o.body with
              | .copy _ => true
              | _ => false) then
            match xs.filterMap fun x => (firstAt x.addr x.n (hit x)).map fun a => (a, x.lanes) with
            | b :: bs => areaTrap 0x07 (b :: bs)
            | [] => .ok pages
          else .ok pages

/-! ### Issue -/

/-- The key of a tile: per block, core of the block, and number (R158). -/
def tileKey (s : State) (G : Group) (t : Nat) : Nat := (G.blk * 4 + if (s.blk? G).any (·.wide) then G.core % 4 else 0) * 64 + t

/-- Operations of the group on the same tile, which come first (R160). -/
def tileBefore (s : State) (g : Nat) (tile : Option Nat) : List Nat :=
  if tile.isNone then [] else
  s.ops.filterMap fun (k, o) =>
    match o.body with
    | .tile t => if o.grp == some g && t.tile == tile then some k else none
    | _ => none

/-- A tile operation issues after its checks: tl rises, and the split advances. It reads after every earlier access of the split (R244), and after what the
scalar stream has acquired (R236). -/
def issueTile (s : State) (g n : Nat) (G : Group) (S : Split) (tile : Option Nat) (m : Mask) (what : TileDo) (pages : List Nat) : State :=
  let key := tile.map (tileKey s G)
  let t : TileOp := { what := what, tile := key, mask := m, ov := runOv G, off := S.pc, split := n }
  let before := S.ord.earlier.join G.ord.gained
  let o := newOp s g G (.split n) { before := before } (sunion before.keys (tileBefore s g key)) (.tile t)
  let (k, s) := s.fresh
  let s : State := { s with ops := mput s.ops k o }
  advanceLane ((fillTlb s (s.ctxOf G) G.core pages).modGrp g fun G => { G.rise false false false true with tileOps := G.tileOps ++ [k] }) g n

/-- What an issue gives: the operands to check with the operation, or a trap of checks 2 to 4. -/
inductive TilePlan where
  | go (areas : List Area) (what : List (Nat × Nat) → TileDo) (tile : Option Nat) (pages : List Nat)
  | trap (cause : BitVec 8) (lanes : Mask)
  | wait
  /-- The 16 header bytes of a list fail checks 5 and 6 (R162). -/
  | chk (c : Chk)

/-- A tile instruction in its split: room in tl, then the plan for the active lanes. With tl at 63 it waits before checks 2 to 6 of R162; the
spec does not say which comes first (DESIGN CHOICE, log 66). -/
def tileIssue (s : State) (g n : Nat) (G : Group) (S : Split) (act : Mask) (add : Bool) (plan : TilePlan) : Out :=
  if !G.roomFor false false false true then .next s
  else if act = 0 then .next (advanceLane s g n)
  else match plan with
    | .trap c m => .next (trapL s g n c m)
    | .wait => .next s
    | .chk c => onChk s g (.split n) c fun _ => .next s
    | .go areas what tile pages =>
      onChk s g (.split n) (chkAreas s G add areas) fun locs => .next (issueTile s g n G S tile act (what locs) pages)

/-! ### mma, mmas (R164 to R166) -/

/-- Dimension K of an allowed pair of formats (R164). -/
def pairK (sparse : Bool) (fa fb : Nat) : Option Nat :=
  if fa = fb && fa < 2 then some 32
  else if (fa = 2 || fa = 3) && (fb = 2 || fb = 3) then some 64
  else if fa = fb && (fa = 4 || fa = 5) then some 64
  else if !sparse && (fa = 6 || fa = 7) && fb = 0 then some 128
  else none

/-- Bytes of an element of B, and of a format of A that is a whole number of bytes (R165). -/
def fmtSize (f : Nat) : Nat := if f < 2 then 2 else 1

def low32 (x : Word) : Nat := x.toNat % 2 ^ 32

/-- The plan of `mma` and `mmas`. All eight bytes of a row's scales or metadata count as read for checks 5 and 6, those that R165 has ignored too
(DESIGN CHOICE, log 67). -/
def mmaPlan (G : Group) (w : MmaL) (sparse : Bool) (act : Mask) : TilePlan :=
  let word := lane (G.rv w.fw.toNat)
  let first := word ((lowest act).getD 0)
  let differ := maskOf fun i => act.getLsbD i && word i != first
  if differ ≠ 0 then .trap 0x08 differ else
  let x := first.toNat
  let fa := x % 16
  let fb := x / 16 % 16
  match if x < 256 then pairK sparse fa fb else none with
  | none => .trap 0x08 act
  | some k =>
    let a := low32 (G.rs w.sa)
    let b := low32 (G.rs w.sb)
    let row (i base stride n : Nat) : Area := { space := .own, addr := a + base + stride * i, n := n, lanes := 1 <<< i }
    let rows := (lanesOf act).flatMap fun i =>
      if sparse then [row i 0 32 32, row i 0x2000 8 8]
      else if fa ≥ 6 then [row i 0 64 64, row i 0x4000 8 8]
      else [row i 0 64 64]
    let shared : List Area :=
      [{ space := .own, addr := a, n := 0, align := 64, lanes := act },
       { space := .cluster, addr := b, n := 32 * k * fmtSize fb, align := 64, lanes := act }]
    .go (shared ++ rows) (fun _ => .mma sparse fa fb (scrLoc G.core a) (areaLoc G .cluster b)) (some w.tile.toNat) []

def mmaStep (s : State) (w : MmaL) (sparse : Bool) : Out :=
  collective s w.g sparse [w.fw.toNat] [w.tile.toNat] fun g G n S act => tileIssue s g n G S act false (mmaPlan G w sparse act)

def execMma (w : MmaL) (s : State) : Out := mmaStep s w false
def execMmas (w : MmaL) (s : State) : Out := mmaStep s w true

def execMzero (gd : LGuard) (tile : BitVec 6) (s : State) : Out :=
  laneIssue s gd false [] [tile.toNat] fun g G n S =>
    tileIssue s g n G S (active G S gd) false (.go [] (fun _ => .mzero) (some tile.toNat) [])

/-! ### mepi (R168 to R170) -/

/-- Start of the row of lane `i`. -/
def mepiRow (glob : Bool) (base stride i : Nat) : Nat := (base + i * stride) % 2 ^ (if glob then 64 else 32)

def mepiPlan (G : Group) (w : MepiL) (act : Mask) : TilePlan :=
  let size := w.ty.size
  let base := if w.glob then (G.rs w.base).toNat else low32 (G.rs w.base)
  let stride := low32 (G.rs (SReg.nth w.base 1))
  let par := low32 (G.rs w.par)
  let sp : Space := if w.glob then .global else .own
  let from_ := if w.sb then 0 else 256
  let bad := (lanesOf act).filter fun i => mepiRow w.glob base stride i % size != 0
  let low := match bad.map (mepiRow w.glob base stride) with
    | [] => base
    | a :: l => l.foldl min a
  let pars : List Area := if w.sb || w.act = .clamp then
      [{ space := .own, addr := par, n := 0, align := 64, lanes := act },
       { space := .own, addr := par + from_, n := (if w.act = .clamp then 264 else 256) - from_, lanes := act }]
    else []
  -- the base and the stride must be multiples of the size; the rows that are not name the failure, and every active lane where none is
  let step : List Area := if base % size = 0 && stride % size = 0 then [] else
    [{ space := sp, addr := low, n := 0, bad := true, lanes := if bad.isEmpty then act else maskOf bad.contains }]
  let dst := (lanesOf act).map fun i => ({ space := sp, addr := mepiRow w.glob base stride i, n := 32 * size, write := true, lanes := 1 <<< i } : Area)
  .go (step ++ pars ++ dst) (fun pages => .mepi w base stride (scrLoc G.core par) pages) (some w.tile.toNat)
    (if w.glob then (dst.flatMap fun x => pagesOf x.addr x.n).foldl insNat [] else [])

def execMepi (w : MepiL) (s : State) : Out :=
  laneIssue s w.g false [] [w.tile.toNat] fun g G n S => tileIssue s g n G S (active G S w.g) w.add (mepiPlan G w (active G S w.g))

/-! ### vdist, topk, topkm (R173 to R175) -/

def distPlan (G : Group) (w : DistL) (act : Mask) : TilePlan :=
  let q := low32 (G.rs w.q)
  let x := G.rs (SReg.nth w.q 1)
  let dim := x.toNat % 2 ^ 13
  let stride := x.toNat / 2 ^ 32
  let c := low32 (G.rs w.c)
  if dim = 0 || dim > 4096 then .trap 0x01 act else
  let n := dim * w.ty.size
  let rows := (lanesOf act).map fun i => ({ space := .own, addr := (c + i * stride) % 2 ^ 32, n := n, align := w.ty.size, lanes := 1 <<< i } : Area)
  .go ({ space := .own, addr := q, n := n, align := w.ty.size, lanes := act } :: rows) (fun _ => .vdist w.ty w.l2 w.d.toNat q dim stride c) none []

def execVdist (w : DistL) (s : State) : Out :=
  collective s w.g false [w.d.toNat] [] fun g G n S act => tileIssue s g n G S act false (distPlan G w act)

/-- The header of a ranked list (R174): k, count, order, reserved word. -/
def listHdr (s : State) (G : Group) (a : Nat) : Nat × Nat × Nat × Nat :=
  let w (i : Nat) : Nat := s.read (scrLoc G.core (a + i)) 4
  (w 0, w 4, w 8, w 12)

def hdrBad (h : Nat × Nat × Nat × Nat) : Bool :=
  h.1 == 0 || decide (h.1 > 256) || decide (h.2.1 > h.1) || decide (h.2.2.1 > 1) || h.2.2.2 != 0

/-- The plan of a merge into `dst`, of pairs or of list `src`. Headers are read once the split's earlier accesses to them are over. -/
def listPlan (s : State) (G : Group) (S : Split) (act : Mask) (dst : Nat) (src : Option Nat) (pairs : List (Elem × Elem)) : TilePlan :=
  let area (a n : Nat) (w : Bool) : Area := { space := .own, addr := a, n := n, align := 16, write := w, lanes := act }
  let lists := dst :: src.toList
  match chkAreas s G false (area dst 16 true :: src.toList.map fun a => area a 16 false) with
  | .ok _ =>
    if !(touching s (splitEarlier s S) (lists.map (scrLoc G.core)) 16).isEmpty then .wait else
    let hs := lists.map (listHdr s G)
    let h := listHdr s G dst
    let h2 := listHdr s G (src.getD dst)
    if hs.any hdrBad || h.2.2.1 != h2.2.2.1 then .trap 0x01 act
    else if decide (s.level G.core < 3) && hs.any (fun h => decide (h.1 > 64)) then .trap 0x02 act
    else
      let areas := area dst (16 + 8 * h.1) true :: src.toList.map fun a => area a (16 + 8 * h2.1) false
      .go areas (fun _ => match src with
        | none => .topk (scrLoc G.core dst) h.1 (h.2.2.1 == 1) pairs
        | some a => .topkm (scrLoc G.core dst) (scrLoc G.core a) h.1 h2.1 (h.2.2.1 == 1)) none []
  | c => .chk c

def execTopk (gd : LGuard) (a b : VReg) (list : SReg) (s : State) : Out :=
  collective s gd false [a.toNat, b.toNat] [] fun g G n S act =>
    let sc := G.rv a.toNat
    let id := G.rv b.toNat
    tileIssue s g n G S act false (listPlan s G S act (low32 (G.rs list)) none ((lanesOf act).map fun i => (lane sc i, lane id i)))

def execTopkm (gd : LGuard) (dst src : SReg) (s : State) : Out :=
  laneIssue s gd false [] [] fun g G n S =>
    tileIssue s g n G S (active G S gd) false (listPlan s G S (active G S gd) (low32 (G.rs dst)) (some (low32 (G.rs src))) [])

/-! ### mtrd (R171) -/

def rowZero : Lanes := List.replicate 32 0

/-- Row `i` of a tile. -/
def tileRow (s : State) (tile i : Nat) : Lanes := (mget s.acc (tile * 256 + i)).getD rowZero

def setTileRow (s : State) (tile i : Nat) (r : Lanes) : State := { s with acc := mset rowZero s.acc (tile * 256 + i) r }

/-- Tile operations on a tile that have reached the engine. -/
def tileQueue (s : State) (key : Nat) : List Nat :=
  s.ops.filterMap fun (k, o) =>
    match o.body with
    | .tile t => if t.tile == some key then some k else none
    | _ => none

/-- `mtrd` waits for the tile operations that reached the engine before it, and the whole group stalls meanwhile (R171); it checks the tile's checksums,
and a poisoned tile gives an uncorrectable error and no value (R172). -/
def execMtrd (gd : LGuard) (d : VReg) (tile : BitVec 6) (col : BitVec 5) (s : State) : Out :=
  withSplit s fun g G n S =>
    if !((mget s.ctxs (s.ctxOf G)).map fun c => c.flags.getLsbD 0).getD false then .next (trapL s g n 0x01 (active G S gd)) else
    laneIssue s gd false [d.toNat] [tile.toNat] fun g G n S =>
      let act := active G S gd
      let k := tileKey s G tile.toNat
      let due := live s ((G.stall.map (·.2)).getD (tileQueue s k))
      let G := { G with stall := none }
      if act = 0 then .next (advanceLane (s.grp g G) g n)
      else if !due.isEmpty then .next (s.grp g { G with stall := some (n, due) })
      else if s.accPoison.contains k || s.accSick.contains k then
        let s : State := { s with accPoison := insNat s.accPoison k, accSick := s.accSick.filter (· != k) }
        let s := coreErr s 1 1 G.core (some (s.ctxOf G)) 0 ((s.blk? G).map (·.launch))
        .next (groupError (advanceLane (s.grp g G) g n) g 0 (some (.split n, runOv G, S.pc)))
      else .next (afterLane s g n (G.wvMask d.toNat act fun i => lane (tileRow s k i) col.toNat))

/-! ### What an operation reads (R163) -/

/-- How an operation reads `n` bytes as one element: whole, as they were at some moment that the order allows (R163, R238). -/
abbrev TileGet := Nat → Nat → Nat

def tileGet (s : State) (k : Nat) (o : Op) : TileGet := fun loc n => (s.readOf k o (2 ^ 60 * (k + 1) + loc) loc n).1

/-! ### Values -/

/-- Type of an operand format below the 4-bit ones (R164). -/
def fmtTy (f : Nat) : Ty := [Ty.bf16, .f16, .e4m3, .e5m2, .gd8, .i8].getD f .bf16

/-- Sat(RoundNE(v, bf16), bf16) as a value (R21, R22). -/
def toBf16 (v : FVal) : FVal := decodeFmt fmtBf16 (encodeFmt fmtBf16 .rn true v)

/-- An mxf4 weight (R21). -/
def mxWeight (e sc : Nat) : FVal :=
  if sc = 0xFF then .nan else
  let m := [0, 1, 2, 3, 4, 6, 8, 12].getD (e % 8) 0
  let (n, d) := scale2 m 2 ((sc : Int) - 127)
  toBf16 (.fin (decide (e ≥ 8)) n d)

/-- An i4 weight (R22). -/
def i4Weight (w sc : Nat) : FVal :=
  let i := toInt true 4 w
  toBf16 (fMul (.fin (decide (i < 0)) i.natAbs 1) (decodeFmt fmtBf16 sc))

/-- Element `k` of row `i` of A; `none` for a position that the metadata prunes (R165). -/
def aElem (get : TileGet) (sparse : Bool) (fa a i : Nat) (k : Nat) : Option FVal :=
  let val (row j : Nat) : FVal := decodeF32 (fmtTy fa) (get (row + fmtSize fa * j) (fmtSize fa))
  if sparse then
    let nib := get (a + 0x2000 + 8 * i + k / 8) 1 / 2 ^ (4 * (k / 4 % 2)) % 16
    let row := a + 32 * i
    if nib / 4 = k % 4 then some (val row (2 * (k / 4) + 1))
    else if nib % 4 = k % 4 then some (val row (2 * (k / 4)))
    else none
  else if fa ≥ 6 then
    let e := get (a + 64 * i + k / 2) 1 / 2 ^ (4 * (k % 2)) % 16
    if fa = 6 then some (mxWeight e (get (a + 0x4000 + 8 * i + k / 32) 1))
    else some (i4Weight e (get (a + 0x4000 + 8 * i + 2 * (k / 32)) 2))
  else some (val (a + 64 * i) k)

/-- The same element of an i8 row, as an integer. -/
def aInt (get : TileGet) (sparse : Bool) (a i k : Nat) : Option Int :=
  let val (row j : Nat) : Int := toInt true 8 (get (row + j) 1)
  if sparse then
    let nib := get (a + 0x2000 + 8 * i + k / 8) 1 / 2 ^ (4 * (k / 4 % 2)) % 16
    let row := a + 32 * i
    if nib / 4 = k % 4 then some (val row (2 * (k / 4) + 1))
    else if nib % 4 = k % 4 then some (val row (2 * (k / 4)))
    else none
  else some (val (a + 64 * i) k)

/-- One element of a float pass (R24): `C + TreeSum` of the rounded products, a pruned position giving +0. -/
def mmaElem (lg : Nat) (a : List (Option FVal)) (b : List FVal) (c : Elem) : Elem :=
  BitVec.ofNat 32 (addF32 c.toNat (treeSum lg ((a.zip b).map fun (x, y) => match x with
    | some x => mulF32 x y
    | none => 0)))

/-- One element of an integer pass (R25). -/
def mmaIntElem (a : List (Option Int)) (b : List Int) (c : Elem) : Elem :=
  c + BitVec.ofInt 32 (((a.zip b).map fun (x, y) => x.getD 0 * y).foldl (· + ·) 0)

/-- One element of `mepi` (R169), before the store. -/
def mepiElem (w : MepiL) (scale bias lo hi : Nat) (x : Elem) : Nat :=
  if w.int && !w.sb && w.act != .clamp then
    let x := if w.act = .relu && x.msb then 0 else x
    convert w.ty .i32 w.m x.toNat
  else
    let v := if w.int then roundNE32 (decodeTy .i32 x.toNat) else x.toNat
    let v := if w.sb then roundNE32 (fAdd .rn (fMul (decodeFmt fmtF32 v) (decodeFmt fmtF32 scale)) (decodeFmt fmtF32 bias)) else v
    let v := if w.act = .relu && relFloat .le (decodeFmt fmtF32 v) (.fin false 0 1) then 0 else v
    let v := if w.act = .clamp && decodeFmt fmtF32 v ≠ .nan then fMinMax false fmtF32 (fMinMax true fmtF32 v lo) hi else v
    convert w.ty .f32 w.m v

/-- The score of R26 for two rows of patterns. -/
def distScore (ty : Ty) (l2 : Bool) (q x : List Nat) : Elem :=
  if ty = .i8 then
    let term (p : Nat × Nat) : Int :=
      let a := toInt true 8 p.1
      let b := toInt true 8 p.2
      if l2 then (a - b) * (a - b) else a * b
    let r := ((q.zip x).map term).foldl (· + ·) 0
    BitVec.ofNat 32 (roundNE32 (.fin (decide (r < 0)) r.natAbs 1))
  else
    let term (p : Nat × Nat) : Nat :=
      let a := decodeF32 ty p.1
      let b := decodeF32 ty p.2
      if l2 then
        let e := decodeFmt fmtF32 (roundNE32 (fAdd .rn a (fNeg b)))
        mulF32 e e
      else mulF32 a b
    let ts := (q.zip x).map term
    let chunk (c : Nat) : Nat := treeSum 5 ((List.range 32).map fun k => ts.getD (32 * c + k) 0)
    let n := (ts.length + 31) / 32
    BitVec.ofNat 32 (((List.range n).tail).foldl (fun sc c => addF32 sc (chunk c)) (chunk 0))

/-- Pair `x` ranks before pair `y` (R29). -/
def ranksBefore (asc : Bool) (x y : Elem × Elem) : Bool :=
  let a := decodeFmt fmtF32 x.1.toNat
  let b := decodeFmt fmtF32 y.1.toNat
  if a = .nan || b = .nan then (if a = .nan && b = .nan then decide (x.2.toNat < y.2.toNat) else b = .nan)
  else if fLt a b then asc
  else if fLt b a then !asc
  else decide (x.2.toNat < y.2.toNat)

/-- Inserts a pair after every pair it does not rank before, so that the sort is stable (R175). -/
def rankIns (asc : Bool) (x : Elem × Elem) : List (Elem × Elem) → List (Elem × Elem)
  | [] => [x]
  | y :: ys => if ranksBefore asc x y then x :: y :: ys else y :: rankIns asc x ys

def rankSort (asc : Bool) (l : List (Elem × Elem)) : List (Elem × Elem) := l.foldl (fun r x => rankIns asc x r) []

/-! ### Retiring -/

/-- The entries of a list as an operation reads them: at most `k` of them. -/
def listEntries (get : TileGet) (list k : Nat) : List (Elem × Elem) :=
  (List.range (min k (get (list + 4) 4))).map fun e =>
    let x := get (list + 16 + 8 * e) 8
    (BitVec.ofNat 32 x, BitVec.ofNat 32 (x / 2 ^ 32))

/-- Writes a merged list: count, then the first `k` entries. -/
def putList (s : State) (key : Nat) (o : Op) (list k : Nat) (l : List (Elem × Elem)) : State :=
  let l := l.take k
  let st := o.stamp s key
  let s := auditWrite s o.aud o.ctx (list + 4) 4 l.length st
  ((List.range l.length).zip l).foldl (fun s (e, x) => auditWrite s o.aud o.ctx (list + 16 + 8 * e) 8 (x.1.toNat + 2 ^ 32 * x.2.toNat) st) s

/-- Places that an operation reads, in pieces of place and length, for the poison of R172. The entries of a list beyond its count are never read (R174). -/
def tileReads (s : State) (t : TileOp) (core : Nat) : List (Nat × Nat) :=
  let ls := lanesOf t.mask
  let list (l k : Nat) : List (Nat × Nat) := [(l, 16), (l + 16, 8 * min k (s.read (l + 4) 4))]
  match t.what with
  | .mma sparse fa fb a b =>
    (b, 32 * ((pairK sparse fa fb).getD 0) * fmtSize fb) :: ls.flatMap fun i =>
      if sparse then [(a + 32 * i, 32), (a + 0x2000 + 8 * i, 8)] else if fa ≥ 6 then [(a + 64 * i, 64), (a + 0x4000 + 8 * i, 8)] else [(a + 64 * i, 64)]
  | .mzero => []
  | .mepi w _ _ par _ => (if w.sb then [(par, 256)] else []) ++ (if w.act = .clamp then [(par + 256, 8)] else [])
  | .vdist ty _ _ q dim stride c =>
    (scrLoc core q, dim * ty.size) :: ls.map fun i => (scrLoc core ((c + i * stride) % 2 ^ 32), dim * ty.size)
  | .topk l k _ _ => list l k
  | .topkm d x k k2 _ => list d k ++ list x k2

/-- The place of an element of `mepi`. -/
def mepiLoc (w : MepiL) (core base stride : Nat) (pages : List (Nat × Nat)) (i j : Nat) : Nat :=
  let a := mepiRow w.glob base stride i + j * w.ty.size
  if w.glob then ((pages.find? (·.1 == a / 4096)).map (·.2)).getD 0 + a % 4096 else scrLoc core a

/-- Element places that `mepi` writes. -/
def mepiLocs (t : TileOp) (core : Nat) : List Nat :=
  match t.what with
  | .mepi w base stride _ pages => (lanesOf t.mask).flatMap fun i => (List.range 32).map (mepiLoc w core base stride pages i)
  | _ => []

/-- The operation meets an uncorrectable error (R172): it reads a poisoned tile or line, adds to a poisoned line, or drains a tile whose checksums fail. -/
def tilePoisoned (s : State) (t : TileOp) (core : Nat) : Bool :=
  let poisoned := (t.tile.map s.accPoison.contains).getD false
  (match t.what with
   | .mma .. => poisoned
   | .mepi w .. => poisoned || (t.tile.map s.accSick.contains).getD false || (w.add && (mepiLocs t core).any fun a => s.poison.contains (a / 64))
   | _ => false) ||
  (!s.poison.isEmpty && (tileReads s t core).any fun (a, n) => s.poison.any fun l => overlaps a n (64 * l) 64)

/-- The poisoned place that an operation meets, and the address by which its instruction named it (R334); none when it is a tile that is poisoned. -/
def tileErrAt (s : State) (t : TileOp) (core : Nat) : Option (Nat × Nat) :=
  let hit (a n : Nat) : Option Nat := (s.poison.find? fun l => overlaps a n (64 * l) 64).map fun l => max a (64 * l)
  let off (a : Nat) : Nat := (a - 2 ^ 52) % Config.scratchSpan
  let clusters : Bool := match t.what with
    | .mma .. => true
    | _ => false
  match (tileReads s t core).zipIdx.findSome? fun ((a, n), i) => (hit a n).map fun x => (x, i) with
  | some (a, i) => some (a, if clusters && i == 0 then 2 ^ 21 * (scrCore a % 4) + off a else off a)
  | none => match t.what with
    | .mepi w base stride _ pages => ((lanesOf t.mask).flatMap fun i => (List.range 32).map fun j => (i, j)).findSome? fun (i, j) =>
        let a := mepiLoc w core base stride pages i j
        if w.add && s.poison.contains (a / 64) then some (a, mepiRow w.glob base stride i + j * w.ty.size) else none
    | _ => none

/-- `vdist`: scores of some lanes (R173). -/
def distWrite (s : State) (key : Nat) (o : Op) (m : Mask) (ty : Ty) (l2 : Bool) (d q dim stride c : Nat) : State :=
  let get := tileGet s key o
  let row (a : Nat) : List Nat := (List.range dim).map fun k => get (a + ty.size * k) ty.size
  let qs := row (scrLoc o.core q)
  modGrp? s o.grp fun G => G.wvMask d m fun i => distScore ty l2 qs (row (scrLoc o.core ((c + i * stride) % 2 ^ 32)))

/-- The effect of a tile operation. Rows of one `mepi` that overlap, and the adds of an add-on-store to one place, come in ascending order of their lanes: R169 gives
no order (DESIGN CHOICE, log 92). -/
def tileEffect (s : State) (key : Nat) (o : Op) (t : TileOp) : State :=
  let ls := lanesOf t.mask
  let tile := t.tile.getD 0
  let get := tileGet s key o
  match t.what with
  | .mma sparse fa fb a b =>
    let k := (pairK sparse fa fb).getD 0
    let bAt (kk j : Nat) : Nat := get (b + fmtSize fb * (32 * kk + j)) (fmtSize fb)
    if fa = 5 then
      let cols := (List.range 32).map fun j => (List.range k).map fun kk => toInt true 8 (bAt kk j)
      ls.foldl (fun s' i =>
        let row := (List.range k).map (aInt get sparse a i)
        setTileRow s' tile i ((cols.zip (tileRow s' tile i)).map fun (c, x) => mmaIntElem row c x)) s
    else
      let cols := (List.range 32).map fun j => (List.range k).map fun kk => decodeF32 (fmtTy fb) (bAt kk j)
      ls.foldl (fun s' i =>
        let row := (List.range k).map (aElem get sparse fa a i)
        setTileRow s' tile i ((cols.zip (tileRow s' tile i)).map fun (c, x) => mmaElem (Nat.log2 k) row c x)) s
  | .mzero => ls.foldl (fun s i => setTileRow s tile i rowZero) s
  | .mepi w base stride par pages =>
    let p (off : Nat) : Nat := get (par + off) 4
    let lo := if w.act = .clamp then p 256 else 0
    let hi := if w.act = .clamp then p 260 else 0
    let cols := (List.range 32).map fun j => (j, if w.sb then p (4 * j) else 0, if w.sb then p (128 + 4 * j) else 0)
    let n := w.ty.size
    let st := o.stamp s key
    let s' := ls.foldl (fun s i =>
      ((cols.zip (tileRow s tile i)).foldl (fun s ((j, sc, bi), x) =>
        let a := mepiLoc w o.core base stride pages i j
        let v := mepiElem w sc bi lo hi x
        let v := if w.add then (if w.ty = .f32 then addF32 (s.read a 4) v else (s.read a 4 + v) % 2 ^ 32) else v
        auditWrite s o.aud o.ctx a n v { st with rels := st.rels ++ if w.add then carried s (s.writersOf a n) else [] }) s)) s
    if w.add then s' else s'.unpoison ((mepiLocs t o.core).flatMap fun a => (List.range n).map (a + ·))
  | .vdist ty l2 d q dim stride c => distWrite s key o t.mask ty l2 d q dim stride c
  | .topk list k asc pairs => putList s key o list k (rankSort asc (listEntries get list k ++ pairs))
  | .topkm dst src k k2 asc => putList s key o dst k (rankSort asc (listEntries get dst k ++ listEntries get src k2))

/-- The group of a tile operation meets its uncorrectable error: the tile is poisoned, nothing is written (R172). -/
def tileError (s : State) (k : Nat) (o : Op) (t : TileOp) : State :=
  let s : State := match t.tile with
    | some x => { s with accPoison := insNat s.accPoison x, accSick := s.accSick.filter (· != x) }
    | none => s
  let at_ := (tileErrAt s t o.core).getD (0, 0)
  let s := coreErr (dropOp (modGrp? s o.grp fun G => G.fall false false false true) k) 1 1 o.core (some o.ctx) at_.1 o.launch
  match o.grp with
  | some g => groupError s g at_.2 (some (.split t.split, t.ov, t.off))
  | none => s

/-- The lines that an operation writes may be reached now: through the home slices, and for an add-on-store at the memory port (R170). A write waits
while the host holds its line (R264). -/
def tileReach (s : State) (o : Op) (t : TileOp) : Option State :=
  match t.what with
  | .mepi w _ _ _ _ => (mepiLocs t o.core).foldl (fun s a => s.bind fun s => reachBytes s (if w.add then .port else .home (dieOf o.core)) true a w.ty.size) (some s)
  | _ => some s

/-- A `vdist` writes some lanes of its register before it retires (R163). Once it has, it has met no error (R172). -/
def tileLanes (s : State) (op : Nat) (lanes : Mask) : State :=
  match mget s.ops op with
  | some o =>
    match o.body with
    | .tile t =>
      match t.what with
      | .vdist ty l2 d q dim stride c =>
        if !(live s o.deps).isEmpty || (!t.begun && tilePoisoned s t o.core) then s else
        let m := t.mask &&& lanes
        (distWrite s op o m ty l2 d q dim stride c).modOp op fun o => { o with body := .tile { t with mask := t.mask &&& ~~~m, begun := true } }
      | _ => s
    | _ => s
  | none => s

/-- TILE_OP_RETIRE (R37, R160, R163, R176). -/
def execTileOpRetire (op : Nat) (s : State) : Out :=
  match mget s.ops op with
  | some o =>
    match o.body with
    | .tile t =>
      if !(live s o.deps).isEmpty then .next s
      else if !t.begun && tilePoisoned s t o.core then .next (tileError s op o t)
      else match tileReach s o t with
        | none => .next s
        | some s => .next (dropOp (modGrp? (tileEffect s op o t) o.grp fun G => G.fall false false false true) op)
    | _ => .next s
  | none => .next s

end Sys2Proof.Machine
end

