-- ==== Sys2Proof/Machine/Phaser.lean ====
section
/-!
DEFINITION. Phaser instructions and drain weights (R194 to R208, R346).
-/

namespace Sys2Proof.Machine

/-- Package phasers that a group's launch has (R194); a compensation runs outside its launch's phasers. -/
def pkgCount (s : State) (G : Group) : Nat := if G.comp.isSome then 0 else ((s.launch? G).map (·.desc.pphasers)).getD 0

/-- The key of the phaser that s_a names, if the id is legal (R202). -/
def phaserId (s : State) (G : Group) (a : SReg) (pkg : Bool) : Option Nat :=
  let id := (G.rs a).toNat
  if pkg then (if id < pkgCount s G then some (64 + id) else none) else if id < 64 then some id else none

/-- A count is legal for a phaser (R202). -/
def countOk (k : Nat) (x : Word) : Bool := x.toNat < 2 ^ 16 && ((k == 0) == (x == 0))

def modeArrives : PhMode → Bool
  | .sig => true
  | .wait => false
  | .sw => true

def modeWaits : PhMode → Bool
  | .sig => false
  | .wait => true
  | .sw => true

/-- Phase `p` has ended (R199). -/
def phaseEnded (cur p : BitVec 32) : Bool := decide (1 ≤ (cur - p).toNat) && decide ((cur - p).toNat ≤ 2 ^ 31)

/-- Starts a phaser instruction, with the state as it is and as it is once the instruction has issued: then the group's tile is not audited (R380). -/
def phaserStep (s : State) (k : State → State → Nat → Group → Out) : Out :=
  withScalar s fun g G => k s (barAudit s G) g G

/-! ### Membership -/

/-- The membership that registration gives (R197). -/
def newMemb (p : Phaser) (mode : PhMode) (drain : Bool) : Memb :=
  { mode := mode, ag := if p.arr = 0 then p.cur else p.cur + 1, drain := drain }

/-- The held membership of a flushed group that a restarted one may take back (R346). -/
def heldMemb (s : State) (G : Group) (k : Nat) : Option Memb :=
  (s.blk? G).bind fun b => (b.held.find? fun h => h.1 == G.idx && h.2.1 == k).map (·.2.2)

def dropHeld (s : State) (G : Group) (k : Nat) : State :=
  s.modBlk G.blk fun b => { b with held := b.held.filter fun h => !(h.1 == G.idx && h.2.1 == k) }

/-- `phreg` (R196, R197, R203, R346). The replay of an audited tile that would reach a package phaser ends, and compares nothing. -/
def execPhreg (d a b : SReg) (mode : PhMode) (pkg : Bool) (s : State) : Out :=
  phaserStep s fun s0 s g G =>
    match phaserId s G a pkg with
    | none => .next (trapS s0 g 0x01)
    | some k =>
      let drain := (G.rs b) == 1
      if (G.rs b).toNat > 1 || k = 0 || (drain && !pkg) then .next (trapS s0 g 0x01)
      else if pkg && G.audit.isSome then .next (killGroup s false g) else
      let join (s : State) (m : Memb) : Out :=
        .next (s.grp g (({ G with memb := mput G.memb k m }.ws d (m.ag.setWidth 64)).adv 1))
      match (heldMemb s G k).filter fun h => h.mode = mode && h.drain == drain with
      | some h => join (dropHeld s G k) h
      | none =>
        let packages := (mkeys G.memb).filter fun x => decide (64 ≤ x)
        if (mget G.memb k).isSome || (pkg && decide (8 ≤ packages.length)) || (drain && (drainOf G).isSome) then .next (trapS s0 g 0x01)
        else join (dropHeld s G k) (newMemb (s.ph G k) mode drain)

def execPhdrop (a : SReg) (pkg : Bool) (s : State) : Out :=
  phaserStep s fun s0 s g G =>
    match phaserId s G a pkg with
    | none => .next (trapS s0 g 0x01)
    | some k =>
      if k = 0 || (mget G.memb k).isNone then .next (trapS s0 g 0x01)
      else .next ((leavePh s g k).modGrp g fun G => G.adv 1)

/-! ### Arrivals and waits -/

/-- The checks of R203 on a member: operand values first, then a broken phaser. -/
def memberStep (s0 : State) (g : Nat) (G : Group) (id : Option Nat) (ok : Nat → Memb → Bool) (k : Nat → Memb → Phaser → Out) : Out :=
  match id with
  | none => .next (trapS s0 g 0x01)
  | some key =>
    match mget G.memb key with
    | none => .next (trapS s0 g 0x01)
    | some m =>
      if !ok key m then .next (trapS s0 g 0x01)
      else if (s0.ph G key).broken then .next (trapS s0 g 0x0C)
      else k key m (s0.ph G key)

/-- An arrival (R197, R198, R204, R207). It waits while it is held, and for the acknowledgements that a package release needs; then it counts, if its count
is the phase's. `k` goes on once it has counted. -/
def arriveStep (s0 s : State) (g : Nat) (G : Group) (id : Option Nat) (b : SReg) (drain : Bool) (mode : PhMode → Bool)
    (k : State → Nat → BitVec 32 → State) : Out :=
  memberStep s0 g G id (fun key m => countOk key (G.rs b) && mode m.mode) fun key m p =>
    let n := (G.rs b).toNat
    if m.ag ≠ p.cur then .next s0
    else if decide (64 ≤ key) && !(unacked s (scalarEarlier s G)).isEmpty then .next s0
    else if key ≠ 0 && p.expect.isSome && p.expect != some n then .next (trapS s0 g 0x01)
    else
      let p' : Phaser := { p with arr := p.arr + 1, expect := if key = 0 then none else some n, drain := p.drain || drain,
                                  rel := p.rel.join G.ord.earlier }
      let s := s.setPh G.blk key p'
      let s := s.grp g { G with memb := mput G.memb key { m with ag := m.ag + 1, hold := 0 } }
      let s := k s key m.ag
      let s : State := match s.blk? G with
        | some blk => if m.drain && m.hold > 0 then rootAdd s blk.launch (key - 64) m.ag m.hold else s
        | none => s
      .next (settlePh s G.blk key)

def execPharr (d a b : SReg) (pkg : Bool) (s : State) : Out :=
  phaserStep s fun s0 s g G =>
    arriveStep s0 s g G (phaserId s G a pkg) b false modeArrives fun s _ phase =>
      s.modGrp g fun G => (G.ws d (phase.setWidth 64)).adv 1

/-- The wait for the end of a phase: an acquire of what that phase ordered (R199, R201, R204). `d` receives the phase. -/
def waitStep (s0 s : State) (g : Nat) (G : Group) (key : Nat) (phase : BitVec 32) (d : SReg) : Out :=
  let p := s.ph G key
  if phaseEnded p.cur phase then
    .next (s.grp g (({ G with wait := .none, ord := G.ord.gain ((mget p.ended phase.toNat).getD {}) }.ws d (phase.setWidth 64)).adv 1))
  else if p.broken then .next (trapS s0 g 0x0C)
  else .next s0

/-- `phaw` and `phdrain`: arrive once, then wait (R203, R205). -/
def awaitStep (s : State) (d a b : SReg) (pkg drain : Bool) : Out :=
  phaserStep s fun s0 s g G =>
    match G.wait with
    | .arrived pkg id phase => waitStep s0 s g G (phKey pkg id) phase d
    | _ =>
      arriveStep s0 s g G (phaserId s G a pkg) b drain (· == .sw) fun s key phase =>
        s.modGrp g fun G => { G with wait := .arrived pkg (if pkg then key - 64 else key) phase }

def execPhaw (d a b : SReg) (pkg : Bool) (s : State) : Out := awaitStep s d a b pkg false
def execPhdrain (d a b : SReg) (s : State) : Out := awaitStep s d a b true true

def execPhwt (a b : SReg) (pkg : Bool) (s : State) : Out :=
  phaserStep s fun s0 s g G =>
    match G.wait with
    | .arrived pkg id phase => waitStep s0 s g G (phKey pkg id) phase 0
    | _ =>
      let phase : BitVec 32 := (G.rs b).truncate 32
      memberStep s0 g G (phaserId s G a pkg) (fun _ m => decide ((G.rs b).toNat < 2 ^ 32) && modeWaits m.mode) fun key _ p =>
        if phaseEnded p.cur phase then waitStep s0 s g G key phase 0
        else .next (s0.grp g { G with wait := .arrived pkg (if pkg then key - 64 else key) phase })

/-- The result of `phqry` (R203). -/
def phqryWord (p : Phaser) (m : Option Memb) : Word :=
  let b (x : Bool) (i : Nat) : Nat := if x then 2 ^ i else 0
  let mode : Nat := match m with
    | none => 0
    | some m => m.mode.code.toNat
  let arrived := (m.map fun m => m.ag == p.cur + 1).getD false
  let drain := (m.map (·.drain)).getD false
  BitVec.ofNat 64 (b p.broken 63 + b m.isSome 62 + 2 ^ 60 * mode + b arrived 59 + b drain 58 + 2 ^ 32 * (p.arr % 2 ^ 16) + p.cur.toNat)

def execPhqry (d a : SReg) (pkg : Bool) (s : State) : Out :=
  phaserStep s fun s0 s g G =>
    match phaserId s G a pkg with
    | none => .next (trapS s0 g 0x01)
    | some k => .next (s.grp g ((G.ws d (phqryWord (s.ph G k) (mget G.memb k))).adv 1))

/-! ### Shares (R207, R208) -/

/-- Units that a root grants to a holding that is below what the event takes. -/
def grantOf (p : Phaser) (m : Memb) (need : Nat) : Nat :=
  if m.hold < need then min Config.grantUnits (if m.ag == p.cur then p.root0 else p.root1) else 0

/-- `wsplit`. While the root has too little to grant, it waits and takes nothing. -/
def execWsplit (d : SReg) (s : State) : Out :=
  phaserStep s fun s0 s g G =>
    match drainOf G with
    | none => .next (trapS s0 g 0x01)
    | some (ph, m) =>
      let p := s.ph G (64 + ph)
      let n := grantOf p m 2
      let p' := if m.ag == p.cur then { p with root0 := p.root0 - n } else { p with root1 := p.root1 - n }
      let h := m.hold + n
      if h < 2 then .next s0
      else
        let s := s.setPh G.blk (64 + ph) p'
        let G := { G with memb := mput G.memb (64 + ph) { m with hold := h - h / 2 } }
        .next (s.grp g ((G.ws d (BitVec.ofNat 64 (2 ^ 56 * ph + 2 ^ 32 * (m.ag.toNat % 2 ^ 24) + h / 2 % 2 ^ 32))).adv 1))

/-- `wret` (R203, R208): a group that is no member of the phaser traps. -/
def execWret (a : SReg) (s : State) : Out :=
  phaserStep s fun s0 s g G =>
    let x := (G.rs a).toNat
    let n := x % 2 ^ 32
    let ph := x / 2 ^ 56
    let bits := x / 2 ^ 32 % 2 ^ 24
    let p := s.ph G (64 + ph)
    let is (q : BitVec 32) : Bool := q.toNat % 2 ^ 24 == bits
    if n = 0 || ph ≥ pkgCount s G || (mget G.memb (64 + ph)).isNone || !(is p.cur || is (p.cur + 1)) then .next (trapS s0 g 0x01)
    else if G.audit.isSome then .next (killGroup s false g) else
    let mine := (mget G.memb (64 + ph)).filter fun m => m.drain && is m.ag
    match mine, s.blk? G with
    | some m, _ => .next (s.grp g ({ G with memb := mput G.memb (64 + ph) { m with hold := m.hold + n } }.adv 1))
    | none, some b => .next ((rootAdd s b.launch ph (if is p.cur then p.cur else p.cur + 1) n).modGrp g fun G => G.adv 1)
    | none, none => .next (s.grp g (G.adv 1))

end Sys2Proof.Machine
end

