-- ==== Sys2Proof/Machine/Launch.lean ====
section
/-!
DEFINITION. Launches at run time (R292 to R311): the start of blocks and groups, their ends, the dispenser, wrap time, the deadline,
no-divert sections, completion, and rollback.
-/

namespace Sys2Proof.Machine

/-! ### CRC64 (R288, R380) -/

def crcStep : Nat → BitVec 64 → BitVec 64
  | 0, c => c
  | n + 1, c => crcStep n (if c.msb then (c <<< 1) ^^^ 0x42F0E1EBA9EA3693 else c <<< 1)

def crcStepR : Nat → BitVec 64 → BitVec 64
  | 0, c => c
  | n + 1, c => crcStepR n (if c.getLsbD 0 then (c >>> 1) ^^^ 0xC96C5795D7870F42 else c >>> 1)

/-- CRC64 with the ECMA-182 polynomial, initial value and final XOR all ones. -/
def crc64 (bs : List Byte) : BitVec 64 :=
  ~~~(bs.foldl (fun c b => if Config.crcReflected then crcStepR 8 (c ^^^ b.setWidth 64) else crcStep 8 (c ^^^ BitVec.shiftLeft (b.setWidth 64) 56))
    (BitVec.allOnes 64))

/-! ### Room and start of a block (R184, R293 to R295) -/

/-- Cores that a block uses. -/
def blockCores (wide : Bool) (core : Nat) : List Nat := if wide then (List.range 4).map (core / 4 * 4 + ·) else [core]

/-- A block holds its cores. -/
def BState.holds : BState → Bool
  | .loading => true
  | .started => true
  | .saving => true
  | .restoring => true
  | _ => false

/-- Blocks that hold a core. -/
def blocksOn (s : State) (core : Nat) : List (Nat × Block) := s.blocks.filter fun (_, B) => B.st.holds && (blockCores B.wide B.core).contains core

/-- Groups that hold registers of a core. -/
def groupsOn (s : State) (core : Nat) : List Group := s.groups.filterMap fun (_, G) => if G.core == core && G.st.here then some G else none

def descOf (s : State) (B : Block) : Option LDesc := (mget s.launches B.launch).map (·.desc)

def sumNat (l : List Nat) : Nat := l.foldl (· + ·) 0

/-- Core of group `i` (R294). -/
def groupCore (wide : Bool) (core i : Nat) : Nat := if wide then core / 4 * 4 + i % 4 else core

/-- A core that can be eligible: its die is hitched, and it is not fenced (R293). -/
def coreOk (s : State) (core : Nat) : Bool := (s.die (dieOf core)).st = .hitched && !s.fencedCores.contains core

/-- A core takes blocks: it is neither under test nor waiting for its test (R383, R384). -/
def coreUp (s : State) (core : Nat) : Bool := coreOk s core && !s.testing.contains core && !s.suspects.contains core

/-- No access or engine operation in flight names a byte of `[off, off + n)` of a core's scratch: what one of an earlier owner still writes there, nothing
reads (R305, R346), and what it still reads is not a later owner's (R286). -/
def scrQuiet (s : State) (core off n : Nat) : Bool :=
  s.ops.all fun (_, o) => match o.body with
    | .mem m => m.acc.all fun a => !overlaps a.loc 8 (scrLoc core off) n
    | .copy c => (dstHeld s o c ++ srcHeld s o c).all fun (a, k) => !overlaps a k (scrLoc core off) n
    | .tile _ => true

/-- The scratch range `[off, off + n)` is free on a core for a block. -/
def scrFree (s : State) (core off n : Nat) : Bool :=
  decide (off + n ≤ Config.scratchBytes) && scrQuiet s core off n && (blocksOn s core).all fun (_, B) => !overlaps off n B.scrOff (((descOf s B).map (·.scratch)).getD 0)

/-- Groups of a block: how many there are and how many registers each has; a compensation and a replayed tile have one group. -/
def blockGroups (B : Block) (D : LDesc) : Nat := if B.comp.isSome || B.audit.isSome then 1 else D.groups
def blockTiles (B : Block) (D : LDesc) : Nat := if B.comp.isSome then 0 else D.acctiles

/-- A core has room for a block, its scratch area left out (R184, R295). The slot quota is that of the launch's admission (R281). -/
def coreRoom (s : State) (L : Launch) (B : Block) (core c : Nat) : Bool :=
  let D := L.desc
  let mine := ((List.range (blockGroups B D)).filter fun i => groupCore B.wide core i == c).length
  let gs := groupsOn s c
  let bs := blocksOn s c
  coreUp s c && decide (sumNat (gs.map (·.n)) + mine * D.regs ≤ Config.coreVregs) && decide (gs.length + mine ≤ Config.coreGroups) &&
  decide (sumNat (bs.map fun (_, X) => ((descOf s X).map (blockTiles X)).getD 0) + blockTiles B D ≤ 64) &&
  decide (sumNat (bs.map fun (_, X) => match mget s.launches X.launch with
      | some M => if M.vif == L.vif then M.desc.workset else 0
      | none => 0) + D.workset ≤ L.quota.getD c 0)

/-- A scratch offset for a block on its cores: any free one, which one is not fixed (R294). -/
def scrPlace (s : State) (b n : Nat) (cores : List Nat) : Option Nat :=
  let free (off : Nat) : Bool := cores.all fun c => scrFree s c off n
  let any := Config.freeNat s.tick b % 24577 * 64
  if free any then some any else
    (0 :: cores.flatMap fun c => (blocksOn s c).map fun (_, B) => B.scrOff + ((descOf s B).map (·.scratch)).getD 0).find? free

/-- A core with room for a block and an offset there. -/
def placeFor (s : State) (L : Launch) (b : Nat) (B : Block) (core : Nat) : Option (Nat × Nat) :=
  let cores := blockCores B.wide core
  if cores.all (coreRoom s L B core) then (scrPlace s b L.desc.scratch cores).map fun off => (core, off) else none

/-- Partition of a new group: any with room (R91). -/
def partitionOf (s : State) (core k : Nat) : Nat :=
  let n (p : Nat) : Nat := ((groupsOn s core).filter (·.part == p)).length
  let p := Config.freeNat s.tick k % 8
  if n p < 16 then p else ((List.range 8).find? fun p => n p < 16).getD 0

/-- A group at its start (R32, R33, R40, R70, R195). -/
def Group.start (b idx core part n ov pc : Nat) (sregs : SMap Word) : Group :=
  { blk := b, idx := idx, core := core, part := part, st := .placed, n := n, sreg := sregs, vreg := [], creg := 0, preg := [], hreg := [],
    cld := 0, cst := 0, ccp := 0, ctl := 0, laneact := Mask.all, faultmask := 0, lanedone := 0, memmask := Mask.all, vote := 0, trap := {},
    wrapflag := false, ov := ov, copy := 0, pc := pc, calls := [], wait := .none, runs := [], splits := [], joins := [], exitMarks := 0,
    laneDone := [], ord := {}, tileOps := [], holds := [], stall := none, trapMode := none, stopWanted := false, sect := none,
    divertDue := false, yieldAt := none, aged := [], memb := [(0, { mode := .sw, ag := 0, drain := false })], tile := none,
    openEntry := none, comp := none, compDone := false, audit := none, lastTime := 0 }

/-- The values s1 to s6 (R33) as a register map without zeros. -/
def startRegs (xs : List (Nat × Word)) : SMap Word := xs.foldl (fun m x => mset 0 m x.1 x.2) []

/-- Table indices of a block's fixed overlays (R193, R324). -/
def fixedOvs (L : Launch) (B : Block) (compOv : Nat) : List Nat :=
  if B.comp.isSome then [compOv] else [L.desc.rootov, L.desc.trapov, L.desc.wrapov].foldl insNat []

/-- Loads a fixed overlay for a block, or takes the copy that is there; the block waits for either, so that neither is evicted (R193). -/
def loadFixed (s : State) (b ctx core : Nat) (e : OvEntry) : State × Nat :=
  match copyOf s core ctx e with
  | some (k, c) =>
    if c.loading then startLoad s core ctx e (.fixed b)
    else ((touch s k ctx e).modCopy k fun c => { c with waiters := c.waiters ++ [.fixed b] }, k)
  | none => startLoad s core ctx e (.fixed b)

/-- A block that pins its overlays waits no more for those that are there. -/
def dropReady (s : State) (b : Nat) : State :=
  { s with copies := s.copies.map fun (k, c) => (k, if c.loading then c else { c with waiters := c.waiters.filter (· != .fixed b) }) }

/-- A block takes its place: zeroed scratch, empty full/empty bits, zeroed tiles, its fixed overlays, its groups PLACED (R69, R159, R193, R209, R286). -/
def startBlock (s : State) (b : Nat) (B : Block) (L : Launch) (core off compOv : Nat) (mk : State → Nat → Nat → Group) : State :=
  let cores := blockCores B.wide core
  let mine (loc : Nat) : Bool := cores.any fun c => decide (scrLoc c off ≤ loc) && decide (loc < scrLoc c off + L.desc.scratch)
  let tiles (k : Nat) : Bool := k / 64 / 4 == b
  let s : State :=
    { cores.foldl (fun s c => s.forget (scrLoc c off) L.desc.scratch) s with
      mem := s.mem.filter fun c => !mine c.1, full := s.full.filter fun w => !mine (4 * w), poison := s.poison.filter fun l => !mine (64 * l),
      acc := s.acc.filter fun c => !tiles (c.1 / 256), accPoison := s.accPoison.filter fun k => !tiles k, accSick := s.accSick.filter fun k => !tiles k }
  let s := s.modBlk b fun B => { B with st := .loading, core := core, scrOff := off, phasers := [], killed := false }
  let loads : State × List (Nat × Nat × Nat) := cores.foldl (fun (s, l) c =>
    (fixedOvs L B compOv).foldl (fun (s, l) ov =>
      match L.tab[ov]? with
      | some e => let (s, k) := loadFixed s b L.ctx c e; (s, l ++ [(c, ov, k)])
      | none => (s, l)) (s, l)) (s, [])
  let s := loads.1.modBlk b fun B => { B with fixed := loads.2 }
  let s := (List.range (blockGroups B L.desc)).foldl (fun s i =>
    let (k, s) := s.fresh
    { s with groups := mput s.groups k (mk s k i) }) s
  dropReady s b

/-- A group of a launch's block. -/
def launchGroup (b : Nat) (L : Launch) (B : Block) (core off : Nat) (s : State) (k i : Nat) : Group :=
  let D := L.desc
  let w (n : Nat) : Word := BitVec.ofNat 64 n
  Group.start b i (groupCore B.wide core i) (partitionOf s (groupCore B.wide core i) k) D.regs D.rootov D.rootent
    (startRegs [(1, D.args), (2, w B.lin), (3, w L.blockcnt), (4, w i), (5, w D.groups), (6, w off)])

/-- Launch `x` stands before launch `y` in the deadline heap (R357): by wrap time, none last, then by admission. -/
def heapBefore (x y : Launch) : Bool :=
  match x.wrap, y.wrap with
  | some a, some b => decide (a < b) || (a == b && decide (x.order < y.order))
  | some _, none => true
  | none, some _ => false
  | none, none => decide (x.order < y.order)

/-- A launch may still start blocks. -/
def Launch.starts (L : Launch) : Bool := L.wrapped.isNone && !L.stopStart && (L.st = .admitted || L.st = .running)

/-- Where a waiting block may start: on its own core, or, when a core of it has left service for good, at any eligible place (R295). -/
def startCands (s : State) (L : Launch) (B : Block) : List Nat := if (blockCores B.wide B.core).all (coreOk s) then [B.core] else L.eligible

/-- A block of a launch ahead in the heap waits for one of some cores (R357). -/
def behind (s : State) (L : Launch) (cores : List Nat) : Bool :=
  s.blocks.any fun (_, X) => X.st = .waiting && X.comp.isNone && X.audit.isNone &&
    match mget s.launches X.launch with
    | some M => M.starts && heapBefore M L && (startCands s M X).any fun c => (blockCores X.wide c).any cores.contains
    | none => false

/-- No tile operation of a block's earlier life is in flight, and none of a block that has left one of some cores: what they write, nothing reads (R176, R346). -/
def tilesQuiet (s : State) (b : Nat) (cores : List Nat) : Bool :=
  s.ops.all fun (_, o) => match o.body with
    | .tile _ => o.blk != some b && (!cores.contains o.core || (o.blk.bind fun x => mget s.blocks x).any (·.st.holds))
    | _ => true

/-- BLOCK_START (R295). A block of which a core has left service for good moves to another eligible place. -/
def execBlockStart (b : Nat) (s : State) : Out :=
  match mget s.blocks b with
  | none => .next s
  | some B =>
    match mget s.launches B.launch with
    | none => .next s
    | some L =>
      if B.st ≠ .waiting || B.comp.isSome || B.audit.isSome || !L.starts then .next s else
      match ((startCands s L B).filter fun c => !behind s L (blockCores B.wide c) && tilesQuiet s b (blockCores B.wide c)).filterMap (placeFor s L b B) with
      | [] => .next s
      | p :: ps =>
        let (core, off) := (p :: ps).getD (Config.freeNat s.tick (b + 1) % (ps.length + 1)) p
        .next (startBlock s b B L core off 0 (launchGroup b L B core off))

/-- Every fixed overlay of a block is loaded. -/
def fixedReady (s : State) (B : Block) : Bool := B.fixed.all fun f => ((mget s.copies f.2.2).map fun c => !c.loading).getD false

/-- Every block of a launch has started. -/
def allStarted (s : State) (l : Nat) : Bool :=
  s.blocks.all fun (_, B) => B.launch != l || B.comp.isSome || B.audit.isSome || (B.st != .waiting && B.st != .loading)

/-- What the `cmpok` of every entry UNDONE of an abandonment set orders (R328). -/
def undoneBefore (s : State) (act : Nat) : Earlier :=
  match mget s.acts act with
  | none => {}
  | some A => s.acts.foldl (fun e (_, B) => if B.set == A.set then B.entries.foldl (fun e x => if x.st == .undone then e.join x.done else e) e else e) {}

/-- GROUP_START (R69, R193): the fixed overlays are pinned and the group runs at its entry; a compensation's budget begins (R325), and it acquires from the
`cmpok`s of its set (R328). Every write performed before comes before its accesses (log 61). -/
def execGroupStart (g : Nat) (s : State) : Out :=
  match mget s.groups g with
  | none => .next s
  | some G =>
    match s.blk? G with
    | none => .next s
    | some B =>
      if G.st ≠ .placed || (B.st ≠ .loading && B.st ≠ .started) || !fixedReady s B then .next s else
      let acquired : Earlier := match G.comp with
        | none => {}
        | some (a, _) => undoneBefore s a
      let s := s.grp g { G with st := .running, copy := fixedCopy s G G.ov, ord := G.ord.gain (acquired.join { view := { upto := s.wcount } }) }
      let budget : Option Nat := match G.comp with
        | none => none
        | some (a, q) => ((mget s.acts a).bind fun A => A.entries.find? (·.seq == q)).map fun e => s.now + 1000 * e.budget
      let s := s.modBlk G.blk fun B => { B with st := .started, budgetEnd := budget }
      let s := s.modLaunch B.launch fun L => if L.st = .admitted && allStarted s B.launch then { L with st := .running } else L
      .next s

/-! ### Ends of groups (R71) -/

/-- The drain of R71 is over. -/
def exitReady (G : Group) : Bool :=
  G.runs.isEmpty && G.splits.isEmpty && G.atMost 0 0 0 0 && !G.hreg.any fun (_, h) => h.st = .pending

/-- GROUP_EXIT_COMPLETE: the group leaves its phasers, its handles empty, and it is EXITED. Its vector registers are free for others (R71); the values
that they held stay on record (R255). -/
def execGroupExitComplete (g : Nat) (s : State) : Out :=
  match mget s.groups g with
  | none => .next s
  | some G =>
    if G.st ≠ .exiting || !exitReady G then .next s else
    let s := s.grp g { G.emptyHandles with st := .exited, holds := [] }
    let s := (mkeys G.memb).foldl (fun s k => leavePh s g k) s
    let s := tileDone s g false
    let s : State := match G.comp with
      | some (a, q) => if G.compDone then s else compFail s a q 4 0 0
      | none => s
    let s : State := match G.audit with
      | some k => { s with audits := mupd s.audits k fun A => { A with ended := true } }
      | none => s
    .next (tryEndBlock s G.blk)

/-! ### Wrap time and deadline (R299 to R305) -/

/-- The destination register of the `disp` that a group waits at. -/
def dispDest (s : State) (G : Group) : SReg := ((((s.code G G.ov G.copy).bind fun c => c.scalarWord G.pc)).map Decode.fd).getD 0

/-- A `disp` that waits ends with an answer. -/
def answerDisp (s : State) (g : Nat) (x : Word) : State :=
  s.modGrp g fun G => if G.wait = .dispSent then { G with wait := .dispAnswer x } else G

/-- The answers of the dispenser that are no tile (R297). -/
def dispExhausted : Word := 0xFFFFFFFFFFFFFFFF
def dispWrap : Word := 0xFFFFFFFFFFFFFFFE

/-- Diverts a group now. A `disp` at which it waits returns its answer first, -2 where there is none (R302). -/
def divertNow (s : State) (g : Nat) : State :=
  match mget s.groups g with
  | none => s
  | some G => match G.wait with
    | .dispSent => divert (s.grp g (G.ws (dispDest s G) dispWrap)) g
    | .dispAnswer x => divert (s.grp g (G.ws (dispDest s G) x)) g
    | _ => divert s g

/-- What wrap time does to one group (R302). A group in `actabn` waits on, and is diverted at the boundary after it (R322, R327). -/
def wrapGroup (s : State) (g : Nat) : State :=
  match mget s.groups g with
  | none => s
  | some G =>
    let later := s.grp g { G with divertDue := true }
    if G.wrapflag then s else
    match G.st with
    | .running =>
      if G.sect.isSome || G.wait = .abandoned || ((s.blk? G).map fun B => B.st != .started).getD false then later else divertNow s g
    | .stopped => later
    | .saved => later
    | .placed => later
    | _ => s

/-- A block that has not started never will: its groups and its requests for loads go (R193, R302). -/
def cancelStart (s : State) (b : Nat) : State :=
  match mget s.blocks b with
  | some B =>
    if B.st ≠ .loading then s else
    let s : State := { s with groups := s.groups.filter fun (_, G) => G.blk != b }
    dropIdleLoads ((dropWaiters s (· == .fixed b)).modBlk b fun B => { B with st := .waiting, fixed := [] })
  | none => s

def cancelStarts (s : State) (l : Nat) : State :=
  (s.blocks.filter fun (_, B) => B.launch == l && B.comp.isNone && B.audit.isNone).foldl (fun s (b, _) => cancelStart s b) s

/-- Wrap time comes for a launch now (R299, R302). Tiles in hand are not audited (R380). -/
def wrapNow (s : State) (l : Nat) : State :=
  match mget s.launches l with
  | none => s
  | some L =>
    if L.wrapped.isSome then s else
    let open_ := s.blocks.any fun (_, B) => B.launch == l && B.comp.isNone && B.audit.isNone && B.st != .ended
    let s := s.modLaunch l fun L =>
      { L with st := if L.st = .rolling || L.st = .complete then L.st else .wrapping, wrapped := some s.now, dispWrapped := true,
               endedLate := L.endedLate || open_ }
    let s := cancelStarts s l
    let hand := (launchGroups s l).filterMap fun g => (mget s.groups g).bind fun G => G.tile.bind (·.2)
    let s : State := { s with audits := hand.foldl (fun a k => mupd a k fun A => { A with barred := true }) s.audits }
    (launchGroups s l).foldl wrapGroup s

/-- A time has come. -/
def due (now : Nat) (x : Option Nat) : Bool := x.any fun t => decide (t ≤ now)

/-- The deadline comes for a launch (R305): every group not EXITED or KILLED is killed; an activity that is RUNNING is abandoned (R327). -/
def deadlineNow (s : State) (l : Nat) : State :=
  match mget s.launches l with
  | none => s
  | some L =>
    let s := (launchGroups (wrapNow s l) l).foldl (fun s g => killGroup s false g) (wrapNow s l)
    match L.act with
    | some a => abandon s a
    | none => s

/-- A launch that times act on (R309). -/
def Launch.timed (L : Launch) : Bool := L.st != .complete && L.st != .rolling

/-- WRAP_TIME. With a wrap budget of 0 the kill comes with it (R291). -/
def execWrapTime (l : Nat) (s : State) : Out :=
  match mget s.launches l with
  | some L => .next (if L.timed && due s.now L.wrap then (if due s.now L.deadline then deadlineNow s l else wrapNow s l) else s)
  | none => .next s

/-- DEADLINE (R305). -/
def execDeadline (l : Nat) (s : State) : Out :=
  match mget s.launches l with
  | some L => .next (if L.timed && due s.now L.deadline then deadlineNow s l else s)
  | none => .next s

/-- A group's section has passed its 65536 clocks (R303). The wait of `actabn` ends first (R322). -/
def sectionLong (s : State) (G : Group) : Bool :=
  G.st = .running && G.wait != .abandoned && G.sect.any fun x => decide ((s.die (dieOf G.core)).clk - x.1 + x.2 > Config.sectionClocks)

/-- SECTION_OVERRUN (R303): at the 65537th clock the section closes and the group traps, or is diverted with the trap registers written. -/
def overrunNow (s : State) (g : Nat) : State :=
  match mget s.groups g with
  | some G =>
    if G.divertDue then divertNow (s.grp g { G with sect := none, trap := { cause := 0x0E, ov := G.ov, off := min G.pc (scalarLen s G) }, faultmask := 0 }) g
    else trapBoundary (s.grp g { G with sect := none }) g 0x0E 0
  | none => s

def execSectionOverrun (g : Nat) (s : State) : Out :=
  match mget s.groups g with
  | some G => .next (if sectionLong s G then overrunNow s g else s)
  | none => .next s

/-- Wrap times, deadlines and the ends of sections take effect when they come (R302, R303, R305). -/
def launchesUp (s : State) : State :=
  let s := s.groups.foldl (fun s (g, G) => if sectionLong s G then overrunNow s g else s) s
  s.launches.foldl (fun s (l, L) =>
    if !L.timed then s
    else if due s.now L.deadline then deadlineNow s l
    else if due s.now L.wrap then wrapNow s l else s) s

/-! ### disp, dlqry, wupok, sndon, sndoff -/

/-- The bytes of two 64-bit values, little-endian. -/
def bytes16 (x y : Nat) : List Byte := leBytes 8 x ++ leBytes 8 y

/-- A tile that the farrier audits (R380). -/
def auditChosen (L : Launch) (t : Nat) : Bool :=
  L.desc.flags.getLsbD 1 && (crc64 (bytes16 L.id.toNat t)).toNat % 2 ^ L.desc.audit == 0

/-- The audit of a tile that a group takes now. -/
def auditOf (s : State) (G : Group) (l t : Nat) : Audit :=
  { launch := l, tile := t, core := G.core, lin := ((s.blk? G).map (·.lin)).getD 0, idx := G.idx, off := ((s.blk? G).map (·.scrOff)).getD 0 }

/-- Hands a tile to a group (R296). A tile that the group took in its trap entry while this `disp` waited is done (R298). -/
def handTile (s : State) (g : Nat) (G : Group) (l : Nat) (L : Launch) (t : Nat) (next : Nat) (returns : List Nat) : State :=
  let s := tileDone s g false
  let s := s.modLaunch l fun L => { L with next := next, returns := returns, handed := L.handed + 1 }
  let (k, s) := s.fresh
  let a := auditChosen L t
  let s : State := if a then { s with audits := mput s.audits k (auditOf s G l t) } else s
  s.modGrp g fun G => { G with wait := .dispAnswer (BitVec.ofNat 64 t), tile := some (t, if a then some k else none) }

/-- DISPENSER_REQUEST (R296, R297, R299): one request is served. -/
def execDispenserRequest (g : Nat) (s : State) : Out :=
  match mget s.groups g with
  | none => .next s
  | some G =>
    match s.blk? G, s.launch? G with
    | some B, some L =>
      if G.wait ≠ .dispSent then .next s
      else if L.dispWrapped then .next (answerDisp s g dispWrap)
      else if L.desc.flags.getLsbD 3 && L.handed == L.desc.wrapafter && decide (L.desc.wrapafter < L.desc.tilespace) then
        let s := s.modLaunch B.launch fun L => { L with wrap := some s.now }
        .next (answerDisp (wrapNow s B.launch) g dispWrap)
      else match L.returns with
        | t :: ts => .next (handTile s g G B.launch L t L.next ts)
        | [] =>
          if L.next < L.desc.tilespace then .next (handTile s g G B.launch L L.next (L.next + 1) [])
          else .next (answerDisp s g dispExhausted)
    | _, _ => .next s

/-- `disp` (R297, R298). A compensation gets -1 (R325); a replayed tile is handed to its replay once (R381). -/
def execDisp (d : SReg) (s : State) : Out :=
  withScalar s fun g G =>
    let done (s : State) (x : Word) : Out := .next (s.modGrp g fun G => ({ G with wait := .none }.ws d x).adv 1)
    match G.wait with
    | .dispAnswer x => done s x
    | .dispSent => .next s
    | _ =>
      if G.comp.isSome then done s dispExhausted else
      match G.audit.bind fun k => (mget s.audits k).map fun A => (k, A) with
      | some (k, A) =>
        if A.served then done s dispExhausted
        else done { s with audits := mput s.audits k { A with served := true } } (BitVec.ofNat 64 A.tile)
      | none => .next ((tileDone s g false).modGrp g fun G => { G with wait := .dispSent })

/-- `dlqry` (R301, R325). -/
def execDlqry (d : SReg) (dl : Bool) (s : State) : Out :=
  withScalar s fun g G =>
    let target : Option Nat :=
      if G.comp.isSome then (s.blk? G).bind (·.budgetEnd)
      else (s.launch? G).bind fun L => if dl then L.deadline else L.wrap
    let x : Word := match target with
      | some t => BitVec.ofInt 64 ((t : Int) - s.now)
      | none => BitVec.ofNat 64 Config.noDeadline
    .next (s.grp g ((G.ws d x).adv 1))

/-- `wupok` (R304): waits for its earlier set, then sets the block's validity bit. -/
def execWupok (s : State) : Out :=
  withScalar s fun g G =>
    if !(unacked s (scalarEarlier s G)).isEmpty then .next s else
    let s := s.grp g (G.adv 1)
    match s.blk? G with
    | some B =>
      if B.comp.isSome || B.audit.isSome then .next s
      else .next (s.modLaunch B.launch fun L => { L with valid := L.valid ||| (1 <<< B.lin) })
    | none => .next s

def execSndon (s : State) : Out :=
  withScalar s fun g G =>
    if G.sect.isSome then .next (trapS s g 0x01)
    else .next (s.grp g ({ G with sect := some ((s.die (dieOf G.core)).clk, 0) }.adv 1))

def execSndoff (s : State) : Out :=
  withScalar s fun g G =>
    if G.sect.isNone then .next (trapS s g 0x01) else .next (s.grp g ({ G with sect := none }.adv 1))

/-! ### Completion and rollback -/

/-- The activity of a launch allows its completion (R318). -/
def actSettled (s : State) (L : Launch) : Bool :=
  match L.act.bind fun a => mget s.acts a with
  | some A => A.st = .ended || A.st = .abandoned || A.st = .stuck
  | none => true

/-- LAUNCH_COMPLETE (R292, R318). A bitmap address that has come to meet a fatal fault ends the context, and the launch with it (R278, R280). -/
def execLaunchComplete (l : Nat) (s : State) : Out :=
  match mget s.launches l with
  | some L =>
    if L.st ≠ .complete && L.st ≠ .rolling && launchOver s l L && actSettled s L then
      .next (if translate s L.ctx girthCore none L.bitmap { r := false, w := true } = .fatal then fatalFault s L.ctx else finishLaunch s l L)
    else .next s
  | none => .next s

/-- The copied pages are put back, each line as a write of the Girth; the restore writes whole lines, so it clears their poison (R309, R361, R382). -/
def restorePages (s : State) (pages : List (Nat × List Host.Cell)) : State :=
  pages.foldl (fun s (p, cells) =>
    let s := (List.range 64).foldl (fun s i => girthReaches s (4096 * p + 64 * i)) s
    { s.forget (4096 * p) 4096 with
             mem := cells.foldl (fun m c => memWrite m c.1 c.2) (s.mem.filter fun c => c.1 / 4096 != p),
             poison := s.poison.filter fun x => x / 64 != p }) s

/-- The wrap time that a launch's deadline gives (R291). -/
def Launch.wrapTime (L : Launch) : Option Nat := L.deadline.map (· - L.desc.wrapbudget)

/-- A launch may be replayed once more: at most twice, and with enough slack to its wrap time if its deadline is finite (R309). -/
def mayReplay (s : State) (L : Launch) : Bool :=
  decide (L.replays < 2) && match L.wrapTime with
    | none => true
    | some w => decide (s.now ≤ w) && decide (1000 * L.desc.estimate ≤ (w - s.now) * L.blockcnt)

/-- A block as before its first start. -/
def unstarted (B : Block) : Block :=
  { B with st := .waiting, phasers := [], progress := none, done := 0, held := [], killed := false, pre := none, save := [], scr := [],
           full := [], tags := [], fixed := [], brec := none, home := none }

/-- LAUNCH_REPLAY (R309): after the drain, pages, validity bits and dispenser are reset, and every block waits to start afresh. The launch has the wrap time of its
deadline again: what a test wrap trigger made of it is gone with the dispenser. -/
def execLaunchReplay (l : Nat) (s : State) : Out :=
  match mget s.launches l with
  | none => .next s
  | some L =>
    if L.st ≠ .rolling || (s.ops.any fun (_, o) => o.launch == some l && !o.replays) then .next s else
    let s := cancelStarts (restorePages s L.pages) l
    let mine (b : Nat) : Bool := ((mget s.blocks b).map fun B => B.launch == l && B.comp.isNone && B.audit.isNone).getD false
    let reset (L : Launch) : Launch := { L with pages := [], valid := 0, next := 0, handed := 0, returns := [], done := 0 }
    if mayReplay s L then
      let s : State := { s with groups := s.groups.filter fun (_, G) => !mine G.blk }
      let s : State := { s with blocks := s.blocks.map fun (b, B) => (b, if mine b then unstarted B else B) }
      .next (s.modLaunch l fun L =>
        { reset L with st := .admitted, replays := L.replays + 1, wrap := L.wrapTime, wrapped := none, dispWrapped := false, phasers := [], killed := false, endedLate := false })
    else .next (s.modLaunch l fun L => { reset L with st := .running, stopStart := true, faulted := true })

/-- The slack class of a launch (R92). A launch without a deadline whose test wrap trigger has fired has negative slack: class 0 (row 0 and row 3 both name
it; DESIGN CHOICE, log 69). -/
def slackClass (now : Nat) (L : Launch) : Nat :=
  match L.wrap with
  | none => 3
  | some w =>
    let above (k : Nat) : Bool := decide (1000 * k * L.desc.estimate ≤ (w - now) * L.blockcnt)
    if decide (w ≤ now) || !above 1 then 0 else if !above 4 then 1 else if !above 16 then 2 else 3

/-- SLACK_CLASS_RECOMPUTE. -/
def execSlackClassRecompute (s : State) : Out :=
  .next { s with launches := s.launches.map fun (k, L) => (k, { L with slack := slackClass s.now L }) }

end Sys2Proof.Machine
end

