-- ==== Sys2Proof/Machine/Activity.lean ====
section
/-!
DEFINITION. Activities: the stack, seals, abandonment and compensation (R315 to R327).
-/

namespace Sys2Proof.Machine

/-- Runs an instruction of the activity chapter: a group outside any activity traps (R315). -/
def actStep (s : State) (k : Nat → Group → Nat → Activity → Out) : Out :=
  withScalar s fun g G =>
    match s.actOf G with
    | some (a, A) => k g G a A
    | none => .next (trapS s g 0x01)

/-- The same for an instruction that changes the activity: in the replay of an audited tile it changes none, and goes on with `f` (R381 lets a replay reach
nothing outside; DESIGN CHOICE, log 86). -/
def liveStep (s : State) (f : Group → Group) (k : Nat → Group → Nat → Activity → Out) : Out :=
  actStep s fun g G a A => if G.audit.isSome then .next (s.grp g ((f G).adv 1)) else k g G a A

/-- Changes one entry of an activity. -/
def modEntry (s : State) (a q : Nat) (f : StackEntry → StackEntry) : State :=
  { s with acts := mupd s.acts a fun A => { A with entries := A.entries.map fun e => if e.seq == q then f e else e } }

/-- On-die entries of a die, lowest sequence number first. -/
def onDie (s : State) (d : Nat) : List (Nat × Nat) :=
  s.acts.flatMap fun (k, A) => A.entries.filterMap fun e => if e.die == d && !e.spilled then some (k, e.seq) else none

/-- A die's segment of 256 entries spills one entry when it is full (R319). -/
def spill (s : State) (d : Nat) : State :=
  let l := onDie s d
  if l.length < 256 then s else
  match l.foldl (fun (b : Option (Nat × Nat)) x => match b with
      | some y => if y.2 < x.2 then some y else some x
      | none => some x) none with
  | some (k, q) => modEntry s k q fun e => { e with spilled := true }
  | none => s

/-- The entry of the activity that a group holds OPEN, if it holds one: one that is SEALED, UNDONE, FAILED or discarded is none (R320). -/
def heldEntry (A : Activity) (G : Group) : Option Nat := G.openEntry.filter fun q => A.entries.any fun e => e.seq == q && e.st == .open_

/-- The operand of `actopen` (R321): entry offset, overlay index, budget. -/
def actopenOk (s : State) (G : Group) (A : Activity) (x : Nat) : Bool :=
  let e := A.tab[x / 2 ^ 16 % 2 ^ 8]?
  x / 2 ^ 12 % 2 ^ 4 == 0 && x / 2 ^ 24 % 2 ^ 8 == 0 && x / 2 ^ 32 != 0 &&
  (e.map fun e => decide (x % 2 ^ 12 < e.s) && decide (slotsOf e ≤ s.workset G)).getD false &&
  (heldEntry A G).isNone && A.st = .running && decide (A.entries.length < Config.activityEntries)

def execActopen (d a : SReg) (commute : Bool) (s : State) : Out :=
  liveStep s (·.ws d (Config.freeWord s.tick 0)) fun g G k A =>
    let x := (G.rs a).toNat
    if !actopenOk s G A x then .next (trapS s g 0x01) else
    let die := dieOf G.core
    let e : StackEntry :=
      { seq := s.actSeq, entry := x % 2 ^ 12, ov := x / 2 ^ 16 % 2 ^ 8, commute := commute, st := .open_, die := die, budget := x / 2 ^ 32,
        launch := ((s.launch? G).map (·.id)).getD 0, args := (List.range 4).map fun i => G.rs (SReg.nth a (i + 1)), spilled := false, bad := false }
    let s := spill s die
    let s : State := { s with actSeq := s.actSeq + 1, acts := mupd s.acts k fun A => { A with entries := A.entries ++ [e] } }
    .next (s.grp g (({ G with openEntry := some e.seq }.ws d (BitVec.ofNat 64 e.seq)).adv 1))

def execActseal (s : State) : Out :=
  liveStep s id fun g G k A =>
    match heldEntry A G with
    | none => .next (trapS s g 0x01)
    | some q =>
      if !(unacked s (scalarEarlier s G)).isEmpty then .next s
      else .next ((modEntry s k q fun e => { e with st := .sealed }).grp g ({ G with openEntry := none }.adv 1))

/-- A group of a launch that is still there holds an OPEN entry (R322). -/
def openHeld (s : State) (A : Activity) : Bool :=
  (launchGroups s A.launch).any fun g => ((mget s.groups g).map fun G => (heldEntry A G).isSome && G.st != .exited && G.st != .killed).getD false

/-- An `actend` that waits when another has taken effect completes without one of its own: R323's condition is that of its issue. -/
def execActend (s : State) : Out :=
  liveStep s id fun g G k A =>
    if G.wait ≠ .ending && ((heldEntry A G).isSome || A.st ≠ .running) then .next (trapS s g 0x01)
    else if A.st = .running && openHeld s A then .next (s.grp g { G with wait := .ending })
    else
      let s : State := if A.st = .running then { s with acts := mput s.acts k { A with st := .ended, entries := [] } } else s
      .next (s.grp g ({ G with wait := .none }.adv 1))

/-- `actabn`, and `actdep` where it acts so: the group waits for the end of the abandonment (R322), which leaves none of its entries OPEN (R320). -/
def abnStep (s : State) (g : Nat) (G : Group) (k : Nat) (A : Activity) : Out :=
  if A.st = .ended then .next (trapS s g 0x01)
  else if G.wait = .abandoned && A.st = .abandoned then .next (s.grp g ({ G with wait := .none, openEntry := none }.adv 1))
  else if G.wait = .abandoned && A.st = .stuck then .next (trapS s g 0x0D)
  else .next (abandon (s.grp g { G with wait := .abandoned }) k)

def execActabn (s : State) : Out := liveStep s id fun g G k A => abnStep s g G k A

def execActdep (a : SReg) (s : State) : Out :=
  liveStep s id fun g G k A =>
    if G.wait = .abandoned then abnStep s g G k A else
    let x := (G.rs a).toNat
    if x = 0 || x ≥ 2 ^ 32 || A.deps.length ≥ 16 then .next (trapS s g 0x01) else
    match s.acts.find? fun (_, B) => B.ctx == A.ctx && B.id.toNat == x with
    | none => .next (s.grp g (G.adv 1))
    | some (k', B) =>
      if k' = k || B.st = .ended then .next (s.grp g (G.adv 1))
      else if B.st = .running then
        .next ({ s with acts := mput s.acts k { A with deps := insNat A.deps k' } }.grp g (G.adv 1))
      else abnStep s g G k A

def execCmpok (s : State) : Out :=
  actStep s fun g G _ _ =>
    match G.comp with
    | none => .next (trapS s g 0x01)
    | some (a, q) =>
      if !(unacked s (scalarEarlier s G)).isEmpty then .next s
      else .next (exitGroup (modEntry s a q fun e => if e.st = .open_ || e.st = .sealed then { e with st := .undone, done := G.ord.earlier } else e) g { G with compDone := true })

def execCmpfail (r : SReg) (s : State) : Out :=
  actStep s fun g G _ _ =>
    match G.comp with
    | none => .next (trapS s g 0x01)
    | some (a, q) =>
      if (G.rs r).toNat ≥ 2 ^ 16 then .next (trapS s g 0x01)
      else .next (exitGroup (compFail s a q 3 0 ((G.rs r).truncate 16)) g { G with compDone := true })

/-! ### Compensations (R324, R325) -/

/-- An entry of a set in order: its activity and the entry. -/
def setEntries (s : State) (set : Nat) : List (Nat × StackEntry) :=
  (s.acts.filter fun (_, A) => A.set == set && (A.st = .abandoning || A.st = .abandoned)).flatMap fun (k, A) => A.entries.map fun e => (k, e)

/-- The compensation of an entry is under way. -/
def compRuns (s : State) (a q : Nat) : Bool := s.blocks.any fun (_, B) => B.comp == some (a, q) && B.st != .ended

/-- The next entry above a sequence number in a set. -/
def nextAbove (es : List (Nat × StackEntry)) (q : Nat) : Option (Nat × StackEntry) :=
  es.foldl (fun b x => if q < x.2.seq && (b.map fun y => decide (x.2.seq < y.2.seq)).getD true then some x else b) none

/-- Every entry above `x` is UNDONE, or forms with it a chain of commuting entries of one activity that run or have run (R324). -/
def mayStart (s : State) (es : List (Nat × StackEntry)) : Nat → Nat × StackEntry → Bool
  | 0, _ => true
  | n + 1, x =>
    (es.all fun y => decide (y.2.seq ≤ x.2.seq) || y.2.st = .undone) ||
    match nextAbove es x.2.seq with
    | none => true
    | some y => y.2.commute && y.1 == x.1 && (y.2.st = .undone || compRuns s y.1 y.2.seq) && mayStart s es n y

/-- The highest entry of an activity that may start now. -/
def nextComp (s : State) (a : Nat) (A : Activity) : Option StackEntry :=
  let es := setEntries s A.set
  let ok := A.entries.filter fun e => (e.st = .open_ || e.st = .sealed) && !compRuns s a e.seq && mayStart s es es.length (a, e)
  ok.foldl (fun b x => if (b.map fun y : StackEntry => decide (y.seq < x.seq)).getD true then some x else b) none

/-- Everything that the groups of a set's launches issued is over (R317). -/
def setDrained (s : State) (set : Nat) : Bool :=
  s.acts.all fun (_, A) => A.set != set || A.st = .running ||
    !s.ops.any fun (_, o) => o.launch == some A.launch && !o.replays && ((o.blk.bind fun b => mget s.blocks b).map (·.comp.isNone)).getD true

/-- A core lies in an interface's clusters (R281). -/
def coreShared (s : State) (vif core : Nat) : Bool := ((mget s.vifs vif).map fun v => v.quota.clusters.getLsbD (clusterOf core)).getD false

/-- A core is eligible for a launch now (R293). -/
def coreEligible (s : State) (D : LDesc) (vif core : Nat) : Bool :=
  coreOk s core && decide (D.level ≤ s.level core) && decide (D.workset ≤ slotQuota s vif core) && coreShared s vif core

/-- A block with nothing in it. -/
def Block.empty (l lin core : Nat) (wide : Bool) : Block :=
  { launch := l, lin := lin, core := core, wide := wide, st := .waiting, scrOff := 0, fixed := [], phasers := [], progress := none, done := 0,
    held := [], killed := false, pre := none, save := [], scr := [], full := [], tags := [], comp := none, budgetEnd := none, audit := none }

/-- The group of a compensation at its start (R324). -/
def compGroup (b a : Nat) (A : Activity) (e : StackEntry) (core off : Nat) (s : State) (k _i : Nat) : Group :=
  let w (n : Nat) : Word := BitVec.ofNat 64 n
  let flags := (if e.st = .open_ then 1 else 0) + (if e.commute then 2 else 0)
  { Group.start b 0 core (partitionOf s core k) A.desc.regs e.ov e.entry
      (startRegs ([(5, w e.seq), (6, w off), (7, w flags), (8, w A.id.toNat)] ++ (List.range 4).map fun i => (i + 1, e.args.getD i 0))) with
    comp := some (a, e.seq) }

/-- COMPENSATION_START. An entry struck by an uncorrectable error cannot be run (R327). -/
def execCompensationStart (act core : Nat) (s : State) : Out :=
  match mget s.acts act with
  | none => .next s
  | some A =>
    if A.st ≠ .abandoning || !setDrained s A.set then .next s else
    match nextComp s act A, mget s.launches A.launch with
    | some e, some L =>
      if e.bad then .next (compFail s act e.seq 5 0 0) else
      let (b, s) := s.fresh
      let B : Block := { Block.empty A.launch 0 core false with comp := some (act, e.seq) }
      if !coreOk s core || decide (s.level core < A.desc.level) || !tilesQuiet s b [core] then .next s else
      match placeFor s L b B core with
      | some (core, off) => .next (startBlock { s with blocks := mput s.blocks b B } b B L core off e.ov (compGroup b act A e core off))
      | none => .next s
    | _, _ => .next s

/-- A compensation whose budget has run out fails, and is killed (R325). -/
def compUp (s : State) (g : Nat) : State :=
  match mget s.groups g with
  | none => s
  | some G =>
    match G.comp, (s.blk? G).bind (·.budgetEnd) with
    | some (a, q), some t =>
      let open_ := ((mget s.acts a).map fun A => A.entries.any fun e => e.seq == q && (e.st = .open_ || e.st = .sealed)).getD false
      if decide (t ≤ s.now) && open_ && !G.compDone && G.st != .exited && G.st != .killed then killGroup (compFail s a q 2 0 0) false g else s
    | _, _ => s

/-- COMPENSATION_BUDGET_EXPIRE. -/
def execCompensationBudgetExpire (g : Nat) (s : State) : Out := .next (compUp s g)

/-! ### Settling -/

/-- Groups that ended without `actend` abandon their activity; an activity with nothing left to undo is ABANDONED (R316). -/
def moveActs (s : State) : State :=
  let s := s.acts.foldl (fun s (k, A) =>
    match mget s.launches A.launch with
    | some L => if A.st = .running && L.st ≠ .complete && blocksOver s A.launch L then abandon s k else s
    | none => s) s
  { s with acts := s.acts.map fun (k, A) => if A.st = .abandoning && A.entries.all (·.st == .undone) then (k, { A with st := .abandoned }) else (k, A) }

/-- A settled activity writes the report that a RESUME or DISCARD owes, and the packet that names it completes (R318, R326). A record whose
launch is complete goes once the activity is no longer STUCK (R315). -/
def answerAct (s : State) (k : Nat) : State :=
  match mget s.acts k with
  | none => s
  | some A =>
    match A.answer with
    | none => s
    | some p =>
      if A.st ≠ .abandoned && A.st ≠ .stuck then s else
      let named := (mget s.pkts p).filter fun P => P.body == .act k
      let addr := (named.map (·.report)).getD A.report
      let s := writeReport s A addr
      let s : State := { s with acts := mput s.acts k { A with answer := none } }
      let s : State := if named.isSome then finishPkt s p (A.st.num + 3) else s
      if A.st = .abandoned && ((mget s.launches A.launch).map fun L => L.st == .complete).getD true then { s with acts := mdel s.acts k } else s

/-- What follows of itself after a step. -/
def settleActs (s : State) : State :=
  if s.acts.isEmpty then s else
  let s := moveActs s
  (mkeys s.acts).foldl answerAct s

end Sys2Proof.Machine
end

