-- ==== Sys2Proof/Machine/Packets.lean ====
section
/-!
DEFINITION. The ostler: taking packets in steps, and the eleven packets (R274, R289 to R295, R308, R326, R349 to R357, R390).
-/

namespace Sys2Proof.Machine

/-! ### Reading structures in a context (R178, R278, R289, R290, R308) -/

/-- How the ostler's reading of a structure in a context's memory ends: with a result, with something wrong, with places that lie outside its windows (R385),
or with a fatal fault (R278, R280). -/
inductive Look (α : Type) where
  | ok (x : α)
  | no
  | blocked (pas : List Nat)
  | fatal

def Look.bind {α β : Type} (x : Look α) (f : α → Look β) : Look β :=
  match x with
  | .ok a => f a
  | .no => .no
  | .blocked l => .blocked l
  | .fatal => .fatal

/-- Places that a reading was kept from. -/
def Look.kept {α : Type} : Look α → List Nat
  | .blocked l => l
  | _ => []

def Look.isFatal {α : Type} : Look α → Bool
  | .fatal => true
  | _ => false

def Look.isOk {α : Type} : Look α → Bool
  | .ok _ => true
  | _ => false

def Look.get? {α : Type} : Look α → Option α
  | .ok x => some x
  | _ => none

def Look.of {α : Type} : Option α → Look α
  | some x => .ok x
  | none => .no

/-- Translations that the ostler makes at once, without waiting at a page that is not present (R290): the places, if there is one for each address. -/
def lookup8 (s : State) (ctx : Nat) (need : Need) (vas : List Nat) : Look (List Nat) :=
  vas.foldr (fun va l =>
    match (if 2 ^ 48 ≤ va then TrRes.prot else translate s ctx girthCore none va need), l with
    | .fatal, _ => .fatal
    | _, .fatal => .fatal
    | .ok pa, .ok l => .ok (pa :: l)
    | _, _ => .no) (.ok [])

/-- The ostler may read every one of some places (R385). -/
def inWindows (s : State) (pas : List Nat) : Look (List Nat) :=
  match pas.filter fun pa => !ostlerMay s pa with
  | [] => .ok pas
  | l => .blocked l

/-- `n` 8-byte words from a virtual address; where it is not aligned (a range image, to which no rule gives an alignment), byte by byte. -/
def readWords (s : State) (ctx va n : Nat) : Look (List Nat) :=
  let need : Need := { r := true, w := false }
  if va % 8 = 0 then ((lookup8 s ctx need ((List.range n).map fun i => va + 8 * i)).bind (inWindows s)).bind fun pas => .ok (pas.map fun pa => s.read pa 8)
  else ((lookup8 s ctx need ((List.range (8 * n)).map (va + ·))).bind (inWindows s)).bind fun pas =>
    .ok ((List.range n).map fun i => (List.range 8).foldl (fun w j => w + 256 ^ j * s.read (pas.getD (8 * i + j) 0) 1) 0)

/-- `[va, va + n)` is mapped writable, `va` aligned: the places of its pages. -/
def writable (s : State) (ctx va n align : Nat) : Look (List Nat) :=
  if va % align != 0 || decide (2 ^ 48 < va + n) then .no
  else lookup8 s ctx { r := false, w := true } ((pagesOf va n).map fun p => max va (4096 * p))

/-- Bits of a list of 8-byte words, by byte. -/
def fieldAt (ws : List Nat) (byte n : Nat) : Nat := ws.getD (byte / 8) 0 / 2 ^ (8 * (byte % 8)) % 2 ^ (8 * n)

def parseDesc (ws : List Nat) : LDesc :=
  let f := fieldAt ws
  { table := f 0 8, tablelen := f 8 2, regs := f 10 2, groups := f 12 2, pphasers := f 14 2, scratch := f 16 4, level := f 20 1, acctiles := f 21 1,
    workset := f 22 2, rootov := f 24 2, rootent := f 26 2, trapov := f 28 2, trapent := f 30 2, wrapov := f 32 2, wrapent := f 34 2,
    flags := BitVec.ofNat 32 (f 36 4), args := BitVec.ofNat 64 (f 40 8), tilespace := f 48 4, wrapafter := f 52 4, deadline := f 56 8,
    wrapbudget := f 64 8, estimate := f 72 4, audit := f 76 1, snaplist := f 80 8, snapcount := f 88 2 }

def between (a x b : Nat) : Bool := decide (a ≤ x) && decide (x ≤ b)

/-- The fields of a descriptor lie in their ranges (R289). -/
def descOk (ws : List Nat) (D : LDesc) : Bool :=
  D.table % 32 == 0 && between 1 D.tablelen 256 && between 8 D.regs 2048 && D.regs % 8 == 0 && between 1 D.groups 128 &&
  decide (D.pphasers ≤ 256) && decide (D.scratch ≤ Config.scratchBytes) && D.scratch % 64 == 0 && (D.level == 2 || D.level == 3) &&
  decide (D.acctiles ≤ 64) && between 1 D.workset 256 && decide (D.flags.toNat < 16) && decide (1 ≤ D.tilespace) &&
  (D.flags.getLsbD 3 || D.wrapafter == 0) && (between 1 D.deadline (2 ^ 47) || D.deadline == Config.noDeadline) && decide (1 ≤ D.estimate) &&
  decide (D.audit ≤ 16) && (D.flags.getLsbD 1 || D.audit == 0) && fieldAt ws 77 3 == 0 && D.snaplist % 64 == 0 &&
  (if D.flags.getLsbD 2 then between 1 D.snapcount 16 else D.snaplist == 0 && D.snapcount == 0) &&
  fieldAt ws 90 6 == 0 && (ws.drop 12).all (· == 0)

/-- An entry of the overlay table; `none` where it breaks R177 or R178. R177 puts images in device memory; whether an image address that translates to host
or peer memory breaks the entry R179 does not say: the model reads the image where it stands (DESIGN CHOICE, log 88). -/
def ovEntry (w : List Nat) : Option OvEntry :=
  let x := w.getD 1 0
  let e : OvEntry := { image := w.getD 0 0, s := x % 2 ^ 16, l := x / 2 ^ 16 % 2 ^ 16, auto := bitN x 32, lib := bitN x 33 }
  if e.image % 64 = 0 && e.s ≤ 4096 && e.l ≤ 4096 && e.s + e.l ≠ 0 && x / 2 ^ 34 = 0 && w.getD 2 0 = 0 && w.getD 3 0 = 0 then some e else none

/-- The whole overlay table (R179). -/
def readTable (s : State) (ctx table n : Nat) : Look (List OvEntry) :=
  (readWords s ctx table (4 * n)).bind fun ws =>
    Look.of ((List.range n).foldr (fun i l => match l, ovEntry ((ws.drop (4 * i)).take 4) with
      | some l, some e => some (e :: l)
      | _, _ => none) (some []))

/-- An entry point lies in its overlay's scalar section. -/
def entryOk (tab : List OvEntry) (ov ent : Nat) : Bool := ((tab[ov]?).map fun e => decide (ent < e.s)).getD false

/-- Slots of the distinct fixed overlays of a launch (R183): those of one identity count once (R190, R191). -/
def fixedSlots (s : State) (ctx : Nat) (tab : List OvEntry) (D : LDesc) : Nat :=
  let es := ([D.rootov, D.trapov, D.wrapov].filterMap fun i => tab[i]?).map fun e => (ovId s ctx girthCore e, slotsOf e)
  sumNat ((es.foldl (fun l e => if (l.map (·.1)).contains e.1 then l else l ++ [e]) []).map (·.2))

/-- The pages of a snapshot range list, virtual and physical; it must keep the rules of R308. -/
def snapPages (s : State) (ctx : Nat) (D : LDesc) : Look (List (Nat × Nat)) :=
  if !D.flags.getLsbD 2 then .ok [] else
  (readWords s ctx D.snaplist (2 * D.snapcount)).bind fun ws =>
    (List.range D.snapcount).foldr (fun i l =>
      let base := ws.getD (2 * i) 0
      let n := ws.getD (2 * i + 1) 0
      l.bind fun l =>
        if n % 4096 ≠ 0 || n = 0 then .no
        else (writable s ctx base n 4096).bind fun pas => .ok (((pagesOf base n).zip pas).map (fun (p, pa) => (p, pa / 4096)) ++ l)) (.ok [])

/-- Reads what a launch names, when its packet is taken, and makes the checks of R290 that need nothing else. -/
def lookLaunch (s : State) (ctx : Nat) (b : LaunchBody) (act : Bool) : Look LaunchLook :=
  if b.desc.toNat % 64 ≠ 0 then .no else
  (writable s ctx b.bitmap.toNat 16 16).bind fun _ =>
  (readWords s ctx b.desc.toNat 16).bind fun ws =>
    let D := parseDesc ws
    if !descOk ws D || (act && D.flags.getLsbD 2) then .no else
    (readTable s ctx D.table D.tablelen).bind fun tab =>
      let fixed := fixedSlots s ctx tab D
      if !entryOk tab D.rootov D.rootent || !entryOk tab D.trapov D.trapent || !entryOk tab D.wrapov D.wrapent || decide (D.workset < fixed) ||
          (D.deadline != Config.noDeadline && decide (D.deadline ≤ D.wrapbudget)) then .no
      else (snapPages s ctx D).bind fun snaps => .ok { desc := D, tab := tab, snaps := snaps, fixed := fixed }

/-- A launch names a descriptor that can be read and whose deadline is finite (R289, R360). -/
def finiteLaunch (s : State) (ctx : Nat) (b : LaunchBody) : Bool :=
  b.desc.toNat % 64 == 0 && ((readWords s ctx b.desc.toNat 16).get?.map fun ws => (parseDesc ws).deadline != Config.noDeadline).getD false

/-- What the ostler reads as it takes a packet (R290, R318), whether that meets a fatal fault, and the places it was kept from (R385). -/
def lookPacket (s : State) (ctx : Nat) (w : BitVec 512) : PktLook × Bool × List Nat :=
  let base : PktLook := { time := s.now, launch := none, report := false }
  let report (va : Word) : Look (List Nat) := writable s ctx va.toNat 32 32
  match decodePacket w with
  | .ok (.launch _ b) =>
    let l := lookLaunch s ctx b false
    ({ base with launch := l.get?, finite := finiteLaunch s ctx b }, l.isFatal, l.kept)
  | .ok (.launchActivity _ b _ rep) =>
    let l := lookLaunch s ctx b true
    ({ base with launch := l.get?, report := (report rep).isOk, finite := finiteLaunch s ctx b }, l.isFatal || (report rep).isFatal, l.kept)
  | .ok (.activityResume _ _ rep) => ({ base with report := (report rep).isOk }, (report rep).isFatal, [])
  | .ok (.activityDiscard _ _ rep) => ({ base with report := (report rep).isOk }, (report rep).isFatal, [])
  | _ => (base, false, [])

/-! ### Taking packets (R349 to R356) -/

/-- A WAIT_WORD of a queue is open and holds it (R356). -/
def queueHeld (s : State) (q : Nat) : Bool := s.pkts.any fun (_, p) => p.q == q && match p.body with
  | .wait _ _ => true
  | _ => false

/-- A queue takes its next packet: published, the completion ring with room, nothing taken (R352, R359). What the packet names is read now (R290). -/
def takePacket (s : State) (q : Nat) : State :=
  match mget s.queues q with
  | none => s
  | some Q =>
    if !Q.bound then s else
    let s := logBlocked s [Q.ctl + 8, Q.ctl + 32]
    if Q.taken.isSome || queueHeld s q || !Q.held.isEmpty || cringFull s Q || decide (ostlerRead s (Q.ctl + 8) ≤ Q.rd) then s else
    let a := Q.ring + 64 * (Q.rd % 2 ^ Q.slots)
    let w := readSlot s a
    let (look, fatal, kept) := lookPacket s Q.ctx w
    let s := logBlocked s (a :: kept)
    let s : State := { s with queues := mput s.queues q { Q with taken := some (Q.rd, w), look := look, rd := Q.rd + 1 } }
    let s := ostlerWrite s (Q.ctl + 16) 8 (Q.rd + 1)
    if fatal then fatalFault s Q.ctx else s

/-- Position of a code in the order of a step (R355); a code that R354 does not list comes last. -/
def codeRank (c : Nat) : Nat :=
  [0x09, 0x08, 0x06, 0x04, 0x05, 0x02, 0x01, 0x03, 0x07, 0x0A, 0x00].findIdx (· == c)

/-- The packet a queue has taken may start (R356): with the after flag, only when the earlier ones have completed. -/
def mayBegin (s : State) (q : Nat) (Q : Queue) : Bool :=
  match Q.taken with
  | none => false
  | some (idx, w) => !queueHeld s q && (!w.getLsbD 9 || !s.pkts.any fun (_, p) => p.q == q && decide (p.idx < idx))

/-- Inserts a queue by the code it holds, then by its number. -/
def insCode (x : Nat × Nat) : List (Nat × Nat) → List (Nat × Nat)
  | [] => [x]
  | y :: ys => if x.1 < y.1 || (x.1 == y.1 && decide (x.2 < y.2)) then x :: y :: ys else y :: insCode x ys

/-- A step of the ostler begins: each lane takes what is ready, and the ready lanes are put in order (R355). -/
def formBatch (s : State) : State :=
  let s := (mkeys s.queues).foldl takePacket s
  let ready := s.queues.filterMap fun (q, Q) => if mayBegin s q Q then Q.taken.map fun t => (codeRank (t.2.extractLsb' 0 8).toNat, q) else none
  { s with batch := (ready.foldl (fun l x => insCode x l) []).map (·.2) }

/-- The packet at the head of the step: queue, index and bits. -/
def headPacket (s : State) : Option (Nat × Queue × Nat × BitVec 512) :=
  match s.batch with
  | [] => none
  | q :: _ => (mget s.queues q).bind fun Q => Q.taken.map fun t => (q, Q, t.1, t.2)

/-- The head packet leaves its lane. -/
def popPacket (s : State) (q : Nat) (Q : Queue) : State :=
  { s with batch := s.batch.tail, queues := mput s.queues q { Q with taken := none } }

/-- The head packet breaks R353 or R354: it completes REFUSED with its tag. -/
def refuseHead (s : State) : State :=
  match headPacket s with
  | none => { s with batch := s.batch.tail }
  | some (q, Q, _, w) =>
    settleBarriers (s.pkts.length + 1) (putRecord (popPacket s q Q) q (refusal w false))

/-- Runs a packet of the ostler's step. -/
def packetStep (s : State) (h : PktHdr) (code : Nat) (k : State → Nat → Queue → Nat → Pkt → State) : Out :=
  match s.turn with
  | .ostler =>
    match headPacket s with
    | none => .fault .notIssuing
    | some (q, Q, idx, _) =>
      .next (k (popPacket s q Q) q Q (pktKey q idx)
        { q := q, idx := idx, code := code, tag := h.tag, urgent := h.urgent, ctx := Q.ctx, body := .barrier [] })
  | _ => .fault .notIssuing

/-- A packet completes as it is taken; `now`: it is a launch with a finite deadline (R360). -/
def donePkt (s : State) (k : Nat) (p : Pkt) (outcome : Nat) (now : Bool := false) : State :=
  finishPkt { s with pkts := mput s.pkts k p } k outcome 0 0 now

/-- A packet stays open. -/
def openPkt (s : State) (k : Nat) (p : Pkt) (body : PBody) : State := { s with pkts := mput s.pkts k { p with body := body } }

def execNop (h : PktHdr) (s : State) : Out := packetStep s h 0 fun s _ _ k p => donePkt s k p 0

/-! ### COPY, SIGNAL, WAIT_WORD (R390) -/

def execCopy (h : PktHdr) (dst src len : Word) (s : State) : Out :=
  packetStep s h 3 fun s _ Q k p =>
    if len.toNat > 2 ^ 40 then donePkt s k p 4 else
    let (i, s) := s.fresh
    let c : CopyOp := { kind := .packet, chan := 0, dst := dst.toNat, dstScr := false, src := src.toNat, srcScr := false, len := len.toNat }
    let o : Op := { grp := none, str := .scalar, run := none, core := girthCore, ctx := Q.ctx, launch := none, blk := none, deps := [],
                    ord := { before := { view := { upto := s.wcount } } }, body := .copy c }
    openPkt { s with ops := mput s.ops i o } k p (.copy i)

/-- What an open packet does. -/
def pktBody (s : State) (k : Nat) : Option PBody :=
  match mget s.pkts k with
  | some p => some p.body
  | none => none

/-- COPY_PACKET_COMPLETE (R390). -/
def execCopyPacketComplete (p : Nat) (s : State) : Out :=
  match mget s.pkts p with
  | some P =>
    match P.body with
    | .copy i =>
      match mget s.ops i with
      | some o =>
        match o.body with
        | .copy c =>
          match copyEnd s i c with
          | some st => .next (endCopy s i st)
          | none => .next s
        | _ => .next s
      | none => .next s
    | _ => .next s
  | none => .next s

/-- How a packet's translation ends: a place, or the state after its fault (R390). -/
def pktFault (s : State) (k : Nat) (p : Pkt) (va kind : Nat) : TrRes → State
  | .ok _ => s
  | .prot => finishPkt s k 5
  | .fatal => fatalFault (finishPkt s k 5) p.ctx
  | .absent level =>
    if replayOn s p.ctx then
      let h : HeldPage := { page := va / 4096, lanes := 0, addr := BitVec.ofNat 64 va, kind := kind, level := level }
      postFault { s with pkts := mput s.pkts k { p with hold := some h } } p.ctx h
    else finishPkt s k 5

def pktTr (s : State) (p : Pkt) (va : Nat) (r w : Bool) : TrRes :=
  if 2 ^ 48 ≤ va then .prot else translate s p.ctx girthCore none va { r := r, w := w }

/-- Tries an open SIGNAL or WAIT_WORD; a write waits while the host holds its line (R264). A place outside the ostler's windows is blocked and logged (R385),
and the packet ends FAULTED, as at a protection fault (DESIGN CHOICE, log 39). -/
def tryPkt (s : State) (k : Nat) : State :=
  match mget s.pkts k with
  | none => s
  | some p =>
    if p.hold.isSome then s else
    match p.body with
    | .signal addr value add =>
      match pktTr s p addr.toNat add true with
      | .ok pa =>
        if !ostlerMay s pa then finishPkt (logBlocked s [pa]) k 5
        else if hostHeld s pa then s
        else finishPkt (girthWrite s (some p.ctx) pa 8 (if add then s.read pa 8 + value.toNat else value.toNat)) k 0
      | r => pktFault s k p addr.toNat (if add then 2 else 1) r
    | .wait b _ =>
      match pktTr s p b.addr.toNat true false with
      | .ok pa =>
        if !ostlerMay s pa then finishPkt (logBlocked s [pa]) k 5
        else if relWord b.rel (BitVec.ofNat 64 (s.read pa 8) &&& b.mask) b.value then finishPkt s k 0 else s
      | r => pktFault s k p b.addr.toNat 0 r
    | _ => s

def execSignal (h : PktHdr) (addr value : Word) (add : Bool) (s : State) : Out :=
  packetStep s h 4 fun s _ _ k p =>
    if addr.toNat % 8 ≠ 0 then donePkt s k p 4 else tryPkt (openPkt s k p (.signal addr value add)) k

def execWaitWord (h : PktHdr) (b : WaitBody) (s : State) : Out :=
  packetStep s h 5 fun s _ _ k p =>
    if b.addr.toNat % 8 ≠ 0 || !Wf.relScalar b.rel then donePkt s k p 4 else tryPkt (openPkt s k p (.wait b s.now)) k

/-- WAIT_WORD_SATISFIED. -/
def execWaitWordSatisfied (p : Nat) (s : State) : Out :=
  match pktBody s p with
  | some (.wait _ _) => .next (tryPkt s p)
  | _ => .next s

/-- WAIT_WORD_TIMEOUT. -/
def execWaitWordTimeout (p : Nat) (s : State) : Out :=
  match pktBody s p with
  | some (.wait b since) => if b.timeout ≠ 0 && decide (since + b.timeout.toNat ≤ s.now) then .next (finishPkt s p 3) else .next s
  | _ => .next s

/-! ### RANGE_COMMIT (R272, R274, R275) -/

/-- One record of the image; `none` where it breaks R272. -/
def rangeRec (w : List Nat) : Option RangeReg :=
  let a := w.getD 0 0
  let vlimit := w.getD 1 0
  let pbase := w.getD 2 0
  if !bitN a 0 then (if a = 0 && vlimit = 0 && pbase = 0 && w.getD 3 0 = 0 then some { w := false, r := false, e := false, vbase := 0, vlimit := 0, pbase := 0 } else none) else
  let vbase := a / 2 ^ 16 * 2 ^ 16
  let last := pbase + (vlimit - vbase)
  if a / 2 ^ 48 = 0 && a / 8 % 2 ^ 13 = 0 && (!bitN a 2 || bitN a 1) && vlimit % 2 ^ 16 = 0xFFFF && vlimit < 2 ^ 48 && vbase ≤ vlimit &&
      pbase % 2 ^ 16 = 0 && pbase < 2 ^ 52 && w.getD 3 0 = 0 && !paBad pbase && !paBad last && paClass pbase = paClass last then
    some { w := bitN a 2, r := bitN a 1, e := true, vbase := vbase, vlimit := vlimit, pbase := pbase }
  else none

/-- The 32 registers of an image. -/
def rangeImage (ws : List Nat) : Option (List RangeReg) :=
  (List.range 32).foldr (fun i l => match l, rangeRec ((ws.drop (4 * i)).take 4) with
    | some l, some r => some (r :: l)
    | _, _ => none) (some [])

def hitchedDies (s : State) : List Nat := (List.range s.dies.length).filter fun d => (s.die d).st = .hitched

/-- Engine operations of a context, on some cores, that have translated with the set they then keep (R274). -/
def keptOps (s : State) (ctx : Nat) (on : Nat → Bool) : List Nat :=
  s.ops.filterMap fun (k, o) => match o.body with
    | .copy c => if o.ctx == ctx && on o.core && c.rset.isSome then some k else none
    | _ => none

def execRangeCommit (h : PktHdr) (image : Word) (inval : Bool) (s : State) : Out :=
  packetStep s h 6 fun s _ Q k p =>
    match (readWords s Q.ctx image.toNat 128).bind fun ws => Look.of (rangeImage ws), mget s.ctxs Q.ctx with
    | .fatal, _ => fatalFault (donePkt s k p 5) Q.ctx
    | .ok new, some c =>
      -- a die that is not hitched is given no set of its own: what first translates there takes the new one
      let dies := hitchedDies s
      let old := dies.foldl (fun m d => mput m d (rangesOf c d)) []
      let s := s.modCtx Q.ctx fun c => { c with ranges := new, dieRanges := old }
      let s := if inval then dropTlb s fun d x => !dies.contains d && x == Q.ctx else s
      openPkt s k p (.commit Q.ctx s.tick new inval dies (keptOps s Q.ctx fun core => !dies.contains (dieOf core)))
    | l, _ => donePkt (logBlocked s l.kept) k p 4

/-- A die switches to the oldest set it has not taken: commits take effect in the order in which the ostler took them (R274, R275). -/
def rangeSwitch (s : State) (die ctx : Nat) : State :=
  let mine := s.pkts.filterMap fun (k, p) => match p.body with
    | .commit x at_ new inval dies ops => if x == ctx && dies.contains die then some (k, p, at_, new, inval, dies, ops) else none
    | _ => none
  match mine.foldl (fun (b : Option (Nat × Pkt × Nat × List RangeReg × Bool × List Nat × List Nat)) x => match b with
      | none => some x
      | some y => if x.2.2.1 < y.2.2.1 then some x else b) none with
  | some (k, p, at_, new, inval, dies, ops) =>
    let ops := sunion ops (keptOps s ctx fun core => dieOf core == die)
    let s : State := { s with pkts := mput s.pkts k { p with body := .commit ctx at_ new inval (dies.filter (· != die)) ops } }
    let s := s.modCtx ctx fun c => { c with dieRanges := mput c.dieRanges die new }
    if inval then dropTlb s fun d x => d == die && x == ctx else s
  | none => s

/-- RANGE_COMMIT_COMPLETE. -/
def execRangeCommitComplete (p : Nat) (s : State) : Out :=
  match pktBody s p with
  | some (.commit ctx _ _ _ dies ops) =>
    if !dies.isEmpty || !(live s ops).isEmpty then .next s else
    let s := finishPkt s p 0
    let more := s.pkts.any fun (_, x) => match x.body with
      | .commit y _ _ _ _ _ => y == ctx
      | _ => false
    .next (if more then s else s.modCtx ctx fun c => { c with dieRanges := [] })
  | _ => .next s

/-! ### LAUNCH, LAUNCH_ACTIVITY (R289 to R295, R308, R315, R357) -/

/-- The block shape of a launch: narrow, or wide where it fits the four cores of a cluster (R294). -/
def blockShape (D : LDesc) : Option Bool :=
  if D.groups * D.regs ≤ Config.coreVregs then some false
  else if (D.groups + 3) / 4 * D.regs ≤ Config.coreVregs then some true else none

/-- Eligible cores, or first cores of eligible clusters, in ascending order (R293, R295). -/
def eligibleCores (s : State) (D : LDesc) (vif : Nat) (wide : Bool) : List Nat :=
  if wide then ((List.range Config.numClusters).map (4 * ·)).filter fun c => (blockCores true c).all (coreEligible s D vif)
  else (List.range (4 * Config.numClusters)).filter (coreEligible s D vif)

/-- Launches of an interface that are admitted and not complete. -/
def openLaunches (s : State) (vif : Nat) : List Launch := s.launches.filterMap fun (_, L) => if L.vif == vif && L.st != .complete then some L else none

/-- Quotas of R281 hold with one more launch, and so do the package's own 256 heap entries and 256 package phasers (R1, R194, R357). -/
def quotaOk (s : State) (vif : Nat) (D : LDesc) : Bool :=
  let Q := ((mget s.vifs vif).map (·.quota)).getD Quota.none
  let ls := openLaunches s vif
  decide (sumNat (ls.map (·.desc.pphasers)) + D.pphasers ≤ Q.phasers) && decide (ls.length < Q.heap) &&
  decide ((s.launches.filter fun (_, L) => L.st != .complete).length < 256) &&
  decide (sumNat ((s.launches.filter fun (_, L) => L.st != .complete).map (·.2.desc.pphasers)) + D.pphasers ≤ 256)

/-- The admission test of R357, on products instead of quotients: every launch's remaining work is summed as `estimate * left / tilespace`. -/
def admits (s : State) (vif : Nat) (new : Launch) : Bool :=
  match new.wrap with
  | none => true
  | some w0 =>
    if w0 ≤ s.now then false else
    let ls := new :: openLaunches s vif
    let Q := ((mget s.vifs vif).map (·.quota)).getD Quota.none
    let cores := ((List.range (4 * Config.numClusters)).filter fun c =>
      Q.clusters.getLsbD (clusterOf c) && (s.die (dieOf c)).st = .hitched && !s.fencedCores.contains c).length
    let times := (ls.filterMap (·.wrap)).filter fun w => decide (s.now < w)
    times.all fun w =>
      -- a sum of fractions n/d
      let (n, d) := ls.foldl (fun (n, d) L => match L.wrap with
        | some x => if s.now < x && x ≤ w then (n * L.desc.tilespace + L.desc.estimate * (L.desc.tilespace - L.done) * d, d * L.desc.tilespace) else (n, d)
        | none => (n, d)) ((0, 1) : Nat × Nat)
      decide (n * 1000 ≤ cores * (w - s.now) * d)

/-- The number of an interface's queue among the package's 64 lanes. -/
def hwQueue (s : State) (key : Nat) : Nat :=
  sumNat ((List.range (key / 64)).map fun v => ((mget s.vifs v).map (·.quota.queues)).getD 0) + key % 64

/-- Absolute deadline and wrap time (R291); `taken` is when the ostler took the packet. -/
def launchTimes (taken : Nat) (issue : Word) (D : LDesc) : Option Nat × Option Nat :=
  if D.deadline = Config.noDeadline then (none, none) else
  let t := (if issue = 0 then taken else issue.toNat) + D.deadline
  if t > Config.noDeadline - 1 then (none, none) else (some t, some (t - D.wrapbudget))

/-- What a LAUNCH or LAUNCH_ACTIVITY that passes every check of R290 admits: the launch and its blocks' cores. -/
def planLaunch (s : State) (q : Nat) (Q : Queue) (h : PktHdr) (k : Nat) (b : LaunchBody) (idx : Nat) : Option (Launch × Bool × List Nat) :=
  let vif := Q.ctx / 64
  Q.look.launch.bind fun look =>
    let D := look.desc
    if !quotaOk s vif D then none else
    (blockShape D).bind fun wide =>
      let cores := eligibleCores s D vif wide
      let (dl, wr) := launchTimes Q.look.time h.issue D
      let L : Launch :=
        { id := BitVec.ofNat 64 (2 ^ 56 * hwQueue s q + idx % 2 ^ 56), vif := vif, ctx := Q.ctx, pkt := k, urgent := h.urgent, desc := D, tab := look.tab,
          bitmap := b.bitmap.toNat, st := .admitted, order := s.nextId, deadline := dl, wrap := wr, wrapped := none, killed := false, next := 0,
          handed := 0, returns := [], done := 0, dispWrapped := false, blockcnt := cores.length, valid := 0, phasers := [], faulted := false,
          stopStart := false, endedLate := false, act := none, slack := 3, replays := 0, pages := [], pagesLost := false, snaps := look.snaps,
          eligible := cores,
          quota := (List.range (4 * Config.numClusters)).map fun c => if coreShared s vif c then slotQuota s vif c else 0 }
      if cores.isEmpty || !admits s vif L then none else some ({ L with slack := slackClass s.now L }, wide, cores)

/-- Admits a launch: it enters the heap and its blocks are placed (R295, R357). -/
def admitLaunch (s : State) (L : Launch) (wide : Bool) (cores : List Nat) : Nat × State :=
  let (l, s) := s.fresh
  let s : State := { s with launches := mput s.launches l L }
  (l, ((List.range cores.length).zip cores).foldl (fun s (i, core) =>
    let (b, s) := s.fresh
    { s with blocks := mput s.blocks b (Block.empty l i core wide) }) s)

def execLaunch (h : PktHdr) (b : LaunchBody) (s : State) : Out :=
  packetStep s h 1 fun s q Q k p =>
    match planLaunch s q Q h k b p.idx with
    | some (L, wide, cores) => let (l, s) := admitLaunch s L wide cores; openPkt s k p (.launch l)
    | none => donePkt s k p 4 Q.look.finite

/-- An activity of a context by its id. -/
def findAct (s : State) (ctx : Nat) (id : BitVec 32) : Option (Nat × Activity) := s.acts.find? fun (_, A) => A.ctx == ctx && A.id == id

def execLaunchActivity (h : PktHdr) (b : LaunchBody) (id : BitVec 32) (report : Word) (s : State) : Out :=
  packetStep s h 2 fun s q Q k p =>
    if id = 0 || (findAct s Q.ctx id).isSome || !Q.look.report then donePkt s k p 4 Q.look.finite else
    match planLaunch s q Q h k b p.idx with
    | some (L, wide, cores) =>
      let (a, s) := s.fresh
      let (l, s) := admitLaunch s { L with act := some a } wide cores
      let A : Activity :=
        { ctx := Q.ctx, id := id, launch := l, desc := L.desc, tab := L.tab, st := .running, entries := [], deps := [], set := a, report := report.toNat,
          reason := 0, cause := 0, seq := 0, code := 0, torn := false, answer := none }
      openPkt { s with acts := mput s.acts a A } k p (.launch l)
    | none => donePkt s k p 4 Q.look.finite

/-! ### PRELOAD_OVERLAY, ACTIVITY_RESUME, ACTIVITY_DISCARD, QUEUE_BARRIER -/

/-- Starts the load on one core if it has room within the quota without evicting (R354); a load of the overlay that is under way is joined, and so goes on
whoever else gives it up. -/
def preloadOn (s : State) (ctx : Nat) (e : OvEntry) (core : Nat) : State :=
  let vif := ctx / 64
  let fits := decide (vifSlots s vif core true + slotsOf e ≤ slotQuota s vif core)
  if !coreUp s core then s else
  match copyOf s core ctx e with
  | some (_, c) => if c.loading && (c.vifs.contains vif || fits) then (startLoad s core ctx e (.preload vif)).1 else s
  | none => if fits && decide (slotsOf e ≤ (freeSlots s core).length) then (startLoad s core ctx e (.preload vif)).1 else s

def execPreloadOverlay (h : PktHdr) (table : Word) (len index : BitVec 16) (s : State) : Out :=
  packetStep s h 7 fun s _ Q k p =>
    if table.toNat % 32 ≠ 0 || !between 1 len.toNat 256 || decide (len ≤ index) then donePkt s k p 4 else
    match (readWords s Q.ctx (table.toNat + 32 * index.toNat) 4).bind fun ws => Look.of (ovEntry ws) with
    | .no => donePkt s k p 4
    | .blocked l => donePkt (logBlocked s l) k p 4
    | .fatal => fatalFault (donePkt s k p 5) Q.ctx
    | .ok e =>
      let cl := ((mget s.vifs (Q.ctx / 64)).map (·.quota.clusters)).getD 0
      let cores := (List.range (4 * Config.numClusters)).filter fun c => cl.getLsbD (clusterOf c)
      donePkt (cores.foldl (fun s c => preloadOn s Q.ctx e c) s) k p 0

/-- The activities that became STUCK together go on (R326). -/
def resumeSet (s : State) (set k : Nat) : State :=
  { s with acts := s.acts.map fun (i, A) =>
      if A.set == set && A.st = .stuck then
        (i, { A with st := .abandoning, reason := 0, cause := 0, seq := 0, code := 0, answer := some k,
                     entries := A.entries.map fun e => if e.st = .failed then { e with st := .open_ } else e })
      else (i, A) }

/-- The remaining entries of a set are dropped (R326). -/
def discardSet (s : State) (set k : Nat) : State :=
  { s with acts := s.acts.map fun (i, A) =>
      if A.set == set && A.st = .stuck then (i, { A with st := .abandoned, entries := [], answer := some k }) else (i, A) }

/-- Shared by RESUME and DISCARD: the activity must be STUCK and the report address good (R318, R326). -/
def stuckStep (s : State) (h : PktHdr) (code : Nat) (id : BitVec 32) (report : Word) (torn : Bool) (f : State → Nat → Nat → State) : Out :=
  packetStep s h code fun s _ Q k p =>
    match findAct s Q.ctx id with
    | some (a, A) =>
      if A.st ≠ .stuck || (A.torn && !torn) || !Q.look.report then donePkt s k p 4
      else settleActs (f (openPkt s k { p with report := report.toNat } (.act a)) A.set k)
    | none => donePkt s k p 4

def execActivityResume (h : PktHdr) (id : BitVec 32) (report : Word) (s : State) : Out := stuckStep s h 8 id report false resumeSet
def execActivityDiscard (h : PktHdr) (id : BitVec 32) (report : Word) (s : State) : Out := stuckStep s h 9 id report true discardSet

/-- Packets of a queue that have been taken and have not completed. -/
def openOf (s : State) (q : Nat) : List Nat :=
  (s.pkts.filterMap fun (k, p) => if p.q == q then some k else none) ++
  (((mget s.queues q).bind fun Q => Q.taken.map fun t => pktKey q t.1).toList)

/-- A named queue that is unbound has no packets to wait for (R354). -/
def openNamed (s : State) (q : Nat) : List Nat := if ((mget s.queues q).map (·.bound)).getD false then openOf s q else []

def execQueueBarrier (h : PktHdr) (mask : Word) (s : State) : Out :=
  packetStep s h 10 fun s q Q k p =>
    let n := ((mget s.vifs Q.vif).map (·.quota.queues)).getD 0
    if mask.toNat ≥ 2 ^ n then donePkt s k p 4 else
    let named := ((List.range 64).filter fun i => mask.getLsbD i).map (64 * Q.vif + ·)
    let keys := (openOf s q ++ named.flatMap (openNamed s)).filter (· != k)
    settleBarriers (s.pkts.length + 2) (openPkt s k p (.barrier keys))

end Sys2Proof.Machine
end

