-- ==== Sys2Proof/Machine/Driver.lean ====
section
/-!
DEFINITION. The driver: answers to faults (R279, R284), contexts and quotas (R281 to R285), queues, messages and storage windows
(R348, R359, R360, R362, R385).
-/

namespace Sys2Proof.Machine

/-! ### Answers to a translation fault -/

/-- What an answer does to the accesses held at its record's page. -/
inductive Answer where
  | retry | trap
  deriving DecidableEq, Repr

/-- The hold is at a page. -/
def holdAt (page : Nat) (h : Option HeldPage) : Bool := (h.map fun x => x.page == page).getD false

/-- The hold of a group that a TRAP answer traps: one whose stream could go on. A stopped group and a frozen lane stream walk again
later, and so does a second stream held at the page, once the group has trapped. -/
def trapHold (G : Group) (page : Nat) : Option (Stream × HeldPage) :=
  if G.st = .stopped || G.st = .saved then none else
  ((G.holds.find? fun h => h.pages.any (·.page == page) && (h.str == .scalar || G.trapMode.isNone)).bind fun h =>
    (h.pages.find? (·.page == page)).map fun p => (h.str, p))

/-- An answer for the streams of a group (R279). -/
def answerGroup (s : State) (a : Answer) (page g : Nat) : State :=
  match mget s.groups g with
  | none => s
  | some G =>
    let s := s.grp g { G with holds := G.holds.filter fun h => !h.pages.any (·.page == page) }
    match a, trapHold G page with
    | .trap, some (str, p) => trapStr s g str 0x05 p.lanes p.addr
    | _, _ => s

/-- An answer for engines: RETRY goes on, TRAP ends FAILED(2). -/
def answerOps (a : Answer) (page ctx : Nat) (ops : SMap Op) : SMap Op :=
  ops.map fun (k, o) =>
    match o.body with
    | .copy c =>
      if o.ctx == ctx && holdAt page c.hold then
        (k, { o with body := .copy { c with hold := none, fail := if a = .trap then some 2 else c.fail } })
      else (k, o)
    | _ => (k, o)

/-- A load of an overlay image that cannot go on: every waiter learns of it (R185, R187, R193). -/
def failWaiter (r copy : Nat) (s : State) : Waiter → State
  | .handle g _ => s.modGrp g fun G => { G with hreg := G.hreg.map fun (i, x) =>
      if x.st = .pending && (x.ov.map (·.2)) == some copy then (i, { x with st := .failed r }) else (i, x) }
  | .entry g => s.modGrp g fun G => match G.wait with
      | .entering _ _ _ _ => { G with wait := .entryFailed }
      | _ => G
  | .fixed b =>
    match mget s.blocks b with
    | none => s
    | some B =>
      if B.st = .restoring then
        let s := match B.comp with
          | some (a, q) => compFail s a q 6 r 0
          | none => s
        (s.groups.filter fun (_, G) => G.blk == b).foldl (fun s (g, _) => killGroup s true g) s
      else match B.comp with
      | some (a, q) =>
        let s := compFail s a q 6 r 0
        { s with groups := s.groups.filter (fun x => x.2.blk != b), blocks := mdel s.blocks b }
      | none => match B.audit with
      | some a =>
        -- the replay of an audited tile cannot run; the launch's own result is as it was (R311)
        let s := cancelStart s b
        { s with groups := s.groups.filter (fun x => x.2.blk != b), blocks := mdel s.blocks b, audits := mdel s.audits a }
      | none => cancelStarts ((cancelStart s b).modLaunch B.launch fun L => { L with faulted := true, stopStart := true }) B.launch
  | .preload _ => s

/-- A load ends FAILED: its slots are free and its waiters settle. -/
def failLoad (s : State) (copy r : Nat) : State :=
  match mget s.copies copy with
  | none => s
  | some c => c.waiters.foldl (failWaiter r copy) { s with copies := mdel s.copies copy }

/-- An answer for loads of overlay images. -/
def answerLoads (s : State) (a : Answer) (page ctx : Nat) : State :=
  match a with
  | .retry => { s with copies := s.copies.map fun (k, c) => (k, if c.ctx == ctx && holdAt page c.hold then { c with hold := none } else c) }
  | .trap => (s.copies.filter fun (_, c) => c.ctx == ctx && holdAt page c.hold).foldl (fun s (k, _) => failLoad s k 2) s

/-- An answer for SIGNAL and WAIT_WORD packets (R390). -/
def answerPkts (s : State) (a : Answer) (page ctx : Nat) : State :=
  (s.pkts.filter fun (_, p) => p.ctx == ctx && holdAt page p.hold).foldl (fun s (k, p) =>
    match a with
    | .retry => tryPkt { s with pkts := mput s.pkts k { p with hold := none } } k
    | .trap => finishPkt s k 5) s

/-- The unanswered record that an answer names; without one the answer is ignored (R284). -/
def recOf (s : State) (ctx : Nat) (seq : BitVec 32) : Option FaultRec := ((mget s.ctxs ctx).bind fun c => c.recs.find? (·.seq == seq))

/-- An answer acts on everything of the context held at its record's page, frees the record's entry, and lets waiting faults post. -/
def answerFault (s : State) (a : Answer) (ctx : Nat) (seq : BitVec 32) : State :=
  match recOf s ctx seq with
  | none => s
  | some r =>
    let s := s.modCtx ctx fun c => { c with recs := c.recs.filter (·.seq != seq) }
    let s := (s.groups.filter fun (_, G) => s.ctxOf G == ctx).foldl (fun s (g, _) => answerGroup s a r.page g) s
    let s : State := { s with ops := answerOps a r.page ctx s.ops }
    postWaiting (answerPkts (answerLoads s a r.page ctx) a r.page ctx) ctx

def execRetry (ctx : Nat) (seq : BitVec 32) (s : State) : Out := .next (answerFault s .retry ctx seq)
def execFaultTrap (ctx : Nat) (seq : BitVec 32) (s : State) : Out := .next (answerFault s .trap ctx seq)

def execFatal (ctx : Nat) (seq : BitVec 32) (s : State) : Out :=
  .next (if (recOf s ctx seq).isSome then fatalFault s ctx else s)

/-! ### Completion ring and messages -/

/-- COMPLETION_ROOM (R359): held records are written while there is room. -/
def execCompletionRoom (q : Nat) (s : State) : Out :=
  match mget s.queues q with
  | some Q =>
    .next (dropDead (drainRecords Q.held.length s q) q)
  | none => .next s

/-- MSIX_COALESCE_TIMEOUT (R360). -/
def execMsixCoalesceTimeout (q : Nat) (s : State) : Out :=
  match mget s.queues q with
  | some Q => .next (if (Q.pend.map fun t => decide (t + 1000 * Q.coal ≤ s.now)).getD false then dropDead (sendMsix s q) q else s)
  | none => .next s

/-- MSIX_RATE_DELAY (R385): the interface's oldest delayed message goes out once 4 µs have passed since the last. -/
def execMsixRateDelay (vif : Nat) (s : State) : Out :=
  match (mget s.vifs vif).bind (·.msgs.head?) with
  | some q => .next (dropDead (sendMsix s q) q)
  | none => .next s

/-- The watchdog refuses a queue's packet that was taken and not started; reading resumes at the stored rd (R385). -/
def resetLane (s : State) (q : Nat) : State :=
  match mget s.queues q with
  | none => s
  | some Q =>
    let s := logBlocked s (if Q.bound then [Q.ctl + 16] else [])
    let rd := if Q.bound && ostlerMay s (Q.ctl + 16) then ostlerRead s (Q.ctl + 16) else Q.rd
    let s : State := { s with queues := mput s.queues q { Q with taken := none, rd := rd } }
    match Q.taken with
    | some (_, w) => putRecord s q (refusal w Q.look.finite)
    | none => s

/-- OSTLER_WATCHDOG. -/
def execOstlerWatchdog (s : State) : Out :=
  let s := (mkeys s.queues).foldl resetLane { s with batch := [] }
  .next (settleBarriers (s.pkts.length + 1) s)

/-! ### Queues (R348) -/

def qfield (d : BitVec 512) (hi lo : Nat) : Nat := (d.extractLsb' lo (hi - lo + 1)).toNat

/-- Every field of a descriptor is valid (R348): the context is one of the interface's that is not FREE. -/
def queueDescOk (s : State) (vif : Nat) (d : BitVec 512) : Bool :=
  let ring := qfield d 511 448
  let ctl := qfield d 447 384
  let cring := qfield d 383 320
  let ctx := qfield d 319 304
  ring % 64 == 0 && !paBad ring && decide (paClass ring ≤ 1) && ctl % 64 == 0 && !paBad ctl && cring % 16 == 0 && !paBad cring &&
  ctx / 64 == vif && (mget s.ctxs ctx).isSome && between 4 (qfield d 303 299) 16 && between 4 (qfield d 298 294) 16 &&
  decide (qfield d 277 262 ≤ 50) && qfield d 261 1 == 0 && d.getLsbD 0

/-- Nothing of an earlier binding of a queue is left. -/
def queueIdle (s : State) (q : Nat) : Bool :=
  ((mget s.queues q).map fun Q => !Q.bound && Q.taken.isNone && Q.held.isEmpty).getD true && !s.pkts.any fun (_, p) => p.q == q

/-- QUEUE_BIND (R348): the ostler's indices go on from those stored in the control block. The package has 64 queues (R1). A message that records of the
earlier binding still wait for stays due (R360). -/
def execQueueBind (vif q : Nat) (d : BitVec 512) (s : State) : Out :=
  let k := 64 * vif + q
  let n := ((mget s.vifs vif).map (·.quota.queues)).getD 0
  let bound := (s.queues.filter fun (_, Q) => Q.bound).length
  if decide (n ≤ q) || decide (64 ≤ q) || decide (64 ≤ bound) || !queueIdle s k || !queueDescOk s vif d then .next s else
  let ctl := qfield d 447 384
  let s := logBlocked s [ctl + 16]
  let Q : Queue :=
    { bound := true, vif := vif, ring := qfield d 511 448, ctl := ctl, cring := qfield d 383 320, ctx := qfield d 319 304, slots := qfield d 303 299,
      cslots := qfield d 298 294, vector := qfield d 293 278, coal := qfield d 277 262, rd := ostlerRead s (ctl + 16), cwr := ostlerRead s (ctl + 24),
      taken := none, look := { time := 0, launch := none, report := false }, held := [], pend := (mget s.queues k).bind (·.pend) }
  .next { s with queues := mput s.queues k Q, qdescs := mput s.qdescs k d }

/-- QUEUE_UNBIND: the ostler stops reading the ring; packets already taken go on. -/
def execQueueUnbind (q : Nat) (s : State) : Out :=
  .next (unbindDesc { s with queues := mupd s.queues q fun Q => { Q with bound := false } } q)

/-! ### Storage windows (R362) -/

def wfield (e : BitVec 512) (byte n : Nat) : Nat := (e.extractLsb' (8 * byte) (8 * n)).toNat

/-- STORAGE_WINDOW_REGISTER: an entry whose fields break R362 is not registered. -/
def execStorageWindowRegister (ctx w : Nat) (e : BitVec 512) (s : State) : Out :=
  let W : Window :=
    { sq := wfield e 0 8, cq := wfield e 8 8, doorbell := wfield e 16 8, nsid := BitVec.ofNat 32 (wfield e 24 4), qdepth := wfield e 28 2,
      valid := e.getLsbD 240, lbas := wfield e 32 8 }
  let ok := decide (w < 8) && !paBad W.sq && paClass W.sq == 0 && !paBad W.cq && paClass W.cq == 0 && !paBad W.doorbell && paClass W.doorbell == 1 &&
    between 2 W.qdepth 4096 && wfield e 30 1 / 2 == 0 && wfield e 31 1 == 0 && wfield e 40 24 == 0
  match mget s.ctxs ctx with
  | some c => .next (if ok && c.st = .active then s.modCtx ctx fun c => { c with windows := mput c.windows w W } else s)
  | none => .next s

/-- STORAGE_WINDOW_WITHDRAW: new operations fail; PENDING ones go on. -/
def execStorageWindowWithdraw (ctx w : Nat) (s : State) : Out :=
  .next (s.modCtx ctx fun c => { c with windows := mupd c.windows w fun W => { W with valid := false } })

/-! ### Quotas and contexts -/

/-- Quotas lie in their ranges, and those that are shared fit with the other interfaces' (R281). -/
def quotaFits (s : State) (vif : Nat) (q : Quota) : Bool :=
  let others := s.vifs.filterMap fun (k, v) => if k == vif then none else some v.quota
  decide (vif ≤ 16) && q.slots.length == 128 && q.slots.all (decide <| · ≤ 256) &&
  (List.range 128).all (fun c => decide (q.slots.getD c 0 + sumNat (others.map fun o => o.slots.getD c 0) ≤ 256)) &&
  decide (q.queues + sumNat (others.map (·.queues)) ≤ 64) && decide (q.heap + sumNat (others.map (·.heap)) ≤ 256) &&
  decide (q.phasers + sumNat (others.map (·.phasers)) ≤ 256) && between 1 q.contexts 64

/-- QUOTA_SET: launches admitted before keep their placement. Quotas outside their ranges or sums change nothing: R281 does not say what they do (DESIGN
CHOICE, log 89). -/
def execQuotaSet (vif : Nat) (q : Quota) (s : State) : Out :=
  .next (if quotaFits s vif q then { s with vifs := mput s.vifs vif { (mget s.vifs vif).getD Vif.reset with quota := q } } else s)

/-- A physical address of device memory, aligned. -/
def devPa (pa align : Nat) : Bool := pa % align == 0 && paClass pa == 0 && !paBad pa

/-- The driver of an interface learns whether its create or flags change was done or REFUSED (R282). -/
def answerVif (s : State) (vif : Nat) (ok : Bool) : State :=
  { s with vifs := mput s.vifs vif { (mget s.vifs vif).getD Vif.reset with answer := some ok } }

/-- CONTEXT_CREATE (R282). A descriptor that breaks the rules leaves the context FREE. One that lies in memory which some context maps is not refused: R282
names no outcome for it (DESIGN CHOICE, log 89). -/
def execContextCreate (vif pa : Nat) (s : State) : Out :=
  let ws := (List.range 8).map fun i => s.read (pa + 8 * i) 8
  let f := fieldAt ws
  let id := f 20 2
  let ents := f 32 4
  let have_ := (s.ctxs.filter fun (k, _) => k / 64 == vif).length
  let ok := devPa pa 64 && devPa (f 0 8) 4096 && devPa (f 8 8) 4096 && id / 64 == vif && decide (vif ≤ 16) && decide (f 22 2 < 4) && devPa (f 24 8) 64 &&
    between 16 ents 4096 && (List.range 13).any (fun i => ents == 2 ^ i) && f 36 4 == 0 && f 40 8 == 0 && f 48 8 == 0 && f 56 8 == 0 &&
    (mget s.ctxs id).isNone && decide (have_ < ((mget s.vifs vif).map (·.quota.contexts)).getD 0)
  if 16 < vif then .next s else
  let off : RangeReg := { w := false, r := false, e := false, vbase := 0, vlimit := 0, pbase := 0 }
  if !ok then .next (answerVif s vif false) else
  let c : Context :=
    { st := .active, root := f 0 8, savebase := f 8 8, savesize := f 16 4, flags := BitVec.ofNat 16 (f 22 2), faultring := f 24 8, faultents := ents,
      seq := 0, recs := [], ranges := List.replicate 32 off, dieRanges := [], windows := [], cause := none, debug := false, dbgOut := none }
  .next (answerVif { s with ctxs := mput s.ctxs id c } vif true)

/-- CONTEXT_FLAGS_WRITE (R282): refused while the context has an admitted launch. For a FREE context, of which R282 does not speak, it is done and changes
nothing (DESIGN CHOICE, log 89). -/
def execContextFlagsWrite (ctx : Nat) (flags : BitVec 16) (s : State) : Out :=
  if (s.launches.any fun (_, L) => L.ctx == ctx && L.st != .complete) || decide (4 ≤ flags.toNat) then .next (answerVif s (ctx / 64) false)
  else .next (answerVif (s.modCtx ctx fun c => { c with flags := flags }) (ctx / 64) true)

/-- TEARDOWN requested by the driver (R283, R285). -/
def execTeardown (ctx : Nat) (s : State) : Out := .next (teardown s ctx)

/-- CONTEXT_RELEASE (R283): DEAD to FREE. -/
def execContextRelease (ctx : Nat) (s : State) : Out :=
  match mget s.ctxs ctx with
  | some c =>
    if c.st ≠ .dead then .next s
    else .next { s with ctxs := mdel s.ctxs ctx, acts := s.acts.filter (fun x => x.2.ctx != ctx) }
  | none => .next s

/-- REGISTER_WRITE: registers without a behaviour of their own. A queue's descriptor changes only while the queue is unbound, and its
reserved bits stay zero (R348); `crd` is a word of the control block (R349); the ostler has 16 windows (R385). -/
def execRegisterWrite (r : PlainReg) (s : State) : Out :=
  match r with
  | .queueDesc q bits =>
    if ((mget s.qdescs q).map fun d => d.getLsbD 0).getD false || bits.getLsbD 0 then .next s
    else .next { s with qdescs := mset 0 s.qdescs q (bits &&& ~~~((2 ^ 262 - 1 : BitVec 512))) }
  | .crd q x =>
    match mget s.queues q with
    | some Q => .next (outsideWrite s 0 (Q.ctl + 32) 8 x.toNat)
    | none => .next s
  | .hostWindow i base limit =>
    if i < 16 then .next { s with modl := { s.modl with hostWindows := mput s.modl.hostWindows i (base, limit) } } else .next s
  | .gateHold die ns =>
    -- 1 µs to 1 s, or never (R369)
    if (ns.map fun n => decide (1000 ≤ n) && decide (n ≤ 1000000000)).getD true then .next (s.modDie die fun D => { D with hold := ns, mayGate := false }) else .next s
  | .testInterval cl ns =>
    if cl < Config.numClusters then .next { s with testEvery := mput s.testEvery cl ns } else .next s

end Sys2Proof.Machine
end

