-- ==== Sys2Proof/Machine/Sha.lean ====
section
/-!
DEFINITION. SHA-512, with which a library overlay's digest is compared (R177, R185). The spec names the function and does not define it: FIPS 180-4
(PRESUMED, log 71).
-/

namespace Sys2Proof.Sha

/-- The first `n` primes from `p` on, with `fuel` numbers tried. -/
def primes : Nat → Nat → Nat → List Nat
  | 0, _, _ => []
  | _, _, 0 => []
  | fuel + 1, p, n + 1 =>
    if (List.range p).any fun d => decide (2 ≤ d) && p % d == 0 then primes fuel (p + 1) (n + 1) else p :: primes fuel (p + 1) n

/-- The greatest `r` below `2^bits` with `r^k ≤ x`. -/
def root (k x : Nat) : Nat → Nat
  | 0 => 0
  | bits + 1 => (List.range (bits + 1)).foldl (fun r i => if (r + 2 ^ (bits - i)) ^ k ≤ x then r + 2 ^ (bits - i) else r) 0

/-- The first 64 bits after the point of the `k`-th root of `p`. -/
def rootBits (k p : Nat) : BitVec 64 := BitVec.ofNat 64 (root k (p * 2 ^ (64 * k)) 70)

def initial : List (BitVec 64) := (primes 20 2 8).map (rootBits 2)

def constants : List (BitVec 64) := (primes 410 2 80).map (rootBits 3)

def at_ (l : List (BitVec 64)) (i : Nat) : BitVec 64 := l.getD i 0

/-- The message schedule, newest word first. -/
def schedule : Nat → List (BitVec 64) → List (BitVec 64)
  | 0, w => w
  | n + 1, w =>
    let s0 := (at_ w 14).rotateRight 1 ^^^ (at_ w 14).rotateRight 8 ^^^ (at_ w 14 >>> 7)
    let s1 := (at_ w 1).rotateRight 19 ^^^ (at_ w 1).rotateRight 61 ^^^ (at_ w 1 >>> 6)
    schedule n ((s1 + at_ w 6 + s0 + at_ w 15) :: w)

/-- One round: the eight working words, in the order a to h. -/
def round (v : List (BitVec 64)) (kw : BitVec 64 × BitVec 64) : List (BitVec 64) :=
  let a := at_ v 0
  let e := at_ v 4
  let t1 := at_ v 7 + (e.rotateRight 14 ^^^ e.rotateRight 18 ^^^ e.rotateRight 41) + ((e &&& at_ v 5) ^^^ (~~~e &&& at_ v 6)) + kw.1 + kw.2
  let t2 := (a.rotateRight 28 ^^^ a.rotateRight 34 ^^^ a.rotateRight 39) + ((a &&& at_ v 1) ^^^ (a &&& at_ v 2) ^^^ (at_ v 1 &&& at_ v 2))
  [t1 + t2, a, at_ v 1, at_ v 2, at_ v 3 + t1, e, at_ v 5, at_ v 6]

/-- A big-endian number from bytes. -/
def big (bs : List Byte) : Nat := bs.foldl (fun n b => 256 * n + b.toNat) 0

/-- Bytes of a number, the highest first. -/
def bytesOf (n x : Nat) : List Byte := (List.range n).map fun i => BitVec.ofNat 8 (x / 256 ^ (n - 1 - i))

/-- One block of 128 bytes. -/
def block (ks : List (BitVec 64)) (h : List (BitVec 64)) (bs : List Byte) : List (BitVec 64) :=
  let w := (List.range 16).map fun i => BitVec.ofNat 64 (big ((bs.drop (8 * i)).take 8))
  let v := (ks.zip (schedule 64 w.reverse).reverse).foldl round h
  List.zipWith (· + ·) h v

/-- The digest of a message. -/
def sha512 (m : List Byte) : List Byte :=
  let zeros := (239 - m.length % 128) % 128
  let p := m ++ [0x80] ++ List.replicate zeros 0 ++ bytesOf 16 (8 * m.length)
  ((List.range (p.length / 128)).foldl (fun h i => block constants h ((p.drop (128 * i)).take 128)) initial).flatMap fun x => bytesOf 8 x.toNat

end Sys2Proof.Sha
end

