-- ==== Sys2Proof/Machine/Groups.lean ====
section
/-!
DEFINITION. Events of groups and their operations: loads and stores in flight (R37, R41, R94, R141, R264, R277), the queues (R95), the
issue order (R93), and overlay images as they load (R180, R181, R185).
-/

namespace Sys2Proof.Machine

/-! ### Loads and stores -/

/-- An operation may have its effect: everything that it follows is gone, and the writes that fences put before it are performed (R113). -/
def depsGone (s : State) (o : Op) : Bool := (live s o.deps).isEmpty && (unperf s o.perf).isEmpty

/-- A compare whose every lane finds another value has no release (R111). -/
def casFails (s : State) (m : MemOp) : Bool :=
  m.kind == .cas && m.acc.all fun a => s.read a.loc (accSize m.ty) != a.y.toNat % 2 ^ m.ty.bits

def relGone (s : State) (o : Op) (m : MemOp) : Bool := (unperf s o.rel).isEmpty || casFails s m

/-- The lanes of an access that lie in a poisoned line (R382). -/
def poisonedLanes (s : State) (m : MemOp) (lanes : Mask) : List LaneAcc :=
  if s.poison.isEmpty then [] else m.acc.filter fun a => lanes.getLsbD a.lane && s.poison.contains (a.loc / 64)

/-- Values of the lanes that a load brings now, each read at one moment that the order allows (R231, R238), and the numbers of the writes they came from;
an atomic and a full/empty access have read theirs before. -/
def loadVals (s : State) (op : Nat) (o : Op) (m : MemOp) (lanes : Mask) : List (Nat × Word) × List Nat :=
  (m.acc.filter fun a => lanes.getLsbD a.lane && !(m.got.map (·.1)).contains a.lane).foldl (fun (got, saw) a =>
    let (x, seen) := s.readOf op o (256 * op + a.lane) a.loc (accSize m.ty)
    (got ++ [(a.lane, BitVec.ofNat 64 x)], sunion saw seen)) (m.got, m.saw)

def gotMask (m : MemOp) : Mask := maskOf fun i => (m.got.map (·.1)).contains i

/-- A group's operation meets an uncorrectable error: it is logged with the physical address, and the group consumes it (R334, R382). -/
def consumeAt (s : State) (o : Op) : List LaneAcc → State
  | [] => s
  | b :: _ => match o.grp with
    | some g => groupError (noteConsumed s o b.loc) g b.ea.toNat none
    | none => s

/-- LOAD_COMPLETE (R37, R57): values reach some lanes' lower and upper registers. Both halves of a lane come from one reading.
A value from a poisoned line does not arrive: the group consumes the error (R382). -/
def execLoadComplete (op : Nat) (lo hi : Mask) (s : State) : Out :=
  match mget s.ops op, opMem s op with
  | some o, some m =>
    let able : Mask := if m.kind = .load then Mask.all else gotMask m
    let lo := m.lo &&& lo &&& able
    let hi := m.hi &&& hi &&& able
    if !depsGone s o then .next s else
    let want := if m.kind = .load then (lo ||| hi) &&& ~~~gotMask m else 0
    let (s, fresh) := reachLanes s o m want
    let lo := lo &&& ~~~(want &&& ~~~fresh)
    let hi := hi &&& ~~~(want &&& ~~~fresh)
    if (lo ||| hi) = 0 then .next s else
    let bad := poisonedLanes s m fresh
    let badMask := maskOf fun i => bad.any (·.lane == i)
    let (vals, saw) := loadVals s op o m (lo ||| hi)
    let s' := writeDst s o m (lo &&& ~~~badMask) (hi &&& ~~~badMask) vals
    let lo' := m.lo &&& ~~~lo &&& ~~~badMask
    let hi' := m.hi &&& ~~~hi &&& ~~~badMask
    let m' : MemOp := { m with lo := lo', hi := hi', got := vals.filter fun (i, _) => lo'.getLsbD i || hi'.getLsbD i || m.todo.getLsbD i, saw := saw }
    .next (consumeAt (settleMem (s'.modOp op fun o => { o with body := .mem m' }) op) o bad)
  | _, _ => .next s

/-- The new ones among the writes have invalidated the copies that other dies had (R257). -/
def noteInv (before after : State) : State :=
  { after with hist := after.hist.map fun e =>
      if e.n < before.wcount || isScr e.loc then e else { e with inv := (List.range Config.numDies).filter fun d => (before.coh.girth.at_ d (e.loc / 64)).st != .i } }

/-- Performs some lanes of a store, an atomic or a full/empty access, which acknowledges them (R37, R143, R257). -/
def performOp (s : State) (op : Nat) (o : Op) (m : MemOp) (lanes : Mask) : State :=
  let bad := if m.kind = .store || m.kind = .fePut then [] else poisonedLanes s m lanes
  let good := lanes &&& ~~~(maskOf fun i => bad.any (·.lane == i))
  let (s, got, saw) := performLanes s op o m good
  let ret := (m.lo ||| m.hi) != 0 || m.kind == .feTake || m.kind == .feKeep
  let isFe := m.kind == .feTake || m.kind == .feKeep
  let todo := m.todo &&& ~~~lanes
  let drop := lanes &&& ~~~good
  let m' : MemOp :=
    { m with todo := todo, got := if ret then m.got ++ got else m.got, saw := sunion m.saw saw,
             lo := (if isFe then m.lo ||| good else m.lo) &&& ~~~drop, hi := m.hi &&& ~~~drop, more := m.more && todo != 0 }
  let s := (s.modOp op fun o => { o with body := .mem m' }).unpoison (if opWrites o m then laneBytes m good else [])
  consumeAt (settleMem s op) o bad

/-- The kinds that are performed lane by lane and acknowledged. -/
def MKind.acks : MKind → Bool
  | .store => true
  | .atom _ => true
  | .cas => true
  | _ => false

/-- STORE_ACK: lanes of a store or atomic are performed and acknowledged; those performed at die scope before are acknowledged. A lane whose line no cache can
give up now, or that the host still holds, waits. -/
def execStoreAck (op : Nat) (part : Mask) (s : State) : Out :=
  match mget s.ops op, opMem s op with
  | some o, some m =>
    if !m.kind.acks || m.more || !depsGone s o || !relGone s o m then .next s else
    let acked := hostFree s m (m.unack &&& part)
    let (s1, lanes) := reachLanes s o m (m.todo &&& part)
    if (lanes ||| acked) = 0 then .next s1 else
    .next (noteInv s (performOp s1 op o { m with unack := m.unack &&& ~~~acked } lanes))
  | _, _ => .next s

/-- Lanes of a plain store to device memory are performed in their core's caches, for the agents of its die, while the host still holds the line: they are
acknowledged later (R257). -/
def storePerform (s : State) (op : Nat) (part : Mask) : State :=
  match mget s.ops op, opMem s op with
  | some o, some m =>
    if m.kind ≠ .store || !depsGone s o || !relGone s o m || !opWrites o m then s else
    let held := (m.todo &&& part) &&& maskOf fun i => m.acc.any fun a => a.lane == i && hostHeld s a.loc
    let (s1, lanes) := (m.acc.filter fun a => held.getLsbD a.lane).foldl (fun (s, l) a =>
      match reachDie s o.core (a.loc / 64) with
      | some t => (t, l ||| ((1 : Mask) <<< a.lane))
      | none => (s, l)) (s, 0)
    if lanes = 0 then s else
    noteInv s (performOp s1 op o { m with unack := m.unack ||| lanes } lanes)
  | _, _ => s

/-- FULL_EMPTY_WAIT_DONE (R140): one lane of a full/empty instruction finds its word ready, and finishes. -/
def execFullEmptyWaitDone (g split : Nat) (lane : BitVec 8) (s : State) : Out :=
  match (mget s.groups g).bind fun G => (mget G.splits split).bind (·.fe) with
  | none => .next s
  | some k =>
    match mget s.ops k, opMem s k with
    | some o, some m =>
      let i := lane.toNat
      let ready := m.acc.any fun a => a.lane == i && (s.full.contains (a.loc / 4) != (m.kind == .fePut))
      if !m.todo.getLsbD i || !ready || !depsGone s o || !relGone s o m then .next s else .next (performOp s k o m (1 <<< i))
    | _, _ => .next s

/-- REJECTED_ACCESS_RETRY (R94): the retry is invisible, with no repeated effect. -/
def execRejectedAccessRetry (_op : Nat) (_accepted : Bool) (s : State) : Out := .next s

/-- TRANSLATION_MISS_RETRY (R277): the retry is invisible. -/
def execTranslationMissRetry (_cluster _miss : Nat) (_accepted : Bool) (s : State) : Out := .next s

/-! ### Decoupled queues (R95) and issue order (R93) -/

/-- The clock of the die on which a queue stands. -/
def queueClk (s : State) : QUnit → Nat
  | .laneRuns g => (s.die (dieOf (((mget s.groups g).map (·.core)).getD 0))).clk
  | .copyCmds core => (s.die (dieOf core)).clk
  | .dieLink d => (s.die d).clk

/-- A queue has a head: a run, a copy that is not over; what a link carries has no state of its own. -/
def queueHead (s : State) : QUnit → Bool
  | .laneRuns g => ((mget s.groups g).map fun G => !G.runs.isEmpty).getD false
  | .copyCmds core => s.ops.any fun (_, o) => o.core == core && (match o.body with
    | .copy _ => true
    | _ => false)
  | .dieLink _ => true

/-- A queue is full: a lane-run queue holds 8 runs (R73); the spec gives the others no length. -/
def queueFull (s : State) : QUnit → Bool
  | .laneRuns g => ((mget s.groups g).map fun G => decide (Config.runQueueLen ≤ G.runs.length)).getD false
  | _ => true

/-- The queue has a head, and the queue below it is full. -/
def Jam.stands (s : State) (j : Jam) : Bool := queueHead s j.q && queueFull s j.down

/-- What blocks the head of a queue now. -/
def jamOf (s : State) (q : QUnit) : Option Jam := s.jams.find? fun j => j.q == q && j.stands s

/-- A head that nothing blocks any more is not blocked: its 512 clocks begin anew (R95). -/
def settleJams (s : State) : State := { s with jams := s.jams.filter (·.stands s) }

/-- The head of a queue comes to be blocked by a full queue below it. -/
def queueBlocks (s : State) (q down : QUnit) : State :=
  let j : Jam := { q := q, down := down, since := queueClk s q }
  if (jamOf s q).isSome || !j.stands s then s else { s with jams := s.jams.filter (·.q != q) ++ [j] }

/-- Something drains: the entry that a unit has lent from its reserve returns, or a blocked head moves. -/
def queueMoves (s : State) (q : QUnit) : State :=
  if s.reserve.contains q then { s with reserve := s.reserve.filter (· != q) } else { s with jams := s.jams.filter (·.q != q) }

/-- QUEUE_BLOCK_TIMEOUT: the head of a queue has been blocked for 512 clocks, and a probe token that names the queue goes to the full queue below it. -/
def execQueueBlockTimeout (q down : QUnit) (s : State) : Out :=
  match jamOf s q with
  | none => .next s
  | some j =>
    if j.down ≠ down || decide (queueClk s q < j.since + Config.probeClocks) || s.probes.any (·.origin == q) then .next s
    else .next { s with probes := s.probes ++ [{ origin := q, at_ := down }] }

/-- PROBE_TOKEN: a token that is back at its origin grants the origin's head the one entry of its reserve, and the head moves there; at a queue that is
itself blocked by the full queue `next` it moves on; at any other it is dropped. -/
def execProbeToken (tok : Nat) (next : Option QUnit) (s : State) : Out :=
  match s.probes[tok]? with
  | none => .next s
  | some p =>
    let rest := s.probes.eraseIdx tok
    if p.at_ == p.origin then
      .next (if s.reserve.contains p.origin || (jamOf s p.origin).isNone then { s with probes := rest }
        else { s with probes := rest, reserve := s.reserve ++ [p.origin], jams := s.jams.filter (·.q != p.origin) })
    else match jamOf s p.at_ with
      | some j => if next = some j.down then .next { s with probes := s.probes.set tok { p with at_ := j.down } } else .next s
      | none => if next = none then .next { s with probes := rest } else .next s

/-- SYIELD_WINDOW_EXPIRY: 256 clocks after its last syield. -/
def execSyieldWindowExpiry (g : Nat) (s : State) : Out :=
  match mget s.groups g with
  | some G =>
    match G.yieldAt with
    | some t => .next (if decide (t + Config.yieldClocks ≤ (s.die (dieOf G.core)).clk) then s.grp g { G with yieldAt := none } else s)
    | none => .next s
  | none => .next s

/-- Since which clock a stream has been ready without issuing, if it is ready. -/
def Group.readyOf (G : Group) : Stream → Option Nat
  | .scalar => G.ready
  | .split n => (mget G.splits n).bind (·.ready)

/-- AGEING_FLOOR: a stream that has been ready for 64 issue slots, one a clock, without issuing stands before every class until it issues. -/
def execAgeingFloor (g : Nat) (split : Option Nat) (s : State) : Out :=
  let str : Stream := match split with
    | none => .scalar
    | some k => .split k
  match mget s.groups g with
  | none => .next s
  | some G =>
    match G.readyOf str with
    | none => .next s
    | some r =>
      if G.aged.contains str || decide ((s.die (dieOf G.core)).clk < r + Config.ageingSlots) then .next s
      else .next (s.grp g { G with aged := G.aged ++ [str] })

/-! ### Overlay images (R180, R181, R185) -/

/-- Where word `i` of an overlay's image stands, and its bytes (R177). -/
def imageWord (e : OvEntry) (i : Nat) : Nat × Nat :=
  if i < e.s then (e.image + 4 * i, 4) else (e.image + 4 * e.s + 12 * (i - e.s), 12)

/-- The physical places of the 4-byte pieces of an image word, or the first translation that fails and its address. -/
def imagePlaces (s : State) (c : OvCopy) (i : Nat) : List Nat × Option (Nat × TrRes) :=
  let (va, n) := imageWord c.ent i
  (List.range (n / 4)).foldl (fun (l, bad) j =>
    match bad with
    | some b => (l, some b)
    | none =>
      let a := va + 4 * j
      match (if 2 ^ 48 ≤ a then TrRes.prot else translate s c.ctx c.core none a { r := true, w := false }) with
      | .ok pa => (l ++ [pa], none)
      | r => (l, some (a, r))) ([], none)

/-- What a translation that fails does to a load (R185, R278, R279). -/
def loadFault (s : State) (k : Nat) (c : OvCopy) (va : Nat) : TrRes → State
  | .fatal => fatalFault s c.ctx
  | .absent level =>
    if replayOn s c.ctx then
      let h : HeldPage := { page := va / 4096, lanes := 0, addr := BitVec.ofNat 64 va, kind := 5, level := level }
      postFault { s with copies := mput s.copies k { c with hold := some h } } c.ctx h
    else failLoad s k 2
  | _ => failLoad s k 2

/-- A load's waiters learn that it is complete: handles become tokens, entries and fixed overlays go on (R185, R187, R193). -/
def loadedWaiter (copy : Nat) (s : State) : Waiter → State
  | .handle g _ => s.modGrp g fun G => { G with hreg := G.hreg.map fun (i, x) =>
      if x.st = .pending && (x.ov.map (·.2)) == some copy then (i, { x with st := .done }) else (i, x) }
  | _ => s

def isEntry : Waiter → Bool
  | .entry _ => true
  | _ => false

/-- Everything that waits for load `k` waits for copy `dest` of the same library overlay from now on (R190). -/
def joinCopy (s : State) (k dest : Nat) (c : OvCopy) : State :=
  let move (x : Nat) : Nat := if x == k then dest else x
  let s : State := { s with
    groups := s.groups.map fun (g, G) => (g, { G with
      copy := move G.copy
      runs := G.runs.map fun r => { r with copy := move r.copy }
      trapMode := G.trapMode.map fun m => { m with copy := move m.copy }
      hreg := G.hreg.map fun (i, x) => (i, { x with ov := x.ov.map fun v => (v.1, move v.2) })
      wait := match G.wait with
        | .entering c ov off popped => .entering (move c) ov off popped
        | w => w })
    blocks := s.blocks.map fun (b, B) => (b, { B with fixed := B.fixed.map fun f => (f.1, f.2.1, move f.2.2) })
    tags := s.tags.map fun (w, t) => (w, { t with h := { t.h with ov := t.h.ov.map fun v => (v.1, move v.2) } })
    copies := mupd (mdel s.copies k) dest fun d =>
      { d with waiters := d.waiters ++ c.waiters, vifs := c.vifs.foldl insNat d.vifs, names := d.names ++ c.names.filter (!d.names.contains ·) } }
  match mget s.copies dest with
  | some d =>
    if d.loading then s
    else
      let s := d.waiters.foldl (loadedWaiter dest) s
      { s with copies := mupd s.copies dest fun d => { d with waiters := d.waiters.filter isEntry } }
  | none => s

/-- A load of a library overlay whose digest is not known yet reads its trailer; a copy with that digest is shared, and no image is read (R185, R190). -/
def readIdentity (s : State) (k : Nat) (c : OvCopy) : State :=
  match c.id with
  | .unread _ _ _ _ =>
    match readTrailer s c.ctx c.core c.ent with
    | .digest d =>
      match findCopy s c.core (.lib d) with
      | some (dest, _) => joinCopy s k dest c
      | none => { s with copies := mput s.copies k { c with id := .lib d } }
    | .poison => failLoad s k 4
    | .fault va r => loadFault s k c va r
  | _ => s

/-- Reads one word of an image that is loading: whole, as it is now. Slots are sought again when there were none (R188). -/
def readOverlayWord (s : State) (k i : Nat) : State :=
  let s := match mget s.copies k with
    | some c => if c.loading && c.hold.isNone then readIdentity s k c else s
    | none => s
  let s := takeSlots s k true
  match mget s.copies k with
  | none => s
  | some c =>
    let known := match c.id with
      | .unread _ _ _ _ => false
      | _ => true
    if !known || !c.loading || c.slots.isEmpty || c.hold.isSome || c.got.contains i || decide (c.ent.s + c.ent.l ≤ i) then s else
    match imagePlaces s c i with
    | (pas, none) =>
      match pas.foldl (fun t a => t.bind fun t => reachLine t (.core c.core) false a) (some s) with
      | none => s
      | some s =>
        if pas.any fun a => s.poison.contains (a / 64) then failLoad s k 4 else
        let w := (pas.foldr (fun a x => s.read a 4 + 2 ^ 32 * x) 0)
        let s := fillTlb s c.ctx c.core [(imageWord c.ent i).1 / 4096]
        { s with copies := mput s.copies k { c with code := mset 0 c.code i (BitVec.ofNat 96 w), got := insNat c.got i } }
    | (_, some (va, r)) => loadFault s k c va r

/-- Bytes of a loaded image, as the words were read (R177). -/
def OvCopy.imageBytes (c : OvCopy) : List Byte :=
  (List.range (c.ent.s + c.ent.l)).flatMap fun i =>
    (List.range (imageWord c.ent i).2).map fun j => ((((mget c.code i).getD 0) >>> (8 * j)).truncate 8)

/-- A library overlay's digest is that of its image, and Gulvin's key has signed it (R177, R185, R190). -/
def OvCopy.verifies (c : OvCopy) (signed : Bool) : Bool :=
  !c.ent.lib || (signed && (match c.id with
    | .lib d => d == Sha.sha512 c.imageBytes
    | _ => false))

/-- OVERLAY_LOAD_END: a load whose words have all been read ends; an image of a library whose digest is not that of its
words, or whose signature does not verify, fails. `verified`: what the check of the signature with the key that is fused into the package gives (R190). A copy that
nothing has pinned or named yet, as a preload brings it, counts as last used when its load ends: R188 names no moment for it (DESIGN CHOICE, log 88). -/
def execOverlayLoadEnd (core copy : Nat) (verified : Bool) (s : State) : Out :=
  match mget s.copies copy with
  | none => .next s
  | some c =>
    if c.core ≠ core || !c.loading || c.slots.isEmpty || c.hold.isSome then .next s else
    let s := ((List.range (c.ent.s + c.ent.l)).filter fun i => !c.got.contains i).foldl (fun s i => readOverlayWord s copy i) s
    match mget s.copies copy with
    | none => .next s
    | some c =>
      if c.got.length ≠ c.ent.s + c.ent.l then .next s
      else if !c.verifies verified then .next (failLoad s copy 2)
      else
        let s' := c.waiters.foldl (loadedWaiter copy) s
        .next { s' with copies := mupd s'.copies copy fun c => { c with loading := false, waiters := c.waiters.filter isEntry, used := s.tick } }

end Sys2Proof.Machine
end

