-- ==== Sys2Proof/Machine/Debug.lean ====
section
/-!
DEFINITION. The debug port of a context (R341, R342).
-/

namespace Sys2Proof.Machine

/-- The groups of a context that a command names; a compensation's by its launch, block 0 and group 0 (R324; DESIGN CHOICE, log 50). -/
def dbgGroups (s : State) (ctx : Nat) (t : DbgTarget) : List Nat :=
  s.groups.filterMap fun (g, G) =>
    match s.blk? G, s.launch? G with
    | some B, some L =>
      if L.ctx == ctx && L.id == t.launch && B.audit.isNone && (t.block.map fun b => b == B.lin).getD true &&
          (t.idx.map fun i => i == G.idx).getD true then some g else none
    | _, _ => none

def debugOn (s : State) (ctx : Nat) : Bool := ((mget s.ctxs ctx).map (·.debug)).getD false

/-- STOP: the streams of the named running groups stop at their boundaries; a full/empty wait ends as R141 gives. -/
def execStop (ctx : Nat) (t : DbgTarget) (s : State) : Out :=
  if !debugOn s ctx then .next s else
  .next ((dbgGroups s ctx t).foldl (fun s g =>
    if ((mget s.groups g).map fun G => G.st == .running).getD false then
      (interruptFe s g).modGrp g fun G => { G with stopWanted := true }
    else s) s)

/-- An operation that will still write a register of a group (R341). -/
def writesReg (g : Nat) (o : Op) : Bool :=
  o.grp == some g && match o.body with
    | .mem m => m.lo != 0 || m.hi != 0 || m.more
    | .tile t => match t.what with
      | .vdist _ _ _ _ _ _ _ => true
      | _ => false
    | .copy _ => false

/-- GROUP_STOPPED. -/
def execGroupStopped (g : Nat) (s : State) : Out :=
  match mget s.groups g with
  | some G =>
    if G.st = .running && G.stopWanted && !s.ops.any fun (_, o) => writesReg g o then
      .next (s.grp g { G with st := .stopped, stopWanted := false })
    else .next s
  | none => .next s

/-- RESUME: a stopped group runs again; one that wrap time has met is diverted, unless a section holds that back (R302, R303). -/
def execResume (ctx : Nat) (t : DbgTarget) (s : State) : Out :=
  .next ((dbgGroups s ctx t).foldl (fun s g =>
    match mget s.groups g with
    | some G =>
      if G.st ≠ .stopped then s else
      let s := s.grp g { G with st := .running }
      if G.divertDue && G.sect.isNone && G.wait != .abandoned then divertNow s g else s
    | none => s) s)

/-- The one STOPPED group that a READ or WRITE names. -/
def dbgOne (s : State) (ctx : Nat) (t : DbgTarget) : Option (Nat × Group) :=
  match (dbgGroups s ctx t).filterMap fun g => ((mget s.groups g).filter fun G => G.st = .stopped).map fun G => (g, G) with
  | [x] => some x
  | _ => none

/-- What READ answers; `none` for a register that is not there. -/
def dbgRead (s : State) (G : Group) : DbgReg → Option DbgVal
  | .s r => some (.word (G.rs r))
  | .v r => if r.toNat < G.n then some (.lanes (G.rv r.toNat)) else none
  | .c r => some (.word (BitVec.ofNat 64 (G.rc r).toNat))
  | .p r => some (.mask (G.rp r))
  | .scalarPc => some (.pc G.ov G.pc)
  | .lanePc n => (mget G.splits n).map fun S => .pc (runOv G) S.pc
  | .faultmask => some (.mask G.faultmask)
  | .lanedone => some (.mask G.lanedone)
  | .memmask => some (.mask G.memmask)
  | .handle r => some (.word (BitVec.ofNat 64 (G.rh r.toNat).st.code))
  | .counter k => if k < 4 then some (.word (BitVec.ofNat 64 ([G.cld, G.cst, G.ccp, G.ctl].getD k 0))) else none
  | .special i => (special s G i.toNat).map .word

def execRead (ctx : Nat) (t : DbgTarget) (r : DbgReg) (s : State) : Out :=
  match dbgOne s ctx t with
  | some (_, G) => .next (s.modCtx ctx fun c => { c with dbgOut := dbgRead s G r })
  | none => .next s

/-- A stream leaves the instruction it stands at: an access of it that is held is given up, and an `mtrd` waits no more. -/
def Group.leaves (G : Group) (str : Stream) : Group :=
  { G with holds := G.holds.filter (·.str != str), stall := G.stall.filter fun x => str != .split x.1 }

/-- The group after a WRITE; `none` where it is refused (R342). A scalar pc may name an overlay whose copy is on the core; an instruction that had begun its
wait at the old pc has begun nothing at the new one (R203), and an access held there is made no more (R279). A lane pc that comes to stand at the reconvergence address of its split's top join arrives there
at once, as after an instruction (R81; DESIGN CHOICE, log 72: R81 speaks of instructions only). -/
def dbgWrite (s : State) (G : Group) : DbgReg → DbgVal → Option Group
  | .s r, .word x => some (G.ws r x)
  | .v r, .lanes x => if r.toNat < G.n && x.length == 256 then some (G.wv r.toNat x) else none
  | .c r, .word x => some (G.wc r (x.getLsbD 0))
  | .p r, .mask x => some (G.wp r x)
  | .scalarPc, .pc ov off =>
    let G := G.leaves .scalar
    if ov = G.ov then some { G with pc := off, wait := .none } else
    match ((s.table G)[ov]?).bind fun e => copyOf s G.core (s.ctxOf G) e with
    | some (k, c) => if c.loading then none else some { G with ov := ov, copy := k, pc := off, wait := .none }
    | none => none
  | .lanePc n, .pc ov off => if (mget G.splits n).isSome && ov == runOv G then some ((G.leaves (.split n)).goto n off) else none
  | .faultmask, .mask x => some { G with faultmask := x }
  | .lanedone, .mask x => some { G with lanedone := x }
  | .memmask, .mask x => some { G with memmask := x }
  | .special i, .word x => setSpecial G i.toNat x
  | _, _ => none

def execWrite (ctx : Nat) (t : DbgTarget) (r : DbgReg) (x : DbgVal) (s : State) : Out :=
  match dbgOne s ctx t with
  | some (g, G) =>
    match dbgWrite s G r x with
    | some G' => .next (settleRuns (if G'.wait = G.wait then s.grp g G' else unwait (s.grp g G') g))
    | none => .next s
  | none => .next s

def execEnable (ctx : Nat) (s : State) : Out := .next (s.modCtx ctx fun c => { c with debug := true })
def execDisable (ctx : Nat) (s : State) : Out := .next (s.modCtx ctx fun c => { c with debug := false })

end Sys2Proof.Machine
end

