-- ==== Sys2Proof/Machine/Preempt.lean ====
section
/-!
DEFINITION. Pre-emption of blocks: the choice, DRAIN, FLUSH-RESTART, SAVE and restore (R287, R288, R307, R343 to R347).
-/

namespace Sys2Proof.Machine

/-! ### The save record (R287, R288) -/

def padTo8 (bs : List Byte) : List Byte := bs ++ List.replicate ((8 - bs.length % 8) % 8) 0

/-- The entry of one vector register: the first form that holds all lanes exactly. -/
def ventry (r : Nat) (x : Lanes) : List Byte :=
  let b := lane x 0
  let d := lane x 1 - b
  let lanes := List.range 256
  let head (form : Nat) : List Byte := leBytes 4 (form + 8 * r)
  padTo8 <|
    if lanes.all fun i => lane x i == b then head 0 ++ leBytes 4 b.toNat
    else if lanes.all fun i => lane x i == b + BitVec.ofNat 32 i * d then head 1 ++ leBytes 4 b.toNat ++ leBytes 4 d.toNat
    else if lanes.all fun i => lane x i == ((lane x i).truncate 8).signExtend 32 then head 2 ++ lanes.flatMap fun i => leBytes 1 (lane x i).toNat
    else if lanes.all fun i => lane x i == ((lane x i).truncate 16).signExtend 32 then head 3 ++ lanes.flatMap fun i => leBytes 2 (lane x i).toNat
    else head 4 ++ lanes.flatMap fun i => leBytes 4 (lane x i).toNat

/-- The groups of a block, with their keys. -/
def groupsOf (s : State) (b : Nat) : List (Nat × Group) := s.groups.filter fun (_, G) => G.blk == b

/-- A number from its bytes, least significant first (R3). -/
def leVal (bs : List Byte) : Nat := bs.foldr (fun b x => b.toNat + 256 * x) 0

/-- An entry of a reconvergence stack in a record: a call, or the place of its join among the joins. -/
def sentryBytes (G : Group) : SEntry → List Byte
  | .call r => leBytes 4 (2 ^ 31 + r)
  | .join j => leBytes 4 ((mkeys G.joins).findIdx (· == j))

/-- The wait of a scalar instruction in a record (R345): interrupted waits are entered again. -/
def waitBytes : SWait → List Byte
  | .none => leBytes 1 0
  | .arrived pkg id phase => leBytes 1 1 ++ leBytes 2 (id + if pkg then 64 else 0) ++ leBytes 4 phase.toNat
  | .dispSent => leBytes 1 2
  | .dispAnswer x => leBytes 1 3 ++ leBytes 8 x.toNat
  | .onHandle => leBytes 1 4
  | .entering _ ov off popped => leBytes 1 (if popped then 11 else 5) ++ leBytes 2 ov ++ leBytes 4 off
  | .entryFailed => leBytes 1 6
  | .abandoned => leBytes 1 7
  | .ending => leBytes 1 8
  | .leaving => leBytes 1 9

/-- The call stack in a record. -/
def callBytes (calls : List (Nat × Nat)) : List Byte := leBytes 1 calls.length ++ calls.flatMap fun c => leBytes 2 c.1 ++ leBytes 4 c.2

/-- Trap mode in a record (R345), its overlay as a table index (R192). -/
def trapModeBytes : Option TrapMode → List Byte
  | none => leBytes 1 0
  | some m => leBytes 1 1 ++ leBytes 2 m.ov ++ leBytes 4 m.off ++ callBytes m.calls ++ waitBytes m.wait

/-- The number of a phaser membership's mode in a record. -/
def PhMode.code : PhMode → Nat
  | .sig => 0
  | .wait => 1
  | .sw => 2

/-- The remaining state of a group in a record, in the order of R287. The spec gives the order, and not the bytes of each part but the vector entries:
the forms of the others are the model's (DESIGN CHOICE, log 70). -/
def saveBody (G : Group) : List Byte :=
  let mask (m : Mask) : List Byte := leBytes 32 m.toNat
  let regs := (List.range 128).flatMap fun r => leBytes 8 ((mget G.sreg r).getD 0).toNat
  let preds := leBytes 1 G.creg.toNat ++ (List.range 16).flatMap fun p => mask ((mget G.preg p).getD 0)
  let handles := (List.range 16).flatMap fun h => leBytes 4 (match (G.rh h).st with
    | .empty => 0
    | .pending => 1
    | .done => 2
    | .failed r => 3 + 256 * r
    | .cancelled => 4) ++ leBytes 4 (((G.rh h).ov.map (·.1 + 1)).getD 0)
  let counters := leBytes 1 G.cld ++ leBytes 1 G.cst ++ leBytes 1 G.ccp ++ leBytes 1 G.ctl
  let specials := mask G.laneact ++ mask G.faultmask ++ mask G.lanedone ++ mask G.memmask ++
    leBytes 8 (G.trap.cause.toNat + 2 ^ 8 * G.trap.code.toNat) ++ leBytes 8 G.trap.off ++ leBytes 8 G.trap.addr.toNat ++
    leBytes 2 G.trap.ov ++ leBytes 1 (if G.trap.lane then 1 + G.trap.split else 0) ++ leBytes 1 (if G.wrapflag then 1 else 0) ++ leBytes 2 G.ov ++ leBytes 4 G.pc ++
    waitBytes G.wait ++ trapModeBytes G.trapMode ++ leBytes 4 ((G.sect.map fun x => x.2 + 1).getD 0)
  let runs := leBytes 1 G.runs.length ++ G.runs.flatMap fun r => leBytes 2 r.ov ++ leBytes 4 r.off
  let joins := leBytes 1 G.joins.length ++ G.joins.flatMap fun (_, j) => leBytes 4 j.rc ++ mask j.arrived ++ mask j.defmask ++ leBytes 4 j.defpc
  let splits := runs ++ mask G.exitMarks ++ joins ++ G.splits.flatMap fun (n, S) =>
    leBytes 1 n ++ leBytes 4 S.pc ++ mask S.mask ++ leBytes 1 (if S.redo then 1 else 0) ++ leBytes 1 S.stack.length ++ S.stack.flatMap (sentryBytes G)
  let membs := G.memb.flatMap fun (k, m) =>
    leBytes 2 k ++ leBytes 1 (PhMode.code m.mode) ++ leBytes 4 m.ag.toNat ++ leBytes 1 (if m.drain then 1 else 0) ++ leBytes 8 m.hold
  regs ++ preds ++ handles ++ counters ++ specials ++ callBytes G.calls ++ splits ++ membs

/-- A record (R287, R288): header, remaining state, vector entries; its CRC is over the rest of it. -/
def saveBytes (G : Group) (level tiles : Nat) : List Byte :=
  let body := padTo8 (saveBody G) ++ (List.range G.n).flatMap fun r => ventry r (G.rv r)
  let head := leBytes 2 G.n ++ leBytes 1 G.splits.length ++ leBytes 1 level ++ leBytes 1 ((mkeys G.memb).filter fun k => decide (64 ≤ k)).length ++
    leBytes 1 tiles ++ leBytes 2 G.n ++ leBytes 4 (64 + body.length) ++ List.replicate 44 0
  head ++ leBytes 8 (crc64 (head ++ body)).toNat ++ body

/-- A saved group: its pins and requests drop, the section's elapsed count is kept (R303), and a STOP that it had not reached stays asked for (R341). R69 gives
SAVE from RUNNING only; a group of the block that is STOPPED or EXITING is saved with it, and restored to the state it was in (DESIGN CHOICE, log 68). -/
def saveGroup (s : State) (G : Group) : Group :=
  { G with st := .saved, yieldAt := none, aged := [],
           sect := G.sect.map fun (t, c) => (0, (s.die (dieOf G.core)).clk - t + c) }

/-- The records of a block, laid one after the other from `at_`, each 64-byte aligned; `none` writes them to no stated place. -/
def saveRecs (s : State) (gs : List (Nat × Group)) (L : Launch) : Option Nat → List SaveRec
  | at_ => (gs.foldl (fun (l, a) (g, G) =>
      let bs := saveBytes (saveGroup s G) L.desc.level L.desc.acctiles
      (l ++ [{ grp := g, was := G.st, bytes := bs, at_ := a }], a.map (· + recRoom bs.length))) (([] : List SaveRec), at_)).1

/-- Bits as bytes, the first lowest. -/
def bitBytes (n : Nat) (f : Nat → Bool) : List Byte :=
  (List.range ((n + 7) / 8)).map fun i => BitVec.ofNat 8 ((List.range 8).foldl (fun x j => x + if decide (8 * i + j < n) && f (8 * i + j) then 2 ^ j else 0) 0)

/-- The block phasers and the tiles in hand in a block record. -/
def blockTail (gs : List (Nat × Group)) (B : Block) : List Byte :=
  (B.phasers.flatMap fun (k, p) =>
    leBytes 2 k ++ leBytes 4 p.cur.toNat ++ leBytes 4 ((p.expect.map (· + 1)).getD 0) ++ leBytes 4 p.arr ++ leBytes 1 ((if p.drain then 1 else 0) + if p.broken then 2 else 0)) ++
  gs.flatMap fun (_, G) => match G.tile with
    | some (t, _) => leBytes 2 G.idx ++ leBytes 4 t
    | none => []

/-- Where the rows of the tiles of a block stand, in order (R158). -/
def tileRows (b : Nat) (B : Block) (tiles : Nat) : List Nat :=
  (List.range (if B.wide then 4 else 1)).flatMap fun i => (List.range tiles).flatMap fun t => (List.range 256).map fun r => ((b * 4 + i) * 64 + t) * 256 + r

/-- The block record (R345): the scratch area of each core with its full/empty bits, the tiles, the block phasers, the tiles in hand. The spec gives its parts and
no layout (DESIGN CHOICE, log 70). -/
def blockBytes (s : State) (b : Nat) (B : Block) (L : Launch) : List Byte :=
  let n := L.desc.scratch
  ((blockCores B.wide B.core).flatMap fun c =>
    bytesAt s.mem (scrLoc c B.scrOff) n ++ bitBytes (n / 4) fun i => s.full.contains (scrLoc c B.scrOff / 4 + i)) ++
  ((tileRows b B (blockTiles B L.desc)).flatMap fun k => ((mget s.acc k).getD lanesZero).flatMap fun x => leBytes 4 x.toNat) ++
  blockTail (groupsOf s b) B

/-- How many bytes a block record has. -/
def blockLen (s : State) (b : Nat) (B : Block) (L : Launch) : Nat :=
  (blockCores B.wide B.core).length * (L.desc.scratch + (L.desc.scratch / 4 + 7) / 8) +
  (if B.wide then 4 else 1) * blockTiles B L.desc * 2 ^ 18 + (blockTail (groupsOf s b) B).length

/-- Writes bytes through the home slices of a die, eight at a time: the ordinary coherent path (R265). -/
def putBytesAt (s : State) (ctx die : Nat) : Nat → Nat → List Byte → State
  | 0, _, _ => s
  | n + 1, a, bs =>
    match bs with
    | [] => s
    | _ =>
      let x := (bs.take 8).foldr (fun b x => b.toNat + 256 * x) 0
      putBytesAt ((homeReaches s die a).write (some ctx) a (min 8 bs.length) x) ctx die n (a + 8) (bs.drop 8)

/-- The crc of a record is that of the rest of it (R287). -/
def crcOk (bs : List Byte) : Bool := leVal ((bs.drop 56).take 8) == (crc64 (bs.take 56 ++ bs.drop 64)).toNat

/-- Some byte of a range of memory lies in a poisoned line (R382). -/
def anyPoison (s : State) (a n : Nat) : Bool := s.poison.any fun l => decide (a / 64 ≤ l) && decide (64 * l < a + n)

/-- The bytes of a record as it stands now; one in the area for in-field tests has no place of its own. -/
def SaveRec.now (s : State) (r : SaveRec) : List Byte :=
  match r.at_ with
  | some a => bytesAt s.mem a r.bytes.length
  | none => r.bytes

/-- A record is lost: an uncorrectable error, or a crc that does not match (R287, R382). -/
def recBad (s : State) (r : SaveRec) : Bool := r.bad || r.at_.any fun a => anyPoison s a r.bytes.length || !crcOk (r.now s)

/-- A block record has met an uncorrectable error. -/
def blockBad (s : State) (B : Block) : Bool := B.brec.any fun r => anyPoison s r.1 r.2.length

/-- The lanes of a vector entry, and how many bytes it has (R288). -/
def entryLanes (bs : List Byte) : Lanes × Nat :=
  let e (i n : Nat) : Elem := BitVec.ofNat 32 (leVal ((bs.drop (4 + i)).take n))
  match leVal (bs.take 4) % 8 with
  | 0 => (List.replicate 256 (e 0 4), 8)
  | 1 => ((List.range 256).map fun i => e 0 4 + BitVec.ofNat 32 i * e 4 4, 16)
  | 2 => ((List.range 256).map fun i => ((e i 1).truncate 8).signExtend 32, 264)
  | 3 => ((List.range 256).map fun i => ((e (2 * i) 2).truncate 16).signExtend 32, 520)
  | _ => ((List.range 256).map fun i => e (4 * i) 4, 1032)

/-- The vector registers of a record, entry after entry. -/
def readEntries : Nat → List Byte → Group → Group
  | 0, _, G => G
  | n + 1, bs, G =>
    let (x, k) := entryLanes bs
    readEntries n (bs.drop k) (G.wv (leVal (bs.take 4) / 8 % 2 ^ 11) x)

/-- The group that a record gives. Where its bytes are those that were written it is the group as it was saved. Bytes that somebody else has put there, under a
crc that matches, give its scalar registers, its predicates and its vector registers, whose places the spec fixes; the rest stays as it was (log 43). -/
def recGroup (G : Group) (r : SaveRec) (bs : List Byte) : Group :=
  if bs == r.bytes then G else
  let at_ (i n : Nat) : Nat := leVal ((bs.drop (64 + i)).take n)
  let G1 := (List.range 127).foldl (fun (G : Group) i => { G with sreg := mset 0 G.sreg (i + 1) (BitVec.ofNat 64 (at_ (8 * (i + 1)) 8)) }) G
  let G2 := { G1 with creg := BitVec.ofNat 8 (at_ 1024 1) }
  let G3 := (List.range 15).foldl (fun (G : Group) i => { G with preg := mset 0 G.preg (i + 1) (BitVec.ofNat 256 (at_ (1025 + 32 * (i + 1)) 32)) }) G2
  readEntries G.n (bs.drop (64 + (padTo8 (saveBody G)).length)) G3

/-- The saved scratch area and full/empty bits that a block record gives, by core within the block and offset. -/
def recScratch (B : Block) (L : Launch) (bs : List Byte) : List Host.Cell × List Nat :=
  let n := L.desc.scratch
  let each := n + (n / 4 + 7) / 8
  (List.range (if B.wide then 4 else 1)).foldl (fun (m, l) i =>
    ((List.range n).foldl (fun m j => memWrite m (Config.scratchSpan * i + j) (bs.getD (each * i + j) 0)) m,
     (List.range (n / 4)).foldl (fun l j => if (bs.getD (each * i + n + j / 8) 0).getLsbD (j % 8) then insNat l (Config.scratchSpan * i / 4 + j) else l) l))
    (([] : List Host.Cell), ([] : List Nat))

/-- A saved block as its block record gives it: as it was saved, or with the scratch area that somebody else has put there; and the tiles likewise. -/
def recBlock (s : State) (b : Nat) (B : Block) (L : Launch) : State × Block :=
  match B.brec with
  | none => (s, B)
  | some (a, old) =>
    let bs := bytesAt s.mem a old.length
    if bs == old then (s, B) else
    let (m, l) := recScratch B L bs
    let rows := bs.drop ((if B.wide then 4 else 1) * (L.desc.scratch + (L.desc.scratch / 4 + 7) / 8))
    let keys := tileRows b B (blockTiles B L.desc)
    let row (i : Nat) : Lanes := (List.range 256).map fun j => BitVec.ofNat 32 (leVal ((rows.drop (1024 * i + 4 * j)).take 4))
    ({ s with acc := ((List.range keys.length).zip keys).foldl (fun m (i, k) => mset lanesZero m k (row i)) s.acc }, { B with scr := m, full := l })

/-- The first part of the save area that no record takes: records begin on 64 bytes. -/
def saveFree (s : State) (ctx : Nat) : Nat :=
  let ends := s.blocks.flatMap fun (_, B) => if (mget s.launches B.launch).any (·.ctx == ctx) then
    (B.save.filterMap fun r => r.at_.map (· + recRoom r.bytes.length)) ++ (B.brec.map fun r => r.1 + recRoom r.2.length).toList else []
  ends.foldl max (((mget s.ctxs ctx).map (·.savebase)).getD 0)

/-- Bytes that the records of a block take. -/
def saveNeed (s : State) (b : Nat) (L : Launch) : Nat :=
  sumNat ((groupsOf s b).map fun (_, G) => recRoom (saveBytes (saveGroup s G) L.desc.level L.desc.acctiles).length) +
  ((mget s.blocks b).map fun B => recRoom (blockLen s b B L)).getD 0

/-- The save area can hold a block (R282, R344). For an in-field test a reserved area always can (R384). -/
def saveFits (s : State) (b : Nat) (L : Launch) (who : Requester) : Bool :=
  who == .inField || match mget s.ctxs L.ctx with
    | some c => decide (0 < c.savesize) && decide (saveNeed s b L + saveUsed s L.ctx ≤ 1024 * c.savesize) &&
        decide (saveFree s L.ctx + saveNeed s b L ≤ c.savebase + 1024 * c.savesize)
    | none => false

/-! ### The actions -/

/-- FLUSH-RESTART (R346): groups leave at once, tiles in hand go back, memberships of package phasers are held. -/
def flushBlock (s : State) (b : Nat) : State :=
  let gs := (groupsOf s b).map (·.1)
  let s := gs.foldl (fun s g => unrequest (interruptFe s g) g) s
  let s := gs.foldl (fun s g =>
    match mget s.groups g, mget s.blocks b with
    | some G, some B =>
      let packs := G.memb.filter fun (k, _) => decide (64 ≤ k)
      let s : State := packs.foldl (fun s (k, m) => if m.drain && m.hold > 0 then rootAdd s B.launch (k - 64) m.ag m.hold else s) s
      let s : State := match G.tile with
        | some (t, a) =>
          let s : State := match a with
            | some k => { s with audits := mdel s.audits k }
            | none => s
          s.modLaunch B.launch fun L => { L with returns := L.returns ++ [t] }
        | none => s
      let held := (((mget s.groups g).map (·.memb)).getD []).filter fun (k, _) => decide (64 ≤ k)
      (s.modBlk b fun B => { B with held := B.held ++ held.map fun (k, m) => (G.idx, k, { m with hold := 0 }) })
    | _, _ => s) s
  let s : State := { s with groups := s.groups.filter fun (_, G) => G.blk != b }
  let s := (s.tags.filter fun (_, t) => t.blk == b).foldl (fun s (w, _) => dropTag s w) s
  let s := dropWaiters s (· == .fixed b)
  settleRuns (dropIdleLoads (s.modBlk b fun B => { B with st := .waiting, phasers := [], fixed := [], progress := none, pre := none, save := [], brec := none, home := none }))

/-- The replay of an audited tile is flushed: it will start afresh, and nothing reads what it has done (R346, R381). -/
def flushReplay (s : State) (b a : Nat) : State :=
  let s := flushBlock s b
  match mget s.audits a with
  | none => { s with blocks := mdel s.blocks b }
  | some A =>
    let (k, s) := s.fresh
    { s with blocks := mdel s.blocks b
             audits := mput (mdel s.audits a) k { A with started := false, rcore := 0, replay := [], served := false, ended := false }
             ops := s.ops.map fun (i, o) => (i, if o.aud == some (a, false) then { o with aud := some (k, false) } else o) }

/-- SAVE begins (R345): the streams stop, full/empty waits end, held accesses are given up. -/
def startSave (s : State) (b : Nat) (who : Requester) : State :=
  let s := (groupsOf s b).foldl (fun s (g, _) => (interruptFe s g).modGrp g fun G => { G with holds := [] }) s
  s.modBlk b fun B => { B with st := .saving, pre := some { who := who, until_ := none } }

/-- The progress estimate of a block fits a budget in µs (R307). -/
def estFits (B : Block) (L : Launch) (budget : Nat) : Bool :=
  match B.progress with
  | some p => decide (p ≤ budget)
  | none => decide (L.desc.estimate * (L.desc.tilespace - B.done) ≤ budget * L.blockcnt * L.desc.tilespace)

/-- Drain budget in µs (R343, R383, R384). -/
def drainBudget : Requester → Nat
  | .waitingBlock _ => 100
  | .gating => 1000
  | .inField => 50000
  | .selfTest => 0
  | .fencing => 0

/-- A group of the block is inside a no-divert section, which holds a pre-emption back until its sndoff (R303). On a die that is not HITCHED no sndoff comes, and
nothing is held back (R370; DESIGN CHOICE, log 45). -/
def sectionOpen (s : State) (b : Nat) : Bool := (groupsOf s b).any fun (_, G) => G.sect.isSome && G.st.here && (s.die (dieOf G.core)).st == .hitched

/-- The choice of R344; `drain` false leaves the DRAIN row out. -/
def preempt (s : State) (b : Nat) (B : Block) (L : Launch) (who : Requester) (drain : Bool) : State :=
  let wait (t : Option Nat) : State := s.modBlk b fun B => { B with pre := some { who := who, until_ := t } }
  if drain && estFits B L (drainBudget who) then wait (some (s.now + 1000 * drainBudget who))
  else if L.desc.flags.getLsbD 0 && L.act.isNone && L.wrapped.isNone then (match B.audit with
    | some a => flushReplay s b a
    | none => flushBlock s b)
  else if saveFits s b L who then startSave s b who
  else if who == .fencing then (groupsOf s b).foldl (fun s (g, _) => fatalKill s 0 g) s
  else wait none

/-- A requester needs the block's core (R343). -/
def needs (s : State) (B : Block) (who : Requester) : Bool :=
  let cores := blockCores B.wide B.core
  match who with
  | .waitingBlock w =>
    match mget s.blocks w with
    | some W =>
      match mget s.launches W.launch with
      | some L => W.st = .waiting && L.starts && (blockCores W.wide W.core).any cores.contains &&
          (blockCores W.wide W.core).all fun c => (blocksOn s c).all fun (_, X) =>
            ((mget s.launches X.launch).map fun M => decide (L.slack < M.slack)).getD true
      | none => false
    | none => false
  | .gating => cores.all fun c => (s.die (dieOf c)).st = .hitched
  | .inField => cores.any fun c => s.fieldTests.contains (clusterOf c)
  | .selfTest => cores.any s.testing.contains
  | .fencing => cores.any fun c => s.fencedCores.contains c || (s.die (dieOf c)).st = .fenced

/-- A block whose overlays still load leaves its core: it waits again, and a compensation or a replay will start afresh. -/
def unload (s : State) (b : Nat) (B : Block) : State :=
  let s := cancelStart s b
  if B.comp.isNone && B.audit.isNone then s else
  { s with blocks := mdel s.blocks b, audits := match B.audit with
    | some a => mupd s.audits a fun A => { A with started := false }
    | none => s.audits }

/-- Pre-empts a block for a requester; a section that is open holds the choice back until its sndoff (R303). -/
def preemptBlock (s : State) (b : Nat) (who : Requester) : State :=
  match mget s.blocks b with
  | none => s
  | some B =>
    match mget s.launches B.launch with
    | none => s
    | some L =>
      if B.st = .loading then unload s b B
      else if B.st ≠ .started then s
      else if sectionOpen s b then s.modBlk b fun B => { B with pre := some { who := who, until_ := none, asked := true } }
      else preempt s b B L who true

/-- PREEMPT. -/
def execPreempt (b : Nat) (who : Requester) (s : State) : Out :=
  match mget s.blocks b with
  | some B => .next (if needs s B who then preemptBlock s b who else s)
  | none => .next s

/-- A pre-emption that a section has held back comes now that it is closed, if it is still needed (R303); where a drain budget has run out, the choice is made
again (R344). -/
def budgetUp (s : State) (b : Nat) : State :=
  match mget s.blocks b with
  | none => s
  | some B =>
    match B.pre, mget s.launches B.launch with
    | some p, some L =>
      if B.st ≠ .started || sectionOpen s b then s
      else if p.asked then (if needs s B p.who then preempt s b B L p.who true else s.modBlk b fun B => { B with pre := none })
      else if due s.now p.until_ then preempt s b B L p.who false
      else s
    | _, _ => s

/-- DRAIN_BUDGET_EXPIRE. -/
def execDrainBudgetExpire (b : Nat) (s : State) : Out := .next (budgetUp s b)

/-! ### SAVE (R345) -/

/-- A group has drained: nothing in flight writes its registers, counts in its counters or keeps a handle PENDING. -/
def drained (s : State) (g : Nat) (G : Group) : Bool :=
  G.atMost 0 0 0 0 && !(G.hreg.any fun (_, h) => h.st = .pending) && !s.ops.any fun (_, o) => o.grp == some g

/-- Place of a byte of a block's scratch area as the block record numbers it: core within the block and offset. -/
def relPlace (cores : List Nat) (off n loc : Nat) : Option Nat :=
  if !isScr loc then none else
  match cores.findIdx? (fun c => scrLoc c off ≤ loc && loc < scrLoc c off + n) with
  | some i => some (Config.scratchSpan * i + (loc - scrLoc (cores.getD i 0) off))
  | none => none

/-- The other direction, on the cores of a restored block. -/
def absPlace (cores : List Nat) (off rel : Nat) : Nat := scrLoc (cores.getD (rel / Config.scratchSpan) 0) (off + rel % Config.scratchSpan)

/-- SAVE_RECORD_WRITE: records are written and the core is free. The save checks the checksums of the block's tiles (R172). -/
def execSaveRecordWrite (b : Nat) (s : State) : Out :=
  match mget s.blocks b with
  | none => .next s
  | some B =>
    match mget s.launches B.launch with
    | none => .next s
    | some L =>
      let gs := (groupsOf s b).filter fun (_, G) => G.st != .exited && G.st != .killed
      if B.st ≠ .saving || !gs.all (fun (g, G) => drained s g G) then .next s else
      let reserved := (B.pre.map (·.who)) == some .inField
      let recs := saveRecs s gs L (if reserved then none else some (saveFree s L.ctx))
      let brec := if reserved then none else
        some ((recs.filterMap fun r => r.at_.map (· + recRoom r.bytes.length)).foldl max (saveFree s L.ctx), blockBytes s b B L)
      let put (s : State) (a : Nat) (bs : List Byte) : State := (putBytesAt s L.ctx (dieOf B.core) bs.length a bs).unpoison ((List.range bs.length).map (a + ·))
      let s := recs.foldl (fun s r => match r.at_ with
        | some a => put s a r.bytes
        | none => s) s
      let s := match brec with
        | some (a, bs) => put s a bs
        | none => s
      let sick := s.accSick.filter fun k => k / 64 / 4 == b
      let s := sick.foldl (fun s k => coreErr { s with accPoison := insNat s.accPoison k } 2 1 B.core (some L.ctx) 0 (some B.launch)) { s with accSick := s.accSick.filter (!sick.contains ·) }
      let rel := relPlace (blockCores B.wide B.core) B.scrOff L.desc.scratch
      let B' : Block :=
        { B with st := .saved, pre := none, fixed := [], save := recs, brec := brec, home := if reserved then some (clusterOf B.core) else none,
                 scr := s.mem.filterMap fun c => (rel c.1).map fun x => (x, c.2),
                 full := s.full.filterMap fun w => (rel (4 * w)).map (· / 4),
                 tags := s.tags.filterMap fun (w, t) => (rel (4 * w)).map fun x => (x / 4, t) }
      let s := gs.foldl (fun s (g, G) => unrequest (s.grp g (saveGroup s G)) g) s
      .next { s with
        blocks := mput s.blocks b B', mem := s.mem.filter fun c => (rel c.1).isNone, full := s.full.filter fun w => (rel (4 * w)).isNone,
        tags := s.tags.filter fun x => (rel (4 * x.1)).isNone }

/-! ### Restore (R347) -/

/-- A copy of a table entry on the new core: there already, or loading for the block. -/
def repin (s : State) (b core : Nat) (tab : List OvEntry) (ctx ov : Nat) : State × Nat :=
  match tab[ov]? with
  | some e => loadFixed s b ctx core e
  | none => (s, 0)

/-- Repins the overlays that a group's state names (R192, R345). -/
def repinGroup (s : State) (b g : Nat) (L : Launch) : State :=
  match mget s.groups g with
  | none => s
  | some G =>
    let pin (s : State) (ov : Nat) : State × Nat := repin s b G.core L.tab L.ctx ov
    let (s, copy) := pin s G.ov
    let (s, runs) := G.runs.foldl (fun (s, l) r => let (s, k) := pin s r.ov; (s, l ++ [{ r with copy := k }])) (s, ([] : List Run))
    let (s, hs) := G.hreg.foldl (fun (s, l) (i, h) =>
      match h.ov with
      | some (ov, _) => if h.st = .done then let (s, k) := pin s ov; (s, l ++ [(i, { h with ov := some (ov, k) })]) else (s, l ++ [(i, h)])
      | none => (s, l ++ [(i, h)])) (s, ([] : SMap Handle))
    let enter (s : State) (w : SWait) : State × SWait := match w with
      | .entering _ ov off popped =>
        match L.tab[ov]? with
        | some e => let (s, k) := startLoad s G.core L.ctx e (.entry g); (s, SWait.entering k ov off popped)
        | none => (s, .entryFailed)
      | w => (s, w)
    let (s, wait) := enter s G.wait
    let (s, mode) := match G.trapMode with
      | some m => let (s, k) := pin s m.ov; (s, some { m with copy := k })
      | none => (s, none)
    s.modGrp g fun G => { G with copy := copy, runs := runs, hreg := hs, wait := wait, trapMode := mode }

/-- Repins the token of a handle that lies in a scratch word. -/
def repinTag (s : State) (b core : Nat) (L : Launch) (t : Tag) : State × Tag :=
  match t.h.ov with
  | some (ov, _) => if t.h.st = .done then let (s, k) := repin s b core L.tab L.ctx ov; (s, { t with core := core, h := { t.h with ov := some (ov, k) } })
                    else (s, { t with core := core })
  | none => (s, { t with core := core })

/-- The table index of a compensation's overlay (R324). -/
def compOv (s : State) (B : Block) : Nat :=
  ((B.comp.bind fun c => (mget s.acts c.1).bind fun A => A.entries.find? (·.seq == c.2)).map (·.ov)).getD 0

/-- A restore begins: the block takes its place as its records give it, and every overlay it pins is there or loads. -/
def startRestore (s : State) (b : Nat) (B : Block) (L : Launch) (core : Nat) : State :=
  let (s, B) := recBlock s b B L
  let recs := B.save.map fun r => (r, r.now s)
  let cores := blockCores B.wide core
  let at_ := absPlace cores B.scrOff
  -- nothing of the area's earlier owner stays (R209, R286)
  let mine (loc : Nat) : Bool := (relPlace cores B.scrOff L.desc.scratch loc).isSome
  let s := cores.foldl (fun s c => s.forget (scrLoc c B.scrOff) L.desc.scratch) s
  let s : State :=
    { s with mem := B.scr.foldl (fun m c => memWrite m (at_ c.1) c.2) (s.mem.filter fun c => !mine c.1),
             full := B.full.foldl (fun l w => insNat l (at_ (4 * w) / 4)) (s.full.filter fun w => !mine (4 * w)),
             tags := s.tags.filter fun x => !mine (4 * x.1), poison := s.poison.filter fun l => !mine (64 * l) }
  let s := s.modBlk b fun X => { X with st := .restoring, core := core, scr := [], full := [], tags := [] }
  let s := recs.foldl (fun s (r, bs) => s.modGrp r.grp fun G0 =>
    let G := recGroup G0 r bs
    let c := groupCore B.wide core G.idx
    { G with st := r.was, core := c, part := partitionOf s c r.grp, sect := G.sect.map fun x => ((s.die (dieOf c)).clk, x.2) }) s
  let loads : State × List (Nat × Nat × Nat) := cores.foldl (fun (s, l) c =>
    (fixedOvs L B (compOv s B)).foldl (fun (s, l) ov => let (s, k) := repin s b c L.tab L.ctx ov; (s, l ++ [(c, ov, k)])) (s, l)) (s, [])
  let s := loads.1.modBlk b fun B => { B with fixed := loads.2 }
  let s := B.save.foldl (fun s r => repinGroup s b r.grp L) s
  B.tags.foldl (fun s (w, t) =>
    let loc := at_ (4 * w)
    let (s, t) := repinTag s b (groupCore B.wide core (w * 4 / Config.scratchSpan)) L t
    { s with tags := mput s.tags (loc / 4) t }) s

/-- Every overlay that a restored block waits for is loaded. -/
def restoreReady (s : State) (b : Nat) : Bool := !s.copies.any fun (_, c) => c.loading && c.waiters.contains (.fixed b)

/-- A restored group goes on; one that wrap time has met is diverted, unless a section holds that back (R302). -/
def resumeSaved (s : State) (g : Nat) : State :=
  match mget s.groups g with
  | some G => if G.divertDue && G.st = .running && G.sect.isNone && G.wait ≠ .abandoned then divertNow s g else s
  | none => s

/-- A core may replay a tile: it is on another die, its level suffices, and its die is of the other generation where one that suffices is
hitched (R381). -/
def auditCore (s : State) (A : Audit) (L : Launch) (core : Nat) : Bool :=
  let ok (c : Nat) : Bool := dieOf c != dieOf A.core && coreUp s c && decide (L.desc.level ≤ s.level c)
  let gen (c : Nat) : Nat := (s.die (dieOf c)).gen
  let other := (List.range Config.numDies).any fun d =>
    d != dieOf A.core && (s.die d).st = .hitched && decide (L.desc.level ≤ levelOf (s.die d).gen) && (s.die d).gen != gen A.core
  ok core && (!other || gen core != gen A.core)

/-- A saved block may come to a core: for a launch's block one that was eligible at its admission (R347, R368), for a compensation any (R324), for a replay one
that may replay its tile (R381). -/
def mayHost (s : State) (L : Launch) (B : Block) (core : Nat) : Bool :=
  match B.comp, B.audit with
  | some _, _ => true
  | none, some a => (mget s.audits a).any fun A => auditCore s A L core
  | none, none => L.eligible.contains core

def coresOfCluster (cl : Nat) : List Nat := (List.range 4).map (4 * cl + ·)

/-- A block that an in-field test saved comes back to its cluster, as long as that has a core in service for it (R384). -/
def homeOk (s : State) (B : Block) (core : Nat) : Bool :=
  match B.home with
  | none => true
  | some cl => clusterOf core == cl || !(if B.wide then (coresOfCluster cl).all (coreOk s) else (coresOfCluster cl).any (coreOk s))

/-- A saved block can be restored at a core (R347). -/
def restoreOk (s : State) (b : Nat) (B : Block) (L : Launch) (core : Nat) : Bool :=
  let cores := blockCores B.wide core
  (!B.wide || core % 4 == 0) && mayHost s L B core && homeOk s B core &&
  cores.all (fun c => coreOk s c && decide (L.desc.level ≤ s.level c) && coreRoom s L B core c && scrFree s c B.scrOff L.desc.scratch) && tilesQuiet s b cores

/-- RESTORE: first the block is rebuilt on a core with room, then, once its overlays are pinned, it resumes. A record whose crc fails
is an uncorrectable error that the block consumes (R287, R382). -/
def execRestore (b core : Nat) (s : State) : Out :=
  match mget s.blocks b with
  | none => .next s
  | some B =>
    match mget s.launches B.launch with
    | none => .next s
    | some L =>
      match B.st with
      | .saved =>
        let lost := ((B.save.filter (recBad s)).map fun r => r.at_.getD 0) ++ if blockBad s B then (B.brec.map (·.1)).toList else []
        if lost.isEmpty then .next (if restoreOk s b B L core then startRestore s b B L core else s) else
        let s := lost.foldl (fun s a => coreErr s 1 3 core (some L.ctx) a (some B.launch)) s
        let s := if B.comp.isSome || B.audit.isSome then s else launchError s B.launch
        .next (B.save.foldl (fun s r => fatalKill s 0x0F r.grp) s)
      | .restoring =>
        if !restoreReady s b then .next s else
        let s := dropWaiters s (· == .fixed b)
        let s := s.modBlk b fun B => { B with st := .started, save := [], brec := none, home := none }
        let s := B.save.foldl (fun s r => s.modGrp r.grp fun G => G.begins) s
        .next (B.save.foldl (fun s r => resumeSaved s r.grp) s)
      | _ => .next s

end Sys2Proof.Machine
end

