-- ==== Sys2Proof/Machine/Coherence.lean ====
section
/-!
DEFINITION. The events of the Girth's directory, of the home slices and of the L1s (R258 to R263), a fenced die (R265), host and peer accesses (R264,
R375).
-/

namespace Sys2Proof.Machine

/-! ### The Girth and the dies -/

def CohEv.asks : CohEv → Bool
  | .rdS => true
  | .rdX => true
  | .upg => true
  | _ => false

/-- One event at the Girth for a die and a line. Only a HITCHED die requests (R265), and one whose caches are full gives a line up first (R1). A line that
memory's data brings is fetched from the host if it holds it modified (R264). The die's slices follow the die. -/
def girthEvent (s : State) (ev : CohEv) (die line : Nat) : State :=
  if CohEv.asks ev && ((s.die die).st != .hitched || decide (s.dies.length ≤ die) || decide (2 ^ 33 ≤ line)) then s else
  match if CohEv.asks ev then dieRoom s die line else some s with
  | none => s
  | some s =>
    let s := if ev == .data && (s.coh.girth.reading die line).isSome then fetchHost s line else s
    syncDie (s.setGirth (s.coh.girth.event s.now ev die line)) line die

def execRdS (die line : Nat) (s : State) : Out := .next (girthEvent s .rdS die line)
def execRdX (die line : Nat) (s : State) : Out := .next (girthEvent s .rdX die line)
def execUpg (die line : Nat) (s : State) : Out := .next (girthEvent s .upg die line)
def execWb (die line : Nat) (s : State) : Out := .next (girthEvent s .wb die line)
def execEvC (die line : Nat) (s : State) : Out := .next (girthEvent s .evC die line)
def execInvAck (die line : Nat) (s : State) : Out := .next (girthEvent s .invAck die line)
def execFwdData (die line : Nat) (s : State) : Out := .next (girthEvent s .fwdData die line)
def execData (die line : Nat) (s : State) : Out := .next (girthEvent s .data die line)
def execGrant (die line : Nat) (s : State) : Out := .next (girthEvent s .grant die line)
def execInv (die line : Nat) (s : State) : Out := .next (girthEvent s .inv die line)
def execFwdS (die line : Nat) (s : State) : Out := .next (girthEvent s .fwdS die line)
def execFwdX (die line : Nat) (s : State) : Out := .next (girthEvent s .fwdX die line)
def execWbAck (die line : Nat) (s : State) : Out := .next (girthEvent s .wbAck die line)

/-! ### A die's home slices and its L1s -/

/-- What the die must hold of a line for an event of its home slice: a copy for a read, the line alone for a write (R257, R259). -/
def homeMay (s : State) (d : Nat) (ev : CohEv) (c line : Nat) : Bool :=
  let st := (s.coh.girth.at_ d line).st
  match ev with
  | .rdS => (s.die d).st == .hitched && st != .i
  | .rdX => (s.die d).st == .hitched && st.own
  | .upg => (s.die d).st == .hitched && st.own
  | .data => if ((s.home d).at_ c line).waits = some .rdS then st != .i else st.own
  | .grant => st.own
  | _ => true

/-- One event at a die's home slice for a cluster of the die (0 to 3) and a line: the Girth's protocol with clusters in place of dies (R259, R263). A cluster
that comes to write its line makes the die's copy dirty, without a word to the Girth (R265). -/
def homeEvent (s : State) (d : Nat) (ev : CohEv) (c line : Nat) : State :=
  if decide (s.dies.length ≤ d) || decide (4 ≤ c) || decide (2 ^ 33 ≤ line) || !homeMay s d ev c line then s else
  match if CohEv.asks ev then sliceRoom s d c line else some s with
  | none => s
  | some s => syncL1 (markUp (s.setHome d ((s.home d).event s.now ev c line)) d line) d line

/-- An L1 reads a line, takes it exclusive and clean, or drops it; what was dirty stays in the slice (R258). -/
def l1Event (s : State) (core line : Nat) (a : L1Act) : State :=
  match a with
  | .evict => if s.l1 core line = .i then s else s.setL1 core line .i
  | .read => if (s.die (dieOf core)).st = .hitched && decide (dieOf core < s.dies.length) && decide (line < 2 ^ 33) then (coreReads s core line).getD s else s
  | .own => if (s.die (dieOf core)).st = .hitched && decide (dieOf core < s.dies.length) && decide (line < 2 ^ 33) then (coreTakes s core line .e).getD s else s

/-! ### A fenced die (R265) -/

/-- Lines whose owner is a party. -/
def Dir.owned (D : Dir) (p : Nat) : List Nat :=
  D.regions.flatMap fun (_, R) => R.lines.filterMap fun (l, _, o) => if o == some p then some l else none

/-- The directory without a party: what it held is gone, requests it made bring nobody anything, answers it owed are given up. -/
def Dir.without (D : Dir) (p : Nat) : Dir :=
  let D : Dir := { D with lines := D.lines.filter fun (k, _) => k / 2 ^ 46 != p, msgs := D.msgs.filter fun m => m.1 != p, seen := D.seen.filter fun x => x.1 != p }
  D.regions.foldl (fun D (r, R) =>
    let lines := R.lines.filterMap fun (l, st, o) =>
      if o != some p then some (l, st, o) else if D.shared l = .s then some (l, .s, .none) else none
    let R : Region := { R with dies := R.dies.filter (· != p), queue := R.queue.filter fun q => q.2.1 != p, lines := lines }
    let D := D.setRegion r R
    match R.busy with
    | some (.mem _ d l) => if d = p then D.over l (R.line l).1 (R.line l).2 else D
    | some (.inv q d l due) =>
      let due := due.filter (· != p)
      if due.isEmpty then D.afterInvs q d l else D.busy l (.inv q d l due)
    | some (.fwd q d l o) =>
      if o ≠ p then D
      else if (D.at_ d l).waits.isNone then D.over l (R.line l).1 (R.line l).2
      else D.busy l (.mem q d l)
    | none => D) D

/-- A die has lost everything it cached. -/
def clearCaches (s : State) (d : Nat) : State :=
  let s := dropTlb s fun die _ => die == d
  { s with coh := { s.coh with homes := mdel s.coh.homes d, l1 := s.coh.l1.filter fun (k, _) => dieOf (k / 2 ^ 46) != d } }

/-- The Girth fences a die: lines it owned are poisoned at their memory. -/
def dropDie (s : State) (d : Nat) : State :=
  let s : State := { s with poison := (s.coh.girth.owned d).foldl insNat s.poison }
  clearCaches (s.setGirth (s.coh.girth.without d)) d

/-! ### Host and peers -/

/-- HOST_SNOOP (R264): the Girth answers from its host-line cache and gives the line up, whatever any die is doing. -/
def execHostSnoop (line : Nat) (s : State) : Out := .next { s with coh := { s.coh with hostLines := s.coh.hostLines.filter (· != line) } }

def askHost (s : State) (line : Nat) : State := { s with coh := { s.coh with backInv := insNat s.coh.backInv line } }

/-- BACK_INVALIDATE: the Girth asks the host for a line that it holds. -/
def execBackInvalidate (line : Nat) (s : State) : Out :=
  if s.coh.hostHolds.contains line && !s.coh.backInv.contains line then .next (askHost s line) else .next s

/-- The SIGNALs that wait are tried again: a line that the host held may be free (R264, R354). -/
def retrySignals (s : State) : State :=
  (mkeys s.pkts).foldl (fun s k => match pktBody s k with
    | some (.signal _ _ _) => tryPkt s k
    | _ => s) s

/-- BACK_INVALIDATE_RESPONSE: the host holds the line no more; writes that waited may complete at home. -/
def execBackInvalidateResponse (line : Nat) (s : State) : Out :=
  if !s.coh.backInv.contains line then .next s else
  .next (dropHost s line)

/-- Bytes of an access from outside. -/
def ExtAccess.at_ : ExtAccess → Nat × Nat
  | .read pa n => (pa, n)
  | .write pa n _ => (pa, n)
  | .atom pa ty _ _ => (pa, ty.size)
  | .cas pa ty _ _ => (pa, ty.size)

/-- An atomic of 4 or 8 bytes (R111, R142). -/
def ExtAccess.atomic : ExtAccess → Bool
  | .atom _ _ _ _ => true
  | .cas _ _ _ _ => true
  | _ => false

/-- An access of at most 8 bytes, inside one line; an atomic is aligned, of a type of 4 or 8 bytes. -/
def extOk (a : ExtAccess) : Bool :=
  let (pa, n) := ExtAccess.at_ a
  between 1 n 8 && pa / 64 == (pa + n - 1) / 64 && !paBad pa && (!ExtAccess.atomic a || (decide (4 ≤ n) && pa % n == 0))

/-- The access is performed, by the host threads (0) or by a peer: an atomic reads and writes with nothing between (R111, R375). -/
def outsideDoes (s : State) (k : Nat) (a : ExtAccess) : State :=
  match a with
  | .read pa n => outsideRead s k pa n
  | .write pa n x => outsideWrite s k pa n x.toNat
  | .atom pa ty op x => outsideWrite (outsideRead s k pa ty.size) k pa ty.size (atomNew op ty (s.read pa ty.size) (x.toNat % 2 ^ ty.bits))
  | .cas pa ty old new =>
    let t := outsideRead s k pa ty.size
    if s.read pa ty.size = old.toNat % 2 ^ ty.bits then outsideWrite t k pa ty.size (new.toNat % 2 ^ ty.bits) else t

/-- The access writes. -/
def ExtAccess.writes : ExtAccess → Bool
  | .read _ _ => false
  | _ => true

/-- The host-holds table has room for a line (R264). -/
def holdsRoom (s : State) (line : Nat) : Bool :=
  s.coh.hostHolds.isEmpty || s.coh.hostHolds.contains line || decide (s.coh.hostHolds.length ≤ Config.hostHoldsMore)

/-- The Girth makes room in the full table: it asks the host for one of the lines, if it has not yet (R264). -/
def makeHoldsRoom (s : State) : State :=
  if !s.coh.backInv.isEmpty then s else askHost s (s.coh.hostHolds.getD (Config.freeNat s.tick 9 % max 1 s.coh.hostHolds.length) 0)

/-- HOST_ACCESS (R264): a host thread reads or writes device memory, or its own; with `cache` the host keeps the line of device memory. -/
def execHostAccess (a : ExtAccess) (cache : Bool) (s : State) : Out :=
  let pa := (ExtAccess.at_ a).1
  let line := pa / 64
  if !extOk a || paClass pa = 2 then .next s else
  if paClass pa = 1 then
    .next (outsideDoes (if ExtAccess.writes a then { s with coh := { s.coh with hostLines := s.coh.hostLines.filter (· != line) } } else s) 0 a)
  else if cache && !holdsRoom s line then .next (makeHoldsRoom s) else
  let hold (s : State) (modified : Bool) : State :=
    if cache then { s with coh := { s.coh with hostHolds := insNat s.coh.hostHolds line,
                                               hostMod := if modified then insNat s.coh.hostMod line else s.coh.hostMod } } else s
  if ExtAccess.writes a then .next (outsideDoes (hold (girthTakes s line) true) 0 a)
  else .next (outsideDoes (hold (if cache then hostShares s line else hostReads s line) false) 0 a)

/-- PEER_ACCESS (R375): served at the Stirrup port through the directory; an access to a line that is busy at the Girth waits, and a write to one that the
host holds. -/
def execPeerAccess (peer : BitVec 4) (a : ExtAccess) (s : State) : Out :=
  let ok := ((mget s.peers peer.toNat).map fun p => p.set && p.up).getD false
  let pa := (ExtAccess.at_ a).1
  if !extOk a || paClass pa ≠ 0 || !ok then .next s else
  .next (((reachLine s .port (ExtAccess.writes a) pa).map fun s => outsideDoes s (peer.toNat + 1) a).getD s)

/-- PEER_LINK_DOWN: the number stays set up. -/
def execPeerLinkDown (peer : BitVec 4) (down : Bool) (s : State) : Out :=
  let p := (mget s.peers peer.toNat).getD { set := false, up := true }
  .next { s with peers := mput s.peers peer.toNat { p with up := !down } }

/-- PEER_NUMBER_SET. -/
def execPeerNumberSet (peer : BitVec 4) (up : Bool) (s : State) : Out :=
  let p := (mget s.peers peer.toNat).getD { set := false, up := true }
  .next { s with peers := mput s.peers peer.toNat { p with set := up } }

end Sys2Proof.Machine
end

