-- ==== Sys2Proof/Machine/Ras.lean ====
section
/-!
DEFINITION. Reliability: errors, self-tests, in-field tests and audits (R380 to R384).
-/

namespace Sys2Proof.Machine

def ErrUnit.num : ErrUnit → Nat
  | .core => 0 | .accumulator => 1 | .sharedCache => 2 | .hbm => 3 | .dieLink => 4 | .hostPort => 5 | .stack => 6

/-- The cores of a die. -/
def coresOf (die : Nat) : List Nat := (List.range Config.coresPerDie).map (Config.coresPerDie * die + ·)

/-- UNCORRECTABLE_ERROR (R172, R309, R327, R382): the error is logged, and poisons a line, a tile, an entry or a record, or meets its reader. -/
def execUncorrectableError (site : ErrSite) (unit : ErrUnit) (s : State) : Out :=
  let u := (ErrUnit.num unit)
  match site with
  | .line pa ctx => .next (logErr { s with poison := insNat s.poison (pa / 64) } 2 u 0 ctx pa none)
  | .tileOp op =>
    match mget s.ops op with
    | some o =>
      match o.body with
      | .tile t => .next (if t.begun then s else tileError s op o t)
      | _ => .next s
    | none => .next s
  | .tile g t =>
    -- a wrong checksum of a tile is found when the tile is next checked (R172)
    match mget s.groups g with
    | some G =>
      let key := tileKey s G t
      if G.st.here && decide (t < ((s.launch? G).map (·.desc.acctiles)).getD 0) && !s.accPoison.contains key then
        .next { s with accSick := insNat s.accSick key }
      else .next s
    | none => .next s
  | .group g =>
    match mget s.groups g with
    | some G =>
      if G.st.here then .next (groupError (coreErr s 1 u G.core (some (s.ctxOf G)) 0 ((s.blk? G).map (·.launch))) g 0 none) else .next s
    | none => .next s
  | .stackEntry act seq =>
    match mget s.acts act with
    | some A =>
      if A.entries.any (·.seq == seq) then
        .next (logErr (modEntry s act seq fun e => { e with bad := true }) 2 u 0 (some A.ctx) 0 (some A.launch))
      else .next s
    | none => .next s
  | .engine op =>
    match mget s.ops op with
    | some o =>
      match o.body with
      | .copy c => if c.fail.isSome then .next s else .next (engineConsumes (setCopy s op { c with fail := some 4 }) o 0)
      | _ => .next s
    | none => .next s
  | .link die =>
    let s := logErr s 4 u (BitVec.ofNat 16 (256 * die)) none 0 none
    .next { s with suspects := (coresOf die).foldl insNat s.suspects }
  | .saveRecord b =>
    match mget s.blocks b with
    | some B =>
      if B.st ≠ .saved then .next s else
      let s := logErr s 2 u 0 ((mget s.launches B.launch).map (·.ctx)) 0 (some B.launch)
      .next (s.modBlk b fun B => { B with save := B.save.map fun r => { r with bad := true } })
    | none => .next s

/-- CORRECTED_ERROR: corrected in place, and logged; the interface of the context that was involved, if there was one, gets a copy (R382). -/
def execCorrectedError (unit : ErrUnit) (loc : BitVec 16) (addr : ErrPlace) (s : State) : Out :=
  .next (logErr s 0 (ErrUnit.num unit) loc addr.ctx addr.addr none)

/-! ### Tests (R383, R384) -/

/-- The blocks on some cores are pre-empted. -/
def preemptCores (s : State) (cores : List Nat) (who : Requester) : State :=
  (cores.flatMap fun c => (blocksOn s c).map (·.1)).eraseDups.foldl (fun s b => preemptBlock s b who) s

/-- No block holds any of some cores. -/
def coresEmpty (s : State) (cores : List Nat) : Bool := cores.all fun c => (blocksOn s c).isEmpty

/-- SELF_TEST: a core with an error leaves service for its test; its blocks are pre-empted with budget 0. -/
def execSelfTest (core : Nat) (s : State) : Out :=
  if !s.suspects.contains core || s.testing.contains core then .next s else
  let s : State := { s with testing := insNat s.testing core, suspects := s.suspects.filter (· != core) }
  .next (preemptCores s [core] .selfTest)

/-- A die that leaves HITCHED owes no commit an acknowledgement any more: it takes the new sets as it leaves, and what its engines have begun with an old
set goes on with that (R274). -/
def leaveHitched (s : State) (d : Nat) : State :=
  s.pkts.foldl (fun s' (_, p) => match p.body with
    | .commit x _ _ _ dies _ => if dies.contains d then rangeSwitch s' d x else s'
    | _ => s') s

/-- A die is fenced (R364, R370): what only its segment of the rein-back stacks held is lost. -/
def fenceDie (s : State) (d : Nat) : State :=
  let lost (e : StackEntry) : StackEntry := if e.die == d && !e.spilled && e.st != .undone then { e with bad := true } else e
  let s := dropDie (leaveHitched (s.modDie d fun D => { D with st := .fenced }) d) d
  { s with acts := s.acts.map fun (k, A) => (k, { A with entries := A.entries.map lost }) }

/-- A die has too many fenced cores to serve (R383). -/
def dieSpent (s : State) (d : Nat) : Bool := decide (4 ≤ (s.fencedCores.filter fun c => dieOf c == d).length)

/-- A core is fenced until package reset; a die with four fenced cores is fenced (R383), one that is not in service when it would come into service. -/
def fenceCore (s : State) (core : Nat) : State :=
  let s : State := { s with fencedCores := insNat s.fencedCores core }
  let d := dieOf core
  if dieSpent s d && ((s.die d).st = .hitched || (s.die d).st = .draining) then fenceDie s d else s

/-- SELF_TEST_RESULT. The test runs once the core holds no block. -/
def execSelfTestResult (core : Nat) (pass : Bool) (s : State) : Out :=
  if !s.testing.contains core || s.fieldTests.contains (clusterOf core) || !coresEmpty s [core] then .next s else
  let s : State := { s with testing := s.testing.filter (· != core) }
  .next (if pass then s else fenceCore s core)

/-- IN_FIELD_TEST (R384): a test that has fallen due pre-empts the cluster's blocks with a budget of 50 ms; it takes the cores that are not fenced. -/
def execInFieldTest (cluster : Nat) (s : State) : Out :=
  let cores := (coresOfCluster cluster).filter fun c => !s.fencedCores.contains c
  let due := ((mget s.testEvery cluster).map fun n => decide ((mget s.lastTest cluster).getD 0 + n ≤ s.now)).getD false
  if !due || cluster ≥ Config.numClusters || cores.isEmpty || (s.die (cluster / 4)).st ≠ .hitched ||
      cores.any (fun c => s.testing.contains c || s.suspects.contains c) then .next s else
  let s : State := { s with testing := cores.foldl insNat s.testing, fieldTests := insNat s.fieldTests cluster }
  .next (preemptCores s cores .inField)

/-- IN_FIELD_TEST_END: once no block is on the cluster, its test ends; after a failure its cores are fenced. -/
def execInFieldTestEnd (cluster : Nat) (pass : Bool) (s : State) : Out :=
  let cores := coresOfCluster cluster
  if !s.fieldTests.contains cluster || !coresEmpty s cores then .next s else
  let s : State :=
    { s with testing := s.testing.filter fun c => !cores.contains c, fieldTests := s.fieldTests.filter (· != cluster), lastTest := mput s.lastTest cluster s.now }
  .next (if pass then s else cores.foldl fenceCore s)

/-! ### Audits (R380, R381) -/

/-- The group that replays a tile, with the original s1 to s6. -/
def replayGroup (b a : Nat) (A : Audit) (L : Launch) (core : Nat) (s : State) (k _i : Nat) : Group :=
  let D := L.desc
  let w (n : Nat) : Word := BitVec.ofNat 64 n
  { Group.start b A.idx core (partitionOf s core k) D.regs D.rootov D.rootent
      (startRegs [(1, D.args), (2, w A.lin), (3, w L.blockcnt), (4, w A.idx), (5, w D.groups), (6, w A.off)]) with audit := some a }

/-- AUDIT: the replay of a chosen tile takes a core with room at the original scratch offset. -/
def execAudit (l tile core : Nat) (s : State) : Out :=
  match s.audits.find? fun (_, A) => A.launch == l && A.tile == tile && A.done && !A.barred && !A.started, mget s.launches l with
  | some (a, A), some L =>
    let (b, s') := s.fresh
    let B : Block := { Block.empty l A.lin core false with audit := some a }
    if !auditCore s A L core || !coreRoom s L B core core || !scrFree s core A.off L.desc.scratch || !tilesQuiet s b [core] then .next s else
    let s' : State := { s' with blocks := mput s'.blocks b B, audits := mput s'.audits a { A with started := true, rcore := core } }
    .next (startBlock s' b B L core A.off 0 (replayGroup b a A L core))
  | _, _ => .next s

/-- The signature of some bytes that a tile wrote. -/
def signature (l : List Host.Cell) : BitVec 64 := crc64 (l.flatMap fun c => leBytes 8 c.1 ++ [c.2])

/-- AUDIT_COMPARE: once the tile's and the replay's writes are over, the signatures are compared; a difference is logged for both cores. A
replay that was killed compares nothing. -/
def execAuditCompare (a : Nat) (s : State) : Out :=
  match mget s.audits a with
  | none => .next s
  | some A =>
    let past := A.started && s.blocks.all fun (_, B) => B.audit != some a || B.st = .ended
    if !past || (s.ops.any fun (_, o) => (o.aud.map (·.1)) == some a) then .next s else
    let s : State := { s with audits := mdel s.audits a }
    if !A.ended || signature A.writes == signature A.replay then .next s else
    let ctx := (mget s.launches A.launch).map (·.ctx)
    .next (coreErr (coreErr s 3 0 A.core ctx 0 (some A.launch)) 3 0 A.rcore ctx 0 (some A.launch))

end Sys2Proof.Machine
end

