-- ==== Sys2Proof/Machine/Link.lean ====
section
/-!
DEFINITION. Dies, the host port, firmware and the module (R364 to R373, R385 to R388).
-/

namespace Sys2Proof.Machine

/-! ### Dies (R364 to R370) -/

/-- An event of a die that is there. -/
def onDie? (s : State) (d : Nat) (k : Die → State) : Out :=
  match s.dies[d]? with
  | some D => .next (k D)
  | none => .next s

/-- A die comes into a state now. -/
def Die.enter (D : Die) (st : DState) (now : Nat) : Die := { D with st := st, since := now }

/-- WAKE_REQUEST sets the wake latch of a GATED die's always-on island, which wakes it (R364, R369). The latch is cleared as the die hitches (DESIGN CHOICE,
log 83: R369 does not say when). -/
def execWakeRequest (d : Nat) (s : State) : Out :=
  onDie? s d fun D => if D.st = .gated then s.modDie d fun D => { D.enter .waking s.now with tries := 0, wake := true } else s

/-- POWER_GOOD: a hitch attempt begins. Dies hitch once the host port has trained (R387). -/
def execPowerGood (d : Nat) (s : State) : Out :=
  onDie? s d fun D => if D.st = .waking && decide (3 ≤ s.modl.up) then s.modDie d fun D => D.enter .hitching s.now else s

/-- The capability check of R365. -/
def capsOk (D : Die) : Bool :=
  let f (w : BitVec 32) (lo n : Nat) : Nat := (w.extractLsb' lo n).toNat
  (D.gen = 3 || D.gen = 4) && f D.cap0 24 4 + 1 == D.gen && f D.cap0 16 8 == 16 && f D.cap0 8 8 == 4 &&
  decide (4 ≤ f D.cap1 24 8) && decide (64 ≤ f D.cap1 16 8) && decide (8 ≤ f D.cap1 8 8) && decide (64 ≤ f D.cap1 0 8)

/-- Nothing of a die's earlier life is left (R367): caches, slots, write pointers, scratchpads; its registers are those now current (R366). -/
def clearDie (s : State) (d : Nat) : State :=
  let mine (loc : Nat) : Bool := isScr loc && dieOf (scrCore loc) == d
  let s := clearCaches s d
  { s with
    copies := s.copies.filter fun (_, c) => dieOf c.core != d
    chans := s.chans.filter fun (k, _) => dieOf (k % 2 ^ 32 / 8) != d
    mem := s.mem.filter fun c => !mine c.1
    full := s.full.filter fun w => !mine (4 * w)
    tags := s.tags.filter fun (w, _) => !mine (4 * w)
    ctxs := s.ctxs.map fun (k, c) => (k, { c with dieRanges := mdel c.dieRanges d }) }

/-- How long one hitch attempt may take, in ns (R364). -/
def hitchTime : Nat := 10000000

/-- HITCH (R366): a die that fails the check, or has four fenced cores, is fenced (R364, R383). An attempt has 10 ms (R364). Its copy of the time base is
set from the Girth's. -/
def execHitch (d : Nat) (s : State) : Out :=
  onDie? s d fun D =>
    if D.st ≠ .hitching || decide (D.since + hitchTime < s.now) then s
    else if !capsOk D || dieSpent s d then s.modDie d fun D => D.enter .fenced s.now
    else (clearDie s d).modDie d fun D =>
      { D.enter .hitched s.now with
        tries := 0, clk := 0, tb := Config.freeNat s.tick d % 101, toReset := false, empty := some s.now, mayGate := false, wake := false }

/-- A hitch attempt that has had its 10 ms is over; the third fences the die (R364). -/
def hitchUp (s : State) (d : Nat) (D : Die) : State :=
  if D.st ≠ .hitching || decide (s.now < D.since + hitchTime) then s
  else s.modDie d fun D => { D.enter (if D.tries + 1 ≥ 3 then .fenced else .waking) s.now with tries := D.tries + 1 }

/-- HITCH_TIMEOUT. -/
def execHitchTimeout (d : Nat) (s : State) : Out := onDie? s d fun D => hitchUp s d D

/-- No block is on a die. -/
def dieEmpty (s : State) (d : Nat) : Bool := coresEmpty s (coresOf d)

/-- A die begins to drain. -/
def startDrain (s : State) (d : Nat) (reset : Bool) : State :=
  leaveHitched (s.modDie d fun D => { D.enter .draining s.now with toReset := reset, mayGate := false }) d

/-- GATE_REQUEST (R369): the die holds no block, and has held none for the hold time that the driver set. -/
def execGateRequest (d : Nat) (s : State) : Out :=
  onDie? s d fun D => if D.st = .hitched && D.mayGate && dieEmpty s d then startDrain s d false else s

/-- RESET_REQUEST. -/
def execResetRequest (d : Nat) (s : State) : Out :=
  onDie? s d fun D => if D.st = .hitched && dieEmpty s d then startDrain s d true else s

/-- GATE_HOLD_TIMEOUT: the hold time has passed without a block. -/
def execGateHoldTimeout (d : Nat) (s : State) : Out :=
  onDie? s d fun D =>
    match D.hold, D.empty with
    | some h, some t => if D.st = .hitched && decide (t + h ≤ s.now) && dieEmpty s d then s.modDie d fun D => { D with mayGate := true } else s
    | _, _ => s

/-- A die still has a line in its caches or its buffer, or something is under way for it at the Girth (R265). -/
def dieLines (s : State) (d : Nat) : Bool :=
  (s.coh.girth.lines.any fun (k, x) => k / 2 ^ 46 == d && (x.st != .i || x.buffer || x.answer.isSome || x.waits.isSome)) ||
  s.coh.girth.msgs.any (·.1 == d) || s.coh.girth.regions.any fun (_, R) => R.dies.contains d || R.queue.any (·.2.1 == d)

/-- DIE_DRAIN_COMPLETE (R265, R369): its lines are written back, its engines are done, its activity entries go to HBM. -/
def execDieDrainComplete (d : Nat) (s : State) : Out :=
  onDie? s d fun D =>
    if D.st ≠ .draining || dieLines s d || (s.ops.any fun (_, o) => dieOf o.core == d) then s else
    let s := clearDie s d
    let s : State := { s with acts := s.acts.map fun (k, A) =>
      (k, { A with entries := A.entries.map fun e => if e.die == d then { e with spilled := true } else e }) }
    s.modDie d fun D => { D.enter (if D.toReset then .waking else .gated) s.now with tries := 0, toReset := false }

/-- LINK_LOSS: a lasting fault or the loss of the link fences a die; it is logged as a link error. -/
def execLinkLoss (d : Nat) (s : State) : Out :=
  onDie? s d fun D =>
    if D.st = .hitched || D.st = .draining then fenceDie (logErr s 4 4 (BitVec.ofNat 16 (256 * d)) none 0 none) d else s

/-! ### Module (R385, R387, R388) -/

/-- PACKAGE_RESET: everything but HBM, the fuses, the stored firmware's version and the model's own bookkeeping is as after reset; the bring-up begins anew. -/
def execPackageReset (s : State) : Out :=
  .next { State.reset with
    turn := s.turn, sched := s.sched, tick := s.tick, nextId := s.nextId, now := s.now, mem := s.mem.filter fun c => !isScr c.1
    dies := s.dies.map fun D => { D with st := .waking, tries := 0, since := s.now, clk := 0, tb := 50, toReset := false, hold := none, empty := none,
                                         mayGate := false, temp := 0, throttled := false, wake := false }
    modl := { State.reset.modl with version := s.modl.version, rollback := s.modl.rollback } }

/-- FIRMWARE_LOAD (R385): an image that passes is loaded and runs. At bring-up it is the one that the Girth ROM verifies and starts, step 1 of R387. -/
def execFirmwareLoad (image : FwImage) (s : State) : Out :=
  if image.signed && decide (s.modl.rollback ≤ image.version) then .next { s with modl := { s.modl with version := image.version, up := max 1 s.modl.up } }
  else .next s

/-- The Stirrups have trained their HBM: step 2 of R387. -/
def hbmTrained (s : State) : State := if s.modl.up = 1 then { s with modl := { s.modl with up := 2 } } else s

/-- A width and speed of the host link that R371 lists: x16, x8 or x4 at 64, 32 or 16 GT/s. -/
def linkOk (width speed : Nat) : Bool := [16, 8, 4].contains width && [64, 32, 16].contains speed

/-- The host port has trained: step 3 of R387, or anew after it. -/
def hostTrained (s : State) (width speed : Nat) : State :=
  if decide (2 ≤ s.modl.up) && linkOk width speed then { s with modl := { s.modl with up := 3, link := some (width, speed) } } else s

/-- The module status register (R388). -/
def statusReg (s : State) : BitVec 64 :=
  let dies (st : DState) : Nat := sumNat ((List.range 8).map fun d => if (s.dies[d]?.map (·.st)) = some st then 2 ^ d else 0)
  let hot := (s.dies.map fun D => D.temp.toNat).foldl max 0
  BitVec.ofNat 64 (2 ^ 56 * dies .fenced + 2 ^ 48 * dies .gated + 2 ^ 40 * dies .hitched + 2 ^ 32 * hot + 2 ^ 16 * s.modl.power.toNat +
    2 ^ 12 * s.modl.throttle.toNat + if s.modl.errpend then 1 else 0)

/-- POWER_WINDOW: above 2,200 W the clocks step down by a sixteenth; below, whether they step up is not fixed. -/
def execPowerWindow (watts : BitVec 16) (s : State) : Out :=
  let t := s.modl.throttle.toNat
  let t' := if watts.toNat > 2200 then min 15 (t + 1) else if Config.freeBit s.tick then t - 1 else t
  .next { s with modl := { s.modl with power := watts, throttle := BitVec.ofNat 4 t' } }

/-- THERMAL_THROTTLE: a die throttles at 95 °C; the reading is kept. -/
def execThermalThrottle (d : Nat) (temp : BitVec 8) (s : State) : Out :=
  onDie? s d fun D =>
    let hot := decide (95 ≤ temp.toNat)
    let s := if hot && !D.throttled then logErr s 5 0 (BitVec.ofNat 16 (256 * d)) none 0 none else s
    s.modDie d fun D => { D with temp := temp, throttled := hot }

/-- THERMAL_TRIP: at 110 °C the whole package is off. -/
def execThermalTrip (d : Nat) (temp : BitVec 8) (s : State) : Out :=
  onDie? s d fun _ =>
    let s := s.modDie d fun D => { D with temp := temp }
    if temp.toNat < 110 then s
    else
      let s := logErr s 5 0 (BitVec.ofNat 16 (256 * d)) none 0 none
      { s with modl := { s.modl with tripped := true } }

/-- ERRPEND_CLEAR (R388). -/
def execErrpendClear (s : State) : Out := .next { s with modl := { s.modl with errpend := false } }

/-! ### IDE (R371, R372) -/

/-- Streams: 0 is the link's, 1 to 4 are the selective ones (R371). -/
def ideStreams : Nat := 5

def ideKey (stream : Nat) (rx : Bool) : Nat := 2 * stream + rx.toNat

def State.ide (s : State) (stream : Nat) (rx : Bool) : Ide := (mget s.ides (ideKey stream rx)).getD Ide.reset

def State.setIde (s : State) (stream : Nat) (rx : Bool) (x : Ide) : State := { s with ides := mput s.ides (ideKey stream rx) x }

/-- The key of a flit: the marker parts the two keys. -/
def Ide.keyOf (x : Ide) (flit : Nat) : Nat := if flit ≤ x.mark then x.old.getD x.key else x.key

/-- KEY_ROLLOVER: flits after the marker go under the new key, which IDE_KM brings in an SPDM session (R371, R386); how many flits stand before it is not
fixed. -/
def execKeyRollover (way : IdeWay) (s : State) : Out :=
  let x := s.ide way.stream way.rx
  if decide (ideStreams ≤ way.stream) || !s.spdm.session || x.stopped || x.old.isSome then .next s
  else .next (s.setIde way.stream way.rx { x with key := x.key + 1, old := some x.key, mark := x.acked + 1 + Config.freeNat s.tick 0, marked := false, free := false })

/-- The key before a rollover is dropped once its marker is acknowledged and the sender has reported no flit under it any more (R372, step 3). -/
def Ide.dropOld (x : Ide) : Ide := if x.marked && x.free then { x with old := none, marked := false, free := false } else x

/-- MARKER_ACK: the marker and every flit before it are acknowledged. -/
def execMarkerAck (way : IdeWay) (s : State) : Out :=
  let x := s.ide way.stream way.rx
  if x.stopped || x.old.isNone then .next s else .next (s.setIde way.stream way.rx (Ide.dropOld { x with acked := x.mark, replay := none, marked := true }))

/-- The sender reports that its replay buffer holds no flit under the key before; the package does so when every flit before the marker is acknowledged. -/
def ideFree (s : State) (stream : Nat) (rx : Bool) : State :=
  let x := s.ide stream rx
  if x.stopped || x.old.isNone || (!rx && decide (x.acked < x.mark)) then s else s.setIde stream rx (Ide.dropOld { x with free := true })

/-- REPLAY_REQUEST: the flits from one on are sent again as stored, each under the key it was first sent with (`Ide.keyOf`). -/
def execReplayRequest (flit : IdeFlit) (s : State) : Out :=
  let x := s.ide flit.stream false
  if x.stopped || decide (flit.flit ≤ x.acked) then .next s else .next (s.setIde flit.stream false { x with replay := some flit.flit })

/-- A flit that the package receives in a stream fails its integrity check. -/
def ideBad (s : State) (stream : Nat) : State :=
  let x := s.ide stream true
  if decide (ideStreams ≤ stream) || x.stopped then s else s.setIde stream true { x with bad := true }

/-- A stream stops, both ways, and an uncorrectable link error is reported. -/
def ideStop (s : State) (stream : Nat) : State :=
  let s := logErr s 4 5 0 none 0 none
  let stop (rx : Bool) : Ide := { s.ide stream rx with stopped := true, bad := false }
  (s.setIde stream true (stop true)).setIde stream false (stop false)

/-- IDE_INTEGRITY_FAILURE: every stream of which a flit has failed its check stops. -/
def execIdeIntegrityFailure (s : State) : Out := .next (((List.range ideStreams).filter fun n => (s.ide n true).bad).foldl ideStop s)

/-! ### The time base (R373, R374) -/

/-- TIME_SOURCE_SELECT: a write of 3 is ignored; source 0 gives FREE_RUN, any other ACQUIRING. -/
def execTimeSourceSelect (src : BitVec 2) (s : State) : Out :=
  if src = 3 then .next s
  else .next { s with tb := { s.tb with source := src, state := if src = 0 then 0 else 1, good := 0, last := s.now, edge := none } }

/-- The edge of the 1PPS input: its time of day must follow within 500 ms (R373). -/
def ppsEdge (s : State) : State := if s.tb.source = 2 then { s with tb := { s.tb with edge := some s.now } } else s

/-- A measurement counts: PTM's, or a time of day within 500 ms after its edge (R373). -/
def measured (s : State) : Bool :=
  s.tb.source == 1 || (s.tb.source == 2 && s.tb.edge.any fun t => decide (s.now ≤ t + 500000000))

/-- Until the first LOCKED, and with no finite deadline in the heap, the time base may step forward to the source (R374). -/
def mayStep (s : State) : Bool := !s.tb.everLocked && !s.launches.any fun (_, L) => L.st != .complete && L.deadline.isSome

/-- TIME_MEASUREMENT. More than 100 ns gives HOLDOVER; in HOLDOVER a measurement gives ACQUIRING, whatever it measures (DEDUCED, log 13). -/
def execTimeMeasurement (offset : BitVec 32) (s : State) : Out :=
  if !measured s then .next s else
  let near := decide (offset.toInt.natAbs ≤ 100)
  let good := if !near then 0 else if s.tb.state = 3 then 1 else s.tb.good + 1
  let state : BitVec 2 :=
    if s.tb.state = 3 then 1
    else if !near then 3
    else if s.tb.state = 2 || decide (8 ≤ good) then 2 else 1
  let jump := if mayStep s && offset.msb && Config.freeBit s.tick then offset.toInt.natAbs else 0
  .next { s with now := s.now + jump
                 tb := { s.tb with offset := offset, good := good, state := state, last := s.now + jump, edge := none, everLocked := s.tb.everLocked || state == 2 } }

/-- No measurement has come for 2 s (R373). -/
def holdoverUp (s : State) : State :=
  if s.tb.source ≠ 0 && (s.tb.state = 1 || s.tb.state = 2) && decide (s.tb.last + 2000000000 ≤ s.now) then
    { s with tb := { s.tb with state := 3, good := 0 } }
  else s

/-- HOLDOVER. -/
def execHoldover (s : State) : Out := .next (holdoverUp s)

/-! ### SPDM (R386) -/

def answer (s : State) (x : Word) : State := { s with spdm := { s.spdm with answers := s.spdm.answers ++ [x] } }

/-- An answer to a request: a word whose value the spec does not give. -/
def spdmAnswer (s : State) (which : Nat) : State := answer s (Config.freeWord s.tick which)

/-- GET_VERSION: the version is 1.3, the only one, answered as the byte 0x13 (how the answer is packed is the model's, log 84). It begins a connection. -/
def execGetVersion (s : State) : Out :=
  .next (answer { s with spdm := { version := true, caps := false, algs := false, exchanged := false, session := false, answers := s.spdm.answers } } 0x13)

/-- GET_CAPABILITIES; what the answer's flags are is not stated. -/
def execGetCapabilities (s : State) : Out :=
  if s.spdm.version then .next (spdmAnswer { s with spdm := { s.spdm with caps := true } } 40) else .next s

/-- NEGOTIATE_ALGORITHMS: Ed25519 and SHA-512 are the only algorithms; the answer names those of the two that were asked for, as bits 0 and 1 (log 84). -/
def execNegotiateAlgorithms (ed25519 sha512 : Bool) (s : State) : Out :=
  if s.spdm.caps then
    .next (answer { s with spdm := { s.spdm with algs := ed25519 && sha512 } } (BitVec.ofNat 64 (ed25519.toNat + 2 * sha512.toNat)))
  else .next s

def execGetDigests (s : State) : Out := .next (if s.spdm.algs then spdmAnswer s 0 else s)

/-- Slot 0 holds the device identity chain. -/
def execGetCertificate (slot : Nat) (s : State) : Out := .next (if s.spdm.algs && slot == 0 then spdmAnswer s 10 else s)

def execChallenge (slot : Nat) (s : State) : Out := .next (if s.spdm.algs && slot == 0 then spdmAnswer s 20 else s)

/-- Measurements 1 to 7. -/
def execGetMeasurements (index : Nat) (s : State) : Out := .next (if s.spdm.algs && between 1 index 7 then spdmAnswer s index else s)

def execKeyExchange (slot : Nat) (s : State) : Out :=
  if s.spdm.algs && slot == 0 then
    let s := spdmAnswer s 30
    .next { s with spdm := { s.spdm with exchanged := true, session := false } }
  else .next s

def execFinish (s : State) : Out := .next { s with spdm := { s.spdm with session := s.spdm.session || s.spdm.exchanged, exchanged := false } }

end Sys2Proof.Machine
end

