-- ==== Sys2Proof/Machine/Dispatch.lean ====
section
/-!
DEFINITION. One arm per instruction: the meaning it has.
-/

namespace Sys2Proof.Machine

def exec (i : Instr) (s : State) : Host.Outcome State Fault Refusal :=
  match i with
  | .sadd d a b g => Sys2Proof.Machine.execSadd d a b g s
  | .ssub d a b g => Sys2Proof.Machine.execSsub d a b g s
  | .smul d a b g => Sys2Proof.Machine.execSmul d a b g s
  | .smulh d a b g => Sys2Proof.Machine.execSmulh d a b g s
  | .smulhn d a b g => Sys2Proof.Machine.execSmulhn d a b g s
  | .sand d a b g => Sys2Proof.Machine.execSand d a b g s
  | .sor d a b g => Sys2Proof.Machine.execSor d a b g s
  | .sxor d a b g => Sys2Proof.Machine.execSxor d a b g s
  | .sshl d a b g => Sys2Proof.Machine.execSshl d a b g s
  | .sshr d a b g => Sys2Proof.Machine.execSshr d a b g s
  | .ssra d a b g => Sys2Proof.Machine.execSsra d a b g s
  | .smin d a b g => Sys2Proof.Machine.execSmin d a b g s
  | .smax d a b g => Sys2Proof.Machine.execSmax d a b g s
  | .sminn d a b g => Sys2Proof.Machine.execSminn d a b g s
  | .smaxn d a b g => Sys2Proof.Machine.execSmaxn d a b g s
  | .ssel d a b g => Sys2Proof.Machine.execSsel d a b g s
  | .sbfx d a b g => Sys2Proof.Machine.execSbfx d a b g s
  | .sbfi d a b g => Sys2Proof.Machine.execSbfi d a b g s
  | .spopc d a g => Sys2Proof.Machine.execSpopc d a g s
  | .sclz d a g => Sys2Proof.Machine.execSclz d a g s
  | .sctz d a g => Sys2Proof.Machine.execSctz d a g s
  | .smov d a g => Sys2Proof.Machine.execSmov d a g s
  | .scmp cd rel a b g => Sys2Proof.Machine.execScmp cd rel a b g s
  | .saddi d a imm => Sys2Proof.Machine.execSaddi d a imm s
  | .sandi d a imm => Sys2Proof.Machine.execSandi d a imm s
  | .sori d a imm => Sys2Proof.Machine.execSori d a imm s
  | .sxori d a imm => Sys2Proof.Machine.execSxori d a imm s
  | .sshli d a sh => Sys2Proof.Machine.execSshli d a sh s
  | .sshri d a sh => Sys2Proof.Machine.execSshri d a sh s
  | .ssrai d a sh => Sys2Proof.Machine.execSsrai d a sh s
  | .smovi d imm => Sys2Proof.Machine.execSmovi d imm s
  | .scmpi cd rel a imm => Sys2Proof.Machine.execScmpi cd rel a imm s
  | .sbr g n off => Sys2Proof.Machine.execSbr g n off s
  | .sjmpr a g => Sys2Proof.Machine.execSjmpr a g s
  | .scall g n off => Sys2Proof.Machine.execScall g n off s
  | .sxcall ov entry => Sys2Proof.Machine.execSxcall ov entry s
  | .sret g => Sys2Proof.Machine.execSret g s
  | .sloop d imm => Sys2Proof.Machine.execSloop d imm s
  | .sexit g => Sys2Proof.Machine.execSexit g s
  | .syield g => Sys2Proof.Machine.execSyield g s
  | .snop g => Sys2Proof.Machine.execSnop g s
  | .sprog a g => Sys2Proof.Machine.execSprog a g s
  | .sldb d a imm => Sys2Proof.Machine.execSldb d a imm s
  | .sldh d a imm => Sys2Proof.Machine.execSldh d a imm s
  | .sldw d a imm => Sys2Proof.Machine.execSldw d a imm s
  | .sldd d a imm => Sys2Proof.Machine.execSldd d a imm s
  | .sstb d a imm => Sys2Proof.Machine.execSstb d a imm s
  | .ssth d a imm => Sys2Proof.Machine.execSsth d a imm s
  | .sstw d a imm => Sys2Proof.Machine.execSstw d a imm s
  | .sstd d a imm => Sys2Proof.Machine.execSstd d a imm s
  | .satom d a b g scope order => Sys2Proof.Machine.execSatom d a b g scope order s
  | .scas d a b g scope order e => Sys2Proof.Machine.execScas d a b g scope order e s
  | .sfence scope kind => Sys2Proof.Machine.execSfence scope kind s
  | .lrun off => Sys2Proof.Machine.execLrun off s
  | .lrunr a g => Sys2Proof.Machine.execLrunr a g s
  | .lwait g => Sys2Proof.Machine.execLwait g s
  | .svote d q g => Sys2Proof.Machine.execSvote d q g s
  | .swait ld st cp tl => Sys2Proof.Machine.execSwait ld st cp tl s
  | .cpy h a b sub => Sys2Proof.Machine.execCpy h a b sub s
  | .cpyg h a b glob => Sys2Proof.Machine.execCpyg h a b glob s
  | .cpyst h a b => Sys2Proof.Machine.execCpyst h a b s
  | .scwp d ch => Sys2Proof.Machine.execScwp d ch s
  | .ovld h a => Sys2Proof.Machine.execOvld h a s
  | .ovrel h => Sys2Proof.Machine.execOvrel h s
  | .hwait h => Sys2Proof.Machine.execHwait h s
  | .htest h b => Sys2Proof.Machine.execHtest h b s
  | .hcancel h => Sys2Proof.Machine.execHcancel h s
  | .hsend h a => Sys2Proof.Machine.execHsend h a s
  | .hrecv h a => Sys2Proof.Machine.execHrecv h a s
  | .phreg d a b mode pkg => Sys2Proof.Machine.execPhreg d a b mode pkg s
  | .phdrop a pkg => Sys2Proof.Machine.execPhdrop a pkg s
  | .pharr d a b pkg => Sys2Proof.Machine.execPharr d a b pkg s
  | .phaw d a b pkg => Sys2Proof.Machine.execPhaw d a b pkg s
  | .phwt a b pkg => Sys2Proof.Machine.execPhwt a b pkg s
  | .phqry d a pkg => Sys2Proof.Machine.execPhqry d a pkg s
  | .wsplit d => Sys2Proof.Machine.execWsplit d s
  | .wret a => Sys2Proof.Machine.execWret a s
  | .phdrain d a b => Sys2Proof.Machine.execPhdrain d a b s
  | .disp d => Sys2Proof.Machine.execDisp d s
  | .dlqry d dl => Sys2Proof.Machine.execDlqry d dl s
  | .wupok => Sys2Proof.Machine.execWupok s
  | .sndon => Sys2Proof.Machine.execSndon s
  | .sndoff => Sys2Proof.Machine.execSndoff s
  | .actopen d a commute => Sys2Proof.Machine.execActopen d a commute s
  | .actseal => Sys2Proof.Machine.execActseal s
  | .actend => Sys2Proof.Machine.execActend s
  | .actabn => Sys2Proof.Machine.execActabn s
  | .actdep a => Sys2Proof.Machine.execActdep a s
  | .cmpok => Sys2Proof.Machine.execCmpok s
  | .cmpfail a => Sys2Proof.Machine.execCmpfail a s
  | .stime d g => Sys2Proof.Machine.execStime d g s
  | .scyc d g => Sys2Proof.Machine.execScyc d g s
  | .sgetx d idx => Sys2Proof.Machine.execSgetx d idx s
  | .ssetx a idx => Sys2Proof.Machine.execSsetx a idx s
  | .strap code => Sys2Proof.Machine.execStrap code s
  | .stret skip => Sys2Proof.Machine.execStret skip s
  | .sbrk g => Sys2Proof.Machine.execSbrk g s
  | .slit d hi lit => Sys2Proof.Machine.execSlit d hi lit s
  | .vadd w => Sys2Proof.Machine.execVadd w s
  | .vsub w => Sys2Proof.Machine.execVsub w s
  | .vmul w => Sys2Proof.Machine.execVmul w s
  | .vmulh w => Sys2Proof.Machine.execVmulh w s
  | .vmad w => Sys2Proof.Machine.execVmad w s
  | .vand w => Sys2Proof.Machine.execVand w s
  | .vor w => Sys2Proof.Machine.execVor w s
  | .vxor w => Sys2Proof.Machine.execVxor w s
  | .vnot w => Sys2Proof.Machine.execVnot w s
  | .vshl w => Sys2Proof.Machine.execVshl w s
  | .vshr w => Sys2Proof.Machine.execVshr w s
  | .vsra w => Sys2Proof.Machine.execVsra w s
  | .vmin w => Sys2Proof.Machine.execVmin w s
  | .vmax w => Sys2Proof.Machine.execVmax w s
  | .vabs w => Sys2Proof.Machine.execVabs w s
  | .vneg w => Sys2Proof.Machine.execVneg w s
  | .vclz w => Sys2Proof.Machine.execVclz w s
  | .vpopc w => Sys2Proof.Machine.execVpopc w s
  | .vbfx w => Sys2Proof.Machine.execVbfx w s
  | .vbfi w => Sys2Proof.Machine.execVbfi w s
  | .vbrev w => Sys2Proof.Machine.execVbrev w s
  | .vaddmin w => Sys2Proof.Machine.execVaddmin w s
  | .vaddmax w => Sys2Proof.Machine.execVaddmax w s
  | .vfadd w => Sys2Proof.Machine.execVfadd w s
  | .vfsub w => Sys2Proof.Machine.execVfsub w s
  | .vfmul w => Sys2Proof.Machine.execVfmul w s
  | .vfma w => Sys2Proof.Machine.execVfma w s
  | .vfmin w => Sys2Proof.Machine.execVfmin w s
  | .vfmax w => Sys2Proof.Machine.execVfmax w s
  | .vfabs w => Sys2Proof.Machine.execVfabs w s
  | .vfneg w => Sys2Proof.Machine.execVfneg w s
  | .vfrcp w => Sys2Proof.Machine.execVfrcp w s
  | .vfrsq w => Sys2Proof.Machine.execVfrsq w s
  | .vfsqrt w => Sys2Proof.Machine.execVfsqrt w s
  | .vfex2 w => Sys2Proof.Machine.execVfex2 w s
  | .vflg2 w => Sys2Proof.Machine.execVflg2 w s
  | .vfsin w => Sys2Proof.Machine.execVfsin w s
  | .vfcos w => Sys2Proof.Machine.execVfcos w s
  | .vfdiv w => Sys2Proof.Machine.execVfdiv w s
  | .vfrnd w => Sys2Proof.Machine.execVfrnd w s
  | .vfcls w => Sys2Proof.Machine.execVfcls w s
  | .vfscl w => Sys2Proof.Machine.execVfscl w s
  | .vcvt w => Sys2Proof.Machine.execVcvt w s
  | .vpack w => Sys2Proof.Machine.execVpack w s
  | .vunpk w => Sys2Proof.Machine.execVunpk w s
  | .vcmp w => Sys2Proof.Machine.execVcmp w s
  | .vsel w => Sys2Proof.Machine.execVsel w s
  | .vpand w => Sys2Proof.Machine.execVpand w s
  | .vpor w => Sys2Proof.Machine.execVpor w s
  | .vpxor w => Sys2Proof.Machine.execVpxor w s
  | .vpnot g pd pa => Sys2Proof.Machine.execVpnot g pd pa s
  | .vmov g ty d b => Sys2Proof.Machine.execVmov g ty d b s
  | .vmovi g ty d imm => Sys2Proof.Machine.execVmovi g ty d imm s
  | .vlaneid g d => Sys2Proof.Machine.execVlaneid g d s
  | .vp2v g d pa => Sys2Proof.Machine.execVp2v g d pa s
  | .vv2p g pd a => Sys2Proof.Machine.execVv2p g pd a s
  | .vld w => Sys2Proof.Machine.execVld w s
  | .vst w => Sys2Proof.Machine.execVst w s
  | .vlds w => Sys2Proof.Machine.execVlds w s
  | .vsts w => Sys2Proof.Machine.execVsts w s
  | .vldsf w => Sys2Proof.Machine.execVldsf w s
  | .vstsf w => Sys2Proof.Machine.execVstsf w s
  | .vldsp w => Sys2Proof.Machine.execVldsp w s
  | .vatom w => Sys2Proof.Machine.execVatom w s
  | .vatoms w => Sys2Proof.Machine.execVatoms w s
  | .vcas w => Sys2Proof.Machine.execVcas w s
  | .vprf w => Sys2Proof.Machine.execVprf w s
  | .vldx w => Sys2Proof.Machine.execVldx w s
  | .vstx w => Sys2Proof.Machine.execVstx w s
  | .vshup w => Sys2Proof.Machine.execVshup w s
  | .vshdn w => Sys2Proof.Machine.execVshdn w s
  | .vperm w => Sys2Proof.Machine.execVperm w s
  | .vbcast w => Sys2Proof.Machine.execVbcast w s
  | .vred w => Sys2Proof.Machine.execVred w s
  | .vscan w => Sys2Proof.Machine.execVscan w s
  | .vvote g kind pd pa => Sys2Proof.Machine.execVvote g kind pd pa s
  | .velect g pd => Sys2Proof.Machine.execVelect g pd s
  | .mma w => Sys2Proof.Machine.execMma w s
  | .mmas w => Sys2Proof.Machine.execMmas w s
  | .mzero g tile => Sys2Proof.Machine.execMzero g tile s
  | .mepi w => Sys2Proof.Machine.execMepi w s
  | .mtrd g d tile col => Sys2Proof.Machine.execMtrd g d tile col s
  | .vdist w => Sys2Proof.Machine.execVdist w s
  | .topk g a b list => Sys2Proof.Machine.execTopk g a b list s
  | .topkm g dst src => Sys2Proof.Machine.execTopkm g dst src s
  | .lbr g target rc => Sys2Proof.Machine.execLbr g target rc s
  | .ljmp target => Sys2Proof.Machine.execLjmp target s
  | .lrec => Sys2Proof.Machine.execLrec s
  | .lexit g => Sys2Proof.Machine.execLexit g s
  | .lend => Sys2Proof.Machine.execLend s
  | .lcall target => Sys2Proof.Machine.execLcall target s
  | .lret => Sys2Proof.Machine.execLret s
  | .lpack => Sys2Proof.Machine.execLpack s
  | .lwaitc ld st cp tl => Sys2Proof.Machine.execLwaitc ld st cp tl s
  | .lnop => Sys2Proof.Machine.execLnop s
  | .ltrap g code => Sys2Proof.Machine.execLtrap g code s
  | .nop h => Sys2Proof.Machine.execNop h s
  | .launch h b => Sys2Proof.Machine.execLaunch h b s
  | .launchActivity h b id report => Sys2Proof.Machine.execLaunchActivity h b id report s
  | .copy h dst src len => Sys2Proof.Machine.execCopy h dst src len s
  | .signal h addr value add => Sys2Proof.Machine.execSignal h addr value add s
  | .waitWord h b => Sys2Proof.Machine.execWaitWord h b s
  | .rangeCommit h image invalidate => Sys2Proof.Machine.execRangeCommit h image invalidate s
  | .preloadOverlay h table len index => Sys2Proof.Machine.execPreloadOverlay h table len index s
  | .activityResume h id report => Sys2Proof.Machine.execActivityResume h id report s
  | .activityDiscard h id report => Sys2Proof.Machine.execActivityDiscard h id report s
  | .queueBarrier h mask => Sys2Proof.Machine.execQueueBarrier h mask s
  | .retry ctx seq => Sys2Proof.Machine.execRetry ctx seq s
  | .faultTrap ctx seq => Sys2Proof.Machine.execFaultTrap ctx seq s
  | .fatal ctx seq => Sys2Proof.Machine.execFatal ctx seq s
  | .stop ctx t => Sys2Proof.Machine.execStop ctx t s
  | .resume ctx t => Sys2Proof.Machine.execResume ctx t s
  | .read ctx t r => Sys2Proof.Machine.execRead ctx t r s
  | .write ctx t r x => Sys2Proof.Machine.execWrite ctx t r x s
  | .enable ctx => Sys2Proof.Machine.execEnable ctx s
  | .disable ctx => Sys2Proof.Machine.execDisable ctx s
  | .groupStart g => Sys2Proof.Machine.execGroupStart g s
  | .groupExitComplete g => Sys2Proof.Machine.execGroupExitComplete g s
  | .loadComplete op lo hi => Sys2Proof.Machine.execLoadComplete op lo hi s
  | .storeAck op part => Sys2Proof.Machine.execStoreAck op part s
  | .tileOpRetire op => Sys2Proof.Machine.execTileOpRetire op s
  | .copyComplete op => Sys2Proof.Machine.execCopyComplete op s
  | .nvmeCompletion op ok => Sys2Proof.Machine.execNvmeCompletion op ok s
  | .fullEmptyWaitDone g split lane => Sys2Proof.Machine.execFullEmptyWaitDone g split lane s
  | .rejectedAccessRetry op accepted => Sys2Proof.Machine.execRejectedAccessRetry op accepted s
  | .translationMissRetry cluster miss accepted => Sys2Proof.Machine.execTranslationMissRetry cluster miss accepted s
  | .queueBlockTimeout q down => Sys2Proof.Machine.execQueueBlockTimeout q down s
  | .probeToken tok next => Sys2Proof.Machine.execProbeToken tok next s
  | .slackClassRecompute => Sys2Proof.Machine.execSlackClassRecompute s
  | .syieldWindowExpiry g => Sys2Proof.Machine.execSyieldWindowExpiry g s
  | .ageingFloor g split => Sys2Proof.Machine.execAgeingFloor g split s
  | .overlayLoadEnd core copy verified => Sys2Proof.Machine.execOverlayLoadEnd core copy verified s
  | .dispenserRequest g => Sys2Proof.Machine.execDispenserRequest g s
  | .blockStart b => Sys2Proof.Machine.execBlockStart b s
  | .wrapTime l => Sys2Proof.Machine.execWrapTime l s
  | .deadline l => Sys2Proof.Machine.execDeadline l s
  | .sectionOverrun g => Sys2Proof.Machine.execSectionOverrun g s
  | .launchComplete l => Sys2Proof.Machine.execLaunchComplete l s
  | .launchReplay l => Sys2Proof.Machine.execLaunchReplay l s
  | .copyPacketComplete p => Sys2Proof.Machine.execCopyPacketComplete p s
  | .waitWordSatisfied p => Sys2Proof.Machine.execWaitWordSatisfied p s
  | .waitWordTimeout p => Sys2Proof.Machine.execWaitWordTimeout p s
  | .rangeCommitComplete p => Sys2Proof.Machine.execRangeCommitComplete p s
  | .completionRoom q => Sys2Proof.Machine.execCompletionRoom q s
  | .msixCoalesceTimeout q => Sys2Proof.Machine.execMsixCoalesceTimeout q s
  | .msixRateDelay vif => Sys2Proof.Machine.execMsixRateDelay vif s
  | .ostlerWatchdog => Sys2Proof.Machine.execOstlerWatchdog s
  | .queueBind vif q desc => Sys2Proof.Machine.execQueueBind vif q desc s
  | .queueUnbind q => Sys2Proof.Machine.execQueueUnbind q s
  | .storageWindowRegister ctx w entry => Sys2Proof.Machine.execStorageWindowRegister ctx w entry s
  | .storageWindowWithdraw ctx w => Sys2Proof.Machine.execStorageWindowWithdraw ctx w s
  | .quotaSet vif quota => Sys2Proof.Machine.execQuotaSet vif quota s
  | .contextCreate vif pa => Sys2Proof.Machine.execContextCreate vif pa s
  | .contextFlagsWrite ctx flags => Sys2Proof.Machine.execContextFlagsWrite ctx flags s
  | .teardown ctx => Sys2Proof.Machine.execTeardown ctx s
  | .contextRelease ctx => Sys2Proof.Machine.execContextRelease ctx s
  | .groupStopped g => Sys2Proof.Machine.execGroupStopped g s
  | .preempt b who => Sys2Proof.Machine.execPreempt b who s
  | .drainBudgetExpire b => Sys2Proof.Machine.execDrainBudgetExpire b s
  | .saveRecordWrite b => Sys2Proof.Machine.execSaveRecordWrite b s
  | .restore b core => Sys2Proof.Machine.execRestore b core s
  | .uncorrectableError site unit => Sys2Proof.Machine.execUncorrectableError site unit s
  | .correctedError unit loc addr => Sys2Proof.Machine.execCorrectedError unit loc addr s
  | .selfTest core => Sys2Proof.Machine.execSelfTest core s
  | .selfTestResult core pass => Sys2Proof.Machine.execSelfTestResult core pass s
  | .inFieldTest cluster => Sys2Proof.Machine.execInFieldTest cluster s
  | .audit l tile core => Sys2Proof.Machine.execAudit l tile core s
  | .auditCompare a => Sys2Proof.Machine.execAuditCompare a s
  | .compensationStart act core => Sys2Proof.Machine.execCompensationStart act core s
  | .compensationBudgetExpire g => Sys2Proof.Machine.execCompensationBudgetExpire g s
  | .rdS die line => Sys2Proof.Machine.execRdS die line s
  | .rdX die line => Sys2Proof.Machine.execRdX die line s
  | .upg die line => Sys2Proof.Machine.execUpg die line s
  | .wb die line => Sys2Proof.Machine.execWb die line s
  | .evC die line => Sys2Proof.Machine.execEvC die line s
  | .invAck die line => Sys2Proof.Machine.execInvAck die line s
  | .fwdData die line => Sys2Proof.Machine.execFwdData die line s
  | .data die line => Sys2Proof.Machine.execData die line s
  | .grant die line => Sys2Proof.Machine.execGrant die line s
  | .inv die line => Sys2Proof.Machine.execInv die line s
  | .fwdS die line => Sys2Proof.Machine.execFwdS die line s
  | .fwdX die line => Sys2Proof.Machine.execFwdX die line s
  | .wbAck die line => Sys2Proof.Machine.execWbAck die line s
  | .hostSnoop line => Sys2Proof.Machine.execHostSnoop line s
  | .backInvalidate line => Sys2Proof.Machine.execBackInvalidate line s
  | .backInvalidateResponse line => Sys2Proof.Machine.execBackInvalidateResponse line s
  | .hostAccess a cache => Sys2Proof.Machine.execHostAccess a cache s
  | .peerAccess peer a => Sys2Proof.Machine.execPeerAccess peer a s
  | .peerLinkDown peer down => Sys2Proof.Machine.execPeerLinkDown peer down s
  | .peerNumberSet peer up => Sys2Proof.Machine.execPeerNumberSet peer up s
  | .wakeRequest die => Sys2Proof.Machine.execWakeRequest die s
  | .powerGood die => Sys2Proof.Machine.execPowerGood die s
  | .hitch die => Sys2Proof.Machine.execHitch die s
  | .hitchTimeout die => Sys2Proof.Machine.execHitchTimeout die s
  | .gateRequest die => Sys2Proof.Machine.execGateRequest die s
  | .resetRequest die => Sys2Proof.Machine.execResetRequest die s
  | .gateHoldTimeout die => Sys2Proof.Machine.execGateHoldTimeout die s
  | .dieDrainComplete die => Sys2Proof.Machine.execDieDrainComplete die s
  | .linkLoss die => Sys2Proof.Machine.execLinkLoss die s
  | .packageReset => Sys2Proof.Machine.execPackageReset s
  | .firmwareLoad image => Sys2Proof.Machine.execFirmwareLoad image s
  | .keyRollover way => Sys2Proof.Machine.execKeyRollover way s
  | .markerAck way => Sys2Proof.Machine.execMarkerAck way s
  | .ideIntegrityFailure => Sys2Proof.Machine.execIdeIntegrityFailure s
  | .timeSourceSelect src => Sys2Proof.Machine.execTimeSourceSelect src s
  | .timeMeasurement offset => Sys2Proof.Machine.execTimeMeasurement offset s
  | .holdover => Sys2Proof.Machine.execHoldover s
  | .getVersion => Sys2Proof.Machine.execGetVersion s
  | .getCapabilities => Sys2Proof.Machine.execGetCapabilities s
  | .negotiateAlgorithms ed25519 sha512 => Sys2Proof.Machine.execNegotiateAlgorithms ed25519 sha512 s
  | .getDigests => Sys2Proof.Machine.execGetDigests s
  | .getCertificate slot => Sys2Proof.Machine.execGetCertificate slot s
  | .challenge slot => Sys2Proof.Machine.execChallenge slot s
  | .getMeasurements index => Sys2Proof.Machine.execGetMeasurements index s
  | .keyExchange slot => Sys2Proof.Machine.execKeyExchange slot s
  | .finish => Sys2Proof.Machine.execFinish s
  | .powerWindow watts => Sys2Proof.Machine.execPowerWindow watts s
  | .thermalThrottle die temp => Sys2Proof.Machine.execThermalThrottle die temp s
  | .thermalTrip die temp => Sys2Proof.Machine.execThermalTrip die temp s
  | .errpendClear => Sys2Proof.Machine.execErrpendClear s
  | .registerWrite r => Sys2Proof.Machine.execRegisterWrite r s
  | .copyBytesDelivered op n => Sys2Proof.Machine.execCopyBytesDelivered op n s
  | .queuePairDeleted ctx w => Sys2Proof.Machine.execQueuePairDeleted ctx w s
  | .inFieldTestEnd cluster pass => Sys2Proof.Machine.execInFieldTestEnd cluster pass s
  | .replayRequest flit => Sys2Proof.Machine.execReplayRequest flit s

end Sys2Proof.Machine
end

