-- ==== Sys2Proof/Machine/Settle.lean ====
section
/-!
DEFINITION. What the machine does around a turn: fetching an instruction (R44, R48, R55, R75), and what follows of itself after a step.
-/

namespace Sys2Proof.Machine

/-! ### Who may issue -/

/-- The group's block runs on a core whose die is up. -/
def hosted (s : State) (G : Group) : Bool :=
  ((s.blk? G).map fun B => B.st == .started).getD false && (s.die (dieOf G.core)).st == .hitched

/-- A split whose `mtrd` waits for tile operations stalls the rest of its group (R171). -/
def stalled (s : State) (G : Group) (str : Stream) : Bool :=
  match G.stall with
  | some (n, ops) => str != .split n && !(live s ops).isEmpty
  | none => false

/-- The scalar stream may issue: the group is RUNNING, not about to stop, not held (R69, R279, R341). -/
def scalarMay (s : State) (G : Group) : Bool :=
  G.st == .running && hosted s G && !G.stopWanted && !G.holds.any (·.str == .scalar) && !stalled s G .scalar

/-- A split may issue: also in an EXITING group, never in trap mode (R71, R332). -/
def laneMay (s : State) (G : Group) (n : Nat) : Bool :=
  (G.st == .running || G.st == .exiting) && hosted s G && !G.stopWanted && G.trapMode.isNone && (mget G.splits n).isSome &&
  !G.holds.any (·.str == .split n) && !stalled s G (.split n)

/-- A diversion that was held back happens now (R302, R303, R322). -/
def divertReady (G : Group) : Bool := G.divertDue && G.sect.isNone && G.st == .running && G.wait != .abandoned

/-! ### Fetch -/

/-- The scalar instruction at the pc; `none` past the end of the section or where the word does not decode (R44, R55). -/
def fetchScalar (s : State) (G : Group) : Option Instr :=
  match s.code G G.ov G.copy with
  | none => none
  | some c =>
    match c.scalarWord G.pc with
    | none => none
    | some w =>
      match decodeScalar w (c.scalarWord (G.pc + 1)) with
      | .ok (i, _) => some i
      | .error _ => none

/-- The lane word at the pc of a split. -/
def fetchLaneWord (s : State) (G : Group) (n : Nat) : Option (BitVec 96) :=
  match G.runs, mget G.splits n with
  | r :: _, some S => (s.code G r.ov r.copy).bind fun c => c.laneWord S.pc
  | _, _ => none

def fetchLane (s : State) (G : Group) (n : Nat) : Option Instr :=
  match fetchLaneWord s G n with
  | some w =>
    match decodeLane w with
    | .ok i => some i
    | .error _ => none
  | none => none

/-- The active lanes of a word that is no instruction, from its guard field; all lanes of the split past the section's end (R75, R334). -/
def rawActive (s : State) (G : Group) (n : Nat) : Mask :=
  match mget G.splits n with
  | none => 0
  | some S =>
    match fetchLaneWord s G n with
    | some w => active G S (Decode.gd (LaneF.unpack w))
    | none => S.mask

/-! ### After a step -/

/-- A context whose last operation has ended is DEAD (R283, R285). -/
def settleCtxs (s : State) : State :=
  { s with ctxs := s.ctxs.map fun (k, c) =>
      (k, if c.st = .tearing && !s.ops.any (fun (_, o) => o.ctx == k) then { c with st := .dead } else c) }

/-- Since when each hitched die has held no block (R369). -/
def settleDies (s : State) : State :=
  { s with dies := (List.range s.dies.length).zipWith (fun d D =>
      if dieEmpty s d then { D with empty := some (D.empty.getD s.now) } else { D with empty := none, mayGate := false }) s.dies }

/-- A pinned copy is in use, and charged to the interfaces whose blocks hold it (R188, R189). -/
def settleCopies (s : State) : State :=
  { s with copies := s.copies.map fun (k, c) => (k, if pinned s k then { c with used := s.tick, vifs := holders s k c } else c) }

/-- What follows of itself after every step. -/
def settle (s : State) : State := settleJams (settleCopies (settleDies (settleCtxs (settleActs (retrySignals s)))))

/-- The next slot of the schedule; when none is listed, a free one (log 1). -/
def nextSlot (s : State) : Slot :=
  match s.sched with
  | x :: _ => x
  | [] => Config.freeSlot s.tick

/-- A die's copy of the time base drifts, stays within 50 ns of the Girth's, and does not go back (R115). -/
def drift (tick d ns tb : Nat) : Nat :=
  let least := min tb 100 - ns
  least + Config.freeNat tick (100 + d) % (101 - least)

/-- Sixteenths by which the clock of a die is lowered (R387): the module's step, and what a die at 95 °C adds, which is not stated (log 85). -/
def clockStep (s : State) (d : Nat) (D : Die) : Nat :=
  min 15 (s.modl.throttle.toNat + if D.throttled then 1 + Config.freeNat s.tick (200 + d) % 15 else 0)

/-- Clocks that a die counts while a die at full clock counts `clk`: fewer when it is throttled; a part of a clock left over may end now or later. -/
def clocksOf (s : State) (d : Nat) (D : Die) (clk : Nat) : Nat :=
  let n := clk * (16 - clockStep s d D)
  n / 16 + if n % 16 != 0 && Config.freeBit (s.tick + d) then 1 else 0

/-- Time passes, and the turn goes on. -/
def advance (s : State) : State :=
  let x := nextSlot s
  { s with turn := x.turn, sched := s.sched.tail, tick := s.tick + 1, now := s.now + x.ns,
           dies := (List.range s.dies.length).zipWith (fun d D =>
             if D.st = .hitched then { D with clk := D.clk + clocksOf s d D x.clk, tb := drift s.tick d x.ns D.tb } else D) s.dies }

/-- What has a time limit ends when it comes, whoever has the turn: wrap times, deadlines and sections (R302, R303, R305), hitch attempts (R364), drain budgets
(R343, R344), compensation budgets (R325), and the time base without a measurement (R373). -/
def timeUp (s : State) : State :=
  let s := launchesUp s
  let s := (List.range s.dies.length).foldl (fun s d => (s.dies[d]?.map (hitchUp s d)).getD s) s
  let s := (mkeys s.blocks).foldl budgetUp s
  holdoverUp ((mkeys s.groups).foldl compUp s)

/-! ### Placing one instruction -/

/-- The context that a placed instruction runs in, if none is there. -/
def placedCtx : Context :=
  { st := .active, root := 0, savebase := 0, savesize := 0, flags := 0, faultring := 0, faultents := 16, seq := 0, recs := [], ranges := [],
    dieRanges := [], windows := [], cause := none, debug := false, dbgOut := none }

def placedDesc : LDesc :=
  { table := 0, tablelen := 1, regs := 8, groups := 1, pphasers := 0, scratch := 0, level := 2, acctiles := 0, workset := 1, rootov := 0, rootent := 0,
    trapov := 0, trapent := 0, wrapov := 0, wrapent := 0, flags := 0, args := 0, tilespace := 1, wrapafter := 0, deadline := Config.noDeadline,
    wrapbudget := 0, estimate := 1, audit := 0, snaplist := 0, snapcount := 0 }

/-- An overlay of two scalar words and one lane word. -/
def placedEntry : OvEntry := { image := 0, s := 2, l := 1, auto := false, lib := false }

/-- A machine in which one group runs one instruction: `scalar` and `lane` are the words of its overlay (log 12). -/
def placeGroup (s : State) (lane : Bool) (w : Nat) : State :=
  let k := s.nextId
  let code : SMap (BitVec 96) :=
    if lane then mset 0 [] 2 (BitVec.ofNat 96 w) else mset 0 (mset 0 [] 0 (BitVec.ofNat 96 (w % 2 ^ 32))) 1 (BitVec.ofNat 96 (w / 2 ^ 32))
  let cp : OvCopy := { core := 0, id := .tenant 0 0 2 1, ctx := 0, ent := placedEntry, slots := [0], loading := false, code := code, got := [], waiters := [], used := 0, vifs := [0] }
  let L : Launch :=
    { id := 0, vif := 0, ctx := 0, pkt := 0, urgent := false, desc := placedDesc, tab := [placedEntry], bitmap := 0, st := .running, order := 0,
      deadline := none, wrap := none, wrapped := none, killed := false, next := 0, handed := 0, returns := [], done := 0, dispWrapped := false,
      blockcnt := 1, valid := 0, phasers := [], faulted := false, stopStart := false, endedLate := false, act := none, slack := 3, replays := 0,
      pages := [], pagesLost := false, snaps := [], eligible := [0], quota := [Config.storeSlots] }
  let B : Block := { Block.empty (k + 1) 0 0 false with st := .started, fixed := [(0, 0, k)] }
  let G0 : Group := { Group.start (k + 2) 0 0 0 8 0 0 [] with st := .running, copy := k }
  let G : Group := if lane then
      { G0 with runs := [{ key := k + 4, ov := 0, copy := k, off := 0 }], splits := [(0, { pc := 0, mask := Mask.all, stack := [], ready := some 0 })] }
    else { G0 with ready := some 0 }
  { s with
    turn := if lane then .lane (k + 3) 0 else .scalar (k + 3)
    nextId := k + 5
    ctxs := if ((mget s.ctxs 0).map (·.st)) = some .active then s.ctxs else mput s.ctxs 0 placedCtx
    dies := s.dies.modify 0 fun D => { D with st := .hitched }
    copies := mput s.copies k cp, launches := mput s.launches (k + 1) L, blocks := mput s.blocks (k + 2) B, groups := mput s.groups (k + 3) G }

/-- A machine in which the ostler has taken one packet. -/
def placePacket (s : State) (w : Nat) : State :=
  let s : State := { s with ctxs := if ((mget s.ctxs 0).map (·.st)) = some .active then s.ctxs else mput s.ctxs 0 placedCtx }
  let Q : Queue :=
    { bound := true, vif := 0, ring := 0, ctl := 0, cring := 0, ctx := 0, slots := 4, cslots := 4, vector := 0, coal := 0, rd := 1, cwr := 0,
      taken := some (0, BitVec.ofNat 512 w), look := (lookPacket s 0 (BitVec.ofNat 512 w)).1, held := [], pend := none }
  { s with
    turn := .ostler, batch := [0], queues := mput s.queues 0 Q }

end Sys2Proof.Machine
end

