-- ==== Sys2Proof/Machine/Pick.lean ====
section
/-!
DEFINITION. Which stream of a partition issues (R93, R56), and what a turn does.
-/

namespace Sys2Proof.Machine

def Stream.num : Stream → Nat
  | .scalar => 0
  | .split n => n + 1

/-- The turn of a stream. -/
def Stream.turn (g : Nat) : Stream → Turn
  | .scalar => .scalar g
  | .split n => .lane g n

/-- A group's rank: its launch's slack class, and below class 3 for 256 clocks after a syield. -/
def rankOf (s : State) (G : Group) : Nat :=
  if G.yieldAt.any fun t => decide ((s.die (dieOf G.core)).clk < t + Config.yieldClocks) then 4 else ((s.launch? G).map (·.slack)).getD 3

/-- The streams of a group that may issue. -/
def Group.streams (s : State) (G : Group) : List Stream :=
  (if scalarMay s G then [.scalar] else []) ++ (mkeys G.splits).filterMap fun n => if laneMay s G n then some (.split n) else none

/-- The candidates of a partition: each stream of its groups that may issue. -/
def candidates (s : State) (core part : Nat) : List (Nat × Group × Stream) :=
  s.groups.flatMap fun (g, G) => if G.core != core || G.part != part then [] else (G.streams s).map fun str => (g, G, str)

/-- A stream stands before every class: it has been ready since `r`, for 64 issue slots or more. -/
def isAged (s : State) (G : Group) (str : Stream) (r : Nat) : Bool :=
  G.aged.contains str || decide (r + Config.ageingSlots ≤ (s.die (dieOf G.core)).clk)

/-- R93's order of two ready candidates: an aged one before any that is not, and the oldest of those; else the lower rank, and within it the one that has been
ready longer. Of two that are equal in all this either may go. -/
def goesFirst (s : State) (G : Group) (str : Stream) (r : Nat) (H : Group) (t : Stream) (q : Nat) : Bool :=
  match isAged s G str r, isAged s H t q with
  | true, true => decide (r ≤ q)
  | true, false => true
  | false, true => false
  | false, false => decide (rankOf s G < rankOf s H) || (rankOf s G == rankOf s H && decide (r ≤ q))

/-- The stream is ready, and no other ready candidate of its partition comes before it. -/
def picked (s : State) (g : Nat) (G : Group) (str : Stream) : Bool :=
  match G.readyOf str with
  | none => false
  | some r => (candidates s G.core G.part).all fun (h, H, t) =>
      (h == g && t == str) || match H.readyOf t with
        | none => true
        | some q => goesFirst s G str r H t q

/-! ### Readiness -/

/-- The clock up to which a stream's next instruction is interlocked. -/
def Group.freeOf (G : Group) : Stream → Nat
  | .scalar => G.free
  | .split n => ((mget G.splits n).map (·.free)).getD 0

def nextInstr (s : State) (G : Group) : Stream → Option Instr
  | .scalar => fetchScalar s G
  | .split n => fetchLane s G n

/-- A branch may stay where it is, and does not wait. -/
def branches : Instr → Bool
  | .sbr _ _ _ => true
  | .sjmpr _ _ => true
  | .sloop _ _ => true
  | .lbr _ _ _ => true
  | .ljmp _ => true
  | _ => false

/-- Where a group stands: what an instruction that only waits leaves as it is. -/
def Group.place (G : Group) : List Nat × SWait × GState × List (Nat × Nat × Mask × Nat × Option Nat) × Mask × Option (Nat × List Nat) × List Bool :=
  ([G.ov, G.copy, G.pc, G.calls.length, G.holds.length], G.wait, G.st, G.splits.map fun (n, S) => (n, S.pc, S.mask, S.stack.length, S.fe), G.lanedone, G.stall,
   [G.trapMode.isSome, G.stopWanted])

/-- What an instruction answers is not that its group waits where it is. -/
def moves (s : State) (g : Nat) : Out → Bool
  | .next t => (mget t.groups g).map (·.place) != (mget s.groups g).map (·.place)
  | _ => true

/-- A stream is ready: it may issue, and its next instruction is interlock-free and not waiting (R93). -/
def isReady (s : State) (g : Nat) (G : Group) (str : Stream) : Bool :=
  decide (G.freeOf str ≤ (s.die (dieOf G.core)).clk) &&
  (divertReady G || match nextInstr s G str with
    | none => true
    | some i => branches i || moves s g (exec i ({ s with turn := str.turn g } : State)))

/-- The clock since which a stream has been ready, after time has passed. -/
def readyAt (s : State) (g : Nat) (G : Group) (str : Stream) : Option Nat :=
  if (G.streams s).contains str && isReady s g G str then some ((G.readyOf str).getD (s.die (dieOf G.core)).clk) else none

/-- A group with the readiness of each of its streams; one that is not ready ages no more. -/
def readied (s : State) (g : Nat) (G : Group) : Group :=
  let G' : Group := { G with ready := readyAt s g G .scalar, splits := G.splits.map fun (n, S) => (n, { S with ready := readyAt s g G (.split n) }) }
  { G' with aged := G.aged.filter fun str => (G'.readyOf str).isSome }

def markReady (s : State) : State := { s with groups := s.groups.map fun (g, G) => (g, readied s g G) }

/-- A stream's turn: it is aged no more, and its next instruction may be interlocked for some clocks (R56 gives no latency). -/
def Group.turns (G : Group) (str : Stream) (free : Nat) : Group :=
  let G := { G with aged := G.aged.filter (· != str) }
  match str with
  | .scalar => { G with free := free, ready := none }
  | .split n => { G with splits := mupd G.splits n fun S => { S with free := free, ready := none } }

def tookTurn (s : State) (g : Nat) (str : Stream) : State :=
  s.modGrp g fun G => G.turns str ((s.die (dieOf G.core)).clk + Config.issueLatency s.tick g str.num)

/-! ### Turns -/

/-- A turn of a scalar stream (R69, R93, R302, R331). A stream that may not issue, or that its partition does not pick, does nothing. -/
def scalarTurn (s : State) (g : Nat) : Out :=
  match mget s.groups g with
  | none => .next s
  | some G =>
    if !scalarMay s G || !picked s g G .scalar then .next s
    else if divertReady G then .next (divertNow s g)
    else match fetchScalar s G with
      | some i => exec i (tookTurn s g .scalar)
      | none => .next (trapS s g 0x01)

/-- A turn of a split. -/
def laneTurn (s : State) (g n : Nat) : Out :=
  match mget s.groups g with
  | none => .next s
  | some G =>
    if !laneMay s G n || !picked s g G (.split n) then .next s
    else if divertReady G then .next (divertNow s g)
    else match fetchLane s G n with
      | some i => exec i (tookTurn s g (.split n))
      | none => .next (trapL s g n 0x01 (rawActive s G n))

/-- A turn of the ostler (R353 to R355): a step is formed, or its next packet runs. -/
def ostlerTurn (s : State) : Out :=
  if s.batch.isEmpty then .next (formBatch s) else
  match headPacket s with
  | none => .next (refuseHead s)
  | some (_, _, _, w) =>
    match decodePacket w with
    | .ok i => exec i s
    | .error _ => .next (refuseHead s)

end Sys2Proof.Machine
end

