-- ==== Sys2Proof/Machine/Step.lean ====
section
/-!
DEFINITION. One step: the turn's instruction or event runs, what follows of itself happens, time passes, what has fallen due happens, and each stream is ready
or is not.
-/

namespace Sys2Proof.Machine

/-- An event: an instruction of a stream is none, and nothing moves. -/
def eventTurn (s : State) (e : Instr) : Out :=
  match exec e s with
  | .fault _ => .next s
  | o => o

/-- What the turn does. A package that has tripped off waits for its reset (R387). -/
def runTurn (s : State) : Out :=
  if s.modl.tripped then (if s.turn = .event .packageReset then exec .packageReset s else .next s) else
  match s.turn with
  | .idle => .next s
  | .scalar g => scalarTurn s g
  | .lane g n => laneTurn s g n
  | .ostler => ostlerTurn s
  | .rangeSwitch die ctx => .next (rangeSwitch s die ctx)
  | .overlayRead copy word => .next (readOverlayWord s copy word)
  | .tileLanes op lanes => .next (tileLanes s op lanes)
  | .storePerform op lanes => .next (storePerform s op lanes)
  | .home die ev cluster line => .next (homeEvent s die ev cluster line)
  | .l1 core line act => .next (l1Event s core line act)
  | .queueBlocks q down => .next (queueBlocks s q down)
  | .queueMoves q => .next (queueMoves s q)
  | .ideFree stream rx => .next (ideFree s stream rx)
  | .ideBad stream => .next (ideBad s stream)
  | .ppsEdge => .next (ppsEdge s)
  | .hbmTrained => .next (hbmTrained s)
  | .hostTrained width speed => .next (hostTrained s width speed)
  | .event e => eventTurn s e

def step (s : State) : Host.Outcome State Fault Refusal :=
  match runTurn s with
  | .next t => .next (markReady (timeUp (advance (settle t))))
  | .fault f => .fault f
  | .refused r => .refused r

/-- Stores one instruction where the next step fetches it: up to 64 bits a scalar instruction, up to 96 a lane instruction, more a packet.
All that running it takes is placed with it (log 12). -/
def State.withFetchWord (s : State) (nbits w : Nat) : State :=
  let x := w % 2 ^ nbits
  if nbits ≤ 64 then placeGroup s false x else if nbits ≤ 96 then placeGroup s true x else placePacket s x

end Sys2Proof.Machine
end

