-- ==== Sys2Proof/Safety.lean ====
section
/-!
DEFINITION. What counts as a safe step, and the invariants that claims use.
-/

namespace Sys2Proof.Machine

/-- The step answers a next state: it neither faults nor refuses. -/
def Runs (s : State) : Prop := ∃ t, step s = .next t

/-- Memory is in its canonical form. -/
def MemInv (s : State) : Prop := memWf s.mem = true

/-- A property that every step keeps, from whatever state. -/
def KeptBySteps (I : State → Prop) : Prop := ∀ s t, I s → step s = .next t → I t

end Sys2Proof.Machine
end

