-- ==== Sys2Proof/Certificates/Slice0/Obligations.lean ====
section
/-!
DEFINITION. Statements for the provers, from the numbered rules of the spec. What the statements share stands in
`Sys2Proof.Claims`; each statement is one `Obligations.<Name>`.
-/

namespace Sys2Proof.Claims
open Sys2Proof.Machine

/-! ### Shared by the statements -/

/-- Group `g`, whose state is `G`, has the turn of its scalar stream. -/
abbrev Scalar (s : State) (g : Nat) (G : Group) : Prop := s.turn = .scalar g ∧ mget s.groups g = some G

/-- Group `g`, whose state is `G`, has the turn of its split `n`, which is `S`. -/
abbrev LaneTurn (s : State) (g : Nat) (G : Group) (n : Nat) (S : Split) : Prop :=
  s.turn = .lane g n ∧ mget s.groups g = some G ∧ mget G.splits n = some S

/-- `i` runs, group `g` becomes `G'`, and nothing else of the state changes. -/
def Becomes (i : Instr) (s : State) (g : Nat) (G' : Group) : Prop := exec i s = .next { s with groups := mput s.groups g G' }

/-- The guard of a scalar instruction holds (R53). -/
abbrev Holds (G : Group) (gd : CReg) : Prop := gd = 0 ∨ G.creg.getLsbD gd.toNat = true

/-- The keys of a map rise, as every update of the model keeps them. -/
abbrev Sorted {β : Type} (m : SMap β) : Prop := (m.map (·.1)).Pairwise (· < ·)

/-- The pc moves past `n` words. -/
def past (G : Group) (n : Nat) : Group := { G with pc := G.pc + n }

/-- `i` of `n` words runs under the guard `gd`: the group becomes `E` with the pc past the instruction; with the guard false only the
pc moves (R53). -/
def Guarded (i : Instr) (gd : CReg) (n : Nat) (s : State) (g : Nat) (G E : Group) : Prop :=
  (Holds G gd → Becomes i s g (past E n)) ∧ (¬ Holds G gd → Becomes i s g (past G n))

/-! ### Scalar arithmetic (R52, R97 to R102) -/

/-- `n` is the number of 0 bits above the highest 1 bit of `x`; 64 if `x` is 0. -/
def LeadingZeros (x : Word) (n : Nat) : Prop :=
  n ≤ 64 ∧ (∀ k < n, x.getLsbD (63 - k) = false) ∧ (n < 64 → x.getLsbD (63 - n) = true)

/-- `n` is the number of 0 bits below the lowest 1 bit of `x`; 64 if `x` is 0. -/
def TrailingZeros (x : Word) (n : Nat) : Prop :=
  n ≤ 64 ∧ (∀ k < n, x.getLsbD k = false) ∧ (n < 64 → x.getLsbD n = true)

/-- The "Scalar compares" column of R52. -/
def scalarRel : Rel → Word → Word → Option Bool
  | .eq, x, y => some (decide (x = y))
  | .ne, x, y => some (decide (x ≠ y))
  | .lt, x, y => some (decide (x.toInt < y.toInt))
  | .le, x, y => some (decide (x.toInt ≤ y.toInt))
  | .gt, x, y => some (decide (y.toInt < x.toInt))
  | .ge, x, y => some (decide (y.toInt ≤ x.toInt))
  | .ltn, x, y => some (decide (x.toNat < y.toNat))
  | .len, x, y => some (decide (x.toNat ≤ y.toNat))
  | .gtn, x, y => some (decide (y.toNat < x.toNat))
  | .gen, x, y => some (decide (y.toNat ≤ x.toNat))
  | .ord, _, _ => none
  | .unord, _, _ => none

end Sys2Proof.Claims

open Sys2Proof Sys2Proof.Machine Sys2Proof.Claims

/-- A read after a write of a register, of each kind: the new value there, every other register of the kind as it was, and no other part of
the group; s0, c0 and p0 read as zero, true and true in every lane and discard what is written (R32, R34, R54). -/
def Sys2Proof.Claims.RegistersReadAfterWrite : Prop :=
  ∀ G : Group,
    (∀ d r x, (G.ws d x).rs r = (if r = 0 then 0 else if r = d then x else G.rs r) ∧ G.ws d x = { G with sreg := (G.ws d x).sreg }) ∧
    (∀ d r b, (G.wc d b).rc r = (if r = 0 then true else if r = d then b else G.rc r) ∧ G.wc d b = { G with creg := (G.wc d b).creg }) ∧
    (∀ d r x, (G.wp d x).rp r = (if r = 0 then Mask.all else if r = d then x else G.rp r) ∧ G.wp d x = { G with preg := (G.wp d x).preg }) ∧
    (∀ d r x, (G.wh d x).rh r = (if r = d then x else G.rh r) ∧ G.wh d x = { G with hreg := (G.wh d x).hreg }) ∧
    (∀ d r m f i, lane ((G.wvMask d m f).rv r) i =
        (if r = d ∧ m.getLsbD i = true ∧ i < (G.rv d).length then f i else lane (G.rv r) i) ∧
      G.wvMask d m f = { G with vreg := (G.wvMask d m f).vreg })

/-- The register arithmetic of R98 and the bit fields of R99: each instruction writes what its row says to s_d if its guard holds, moves
the pc past its word, and changes nothing else. -/
def Obligations.ScalarArithmetic : Prop :=
  ∀ s g G d a b gd, Scalar s g G →
    let x := G.rs a
    let y := G.rs b
    let sh := y.toNat % 64
    let gives (i : Instr) (r : Word) : Prop := Guarded i gd 1 s g G (G.ws d r)
    gives (.sadd d a b gd) (BitVec.ofNat 64 (x.toNat + y.toNat)) ∧
    gives (.ssub d a b gd) (BitVec.ofInt 64 (x.toInt - y.toInt)) ∧
    gives (.smul d a b gd) (BitVec.ofNat 64 (x.toNat * y.toNat)) ∧
    gives (.smulh d a b gd) (BitVec.ofInt 64 (x.toInt * y.toInt / 2 ^ 64)) ∧
    gives (.smulhn d a b gd) (BitVec.ofNat 64 (x.toNat * y.toNat / 2 ^ 64)) ∧
    gives (.sand d a b gd) (x &&& y) ∧
    gives (.sor d a b gd) (x ||| y) ∧
    gives (.sxor d a b gd) (x ^^^ y) ∧
    gives (.sshl d a b gd) (BitVec.ofNat 64 (x.toNat * 2 ^ sh)) ∧
    gives (.sshr d a b gd) (BitVec.ofNat 64 (x.toNat / 2 ^ sh)) ∧
    gives (.ssra d a b gd) (BitVec.ofInt 64 (x.toInt / 2 ^ sh)) ∧
    gives (.smin d a b gd) (if x.toInt ≤ y.toInt then x else y) ∧
    gives (.smax d a b gd) (if x.toInt ≤ y.toInt then y else x) ∧
    gives (.sminn d a b gd) (if x.toNat ≤ y.toNat then x else y) ∧
    gives (.smaxn d a b gd) (if x.toNat ≤ y.toNat then y else x) ∧
    gives (.ssel d a b gd) (if G.rs d ≠ 0 then x else y) ∧
    gives (.spopc d a gd) (BitVec.ofNat 64 ((List.range 64).filter fun i => x.getLsbD i).length) ∧
    (∃ n, LeadingZeros x n ∧ gives (.sclz d a gd) (BitVec.ofNat 64 n)) ∧
    (∃ n, TrailingZeros x n ∧ gives (.sctz d a gd) (BitVec.ofNat 64 n)) ∧
    gives (.smov d a gd) x ∧
    (let pos := y.toNat % 64
     let len := min (y.toNat / 256 % 128) 64
     (∃ r : Word, (∀ i < 64, r.getLsbD i = (decide (i < len) && x.getLsbD (pos + i))) ∧ gives (.sbfx d a b gd) r) ∧
     ∃ r : Word, (∀ i < 64, r.getLsbD i = if pos ≤ i ∧ i < pos + len then x.getLsbD (i - pos) else (G.rs d).getLsbD i) ∧
       gives (.sbfi d a b gd) r)

/-- The immediates of R100 and the literals of R101: unguarded, the value of their row to s_d, the pc past their words, and nothing else. -/
def Sys2Proof.Claims.ScalarImmediates : Prop :=
  ∀ s g G d a (imm : BitVec 10) (sh : BitVec 6) (imm17 : BitVec 17) (lit : BitVec 32), Scalar s g G →
    let x := G.rs a
    let gives (i : Instr) (n : Nat) (r : Word) : Prop := Becomes i s g (past (G.ws d r) n)
    gives (.saddi d a imm) 1 (BitVec.ofInt 64 (x.toInt + imm.toInt)) ∧
    gives (.sandi d a imm) 1 (x &&& BitVec.ofInt 64 imm.toInt) ∧
    gives (.sori d a imm) 1 (x ||| BitVec.ofInt 64 imm.toInt) ∧
    gives (.sxori d a imm) 1 (x ^^^ BitVec.ofInt 64 imm.toInt) ∧
    gives (.sshli d a sh) 1 (BitVec.ofNat 64 (x.toNat * 2 ^ sh.toNat)) ∧
    gives (.sshri d a sh) 1 (BitVec.ofNat 64 (x.toNat / 2 ^ sh.toNat)) ∧
    gives (.ssrai d a sh) 1 (BitVec.ofInt 64 (x.toInt / 2 ^ sh.toNat)) ∧
    gives (.smovi d imm17) 1 (BitVec.ofInt 64 imm17.toInt) ∧
    gives (.slit d false lit) 2 (BitVec.ofInt 64 lit.toInt) ∧
    gives (.slit d true lit) 2 (BitVec.ofNat 64 (2 ^ 32 * lit.toNat + (G.rs d).toNat % 2 ^ 32))

/-- The compares of R102 with the relations of R52: the predicate gets the relation's value, the pc moves past the word, and nothing
else changes. -/
def Sys2Proof.Claims.ScalarCompares : Prop :=
  ∀ s g G cd rel a b gd (imm : BitVec 10) v w, Scalar s g G →
    scalarRel rel (G.rs a) (G.rs b) = some v → scalarRel rel (G.rs a) (BitVec.ofInt 64 imm.toInt) = some w →
    Guarded (.scmp cd rel a b gd) gd 1 s g G (G.wc cd v) ∧
    Becomes (.scmpi cd rel a imm) s g (past (G.wc cd w) 1)

/-- R52, R100 to R102: the immediates and the literals, and the compares. -/
def Obligations.ScalarImmediatesAndCompares : Prop := Sys2Proof.Claims.ScalarImmediates ∧ Sys2Proof.Claims.ScalarCompares


namespace Sys2Proof.Claims

/-! ### The scalar stream (R53, R69 to R78, R103 to R117) -/

/-- The branch of an SB word is taken (R53). -/
abbrev Taken (G : Group) (gd : CReg) (n : Bool) : Prop := ¬ (Holds G gd ↔ n = true)

/-- Offset `t` lies in the current scalar section (R104). -/
abbrev InScalar (s : State) (G : Group) (t : Int) : Prop := 0 ≤ t ∧ t < scalarLen s G

/-- Overlay `ov` of the launch can be entered at once: it is in the instruction store as copy `k`, and with it the block holds no more
slots than its working set (R187). -/
def Enterable (s : State) (g : Nat) (G : Group) (ov k : Nat) : Prop :=
  ∃ e c, (s.table G)[ov]? = some e ∧ copyOf s G.core (s.ctxOf G) e = some (k, c) ∧ c.loading = false ∧
    sumSlots s (blockHolds s G.blk G.core (some g)) + (if k ∈ blockHolds s G.blk G.core (some g) then 0 else slotsOf e) ≤ s.workset G

/-- The indices of the table of R40. -/
def listedSpecial (i : Nat) : Bool :=
  decide (i < 0x0C) || decide (0x10 ≤ i ∧ i ≤ 0x15) || decide (0x20 ≤ i ∧ i ≤ 0x26) || decide (0x30 ≤ i ∧ i ≤ 0x34) ||
  decide (0x40 ≤ i ∧ i ≤ 0x43) || [0x50, 0x60, 0x70, 0x80].contains i

end Sys2Proof.Claims

/-- R104, R105, R108: branches, calls, jumps and loops of the scalar stream with a target inside the section; the rest of the group and of
the state stays. -/
def Sys2Proof.Claims.ScalarBranches : Prop :=
  ∀ s g G d a gd n (off : BitVec 20) (imm : BitVec 10), Scalar s g G →
    (let t := (G.pc : Int) + off.toInt
     InScalar s G t →
       (Taken G gd n → Becomes (.sbr gd n off) s g { G with pc := t.toNat }) ∧
       (¬ Taken G gd n → Becomes (.sbr gd n off) s g (past G 1)) ∧
       (Taken G gd n → G.calls.length < 32 →
         Becomes (.scall gd n off) s g { G with calls := (G.ov, G.pc + 1) :: G.calls, pc := t.toNat }) ∧
       (¬ Taken G gd n → Becomes (.scall gd n off) s g (past G 1))) ∧
    ((G.rs a).toNat < 4096 → (G.rs a).toNat < scalarLen s G → Holds G gd →
      Becomes (.sjmpr a gd) s g { G with pc := (G.rs a).toNat }) ∧
    (¬ Holds G gd → Becomes (.sjmpr a gd) s g (past G 1)) ∧
    (let t := (G.pc : Int) + imm.toInt
     InScalar s G t →
       (G.rs d ≠ 1 → Becomes (.sloop d imm) s g { G.ws d (G.rs d - 1) with pc := t.toNat }) ∧
       (G.rs d = 1 → Becomes (.sloop d imm) s g (past (G.ws d 0) 1)))

/-- R103, R104, R105: where those instructions trap with illegal instruction (0x01): a target outside the section, taken or not, an
operand of sjmpr outside the section, a call that finds 32 entries, a return that finds none. -/
def Sys2Proof.Claims.ScalarBranchTraps : Prop :=
  ∀ s g G d a gd n (off : BitVec 20) (imm : BitVec 10), Scalar s g G →
    (¬ InScalar s G (G.pc + off.toInt) →
      exec (.sbr gd n off) s = .next (trapS s g 0x01) ∧ exec (.scall gd n off) s = .next (trapS s g 0x01)) ∧
    (¬ InScalar s G (G.pc + imm.toInt) → exec (.sloop d imm) s = .next (trapS s g 0x01)) ∧
    (Holds G gd → ¬ ((G.rs a).toNat < 4096 ∧ (G.rs a).toNat < scalarLen s G) → exec (.sjmpr a gd) s = .next (trapS s g 0x01)) ∧
    (Taken G gd n → 32 ≤ G.calls.length → exec (.scall gd n off) s = .next (trapS s g 0x01)) ∧
    (Holds G gd → G.calls = [] → G.wait = .none → exec (.sret gd) s = .next (trapS s g 0x01))

/-- R106, R107, R187: sxcall pushes the current place and goes to the entry of a resident overlay; sret goes back to the place on top of
the stack, in the current overlay or in a resident one. -/
def Sys2Proof.Claims.CallsAcrossOverlays : Prop :=
  ∀ s g G gd (ov : BitVec 8) (entry : BitVec 12) e k home off rest, Scalar s g G → G.wait = .none →
    ((s.table G)[ov.toNat]? = some e → entry.toNat < e.s → G.calls.length < 32 → Enterable s g G ov.toNat k →
      ∃ t, exec (.sxcall ov entry) s = .next t ∧
        mget t.groups g = some { G with calls := (G.ov, G.pc + 1) :: G.calls, ov := ov.toNat, copy := k, pc := entry.toNat } ∧
        t = { s with groups := t.groups, copies := t.copies } ∧ ∀ j, j ≠ g → mget t.groups j = mget s.groups j) ∧
    (Holds G gd → G.calls = (home, off) :: rest → home = G.ov → Becomes (.sret gd) s g { G with calls := rest, pc := off }) ∧
    (Holds G gd → G.calls = (home, off) :: rest → home ≠ G.ov → Enterable s g G home k →
      ∃ t, exec (.sret gd) s = .next t ∧
        mget t.groups g = some { G with calls := rest, ov := home, copy := k, pc := off } ∧
        t = { s with groups := t.groups, copies := t.copies } ∧ ∀ j, j ≠ g → mget t.groups j = mget s.groups j) ∧
    (¬ Holds G gd → Becomes (.sret gd) s g (past G 1))

/-- R103 to R108, R187: branches, calls, returns, jumps and loops, in a section and across overlays, and where they trap. -/
def Obligations.ScalarBranchesAndCalls : Prop := Sys2Proof.Claims.ScalarBranches ∧ Sys2Proof.Claims.ScalarBranchTraps ∧ Sys2Proof.Claims.CallsAcrossOverlays

/-- snop, syield and sprog (R93, R108, R114, R297): what each leaves. -/
def Sys2Proof.Claims.NopYieldProgress : Prop :=
  ∀ s g G a gd B, Scalar s g G → mget s.blocks G.blk = some B →
    Guarded (.snop gd) gd 1 s g G G ∧
    Guarded (.syield gd) gd 1 s g G { G with yieldAt := some (s.die (G.core / 16)).clk } ∧
    (Holds G gd → (G.rs a).toNat < 2 ^ 32 →
      exec (.sprog a gd) s = .next { s with groups := mput s.groups g (past G 1),
                                            blocks := mput s.blocks G.blk { B with progress := some (G.rs a).toNat } }) ∧
    (Holds G gd → 2 ^ 32 ≤ (G.rs a).toNat → exec (.sprog a gd) s = .next (trapS s g 0x01)) ∧
    (¬ Holds G gd → Becomes (.sprog a gd) s g (past G 1))

/-- R71: a group whose sexit executes is EXITING (in trap mode its frozen lane stream is discarded, R336); it becomes EXITED, out of
every phaser and with its handles empty, once its lane stream is idle, its counters are zero and no handle is PENDING. An sexit that has
executed before a trap took its group back from EXITING executes again, whatever its guard. -/
def Sys2Proof.Claims.GroupExits : Prop :=
  (∀ s g G gd, Scalar s g G →
    (let H := if G.trapMode.isSome then G.dropRuns else G
     let H : Group := { H with st := .exiting, trapMode := none, sect := none, wait := .none }
     Holds G gd ∨ G.wait = .leaving → exec (.sexit gd) s = .next (settleRuns { s with groups := mput s.groups g H })) ∧
    (¬ Holds G gd → G.wait ≠ .leaving → Becomes (.sexit gd) s g (past G 1))) ∧
  ∀ s g G, mget s.groups g = some G → G.st = .exiting →
    (G.runs = [] → G.splits = [] → G.cld = 0 → G.cst = 0 → G.ccp = 0 → G.ctl = 0 → (∀ p ∈ G.hreg, p.2.st ≠ .pending) →
      ∃ t G', exec (.groupExitComplete g) s = .next t ∧ mget t.groups g = some G' ∧ G'.st = .exited ∧ G'.hreg = [] ∧
        (∀ k, mget G'.memb k = none) ∧ t.mem = s.mem) ∧
    (G.runs ≠ [] ∨ G.splits ≠ [] ∨ 0 < G.cld ∨ 0 < G.cst ∨ 0 < G.ccp ∨ 0 < G.ctl ∨ (∃ p ∈ G.hreg, p.2.st = .pending) →
      exec (.groupExitComplete g) s = .next s)

/-- R78, R114, R116, R76: the vote register, the waits, after which later accesses follow the tile operations that have retired and the accesses of the
runs that are over (R77, R244), and the clock of the group's core.
That svote looks at its guard before trap mode matters is log 25. -/
def Sys2Proof.Claims.VotesAndWaits : Prop :=
  ∀ s g G d (q : BitVec 2) gd ld st cp tl, Scalar s g G →
    (G.trapMode = none → Guarded (.svote d q gd) gd 1 s g G (G.ws d (G.vote.extractLsb' (64 * q.toNat) 64))) ∧
    (G.cld ≤ ld.toNat → G.cst ≤ st.toNat → G.ccp ≤ cp.toNat → G.ctl ≤ tl.toNat →
      Becomes (.swait ld st cp tl) s g (past { G with ord := G.ord.follow (tilesOver s G tl) } 1)) ∧
    (ld.toNat < G.cld ∨ st.toNat < G.cst ∨ cp.toNat < G.ccp ∨ tl.toNat < G.ctl → exec (.swait ld st cp tl) s = .next s) ∧
    (G.trapMode = none → G.runs = [] → Holds G gd → Becomes (.lwait gd) s g
      (past { G with ord := { G.ord.follow G.laneDone with cov := sunion G.ord.cov G.laneRan } } 1)) ∧
    (G.trapMode = none → G.runs ≠ [] → Holds G gd → exec (.lwait gd) s = .next s) ∧
    (¬ Holds G gd → Becomes (.lwait gd) s g (past G 1)) ∧
    Guarded (.scyc d gd) gd 1 s g G (G.ws d (BitVec.ofNat 64 (s.die (G.core / 16)).clk))

/-- R115: a die has one copy of the time base, within 50 ns of the package's; stime reads the copy of its group's die, or what the group read before if
that is more. How a copy moves within the bound is free (log 15). -/
def Sys2Proof.Claims.TimeReads : Prop :=
  ∀ s die, ∃ c, c ≤ s.now + 50 ∧ s.now ≤ c + 50 ∧ ∀ g G d gd, G.core / 16 = die → Scalar s g G →
    (Holds G gd → Becomes (.stime d gd) s g (past ({ G with lastTime := max G.lastTime c }.ws d (BitVec.ofNat 64 (max G.lastTime c))) 1)) ∧
    (¬ Holds G gd → Becomes (.stime d gd) s g (past G 1))

/-- R71, R76, R78, R93, R114 to R116, R297: what else steers the scalar stream or reads a clock: exit, yield, progress, votes, waits, time. -/
def Obligations.ScalarStreamControl : Prop := Sys2Proof.Claims.GroupExits ∧ Sys2Proof.Claims.NopYieldProgress ∧ Sys2Proof.Claims.VotesAndWaits ∧ Sys2Proof.Claims.TimeReads

/-- R73, R74: a run is queued while the queue holds fewer than 8; if none was running it starts with one split of the lanes of laneact at
the run's offset, or ends at once without a lane; when the queue is full the scalar stream waits. -/
def Obligations.LaneRunsQueue : Prop :=
  ∀ s g G (off : BitVec 12) a gd e, Scalar s g G → G.trapMode = none → (s.table G)[G.ov]? = some e → (∀ p ∈ G.memb, p.2.drain = false) →
    let queued (i : Instr) (at_ : Nat) : Prop := ∃ t G' r, exec i s = .next t ∧ mget t.groups g = some G' ∧ G'.pc = G.pc + 1 ∧
        r.ov = G.ov ∧ r.copy = G.copy ∧ r.off = at_ ∧ t.mem = s.mem ∧ G'.sreg = G.sreg ∧ G'.vreg = G.vreg ∧
        (G.splits ≠ [] → G'.runs = G.runs ++ [r] ∧ G'.splits = G.splits) ∧
        (G.splits = [] → G.runs = [] → G.laneact ≠ 0 →
          G'.runs = [r] ∧ ∃ S, G'.splits = [(0, S)] ∧ S.pc = at_ ∧ S.mask = G.laneact ∧ S.stack = []) ∧
        (G.splits = [] → G.runs = [] → G.laneact = 0 → G'.runs = [] ∧ G'.splits = [])
    (off.toNat < e.l → G.runs.length < 8 → queued (.lrun off) off.toNat) ∧
    (off.toNat < e.l → 8 ≤ G.runs.length → exec (.lrun off) s = .next s) ∧
    (e.l ≤ off.toNat → exec (.lrun off) s = .next (trapS s g 0x01)) ∧
    (Holds G gd → (G.rs a).toNat < 4096 → (G.rs a).toNat < e.l → G.runs.length < 8 → queued (.lrunr a gd) (G.rs a).toNat) ∧
    (Holds G gd → ¬ ((G.rs a).toNat < 4096 ∧ (G.rs a).toNat < e.l) → exec (.lrunr a gd) s = .next (trapS s g 0x01)) ∧
    (¬ Holds G gd → Becomes (.lrunr a gd) s g (past G 1))

/-- R40, R117, R324: what sgetx reads at each index of the table, for a group of a launch and for a compensation group. -/
def Sys2Proof.Claims.SpecialRegistersRead : Prop :=
  ∀ s g G d B L, Scalar s g G → mget s.blocks G.blk = some B → mget s.launches B.launch = some L →
    let gives (idx : BitVec 10) (x : Word) : Prop := Becomes (.sgetx d idx) s g (past (G.ws d x) 1)
    let nat (idx : BitVec 10) (x : Nat) : Prop := gives idx (BitVec.ofNat 64 x)
    let comp := G.comp.isSome
    (∀ j : Nat, j < 4 → gives (BitVec.ofNat 10 j) (G.laneact.extractLsb' (64 * j) 64) ∧
      gives (BitVec.ofNat 10 (4 + j)) (G.faultmask.extractLsb' (64 * j) 64) ∧
      gives (BitVec.ofNat 10 (8 + j)) (G.lanedone.extractLsb' (64 * j) 64) ∧
      gives (BitVec.ofNat 10 (0x40 + j)) (G.memmask.extractLsb' (64 * j) 64)) ∧
    nat 0x010 (G.trap.cause.toNat + 2 ^ 16 * G.trap.code.toNat) ∧ nat 0x011 G.trap.lane.toNat ∧ nat 0x012 G.trap.ov ∧ nat 0x013 G.trap.off ∧
    gives 0x014 G.trap.addr ∧ nat 0x015 G.trap.split ∧
    gives 0x020 L.id ∧ nat 0x021 (if comp then 0 else B.lin) ∧ nat 0x022 (if comp then 1 else L.blockcnt) ∧ nat 0x023 G.idx ∧
    nat 0x024 (if comp then 1 else L.desc.groups) ∧ gives 0x025 L.desc.args ∧ nat 0x026 B.scrOff ∧
    nat 0x030 (G.core / 16) ∧ nat 0x031 (s.die (G.core / 16)).gen ∧ nat 0x033 (G.core % 16) ∧ nat 0x034 (G.core % 16 / 4) ∧
    (∀ m, (∃ D ∈ s.dies, D.st = .hitched ∧ levelOf D.gen = m) → (∀ D ∈ s.dies, D.st = .hitched → m ≤ levelOf D.gen) → nat 0x032 m) ∧
    nat 0x050 G.wrapflag.toNat ∧ nat 0x070 G.n ∧
    (∀ a, (match G.comp with | some p => some p.1 | none => L.act) = some a → ∀ A, mget s.acts a = some A → nat 0x060 A.id.toNat) ∧
    (G.comp = none → L.act = none → nat 0x060 0) ∧
    (∀ C, mget s.ctxs (s.ctxOf G) = some C → nat 0x080 (C.flags.getLsbD 0).toNat)

/-- R40, R41, R117: ssetx writes faultmask, lanedone and memmask, 64 lanes at a time; at any other index it traps with illegal
instruction, as sgetx does at an index outside the table. -/
def Sys2Proof.Claims.SpecialRegistersWritten : Prop :=
  ∀ s g G a, Scalar s g G →
    (∀ j : Nat, j < 4 →
      let put (m : Mask) : Mask := BitVec.ofNat 256 (m.toNat % 2 ^ (64 * j) + 2 ^ (64 * j) * (G.rs a).toNat + 2 ^ (64 * j + 64) * (m.toNat / 2 ^ (64 * j + 64)))
      Becomes (.ssetx a (BitVec.ofNat 10 (4 + j))) s g (past { G with faultmask := put G.faultmask } 1) ∧
      Becomes (.ssetx a (BitVec.ofNat 10 (8 + j))) s g (past { G with lanedone := put G.lanedone } 1) ∧
      Becomes (.ssetx a (BitVec.ofNat 10 (0x40 + j))) s g (past { G with memmask := put G.memmask } 1)) ∧
    (∀ idx : BitVec 10, ¬ (4 ≤ idx.toNat ∧ idx.toNat < 12) → ¬ (0x40 ≤ idx.toNat ∧ idx.toNat < 0x44) →
      exec (.ssetx a idx) s = .next (trapS s g 0x01)) ∧
    (∀ d, ∀ idx : BitVec 10, listedSpecial idx.toNat = false → exec (.sgetx d idx) s = .next (trapS s g 0x01))

/-- R40, R41, R117: what every special register reads, and which can be written. -/
def Obligations.SpecialRegisters : Prop := Sys2Proof.Claims.SpecialRegistersRead ∧ Sys2Proof.Claims.SpecialRegistersWritten


namespace Sys2Proof.Claims

/-! ### Splits and lane control (R54, R79 to R86) -/

/-- `i` runs, group `g` becomes `G'`, and nothing else changes, but that the drain unit of a run that ended goes home (R207). -/
def LaneBecomes (i : Instr) (s : State) (g : Nat) (G' : Group) : Prop :=
  exec i s = .next (settleRuns { s with groups := mput s.groups g G' })

/-- The lanes of a split for which p_pg XOR n is true (R54, R80). -/
abbrev Active (G : Group) (S : Split) (gd : LGuard) : Mask := S.mask &&& (if gd.inv then ~~~(G.rp gd.pg) else G.rp gd.pg)

/-- The join on top of a split's stack, if one is there. -/
def topJoin (S : Split) : Option Nat :=
  match S.stack with
  | .join j :: _ => some j
  | _ => none

/-- The split does not arrive at offset `pc`: no join with that address is on top of its stack (R81). -/
def Passes (G : Group) (S : Split) (pc : Nat) : Prop := ∀ j J, topJoin S = some j → mget G.joins j = some J → J.rc ≠ pc

end Sys2Proof.Claims

/-- R207: with no run's drain unit outstanding, nothing goes home; and a return of units touches neither memory nor registers. -/
def Sys2Proof.Claims.DrainUnitsOfRuns : Prop :=
  ∀ s : State, (s.runUnits = [] → settleRuns s = s) ∧ (settleRuns s).mem = s.mem ∧ (settleRuns s).turn = s.turn ∧
    ∀ g G, mget s.groups g = some G → ∃ G', mget (settleRuns s).groups g = some G' ∧ G' = { G with memb := G'.memb }

/-- R81: a split whose pc becomes `pc`. Unless the join on top of its stack waits there, only the pc changes. Otherwise it arrives: it takes over
the deferred lanes; or its entry is freed while another split holds the join; or, the last to arrive, it goes on with every lane that
arrived, the join is popped, marked lanes leave laneact, and the test is made again for the join that is now on top. `f + 1` bounds the tests, and a bound
above the stack's depth changes nothing. -/
def Sys2Proof.Claims.SplitArrives : Prop :=
  ∀ G n S pc, mget G.splits n = some S →
    (Passes G S pc → G.goto n pc = { G with splits := mput G.splits n { S with pc := pc } }) ∧
    ∀ j J rest, S.stack = .join j :: rest → mget G.joins j = some J → J.rc = pc →
      (J.defmask ≠ 0 → ∃ S' J', mget (G.goto n pc).splits n = some S' ∧ mget (G.goto n pc).joins j = some J' ∧
        S'.mask = J.defmask ∧ S'.pc = J.defpc ∧ S'.stack = S.stack ∧ J'.arrived = J.arrived ||| S.mask ∧ J'.defmask = 0 ∧ J'.rc = pc) ∧
      (J.defmask = 0 → (∃ m T, (m, T) ∈ G.splits ∧ m ≠ n ∧ .join j ∈ T.stack) →
        ∃ J', mget (G.goto n pc).joins j = some J' ∧ mget (G.goto n pc).splits n = none ∧ J'.arrived = J.arrived ||| S.mask ∧
          (G.goto n pc).laneact = G.laneact) ∧
      (J.defmask = 0 → (∀ m T, (m, T) ∈ G.splits → m ≠ n → .join j ∉ T.stack) → (∀ i, rest.head? ≠ some (.join i)) →
        ∃ S', mget (G.goto n pc).splits n = some S' ∧ S'.mask = J.arrived ||| S.mask ∧ S'.pc = pc ∧ S'.stack = rest ∧
          mget (G.goto n pc).joins j = none ∧ (G.goto n pc).laneact = G.laneact &&& ~~~G.exitMarks ∧ (G.goto n pc).exitMarks = 0) ∧
      (J.defmask = 0 → (∀ m T, (m, T) ∈ G.splits → m ≠ n → .join j ∉ T.stack) → ∀ f, S.pc = pc →
        ∃ H S', arrive (f + 1) G n = arrive f H n ∧ mget H.splits n = some S' ∧ S'.mask = J.arrived ||| S.mask ∧ S'.pc = pc ∧ S'.stack = rest ∧
          (∀ m, m ≠ n → mget H.splits m = mget G.splits m) ∧ mget H.joins j = none ∧ (∀ i, i ≠ j → mget H.joins i = mget G.joins i) ∧
          H.laneact = G.laneact &&& ~~~G.exitMarks ∧ H.exitMarks = 0 ∧ H.runs = G.runs) ∧
      (S.pc = pc → G.goto n pc = arrive loopFuel G n ∧ ∀ f, S.stack.length ≤ f → arrive (f + 1) G n = arrive (f + 2) G n)

/-- R80: lbr. A uniform branch only moves the pc. A divergent one pushes a join; with a free entry the taking lanes become a new split, with
none they go first and the others are deferred; with one side already at the reconvergence point only the other goes on. At depth 16
it traps with illegal instruction, as it does with a target outside the section. That the faultmask of these traps names every lane of the split is the model's
choice (log 77). -/
def Obligations.LaneBranch : Prop :=
  ∀ s g G n S gd (target rc : BitVec 12), LaneTurn s g G n S →
    let T := Active G S gd
    let F := S.mask &&& ~~~T
    let next := S.pc + 1
    let runs (G' : Group) : Prop := LaneBecomes (.lbr gd target rc) s g G'
    (laneLen s G ≤ target.toNat ∨ laneLen s G ≤ rc.toNat → exec (.lbr gd target rc) s = .next (trapL s g n 0x01 S.mask)) ∧
    (target.toNat < laneLen s G → rc.toNat < laneLen s G →
      (F = 0 → runs (G.goto n target.toNat)) ∧
      (F ≠ 0 → T = 0 → runs (G.goto n next)) ∧
      (F ≠ 0 → T ≠ 0 → target = rc → next = rc.toNat → runs (G.goto n rc.toNat)) ∧
      (F ≠ 0 → T ≠ 0 → target ≠ rc → next ≠ rc.toNat →
        (16 ≤ S.stack.length → exec (.lbr gd target rc) s = .next (trapL s g n 0x01 S.mask)) ∧
        (S.stack.length < 16 → ∃ G' j J, runs G' ∧ mget G.joins j = none ∧ mget G'.joins j = some J ∧ J.rc = rc.toNat ∧ J.arrived = 0 ∧
          (∀ i, i ≠ j → mget G'.joins i = mget G.joins i) ∧
          (∀ k < 4, mget G.splits k = none → (∀ i < k, mget G.splits i ≠ none) →
            J.defmask = 0 ∧
            (∃ A, mget G'.splits n = some A ∧ A.mask = F ∧ A.pc = next ∧ A.stack = .join j :: S.stack) ∧
            (∃ B, mget G'.splits k = some B ∧ B.mask = T ∧ B.pc = target.toNat ∧ B.stack = .join j :: S.stack) ∧
            ∀ i, i ≠ n → i ≠ k → mget G'.splits i = mget G.splits i) ∧
          ((∀ k < 4, mget G.splits k ≠ none) →
            J.defmask = F ∧ J.defpc = next ∧
            (∃ A, mget G'.splits n = some A ∧ A.mask = T ∧ A.pc = target.toNat ∧ A.stack = .join j :: S.stack) ∧
            ∀ i, i ≠ n → mget G'.splits i = mget G.splits i))) ∧
      (F ≠ 0 → T ≠ 0 → (target = rc ∧ next ≠ rc.toNat ∨ target ≠ rc ∧ next = rc.toNat) →
        let home := if target = rc then T else F
        let away := if target = rc then F else T
        let apc := if target = rc then next else target.toNat
        (∀ j J, topJoin S = some j → mget G.joins j = some J → J.rc = rc.toNat →
          ∃ G' A J', runs G' ∧ mget G'.splits n = some A ∧ mget G'.joins j = some J' ∧
            A.mask = away ∧ A.pc = apc ∧ A.stack = S.stack ∧ J'.arrived = J.arrived ||| home ∧ J'.defmask = J.defmask) ∧
        (Passes G S rc.toNat → S.stack.length < 16 →
          ∃ G' A j J', runs G' ∧ mget G'.splits n = some A ∧ mget G.joins j = none ∧ mget G'.joins j = some J' ∧
            A.mask = away ∧ A.pc = apc ∧ A.stack = .join j :: S.stack ∧ J'.rc = rc.toNat ∧ J'.arrived = home ∧ J'.defmask = 0) ∧
        (Passes G S rc.toNat → 16 ≤ S.stack.length → exec (.lbr gd target rc) s = .next (trapL s g n 0x01 S.mask))))

/-- R83, R84, R86: jumps, calls, returns and early reconvergence of a split; lnop, lpack and a wait that is over only advance it. -/
def Sys2Proof.Claims.LaneJumps : Prop :=
  ∀ s g G n S (target : BitVec 12) ld st cp tl, LaneTurn s g G n S →
    (target.toNat < laneLen s G → LaneBecomes (.ljmp target) s g (G.goto n target.toNat)) ∧
    (target.toNat < laneLen s G → S.stack.length < 16 →
      Becomes (.lcall target) s g { G with splits := mput G.splits n { S with stack := .call (S.pc + 1) :: S.stack, pc := target.toNat } }) ∧
    (laneLen s G ≤ target.toNat → exec (.ljmp target) s = .next (trapL s g n 0x01 S.mask) ∧ exec (.lcall target) s = .next (trapL s g n 0x01 S.mask)) ∧
    (16 ≤ S.stack.length → exec (.lcall target) s = .next (trapL s g n 0x01 S.mask)) ∧
    (∀ r rest, S.stack = .call r :: rest →
      LaneBecomes .lret s g ({ G with splits := mput G.splits n { S with stack := rest } }.goto n r)) ∧
    ((∀ r, S.stack.head? ≠ some (.call r)) → exec .lret s = .next (trapL s g n 0x01 S.mask)) ∧
    (∀ j J, topJoin S = some j → mget G.joins j = some J → LaneBecomes .lrec s g (G.goto n J.rc)) ∧
    (topJoin S = none → ∃ S', S' = { S with ord := S'.ord } ∧
      LaneBecomes .lrec s g ({ G with splits := mput G.splits n S' }.goto n (S.pc + 1))) ∧
    LaneBecomes .lnop s g (G.goto n (S.pc + 1)) ∧
    LaneBecomes .lpack s g (G.goto n (S.pc + 1)) ∧
    (G.cld ≤ ld.toNat → G.cst ≤ st.toNat → G.ccp ≤ cp.toNat → G.ctl ≤ tl.toNat →
      LaneBecomes (.lwaitc ld st cp tl) s g ({ G with splits := mput G.splits n { S with ord := S.ord.follow (tilesOver s G tl) } }.goto n (S.pc + 1))) ∧
    (ld.toNat < G.cld ∨ st.toNat < G.cst ∨ cp.toNat < G.ccp ∨ tl.toNat < G.ctl → exec (.lwaitc ld st cp tl) s = .next s)

/-- R81: EndLanes. An empty stack frees the split's entry, and with the last one the run ends, the marked lanes leave laneact and the queue
moves on; calls are dropped; deferred lanes are taken over; while another split holds the join the entry is freed; otherwise the lanes that
arrived go on at the join's address, where the split arrives anew, and if none arrived the split ends with the rest of its stack. `f + 1` bounds the loop, and
`loopFuel` is more than a stack is deep. -/
def Sys2Proof.Claims.SplitEnds : Prop :=
  ∀ f G n S, mget G.splits n = some S →
    let H := endLanes (f + 1) G n
    (S.stack = [] → (∃ m, m ≠ n ∧ mget G.splits m ≠ none) →
      mget H.splits n = none ∧ H.runs = G.runs ∧ H.laneact = G.laneact ∧ ∀ m, m ≠ n → mget H.splits m = mget G.splits m) ∧
    (S.stack = [] → (∀ m, m ≠ n → mget G.splits m = none) →
      H.laneact = G.laneact &&& ~~~G.exitMarks ∧ H.exitMarks = 0 ∧ (G.runs.length ≤ 1 → H.runs = [] ∧ H.splits = []) ∧
      (∀ r q rest, G.runs = r :: q :: rest → H.laneact ≠ 0 →
        H.runs = q :: rest ∧ ∃ S', H.splits = [(0, S')] ∧ S'.pc = q.off ∧ S'.mask = H.laneact ∧ S'.stack = [])) ∧
    (∀ r rest, S.stack = .call r :: rest → H = endLanes f { G with splits := mput G.splits n { S with stack := rest } } n) ∧
    ∀ j J rest, S.stack = .join j :: rest → mget G.joins j = some J →
      (J.defmask ≠ 0 → ∃ S' J', mget H.splits n = some S' ∧ mget H.joins j = some J' ∧
        S'.mask = J.defmask ∧ S'.pc = J.defpc ∧ S'.stack = S.stack ∧ J'.arrived = J.arrived ∧ J'.defmask = 0) ∧
      (J.defmask = 0 → (∃ m T, (m, T) ∈ G.splits ∧ m ≠ n ∧ .join j ∈ T.stack) →
        mget H.splits n = none ∧ H.laneact = G.laneact ∧ ∃ J', mget H.joins j = some J' ∧ J'.arrived = J.arrived) ∧
      (J.defmask = 0 → (∀ m T, (m, T) ∈ G.splits → m ≠ n → .join j ∉ T.stack) → J.arrived ≠ 0 → (∀ i, rest.head? ≠ some (.join i)) →
        ∃ S', mget H.splits n = some S' ∧ S'.mask = J.arrived ∧ S'.pc = J.rc ∧ S'.stack = rest ∧ mget H.joins j = none ∧
          H.laneact = G.laneact &&& ~~~G.exitMarks) ∧
      (J.defmask = 0 → (∀ m T, (m, T) ∈ G.splits → m ≠ n → .join j ∉ T.stack) →
        ∃ K S', mget K.splits n = some S' ∧ S'.stack = rest ∧ mget K.joins j = none ∧ (∀ i, i ≠ j → mget K.joins i = mget G.joins i) ∧
          (∀ m, m ≠ n → mget K.splits m = mget G.splits m) ∧ K.laneact = G.laneact &&& ~~~G.exitMarks ∧ K.exitMarks = 0 ∧ K.runs = G.runs ∧
          (J.arrived ≠ 0 → H = arrive f K n ∧ S'.mask = J.arrived ∧ S'.pc = J.rc) ∧
          (J.arrived = 0 → H = endLanes f K n))

/-- R81, R207: a split arrives at its reconvergence point, or its lanes end; units of runs that are over go home. -/
def Obligations.SplitsReconverge : Prop := Sys2Proof.Claims.DrainUnitsOfRuns ∧ Sys2Proof.Claims.SplitArrives ∧ Sys2Proof.Claims.SplitEnds

/-- R85: lend ends the lanes of its split; lexit marks the lanes it selects and takes them out of its split, which goes on if lanes are left
and ends otherwise. -/
def Sys2Proof.Claims.LanesEnd : Prop :=
  ∀ s g G n S gd, LaneTurn s g G n S →
    let out := Active G S gd
    let H : Group := { G with exitMarks := G.exitMarks ||| out, splits := mput G.splits n { S with mask := S.mask &&& ~~~out } }
    LaneBecomes .lend s g (endLanes loopFuel G n) ∧
    (S.mask &&& ~~~out ≠ 0 → LaneBecomes (.lexit gd) s g (H.goto n (S.pc + 1))) ∧
    (S.mask &&& ~~~out = 0 → LaneBecomes (.lexit gd) s g (endLanes loopFuel H n))

/-- R83 to R86: jumps, calls, returns, early reconvergence and waits of a split, and the ends of lanes. -/
def Obligations.LaneJumpsAndEnds : Prop := Sys2Proof.Claims.LaneJumps ∧ Sys2Proof.Claims.LanesEnd


namespace Sys2Proof.Claims

/-! ### Traps, the return, breakpoints and debug stops (R331 to R342) -/

/-- What the trap of group `g`, before it `G`, of launch `L`, leaves in `t` (R331 to R333): the trap registers hold the coordinates, the scalar
stream stands at the trap entry with its call stack as it was, the stopped boundary is kept with the wait of a scalar instruction that the trap is not of
(which no rule says; log 76), no access is held any more, the lane stream is frozen, an open section is closed, registers, predicates, handles and memory are as before. -/
def Trapped (s t : State) (g : Nat) (G : Group) (L : Launch) (i : TrapInfo) : Prop :=
  ∃ G', mget t.groups g = some G' ∧
    G'.trap.cause = i.cause ∧ G'.trap.code = i.code ∧ G'.trap.lane = decide (i.str ≠ .scalar) ∧ G'.trap.ov = i.ov ∧ G'.trap.off = i.off ∧
    G'.trap.addr = i.addr ∧ (∀ k, i.str = .split k → G'.trap.split = k) ∧ (i.str = .scalar → G'.trap.split = 0) ∧ G'.faultmask = i.lanes ∧
    G'.ov = L.desc.trapov ∧ G'.pc = L.desc.trapent ∧ G'.calls = G.calls ∧
    (∃ w, G'.trapMode = some { calls := G.calls, ov := G.ov, off := G.pc, copy := G.copy, wait := w } ∧
      (G.st = .exiting → w = .leaving) ∧ (G.st ≠ .exiting → i.str ≠ .scalar ∨ i.bound = true → w = G.wait) ∧
      (G.st ≠ .exiting → i.str = .scalar → i.bound = false → w = .none)) ∧
    G'.wait = .none ∧ G'.holds = [] ∧ G'.sect = none ∧ (G.st = .exiting → G'.st = .running) ∧ (G.st ≠ .exiting → G'.st = G.st) ∧
    G'.runs = G.runs ∧ G'.joins = G.joins ∧ G'.laneact = G.laneact ∧
    (∀ k, mget G'.splits k = (mget G.splits k).map fun S =>
      { S with fe := ((mget G'.splits k).map (·.fe)).getD none, redo := ((mget G'.splits k).map (·.redo)).getD false }) ∧
    G'.sreg = G.sreg ∧ G'.vreg = G.vreg ∧ G'.creg = G.creg ∧ G'.preg = G.preg ∧ G'.hreg = G.hreg ∧ t.mem = s.mem

/-- No trap of this group is fatal: it is not in trap mode and no compensation (R325, R335). -/
def MayTrap (s : State) (G : Group) (L : Launch) : Prop :=
  s.launch? G = some L ∧ G.comp = none ∧ G.trapMode = none

/-- The debug command names group `g` of context `ctx` (R341); a compensation's group as block 0 and group 0 of its launch (log 50). -/
def Named (s : State) (ctx : Nat) (t : DbgTarget) (g : Nat) (G : Group) : Prop :=
  mget s.groups g = some G ∧ ∃ B L, mget s.blocks G.blk = some B ∧ mget s.launches B.launch = some L ∧ L.ctx = ctx ∧ L.id = t.launch ∧
    B.audit = none ∧ (∀ b, t.block = some b → b = B.lin) ∧ (∀ i, t.idx = some i → i = G.idx)

end Sys2Proof.Claims

/-- R331 to R333: the shared entry of every trap. That a trap which is not of the waiting scalar instruction keeps its wait is log 76. -/
def Sys2Proof.Claims.TrapEntry : Prop :=
  ∀ s g G L i, mget s.groups g = some G → MayTrap s G L → Trapped s (trap s g i) g G L i

/-- R335: a trap in trap mode is a double trap: the group is KILLED with its handles empty, its launch will complete FAULTED, and no trap
entry runs; memory stays. -/
def Sys2Proof.Claims.DoubleTrapKills : Prop :=
  ∀ s g G B L i, mget s.groups g = some G → G.trapMode ≠ none → G.comp = none → G.st ≠ .exited → G.st ≠ .killed →
    mget s.blocks G.blk = some B → mget s.launches B.launch = some L → B.comp = none → B.audit = none →
    ∃ G' L', mget (trap s g i).groups g = some G' ∧ mget (trap s g i).launches B.launch = some L' ∧
      G'.st = .killed ∧ G'.hreg = [] ∧ G'.runs = [] ∧ L'.faulted = true ∧ (trap s g i).mem = s.mem

/-- R331 to R335: the shared entry of every trap, and a trap in trap mode. That the wait of a scalar instruction is kept over a trap that is not its own is the
model's choice (log 76). -/
def Obligations.TrapEntryAndDoubleTrap : Prop := Sys2Proof.Claims.TrapEntry ∧ Sys2Proof.Claims.DoubleTrapKills

/-- R337: strap always traps with cause 0x10 and its code at its own place; ltrap does if its guard selects lanes, and names them; without
such lanes it only advances. -/
def Sys2Proof.Claims.SoftwareTraps : Prop :=
  (∀ s g G L code, Scalar s g G → MayTrap s G L →
    ∃ t, exec (.strap code) s = .next t ∧ Trapped s t g G L { cause := 0x10, code := code, str := .scalar, ov := G.ov, off := min G.pc (scalarLen s G) }) ∧
  ∀ s g G n S L gd code, LaneTurn s g G n S → MayTrap s G L →
    (Active G S gd ≠ 0 → ∃ t, exec (.ltrap gd code) s = .next t ∧
      Trapped s t g G L { cause := 0x10, code := code, str := .split n, ov := runOv G, off := min S.pc (laneLen s G), lanes := Active G S gd }) ∧
    (Active G S gd = 0 → LaneBecomes (.ltrap gd code) s g (G.goto n (S.pc + 1)))

/-- R339: sbrk asks for a debug stop where the context has them enabled, which interrupts the full/empty waits of the group (R141, R341); it traps with
breakpoint (0x11) where not, and does nothing with its guard false. -/
def Sys2Proof.Claims.Breakpoint : Prop :=
  ∀ s g G L gd C, Scalar s g G → MayTrap s G L → mget s.ctxs (s.ctxOf G) = some C →
    (Holds G gd → C.debug = true →
      exec (.sbrk gd) s = .next (interruptFe { s with groups := mput s.groups g { past G 1 with stopWanted := true } } g) ∧
      ((∀ p ∈ G.splits, p.2.fe = none) → Becomes (.sbrk gd) s g { past G 1 with stopWanted := true })) ∧
    (Holds G gd → C.debug = false → ∃ t, exec (.sbrk gd) s = .next t ∧
      Trapped s t g G L { cause := 0x11, str := .scalar, ov := G.ov, off := min G.pc (scalarLen s G) }) ∧
    (¬ Holds G gd → Becomes (.sbrk gd) s g (past G 1))

/-- R338: stret gives back the call stack of the trap and leaves trap mode. After a trap of the scalar stream it goes to the trapping
instruction, with skip past its words; after one of a split the split goes there, and the scalar stream to its stopped boundary; a scalar instruction that
had begun to wait, and is not skipped, goes on with its wait (log 76). A skip of a split's instruction completes it, and clears lanedone but for the lanes of
other splits' interrupted instructions (log 24). With
cause 0x0F it acts as sexit; outside trap mode it traps with illegal instruction. -/
def Sys2Proof.Claims.TrapReturn : Prop :=
  ∀ s g G, Scalar s g G →
    (G.trapMode = none → ∀ skip, exec (.stret skip) s = .next (trapS s g 0x01)) ∧
    ∀ m, G.trapMode = some m →
      (G.trap.cause = 0x0F → ∀ skip, exec (.stret skip) s =
        .next (settleRuns { s with groups := mput s.groups g { G.dropRuns with st := .exiting, trapMode := none, sect := none, wait := .none } })) ∧
      (G.trap.cause ≠ 0x0F → G.wait = .none →
        let back (skip : Bool) (G' : Group) : Prop := ∃ t, exec (.stret skip) s = .next t ∧ mget t.groups g = some G' ∧ t.mem = s.mem
        (G.trap.lane = false → ∀ k, Enterable s g G G.trap.ov k →
          let H : Group := { G with calls := m.calls, ov := G.trap.ov, copy := k, trapMode := none }
          back false { H with pc := G.trap.off, wait := m.wait } ∧
          ∀ c w, s.code G G.trap.ov k = some c → c.scalarWord G.trap.off = some w →
            back true { H with pc := G.trap.off + if [0x48, 0x49, 0xFF].contains (w.toNat / 2 ^ 24) then 2 else 1 }) ∧
        (G.trap.lane = true → ∀ k, Enterable s g G m.ov k →
          let H : Group := { G with calls := m.calls, ov := m.ov, copy := k, pc := m.off, trapMode := none, wait := m.wait }
          back false { H with splits := mupd G.splits G.trap.split fun S => { S with pc := G.trap.off } } ∧
          back true ((H.clearDone G.trap.split).goto G.trap.split (G.trap.off + 1))))

/-- R337 to R339: the instructions that trap by themselves, and the return from a trap. That the return gives back the wait of a scalar instruction is the
model's choice (log 76), and what becomes of lanedone is log 24. -/
def Obligations.SoftwareTrapsAndReturn : Prop := Sys2Proof.Claims.SoftwareTraps ∧ Sys2Proof.Claims.Breakpoint ∧ Sys2Proof.Claims.TrapReturn

/-- R341, R342: the debug port. A new pc ends the wait and the held access of the instruction at the old one, and a lane pc that comes to stand at its split's
join arrives there, which no rule says (the model's choices: log 72). Which commands are turned away is log 50. -/
def Obligations.DebugPort : Prop :=
  ∀ s ctx C t, mget s.ctxs ctx = some C →
    exec (.enable ctx) s = .next { s with ctxs := mput s.ctxs ctx { C with debug := true } } ∧
    exec (.disable ctx) s = .next { s with ctxs := mput s.ctxs ctx { C with debug := false } } ∧
    (∀ g G, Named s ctx t g G → G.st = .running → C.debug = true →
      ∃ u G', exec (.stop ctx t) s = .next u ∧ mget u.groups g = some G' ∧ G'.stopWanted = true ∧ G'.pc = G.pc ∧ G'.sreg = G.sreg ∧ u.mem = s.mem) ∧
    (∀ g G, mget s.groups g = some G → G.st = .running → G.stopWanted = true →
      ((∀ p ∈ s.ops, writesReg g p.2 = false) → Becomes (.groupStopped g) s g { G with st := .stopped, stopWanted := false }) ∧
      ((∃ p ∈ s.ops, writesReg g p.2 = true) → exec (.groupStopped g) s = .next s)) ∧
    (∀ g G, Named s ctx t g G → G.st = .stopped → G.divertDue = false →
      ∃ u G', exec (.resume ctx t) s = .next u ∧ mget u.groups g = some G' ∧ G'.st = .running ∧ G'.pc = G.pc ∧ G'.sreg = G.sreg ∧ u.mem = s.mem) ∧
    ∀ g G, dbgGroups s ctx t = [g] → mget s.groups g = some G → G.st = .stopped →
      let reads (r : DbgReg) (x : DbgVal) : Prop := exec (.read ctx t r) s = .next { s with ctxs := mput s.ctxs ctx { C with dbgOut := some x } }
      let writes (r : DbgReg) (x : DbgVal) (G' : Group) : Prop := LaneBecomes (.write ctx t r x) s g G'
      (∀ r, reads (.s r) (.word (G.rs r))) ∧ (∀ r : VReg, r.toNat < G.n → reads (.v r) (.lanes (G.rv r.toNat))) ∧
      (∀ r, reads (.p r) (.mask (G.rp r))) ∧ reads .scalarPc (.pc G.ov G.pc) ∧
      (∀ r x, writes (.s r) (.word x) (G.ws r x)) ∧
      (∀ (r : VReg) (x : Lanes), r.toNat < G.n → x.length = 256 → writes (.v r) (.lanes x) (G.wv r.toNat x)) ∧
      (∀ r x, writes (.c r) (.word x) (G.wc r (x.getLsbD 0))) ∧ (∀ r x, writes (.p r) (.mask x) (G.wp r x)) ∧
      (∀ n S off, mget G.splits n = some S → writes (.lanePc n) (.pc (runOv G) off)
        ({ G with holds := G.holds.filter (·.str ≠ Stream.split n), stall := G.stall.filter (·.1 ≠ n) }.goto n off)) ∧
      (∀ off, let u : State := { s with groups := mput s.groups g { G with pc := off, wait := .none, holds := G.holds.filter (·.str ≠ .scalar) } }
        exec (.write ctx t .scalarPc (.pc G.ov off)) s = .next (settleRuns (if G.wait = .none then u else unwait u g))) ∧
      (∀ x, writes .faultmask (.mask x) { G with faultmask := x } ∧ writes .lanedone (.mask x) { G with lanedone := x } ∧
        writes .memmask (.mask x) { G with memmask := x }) ∧
      ∀ h k x, exec (.write ctx t (.handle h) x) s = .next s ∧ exec (.write ctx t (.counter k) x) s = .next s

namespace Sys2Proof.Claims

/-! ### Memory accesses (R109 to R113, R134 to R145) -/

/-- Every counter is at most 63, as R38 keeps it. -/
abbrev CountersOk (G : Group) : Prop := G.cld ≤ 63 ∧ G.cst ≤ 63 ∧ G.ccp ≤ 63 ∧ G.ctl ≤ 63

/-- A global access of `size` bytes at `ea` by group `G` passes every check and goes to physical address `pa` (R110, R138). -/
abbrev Reaches (s : State) (G : Group) (ea : Word) (size : Nat) (need : Need) (pa : Nat) : Prop :=
  ea.toNat % size = 0 ∧ ea.toNat < 2 ^ 48 ∧ translate s (s.ctxOf G) G.core none ea.toNat need = .ok pa ∧
    lockHit s (s.ctxOf G) G.core pa size need.w = false

/-- A write touches some of the `n` bytes at `loc`. -/
abbrev Touches (loc n : Nat) (e : MemWrite) : Prop := e.loc < loc + n ∧ loc < e.loc + e.was.length

/-- What a read of `n` bytes at `loc` may give where `knows` are the writes that come before it and `after` those that it comes before (R231, R238, R239): the
bytes as they stood before some number of the newest writes, among which stands every write of `after` that touches them and none of `knows`; where the two
leave no such number, none of `after` is read. -/
def MayRead (s : State) (knows after : MemWrite → Bool) (loc n x : Nat) : Prop :=
  ∃ j, x = (List.range n).foldr (fun i y => (byteBack s.hist j (loc + i) (s.byte (loc + i))).toNat + 256 * y) 0 ∧
    (∀ e ∈ s.hist.drop j, Touches loc n e → after e = false) ∧
    ((∀ e ∈ s.hist.take j, Touches loc n e → knows e = false) ∨
      ∃ l e h, s.hist = l ++ e :: h ∧ Touches loc n e ∧ knows e = true ∧ ∃ f ∈ e :: h, Touches loc n f ∧ after f = true)

/-- Operation `o` with its accesses `m` can reach memory at `loc` now: its core's caches and the directories give it the line (R257), and the host does not
hold what it would write (R264). -/
abbrev Reached (s : State) (o : Op) (m : MemOp) (loc : Nat) : Prop := reachLine s (opVia o m) (opWrites o m) loc ≠ none

/-- A scalar memory instruction of `words` words issues the operation `m`: it is in flight under the next key, the counters it counts in
have risen, the pc is past it, and memory and the registers are as before. -/
def ScalarIssues (i : Instr) (s : State) (g : Nat) (G : Group) (words : Nat) (m : MemOp) (ld st : Bool) : Prop :=
  ∃ t G' o, exec i s = .next t ∧ mget t.groups g = some G' ∧ mget t.ops s.nextId = some o ∧
    o.grp = some g ∧ o.body = .mem m ∧ o.ldc = ld ∧ o.stc = st ∧ t.mem = s.mem ∧
    G' = { G with pc := G.pc + words, cld := G.cld + ld.toNat, cst := G.cst + st.toNat, ord := G'.ord }

/-- Nothing that an operation follows is in flight, no fence before it has a write to wait for, and none its release (R111, R113, R234). -/
def FollowsNothing (s : State) (o : Op) : Prop := live s o.deps = [] ∧ unperf s o.perf = [] ∧ unperf s o.rel = []

/-- The group's split `n`, which was `S`, has advanced past its instruction, and arrived where a join of its stack waits (R81). -/
def Advances (G G' : Group) (n : Nat) (S : Split) : Prop :=
  ∃ T, T.pc = S.pc ∧ T.mask = S.mask ∧ T.stack = S.stack ∧
    let H := { G with splits := mput G.splits n T }.goto n (S.pc + 1)
    G'.splits = H.splits ∧ G'.joins = H.joins ∧ G'.laneact = H.laneact

/-- An ordered access that must wait for earlier stores and atomics has none to wait for (R111, R113). -/
abbrev ReleaseReady (s : State) (scope : Scope) (order : Order) (earlier : List Nat) : Prop :=
  ordRel order = true → scopeWide scope = true → unacked s earlier = []

/-- A lane memory instruction issues one operation for its active lanes `act`: lane `i` accesses `loc i`, with the operands `x i`
and `y i`; the counters have risen, the split has advanced, and memory and the group's registers are as before. -/
def LaneIssues (i : Instr) (s : State) (g : Nat) (G : Group) (n : Nat) (kind : MKind) (ty : Ty) (dst : Dst) (act : Mask)
    (loc : Nat → Nat) (x y : Nat → Word) (ld st : Bool) : Prop :=
  ∃ t G' o m, exec i s = .next t ∧ mget t.groups g = some G' ∧ mget t.ops s.nextId = some o ∧ t.mem = s.mem ∧
    o.grp = some g ∧ o.str = .split n ∧ o.body = .mem m ∧ o.ldc = ld ∧ o.stc = st ∧
    m.kind = kind ∧ m.ty = ty ∧ m.dst = dst ∧ (m.lo ≠ 0 → m.lo = act) ∧ (m.todo ≠ 0 → m.todo = act) ∧
    (∀ a ∈ m.acc, act.getLsbD a.lane = true ∧ a.loc = loc a.lane ∧ a.x = x a.lane ∧ a.y = y a.lane) ∧
    (∀ k < 256, act.getLsbD k = true → ∃ a ∈ m.acc, a.lane = k) ∧
    (∀ S, mget G.splits n = some S → Advances G G' n S) ∧
    G'.cld = G.cld + ld.toNat ∧ G'.cst = G.cst + st.toNat ∧ G'.sreg = G.sreg ∧ G'.vreg = G.vreg ∧ G'.creg = G.creg ∧ G'.preg = G.preg ∧ G'.hreg = G.hreg

/-- The registers that a lane instruction names are below the group's allocation N (R34, R55). -/
abbrev Below (G : Group) (rs : List Nat) : Prop := ∀ r ∈ rs, r < G.n

end Sys2Proof.Claims

/-- R109: the scalar loads and stores. An access that passes its checks issues: a load's operation will write s_d, a store's carries s_d as it
is now; its bytes stand at the place EA translates to. -/
def Sys2Proof.Claims.ScalarLoadsAndStores : Prop :=
  ∀ s g G d a (imm : BitVec 10) pa, Scalar s g G → CountersOk G →
    let ea : Word := BitVec.ofInt 64 ((G.rs a).toInt + imm.toInt)
    let loads (i : Instr) (ty : Ty) (size : Nat) : Prop := G.cld < 63 → Reaches s G ea size { r := true, w := false } pa →
      ScalarIssues i s g G 1 { kind := .load, ty := ty, dst := .s d.toNat, acc := [{ lane := 0, loc := pa, ea := ea }], todo := 0, lo := 1, hi := 0 } true false
    let stores (i : Instr) (ty : Ty) (size : Nat) : Prop := G.cst < 63 → Reaches s G ea size { r := false, w := true } pa →
      ScalarIssues i s g G 1 { kind := .store, ty := ty, dst := .none, acc := [{ lane := 0, loc := pa, ea := ea, x := G.rs d }], todo := 1, lo := 0, hi := 0 } false true
    loads (.sldb d a imm) .n8 1 ∧ loads (.sldh d a imm) .n16 2 ∧ loads (.sldw d a imm) .n32 4 ∧ loads (.sldd d a imm) .n64 8 ∧
    stores (.sstb d a imm) .n8 1 ∧ stores (.ssth d a imm) .n16 2 ∧ stores (.sstw d a imm) .n32 4 ∧ stores (.sstd d a imm) .n64 8

/-- R110: the checks of a scalar access, in order: misaligned (0x04), protection for an address of 2^48 or more (0x06), translation,
range conflict (0x07). The trap holds EA, and the access does not issue. -/
def Sys2Proof.Claims.ScalarAccessTraps : Prop :=
  ∀ s g G d a (imm : BitVec 10), Scalar s g G →
    let ea := G.rs a + imm.signExtend 64
    let checks (i : Instr) (size : Nat) (need : Need) : Prop :=
      (ea.toNat % size ≠ 0 → exec i s = .next (trapS s g 0x04 ea)) ∧
      (ea.toNat % size = 0 → 2 ^ 48 ≤ ea.toNat → exec i s = .next (trapS s g 0x06 ea)) ∧
      (ea.toNat % size = 0 → ea.toNat < 2 ^ 48 → translate s (s.ctxOf G) G.core none ea.toNat need = .prot → exec i s = .next (trapS s g 0x06 ea)) ∧
      (∀ pa, ea.toNat % size = 0 → ea.toNat < 2 ^ 48 → translate s (s.ctxOf G) G.core none ea.toNat need = .ok pa →
        lockHit s (s.ctxOf G) G.core pa size need.w = true → exec i s = .next (trapS s g 0x07 ea))
    checks (.sldb d a imm) 1 { r := true, w := false } ∧ checks (.sldh d a imm) 2 { r := true, w := false } ∧
    checks (.sldw d a imm) 4 { r := true, w := false } ∧ checks (.sldd d a imm) 8 { r := true, w := false } ∧
    checks (.sstb d a imm) 1 { r := false, w := true } ∧ checks (.ssth d a imm) 2 { r := false, w := true } ∧
    checks (.sstw d a imm) 4 { r := false, w := true } ∧ checks (.sstd d a imm) 8 { r := false, w := true }

/-- R109, R110: the scalar loads and stores: an access that passes its checks issues, one that fails a check traps. -/
def Obligations.ScalarLoadsStoresAndTraps : Prop := Sys2Proof.Claims.ScalarLoadsAndStores ∧ Sys2Proof.Claims.ScalarAccessTraps

/-- R111, R113: satom and scas issue a 64-bit atomic of two words, counted in st and, with d not 0, in ld; a release at package or system scope
waits for earlier stores and atomics; with the guard false only the pc moves. sfence moves on once what it waits for is acknowledged; then later writes
carry the release of a release fence and wait until the writes before it are performed, every later access follows what is before a sequential one, and every
later access the reads before an acquire fence, those of covered runs among them, of which the fence makes acquires at its scope (R113, R235, R236, R240). -/
def Obligations.ScalarAtomicsAndFences : Prop :=
  ∀ s g G d a b e gd scope order kind pa, Scalar s g G → CountersOk G →
    (¬ Holds G gd → Becomes (.satom d a b gd scope order) s g (past G 2) ∧ Becomes (.scas d a b gd scope order e) s g (past G 2)) ∧
    (Holds G gd → G.cst < 63 → (d ≠ 0 → G.cld < 63) → Reaches s G (G.rs a) 8 { r := true, w := true } pa →
      let m (k : MKind) (x y : Word) : MemOp :=
        { kind := k, ty := .n64, dst := if d = 0 then .none else .s d.toNat, acc := [{ lane := 0, loc := pa, ea := G.rs a, x := x, y := y }], todo := 1,
          lo := if d = 0 then 0 else 1, hi := 0 }
      (ReleaseReady s scope order (scalarEarlier s G) →
        ScalarIssues (.satom d a b gd scope order) s g G 2 (m (.atom .add) (G.rs b) 0) (d != 0) true ∧
        ScalarIssues (.scas d a b gd scope order e) s g G 2 (m .cas (G.rs e) (G.rs b)) (d != 0) true) ∧
      (¬ ReleaseReady s scope order (scalarEarlier s G) →
        exec (.satom d a b gd scope order) s = .next s ∧ exec (.scas d a b gd scope order e) s = .next s)) ∧
    (kind = .acq ∨ scopeWide scope = false ∨ unacked s (scalarEarlier s G) = [] →
      ∃ f q, exec (.sfence scope kind) s = .next { s with groups := mput s.groups g (past { G with ord := f } 1), seqs := s.seqs ++ q } ∧
        (kind ≠ .seq → q = []) ∧ (kind = .seq → ∃ x, q = [x] ∧ x.who = G.agent g ∧ x.scope = scope) ∧
        (kind ≠ .acq → (∃ e, (scope, e) ∈ f.fences ∧ ∀ k ∈ scalarEarlier s G, k ∈ e.keys) ∧ ∀ k ∈ unperf s (scalarEarlier s G), k ∈ fencePerf s f) ∧
        (kind = .seq → ∀ k ∈ scalarEarlier s G, ∀ locs n, k ∈ accDeps s f locs n) ∧
        (kind ≠ .rel → ∀ k ∈ readsOf s (sunion G.ord.own G.ord.cov), { op := k, scope := scope, who := G.agent g } ∈ f.before.acq ∧
          ((mget s.ops k).isSome = true → ∀ locs n, k ∈ accDeps s f locs n))) ∧
    (kind ≠ .acq → scopeWide scope = true → unacked s (scalarEarlier s G) ≠ [] → exec (.sfence scope kind) s = .next s)

/-- R109, R111, R37: how an operation of the scalar stream in flight ends. A load brings its bytes, zero-extended, to s_d and leaves ld; a store
writes its bytes, low byte first, and leaves st; an atomic does both, indivisibly. Nothing it follows may be in flight, and it waits until its line can
be reached. A load brings what its order allows (R231, R238), and a store carries the releases that it makes (R235) and the dies whose copies it has
invalidated (R257).
That an operation ends at one moment after those it follows is log 27. -/
def Sys2Proof.Claims.ScalarAccessEnds : Prop :=
  ∀ s g G k o ty loc ea x y, mget s.groups g = some G → mget s.ops k = some o → o.grp = some g → o.unit = none → o.aud = none → FollowsNothing s o →
    s.runUnits = [] → s.poison = [] →
    let n := ty.size
    let m (kd : MKind) (d : Option SReg) (todo lo : Mask) : MemOp :=
      { kind := kd, ty := ty, dst := match d with
          | some d => .s d.toNat
          | none => .none
        acc := [{ lane := 0, loc := loc, ea := ea, x := x, y := y }], todo := todo, lo := lo, hi := 0 }
    (∀ d, o.body = .mem (m .load (some d) 0 1) → o.ldc = true → o.stc = false →
      (Reached s o (m .load (some d) 0 1) loc → ∃ t v, exec (.loadComplete k 1 0) s = .next t ∧ t.mem = s.mem ∧ mget t.ops k = none ∧
          MayRead s (o.knows s) (fun e => e.stamp.view.ops.contains k) loc n v ∧
        mget t.groups g = some { G.ws d (BitVec.ofNat 64 v) with cld := G.cld - 1 }) ∧
      (¬ Reached s o (m .load (some d) 0 1) loc → exec (.loadComplete k 1 0) s = .next s)) ∧
    (o.body = .mem (m .store none 1 0) → ¬ Reached s o (m .store none 1 0) loc → exec (.storeAck k 1) s = .next s) ∧
    (o.body = .mem (m .store none 1 0) → o.ldc = false → o.stc = true → Reached s o (m .store none 1 0) loc →
      ∃ t, exec (.storeAck k 1) s = .next t ∧ t.mem = writeLE s.mem loc n x.toNat ∧ mget t.ops k = none ∧
        t.hist.head? = some { n := s.wcount, loc := loc, was := bytesAt s.mem loc n, stamp := o.stamp s k,
                              inv := if isScr loc then [] else (List.range 8).filter fun d => (s.coh.girth.at_ d (loc / 64)).st != .i } ∧
        (t.hist.tail.map fun e => { e with inv := [] }) = (s.hist.map fun e => { e with inv := [] }) ∧
        mget t.groups g = some { G with cst := G.cst - 1 }) ∧
    (∀ kd, (kd = .atom .add ∧ ty = .n64) ∨ kd = .cas → o.body = .mem (m kd none 1 0) → o.ldc = false → o.stc = true → Reached s o (m kd none 1 0) loc →
      let old := s.read loc n
      ∃ t, exec (.storeAck k 1) s = .next t ∧ mget t.ops k = none ∧ mget t.groups g = some { G with cst := G.cst - 1 } ∧
        t.mem = if kd = .cas then (if old = y.toNat % 2 ^ ty.bits then writeLE s.mem loc n x.toNat else s.mem)
          else writeLE s.mem loc n ((old + x.toNat) % 2 ^ 64)) ∧
    ∀ kd d, (kd = .atom .add ∧ ty = .n64) ∨ kd = .cas → o.body = .mem (m kd (some d) 1 1) → o.stc = true → o.ldc = true → Reached s o (m kd (some d) 1 1) loc →
      let old := s.read loc n
      ∃ t u, exec (.storeAck k 1) s = .next t ∧ mget t.groups g = some { G with cst := G.cst - 1 } ∧
        exec (.loadComplete k 1 0) t = .next u ∧ mget u.ops k = none ∧ u.mem = t.mem ∧
        mget u.groups g = some { G.ws d (BitVec.ofNat 64 old) with cld := G.cld - 1, cst := G.cst - 1 }

/-- The frame of a store: when STORE_ACK answers a next state, every byte outside the bytes of the operation's accesses reads as before
(R230). -/
def Sys2Proof.Claims.StoresChangeOnlyTheirBytes : Prop :=
  ∀ s t k part o m, mget s.ops k = some o → o.body = .mem m → exec (.storeAck k part) s = .next t →
    ∀ a, (∀ x ∈ m.acc, a < x.loc ∨ x.loc + m.ty.size ≤ a) → memRead t.mem a = memRead s.mem a

/-- R232: which agents a scope instance of a group holds: itself; the groups of its block; those on the four cores of its cluster; those of its die;
every group, copy engine and tile engine and the ostler; and at system scope the host and the peers as well. -/
def Sys2Proof.Claims.ScopeInstances : Prop :=
  ∀ g b c h b' c', let A : Agent := .group g b c
    (reaches .group A (.group h b' c') = true ↔ g = h) ∧ (reaches .block A (.group h b' c') = true ↔ b = b') ∧
    (reaches .cluster A (.group h b' c') = true ↔ c / 4 = c' / 4) ∧ (reaches .die A (.group h b' c') = true ↔ c / 16 = c' / 16) ∧
    (∀ x, reaches .package A x = true ↔ x ≠ .host ∧ ∀ p, x ≠ .peer p) ∧ (∀ x, reaches .system A x = true) ∧
    ∀ x, (∀ h b c, x ≠ .group h b c) → reaches .group A x = false ∧ reaches .block A x = false ∧ reaches .cluster A x = false ∧ reaches .die A x = false

/-- R231, R235, R237, R238: which writes a read may not look past. Those of its own stream, those that an earlier read of the stream returned, those that
come before it, and what a release orders, once an acquire of the stream has read the release's write and each scope instance reaches the other agent; where
splits merge, the merged split's accesses go on after all of theirs. A read past no other write returns the bytes as they stand; a release holds what its
stream did and what came before that. That a read may also not look past an acknowledged write that invalidated its die's copy is log 81. -/
def Sys2Proof.Claims.ReadsFollowTheOrder : Prop :=
  (∀ s (o : Ord) (e : MemWrite),
    let inView (v : View) : Prop := e.stamp.op ∈ v.ops ∨ e.n ∈ v.pos ∨ e.n < v.upto
    (∀ k, k ∈ o.own ∨ k ∈ o.prior → e.stamp.op = k ∨ e.n ∈ s.saw k → o.knows s e = true) ∧
    (∀ k ∈ o.before.ops, e.stamp.op = k ∨ inView (s.pastView k) → o.knows s e = true) ∧
    (inView o.before.view ∨ inView o.mine → o.knows s e = true) ∧
    (∀ a ∈ o.before.acq, ∀ w : MemWrite, w.n ∈ s.saw a.op → s.writeNo w.n = some w → ∀ r ∈ w.stamp.rels, reaches r.scope r.who a.who = true →
      reaches a.scope a.who r.who = true → e.n = w.n ∨ inView r.view → o.knows s e = true) ∧
    (∀ ran b k, k ∈ o.prior ∨ k ∈ ran → k ∈ (o.merged ran b).own ∨ k ∈ (o.merged ran b).prior) ∧
    ∀ p : Op, (p.ord.knows s e = true → p.knows s e = true) ∧ (e.n < p.since → p.core / 16 ∈ e.inv → p.knows s e = true)) ∧
  (∀ s k (p : Op), p.acq = true → ∀ w : MemWrite, w.n ∈ s.saw k → s.writeNo w.n = some w → ∀ r ∈ w.stamp.rels, reaches r.scope r.who p.agent = true →
    reaches p.scope p.agent r.who = true → w.n ∈ (pastOf s k p).view.pos ∧ (∀ x ∈ r.view.ops, x ∈ (pastOf s k p).view.ops) ∧
      (∀ x ∈ r.view.pos, x ∈ (pastOf s k p).view.pos) ∧ r.view.upto ≤ (pastOf s k p).view.upto) ∧
  (∀ s (p : Op),
    (p.relse = true → ∃ r ∈ p.releases s, r.who = p.agent ∧ r.scope = p.scope ∧ ∀ k, k ∈ p.ord.own ∨ k ∈ p.ord.before.ops → k ∈ r.view.ops) ∧
    ∀ f ∈ p.ord.fences, ∃ r ∈ p.releases s, r.who = p.agent ∧ r.scope = f.1 ∧ ∀ k ∈ f.2.ops, k ∈ r.view.ops) ∧
  ∀ s knows after loc n x, (∀ e ∈ s.hist, Touches loc n e → knows e = true ∧ after e = false) → MayRead s knows after loc n x → x = s.read loc n

/-- R37, R109 to R111, R231, R232, R235, R237, R238, R257: what an issued access does to memory, to registers and to the counters, and to nothing else, and
which writes a read may not look past. -/
def Obligations.AccessesLand : Prop :=
  Sys2Proof.Claims.ScalarAccessEnds ∧ Sys2Proof.Claims.StoresChangeOnlyTheirBytes ∧ Sys2Proof.Claims.ScopeInstances ∧ Sys2Proof.Claims.ReadsFollowTheOrder

/-- R135, R137, R138, R142, R144: lane loads, stores and atomics, local and remote. If every active lane passes its checks, one operation issues
in which each lane accesses the place of its own address, and the split advances; with no active lane it only advances.
The order of the checks is log 25, and what an operation must follow is kept as log 27 says. -/
def Obligations.LaneAccesses : Prop :=
  ∀ s g G n S (w : MemL) (v : AtomL) (loc : Nat → Nat), LaneTurn s g G n S → CountersOk G → G.cld < 63 → G.cst < 63 →
    (let act := Active G S w.g
     let val (i : Nat) : Word := BitVec.ofNat 64 (G.el w.ty w.d.toNat i)
     let z (_ : Nat) : Word := 0
     let ea (glob : Bool) (i : Nat) : Word := laneEA G glob w.ty.size w.mode w.off i
     (Below G (tyRegs w.ty w.d ++ modeRegs true w.mode) →
       (act ≠ 0 → (∀ i < 256, act.getLsbD i = true → Reaches s G (ea true i) w.ty.size { r := true, w := false } (loc i)) →
         LaneIssues (.vld w) s g G n .load w.ty (.v w.d.toNat) act loc z z true false) ∧
       (act ≠ 0 → (∀ i < 256, act.getLsbD i = true → Reaches s G (ea true i) w.ty.size { r := false, w := true } (loc i)) →
         LaneIssues (.vst w) s g G n .store w.ty .none act loc val z false true) ∧
       (act = 0 → LaneBecomes (.vld w) s g (G.goto n (S.pc + 1)) ∧ LaneBecomes (.vst w) s g (G.goto n (S.pc + 1)))) ∧
     (Below G (modeRegs true w.mode) → ∃ t G', exec (.vprf w) s = .next t ∧ mget t.groups g = some G' ∧ t.mem = s.mem ∧
       Advances G G' n S ∧ G'.sreg = G.sreg ∧ G'.vreg = G.vreg ∧ G'.cld = G.cld) ∧
     (Below G (tyRegs w.ty w.d ++ modeRegs false w.mode) →
       (act = 0 → ∀ i ∈ [Instr.vlds w, .vsts w, .vldx w, .vstx w], LaneBecomes i s g (G.goto n (S.pc + 1))) ∧
       let own (wr : Bool) (i : Nat) : Prop := (ea false i).toNat % w.ty.size = 0 ∧ inArea s G.blk (ea false i).toNat w.ty.size = true ∧
         lockHit s (s.ctxOf G) G.core (loc i) w.ty.size wr = false ∧ loc i = scrLoc G.core (ea false i).toNat
       let far (wr : Bool) (i : Nat) : Prop :=
         let core := G.core / 4 * 4 + (ea false i).toNat / 2 ^ 21 % 4
         let off := (ea false i).toNat % 2 ^ 21
         (ea false i).toNat % w.ty.size = 0 ∧ (ea false i).toNat < 2 ^ 23 ∧ inClusterArea s (s.ctxOf G) none core off w.ty.size = true ∧
         lockHit s (s.ctxOf G) G.core (loc i) w.ty.size wr = false ∧ loc i = scrLoc core off
       (act ≠ 0 → (∀ i < 256, act.getLsbD i = true → own false i) → LaneIssues (.vlds w) s g G n .load w.ty (.v w.d.toNat) act loc z z true false) ∧
       (act ≠ 0 → (∀ i < 256, act.getLsbD i = true → own true i) → LaneIssues (.vsts w) s g G n .store w.ty .none act loc val z false true) ∧
       (act ≠ 0 → (∀ i < 256, act.getLsbD i = true → far false i) → LaneIssues (.vldx w) s g G n .load w.ty (.v w.d.toNat) act loc z z true false) ∧
       (act ≠ 0 → (∀ i < 256, act.getLsbD i = true → far true i) → LaneIssues (.vstx w) s g G n .store w.ty .none act loc val z false true))) ∧
    (let act := Active G S v.g &&& ~~~G.lanedone
     (Below G (tyRegs v.ty v.d ++ modeRegs true v.mode ++ opndRegs v.ty v.c) → ReleaseReady s v.scope v.order (splitEarlier s S) → act = 0 →
       ∀ i ∈ [Instr.vatom v, .vatoms v, .vcas v], LaneBecomes i s g ((G.clearDone n).goto n (S.pc + 1))) ∧
     let ea (i : Nat) : Word := laneEA G true v.ty.size v.mode 0 i
     let x (i : Nat) : Word := BitVec.ofNat 64 (G.opnd v.ty v.c i)
     let y (i : Nat) : Word := BitVec.ofNat 64 (G.el v.ty v.d.toNat i)
     Below G (tyRegs v.ty v.d ++ modeRegs true v.mode ++ opndRegs v.ty v.c) → ReleaseReady s v.scope v.order (splitEarlier s S) → act ≠ 0 →
       (∀ i < 256, act.getLsbD i = true → Reaches s G (ea i) v.ty.size { r := true, w := true } (loc i)) →
       LaneIssues (.vatom v) s g G n (.atom v.kind) v.ty (.v v.d.toNat) act loc x y true true ∧
       LaneIssues (.vatoms v) s g G n (.atom v.kind) v.ty .none act loc x y false true ∧
       LaneIssues (.vcas v) s g G n .cas v.ty (.v v.d.toNat) act loc x y true true)

/-- R140, R141: a full/empty instruction issues one operation, and its split stays at it while lanes wait for their words; a lane whose word is
full (for vstsf: empty) finishes, and vldsf empties, vstsf fills its word; once no lane waits the split advances, and lanedone is clear but for
what another split's interrupted instruction has recorded there.
That the counter rises at issue is log 23, and what becomes of lanedone is log 24. -/
def Obligations.FullEmptyWords : Prop :=
  (∀ s g G n S (w : MemL), LaneTurn s g G n S → CountersOk G → G.cld < 63 → G.cst < 63 → S.fe = none →
    Below G (tyRegs w.ty w.d ++ modeRegs false w.mode) →
    let act := Active G S w.g &&& ~~~G.lanedone
    let ea (i : Nat) : Word := laneEA G false 4 w.mode w.off i
    let issues (i : Instr) (kd : MKind) (put : Bool) : Prop :=
      (∀ j < 256, act.getLsbD j = true → (ea j).toNat % 4 = 0 ∧ inArea s G.blk (ea j).toNat 4 = true ∧
        lockHit s (s.ctxOf G) G.core (scrLoc G.core (ea j).toNat) 4 put = false) → act ≠ 0 →
      ∃ t G' S' o m, exec i s = .next t ∧ mget t.groups g = some G' ∧ mget G'.splits n = some S' ∧ S'.pc = S.pc ∧ S'.fe = some s.nextId ∧
        mget t.ops s.nextId = some o ∧ o.body = .mem m ∧ m.kind = kd ∧ m.todo = act ∧ m.more = true ∧ t.mem = s.mem ∧ t.full = s.full ∧
        (∀ a ∈ m.acc, a.loc = scrLoc G.core (ea a.lane).toNat) ∧ G'.cld = G.cld + (!put).toNat ∧ G'.cst = G.cst + put.toNat
    issues (.vldsf w) .feTake false ∧ issues (.vldsp w) .feKeep false ∧ issues (.vstsf w) .fePut true ∧
    (act = 0 → ∀ i ∈ [Instr.vldsf w, .vldsp w, .vstsf w], LaneBecomes i s g ((G.clearDone n).goto n (S.pc + 1)))) ∧
  (∀ s g G n S (w : MemL) k, LaneTurn s g G n S → Below G (tyRegs w.ty w.d ++ modeRegs false w.mode) → S.fe = some k →
    let stays (i : Instr) : Prop := ((∃ m, opMem s k = some m ∧ m.more = true) → exec i s = .next s) ∧
      ((∀ m, opMem s k = some m → m.more = false) → ∃ t G', exec i s = .next t ∧ mget t.groups g = some G' ∧ t.mem = s.mem ∧
        ((∀ p ∈ G.splits, p.1 ≠ n → p.2.redo = false) → G'.lanedone = 0) ∧
        (∀ p ∈ G.splits, p.1 ≠ n → p.2.redo = true → G'.lanedone &&& p.2.mask = G.lanedone &&& p.2.mask) ∧ (Passes G S (S.pc + 1) → ∃ S', mget G'.splits n = some S' ∧ S'.pc = S.pc + 1 ∧ S'.fe = none))
    stays (.vldsf w) ∧ stays (.vldsp w) ∧ stays (.vstsf w)) ∧
  ∀ s g G n S k o m (lane : BitVec 8) a, mget s.groups g = some G → mget G.splits n = some S → S.fe = some k → mget s.ops k = some o → o.body = .mem m →
    FollowsNothing s o → s.poison = [] → m.acc.filter (fun b => b.lane = lane.toNat) = [a] → m.todo.getLsbD lane.toNat = true → m.more = true →
    (m.kind = .feTake → a.loc / 4 ∈ s.full → ∃ t, exec (.fullEmptyWaitDone g n lane) s = .next t ∧ t.mem = s.mem ∧ a.loc / 4 ∉ t.full) ∧
    (m.kind = .feKeep → a.loc / 4 ∈ s.full → ∃ t, exec (.fullEmptyWaitDone g n lane) s = .next t ∧ t.mem = s.mem ∧ t.full = s.full) ∧
    (m.kind = .fePut → a.loc / 4 ∉ s.full → ∃ t, exec (.fullEmptyWaitDone g n lane) s = .next t ∧ t.mem = writeLE s.mem a.loc 4 a.x.toNat ∧ a.loc / 4 ∈ t.full) ∧
    (m.kind ≠ .fePut → a.loc / 4 ∉ s.full → exec (.fullEmptyWaitDone g n lane) s = .next s) ∧
    (m.kind = .fePut → a.loc / 4 ∈ s.full → exec (.fullEmptyWaitDone g n lane) s = .next s)

namespace Sys2Proof.Claims

/-! ### Engines, handles and overlays (R39, R146 to R152, R180 to R187) -/

/-- The state and the group as an instruction finds them that reads a handle in state `x`: one that has waited for it has observed the end of its
operation (R242), and waits no more. -/
abbrev Awake (s : State) (g : Nat) (G : Group) (x : Handle) : State := if G.wait = .onHandle then { s with groups := mput s.groups g (G.unblock x) } else s

/-- Group `G` has no drain membership, so an issue takes no unit (R196, R207). -/
abbrev NoDrain (G : Group) : Prop := ∀ p ∈ G.memb, p.2.drain = false

/-- The engine of `G`'s core can take the operation `c`: its lock table has room, its channel is free, and its ranges meet no held one (R147). -/
def EngineFree (s : State) (G : Group) (c : CopyOp) : Prop :=
  ∀ o : Op, o.core = G.core → o.ctx = s.ctxOf G → engineBlocked s o c = false

/-- `i` starts the engine operation `c`: it is in flight under the next key, handle `h` is PENDING on it, the cp counter has risen, the pc is
past the word, and memory and registers are as before. -/
def EngineStarts (i : Instr) (s : State) (g : Nat) (G : Group) (h : HReg) (c : CopyOp) : Prop :=
  ∃ t G' o, exec i s = .next t ∧ mget t.groups g = some G' ∧ mget t.ops s.nextId = some o ∧ o.grp = some g ∧ o.body = .copy c ∧ t.mem = s.mem ∧
    G'.rh h.toNat = { st := .pending, op := some s.nextId } ∧ G'.ccp = G.ccp + 1 ∧ G'.pc = G.pc + 1 ∧ G'.sreg = G.sreg ∧ G'.vreg = G.vreg

/-- `i` starts a cpyst: as `EngineStarts`, and NVMe Reads of up to 256 blocks each stand in the submission queue of window `W`, as many as are due or as its
depth admits (R146, R362); no other byte of memory changes. -/
def ReadsSent (i : Instr) (s : State) (g : Nat) (G : Group) (h : HReg) (c : CopyOp) (W : Window) : Prop :=
  ∃ t G' o n, exec i s = .next t ∧ mget t.groups g = some G' ∧ mget t.ops s.nextId = some o ∧ o.grp = some g ∧ o.body = .copy { c with sent := n } ∧
    n ≤ (c.len + 2 ^ 20 - 1) / 2 ^ 20 ∧ (n < (c.len + 2 ^ 20 - 1) / 2 ^ 20 → W.qdepth ≤ windowBusy t o.ctx c.window + 1) ∧
    (∀ a, a < W.sq ∨ W.sq + 64 * max W.qdepth (W.tail + 1) ≤ a → memRead t.mem a = memRead s.mem a) ∧
    G'.rh h.toNat = { st := .pending, op := some s.nextId } ∧ G'.ccp = G.ccp + 1 ∧ G'.pc = G.pc + 1 ∧ G'.sreg = G.sreg ∧ G'.vreg = G.vreg

/-- The virtual address that the next byte of an engine operation comes from (R146, R148, R354); `i` is the index of a gather's row. -/
def nextSource (c : CopyOp) (i : Nat) : Nat :=
  if c.kind = .gather then (c.table + i * c.stride + c.done % c.row) % 2 ^ 64 else (c.src + c.done) % 2 ^ 64

/-- Nothing keeps an engine operation from delivering its next byte. -/
def MayDeliver (s : State) (o : Op) (c : CopyOp) : Prop :=
  live s o.deps = [] ∧ o.aud = none ∧ c.hold = none ∧ c.fail = none ∧ c.cancel = false ∧ c.done < c.len

/-- `i` ends at once with handle `h` in state `st`, and starts nothing. -/
def EndsAtOnce (i : Instr) (s : State) (g : Nat) (G : Group) (h : HReg) (st : HState) : Prop :=
  ∃ t, exec i s = .next t ∧ mget t.groups g = some (past (G.wh h.toNat { st := st }) 1) ∧ t.mem = s.mem ∧ t.ops = s.ops

end Sys2Proof.Claims

/-- R146, R147, R150: cpy, cpyg and cpyst read their descriptor registers at issue. A legal descriptor starts an engine operation with the
handle PENDING; an empty one is DONE at once; an illegal one is FAILED(1); a channel above 7 traps; while the handle is PENDING, the counter
is full or the engine is not free, the stream waits. A cpyst sends its NVMe Reads. scwp reads a channel's write pointer (R149), and what the group's operation
has written there comes before the group's own later accesses only (R243).
That the handle is waited for before the channel is looked at is log 31, and that each context has write pointers of its own is log 90. -/
def Obligations.EngineCommandsIssue : Prop :=
  ∀ s g G (h : HReg) (a b : SReg), Scalar s g G → CountersOk G → NoDrain G →
    let r (i : Nat) : Nat := (G.rs (a + BitVec.ofNat 7 i)).toNat
    let ch := (G.rs b).toNat
    let own (off n : Nat) : Prop := n = 0 ∨ inArea s G.blk off n = true
    let x := G.rh h.toNat
    let H := G.unblock x
    let u := Awake s g G x
    let cmd (i : Instr) (legal : Prop) (c : CopyOp) (starts : Prop) : Prop :=
      (x.st = .pending → Becomes i s g { G with wait := .onHandle }) ∧
      (x.st ≠ .pending → 8 ≤ ch → exec i s = .next (trapS u g 0x01)) ∧
      (x.st ≠ .pending → ch < 8 → G.ccp = 63 → exec i s = .next u) ∧
      (x.st ≠ .pending → ch < 8 → G.ccp < 63 →
        (¬ legal → EndsAtOnce i s g H h (.failed 1)) ∧
        (legal → c.len = 0 → EndsAtOnce i s g H h .done) ∧
        (legal → c.len ≠ 0 → EngineFree s G c → starts) ∧
        (legal → c.len ≠ 0 → (∀ o : Op, o.core = G.core → o.ctx = s.ctxOf G → engineBlocked s o c = true) → exec i s = .next u))
    (∀ sub : BitVec 2,
      let ds := sub = 0 ∨ sub = 2
      let ss := sub = 1 ∨ sub = 2
      let c : CopyOp :=
        { kind := .cpy, chan := ch, dst := r 0, dstScr := decide ds, src := if ss then scrLoc G.core (r 1) else r 1, srcScr := decide ss, len := r 2 }
      cmd (.cpy h a b sub) (r 2 < 2 ^ 32 ∧ (ds → own (r 0) (r 2)) ∧ (ss → own (r 1) (r 2))) c (EngineStarts (.cpy h a b sub) s g G h c)) ∧
    (∀ glob : Bool,
      let row := r 4 % 2 ^ 32
      let count := r 4 / 2 ^ 32 % 2 ^ 16
      let c : CopyOp :=
        { kind := .gather, chan := ch, dst := r 0, dstScr := !glob, src := scrLoc G.core (r 2), srcScr := true, len := row * count,
          table := r 1, stride := r 3, row := row }
      cmd (.cpyg h a b glob) (r 4 < 2 ^ 48 ∧ (glob = false → own (r 0) (row * count)) ∧ own (r 2) (4 * count)) c (EngineStarts (.cpyg h a b glob) s g G h c)) ∧
    (let c : CopyOp := { kind := .storage, chan := ch, dst := r 0, dstScr := false, src := 0, srcScr := false, len := 4096 * r 3, window := r 1, lba := r 2 }
     let window (W : Window) : Prop := r 1 < 8 ∧ ∃ C, mget s.ctxs (s.ctxOf G) = some C ∧ mget C.windows (r 1) = some W ∧ W.valid = true
     cmd (.cpyst h a b) ((∃ W, window W ∧ r 3 ≤ 65536 ∧ r 2 + r 3 ≤ W.lbas) ∧
        ∀ p ∈ pagesOf (r 0) (4096 * r 3), max (r 0) (4096 * p) < 2 ^ 48 → ∀ pa, translate s (s.ctxOf G) G.core none (max (r 0) (4096 * p)) { r := false, w := true } = .ok pa → pa / 2 ^ 50 % 4 = 0)
      c (∀ W, window W → ReadsSent (.cpyst h a b) s g G h c W)) ∧
    ∀ d (k : BitVec 3), Becomes (.scwp d k) s g
      (past ({ G with ord := { G.ord with mine := G.ord.mine.join { pos := ownWrites s g G.core k.toNat } } }.ws d
        (BitVec.ofNat 64 ((mget s.chans (2 ^ 32 * s.ctxOf G + 8 * G.core + k.toNat)).getD 0))) 1)

/-- R37, R39, R146, R148 to R151, R354, R362: an engine operation delivers its bytes in ascending order, each to its own place: a copy and a COPY packet from
the source, a gather from the row of the table that its index list names, each index read once, a cpyst what the drive holds; when all are delivered its
handle is DONE and cp falls; a cancelled one ends CANCELLED, and one whose queue pair is deleted FAILED(3); an NVMe completion counts one command and fills
one entry of the completion queue.
What a drive holds is free, and its commands are as log 30 says. -/
def Obligations.EngineOperationsRun : Prop :=
  ∀ s k o c, mget s.ops k = some o → o.body = .copy c → live s o.deps = [] → o.unit = none → s.runUnits = [] →
    let after (e : MemWrite) : Bool := e.stamp.view.ops.contains k
    let delivers (pb v : Nat) : Prop := ∃ t o' c', exec (.copyBytesDelivered k 1) s = .next t ∧ t.mem = memWrite s.mem pb (BitVec.ofNat 8 v) ∧
      mget t.ops k = some o' ∧ o'.body = .copy c' ∧ c'.done = c.done + 1 ∧ c'.len = c.len ∧
      (c.kind ≠ .packet → mget t.chans (2 ^ 32 * o.ctx + 8 * o.core + c.chan) = some (c.dst + c.done + 1))
    (∀ pa pb i, MayDeliver s o c → c.kind ≠ .storage → (c.kind = .gather → c.idx = some (c.done / c.row, i)) →
      (if c.kind = .cpy ∧ c.srcScr = true then .ok (c.src + c.done) else engineTr s o c (nextSource c i) false) = TrRes.ok pa →
      (if c.dstScr then .ok (scrLoc o.core (c.dst + c.done)) else engineTr s o c (c.dst + c.done) true) = TrRes.ok pb →
      pa / 64 ∉ s.poison → (reachLine s (engineVia o) false pa).bind (fun u => reachLine u (engineVia o) true pb) ≠ none →
      ∃ v, MayRead s (o.knows s) after pa 1 v ∧ delivers pb v) ∧
    (MayDeliver s o c → c.kind = .gather → (∀ i, c.idx ≠ some (c.done / c.row, i)) →
      let a := c.src + 4 * (c.done / c.row)
      a / 64 ∉ s.poison → (a + 3) / 64 ∉ s.poison →
      ∃ i, MayRead s (o.knows s) after a 4 i ∧ exec (.copyBytesDelivered k 1) s =
        exec (.copyBytesDelivered k 1) { s with ops := mput s.ops k { o with body := .copy { c with idx := some (c.done / c.row, i) } } }) ∧
    (∀ pb, MayDeliver s o c → c.kind = .storage → c.dstScr = false → c.done < c.sent * 2 ^ 20 → engineTr s o c (c.dst + c.done) true = TrRes.ok pb →
      pb / 2 ^ 50 % 4 = 0 → reachLine s (engineVia o) true pb ≠ none → ∃ v, delivers pb v) ∧
    (∀ g G, o.grp = some g → mget s.groups g = some G → c.kind ≠ .packet → c.sent = c.cmds → c.cmds = cmdsOf c → c.fail = none →
      (c.cancel = false → c.done = c.len →
        ∃ t G', exec (.copyComplete k) s = .next t ∧ mget t.ops k = none ∧ t.mem = s.mem ∧ mget t.groups g = some G' ∧ G'.ccp = G.ccp - 1 ∧
          ∀ h x, mget G.hreg h = some x → x.op = some k → mget G'.hreg h = some { x with st := .done }) ∧
      (c.cancel = true → c.done ≠ c.len →
        ∃ t G', exec (.copyComplete k) s = .next t ∧ mget t.ops k = none ∧ mget t.groups g = some G' ∧ G'.ccp = G.ccp - 1 ∧
          ∀ h x, mget G.hreg h = some x → x.op = some k → mget G'.hreg h = some { x with st := .cancelled }) ∧
      (c.cancel = false → c.done < c.len → exec (.copyComplete k) s = .next s)) ∧
    (c.kind = .storage → c.cmds < cmdsOf c →
      (∀ ok C W, ok = false ∨ c.done = c.len → c.cmds < c.sent → mget s.ctxs o.ctx = some C → mget C.windows c.window = some W → W.valid = true →
        ∃ t o' c', exec (.nvmeCompletion k ok) s = .next t ∧ mget t.ops k = some o' ∧ o'.body = .copy c' ∧ c'.cmds = c.cmds + 1 ∧
          (∀ a, (a < W.sq ∨ W.sq + 64 * max W.qdepth (W.tail + 1) ≤ a) → (a < W.cq + 16 * W.head ∨ W.cq + 16 * W.head + 16 ≤ a) →
            memRead t.mem a = memRead s.mem a) ∧
          (ok = false → c.fail = none → c'.fail = some 3) ∧ (ok = true → c'.fail = c.fail)) ∧
      ∀ g G h x, s.ops = [(k, o)] → o.grp = some g → mget s.groups g = some G → c.fail = none → c.cancel = false →
        mget G.hreg h = some x → x.op = some k →
        ∃ t G', exec (.queuePairDeleted o.ctx c.window) s = .next t ∧ mget t.ops k = none ∧ mget t.groups g = some G' ∧
          mget G'.hreg h = some { x with st := .failed 3 })

/-- R39, R151, R152, R210: waiting for, reading and cancelling a handle; hsend moves a finished handle into an empty scratch word of the
block, which becomes full and holds the tag, once every earlier write is performed; hrecv takes it out into an empty handle register. Who learns that a
handle has left PENDING, or waited for that, has observed the end of its operation (R242).
The serials in the tag words are free (log 4), and the order of the checks is log 32. -/
def Obligations.HandleInstructions : Prop :=
  ∀ s g G (h : HReg) (b a : SReg), Scalar s g G →
    let x := G.rh h.toNat
    let seen (H : Group) (st : HState) : Group := if st = .empty ∨ st = .pending then H else H.observe x
    (x.st ≠ .pending → Becomes (.hwait h) s g (past ((G.unblock x).observe x) 1)) ∧
    (x.st = .pending → Becomes (.hwait h) s g { G with wait := .onHandle }) ∧
    (∀ v : Nat, (x.st = .empty → v = 0) → (x.st = .pending → v = 1) → (x.st = .done → v = 2) → (∀ r, x.st = .failed r → v = 3 + 256 * r) →
      (x.st = .cancelled → v = 4) → Becomes (.htest h b) s g (past ((seen G x.st).ws b (BitVec.ofNat 64 v)) 1)) ∧
    (x.st = .empty → exec (.hcancel h) s = .next (trapS s g 0x0B)) ∧
    (x.st ≠ .empty → x.st ≠ .pending → Becomes (.hcancel h) s g (past (G.observe x) 1)) ∧
    (∀ k o c, x.st = .pending → x.op = some k → mget s.ops k = some o → o.body = .copy c →
      exec (.hcancel h) s = .next { s with ops := mput s.ops k { o with body := .copy { c with cancel := true } } }) ∧
    (x.st = .pending → x.op = none → ∃ t, exec (.hcancel h) s = .next t ∧ mget t.groups g = some (past (G.wh h.toNat { x with st := .cancelled }) 1) ∧ t.mem = s.mem) ∧
    (∀ loc lane, handleWord s G a true = .ok [(lane, loc)] → x.st = .pending → Becomes (.hsend h a) s g { G with wait := .onHandle }) ∧
    (∀ loc lane, NoDrain G → handleWord s G a true = .ok [(lane, loc)] → x.st ≠ .pending →
      (x.st = .empty → exec (.hsend h a) s = .next (trapS s g 0x0B)) ∧
      (x.st ≠ .empty → loc / 4 ∈ s.full → exec (.hsend h a) s = .next s) ∧
      (x.st ≠ .empty → unperf s (scalarEarlier s G) ≠ [] → exec (.hsend h a) s = .next s) ∧
      (x.st ≠ .empty → loc / 4 ∉ s.full → unperf s (scalarEarlier s G) = [] →
        ∃ t T G', exec (.hsend h a) s = .next t ∧ t.mem = writeLE s.mem loc 4 (0xC0000000 + T.serial.toNat) ∧ loc / 4 ∈ t.full ∧
          mget t.tags (loc / 4) = some T ∧ T.h = x ∧ T.blk = G.blk ∧ T.core = G.core ∧ T.unit = none ∧ T.op = s.nextId ∧
          mget t.groups g = some G' ∧ G' = past ({ G.unblock x with ord := G'.ord }.wh h.toNat { st := .empty }) 1)) ∧
    ∀ loc lane, NoDrain G → handleWord s G a false = .ok [(lane, loc)] →
      (x.st ≠ .empty → exec (.hrecv h a) s = .next (trapS s g 0x0B)) ∧
      (x.st = .empty → loc / 4 ∉ s.full → exec (.hrecv h a) s = .next s) ∧
      (x.st = .empty → loc / 4 ∈ s.full → mget s.tags (loc / 4) = none → exec (.hrecv h a) s = .next (trapS s g 0x0B)) ∧
      ∀ T, x.st = .empty → loc / 4 ∈ s.full → mget s.tags (loc / 4) = some T →
        (s.read loc 4 ≠ 0xC0000000 + T.serial.toNat ∨ (T.h.st = .done ∧ T.h.ov ≠ none ∧ T.core ≠ G.core) → exec (.hrecv h a) s = .next (trapS s g 0x0B)) ∧
        (s.read loc 4 = 0xC0000000 + T.serial.toNat → (T.h.st = .done → T.h.ov ≠ none → T.core = G.core) → T.unit = none →
          ∃ t G', exec (.hrecv h a) s = .next t ∧ t.mem = s.mem ∧ loc / 4 ∉ t.full ∧ mget t.tags (loc / 4) = none ∧
            mget t.groups g = some G' ∧ G' = past ({ G with ord := G'.ord }.wh h.toNat T.h) 1)

/-- R181 to R187: ovld gives up the handle's old content; it is FAILED(1) for an index that is no entry, FAILED(5) beyond the working set,
DONE with a token of a resident overlay, PENDING while the overlay loads; it counts as a use of the copy that it names (R188); ovrel gives a token up; OVERLAY_LOAD_END makes the copy resident
and its handles DONE, but the load of a library fails whose digest is not that of its words, or whose signature does not verify. Both wait for a PENDING
handle.
Eviction and charges are as log 35 says. -/
def Obligations.OverlayLoads : Prop :=
  (∀ s g G (h : HReg) a, Scalar s g G → (G.rh h.toNat).st = .pending →
    Becomes (.ovld h a) s g { G with wait := .onHandle } ∧ Becomes (.ovrel h) s g { G with wait := .onHandle }) ∧
  (∀ s g G (h : HReg) a, Scalar s g G → (G.rh h.toNat).st ≠ .pending →
    let idx := (G.rs a).toNat
    let H := G.unblock (G.rh h.toNat)
    let ends (named : List Nat) (x : Handle) : Prop := ∃ t, exec (.ovld h a) s = .next t ∧ t.mem = s.mem ∧ (∃ G', mget t.groups g = some G' ∧
      G'.rh h.toNat = x ∧ G' = { H with pc := G.pc + 1, hreg := G'.hreg }) ∧ ∀ k ∈ named, ∃ C, mget t.copies k = some C ∧ C.used = s.tick
    ((s.table G)[idx]? = none ∨ 255 < idx → ends [] { st := .failed 1, ov := some (idx, 0) }) ∧
    (∀ e, (s.table G)[idx]? = some e → idx ≤ 255 →
      let s' : State := { s with groups := mput s.groups g (G.wh h.toNat { st := .empty }) }
      let held := blockHolds s' G.blk G.core none
      let c := copyOf s G.core (s.ctxOf G) e
      let extra := match c with
        | some (k, _) => if k ∈ held then 0 else slotsOf e
        | none => slotsOf e
      (s.workset G < sumSlots s' held + extra → ends (c.map (·.1)).toList { st := .failed 5, ov := some (idx, 0) }) ∧
      (sumSlots s' held + extra ≤ s.workset G →
        (∀ k C, c = some (k, C) → C.loading = false → ends [k] { st := .done, ov := some (idx, k) }) ∧
        (∀ k C, c = some (k, C) → C.loading = true → ends [k] { st := .pending, ov := some (idx, k) }) ∧
        (c = none → ends [s.nextId] { st := .pending, ov := some (idx, s.nextId) }))) ∧
    ((G.rh h.toNat).ov ≠ none → Becomes (.ovrel h) s g (past (H.wh h.toNat { st := .empty }) 1)) ∧
    ((G.rh h.toNat).ov = none → exec (.ovrel h) s = .next (trapS (Awake s g G (G.rh h.toNat)) g 0x0B))) ∧
  ∀ s core k c, mget s.copies k = some c → c.core = core → c.loading = true → c.slots ≠ [] → c.hold = none →
    (∀ i < c.ent.s + c.ent.l, i ∈ c.got) → c.got.length = c.ent.s + c.ent.l →
    (c.ent.lib = true → (∀ d, c.id = .lib d → d ≠ Sha.sha512 c.imageBytes) → ∀ b, exec (.overlayLoadEnd core k b) s = .next (failLoad s k 2)) ∧
    (c.ent.lib = true → exec (.overlayLoadEnd core k false) s = .next (failLoad s k 2)) ∧
    (c.ent.lib = false ∨ c.id = .lib (Sha.sha512 c.imageBytes) → ∃ t c', exec (.overlayLoadEnd core k true) s = .next t ∧ t.mem = s.mem ∧ mget t.copies k = some c' ∧ c'.loading = false ∧ c'.code = c.code ∧
      ∀ g G h x, .handle g h ∈ c.waiters → mget s.groups g = some G → mget G.hreg h = some x → x.st = .pending → x.ov.map (·.2) = some k →
        ∃ G', mget t.groups g = some G' ∧ mget G'.hreg h = some { x with st := .done })

namespace Sys2Proof.Claims

/-! ### Lane arithmetic, exchange and predicates (R15 to R17, R36, R46, R47, R118 to R133, R153 to R157) -/

/-- An `n`-bit pattern as the integer of its type (R17). -/
def intOf (t : Ty) (x : Nat) : Int := if t.isSigned = true ∧ 2 ^ (t.bits - 1) ≤ x then (x : Int) - (2 ^ t.bits : Nat) else x

/-- Two's complement reading whatever the type. -/
def sgnOf (t : Ty) (x : Nat) : Int := if 2 ^ (t.bits - 1) ≤ x then (x : Int) - (2 ^ t.bits : Nat) else x

/-- Wrap(r), modulo 2^n (R17). -/
def wrapped (t : Ty) (r : Int) : Nat := (r % (2 ^ t.bits : Nat)).toNat

/-- Least and largest integer of a type (R17). -/
def least (t : Ty) : Int := if t.isSigned then -(2 ^ (t.bits - 1) : Nat) else 0
def largest (t : Ty) : Int := if t.isSigned then (2 ^ (t.bits - 1) : Nat) - 1 else (2 ^ t.bits : Nat) - 1

/-- Clamp(r) with sat, Wrap(r) without (R17). -/
def fitted (t : Ty) (sat : Bool) (r : Int) : Nat := wrapped t (if sat then max (least t) (min (largest t) r) else r)

/-- `i` writes `f j` to the destination of type `t` in each active lane `j`, its split goes on to the next word, and nothing else of the
state changes. -/
def LaneWrites (i : Instr) (s : State) (g : Nat) (G : Group) (n : Nat) (S : Split) (t : Ty) (d : Nat) (act : Mask) (f : Nat → Nat) : Prop :=
  LaneBecomes i s g ((G.putEl t d act f).goto n (S.pc + 1))

/-- `i` writes the lanes `r` of predicate `pd` in the active lanes. -/
def PredWrites (i : Instr) (s : State) (g : Nat) (G : Group) (n : Nat) (S : Split) (pd : PReg) (act r : Mask) : Prop :=
  LaneBecomes i s g ((G.wp pd ((G.rp pd &&& ~~~act) ||| (r &&& act))).goto n (S.pc + 1))

/-- The value of a finite pattern of a format, without its sign (R6). -/
def magnitude (f : Fmt) (p : Nat) : ℚ :=
  match decodeFmt f p with
  | .fin _ n d => (n : ℚ) / d
  | _ => 0

/-- A finite value as a rational number. -/
def signedValue : FVal → Option ℚ
  | .fin neg n d => some ((if neg then -1 else 1) * ((n : ℚ) / d))
  | _ => none

/-- A value that is no NaN, in the order of the numbers with the infinities. -/
def placed : FVal → WithBot (WithTop ℚ)
  | .inf true => ⊥
  | .inf false => ((⊤ : WithTop ℚ) : WithBot (WithTop ℚ))
  | .fin neg n d => (((if neg then -1 else 1) * ((n : ℚ) / d) : ℚ) : WithTop ℚ)
  | .nan => ⊥

/-- The integer that a value rounds to in a mode (R14). -/
def RoundsToInt (m : Rnd) (x : ℚ) (r : Int) : Prop :=
  match m with
  | .rn => |x - r| ≤ 1 / 2 ∧ (|x - r| = 1 / 2 → r % 2 = 0)
  | .rz => r = if x < 0 then ⌈x⌉ else ⌊x⌋
  | .ru => r = ⌈x⌉
  | .rd => r = ⌊x⌋

/-- The magnitude of a gd8 code, `(1 + 9 F / 2^m) 10^E` (R18). -/
def gd8Value (c : Nat) : ℚ := ((gd8Mag c).1 : ℚ) / (gd8Mag c).2

/-- The fraction of a gd8 code counts as even (R19). -/
def gd8Even (c : Nat) : Prop := (gd8Fields c).2.2 = 0 ∨ (gd8Fields c).2.1 % 2 = 0

/-- Position and length of a field of an `n`-bit element, from its descriptor (R122). -/
def fieldOf (n b : Nat) : Nat × Nat := (b % 64, if b % 64 < n then min (b / 256 % 128) (n - b % 64) else 0)

end Sys2Proof.Claims

/-- R15, R16, R36, R46, R47: what a lane operand reads. A vector register gives the low bits of its lane, a 64-bit type the pair; a scalar
register its low bits; an immediate its low bits, sign-extended to 64 bits for i64 and zero-extended for n64. -/
def Sys2Proof.Claims.LaneOperandsRead : Prop :=
  ∀ (G : Group) (t : Ty) (r : VReg) (a : SReg) (x : Elem) (i : Nat),
    (t.wide = false → G.opnd t (.v r) i = (lane (G.rv r.toNat) i).toNat % 2 ^ t.bits ∧ G.el t r.toNat i = (lane (G.rv r.toNat) i).toNat % 2 ^ t.bits) ∧
    (t.wide = true → G.opnd t (.v r) i = (lane (G.rv r.toNat) i).toNat + 2 ^ 32 * (lane (G.rv (r.toNat + 1)) i).toNat) ∧
    G.opnd t (.s a) i = (G.rs a).toNat % 2 ^ t.bits ∧
    (t ≠ .i64 → G.opnd t (.imm x) i = x.toNat % 2 ^ t.bits) ∧
    G.opnd .i64 (.imm x) i = (BitVec.ofInt 64 x.toInt).toNat

/-- R15, R16, R54: where a lane result goes. In an active lane the destination holds it, sign-extended for i8 and i16, zero-extended for other
narrow types, a 64-bit type in the pair; every other lane and every other register keeps its value, and so does the rest of the group. -/
def Sys2Proof.Claims.LaneResultsPlaced : Prop :=
  ∀ (G : Group) (t : Ty) (d : Nat) (m : Mask) (f : Nat → Nat) (i r : Nat),
    let H := G.putEl t d m f
    H = { G with vreg := H.vreg } ∧
    (r ≠ d → (t.wide = true → r ≠ d + 1) → lane (H.rv r) i = lane (G.rv r) i) ∧
    (m.getLsbD i = false → lane (H.rv r) i = lane (G.rv r) i) ∧
    (m.getLsbD i = true → i < (G.rv d).length →
      (t.wide = true → lane (H.rv d) i = BitVec.ofNat 32 (f i)) ∧
      (t.wide = true → i < (G.rv (d + 1)).length → lane (H.rv (d + 1)) i = BitVec.ofNat 32 (f i / 2 ^ 32)) ∧
      (t.wide = false → t.isSigned = false → lane (H.rv d) i = BitVec.ofNat 32 (f i % 2 ^ t.bits)) ∧
      (t.wide = false → t.isSigned = true → f i < 2 ^ t.bits → lane (H.rv d) i = BitVec.ofInt 32 (intOf t (f i))))

/-- R15, R16, R32, R34, R36, R46, R47, R54: reading and writing every kind of register, and the elements of lanes in them. -/
def Obligations.RegisterFiles : Prop := Sys2Proof.Claims.RegistersReadAfterWrite ∧ Sys2Proof.Claims.LaneOperandsRead ∧ Sys2Proof.Claims.LaneResultsPlaced

/-- R121, R122, R123: the lane integer instructions on every integer type, with wrapping or, where the word carries sat, clamping. -/
def Obligations.LaneIntegers : Prop :=
  ∀ s g G n S, LaneTurn s g G n S →
    (∀ w : Bin, w.ty.isInt = true → Below G (tyRegs w.ty w.d ++ tyRegs w.ty w.a ++ opndRegs w.ty w.b) →
      let A (i : Nat) : Nat := G.el w.ty w.a.toNat i
      let B (i : Nat) : Nat := G.opnd w.ty w.b i
      let a (i : Nat) : Int := intOf w.ty (A i)
      let b (i : Nat) : Int := intOf w.ty (B i)
      let gives (k : Instr) (f : Nat → Nat) : Prop := LaneWrites k s g G n S w.ty w.d.toNat (Active G S w.g) f
      gives (.vadd w) (fun i => fitted w.ty w.m.sat (a i + b i)) ∧
      gives (.vsub w) (fun i => fitted w.ty w.m.sat (a i - b i)) ∧
      gives (.vmul w) (fun i => fitted w.ty w.m.sat (a i * b i)) ∧
      (w.m.sat = false →
        gives (.vmulh w) (fun i => wrapped w.ty (a i * b i / (2 ^ w.ty.bits : Nat))) ∧
        gives (.vand w) (fun i => A i &&& B i) ∧ gives (.vor w) (fun i => A i ||| B i) ∧ gives (.vxor w) (fun i => A i ^^^ B i) ∧
        gives (.vmin w) (fun i => if a i ≤ b i then A i else B i) ∧
        gives (.vmax w) (fun i => if a i ≤ b i then B i else A i))) ∧
    (∀ w : Bin, w.ty.isInt = true → Below G (tyRegs w.ty w.d ++ tyRegs w.ty w.a ++ opndRegs .n32 w.b) →
      let A (i : Nat) : Nat := G.el w.ty w.a.toNat i
      let D (i : Nat) : Nat := G.el w.ty w.d.toNat i
      let c (i : Nat) : Nat := G.opnd .n32 w.b i
      let gives (k : Instr) (f : Nat → Nat) : Prop := LaneWrites k s g G n S w.ty w.d.toNat (Active G S w.g) f
      gives (.vshl w) (fun i => fitted w.ty w.m.sat (intOf w.ty (A i) * (2 ^ c i : Nat))) ∧
      gives (.vshr w) (fun i => A i / 2 ^ c i) ∧
      gives (.vsra w) (fun i => wrapped w.ty (sgnOf w.ty (A i) / (2 ^ c i : Nat))) ∧
      (∃ f : Nat → Nat, gives (.vbfx w) f ∧ ∀ i, f i < 2 ^ w.ty.bits ∧ ∀ j < w.ty.bits,
        let (p, l) := fieldOf w.ty.bits (c i)
        (f i).testBit j = if j < l then (A i).testBit (p + j) else (w.ty.isSigned && decide (0 < l) && (A i).testBit (p + l - 1))) ∧
      ∃ f : Nat → Nat, gives (.vbfi w) f ∧ ∀ i, f i < 2 ^ w.ty.bits ∧ ∀ j < w.ty.bits,
        let (p, l) := fieldOf w.ty.bits (c i)
        (f i).testBit j = if p ≤ j ∧ j < p + l then (A i).testBit (j - p) else (D i).testBit j) ∧
    (∀ w : Un, w.ty.isInt = true → Below G (tyRegs w.ty w.d ++ tyRegs w.ty w.a) →
      let A (i : Nat) : Nat := G.el w.ty w.a.toNat i
      let a (i : Nat) : Int := intOf w.ty (A i)
      let gives (k : Instr) (f : Nat → Nat) : Prop := LaneWrites k s g G n S w.ty w.d.toNat (Active G S w.g) f
      gives (.vabs w) (fun i => fitted w.ty w.m.sat |a i|) ∧
      gives (.vneg w) (fun i => fitted w.ty w.m.sat (0 - a i)) ∧
      gives (.vnot w) (fun i => 2 ^ w.ty.bits - 1 - A i) ∧
      gives (.vpopc w) (fun i => ((List.range w.ty.bits).filter fun j => (A i).testBit j).length) ∧
      (∃ f : Nat → Nat, gives (.vclz w) f ∧ ∀ i, f i ≤ w.ty.bits ∧ A i < 2 ^ (w.ty.bits - f i) ∧ (f i < w.ty.bits → 2 ^ (w.ty.bits - 1 - f i) ≤ A i)) ∧
      ∃ f : Nat → Nat, gives (.vbrev w) f ∧ ∀ i, f i < 2 ^ w.ty.bits ∧ ∀ j < w.ty.bits, (f i).testBit j = (A i).testBit (w.ty.bits - 1 - j)) ∧
    ∀ w : Ter, w.ty.isInt = true → Below G (tyRegs w.ty w.d ++ tyRegs w.ty w.a ++ opndRegs w.ty w.b ++ opndRegs w.ty w.c) →
      let a (i : Nat) : Int := intOf w.ty (G.el w.ty w.a.toNat i)
      let b (i : Nat) : Int := intOf w.ty (G.opnd w.ty w.b i)
      let c (i : Nat) : Int := intOf w.ty (G.opnd w.ty w.c i)
      let sum (i : Nat) : Int := intOf w.ty (fitted w.ty w.m.sat (a i + b i))
      let gives (k : Instr) (f : Nat → Nat) : Prop := LaneWrites k s g G n S w.ty w.d.toNat (Active G S w.g) f
      gives (.vmad w) (fun i => fitted w.ty w.m.sat (a i * b i + c i)) ∧
      gives (.vaddmin w) (fun i => wrapped w.ty (min (sum i) (c i))) ∧
      gives (.vaddmax w) (fun i => wrapped w.ty (max (sum i) (c i)))

/-- R124 to R127: the lane floating-point instructions on f32, f16 and bf16: the exact result of the decoded operands, rounded once into the
type in the word's mode, saturated where the word says so.
How the transcendental functions are rounded is log 20. -/
def Sys2Proof.Claims.LaneFloats : Prop :=
  ∀ s g G n S, LaneTurn s g G n S →
    (∀ (w : Bin) f, fmtOf w.ty = some f → Below G (tyRegs w.ty w.d ++ tyRegs w.ty w.a ++ opndRegs w.ty w.b) →
      let A (i : Nat) : Nat := G.el w.ty w.a.toNat i
      let B (i : Nat) : Nat := G.opnd w.ty w.b i
      let round (v : FVal) : Nat := encodeFmt f w.m.rnd w.m.sat v
      let gives (k : Instr) (r : Nat → Nat) : Prop := LaneWrites k s g G n S w.ty w.d.toNat (Active G S w.g) r
      gives (.vfadd w) (fun i => round (fAdd w.m.rnd (decodeFmt f (A i)) (decodeFmt f (B i)))) ∧
      gives (.vfsub w) (fun i => round (fAdd w.m.rnd (decodeFmt f (A i)) (fNeg (decodeFmt f (B i))))) ∧
      gives (.vfmul w) (fun i => round (fMul (decodeFmt f (A i)) (decodeFmt f (B i)))) ∧
      gives (.vfdiv w) (fun i => round (fDiv (decodeFmt f (A i)) (decodeFmt f (B i)))) ∧
      gives (.vfmin w) (fun i => fMinMax false f (A i) (B i)) ∧
      gives (.vfmax w) (fun i => fMinMax true f (A i) (B i))) ∧
    (∀ (w : Bin) f, fmtOf w.ty = some f → Below G (tyRegs w.ty w.d ++ tyRegs w.ty w.a ++ opndRegs .i32 w.b) →
      LaneWrites (.vfscl w) s g G n S w.ty w.d.toNat (Active G S w.g) fun i =>
        encodeFmt f w.m.rnd w.m.sat (fScale (sgnOf .i32 (G.opnd .i32 w.b i)) (decodeFmt f (G.el w.ty w.a.toNat i)))) ∧
    (∀ (w : Un) f, fmtOf w.ty = some f → Below G (tyRegs w.ty w.d ++ tyRegs w.ty w.a) →
      let A (i : Nat) : Nat := G.el w.ty w.a.toNat i
      let round (v : FVal) : Nat := encodeFmt f w.m.rnd w.m.sat v
      let gives (k : Instr) (r : Nat → Nat) : Prop := LaneWrites k s g G n S w.ty w.d.toNat (Active G S w.g) r
      gives (.vfabs w) (fun i => A i % 2 ^ (w.ty.bits - 1)) ∧
      gives (.vfneg w) (fun i => A i ^^^ 2 ^ (w.ty.bits - 1)) ∧
      gives (.vfrcp w) (fun i => round (fDiv (.fin false 1 1) (decodeFmt f (A i)))) ∧
      gives (.vfrsq w) (fun i => round (fRsq (decodeFmt f (A i)))) ∧
      gives (.vfsqrt w) (fun i => round (fSqrt (decodeFmt f (A i)))) ∧
      gives (.vfex2 w) (fun i => ex2 f w.m (decodeFmt f (A i))) ∧
      gives (.vflg2 w) (fun i => lg2 f w.m (decodeFmt f (A i))) ∧
      gives (.vfsin w) (fun i => trig false f w.m (decodeFmt f (A i))) ∧
      gives (.vfcos w) (fun i => trig true f w.m (decodeFmt f (A i))) ∧
      gives (.vfrnd w) (fun i => round (fRound w.m.rnd (decodeFmt f (A i)))) ∧
      LaneWrites (.vfcls w) s g G n S .n32 w.d.toNat (Active G S w.g) fun i => fClass f (A i)) ∧
    ∀ (w : Ter) f, fmtOf w.ty = some f → Below G (tyRegs w.ty w.d ++ tyRegs w.ty w.a ++ opndRegs w.ty w.b ++ opndRegs w.ty w.c) →
      let a (i : Nat) : FVal := decodeFmt f (G.el w.ty w.a.toNat i)
      let b (i : Nat) : FVal := decodeFmt f (G.opnd w.ty w.b i)
      let c (i : Nat) : FVal := decodeFmt f (G.opnd w.ty w.c i)
      let sum (i : Nat) : Nat := encodeFmt f w.m.rnd w.m.sat (fAdd w.m.rnd (a i) (b i))
      let gives (k : Instr) (r : Nat → Nat) : Prop := LaneWrites k s g G n S w.ty w.d.toNat (Active G S w.g) r
      gives (.vfma w) (fun i => encodeFmt f w.m.rnd w.m.sat (fAdd w.m.rnd (fMul (a i) (b i)) (c i))) ∧
      gives (.vaddmin w) (fun i => fMinMax false f (sum i) (G.opnd w.ty w.c i)) ∧
      gives (.vaddmax w) (fun i => fMinMax true f (sum i) (G.opnd w.ty w.c i))

/-- R12, R126: the special cases of the float table, and saturation of an infinite result; a NaN result is the format's canonical one. -/
def Sys2Proof.Claims.FloatSpecialCases : Prop :=
  ∀ (m : Rnd) (a b : Bool) (n d : Nat) (f : Fmt) (sat : Bool),
    fAdd m (.inf a) (.inf !a) = .nan ∧ fAdd m (.inf a) (.inf a) = .inf a ∧
    fAdd m (.fin a n d) (.fin (!a) n d) = .fin (decide (m = .rd)) 0 1 ∧ fAdd m (.fin true 0 1) (.fin true 0 1) = .fin true 0 1 ∧
    (∀ x, fAdd m .nan x = .nan ∧ fAdd m x .nan = .nan ∧ fMul .nan x = .nan ∧ fMul x .nan = .nan ∧ fDiv .nan x = .nan ∧ fDiv x .nan = .nan) ∧
    fMul (.inf a) (.fin b 0 1) = .nan ∧ fMul (.fin a 0 1) (.inf b) = .nan ∧
    (0 < n → fDiv (.fin a n d) (.fin b 0 1) = .inf (a != b)) ∧ fDiv (.fin a 0 1) (.fin b 0 1) = .nan ∧ fDiv (.inf a) (.inf b) = .nan ∧
    fDiv (.fin false 1 1) (.fin a 0 1) = .inf a ∧ fDiv (.fin false 1 1) (.inf a) = .fin a 0 1 ∧
    fSqrt (.fin true 0 1) = .fin true 0 1 ∧ (0 < n → fSqrt (.fin true n d) = .nan) ∧ fSqrt (.inf false) = .inf false ∧ fSqrt (.inf true) = .nan ∧
    fRsq (.fin a 0 1) = .inf a ∧ (0 < n → fRsq (.fin true n d) = .nan) ∧ fRsq (.inf false) = .fin false 0 1 ∧
    (∀ k, fScale k (.inf a) = .inf a ∧ fScale k (.fin a 0 1) = .fin a 0 1) ∧
    encodeFmt f m sat .nan = f.nan ∧
    encodeFmt f m true (.inf a) = (if a then 2 ^ (f.bits - 1) else 0) + f.maxFin ∧
    (∀ i, f.inf = some i → encodeFmt f m false (.inf a) = (if a then 2 ^ (f.bits - 1) else 0) + i)

/-- R6: the value of a finite pattern without its sign, in each binary format; a pattern with the sign bit set has the negative value. -/
def Sys2Proof.Claims.PatternsHaveValues : Prop :=
  ∀ t f, fmtOf t = some f → ∀ p ≤ f.maxFin, p < 2 ^ (f.bits - 1) ∧
    magnitude f p = (if p / 2 ^ f.frac = 0 then (p : ℚ) * 2 ^ (f.emin - f.frac) else ((2 ^ f.frac + p % 2 ^ f.frac : Nat) : ℚ) * 2 ^ (f.emin + (p / 2 ^ f.frac : Nat) - 1 - f.frac)) ∧
    ∀ b : Bool, signedValue (decodeFmt f ((if b then 2 ^ (f.bits - 1) else 0) + p)) = some ((if b then -1 else 1) * magnitude f p)

/-- R12, R13: one rounding of a finite value into a binary format. Towards zero, up and down give the neighbour on that side; to nearest gives the nearest, and of
two the even one. Above the largest finite value the mode decides between that value and an infinite result, which sat makes the largest finite value, and which is
a NaN in a format without infinities. -/
def Sys2Proof.Claims.RoundsOnce : Prop :=
  ∀ t f, fmtOf t = some f → ∀ (m : Rnd) (sat neg : Bool) (n d : Nat), 0 < d →
    let x : ℚ := (n : ℚ) / d
    let sign := if neg then 2 ^ (f.bits - 1) else 0
    let out := encodeFmt f m sat (.fin neg n d)
    let top := magnitude f f.maxFin
    let ulp := top - magnitude f (f.maxFin - 1)
    let down : Prop := m = .rz ∨ m = .ru ∧ neg = true ∨ m = .rd ∧ neg = false
    let up : Prop := m = .ru ∧ neg = false ∨ m = .rd ∧ neg = true
    let large := if sat then sign + f.maxFin else match f.inf with
      | some i => sign + i
      | none => f.nan
    (x ≤ top → ∃ p ≤ f.maxFin, out = sign + p ∧
      (down → magnitude f p ≤ x ∧ (p < f.maxFin → x < magnitude f (p + 1))) ∧
      (up → x ≤ magnitude f p ∧ (0 < p → magnitude f (p - 1) < x)) ∧
      (m = .rn → ∀ q ≤ f.maxFin, |x - magnitude f p| ≤ |x - magnitude f q| ∧ (q ≠ p → |x - magnitude f p| = |x - magnitude f q| → p % 2 = 0))) ∧
    (top < x →
      (down → out = sign + f.maxFin) ∧ (up → out = large) ∧
      (m = .rn → 2 * (x - top) < ulp ∨ 2 * (x - top) = ulp ∧ f.maxFin % 2 = 0 → out = sign + f.maxFin) ∧
      (m = .rn → ulp < 2 * (x - top) ∨ 2 * (x - top) = ulp ∧ f.maxFin % 2 = 1 → out = large))

/-- R12: sums, products, quotients and scalings of finite values are exact before the rounding. -/
def Sys2Proof.Claims.ArithmeticIsExact : Prop :=
  ∀ (m : Rnd) (a b : Bool) (n d p q : Nat), 0 < d → 0 < q →
    let x := FVal.fin a n d
    let y := FVal.fin b p q
    let val (v : FVal) : ℚ := (signedValue v).getD 0
    signedValue (fAdd m x y) = some (val x + val y) ∧ signedValue (fMul x y) = some (val x * val y) ∧
    (0 < p → signedValue (fDiv x y) = some (val x / val y)) ∧ signedValue (fNeg y) = some (- val y) ∧
    ∀ k : Int, -2 ^ 14 ≤ k → k ≤ 2 ^ 14 → signedValue (fScale k x) = some (val x * 2 ^ k)

/-- R6, R12, R13, R124 to R127: the lane floating-point instructions, the special cases of their operations, and the one rounding of a result. -/
def Obligations.LaneFloatsAndSpecialCases : Prop :=
  Sys2Proof.Claims.LaneFloats ∧ Sys2Proof.Claims.FloatSpecialCases ∧ Sys2Proof.Claims.PatternsHaveValues ∧ Sys2Proof.Claims.RoundsOnce ∧
    Sys2Proof.Claims.ArithmeticIsExact

/-- R13, R14, R17, R19, R128: what a conversion of one element gives. An integer is wrapped or clamped into an integer type, and rounded once into a float
type; a float rounds once into a float type, a NaN giving the canonical one and an infinity in e4m3 a NaN or with sat the largest value; into an integer type it
rounds in the word's mode and is clamped, a NaN giving 0; into gd8 it goes to the nearest code, with the ties and the ends of R19. -/
def Sys2Proof.Claims.ElementsConvert : Prop :=
  ∀ (dst src : Ty) (m : Modf) (x : Nat), x < 2 ^ src.bits →
    let v := decodeTy src x
    (src.isInt = true → v = .fin (decide (intOf src x < 0)) (intOf src x).natAbs 1) ∧
    (∀ f, fmtOf src = some f → v = decodeFmt f x) ∧ (src = .gd8 → v = decodeGd8 x) ∧
    (dst.isInt = true → src.isInt = true → convert dst src m x = fitted dst m.sat (intOf src x)) ∧
    (∀ f, fmtOf dst = some f → convert dst src m x = encodeFmt f m.rnd m.sat v ∧ (v = .nan → convert dst src m x = f.nan)) ∧
    (∀ b, dst = .e4m3 → v = .inf b → convert dst src m x = if m.sat then (if b then 0xFE else 0x7E) else 0x7F) ∧
    (dst.isInt = true → src.isInt = false →
      (v = .nan → convert dst src m x = 0) ∧ (v = .inf false → convert dst src m x = wrapped dst (largest dst)) ∧
      (v = .inf true → convert dst src m x = wrapped dst (least dst)) ∧
      ∀ q, signedValue v = some q → ∃ r, RoundsToInt m.rnd q r ∧ convert dst src m x = wrapped dst (max (least dst) (min (largest dst) r))) ∧
    (dst = .gd8 →
      (v = .nan → convert dst src m x = 0x80) ∧ (v = .inf false → convert dst src m x = 0x03) ∧ (v = .inf true → convert dst src m x = 0x83) ∧
      ∀ neg n d, v = .fin neg n d →
        let y : ℚ := (n : ℚ) / d
        (10 ^ 9 < y → convert dst src m x = if neg then 0x83 else 0x03) ∧ (y < 1 / (2 * 10 ^ 11) → convert dst src m x = 0) ∧
        (1 / (2 * 10 ^ 11) ≤ y → y ≤ 10 ^ 9 → ∃ c, 1 ≤ c ∧ c ≤ 127 ∧ convert dst src m x = (if neg then 128 else 0) + c ∧
          ∀ e, 1 ≤ e → e ≤ 127 → |y - gd8Value c| ≤ |y - gd8Value e| ∧ (|y - gd8Value c| = |y - gd8Value e| →
            (gd8Even e → gd8Even c) ∧ ((gd8Even e ↔ gd8Even c) → gd8Value e ≤ gd8Value c))))

/-- R18: the codes of gd8: zero, the NaN, and of every other code its sign and magnitude. -/
def Sys2Proof.Claims.Gd8Codes : Prop :=
  decodeGd8 0 = .fin false 0 1 ∧ decodeGd8 0x80 = .nan ∧
  ∀ c, 1 ≤ c → c ≤ 127 → signedValue (decodeGd8 c) = some (gd8Value c) ∧ signedValue (decodeGd8 (128 + c)) = some (- gd8Value c) ∧
    gd8Value c = (1 + 9 * ((gd8Fields c).2.1 : ℚ) / 2 ^ (gd8Fields c).2.2) * 10 ^ (gd8Fields c).1

/-- R52, R130: the relations of lane compares. An integer type compares its integers, or its patterns for the unsigned relations; a float type its values, -0 and
+0 as equal, and with a NaN only ne and unord hold. -/
def Sys2Proof.Claims.LaneRelations : Prop :=
  ∀ (t : Ty) (x y : Nat), x < 2 ^ t.bits → y < 2 ^ t.bits →
    let a := intOf t x
    let b := intOf t y
    let v := decodeTy t x
    let w := decodeTy t y
    let rel (r : Rel) (p : Prop) : Prop := relLane t r x y = true ↔ p
    (t.isInt = true → rel .eq (x = y) ∧ rel .ne (x ≠ y) ∧ rel .lt (a < b) ∧ rel .le (a ≤ b) ∧ rel .gt (b < a) ∧ rel .ge (b ≤ a) ∧
      rel .ltn (x < y) ∧ rel .len (x ≤ y) ∧ rel .gtn (y < x) ∧ rel .gen (y ≤ x)) ∧
    (t.isInt = false →
      let un := v = .nan ∨ w = .nan
      rel .unord un ∧ rel .ord (¬ un) ∧ rel .eq (¬ un ∧ placed v = placed w) ∧ rel .ne (un ∨ placed v ≠ placed w) ∧
      rel .lt (¬ un ∧ placed v < placed w) ∧ rel .le (¬ un ∧ placed v ≤ placed w) ∧ rel .gt (¬ un ∧ placed w < placed v) ∧
      rel .ge (¬ un ∧ placed w ≤ placed v))

/-- R52, R128 to R133: conversions, packing, compares, selects, predicate logic and moves: which lanes get which element. -/
def Sys2Proof.Claims.LanesConvertAndMove : Prop :=
  ∀ s g G n S, LaneTurn s g G n S →
    (∀ w : Cvt,
      (Below G (tyRegs w.dst w.d ++ tyRegs w.src w.a) →
        LaneWrites (.vcvt w) s g G n S w.dst w.d.toNat (Active G S w.g) fun i => convert w.dst w.src w.m (G.el w.src w.a.toNat i)) ∧
      (let k := 32 / w.dst.bits
       Below G (w.d.toNat :: (List.range k).map (w.a.toNat + ·)) →
        LaneWrites (.vpack w) s g G n S .n32 w.d.toNat (Active G S w.g) fun i =>
          ((List.range k).map fun j => convert w.dst w.src w.m (G.el w.src (w.a.toNat + j) i) % 2 ^ w.dst.bits * 2 ^ (w.dst.bits * j)).sum) ∧
      (let k := 32 / w.src.bits
       Below G ((List.range k).map (w.d.toNat + ·) ++ [w.a.toNat]) →
        let part (j i : Nat) : Nat := convert w.dst w.src w.m ((lane (G.rv w.a.toNat) i).toNat / 2 ^ (w.src.bits * j) % 2 ^ w.src.bits)
        LaneBecomes (.vunpk w) s g
          (((List.range k).foldl (fun H j => H.putEl w.dst (w.d.toNat + j) (Active G S w.g) (part j)) G).goto n (S.pc + 1)))) ∧
    (∀ w : CmpL, Below G (tyRegs w.ty w.a ++ opndRegs w.ty w.b) →
      ∃ r, (∀ i < 256, (Active G S w.g).getLsbD i = true →
          (r : Mask).getLsbD i = relLane w.ty w.rel (G.el w.ty w.a.toNat i) (G.opnd w.ty w.b i)) ∧
        PredWrites (.vcmp w) s g G n S w.pd (Active G S w.g) (match w.comb with
          | .set => r
          | .and => G.rp w.pd &&& r
          | .or => G.rp w.pd ||| r)) ∧
    (∀ w : SelL, w.ty.wide = false → Below G (tyRegs w.ty w.d ++ tyRegs w.ty w.a ++ opndRegs w.ty w.b) →
      LaneBecomes (.vsel w) s g ((G.wvMask w.d.toNat (Active G S w.g) fun i =>
        if (G.rp w.q).getLsbD i != w.inv then lane (G.rv w.a.toNat) i else G.opnd32 w.ty w.b i).goto n (S.pc + 1))) ∧
    (∀ w : SelL, w.ty.wide = true → Below G (tyRegs w.ty w.d ++ tyRegs w.ty w.a ++ opndRegs w.ty w.b) →
      ∃ f : Nat → Nat, (∀ i < 256, f i = if (G.rp w.q).getLsbD i != w.inv then G.el w.ty w.a.toNat i else G.opnd w.ty w.b i) ∧
        LaneWrites (.vsel w) s g G n S w.ty w.d.toNat (Active G S w.g) f) ∧
    (∀ w : PLog, PredWrites (.vpand w) s g G n S w.pd (Active G S w.g) (G.rp w.pa &&& G.rp w.pb) ∧
      PredWrites (.vpor w) s g G n S w.pd (Active G S w.g) (G.rp w.pa ||| G.rp w.pb) ∧
      PredWrites (.vpxor w) s g G n S w.pd (Active G S w.g) (G.rp w.pa ^^^ G.rp w.pb)) ∧
    (∀ gd pd pa, PredWrites (.vpnot gd pd pa) s g G n S pd (Active G S gd) (~~~(G.rp pa))) ∧
    (∀ gd ty (d : VReg) b, Below G (tyRegs ty d ++ opndRegs ty b) →
      (ty.wide = true → LaneWrites (.vmov gd ty d b) s g G n S ty d.toNat (Active G S gd) (G.opnd ty b)) ∧
      (ty.wide = false → LaneBecomes (.vmov gd ty d b) s g ((G.wvMask d.toNat (Active G S gd) (G.opnd32 ty b)).goto n (S.pc + 1)))) ∧
    (∀ gd ty (d : VReg) (x : Elem), Below G (tyRegs ty d) →
      LaneWrites (.vmovi gd ty d x) s g G n S ty d.toNat (Active G S gd) fun i => G.opnd ty (.imm x) i) ∧
    (∀ gd (d : VReg) pa, d.toNat < G.n →
      LaneWrites (.vlaneid gd d) s g G n S .n32 d.toNat (Active G S gd) (fun i => i) ∧
      LaneWrites (.vp2v gd d pa) s g G n S .n32 d.toNat (Active G S gd) fun i => if (G.rp pa).getLsbD i then 1 else 0) ∧
    ∀ gd pd (a : VReg), a.toNat < G.n → ∃ r, (∀ i < 256, (r : Mask).getLsbD i = decide (lane (G.rv a.toNat) i ≠ 0)) ∧
      PredWrites (.vv2p gd pd a) s g G n S pd (Active G S gd) r

/-- R13, R14, R17 to R19, R52, R128 to R133: conversions, packing, compares, selects, predicate logic and moves, with the values of conversions and of relations. -/
def Obligations.ConversionsAndPredicates : Prop :=
  Sys2Proof.Claims.LanesConvertAndMove ∧ Sys2Proof.Claims.ElementsConvert ∧ Sys2Proof.Claims.Gd8Codes ∧ Sys2Proof.Claims.LaneRelations

/-- R90, R153 to R157: lane exchange. Shifts take any lane, active or not; a collective whose active lanes are members takes part with them;
an active lane outside memmask traps with cause 0x09. A scan gives every lane the reduction of the lanes up to it, or before it; a sum of f32 is made in the fixed
order (R27), and the minimum or maximum of NaNs only is the canonical NaN (R28). -/
def Obligations.LaneExchange : Prop :=
  ∀ s g G n S, LaneTurn s g G n S →
    (∀ (w : ShiftL), w.ty.wide = false → Below G (tyRegs w.ty w.d ++ tyRegs w.ty w.a ++ (match w.fill with
        | .c x => opndRegs w.ty x
        | _ => [])) →
      let k := G.opnd .n32 w.count 0
      let fill (i : Nat) : Elem := match w.fill with
        | .keep => lane (G.rv w.d.toNat) i
        | .c x => G.opnd32 w.ty x i
        | _ => 0
      let a (i : Nat) : Elem := lane (G.rv w.a.toNat) i
      let gives (i : Instr) (f : Nat → Elem) : Prop := LaneBecomes i s g ((G.wvMask w.d.toNat (Active G S w.g) f).goto n (S.pc + 1))
      (w.fill ≠ .rot → gives (.vshup w) (fun i => if k ≤ i then a (i - k) else fill i) ∧ gives (.vshdn w) (fun i => if i + k ≤ 255 then a (i + k) else fill i)) ∧
      (w.fill = .rot → gives (.vshup w) (fun i => a ((i + 256 - k % 256) % 256)) ∧ gives (.vshdn w) (fun i => a ((i + k) % 256)))) ∧
    (∀ (w : ShiftL), w.ty.wide = true → Below G (tyRegs w.ty w.d ++ tyRegs w.ty w.a ++ (match w.fill with
        | .c x => opndRegs w.ty x
        | _ => [])) →
      let k := G.opnd .n32 w.count 0
      let fill (i : Nat) : Nat := match w.fill with
        | .keep => G.el w.ty w.d.toNat i
        | .c x => G.opnd w.ty x i
        | _ => 0
      let a (i : Nat) : Nat := G.el w.ty w.a.toNat i
      let gives (i : Instr) (f : Nat → Nat) : Prop := LaneWrites i s g G n S w.ty w.d.toNat (Active G S w.g) f
      (w.fill ≠ .rot → gives (.vshup w) (fun i => if k ≤ i then a (i - k) else fill i) ∧ gives (.vshdn w) (fun i => if i + k ≤ 255 then a (i + k) else fill i)) ∧
      (w.fill = .rot → gives (.vshup w) (fun i => a ((i + 256 - k % 256) % 256)) ∧ gives (.vshdn w) (fun i => a ((i + k) % 256)))) ∧
    (∀ w : PermL, Below G (tyRegs w.ty w.d ++ tyRegs w.ty w.a ++ opndRegs .n32 w.b) →
      let m := Active G S w.g
      let t : Ty := if w.ty.wide then w.ty else .n32
      let from_ (i : Nat) : Nat := G.opnd .n32 w.b i % 256
      let gives (k : Instr) : Prop := LaneWrites k s g G n S t w.d.toNat m fun i => if m.getLsbD (from_ i) then G.el t w.a.toNat (from_ i) else 0
      (m &&& ~~~G.memmask = 0 → gives (.vperm w) ∧ gives (.vbcast w)) ∧
      (m &&& ~~~G.memmask ≠ 0 → exec (.vperm w) s = .next (trapL s g n 0x09 (m &&& ~~~G.memmask)) ∧ exec (.vbcast w) s = .next (trapL s g n 0x09 (m &&& ~~~G.memmask)))) ∧
    (∀ w : RedL, w.ty.isInt = true → Below G (tyRegs w.ty w.d ++ tyRegs w.ty w.a) →
      let m := Active G S w.g
      let x (i : Nat) : Int := intOf w.ty (if m.getLsbD i then G.el w.ty w.a.toNat i else redId w.ty w.kind)
      m &&& ~~~G.memmask = 0 →
        (w.kind = .add → LaneWrites (.vred w) s g G n S w.ty w.d.toNat m (fun _ => fitted w.ty w.sat (((List.range 256).map x).sum)) ∧
          ∃ f : Nat → Nat, LaneWrites (.vscan w) s g G n S w.ty w.d.toNat m f ∧
            ∀ i < 256, f i = fitted w.ty w.sat (((List.range (if w.ex then i else i + 1)).map x).sum)) ∧
        (w.kind = .min → ∃ v : Int, LaneWrites (.vred w) s g G n S w.ty w.d.toNat m (fun _ => wrapped w.ty v) ∧ (∀ i < 256, v ≤ x i) ∧ (v ∈ (List.range 256).map x)) ∧
        (w.kind = .max → ∃ v : Int, LaneWrites (.vred w) s g G n S w.ty w.d.toNat m (fun _ => wrapped w.ty v) ∧ (∀ i < 256, x i ≤ v) ∧ (v ∈ (List.range 256).map x)) ∧
        let pats : List Nat := (List.range 256).map fun i => if m.getLsbD i then G.el w.ty w.a.toNat i else redId w.ty w.kind
        let upto (i : Nat) : Nat := if w.ex then i else i + 1
        (w.kind ≠ .add → ∃ f : Nat → Nat, LaneWrites (.vscan w) s g G n S w.ty w.d.toNat m f ∧ ∀ i < 256,
          (upto i = 0 → f i = redId w.ty w.kind) ∧
          (w.kind = .min → upto i ≠ 0 → ∃ v : Int, f i = wrapped w.ty v ∧ (∀ j < upto i, v ≤ x j) ∧ v ∈ (List.range (upto i)).map x) ∧
          (w.kind = .max → upto i ≠ 0 → ∃ v : Int, f i = wrapped w.ty v ∧ (∀ j < upto i, x j ≤ v) ∧ v ∈ (List.range (upto i)).map x) ∧
          (w.kind = .and → f i = (pats.take (upto i)).foldl (· &&& ·) (2 ^ w.ty.bits - 1)) ∧
          (w.kind = .or → f i = (pats.take (upto i)).foldl (· ||| ·) 0) ∧
          (w.kind = .xor → f i = (pats.take (upto i)).foldl (· ^^^ ·) 0)) ∧
        (w.kind = .and → LaneWrites (.vred w) s g G n S w.ty w.d.toNat m fun _ => pats.foldl (· &&& ·) (2 ^ w.ty.bits - 1)) ∧
        (w.kind = .or → LaneWrites (.vred w) s g G n S w.ty w.d.toNat m fun _ => pats.foldl (· ||| ·) 0) ∧
        (w.kind = .xor → LaneWrites (.vred w) s g G n S w.ty w.d.toNat m fun _ => pats.foldl (· ^^^ ·) 0)) ∧
    (∀ w : RedL, w.ty = .f32 → w.kind = .add → Below G [w.d.toNat, w.a.toNat] →
      let m := Active G S w.g
      let pats : List Nat := (List.range 256).map fun i => if m.getLsbD i then G.el .f32 w.a.toNat i else 0x80000000
      m &&& ~~~G.memmask = 0 → LaneWrites (.vred w) s g G n S .f32 w.d.toNat m (fun _ => treeSum 8 pats) ∧
        ∃ f : Nat → Nat, LaneWrites (.vscan w) s g G n S .f32 w.d.toNat m f ∧
          ∀ i < 256, f i = (pats.take (if w.ex then i else i + 1)).foldl addF32 0x80000000) ∧
    (∀ (w : RedL) f, fmtOf w.ty = some f → w.kind = .min ∨ w.kind = .max → Below G [w.d.toNat, w.a.toNat] →
      let m := Active G S w.g
      let pats : List Nat := (List.range 256).map fun i => if m.getLsbD i then G.el w.ty w.a.toNat i else redId w.ty w.kind
      m &&& ~~~G.memmask = 0 → ∃ v, LaneWrites (.vred w) s g G n S w.ty w.d.toNat m (fun _ => v) ∧
        v = pats.tail.foldl (fMinMax (w.kind = .max) f) (fMinMax (w.kind = .max) f (pats.headD 0) (pats.headD 0)) ∧
        ((∀ p ∈ pats, decodeFmt f p = .nan) → v = f.nan) ∧
        ∃ h : Nat → Nat, LaneWrites (.vscan w) s g G n S w.ty w.d.toNat m h ∧ ∀ i < 256,
          let k := if w.ex then i else i + 1
          (k = 0 → h i = redId w.ty w.kind) ∧
          (k ≠ 0 → h i = (pats.take k).tail.foldl (fMinMax (w.kind = .max) f) (fMinMax (w.kind = .max) f (pats.headD 0) (pats.headD 0)) ∧
            ((∀ p ∈ pats.take k, decodeFmt f p = .nan) → h i = f.nan))) ∧
    (∀ w : RedL, Below G (tyRegs w.ty w.d ++ tyRegs w.ty w.a) →
      let out := Active G S w.g &&& ~~~G.memmask
      out ≠ 0 → exec (.vred w) s = .next (trapL s g n 0x09 out) ∧ exec (.vscan w) s = .next (trapL s g n 0x09 out)) ∧
    (∀ gd kind pd pa, let out := Active G S gd &&& ~~~G.memmask
      out ≠ 0 → exec (.vvote gd kind pd pa) s = .next (trapL s g n 0x09 out) ∧ exec (.velect gd pd) s = .next (trapL s g n 0x09 out)) ∧
    (∀ gd pd pa,
      let m := Active G S gd
      m &&& ~~~G.memmask = 0 →
        let v := m &&& G.rp pa
        let H : Group := { G with vote := v }
        LaneBecomes (.vvote gd .ballot pd pa) s g (H.goto n (S.pc + 1)) ∧
        PredWrites (.vvote gd .any pd pa) s g H n S pd m (if v = 0 then 0 else Mask.all) ∧
        PredWrites (.vvote gd .all pd pa) s g H n S pd m (if v = m then Mask.all else 0)) ∧
    ∀ gd pd,
      let m := Active G S gd
      m &&& ~~~G.memmask = 0 →
        (m = 0 → PredWrites (.velect gd pd) s g G n S pd m 0) ∧
        ∀ i, i < 256 → m.getLsbD i = true → (∀ j < i, m.getLsbD j = false) → PredWrites (.velect gd pd) s g G n S pd m ((1 : Mask) <<< i)

namespace Sys2Proof.Claims

/-! ### The tile engine (R158 to R176) -/

/-- `i` issues the tile operation `what` on tile `t` for the lanes `act`: it is in flight under the next key and counts in tl; split `n` advances; memory,
accumulators and registers are as before. -/
def TileIssues (i : Instr) (s : State) (g : Nat) (G : Group) (n : Nat) (tile : Option Nat) (act : Mask) (what : TileDo) : Prop :=
  ∃ t G' o x, exec i s = .next t ∧ mget t.groups g = some G' ∧ mget t.ops s.nextId = some o ∧ o.grp = some g ∧ o.body = .tile x ∧
    x.what = what ∧ x.tile = tile ∧ x.mask = act ∧ t.mem = s.mem ∧ t.acc = s.acc ∧ (∀ S, mget G.splits n = some S → Advances G G' n S) ∧
    G'.ctl = G.ctl + 1 ∧ G'.sreg = G.sreg ∧ G'.vreg = G.vreg

/-- Tile `t` is below the launch's allocation; a compensation has none (R158, R324). -/
def TileBelow (s : State) (G : Group) (t : Nat) : Prop :=
  ∃ B L, mget s.blocks G.blk = some B ∧ mget s.launches B.launch = some L ∧ B.comp = none ∧ t < L.desc.acctiles

/-- The lanes of `m` are members (R90). -/
abbrev Members (G : Group) (m : Mask) : Prop := m &&& ~~~G.memmask = 0

end Sys2Proof.Claims

/-- R54, R161 to R164, R168, R173 to R175: the tile instructions issue once their operands pass their checks, and with no active lane only advance; a format word that differs between
lanes, or names no allowed pair, traps with cause 0x08.
What is read and checked at issue of the list instructions is log 33. -/
def Sys2Proof.Claims.TileInstructionsIssue : Prop :=
  ∀ s g G n S, LaneTurn s g G n S → CountersOk G → G.ctl < 63 →
    (∀ (w : MmaL) gd (tile : BitVec 6) (e : MepiL) (v : DistL) (a b : VReg) list src,
      let only (i : Instr) : Prop := LaneBecomes i s g (G.goto n (S.pc + 1))
      (Active G S w.g = 0 → w.fw.toNat < G.n → TileBelow s G w.tile.toNat → only (.mma w) ∧ (3 ≤ s.level G.core → only (.mmas w))) ∧
      (Active G S gd = 0 → TileBelow s G tile.toNat → only (.mzero gd tile)) ∧
      (Active G S e.g = 0 → TileBelow s G e.tile.toNat → only (.mepi e)) ∧
      (Active G S v.g = 0 → v.d.toNat < G.n → only (.vdist v)) ∧
      (Active G S gd = 0 → a.toNat < G.n → b.toNat < G.n → only (.topk gd a b list)) ∧
      (Active G S gd = 0 → only (.topkm gd list src))) ∧
    (∀ (w : MmaL) (sparse : Bool),
      let act := Active G S w.g
      let i : Instr := if sparse then .mmas w else .mma w
      let word (l : Nat) : Elem := lane (G.rv w.fw.toNat) l
      Members G act → act ≠ 0 → w.fw.toNat < G.n → TileBelow s G w.tile.toNat → (sparse = true → 3 ≤ s.level G.core) →
        (∀ x : Elem, (∀ l < 256, act.getLsbD l = true → word l = x) →
          (∀ k, x.toNat < 256 → pairK sparse (x.toNat % 16) (x.toNat / 16 % 16) = some k → ∃ areas,
            mmaPlan G w sparse act = .go areas (fun _ => .mma sparse (x.toNat % 16) (x.toNat / 16 % 16) (scrLoc G.core ((G.rs w.sa).toNat % 2 ^ 32))
              (areaLoc G .cluster ((G.rs w.sb).toNat % 2 ^ 32))) (some w.tile.toNat) [] ∧
            ∀ pages, chkAreas s G false areas = .ok pages →
              TileIssues i s g G n (some (tileKey s G w.tile.toNat)) act (.mma sparse (x.toNat % 16) (x.toNat / 16 % 16)
                (scrLoc G.core ((G.rs w.sa).toNat % 2 ^ 32)) (areaLoc G .cluster ((G.rs w.sb).toNat % 2 ^ 32)))) ∧
          (256 ≤ x.toNat ∨ pairK sparse (x.toNat % 16) (x.toNat / 16 % 16) = none → exec i s = .next (trapL s g n 0x08 act))) ∧
        ((∃ l m, l < 256 ∧ m < 256 ∧ act.getLsbD l = true ∧ act.getLsbD m = true ∧ word l ≠ word m) →
          ∃ lanes, lanes ≠ 0 ∧ lanes &&& ~~~act = 0 ∧ exec i s = .next (trapL s g n 0x08 lanes))) ∧
    (∀ gd (tile : BitVec 6), Active G S gd ≠ 0 → TileBelow s G tile.toNat →
      TileIssues (.mzero gd tile) s g G n (some (tileKey s G tile.toNat)) (Active G S gd) .mzero) ∧
    (∀ (w : MepiL) areas what tile pg pages, Active G S w.g ≠ 0 → TileBelow s G w.tile.toNat →
      mepiPlan G w (Active G S w.g) = .go areas what tile pg → chkAreas s G w.add areas = .ok pages →
      TileIssues (.mepi w) s g G n (some (tileKey s G w.tile.toNat)) (Active G S w.g) (what pages)) ∧
    (∀ (w : DistL) areas what tile pg pages, Active G S w.g ≠ 0 → Members G (Active G S w.g) → w.d.toNat < G.n →
      distPlan G w (Active G S w.g) = .go areas what tile pg → chkAreas s G false areas = .ok pages →
      TileIssues (.vdist w) s g G n none (Active G S w.g) (what pages)) ∧
    (∀ gd (a b : VReg) list areas what tile pg pages,
      let act := Active G S gd
      act ≠ 0 → Members G act → a.toNat < G.n → b.toNat < G.n →
      listPlan s G S act ((G.rs list).toNat % 2 ^ 32) none ((lanesOf act).map fun i => (lane (G.rv a.toNat) i, lane (G.rv b.toNat) i)) = .go areas what tile pg →
      chkAreas s G false areas = .ok pages → TileIssues (.topk gd a b list) s g G n none act (what pages)) ∧
    ∀ gd dst src areas what tile pg pages,
      let act := Active G S gd
      act ≠ 0 → listPlan s G S act ((G.rs dst).toNat % 2 ^ 32) (some ((G.rs src).toNat % 2 ^ 32)) [] = .go areas what tile pg →
      chkAreas s G false areas = .ok pages → TileIssues (.topkm gd dst src) s g G n none act (what pages)

/-- R171, R172: mtrd copies one column of a tile into a register in test mode, and traps with illegal instruction outside it. While tile operations that
reached the engine before it are in flight it waits, and its group stalls. A tile with an uncorrectable error gives no value. -/
def Sys2Proof.Claims.TileReadInTestMode : Prop :=
  ∀ s g G n S gd (d : VReg) (tile : BitVec 6) (col : BitVec 5) C, LaneTurn s g G n S → mget s.ctxs (s.ctxOf G) = some C →
    let k := tileKey s G tile.toNat
    (C.flags.getLsbD 0 = false → exec (.mtrd gd d tile col) s = .next (trapL s g n 0x01 (Active G S gd))) ∧
    (C.flags.getLsbD 0 = true → d.toNat < G.n → TileBelow s G tile.toNat → Active G S gd = 0 →
      LaneBecomes (.mtrd gd d tile col) s g ({ G with stall := none }.goto n (S.pc + 1))) ∧
    (C.flags.getLsbD 0 = true → d.toNat < G.n → TileBelow s G tile.toNat → Active G S gd ≠ 0 →
      let due := live s ((G.stall.map (·.2)).getD (tileQueue s k))
      (due ≠ [] → Becomes (.mtrd gd d tile col) s g { G with stall := some (n, due) }) ∧
      (due = [] → k ∉ s.accPoison → k ∉ s.accSick →
        LaneBecomes (.mtrd gd d tile col) s g
          (({ G with stall := none }.wvMask d.toNat (Active G S gd) fun i => lane (tileRow s k i) col.toNat).goto n (S.pc + 1))) ∧
      (due = [] → k ∈ s.accPoison ∨ k ∈ s.accSick → ∃ u, exec (.mtrd gd d tile col) s = .next (groupError u g 0 (some (.split n, runOv G, S.pc))) ∧
        k ∈ u.accPoison ∧ u.mem = s.mem ∧ ∃ G', mget u.groups g = some G' ∧ G'.vreg = G.vreg))

/-- A stream of a group that stalls for an mtrd may not issue (R171). -/
def Sys2Proof.Claims.StalledGroupWaits : Prop :=
  ∀ s G n ops k, G.stall = some (n, ops) → k ∈ ops → mget s.ops k ≠ none → scalarMay s G = false ∧ ∀ m, m ≠ n → laneMay s G m = false

/-- R159 to R176: the tile instructions at issue. -/
def Obligations.TileInstructions : Prop :=
  Sys2Proof.Claims.TileInstructionsIssue ∧ Sys2Proof.Claims.TileReadInTestMode ∧ Sys2Proof.Claims.StalledGroupWaits

/-- R22 to R29, R37, R160, R163, R165, R166, R169, R173 to R176: what a tile operation leaves when it retires, with nothing poisoned, once what it follows
is gone and the lines it writes can be reached: each element it reads is one that its order allows; tl falls, the operation is gone, and a product, a zeroing, a drained row, a score or a merged list stands where it belongs;
rows of inactive lanes, and memory outside the operation's places, are as before.
Which of the allowed values an element has is free (log 16). -/
def Sys2Proof.Claims.TileOperationsRetire : Prop :=
  ∀ s k o x g G, mget s.ops k = some o → o.body = .tile x → o.grp = some g → mget s.groups g = some G → live s o.deps = [] → o.unit = none → o.aud = none →
    s.runUnits = [] → s.poison = [] → s.accPoison = [] → s.accSick = [] → tileReach s o x ≠ none →
    let tile := x.tile.getD 0
    let get := tileGet s k o
    (∀ loc n, MayRead s (o.knows s) (fun e => e.stamp.view.ops.contains k) loc n (get loc n)) ∧ ∃ t, exec (.tileOpRetire k) s = .next t ∧ mget t.ops k = none ∧ (∃ G', mget t.groups g = some G' ∧ G'.ctl = G.ctl - 1 ∧ G'.sreg = G.sreg) ∧
      (∀ i, i < 256 → x.mask.getLsbD i = false → tileRow t tile i = tileRow s tile i) ∧
      (x.what = .mzero → t.mem = s.mem ∧ ∀ i < 256, x.mask.getLsbD i = true → tileRow t tile i = rowZero) ∧
      (∀ sparse fa fb a b n, x.what = .mma sparse fa fb a b → pairK sparse fa fb = some n → t.mem = s.mem ∧
        ∀ i j, i < 256 → j < 32 → x.mask.getLsbD i = true → (tileRow s tile i).length = 32 →
          (fa ≠ 5 → lane (tileRow t tile i) j = mmaElem (Nat.log2 n) ((List.range n).map (aElem get sparse fa a i))
            ((List.range n).map fun q => decodeF32 (fmtTy fb) (get (b + fmtSize fb * (32 * q + j)) (fmtSize fb))) (lane (tileRow s tile i) j)) ∧
          (fa = 5 → lane (tileRow t tile i) j = mmaIntElem ((List.range n).map (aInt get sparse a i))
            ((List.range n).map fun q => toInt true 8 (get (b + fmtSize fb * (32 * q + j)) (fmtSize fb))) (lane (tileRow s tile i) j))) ∧
      (∀ w base stride par pages, x.what = .mepi w base stride par pages →
        (∀ a, (∀ l ∈ mepiLocs x o.core, a < l ∨ l + w.ty.size ≤ a) → memRead t.mem a = memRead s.mem a) ∧
        ∀ i j, i < 256 → j < 32 → x.mask = (1 : Mask) <<< i → w.glob = false → w.add = false → w.sb = false → w.act ≠ .clamp → (tileRow s tile i).length = 32 →
          t.read (scrLoc o.core ((base + i * stride) % 2 ^ 32 + j * w.ty.size)) w.ty.size =
            mepiElem w 0 0 0 0 (lane (tileRow s tile i) j) % 256 ^ w.ty.size) ∧
      (∀ ty l2 d q dim stride c, x.what = .vdist ty l2 d q dim stride c → t.mem = s.mem ∧ ∃ G', mget t.groups g = some G' ∧
        ∀ i < 256, x.mask.getLsbD i = true → i < (G.rv d).length → lane (G'.rv d) i = distScore ty l2
          ((List.range dim).map fun e => get (scrLoc o.core q + ty.size * e) ty.size)
          ((List.range dim).map fun e => get (scrLoc o.core ((c + i * stride) % 2 ^ 32) + ty.size * e) ty.size)) ∧
      ∀ list n asc new, (∃ pairs, x.what = .topk list n asc pairs ∧ new = rankSort asc (listEntries get list n ++ pairs)) ∨
          (∃ src n2, x.what = .topkm list src n n2 asc ∧ new = rankSort asc (listEntries get list n ++ listEntries get src n2)) → n < 2 ^ 32 →
        t.read (list + 4) 4 = min n new.length ∧
        (∀ e p, e < n → new[e]? = some p → t.read (list + 16 + 8 * e) 8 = p.1.toNat + 2 ^ 32 * p.2.toNat) ∧
        ∀ a, a < list + 4 ∨ list + 8 ≤ a ∧ a < list + 16 ∨ list + 16 + 8 * n ≤ a → memRead t.mem a = memRead s.mem a

/-- R29, R175: a merged list holds the same pairs, and none ranks before an earlier one. -/
def Sys2Proof.Claims.RankedListsSorted : Prop :=
  ∀ asc l, (rankSort asc l).Perm l ∧ (rankSort asc l).Pairwise fun x y => ranksBefore asc y x = false

/-- R159 to R176: what tile operations leave as they retire, and the ranked lists of the search instructions. -/
def Obligations.TileOperations : Prop := Sys2Proof.Claims.TileOperationsRetire ∧ Sys2Proof.Claims.RankedListsSorted


namespace Sys2Proof.Claims

/-! ### Phasers (R194 to R208) -/

/-- The operand s_a names phaser `k`: a block phaser, or with `pkg` a package phaser of the launch, whose key is 64 more (R202). -/
abbrev NamesPhaser (s : State) (G : Group) (a : SReg) (pkg : Bool) (k : Nat) : Prop :=
  (pkg = false ∧ k = (G.rs a).toNat ∧ k < 64) ∨ (pkg = true ∧ k = 64 + (G.rs a).toNat ∧ (G.rs a).toNat < pkgCount s G)

/-- The block and the launch that hold a group's phasers are there. -/
def HasLaunch (s : State) (G : Group) : Prop := ∃ B L, mget s.blocks G.blk = some B ∧ mget s.launches B.launch = some L

/-- A member of phaser `k` that may arrive now with the count `n`: it is not held, the phaser is whole, no other count was given, and a package
arrival has no write to wait for (R198, R202 to R204). -/
def MayArrive (s : State) (G : Group) (k n : Nat) (m : Memb) : Prop :=
  mget G.memb k = some m ∧ m.drain = false ∧ m.ag = (s.ph G k).cur ∧ (s.ph G k).broken = false ∧ (s.ph G k).drain = false ∧
    n < 2 ^ 16 ∧ (k = 0 ↔ n = 0) ∧ (k ≠ 0 → (s.ph G k).expect = none ∨ (s.ph G k).expect = some n) ∧
    (64 ≤ k → unacked s (scalarEarlier s G) = [])

/-- The arrival is the last of its phase: for phaser 0 every other member has arrived, for others the count is reached (R195, R198). -/
def LastArrival (s : State) (g : Nat) (G : Group) (k n : Nat) : Prop :=
  (k ≠ 0 → n ≤ (s.ph G k).arr + 1) ∧
  (k = 0 → ∀ p ∈ s.groups, p.1 ≠ g → p.2.blk = G.blk → ∀ m, mget p.2.memb 0 = some m → m.ag = (s.ph G 0).cur + 1)

end Sys2Proof.Claims

/-- R195, R197, R202, R203: registering gives the membership and its phase; deregistering takes it; an operand that names no phaser, phaser 0,
a second membership or no membership traps with illegal instruction. -/
def Sys2Proof.Claims.PhaserMembership : Prop :=
  ∀ s g G d a b mode pkg k, Scalar s g G → HasLaunch s G → G.audit = none →
    (NamesPhaser s G a pkg k → k ≠ 0 →
      (∀ drain : Bool, (G.rs b).toNat = drain.toNat → (drain = true → pkg = true) → heldMemb s G k = none → mget G.memb k = none →
        (pkg = true → (G.memb.filter fun p => 64 ≤ p.1).length < 8) → (drain = true → NoDrain G) →
        ∃ t, exec (.phreg d a b mode pkg) s = .next t ∧ t.mem = s.mem ∧
          let ag := if (s.ph G k).arr = 0 then (s.ph G k).cur else (s.ph G k).cur + 1
          let m : Memb := { mode := mode, ag := ag, drain := drain }
          mget t.groups g = some (past ({ G with memb := mput G.memb k m }.ws d (ag.setWidth 64)) 1)) ∧
      (heldMemb s G k = none → mget G.memb k ≠ none → exec (.phreg d a b mode pkg) s = .next (trapS s g 0x01)) ∧
      (∀ m, mget G.memb k = some m → ∃ t G', exec (.phdrop a pkg) s = .next t ∧ t.mem = s.mem ∧ mget t.groups g = some G' ∧
        mget G'.memb k = none ∧ G'.pc = G.pc + 1 ∧ G'.sreg = G.sreg) ∧
      (mget G.memb k = none → exec (.phdrop a pkg) s = .next (trapS s g 0x01))) ∧
    ((∀ k, ¬ NamesPhaser s G a pkg k) →
      exec (.phreg d a b mode pkg) s = .next (trapS s g 0x01) ∧ exec (.phdrop a pkg) s = .next (trapS s g 0x01) ∧
        exec (.pharr d a b pkg) s = .next (trapS s g 0x01) ∧ exec (.phqry d a pkg) s = .next (trapS s g 0x01))

/-- R195, R197 to R199, R203: an arrival counts once and writes its phase to s_d; the last one ends the phase, so that cur rises and the count
starts anew; a member that is a phase ahead is held. phaw does the same and then waits; a wait whose phase has ended goes on, with the phase in s_d, after what
the arrivals counted in that phase have released, and no other (R204, R237).
What an arrival releases is kept as log 34 says. -/
def Sys2Proof.Claims.PhaserArrivals : Prop :=
  ∀ s g G d a b pkg k m, Scalar s g G → HasLaunch s G → Sorted s.groups → NamesPhaser s G a pkg k → mget G.memb k = some m →
    let n := (G.rs b).toNat
    let counted (t : State) : Prop :=
      let rel := (s.ph G k).rel.join G.ord.earlier
      (LastArrival s g G k n → (t.ph G k).cur = (s.ph G k).cur + 1 ∧ (t.ph G k).arr = 0 ∧ (t.ph G k).expect = none ∧
        mget (t.ph G k).ended (s.ph G k).cur.toNat = some rel ∧ (t.ph G k).rel = {}) ∧
      (¬ LastArrival s g G k n → (t.ph G k).cur = (s.ph G k).cur ∧ (t.ph G k).arr = (s.ph G k).arr + 1 ∧ (t.ph G k).rel = rel ∧
        (k ≠ 0 → (t.ph G k).expect = some n)) ∧
      t.mem = s.mem ∧ ∃ G' m', mget t.groups g = some G' ∧ mget G'.memb k = some m' ∧ m'.ag = m.ag + 1
    (m.mode ≠ .wait → MayArrive s G k n m → ∃ t G', exec (.pharr d a b pkg) s = .next t ∧ counted t ∧ mget t.groups g = some G' ∧
      G'.pc = G.pc + 1 ∧ G'.sreg = (G.ws d (m.ag.setWidth 64)).sreg) ∧
    (m.mode = .sw → MayArrive s G k n m → (∀ p i q, G.wait ≠ .arrived p i q) →
      ∃ t G', exec (.phaw d a b pkg) s = .next t ∧ counted t ∧ mget t.groups g = some G' ∧ G'.pc = G.pc ∧
        G'.wait = .arrived pkg (G.rs a).toNat m.ag) ∧
    (m.mode ≠ .wait → n < 2 ^ 16 → (k = 0 ↔ n = 0) → (s.ph G k).broken = false → m.ag ≠ (s.ph G k).cur →
      exec (.pharr d a b pkg) s = .next s) ∧
    (∀ id phase, G.wait = .arrived pkg id phase →
      let p := s.ph G (if pkg then 64 + id else id)
      let ended : Prop := 1 ≤ (p.cur - phase).toNat ∧ (p.cur - phase).toNat ≤ 2 ^ 31
      let f := G.ord.gain ((mget p.ended phase.toNat).getD {})
      (ended → let H : Group := past ({ G with wait := .none, ord := f }.ws d (phase.setWidth 64)) 1
        (∃ t, exec (.phaw d a b pkg) s = .next t ∧ mget t.groups g = some H ∧ t.mem = s.mem) ∧
        (∃ t, exec (.phwt a b pkg) s = .next t ∧ mget t.groups g = some (past { G with wait := .none, ord := f } 1) ∧ t.mem = s.mem) ∧
        (pkg = true → ∃ t, exec (.phdrain d a b) s = .next t ∧ mget t.groups g = some H ∧ t.mem = s.mem)) ∧
      (¬ ended → p.broken = false → exec (.phaw d a b pkg) s = .next s) ∧
      (¬ ended → p.broken = true → exec (.phaw d a b pkg) s = .next (trapS s g 0x0C))) ∧
    (m.mode ≠ .sig → (s.ph G k).broken = false → n < 2 ^ 32 → (∀ p i q, G.wait ≠ .arrived p i q) →
      let behind := ((s.ph G k).cur - BitVec.ofNat 32 n).toNat
      1 ≤ behind → behind ≤ 2 ^ 31 → ∃ t, exec (.phwt a b pkg) s = .next t ∧ t.mem = s.mem ∧
        mget t.groups g = some (past { G with wait := .none, ord := G.ord.gain ((mget (s.ph G k).ended n).getD {}) } 1))

/-- R203: what phqry reads. -/
def Sys2Proof.Claims.PhaserQuery : Prop :=
  ∀ s g G d a pkg k, Scalar s g G → NamesPhaser s G a pkg k →
    ∃ t x, exec (.phqry d a pkg) s = .next t ∧ mget t.groups g = some (past (G.ws d x) 1) ∧ t.mem = s.mem ∧
      (s.ph G k).cur = x.extractLsb' 0 32 ∧ ((s.ph G k).arr < 2 ^ 16 → (x.extractLsb' 32 16).toNat = (s.ph G k).arr) ∧
      x.getLsbD 63 = (s.ph G k).broken ∧ x.getLsbD 62 = (mget G.memb k).isSome ∧
      ∀ m, mget G.memb k = some m → x.getLsbD 58 = m.drain ∧ x.getLsbD 59 = decide (m.ag = (s.ph G k).cur + 1)

/-- R194 to R204: joining and leaving a phaser, arriving and waiting at it, and asking it. -/
def Obligations.Phasers : Prop := Sys2Proof.Claims.PhaserMembership ∧ Sys2Proof.Claims.PhaserArrivals ∧ Sys2Proof.Claims.PhaserQuery

/-- R203, R206 to R208: wsplit takes half of the holding, after a grant if it is below 2, as a word that wret adds to a holding of the same phase; and
the units that are taken, held and at the root stay 2^32 together. While the root has too little, wsplit waits and takes nothing; wret of a group that is no
member of the phaser traps. -/
def Sys2Proof.Claims.DrainShares : Prop :=
  ∀ s g G B L ph m, Scalar s g G → mget s.blocks G.blk = some B → mget s.launches B.launch = some L → G.audit = none → G.comp = none →
    drainOf G = some (ph, m) → ph < 64 → ph < L.desc.pphasers → mget G.memb (64 + ph) = some m → m.ag = (s.ph G (64 + ph)).cur →
    (∀ d, d ≠ 0 → 2 ≤ m.hold → ∃ t G' m', exec (.wsplit d) s = .next t ∧ mget t.groups g = some G' ∧ mget G'.memb (64 + ph) = some m' ∧
      G'.pc = G.pc + 1 ∧ m'.hold = m.hold - m.hold / 2 ∧
      (G'.rs d).toNat = 2 ^ 56 * ph + 2 ^ 32 * (m.ag.toNat % 2 ^ 24) + m.hold / 2 % 2 ^ 32 ∧
      (t.ph G (64 + ph)).root0 = (s.ph G (64 + ph)).root0) ∧
    (∀ d, m.hold < 2 → 2 ≤ (s.ph G (64 + ph)).root0 → ∃ t G' m', exec (.wsplit d) s = .next t ∧ mget t.groups g = some G' ∧ mget G'.memb (64 + ph) = some m' ∧
      let grant := min (2 ^ 16) (s.ph G (64 + ph)).root0
      (t.ph G (64 + ph)).root0 = (s.ph G (64 + ph)).root0 - grant ∧ m'.hold = m.hold + grant - (m.hold + grant) / 2 ∧ G'.pc = G.pc + 1) ∧
    (∀ d, m.hold + min (2 ^ 16) (s.ph G (64 + ph)).root0 < 2 → exec (.wsplit d) s = .next s) ∧
    (∀ a q, (G.rs a).toNat / 2 ^ 56 = q → mget G.memb (64 + q) = none → exec (.wret a) s = .next (trapS s g 0x01)) ∧
    (∀ a n, (G.rs a).toNat = 2 ^ 56 * ph + 2 ^ 32 * (m.ag.toNat % 2 ^ 24) + n → 0 < n → n < 2 ^ 32 → m.drain = true →
      ∃ t G' m', exec (.wret a) s = .next t ∧ mget t.groups g = some G' ∧ mget G'.memb (64 + ph) = some m' ∧ m'.hold = m.hold + n ∧ G'.pc = G.pc + 1 ∧
        G'.sreg = G.sreg)

/-- R205, R206: phdrain arrives and makes its phase a drain phase; its holding goes back to the root. -/
def Sys2Proof.Claims.DrainArrival : Prop :=
  ∀ s g G B L d a b k m, Scalar s g G → mget s.blocks G.blk = some B → mget s.launches B.launch = some L → Sorted s.groups →
    NamesPhaser s G a true k → mget G.memb k = some m → m.mode = .sw → (∀ p i q, G.wait ≠ .arrived p i q) →
    let p := s.ph G k
    let n := (G.rs b).toNat
    p.broken = false → m.ag = p.cur → 0 < n → n < 2 ^ 16 → (p.expect = none ∨ p.expect = some n) → unacked s (scalarEarlier s G) = [] →
    p.arr + 1 < n → (m.drain = true → p.root0 + m.hold ≤ 2 ^ 32) → p.root1 ≤ 2 ^ 32 → p.root0 ≤ 2 ^ 32 →
    ∃ t G' m', exec (.phdrain d a b) s = .next t ∧ mget t.groups g = some G' ∧ mget G'.memb k = some m' ∧ t.mem = s.mem ∧
      (t.ph G k).drain = true ∧ (t.ph G k).arr = p.arr + 1 ∧ (t.ph G k).cur = p.cur ∧ m'.ag = m.ag + 1 ∧ m'.hold = 0 ∧
      (t.ph G k).root0 = (if m.drain then p.root0 + m.hold else p.root0) ∧ G'.wait = .arrived true (k - 64) m.ag

/-- R205 to R208: the weight units of drain phases. -/
def Obligations.DrainWeights : Prop := Sys2Proof.Claims.DrainShares ∧ Sys2Proof.Claims.DrainArrival


namespace Sys2Proof.Claims

/-! ### Launches (R292 to R311) -/

/-- Group `g` is a group of launch `l` of its own: of a block that is no compensation and no replay of an audit (R292, R324, R380). -/
def OfLaunch (s : State) (l g : Nat) (G : Group) : Prop :=
  mget s.groups g = some G ∧ ∃ B, mget s.blocks G.blk = some B ∧ B.launch = l ∧ B.comp = none ∧ B.audit = none

/-- The group stands at the launch's wrap-up entry (R302): scalar stream there, wrapflag set, call stack empty, runs gone. -/
def Diverted (G : Group) (L : Launch) : Prop :=
  G.ov = L.desc.wrapov ∧ G.pc = L.desc.wrapent ∧ G.wrapflag = true ∧ G.calls = [] ∧ G.runs = [] ∧ G.splits = [] ∧ G.trapMode = none

end Sys2Proof.Claims

/-- R286, R294, R295, R32, R33, R69, R70, R176: BLOCK_START. Once no tile operation that nothing reads can write there any more, the block takes its core and a scratch area that reads as zero with empty full/empty bits; its
groups are PLACED at the root entry with s1 to s6, zero counters and predicates, every lane active; memory outside the area is as before.
The offset and the partitions are free (log 18), and what no rule gives a group at its start is log 19. -/
def Sys2Proof.Claims.BlockStarts : Prop :=
  ∀ s b B L off, mget s.blocks b = some B → mget s.launches B.launch = some L → B.st = .waiting → B.comp = none → B.audit = none →
    L.starts = true → behind s L (blockCores B.wide B.core) = false → placeFor s L b B B.core = some (B.core, off) →
    tilesQuiet s b (blockCores B.wide B.core) = true →
    ∃ t B', exec (.blockStart b) s = .next t ∧ mget t.blocks b = some B' ∧ B'.st = .loading ∧ B'.core = B.core ∧ B'.scrOff = off ∧
      (∀ c ∈ blockCores B.wide B.core, ∀ i < L.desc.scratch, memRead t.mem (scrLoc c (off + i)) = 0 ∧
        ((off + i) % 4 = 0 → scrLoc c (off + i) / 4 ∉ t.full)) ∧
      (∀ a, (∀ c ∈ blockCores B.wide B.core, a < scrLoc c off ∨ scrLoc c off + L.desc.scratch ≤ a) → memRead t.mem a = memRead s.mem a) ∧
      ∀ i < L.desc.groups, ∃ g G, mget t.groups g = some G ∧ G.blk = b ∧ G.idx = i ∧ G.st = .placed ∧ G.n = L.desc.regs ∧
        G.core = (if B.wide then B.core / 4 * 4 + i % 4 else B.core) ∧ G.ov = L.desc.rootov ∧ G.pc = L.desc.rootent ∧
        G.rs 1 = L.desc.args ∧ G.rs 2 = BitVec.ofNat 64 B.lin ∧ G.rs 3 = BitVec.ofNat 64 L.blockcnt ∧ G.rs 4 = BitVec.ofNat 64 i ∧
        G.rs 5 = BitVec.ofNat 64 L.desc.groups ∧ G.rs 6 = BitVec.ofNat 64 off ∧ (∀ r : SReg, 7 ≤ r.toNat → G.rs r = 0) ∧
        (∀ r, G.rv r = lanesZero) ∧ G.creg = 0 ∧ G.preg = [] ∧ G.hreg = [] ∧ G.cld = 0 ∧ G.cst = 0 ∧ G.ccp = 0 ∧ G.ctl = 0 ∧
        G.laneact = Mask.all ∧ G.memmask = Mask.all ∧ G.faultmask = 0 ∧ G.lanedone = 0 ∧ G.vote = 0 ∧ G.wrapflag = false ∧ G.runs = [] ∧
        G.memb = [(0, { mode := .sw, ag := 0, drain := false })]

/-- R69, R193: GROUP_START. A PLACED group whose fixed overlays are loaded runs in its entry's overlay, and its block has started. That its accesses come
after every write performed before is log 61. -/
def Sys2Proof.Claims.GroupStarts : Prop :=
  ∀ s g G B, mget s.groups g = some G → mget s.blocks G.blk = some B → G.st = .placed →
    (B.st = .loading ∨ B.st = .started → fixedReady s B = true → G.comp = none →
      ∃ t B', exec (.groupStart g) s = .next t ∧
        mget t.groups g = some { G with st := .running, copy := fixedCopy s G G.ov, ord := G.ord.gain { view := { upto := s.wcount } } } ∧
        mget t.blocks G.blk = some B' ∧ B'.st = .started ∧ t.mem = s.mem) ∧
    (fixedReady s B = false → exec (.groupStart g) s = .next s)

/-- R33, R69, R193, R286, R294, R295: a block takes its place, and its groups start. -/
def Obligations.BlocksAndGroupsStart : Prop := Sys2Proof.Claims.BlockStarts ∧ Sys2Proof.Claims.GroupStarts

/-- R296 to R299, R325: disp asks the dispenser and waits; a request is answered by the head of the return queue, else the next tile, else -1; after
wrap time, and at the test trigger, which is then the launch's wrap time, -2; the answer goes to s_d, also where wrap time diverts the group at once; disp of a
compensation returns -1 and asks nobody. -/
def Sys2Proof.Claims.TilesDispensed : Prop :=
  (∀ s g G d, Scalar s g G → G.comp ≠ none → G.wait = .none → Becomes (.disp d) s g (past (G.ws d 0xFFFFFFFFFFFFFFFF) 1)) ∧
  ∀ s g G B L d, Scalar s g G → mget s.blocks G.blk = some B → mget s.launches B.launch = some L → B.comp = none → B.audit = none → G.comp = none → G.audit = none →
    (∀ x, G.wait = .dispAnswer x → Becomes (.disp d) s g (past ({ G with wait := .none }.ws d x) 1)) ∧
    (G.wait = .none → ∃ t G', exec (.disp d) s = .next t ∧ mget t.groups g = some G' ∧ G' = { G with wait := .dispSent, tile := none } ∧ t.mem = s.mem) ∧
    (G.wait = .dispSent →
      let ask := exec (.dispenserRequest g) s
      let answers (x : Word) : Prop := ∃ t G', ask = .next t ∧ mget t.groups g = some G' ∧ G' = { G with wait := .dispAnswer x, tile := G'.tile }
      let trigger : Prop := L.desc.flags.getLsbD 3 = true ∧ L.handed = L.desc.wrapafter ∧ L.desc.wrapafter < L.desc.tilespace
      exec (.disp d) s = .next s ∧
      (L.dispWrapped = true → answers 0xFFFFFFFFFFFFFFFE) ∧
      (L.dispWrapped = false → ¬ trigger →
        (∀ x rest, L.returns = x :: rest → answers (BitVec.ofNat 64 x) ∧
          ∃ t L', ask = .next t ∧ mget t.launches B.launch = some L' ∧ L'.returns = rest ∧ L'.handed = L.handed + 1 ∧ L'.next = L.next) ∧
        (L.returns = [] → L.next < L.desc.tilespace → answers (BitVec.ofNat 64 L.next) ∧
          ∃ t L', ask = .next t ∧ mget t.launches B.launch = some L' ∧ L'.next = L.next + 1 ∧ L'.handed = L.handed + 1) ∧
        (L.returns = [] → L.desc.tilespace ≤ L.next → answers 0xFFFFFFFFFFFFFFFF)) ∧
      (L.dispWrapped = false → trigger → L.wrapped = none →
        (∃ t L', ask = .next t ∧ mget t.launches B.launch = some L' ∧ L'.wrapped = some s.now ∧ L'.dispWrapped = true ∧ L'.wrap = some s.now) ∧
        (G.wrapflag = true ∨ G.st = .running ∧ G.sect ≠ none → B.st = .started → ∃ t G', ask = .next t ∧ mget t.groups g = some G' ∧
          G'.wait = .dispAnswer 0xFFFFFFFFFFFFFFFE ∧ G'.pc = G.pc ∧ G'.sreg = G.sreg) ∧
        (G.wrapflag = false → G.st = .running → G.sect = none → B.st = .started → ∃ t G', ask = .next t ∧ mget t.groups g = some G' ∧ Diverted G' L ∧ G'.wait = .none ∧
          ∀ c word, s.code G G.ov G.copy = some c → c.loading = false → c.scalarWord G.pc = some word →
            G'.sreg = (G.ws (Decode.fd word) 0xFFFFFFFFFFFFFFFE).sreg)))

/-- R301, R303, R304: the time to a launch's wrap time or deadline; no-divert sections open and close; wupok sets its block's validity bit once its
earlier writes are acknowledged. -/
def Sys2Proof.Claims.DeadlinesSectionsValidity : Prop :=
  ∀ s g G B L d, Scalar s g G → mget s.blocks G.blk = some B → mget s.launches B.launch = some L → B.comp = none → B.audit = none → G.comp = none →
    (∀ dl, let target := if dl then L.deadline else L.wrap
      (∀ x, target = some x → Becomes (.dlqry d dl) s g (past (G.ws d (BitVec.ofInt 64 ((x : Int) - s.now))) 1)) ∧
      (target = none → Becomes (.dlqry d dl) s g (past (G.ws d 0x7FFFFFFFFFFFFFFF) 1))) ∧
    (G.sect = none → Becomes .sndon s g (past { G with sect := some ((s.die (G.core / 16)).clk, 0) } 1) ∧ exec .sndoff s = .next (trapS s g 0x01)) ∧
    (∀ x, G.sect = some x → Becomes .sndoff s g (past { G with sect := none } 1) ∧ exec .sndon s = .next (trapS s g 0x01)) ∧
    (unacked s (scalarEarlier s G) = [] → ∃ t L', exec .wupok s = .next t ∧ mget t.groups g = some (past G 1) ∧ mget t.launches B.launch = some L' ∧
      L'.valid = L.valid ||| ((1 : BitVec 128) <<< B.lin) ∧ t.mem = s.mem) ∧
    (unacked s (scalarEarlier s G) ≠ [] → exec .wupok s = .next s)

/-- R296 to R298, R301, R303, R304: the dispenser, the deadline queries, no-divert sections and validity bits. -/
def Obligations.TilesDeadlinesSections : Prop := Sys2Proof.Claims.TilesDispensed ∧ Sys2Proof.Claims.DeadlinesSectionsValidity

/-- R297, R299, R302, R322: at wrap time the dispenser is WRAPPED, and a running group in no section goes to the wrap-up entry; a disp at which it waits
returns its answer first, -2 where the dispenser has not answered; inside a section, and in actabn, its diversion waits. Before wrap time the event does
nothing. -/
def Sys2Proof.Claims.WrapTimeDiverts : Prop :=
  ∀ s l L w, mget s.launches l = some L → L.st ≠ .complete → L.st ≠ .rolling → L.wrap = some w → L.wrapped = none →
    (s.now < w → exec (.wrapTime l) s = .next s) ∧
    (w ≤ s.now → (∀ x, L.deadline = some x → s.now < x) →
      ∃ t L', exec (.wrapTime l) s = .next t ∧ mget t.launches l = some L' ∧ L'.dispWrapped = true ∧ L'.wrapped = some s.now ∧ t.mem = s.mem ∧
      ∀ g G B, OfLaunch s l g G → G.wrapflag = false → G.st = .running → mget s.blocks G.blk = some B → B.st = .started →
        (G.sect = none → G.wait ≠ .abandoned → ∃ G', mget t.groups g = some G' ∧ Diverted G' L ∧ G'.vreg = G.vreg ∧ G'.wait = .none ∧
          (G.wait ≠ .dispSent → (∀ x, G.wait ≠ .dispAnswer x) → G'.sreg = G.sreg) ∧
          ∀ c word, s.code G G.ov G.copy = some c → c.loading = false → c.scalarWord G.pc = some word →
            (G.wait = .dispSent → G'.sreg = (G.ws (Decode.fd word) 0xFFFFFFFFFFFFFFFE).sreg) ∧
            ∀ x, G.wait = .dispAnswer x → G'.sreg = (G.ws (Decode.fd word) x).sreg) ∧
        (G.sect ≠ none ∨ G.wait = .abandoned → ∃ G', mget t.groups g = some G' ∧ G'.divertDue = true ∧ G'.pc = G.pc ∧ G'.wrapflag = false))

/-- R305: at the deadline every group of the launch has ended: EXITED, or KILLED with its handles empty. Memory stays. -/
def Sys2Proof.Claims.DeadlineKills : Prop :=
  ∀ s l L x, mget s.launches l = some L → L.st ≠ .complete → L.st ≠ .rolling → L.deadline = some x →
    (s.now < x → exec (.deadline l) s = .next s) ∧
    (x ≤ s.now → ∃ t, exec (.deadline l) s = .next t ∧ t.mem = s.mem ∧
      ∀ g G B, OfLaunch s l g G → mget s.blocks G.blk = some B → B.st ≠ .loading →
        ∃ G', mget t.groups g = some G' ∧ (G'.st = .exited ∨ G'.st = .killed) ∧ (G.st ≠ .exited → G.st ≠ .killed → G'.st = .killed ∧ G'.hreg = []))

/-- R303: a section that has counted 65536 clocks closes at the next, and the group traps with cause 0x0E at the instruction it was about to
issue.
The meeting with a pending diversion is log 49; the wait of actabn ends first (R322). -/
def Sys2Proof.Claims.SectionOverruns : Prop :=
  ∀ s g G L start c, mget s.groups g = some G → MayTrap s G L → G.sect = some (start, c) → G.st = .running → G.wait ≠ .abandoned → G.divertDue = false →
    let count := (s.die (G.core / 16)).clk - start + c
    (count ≤ 65536 → exec (.sectionOverrun g) s = .next s) ∧
    (65536 < count → ∃ t, exec (.sectionOverrun g) s = .next t ∧ Trapped s t g G L { cause := 0x0E, str := .scalar, ov := G.ov, off := min G.pc (scalarLen s G), bound := true })

/-- R303, R305: after every step no section is open past its clocks but while its group waits in actabn (R322), and every group of a launch whose deadline has
come has ended. -/
def Sys2Proof.Claims.LimitsHoldAfterSteps : Prop :=
  ∀ s t, step s = .next t →
    (∀ g G, mget t.groups g = some G → G.st = .running → G.wait ≠ .abandoned → ∀ x, G.sect = some x → (t.die (G.core / 16)).clk - x.1 + x.2 ≤ 65536) ∧
    ∀ l L x g G, mget t.launches l = some L → L.st ≠ .complete → L.st ≠ .rolling → L.deadline = some x → x ≤ t.now → OfLaunch t l g G →
      G.st = .exited ∨ G.st = .killed

/-- R299, R302, R303, R305: what wrap time, the deadline and an overlong section do to the groups of a launch. -/
def Obligations.TimeLimits : Prop := Sys2Proof.Claims.WrapTimeDiverts ∧ Sys2Proof.Claims.DeadlineKills ∧ Sys2Proof.Claims.SectionOverruns ∧ Sys2Proof.Claims.LimitsHoldAfterSteps

/-- R306: the outcome of a launch that ends is the first row of the table that applies (codes of R358). -/
def Sys2Proof.Claims.LaunchOutcome : Prop :=
  ∀ (s : State) (L : Launch), L.blockcnt ≤ 128 →
    let st := (L.act.bind fun a => mget s.acts a).map (·.st)
    let all : Prop := ∀ i < L.blockcnt, L.valid.getLsbD i = true
    let any : Prop := ∃ i < L.blockcnt, L.valid.getLsbD i = true
    (L.faulted = true → launchOutcome s L = 5) ∧
    (L.faulted = false → st = some .abandoned → launchOutcome s L = 6) ∧
    (L.faulted = false → st = some .stuck → launchOutcome s L = 7) ∧
    (L.faulted = false → st ≠ some .abandoned → st ≠ some .stuck →
      (L.wrapped = none ∨ L.endedLate = false → launchOutcome s L = 0) ∧
      (L.wrapped ≠ none → L.endedLate = true → (all → launchOutcome s L = 1) ∧ (¬ all → any → launchOutcome s L = 2) ∧ (¬ any → 0 < L.blockcnt → launchOutcome s L = 3)))

/-- R292, R309, R92: a launch whose blocks and operations are over is COMPLETE; a rolled-back one is replayed with its validity bits, its dispenser and its
blocks as before their start; slack classes follow the time to wrap time.
That a launch's test wrap trigger is undone by a replay, and what else a replay restores besides the pages, is log 59; that negative slack counts where a launch has
no deadline and its test wrap trigger has fired is the model's choice (log 69). -/
def Sys2Proof.Claims.LaunchEndsAndReplays : Prop :=
  (∀ s l L, mget s.launches l = some L → L.st ≠ .complete → L.st ≠ .rolling →
    (launchOver s l L = true → L.act = none → translate s L.ctx girthCore none L.bitmap { r := false, w := true } ≠ .fatal → ∃ t L', exec (.launchComplete l) s = .next t ∧ mget t.launches l = some L' ∧ L'.st = .complete ∧ L'.phasers = []) ∧
    (launchOver s l L = false → exec (.launchComplete l) s = .next s)) ∧
  (∀ s l L, mget s.launches l = some L → L.st = .rolling → Sorted s.groups → (∀ p ∈ s.ops, p.2.launch = some l → p.2.replays = true) → L.replays < 2 → L.deadline = none →
    ∃ t L', exec (.launchReplay l) s = .next t ∧ mget t.launches l = some L' ∧ L'.st = .admitted ∧ L'.replays = L.replays + 1 ∧ L'.valid = 0 ∧
      L'.wrap = none ∧ L'.wrapped = none ∧ L'.dispWrapped = false ∧ L'.next = 0 ∧ L'.handed = 0 ∧ L'.returns = [] ∧ L'.pages = [] ∧
      (∀ b B, mget s.blocks b = some B → B.launch = l → B.comp = none → B.audit = none →
        ∃ B', mget t.blocks b = some B' ∧ B'.st = .waiting ∧ B'.phasers = [] ∧ B'.progress = none) ∧
      (∀ g G, OfLaunch s l g G → mget t.groups g = none) ∧
      ∀ p cells, L.pages = [(p, cells)] → (cells.map (·.1)).Nodup → (∀ c ∈ cells, c.1 / 4096 = p) →
        (∀ c ∈ cells, memRead t.mem c.1 = c.2) ∧ (∀ a, a / 4096 = p → a ∉ cells.map (·.1) → memRead t.mem a = 0) ∧
        ∀ a, a / 4096 ≠ p → memRead t.mem a = memRead s.mem a) ∧
  ∀ s, ∃ t, exec .slackClassRecompute s = .next t ∧ t.groups = s.groups ∧ t.mem = s.mem ∧
    ∀ l L, mget s.launches l = some L → ∃ L', mget t.launches l = some L' ∧ L' = { L with slack := L'.slack } ∧
      (L.wrap = none → L'.slack = 3) ∧
      (∀ w, L.wrap = some w → w ≤ s.now → L'.slack = 0) ∧
      ∀ w, L.wrap = some w → s.now < w →
        let room := (w - s.now) * L.blockcnt
        let unit := 1000 * L.desc.estimate
        (room < unit → L'.slack = 0) ∧ (unit ≤ room → room < 4 * unit → L'.slack = 1) ∧
        (4 * unit ≤ room → room < 16 * unit → L'.slack = 2) ∧ (16 * unit ≤ room → L'.slack = 3)

/-- R92, R292, R306, R309: the outcome of a launch, its end, its replay and its slack class. -/
def Obligations.LaunchOutcomesAndReplay : Prop := Sys2Proof.Claims.LaunchOutcome ∧ Sys2Proof.Claims.LaunchEndsAndReplays


namespace Sys2Proof.Claims

/-! ### Activities (R315 to R327) -/

/-- Group `G` belongs to activity `a`, whose record is `A` (R315, R324). -/
def InActivity (s : State) (G : Group) (a : Nat) (A : Activity) : Prop := s.actOf G = some (a, A)

/-- The group holds entry `q` of the activity OPEN (R320). -/
def HoldsOpen (A : Activity) (G : Group) (q : Nat) : Prop := G.openEntry = some q ∧ ∃ e ∈ A.entries, e.seq = q ∧ e.st = .open_

/-- The compensation of the entry has neither succeeded nor failed (R320). -/
abbrev Pending (e : StackEntry) : Prop := e.st = .open_ ∨ e.st = .sealed

/-- Entry `e` of activity `a` belongs to an abandonment set (R324). -/
def InSet (s : State) (set a : Nat) (e : StackEntry) : Prop :=
  ∃ A, (a, A) ∈ s.acts ∧ A.set = set ∧ (A.st = .abandoning ∨ A.st = .abandoned) ∧ e ∈ A.entries

/-- A compensation of the entry is under way. -/
def CompRuns (s : State) (a q : Nat) : Prop := ∃ p ∈ s.blocks, p.2.comp = some (a, q) ∧ p.2.st ≠ .ended

end Sys2Proof.Claims

/-- R315, R320 to R322: actopen pushes an OPEN entry with the next sequence number, its four arguments and its budget, and writes the number to s_d;
actseal seals the group's entry once its writes are acknowledged; actend waits while a group of the launch holds an OPEN entry, then ends the activity and
frees its stack; outside an activity each traps. An entry that is SEALED, UNDONE, FAILED or discarded is none that the group holds. -/
def Sys2Proof.Claims.ActivityStack : Prop :=
  ∀ s g G d a commute, Scalar s g G →
    (s.actOf G = none → exec (.actopen d a commute) s = .next (trapS s g 0x01) ∧ exec .actseal s = .next (trapS s g 0x01) ∧
      exec .actend s = .next (trapS s g 0x01) ∧ exec .actabn s = .next (trapS s g 0x01) ∧ exec (.actdep a) s = .next (trapS s g 0x01) ∧
      exec .cmpok s = .next (trapS s g 0x01) ∧ exec (.cmpfail a) s = .next (trapS s g 0x01)) ∧
    ∀ k A, InActivity s G k A → mget s.acts k = some A → G.audit = none →
      (let x := (G.rs a).toNat
       (∀ e, x % 2 ^ 16 < 2 ^ 12 → x / 2 ^ 24 % 2 ^ 8 = 0 → x / 2 ^ 32 ≠ 0 → A.tab[x / 2 ^ 16 % 2 ^ 8]? = some e → x % 2 ^ 12 < e.s →
         slotsOf e ≤ s.workset G → (∀ q, ¬ HoldsOpen A G q) → A.st = .running → A.entries.length < 65536 →
         ∃ t G' A' E, exec (.actopen d a commute) s = .next t ∧ t.actSeq = s.actSeq + 1 ∧ t.mem = s.mem ∧
           mget t.groups g = some G' ∧ G' = past ({ G with openEntry := some s.actSeq }.ws d (BitVec.ofNat 64 s.actSeq)) 1 ∧
           mget t.acts k = some A' ∧ A'.entries.getLast? = some E ∧ E.seq = s.actSeq ∧ E.st = .open_ ∧ E.entry = x % 2 ^ 12 ∧
           E.ov = x / 2 ^ 16 % 2 ^ 8 ∧ E.budget = x / 2 ^ 32 ∧ E.commute = commute ∧
           E.args = [G.rs (a + 1), G.rs (a + 2), G.rs (a + 3), G.rs (a + 4)]) ∧
       ((∃ q, HoldsOpen A G q) ∨ A.st ≠ .running ∨ x / 2 ^ 32 = 0 ∨ x / 2 ^ 24 % 2 ^ 8 ≠ 0 ∨ 65536 ≤ A.entries.length →
         exec (.actopen d a commute) s = .next (trapS s g 0x01))) ∧
      (∀ q, HoldsOpen A G q → unacked s (scalarEarlier s G) = [] →
        ∃ t A', exec .actseal s = .next t ∧ mget t.groups g = some (past { G with openEntry := none } 1) ∧ mget t.acts k = some A' ∧ t.mem = s.mem ∧
          ∀ (i : Nat) (e : StackEntry), A.entries[i]? = some e → A'.entries[i]? = some (if e.seq = q then { e with st := .sealed } else e)) ∧
      ((∀ q, ¬ HoldsOpen A G q) → exec .actseal s = .next (trapS s g 0x01)) ∧
      ((∀ q, ¬ HoldsOpen A G q) ∨ G.wait = .ending → A.st = .running →
        (openHeld s A = false → exec .actend s =
          .next { s with acts := mput s.acts k { A with st := .ended, entries := [] }, groups := mput s.groups g (past { G with wait := .none } 1) }) ∧
        (openHeld s A = true → Becomes .actend s g { G with wait := .ending })) ∧
      (G.wait ≠ .ending → (∃ q, HoldsOpen A G q) ∨ A.st ≠ .running → exec .actend s = .next (trapS s g 0x01)) ∧
      (G.wait = .ending → A.st ≠ .running → Becomes .actend s g (past { G with wait := .none } 1)) ∧
      (G.comp = none → exec .cmpok s = .next (trapS s g 0x01) ∧ exec (.cmpfail a) s = .next (trapS s g 0x01))

/-- R316, R317, R322: actabn by a group of a RUNNING activity makes it ABANDONING; the group waits, its launch's other groups are killed, and once
the activity is ABANDONED the group goes on; when it becomes STUCK instead, the group traps with 0x0D. actdep of an unknown, own or ended activity only advances; of a running one it records the dependence.
What becomes of blocks that have not started is log 48. -/
def Sys2Proof.Claims.ActivityAbandoned : Prop :=
  ∀ s g G d k A, Scalar s g G → InActivity s G k A → mget s.acts k = some A → G.audit = none →
    (A.st = .running → G.wait = .none → G.comp = none → Sorted s.groups →
      ∃ t A', exec .actabn s = .next t ∧ mget t.acts k = some A' ∧ A'.st = .abandoning ∧ A'.entries = A.entries ∧ t.mem = s.mem ∧
        (∃ G', mget t.groups g = some G' ∧ G'.wait = .abandoned ∧ G'.pc = G.pc ∧ G'.st = G.st) ∧
        ∀ h H, h ≠ g → OfLaunch s A.launch h H → H.wait ≠ .abandoned → H.st ≠ .exited →
          ∃ H', mget t.groups h = some H' ∧ H'.st = .killed) ∧
    (G.wait = .abandoned → A.st = .abandoned → Becomes .actabn s g (past { G with wait := .none, openEntry := none } 1)) ∧
    (G.wait = .abandoned → A.st = .stuck → exec .actabn s = .next (trapS s g 0x0D)) ∧
    (A.st = .ended → exec .actabn s = .next (trapS s g 0x01)) ∧
    (G.wait ≠ .abandoned → 0 < (G.rs d).toNat → (G.rs d).toNat < 2 ^ 32 → A.deps.length < 16 →
      ((∀ p ∈ s.acts, ¬ (p.2.ctx = A.ctx ∧ p.2.id.toNat = (G.rs d).toNat)) → Becomes (.actdep d) s g (past G 1)) ∧
      (A.id.toNat = (G.rs d).toNat → (∀ p ∈ s.acts, p.2.ctx = A.ctx → p.2.id = A.id → p.1 = k) → Becomes (.actdep d) s g (past G 1)) ∧
      ∀ j C, mget s.acts j = some C → C.ctx = A.ctx → C.id.toNat = (G.rs d).toNat → (∀ p ∈ s.acts, p.2.ctx = C.ctx → p.2.id = C.id → p.1 = j ∧ p.2 = C) → j ≠ k →
        (C.st = .running → exec (.actdep d) s =
          .next { s with acts := mput s.acts k { A with deps := insNat A.deps j }, groups := mput s.groups g (past G 1) }) ∧
        (C.st = .ended → Becomes (.actdep d) s g (past G 1))) ∧
    (G.wait ≠ .abandoned → (G.rs d).toNat = 0 ∨ 2 ^ 32 ≤ (G.rs d).toNat ∨ 16 ≤ A.deps.length → exec (.actdep d) s = .next (trapS s g 0x01))

/-- R315 to R317, R320 to R322: the instructions of activities. -/
def Obligations.ActivityInstructions : Prop := Sys2Proof.Claims.ActivityStack ∧ Sys2Proof.Claims.ActivityAbandoned

/-- R324: the entry whose compensation starts next is one that is OPEN or SEALED and does not run; every higher-numbered entry of the abandonment set, across its
activities, is UNDONE, or runs while all entries between commute and belong to the same activity. An entry above which all is UNDONE is never passed over for want
of another. -/
def Sys2Proof.Claims.CompensationOrder : Prop :=
  ∀ s k A, mget s.acts k = some A → A.st = .abandoning →
    (∀ j f i h, InSet s A.set j f → InSet s A.set i h → f.seq = h.seq → j = i ∧ f = h) →
    (∀ e, nextComp s k A = some e → e ∈ A.entries ∧ Pending e ∧ ¬ CompRuns s k e.seq ∧
      ∀ j f, InSet s A.set j f → e.seq < f.seq →
        f.st = .undone ∨ CompRuns s j f.seq ∧ ∀ i h, InSet s A.set i h → e.seq < h.seq → h.seq ≤ f.seq → i = k ∧ h.commute = true) ∧
    ∀ e ∈ A.entries, Pending e → ¬ CompRuns s k e.seq → (∀ j f, InSet s A.set j f → e.seq < f.seq → f.st = .undone) → ∃ e', nextComp s k A = some e'

/-- R323 to R325: a compensation group starts with its entry's arguments, sequence number, flags and activity; cmpok makes its entry UNDONE and the
group EXITING; cmpfail makes it FAILED and the group EXITING; at the end of its budget it is FAILED and killed. With a failure every activity of the set that is
being abandoned becomes STUCK and carries the failed entry's reason, number and code; an ABANDONED one stays. -/
def Sys2Proof.Claims.CompensationRuns : Prop :=
  let stuck (s t : State) (A : Activity) (reason q code : Nat) : Prop := ∀ j B, mget s.acts j = some B → B.set = A.set →
    ∃ B', mget t.acts j = some B' ∧
      (∀ (i : Nat) (e : StackEntry), B.entries[i]? = some e → B'.entries[i]? = some (if e.seq = q then { e with st := .failed } else e)) ∧
      (B.st = .abandoning → B'.st = .stuck ∧ B'.reason = reason ∧ B'.seq = q ∧ B'.code.toNat = code ∧ B'.cause = 0) ∧ (B.st = .abandoned → B'.st = .abandoned)
  (∀ s g G k q A, Scalar s g G → G.comp = some (k, q) → mget s.acts k = some A → G.trapMode = none →
    (unacked s (scalarEarlier s G) = [] → ∃ t G' A', exec .cmpok s = .next t ∧ mget t.groups g = some G' ∧ G'.st = .exiting ∧ G'.sreg = G.sreg ∧
      mget t.acts k = some A' ∧ (∀ (i : Nat) (e : StackEntry), A.entries[i]? = some e → A'.entries[i]? = some (if e.seq = q ∧ Pending e then { e with st := .undone, done := G.ord.earlier } else e)) ∧ t.mem = s.mem) ∧
    (∀ r, (G.rs r).toNat < 2 ^ 16 → A.st = .abandoning → (∃ e ∈ A.entries, e.seq = q ∧ Pending e) → ∃ t G', exec (.cmpfail r) s = .next t ∧ mget t.groups g = some G' ∧ G'.st = .exiting ∧
      stuck s t A 3 q (G.rs r).toNat ∧ t.mem = s.mem) ∧
    (∀ r, 2 ^ 16 ≤ (G.rs r).toNat → exec (.cmpfail r) s = .next (trapS s g 0x01))) ∧
  (∀ s g G k q A B x e, mget s.groups g = some G → G.comp = some (k, q) → mget s.acts k = some A → A.st = .abandoning → mget s.blocks G.blk = some B →
    B.budgetEnd = some x → e ∈ A.entries → e.seq = q → Pending e → G.compDone = false → G.st ≠ .exited → G.st ≠ .killed →
    (s.now < x → exec (.compensationBudgetExpire g) s = .next s) ∧
    (x ≤ s.now → ∃ t G', exec (.compensationBudgetExpire g) s = .next t ∧ mget t.groups g = some G' ∧ G'.st = .killed ∧ stuck s t A 2 q 0 ∧ t.mem = s.mem)) ∧
  ∀ s k A e L core off, mget s.acts k = some A → mget s.launches A.launch = some L → A.st = .abandoning → setDrained s A.set = true →
    nextComp s k A = some e → e.bad = false →
    (let B : Block := { Block.empty A.launch 0 core false with comp := some (k, e.seq) }
     let s' : State := { s with nextId := s.nextId + 1 }
     coreOk s' core = true → A.desc.level ≤ s'.level core → tilesQuiet s' s.nextId [core] = true → placeFor s' L s.nextId B core = some (core, off) →
     ∃ t g G, exec (.compensationStart k core) s = .next t ∧ mget t.groups g = some G ∧ G.blk = s.nextId ∧ G.st = .placed ∧ G.comp = some (k, e.seq) ∧
       G.ov = e.ov ∧ G.pc = e.entry ∧ G.core = core ∧ (∀ i < 4, G.rs (BitVec.ofNat 7 (i + 1)) = e.args.getD i 0) ∧ G.rs 5 = BitVec.ofNat 64 e.seq ∧
       G.rs 6 = BitVec.ofNat 64 off ∧ G.rs 7 = BitVec.ofNat 64 ((if e.st = .open_ then 1 else 0) + if e.commute then 2 else 0) ∧
       G.rs 8 = BitVec.ofNat 64 A.id.toNat)

/-- R323 to R325: compensations, their failure and their order. What orders a compensation after those that are UNDONE is log 61. -/
def Obligations.Compensation : Prop := Sys2Proof.Claims.CompensationRuns ∧ Sys2Proof.Claims.CompensationOrder

/-- R94, R95, R277: a retry of a rejected access or of a missing translation changes nothing that a program sees; the head of a queue that has been
blocked for 512 clocks by a full queue sends a probe token there, which goes down the blocked queues, is dropped at one that is not blocked, and grants the one
reserve entry at its origin. When a queue drains, the lent entry is back, or its head is blocked no more.
Which queues block, and when, is free (log 56). -/
def Sys2Proof.Claims.RetriesAndProbes : Prop :=
  (∀ s op accepted, exec (.rejectedAccessRetry op accepted) s = .next s) ∧
  (∀ s cl miss accepted, exec (.translationMissRetry cl miss accepted) s = .next s) ∧
  (∀ s q j, jamOf s q = some j → j ∈ s.jams ∧ j.q = q ∧ (∀ g G, q = .laneRuns g → mget s.groups g = some G → G.runs ≠ []) ∧
    ∀ g G, j.down = .laneRuns g → mget s.groups g = some G → 8 ≤ G.runs.length) ∧
  (∀ s q down,
    (jamOf s q = none → exec (.queueBlockTimeout q down) s = .next s) ∧
    ∀ j, jamOf s q = some j →
      (j.down = down → j.since + 512 ≤ queueClk s q → (∀ p ∈ s.probes, p.origin ≠ q) →
        exec (.queueBlockTimeout q down) s = .next { s with probes := s.probes ++ [{ origin := q, at_ := down }] }) ∧
      (j.down ≠ down ∨ queueClk s q < j.since + 512 → exec (.queueBlockTimeout q down) s = .next s)) ∧
  (∀ s k next p, s.probes[k]? = some p →
    (p.at_ = p.origin →
      (p.origin ∉ s.reserve → jamOf s p.origin ≠ none →
        exec (.probeToken k next) s =
          .next { s with probes := s.probes.eraseIdx k, reserve := s.reserve ++ [p.origin], jams := s.jams.filter fun j => j.q != p.origin }) ∧
      (p.origin ∈ s.reserve ∨ jamOf s p.origin = none → exec (.probeToken k next) s = .next { s with probes := s.probes.eraseIdx k })) ∧
    (p.at_ ≠ p.origin → ∀ j, jamOf s p.at_ = some j → next = some j.down →
      exec (.probeToken k next) s = .next { s with probes := s.probes.set k { p with at_ := j.down } }) ∧
    (p.at_ ≠ p.origin → jamOf s p.at_ = none → next = none → exec (.probeToken k next) s = .next { s with probes := s.probes.eraseIdx k })) ∧
  ∀ s q, (q ∈ s.reserve → queueMoves s q = { s with reserve := s.reserve.filter fun r => r != q }) ∧
    (q ∉ s.reserve → queueMoves s q = { s with jams := s.jams.filter fun j => j.q != q })

/-- R93: a stream that has been ready for 64 slots and has not issued stands before the others of its partition until it does, the oldest first; else a lower
slack class stands before a higher, a yield of 256 clocks behind them all, and within a class the stream that has been ready longer. A stream that is not ready is
not picked. When a stream is ready, and that of two that are equal in all this either goes, is log 75. -/
def Sys2Proof.Claims.IssueOrder : Prop :=
  (∀ s g G x, mget s.groups g = some G → G.yieldAt = some x →
    (x + 256 ≤ (s.die (G.core / 16)).clk → Becomes (.syieldWindowExpiry g) s g { G with yieldAt := none }) ∧
    ((s.die (G.core / 16)).clk < x + 256 → exec (.syieldWindowExpiry g) s = .next s)) ∧
  (let old (s : State) (K : Group) (u : Stream) (x : Nat) : Prop := u ∈ K.aged ∨ x + 64 ≤ (s.die (K.core / 16)).clk
   (∀ s g G str, G.readyOf str = none → picked s g G str = false) ∧
   (∀ s g G str r h H t q, G.readyOf str = some r → (h, H, t) ∈ candidates s G.core G.part → (h ≠ g ∨ t ≠ str) → H.readyOf t = some q →
     (¬ old s G str r → old s H t q → picked s g G str = false) ∧
     (old s G str r → old s H t q → q < r → picked s g G str = false) ∧
     (¬ old s G str r → ¬ old s H t q → rankOf s H < rankOf s G ∨ rankOf s H = rankOf s G ∧ q < r → picked s g G str = false)) ∧
   (∀ s g G str r, G.readyOf str = some r →
     (∀ h H t, (h, H, t) ∈ candidates s G.core G.part → h ≠ g ∨ t ≠ str → ∀ q, H.readyOf t = some q →
       (old s G str r ∧ (¬ old s H t q ∨ r ≤ q)) ∨
       (¬ old s G str r ∧ ¬ old s H t q ∧ (rankOf s G < rankOf s H ∨ rankOf s G = rankOf s H ∧ r ≤ q))) → picked s g G str = true)) ∧
  (∀ s (G : Group) L, s.launch? G = some L →
    ((∀ x, G.yieldAt = some x → x + 256 ≤ (s.die (G.core / 16)).clk) → rankOf s G = L.slack) ∧
    (∀ x, G.yieldAt = some x → (s.die (G.core / 16)).clk < x + 256 → rankOf s G = 4)) ∧
  (∀ s g G (k : Option Nat), mget s.groups g = some G →
    let str : Stream := match k with
      | none => .scalar
      | some n => .split n
    (G.readyOf str = none → exec (.ageingFloor g k) s = .next s) ∧
    ∀ r, G.readyOf str = some r →
      (str ∉ G.aged → r + 64 ≤ (s.die (G.core / 16)).clk → Becomes (.ageingFloor g k) s g { G with aged := G.aged ++ [str] }) ∧
      (str ∈ G.aged ∨ (s.die (G.core / 16)).clk < r + 64 → exec (.ageingFloor g k) s = .next s)) ∧
  ∀ s t g G, step s = .next t → mget t.groups g = some G → G.ready ≠ none → scalarMay t G = true ∧ G.free ≤ (t.die (G.core / 16)).clk

/-- R93 to R95, R277: retries, probe tokens, and the order in which the streams of a partition issue. -/
def Obligations.RetriesProbesAndFloors : Prop := Sys2Proof.Claims.RetriesAndProbes ∧ Sys2Proof.Claims.IssueOrder

namespace Sys2Proof.Claims

/-! ### Packets and records (R274, R289 to R295, R308, R315, R326, R348 to R360, R385, R390) -/

/-- The ostler's step is at a packet that queue `q`, whose state is `Q`, took as its number `idx`. -/
def AtPacket (s : State) (q : Nat) (Q : Queue) (idx : Nat) : Prop :=
  s.turn = .ostler ∧ s.batch.head? = some q ∧ mget s.queues q = some Q ∧ ∃ w, Q.taken = some (idx, w)

/-- The completion ring of a queue has room, lies with its control block in memory that the ostler may write, and the two do not overlap. -/
abbrev RingReady (s : State) (Q : Queue) : Prop :=
  Q.held = [] ∧ Q.cwr ≠ s.read (Q.ctl + 32) 8 + 2 ^ Q.cslots ∧
  (∀ i < 64, paClass (Q.ctl + i) ≠ 1) ∧ (∀ i < 16 * 2 ^ Q.cslots, paClass (Q.cring + i) ≠ 1) ∧
  ∀ i < 16 * 2 ^ Q.cslots, ∀ j < 64, Q.cring + i ≠ Q.ctl + j

/-- A byte of a queue's completion ring or control block. -/
abbrev OfRing (Q : Queue) (a : Nat) : Prop := (Q.cring ≤ a ∧ a < Q.cring + 16 * 2 ^ Q.cslots) ∨ (Q.ctl ≤ a ∧ a < Q.ctl + 64)

/-- The record of R358 stands in the entry of the ring that cwr named, cwr has moved, and elsewhere memory is `mem`. -/
def Recorded (t : State) (q : Nat) (Q : Queue) (tag : BitVec 32) (code outcome : Nat) (mem : List Host.Cell) : Prop :=
  let a := Q.cring + 16 * (Q.cwr % 2 ^ Q.cslots)
  t.read a 8 = tag.toNat + 2 ^ 32 * outcome + 2 ^ 40 * code ∧ t.read (a + 8) 8 = 0 ∧ t.read (Q.ctl + 24) 8 = (Q.cwr + 1) % 2 ^ 64 ∧
  (∃ Q', mget t.queues q = some Q' ∧ Q'.cwr = Q.cwr + 1 ∧ Q'.taken = none) ∧ ∀ a, ¬ OfRing Q a → memRead t.mem a = memRead mem a

/-- `i`, the head packet, with no other packet open, completes at once with `outcome`, memory being `mem` apart from its record. -/
def CompletesAs (i : Instr) (s : State) (q : Nat) (Q : Queue) (h : PktHdr) (code outcome : Nat) (mem : List Host.Cell) : Prop :=
  ∃ t, exec i s = .next t ∧ Recorded t q Q h.tag code outcome mem ∧ t.pkts = [] ∧ t.batch = s.batch.tail ∧ t.groups = s.groups

/-- `i`, the head packet, stays open with the body `b`. -/
def StaysOpen (i : Instr) (s : State) (q : Nat) (Q : Queue) (idx : Nat) (h : PktHdr) (code : Nat) (b : PBody) : Prop :=
  ∃ t P, exec i s = .next t ∧ mget t.pkts (q * 2 ^ 64 + idx) = some P ∧ P.body = b ∧ P.q = q ∧ P.idx = idx ∧ P.code = code ∧ P.tag = h.tag ∧
    P.ctx = Q.ctx ∧ t.mem = s.mem ∧ t.groups = s.groups ∧ t.batch = s.batch.tail ∧ ∃ Q', mget t.queues q = some Q' ∧ Q'.taken = none

/-- Virtual address `va` of context `ctx` translates, at the Girth, to `pa` (R268, R390). -/
abbrev GirthPa (s : State) (ctx va : Nat) (need : Need) (pa : Nat) : Prop := va < 2 ^ 48 ∧ translate s ctx girthCore none va need = .ok pa

/-- Bytes `off` to `off + n - 1`, little-endian, of 8-byte words that stand one after the other. -/
def wordsField (ws : List Nat) (off n : Nat) : Nat := ws.foldr (fun w x => w + 2 ^ 64 * x) 0 / 2 ^ (8 * off) % 2 ^ (8 * n)

/-- The descriptor that 16 words hold, each field at its bytes (R289). -/
def Describes (ws : List Nat) (D : LDesc) : Prop :=
  let f := wordsField ws
  D.table = f 0 8 ∧ D.tablelen = f 8 2 ∧ D.regs = f 10 2 ∧ D.groups = f 12 2 ∧ D.pphasers = f 14 2 ∧ D.scratch = f 16 4 ∧ D.level = f 20 1 ∧ D.acctiles = f 21 1 ∧
  D.workset = f 22 2 ∧ D.rootov = f 24 2 ∧ D.rootent = f 26 2 ∧ D.trapov = f 28 2 ∧ D.trapent = f 30 2 ∧ D.wrapov = f 32 2 ∧ D.wrapent = f 34 2 ∧
  D.flags.toNat = f 36 4 ∧ D.args.toNat = f 40 8 ∧ D.tilespace = f 48 4 ∧ D.wrapafter = f 52 4 ∧ D.deadline = f 56 8 ∧ D.wrapbudget = f 64 8 ∧
  D.estimate = f 72 4 ∧ D.audit = f 76 1 ∧ D.snaplist = f 80 8 ∧ D.snapcount = f 88 2

/-- Every field of a descriptor lies in its range, and what is to be zero is zero (R289). -/
def InRanges (ws : List Nat) (D : LDesc) : Prop :=
  D.table % 32 = 0 ∧ (1 ≤ D.tablelen ∧ D.tablelen ≤ 256) ∧ (8 ≤ D.regs ∧ D.regs ≤ 2048 ∧ D.regs % 8 = 0) ∧ (1 ≤ D.groups ∧ D.groups ≤ 128) ∧ D.pphasers ≤ 256 ∧
  (D.scratch ≤ 1572864 ∧ D.scratch % 64 = 0) ∧ (D.level = 2 ∨ D.level = 3) ∧ D.acctiles ≤ 64 ∧ (1 ≤ D.workset ∧ D.workset ≤ 256) ∧ D.flags.toNat < 16 ∧
  1 ≤ D.tilespace ∧ (D.flags.getLsbD 3 = false → D.wrapafter = 0) ∧ (1 ≤ D.deadline ∧ D.deadline ≤ 2 ^ 47 ∨ D.deadline = 2 ^ 63 - 1) ∧ 1 ≤ D.estimate ∧
  D.audit ≤ 16 ∧ (D.flags.getLsbD 1 = false → D.audit = 0) ∧ wordsField ws 77 3 = 0 ∧ D.snaplist % 64 = 0 ∧
  (D.flags.getLsbD 2 = true → 1 ≤ D.snapcount ∧ D.snapcount ≤ 16) ∧ (D.flags.getLsbD 2 = false → D.snaplist = 0 ∧ D.snapcount = 0) ∧ wordsField ws 90 38 = 0

/-- The entry points of a descriptor lie in their overlays, its working set holds the fixed ones, and its wrap budget is less than a finite deadline (R290). -/
def EntriesFit (s : State) (ctx : Nat) (tab : List OvEntry) (D : LDesc) : Prop :=
  (∀ p ∈ [(D.rootov, D.rootent), (D.trapov, D.trapent), (D.wrapov, D.wrapent)], ∃ e, tab[p.1]? = some e ∧ p.2 < e.s) ∧
  fixedSlots s ctx tab D ≤ D.workset ∧ (D.deadline ≠ 2 ^ 63 - 1 → D.wrapbudget < D.deadline)

/-- Core `c` is eligible for a launch of an interface (R293). -/
def Eligible (s : State) (D : LDesc) (vif c : Nat) : Prop :=
  (s.die (c / 16)).st = .hitched ∧ D.level ≤ s.level c ∧ c ∉ s.fencedCores ∧
  ∃ V, mget s.vifs vif = some V ∧ V.quota.clusters.getLsbD (c / 4) = true ∧ D.workset ≤ V.quota.slots.getD c 0

/-- The core-µs that are left for launches with a wrap time after now and not after `w` (R357). -/
def leftUntil (now w : Nat) (ls : List Launch) : ℚ :=
  ((ls.filter fun L => L.wrap.any fun x => decide (now < x ∧ x ≤ w)).map fun L =>
    ((L.desc.estimate * (L.desc.tilespace - L.done) : Nat) : ℚ) / (L.desc.tilespace : ℚ)).sum

end Sys2Proof.Claims

/-- R354, R356, R358, R390: NOP, SIGNAL, WAIT_WORD, COPY and QUEUE_BARRIER: complete at once, or stay open; a field out of its rule completes
REFUSED; what ends an open COPY or WAIT_WORD. -/
def Obligations.SimplePackets : Prop :=
  (∀ s q Q idx (h : PktHdr), AtPacket s q Q idx → s.pkts = [] → RingReady s Q →
    CompletesAs (.nop h) s q Q h 0 0 s.mem ∧
    (∀ addr value add pa, addr.toNat % 8 = 0 → GirthPa s Q.ctx addr.toNat { r := add, w := true } pa → ostlerMay s pa = true → hostHeld s pa = false →
      (∀ i < 8, ¬ OfRing Q (pa + i)) →
      CompletesAs (.signal h addr value add) s q Q h 4 0 (writeLE s.mem pa 8 (if add then s.read pa 8 + value.toNat else value.toNat))) ∧
    (∀ addr value add, addr.toNat % 8 ≠ 0 → CompletesAs (.signal h addr value add) s q Q h 4 4 s.mem) ∧
    (∀ (b : WaitBody) pa v, b.addr.toNat % 8 = 0 → GirthPa s Q.ctx b.addr.toNat { r := true, w := false } pa → ostlerMay s pa = true →
      scalarRel b.rel (BitVec.ofNat 64 (s.read pa 8) &&& b.mask) b.value = some v →
      (v = true → CompletesAs (.waitWord h b) s q Q h 5 0 s.mem) ∧
      (v = false → StaysOpen (.waitWord h b) s q Q idx h 5 (.wait b s.now))) ∧
    (∀ b : WaitBody, b.addr.toNat % 8 ≠ 0 → CompletesAs (.waitWord h b) s q Q h 5 4 s.mem) ∧
    (∀ dst src len, 2 ^ 40 < len.toNat → CompletesAs (.copy h dst src len) s q Q h 3 4 s.mem) ∧
    (∀ mask : Word, 2 ^ ((mget s.vifs Q.vif).map (·.quota.queues)).getD 0 ≤ mask.toNat → CompletesAs (.queueBarrier h mask) s q Q h 10 4 s.mem) ∧
    ∀ mask : Word, mask.toNat < 2 ^ ((mget s.vifs Q.vif).map (·.quota.queues)).getD 0 → (∀ p ∈ s.queues, p.1 ≠ q → p.2.taken = none) →
      CompletesAs (.queueBarrier h mask) s q Q h 10 0 s.mem) ∧
  (∀ s q Q idx (h : PktHdr), AtPacket s q Q idx →
    (∀ dst src len, len.toNat ≤ 2 ^ 40 →
      StaysOpen (.copy h dst src len) s q Q idx h 3 (.copy s.nextId) ∧
      ∃ t o c, exec (.copy h dst src len) s = .next t ∧ mget t.ops s.nextId = some o ∧ o.body = .copy c ∧ o.grp = none ∧ o.ctx = Q.ctx ∧
        c.kind = .packet ∧ c.dst = dst.toNat ∧ c.src = src.toNat ∧ c.len = len.toNat ∧ c.done = 0) ∧
    ∀ (mask : Word) p P, mask.toNat < 2 ^ ((mget s.vifs Q.vif).map (·.quota.queues)).getD 0 → Sorted s.pkts → mget s.pkts p = some P → p ≠ q * 2 ^ 64 + idx →
      (∀ l, P.body ≠ .barrier l) → (P.q = q ∨ ∃ i < 64, mask.getLsbD i = true ∧ P.q = 64 * Q.vif + i ∧ ∃ N, mget s.queues P.q = some N ∧ N.bound = true) →
      ∃ t P' l, exec (.queueBarrier h mask) s = .next t ∧ mget t.pkts (q * 2 ^ 64 + idx) = some P' ∧ P'.body = .barrier l ∧ p ∈ l) ∧
  ∀ s p P q Q, s.pkts = [(p, P)] → P.q = q → mget s.queues q = some Q → Q.taken = none → RingReady s Q →
    let ends (i : Instr) (outcome : Nat) : Prop := ∃ t, exec i s = .next t ∧ t.pkts = [] ∧ (P.code < 256 → Recorded t q Q P.tag P.code outcome s.mem)
    (∀ k o c, P.body = .copy k → mget s.ops k = some o → o.body = .copy c → o.grp = none → c.kind = .packet → c.cmds = cmdsOf c → c.sent = c.cmds → c.fail = none → c.cancel = false →
      (c.done = c.len → ends (.copyPacketComplete p) 0) ∧ (c.done < c.len → exec (.copyPacketComplete p) s = .next s)) ∧
    ∀ (b : WaitBody) since, P.body = .wait b since →
      (b.timeout ≠ 0 → since + b.timeout.toNat ≤ s.now → ends (.waitWordTimeout p) 3) ∧
      (b.timeout = 0 ∨ s.now < since + b.timeout.toNat → exec (.waitWordTimeout p) s = .next s) ∧
      ∀ pa v, P.hold = none → GirthPa s P.ctx b.addr.toNat { r := true, w := false } pa → ostlerMay s pa = true →
        scalarRel b.rel (BitVec.ofNat 64 (s.read pa 8) &&& b.mask) b.value = some v →
        (v = true → ends (.waitWordSatisfied p) 0) ∧ (v = false → exec (.waitWordSatisfied p) s = .next s)

/-- R289, R290, R308: which descriptors pass as the ostler takes the packet: those with every field in its range, a readable table whose overlays hold the entry
points, a working set for the fixed overlays, a wrap budget below a finite deadline, and a bitmap address that can be written. -/
def Sys2Proof.Claims.DescriptorsChecked : Prop :=
  ∀ s ctx (b : LaunchBody) act,
    (∀ look, lookLaunch s ctx b act = .ok look → b.desc.toNat % 64 = 0 ∧ b.bitmap.toNat % 16 = 0 ∧
      (∃ pa, GirthPa s ctx b.bitmap.toNat { r := false, w := true } pa) ∧
      ∃ ws, readWords s ctx b.desc.toNat 16 = .ok ws ∧ Describes ws look.desc ∧ InRanges ws look.desc ∧ (act = true → look.desc.flags.getLsbD 2 = false) ∧
        readTable s ctx look.desc.table look.desc.tablelen = .ok look.tab ∧ EntriesFit s ctx look.tab look.desc) ∧
    ∀ ws D tab pa, b.desc.toNat % 64 = 0 → b.bitmap.toNat % 16 = 0 → GirthPa s ctx b.bitmap.toNat { r := false, w := true } pa →
      readWords s ctx b.desc.toNat 16 = .ok ws → Describes ws D → InRanges ws D → D.flags.getLsbD 2 = false → readTable s ctx D.table D.tablelen = .ok tab →
      EntriesFit s ctx tab D → ∃ look, lookLaunch s ctx b act = .ok look ∧ look.desc = D ∧ look.tab = tab

/-- R293 to R295, R357: which launches are admitted, and where: the block is narrow if its vector registers fit one core, else wide; its cores are all that are
eligible, in ascending order; the quotas of the interface hold, and with a finite deadline the test of R357. -/
def Sys2Proof.Claims.LaunchesAdmitted : Prop :=
  ∀ s q Q (h : PktHdr) key (b : LaunchBody) idx look, Q.look.launch = some look → (∀ p ∈ s.launches, 1 ≤ p.2.desc.tilespace) → 1 ≤ look.desc.tilespace →
    let D := look.desc
    let vif := Q.ctx / 64
    let heap := (s.launches.filter fun p => p.2.st != .complete).map (·.2)
    let mine := heap.filter (·.vif == vif)
    let up := ((List.range 128).filter fun c => (s.die (c / 16)).st == .hitched && !s.fencedCores.contains c &&
      ((mget s.vifs vif).map fun V => V.quota.clusters.getLsbD (c / 4)).getD false).length
    let fits (V : Vif) : Prop := mine.length < V.quota.heap ∧ heap.length < 256 ∧
      (mine.map (·.desc.pphasers)).sum + D.pphasers ≤ V.quota.phasers ∧ (heap.map (·.desc.pphasers)).sum + D.pphasers ≤ 256
    let passes (L : Launch) : Prop := ∀ x, L.wrap = some x → s.now < x ∧
      ∀ M ∈ L :: mine, ∀ w, M.wrap = some w → s.now < w → leftUntil s.now w (L :: mine) ≤ (up : ℚ) * ((w - s.now : Nat) : ℚ) / 1000
    (∀ L wide cores, planLaunch s q Q h key b idx = some (L, wide, cores) →
      L.desc = D ∧ L.tab = look.tab ∧ (∃ V, mget s.vifs vif = some V ∧ fits V) ∧ passes L ∧
      (wide = false ↔ D.groups * D.regs ≤ 4096) ∧ (wide = true → (D.groups + 3) / 4 * D.regs ≤ 4096) ∧ cores ≠ [] ∧ cores.Pairwise (· < ·) ∧
      ∀ c, c ∈ cores ↔ c < 128 ∧ (wide = false → Eligible s D vif c) ∧ (wide = true → c % 4 = 0 ∧ ∀ i < 4, Eligible s D vif (c + i))) ∧
    (planLaunch s q Q h key b idx = none → ∀ V, mget s.vifs vif = some V → fits V → (D.groups + 3) / 4 * D.regs ≤ 4096 →
      (∃ c < 128, (D.groups * D.regs ≤ 4096 ∧ Eligible s D vif c) ∨ (4096 < D.groups * D.regs ∧ c % 4 = 0 ∧ ∀ i < 4, Eligible s D vif (c + i))) →
      ∃ L : Launch, L.desc = D ∧ L.done = 0 ∧ (L.deadline, L.wrap) = launchTimes Q.look.time h.issue D ∧ ¬ passes L)

/-- R289 to R291, R295, R315, R357: a LAUNCH that passes its checks is admitted: it enters the heap with its times, and one block waits for each eligible
core; LAUNCH_ACTIVITY creates its activity RUNNING with it. One that fails a check completes REFUSED. What is read in memory, and the time, are those at
which the ostler took the packet.
The queue number in a launch id is log 37. -/
def Sys2Proof.Claims.LaunchesEnter : Prop :=
  ∀ s q Q idx (h : PktHdr) (b : LaunchBody), AtPacket s q Q idx →
    let s' := popPacket s q Q
    let key := q * 2 ^ 64 + idx
    let admitted (t : State) (l : Nat) (L : Launch) (wide : Bool) (cores : List Nat) : Prop :=
      (∃ L', mget t.launches l = some L' ∧ L' = { L with act := L'.act }) ∧ (∃ P, mget t.pkts key = some P ∧ P.body = .launch l) ∧
      (∀ i, (hi : i < cores.length) → ∃ B, mget t.blocks (l + 1 + i) = some B ∧ B.launch = l ∧ B.lin = i ∧ B.core = cores[i] ∧ B.wide = wide ∧ B.st = .waiting) ∧
      t.mem = s.mem ∧ t.groups = s.groups ∧
      L.st = .admitted ∧ L.ctx = Q.ctx ∧ L.pkt = key ∧ L.blockcnt = cores.length ∧ cores ≠ [] ∧ L.next = 0 ∧ L.valid = 0 ∧
      (let from_ := if h.issue = 0 then Q.look.time else h.issue.toNat
       (L.desc.deadline = 2 ^ 63 - 1 ∨ 2 ^ 63 - 2 < from_ + L.desc.deadline → L.deadline = none ∧ L.wrap = none) ∧
       (L.desc.deadline ≠ 2 ^ 63 - 1 → from_ + L.desc.deadline ≤ 2 ^ 63 - 2 →
         L.deadline = some (from_ + L.desc.deadline) ∧ L.wrap = some (from_ + L.desc.deadline - L.desc.wrapbudget)))
    (∀ L wide cores, planLaunch s' q Q h key b idx = some (L, wide, cores) →
      ∃ t, exec (.launch h b) s = .next t ∧ admitted t s.nextId L wide cores ∧ t.acts = s.acts) ∧
    (planLaunch s' q Q h key b idx = none → s.pkts = [] → RingReady s Q → CompletesAs (.launch h b) s q Q h 1 4 s.mem) ∧
    ∀ (id : BitVec 32) (report : Word),
      (∀ L wide cores, id ≠ 0 → (∀ p ∈ s.acts, p.2.ctx = Q.ctx → p.2.id ≠ id) → Q.look.report = true →
        planLaunch s' q Q h key b idx = some (L, wide, cores) →
        ∃ t A, exec (.launchActivity h b id report) s = .next t ∧ admitted t (s.nextId + 1) L wide cores ∧ mget t.acts s.nextId = some A ∧
          A.id = id ∧ A.ctx = Q.ctx ∧ A.launch = s.nextId + 1 ∧ A.st = .running ∧ A.entries = [] ∧ A.deps = [] ∧ A.report = report.toNat ∧
          ∃ L', mget t.launches (s.nextId + 1) = some L' ∧ L'.act = some s.nextId) ∧
      (id = 0 ∨ Q.look.report = false → s.pkts = [] → RingReady s Q → CompletesAs (.launchActivity h b id report) s q Q h 2 4 s.mem)

/-- R289 to R291, R293 to R295, R315, R357: the descriptors that pass, the launches that are admitted and the cores they get, and what an admission leaves. -/
def Obligations.LaunchPackets : Prop := Sys2Proof.Claims.DescriptorsChecked ∧ Sys2Proof.Claims.LaunchesAdmitted ∧ Sys2Proof.Claims.LaunchesEnter

/-- R272, R274, R315, R318, R326, R354: RANGE_COMMIT makes the image the current set and every HITCHED die owes its switch, the commit taken first first; PRELOAD_OVERLAY completes DONE;
ACTIVITY_RESUME lets a STUCK activity go on; ACTIVITY_DISCARD makes it ABANDONED with no entry left.
That an unreadable image or entry makes the packet REFUSED is log 58, and that PRELOAD_OVERLAY is DONE before its loads have ended is log 37. -/
def Obligations.RangeAndActivityPackets : Prop :=
  ∀ s q Q idx (h : PktHdr), AtPacket s q Q idx →
    let s' := popPacket s q Q
    let key := q * 2 ^ 64 + idx
    (∀ image inval ws new C, readWords s' Q.ctx image.toNat 128 = .ok ws → rangeImage ws = some new → mget s.ctxs Q.ctx = some C →
      ∃ t P dies ops C', exec (.rangeCommit h image inval) s = .next t ∧ mget t.pkts key = some P ∧ P.body = .commit Q.ctx s.tick new inval dies ops ∧
        (∀ d, d ∈ dies ↔ d < s.dies.length ∧ (s.die d).st = .hitched) ∧ mget t.ctxs Q.ctx = some C' ∧ C'.ranges = new ∧
        (∀ d ∈ dies, rangesOf C' d = rangesOf C d) ∧ (∀ d, d ∉ dies → rangesOf C' d = new) ∧ t.mem = s.mem ∧ t.groups = s.groups) ∧
    (∀ image inval ws, readWords s' Q.ctx image.toNat 128 = .ok ws → rangeImage ws = none → s.pkts = [] → RingReady s Q →
      CompletesAs (.rangeCommit h image inval) s q Q h 6 4 s.mem) ∧
    (∀ (table : Word) (len index : BitVec 16) ws e, table.toNat % 32 = 0 → 1 ≤ len.toNat → len.toNat ≤ 256 → index.toNat < len.toNat →
      readWords s' Q.ctx (table.toNat + 32 * index.toNat) 4 = .ok ws → ovEntry ws = some e → s.pkts = [] → RingReady s Q →
      CompletesAs (.preloadOverlay h table len index) s q Q h 7 0 s.mem) ∧
    (∀ (id : BitVec 32) (report : Word) a A, mget s.acts a = some A → A.ctx = Q.ctx → A.id = id → (∀ p ∈ s.acts, p.2.ctx = Q.ctx → p.2.id = id → p = (a, A)) →
      A.st = .stuck → Q.look.report = true →
      (A.torn = false → Sorted s.pkts → (∃ e ∈ A.entries, e.st ≠ .undone) →
        ∃ t A' P, exec (.activityResume h id report) s = .next t ∧ mget t.pkts key = some P ∧ P.body = .act a ∧ mget t.acts a = some A' ∧ A'.st = .abandoning ∧
          A'.reason = 0 ∧ ∀ (i : Nat) (e : StackEntry), A.entries[i]? = some e → A'.entries[i]? = some (if e.st = .failed then { e with st := .open_ } else e)) ∧
      ∃ t, exec (.activityDiscard h id report) s = .next t ∧ mget t.pkts key = none ∧ ∀ A', mget t.acts a = some A' → A'.st = .abandoned ∧ A'.entries = []) ∧
    (∀ (id : BitVec 32) (report : Word), (∀ p ∈ s.acts, p.2.ctx = Q.ctx → p.2.id ≠ id) → s.pkts = [] → RingReady s Q →
      CompletesAs (.activityResume h id report) s q Q h 8 4 s.mem ∧ CompletesAs (.activityDiscard h id report) s q Q h 9 4 s.mem) ∧
    (∀ p P r R ctx die a b new new' inval inval' dies dies' ops ops' C, s.pkts = [(p, P), (r, R)] → P.body = .commit ctx a new inval dies ops →
      R.body = .commit ctx b new' inval' dies' ops' → die ∈ dies → die ∈ dies' → mget s.ctxs ctx = some C →
      ∃ C', mget (rangeSwitch s die ctx).ctxs ctx = some C' ∧ rangesOf C' die = (if b < a then new' else new) ∧
        ∀ d, d ≠ die → rangesOf C' d = rangesOf C d) ∧
    ∀ p P ctx a new inval dies ops, mget s.pkts p = some P → P.body = .commit ctx a new inval dies ops →
      (dies = [] → (∀ o ∈ ops, mget s.ops o = none) → ∃ t, exec (.rangeCommitComplete p) s = .next t ∧ mget t.pkts p = none ∧ t.groups = s.groups) ∧
      (dies ≠ [] ∨ (∃ o ∈ ops, mget s.ops o ≠ none) → exec (.rangeCommitComplete p) s = .next s)

/-- R285, R359, R360, R385: a held record goes to the ring once there is room, and stays held while there is none, after a teardown as well; messages wait for their coalescing
time and for the interface's rate of one in 4 µs; at the watchdog every packet that was taken and not started completes REFUSED, and reading resumes at the stored rd.
What a blocked access of the ostler yields is log 39. -/
def Sys2Proof.Claims.RecordsAndMessages : Prop :=
  (∀ s q Q r, mget s.queues q = some Q → Q.held = [r] → Q.taken = none → RingReady s { Q with held := [] } → r.blocks = 0 → r.valid = 0 → r.code < 256 → r.outcome < 256 →
    Q.bound = true → ∃ t Q', exec (.completionRoom q) s = .next t ∧ Recorded t q Q r.tag r.code r.outcome s.mem ∧ mget t.queues q = some Q' ∧ Q'.held = []) ∧
  (∀ s q Q, mget s.queues q = some Q → cringFull s Q = true → ostlerMay s (Q.ctl + 32) = true → Q.bound = true ∨ Q.held ≠ [] → exec (.completionRoom q) s = .next s) ∧
  (∀ s q Q, mget s.queues q = some Q → Q.bound = false → Q.held = [] → Q.taken = none → Q.pend = none → (∀ C, mget s.ctxs Q.ctx = some C → C.st ≠ .active) →
    exec (.completionRoom q) s = .next { s with queues := mdel s.queues q }) ∧
  (∀ s q Q x, mget s.queues q = some Q → Q.pend = some x →
    (s.now < x + 1000 * Q.coal → exec (.msixCoalesceTimeout q) s = .next s) ∧
    (x + 1000 * Q.coal ≤ s.now → ∀ V, mget s.vifs Q.vif = some V → (∀ y, V.last = some y → y + 4000 ≤ s.now) →
      ∃ t V', exec (.msixCoalesceTimeout q) s = .next t ∧ (∀ Q', mget t.queues q = some Q' → Q'.pend = none) ∧ mget t.vifs Q.vif = some V' ∧
        V'.sent = V.sent ++ [Q.vector] ∧ V'.last = some s.now ∧ t.mem = s.mem)) ∧
  (∀ s v V q rest Q, mget s.vifs v = some V → V.msgs = q :: rest → mget s.queues q = some Q → Q.vif = v →
    ((∀ y, V.last = some y → y + 4000 ≤ s.now) → ∃ t V', exec (.msixRateDelay v) s = .next t ∧ (∀ Q', mget t.queues q = some Q' → Q'.pend = none) ∧
      mget t.vifs v = some V' ∧ V'.sent = V.sent ++ [Q.vector] ∧ q ∉ V'.msgs ∧ V'.last = some s.now) ∧
    (∀ y, V.last = some y → s.now < y + 4000 → ∃ t V', exec (.msixRateDelay v) s = .next t ∧ mget t.vifs v = some V' ∧ V'.sent = V.sent ∧ V'.msgs = V.msgs)) ∧
  ∀ s, ∃ t, exec .ostlerWatchdog s = .next t ∧ t.batch = [] ∧ t.groups = s.groups ∧ (∀ q Q, mget s.queues q = some Q → ∃ Q', mget t.queues q = some Q' ∧ Q'.taken = none) ∧
    (s.pkts = [] → ∀ q Q idx w, mget s.queues q = some Q → Q.taken = some (idx, w) → Q.held ≠ [] →
      ∃ Q' r, mget t.queues q = some Q' ∧ Q'.held = Q.held ++ [r] ∧ r.tag = w.extractLsb' 32 32 ∧ r.code = (w.extractLsb' 0 8).toNat ∧ r.outcome = 4 ∧ r.blocks = 0 ∧ r.valid = 0) ∧
    ∀ q Q idx (w : BitVec 512), s.pkts = [] → s.queues = [(q, Q)] → Q.taken = some (idx, w) → RingReady s Q →
      Recorded t q Q (w.extractLsb' 32 32) (w.extractLsb' 0 8).toNat 4 s.mem ∧ ∃ Q', mget t.queues q = some Q' ∧ Q'.rd = if Q.bound then s.read (Q.ctl + 16) 8 else Q.rd

namespace Sys2Proof.Claims

/-! ### The driver, pre-emption, reliability (R279 to R288, R343 to R347, R362, R380 to R385) -/

/-- Context `ctx` of `s` has been torn down in `t` (R285): no translation of its own is left, its groups are over, its windows are withdrawn. -/
def TornDown (s t : State) (ctx : Nat) : Prop :=
  (∃ C, mget t.ctxs ctx = some C ∧ (C.st = .tearing ∨ C.st = .dead) ∧ C.ranges = [] ∧ ∀ i w, mget C.windows i = some w → w.valid = false) ∧
  ∀ g G, mget s.groups g = some G → s.ctxOf G = ctx → ∃ G', mget t.groups g = some G' ∧ (G'.st = .exited ∨ G'.st = .killed)

/-- Field of `n` bytes at byte `off` of a 64-byte entry. -/
def entryField (e : BitVec 512) (off n : Nat) : Nat := (e.extractLsb' (8 * off) (8 * n)).toNat

/-- A physical address of device memory, aligned to `n` (R267). -/
abbrev Device (pa n : Nat) : Prop := pa % n = 0 ∧ paClass pa = 0 ∧ paBad pa = false

/-- No block is on core `c`. -/
abbrev CoreEmpty (s : State) (c : Nat) : Prop := blocksOn s c = []

end Sys2Proof.Claims

/-- R279, R284: an answer without an unanswered record is ignored; RETRY lets what is held at the page go on with its registers as they were; TRAP traps
the held stream with cause 0x05; FATAL tears the context down, and the host reads the cause 0x06 (R280).
Which of two held streams traps is log 40. -/
def Sys2Proof.Claims.FaultAnswers : Prop :=
  ∀ s ctx (seq : BitVec 32) C, mget s.ctxs ctx = some C →
    ((∀ r ∈ C.recs, r.seq ≠ seq) → exec (.retry ctx seq) s = .next s ∧ exec (.faultTrap ctx seq) s = .next s ∧ exec (.fatal ctx seq) s = .next s) ∧
    ∀ r, C.recs = [r] → r.seq = seq →
      (∀ g G, mget s.groups g = some G → s.ctxOf G = ctx →
        ∃ t G', exec (.retry ctx seq) s = .next t ∧ mget t.groups g = some G' ∧ G'.pc = G.pc ∧ G'.sreg = G.sreg ∧ G'.vreg = G.vreg ∧
          ∀ h ∈ G'.holds, ∀ p ∈ h.pages, p.page ≠ r.page) ∧
      (∀ g G L p, s.groups = [(g, G)] → s.ctxOf G = ctx → MayTrap s G L → G.st = .running → G.holds = [{ str := .scalar, pages := [p] }] → p.page = r.page →
        s.ops = [] → s.copies = [] → s.pkts = [] →
        ∃ t, exec (.faultTrap ctx seq) s = .next t ∧ Trapped s t g G L { cause := 0x05, str := .scalar, ov := G.ov, off := min G.pc (scalarLen s G), addr := p.addr }) ∧
      (C.st = .active → ∃ t C', exec (.fatal ctx seq) s = .next t ∧ TornDown s t ctx ∧ mget t.ctxs ctx = some C' ∧ C'.cause = some 0x06)

/-- R281 to R285: contexts and quotas. A good descriptor makes an ACTIVE context with empty range registers, and one that breaks a rule is REFUSED; flags
change while no launch is open, and are REFUSED while one is; a teardown; a DEAD context is released; quotas within their ranges are set, others are not.
That a teardown is one step is log 42, and that quotas outside their ranges change nothing is log 89. -/
def Obligations.ContextsAndQuotas : Prop :=
  (∀ s vif pa,
    let f (off n : Nat) : Nat := s.read (pa + off) n
    let answered (t : State) (ok : Bool) : Prop := ∃ V, t.vifs = mput s.vifs vif V ∧ V.answer = some ok ∧ ∀ V0, mget s.vifs vif = some V0 → V = { V0 with answer := some ok }
    (vif ≤ 16 → ¬ Device pa 64 ∨ ¬ Device (f 0 8) 4096 ∨ ¬ Device (f 8 8) 4096 ∨ f 20 2 / 64 ≠ vif ∨ 4 ≤ f 22 2 ∨ ¬ Device (f 24 8) 64 ∨
      (∀ i, 4 ≤ i → i ≤ 12 → f 32 4 ≠ 2 ^ i) ∨ f 36 4 ≠ 0 ∨ f 40 8 ≠ 0 ∨ f 48 8 ≠ 0 ∨ f 56 8 ≠ 0 ∨ mget s.ctxs (f 20 2) ≠ none ∨
      ((mget s.vifs vif).map (·.quota.contexts)).getD 0 ≤ (s.ctxs.filter fun p => p.1 / 64 == vif).length →
      ∃ t, exec (.contextCreate vif pa) s = .next t ∧ t = { s with vifs := t.vifs } ∧ answered t false) ∧
    (Device pa 64 → Device (f 0 8) 4096 → Device (f 8 8) 4096 → f 20 2 / 64 = vif → vif ≤ 16 → f 22 2 < 4 → Device (f 24 8) 64 →
      (∃ i, 4 ≤ i ∧ i ≤ 12 ∧ f 32 4 = 2 ^ i) → f 36 4 = 0 → f 40 8 = 0 → f 48 8 = 0 → f 56 8 = 0 → mget s.ctxs (f 20 2) = none →
      (s.ctxs.filter fun p => p.1 / 64 == vif).length < ((mget s.vifs vif).map (·.quota.contexts)).getD 0 →
      ∃ t C, exec (.contextCreate vif pa) s = .next t ∧ t = { s with ctxs := mput s.ctxs (f 20 2) C, vifs := t.vifs } ∧ answered t true ∧ C.st = .active ∧ C.root = f 0 8 ∧ C.savebase = f 8 8 ∧
        C.savesize = f 16 4 ∧ C.flags.toNat = f 22 2 ∧ C.faultring = f 24 8 ∧ C.faultents = f 32 4 ∧ C.recs = [] ∧ C.debug = false ∧
        C.cause = none ∧ C.ranges.length = 32 ∧ ∀ r ∈ C.ranges, r.e = false)) ∧
  (∀ s ctx C (flags : BitVec 16), mget s.ctxs ctx = some C →
    (let answered (t : State) (ok : Bool) : Prop := ∃ V, t.vifs = mput s.vifs (ctx / 64) V ∧ V.answer = some ok ∧
       ∀ V0, mget s.vifs (ctx / 64) = some V0 → V = { V0 with answer := some ok }
     ((∀ p ∈ s.launches, p.2.ctx = ctx → p.2.st = .complete) → flags.toNat < 4 → ∃ t, exec (.contextFlagsWrite ctx flags) s = .next t ∧
       t = { s with ctxs := mput s.ctxs ctx { C with flags := flags }, vifs := t.vifs } ∧ answered t true) ∧
     ((∃ p ∈ s.launches, p.2.ctx = ctx ∧ p.2.st ≠ .complete) ∨ 4 ≤ flags.toNat → ∃ t, exec (.contextFlagsWrite ctx flags) s = .next t ∧
       t = { s with vifs := t.vifs } ∧ answered t false)) ∧
    (C.st = .active → ∃ t, exec (.teardown ctx) s = .next t ∧ TornDown s t ctx) ∧
    (C.st ≠ .active → exec (.teardown ctx) s = .next s) ∧
    (C.st = .dead → ∃ t, exec (.contextRelease ctx) s = .next t ∧ mget t.ctxs ctx = none ∧ (∀ p ∈ t.acts, p.2.ctx ≠ ctx) ∧ t.mem = s.mem ∧ t.groups = s.groups) ∧
    (C.st ≠ .dead → exec (.contextRelease ctx) s = .next s)) ∧
  ∀ s vif q,
    (quotaFits s vif q = true → ∃ V, exec (.quotaSet vif q) s = .next { s with vifs := mput s.vifs vif V } ∧ V.quota = q ∧
      ∀ V0, mget s.vifs vif = some V0 → V = { V0 with quota := q }) ∧
    (quotaFits s vif q = false → exec (.quotaSet vif q) s = .next s)

/-- R348, R349, R362, R385: binding and unbinding a queue, registering and withdrawing a storage window, and the registers that a write only changes.
When a bind is refused is log 38, and that a written test interval is taken as it is is log 9. -/
def Sys2Proof.Claims.QueuesWindowsRegisters : Prop :=
  (∀ s vif q (d : BitVec 512), q < 64 → q < ((mget s.vifs vif).map (·.quota.queues)).getD 0 → queueIdle s (64 * vif + q) = true → queueDescOk s vif d = true →
    (s.queues.filter fun p => p.2.bound).length < 64 → ∃ t Q, exec (.queueBind vif q d) s = .next t ∧ mget t.queues (64 * vif + q) = some Q ∧ mget t.qdescs (64 * vif + q) = some d ∧ Q.bound = true ∧ Q.vif = vif ∧
      Q.ring = (d.extractLsb' 448 64).toNat ∧ Q.ctl = (d.extractLsb' 384 64).toNat ∧ Q.cring = (d.extractLsb' 320 64).toNat ∧
      Q.ctx = (d.extractLsb' 304 16).toNat ∧ Q.slots = (d.extractLsb' 299 5).toNat ∧ Q.cslots = (d.extractLsb' 294 5).toNat ∧
      Q.vector = (d.extractLsb' 278 16).toNat ∧ Q.coal = (d.extractLsb' 262 16).toNat ∧ Q.taken = none ∧ Q.held = [] ∧ t.mem = s.mem ∧ t.groups = s.groups) ∧
  (∀ s vif q d, queueDescOk s vif d = false ∨ ((mget s.vifs vif).map (·.quota.queues)).getD 0 ≤ q → exec (.queueBind vif q d) s = .next s) ∧
  (∀ s q Q, mget s.queues q = some Q → ∃ t, exec (.queueUnbind q) s = .next t ∧ mget t.queues q = some { Q with bound := false } ∧ t.pkts = s.pkts ∧ t.mem = s.mem ∧
    ∀ d d', mget s.qdescs q = some d → mget t.qdescs q = some d' → d'.getLsbD 0 = false ∧ ∀ i, 0 < i → d'.getLsbD i = d.getLsbD i) ∧
  (∀ s ctx w C (e : BitVec 512), mget s.ctxs ctx = some C →
    (C.st = .active → w < 8 → (∀ off ∈ [0, 8], paClass (entryField e off 8) = 0 ∧ paBad (entryField e off 8) = false) →
      paClass (entryField e 16 8) = 1 → paBad (entryField e 16 8) = false → 2 ≤ entryField e 28 2 → entryField e 28 2 ≤ 4096 →
      entryField e 30 1 < 2 → entryField e 31 1 = 0 → entryField e 40 24 = 0 →
      ∃ t C' W, exec (.storageWindowRegister ctx w e) s = .next t ∧ t = { s with ctxs := t.ctxs } ∧ mget t.ctxs ctx = some C' ∧ mget C'.windows w = some W ∧
        W.sq = entryField e 0 8 ∧ W.cq = entryField e 8 8 ∧ W.doorbell = entryField e 16 8 ∧ W.nsid.toNat = entryField e 24 4 ∧ W.qdepth = entryField e 28 2 ∧
        W.lbas = entryField e 32 8 ∧ (W.valid = true ↔ entryField e 30 1 = 1)) ∧
    (8 ≤ w → exec (.storageWindowRegister ctx w e) s = .next s) ∧
    ∃ t C', exec (.storageWindowWithdraw ctx w) s = .next t ∧ t = { s with ctxs := t.ctxs } ∧ mget t.ctxs ctx = some C' ∧
      (∀ W, mget C'.windows w = some W → W.valid = false) ∧ ∀ v, v ≠ w → mget C'.windows v = mget C.windows v) ∧
  ∀ s,
    (∀ q (bits : BitVec 512), (∀ d, mget s.qdescs q = some d → d.getLsbD 0 = false) → bits.getLsbD 0 = false →
      ∃ t, exec (.registerWrite (.queueDesc q bits)) s = .next t ∧ t = { s with qdescs := t.qdescs } ∧
        ∀ i < 512, ((mget t.qdescs q).getD 0).getLsbD i = (decide (262 ≤ i) && bits.getLsbD i)) ∧
    (∀ q bits d, mget s.qdescs q = some d → d.getLsbD 0 = true → exec (.registerWrite (.queueDesc q bits)) s = .next s) ∧
    (∀ q Q (x : Word), mget s.queues q = some Q → ∃ t, exec (.registerWrite (.crd q x)) s = .next t ∧ t.mem = writeLE s.mem (Q.ctl + 32) 8 x.toNat ∧ t.groups = s.groups) ∧
    (∀ i b l, i < 16 → exec (.registerWrite (.hostWindow i b l)) s =
      .next { s with modl := { s.modl with hostWindows := mput s.modl.hostWindows i (b, l) } }) ∧
    (∀ d ns, ns < 1000 ∨ 1000000000 < ns → exec (.registerWrite (.gateHold d (some ns))) s = .next s) ∧
    (∀ d D ns, s.dies[d]? = some D → (∀ n, ns = some n → 1000 ≤ n ∧ n ≤ 1000000000) → ∃ t, exec (.registerWrite (.gateHold d ns)) s = .next t ∧ t = { s with dies := t.dies } ∧
      t.dies[d]? = some { D with hold := ns, mayGate := false } ∧ ∀ e, e ≠ d → t.dies[e]? = s.dies[e]?) ∧
    ∀ cl ns, cl < 32 → exec (.registerWrite (.testInterval cl ns)) s = .next { s with testEvery := mput s.testEvery cl ns }

/-- R348, R349, R359, R360, R362, R385: queues and windows, the registers of an interface, held records and messages. -/
def Obligations.QueuesAndRecords : Prop := Sys2Proof.Claims.QueuesWindowsRegisters ∧ Sys2Proof.Claims.RecordsAndMessages

/-- R172, R287, R288, R303, R343 to R347: pre-emption takes the first row of the choice that applies: DRAIN, FLUSH-RESTART, SAVE; a budget that runs out makes
the choice again without DRAIN; a drained block is saved with its scratch area, its records stand in the save area with their length and crc, and its core
is free; a saved block is rebuilt, and resumes once what it pins is loaded; a record whose bytes have changed is an uncorrectable error for its block.
An open section holds the choice back until it is closed, but on a die that is not HITCHED (log 45).
Where the bytes of a record stand beside those R287 places, and the layout of a block record, are log 70.
The bytes of a save area in use are as log 43 says, a restore in two events is log 44, and that groups that are STOPPED or EXITING are saved too is log 68. -/
def Obligations.Preemption : Prop :=
  (∀ G level tiles, G.n < 2 ^ 16 →
    let bs := saveBytes G level tiles
    bs.take 2 = leBytes 2 G.n ∧ bs.getD 2 0 = BitVec.ofNat 8 G.splits.length ∧ bs.getD 3 0 = BitVec.ofNat 8 level ∧ bs.getD 5 0 = BitVec.ofNat 8 tiles ∧
      bs.getD 4 0 = BitVec.ofNat 8 (((mkeys G.memb).filter fun k => decide (64 ≤ k)).length) ∧
      (bs.drop 8).take 4 = leBytes 4 bs.length ∧ (bs.drop 56).take 8 = leBytes 8 (crc64 (bs.take 56 ++ bs.drop 64)).toNat) ∧
  (∀ s b who B L, mget s.blocks b = some B → mget s.launches B.launch = some L → B.st = .started →
    (∀ g G, (g, G) ∈ s.groups → G.blk = b → G.sect = none) →
    let flushable : Prop := L.desc.flags.getLsbD 0 = true ∧ L.act = none ∧ L.wrapped = none
    let drains (i : Instr) : Prop := ∃ p, exec i s = .next { s with blocks := mput s.blocks b { B with pre := some p } } ∧ p.who = who ∧ p.until_ = some (s.now + 1000 * drainBudget who)
    let flushes (i : Instr) : Prop := ∃ t B', exec i s = .next t ∧ mget t.blocks b = some B' ∧ B'.st = .waiting ∧ (∀ p ∈ t.groups, p.2.blk ≠ b) ∧ B'.phasers = [] ∧ B'.progress = none
    let saves (i : Instr) : Prop := ∃ t B', exec i s = .next t ∧ mget t.blocks b = some B' ∧ B'.st = .saving ∧
        ∀ g G, mget s.groups g = some G → G.blk = b → ∃ G', mget t.groups g = some G' ∧ G'.holds = [] ∧ G'.pc = G.pc ∧ G'.sreg = G.sreg ∧ G'.vreg = G.vreg
    (needs s B who = false → exec (.preempt b who) s = .next s) ∧
    (needs s B who = true →
      (estFits B L (drainBudget who) = true → drains (.preempt b who)) ∧
      (estFits B L (drainBudget who) = false → flushable → B.audit = none → flushes (.preempt b who)) ∧
      (estFits B L (drainBudget who) = false → ¬ flushable → saveFits s b L who = true → saves (.preempt b who)) ∧
      (estFits B L (drainBudget who) = false → ¬ flushable → saveFits s b L who = false → who ≠ .fencing →
        exec (.preempt b who) s = .next { s with blocks := mput s.blocks b { B with pre := some { who := who, until_ := none } } })) ∧
    (B.pre = some { who := who, until_ := none, asked := true } → needs s B who = true → exec (.drainBudgetExpire b) s = exec (.preempt b who) s) ∧
    ∀ x, B.pre = some { who := who, until_ := some x } →
      (s.now < x → exec (.drainBudgetExpire b) s = .next s) ∧
      (x ≤ s.now → (flushable → B.audit = none → flushes (.drainBudgetExpire b)) ∧
        (¬ flushable → saveFits s b L who = true → saves (.drainBudgetExpire b)))) ∧
  (∀ s b who B L g G, mget s.blocks b = some B → mget s.launches B.launch = some L → B.st = .started → needs s B who = true →
    (g, G) ∈ s.groups → G.blk = b → G.sect ≠ none → G.st.here = true → (s.die (G.core / 16)).st = .hitched →
    exec (.preempt b who) s = .next { s with blocks := mput s.blocks b { B with pre := some { who := who, until_ := none, asked := true } } }) ∧
  (∀ s b B L, mget s.blocks b = some B → mget s.launches B.launch = some L → B.st = .saving → B.wide = false →
    ((∀ g G, (g, G) ∈ s.groups → G.blk = b → G.st ≠ .exited → G.st ≠ .killed → drained s g G = true) →
      ∃ t B', exec (.saveRecordWrite b) s = .next t ∧ mget t.blocks b = some B' ∧ B'.st = .saved ∧
        let placed : Prop := (∀ r ∈ B'.save, ∀ x, r.at_ = some x → x + r.bytes.length ≤ 2 ^ 52) ∧ ∀ p, B'.brec = some p → p.1 + p.2.length ≤ 2 ^ 52
        let inField : Prop := ∃ p, B.pre = some p ∧ p.who = .inField
        (∀ g G, mget s.groups g = some G → G.blk = b → G.st ≠ .exited → G.st ≠ .killed → Sorted s.groups →
          ∃ G', mget t.groups g = some G' ∧ G'.st = .saved ∧ G'.pc = G.pc ∧ G'.sreg = G.sreg ∧ G'.vreg = G.vreg ∧ G'.creg = G.creg ∧ G'.preg = G.preg ∧ G'.calls = G.calls ∧
            G'.runs = G.runs ∧ G'.splits = G.splits ∧ G'.hreg = G.hreg ∧ G'.memb = G.memb) ∧
        (∀ a, (scrLoc B.core B.scrOff ≤ a ∧ a < scrLoc B.core B.scrOff + L.desc.scratch) → memRead t.mem a = 0 ∧
          (placed → (mget B'.scr (a - scrLoc B.core B.scrOff)).getD 0 = memRead s.mem a)) ∧
        (∀ a, ¬ (scrLoc B.core B.scrOff ≤ a ∧ a < scrLoc B.core B.scrOff + L.desc.scratch) →
          (∀ r ∈ B'.save, ∀ x, r.at_ = some x → a < x ∨ x + r.bytes.length ≤ a) → (∀ p, B'.brec = some p → a < p.1 ∨ p.1 + p.2.length ≤ a) →
          memRead t.mem a = memRead s.mem a) ∧
        (∀ r x, B'.save = [r] → r.at_ = some x → placed → ∀ i < r.bytes.length, memRead t.mem (x + i) = r.bytes.getD i 0) ∧
        (∀ g G, s.groups = [(g, G)] → G.blk = b → G.st ≠ .exited → G.st ≠ .killed →
          ∃ r, B'.save = [r] ∧ r.grp = g ∧ r.was = G.st ∧ r.bytes = saveBytes (saveGroup s G) L.desc.level L.desc.acctiles ∧ (r.at_ = none ↔ inField)) ∧
        (inField → B'.brec = none ∧ B'.home = some (B.core / 4)) ∧
        (¬ inField → B'.home = none ∧ ∃ x, B'.brec = some (x, blockBytes s b B L) ∧
          (placed → ∀ i < (blockBytes s b B L).length, memRead t.mem (x + i) = (blockBytes s b B L).getD i 0)) ∧
        ∀ k ∈ s.accSick, k / 256 = b → k ∈ t.accPoison ∧ k ∉ t.accSick) ∧
    ((∃ g G, (g, G) ∈ s.groups ∧ G.blk = b ∧ G.st ≠ .exited ∧ G.st ≠ .killed ∧ drained s g G = false) → exec (.saveRecordWrite b) s = .next s)) ∧
  ∀ s b core B L, mget s.blocks b = some B → mget s.launches B.launch = some L →
    (B.st = .restoring → restoreReady s b = true → ∃ t B', exec (.restore b core) s = .next t ∧ mget t.blocks b = some B' ∧ B'.st = .started ∧ B'.save = [] ∧ t.mem = s.mem) ∧
    (B.st = .restoring → restoreReady s b = false → exec (.restore b core) s = .next s) ∧
    (B.st = .saved → (∃ r ∈ B.save, recBad s r = true) ∨ blockBad s B = true → ∃ t, exec (.restore b core) s = .next t ∧ t.mem = s.mem ∧
      ∀ r ∈ B.save, ∀ G, mget s.groups r.grp = some G → ∃ G', mget t.groups r.grp = some G' ∧ (G'.st = .exited ∨ G'.st = .killed)) ∧
    (B.wide = false → B.audit = none →
      (restoreOk s b B L core = true ↔
        (s.die (core / 16)).st = .hitched ∧ core ∉ s.fencedCores ∧ L.desc.level ≤ s.level core ∧ (B.comp = none → core ∈ L.eligible) ∧
        (∀ cl, B.home = some cl → core / 4 = cl ∨ ∀ i < 4, coreOk s (4 * cl + i) = false) ∧
        coreRoom s L B core core = true ∧ scrFree s core B.scrOff L.desc.scratch = true ∧ tilesQuiet s b [core] = true)) ∧
    (B.st = .saved → (∀ r ∈ B.save, recBad s r = false) → blockBad s B = false → restoreOk s b B L core = false → exec (.restore b core) s = .next s) ∧
    (B.st = .saved → B.wide = false → (∀ r ∈ B.save, recBad s r = false ∧ r.now s = r.bytes) → blockBad s B = false →
      (∀ p, B.brec = some p → bytesAt s.mem p.1 p.2.length = p.2) → restoreOk s b B L core = true → (B.scr.map (·.1)).Nodup → (∀ c ∈ B.scr, c.1 < Config.scratchSpan) →
      ∃ t B', exec (.restore b core) s = .next t ∧ mget t.blocks b = some B' ∧ B'.st = .restoring ∧ B'.core = core ∧ B'.save = B.save ∧
        (∀ c ∈ B.scr, memRead t.mem (scrLoc core (B.scrOff + c.1)) = c.2) ∧
        ∀ r G, B.save = [r] → mget s.groups r.grp = some G →
          ∃ G', mget t.groups r.grp = some G' ∧ G'.st = r.was ∧ G'.core = groupCore false core G.idx ∧ G'.pc = G.pc ∧ G'.sreg = G.sreg ∧ G'.vreg = G.vreg)

/-- R172, R309, R327, R380 to R384: errors are logged and poison or meet what they strike; that of a tile is found when the tile is checked; a suspect core is tested and, when it fails, fenced until reset;
in-field tests fall due by cluster; an audit replays a tile on another die and compares what the two wrote.
Suspect cores and the records of consumption are log 47, what an audit replays and compares is log 46, and that the first test of a cluster falls due as if its last had ended at time 0 is log 9. -/
def Obligations.ErrorsTestsAudits : Prop :=
  (∀ s g G n unit, mget s.groups g = some G → G.st.here = true → n < ((s.launch? G).map (·.desc.acctiles)).getD 0 → tileKey s G n ∉ s.accPoison →
    exec (.uncorrectableError (.tile g n) unit) s = .next { s with accSick := insNat s.accSick (tileKey s G n) }) ∧
  (∀ s unit (loc : BitVec 16) addr (ctx : Option Nat),
    let r : ErrRec := { time := s.now, kind := 0, unit := ErrUnit.num unit, where_ := loc, ctx := BitVec.ofNat 16 (ctx.getD 0xFFFF), addr := addr, launch := 0 }
    exec (.correctedError unit loc ⟨addr, ctx⟩) s =
      .next { s with modl := { s.modl with
        errpend := true, errs := s.modl.errs ++ [r], viferrs := s.modl.viferrs ++ (ctx.map fun c => (c / 64, r)).toList } }) ∧
  (∀ s unit pa ctx, ∃ t r, exec (.uncorrectableError (.line pa ctx) unit) s = .next t ∧ t.modl.viferrs = s.modl.viferrs ++ (ctx.map fun c => (c / 64, r)).toList ∧ pa / 64 ∈ t.poison ∧ t.modl.errs = s.modl.errs ++ [r] ∧ r.kind = 2 ∧ r.addr = pa ∧
    t.modl.errpend = true ∧ t.mem = s.mem ∧ t.groups = s.groups) ∧
  (∀ s unit die, ∃ t r, exec (.uncorrectableError (.link die) unit) s = .next t ∧ t.modl.errs = s.modl.errs ++ [r] ∧ r.kind = 4 ∧ t.mem = s.mem ∧ t.groups = s.groups ∧
    ∀ c, c / 16 = die → c ∈ t.suspects) ∧
  (∀ s core, core ∈ s.suspects → core ∉ s.testing → ∃ t, exec (.selfTest core) s = .next t ∧ core ∈ t.testing ∧ core ∉ t.suspects) ∧
  (∀ s core, core ∉ s.suspects → exec (.selfTest core) s = .next s) ∧
  (∀ s core pass, core ∈ s.testing → core / 4 ∉ s.fieldTests →
    (CoreEmpty s core → ∃ t, exec (.selfTestResult core pass) s = .next t ∧ core ∉ t.testing ∧ (pass = true → t.fencedCores = s.fencedCores) ∧ (pass = false → core ∈ t.fencedCores)) ∧
    (¬ CoreEmpty s core → exec (.selfTestResult core pass) s = .next s)) ∧
  (∀ s cl n, cl < 32 → mget s.testEvery cl = some n →
    (s.now < (mget s.lastTest cl).getD 0 + n → exec (.inFieldTest cl) s = .next s) ∧
    ((mget s.lastTest cl).getD 0 + n ≤ s.now → (s.die (cl / 4)).st = .hitched →
      (∃ i < 4, 4 * cl + i ∉ s.fencedCores) → (∀ i < 4, 4 * cl + i ∉ s.fencedCores → 4 * cl + i ∉ s.testing ∧ 4 * cl + i ∉ s.suspects) →
      ∃ t, exec (.inFieldTest cl) s = .next t ∧ cl ∈ t.fieldTests ∧ ∀ i < 4, 4 * cl + i ∉ s.fencedCores → 4 * cl + i ∈ t.testing)) ∧
  (∀ s cl pass, cl ∈ s.fieldTests →
    ((∀ i < 4, CoreEmpty s (4 * cl + i)) → ∃ t, exec (.inFieldTestEnd cl pass) s = .next t ∧ cl ∉ t.fieldTests ∧ mget t.lastTest cl = some s.now ∧
      ∀ i < 4, 4 * cl + i ∉ t.testing ∧ (pass = false → 4 * cl + i ∈ t.fencedCores)) ∧
    ((∃ i < 4, ¬ CoreEmpty s (4 * cl + i)) → exec (.inFieldTestEnd cl pass) s = .next s)) ∧
  (∀ s l tile core a A L, mget s.audits a = some A → (∀ p ∈ s.audits, p.2.launch = l → p.2.tile = tile → p = (a, A)) → A.launch = l → A.tile = tile → mget s.launches l = some L →
    A.done = true → A.barred = false → A.started = false → auditCore s A L core = true →
    (let B : Block := { Block.empty l A.lin core false with audit := some a }
     coreRoom s L B core core = true) → scrFree s core A.off L.desc.scratch = true → tilesQuiet s s.nextId [core] = true →
    ∃ t A' g G, exec (.audit l tile core) s = .next t ∧ mget t.audits a = some A' ∧ A'.started = true ∧ A'.rcore = core ∧ mget t.groups g = some G ∧ G.audit = some a ∧
      G.blk = s.nextId ∧ G.core = core ∧ G.ov = L.desc.rootov ∧ G.pc = L.desc.rootent ∧ G.rs 1 = L.desc.args ∧ G.rs 2 = BitVec.ofNat 64 A.lin ∧
      G.rs 3 = BitVec.ofNat 64 L.blockcnt ∧ G.rs 4 = BitVec.ofNat 64 A.idx ∧ G.rs 5 = BitVec.ofNat 64 L.desc.groups ∧ G.rs 6 = BitVec.ofNat 64 A.off) ∧
  ∀ s a A, mget s.audits a = some A → A.started = true → (∀ p ∈ s.blocks, p.2.audit = some a → p.2.st = .ended) → (∀ p ∈ s.ops, ∀ x, p.2.aud = some x → x.1 ≠ a) →
    (A.ended = false ∨ A.writes = A.replay → exec (.auditCompare a) s = .next { s with audits := mdel s.audits a }) ∧
    (A.ended = true → signature A.writes ≠ signature A.replay → ∃ t r r', exec (.auditCompare a) s = .next t ∧ mget t.audits a = none ∧
      t.modl.errs = s.modl.errs ++ [r, r'] ∧ r.kind = 3 ∧ r'.kind = 3 ∧ A.core ∈ t.suspects ∧ A.rcore ∈ t.suspects ∧ t.mem = s.mem ∧ t.groups = s.groups)

namespace Sys2Proof.Claims

/-! ### Coherence, the host and peers (R258 to R265, R375) -/

/-- Only the coherence state changes. -/
def OnlyCoherence (s t : State) : Prop := t = { s with coh := t.coh }

/-- Die `d` is there and HITCHED, has room, and has nothing under way for line `l`, which it holds in `st` (R1, R260, R265). -/
abbrev LineIdle (s : State) (d l : Nat) (st : Moesi) : Prop :=
  (s.die d).st = .hitched ∧ d < s.dies.length ∧ l < 2 ^ 33 ∧ s.coh.girth.at_ d l = { DieLine.none with st := st } ∧
  (s.coh.girth.taken d).length < Config.dieLines

/-- The Girth has nothing in progress for the region of line `l`, nothing waits, and no request of a die numbered above `d` has come in this cycle (R261). -/
abbrev RegionIdle (s : State) (d l : Nat) : Prop :=
  let R := s.coh.girth.region (l / 8)
  R.busy = none ∧ R.queue = [] ∧ ∀ x, R.last = some x → x.1 = s.now → x.2 ≤ d

/-- `m` is the oldest message on its way to die `d` for line `l`. -/
abbrev Arriving (s : State) (d l : Nat) (m : Msg) : Prop := (s.coh.girth.msgs.find? fun x => x.1 == d && x.2.1 == l) = some (d, l, m)

/-- What a request of die `d` for line `l` starts at the Girth: the transient state, and the messages that go out (R260, R262). -/
def Starts (s : State) (i : Instr) (r : Req) (d l : Nat) (b : Trans) (out : List (Nat × Nat × Msg)) : Prop :=
  ∃ t, exec i s = .next t ∧ OnlyCoherence s t ∧ (t.coh.girth.at_ d l).waits = some r ∧ (t.coh.girth.region (l / 8)).busy = some b ∧
    t.coh.girth.msgs = s.coh.girth.msgs ++ out

/-- `i` runs, only the coherence state changes, and die `d` has line `l` as `x`. -/
def LineBecomes (i : Instr) (s : State) (d l : Nat) (x : DieLine) : Prop :=
  ∃ t, exec i s = .next t ∧ OnlyCoherence s t ∧ t.coh.girth.at_ d l = x

end Sys2Proof.Claims

/-- R260 to R262: what a die's request for a line starts at an idle region: a read of memory, a forward to the owner, or invalidates to the other dies of
the region's vector. A die with a request or an answer under way for the line sends none, and one that is not HITCHED sends none.
That one instant counts as a cycle is log 62, and that an owner that shares its line asks by Upg is log 82. -/
def Sys2Proof.Claims.LineRequests : Prop :=
  ∀ s d l, RegionIdle s d l → s.coh.girth.slices = false →
    let R := s.coh.girth.region (l / 8)
    let others := R.dies.filter (· != d)
    let invs := others.map fun o => (o, l, Msg.inv)
    (LineIdle s d l .i →
      (∀ o, R.line l = (.i, o) → Starts s (.rdS d l) .rdS d l (.mem .rdS d l) [] ∧ Starts s (.rdX d l) .rdX d l (.mem .rdX d l) []) ∧
      (∀ o, R.line l = (.s, o) → Starts s (.rdS d l) .rdS d l (.mem .rdS d l) [] ∧
        (others = [] → Starts s (.rdX d l) .rdX d l (.mem .rdX d l) []) ∧ (others ≠ [] → Starts s (.rdX d l) .rdX d l (.inv .rdX d l others) invs)) ∧
      (∀ o, R.line l = (.x, some o) → Starts s (.rdS d l) .rdS d l (.fwd .rdS d l o) [(o, l, .fwdS)] ∧ Starts s (.rdX d l) .rdX d l (.fwd .rdX d l o) [(o, l, .fwdX)]) ∧
      (∀ o, R.line l = (.o, some o) → Starts s (.rdS d l) .rdS d l (.fwd .rdS d l o) [(o, l, .fwdS)] ∧
        let more := others.filter (· != o)
        (more = [] → Starts s (.rdX d l) .rdX d l (.fwd .rdX d l o) [(o, l, .fwdX)]) ∧
        (more ≠ [] → Starts s (.rdX d l) .rdX d l (.inv .rdX d l more) (more.map fun x => (x, l, .inv))))) ∧
    (∀ st, st = .s ∨ st = .o → LineIdle s d l st →
      (others = [] → ∃ t, exec (.upg d l) s = .next t ∧ OnlyCoherence s t ∧ (t.coh.girth.region (l / 8)).line l = (.x, some d) ∧
        t.coh.girth.msgs = s.coh.girth.msgs ++ [(d, l, .grant)]) ∧
      (others ≠ [] → Starts s (.upg d l) .upg d l (.inv .upg d l others) invs)) ∧
    ((s.die d).st ≠ .hitched → exec (.rdS d l) s = .next s ∧ exec (.rdX d l) s = .next s ∧ exec (.upg d l) s = .next s) ∧
    ((s.coh.girth.taken d).length < Config.dieLines →
      (s.coh.girth.at_ d l).waits ≠ none ∨ (s.coh.girth.at_ d l).answer ≠ none ∨ (s.coh.girth.at_ d l).buffer = true →
      ∀ i ∈ [Instr.rdS d l, Instr.rdX d l, Instr.upg d l], ∃ t, exec i s = .next t ∧ OnlyCoherence s t ∧ t.coh.girth.msgs = s.coh.girth.msgs ∧
        t.coh.girth.region (l / 8) = s.coh.girth.region (l / 8))

/-- R260, R262, R263, R265: the messages that end a request: data, grants, invalidates, forwards and their answers; evictions and write-backs. Data from
memory, or from a clean owner, leaves a writer with a clean line. -/
def Sys2Proof.Claims.LineMessages : Prop :=
  ∀ s d l, l < 2 ^ 33 →
    let D := s.coh.girth
    let x := D.at_ d l
    let R := D.region (l / 8)
    let quiet : Prop := ∀ m ∈ D.msgs, ¬ (m.1 = d ∧ m.2.1 = l)
    (∀ r, R.busy = some (.mem r d l) → R.queue = [] →
      ∃ t, exec (.data d l) s = .next t ∧ OnlyCoherence s t ∧ (t.coh.girth.at_ d l).waits = none ∧ (t.coh.girth.region (l / 8)).busy = none ∧
        d ∈ (t.coh.girth.region (l / 8)).dies ∧ (t.coh.girth.at_ d l).st = (if r = .rdS then .s else .e) ∧
        (t.coh.girth.region (l / 8)).line l = (if r = .rdS then (.s, none) else (.x, some d))) ∧
    (Arriving s d l .grant → LineBecomes (.grant d l) s d l { x with st := .m, waits := none }) ∧
    (∀ b, R.busy = none → Arriving s d l (.data .rdX b) → LineBecomes (.data d l) s d l { x with st := if b then .m else .e, waits := none }) ∧
    (x.answer = none → Arriving s d l .inv → LineBecomes (.inv d l) s d l (if x.buffer then { x with answer := some (.invAck true) } else { x with st := .i, answer := some (.invAck false) })) ∧
    (x.buffer = false → x.answer = none →
      (x.st = .m ∨ x.st = .o → (Arriving s d l .fwdS → LineBecomes (.fwdS d l) s d l { x with st := .o, answer := some (.fwdData false true) }) ∧
        (Arriving s d l .fwdX → LineBecomes (.fwdX d l) s d l { x with st := .i, answer := some (.fwdData false true) }) ∧
        (x.waits = none → LineBecomes (.wb d l) s d l { x with st := .i, buffer := true, wbOut := true })) ∧
      (x.st = .e → (Arriving s d l .fwdS → LineBecomes (.fwdS d l) s d l { x with st := .s, answer := some (.fwdData false false) }) ∧
        (Arriving s d l .fwdX → LineBecomes (.fwdX d l) s d l { x with st := .i, answer := some (.fwdData false false) }))) ∧
    (x.buffer = true → x.answer = none → Arriving s d l .fwdS → LineBecomes (.fwdS d l) s d l { x with answer := some (.fwdData true true) }) ∧
    (∀ m, x.answer ≠ none → Arriving s d l m → m = .inv ∨ m = .fwdS ∨ m = .fwdX → ∀ i ∈ [Instr.inv d l, Instr.fwdS d l, Instr.fwdX d l],
      ∃ t, exec i s = .next t ∧ OnlyCoherence s t ∧ Arriving t d l m ∧ (t.coh.girth.at_ d l).answer = x.answer) ∧
    (x.buffer = true → x.wbOut = true → (d, l) ∉ D.seen → R.busy = none → (∀ m ∈ D.msgs, m.2.1 ≠ l) → R.line l = (.x, some d) → (∀ p ∈ D.lines, p.1 % 2 ^ 46 = l → p.2.st ≠ .s) →
      ∃ t, exec (.wb d l) s = .next t ∧ OnlyCoherence s t ∧ (t.coh.girth.region (l / 8)).line l = (.i, none) ∧ t.coh.girth.at_ d l = { x with wbOut := false } ∧
        Arriving t d l .wbAck) ∧
    (Arriving s d l .wbAck → LineBecomes (.wbAck d l) s d l { x with buffer := false }) ∧
    (quiet → x = { DieLine.none with st := .s } ∨ x = { DieLine.none with st := .e } → LineBecomes (.evC d l) s d l DieLine.none) ∧
    (∀ q e o dirty, x.answer = some (.fwdData false dirty) → R.busy = some (.fwd q e l o) → o = d → e ≠ d → R.queue = [] → (D.at_ e l).waits ≠ none →
      ∃ t, exec (.fwdData d l) s = .next t ∧ OnlyCoherence s t ∧ t.coh.girth.at_ d l = { x with answer := none } ∧
        (e, l, .data q (dirty && q != .rdS)) ∈ t.coh.girth.msgs ∧ (t.coh.girth.region (l / 8)).busy = none ∧
        (t.coh.girth.region (l / 8)).line l = (if q = .rdS then (if dirty then (.o, some d) else (.s, none)) else (.x, some e))) ∧
    ∀ q e due ev, x.answer = some (.invAck ev) → R.busy = some (.inv q e l due) → e ≠ d → R.queue = [] → (D.at_ e l).waits ≠ none →
      (due.filter (· != d) ≠ [] → ∃ t, exec (.invAck d l) s = .next t ∧ OnlyCoherence s t ∧ t.coh.girth.at_ d l = { x with answer := none } ∧
        (t.coh.girth.region (l / 8)).busy = some (.inv q e l (due.filter (· != d)))) ∧
      (due.filter (· != d) = [] → q = .rdX → R.line l = (.s, none) → ∃ t, exec (.invAck d l) s = .next t ∧ OnlyCoherence s t ∧
        (t.coh.girth.region (l / 8)).busy = some (.mem .rdX e l)) ∧
      (∀ o, due.filter (· != d) = [] → q = .rdX → R.line l = (.o, some o) → ∃ t, exec (.invAck d l) s = .next t ∧ OnlyCoherence s t ∧
        (t.coh.girth.region (l / 8)).busy = some (.fwd .rdX e l o) ∧ (o, l, .fwdX) ∈ t.coh.girth.msgs) ∧
      (due.filter (· != d) = [] → q = .upg → ∃ t, exec (.invAck d l) s = .next t ∧ OnlyCoherence s t ∧
        (e, l, .grant) ∈ t.coh.girth.msgs ∧ (t.coh.girth.region (l / 8)).line l = (.x, some e))

/-- R256 to R258: a write from a core of a HITCHED die reaches a line of device memory only once its die, its cluster's slice and its L1 hold the line
modified; no other die then holds it, if the die did not hold it exclusive before. -/
def Sys2Proof.Claims.WritersOwnTheirLine : Prop :=
  ∀ s t core loc, (s.die (core / 16)).st = .hitched → loc < 2 ^ 50 → hostHeld s loc = false → reachLine s (.core core) true loc = some t →
    OnlyCoherence s t ∧ (t.coh.girth.at_ (core / 16) (loc / 64)).st = .m ∧ ((t.home (core / 16)).at_ (core / 4 % 4) (loc / 64)).st = .m ∧
    t.l1 core (loc / 64) = .m ∧
    ((s.coh.girth.at_ (core / 16) (loc / 64)).st ≠ .e → (s.coh.girth.at_ (core / 16) (loc / 64)).st ≠ .m →
      ∀ d, d ≠ core / 16 → (t.coh.girth.at_ d (loc / 64)).st = .i)

/-- R264, R375: the host and the peers. A snoop gives the host's line up; an invalidate is asked for a line that the host holds, and its answer ends that;
host and peer writes change the bytes they name; the table of host holds makes room when it is full; a peer's write to a line that the host holds, or that is
busy at the Girth, waits; a peer's atomic reads and writes at once.
The sizes of these accesses are log 51. -/
def Sys2Proof.Claims.HostAndPeers : Prop :=
  (∀ s line, ∃ t, exec (.hostSnoop line) s = .next t ∧ OnlyCoherence s t ∧ line ∉ t.coh.hostLines) ∧
  (∀ s line, line ∈ s.coh.hostHolds → line ∉ s.coh.backInv → ∃ t, exec (.backInvalidate line) s = .next t ∧ OnlyCoherence s t ∧ line ∈ t.coh.backInv) ∧
  (∀ s line, line ∉ s.coh.hostHolds ∨ line ∈ s.coh.backInv → exec (.backInvalidate line) s = .next s) ∧
  (∀ s line, line ∈ s.coh.backInv → ∃ t, exec (.backInvalidateResponse line) s = .next t ∧ line ∉ t.coh.hostHolds ∧ line ∉ t.coh.backInv ∧ OnlyCoherence s t) ∧
  (∀ s line, line ∉ s.coh.backInv → exec (.backInvalidateResponse line) s = .next s) ∧
  (∀ s pa n (x : Word) cache, 1 ≤ n → n ≤ 8 → pa / 64 = (pa + n - 1) / 64 → paBad pa = false → paClass pa ≤ 1 →
    (cache = false ∨ paClass pa = 1 ∨ holdsRoom s (pa / 64) = true →
      (∃ t, exec (.hostAccess (.write pa n x) cache) s = .next t ∧ t.mem = writeLE s.mem pa n x.toNat ∧ t.groups = s.groups ∧
        (cache = true → paClass pa = 0 → pa / 64 ∈ t.coh.hostHolds)) ∧
      ∃ t, exec (.hostAccess (.read pa n) cache) s = .next t ∧ t = { s with coh := t.coh, outside := t.outside } ∧
        (cache = true → paClass pa = 0 → pa / 64 ∈ t.coh.hostHolds)) ∧
    (cache = true → paClass pa = 0 → holdsRoom s (pa / 64) = false → s.coh.backInv = [] →
      ∃ line ∈ s.coh.hostHolds, exec (.hostAccess (.read pa n) cache) s = .next { s with coh := { s.coh with backInv := [line] } })) ∧
  (∀ s (peer : BitVec 4) p pa n (x : Word), mget s.peers peer.toNat = some p → p.set = true → p.up = true → 1 ≤ n → n ≤ 8 → pa / 64 = (pa + n - 1) / 64 →
    paBad pa = false → paClass pa = 0 →
    (pa / 64 ∉ s.coh.hostHolds → s.coh.girth.idle (pa / 64) = true →
      ∃ t, exec (.peerAccess peer (.write pa n x)) s = .next t ∧ t.mem = writeLE s.mem pa n x.toNat ∧ t.groups = s.groups) ∧
    (pa / 64 ∈ s.coh.hostHolds ∨ s.coh.girth.idle (pa / 64) = false → exec (.peerAccess peer (.write pa n x)) s = .next s) ∧
    (s.coh.girth.idle (pa / 64) = true → ∃ t, exec (.peerAccess peer (.read pa n)) s = .next t ∧ t = { s with coh := t.coh, outside := t.outside }) ∧
    (s.coh.girth.idle (pa / 64) = false → exec (.peerAccess peer (.read pa n)) s = .next s)) ∧
  (∀ s (peer : BitVec 4) p pa (ty : Ty) op (x old new : Word), mget s.peers peer.toNat = some p → p.set = true → p.up = true → (ty.size = 4 ∨ ty.size = 8) →
    pa % ty.size = 0 → paBad pa = false → paClass pa = 0 → pa / 64 ∉ s.coh.hostHolds → s.coh.girth.idle (pa / 64) = true →
    let was := s.read pa ty.size
    (∃ t, exec (.peerAccess peer (.atom pa ty op x)) s = .next t ∧ t.mem = writeLE s.mem pa ty.size (atomNew op ty was (x.toNat % 2 ^ ty.bits)) ∧ t.groups = s.groups) ∧
    ∃ t, exec (.peerAccess peer (.cas pa ty old new)) s = .next t ∧ t.groups = s.groups ∧
      t.mem = if was = old.toNat % 2 ^ ty.bits then writeLE s.mem pa ty.size (new.toNat % 2 ^ ty.bits) else s.mem) ∧
  ∀ s (peer : BitVec 4) p b, mget s.peers peer.toNat = some p →
    exec (.peerLinkDown peer b) s = .next { s with peers := mput s.peers peer.toNat { p with up := !b } } ∧
    exec (.peerNumberSet peer b) s = .next { s with peers := mput s.peers peer.toNat { p with set := b } }

/-- R256 to R264, R375: the protocol between the dies and the Girth for one line, what a write must own, and the host and the peers. -/
def Obligations.CoherenceProtocol : Prop :=
  Sys2Proof.Claims.LineRequests ∧ Sys2Proof.Claims.LineMessages ∧ Sys2Proof.Claims.WritersOwnTheirLine ∧ Sys2Proof.Claims.HostAndPeers

/-! ### Dies and the module (R364 to R374, R385 to R388) -/

namespace Sys2Proof.Claims

/-- Die `d` becomes `D` and nothing else changes. -/
def DieBecomes (i : Instr) (s : State) (d : Nat) (D : Die) : Prop :=
  ∃ t, exec i s = .next t ∧ t = { s with dies := t.dies } ∧ t.dies[d]? = some D ∧ ∀ e, e ≠ d → t.dies[e]? = s.dies[e]?

/-- The keys of every other direction of every stream stay (R371). -/
def OtherStreams (s t : State) (n : Nat) (rx : Bool) : Prop := ∀ m r, ¬ (m = n ∧ r = rx) → t.ide m r = s.ide m r

/-- No block is on a die (R369). -/
def DieEmpty (s : State) (d : Nat) : Prop := ∀ c, c / 16 = d → blocksOn s c = []

end Sys2Proof.Claims

/-- R364 to R370: the states of a die: woken, powered, hitched within 10 ms with everything of an earlier life gone or fenced by the capability check, timed out at the third
attempt, drained for a gate or a reset only without a block, and fenced at the loss of its link. None hitches before the bring-up has come so far (R387), and one
with four fenced cores does not hitch (R383).
That no die is gated before a hold time is set is log 6, and when the wake latch falls is log 83. -/
def Obligations.DieStates : Prop :=
  ∀ s d D, s.dies[d]? = some D →
    (D.st = .gated → DieBecomes (.wakeRequest d) s d { D with st := .waking, since := s.now, tries := 0, wake := true }) ∧
    (D.st ≠ .gated → exec (.wakeRequest d) s = .next s) ∧
    (D.st = .waking → 3 ≤ s.modl.up → DieBecomes (.powerGood d) s d { D with st := .hitching, since := s.now }) ∧
    (s.modl.up < 3 → exec (.powerGood d) s = .next s) ∧
    (D.st = .hitching →
      (let w0 (lo n : Nat) : Nat := (D.cap0.extractLsb' lo n).toNat
       let w1 (lo n : Nat) : Nat := (D.cap1.extractLsb' lo n).toNat
       let good : Prop := (D.gen = 3 ∨ D.gen = 4) ∧ w0 24 4 + 1 = D.gen ∧ w0 16 8 = 16 ∧ w0 8 8 = 4 ∧ 4 ≤ w1 24 8 ∧ 64 ≤ w1 16 8 ∧ 8 ≤ w1 8 8 ∧ 64 ≤ w1 0 8 ∧
         (s.fencedCores.filter fun c => c / 16 = d).length < 4
       (D.since + 10000000 < s.now → exec (.hitch d) s = .next s) ∧
       (s.now ≤ D.since + 10000000 → ¬ good → DieBecomes (.hitch d) s d { D with st := .fenced, since := s.now }) ∧
       (s.now ≤ D.since + 10000000 → good → ∃ t D', exec (.hitch d) s = .next t ∧ t.dies[d]? = some D' ∧ D'.st = .hitched ∧ D'.clk = 0 ∧ D'.tries = 0 ∧ D'.wake = false ∧
         D'.tb ≤ 100 ∧ t.groups = s.groups ∧
         (∀ p ∈ t.copies, p.2.core / 16 ≠ d) ∧ (∀ a, isScr a = true → scrCore a / 16 = d → memRead t.mem a = 0) ∧ ∀ a, isScr a = false → memRead t.mem a = memRead s.mem a)) ∧
      (s.now < D.since + 10000000 → exec (.hitchTimeout d) s = .next s) ∧
      (D.since + 10000000 ≤ s.now → D.tries < 2 → DieBecomes (.hitchTimeout d) s d { D with st := .waking, since := s.now, tries := D.tries + 1 }) ∧
      (D.since + 10000000 ≤ s.now → 2 ≤ D.tries → DieBecomes (.hitchTimeout d) s d { D with st := .fenced, since := s.now, tries := D.tries + 1 })) ∧
    (D.st = .hitched →
      (∀ h x, D.hold = some h → D.empty = some x → DieEmpty s d → x + h ≤ s.now → DieBecomes (.gateHoldTimeout d) s d { D with mayGate := true }) ∧
      (D.hold = none → exec (.gateHoldTimeout d) s = .next s) ∧
      (D.mayGate = true → DieEmpty s d → ∃ t D', exec (.gateRequest d) s = .next t ∧ t.dies[d]? = some D' ∧ D'.st = .draining ∧ D'.toReset = false ∧ t.mem = s.mem ∧ t.groups = s.groups) ∧
      (D.mayGate = false ∨ ¬ DieEmpty s d → exec (.gateRequest d) s = .next s) ∧
      (DieEmpty s d → ∃ t D', exec (.resetRequest d) s = .next t ∧ t.dies[d]? = some D' ∧ D'.st = .draining ∧ D'.toReset = true ∧ t.mem = s.mem ∧ t.groups = s.groups) ∧
      (¬ DieEmpty s d → exec (.resetRequest d) s = .next s) ∧
      ∃ t D', exec (.linkLoss d) s = .next t ∧ t.dies[d]? = some D' ∧ D'.st = .fenced ∧ t.modl.errs.length = s.modl.errs.length + 1 ∧ t.mem = s.mem ∧ t.groups = s.groups ∧
        ∀ k A (i : Nat) (e : StackEntry), mget s.acts k = some A → A.entries[i]? = some e → e.die = d → e.spilled = false → e.st ≠ .undone →
          ∃ A', mget t.acts k = some A' ∧ A'.entries[i]? = some { e with bad := true }) ∧
    (D.st = .draining →
      (dieLines s d = false → (∀ p ∈ s.ops, p.2.core / 16 ≠ d) →
        ∃ t D', exec (.dieDrainComplete d) s = .next t ∧ t.dies[d]? = some D' ∧ D'.st = (if D.toReset then .waking else .gated) ∧ t.groups = s.groups) ∧
      (dieLines s d = true ∨ (∃ p ∈ s.ops, p.2.core / 16 = d) → exec (.dieDrainComplete d) s = .next s))

/-- R371 to R374, R385 to R388: package reset, the bring-up, firmware, power and temperature, the status register, the error flag, the keys of the host link's
streams, and the time base.
What package reset keeps is log 52, the rollback counter log 10, the step up of the clocks log 53, the place of the marker log 55, and the state and the jump after a measurement log 13 and log 14. -/
def Sys2Proof.Claims.ModuleAndTime : Prop :=
  (∀ s, ∃ t, exec .packageReset s = .next t ∧ t.groups = [] ∧ t.ctxs = [] ∧ t.launches = [] ∧ t.queues = [] ∧ t.acts = [] ∧ t.tb = State.reset.tb ∧ t.modl.up = 0 ∧ t.modl.link = none ∧
    t.dies.length = s.dies.length ∧ (∀ D ∈ t.dies, D.st = .waking) ∧ (∀ a, isScr a = true → memRead t.mem a = 0) ∧ ∀ a, isScr a = false → memRead t.mem a = memRead s.mem a) ∧
  (∀ s (f : FwImage),
    (f.signed = true → s.modl.rollback ≤ f.version → exec (.firmwareLoad f) s = .next { s with modl := { s.modl with version := f.version, up := max 1 s.modl.up } }) ∧
    (f.signed = false ∨ f.version < s.modl.rollback → exec (.firmwareLoad f) s = .next s)) ∧
  (∀ s, s.modl.tripped = false →
    (s.turn = .hbmTrained → (s.modl.up = 1 → runTurn s = .next { s with modl := { s.modl with up := 2 } }) ∧ (s.modl.up ≠ 1 → runTurn s = .next s)) ∧
    ∀ w v, s.turn = .hostTrained w v →
      let good : Prop := 2 ≤ s.modl.up ∧ (w = 16 ∨ w = 8 ∨ w = 4) ∧ (v = 64 ∨ v = 32 ∨ v = 16)
      (good → runTurn s = .next { s with modl := { s.modl with up := 3, link := some (w, v) } }) ∧ (¬ good → runTurn s = .next s)) ∧
  (∀ s : State, s.dies.length = 8 → let r := statusReg s
    (∀ d < 8, r.getLsbD (56 + d) = decide ((s.die d).st = .fenced) ∧ r.getLsbD (48 + d) = decide ((s.die d).st = .gated) ∧
      r.getLsbD (40 + d) = decide ((s.die d).st = .hitched)) ∧
    (∀ D ∈ s.dies, D.temp.toNat ≤ (r.extractLsb' 32 8).toNat) ∧ (∃ D ∈ s.dies, D.temp = r.extractLsb' 32 8) ∧
    r.extractLsb' 16 16 = s.modl.power ∧ r.extractLsb' 12 4 = s.modl.throttle ∧ r.extractLsb' 1 11 = 0 ∧ r.getLsbD 0 = s.modl.errpend) ∧
  (∀ s (w : BitVec 16), ∃ t, exec (.powerWindow w) s = .next t ∧ t = { s with modl := { s.modl with power := w, throttle := t.modl.throttle } } ∧
    (2200 < w.toNat → t.modl.throttle.toNat = min 15 (s.modl.throttle.toNat + 1)) ∧
    (w.toNat ≤ 2200 → t.modl.throttle = s.modl.throttle ∨ t.modl.throttle.toNat = s.modl.throttle.toNat - 1)) ∧
  (∀ s d D (temp : BitVec 8), s.dies[d]? = some D →
    (∃ t D', exec (.thermalThrottle d temp) s = .next t ∧ t.dies[d]? = some D' ∧ D'.temp = temp ∧ (D'.throttled = true ↔ 95 ≤ temp.toNat) ∧ D'.st = D.st ∧ t.groups = s.groups) ∧
    ∃ t, exec (.thermalTrip d temp) s = .next t ∧ t.groups = s.groups ∧ (110 ≤ temp.toNat → t.modl.tripped = true) ∧ (temp.toNat < 110 → t.modl = s.modl)) ∧
  (∀ s, exec .errpendClear s = .next { s with modl := { s.modl with errpend := false } }) ∧
  (∀ s n rx, let x := s.ide n rx
    (n < 5 → s.spdm.session = true → x.stopped = false → x.old = none → ∃ t, exec (.keyRollover ⟨n, rx⟩) s = .next t ∧ let y := t.ide n rx
      y.key = x.key + 1 ∧ y.old = some x.key ∧ x.acked < y.mark ∧ y.marked = false ∧ y.free = false ∧ OtherStreams s t n rx ∧
      ∀ f, (f ≤ y.mark → Ide.keyOf y f = x.key) ∧ (y.mark < f → Ide.keyOf y f = x.key + 1)) ∧
    (5 ≤ n ∨ s.spdm.session = false ∨ x.stopped = true → exec (.keyRollover ⟨n, rx⟩) s = .next s) ∧
    (x.stopped = false → x.old ≠ none → ∃ t, exec (.markerAck ⟨n, rx⟩) s = .next t ∧ OtherStreams s t n rx ∧ let y := t.ide n rx
      y.key = x.key ∧ y.acked = x.mark ∧ (x.free = true → y.old = none) ∧ (x.free = false → y.old = x.old ∧ y.marked = true)) ∧
    (x.stopped = true → exec (.markerAck ⟨n, rx⟩) s = .next s) ∧
    (s.modl.tripped = false → s.turn = .ideFree n rx → x.stopped = false → x.old ≠ none →
      (rx = true ∨ x.mark ≤ x.acked → ∃ t, runTurn s = .next t ∧ OtherStreams s t n rx ∧ let y := t.ide n rx
        y.key = x.key ∧ y.acked = x.acked ∧ (x.marked = true → y.old = none) ∧ (x.marked = false → y.old = x.old ∧ y.free = true)) ∧
      (rx = false → x.acked < x.mark → runTurn s = .next s))) ∧
  (∀ s n flit, (s.ide n false).stopped = false → (s.ide n false).acked < flit → ∃ t, exec (.replayRequest ⟨n, flit⟩) s = .next t ∧
    t.ide n false = { s.ide n false with replay := some flit } ∧ OtherStreams s t n false) ∧
  (∀ s n, s.modl.tripped = false → s.turn = .ideBad n → (s.ide n true).stopped = false → n < 5 → ∃ t, runTurn s = .next t ∧
    t.ide n true = { s.ide n true with bad := true } ∧ OtherStreams s t n true) ∧
  (∀ s, let bad := (List.range 5).filter fun n => (s.ide n true).bad
    ∃ t, exec .ideIntegrityFailure s = .next t ∧ (∀ n ∈ bad, ∀ rx, (t.ide n rx).stopped = true) ∧ (∀ n, n ∉ bad → ∀ rx, t.ide n rx = s.ide n rx) ∧
    t.modl.errs.length = s.modl.errs.length + bad.length ∧ (bad ≠ [] → t.modl.errpend = true) ∧ t.groups = s.groups) ∧
  (∀ s (src : BitVec 2), (src = 3 → exec (.timeSourceSelect src) s = .next s) ∧
    (src ≠ 3 → exec (.timeSourceSelect src) s = .next { s with tb := { s.tb with source := src, state := if src = 0 then 0 else 1, good := 0, last := s.now, edge := none } })) ∧
  (∀ s, s.modl.tripped = false → s.turn = .ppsEdge →
    (s.tb.source = 2 → runTurn s = .next { s with tb := { s.tb with edge := some s.now } }) ∧ (s.tb.source ≠ 2 → runTurn s = .next s)) ∧
  (∀ s (off : BitVec 32), let counts : Prop := s.tb.source = 1 ∨ (s.tb.source = 2 ∧ ∃ x, s.tb.edge = some x ∧ s.now ≤ x + 500000000)
   (¬ counts → exec (.timeMeasurement off) s = .next s) ∧
   (counts → ∃ t, exec (.timeMeasurement off) s = .next t ∧ t = { s with now := t.now, tb := t.tb } ∧ s.now ≤ t.now ∧ t.tb.offset = off ∧ t.tb.edge = none ∧
    (s.tb.everLocked = true → t.now = s.now) ∧
    ((∃ p ∈ s.launches, p.2.st ≠ .complete ∧ p.2.deadline ≠ none) → t.now = s.now) ∧
    (off.toInt.natAbs ≤ 100 → (s.tb.state = 2 → t.tb.state = 2) ∧ (s.tb.state = 1 → s.tb.good = 7 → t.tb.state = 2) ∧ (s.tb.state = 1 → s.tb.good < 7 → t.tb.state = 1 ∧ t.tb.good = s.tb.good + 1) ∧
      (s.tb.state = 3 → t.tb.state = 1 ∧ t.tb.good = 1)) ∧
    (100 < off.toInt.natAbs → t.tb.good = 0 ∧ (s.tb.state ≠ 3 → t.tb.state = 3) ∧ (s.tb.state = 3 → t.tb.state = 1)))) ∧
  ∀ s, (s.tb.source ≠ 0 → s.tb.state = 1 ∨ s.tb.state = 2 → s.tb.last + 2000000000 ≤ s.now → exec .holdover s = .next { s with tb := { s.tb with state := 3, good := 0 } }) ∧
    (s.now < s.tb.last + 2000000000 → exec .holdover s = .next s)

/-- R386: the order of an attestation: version, capabilities, algorithms, then answers from slot 0, then a key exchange and its session. What the others hold
is free (log 11).
The order is log 54, and how the version and the algorithms are packed is log 84. -/
def Sys2Proof.Claims.Attestation : Prop :=
  ∀ s, let p := s.spdm
    let answers (i : Instr) (go : Prop) : Prop := (go → ∃ x, exec i s = .next { s with spdm := { p with answers := p.answers ++ [x] } }) ∧ (¬ go → exec i s = .next s)
    exec .getVersion s = .next { s with spdm := { version := true, caps := false, algs := false, exchanged := false, session := false, answers := p.answers ++ [0x13] } } ∧
    (p.version = true → ∃ x, exec .getCapabilities s = .next { s with spdm := { p with caps := true, answers := p.answers ++ [x] } }) ∧
    (p.version = false → exec .getCapabilities s = .next s) ∧
    (∀ a b, (p.caps = true → exec (.negotiateAlgorithms a b) s =
        .next { s with spdm := { p with algs := a && b, answers := p.answers ++ [BitVec.ofNat 64 (a.toNat + 2 * b.toNat)] } }) ∧
      (p.caps = false → exec (.negotiateAlgorithms a b) s = .next s)) ∧
    answers .getDigests (p.algs = true) ∧
    (∀ slot, answers (.getCertificate slot) (p.algs = true ∧ slot = 0) ∧ answers (.challenge slot) (p.algs = true ∧ slot = 0)) ∧
    (∀ i, answers (.getMeasurements i) (p.algs = true ∧ 1 ≤ i ∧ i ≤ 7)) ∧
    (∀ slot, (p.algs = true → slot = 0 → ∃ x, exec (.keyExchange slot) s =
        .next { s with spdm := { p with answers := p.answers ++ [x], exchanged := true, session := false } }) ∧
      (p.algs = false ∨ slot ≠ 0 → exec (.keyExchange slot) s = .next s)) ∧
    exec .finish s = .next { s with spdm := { p with session := p.session || p.exchanged, exchanged := false } }

/-- R371 to R374, R385 to R388: the module, the host link's keys, the time base, and attestation. -/
def Obligations.ModuleTimeAttestation : Prop := Sys2Proof.Claims.ModuleAndTime ∧ Sys2Proof.Claims.Attestation


namespace Sys2Proof.Claims

/-! ### Translation (R268 to R279, R284) -/

/-- The walk's entry for `va` in table `t` of level `l` (R268). -/
def entryAt (s : State) (va l t : Nat) : Nat := s.read (t + 8 * (va / 2 ^ (12 + 9 * (l - 1)) % 512)) 8

/-- A valid non-leaf entry that names table `t` in device memory (R269). -/
abbrev PointsTo (e t : Nat) : Prop := e = t + 1 ∧ t % 4096 = 0 ∧ t < 2 ^ 39

/-- After `k` levels, the walk of `va` from `root` stands at table `t`. -/
def TableAt (s : State) (root va : Nat) : Nat → Nat → Prop
  | 0, t => t = root
  | k + 1, t => ∃ u, TableAt s root va k u ∧ PointsTo (entryAt s va (4 - k) u) t

/-- A valid leaf entry, not contiguous, of a page of `size` bytes at `p` with its permissions (R269). -/
abbrev LeafOf (e p size : Nat) (r w : Bool) : Prop :=
  e = p + 3 + 4 * r.toNat + 8 * w.toNat ∧ p % size = 0 ∧ p < 2 ^ 52 ∧ paBad p = false ∧ (w = true → r = true)

/-- The register covers the address (R273). -/
abbrev Covers (r : RangeReg) (va : Nat) : Prop := r.e = true ∧ r.vbase ≤ va ∧ va ≤ r.vlimit

/-- A place with permissions `r` and `w` decides as R278 says. -/
def Decides (s : State) (need : Need) (r w : Bool) (pa : Nat) (res : TrRes) : Prop :=
  res = if need.held r w = true ∧ peerUp s pa = true then .ok pa else .prot

/-! ### The step -/

/-- What a step makes of an outcome: what follows of itself happens, time passes, what has fallen due happens, and each stream is ready or is not. -/
def thenAdvance : Out → Out
  | .next t => .next (markReady (timeUp (advance (settle t))))
  | .fault f => .fault f
  | .refused r => .refused r

end Sys2Proof.Claims

/-- R268 to R271, R273, R278: a range register that covers the address decides, the lowest-numbered first; else the walk of four levels: absent at a level,
a leaf of 4 KiB, 64 KiB, 2 MiB or 1 GiB with its permissions, or a malformed entry.
Entries of a C page that differ, and cached entries, are log 16 and log 29, and are left out here. -/
def Obligations.TranslationWalks : Prop :=
  ∀ s ctx core C va need, mget s.ctxs ctx = some C → C.st = .active → va < 2 ^ 48 →
    let res := translate s ctx core none va need
    let regs := rangesOf C (core / 16)
    (∀ (i : Nat) (r : RangeReg), regs[i]? = some r → Covers r va → (∀ (j : Nat) (q : RangeReg), j < i → regs[j]? = some q → ¬ Covers q va) → Decides s need r.r r.w (r.pbase + (va - r.vbase)) res) ∧
    ((∀ r ∈ regs, ¬ Covers r va) → cachedFor s ctx core va = [] → ∀ k < 4, ∀ t, TableAt s C.root va k t →
      let l := 4 - k
      let e := entryAt s va l t
      (e % 2 = 0 → res = .absent l) ∧
      (∀ p (r w : Bool), l = 1 → p % 2 ^ 16 = 0 → p < 2 ^ 52 → paBad p = false → (w = true → r = true) →
        (∀ i < 16, s.read (t + 8 * (va / 2 ^ 16 * 16 % 512 + i)) 8 = p + 19 + 4 * r.toNat + 8 * w.toNat) → Decides s need r w (p + va % 2 ^ 16) res) ∧
      (∀ p r w, l ≤ 3 → LeafOf e p (2 ^ (12 + 9 * (l - 1))) r w → Decides s need r w (p + va % 2 ^ (12 + 9 * (l - 1))) res) ∧
      (e % 2 = 1 → (e / 2 ^ 52 ≠ 0 ∨ e / 32 % 128 ≠ 0 ∨ (e / 2 % 2 = 1 ∧ l = 4) ∨ (e / 2 % 2 = 0 ∧ l = 1) ∨ (e / 2 % 2 = 1 ∧ e / 8 % 2 = 1 ∧ e / 4 % 2 = 0)) →
        res = .fatal))

/-- R279, R280, R284: a scalar load whose page is not present holds with its registers and its pc as they were, and its record goes to the context's fault ring;
with replay disabled it traps with page not present (0x05); a malformed translation tears the context down.
The address of the trap with replay disabled is log 41. -/
def Sys2Proof.Claims.AbsentPagesHold : Prop :=
  ∀ s g G C d a (imm : BitVec 10), Scalar s g G → mget s.ctxs (s.ctxOf G) = some C →
    let ea := G.rs a + imm.signExtend 64
    ea.toNat % 8 = 0 → ea.toNat < 2 ^ 48 →
    let res := translate s (s.ctxOf G) G.core none ea.toNat { r := true, w := false }
    (∀ level, res = .absent level →
      (C.flags.getLsbD 1 = false → exec (.sldd d a imm) s = .next (trapS s g 0x05 ea)) ∧
      (C.flags.getLsbD 1 = true →
        ∃ t G' h, exec (.sldd d a imm) s = .next t ∧ mget t.groups g = some G' ∧ G' = { G with holds := G'.holds } ∧ G'.holds = G.holds ++ [{ str := .scalar, pages := [h] }] ∧
          h.page = ea.toNat / 4096 ∧ h.addr = ea ∧ t.nextId = s.nextId ∧
          (C.recs = [] → 0 < C.faultents → level < 256 → s.ctxOf G < 2 ^ 16 →
            let e := C.faultring + 32 * (C.seq.toNat % C.faultents)
            t.read e 8 = 4096 * (ea.toNat / 4096) ∧ t.read (e + 8) 8 = C.seq.toNat + 2 ^ 40 * level + 2 ^ 48 * s.ctxOf G ∧ t.read (e + 16) 8 = 0 ∧ t.read (e + 24) 8 = 0 ∧
            ∃ C', mget t.ctxs (s.ctxOf G) = some C' ∧ C'.seq = C.seq + 1))) ∧
    (res = .fatal → C.st = .active → ∃ t, exec (.sldd d a imm) s = .next t ∧ TornDown s t (s.ctxOf G))

/-- R279, R280, R284: an access to an absent page holds, and the driver's answers. -/
def Obligations.PageFaults : Prop := Sys2Proof.Claims.FaultAnswers ∧ Sys2Proof.Claims.AbsentPagesHold

/-- R43 to R48, R67: words that the spec works out, of each family, decode to the instructions they stand for; the all-zero words, an unassigned opcode and a
two-word form cut short decode to nothing. -/
def Obligations.WorkedWordsDecode : Prop :=
  decodeScalar 0x01121432 none = .ok (.sadd 9 5 6 2, 1) ∧
  decodeScalar 0x201227FF none = .ok (.saddi 9 9 0x3FF, 1) ∧
  decodeScalar 0x28442464 none = .ok (.scmpi 2 .lt 9 100, 1) ∧
  decodeScalar 0x304FFFFD none = .ok (.sbr 2 false 0xFFFFD, 1) ∧
  decodeScalar 0x43121410 none = .ok (.sldd 9 5 16, 1) ∧
  decodeScalar 0x48142C60 (some 0x98000000) = .ok (.satom 10 11 12 0 .package .acqRel, 2) ∧
  decodeScalar 0x4A000012 none = .ok (.sfence .package .rel, 1) ∧
  decodeScalar 0x53120010 none = .ok (.svote 9 2 0, 1) ∧
  decodeScalar 0x64062400 none = .ok (.ovld 3 9, 1) ∧
  decodeScalar 0x91120001 none = .ok (.dlqry 9 true, 1) ∧
  decodeScalar 0xFF110000 (some 7) = .ok (.slit 8 true 7, 2) ∧
  decodeLane 0x05A60300500740000000000B =
    .ok (.vaddmin { g := { inv := true, pg := 3 }, ty := .i32, m := { sat := false, rnd := .rn }, d := 12, a := 10, b := .s 7, c := .v 11 }) ∧
  decodeLane 0x50C001400006400000000100 = .ok (.vsts { g := { inv := false, pg := 0 }, ty := .i32, d := 5, mode := .contig 6, off := 0x100 }) ∧
  decodeLane 0x800000C14014400000000815 = .ok (.mma { g := { inv := false, pg := 0 }, tile := 3, fw := 40, sa := 20, sb := 21 }) ∧
  decodeScalar 0 none = .error .unassigned ∧ decodeLane 0 = .error .unassigned ∧ decodeScalar 0x2A000000 none = .error .unassigned ∧
  decodeScalar 0x48142C60 none = .error .truncated

namespace Sys2Proof.Claims

/-- The scalar instructions (R55). -/
def isScalar : Instr → Bool
  | .sadd .. | .ssub .. | .smul .. | .smulh .. | .smulhn .. | .sand .. | .sor .. | .sxor .. | .sshl .. | .sshr .. | .ssra .. | .smin .. | .smax .. |
    .sminn .. | .smaxn .. | .ssel .. | .sbfx .. | .sbfi .. | .spopc .. | .sclz .. | .sctz .. | .smov .. | .scmp .. | .saddi .. | .sandi .. | .sori .. |
    .sxori .. | .sshli .. | .sshri .. | .ssrai .. | .smovi .. | .scmpi .. | .sbr .. | .sjmpr .. | .scall .. | .sxcall .. | .sret .. | .sloop .. |
    .sexit .. | .syield .. | .snop .. | .sprog .. | .sldb .. | .sldh .. | .sldw .. | .sldd .. | .sstb .. | .ssth .. | .sstw .. | .sstd .. | .satom .. |
    .scas .. | .sfence .. | .lrun .. | .lrunr .. | .lwait .. | .svote .. | .swait .. | .cpy .. | .cpyg .. | .cpyst .. | .scwp .. | .ovld .. | .ovrel .. |
    .hwait .. | .hcancel .. | .htest .. | .hsend .. | .hrecv .. | .phreg .. | .phdrop .. | .pharr .. | .phaw .. | .phwt .. | .phqry .. | .wsplit .. |
    .wret .. | .phdrain .. | .disp .. | .dlqry .. | .wupok .. | .sndon .. | .sndoff .. | .actseal .. | .actend .. | .actabn .. | .cmpok .. | .actopen .. |
    .actdep .. | .cmpfail .. | .stime .. | .scyc .. | .sgetx .. | .ssetx .. | .strap .. | .stret .. | .sbrk .. | .slit .. => true
  | _ => false

/-- The lane instructions (R48). -/
def isLane : Instr → Bool
  | .vadd .. | .vsub .. | .vmul .. | .vmulh .. | .vmad .. | .vand .. | .vor .. | .vxor .. | .vnot .. | .vshl .. | .vshr .. | .vsra .. | .vmin .. |
    .vmax .. | .vabs .. | .vneg .. | .vclz .. | .vpopc .. | .vbfx .. | .vbfi .. | .vbrev .. | .vaddmin .. | .vaddmax .. | .vfadd .. | .vfsub .. |
    .vfmul .. | .vfma .. | .vfmin .. | .vfmax .. | .vfabs .. | .vfneg .. | .vfrcp .. | .vfrsq .. | .vfsqrt .. | .vfex2 .. | .vflg2 .. | .vfsin .. |
    .vfcos .. | .vfdiv .. | .vfrnd .. | .vfcls .. | .vfscl .. | .vcvt .. | .vpack .. | .vunpk .. | .vcmp .. | .vsel .. | .vpand .. | .vpor .. | .vpxor .. |
    .vpnot .. | .vmov .. | .vmovi .. | .vlaneid .. | .vp2v .. | .vv2p .. | .vld .. | .vst .. | .vlds .. | .vsts .. | .vldsf .. | .vstsf .. | .vldsp .. |
    .vprf .. | .vldx .. | .vstx .. | .vatom .. | .vatoms .. | .vcas .. | .vshup .. | .vshdn .. | .vperm .. | .vbcast .. | .vred .. | .vscan .. |
    .vvote .. | .velect .. | .mma .. | .mmas .. | .mzero .. | .mepi .. | .mtrd .. | .vdist .. | .topk .. | .topkm .. | .lbr .. | .ljmp .. | .lcall .. |
    .lrec .. | .lend .. | .lret .. | .lpack .. | .lnop .. | .lexit .. | .lwaitc .. | .ltrap .. => true
  | _ => false

/-- The packets (R354). -/
def isPacket : Instr → Bool
  | .nop .. | .launch .. | .launchActivity .. | .copy .. | .signal .. | .waitWord .. | .rangeCommit .. | .preloadOverlay .. | .activityResume .. |
    .activityDiscard .. | .queueBarrier .. => true
  | _ => false

end Sys2Proof.Claims

/-- R43 to R55: every well-formed scalar instruction has words, one or two, and decodes from them, with every operand at every value, and takes exactly those words;
what is no scalar instruction has none. -/
def Obligations.ScalarWordsRoundTrip : Prop :=
  ∀ i, i.wf = true →
    (isScalar i = true → ∃ w rest, encodeScalar i = some (w :: rest) ∧ rest.length ≤ 1 ∧ decodeScalar w rest.head? = .ok (i, rest.length + 1)) ∧
    (isScalar i = false → encodeScalar i = none)

/-- R45 to R52: every well-formed lane instruction has a word and decodes from it; what is no lane instruction has none. -/
def Obligations.LaneWordsRoundTrip : Prop :=
  ∀ i, i.wf = true → (isLane i = true → ∃ w, encodeLane i = some w ∧ decodeLane w = .ok i) ∧ (isLane i = false → encodeLane i = none)

/-- R353, R354: every well-formed packet has its 64 bytes and decodes from them; what is no packet has none. -/
def Obligations.PacketsRoundTrip : Prop :=
  ∀ i, i.wf = true → (isPacket i = true → ∃ p, encodePacket i = some p ∧ decodePacket p = .ok i) ∧ (isPacket i = false → encodePacket i = none)

/-- R44, R48, R55, R75, R93, R331, R355: a turn of a scalar stream or of a split that may issue, and that its partition picks, runs the instruction that the words at its pc decode to, one of the ostler
the head packet, an event's turn the event; after it, time passes, and what has fallen due happens. Words that decode to nothing, and a pc past the section, trap with illegal
instruction; for a lane word that is none, the faultmask names the lanes that its guard field leaves (log 77).
Who has the next turn is free (log 1). -/
def Obligations.StepRunsDecoded : Prop :=
  ∀ s, s.modl.tripped = false →
    (∀ g G c, s.turn = .scalar g → mget s.groups g = some G → scalarMay s G = true → picked s g G .scalar = true → divertReady G = false → s.code G G.ov G.copy = some c →
      (∀ w i n, c.scalarWord G.pc = some w → decodeScalar w (c.scalarWord (G.pc + 1)) = .ok (i, n) →
        i.wf = true ∧ step s = thenAdvance (exec i (tookTurn s g .scalar))) ∧
      (∀ w r, c.scalarWord G.pc = some w → decodeScalar w (c.scalarWord (G.pc + 1)) = .error r → step s = thenAdvance (.next (trapS s g 0x01))) ∧
      (c.scalarWord G.pc = none → step s = thenAdvance (.next (trapS s g 0x01)))) ∧
    (∀ g G n S r rest c, s.turn = .lane g n → mget s.groups g = some G → mget G.splits n = some S → laneMay s G n = true → picked s g G (.split n) = true →
      divertReady G = false → G.runs = r :: rest → s.code G r.ov r.copy = some c →
      (∀ w i, c.laneWord S.pc = some w → decodeLane w = .ok i → i.wf = true ∧ step s = thenAdvance (exec i (tookTurn s g (.split n)))) ∧
      (∀ w r, c.laneWord S.pc = some w → decodeLane w = .error r →
        step s = thenAdvance (.next (trapL s g n 0x01 (Active G S (Decode.gd (LaneF.unpack w)))))) ∧
      (c.laneWord S.pc = none → step s = thenAdvance (.next (trapL s g n 0x01 S.mask)))) ∧
    (∀ q Q idx w i, s.turn = .ostler → s.batch.head? = some q → mget s.queues q = some Q → Q.taken = some (idx, w) → decodePacket w = .ok i →
      i.wf = true ∧ step s = thenAdvance (exec i s)) ∧
    (∀ e t, s.turn = .event e → exec e s = .next t → step s = thenAdvance (.next t)) ∧
    ∀ e f, s.turn = .event e → exec e s = .fault f → step s = thenAdvance (.next s)

/-- R69, R93, R171, R279, R303, R341, R387: a stream whose group is held, stalled, about to stop, not placed on a hitched die or not RUNNING issues nothing, one
that its partition does not pick issues nothing, and so does every turn of a package that has tripped; a diversion that was held back happens before the next
instruction issues. -/
def Obligations.StreamsThatMayNotIssue : Prop :=
  ∀ s,
    (∀ g G, s.modl.tripped = false → s.turn = .scalar g → mget s.groups g = some G →
      (scalarMay s G = false ∨ picked s g G .scalar = false → step s = thenAdvance (.next s)) ∧
      (G.st ≠ .running ∨ G.stopWanted = true ∨ (∃ h ∈ G.holds, h.str = .scalar) ∨ (s.die (G.core / 16)).st ≠ .hitched ∨
        (∃ n ops, G.stall = some (n, ops) ∧ ∃ k ∈ ops, mget s.ops k ≠ none) → scalarMay s G = false) ∧
      (scalarMay s G = true → picked s g G .scalar = true → G.divertDue = true → G.sect = none → G.wait ≠ .abandoned →
        step s = thenAdvance (.next (divertNow s g)))) ∧
    (∀ g n G, s.modl.tripped = false → s.turn = .lane g n → mget s.groups g = some G →
      (laneMay s G n = false ∨ picked s g G (.split n) = false → step s = thenAdvance (.next s)) ∧
      (G.trapMode ≠ none ∨ (G.st ≠ .running ∧ G.st ≠ .exiting) ∨ G.stopWanted = true ∨ (∃ h ∈ G.holds, h.str = .split n) → laneMay s G n = false)) ∧
    (s.modl.tripped = true → s.turn ≠ .event .packageReset → step s = thenAdvance (.next s))

/-- The machine after reset (R364, R365, R373): no group, context, launch, packet or operation; eight dies, each WAKING with the least capability words of its
generation (log 5); the time base in FREE_RUN with no source; memory with nothing listed, in its canonical form, and maps in order.
That memory and scratch read 0 is log 3, the time log 7, quotas log 8, intervals log 9, firmware log 10 and keys log 11. -/
def Obligations.ResetState : Prop :=
  let s := State.reset
  s.groups = [] ∧ s.ctxs = [] ∧ s.launches = [] ∧ s.acts = [] ∧ s.queues = [] ∧ s.pkts = [] ∧ s.ops = [] ∧ s.dies.length = 8 ∧
  (∀ d < 8, (s.die d).st = .waking ∧ capsOk (s.die d) = true) ∧ s.tb.state = 0 ∧ s.tb.source = 0 ∧ s.tb.offset = 0 ∧ s.modl.tripped = false ∧
  MemInv s ∧ (∀ a, memRead s.mem a = 0) ∧ Sorted s.groups ∧ Sorted s.pkts

/-- Every step, from whatever state, keeps memory in its canonical form (R230; what an unlisted place reads as is log 3): equal memories are equal data. -/
def Obligations.MemoryStaysCanonical : Prop := KeptBySteps MemInv

/-- Every step keeps the groups and the open packets in order, each under one key: the premise of the statements that name `Sorted`. -/
def Obligations.MapsStaySorted : Prop := KeptBySteps fun s => Sorted s.groups ∧ Sorted s.pkts

/-- From every state the step answers a next state: no instruction, packet, command or event that a turn names is refused, and none stops the machine. -/
def Obligations.EveryStateSteps : Prop := ∀ s, Runs s

namespace Sys2Proof.Claims

/-! ### The forms of phasers, tiles, sections and activities complete -/

/-- `i` answers a next state in which group `g` is `G'`; memory is as before. -/
def Completes (i : Instr) (s : State) (g : Nat) (G' : Group) : Prop := ∃ t, exec i s = .next t ∧ mget t.groups g = some G' ∧ t.mem = s.mem

/-- `i` and then, at its next turn, `i` again answer next states; after both, the pc of group `g` is past the word and the scalar registers are those of
`H`. -/
def CompletesInTwo (i : Instr) (s : State) (g : Nat) (G H : Group) : Prop :=
  ∃ t u G', exec i s = .next t ∧ exec i t = .next u ∧ mget u.groups g = some G' ∧ G'.pc = G.pc + 1 ∧ G'.sreg = H.sreg ∧ G'.wait = .none ∧ u.mem = s.mem

end Sys2Proof.Claims

/-- R195 to R199, R203 to R208, R346: phreg, phdrop, pharr, phaw, phwt, phqry, phdrain, wsplit and wret complete: for every state, member and operand that
pass the checks of R202 and R203, each answers a next state with the pc past its word and s_d as R203 gives it; phaw and phdrain do so at the turn after the
one in which they make the last arrival of their phase. -/
def Sys2Proof.Claims.PhaserFormsComplete : Prop :=
  ∀ s g G d a b mode pkg k, Scalar s g G → HasLaunch s G → G.audit = none →
    let n := (G.rs b).toNat
    (NamesPhaser s G a pkg k → k ≠ 0 →
      (∀ drain : Bool, n = drain.toNat → (drain = true → pkg = true) →
        (heldMemb s G k = none → mget G.memb k = none → (pkg = true → (G.memb.filter fun p => 64 ≤ p.1).length < 8) → (drain = true → NoDrain G) →
          let ag := if (s.ph G k).arr = 0 then (s.ph G k).cur else (s.ph G k).cur + 1
          Completes (.phreg d a b mode pkg) s g
            (past ({ G with memb := mput G.memb k { mode := mode, ag := ag, drain := drain } }.ws d (ag.setWidth 64)) 1)) ∧
        ∀ m, heldMemb s G k = some m → m.mode = mode → m.drain = drain →
          Completes (.phreg d a b mode pkg) s g (past ({ G with memb := mput G.memb k m }.ws d (m.ag.setWidth 64)) 1)) ∧
      ∀ m, mget G.memb k = some m →
        (m.drain = false → Completes (.phdrop a pkg) s g (past { G with memb := mdel G.memb k } 1)) ∧
        (m.drain = true → ∃ G', Completes (.phdrop a pkg) s g G' ∧ G'.pc = G.pc + 1 ∧ G'.sreg = G.sreg)) ∧
    (NamesPhaser s G a pkg k → Sorted s.groups → ∀ m, MayArrive s G k n m →
      (m.mode ≠ .wait → ∃ G', Completes (.pharr d a b pkg) s g G' ∧ G'.pc = G.pc + 1 ∧ G'.sreg = (G.ws d (m.ag.setWidth 64)).sreg) ∧
      (m.mode = .sw → (∀ p i q, G.wait ≠ .arrived p i q) → LastArrival s g G k n →
        CompletesInTwo (.phaw d a b pkg) s g G (G.ws d (m.ag.setWidth 64)))) ∧
    (NamesPhaser s G a pkg k → ∀ m, mget G.memb k = some m → m.mode ≠ .sig → (s.ph G k).broken = false → n < 2 ^ 32 →
      (∀ p i q, G.wait ≠ .arrived p i q) →
      let behind := ((s.ph G k).cur - BitVec.ofNat 32 n).toNat
      1 ≤ behind → behind ≤ 2 ^ 31 → ∃ f, Completes (.phwt a b pkg) s g (past { G with wait := .none, ord := f } 1)) ∧
    (NamesPhaser s G a pkg k → ∃ x, Completes (.phqry d a pkg) s g (past (G.ws d x) 1) ∧ x.extractLsb' 0 32 = (s.ph G k).cur ∧
      (mget G.memb k = none → x.extractLsb' 58 5 = 0) ∧ ∀ m, mget G.memb k = some m → x.getLsbD 62 = true ∧ x.extractLsb' 60 2 = m.mode.code) ∧
    (NamesPhaser s G a true k → Sorted s.groups → Sorted s.blocks → ∀ m, mget G.memb k = some m → m.mode = .sw → (∀ p i q, G.wait ≠ .arrived p i q) →
      let p := s.ph G k
      p.broken = false → m.ag = p.cur → 0 < n → n < 2 ^ 16 → (p.expect = none ∨ p.expect = some n) → unacked s (scalarEarlier s G) = [] → n ≤ p.arr + 1 →
        (if m.drain then p.root0 + m.hold else p.root0) = 2 ^ 32 → p.root1 ≤ 2 ^ 32 →
        CompletesInTwo (.phdrain d a b) s g G (G.ws d (m.ag.setWidth 64))) ∧
    ∀ B L ph m, mget s.blocks G.blk = some B → mget s.launches B.launch = some L → G.comp = none → ph < L.desc.pphasers → ph < 64 →
      mget G.memb (64 + ph) = some m →
      (drainOf G = some (ph, m) →
        let root := if m.ag = (s.ph G (64 + ph)).cur then (s.ph G (64 + ph)).root0 else (s.ph G (64 + ph)).root1
        let h := if m.hold < 2 then m.hold + min (2 ^ 16) root else m.hold
        2 ≤ h → Completes (.wsplit d) s g
          (past ({ G with memb := mput G.memb (64 + ph) { m with hold := h - h / 2 } }.ws d
            (BitVec.ofNat 64 (2 ^ 56 * ph + 2 ^ 32 * (m.ag.toNat % 2 ^ 24) + h / 2 % 2 ^ 32))) 1)) ∧
      ∀ phase c, (G.rs a).toNat = 2 ^ 56 * ph + 2 ^ 32 * phase + c → 0 < c → c < 2 ^ 32 → phase < 2 ^ 24 →
        phase = (s.ph G (64 + ph)).cur.toNat % 2 ^ 24 ∨ phase = ((s.ph G (64 + ph)).cur + 1).toNat % 2 ^ 24 →
        (m.drain = true → phase = m.ag.toNat % 2 ^ 24 →
          Completes (.wret a) s g (past { G with memb := mput G.memb (64 + ph) { m with hold := m.hold + c } } 1)) ∧
        (m.drain = false ∨ phase ≠ m.ag.toNat % 2 ^ 24 → ∃ G', Completes (.wret a) s g G' ∧ G'.pc = G.pc + 1 ∧ G'.sreg = G.sreg)

/-- R296, R297, R301, R303, R304, R325: disp, dlqry, wupok, sndon and sndoff complete. A disp asks, the dispenser answers, and disp goes on with the
answer in s_d: a returned tile, else the next one, else -1; -2 after wrap time. dlqry of a compensation reads the time to the end of its budget. -/
def Sys2Proof.Claims.TileFormsComplete : Prop :=
  ∀ s g G B L d dl, Scalar s g G → mget s.blocks G.blk = some B → mget s.launches B.launch = some L →
    (G.wait = .none → G.comp = none → G.audit = none →
      ¬ (L.dispWrapped = false ∧ L.desc.flags.getLsbD 3 = true ∧ L.handed = L.desc.wrapafter ∧ L.desc.wrapafter < L.desc.tilespace) →
      let x : Word :=
        if L.dispWrapped then 0xFFFFFFFFFFFFFFFE else match L.returns with
          | y :: _ => BitVec.ofNat 64 y
          | [] => if L.next < L.desc.tilespace then BitVec.ofNat 64 L.next else 0xFFFFFFFFFFFFFFFF
      ∃ t u v G', exec (.disp d) s = .next t ∧ exec (.dispenserRequest g) t = .next u ∧ exec (.disp d) u = .next v ∧ mget v.groups g = some G' ∧
        G'.pc = G.pc + 1 ∧ G'.sreg = (G.ws d x).sreg ∧ G'.wait = .none ∧ v.mem = s.mem) ∧
    (let target := if G.comp.isSome then B.budgetEnd else if dl then L.deadline else L.wrap
     Completes (.dlqry d dl) s g (past (G.ws d (match target with
       | some x => BitVec.ofInt 64 ((x : Int) - s.now)
       | none => 0x7FFFFFFFFFFFFFFF)) 1)) ∧
    (unacked s (scalarEarlier s G) = [] → Completes .wupok s g (past G 1)) ∧
    (G.sect = none → Completes .sndon s g (past { G with sect := some ((s.die (G.core / 16)).clk, 0) } 1)) ∧
    (G.sect ≠ none → Completes .sndoff s g (past { G with sect := none } 1))

/-- R320 to R323: actopen, actseal, actend, actabn and actdep complete: with an operand that R321 allows, with the group's entry OPEN and its writes
acknowledged, with the activity RUNNING and no OPEN entry in its launch, once the abandonment that it waits for has ended, and with the number of an activity
that is RUNNING, ENDED, unknown or the group's own. -/
def Sys2Proof.Claims.ActivityFormsComplete : Prop :=
  ∀ s g G d a commute k A, Scalar s g G → InActivity s G k A → mget s.acts k = some A → G.audit = none →
    (let x := (G.rs a).toNat
     ∀ e, x % 2 ^ 16 < 2 ^ 12 → x / 2 ^ 24 % 2 ^ 8 = 0 → x / 2 ^ 32 ≠ 0 → A.tab[x / 2 ^ 16 % 2 ^ 8]? = some e → x % 2 ^ 12 < e.s →
       slotsOf e ≤ s.workset G → (∀ q, ¬ HoldsOpen A G q) → A.st = .running → A.entries.length < 65536 →
       Completes (.actopen d a commute) s g (past ({ G with openEntry := some s.actSeq }.ws d (BitVec.ofNat 64 s.actSeq)) 1)) ∧
    ((∃ q, HoldsOpen A G q) → unacked s (scalarEarlier s G) = [] → Completes .actseal s g (past { G with openEntry := none } 1)) ∧
    ((∀ q, ¬ HoldsOpen A G q) → A.st = .running → openHeld s A = false → Completes .actend s g (past { G with wait := .none } 1)) ∧
    (G.wait = .abandoned → A.st = .abandoned → Completes .actabn s g (past { G with wait := .none, openEntry := none } 1)) ∧
    (G.wait ≠ .abandoned → 0 < (G.rs a).toNat → (G.rs a).toNat < 2 ^ 32 → A.deps.length < 16 →
      (∀ p ∈ s.acts, p.2.ctx = A.ctx → p.2.id.toNat = (G.rs a).toNat → p.1 = k ∨ p.2.st = .running ∨ p.2.st = .ended) →
      Completes (.actdep a) s g (past G 1))

/-- R195 to R199, R203 to R208, R296, R297, R301, R303, R304, R320 to R323, R346: every form of the phasers, of tiles and sections and of activities
completes where its checks pass. -/
def Obligations.PhaserTileActivityFormsComplete : Prop :=
  Sys2Proof.Claims.PhaserFormsComplete ∧ Sys2Proof.Claims.TileFormsComplete ∧ Sys2Proof.Claims.ActivityFormsComplete
end

