-- ==== Sys2Proof/Laws/Cache.lean ====
section
/-!
SUPPORT. What an access does to the caches and their directories changes nothing else (R256 to R266).
-/

namespace Sys2Proof.Machine

/-- From `s` to `t` at most the coherence state has changed. -/
def CohOnly (s t : State) : Prop := t = { s with coh := t.coh }

namespace CohOnly

theorem refl (s : State) : CohOnly s s := rfl

theorem trans {s t u : State} (h : CohOnly s t) (k : CohOnly t u) : CohOnly s u := by
  unfold CohOnly at *; rw [k, h]

theorem set (s : State) (c : Coherence) : CohOnly s { s with coh := c } := rfl

theorem mem {s t : State} (h : CohOnly s t) : t.mem = s.mem := by rw [h]
theorem groups {s t : State} (h : CohOnly s t) : t.groups = s.groups := by rw [h]
theorem ops {s t : State} (h : CohOnly s t) : t.ops = s.ops := by rw [h]
theorem pkts {s t : State} (h : CohOnly s t) : t.pkts = s.pkts := by rw [h]

theorem foldl {α : Type} {f : State → α → State} (h : ∀ s x, CohOnly s (f s x)) (l : List α) (s : State) : CohOnly s (l.foldl f s) := by
  induction l generalizing s with
  | nil => exact refl s
  | cons x l ih => exact (h s x).trans (ih _)

/-- A fold that carries something beside the state. -/
theorem foldl_fst {α β : Type} {f : State × β → α → State × β} (h : ∀ x a, CohOnly x.1 (f x a).1) (l : List α) (x : State × β) :
    CohOnly x.1 (l.foldl f x).1 := by
  induction l generalizing x with
  | nil => exact refl _
  | cons a l ih => exact (h x a).trans (ih _)

/-- A fold of steps that may wait. -/
theorem foldl_bind {α : Type} {f : State → α → Option State} (h : ∀ s x t, f s x = some t → CohOnly s t) (l : List α) {o : Option State} {t : State}
    (ht : l.foldl (fun o x => o.bind fun s => f s x) o = some t) : ∃ s, o = some s ∧ CohOnly s t := by
  induction l generalizing o with
  | nil => exact ⟨t, ht, refl t⟩
  | cons x l ih =>
    obtain ⟨u, hu, hut⟩ := ih ht
    cases o with
    | none => simp at hu
    | some s => exact ⟨s, rfl, (h s x u (by simpa using hu)).trans hut⟩

end CohOnly

theorem setGirth_coh (s : State) (D : Dir) : CohOnly s (s.setGirth D) := rfl
theorem setHome_coh (s : State) (d : Nat) (D : Dir) : CohOnly s (s.setHome d D) := rfl
theorem setL1_coh (s : State) (core line : Nat) (st : Moesi) : CohOnly s (s.setL1 core line st) := rfl

theorem syncL1_coh (s : State) (d line : Nat) : CohOnly s (syncL1 s d line) := rfl

theorem markUp_coh (s : State) (d line : Nat) : CohOnly s (markUp s d line) := by
  unfold markUp; split
  · exact setGirth_coh _ _
  · exact CohOnly.refl s

theorem drainHome_coh (s : State) (d line : Nat) : CohOnly s (drainHome s d line) :=
  ((setHome_coh _ _ _).trans (syncL1_coh _ _ _)).trans (CohOnly.foldl (fun _ _ => markUp_coh _ _ _) _ _)

theorem syncDie_coh (s : State) (line d : Nat) : CohOnly s (syncDie s line d) := by
  have sync (D : State → Dir) : CohOnly s (syncL1 ((drainHome s d line).setHome d (D (drainHome s d line))) d line) :=
    ((drainHome_coh _ _ _).trans (setHome_coh _ _ _)).trans (syncL1_coh _ _ _)
  have soft (b : Bool) (D : State → Dir) :
      CohOnly s (if b then s else syncL1 ((drainHome s d line).setHome d (D (drainHome s d line))) d line) := by
    split
    · exact CohOnly.refl s
    · exact sync D
  unfold syncDie
  split
  · exact sync fun s => (s.home d).clear line
  · exact soft _ fun s => (s.home d).soften line true
  · exact soft _ fun s => (s.home d).soften line false
  · exact CohOnly.refl s

theorem syncDies_coh (s : State) (line : Nat) : CohOnly s (syncDies s line) := CohOnly.foldl (fun _ _ => syncDie_coh _ _ _) _ _

theorem drainGirth_coh (s : State) (line : Nat) : CohOnly s (drainGirth s line) :=
  CohOnly.trans (t := s.setGirth _) rfl (CohOnly.foldl (fun _ _ => syncDies_coh _ _) _ _)

theorem fetchHost_coh (s : State) (line : Nat) : CohOnly s (fetchHost s line) := rfl

theorem dropHost_coh (s : State) (line : Nat) : CohOnly s (dropHost s line) := rfl

theorem dieRoom_coh {s t : State} {d line : Nat} (h : dieRoom s d line = some t) : CohOnly s t := by
  unfold dieRoom at h
  split at h
  · cases h; rfl
  · obtain ⟨l, -, rfl⟩ := Option.map_eq_some_iff.1 h
    exact CohOnly.trans (t := s.setGirth _) rfl (syncDie_coh _ _ _)

theorem sliceRoom_coh {s t : State} {d c line : Nat} (h : sliceRoom s d c line = some t) : CohOnly s t := by
  unfold sliceRoom at h
  split at h
  · cases h; rfl
  · obtain ⟨l, -, rfl⟩ := Option.map_eq_some_iff.1 h
    exact (setHome_coh _ _ _).trans (syncL1_coh _ _ _)

theorem l1Room_coh (s : State) (core line : Nat) : CohOnly s (l1Room s core line) := by
  unfold l1Room; extract_lets m; split <;> rfl

theorem dieTakes_coh {s t : State} {d line : Nat} {st : Moesi} (h : dieTakes s d line st = some t) : CohOnly s t := by
  unfold dieTakes at h
  extract_lets D at h
  split at h
  · cases h; rfl
  · obtain ⟨u, hu, h⟩ := Option.bind_eq_some_iff.1 h
    obtain ⟨E, -, rfl⟩ := Option.map_eq_some_iff.1 h
    exact ((dieRoom_coh hu).trans (setGirth_coh _ _)).trans (syncDies_coh _ _)

theorem sliceTakes_coh {s t : State} {core line : Nat} {st : Moesi} (h : sliceTakes s core line st = some t) : CohOnly s t := by
  unfold sliceTakes at h
  obtain ⟨u, hu, h⟩ := Option.bind_eq_some_iff.1 h
  refine (dieTakes_coh hu).trans ?_
  split at h
  · cases h; rfl
  · obtain ⟨v, hv, h⟩ := Option.bind_eq_some_iff.1 h
    obtain ⟨E, -, rfl⟩ := Option.map_eq_some_iff.1 h
    exact ((sliceRoom_coh hv).trans (setHome_coh _ _ _)).trans (syncL1_coh _ _ _)

theorem coreTakes_coh {s t : State} {core line : Nat} {st : Moesi} (h : coreTakes s core line st = some t) : CohOnly s t := by
  unfold coreTakes at h
  obtain ⟨u, hu, rfl⟩ := Option.map_eq_some_iff.1 h
  exact ((sliceTakes_coh hu).trans ((l1Room_coh _ _ _).trans (CohOnly.foldl (fun _ _ => setL1_coh _ _ _ _) _ _))).trans (setL1_coh _ _ _ _)

theorem dieReads_coh {s t : State} {d line : Nat} (h : dieReads s d line = some t) : CohOnly s t := by
  unfold dieReads at h
  split at h
  · cases h; rfl
  · obtain ⟨u, hu, h⟩ := Option.bind_eq_some_iff.1 h
    obtain ⟨E, -, rfl⟩ := Option.map_eq_some_iff.1 h
    exact (((dieRoom_coh hu).trans (fetchHost_coh _ _)).trans (setGirth_coh _ _)).trans (syncDies_coh _ _)

theorem sliceReads_coh {s t : State} {core line : Nat} (h : sliceReads s core line = some t) : CohOnly s t := by
  unfold sliceReads at h
  dsimp only at h
  split at h
  · cases h; rfl
  · obtain ⟨u, hu, h⟩ := Option.bind_eq_some_iff.1 h
    obtain ⟨v, hv, h⟩ := Option.bind_eq_some_iff.1 h
    obtain ⟨E, -, rfl⟩ := Option.map_eq_some_iff.1 h
    exact (((dieReads_coh hu).trans (sliceRoom_coh hv)).trans (setHome_coh _ _ _)).trans (syncL1_coh _ _ _)

theorem coreReads_coh {s t : State} {core line : Nat} (h : coreReads s core line = some t) : CohOnly s t := by
  unfold coreReads at h
  split at h
  · cases h; rfl
  · obtain ⟨u, hu, rfl⟩ := Option.map_eq_some_iff.1 h
    refine (sliceReads_coh hu).trans ?_
    extract_lets v
    have hv : CohOnly u v := by unfold v; split <;> rfl
    exact (hv.trans (l1Room_coh _ _ _)).trans (setL1_coh _ _ _ _)

theorem homeTakes_coh {s t : State} {d line : Nat} (h : homeTakes s d line = some t) : CohOnly s t := by
  unfold homeTakes at h
  obtain ⟨u, hu, h⟩ := Option.bind_eq_some_iff.1 h
  refine (dieTakes_coh hu).trans ?_
  split at h
  · contradiction
  · cases h; rfl

theorem portTakes_coh {s t : State} {line : Nat} (h : portTakes s line = some t) : CohOnly s t := by
  unfold portTakes at h
  split at h
  · contradiction
  · cases h; exact CohOnly.trans (t := s.setGirth _) rfl (syncDies_coh _ _)

theorem portReads_coh {s t : State} {line : Nat} (h : portReads s line = some t) : CohOnly s t := by
  unfold portReads at h
  split at h
  · contradiction
  · cases h; exact ((fetchHost_coh _ _).trans (setGirth_coh _ _)).trans (syncDies_coh _ _)

theorem girthTakes_coh (s : State) (line : Nat) : CohOnly s (girthTakes s line) :=
  ((drainGirth_coh _ _).trans (setGirth_coh _ _)).trans (syncDies_coh _ _)

theorem hostShares_coh (s : State) (line : Nat) : CohOnly s (hostShares s line) :=
  ((drainGirth_coh _ _).trans (setGirth_coh _ _)).trans (syncDies_coh _ _)

theorem hostReads_coh (s : State) (line : Nat) : CohOnly s (hostReads s line) :=
  ((drainGirth_coh _ _).trans (setGirth_coh _ _)).trans (syncDies_coh _ _)

theorem noteHost_coh (s : State) (line : Nat) : CohOnly s (noteHost s line) := by
  unfold noteHost; extract_lets l; split <;> rfl

theorem reachDie_coh {s t : State} {core line : Nat} (h : reachDie s core line = some t) : CohOnly s t := by
  unfold reachDie at h
  split at h
  · contradiction
  · obtain ⟨u, hu, rfl⟩ := Option.map_eq_some_iff.1 h
    exact (coreTakes_coh hu).trans (fetchHost_coh _ _)

/-- An access that reaches its line changes the caches only. -/
theorem reachLine_coh {s t : State} {v : Via} {write : Bool} {loc : Nat} (h : reachLine s v write loc = some t) : CohOnly s t := by
  unfold reachLine at h
  extract_lets line at h
  split at h
  · cases h; rfl
  · split at h
    · cases h; exact noteHost_coh _ _
    · split at h
      · cases h; rfl
      · split at h
        · contradiction
        · split at h
          · split at h
            · exact coreTakes_coh h
            · exact portTakes_coh h
          · split at h
            · exact coreReads_coh h
            · exact portReads_coh h
          · split at h
            · exact homeTakes_coh h
            · exact portTakes_coh h
          · split at h
            · exact dieReads_coh h
            · exact portReads_coh h
          · exact portTakes_coh h
          · exact portReads_coh h

theorem reachBytes_coh {s t : State} {v : Via} {write : Bool} {loc n : Nat} (h : reachBytes s v write loc n = some t) : CohOnly s t := by
  obtain ⟨u, hu, hut⟩ := CohOnly.foldl_bind (fun _ _ _ h => reachLine_coh h) _ h
  cases hu; exact hut

theorem girthReaches_coh (s : State) (pa : Nat) : CohOnly s (girthReaches s pa) := by
  unfold girthReaches
  split
  · exact (girthTakes_coh _ _).trans (dropHost_coh _ _)
  · split
    · exact noteHost_coh _ _
    · exact CohOnly.refl s

theorem homeReaches_coh (s : State) (d pa : Nat) : CohOnly s (homeReaches s d pa) := by
  unfold homeReaches
  extract_lets u
  have hu : CohOnly s u := ((drainGirth_coh _ _).trans (drainHome_coh _ _ _)).trans (dropHost_coh _ _)
  cases h : reachLine u (.home d) true pa with
  | none => exact hu.trans (girthReaches_coh _ _)
  | some t => exact hu.trans (reachLine_coh h)

end Sys2Proof.Machine
end

