-- ==== Sys2Proof/Laws/Maps.lean ====
section
/-!
SUPPORT. What the sparse maps and memory do: reads after writes, and the canonical form of memory.
-/

namespace Sys2Proof.Machine

/-! ### Sparse maps -/

@[simp] theorem mget_nil {β : Type} (i : Nat) : mget ([] : SMap β) i = none := rfl

@[simp] theorem mget_mput_same {β : Type} (m : SMap β) (i : Nat) (x : β) : mget (mput m i x) i = some x := by
  induction m with
  | nil => simp [mput, mget]
  | cons p m ih =>
    obtain ⟨k, v⟩ := p
    simp only [mput]
    split
    · simp [mget]
    · split
      · simp [mget]
      · rename_i h₁ _
        simp [mget, h₁, ih]

theorem mget_mput_ne {β : Type} (m : SMap β) {i j : Nat} (x : β) (h : j ≠ i) : mget (mput m i x) j = mget m j := by
  induction m with
  | nil => simp [mput, mget, h]
  | cons p m ih =>
    obtain ⟨k, v⟩ := p
    simp only [mput]
    split
    · rename_i hik
      subst hik
      simp [mget, h]
    · split
      · simp [mget, h]
      · simp only [mget, ih]

theorem mget_mput {β : Type} (m : SMap β) (i j : Nat) (x : β) : mget (mput m i x) j = if j = i then some x else mget m j := by
  by_cases h : j = i
  · subst h; simp
  · simp [h, mget_mput_ne m x h]

theorem mget_mupd {β : Type} (m : SMap β) (i j : Nat) (f : β → β) :
    mget (mupd m i f) j = if j = i then (mget m i).map f else mget m j := by
  unfold mupd
  cases h : mget m i with
  | none =>
    by_cases hj : j = i
    · subst hj; simp [h]
    · simp [hj]
  | some y => simp [mget_mput]

@[simp] theorem mget_mupd_same {β : Type} (m : SMap β) (i : Nat) (f : β → β) : mget (mupd m i f) i = (mget m i).map f := by
  simp [mget_mupd]

theorem mget_mdel {β : Type} (m : SMap β) (i j : Nat) : mget (mdel m i) j = if j = i then none else mget m j := by
  induction m with
  | nil => simp [mdel]
  | cons p m ih =>
    obtain ⟨k, v⟩ := p
    by_cases h : k = i
    · subst h
      have e : mdel ((k, v) :: m) k = mdel m k := by simp [mdel]
      rw [e, ih]
      split <;> simp [mget, *]
    · have e : mdel ((k, v) :: m) i = (k, v) :: mdel m i := by simp [mdel, h]
      rw [e]
      simp only [mget, ih]
      split
      · rename_i hj; simp [hj, h]
      · rfl

/-- A read after `mset`: the new value, also when that is what an unlisted number reads as. -/
theorem getD_mset {β : Type} [DecidableEq β] (d : β) (m : SMap β) (i j : Nat) (x : β) :
    (mget (mset d m i x) j).getD d = if j = i then x else (mget m j).getD d := by
  unfold mset
  split <;> rename_i hx
  · rw [mget_mdel]; split <;> simp [hx]
  · rw [mget_mput]; split <;> simp

/-! ### Canonical maps: keys strictly rising -/

/-- The keys of a map rise strictly. -/
def Rising {β : Type} (m : SMap β) : Prop := m.Pairwise fun p q => p.1 < q.1

theorem rising_filter {β : Type} {m : SMap β} (f : Nat × β → Bool) (hm : Rising m) : Rising (m.filter f) :=
  List.Pairwise.filter f hm

theorem mem_mput {β : Type} {m : SMap β} {i : Nat} {x : β} {p : Nat × β} (h : p ∈ mput m i x) : p = (i, x) ∨ p ∈ m := by
  induction m with
  | nil => simpa [mput] using h
  | cons q m ih =>
    obtain ⟨k, v⟩ := q
    simp only [mput] at h
    split at h
    · simp only [List.mem_cons] at h ⊢; tauto
    · split at h
      · simp only [List.mem_cons] at h ⊢; tauto
      · simp only [List.mem_cons] at h ⊢
        rcases h with h | h
        · exact .inr (.inl h)
        · rcases ih h with h | h
          · exact .inl h
          · exact .inr (.inr h)

theorem rising_mput {β : Type} {m : SMap β} (i : Nat) (x : β) (hm : Rising m) : Rising (mput m i x) := by
  induction m with
  | nil => simp [mput, Rising]
  | cons q m ih =>
    obtain ⟨k, v⟩ := q
    have hr : Rising m := (List.pairwise_cons.mp hm).2
    have hl : ∀ p ∈ m, k < p.1 := (List.pairwise_cons.mp hm).1
    simp only [mput]
    split
    · rename_i h; subst h
      exact List.pairwise_cons.mpr ⟨hl, hr⟩
    · split
      · rename_i h₁ h₂
        refine List.pairwise_cons.mpr ⟨?_, hm⟩
        intro p hp
        rcases List.mem_cons.mp hp with h | h
        · rw [h]; exact h₂
        · have := hl p h; show i < p.1; omega
      · rename_i h₁ h₂
        refine List.pairwise_cons.mpr ⟨?_, ih hr⟩
        intro p hp
        rcases mem_mput hp with h | h
        · rw [h]; show k < i; omega
        · exact hl p h

/-! ### Memory -/

/-- The canonical form as a fact about the list. -/
theorem memWf_iff (m : List Host.Cell) : memWf m = true ↔ Rising m ∧ ∀ c ∈ m, c.2 ≠ memDefault := by
  induction m with
  | nil => simp [memWf, Rising]
  | cons c m ih =>
    cases m with
    | nil => simp [memWf, Rising]
    | cons d m =>
      simp only [memWf, Bool.and_eq_true, bne_iff_ne, ne_eq, decide_eq_true_eq, ih]
      constructor
      · rintro ⟨⟨h₁, h₂⟩, h₃, h₄⟩
        refine ⟨List.pairwise_cons.mpr ⟨?_, h₃⟩, ?_⟩
        · intro p hp
          rcases List.mem_cons.mp hp with h | h
          · rw [h]; exact h₂
          · have := (List.pairwise_cons.mp h₃).1 p h
            show c.1 < p.1
            omega
        · intro p hp
          rcases List.mem_cons.mp hp with h | h
          · rw [h]; exact h₁
          · exact h₄ p h
      · rintro ⟨h₁, h₂⟩
        have h₃ := List.pairwise_cons.mp h₁
        exact ⟨⟨h₂ c (by simp), h₃.1 d (by simp)⟩, h₃.2, fun p hp => h₂ p (List.mem_cons_of_mem _ hp)⟩

theorem memWf_filter {m : List Host.Cell} (f : Host.Cell → Bool) (h : memWf m = true) : memWf (m.filter f) = true := by
  rw [memWf_iff] at h ⊢
  exact ⟨rising_filter f h.1, fun c hc => h.2 c (List.mem_of_mem_filter hc)⟩

/-- A write keeps the canonical form. -/
theorem memWf_memWrite {m : List Host.Cell} (a : Nat) (b : Byte) (h : memWf m = true) : memWf (memWrite m a b) = true := by
  unfold memWrite mset
  split
  · exact memWf_filter _ h
  · rename_i hb
    rw [memWf_iff] at h ⊢
    refine ⟨rising_mput a b h.1, fun c hc => ?_⟩
    rcases mem_mput hc with e | e
    · rw [e]; exact hb
    · exact h.2 c e

/-- A read after a write: the byte written there, and every other byte as it was. -/
theorem memRead_memWrite (m : List Host.Cell) (a x : Nat) (b : Byte) :
    memRead (memWrite m a b) x = if x = a then b else memRead m x := getD_mset memDefault m a x b

theorem memWf_writeLE {m : List Host.Cell} (a n x : Nat) (h : memWf m = true) : memWf (writeLE m a n x) = true := by
  induction n generalizing m a x with
  | zero => exact h
  | succ n ih => exact ih _ _ (memWf_memWrite _ _ h)

/-- A store changes no byte outside the bytes it stores to. -/
theorem memRead_writeLE_out (m : List Host.Cell) {a n y : Nat} (x : Nat) (hy : y < a ∨ a + n ≤ y) :
    memRead (writeLE m a n x) y = memRead m y := by
  induction n generalizing m a x with
  | zero => rfl
  | succ n ih =>
    have hne : y ≠ a := by omega
    rw [writeLE, ih _ (x / 256) (by omega), memRead_memWrite, if_neg hne]

/-- What a store leaves in its own bytes: byte `i` is byte `i` of the value. -/
theorem memRead_writeLE_in (m : List Host.Cell) {a n i : Nat} (x : Nat) (hi : i < n) :
    memRead (writeLE m a n x) (a + i) = BitVec.ofNat 8 (x / 256 ^ i) := by
  induction n generalizing m a x i with
  | zero => omega
  | succ n ih =>
    rw [writeLE]
    cases i with
    | zero =>
      rw [memRead_writeLE_out _ _ (by omega), memRead_memWrite]
      simp
    | succ i =>
      have e : a + (i + 1) = a + 1 + i := by omega
      rw [e, ih _ _ (by omega), Nat.div_div_eq_div_mul, Nat.pow_succ, Nat.mul_comm]

/-- A load of what a store of the same width left gives the value stored. -/
theorem readLE_writeLE (m : List Host.Cell) (a n x : Nat) : readLE (writeLE m a n x) a n = x % 256 ^ n := by
  have key : ∀ k i, i + k = n → readLE (writeLE m a n x) (a + i) k = x / 256 ^ i % 256 ^ k := by
    intro k
    induction k with
    | zero => intro i _; simp [readLE, Nat.mod_one]
    | succ k ih =>
      intro i hik
      have e : a + i + 1 = a + (i + 1) := by omega
      rw [readLE, memRead_writeLE_in m x (by omega), e, ih (i + 1) (by omega)]
      have h1 : (BitVec.ofNat 8 (x / 256 ^ i)).toNat = x / 256 ^ i % 256 := by simp
      have h2 : x / 256 ^ (i + 1) = x / 256 ^ i / 256 := by rw [Nat.pow_succ, Nat.div_div_eq_div_mul]
      rw [h1, h2, Nat.pow_succ, Nat.mul_comm (256 ^ k) 256, Nat.mod_mul]
  simpa using key n 0 (by omega)

end Sys2Proof.Machine
end

