-- ==== Sys2Proof/Laws/State.lean ====
section
/-!
SUPPORT. What the named updates of the state and of a group leave: one lemma per field and update.
-/

namespace Sys2Proof.Machine

/-! ### Updates of the state -/

@[simp] theorem State.grp_turn (s : State) (g : Nat) (G : Group) : (s.grp g G).turn = s.turn := rfl
@[simp] theorem State.grp_sched (s : State) (g : Nat) (G : Group) : (s.grp g G).sched = s.sched := rfl
@[simp] theorem State.grp_tick (s : State) (g : Nat) (G : Group) : (s.grp g G).tick = s.tick := rfl
@[simp] theorem State.grp_nextId (s : State) (g : Nat) (G : Group) : (s.grp g G).nextId = s.nextId := rfl
@[simp] theorem State.grp_now (s : State) (g : Nat) (G : Group) : (s.grp g G).now = s.now := rfl
@[simp] theorem State.grp_mem (s : State) (g : Nat) (G : Group) : (s.grp g G).mem = s.mem := rfl
@[simp] theorem State.grp_full (s : State) (g : Nat) (G : Group) : (s.grp g G).full = s.full := rfl
@[simp] theorem State.grp_tags (s : State) (g : Nat) (G : Group) : (s.grp g G).tags = s.tags := rfl
@[simp] theorem State.grp_poison (s : State) (g : Nat) (G : Group) : (s.grp g G).poison = s.poison := rfl
@[simp] theorem State.grp_acc (s : State) (g : Nat) (G : Group) : (s.grp g G).acc = s.acc := rfl
@[simp] theorem State.grp_accPoison (s : State) (g : Nat) (G : Group) : (s.grp g G).accPoison = s.accPoison := rfl
@[simp] theorem State.grp_groups (s : State) (g : Nat) (G : Group) : (s.grp g G).groups = mput s.groups g G := rfl
@[simp] theorem State.grp_ops (s : State) (g : Nat) (G : Group) : (s.grp g G).ops = s.ops := rfl
@[simp] theorem State.grp_runUnits (s : State) (g : Nat) (G : Group) : (s.grp g G).runUnits = s.runUnits := rfl
@[simp] theorem State.grp_copies (s : State) (g : Nat) (G : Group) : (s.grp g G).copies = s.copies := rfl
@[simp] theorem State.grp_chans (s : State) (g : Nat) (G : Group) : (s.grp g G).chans = s.chans := rfl
@[simp] theorem State.grp_fencedCores (s : State) (g : Nat) (G : Group) : (s.grp g G).fencedCores = s.fencedCores := rfl
@[simp] theorem State.grp_testing (s : State) (g : Nat) (G : Group) : (s.grp g G).testing = s.testing := rfl
@[simp] theorem State.grp_fieldTests (s : State) (g : Nat) (G : Group) : (s.grp g G).fieldTests = s.fieldTests := rfl
@[simp] theorem State.grp_suspects (s : State) (g : Nat) (G : Group) : (s.grp g G).suspects = s.suspects := rfl
@[simp] theorem State.grp_testEvery (s : State) (g : Nat) (G : Group) : (s.grp g G).testEvery = s.testEvery := rfl
@[simp] theorem State.grp_lastTest (s : State) (g : Nat) (G : Group) : (s.grp g G).lastTest = s.lastTest := rfl
@[simp] theorem State.grp_blocks (s : State) (g : Nat) (G : Group) : (s.grp g G).blocks = s.blocks := rfl
@[simp] theorem State.grp_launches (s : State) (g : Nat) (G : Group) : (s.grp g G).launches = s.launches := rfl
@[simp] theorem State.grp_acts (s : State) (g : Nat) (G : Group) : (s.grp g G).acts = s.acts := rfl
@[simp] theorem State.grp_actSeq (s : State) (g : Nat) (G : Group) : (s.grp g G).actSeq = s.actSeq := rfl
@[simp] theorem State.grp_audits (s : State) (g : Nat) (G : Group) : (s.grp g G).audits = s.audits := rfl
@[simp] theorem State.grp_ctxs (s : State) (g : Nat) (G : Group) : (s.grp g G).ctxs = s.ctxs := rfl
@[simp] theorem State.grp_vifs (s : State) (g : Nat) (G : Group) : (s.grp g G).vifs = s.vifs := rfl
@[simp] theorem State.grp_queues (s : State) (g : Nat) (G : Group) : (s.grp g G).queues = s.queues := rfl
@[simp] theorem State.grp_qdescs (s : State) (g : Nat) (G : Group) : (s.grp g G).qdescs = s.qdescs := rfl
@[simp] theorem State.grp_pkts (s : State) (g : Nat) (G : Group) : (s.grp g G).pkts = s.pkts := rfl
@[simp] theorem State.grp_batch (s : State) (g : Nat) (G : Group) : (s.grp g G).batch = s.batch := rfl
@[simp] theorem State.grp_dies (s : State) (g : Nat) (G : Group) : (s.grp g G).dies = s.dies := rfl
@[simp] theorem State.grp_coh (s : State) (g : Nat) (G : Group) : (s.grp g G).coh = s.coh := rfl
@[simp] theorem State.grp_tb (s : State) (g : Nat) (G : Group) : (s.grp g G).tb = s.tb := rfl
@[simp] theorem State.grp_ides (s : State) (g : Nat) (G : Group) : (s.grp g G).ides = s.ides := rfl
@[simp] theorem State.grp_spdm (s : State) (g : Nat) (G : Group) : (s.grp g G).spdm = s.spdm := rfl
@[simp] theorem State.grp_modl (s : State) (g : Nat) (G : Group) : (s.grp g G).modl = s.modl := rfl
@[simp] theorem State.grp_peers (s : State) (g : Nat) (G : Group) : (s.grp g G).peers = s.peers := rfl
@[simp] theorem State.grp_probes (s : State) (g : Nat) (G : Group) : (s.grp g G).probes = s.probes := rfl
@[simp] theorem State.grp_reserve (s : State) (g : Nat) (G : Group) : (s.grp g G).reserve = s.reserve := rfl
@[simp] theorem State.grp_hist (s : State) (g : Nat) (G : Group) : (s.grp g G).hist = s.hist := rfl
@[simp] theorem State.grp_wcount (s : State) (g : Nat) (G : Group) : (s.grp g G).wcount = s.wcount := rfl
@[simp] theorem State.grp_past (s : State) (g : Nat) (G : Group) : (s.grp g G).past = s.past := rfl
@[simp] theorem State.grp_seqs (s : State) (g : Nat) (G : Group) : (s.grp g G).seqs = s.seqs := rfl
@[simp] theorem State.grp_outside (s : State) (g : Nat) (G : Group) : (s.grp g G).outside = s.outside := rfl
@[simp] theorem State.grp_accSick (s : State) (g : Nat) (G : Group) : (s.grp g G).accSick = s.accSick := rfl
@[simp] theorem State.grp_tlbCore (s : State) (g : Nat) (G : Group) : (s.grp g G).tlbCore = s.tlbCore := rfl
@[simp] theorem State.grp_tlbCluster (s : State) (g : Nat) (G : Group) : (s.grp g G).tlbCluster = s.tlbCluster := rfl
@[simp] theorem State.grp_jams (s : State) (g : Nat) (G : Group) : (s.grp g G).jams = s.jams := rfl

@[simp] theorem State.modGrp_turn (s : State) (g : Nat) (f : Group → Group) : (s.modGrp g f).turn = s.turn := rfl
@[simp] theorem State.modGrp_sched (s : State) (g : Nat) (f : Group → Group) : (s.modGrp g f).sched = s.sched := rfl
@[simp] theorem State.modGrp_tick (s : State) (g : Nat) (f : Group → Group) : (s.modGrp g f).tick = s.tick := rfl
@[simp] theorem State.modGrp_nextId (s : State) (g : Nat) (f : Group → Group) : (s.modGrp g f).nextId = s.nextId := rfl
@[simp] theorem State.modGrp_now (s : State) (g : Nat) (f : Group → Group) : (s.modGrp g f).now = s.now := rfl
@[simp] theorem State.modGrp_mem (s : State) (g : Nat) (f : Group → Group) : (s.modGrp g f).mem = s.mem := rfl
@[simp] theorem State.modGrp_full (s : State) (g : Nat) (f : Group → Group) : (s.modGrp g f).full = s.full := rfl
@[simp] theorem State.modGrp_tags (s : State) (g : Nat) (f : Group → Group) : (s.modGrp g f).tags = s.tags := rfl
@[simp] theorem State.modGrp_poison (s : State) (g : Nat) (f : Group → Group) : (s.modGrp g f).poison = s.poison := rfl
@[simp] theorem State.modGrp_acc (s : State) (g : Nat) (f : Group → Group) : (s.modGrp g f).acc = s.acc := rfl
@[simp] theorem State.modGrp_accPoison (s : State) (g : Nat) (f : Group → Group) : (s.modGrp g f).accPoison = s.accPoison := rfl
@[simp] theorem State.modGrp_groups (s : State) (g : Nat) (f : Group → Group) : (s.modGrp g f).groups = mupd s.groups g f := rfl
@[simp] theorem State.modGrp_ops (s : State) (g : Nat) (f : Group → Group) : (s.modGrp g f).ops = s.ops := rfl
@[simp] theorem State.modGrp_runUnits (s : State) (g : Nat) (f : Group → Group) : (s.modGrp g f).runUnits = s.runUnits := rfl
@[simp] theorem State.modGrp_copies (s : State) (g : Nat) (f : Group → Group) : (s.modGrp g f).copies = s.copies := rfl
@[simp] theorem State.modGrp_chans (s : State) (g : Nat) (f : Group → Group) : (s.modGrp g f).chans = s.chans := rfl
@[simp] theorem State.modGrp_fencedCores (s : State) (g : Nat) (f : Group → Group) : (s.modGrp g f).fencedCores = s.fencedCores := rfl
@[simp] theorem State.modGrp_testing (s : State) (g : Nat) (f : Group → Group) : (s.modGrp g f).testing = s.testing := rfl
@[simp] theorem State.modGrp_fieldTests (s : State) (g : Nat) (f : Group → Group) : (s.modGrp g f).fieldTests = s.fieldTests := rfl
@[simp] theorem State.modGrp_suspects (s : State) (g : Nat) (f : Group → Group) : (s.modGrp g f).suspects = s.suspects := rfl
@[simp] theorem State.modGrp_testEvery (s : State) (g : Nat) (f : Group → Group) : (s.modGrp g f).testEvery = s.testEvery := rfl
@[simp] theorem State.modGrp_lastTest (s : State) (g : Nat) (f : Group → Group) : (s.modGrp g f).lastTest = s.lastTest := rfl
@[simp] theorem State.modGrp_blocks (s : State) (g : Nat) (f : Group → Group) : (s.modGrp g f).blocks = s.blocks := rfl
@[simp] theorem State.modGrp_launches (s : State) (g : Nat) (f : Group → Group) : (s.modGrp g f).launches = s.launches := rfl
@[simp] theorem State.modGrp_acts (s : State) (g : Nat) (f : Group → Group) : (s.modGrp g f).acts = s.acts := rfl
@[simp] theorem State.modGrp_actSeq (s : State) (g : Nat) (f : Group → Group) : (s.modGrp g f).actSeq = s.actSeq := rfl
@[simp] theorem State.modGrp_audits (s : State) (g : Nat) (f : Group → Group) : (s.modGrp g f).audits = s.audits := rfl
@[simp] theorem State.modGrp_ctxs (s : State) (g : Nat) (f : Group → Group) : (s.modGrp g f).ctxs = s.ctxs := rfl
@[simp] theorem State.modGrp_vifs (s : State) (g : Nat) (f : Group → Group) : (s.modGrp g f).vifs = s.vifs := rfl
@[simp] theorem State.modGrp_queues (s : State) (g : Nat) (f : Group → Group) : (s.modGrp g f).queues = s.queues := rfl
@[simp] theorem State.modGrp_qdescs (s : State) (g : Nat) (f : Group → Group) : (s.modGrp g f).qdescs = s.qdescs := rfl
@[simp] theorem State.modGrp_pkts (s : State) (g : Nat) (f : Group → Group) : (s.modGrp g f).pkts = s.pkts := rfl
@[simp] theorem State.modGrp_batch (s : State) (g : Nat) (f : Group → Group) : (s.modGrp g f).batch = s.batch := rfl
@[simp] theorem State.modGrp_dies (s : State) (g : Nat) (f : Group → Group) : (s.modGrp g f).dies = s.dies := rfl
@[simp] theorem State.modGrp_coh (s : State) (g : Nat) (f : Group → Group) : (s.modGrp g f).coh = s.coh := rfl
@[simp] theorem State.modGrp_tb (s : State) (g : Nat) (f : Group → Group) : (s.modGrp g f).tb = s.tb := rfl
@[simp] theorem State.modGrp_ides (s : State) (g : Nat) (f : Group → Group) : (s.modGrp g f).ides = s.ides := rfl
@[simp] theorem State.modGrp_spdm (s : State) (g : Nat) (f : Group → Group) : (s.modGrp g f).spdm = s.spdm := rfl
@[simp] theorem State.modGrp_modl (s : State) (g : Nat) (f : Group → Group) : (s.modGrp g f).modl = s.modl := rfl
@[simp] theorem State.modGrp_peers (s : State) (g : Nat) (f : Group → Group) : (s.modGrp g f).peers = s.peers := rfl
@[simp] theorem State.modGrp_probes (s : State) (g : Nat) (f : Group → Group) : (s.modGrp g f).probes = s.probes := rfl
@[simp] theorem State.modGrp_reserve (s : State) (g : Nat) (f : Group → Group) : (s.modGrp g f).reserve = s.reserve := rfl
@[simp] theorem State.modGrp_hist (s : State) (g : Nat) (f : Group → Group) : (s.modGrp g f).hist = s.hist := rfl
@[simp] theorem State.modGrp_wcount (s : State) (g : Nat) (f : Group → Group) : (s.modGrp g f).wcount = s.wcount := rfl
@[simp] theorem State.modGrp_past (s : State) (g : Nat) (f : Group → Group) : (s.modGrp g f).past = s.past := rfl
@[simp] theorem State.modGrp_seqs (s : State) (g : Nat) (f : Group → Group) : (s.modGrp g f).seqs = s.seqs := rfl
@[simp] theorem State.modGrp_outside (s : State) (g : Nat) (f : Group → Group) : (s.modGrp g f).outside = s.outside := rfl
@[simp] theorem State.modGrp_accSick (s : State) (g : Nat) (f : Group → Group) : (s.modGrp g f).accSick = s.accSick := rfl
@[simp] theorem State.modGrp_tlbCore (s : State) (g : Nat) (f : Group → Group) : (s.modGrp g f).tlbCore = s.tlbCore := rfl
@[simp] theorem State.modGrp_tlbCluster (s : State) (g : Nat) (f : Group → Group) : (s.modGrp g f).tlbCluster = s.tlbCluster := rfl
@[simp] theorem State.modGrp_jams (s : State) (g : Nat) (f : Group → Group) : (s.modGrp g f).jams = s.jams := rfl

@[simp] theorem State.modOp_turn (s : State) (k : Nat) (f : Op → Op) : (s.modOp k f).turn = s.turn := rfl
@[simp] theorem State.modOp_sched (s : State) (k : Nat) (f : Op → Op) : (s.modOp k f).sched = s.sched := rfl
@[simp] theorem State.modOp_tick (s : State) (k : Nat) (f : Op → Op) : (s.modOp k f).tick = s.tick := rfl
@[simp] theorem State.modOp_nextId (s : State) (k : Nat) (f : Op → Op) : (s.modOp k f).nextId = s.nextId := rfl
@[simp] theorem State.modOp_now (s : State) (k : Nat) (f : Op → Op) : (s.modOp k f).now = s.now := rfl
@[simp] theorem State.modOp_mem (s : State) (k : Nat) (f : Op → Op) : (s.modOp k f).mem = s.mem := rfl
@[simp] theorem State.modOp_full (s : State) (k : Nat) (f : Op → Op) : (s.modOp k f).full = s.full := rfl
@[simp] theorem State.modOp_tags (s : State) (k : Nat) (f : Op → Op) : (s.modOp k f).tags = s.tags := rfl
@[simp] theorem State.modOp_poison (s : State) (k : Nat) (f : Op → Op) : (s.modOp k f).poison = s.poison := rfl
@[simp] theorem State.modOp_acc (s : State) (k : Nat) (f : Op → Op) : (s.modOp k f).acc = s.acc := rfl
@[simp] theorem State.modOp_accPoison (s : State) (k : Nat) (f : Op → Op) : (s.modOp k f).accPoison = s.accPoison := rfl
@[simp] theorem State.modOp_groups (s : State) (k : Nat) (f : Op → Op) : (s.modOp k f).groups = s.groups := rfl
@[simp] theorem State.modOp_ops (s : State) (k : Nat) (f : Op → Op) : (s.modOp k f).ops = mupd s.ops k f := rfl
@[simp] theorem State.modOp_runUnits (s : State) (k : Nat) (f : Op → Op) : (s.modOp k f).runUnits = s.runUnits := rfl
@[simp] theorem State.modOp_copies (s : State) (k : Nat) (f : Op → Op) : (s.modOp k f).copies = s.copies := rfl
@[simp] theorem State.modOp_chans (s : State) (k : Nat) (f : Op → Op) : (s.modOp k f).chans = s.chans := rfl
@[simp] theorem State.modOp_fencedCores (s : State) (k : Nat) (f : Op → Op) : (s.modOp k f).fencedCores = s.fencedCores := rfl
@[simp] theorem State.modOp_testing (s : State) (k : Nat) (f : Op → Op) : (s.modOp k f).testing = s.testing := rfl
@[simp] theorem State.modOp_fieldTests (s : State) (k : Nat) (f : Op → Op) : (s.modOp k f).fieldTests = s.fieldTests := rfl
@[simp] theorem State.modOp_suspects (s : State) (k : Nat) (f : Op → Op) : (s.modOp k f).suspects = s.suspects := rfl
@[simp] theorem State.modOp_testEvery (s : State) (k : Nat) (f : Op → Op) : (s.modOp k f).testEvery = s.testEvery := rfl
@[simp] theorem State.modOp_lastTest (s : State) (k : Nat) (f : Op → Op) : (s.modOp k f).lastTest = s.lastTest := rfl
@[simp] theorem State.modOp_blocks (s : State) (k : Nat) (f : Op → Op) : (s.modOp k f).blocks = s.blocks := rfl
@[simp] theorem State.modOp_launches (s : State) (k : Nat) (f : Op → Op) : (s.modOp k f).launches = s.launches := rfl
@[simp] theorem State.modOp_acts (s : State) (k : Nat) (f : Op → Op) : (s.modOp k f).acts = s.acts := rfl
@[simp] theorem State.modOp_actSeq (s : State) (k : Nat) (f : Op → Op) : (s.modOp k f).actSeq = s.actSeq := rfl
@[simp] theorem State.modOp_audits (s : State) (k : Nat) (f : Op → Op) : (s.modOp k f).audits = s.audits := rfl
@[simp] theorem State.modOp_ctxs (s : State) (k : Nat) (f : Op → Op) : (s.modOp k f).ctxs = s.ctxs := rfl
@[simp] theorem State.modOp_vifs (s : State) (k : Nat) (f : Op → Op) : (s.modOp k f).vifs = s.vifs := rfl
@[simp] theorem State.modOp_queues (s : State) (k : Nat) (f : Op → Op) : (s.modOp k f).queues = s.queues := rfl
@[simp] theorem State.modOp_qdescs (s : State) (k : Nat) (f : Op → Op) : (s.modOp k f).qdescs = s.qdescs := rfl
@[simp] theorem State.modOp_pkts (s : State) (k : Nat) (f : Op → Op) : (s.modOp k f).pkts = s.pkts := rfl
@[simp] theorem State.modOp_batch (s : State) (k : Nat) (f : Op → Op) : (s.modOp k f).batch = s.batch := rfl
@[simp] theorem State.modOp_dies (s : State) (k : Nat) (f : Op → Op) : (s.modOp k f).dies = s.dies := rfl
@[simp] theorem State.modOp_coh (s : State) (k : Nat) (f : Op → Op) : (s.modOp k f).coh = s.coh := rfl
@[simp] theorem State.modOp_tb (s : State) (k : Nat) (f : Op → Op) : (s.modOp k f).tb = s.tb := rfl
@[simp] theorem State.modOp_ides (s : State) (k : Nat) (f : Op → Op) : (s.modOp k f).ides = s.ides := rfl
@[simp] theorem State.modOp_spdm (s : State) (k : Nat) (f : Op → Op) : (s.modOp k f).spdm = s.spdm := rfl
@[simp] theorem State.modOp_modl (s : State) (k : Nat) (f : Op → Op) : (s.modOp k f).modl = s.modl := rfl
@[simp] theorem State.modOp_peers (s : State) (k : Nat) (f : Op → Op) : (s.modOp k f).peers = s.peers := rfl
@[simp] theorem State.modOp_probes (s : State) (k : Nat) (f : Op → Op) : (s.modOp k f).probes = s.probes := rfl
@[simp] theorem State.modOp_reserve (s : State) (k : Nat) (f : Op → Op) : (s.modOp k f).reserve = s.reserve := rfl
@[simp] theorem State.modOp_hist (s : State) (k : Nat) (f : Op → Op) : (s.modOp k f).hist = s.hist := rfl
@[simp] theorem State.modOp_wcount (s : State) (k : Nat) (f : Op → Op) : (s.modOp k f).wcount = s.wcount := rfl
@[simp] theorem State.modOp_past (s : State) (k : Nat) (f : Op → Op) : (s.modOp k f).past = s.past := rfl
@[simp] theorem State.modOp_seqs (s : State) (k : Nat) (f : Op → Op) : (s.modOp k f).seqs = s.seqs := rfl
@[simp] theorem State.modOp_outside (s : State) (k : Nat) (f : Op → Op) : (s.modOp k f).outside = s.outside := rfl
@[simp] theorem State.modOp_accSick (s : State) (k : Nat) (f : Op → Op) : (s.modOp k f).accSick = s.accSick := rfl
@[simp] theorem State.modOp_tlbCore (s : State) (k : Nat) (f : Op → Op) : (s.modOp k f).tlbCore = s.tlbCore := rfl
@[simp] theorem State.modOp_tlbCluster (s : State) (k : Nat) (f : Op → Op) : (s.modOp k f).tlbCluster = s.tlbCluster := rfl
@[simp] theorem State.modOp_jams (s : State) (k : Nat) (f : Op → Op) : (s.modOp k f).jams = s.jams := rfl

@[simp] theorem State.modBlk_turn (s : State) (b : Nat) (f : Block → Block) : (s.modBlk b f).turn = s.turn := rfl
@[simp] theorem State.modBlk_sched (s : State) (b : Nat) (f : Block → Block) : (s.modBlk b f).sched = s.sched := rfl
@[simp] theorem State.modBlk_tick (s : State) (b : Nat) (f : Block → Block) : (s.modBlk b f).tick = s.tick := rfl
@[simp] theorem State.modBlk_nextId (s : State) (b : Nat) (f : Block → Block) : (s.modBlk b f).nextId = s.nextId := rfl
@[simp] theorem State.modBlk_now (s : State) (b : Nat) (f : Block → Block) : (s.modBlk b f).now = s.now := rfl
@[simp] theorem State.modBlk_mem (s : State) (b : Nat) (f : Block → Block) : (s.modBlk b f).mem = s.mem := rfl
@[simp] theorem State.modBlk_full (s : State) (b : Nat) (f : Block → Block) : (s.modBlk b f).full = s.full := rfl
@[simp] theorem State.modBlk_tags (s : State) (b : Nat) (f : Block → Block) : (s.modBlk b f).tags = s.tags := rfl
@[simp] theorem State.modBlk_poison (s : State) (b : Nat) (f : Block → Block) : (s.modBlk b f).poison = s.poison := rfl
@[simp] theorem State.modBlk_acc (s : State) (b : Nat) (f : Block → Block) : (s.modBlk b f).acc = s.acc := rfl
@[simp] theorem State.modBlk_accPoison (s : State) (b : Nat) (f : Block → Block) : (s.modBlk b f).accPoison = s.accPoison := rfl
@[simp] theorem State.modBlk_groups (s : State) (b : Nat) (f : Block → Block) : (s.modBlk b f).groups = s.groups := rfl
@[simp] theorem State.modBlk_ops (s : State) (b : Nat) (f : Block → Block) : (s.modBlk b f).ops = s.ops := rfl
@[simp] theorem State.modBlk_runUnits (s : State) (b : Nat) (f : Block → Block) : (s.modBlk b f).runUnits = s.runUnits := rfl
@[simp] theorem State.modBlk_copies (s : State) (b : Nat) (f : Block → Block) : (s.modBlk b f).copies = s.copies := rfl
@[simp] theorem State.modBlk_chans (s : State) (b : Nat) (f : Block → Block) : (s.modBlk b f).chans = s.chans := rfl
@[simp] theorem State.modBlk_fencedCores (s : State) (b : Nat) (f : Block → Block) : (s.modBlk b f).fencedCores = s.fencedCores := rfl
@[simp] theorem State.modBlk_testing (s : State) (b : Nat) (f : Block → Block) : (s.modBlk b f).testing = s.testing := rfl
@[simp] theorem State.modBlk_fieldTests (s : State) (b : Nat) (f : Block → Block) : (s.modBlk b f).fieldTests = s.fieldTests := rfl
@[simp] theorem State.modBlk_suspects (s : State) (b : Nat) (f : Block → Block) : (s.modBlk b f).suspects = s.suspects := rfl
@[simp] theorem State.modBlk_testEvery (s : State) (b : Nat) (f : Block → Block) : (s.modBlk b f).testEvery = s.testEvery := rfl
@[simp] theorem State.modBlk_lastTest (s : State) (b : Nat) (f : Block → Block) : (s.modBlk b f).lastTest = s.lastTest := rfl
@[simp] theorem State.modBlk_blocks (s : State) (b : Nat) (f : Block → Block) : (s.modBlk b f).blocks = mupd s.blocks b f := rfl
@[simp] theorem State.modBlk_launches (s : State) (b : Nat) (f : Block → Block) : (s.modBlk b f).launches = s.launches := rfl
@[simp] theorem State.modBlk_acts (s : State) (b : Nat) (f : Block → Block) : (s.modBlk b f).acts = s.acts := rfl
@[simp] theorem State.modBlk_actSeq (s : State) (b : Nat) (f : Block → Block) : (s.modBlk b f).actSeq = s.actSeq := rfl
@[simp] theorem State.modBlk_audits (s : State) (b : Nat) (f : Block → Block) : (s.modBlk b f).audits = s.audits := rfl
@[simp] theorem State.modBlk_ctxs (s : State) (b : Nat) (f : Block → Block) : (s.modBlk b f).ctxs = s.ctxs := rfl
@[simp] theorem State.modBlk_vifs (s : State) (b : Nat) (f : Block → Block) : (s.modBlk b f).vifs = s.vifs := rfl
@[simp] theorem State.modBlk_queues (s : State) (b : Nat) (f : Block → Block) : (s.modBlk b f).queues = s.queues := rfl
@[simp] theorem State.modBlk_qdescs (s : State) (b : Nat) (f : Block → Block) : (s.modBlk b f).qdescs = s.qdescs := rfl
@[simp] theorem State.modBlk_pkts (s : State) (b : Nat) (f : Block → Block) : (s.modBlk b f).pkts = s.pkts := rfl
@[simp] theorem State.modBlk_batch (s : State) (b : Nat) (f : Block → Block) : (s.modBlk b f).batch = s.batch := rfl
@[simp] theorem State.modBlk_dies (s : State) (b : Nat) (f : Block → Block) : (s.modBlk b f).dies = s.dies := rfl
@[simp] theorem State.modBlk_coh (s : State) (b : Nat) (f : Block → Block) : (s.modBlk b f).coh = s.coh := rfl
@[simp] theorem State.modBlk_tb (s : State) (b : Nat) (f : Block → Block) : (s.modBlk b f).tb = s.tb := rfl
@[simp] theorem State.modBlk_ides (s : State) (b : Nat) (f : Block → Block) : (s.modBlk b f).ides = s.ides := rfl
@[simp] theorem State.modBlk_spdm (s : State) (b : Nat) (f : Block → Block) : (s.modBlk b f).spdm = s.spdm := rfl
@[simp] theorem State.modBlk_modl (s : State) (b : Nat) (f : Block → Block) : (s.modBlk b f).modl = s.modl := rfl
@[simp] theorem State.modBlk_peers (s : State) (b : Nat) (f : Block → Block) : (s.modBlk b f).peers = s.peers := rfl
@[simp] theorem State.modBlk_probes (s : State) (b : Nat) (f : Block → Block) : (s.modBlk b f).probes = s.probes := rfl
@[simp] theorem State.modBlk_reserve (s : State) (b : Nat) (f : Block → Block) : (s.modBlk b f).reserve = s.reserve := rfl
@[simp] theorem State.modBlk_hist (s : State) (b : Nat) (f : Block → Block) : (s.modBlk b f).hist = s.hist := rfl
@[simp] theorem State.modBlk_wcount (s : State) (b : Nat) (f : Block → Block) : (s.modBlk b f).wcount = s.wcount := rfl
@[simp] theorem State.modBlk_past (s : State) (b : Nat) (f : Block → Block) : (s.modBlk b f).past = s.past := rfl
@[simp] theorem State.modBlk_seqs (s : State) (b : Nat) (f : Block → Block) : (s.modBlk b f).seqs = s.seqs := rfl
@[simp] theorem State.modBlk_outside (s : State) (b : Nat) (f : Block → Block) : (s.modBlk b f).outside = s.outside := rfl
@[simp] theorem State.modBlk_accSick (s : State) (b : Nat) (f : Block → Block) : (s.modBlk b f).accSick = s.accSick := rfl
@[simp] theorem State.modBlk_tlbCore (s : State) (b : Nat) (f : Block → Block) : (s.modBlk b f).tlbCore = s.tlbCore := rfl
@[simp] theorem State.modBlk_tlbCluster (s : State) (b : Nat) (f : Block → Block) : (s.modBlk b f).tlbCluster = s.tlbCluster := rfl
@[simp] theorem State.modBlk_jams (s : State) (b : Nat) (f : Block → Block) : (s.modBlk b f).jams = s.jams := rfl

@[simp] theorem State.modLaunch_turn (s : State) (l : Nat) (f : Launch → Launch) : (s.modLaunch l f).turn = s.turn := rfl
@[simp] theorem State.modLaunch_sched (s : State) (l : Nat) (f : Launch → Launch) : (s.modLaunch l f).sched = s.sched := rfl
@[simp] theorem State.modLaunch_tick (s : State) (l : Nat) (f : Launch → Launch) : (s.modLaunch l f).tick = s.tick := rfl
@[simp] theorem State.modLaunch_nextId (s : State) (l : Nat) (f : Launch → Launch) : (s.modLaunch l f).nextId = s.nextId := rfl
@[simp] theorem State.modLaunch_now (s : State) (l : Nat) (f : Launch → Launch) : (s.modLaunch l f).now = s.now := rfl
@[simp] theorem State.modLaunch_mem (s : State) (l : Nat) (f : Launch → Launch) : (s.modLaunch l f).mem = s.mem := rfl
@[simp] theorem State.modLaunch_full (s : State) (l : Nat) (f : Launch → Launch) : (s.modLaunch l f).full = s.full := rfl
@[simp] theorem State.modLaunch_tags (s : State) (l : Nat) (f : Launch → Launch) : (s.modLaunch l f).tags = s.tags := rfl
@[simp] theorem State.modLaunch_poison (s : State) (l : Nat) (f : Launch → Launch) : (s.modLaunch l f).poison = s.poison := rfl
@[simp] theorem State.modLaunch_acc (s : State) (l : Nat) (f : Launch → Launch) : (s.modLaunch l f).acc = s.acc := rfl
@[simp] theorem State.modLaunch_accPoison (s : State) (l : Nat) (f : Launch → Launch) : (s.modLaunch l f).accPoison = s.accPoison := rfl
@[simp] theorem State.modLaunch_groups (s : State) (l : Nat) (f : Launch → Launch) : (s.modLaunch l f).groups = s.groups := rfl
@[simp] theorem State.modLaunch_ops (s : State) (l : Nat) (f : Launch → Launch) : (s.modLaunch l f).ops = s.ops := rfl
@[simp] theorem State.modLaunch_runUnits (s : State) (l : Nat) (f : Launch → Launch) : (s.modLaunch l f).runUnits = s.runUnits := rfl
@[simp] theorem State.modLaunch_copies (s : State) (l : Nat) (f : Launch → Launch) : (s.modLaunch l f).copies = s.copies := rfl
@[simp] theorem State.modLaunch_chans (s : State) (l : Nat) (f : Launch → Launch) : (s.modLaunch l f).chans = s.chans := rfl
@[simp] theorem State.modLaunch_fencedCores (s : State) (l : Nat) (f : Launch → Launch) : (s.modLaunch l f).fencedCores = s.fencedCores := rfl
@[simp] theorem State.modLaunch_testing (s : State) (l : Nat) (f : Launch → Launch) : (s.modLaunch l f).testing = s.testing := rfl
@[simp] theorem State.modLaunch_fieldTests (s : State) (l : Nat) (f : Launch → Launch) : (s.modLaunch l f).fieldTests = s.fieldTests := rfl
@[simp] theorem State.modLaunch_suspects (s : State) (l : Nat) (f : Launch → Launch) : (s.modLaunch l f).suspects = s.suspects := rfl
@[simp] theorem State.modLaunch_testEvery (s : State) (l : Nat) (f : Launch → Launch) : (s.modLaunch l f).testEvery = s.testEvery := rfl
@[simp] theorem State.modLaunch_lastTest (s : State) (l : Nat) (f : Launch → Launch) : (s.modLaunch l f).lastTest = s.lastTest := rfl
@[simp] theorem State.modLaunch_blocks (s : State) (l : Nat) (f : Launch → Launch) : (s.modLaunch l f).blocks = s.blocks := rfl
@[simp] theorem State.modLaunch_launches (s : State) (l : Nat) (f : Launch → Launch) : (s.modLaunch l f).launches = mupd s.launches l f := rfl
@[simp] theorem State.modLaunch_acts (s : State) (l : Nat) (f : Launch → Launch) : (s.modLaunch l f).acts = s.acts := rfl
@[simp] theorem State.modLaunch_actSeq (s : State) (l : Nat) (f : Launch → Launch) : (s.modLaunch l f).actSeq = s.actSeq := rfl
@[simp] theorem State.modLaunch_audits (s : State) (l : Nat) (f : Launch → Launch) : (s.modLaunch l f).audits = s.audits := rfl
@[simp] theorem State.modLaunch_ctxs (s : State) (l : Nat) (f : Launch → Launch) : (s.modLaunch l f).ctxs = s.ctxs := rfl
@[simp] theorem State.modLaunch_vifs (s : State) (l : Nat) (f : Launch → Launch) : (s.modLaunch l f).vifs = s.vifs := rfl
@[simp] theorem State.modLaunch_queues (s : State) (l : Nat) (f : Launch → Launch) : (s.modLaunch l f).queues = s.queues := rfl
@[simp] theorem State.modLaunch_qdescs (s : State) (l : Nat) (f : Launch → Launch) : (s.modLaunch l f).qdescs = s.qdescs := rfl
@[simp] theorem State.modLaunch_pkts (s : State) (l : Nat) (f : Launch → Launch) : (s.modLaunch l f).pkts = s.pkts := rfl
@[simp] theorem State.modLaunch_batch (s : State) (l : Nat) (f : Launch → Launch) : (s.modLaunch l f).batch = s.batch := rfl
@[simp] theorem State.modLaunch_dies (s : State) (l : Nat) (f : Launch → Launch) : (s.modLaunch l f).dies = s.dies := rfl
@[simp] theorem State.modLaunch_coh (s : State) (l : Nat) (f : Launch → Launch) : (s.modLaunch l f).coh = s.coh := rfl
@[simp] theorem State.modLaunch_tb (s : State) (l : Nat) (f : Launch → Launch) : (s.modLaunch l f).tb = s.tb := rfl
@[simp] theorem State.modLaunch_ides (s : State) (l : Nat) (f : Launch → Launch) : (s.modLaunch l f).ides = s.ides := rfl
@[simp] theorem State.modLaunch_spdm (s : State) (l : Nat) (f : Launch → Launch) : (s.modLaunch l f).spdm = s.spdm := rfl
@[simp] theorem State.modLaunch_modl (s : State) (l : Nat) (f : Launch → Launch) : (s.modLaunch l f).modl = s.modl := rfl
@[simp] theorem State.modLaunch_peers (s : State) (l : Nat) (f : Launch → Launch) : (s.modLaunch l f).peers = s.peers := rfl
@[simp] theorem State.modLaunch_probes (s : State) (l : Nat) (f : Launch → Launch) : (s.modLaunch l f).probes = s.probes := rfl
@[simp] theorem State.modLaunch_reserve (s : State) (l : Nat) (f : Launch → Launch) : (s.modLaunch l f).reserve = s.reserve := rfl
@[simp] theorem State.modLaunch_hist (s : State) (l : Nat) (f : Launch → Launch) : (s.modLaunch l f).hist = s.hist := rfl
@[simp] theorem State.modLaunch_wcount (s : State) (l : Nat) (f : Launch → Launch) : (s.modLaunch l f).wcount = s.wcount := rfl
@[simp] theorem State.modLaunch_past (s : State) (l : Nat) (f : Launch → Launch) : (s.modLaunch l f).past = s.past := rfl
@[simp] theorem State.modLaunch_seqs (s : State) (l : Nat) (f : Launch → Launch) : (s.modLaunch l f).seqs = s.seqs := rfl
@[simp] theorem State.modLaunch_outside (s : State) (l : Nat) (f : Launch → Launch) : (s.modLaunch l f).outside = s.outside := rfl
@[simp] theorem State.modLaunch_accSick (s : State) (l : Nat) (f : Launch → Launch) : (s.modLaunch l f).accSick = s.accSick := rfl
@[simp] theorem State.modLaunch_tlbCore (s : State) (l : Nat) (f : Launch → Launch) : (s.modLaunch l f).tlbCore = s.tlbCore := rfl
@[simp] theorem State.modLaunch_tlbCluster (s : State) (l : Nat) (f : Launch → Launch) : (s.modLaunch l f).tlbCluster = s.tlbCluster := rfl
@[simp] theorem State.modLaunch_jams (s : State) (l : Nat) (f : Launch → Launch) : (s.modLaunch l f).jams = s.jams := rfl

@[simp] theorem State.modCtx_turn (s : State) (c : Nat) (f : Context → Context) : (s.modCtx c f).turn = s.turn := rfl
@[simp] theorem State.modCtx_sched (s : State) (c : Nat) (f : Context → Context) : (s.modCtx c f).sched = s.sched := rfl
@[simp] theorem State.modCtx_tick (s : State) (c : Nat) (f : Context → Context) : (s.modCtx c f).tick = s.tick := rfl
@[simp] theorem State.modCtx_nextId (s : State) (c : Nat) (f : Context → Context) : (s.modCtx c f).nextId = s.nextId := rfl
@[simp] theorem State.modCtx_now (s : State) (c : Nat) (f : Context → Context) : (s.modCtx c f).now = s.now := rfl
@[simp] theorem State.modCtx_mem (s : State) (c : Nat) (f : Context → Context) : (s.modCtx c f).mem = s.mem := rfl
@[simp] theorem State.modCtx_full (s : State) (c : Nat) (f : Context → Context) : (s.modCtx c f).full = s.full := rfl
@[simp] theorem State.modCtx_tags (s : State) (c : Nat) (f : Context → Context) : (s.modCtx c f).tags = s.tags := rfl
@[simp] theorem State.modCtx_poison (s : State) (c : Nat) (f : Context → Context) : (s.modCtx c f).poison = s.poison := rfl
@[simp] theorem State.modCtx_acc (s : State) (c : Nat) (f : Context → Context) : (s.modCtx c f).acc = s.acc := rfl
@[simp] theorem State.modCtx_accPoison (s : State) (c : Nat) (f : Context → Context) : (s.modCtx c f).accPoison = s.accPoison := rfl
@[simp] theorem State.modCtx_groups (s : State) (c : Nat) (f : Context → Context) : (s.modCtx c f).groups = s.groups := rfl
@[simp] theorem State.modCtx_ops (s : State) (c : Nat) (f : Context → Context) : (s.modCtx c f).ops = s.ops := rfl
@[simp] theorem State.modCtx_runUnits (s : State) (c : Nat) (f : Context → Context) : (s.modCtx c f).runUnits = s.runUnits := rfl
@[simp] theorem State.modCtx_copies (s : State) (c : Nat) (f : Context → Context) : (s.modCtx c f).copies = s.copies := rfl
@[simp] theorem State.modCtx_chans (s : State) (c : Nat) (f : Context → Context) : (s.modCtx c f).chans = s.chans := rfl
@[simp] theorem State.modCtx_fencedCores (s : State) (c : Nat) (f : Context → Context) : (s.modCtx c f).fencedCores = s.fencedCores := rfl
@[simp] theorem State.modCtx_testing (s : State) (c : Nat) (f : Context → Context) : (s.modCtx c f).testing = s.testing := rfl
@[simp] theorem State.modCtx_fieldTests (s : State) (c : Nat) (f : Context → Context) : (s.modCtx c f).fieldTests = s.fieldTests := rfl
@[simp] theorem State.modCtx_suspects (s : State) (c : Nat) (f : Context → Context) : (s.modCtx c f).suspects = s.suspects := rfl
@[simp] theorem State.modCtx_testEvery (s : State) (c : Nat) (f : Context → Context) : (s.modCtx c f).testEvery = s.testEvery := rfl
@[simp] theorem State.modCtx_lastTest (s : State) (c : Nat) (f : Context → Context) : (s.modCtx c f).lastTest = s.lastTest := rfl
@[simp] theorem State.modCtx_blocks (s : State) (c : Nat) (f : Context → Context) : (s.modCtx c f).blocks = s.blocks := rfl
@[simp] theorem State.modCtx_launches (s : State) (c : Nat) (f : Context → Context) : (s.modCtx c f).launches = s.launches := rfl
@[simp] theorem State.modCtx_acts (s : State) (c : Nat) (f : Context → Context) : (s.modCtx c f).acts = s.acts := rfl
@[simp] theorem State.modCtx_actSeq (s : State) (c : Nat) (f : Context → Context) : (s.modCtx c f).actSeq = s.actSeq := rfl
@[simp] theorem State.modCtx_audits (s : State) (c : Nat) (f : Context → Context) : (s.modCtx c f).audits = s.audits := rfl
@[simp] theorem State.modCtx_ctxs (s : State) (c : Nat) (f : Context → Context) : (s.modCtx c f).ctxs = mupd s.ctxs c f := rfl
@[simp] theorem State.modCtx_vifs (s : State) (c : Nat) (f : Context → Context) : (s.modCtx c f).vifs = s.vifs := rfl
@[simp] theorem State.modCtx_queues (s : State) (c : Nat) (f : Context → Context) : (s.modCtx c f).queues = s.queues := rfl
@[simp] theorem State.modCtx_qdescs (s : State) (c : Nat) (f : Context → Context) : (s.modCtx c f).qdescs = s.qdescs := rfl
@[simp] theorem State.modCtx_pkts (s : State) (c : Nat) (f : Context → Context) : (s.modCtx c f).pkts = s.pkts := rfl
@[simp] theorem State.modCtx_batch (s : State) (c : Nat) (f : Context → Context) : (s.modCtx c f).batch = s.batch := rfl
@[simp] theorem State.modCtx_dies (s : State) (c : Nat) (f : Context → Context) : (s.modCtx c f).dies = s.dies := rfl
@[simp] theorem State.modCtx_coh (s : State) (c : Nat) (f : Context → Context) : (s.modCtx c f).coh = s.coh := rfl
@[simp] theorem State.modCtx_tb (s : State) (c : Nat) (f : Context → Context) : (s.modCtx c f).tb = s.tb := rfl
@[simp] theorem State.modCtx_ides (s : State) (c : Nat) (f : Context → Context) : (s.modCtx c f).ides = s.ides := rfl
@[simp] theorem State.modCtx_spdm (s : State) (c : Nat) (f : Context → Context) : (s.modCtx c f).spdm = s.spdm := rfl
@[simp] theorem State.modCtx_modl (s : State) (c : Nat) (f : Context → Context) : (s.modCtx c f).modl = s.modl := rfl
@[simp] theorem State.modCtx_peers (s : State) (c : Nat) (f : Context → Context) : (s.modCtx c f).peers = s.peers := rfl
@[simp] theorem State.modCtx_probes (s : State) (c : Nat) (f : Context → Context) : (s.modCtx c f).probes = s.probes := rfl
@[simp] theorem State.modCtx_reserve (s : State) (c : Nat) (f : Context → Context) : (s.modCtx c f).reserve = s.reserve := rfl
@[simp] theorem State.modCtx_hist (s : State) (c : Nat) (f : Context → Context) : (s.modCtx c f).hist = s.hist := rfl
@[simp] theorem State.modCtx_wcount (s : State) (c : Nat) (f : Context → Context) : (s.modCtx c f).wcount = s.wcount := rfl
@[simp] theorem State.modCtx_past (s : State) (c : Nat) (f : Context → Context) : (s.modCtx c f).past = s.past := rfl
@[simp] theorem State.modCtx_seqs (s : State) (c : Nat) (f : Context → Context) : (s.modCtx c f).seqs = s.seqs := rfl
@[simp] theorem State.modCtx_outside (s : State) (c : Nat) (f : Context → Context) : (s.modCtx c f).outside = s.outside := rfl
@[simp] theorem State.modCtx_accSick (s : State) (c : Nat) (f : Context → Context) : (s.modCtx c f).accSick = s.accSick := rfl
@[simp] theorem State.modCtx_tlbCore (s : State) (c : Nat) (f : Context → Context) : (s.modCtx c f).tlbCore = s.tlbCore := rfl
@[simp] theorem State.modCtx_tlbCluster (s : State) (c : Nat) (f : Context → Context) : (s.modCtx c f).tlbCluster = s.tlbCluster := rfl
@[simp] theorem State.modCtx_jams (s : State) (c : Nat) (f : Context → Context) : (s.modCtx c f).jams = s.jams := rfl

@[simp] theorem State.modDie_turn (s : State) (d : Nat) (f : Die → Die) : (s.modDie d f).turn = s.turn := rfl
@[simp] theorem State.modDie_sched (s : State) (d : Nat) (f : Die → Die) : (s.modDie d f).sched = s.sched := rfl
@[simp] theorem State.modDie_tick (s : State) (d : Nat) (f : Die → Die) : (s.modDie d f).tick = s.tick := rfl
@[simp] theorem State.modDie_nextId (s : State) (d : Nat) (f : Die → Die) : (s.modDie d f).nextId = s.nextId := rfl
@[simp] theorem State.modDie_now (s : State) (d : Nat) (f : Die → Die) : (s.modDie d f).now = s.now := rfl
@[simp] theorem State.modDie_mem (s : State) (d : Nat) (f : Die → Die) : (s.modDie d f).mem = s.mem := rfl
@[simp] theorem State.modDie_full (s : State) (d : Nat) (f : Die → Die) : (s.modDie d f).full = s.full := rfl
@[simp] theorem State.modDie_tags (s : State) (d : Nat) (f : Die → Die) : (s.modDie d f).tags = s.tags := rfl
@[simp] theorem State.modDie_poison (s : State) (d : Nat) (f : Die → Die) : (s.modDie d f).poison = s.poison := rfl
@[simp] theorem State.modDie_acc (s : State) (d : Nat) (f : Die → Die) : (s.modDie d f).acc = s.acc := rfl
@[simp] theorem State.modDie_accPoison (s : State) (d : Nat) (f : Die → Die) : (s.modDie d f).accPoison = s.accPoison := rfl
@[simp] theorem State.modDie_groups (s : State) (d : Nat) (f : Die → Die) : (s.modDie d f).groups = s.groups := rfl
@[simp] theorem State.modDie_ops (s : State) (d : Nat) (f : Die → Die) : (s.modDie d f).ops = s.ops := rfl
@[simp] theorem State.modDie_runUnits (s : State) (d : Nat) (f : Die → Die) : (s.modDie d f).runUnits = s.runUnits := rfl
@[simp] theorem State.modDie_copies (s : State) (d : Nat) (f : Die → Die) : (s.modDie d f).copies = s.copies := rfl
@[simp] theorem State.modDie_chans (s : State) (d : Nat) (f : Die → Die) : (s.modDie d f).chans = s.chans := rfl
@[simp] theorem State.modDie_fencedCores (s : State) (d : Nat) (f : Die → Die) : (s.modDie d f).fencedCores = s.fencedCores := rfl
@[simp] theorem State.modDie_testing (s : State) (d : Nat) (f : Die → Die) : (s.modDie d f).testing = s.testing := rfl
@[simp] theorem State.modDie_fieldTests (s : State) (d : Nat) (f : Die → Die) : (s.modDie d f).fieldTests = s.fieldTests := rfl
@[simp] theorem State.modDie_suspects (s : State) (d : Nat) (f : Die → Die) : (s.modDie d f).suspects = s.suspects := rfl
@[simp] theorem State.modDie_testEvery (s : State) (d : Nat) (f : Die → Die) : (s.modDie d f).testEvery = s.testEvery := rfl
@[simp] theorem State.modDie_lastTest (s : State) (d : Nat) (f : Die → Die) : (s.modDie d f).lastTest = s.lastTest := rfl
@[simp] theorem State.modDie_blocks (s : State) (d : Nat) (f : Die → Die) : (s.modDie d f).blocks = s.blocks := rfl
@[simp] theorem State.modDie_launches (s : State) (d : Nat) (f : Die → Die) : (s.modDie d f).launches = s.launches := rfl
@[simp] theorem State.modDie_acts (s : State) (d : Nat) (f : Die → Die) : (s.modDie d f).acts = s.acts := rfl
@[simp] theorem State.modDie_actSeq (s : State) (d : Nat) (f : Die → Die) : (s.modDie d f).actSeq = s.actSeq := rfl
@[simp] theorem State.modDie_audits (s : State) (d : Nat) (f : Die → Die) : (s.modDie d f).audits = s.audits := rfl
@[simp] theorem State.modDie_ctxs (s : State) (d : Nat) (f : Die → Die) : (s.modDie d f).ctxs = s.ctxs := rfl
@[simp] theorem State.modDie_vifs (s : State) (d : Nat) (f : Die → Die) : (s.modDie d f).vifs = s.vifs := rfl
@[simp] theorem State.modDie_queues (s : State) (d : Nat) (f : Die → Die) : (s.modDie d f).queues = s.queues := rfl
@[simp] theorem State.modDie_qdescs (s : State) (d : Nat) (f : Die → Die) : (s.modDie d f).qdescs = s.qdescs := rfl
@[simp] theorem State.modDie_pkts (s : State) (d : Nat) (f : Die → Die) : (s.modDie d f).pkts = s.pkts := rfl
@[simp] theorem State.modDie_batch (s : State) (d : Nat) (f : Die → Die) : (s.modDie d f).batch = s.batch := rfl
@[simp] theorem State.modDie_dies (s : State) (d : Nat) (f : Die → Die) : (s.modDie d f).dies = s.dies.modify d f := rfl
@[simp] theorem State.modDie_coh (s : State) (d : Nat) (f : Die → Die) : (s.modDie d f).coh = s.coh := rfl
@[simp] theorem State.modDie_tb (s : State) (d : Nat) (f : Die → Die) : (s.modDie d f).tb = s.tb := rfl
@[simp] theorem State.modDie_ides (s : State) (d : Nat) (f : Die → Die) : (s.modDie d f).ides = s.ides := rfl
@[simp] theorem State.modDie_spdm (s : State) (d : Nat) (f : Die → Die) : (s.modDie d f).spdm = s.spdm := rfl
@[simp] theorem State.modDie_modl (s : State) (d : Nat) (f : Die → Die) : (s.modDie d f).modl = s.modl := rfl
@[simp] theorem State.modDie_peers (s : State) (d : Nat) (f : Die → Die) : (s.modDie d f).peers = s.peers := rfl
@[simp] theorem State.modDie_probes (s : State) (d : Nat) (f : Die → Die) : (s.modDie d f).probes = s.probes := rfl
@[simp] theorem State.modDie_reserve (s : State) (d : Nat) (f : Die → Die) : (s.modDie d f).reserve = s.reserve := rfl
@[simp] theorem State.modDie_hist (s : State) (d : Nat) (f : Die → Die) : (s.modDie d f).hist = s.hist := rfl
@[simp] theorem State.modDie_wcount (s : State) (d : Nat) (f : Die → Die) : (s.modDie d f).wcount = s.wcount := rfl
@[simp] theorem State.modDie_past (s : State) (d : Nat) (f : Die → Die) : (s.modDie d f).past = s.past := rfl
@[simp] theorem State.modDie_seqs (s : State) (d : Nat) (f : Die → Die) : (s.modDie d f).seqs = s.seqs := rfl
@[simp] theorem State.modDie_outside (s : State) (d : Nat) (f : Die → Die) : (s.modDie d f).outside = s.outside := rfl
@[simp] theorem State.modDie_accSick (s : State) (d : Nat) (f : Die → Die) : (s.modDie d f).accSick = s.accSick := rfl
@[simp] theorem State.modDie_tlbCore (s : State) (d : Nat) (f : Die → Die) : (s.modDie d f).tlbCore = s.tlbCore := rfl
@[simp] theorem State.modDie_tlbCluster (s : State) (d : Nat) (f : Die → Die) : (s.modDie d f).tlbCluster = s.tlbCluster := rfl
@[simp] theorem State.modDie_jams (s : State) (d : Nat) (f : Die → Die) : (s.modDie d f).jams = s.jams := rfl

@[simp] theorem State.fresh_key (s : State) : s.fresh.1 = s.nextId := rfl
@[simp] theorem State.fresh_turn (s : State) : s.fresh.2.turn = s.turn := rfl
@[simp] theorem State.fresh_sched (s : State) : s.fresh.2.sched = s.sched := rfl
@[simp] theorem State.fresh_tick (s : State) : s.fresh.2.tick = s.tick := rfl
@[simp] theorem State.fresh_nextId (s : State) : s.fresh.2.nextId = s.nextId + 1 := rfl
@[simp] theorem State.fresh_now (s : State) : s.fresh.2.now = s.now := rfl
@[simp] theorem State.fresh_mem (s : State) : s.fresh.2.mem = s.mem := rfl
@[simp] theorem State.fresh_full (s : State) : s.fresh.2.full = s.full := rfl
@[simp] theorem State.fresh_tags (s : State) : s.fresh.2.tags = s.tags := rfl
@[simp] theorem State.fresh_poison (s : State) : s.fresh.2.poison = s.poison := rfl
@[simp] theorem State.fresh_acc (s : State) : s.fresh.2.acc = s.acc := rfl
@[simp] theorem State.fresh_accPoison (s : State) : s.fresh.2.accPoison = s.accPoison := rfl
@[simp] theorem State.fresh_groups (s : State) : s.fresh.2.groups = s.groups := rfl
@[simp] theorem State.fresh_ops (s : State) : s.fresh.2.ops = s.ops := rfl
@[simp] theorem State.fresh_runUnits (s : State) : s.fresh.2.runUnits = s.runUnits := rfl
@[simp] theorem State.fresh_copies (s : State) : s.fresh.2.copies = s.copies := rfl
@[simp] theorem State.fresh_chans (s : State) : s.fresh.2.chans = s.chans := rfl
@[simp] theorem State.fresh_fencedCores (s : State) : s.fresh.2.fencedCores = s.fencedCores := rfl
@[simp] theorem State.fresh_testing (s : State) : s.fresh.2.testing = s.testing := rfl
@[simp] theorem State.fresh_fieldTests (s : State) : s.fresh.2.fieldTests = s.fieldTests := rfl
@[simp] theorem State.fresh_suspects (s : State) : s.fresh.2.suspects = s.suspects := rfl
@[simp] theorem State.fresh_testEvery (s : State) : s.fresh.2.testEvery = s.testEvery := rfl
@[simp] theorem State.fresh_lastTest (s : State) : s.fresh.2.lastTest = s.lastTest := rfl
@[simp] theorem State.fresh_blocks (s : State) : s.fresh.2.blocks = s.blocks := rfl
@[simp] theorem State.fresh_launches (s : State) : s.fresh.2.launches = s.launches := rfl
@[simp] theorem State.fresh_acts (s : State) : s.fresh.2.acts = s.acts := rfl
@[simp] theorem State.fresh_actSeq (s : State) : s.fresh.2.actSeq = s.actSeq := rfl
@[simp] theorem State.fresh_audits (s : State) : s.fresh.2.audits = s.audits := rfl
@[simp] theorem State.fresh_ctxs (s : State) : s.fresh.2.ctxs = s.ctxs := rfl
@[simp] theorem State.fresh_vifs (s : State) : s.fresh.2.vifs = s.vifs := rfl
@[simp] theorem State.fresh_queues (s : State) : s.fresh.2.queues = s.queues := rfl
@[simp] theorem State.fresh_qdescs (s : State) : s.fresh.2.qdescs = s.qdescs := rfl
@[simp] theorem State.fresh_pkts (s : State) : s.fresh.2.pkts = s.pkts := rfl
@[simp] theorem State.fresh_batch (s : State) : s.fresh.2.batch = s.batch := rfl
@[simp] theorem State.fresh_dies (s : State) : s.fresh.2.dies = s.dies := rfl
@[simp] theorem State.fresh_coh (s : State) : s.fresh.2.coh = s.coh := rfl
@[simp] theorem State.fresh_tb (s : State) : s.fresh.2.tb = s.tb := rfl
@[simp] theorem State.fresh_ides (s : State) : s.fresh.2.ides = s.ides := rfl
@[simp] theorem State.fresh_spdm (s : State) : s.fresh.2.spdm = s.spdm := rfl
@[simp] theorem State.fresh_modl (s : State) : s.fresh.2.modl = s.modl := rfl
@[simp] theorem State.fresh_peers (s : State) : s.fresh.2.peers = s.peers := rfl
@[simp] theorem State.fresh_probes (s : State) : s.fresh.2.probes = s.probes := rfl
@[simp] theorem State.fresh_reserve (s : State) : s.fresh.2.reserve = s.reserve := rfl
@[simp] theorem State.fresh_hist (s : State) : s.fresh.2.hist = s.hist := rfl
@[simp] theorem State.fresh_wcount (s : State) : s.fresh.2.wcount = s.wcount := rfl
@[simp] theorem State.fresh_past (s : State) : s.fresh.2.past = s.past := rfl
@[simp] theorem State.fresh_seqs (s : State) : s.fresh.2.seqs = s.seqs := rfl
@[simp] theorem State.fresh_outside (s : State) : s.fresh.2.outside = s.outside := rfl
@[simp] theorem State.fresh_accSick (s : State) : s.fresh.2.accSick = s.accSick := rfl
@[simp] theorem State.fresh_tlbCore (s : State) : s.fresh.2.tlbCore = s.tlbCore := rfl
@[simp] theorem State.fresh_tlbCluster (s : State) : s.fresh.2.tlbCluster = s.tlbCluster := rfl
@[simp] theorem State.fresh_jams (s : State) : s.fresh.2.jams = s.jams := rfl

@[simp] theorem State.write_turn (s : State) (ctx : Option Nat) (a n x : Nat) (st : Stamp) : (s.write ctx a n x st).turn = s.turn := rfl
@[simp] theorem State.write_sched (s : State) (ctx : Option Nat) (a n x : Nat) (st : Stamp) : (s.write ctx a n x st).sched = s.sched := rfl
@[simp] theorem State.write_tick (s : State) (ctx : Option Nat) (a n x : Nat) (st : Stamp) : (s.write ctx a n x st).tick = s.tick := rfl
@[simp] theorem State.write_nextId (s : State) (ctx : Option Nat) (a n x : Nat) (st : Stamp) : (s.write ctx a n x st).nextId = s.nextId := rfl
@[simp] theorem State.write_now (s : State) (ctx : Option Nat) (a n x : Nat) (st : Stamp) : (s.write ctx a n x st).now = s.now := rfl
@[simp] theorem State.write_mem (s : State) (ctx : Option Nat) (a n x : Nat) (st : Stamp) : (s.write ctx a n x st).mem = writeLE s.mem a n x := rfl
@[simp] theorem State.write_full (s : State) (ctx : Option Nat) (a n x : Nat) (st : Stamp) : (s.write ctx a n x st).full = s.full := rfl
@[simp] theorem State.write_tags (s : State) (ctx : Option Nat) (a n x : Nat) (st : Stamp) : (s.write ctx a n x st).tags = s.tags := rfl
@[simp] theorem State.write_poison (s : State) (ctx : Option Nat) (a n x : Nat) (st : Stamp) : (s.write ctx a n x st).poison = s.poison := rfl
@[simp] theorem State.write_acc (s : State) (ctx : Option Nat) (a n x : Nat) (st : Stamp) : (s.write ctx a n x st).acc = s.acc := rfl
@[simp] theorem State.write_accPoison (s : State) (ctx : Option Nat) (a n x : Nat) (st : Stamp) : (s.write ctx a n x st).accPoison = s.accPoison := rfl
@[simp] theorem State.write_groups (s : State) (ctx : Option Nat) (a n x : Nat) (st : Stamp) : (s.write ctx a n x st).groups = s.groups := rfl
@[simp] theorem State.write_ops (s : State) (ctx : Option Nat) (a n x : Nat) (st : Stamp) : (s.write ctx a n x st).ops = s.ops := rfl
@[simp] theorem State.write_runUnits (s : State) (ctx : Option Nat) (a n x : Nat) (st : Stamp) : (s.write ctx a n x st).runUnits = s.runUnits := rfl
@[simp] theorem State.write_copies (s : State) (ctx : Option Nat) (a n x : Nat) (st : Stamp) : (s.write ctx a n x st).copies = s.copies := rfl
@[simp] theorem State.write_chans (s : State) (ctx : Option Nat) (a n x : Nat) (st : Stamp) : (s.write ctx a n x st).chans = s.chans := rfl
@[simp] theorem State.write_fencedCores (s : State) (ctx : Option Nat) (a n x : Nat) (st : Stamp) : (s.write ctx a n x st).fencedCores = s.fencedCores := rfl
@[simp] theorem State.write_testing (s : State) (ctx : Option Nat) (a n x : Nat) (st : Stamp) : (s.write ctx a n x st).testing = s.testing := rfl
@[simp] theorem State.write_fieldTests (s : State) (ctx : Option Nat) (a n x : Nat) (st : Stamp) : (s.write ctx a n x st).fieldTests = s.fieldTests := rfl
@[simp] theorem State.write_suspects (s : State) (ctx : Option Nat) (a n x : Nat) (st : Stamp) : (s.write ctx a n x st).suspects = s.suspects := rfl
@[simp] theorem State.write_testEvery (s : State) (ctx : Option Nat) (a n x : Nat) (st : Stamp) : (s.write ctx a n x st).testEvery = s.testEvery := rfl
@[simp] theorem State.write_lastTest (s : State) (ctx : Option Nat) (a n x : Nat) (st : Stamp) : (s.write ctx a n x st).lastTest = s.lastTest := rfl
@[simp] theorem State.write_blocks (s : State) (ctx : Option Nat) (a n x : Nat) (st : Stamp) : (s.write ctx a n x st).blocks = s.blocks := rfl
@[simp] theorem State.write_launches (s : State) (ctx : Option Nat) (a n x : Nat) (st : Stamp) : (s.write ctx a n x st).launches = notePage s ctx a := rfl
@[simp] theorem State.write_acts (s : State) (ctx : Option Nat) (a n x : Nat) (st : Stamp) : (s.write ctx a n x st).acts = s.acts := rfl
@[simp] theorem State.write_actSeq (s : State) (ctx : Option Nat) (a n x : Nat) (st : Stamp) : (s.write ctx a n x st).actSeq = s.actSeq := rfl
@[simp] theorem State.write_audits (s : State) (ctx : Option Nat) (a n x : Nat) (st : Stamp) : (s.write ctx a n x st).audits = s.audits := rfl
@[simp] theorem State.write_ctxs (s : State) (ctx : Option Nat) (a n x : Nat) (st : Stamp) : (s.write ctx a n x st).ctxs = s.ctxs := rfl
@[simp] theorem State.write_vifs (s : State) (ctx : Option Nat) (a n x : Nat) (st : Stamp) : (s.write ctx a n x st).vifs = s.vifs := rfl
@[simp] theorem State.write_queues (s : State) (ctx : Option Nat) (a n x : Nat) (st : Stamp) : (s.write ctx a n x st).queues = s.queues := rfl
@[simp] theorem State.write_qdescs (s : State) (ctx : Option Nat) (a n x : Nat) (st : Stamp) : (s.write ctx a n x st).qdescs = s.qdescs := rfl
@[simp] theorem State.write_pkts (s : State) (ctx : Option Nat) (a n x : Nat) (st : Stamp) : (s.write ctx a n x st).pkts = s.pkts := rfl
@[simp] theorem State.write_batch (s : State) (ctx : Option Nat) (a n x : Nat) (st : Stamp) : (s.write ctx a n x st).batch = s.batch := rfl
@[simp] theorem State.write_dies (s : State) (ctx : Option Nat) (a n x : Nat) (st : Stamp) : (s.write ctx a n x st).dies = s.dies := rfl
@[simp] theorem State.write_coh (s : State) (ctx : Option Nat) (a n x : Nat) (st : Stamp) : (s.write ctx a n x st).coh = s.coh := rfl
@[simp] theorem State.write_tb (s : State) (ctx : Option Nat) (a n x : Nat) (st : Stamp) : (s.write ctx a n x st).tb = s.tb := rfl
@[simp] theorem State.write_ides (s : State) (ctx : Option Nat) (a n x : Nat) (st : Stamp) : (s.write ctx a n x st).ides = s.ides := rfl
@[simp] theorem State.write_spdm (s : State) (ctx : Option Nat) (a n x : Nat) (st : Stamp) : (s.write ctx a n x st).spdm = s.spdm := rfl
@[simp] theorem State.write_modl (s : State) (ctx : Option Nat) (a n x : Nat) (st : Stamp) : (s.write ctx a n x st).modl = s.modl := rfl
@[simp] theorem State.write_peers (s : State) (ctx : Option Nat) (a n x : Nat) (st : Stamp) : (s.write ctx a n x st).peers = s.peers := rfl
@[simp] theorem State.write_probes (s : State) (ctx : Option Nat) (a n x : Nat) (st : Stamp) : (s.write ctx a n x st).probes = s.probes := rfl
@[simp] theorem State.write_reserve (s : State) (ctx : Option Nat) (a n x : Nat) (st : Stamp) : (s.write ctx a n x st).reserve = s.reserve := rfl
@[simp] theorem State.write_hist (s : State) (ctx : Option Nat) (a n x : Nat) (st : Stamp) : (s.write ctx a n x st).hist =
    { n := s.wcount, loc := a, was := bytesAt s.mem a n, stamp := st } :: s.hist := rfl
@[simp] theorem State.write_wcount (s : State) (ctx : Option Nat) (a n x : Nat) (st : Stamp) : (s.write ctx a n x st).wcount = s.wcount + 1 := rfl
@[simp] theorem State.write_past (s : State) (ctx : Option Nat) (a n x : Nat) (st : Stamp) : (s.write ctx a n x st).past = s.past := rfl
@[simp] theorem State.write_seqs (s : State) (ctx : Option Nat) (a n x : Nat) (st : Stamp) : (s.write ctx a n x st).seqs = s.seqs := rfl
@[simp] theorem State.write_outside (s : State) (ctx : Option Nat) (a n x : Nat) (st : Stamp) : (s.write ctx a n x st).outside = s.outside := rfl
@[simp] theorem State.write_accSick (s : State) (ctx : Option Nat) (a n x : Nat) (st : Stamp) : (s.write ctx a n x st).accSick = s.accSick := rfl
@[simp] theorem State.write_tlbCore (s : State) (ctx : Option Nat) (a n x : Nat) (st : Stamp) : (s.write ctx a n x st).tlbCore = s.tlbCore := rfl
@[simp] theorem State.write_tlbCluster (s : State) (ctx : Option Nat) (a n x : Nat) (st : Stamp) : (s.write ctx a n x st).tlbCluster = s.tlbCluster := rfl
@[simp] theorem State.write_jams (s : State) (ctx : Option Nat) (a n x : Nat) (st : Stamp) : (s.write ctx a n x st).jams = s.jams := rfl

/-! ### Updates of a group -/

@[simp] theorem Group.adv_blk (G : Group) (n : Nat) : (G.adv n).blk = G.blk := rfl
@[simp] theorem Group.adv_idx (G : Group) (n : Nat) : (G.adv n).idx = G.idx := rfl
@[simp] theorem Group.adv_core (G : Group) (n : Nat) : (G.adv n).core = G.core := rfl
@[simp] theorem Group.adv_part (G : Group) (n : Nat) : (G.adv n).part = G.part := rfl
@[simp] theorem Group.adv_st (G : Group) (n : Nat) : (G.adv n).st = G.st := rfl
@[simp] theorem Group.adv_n (G : Group) (n : Nat) : (G.adv n).n = G.n := rfl
@[simp] theorem Group.adv_sreg (G : Group) (n : Nat) : (G.adv n).sreg = G.sreg := rfl
@[simp] theorem Group.adv_vreg (G : Group) (n : Nat) : (G.adv n).vreg = G.vreg := rfl
@[simp] theorem Group.adv_creg (G : Group) (n : Nat) : (G.adv n).creg = G.creg := rfl
@[simp] theorem Group.adv_preg (G : Group) (n : Nat) : (G.adv n).preg = G.preg := rfl
@[simp] theorem Group.adv_hreg (G : Group) (n : Nat) : (G.adv n).hreg = G.hreg := rfl
@[simp] theorem Group.adv_cld (G : Group) (n : Nat) : (G.adv n).cld = G.cld := rfl
@[simp] theorem Group.adv_cst (G : Group) (n : Nat) : (G.adv n).cst = G.cst := rfl
@[simp] theorem Group.adv_ccp (G : Group) (n : Nat) : (G.adv n).ccp = G.ccp := rfl
@[simp] theorem Group.adv_ctl (G : Group) (n : Nat) : (G.adv n).ctl = G.ctl := rfl
@[simp] theorem Group.adv_laneact (G : Group) (n : Nat) : (G.adv n).laneact = G.laneact := rfl
@[simp] theorem Group.adv_faultmask (G : Group) (n : Nat) : (G.adv n).faultmask = G.faultmask := rfl
@[simp] theorem Group.adv_lanedone (G : Group) (n : Nat) : (G.adv n).lanedone = G.lanedone := rfl
@[simp] theorem Group.adv_memmask (G : Group) (n : Nat) : (G.adv n).memmask = G.memmask := rfl
@[simp] theorem Group.adv_vote (G : Group) (n : Nat) : (G.adv n).vote = G.vote := rfl
@[simp] theorem Group.adv_trap (G : Group) (n : Nat) : (G.adv n).trap = G.trap := rfl
@[simp] theorem Group.adv_wrapflag (G : Group) (n : Nat) : (G.adv n).wrapflag = G.wrapflag := rfl
@[simp] theorem Group.adv_ov (G : Group) (n : Nat) : (G.adv n).ov = G.ov := rfl
@[simp] theorem Group.adv_copy (G : Group) (n : Nat) : (G.adv n).copy = G.copy := rfl
@[simp] theorem Group.adv_pc (G : Group) (n : Nat) : (G.adv n).pc = G.pc + n := rfl
@[simp] theorem Group.adv_calls (G : Group) (n : Nat) : (G.adv n).calls = G.calls := rfl
@[simp] theorem Group.adv_wait (G : Group) (n : Nat) : (G.adv n).wait = G.wait := rfl
@[simp] theorem Group.adv_runs (G : Group) (n : Nat) : (G.adv n).runs = G.runs := rfl
@[simp] theorem Group.adv_splits (G : Group) (n : Nat) : (G.adv n).splits = G.splits := rfl
@[simp] theorem Group.adv_joins (G : Group) (n : Nat) : (G.adv n).joins = G.joins := rfl
@[simp] theorem Group.adv_exitMarks (G : Group) (n : Nat) : (G.adv n).exitMarks = G.exitMarks := rfl
@[simp] theorem Group.adv_holds (G : Group) (n : Nat) : (G.adv n).holds = G.holds := rfl
@[simp] theorem Group.adv_trapMode (G : Group) (n : Nat) : (G.adv n).trapMode = G.trapMode := rfl
@[simp] theorem Group.adv_stopWanted (G : Group) (n : Nat) : (G.adv n).stopWanted = G.stopWanted := rfl
@[simp] theorem Group.adv_sect (G : Group) (n : Nat) : (G.adv n).sect = G.sect := rfl
@[simp] theorem Group.adv_divertDue (G : Group) (n : Nat) : (G.adv n).divertDue = G.divertDue := rfl
@[simp] theorem Group.adv_yieldAt (G : Group) (n : Nat) : (G.adv n).yieldAt = G.yieldAt := rfl
@[simp] theorem Group.adv_aged (G : Group) (n : Nat) : (G.adv n).aged = G.aged := rfl
@[simp] theorem Group.adv_memb (G : Group) (n : Nat) : (G.adv n).memb = G.memb := rfl
@[simp] theorem Group.adv_tile (G : Group) (n : Nat) : (G.adv n).tile = G.tile := rfl
@[simp] theorem Group.adv_openEntry (G : Group) (n : Nat) : (G.adv n).openEntry = G.openEntry := rfl
@[simp] theorem Group.adv_comp (G : Group) (n : Nat) : (G.adv n).comp = G.comp := rfl
@[simp] theorem Group.adv_audit (G : Group) (n : Nat) : (G.adv n).audit = G.audit := rfl
@[simp] theorem Group.adv_lastTime (G : Group) (n : Nat) : (G.adv n).lastTime = G.lastTime := rfl
@[simp] theorem Group.adv_laneDone (G : Group) (n : Nat) : (G.adv n).laneDone = G.laneDone := rfl
@[simp] theorem Group.adv_laneRan (G : Group) (n : Nat) : (G.adv n).laneRan = G.laneRan := rfl
@[simp] theorem Group.adv_ord (G : Group) (n : Nat) : (G.adv n).ord = G.ord := rfl
@[simp] theorem Group.adv_tileOps (G : Group) (n : Nat) : (G.adv n).tileOps = G.tileOps := rfl
@[simp] theorem Group.adv_stall (G : Group) (n : Nat) : (G.adv n).stall = G.stall := rfl
@[simp] theorem Group.adv_free (G : Group) (n : Nat) : (G.adv n).free = G.free := rfl
@[simp] theorem Group.adv_ready (G : Group) (n : Nat) : (G.adv n).ready = G.ready := rfl
@[simp] theorem Group.adv_compDone (G : Group) (n : Nat) : (G.adv n).compDone = G.compDone := rfl

@[simp] theorem Group.rise_blk (G : Group) (ld st cp tl : Bool) : (G.rise ld st cp tl).blk = G.blk := rfl
@[simp] theorem Group.rise_idx (G : Group) (ld st cp tl : Bool) : (G.rise ld st cp tl).idx = G.idx := rfl
@[simp] theorem Group.rise_core (G : Group) (ld st cp tl : Bool) : (G.rise ld st cp tl).core = G.core := rfl
@[simp] theorem Group.rise_part (G : Group) (ld st cp tl : Bool) : (G.rise ld st cp tl).part = G.part := rfl
@[simp] theorem Group.rise_st (G : Group) (ld st cp tl : Bool) : (G.rise ld st cp tl).st = G.st := rfl
@[simp] theorem Group.rise_n (G : Group) (ld st cp tl : Bool) : (G.rise ld st cp tl).n = G.n := rfl
@[simp] theorem Group.rise_sreg (G : Group) (ld st cp tl : Bool) : (G.rise ld st cp tl).sreg = G.sreg := rfl
@[simp] theorem Group.rise_vreg (G : Group) (ld st cp tl : Bool) : (G.rise ld st cp tl).vreg = G.vreg := rfl
@[simp] theorem Group.rise_creg (G : Group) (ld st cp tl : Bool) : (G.rise ld st cp tl).creg = G.creg := rfl
@[simp] theorem Group.rise_preg (G : Group) (ld st cp tl : Bool) : (G.rise ld st cp tl).preg = G.preg := rfl
@[simp] theorem Group.rise_hreg (G : Group) (ld st cp tl : Bool) : (G.rise ld st cp tl).hreg = G.hreg := rfl
@[simp] theorem Group.rise_cld (G : Group) (ld st cp tl : Bool) : (G.rise ld st cp tl).cld = G.cld + ld.toNat := rfl
@[simp] theorem Group.rise_cst (G : Group) (ld st cp tl : Bool) : (G.rise ld st cp tl).cst = G.cst + st.toNat := rfl
@[simp] theorem Group.rise_ccp (G : Group) (ld st cp tl : Bool) : (G.rise ld st cp tl).ccp = G.ccp + cp.toNat := rfl
@[simp] theorem Group.rise_ctl (G : Group) (ld st cp tl : Bool) : (G.rise ld st cp tl).ctl = G.ctl + tl.toNat := rfl
@[simp] theorem Group.rise_laneact (G : Group) (ld st cp tl : Bool) : (G.rise ld st cp tl).laneact = G.laneact := rfl
@[simp] theorem Group.rise_faultmask (G : Group) (ld st cp tl : Bool) : (G.rise ld st cp tl).faultmask = G.faultmask := rfl
@[simp] theorem Group.rise_lanedone (G : Group) (ld st cp tl : Bool) : (G.rise ld st cp tl).lanedone = G.lanedone := rfl
@[simp] theorem Group.rise_memmask (G : Group) (ld st cp tl : Bool) : (G.rise ld st cp tl).memmask = G.memmask := rfl
@[simp] theorem Group.rise_vote (G : Group) (ld st cp tl : Bool) : (G.rise ld st cp tl).vote = G.vote := rfl
@[simp] theorem Group.rise_trap (G : Group) (ld st cp tl : Bool) : (G.rise ld st cp tl).trap = G.trap := rfl
@[simp] theorem Group.rise_wrapflag (G : Group) (ld st cp tl : Bool) : (G.rise ld st cp tl).wrapflag = G.wrapflag := rfl
@[simp] theorem Group.rise_ov (G : Group) (ld st cp tl : Bool) : (G.rise ld st cp tl).ov = G.ov := rfl
@[simp] theorem Group.rise_copy (G : Group) (ld st cp tl : Bool) : (G.rise ld st cp tl).copy = G.copy := rfl
@[simp] theorem Group.rise_pc (G : Group) (ld st cp tl : Bool) : (G.rise ld st cp tl).pc = G.pc := rfl
@[simp] theorem Group.rise_calls (G : Group) (ld st cp tl : Bool) : (G.rise ld st cp tl).calls = G.calls := rfl
@[simp] theorem Group.rise_wait (G : Group) (ld st cp tl : Bool) : (G.rise ld st cp tl).wait = G.wait := rfl
@[simp] theorem Group.rise_runs (G : Group) (ld st cp tl : Bool) : (G.rise ld st cp tl).runs = G.runs := rfl
@[simp] theorem Group.rise_splits (G : Group) (ld st cp tl : Bool) : (G.rise ld st cp tl).splits = G.splits := rfl
@[simp] theorem Group.rise_joins (G : Group) (ld st cp tl : Bool) : (G.rise ld st cp tl).joins = G.joins := rfl
@[simp] theorem Group.rise_exitMarks (G : Group) (ld st cp tl : Bool) : (G.rise ld st cp tl).exitMarks = G.exitMarks := rfl
@[simp] theorem Group.rise_holds (G : Group) (ld st cp tl : Bool) : (G.rise ld st cp tl).holds = G.holds := rfl
@[simp] theorem Group.rise_trapMode (G : Group) (ld st cp tl : Bool) : (G.rise ld st cp tl).trapMode = G.trapMode := rfl
@[simp] theorem Group.rise_stopWanted (G : Group) (ld st cp tl : Bool) : (G.rise ld st cp tl).stopWanted = G.stopWanted := rfl
@[simp] theorem Group.rise_sect (G : Group) (ld st cp tl : Bool) : (G.rise ld st cp tl).sect = G.sect := rfl
@[simp] theorem Group.rise_divertDue (G : Group) (ld st cp tl : Bool) : (G.rise ld st cp tl).divertDue = G.divertDue := rfl
@[simp] theorem Group.rise_yieldAt (G : Group) (ld st cp tl : Bool) : (G.rise ld st cp tl).yieldAt = G.yieldAt := rfl
@[simp] theorem Group.rise_aged (G : Group) (ld st cp tl : Bool) : (G.rise ld st cp tl).aged = G.aged := rfl
@[simp] theorem Group.rise_memb (G : Group) (ld st cp tl : Bool) : (G.rise ld st cp tl).memb = G.memb := rfl
@[simp] theorem Group.rise_tile (G : Group) (ld st cp tl : Bool) : (G.rise ld st cp tl).tile = G.tile := rfl
@[simp] theorem Group.rise_openEntry (G : Group) (ld st cp tl : Bool) : (G.rise ld st cp tl).openEntry = G.openEntry := rfl
@[simp] theorem Group.rise_comp (G : Group) (ld st cp tl : Bool) : (G.rise ld st cp tl).comp = G.comp := rfl
@[simp] theorem Group.rise_audit (G : Group) (ld st cp tl : Bool) : (G.rise ld st cp tl).audit = G.audit := rfl
@[simp] theorem Group.rise_lastTime (G : Group) (ld st cp tl : Bool) : (G.rise ld st cp tl).lastTime = G.lastTime := rfl
@[simp] theorem Group.rise_laneDone (G : Group) (ld st cp tl : Bool) : (G.rise ld st cp tl).laneDone = G.laneDone := rfl
@[simp] theorem Group.rise_laneRan (G : Group) (ld st cp tl : Bool) : (G.rise ld st cp tl).laneRan = G.laneRan := rfl
@[simp] theorem Group.rise_ord (G : Group) (ld st cp tl : Bool) : (G.rise ld st cp tl).ord = G.ord := rfl
@[simp] theorem Group.rise_tileOps (G : Group) (ld st cp tl : Bool) : (G.rise ld st cp tl).tileOps = G.tileOps := rfl
@[simp] theorem Group.rise_stall (G : Group) (ld st cp tl : Bool) : (G.rise ld st cp tl).stall = G.stall := rfl
@[simp] theorem Group.rise_free (G : Group) (ld st cp tl : Bool) : (G.rise ld st cp tl).free = G.free := rfl
@[simp] theorem Group.rise_ready (G : Group) (ld st cp tl : Bool) : (G.rise ld st cp tl).ready = G.ready := rfl
@[simp] theorem Group.rise_compDone (G : Group) (ld st cp tl : Bool) : (G.rise ld st cp tl).compDone = G.compDone := rfl

@[simp] theorem Group.fall_blk (G : Group) (ld st cp tl : Bool) : (G.fall ld st cp tl).blk = G.blk := rfl
@[simp] theorem Group.fall_idx (G : Group) (ld st cp tl : Bool) : (G.fall ld st cp tl).idx = G.idx := rfl
@[simp] theorem Group.fall_core (G : Group) (ld st cp tl : Bool) : (G.fall ld st cp tl).core = G.core := rfl
@[simp] theorem Group.fall_part (G : Group) (ld st cp tl : Bool) : (G.fall ld st cp tl).part = G.part := rfl
@[simp] theorem Group.fall_st (G : Group) (ld st cp tl : Bool) : (G.fall ld st cp tl).st = G.st := rfl
@[simp] theorem Group.fall_n (G : Group) (ld st cp tl : Bool) : (G.fall ld st cp tl).n = G.n := rfl
@[simp] theorem Group.fall_sreg (G : Group) (ld st cp tl : Bool) : (G.fall ld st cp tl).sreg = G.sreg := rfl
@[simp] theorem Group.fall_vreg (G : Group) (ld st cp tl : Bool) : (G.fall ld st cp tl).vreg = G.vreg := rfl
@[simp] theorem Group.fall_creg (G : Group) (ld st cp tl : Bool) : (G.fall ld st cp tl).creg = G.creg := rfl
@[simp] theorem Group.fall_preg (G : Group) (ld st cp tl : Bool) : (G.fall ld st cp tl).preg = G.preg := rfl
@[simp] theorem Group.fall_hreg (G : Group) (ld st cp tl : Bool) : (G.fall ld st cp tl).hreg = G.hreg := rfl
@[simp] theorem Group.fall_cld (G : Group) (ld st cp tl : Bool) : (G.fall ld st cp tl).cld = G.cld - ld.toNat := rfl
@[simp] theorem Group.fall_cst (G : Group) (ld st cp tl : Bool) : (G.fall ld st cp tl).cst = G.cst - st.toNat := rfl
@[simp] theorem Group.fall_ccp (G : Group) (ld st cp tl : Bool) : (G.fall ld st cp tl).ccp = G.ccp - cp.toNat := rfl
@[simp] theorem Group.fall_ctl (G : Group) (ld st cp tl : Bool) : (G.fall ld st cp tl).ctl = G.ctl - tl.toNat := rfl
@[simp] theorem Group.fall_laneact (G : Group) (ld st cp tl : Bool) : (G.fall ld st cp tl).laneact = G.laneact := rfl
@[simp] theorem Group.fall_faultmask (G : Group) (ld st cp tl : Bool) : (G.fall ld st cp tl).faultmask = G.faultmask := rfl
@[simp] theorem Group.fall_lanedone (G : Group) (ld st cp tl : Bool) : (G.fall ld st cp tl).lanedone = G.lanedone := rfl
@[simp] theorem Group.fall_memmask (G : Group) (ld st cp tl : Bool) : (G.fall ld st cp tl).memmask = G.memmask := rfl
@[simp] theorem Group.fall_vote (G : Group) (ld st cp tl : Bool) : (G.fall ld st cp tl).vote = G.vote := rfl
@[simp] theorem Group.fall_trap (G : Group) (ld st cp tl : Bool) : (G.fall ld st cp tl).trap = G.trap := rfl
@[simp] theorem Group.fall_wrapflag (G : Group) (ld st cp tl : Bool) : (G.fall ld st cp tl).wrapflag = G.wrapflag := rfl
@[simp] theorem Group.fall_ov (G : Group) (ld st cp tl : Bool) : (G.fall ld st cp tl).ov = G.ov := rfl
@[simp] theorem Group.fall_copy (G : Group) (ld st cp tl : Bool) : (G.fall ld st cp tl).copy = G.copy := rfl
@[simp] theorem Group.fall_pc (G : Group) (ld st cp tl : Bool) : (G.fall ld st cp tl).pc = G.pc := rfl
@[simp] theorem Group.fall_calls (G : Group) (ld st cp tl : Bool) : (G.fall ld st cp tl).calls = G.calls := rfl
@[simp] theorem Group.fall_wait (G : Group) (ld st cp tl : Bool) : (G.fall ld st cp tl).wait = G.wait := rfl
@[simp] theorem Group.fall_runs (G : Group) (ld st cp tl : Bool) : (G.fall ld st cp tl).runs = G.runs := rfl
@[simp] theorem Group.fall_splits (G : Group) (ld st cp tl : Bool) : (G.fall ld st cp tl).splits = G.splits := rfl
@[simp] theorem Group.fall_joins (G : Group) (ld st cp tl : Bool) : (G.fall ld st cp tl).joins = G.joins := rfl
@[simp] theorem Group.fall_exitMarks (G : Group) (ld st cp tl : Bool) : (G.fall ld st cp tl).exitMarks = G.exitMarks := rfl
@[simp] theorem Group.fall_holds (G : Group) (ld st cp tl : Bool) : (G.fall ld st cp tl).holds = G.holds := rfl
@[simp] theorem Group.fall_trapMode (G : Group) (ld st cp tl : Bool) : (G.fall ld st cp tl).trapMode = G.trapMode := rfl
@[simp] theorem Group.fall_stopWanted (G : Group) (ld st cp tl : Bool) : (G.fall ld st cp tl).stopWanted = G.stopWanted := rfl
@[simp] theorem Group.fall_sect (G : Group) (ld st cp tl : Bool) : (G.fall ld st cp tl).sect = G.sect := rfl
@[simp] theorem Group.fall_divertDue (G : Group) (ld st cp tl : Bool) : (G.fall ld st cp tl).divertDue = G.divertDue := rfl
@[simp] theorem Group.fall_yieldAt (G : Group) (ld st cp tl : Bool) : (G.fall ld st cp tl).yieldAt = G.yieldAt := rfl
@[simp] theorem Group.fall_aged (G : Group) (ld st cp tl : Bool) : (G.fall ld st cp tl).aged = G.aged := rfl
@[simp] theorem Group.fall_memb (G : Group) (ld st cp tl : Bool) : (G.fall ld st cp tl).memb = G.memb := rfl
@[simp] theorem Group.fall_tile (G : Group) (ld st cp tl : Bool) : (G.fall ld st cp tl).tile = G.tile := rfl
@[simp] theorem Group.fall_openEntry (G : Group) (ld st cp tl : Bool) : (G.fall ld st cp tl).openEntry = G.openEntry := rfl
@[simp] theorem Group.fall_comp (G : Group) (ld st cp tl : Bool) : (G.fall ld st cp tl).comp = G.comp := rfl
@[simp] theorem Group.fall_audit (G : Group) (ld st cp tl : Bool) : (G.fall ld st cp tl).audit = G.audit := rfl
@[simp] theorem Group.fall_lastTime (G : Group) (ld st cp tl : Bool) : (G.fall ld st cp tl).lastTime = G.lastTime := rfl
@[simp] theorem Group.fall_laneDone (G : Group) (ld st cp tl : Bool) : (G.fall ld st cp tl).laneDone = G.laneDone := rfl
@[simp] theorem Group.fall_laneRan (G : Group) (ld st cp tl : Bool) : (G.fall ld st cp tl).laneRan = G.laneRan := rfl
@[simp] theorem Group.fall_ord (G : Group) (ld st cp tl : Bool) : (G.fall ld st cp tl).ord = G.ord := rfl
@[simp] theorem Group.fall_tileOps (G : Group) (ld st cp tl : Bool) : (G.fall ld st cp tl).tileOps = G.tileOps := rfl
@[simp] theorem Group.fall_stall (G : Group) (ld st cp tl : Bool) : (G.fall ld st cp tl).stall = G.stall := rfl
@[simp] theorem Group.fall_free (G : Group) (ld st cp tl : Bool) : (G.fall ld st cp tl).free = G.free := rfl
@[simp] theorem Group.fall_ready (G : Group) (ld st cp tl : Bool) : (G.fall ld st cp tl).ready = G.ready := rfl
@[simp] theorem Group.fall_compDone (G : Group) (ld st cp tl : Bool) : (G.fall ld st cp tl).compDone = G.compDone := rfl

@[simp] theorem Group.wv_blk (G : Group) (r : Nat) (x : Lanes) : (G.wv r x).blk = G.blk := rfl
@[simp] theorem Group.wv_idx (G : Group) (r : Nat) (x : Lanes) : (G.wv r x).idx = G.idx := rfl
@[simp] theorem Group.wv_core (G : Group) (r : Nat) (x : Lanes) : (G.wv r x).core = G.core := rfl
@[simp] theorem Group.wv_part (G : Group) (r : Nat) (x : Lanes) : (G.wv r x).part = G.part := rfl
@[simp] theorem Group.wv_st (G : Group) (r : Nat) (x : Lanes) : (G.wv r x).st = G.st := rfl
@[simp] theorem Group.wv_n (G : Group) (r : Nat) (x : Lanes) : (G.wv r x).n = G.n := rfl
@[simp] theorem Group.wv_sreg (G : Group) (r : Nat) (x : Lanes) : (G.wv r x).sreg = G.sreg := rfl
@[simp] theorem Group.wv_vreg (G : Group) (r : Nat) (x : Lanes) : (G.wv r x).vreg = mset lanesZero G.vreg r x := rfl
@[simp] theorem Group.wv_creg (G : Group) (r : Nat) (x : Lanes) : (G.wv r x).creg = G.creg := rfl
@[simp] theorem Group.wv_preg (G : Group) (r : Nat) (x : Lanes) : (G.wv r x).preg = G.preg := rfl
@[simp] theorem Group.wv_hreg (G : Group) (r : Nat) (x : Lanes) : (G.wv r x).hreg = G.hreg := rfl
@[simp] theorem Group.wv_cld (G : Group) (r : Nat) (x : Lanes) : (G.wv r x).cld = G.cld := rfl
@[simp] theorem Group.wv_cst (G : Group) (r : Nat) (x : Lanes) : (G.wv r x).cst = G.cst := rfl
@[simp] theorem Group.wv_ccp (G : Group) (r : Nat) (x : Lanes) : (G.wv r x).ccp = G.ccp := rfl
@[simp] theorem Group.wv_ctl (G : Group) (r : Nat) (x : Lanes) : (G.wv r x).ctl = G.ctl := rfl
@[simp] theorem Group.wv_laneact (G : Group) (r : Nat) (x : Lanes) : (G.wv r x).laneact = G.laneact := rfl
@[simp] theorem Group.wv_faultmask (G : Group) (r : Nat) (x : Lanes) : (G.wv r x).faultmask = G.faultmask := rfl
@[simp] theorem Group.wv_lanedone (G : Group) (r : Nat) (x : Lanes) : (G.wv r x).lanedone = G.lanedone := rfl
@[simp] theorem Group.wv_memmask (G : Group) (r : Nat) (x : Lanes) : (G.wv r x).memmask = G.memmask := rfl
@[simp] theorem Group.wv_vote (G : Group) (r : Nat) (x : Lanes) : (G.wv r x).vote = G.vote := rfl
@[simp] theorem Group.wv_trap (G : Group) (r : Nat) (x : Lanes) : (G.wv r x).trap = G.trap := rfl
@[simp] theorem Group.wv_wrapflag (G : Group) (r : Nat) (x : Lanes) : (G.wv r x).wrapflag = G.wrapflag := rfl
@[simp] theorem Group.wv_ov (G : Group) (r : Nat) (x : Lanes) : (G.wv r x).ov = G.ov := rfl
@[simp] theorem Group.wv_copy (G : Group) (r : Nat) (x : Lanes) : (G.wv r x).copy = G.copy := rfl
@[simp] theorem Group.wv_pc (G : Group) (r : Nat) (x : Lanes) : (G.wv r x).pc = G.pc := rfl
@[simp] theorem Group.wv_calls (G : Group) (r : Nat) (x : Lanes) : (G.wv r x).calls = G.calls := rfl
@[simp] theorem Group.wv_wait (G : Group) (r : Nat) (x : Lanes) : (G.wv r x).wait = G.wait := rfl
@[simp] theorem Group.wv_runs (G : Group) (r : Nat) (x : Lanes) : (G.wv r x).runs = G.runs := rfl
@[simp] theorem Group.wv_splits (G : Group) (r : Nat) (x : Lanes) : (G.wv r x).splits = G.splits := rfl
@[simp] theorem Group.wv_joins (G : Group) (r : Nat) (x : Lanes) : (G.wv r x).joins = G.joins := rfl
@[simp] theorem Group.wv_exitMarks (G : Group) (r : Nat) (x : Lanes) : (G.wv r x).exitMarks = G.exitMarks := rfl
@[simp] theorem Group.wv_holds (G : Group) (r : Nat) (x : Lanes) : (G.wv r x).holds = G.holds := rfl
@[simp] theorem Group.wv_trapMode (G : Group) (r : Nat) (x : Lanes) : (G.wv r x).trapMode = G.trapMode := rfl
@[simp] theorem Group.wv_stopWanted (G : Group) (r : Nat) (x : Lanes) : (G.wv r x).stopWanted = G.stopWanted := rfl
@[simp] theorem Group.wv_sect (G : Group) (r : Nat) (x : Lanes) : (G.wv r x).sect = G.sect := rfl
@[simp] theorem Group.wv_divertDue (G : Group) (r : Nat) (x : Lanes) : (G.wv r x).divertDue = G.divertDue := rfl
@[simp] theorem Group.wv_yieldAt (G : Group) (r : Nat) (x : Lanes) : (G.wv r x).yieldAt = G.yieldAt := rfl
@[simp] theorem Group.wv_aged (G : Group) (r : Nat) (x : Lanes) : (G.wv r x).aged = G.aged := rfl
@[simp] theorem Group.wv_memb (G : Group) (r : Nat) (x : Lanes) : (G.wv r x).memb = G.memb := rfl
@[simp] theorem Group.wv_tile (G : Group) (r : Nat) (x : Lanes) : (G.wv r x).tile = G.tile := rfl
@[simp] theorem Group.wv_openEntry (G : Group) (r : Nat) (x : Lanes) : (G.wv r x).openEntry = G.openEntry := rfl
@[simp] theorem Group.wv_comp (G : Group) (r : Nat) (x : Lanes) : (G.wv r x).comp = G.comp := rfl
@[simp] theorem Group.wv_audit (G : Group) (r : Nat) (x : Lanes) : (G.wv r x).audit = G.audit := rfl
@[simp] theorem Group.wv_lastTime (G : Group) (r : Nat) (x : Lanes) : (G.wv r x).lastTime = G.lastTime := rfl
@[simp] theorem Group.wv_laneDone (G : Group) (r : Nat) (x : Lanes) : (G.wv r x).laneDone = G.laneDone := rfl
@[simp] theorem Group.wv_laneRan (G : Group) (r : Nat) (x : Lanes) : (G.wv r x).laneRan = G.laneRan := rfl
@[simp] theorem Group.wv_ord (G : Group) (r : Nat) (x : Lanes) : (G.wv r x).ord = G.ord := rfl
@[simp] theorem Group.wv_tileOps (G : Group) (r : Nat) (x : Lanes) : (G.wv r x).tileOps = G.tileOps := rfl
@[simp] theorem Group.wv_stall (G : Group) (r : Nat) (x : Lanes) : (G.wv r x).stall = G.stall := rfl
@[simp] theorem Group.wv_free (G : Group) (r : Nat) (x : Lanes) : (G.wv r x).free = G.free := rfl
@[simp] theorem Group.wv_ready (G : Group) (r : Nat) (x : Lanes) : (G.wv r x).ready = G.ready := rfl
@[simp] theorem Group.wv_compDone (G : Group) (r : Nat) (x : Lanes) : (G.wv r x).compDone = G.compDone := rfl

@[simp] theorem Group.wh_blk (G : Group) (h : Nat) (x : Handle) : (G.wh h x).blk = G.blk := rfl
@[simp] theorem Group.wh_idx (G : Group) (h : Nat) (x : Handle) : (G.wh h x).idx = G.idx := rfl
@[simp] theorem Group.wh_core (G : Group) (h : Nat) (x : Handle) : (G.wh h x).core = G.core := rfl
@[simp] theorem Group.wh_part (G : Group) (h : Nat) (x : Handle) : (G.wh h x).part = G.part := rfl
@[simp] theorem Group.wh_st (G : Group) (h : Nat) (x : Handle) : (G.wh h x).st = G.st := rfl
@[simp] theorem Group.wh_n (G : Group) (h : Nat) (x : Handle) : (G.wh h x).n = G.n := rfl
@[simp] theorem Group.wh_sreg (G : Group) (h : Nat) (x : Handle) : (G.wh h x).sreg = G.sreg := rfl
@[simp] theorem Group.wh_vreg (G : Group) (h : Nat) (x : Handle) : (G.wh h x).vreg = G.vreg := rfl
@[simp] theorem Group.wh_creg (G : Group) (h : Nat) (x : Handle) : (G.wh h x).creg = G.creg := rfl
@[simp] theorem Group.wh_preg (G : Group) (h : Nat) (x : Handle) : (G.wh h x).preg = G.preg := rfl
@[simp] theorem Group.wh_hreg (G : Group) (h : Nat) (x : Handle) : (G.wh h x).hreg = mset { st := .empty } G.hreg h x := rfl
@[simp] theorem Group.wh_cld (G : Group) (h : Nat) (x : Handle) : (G.wh h x).cld = G.cld := rfl
@[simp] theorem Group.wh_cst (G : Group) (h : Nat) (x : Handle) : (G.wh h x).cst = G.cst := rfl
@[simp] theorem Group.wh_ccp (G : Group) (h : Nat) (x : Handle) : (G.wh h x).ccp = G.ccp := rfl
@[simp] theorem Group.wh_ctl (G : Group) (h : Nat) (x : Handle) : (G.wh h x).ctl = G.ctl := rfl
@[simp] theorem Group.wh_laneact (G : Group) (h : Nat) (x : Handle) : (G.wh h x).laneact = G.laneact := rfl
@[simp] theorem Group.wh_faultmask (G : Group) (h : Nat) (x : Handle) : (G.wh h x).faultmask = G.faultmask := rfl
@[simp] theorem Group.wh_lanedone (G : Group) (h : Nat) (x : Handle) : (G.wh h x).lanedone = G.lanedone := rfl
@[simp] theorem Group.wh_memmask (G : Group) (h : Nat) (x : Handle) : (G.wh h x).memmask = G.memmask := rfl
@[simp] theorem Group.wh_vote (G : Group) (h : Nat) (x : Handle) : (G.wh h x).vote = G.vote := rfl
@[simp] theorem Group.wh_trap (G : Group) (h : Nat) (x : Handle) : (G.wh h x).trap = G.trap := rfl
@[simp] theorem Group.wh_wrapflag (G : Group) (h : Nat) (x : Handle) : (G.wh h x).wrapflag = G.wrapflag := rfl
@[simp] theorem Group.wh_ov (G : Group) (h : Nat) (x : Handle) : (G.wh h x).ov = G.ov := rfl
@[simp] theorem Group.wh_copy (G : Group) (h : Nat) (x : Handle) : (G.wh h x).copy = G.copy := rfl
@[simp] theorem Group.wh_pc (G : Group) (h : Nat) (x : Handle) : (G.wh h x).pc = G.pc := rfl
@[simp] theorem Group.wh_calls (G : Group) (h : Nat) (x : Handle) : (G.wh h x).calls = G.calls := rfl
@[simp] theorem Group.wh_wait (G : Group) (h : Nat) (x : Handle) : (G.wh h x).wait = G.wait := rfl
@[simp] theorem Group.wh_runs (G : Group) (h : Nat) (x : Handle) : (G.wh h x).runs = G.runs := rfl
@[simp] theorem Group.wh_splits (G : Group) (h : Nat) (x : Handle) : (G.wh h x).splits = G.splits := rfl
@[simp] theorem Group.wh_joins (G : Group) (h : Nat) (x : Handle) : (G.wh h x).joins = G.joins := rfl
@[simp] theorem Group.wh_exitMarks (G : Group) (h : Nat) (x : Handle) : (G.wh h x).exitMarks = G.exitMarks := rfl
@[simp] theorem Group.wh_holds (G : Group) (h : Nat) (x : Handle) : (G.wh h x).holds = G.holds := rfl
@[simp] theorem Group.wh_trapMode (G : Group) (h : Nat) (x : Handle) : (G.wh h x).trapMode = G.trapMode := rfl
@[simp] theorem Group.wh_stopWanted (G : Group) (h : Nat) (x : Handle) : (G.wh h x).stopWanted = G.stopWanted := rfl
@[simp] theorem Group.wh_sect (G : Group) (h : Nat) (x : Handle) : (G.wh h x).sect = G.sect := rfl
@[simp] theorem Group.wh_divertDue (G : Group) (h : Nat) (x : Handle) : (G.wh h x).divertDue = G.divertDue := rfl
@[simp] theorem Group.wh_yieldAt (G : Group) (h : Nat) (x : Handle) : (G.wh h x).yieldAt = G.yieldAt := rfl
@[simp] theorem Group.wh_aged (G : Group) (h : Nat) (x : Handle) : (G.wh h x).aged = G.aged := rfl
@[simp] theorem Group.wh_memb (G : Group) (h : Nat) (x : Handle) : (G.wh h x).memb = G.memb := rfl
@[simp] theorem Group.wh_tile (G : Group) (h : Nat) (x : Handle) : (G.wh h x).tile = G.tile := rfl
@[simp] theorem Group.wh_openEntry (G : Group) (h : Nat) (x : Handle) : (G.wh h x).openEntry = G.openEntry := rfl
@[simp] theorem Group.wh_comp (G : Group) (h : Nat) (x : Handle) : (G.wh h x).comp = G.comp := rfl
@[simp] theorem Group.wh_audit (G : Group) (h : Nat) (x : Handle) : (G.wh h x).audit = G.audit := rfl
@[simp] theorem Group.wh_lastTime (G : Group) (h : Nat) (x : Handle) : (G.wh h x).lastTime = G.lastTime := rfl
@[simp] theorem Group.wh_laneDone (G : Group) (h : Nat) (x : Handle) : (G.wh h x).laneDone = G.laneDone := rfl
@[simp] theorem Group.wh_laneRan (G : Group) (h : Nat) (x : Handle) : (G.wh h x).laneRan = G.laneRan := rfl
@[simp] theorem Group.wh_ord (G : Group) (h : Nat) (x : Handle) : (G.wh h x).ord = G.ord := rfl
@[simp] theorem Group.wh_tileOps (G : Group) (h : Nat) (x : Handle) : (G.wh h x).tileOps = G.tileOps := rfl
@[simp] theorem Group.wh_stall (G : Group) (h : Nat) (x : Handle) : (G.wh h x).stall = G.stall := rfl
@[simp] theorem Group.wh_free (G : Group) (h : Nat) (x : Handle) : (G.wh h x).free = G.free := rfl
@[simp] theorem Group.wh_ready (G : Group) (h : Nat) (x : Handle) : (G.wh h x).ready = G.ready := rfl
@[simp] theorem Group.wh_compDone (G : Group) (h : Nat) (x : Handle) : (G.wh h x).compDone = G.compDone := rfl

@[simp] theorem Group.emptyHandles_blk (G : Group) : (G.emptyHandles).blk = G.blk := rfl
@[simp] theorem Group.emptyHandles_idx (G : Group) : (G.emptyHandles).idx = G.idx := rfl
@[simp] theorem Group.emptyHandles_core (G : Group) : (G.emptyHandles).core = G.core := rfl
@[simp] theorem Group.emptyHandles_part (G : Group) : (G.emptyHandles).part = G.part := rfl
@[simp] theorem Group.emptyHandles_st (G : Group) : (G.emptyHandles).st = G.st := rfl
@[simp] theorem Group.emptyHandles_n (G : Group) : (G.emptyHandles).n = G.n := rfl
@[simp] theorem Group.emptyHandles_sreg (G : Group) : (G.emptyHandles).sreg = G.sreg := rfl
@[simp] theorem Group.emptyHandles_vreg (G : Group) : (G.emptyHandles).vreg = G.vreg := rfl
@[simp] theorem Group.emptyHandles_creg (G : Group) : (G.emptyHandles).creg = G.creg := rfl
@[simp] theorem Group.emptyHandles_preg (G : Group) : (G.emptyHandles).preg = G.preg := rfl
@[simp] theorem Group.emptyHandles_hreg (G : Group) : (G.emptyHandles).hreg = [] := rfl
@[simp] theorem Group.emptyHandles_cld (G : Group) : (G.emptyHandles).cld = G.cld := rfl
@[simp] theorem Group.emptyHandles_cst (G : Group) : (G.emptyHandles).cst = G.cst := rfl
@[simp] theorem Group.emptyHandles_ccp (G : Group) : (G.emptyHandles).ccp = G.ccp := rfl
@[simp] theorem Group.emptyHandles_ctl (G : Group) : (G.emptyHandles).ctl = G.ctl := rfl
@[simp] theorem Group.emptyHandles_laneact (G : Group) : (G.emptyHandles).laneact = G.laneact := rfl
@[simp] theorem Group.emptyHandles_faultmask (G : Group) : (G.emptyHandles).faultmask = G.faultmask := rfl
@[simp] theorem Group.emptyHandles_lanedone (G : Group) : (G.emptyHandles).lanedone = G.lanedone := rfl
@[simp] theorem Group.emptyHandles_memmask (G : Group) : (G.emptyHandles).memmask = G.memmask := rfl
@[simp] theorem Group.emptyHandles_vote (G : Group) : (G.emptyHandles).vote = G.vote := rfl
@[simp] theorem Group.emptyHandles_trap (G : Group) : (G.emptyHandles).trap = G.trap := rfl
@[simp] theorem Group.emptyHandles_wrapflag (G : Group) : (G.emptyHandles).wrapflag = G.wrapflag := rfl
@[simp] theorem Group.emptyHandles_ov (G : Group) : (G.emptyHandles).ov = G.ov := rfl
@[simp] theorem Group.emptyHandles_copy (G : Group) : (G.emptyHandles).copy = G.copy := rfl
@[simp] theorem Group.emptyHandles_pc (G : Group) : (G.emptyHandles).pc = G.pc := rfl
@[simp] theorem Group.emptyHandles_calls (G : Group) : (G.emptyHandles).calls = G.calls := rfl
@[simp] theorem Group.emptyHandles_wait (G : Group) : (G.emptyHandles).wait = G.wait := rfl
@[simp] theorem Group.emptyHandles_runs (G : Group) : (G.emptyHandles).runs = G.runs := rfl
@[simp] theorem Group.emptyHandles_splits (G : Group) : (G.emptyHandles).splits = G.splits := rfl
@[simp] theorem Group.emptyHandles_joins (G : Group) : (G.emptyHandles).joins = G.joins := rfl
@[simp] theorem Group.emptyHandles_exitMarks (G : Group) : (G.emptyHandles).exitMarks = G.exitMarks := rfl
@[simp] theorem Group.emptyHandles_holds (G : Group) : (G.emptyHandles).holds = G.holds := rfl
@[simp] theorem Group.emptyHandles_trapMode (G : Group) : (G.emptyHandles).trapMode = G.trapMode := rfl
@[simp] theorem Group.emptyHandles_stopWanted (G : Group) : (G.emptyHandles).stopWanted = G.stopWanted := rfl
@[simp] theorem Group.emptyHandles_sect (G : Group) : (G.emptyHandles).sect = G.sect := rfl
@[simp] theorem Group.emptyHandles_divertDue (G : Group) : (G.emptyHandles).divertDue = G.divertDue := rfl
@[simp] theorem Group.emptyHandles_yieldAt (G : Group) : (G.emptyHandles).yieldAt = G.yieldAt := rfl
@[simp] theorem Group.emptyHandles_aged (G : Group) : (G.emptyHandles).aged = G.aged := rfl
@[simp] theorem Group.emptyHandles_memb (G : Group) : (G.emptyHandles).memb = G.memb := rfl
@[simp] theorem Group.emptyHandles_tile (G : Group) : (G.emptyHandles).tile = G.tile := rfl
@[simp] theorem Group.emptyHandles_openEntry (G : Group) : (G.emptyHandles).openEntry = G.openEntry := rfl
@[simp] theorem Group.emptyHandles_comp (G : Group) : (G.emptyHandles).comp = G.comp := rfl
@[simp] theorem Group.emptyHandles_audit (G : Group) : (G.emptyHandles).audit = G.audit := rfl
@[simp] theorem Group.emptyHandles_lastTime (G : Group) : (G.emptyHandles).lastTime = G.lastTime := rfl
@[simp] theorem Group.emptyHandles_laneDone (G : Group) : (G.emptyHandles).laneDone = G.laneDone := rfl
@[simp] theorem Group.emptyHandles_laneRan (G : Group) : (G.emptyHandles).laneRan = G.laneRan := rfl
@[simp] theorem Group.emptyHandles_ord (G : Group) : (G.emptyHandles).ord = G.ord := rfl
@[simp] theorem Group.emptyHandles_tileOps (G : Group) : (G.emptyHandles).tileOps = G.tileOps := rfl
@[simp] theorem Group.emptyHandles_stall (G : Group) : (G.emptyHandles).stall = G.stall := rfl
@[simp] theorem Group.emptyHandles_free (G : Group) : (G.emptyHandles).free = G.free := rfl
@[simp] theorem Group.emptyHandles_ready (G : Group) : (G.emptyHandles).ready = G.ready := rfl
@[simp] theorem Group.emptyHandles_compDone (G : Group) : (G.emptyHandles).compDone = G.compDone := rfl

@[simp] theorem Group.dropMarks_blk (G : Group) : (G.dropMarks).blk = G.blk := rfl
@[simp] theorem Group.dropMarks_idx (G : Group) : (G.dropMarks).idx = G.idx := rfl
@[simp] theorem Group.dropMarks_core (G : Group) : (G.dropMarks).core = G.core := rfl
@[simp] theorem Group.dropMarks_part (G : Group) : (G.dropMarks).part = G.part := rfl
@[simp] theorem Group.dropMarks_st (G : Group) : (G.dropMarks).st = G.st := rfl
@[simp] theorem Group.dropMarks_n (G : Group) : (G.dropMarks).n = G.n := rfl
@[simp] theorem Group.dropMarks_sreg (G : Group) : (G.dropMarks).sreg = G.sreg := rfl
@[simp] theorem Group.dropMarks_vreg (G : Group) : (G.dropMarks).vreg = G.vreg := rfl
@[simp] theorem Group.dropMarks_creg (G : Group) : (G.dropMarks).creg = G.creg := rfl
@[simp] theorem Group.dropMarks_preg (G : Group) : (G.dropMarks).preg = G.preg := rfl
@[simp] theorem Group.dropMarks_hreg (G : Group) : (G.dropMarks).hreg = G.hreg := rfl
@[simp] theorem Group.dropMarks_cld (G : Group) : (G.dropMarks).cld = G.cld := rfl
@[simp] theorem Group.dropMarks_cst (G : Group) : (G.dropMarks).cst = G.cst := rfl
@[simp] theorem Group.dropMarks_ccp (G : Group) : (G.dropMarks).ccp = G.ccp := rfl
@[simp] theorem Group.dropMarks_ctl (G : Group) : (G.dropMarks).ctl = G.ctl := rfl
@[simp] theorem Group.dropMarks_laneact (G : Group) : (G.dropMarks).laneact = G.laneact &&& ~~~G.exitMarks := rfl
@[simp] theorem Group.dropMarks_faultmask (G : Group) : (G.dropMarks).faultmask = G.faultmask := rfl
@[simp] theorem Group.dropMarks_lanedone (G : Group) : (G.dropMarks).lanedone = G.lanedone := rfl
@[simp] theorem Group.dropMarks_memmask (G : Group) : (G.dropMarks).memmask = G.memmask := rfl
@[simp] theorem Group.dropMarks_vote (G : Group) : (G.dropMarks).vote = G.vote := rfl
@[simp] theorem Group.dropMarks_trap (G : Group) : (G.dropMarks).trap = G.trap := rfl
@[simp] theorem Group.dropMarks_wrapflag (G : Group) : (G.dropMarks).wrapflag = G.wrapflag := rfl
@[simp] theorem Group.dropMarks_ov (G : Group) : (G.dropMarks).ov = G.ov := rfl
@[simp] theorem Group.dropMarks_copy (G : Group) : (G.dropMarks).copy = G.copy := rfl
@[simp] theorem Group.dropMarks_pc (G : Group) : (G.dropMarks).pc = G.pc := rfl
@[simp] theorem Group.dropMarks_calls (G : Group) : (G.dropMarks).calls = G.calls := rfl
@[simp] theorem Group.dropMarks_wait (G : Group) : (G.dropMarks).wait = G.wait := rfl
@[simp] theorem Group.dropMarks_runs (G : Group) : (G.dropMarks).runs = G.runs := rfl
@[simp] theorem Group.dropMarks_splits (G : Group) : (G.dropMarks).splits = G.splits := rfl
@[simp] theorem Group.dropMarks_joins (G : Group) : (G.dropMarks).joins = G.joins := rfl
@[simp] theorem Group.dropMarks_exitMarks (G : Group) : (G.dropMarks).exitMarks = 0 := rfl
@[simp] theorem Group.dropMarks_holds (G : Group) : (G.dropMarks).holds = G.holds := rfl
@[simp] theorem Group.dropMarks_trapMode (G : Group) : (G.dropMarks).trapMode = G.trapMode := rfl
@[simp] theorem Group.dropMarks_stopWanted (G : Group) : (G.dropMarks).stopWanted = G.stopWanted := rfl
@[simp] theorem Group.dropMarks_sect (G : Group) : (G.dropMarks).sect = G.sect := rfl
@[simp] theorem Group.dropMarks_divertDue (G : Group) : (G.dropMarks).divertDue = G.divertDue := rfl
@[simp] theorem Group.dropMarks_yieldAt (G : Group) : (G.dropMarks).yieldAt = G.yieldAt := rfl
@[simp] theorem Group.dropMarks_aged (G : Group) : (G.dropMarks).aged = G.aged := rfl
@[simp] theorem Group.dropMarks_memb (G : Group) : (G.dropMarks).memb = G.memb := rfl
@[simp] theorem Group.dropMarks_tile (G : Group) : (G.dropMarks).tile = G.tile := rfl
@[simp] theorem Group.dropMarks_openEntry (G : Group) : (G.dropMarks).openEntry = G.openEntry := rfl
@[simp] theorem Group.dropMarks_comp (G : Group) : (G.dropMarks).comp = G.comp := rfl
@[simp] theorem Group.dropMarks_audit (G : Group) : (G.dropMarks).audit = G.audit := rfl
@[simp] theorem Group.dropMarks_lastTime (G : Group) : (G.dropMarks).lastTime = G.lastTime := rfl
@[simp] theorem Group.dropMarks_laneDone (G : Group) : (G.dropMarks).laneDone = G.laneDone := rfl
@[simp] theorem Group.dropMarks_laneRan (G : Group) : (G.dropMarks).laneRan = G.laneRan := rfl
@[simp] theorem Group.dropMarks_ord (G : Group) : (G.dropMarks).ord = G.ord := rfl
@[simp] theorem Group.dropMarks_tileOps (G : Group) : (G.dropMarks).tileOps = G.tileOps := rfl
@[simp] theorem Group.dropMarks_stall (G : Group) : (G.dropMarks).stall = G.stall := rfl
@[simp] theorem Group.dropMarks_free (G : Group) : (G.dropMarks).free = G.free := rfl
@[simp] theorem Group.dropMarks_ready (G : Group) : (G.dropMarks).ready = G.ready := rfl
@[simp] theorem Group.dropMarks_compDone (G : Group) : (G.dropMarks).compDone = G.compDone := rfl

@[simp] theorem Group.dropRuns_blk (G : Group) : (G.dropRuns).blk = G.blk := rfl
@[simp] theorem Group.dropRuns_idx (G : Group) : (G.dropRuns).idx = G.idx := rfl
@[simp] theorem Group.dropRuns_core (G : Group) : (G.dropRuns).core = G.core := rfl
@[simp] theorem Group.dropRuns_part (G : Group) : (G.dropRuns).part = G.part := rfl
@[simp] theorem Group.dropRuns_st (G : Group) : (G.dropRuns).st = G.st := rfl
@[simp] theorem Group.dropRuns_n (G : Group) : (G.dropRuns).n = G.n := rfl
@[simp] theorem Group.dropRuns_sreg (G : Group) : (G.dropRuns).sreg = G.sreg := rfl
@[simp] theorem Group.dropRuns_vreg (G : Group) : (G.dropRuns).vreg = G.vreg := rfl
@[simp] theorem Group.dropRuns_creg (G : Group) : (G.dropRuns).creg = G.creg := rfl
@[simp] theorem Group.dropRuns_preg (G : Group) : (G.dropRuns).preg = G.preg := rfl
@[simp] theorem Group.dropRuns_hreg (G : Group) : (G.dropRuns).hreg = G.hreg := rfl
@[simp] theorem Group.dropRuns_cld (G : Group) : (G.dropRuns).cld = G.cld := rfl
@[simp] theorem Group.dropRuns_cst (G : Group) : (G.dropRuns).cst = G.cst := rfl
@[simp] theorem Group.dropRuns_ccp (G : Group) : (G.dropRuns).ccp = G.ccp := rfl
@[simp] theorem Group.dropRuns_ctl (G : Group) : (G.dropRuns).ctl = G.ctl := rfl
@[simp] theorem Group.dropRuns_laneact (G : Group) : (G.dropRuns).laneact = G.laneact &&& ~~~G.exitMarks := rfl
@[simp] theorem Group.dropRuns_faultmask (G : Group) : (G.dropRuns).faultmask = G.faultmask := rfl
@[simp] theorem Group.dropRuns_lanedone (G : Group) : (G.dropRuns).lanedone = G.lanedone := rfl
@[simp] theorem Group.dropRuns_memmask (G : Group) : (G.dropRuns).memmask = G.memmask := rfl
@[simp] theorem Group.dropRuns_vote (G : Group) : (G.dropRuns).vote = G.vote := rfl
@[simp] theorem Group.dropRuns_trap (G : Group) : (G.dropRuns).trap = G.trap := rfl
@[simp] theorem Group.dropRuns_wrapflag (G : Group) : (G.dropRuns).wrapflag = G.wrapflag := rfl
@[simp] theorem Group.dropRuns_ov (G : Group) : (G.dropRuns).ov = G.ov := rfl
@[simp] theorem Group.dropRuns_copy (G : Group) : (G.dropRuns).copy = G.copy := rfl
@[simp] theorem Group.dropRuns_pc (G : Group) : (G.dropRuns).pc = G.pc := rfl
@[simp] theorem Group.dropRuns_calls (G : Group) : (G.dropRuns).calls = G.calls := rfl
@[simp] theorem Group.dropRuns_wait (G : Group) : (G.dropRuns).wait = G.wait := rfl
@[simp] theorem Group.dropRuns_runs (G : Group) : (G.dropRuns).runs = [] := rfl
@[simp] theorem Group.dropRuns_splits (G : Group) : (G.dropRuns).splits = [] := rfl
@[simp] theorem Group.dropRuns_joins (G : Group) : (G.dropRuns).joins = [] := rfl
@[simp] theorem Group.dropRuns_exitMarks (G : Group) : (G.dropRuns).exitMarks = 0 := rfl
@[simp] theorem Group.dropRuns_holds (G : Group) : (G.dropRuns).holds = G.holds.filter (·.str == .scalar) := rfl
@[simp] theorem Group.dropRuns_trapMode (G : Group) : (G.dropRuns).trapMode = G.trapMode := rfl
@[simp] theorem Group.dropRuns_stopWanted (G : Group) : (G.dropRuns).stopWanted = G.stopWanted := rfl
@[simp] theorem Group.dropRuns_sect (G : Group) : (G.dropRuns).sect = G.sect := rfl
@[simp] theorem Group.dropRuns_divertDue (G : Group) : (G.dropRuns).divertDue = G.divertDue := rfl
@[simp] theorem Group.dropRuns_yieldAt (G : Group) : (G.dropRuns).yieldAt = G.yieldAt := rfl
@[simp] theorem Group.dropRuns_aged (G : Group) : (G.dropRuns).aged = G.aged := rfl
@[simp] theorem Group.dropRuns_memb (G : Group) : (G.dropRuns).memb = G.memb := rfl
@[simp] theorem Group.dropRuns_tile (G : Group) : (G.dropRuns).tile = G.tile := rfl
@[simp] theorem Group.dropRuns_openEntry (G : Group) : (G.dropRuns).openEntry = G.openEntry := rfl
@[simp] theorem Group.dropRuns_comp (G : Group) : (G.dropRuns).comp = G.comp := rfl
@[simp] theorem Group.dropRuns_audit (G : Group) : (G.dropRuns).audit = G.audit := rfl
@[simp] theorem Group.dropRuns_lastTime (G : Group) : (G.dropRuns).lastTime = G.lastTime := rfl
@[simp] theorem Group.dropRuns_laneDone (G : Group) : G.dropRuns.laneDone = sunion G.laneDone G.runOps := rfl
@[simp] theorem Group.dropRuns_laneRan (G : Group) : (G.dropRuns).laneRan = sunion G.laneRan G.runRan := rfl
@[simp] theorem Group.dropRuns_ord (G : Group) : (G.dropRuns).ord = G.ord := rfl
@[simp] theorem Group.dropRuns_tileOps (G : Group) : (G.dropRuns).tileOps = G.tileOps := rfl
@[simp] theorem Group.dropRuns_stall (G : Group) : G.dropRuns.stall = none := rfl
@[simp] theorem Group.dropRuns_free (G : Group) : (G.dropRuns).free = G.free := rfl
@[simp] theorem Group.dropRuns_ready (G : Group) : (G.dropRuns).ready = G.ready := rfl
@[simp] theorem Group.dropRuns_compDone (G : Group) : (G.dropRuns).compDone = G.compDone := rfl

@[simp] theorem Group.ws_blk (G : Group) (r : SReg) (x : Word) : (G.ws r x).blk = G.blk := by unfold Group.ws; split <;> rfl
@[simp] theorem Group.ws_idx (G : Group) (r : SReg) (x : Word) : (G.ws r x).idx = G.idx := by unfold Group.ws; split <;> rfl
@[simp] theorem Group.ws_core (G : Group) (r : SReg) (x : Word) : (G.ws r x).core = G.core := by unfold Group.ws; split <;> rfl
@[simp] theorem Group.ws_part (G : Group) (r : SReg) (x : Word) : (G.ws r x).part = G.part := by unfold Group.ws; split <;> rfl
@[simp] theorem Group.ws_st (G : Group) (r : SReg) (x : Word) : (G.ws r x).st = G.st := by unfold Group.ws; split <;> rfl
@[simp] theorem Group.ws_n (G : Group) (r : SReg) (x : Word) : (G.ws r x).n = G.n := by unfold Group.ws; split <;> rfl
@[simp] theorem Group.ws_vreg (G : Group) (r : SReg) (x : Word) : (G.ws r x).vreg = G.vreg := by unfold Group.ws; split <;> rfl
@[simp] theorem Group.ws_creg (G : Group) (r : SReg) (x : Word) : (G.ws r x).creg = G.creg := by unfold Group.ws; split <;> rfl
@[simp] theorem Group.ws_preg (G : Group) (r : SReg) (x : Word) : (G.ws r x).preg = G.preg := by unfold Group.ws; split <;> rfl
@[simp] theorem Group.ws_hreg (G : Group) (r : SReg) (x : Word) : (G.ws r x).hreg = G.hreg := by unfold Group.ws; split <;> rfl
@[simp] theorem Group.ws_cld (G : Group) (r : SReg) (x : Word) : (G.ws r x).cld = G.cld := by unfold Group.ws; split <;> rfl
@[simp] theorem Group.ws_cst (G : Group) (r : SReg) (x : Word) : (G.ws r x).cst = G.cst := by unfold Group.ws; split <;> rfl
@[simp] theorem Group.ws_ccp (G : Group) (r : SReg) (x : Word) : (G.ws r x).ccp = G.ccp := by unfold Group.ws; split <;> rfl
@[simp] theorem Group.ws_ctl (G : Group) (r : SReg) (x : Word) : (G.ws r x).ctl = G.ctl := by unfold Group.ws; split <;> rfl
@[simp] theorem Group.ws_laneact (G : Group) (r : SReg) (x : Word) : (G.ws r x).laneact = G.laneact := by unfold Group.ws; split <;> rfl
@[simp] theorem Group.ws_faultmask (G : Group) (r : SReg) (x : Word) : (G.ws r x).faultmask = G.faultmask := by unfold Group.ws; split <;> rfl
@[simp] theorem Group.ws_lanedone (G : Group) (r : SReg) (x : Word) : (G.ws r x).lanedone = G.lanedone := by unfold Group.ws; split <;> rfl
@[simp] theorem Group.ws_memmask (G : Group) (r : SReg) (x : Word) : (G.ws r x).memmask = G.memmask := by unfold Group.ws; split <;> rfl
@[simp] theorem Group.ws_vote (G : Group) (r : SReg) (x : Word) : (G.ws r x).vote = G.vote := by unfold Group.ws; split <;> rfl
@[simp] theorem Group.ws_trap (G : Group) (r : SReg) (x : Word) : (G.ws r x).trap = G.trap := by unfold Group.ws; split <;> rfl
@[simp] theorem Group.ws_wrapflag (G : Group) (r : SReg) (x : Word) : (G.ws r x).wrapflag = G.wrapflag := by unfold Group.ws; split <;> rfl
@[simp] theorem Group.ws_ov (G : Group) (r : SReg) (x : Word) : (G.ws r x).ov = G.ov := by unfold Group.ws; split <;> rfl
@[simp] theorem Group.ws_copy (G : Group) (r : SReg) (x : Word) : (G.ws r x).copy = G.copy := by unfold Group.ws; split <;> rfl
@[simp] theorem Group.ws_pc (G : Group) (r : SReg) (x : Word) : (G.ws r x).pc = G.pc := by unfold Group.ws; split <;> rfl
@[simp] theorem Group.ws_calls (G : Group) (r : SReg) (x : Word) : (G.ws r x).calls = G.calls := by unfold Group.ws; split <;> rfl
@[simp] theorem Group.ws_wait (G : Group) (r : SReg) (x : Word) : (G.ws r x).wait = G.wait := by unfold Group.ws; split <;> rfl
@[simp] theorem Group.ws_runs (G : Group) (r : SReg) (x : Word) : (G.ws r x).runs = G.runs := by unfold Group.ws; split <;> rfl
@[simp] theorem Group.ws_splits (G : Group) (r : SReg) (x : Word) : (G.ws r x).splits = G.splits := by unfold Group.ws; split <;> rfl
@[simp] theorem Group.ws_joins (G : Group) (r : SReg) (x : Word) : (G.ws r x).joins = G.joins := by unfold Group.ws; split <;> rfl
@[simp] theorem Group.ws_exitMarks (G : Group) (r : SReg) (x : Word) : (G.ws r x).exitMarks = G.exitMarks := by unfold Group.ws; split <;> rfl
@[simp] theorem Group.ws_holds (G : Group) (r : SReg) (x : Word) : (G.ws r x).holds = G.holds := by unfold Group.ws; split <;> rfl
@[simp] theorem Group.ws_trapMode (G : Group) (r : SReg) (x : Word) : (G.ws r x).trapMode = G.trapMode := by unfold Group.ws; split <;> rfl
@[simp] theorem Group.ws_stopWanted (G : Group) (r : SReg) (x : Word) : (G.ws r x).stopWanted = G.stopWanted := by unfold Group.ws; split <;> rfl
@[simp] theorem Group.ws_sect (G : Group) (r : SReg) (x : Word) : (G.ws r x).sect = G.sect := by unfold Group.ws; split <;> rfl
@[simp] theorem Group.ws_divertDue (G : Group) (r : SReg) (x : Word) : (G.ws r x).divertDue = G.divertDue := by unfold Group.ws; split <;> rfl
@[simp] theorem Group.ws_yieldAt (G : Group) (r : SReg) (x : Word) : (G.ws r x).yieldAt = G.yieldAt := by unfold Group.ws; split <;> rfl
@[simp] theorem Group.ws_aged (G : Group) (r : SReg) (x : Word) : (G.ws r x).aged = G.aged := by unfold Group.ws; split <;> rfl
@[simp] theorem Group.ws_memb (G : Group) (r : SReg) (x : Word) : (G.ws r x).memb = G.memb := by unfold Group.ws; split <;> rfl
@[simp] theorem Group.ws_tile (G : Group) (r : SReg) (x : Word) : (G.ws r x).tile = G.tile := by unfold Group.ws; split <;> rfl
@[simp] theorem Group.ws_openEntry (G : Group) (r : SReg) (x : Word) : (G.ws r x).openEntry = G.openEntry := by unfold Group.ws; split <;> rfl
@[simp] theorem Group.ws_comp (G : Group) (r : SReg) (x : Word) : (G.ws r x).comp = G.comp := by unfold Group.ws; split <;> rfl
@[simp] theorem Group.ws_audit (G : Group) (r : SReg) (x : Word) : (G.ws r x).audit = G.audit := by unfold Group.ws; split <;> rfl
@[simp] theorem Group.ws_lastTime (G : Group) (r : SReg) (x : Word) : (G.ws r x).lastTime = G.lastTime := by unfold Group.ws; split <;> rfl
@[simp] theorem Group.ws_laneDone (G : Group) (r : SReg) (x : Word) : (G.ws r x).laneDone = G.laneDone := by unfold Group.ws; split <;> rfl
@[simp] theorem Group.ws_laneRan (G : Group) (r : SReg) (x : Word) : (G.ws r x).laneRan = G.laneRan := by unfold Group.ws; split <;> rfl
@[simp] theorem Group.ws_ord (G : Group) (r : SReg) (x : Word) : (G.ws r x).ord = G.ord := by unfold Group.ws; split <;> rfl
@[simp] theorem Group.ws_tileOps (G : Group) (r : SReg) (x : Word) : (G.ws r x).tileOps = G.tileOps := by unfold Group.ws; split <;> rfl
@[simp] theorem Group.ws_stall (G : Group) (r : SReg) (x : Word) : (G.ws r x).stall = G.stall := by unfold Group.ws; split <;> rfl
@[simp] theorem Group.ws_free (G : Group) (r : SReg) (x : Word) : (G.ws r x).free = G.free := by unfold Group.ws; split <;> rfl
@[simp] theorem Group.ws_ready (G : Group) (r : SReg) (x : Word) : (G.ws r x).ready = G.ready := by unfold Group.ws; split <;> rfl
@[simp] theorem Group.ws_compDone (G : Group) (r : SReg) (x : Word) : (G.ws r x).compDone = G.compDone := by unfold Group.ws; split <;> rfl

@[simp] theorem Group.wc_blk (G : Group) (c : CReg) (b : Bool) : (G.wc c b).blk = G.blk := by unfold Group.wc; split <;> rfl
@[simp] theorem Group.wc_idx (G : Group) (c : CReg) (b : Bool) : (G.wc c b).idx = G.idx := by unfold Group.wc; split <;> rfl
@[simp] theorem Group.wc_core (G : Group) (c : CReg) (b : Bool) : (G.wc c b).core = G.core := by unfold Group.wc; split <;> rfl
@[simp] theorem Group.wc_part (G : Group) (c : CReg) (b : Bool) : (G.wc c b).part = G.part := by unfold Group.wc; split <;> rfl
@[simp] theorem Group.wc_st (G : Group) (c : CReg) (b : Bool) : (G.wc c b).st = G.st := by unfold Group.wc; split <;> rfl
@[simp] theorem Group.wc_n (G : Group) (c : CReg) (b : Bool) : (G.wc c b).n = G.n := by unfold Group.wc; split <;> rfl
@[simp] theorem Group.wc_sreg (G : Group) (c : CReg) (b : Bool) : (G.wc c b).sreg = G.sreg := by unfold Group.wc; split <;> rfl
@[simp] theorem Group.wc_vreg (G : Group) (c : CReg) (b : Bool) : (G.wc c b).vreg = G.vreg := by unfold Group.wc; split <;> rfl
@[simp] theorem Group.wc_preg (G : Group) (c : CReg) (b : Bool) : (G.wc c b).preg = G.preg := by unfold Group.wc; split <;> rfl
@[simp] theorem Group.wc_hreg (G : Group) (c : CReg) (b : Bool) : (G.wc c b).hreg = G.hreg := by unfold Group.wc; split <;> rfl
@[simp] theorem Group.wc_cld (G : Group) (c : CReg) (b : Bool) : (G.wc c b).cld = G.cld := by unfold Group.wc; split <;> rfl
@[simp] theorem Group.wc_cst (G : Group) (c : CReg) (b : Bool) : (G.wc c b).cst = G.cst := by unfold Group.wc; split <;> rfl
@[simp] theorem Group.wc_ccp (G : Group) (c : CReg) (b : Bool) : (G.wc c b).ccp = G.ccp := by unfold Group.wc; split <;> rfl
@[simp] theorem Group.wc_ctl (G : Group) (c : CReg) (b : Bool) : (G.wc c b).ctl = G.ctl := by unfold Group.wc; split <;> rfl
@[simp] theorem Group.wc_laneact (G : Group) (c : CReg) (b : Bool) : (G.wc c b).laneact = G.laneact := by unfold Group.wc; split <;> rfl
@[simp] theorem Group.wc_faultmask (G : Group) (c : CReg) (b : Bool) : (G.wc c b).faultmask = G.faultmask := by unfold Group.wc; split <;> rfl
@[simp] theorem Group.wc_lanedone (G : Group) (c : CReg) (b : Bool) : (G.wc c b).lanedone = G.lanedone := by unfold Group.wc; split <;> rfl
@[simp] theorem Group.wc_memmask (G : Group) (c : CReg) (b : Bool) : (G.wc c b).memmask = G.memmask := by unfold Group.wc; split <;> rfl
@[simp] theorem Group.wc_vote (G : Group) (c : CReg) (b : Bool) : (G.wc c b).vote = G.vote := by unfold Group.wc; split <;> rfl
@[simp] theorem Group.wc_trap (G : Group) (c : CReg) (b : Bool) : (G.wc c b).trap = G.trap := by unfold Group.wc; split <;> rfl
@[simp] theorem Group.wc_wrapflag (G : Group) (c : CReg) (b : Bool) : (G.wc c b).wrapflag = G.wrapflag := by unfold Group.wc; split <;> rfl
@[simp] theorem Group.wc_ov (G : Group) (c : CReg) (b : Bool) : (G.wc c b).ov = G.ov := by unfold Group.wc; split <;> rfl
@[simp] theorem Group.wc_copy (G : Group) (c : CReg) (b : Bool) : (G.wc c b).copy = G.copy := by unfold Group.wc; split <;> rfl
@[simp] theorem Group.wc_pc (G : Group) (c : CReg) (b : Bool) : (G.wc c b).pc = G.pc := by unfold Group.wc; split <;> rfl
@[simp] theorem Group.wc_calls (G : Group) (c : CReg) (b : Bool) : (G.wc c b).calls = G.calls := by unfold Group.wc; split <;> rfl
@[simp] theorem Group.wc_wait (G : Group) (c : CReg) (b : Bool) : (G.wc c b).wait = G.wait := by unfold Group.wc; split <;> rfl
@[simp] theorem Group.wc_runs (G : Group) (c : CReg) (b : Bool) : (G.wc c b).runs = G.runs := by unfold Group.wc; split <;> rfl
@[simp] theorem Group.wc_splits (G : Group) (c : CReg) (b : Bool) : (G.wc c b).splits = G.splits := by unfold Group.wc; split <;> rfl
@[simp] theorem Group.wc_joins (G : Group) (c : CReg) (b : Bool) : (G.wc c b).joins = G.joins := by unfold Group.wc; split <;> rfl
@[simp] theorem Group.wc_exitMarks (G : Group) (c : CReg) (b : Bool) : (G.wc c b).exitMarks = G.exitMarks := by unfold Group.wc; split <;> rfl
@[simp] theorem Group.wc_holds (G : Group) (c : CReg) (b : Bool) : (G.wc c b).holds = G.holds := by unfold Group.wc; split <;> rfl
@[simp] theorem Group.wc_trapMode (G : Group) (c : CReg) (b : Bool) : (G.wc c b).trapMode = G.trapMode := by unfold Group.wc; split <;> rfl
@[simp] theorem Group.wc_stopWanted (G : Group) (c : CReg) (b : Bool) : (G.wc c b).stopWanted = G.stopWanted := by unfold Group.wc; split <;> rfl
@[simp] theorem Group.wc_sect (G : Group) (c : CReg) (b : Bool) : (G.wc c b).sect = G.sect := by unfold Group.wc; split <;> rfl
@[simp] theorem Group.wc_divertDue (G : Group) (c : CReg) (b : Bool) : (G.wc c b).divertDue = G.divertDue := by unfold Group.wc; split <;> rfl
@[simp] theorem Group.wc_yieldAt (G : Group) (c : CReg) (b : Bool) : (G.wc c b).yieldAt = G.yieldAt := by unfold Group.wc; split <;> rfl
@[simp] theorem Group.wc_aged (G : Group) (c : CReg) (b : Bool) : (G.wc c b).aged = G.aged := by unfold Group.wc; split <;> rfl
@[simp] theorem Group.wc_memb (G : Group) (c : CReg) (b : Bool) : (G.wc c b).memb = G.memb := by unfold Group.wc; split <;> rfl
@[simp] theorem Group.wc_tile (G : Group) (c : CReg) (b : Bool) : (G.wc c b).tile = G.tile := by unfold Group.wc; split <;> rfl
@[simp] theorem Group.wc_openEntry (G : Group) (c : CReg) (b : Bool) : (G.wc c b).openEntry = G.openEntry := by unfold Group.wc; split <;> rfl
@[simp] theorem Group.wc_comp (G : Group) (c : CReg) (b : Bool) : (G.wc c b).comp = G.comp := by unfold Group.wc; split <;> rfl
@[simp] theorem Group.wc_audit (G : Group) (c : CReg) (b : Bool) : (G.wc c b).audit = G.audit := by unfold Group.wc; split <;> rfl
@[simp] theorem Group.wc_lastTime (G : Group) (c : CReg) (b : Bool) : (G.wc c b).lastTime = G.lastTime := by unfold Group.wc; split <;> rfl
@[simp] theorem Group.wc_laneDone (G : Group) (c : CReg) (b : Bool) : (G.wc c b).laneDone = G.laneDone := by unfold Group.wc; split <;> rfl
@[simp] theorem Group.wc_laneRan (G : Group) (c : CReg) (b : Bool) : (G.wc c b).laneRan = G.laneRan := by unfold Group.wc; split <;> rfl
@[simp] theorem Group.wc_ord (G : Group) (c : CReg) (b : Bool) : (G.wc c b).ord = G.ord := by unfold Group.wc; split <;> rfl
@[simp] theorem Group.wc_tileOps (G : Group) (c : CReg) (b : Bool) : (G.wc c b).tileOps = G.tileOps := by unfold Group.wc; split <;> rfl
@[simp] theorem Group.wc_stall (G : Group) (c : CReg) (b : Bool) : (G.wc c b).stall = G.stall := by unfold Group.wc; split <;> rfl
@[simp] theorem Group.wc_free (G : Group) (c : CReg) (b : Bool) : (G.wc c b).free = G.free := by unfold Group.wc; split <;> rfl
@[simp] theorem Group.wc_ready (G : Group) (c : CReg) (b : Bool) : (G.wc c b).ready = G.ready := by unfold Group.wc; split <;> rfl
@[simp] theorem Group.wc_compDone (G : Group) (c : CReg) (b : Bool) : (G.wc c b).compDone = G.compDone := by unfold Group.wc; split <;> rfl

@[simp] theorem Group.wp_blk (G : Group) (p : PReg) (x : Mask) : (G.wp p x).blk = G.blk := by unfold Group.wp; split <;> rfl
@[simp] theorem Group.wp_idx (G : Group) (p : PReg) (x : Mask) : (G.wp p x).idx = G.idx := by unfold Group.wp; split <;> rfl
@[simp] theorem Group.wp_core (G : Group) (p : PReg) (x : Mask) : (G.wp p x).core = G.core := by unfold Group.wp; split <;> rfl
@[simp] theorem Group.wp_part (G : Group) (p : PReg) (x : Mask) : (G.wp p x).part = G.part := by unfold Group.wp; split <;> rfl
@[simp] theorem Group.wp_st (G : Group) (p : PReg) (x : Mask) : (G.wp p x).st = G.st := by unfold Group.wp; split <;> rfl
@[simp] theorem Group.wp_n (G : Group) (p : PReg) (x : Mask) : (G.wp p x).n = G.n := by unfold Group.wp; split <;> rfl
@[simp] theorem Group.wp_sreg (G : Group) (p : PReg) (x : Mask) : (G.wp p x).sreg = G.sreg := by unfold Group.wp; split <;> rfl
@[simp] theorem Group.wp_vreg (G : Group) (p : PReg) (x : Mask) : (G.wp p x).vreg = G.vreg := by unfold Group.wp; split <;> rfl
@[simp] theorem Group.wp_creg (G : Group) (p : PReg) (x : Mask) : (G.wp p x).creg = G.creg := by unfold Group.wp; split <;> rfl
@[simp] theorem Group.wp_hreg (G : Group) (p : PReg) (x : Mask) : (G.wp p x).hreg = G.hreg := by unfold Group.wp; split <;> rfl
@[simp] theorem Group.wp_cld (G : Group) (p : PReg) (x : Mask) : (G.wp p x).cld = G.cld := by unfold Group.wp; split <;> rfl
@[simp] theorem Group.wp_cst (G : Group) (p : PReg) (x : Mask) : (G.wp p x).cst = G.cst := by unfold Group.wp; split <;> rfl
@[simp] theorem Group.wp_ccp (G : Group) (p : PReg) (x : Mask) : (G.wp p x).ccp = G.ccp := by unfold Group.wp; split <;> rfl
@[simp] theorem Group.wp_ctl (G : Group) (p : PReg) (x : Mask) : (G.wp p x).ctl = G.ctl := by unfold Group.wp; split <;> rfl
@[simp] theorem Group.wp_laneact (G : Group) (p : PReg) (x : Mask) : (G.wp p x).laneact = G.laneact := by unfold Group.wp; split <;> rfl
@[simp] theorem Group.wp_faultmask (G : Group) (p : PReg) (x : Mask) : (G.wp p x).faultmask = G.faultmask := by unfold Group.wp; split <;> rfl
@[simp] theorem Group.wp_lanedone (G : Group) (p : PReg) (x : Mask) : (G.wp p x).lanedone = G.lanedone := by unfold Group.wp; split <;> rfl
@[simp] theorem Group.wp_memmask (G : Group) (p : PReg) (x : Mask) : (G.wp p x).memmask = G.memmask := by unfold Group.wp; split <;> rfl
@[simp] theorem Group.wp_vote (G : Group) (p : PReg) (x : Mask) : (G.wp p x).vote = G.vote := by unfold Group.wp; split <;> rfl
@[simp] theorem Group.wp_trap (G : Group) (p : PReg) (x : Mask) : (G.wp p x).trap = G.trap := by unfold Group.wp; split <;> rfl
@[simp] theorem Group.wp_wrapflag (G : Group) (p : PReg) (x : Mask) : (G.wp p x).wrapflag = G.wrapflag := by unfold Group.wp; split <;> rfl
@[simp] theorem Group.wp_ov (G : Group) (p : PReg) (x : Mask) : (G.wp p x).ov = G.ov := by unfold Group.wp; split <;> rfl
@[simp] theorem Group.wp_copy (G : Group) (p : PReg) (x : Mask) : (G.wp p x).copy = G.copy := by unfold Group.wp; split <;> rfl
@[simp] theorem Group.wp_pc (G : Group) (p : PReg) (x : Mask) : (G.wp p x).pc = G.pc := by unfold Group.wp; split <;> rfl
@[simp] theorem Group.wp_calls (G : Group) (p : PReg) (x : Mask) : (G.wp p x).calls = G.calls := by unfold Group.wp; split <;> rfl
@[simp] theorem Group.wp_wait (G : Group) (p : PReg) (x : Mask) : (G.wp p x).wait = G.wait := by unfold Group.wp; split <;> rfl
@[simp] theorem Group.wp_runs (G : Group) (p : PReg) (x : Mask) : (G.wp p x).runs = G.runs := by unfold Group.wp; split <;> rfl
@[simp] theorem Group.wp_splits (G : Group) (p : PReg) (x : Mask) : (G.wp p x).splits = G.splits := by unfold Group.wp; split <;> rfl
@[simp] theorem Group.wp_joins (G : Group) (p : PReg) (x : Mask) : (G.wp p x).joins = G.joins := by unfold Group.wp; split <;> rfl
@[simp] theorem Group.wp_exitMarks (G : Group) (p : PReg) (x : Mask) : (G.wp p x).exitMarks = G.exitMarks := by unfold Group.wp; split <;> rfl
@[simp] theorem Group.wp_holds (G : Group) (p : PReg) (x : Mask) : (G.wp p x).holds = G.holds := by unfold Group.wp; split <;> rfl
@[simp] theorem Group.wp_trapMode (G : Group) (p : PReg) (x : Mask) : (G.wp p x).trapMode = G.trapMode := by unfold Group.wp; split <;> rfl
@[simp] theorem Group.wp_stopWanted (G : Group) (p : PReg) (x : Mask) : (G.wp p x).stopWanted = G.stopWanted := by unfold Group.wp; split <;> rfl
@[simp] theorem Group.wp_sect (G : Group) (p : PReg) (x : Mask) : (G.wp p x).sect = G.sect := by unfold Group.wp; split <;> rfl
@[simp] theorem Group.wp_divertDue (G : Group) (p : PReg) (x : Mask) : (G.wp p x).divertDue = G.divertDue := by unfold Group.wp; split <;> rfl
@[simp] theorem Group.wp_yieldAt (G : Group) (p : PReg) (x : Mask) : (G.wp p x).yieldAt = G.yieldAt := by unfold Group.wp; split <;> rfl
@[simp] theorem Group.wp_aged (G : Group) (p : PReg) (x : Mask) : (G.wp p x).aged = G.aged := by unfold Group.wp; split <;> rfl
@[simp] theorem Group.wp_memb (G : Group) (p : PReg) (x : Mask) : (G.wp p x).memb = G.memb := by unfold Group.wp; split <;> rfl
@[simp] theorem Group.wp_tile (G : Group) (p : PReg) (x : Mask) : (G.wp p x).tile = G.tile := by unfold Group.wp; split <;> rfl
@[simp] theorem Group.wp_openEntry (G : Group) (p : PReg) (x : Mask) : (G.wp p x).openEntry = G.openEntry := by unfold Group.wp; split <;> rfl
@[simp] theorem Group.wp_comp (G : Group) (p : PReg) (x : Mask) : (G.wp p x).comp = G.comp := by unfold Group.wp; split <;> rfl
@[simp] theorem Group.wp_audit (G : Group) (p : PReg) (x : Mask) : (G.wp p x).audit = G.audit := by unfold Group.wp; split <;> rfl
@[simp] theorem Group.wp_lastTime (G : Group) (p : PReg) (x : Mask) : (G.wp p x).lastTime = G.lastTime := by unfold Group.wp; split <;> rfl
@[simp] theorem Group.wp_laneDone (G : Group) (p : PReg) (x : Mask) : (G.wp p x).laneDone = G.laneDone := by unfold Group.wp; split <;> rfl
@[simp] theorem Group.wp_laneRan (G : Group) (p : PReg) (x : Mask) : (G.wp p x).laneRan = G.laneRan := by unfold Group.wp; split <;> rfl
@[simp] theorem Group.wp_ord (G : Group) (p : PReg) (x : Mask) : (G.wp p x).ord = G.ord := by unfold Group.wp; split <;> rfl
@[simp] theorem Group.wp_tileOps (G : Group) (p : PReg) (x : Mask) : (G.wp p x).tileOps = G.tileOps := by unfold Group.wp; split <;> rfl
@[simp] theorem Group.wp_stall (G : Group) (p : PReg) (x : Mask) : (G.wp p x).stall = G.stall := by unfold Group.wp; split <;> rfl
@[simp] theorem Group.wp_free (G : Group) (p : PReg) (x : Mask) : (G.wp p x).free = G.free := by unfold Group.wp; split <;> rfl
@[simp] theorem Group.wp_ready (G : Group) (p : PReg) (x : Mask) : (G.wp p x).ready = G.ready := by unfold Group.wp; split <;> rfl
@[simp] theorem Group.wp_compDone (G : Group) (p : PReg) (x : Mask) : (G.wp p x).compDone = G.compDone := by unfold Group.wp; split <;> rfl

@[simp] theorem Group.wpMask_blk (G : Group) (p : PReg) (m x : Mask) : (G.wpMask p m x).blk = G.blk := Group.wp_blk G p _
@[simp] theorem Group.wpMask_idx (G : Group) (p : PReg) (m x : Mask) : (G.wpMask p m x).idx = G.idx := Group.wp_idx G p _
@[simp] theorem Group.wpMask_core (G : Group) (p : PReg) (m x : Mask) : (G.wpMask p m x).core = G.core := Group.wp_core G p _
@[simp] theorem Group.wpMask_part (G : Group) (p : PReg) (m x : Mask) : (G.wpMask p m x).part = G.part := Group.wp_part G p _
@[simp] theorem Group.wpMask_st (G : Group) (p : PReg) (m x : Mask) : (G.wpMask p m x).st = G.st := Group.wp_st G p _
@[simp] theorem Group.wpMask_n (G : Group) (p : PReg) (m x : Mask) : (G.wpMask p m x).n = G.n := Group.wp_n G p _
@[simp] theorem Group.wpMask_sreg (G : Group) (p : PReg) (m x : Mask) : (G.wpMask p m x).sreg = G.sreg := Group.wp_sreg G p _
@[simp] theorem Group.wpMask_vreg (G : Group) (p : PReg) (m x : Mask) : (G.wpMask p m x).vreg = G.vreg := Group.wp_vreg G p _
@[simp] theorem Group.wpMask_creg (G : Group) (p : PReg) (m x : Mask) : (G.wpMask p m x).creg = G.creg := Group.wp_creg G p _
@[simp] theorem Group.wpMask_hreg (G : Group) (p : PReg) (m x : Mask) : (G.wpMask p m x).hreg = G.hreg := Group.wp_hreg G p _
@[simp] theorem Group.wpMask_cld (G : Group) (p : PReg) (m x : Mask) : (G.wpMask p m x).cld = G.cld := Group.wp_cld G p _
@[simp] theorem Group.wpMask_cst (G : Group) (p : PReg) (m x : Mask) : (G.wpMask p m x).cst = G.cst := Group.wp_cst G p _
@[simp] theorem Group.wpMask_ccp (G : Group) (p : PReg) (m x : Mask) : (G.wpMask p m x).ccp = G.ccp := Group.wp_ccp G p _
@[simp] theorem Group.wpMask_ctl (G : Group) (p : PReg) (m x : Mask) : (G.wpMask p m x).ctl = G.ctl := Group.wp_ctl G p _
@[simp] theorem Group.wpMask_laneact (G : Group) (p : PReg) (m x : Mask) : (G.wpMask p m x).laneact = G.laneact := Group.wp_laneact G p _
@[simp] theorem Group.wpMask_faultmask (G : Group) (p : PReg) (m x : Mask) : (G.wpMask p m x).faultmask = G.faultmask := Group.wp_faultmask G p _
@[simp] theorem Group.wpMask_lanedone (G : Group) (p : PReg) (m x : Mask) : (G.wpMask p m x).lanedone = G.lanedone := Group.wp_lanedone G p _
@[simp] theorem Group.wpMask_memmask (G : Group) (p : PReg) (m x : Mask) : (G.wpMask p m x).memmask = G.memmask := Group.wp_memmask G p _
@[simp] theorem Group.wpMask_vote (G : Group) (p : PReg) (m x : Mask) : (G.wpMask p m x).vote = G.vote := Group.wp_vote G p _
@[simp] theorem Group.wpMask_trap (G : Group) (p : PReg) (m x : Mask) : (G.wpMask p m x).trap = G.trap := Group.wp_trap G p _
@[simp] theorem Group.wpMask_wrapflag (G : Group) (p : PReg) (m x : Mask) : (G.wpMask p m x).wrapflag = G.wrapflag := Group.wp_wrapflag G p _
@[simp] theorem Group.wpMask_ov (G : Group) (p : PReg) (m x : Mask) : (G.wpMask p m x).ov = G.ov := Group.wp_ov G p _
@[simp] theorem Group.wpMask_copy (G : Group) (p : PReg) (m x : Mask) : (G.wpMask p m x).copy = G.copy := Group.wp_copy G p _
@[simp] theorem Group.wpMask_pc (G : Group) (p : PReg) (m x : Mask) : (G.wpMask p m x).pc = G.pc := Group.wp_pc G p _
@[simp] theorem Group.wpMask_calls (G : Group) (p : PReg) (m x : Mask) : (G.wpMask p m x).calls = G.calls := Group.wp_calls G p _
@[simp] theorem Group.wpMask_wait (G : Group) (p : PReg) (m x : Mask) : (G.wpMask p m x).wait = G.wait := Group.wp_wait G p _
@[simp] theorem Group.wpMask_runs (G : Group) (p : PReg) (m x : Mask) : (G.wpMask p m x).runs = G.runs := Group.wp_runs G p _
@[simp] theorem Group.wpMask_splits (G : Group) (p : PReg) (m x : Mask) : (G.wpMask p m x).splits = G.splits := Group.wp_splits G p _
@[simp] theorem Group.wpMask_joins (G : Group) (p : PReg) (m x : Mask) : (G.wpMask p m x).joins = G.joins := Group.wp_joins G p _
@[simp] theorem Group.wpMask_exitMarks (G : Group) (p : PReg) (m x : Mask) : (G.wpMask p m x).exitMarks = G.exitMarks := Group.wp_exitMarks G p _
@[simp] theorem Group.wpMask_holds (G : Group) (p : PReg) (m x : Mask) : (G.wpMask p m x).holds = G.holds := Group.wp_holds G p _
@[simp] theorem Group.wpMask_trapMode (G : Group) (p : PReg) (m x : Mask) : (G.wpMask p m x).trapMode = G.trapMode := Group.wp_trapMode G p _
@[simp] theorem Group.wpMask_stopWanted (G : Group) (p : PReg) (m x : Mask) : (G.wpMask p m x).stopWanted = G.stopWanted := Group.wp_stopWanted G p _
@[simp] theorem Group.wpMask_sect (G : Group) (p : PReg) (m x : Mask) : (G.wpMask p m x).sect = G.sect := Group.wp_sect G p _
@[simp] theorem Group.wpMask_divertDue (G : Group) (p : PReg) (m x : Mask) : (G.wpMask p m x).divertDue = G.divertDue := Group.wp_divertDue G p _
@[simp] theorem Group.wpMask_yieldAt (G : Group) (p : PReg) (m x : Mask) : (G.wpMask p m x).yieldAt = G.yieldAt := Group.wp_yieldAt G p _
@[simp] theorem Group.wpMask_aged (G : Group) (p : PReg) (m x : Mask) : (G.wpMask p m x).aged = G.aged := Group.wp_aged G p _
@[simp] theorem Group.wpMask_memb (G : Group) (p : PReg) (m x : Mask) : (G.wpMask p m x).memb = G.memb := Group.wp_memb G p _
@[simp] theorem Group.wpMask_tile (G : Group) (p : PReg) (m x : Mask) : (G.wpMask p m x).tile = G.tile := Group.wp_tile G p _
@[simp] theorem Group.wpMask_openEntry (G : Group) (p : PReg) (m x : Mask) : (G.wpMask p m x).openEntry = G.openEntry := Group.wp_openEntry G p _
@[simp] theorem Group.wpMask_comp (G : Group) (p : PReg) (m x : Mask) : (G.wpMask p m x).comp = G.comp := Group.wp_comp G p _
@[simp] theorem Group.wpMask_audit (G : Group) (p : PReg) (m x : Mask) : (G.wpMask p m x).audit = G.audit := Group.wp_audit G p _
@[simp] theorem Group.wpMask_lastTime (G : Group) (p : PReg) (m x : Mask) : (G.wpMask p m x).lastTime = G.lastTime := Group.wp_lastTime G p _
@[simp] theorem Group.wpMask_laneDone (G : Group) (p : PReg) (m x : Mask) : (G.wpMask p m x).laneDone = G.laneDone := Group.wp_laneDone G p _
@[simp] theorem Group.wpMask_laneRan (G : Group) (p : PReg) (m x : Mask) : (G.wpMask p m x).laneRan = G.laneRan := Group.wp_laneRan G p _
@[simp] theorem Group.wpMask_ord (G : Group) (p : PReg) (m x : Mask) : (G.wpMask p m x).ord = G.ord := Group.wp_ord G p _
@[simp] theorem Group.wpMask_tileOps (G : Group) (p : PReg) (m x : Mask) : (G.wpMask p m x).tileOps = G.tileOps := Group.wp_tileOps G p _
@[simp] theorem Group.wpMask_stall (G : Group) (p : PReg) (m x : Mask) : (G.wpMask p m x).stall = G.stall := Group.wp_stall G p _
@[simp] theorem Group.wpMask_free (G : Group) (p : PReg) (m x : Mask) : (G.wpMask p m x).free = G.free := Group.wp_free G p _
@[simp] theorem Group.wpMask_ready (G : Group) (p : PReg) (m x : Mask) : (G.wpMask p m x).ready = G.ready := Group.wp_ready G p _
@[simp] theorem Group.wpMask_compDone (G : Group) (p : PReg) (m x : Mask) : (G.wpMask p m x).compDone = G.compDone := Group.wp_compDone G p _

@[simp] theorem Group.wvMask_blk (G : Group) (r : Nat) (m : Mask) (f : Nat → Elem) : (G.wvMask r m f).blk = G.blk := by unfold Group.wvMask; split <;> rfl
@[simp] theorem Group.wvMask_idx (G : Group) (r : Nat) (m : Mask) (f : Nat → Elem) : (G.wvMask r m f).idx = G.idx := by unfold Group.wvMask; split <;> rfl
@[simp] theorem Group.wvMask_core (G : Group) (r : Nat) (m : Mask) (f : Nat → Elem) : (G.wvMask r m f).core = G.core := by unfold Group.wvMask; split <;> rfl
@[simp] theorem Group.wvMask_part (G : Group) (r : Nat) (m : Mask) (f : Nat → Elem) : (G.wvMask r m f).part = G.part := by unfold Group.wvMask; split <;> rfl
@[simp] theorem Group.wvMask_st (G : Group) (r : Nat) (m : Mask) (f : Nat → Elem) : (G.wvMask r m f).st = G.st := by unfold Group.wvMask; split <;> rfl
@[simp] theorem Group.wvMask_n (G : Group) (r : Nat) (m : Mask) (f : Nat → Elem) : (G.wvMask r m f).n = G.n := by unfold Group.wvMask; split <;> rfl
@[simp] theorem Group.wvMask_sreg (G : Group) (r : Nat) (m : Mask) (f : Nat → Elem) : (G.wvMask r m f).sreg = G.sreg := by unfold Group.wvMask; split <;> rfl
@[simp] theorem Group.wvMask_creg (G : Group) (r : Nat) (m : Mask) (f : Nat → Elem) : (G.wvMask r m f).creg = G.creg := by unfold Group.wvMask; split <;> rfl
@[simp] theorem Group.wvMask_preg (G : Group) (r : Nat) (m : Mask) (f : Nat → Elem) : (G.wvMask r m f).preg = G.preg := by unfold Group.wvMask; split <;> rfl
@[simp] theorem Group.wvMask_hreg (G : Group) (r : Nat) (m : Mask) (f : Nat → Elem) : (G.wvMask r m f).hreg = G.hreg := by unfold Group.wvMask; split <;> rfl
@[simp] theorem Group.wvMask_cld (G : Group) (r : Nat) (m : Mask) (f : Nat → Elem) : (G.wvMask r m f).cld = G.cld := by unfold Group.wvMask; split <;> rfl
@[simp] theorem Group.wvMask_cst (G : Group) (r : Nat) (m : Mask) (f : Nat → Elem) : (G.wvMask r m f).cst = G.cst := by unfold Group.wvMask; split <;> rfl
@[simp] theorem Group.wvMask_ccp (G : Group) (r : Nat) (m : Mask) (f : Nat → Elem) : (G.wvMask r m f).ccp = G.ccp := by unfold Group.wvMask; split <;> rfl
@[simp] theorem Group.wvMask_ctl (G : Group) (r : Nat) (m : Mask) (f : Nat → Elem) : (G.wvMask r m f).ctl = G.ctl := by unfold Group.wvMask; split <;> rfl
@[simp] theorem Group.wvMask_laneact (G : Group) (r : Nat) (m : Mask) (f : Nat → Elem) : (G.wvMask r m f).laneact = G.laneact := by unfold Group.wvMask; split <;> rfl
@[simp] theorem Group.wvMask_faultmask (G : Group) (r : Nat) (m : Mask) (f : Nat → Elem) : (G.wvMask r m f).faultmask = G.faultmask := by unfold Group.wvMask; split <;> rfl
@[simp] theorem Group.wvMask_lanedone (G : Group) (r : Nat) (m : Mask) (f : Nat → Elem) : (G.wvMask r m f).lanedone = G.lanedone := by unfold Group.wvMask; split <;> rfl
@[simp] theorem Group.wvMask_memmask (G : Group) (r : Nat) (m : Mask) (f : Nat → Elem) : (G.wvMask r m f).memmask = G.memmask := by unfold Group.wvMask; split <;> rfl
@[simp] theorem Group.wvMask_vote (G : Group) (r : Nat) (m : Mask) (f : Nat → Elem) : (G.wvMask r m f).vote = G.vote := by unfold Group.wvMask; split <;> rfl
@[simp] theorem Group.wvMask_trap (G : Group) (r : Nat) (m : Mask) (f : Nat → Elem) : (G.wvMask r m f).trap = G.trap := by unfold Group.wvMask; split <;> rfl
@[simp] theorem Group.wvMask_wrapflag (G : Group) (r : Nat) (m : Mask) (f : Nat → Elem) : (G.wvMask r m f).wrapflag = G.wrapflag := by unfold Group.wvMask; split <;> rfl
@[simp] theorem Group.wvMask_ov (G : Group) (r : Nat) (m : Mask) (f : Nat → Elem) : (G.wvMask r m f).ov = G.ov := by unfold Group.wvMask; split <;> rfl
@[simp] theorem Group.wvMask_copy (G : Group) (r : Nat) (m : Mask) (f : Nat → Elem) : (G.wvMask r m f).copy = G.copy := by unfold Group.wvMask; split <;> rfl
@[simp] theorem Group.wvMask_pc (G : Group) (r : Nat) (m : Mask) (f : Nat → Elem) : (G.wvMask r m f).pc = G.pc := by unfold Group.wvMask; split <;> rfl
@[simp] theorem Group.wvMask_calls (G : Group) (r : Nat) (m : Mask) (f : Nat → Elem) : (G.wvMask r m f).calls = G.calls := by unfold Group.wvMask; split <;> rfl
@[simp] theorem Group.wvMask_wait (G : Group) (r : Nat) (m : Mask) (f : Nat → Elem) : (G.wvMask r m f).wait = G.wait := by unfold Group.wvMask; split <;> rfl
@[simp] theorem Group.wvMask_runs (G : Group) (r : Nat) (m : Mask) (f : Nat → Elem) : (G.wvMask r m f).runs = G.runs := by unfold Group.wvMask; split <;> rfl
@[simp] theorem Group.wvMask_splits (G : Group) (r : Nat) (m : Mask) (f : Nat → Elem) : (G.wvMask r m f).splits = G.splits := by unfold Group.wvMask; split <;> rfl
@[simp] theorem Group.wvMask_joins (G : Group) (r : Nat) (m : Mask) (f : Nat → Elem) : (G.wvMask r m f).joins = G.joins := by unfold Group.wvMask; split <;> rfl
@[simp] theorem Group.wvMask_exitMarks (G : Group) (r : Nat) (m : Mask) (f : Nat → Elem) : (G.wvMask r m f).exitMarks = G.exitMarks := by unfold Group.wvMask; split <;> rfl
@[simp] theorem Group.wvMask_holds (G : Group) (r : Nat) (m : Mask) (f : Nat → Elem) : (G.wvMask r m f).holds = G.holds := by unfold Group.wvMask; split <;> rfl
@[simp] theorem Group.wvMask_trapMode (G : Group) (r : Nat) (m : Mask) (f : Nat → Elem) : (G.wvMask r m f).trapMode = G.trapMode := by unfold Group.wvMask; split <;> rfl
@[simp] theorem Group.wvMask_stopWanted (G : Group) (r : Nat) (m : Mask) (f : Nat → Elem) : (G.wvMask r m f).stopWanted = G.stopWanted := by unfold Group.wvMask; split <;> rfl
@[simp] theorem Group.wvMask_sect (G : Group) (r : Nat) (m : Mask) (f : Nat → Elem) : (G.wvMask r m f).sect = G.sect := by unfold Group.wvMask; split <;> rfl
@[simp] theorem Group.wvMask_divertDue (G : Group) (r : Nat) (m : Mask) (f : Nat → Elem) : (G.wvMask r m f).divertDue = G.divertDue := by unfold Group.wvMask; split <;> rfl
@[simp] theorem Group.wvMask_yieldAt (G : Group) (r : Nat) (m : Mask) (f : Nat → Elem) : (G.wvMask r m f).yieldAt = G.yieldAt := by unfold Group.wvMask; split <;> rfl
@[simp] theorem Group.wvMask_aged (G : Group) (r : Nat) (m : Mask) (f : Nat → Elem) : (G.wvMask r m f).aged = G.aged := by unfold Group.wvMask; split <;> rfl
@[simp] theorem Group.wvMask_memb (G : Group) (r : Nat) (m : Mask) (f : Nat → Elem) : (G.wvMask r m f).memb = G.memb := by unfold Group.wvMask; split <;> rfl
@[simp] theorem Group.wvMask_tile (G : Group) (r : Nat) (m : Mask) (f : Nat → Elem) : (G.wvMask r m f).tile = G.tile := by unfold Group.wvMask; split <;> rfl
@[simp] theorem Group.wvMask_openEntry (G : Group) (r : Nat) (m : Mask) (f : Nat → Elem) : (G.wvMask r m f).openEntry = G.openEntry := by unfold Group.wvMask; split <;> rfl
@[simp] theorem Group.wvMask_comp (G : Group) (r : Nat) (m : Mask) (f : Nat → Elem) : (G.wvMask r m f).comp = G.comp := by unfold Group.wvMask; split <;> rfl
@[simp] theorem Group.wvMask_audit (G : Group) (r : Nat) (m : Mask) (f : Nat → Elem) : (G.wvMask r m f).audit = G.audit := by unfold Group.wvMask; split <;> rfl
@[simp] theorem Group.wvMask_lastTime (G : Group) (r : Nat) (m : Mask) (f : Nat → Elem) : (G.wvMask r m f).lastTime = G.lastTime := by unfold Group.wvMask; split <;> rfl
@[simp] theorem Group.wvMask_laneDone (G : Group) (r : Nat) (m : Mask) (f : Nat → Elem) : (G.wvMask r m f).laneDone = G.laneDone := by unfold Group.wvMask; split <;> rfl
@[simp] theorem Group.wvMask_laneRan (G : Group) (r : Nat) (m : Mask) (f : Nat → Elem) : (G.wvMask r m f).laneRan = G.laneRan := by unfold Group.wvMask; split <;> rfl
@[simp] theorem Group.wvMask_ord (G : Group) (r : Nat) (m : Mask) (f : Nat → Elem) : (G.wvMask r m f).ord = G.ord := by unfold Group.wvMask; split <;> rfl
@[simp] theorem Group.wvMask_tileOps (G : Group) (r : Nat) (m : Mask) (f : Nat → Elem) : (G.wvMask r m f).tileOps = G.tileOps := by unfold Group.wvMask; split <;> rfl
@[simp] theorem Group.wvMask_stall (G : Group) (r : Nat) (m : Mask) (f : Nat → Elem) : (G.wvMask r m f).stall = G.stall := by unfold Group.wvMask; split <;> rfl
@[simp] theorem Group.wvMask_free (G : Group) (r : Nat) (m : Mask) (f : Nat → Elem) : (G.wvMask r m f).free = G.free := by unfold Group.wvMask; split <;> rfl
@[simp] theorem Group.wvMask_ready (G : Group) (r : Nat) (m : Mask) (f : Nat → Elem) : (G.wvMask r m f).ready = G.ready := by unfold Group.wvMask; split <;> rfl
@[simp] theorem Group.wvMask_compDone (G : Group) (r : Nat) (m : Mask) (f : Nat → Elem) : (G.wvMask r m f).compDone = G.compDone := by unfold Group.wvMask; split <;> rfl

@[simp] theorem Group.putEl_blk (G : Group) (t : Ty) (r : Nat) (m : Mask) (f : Nat → Nat) : (G.putEl t r m f).blk = G.blk := by unfold Group.putEl; split <;> simp
@[simp] theorem Group.putEl_idx (G : Group) (t : Ty) (r : Nat) (m : Mask) (f : Nat → Nat) : (G.putEl t r m f).idx = G.idx := by unfold Group.putEl; split <;> simp
@[simp] theorem Group.putEl_core (G : Group) (t : Ty) (r : Nat) (m : Mask) (f : Nat → Nat) : (G.putEl t r m f).core = G.core := by unfold Group.putEl; split <;> simp
@[simp] theorem Group.putEl_part (G : Group) (t : Ty) (r : Nat) (m : Mask) (f : Nat → Nat) : (G.putEl t r m f).part = G.part := by unfold Group.putEl; split <;> simp
@[simp] theorem Group.putEl_st (G : Group) (t : Ty) (r : Nat) (m : Mask) (f : Nat → Nat) : (G.putEl t r m f).st = G.st := by unfold Group.putEl; split <;> simp
@[simp] theorem Group.putEl_n (G : Group) (t : Ty) (r : Nat) (m : Mask) (f : Nat → Nat) : (G.putEl t r m f).n = G.n := by unfold Group.putEl; split <;> simp
@[simp] theorem Group.putEl_sreg (G : Group) (t : Ty) (r : Nat) (m : Mask) (f : Nat → Nat) : (G.putEl t r m f).sreg = G.sreg := by unfold Group.putEl; split <;> simp
@[simp] theorem Group.putEl_creg (G : Group) (t : Ty) (r : Nat) (m : Mask) (f : Nat → Nat) : (G.putEl t r m f).creg = G.creg := by unfold Group.putEl; split <;> simp
@[simp] theorem Group.putEl_preg (G : Group) (t : Ty) (r : Nat) (m : Mask) (f : Nat → Nat) : (G.putEl t r m f).preg = G.preg := by unfold Group.putEl; split <;> simp
@[simp] theorem Group.putEl_hreg (G : Group) (t : Ty) (r : Nat) (m : Mask) (f : Nat → Nat) : (G.putEl t r m f).hreg = G.hreg := by unfold Group.putEl; split <;> simp
@[simp] theorem Group.putEl_cld (G : Group) (t : Ty) (r : Nat) (m : Mask) (f : Nat → Nat) : (G.putEl t r m f).cld = G.cld := by unfold Group.putEl; split <;> simp
@[simp] theorem Group.putEl_cst (G : Group) (t : Ty) (r : Nat) (m : Mask) (f : Nat → Nat) : (G.putEl t r m f).cst = G.cst := by unfold Group.putEl; split <;> simp
@[simp] theorem Group.putEl_ccp (G : Group) (t : Ty) (r : Nat) (m : Mask) (f : Nat → Nat) : (G.putEl t r m f).ccp = G.ccp := by unfold Group.putEl; split <;> simp
@[simp] theorem Group.putEl_ctl (G : Group) (t : Ty) (r : Nat) (m : Mask) (f : Nat → Nat) : (G.putEl t r m f).ctl = G.ctl := by unfold Group.putEl; split <;> simp
@[simp] theorem Group.putEl_laneact (G : Group) (t : Ty) (r : Nat) (m : Mask) (f : Nat → Nat) : (G.putEl t r m f).laneact = G.laneact := by unfold Group.putEl; split <;> simp
@[simp] theorem Group.putEl_faultmask (G : Group) (t : Ty) (r : Nat) (m : Mask) (f : Nat → Nat) : (G.putEl t r m f).faultmask = G.faultmask := by unfold Group.putEl; split <;> simp
@[simp] theorem Group.putEl_lanedone (G : Group) (t : Ty) (r : Nat) (m : Mask) (f : Nat → Nat) : (G.putEl t r m f).lanedone = G.lanedone := by unfold Group.putEl; split <;> simp
@[simp] theorem Group.putEl_memmask (G : Group) (t : Ty) (r : Nat) (m : Mask) (f : Nat → Nat) : (G.putEl t r m f).memmask = G.memmask := by unfold Group.putEl; split <;> simp
@[simp] theorem Group.putEl_vote (G : Group) (t : Ty) (r : Nat) (m : Mask) (f : Nat → Nat) : (G.putEl t r m f).vote = G.vote := by unfold Group.putEl; split <;> simp
@[simp] theorem Group.putEl_trap (G : Group) (t : Ty) (r : Nat) (m : Mask) (f : Nat → Nat) : (G.putEl t r m f).trap = G.trap := by unfold Group.putEl; split <;> simp
@[simp] theorem Group.putEl_wrapflag (G : Group) (t : Ty) (r : Nat) (m : Mask) (f : Nat → Nat) : (G.putEl t r m f).wrapflag = G.wrapflag := by unfold Group.putEl; split <;> simp
@[simp] theorem Group.putEl_ov (G : Group) (t : Ty) (r : Nat) (m : Mask) (f : Nat → Nat) : (G.putEl t r m f).ov = G.ov := by unfold Group.putEl; split <;> simp
@[simp] theorem Group.putEl_copy (G : Group) (t : Ty) (r : Nat) (m : Mask) (f : Nat → Nat) : (G.putEl t r m f).copy = G.copy := by unfold Group.putEl; split <;> simp
@[simp] theorem Group.putEl_pc (G : Group) (t : Ty) (r : Nat) (m : Mask) (f : Nat → Nat) : (G.putEl t r m f).pc = G.pc := by unfold Group.putEl; split <;> simp
@[simp] theorem Group.putEl_calls (G : Group) (t : Ty) (r : Nat) (m : Mask) (f : Nat → Nat) : (G.putEl t r m f).calls = G.calls := by unfold Group.putEl; split <;> simp
@[simp] theorem Group.putEl_wait (G : Group) (t : Ty) (r : Nat) (m : Mask) (f : Nat → Nat) : (G.putEl t r m f).wait = G.wait := by unfold Group.putEl; split <;> simp
@[simp] theorem Group.putEl_runs (G : Group) (t : Ty) (r : Nat) (m : Mask) (f : Nat → Nat) : (G.putEl t r m f).runs = G.runs := by unfold Group.putEl; split <;> simp
@[simp] theorem Group.putEl_splits (G : Group) (t : Ty) (r : Nat) (m : Mask) (f : Nat → Nat) : (G.putEl t r m f).splits = G.splits := by unfold Group.putEl; split <;> simp
@[simp] theorem Group.putEl_joins (G : Group) (t : Ty) (r : Nat) (m : Mask) (f : Nat → Nat) : (G.putEl t r m f).joins = G.joins := by unfold Group.putEl; split <;> simp
@[simp] theorem Group.putEl_exitMarks (G : Group) (t : Ty) (r : Nat) (m : Mask) (f : Nat → Nat) : (G.putEl t r m f).exitMarks = G.exitMarks := by unfold Group.putEl; split <;> simp
@[simp] theorem Group.putEl_holds (G : Group) (t : Ty) (r : Nat) (m : Mask) (f : Nat → Nat) : (G.putEl t r m f).holds = G.holds := by unfold Group.putEl; split <;> simp
@[simp] theorem Group.putEl_trapMode (G : Group) (t : Ty) (r : Nat) (m : Mask) (f : Nat → Nat) : (G.putEl t r m f).trapMode = G.trapMode := by unfold Group.putEl; split <;> simp
@[simp] theorem Group.putEl_stopWanted (G : Group) (t : Ty) (r : Nat) (m : Mask) (f : Nat → Nat) : (G.putEl t r m f).stopWanted = G.stopWanted := by unfold Group.putEl; split <;> simp
@[simp] theorem Group.putEl_sect (G : Group) (t : Ty) (r : Nat) (m : Mask) (f : Nat → Nat) : (G.putEl t r m f).sect = G.sect := by unfold Group.putEl; split <;> simp
@[simp] theorem Group.putEl_divertDue (G : Group) (t : Ty) (r : Nat) (m : Mask) (f : Nat → Nat) : (G.putEl t r m f).divertDue = G.divertDue := by unfold Group.putEl; split <;> simp
@[simp] theorem Group.putEl_yieldAt (G : Group) (t : Ty) (r : Nat) (m : Mask) (f : Nat → Nat) : (G.putEl t r m f).yieldAt = G.yieldAt := by unfold Group.putEl; split <;> simp
@[simp] theorem Group.putEl_aged (G : Group) (t : Ty) (r : Nat) (m : Mask) (f : Nat → Nat) : (G.putEl t r m f).aged = G.aged := by unfold Group.putEl; split <;> simp
@[simp] theorem Group.putEl_memb (G : Group) (t : Ty) (r : Nat) (m : Mask) (f : Nat → Nat) : (G.putEl t r m f).memb = G.memb := by unfold Group.putEl; split <;> simp
@[simp] theorem Group.putEl_tile (G : Group) (t : Ty) (r : Nat) (m : Mask) (f : Nat → Nat) : (G.putEl t r m f).tile = G.tile := by unfold Group.putEl; split <;> simp
@[simp] theorem Group.putEl_openEntry (G : Group) (t : Ty) (r : Nat) (m : Mask) (f : Nat → Nat) : (G.putEl t r m f).openEntry = G.openEntry := by unfold Group.putEl; split <;> simp
@[simp] theorem Group.putEl_comp (G : Group) (t : Ty) (r : Nat) (m : Mask) (f : Nat → Nat) : (G.putEl t r m f).comp = G.comp := by unfold Group.putEl; split <;> simp
@[simp] theorem Group.putEl_audit (G : Group) (t : Ty) (r : Nat) (m : Mask) (f : Nat → Nat) : (G.putEl t r m f).audit = G.audit := by unfold Group.putEl; split <;> simp
@[simp] theorem Group.putEl_lastTime (G : Group) (t : Ty) (r : Nat) (m : Mask) (f : Nat → Nat) : (G.putEl t r m f).lastTime = G.lastTime := by unfold Group.putEl; split <;> simp
@[simp] theorem Group.putEl_laneDone (G : Group) (t : Ty) (r : Nat) (m : Mask) (f : Nat → Nat) : (G.putEl t r m f).laneDone = G.laneDone := by unfold Group.putEl; split <;> simp
@[simp] theorem Group.putEl_laneRan (G : Group) (t : Ty) (r : Nat) (m : Mask) (f : Nat → Nat) : (G.putEl t r m f).laneRan = G.laneRan := by unfold Group.putEl; split <;> simp
@[simp] theorem Group.putEl_ord (G : Group) (t : Ty) (r : Nat) (m : Mask) (f : Nat → Nat) : (G.putEl t r m f).ord = G.ord := by unfold Group.putEl; split <;> simp
@[simp] theorem Group.putEl_tileOps (G : Group) (t : Ty) (r : Nat) (m : Mask) (f : Nat → Nat) : (G.putEl t r m f).tileOps = G.tileOps := by unfold Group.putEl; split <;> simp
@[simp] theorem Group.putEl_stall (G : Group) (t : Ty) (r : Nat) (m : Mask) (f : Nat → Nat) : (G.putEl t r m f).stall = G.stall := by unfold Group.putEl; split <;> simp
@[simp] theorem Group.putEl_free (G : Group) (t : Ty) (r : Nat) (m : Mask) (f : Nat → Nat) : (G.putEl t r m f).free = G.free := by unfold Group.putEl; split <;> simp
@[simp] theorem Group.putEl_ready (G : Group) (t : Ty) (r : Nat) (m : Mask) (f : Nat → Nat) : (G.putEl t r m f).ready = G.ready := by unfold Group.putEl; split <;> simp
@[simp] theorem Group.putEl_compDone (G : Group) (t : Ty) (r : Nat) (m : Mask) (f : Nat → Nat) : (G.putEl t r m f).compDone = G.compDone := by unfold Group.putEl; split <;> simp

/-! ### Registers: what a read gives after a write (R32 to R36) -/

/-- s0 reads zero, whatever was written. -/
@[simp] theorem Group.rs_zero (G : Group) : G.rs 0 = 0 := rfl

theorem Group.rs_ws (G : Group) (r q : SReg) (x : Word) : (G.ws r x).rs q = if q = r ∧ r ≠ 0 then x else G.rs q := by
  by_cases hr : r = 0
  · simp [Group.ws, hr]
  · by_cases hq : q = 0
    · subst hq
      have h0 : ¬ (0 : SReg) = r := fun e => hr e.symm
      simp only [Group.rs, if_true, h0, false_and, if_false]
    · have e : q.toNat = r.toNat ↔ q = r := BitVec.toNat_inj
      simp only [Group.rs, Group.ws, hr, hq, if_false, getD_mset, e, ne_eq, not_false_eq_true, and_true]

@[simp] theorem Group.rs_ws_same (G : Group) {r : SReg} (x : Word) (h : r ≠ 0) : (G.ws r x).rs r = x := by
  rw [Group.rs_ws, if_pos ⟨rfl, h⟩]

theorem Group.rs_ws_ne (G : Group) {r q : SReg} (x : Word) (h : q ≠ r) : (G.ws r x).rs q = G.rs q := by
  rw [Group.rs_ws, if_neg fun e => h e.1]

/-- c0 reads true. -/
@[simp] theorem Group.rc_zero (G : Group) : G.rc 0 = true := rfl

theorem Group.rv_wv (G : Group) (r q : Nat) (x : Lanes) : (G.wv r x).rv q = if q = r then x else G.rv q := getD_mset lanesZero G.vreg r q x

theorem Group.rh_wh (G : Group) (h q : Nat) (x : Handle) : (G.wh h x).rh q = if q = h then x else G.rh q :=
  getD_mset ({ st := .empty } : Handle) G.hreg h q x

/-- p0 reads true in every lane. -/
@[simp] theorem Group.rp_zero (G : Group) : G.rp 0 = Mask.all := rfl

theorem Group.rp_wp (G : Group) (p q : PReg) (x : Mask) : (G.wp p x).rp q = if q = p ∧ p ≠ 0 then x else G.rp q := by
  by_cases hp : p = 0
  · simp [Group.wp, hp]
  · by_cases hq : q = 0
    · subst hq
      have h0 : ¬ (0 : PReg) = p := fun e => hp e.symm
      simp only [Group.rp, if_true, h0, false_and, if_false]
    · have e : q.toNat = p.toNat ↔ q = p := BitVec.toNat_inj
      simp only [Group.rp, Group.wp, hp, hq, if_false, getD_mset, e, ne_eq, not_false_eq_true, and_true]

theorem length_setLanes (m : Mask) (f : Nat → Elem) (i : Nat) (x : Lanes) : (setLanes m f i x).length = x.length := by
  induction x generalizing i with
  | nil => rfl
  | cons y x ih => simp [setLanes, ih]

theorem lane_setLanes (m : Mask) (f : Nat → Elem) (i j : Nat) (x : Lanes) :
    lane (setLanes m f i x) j = if j < x.length ∧ m.getLsbD (i + j) = true then f (i + j) else lane x j := by
  induction x generalizing i j with
  | nil => simp [setLanes, lane]
  | cons y x ih =>
    cases j with
    | zero => simp [setLanes, lane]
    | succ j =>
      have h := ih (i + 1) j
      simp only [lane, setLanes, List.getD_cons_succ, List.length_cons, Nat.add_lt_add_iff_right] at h ⊢
      rw [h, show i + 1 + j = i + (j + 1) by omega]

/-- A masked write of a vector register: the lanes of the mask get their new values, and every other lane keeps its own (R54). -/
theorem Group.lane_wvMask (G : Group) (r q : Nat) (m : Mask) (f : Nat → Elem) (j : Nat) :
    lane ((G.wvMask r m f).rv q) j = if q = r ∧ j < (G.rv r).length ∧ m.getLsbD j = true then f j else lane (G.rv q) j := by
  unfold Group.wvMask
  split
  · rename_i hm; simp [hm]
  · rw [Group.rv_wv]
    by_cases hq : q = r
    · subst hq; simp [lane_setLanes]
    · simp [hq]


end Sys2Proof.Machine
end

