-- ==== Sys2Proof/Laws/Quiet.lean ====
section
/-!
SUPPORT. What the shared operations leave alone: ends of groups, operations and blocks, and taking a trap, change nothing but the
groups and what hangs from them.
-/

namespace Sys2Proof.Machine

/-- From `s` to `t` at most the groups, the operations in flight, blocks, launches, activities and what they hold have changed: memory, contexts,
packets, queues, dies and everything else of the package are as they were, and the groups are still in order. -/
structure Quiet (s t : State) : Prop where
  eq : t = { s with groups := t.groups, ops := t.ops, runUnits := t.runUnits, copies := t.copies, blocks := t.blocks, launches := t.launches,
                    acts := t.acts, audits := t.audits, tags := t.tags, past := t.past }
  rising : Rising s.groups → Rising t.groups

namespace Quiet

theorem refl (s : State) : Quiet s s := ⟨rfl, id⟩

theorem trans {s t u : State} (h : Quiet s t) (k : Quiet t u) : Quiet s u :=
  ⟨by rw [k.eq, h.eq], k.rising ∘ h.rising⟩

theorem mem {s t : State} (h : Quiet s t) : t.mem = s.mem := by rw [h.eq]
theorem turn {s t : State} (h : Quiet s t) : t.turn = s.turn := by rw [h.eq]
theorem now {s t : State} (h : Quiet s t) : t.now = s.now := by rw [h.eq]
theorem nextId {s t : State} (h : Quiet s t) : t.nextId = s.nextId := by rw [h.eq]
theorem pkts {s t : State} (h : Quiet s t) : t.pkts = s.pkts := by rw [h.eq]
theorem queues {s t : State} (h : Quiet s t) : t.queues = s.queues := by rw [h.eq]
theorem ctxs {s t : State} (h : Quiet s t) : t.ctxs = s.ctxs := by rw [h.eq]
theorem vifs {s t : State} (h : Quiet s t) : t.vifs = s.vifs := by rw [h.eq]
theorem dies {s t : State} (h : Quiet s t) : t.dies = s.dies := by rw [h.eq]
theorem full {s t : State} (h : Quiet s t) : t.full = s.full := by rw [h.eq]
theorem acc {s t : State} (h : Quiet s t) : t.acc = s.acc := by rw [h.eq]
theorem coh {s t : State} (h : Quiet s t) : t.coh = s.coh := by rw [h.eq]
theorem modl {s t : State} (h : Quiet s t) : t.modl = s.modl := by rw [h.eq]

/-- An update of a state that only a change of the quiet fields makes. -/
theorem foldl {α : Type} {f : State → α → State} (h : ∀ s x, Quiet s (f s x)) (l : List α) (s : State) : Quiet s (l.foldl f s) := by
  induction l generalizing s with
  | nil => exact refl s
  | cons x l ih => exact (h s x).trans (ih _)

end Quiet

/-! ### Named updates -/

theorem rising_mupd {β : Type} {m : SMap β} (i : Nat) (f : β → β) (h : Rising m) : Rising (mupd m i f) := by
  unfold mupd; split
  · exact rising_mput _ _ h
  · exact h

theorem grp_quiet (s : State) (g : Nat) (G : Group) : Quiet s (s.grp g G) := ⟨rfl, rising_mput _ _⟩
theorem modGrp_quiet (s : State) (g : Nat) (f : Group → Group) : Quiet s (s.modGrp g f) := ⟨rfl, rising_mupd _ _⟩
theorem modOp_quiet (s : State) (k : Nat) (f : Op → Op) : Quiet s (s.modOp k f) := ⟨rfl, id⟩
theorem modBlk_quiet (s : State) (b : Nat) (f : Block → Block) : Quiet s (s.modBlk b f) := ⟨rfl, id⟩
theorem modLaunch_quiet (s : State) (l : Nat) (f : Launch → Launch) : Quiet s (s.modLaunch l f) := ⟨rfl, id⟩

theorem modGrp?_quiet (s : State) (g : Option Nat) (f : Group → Group) : Quiet s (modGrp? s g f) := by
  cases g with
  | none => exact Quiet.refl s
  | some g => exact modGrp_quiet s g f

/-! ### Phasers and drain units -/

theorem setPh_quiet (s : State) (b k : Nat) (p : Phaser) : Quiet s (s.setPh b k p) := by
  unfold State.setPh
  split
  · exact Quiet.refl s
  · split
    · exact modBlk_quiet _ _ _
    · exact modLaunch_quiet _ _ _

theorem endPhase_quiet (s : State) (b k : Nat) (p : Phaser) : Quiet s (endPhase s b k p) := by
  unfold endPhase
  extract_lets old catchUp p' t gs u
  have h1 : Quiet s t := setPh_quiet s b k p'
  have h2 : Quiet t u := Quiet.foldl (fun _ _ => modGrp_quiet _ _ _) _ _
  split
  · exact h1
  · split
    · exact h1.trans h2
    · exact (h1.trans h2).trans ⟨rfl, id⟩

theorem settlePh_quiet (s : State) (b k : Nat) : Quiet s (settlePh s b k) := by
  unfold settlePh
  split
  · exact Quiet.refl s
  · extract_lets p
    split
    · exact endPhase_quiet _ _ _ _
    · exact Quiet.refl s

theorem rootAdd_quiet (s : State) (l ph : Nat) (phase : BitVec 32) (n : Nat) (e : Earlier) : Quiet s (rootAdd s l ph phase n e) := by
  unfold rootAdd
  split
  · exact Quiet.refl s
  · rename_i L _
    extract_lets p p1 p2 t
    have h : Quiet s t := ⟨rfl, id⟩
    split
    · exact h.trans (settlePh_quiet _ _ _)
    · exact h

theorem settleRuns_quiet (s : State) : Quiet s (settleRuns s) := by
  unfold settleRuns
  split
  · exact Quiet.refl s
  · extract_lets busy home
    exact Quiet.trans (t := { s with runUnits := s.runUnits.filter busy }) ⟨rfl, id⟩ (Quiet.foldl (fun _ _ => rootAdd_quiet _ _ _ _ _ _) _ _)

theorem takeUnits_quiet {s : State} {g : Nat} {G : Group} {need take : Nat} {t : State} {G' : Group} {u : Option (Nat × BitVec 32)}
    (h : takeUnits s g G need take = some (t, G', u)) : Quiet s t := by
  unfold takeUnits at h
  split at h
  · simp only [Option.some.injEq, Prod.mk.injEq] at h
    rw [← h.1]; exact Quiet.refl s
  · extract_lets p root grant p' t' G'' at h
    split at h
    · contradiction
    · simp only [Option.some.injEq, Prod.mk.injEq] at h
      rw [← h.1]; exact (setPh_quiet _ _ _ _).trans (grp_quiet _ _ _)

/-! ### Ends of groups, loads and blocks -/

theorem tileDone_quiet (s : State) (g : Nat) (bar : Bool) : Quiet s (tileDone s g bar) := by
  unfold tileDone
  split
  · exact Quiet.refl s
  · split
    · rename_i G _ _ a b _ _
      extract_lets t u v
      have h : Quiet s v := ((modBlk_quiet _ _ _).trans (modLaunch_quiet _ _ _)).trans (modGrp_quiet _ _ _)
      split
      · exact h.trans ⟨rfl, id⟩
      · exact h
    · exact Quiet.refl s

theorem breakPhasers_quiet (s : State) (g : Nat) : Quiet s (breakPhasers s g) := by
  unfold breakPhasers
  split
  · exact Quiet.refl s
  · exact Quiet.foldl (fun _ _ => setPh_quiet _ _ _ _) _ _

theorem leavePh_quiet (s : State) (g k : Nat) : Quiet s (leavePh s g k) := by
  unfold leavePh
  split
  · exact Quiet.refl s
  · split
    · exact Quiet.refl s
    · rename_i G _ _ m _
      extract_lets t u
      have h : Quiet s u := by
        have ht : Quiet s t := grp_quiet _ _ _
        refine ht.trans ?_
        unfold u
        split
        · split
          · exact rootAdd_quiet _ _ _ _ _ _
          · exact Quiet.refl _
        · exact Quiet.refl _
      split
      · exact h.trans (settlePh_quiet _ _ _)
      · exact h

theorem dropIdleLoads_quiet (s : State) : Quiet s (dropIdleLoads s) := ⟨rfl, id⟩
theorem dropWaiters_quiet (s : State) (out : Waiter → Bool) : Quiet s (dropWaiters s out) := ⟨rfl, id⟩
theorem unwait_quiet (s : State) (g : Nat) : Quiet s (unwait s g) := ⟨rfl, id⟩
theorem unrequest_quiet (s : State) (g : Nat) : Quiet s (unrequest s g) := ⟨rfl, id⟩

theorem tryEndBlock_quiet (s : State) (b : Nat) : Quiet s (tryEndBlock s b) := by
  unfold tryEndBlock
  split
  · exact Quiet.refl s
  · rename_i B _
    extract_lets gs t u v w
    have h : Quiet s w := by
      have h1 : Quiet s t := by
        refine Quiet.foldl (fun s h => ?_) _ _
        split
        · exact rootAdd_quiet _ _ _ _ _ _
        · exact Quiet.refl _
      exact ((h1.trans ((dropWaiters_quiet _ _).trans (dropIdleLoads_quiet _))).trans (t := u) ⟨rfl, id⟩).trans ((Quiet.trans (t := v) ⟨rfl, id⟩ (modBlk_quiet _ _ _)))
    split
    · split
      · exact h
      · exact h.trans (modLaunch_quiet _ _ _)
    · exact Quiet.refl s

theorem dropOp_quiet (s : State) (k : Nat) : Quiet s (dropOp s k) := by
  unfold dropOp
  split
  · exact Quiet.refl s
  · rename_i o _
    extract_lets t u
    have h : Quiet s u := by
      refine Quiet.trans (t := t) ⟨rfl, id⟩ ?_
      unfold u
      split
      · exact rootAdd_quiet _ _ _ _ _ _
      · exact Quiet.refl _
    exact h.trans (settleRuns_quiet _)

theorem settleMem_quiet (s : State) (k : Nat) : Quiet s (settleMem s k) := by
  unfold settleMem
  split
  · exact Quiet.refl s
  · split
    · extract_lets ldOver stOver t u
      have h : Quiet s u := (modGrp?_quiet _ _ _).trans (modOp_quiet _ _ _)
      split
      · exact h.trans (dropOp_quiet _ _)
      · exact h.trans (settleRuns_quiet _)
    · exact Quiet.refl s

theorem interruptFe_quiet (s : State) (g : Nat) : Quiet s (interruptFe s g) := by
  unfold interruptFe
  split
  · exact Quiet.refl s
  · refine Quiet.foldl (fun s p => ?_) _ _
    dsimp only
    split
    · split
      · exact ((modGrp_quiet _ _ _).trans (modOp_quiet _ _ _)).trans (settleMem_quiet _ _)
      · exact Quiet.refl _
    · exact Quiet.refl _

theorem killGroup_quiet (s : State) (fatal : Bool) (g : Nat) : Quiet s (killGroup s fatal g) := by
  unfold killGroup
  split
  · exact Quiet.refl s
  · rename_i G _
    split
    · exact Quiet.refl s
    · extract_lets s1 s2 s3 s4 s5
      have h1 : Quiet s s1 := by
        refine Quiet.trans (Quiet.trans ?_ (interruptFe_quiet _ _)) (unrequest_quiet _ _)
        split
        · exact breakPhasers_quiet _ _
        · exact Quiet.refl _
      have h2 : Quiet s1 s2 := modGrp_quiet _ _ _
      have h3 : Quiet s2 s3 := ((tileDone_quiet _ _ _).trans (settleRuns_quiet _)).trans (settlePh_quiet _ _ _)
      have h4 : Quiet s3 s4 := modBlk_quiet _ _ _
      have h5 : Quiet s4 s5 := by
        unfold s5
        split
        · split
          · exact Quiet.refl _
          · exact modLaunch_quiet _ _ _
        · exact Quiet.refl _
      exact ((((h1.trans h2).trans h3).trans h4).trans h5).trans (tryEndBlock_quiet _ _)

/-! ### Ends of operations -/

/-! ### Traps -/

theorem compFail_quiet (s : State) (a q r c : Nat) (code : BitVec 16) : Quiet s (compFail s a q r c code) := by
  unfold compFail
  split
  · exact Quiet.refl s
  · split
    · exact Quiet.refl s
    · exact ⟨rfl, id⟩

theorem trap_quiet (s : State) (g : Nat) (t : TrapInfo) : Quiet s (trap s g t) := by
  unfold trap
  extract_lets s1
  have h1 : Quiet s s1 := ((interruptFe_quiet _ _).trans (unwait_quiet _ _)).trans (dropIdleLoads_quiet _)
  refine h1.trans ?_
  split
  · exact Quiet.refl _
  · extract_lets G' u v tile
    split
    · split
      · exact (grp_quiet _ _ _).trans (killGroup_quiet _ _ _)
      · exact ((grp_quiet _ _ _).trans (compFail_quiet _ _ _ _ _ _)).trans (killGroup_quiet _ _ _)
    · split
      · exact (grp_quiet _ _ _).trans (killGroup_quiet _ _ _)
      · split
        · exact (grp_quiet _ _ _).trans (killGroup_quiet _ _ _)
        · have h : Quiet s1 v := by
            unfold v
            split
            · exact tileDone_quiet _ _ _
            · exact Quiet.refl _
          exact h.trans (grp_quiet _ _ _)

theorem trapS_quiet (s : State) (g : Nat) (cause : BitVec 8) (addr : Word) (code : BitVec 10) : Quiet s (trapS s g cause addr code) := by
  unfold trapS
  split
  · exact Quiet.refl s
  · exact trap_quiet _ _ _

theorem trapL_quiet (s : State) (g n : Nat) (cause : BitVec 8) (lanes : Mask) (addr : Word) (code : BitVec 10) :
    Quiet s (trapL s g n cause lanes addr code) := by
  unfold trapL
  split
  · exact Quiet.refl s
  · exact trap_quiet _ _ _

theorem divert_quiet (s : State) (g : Nat) : Quiet s (divert s g) := by
  unfold divert
  extract_lets s1
  have h1 : Quiet s s1 := ((interruptFe_quiet _ _).trans (unwait_quiet _ _)).trans (dropIdleLoads_quiet _)
  refine h1.trans ?_
  split
  · exact (grp_quiet _ _ _).trans (settleRuns_quiet _)
  · exact Quiet.refl _

theorem trapReturn_quiet (s : State) (g : Nat) (G : Group) (m : TrapMode) (copy off : Nat) : Quiet s (trapReturn s g G m copy off) := by
  unfold trapReturn
  split <;> exact grp_quiet _ _ _

theorem afterLane_quiet (s : State) (g n : Nat) (G : Group) : Quiet s (afterLane s g n G) := by
  unfold afterLane
  exact (grp_quiet _ _ _).trans (settleRuns_quiet _)

end Sys2Proof.Machine
end

