-- ==== Sys2Proof/Laws/Issue.lean ====
section
/-!
SUPPORT. What the shared issue helpers answer: who has the turn, the guard of a scalar word, the level and register checks of a lane word, and
taking a trap.
-/

namespace Sys2Proof.Machine

/-! ### Scalar instructions (R43, R53) -/

theorem withScalar_of {s : State} {g : Nat} {G : Group} (ht : s.turn = .scalar g) (hg : mget s.groups g = some G) (k : Nat → Group → Out) :
    withScalar s k = k g G := by simp [withScalar, ht, hg]

/-- A guarded scalar instruction of `n` words: with the guard true the group changes by `f`, else only the pc moves. -/
theorem scalarStep_of {s : State} {g : Nat} {G : Group} (ht : s.turn = .scalar g) (hg : mget s.groups g = some G) (n : Nat) (gd : CReg) (f : Group → Group) :
    scalarStep s n gd f = .next (s.grp g ((if guardOk G gd then f G else G).adv n)) := by simp [scalarStep, withScalar_of ht hg]

/-- An instruction without a guard field. -/
theorem scalarStep_zero {s : State} {g : Nat} {G : Group} (ht : s.turn = .scalar g) (hg : mget s.groups g = some G) (n : Nat) (f : Group → Group) :
    scalarStep s n 0 f = .next (s.grp g ((f G).adv n)) := by
  have h : guardOk G 0 = true := rfl
  rw [scalarStep_of ht hg, if_pos h]

/-! ### Lane instructions (R54, R55, R64) -/

theorem withSplit_of {s : State} {g n : Nat} {G : Group} {S : Split} (ht : s.turn = .lane g n) (hg : mget s.groups g = some G) (hS : mget G.splits n = some S)
    (k : Nat → Group → Nat → Split → Out) : withSplit s k = k g G n S := by simp [withSplit, ht, hg, hS]

/-- The tiles of a group's launch; a compensation has none. -/
def tileLimit (s : State) (G : Group) : Nat := ((s.launch? G).map fun l => if (s.blk? G).any (·.comp.isSome) then 0 else l.desc.acctiles).getD 0

/-- The instruction of a lane word whose level, registers and tiles are in bounds. -/
theorem laneIssue_of {s : State} {g n : Nat} {G : Group} {S : Split} (ht : s.turn = .lane g n) (hg : mget s.groups g = some G) (hS : mget G.splits n = some S)
    (gd : LGuard) {level3 : Bool} {regs tiles : List Nat} (hl : level3 = true → 3 ≤ s.level G.core) (hr : ∀ r ∈ regs, r < G.n) (htl : ∀ t ∈ tiles, t < tileLimit s G)
    (k : Nat → Group → Nat → Split → Out) : laneIssue s gd level3 regs tiles k = k g G n S := by
  have h1 : (level3 && decide (s.level G.core < 3)) = false := by
    cases level3
    · rfl
    · have := hl rfl; simp; omega
  have h2 : (regs.any fun r => decide (G.n ≤ r)) = false := by
    simp only [List.any_eq_false, decide_eq_true_eq, Nat.not_le]; exact hr
  have h3 : (tiles.any fun t => decide (tileLimit s G ≤ t)) = false := by
    simp only [List.any_eq_false, decide_eq_true_eq, Nat.not_le]; exact htl
  unfold laneIssue
  rw [withSplit_of ht hg hS]
  show (if (level3 && decide (s.level G.core < 3)) = true then _ else
    if ((regs.any fun r => decide (G.n ≤ r)) || tiles.any fun t => decide (tileLimit s G ≤ t)) = true then _ else k g G n S) = k g G n S
  rw [h1, h2, h3]
  rfl

/-- A lane word above the core's level traps first (0x02). -/
theorem laneIssue_level {s : State} {g n : Nat} {G : Group} {S : Split} (ht : s.turn = .lane g n) (hg : mget s.groups g = some G) (hS : mget G.splits n = some S)
    (gd : LGuard) (regs tiles : List Nat) (hl : s.level G.core < 3) (k : Nat → Group → Nat → Split → Out) :
    laneIssue s gd true regs tiles k = .next (trapL s g n 0x02 (active G S gd)) := by
  unfold laneIssue
  rw [withSplit_of ht hg hS]
  simp [hl]

/-- A register outside the group's traps (0x03). -/
theorem laneIssue_regs {s : State} {g n : Nat} {G : Group} {S : Split} (ht : s.turn = .lane g n) (hg : mget s.groups g = some G) (hS : mget G.splits n = some S)
    (gd : LGuard) {regs : List Nat} (tiles : List Nat) {r : Nat} (hr : r ∈ regs) (hn : G.n ≤ r) (k : Nat → Group → Nat → Split → Out) :
    laneIssue s gd false regs tiles k = .next (trapL s g n 0x03 (active G S gd)) := by
  have h : (regs.any fun r => decide (G.n ≤ r)) = true := by
    simp only [List.any_eq_true, decide_eq_true_eq]; exact ⟨r, hr, hn⟩
  unfold laneIssue
  rw [withSplit_of ht hg hS]
  simp [h]

/-- A lane instruction that only writes registers of its active lanes. -/
theorem laneAlu_of {s : State} {g n : Nat} {G : Group} {S : Split} (ht : s.turn = .lane g n) (hg : mget s.groups g = some G) (hS : mget G.splits n = some S)
    (gd : LGuard) {regs : List Nat} (hr : ∀ r ∈ regs, r < G.n) (f : Group → Mask → Group) :
    laneAlu s gd regs f = .next (afterLane s g n (f G (active G S gd))) :=
  laneIssue_of ht hg hS gd (by simp) hr (by simp) _

/-- A collective whose active lanes are members. -/
theorem collective_of {s : State} {g n : Nat} {G : Group} {S : Split} (ht : s.turn = .lane g n) (hg : mget s.groups g = some G) (hS : mget G.splits n = some S)
    (gd : LGuard) {regs : List Nat} (hr : ∀ r ∈ regs, r < G.n) (hm : active G S gd &&& ~~~G.memmask = 0) (k : Nat → Group → Nat → Split → Mask → Out) :
    collective s gd false regs [] k = k g G n S (active G S gd) := by
  unfold collective
  rw [laneIssue_of ht hg hS gd (by simp) hr (by simp)]
  simp [hm]

/-- A collective with an active lane outside the member mask traps (0x09) with the lanes that are none. -/
theorem collective_traps {s : State} {g n : Nat} {G : Group} {S : Split} (ht : s.turn = .lane g n) (hg : mget s.groups g = some G) (hS : mget G.splits n = some S)
    (gd : LGuard) {regs : List Nat} (hr : ∀ r ∈ regs, r < G.n) (hm : active G S gd &&& ~~~G.memmask ≠ 0) (k : Nat → Group → Nat → Split → Mask → Out) :
    collective s gd false regs [] k = .next (trapL s g n 0x09 (active G S gd &&& ~~~G.memmask)) := by
  unfold collective
  rw [laneIssue_of ht hg hS gd (by simp) hr (by simp)]
  show (if active G S gd &&& ~~~G.memmask ≠ 0 then _ else _) = _
  rw [if_pos hm]

/-! ### Traps (R331 to R336) -/

/-- With no full/empty instruction in progress there is nothing to interrupt. -/
theorem interruptFe_none {s : State} {g : Nat} {G : Group} (hg : mget s.groups g = some G) (h : ∀ p ∈ G.splits, p.2.fe = none) : interruptFe s g = s := by
  have key : ∀ l : SMap Split, (∀ p ∈ l, p.2.fe = none) → l.foldl (fun s (n, S) =>
      match S.fe.bind fun k => (mget s.ops k).map fun o => (k, o) with
      | some (k, o) =>
        match o.body with
        | .mem m =>
          let fin : Mask := m.acc.foldl (fun (x : Mask) a => if m.todo.getLsbD a.lane then x else x ||| (1 <<< a.lane)) 0
          let s := s.modGrp g fun G => { G with lanedone := G.lanedone ||| fin, splits := mupd G.splits n fun S => { S with fe := none, redo := true } }
          settleMem (s.modOp k fun o => { o with body := .mem { m with todo := 0, more := false } }) k
        | _ => s
      | none => s) s = s := by
    intro l hl
    induction l with
    | nil => rfl
    | cons p l ih =>
      have hp : p.2.fe = none := hl p (by simp)
      rw [List.foldl_cons]
      simp only [hp, Option.bind_none]
      exact ih fun q hq => hl q (List.mem_cons_of_mem _ hq)
  unfold interruptFe
  rw [hg]
  exact key G.splits h

/-- Taking a trap: outside trap mode, compensation and audit, the trap registers are written, the lane stream freezes, accesses held at a page and a stalled
`mtrd` are given up, and the scalar stream goes to the launch's trap entry. -/
theorem trap_of {s : State} {g : Nat} {G : Group} {L : Launch} (hg : mget s.groups g = some G) (hf : ∀ p ∈ G.splits, p.2.fe = none)
    (hc : G.comp = none) (hm : G.trapMode = none) (ha : G.audit = none) (he : G.st ≠ .exiting) (hL : s.launch? G = some L) (t : TrapInfo) :
    trap s g t = (dropIdleLoads (unwait s g)).grp g { G with
      trap := { cause := t.cause, code := t.code, lane := t.str != .scalar, ov := t.ov, off := t.off, addr := t.addr,
                split := match t.str with
                  | .scalar => 0
                  | .split k => k }
      faultmask := t.lanes
      trapMode := some { calls := G.calls, ov := G.ov, off := G.pc, copy := G.copy, wait := if t.str == .scalar && !t.bound then .none else G.wait }
      ov := L.desc.trapov, copy := fixedCopy (dropIdleLoads (unwait s g)) G L.desc.trapov, pc := L.desc.trapent, wait := .none, sect := none
      holds := [], stall := none } := by
  have hL' : (dropIdleLoads (unwait s g)).launch? G = some L := hL
  have hg' : mget (dropIdleLoads (unwait s g)).groups g = some G := hg
  have hi : interruptFe s g = s := interruptFe_none hg hf
  unfold trap
  rw [hi]
  simp only [hg', hc, hm, ha, hL', he, Option.isSome_none, Bool.false_eq_true, if_false]

end Sys2Proof.Machine
end

