-- ==== Sys2Proof/Laws/Keeps.lean ====
section
/-!
SUPPORT. The canonical forms that every operation keeps: memory lists addresses in order and nothing that an unlisted place reads as,
and the groups and the open packets stand in order. One lemma for each operation that writes memory.
-/

namespace Sys2Proof.Machine

/-- From `s` to `t`, memory stays in its canonical form and the groups and packets in order. -/
structure Keeps (s t : State) : Prop where
  mem : memWf s.mem = true → memWf t.mem = true
  groups : Rising s.groups → Rising t.groups
  pkts : Rising s.pkts → Rising t.pkts

namespace Keeps

theorem refl (s : State) : Keeps s s := ⟨id, id, id⟩

theorem trans {s t u : State} (h : Keeps s t) (k : Keeps t u) : Keeps s u :=
  ⟨k.mem ∘ h.mem, k.groups ∘ h.groups, k.pkts ∘ h.pkts⟩

/-- The three fields are as they were. -/
theorem same {s t : State} (hm : t.mem = s.mem) (hg : t.groups = s.groups) (hp : t.pkts = s.pkts) : Keeps s t :=
  ⟨by rw [hm]; exact id, by rw [hg]; exact id, by rw [hp]; exact id⟩

theorem coh {s t : State} (h : CohOnly s t) : Keeps s t := same h.mem h.groups h.pkts

theorem quiet {s t : State} (h : Quiet s t) : Keeps s t := ⟨by rw [h.mem]; exact id, h.rising, by rw [h.pkts]; exact id⟩

theorem foldl {α : Type} {f : State → α → State} (h : ∀ s x, Keeps s (f s x)) (l : List α) (s : State) : Keeps s (l.foldl f s) := by
  induction l generalizing s with
  | nil => exact refl s
  | cons x l ih => exact (h s x).trans (ih _)

/-- A fold that carries something beside the state. -/
theorem foldl_fst {α β : Type} {f : State × β → α → State × β} (h : ∀ x a, Keeps x.1 (f x a).1) (l : List α) (x : State × β) :
    Keeps x.1 (l.foldl f x).1 := by
  induction l generalizing x with
  | nil => exact refl _
  | cons a l ih => exact (h x a).trans (ih _)

end Keeps

theorem rising_mdel {β : Type} {m : SMap β} (i : Nat) (h : Rising m) : Rising (mdel m i) := rising_filter _ h

/-- A map whose every entry keeps its key stays in order. -/
theorem rising_map {β : Type} {m : SMap β} {f : Nat × β → Nat × β} (hf : ∀ p, (f p).1 = p.1) (h : Rising m) : Rising (m.map f) := by
  unfold Rising at h ⊢
  rw [List.pairwise_map]
  exact h.imp fun hpq => by rw [hf, hf]; exact hpq

/-! ### Writes (R230) -/

theorem write_keeps (s : State) (ctx : Option Nat) (a n x : Nat) (st : Stamp) : Keeps s (s.write ctx a n x st) := ⟨memWf_writeLE a n x, id, id⟩

/-- A write of the Girth or the ostler. -/
theorem girthWrite_keeps (s : State) (ctx : Option Nat) (pa n x : Nat) : Keeps s (girthWrite s ctx pa n x) :=
  (Keeps.coh (girthReaches_coh s pa)).trans (write_keeps _ _ _ _ _ _)

/-- A write from outside the package. -/
theorem outsideWrite_keeps (s : State) (k pa n x : Nat) : Keeps s (outsideWrite s k pa n x) := by
  unfold outsideWrite
  extract_lets v who t
  exact Keeps.trans (t := t) (write_keeps _ _ _ _ _ _) (Keeps.same rfl rfl rfl)

theorem modCtx_keeps (s : State) (c : Nat) (f : Context → Context) : Keeps s (s.modCtx c f) := Keeps.same rfl rfl rfl

theorem vifs_keeps (s : State) (v : SMap Vif) : Keeps s { s with vifs := v } := Keeps.same rfl rfl rfl

theorem unpoison_keeps (s : State) (bytes : List Nat) : Keeps s (s.unpoison bytes) := by
  unfold State.unpoison
  split
  · exact Keeps.refl s
  · exact Keeps.same rfl rfl rfl

theorem auditWrite_keeps (s : State) (aud : Option (Nat × Bool)) (ctx a n x : Nat) (st : Stamp) :
    Keeps s (auditWrite s aud ctx a n x st) := by
  unfold auditWrite
  split
  · exact write_keeps _ _ _ _ _ _
  · extract_lets u
    have h : Keeps s u := by
      unfold u; split
      · exact Keeps.refl s
      · exact write_keeps _ _ _ _ _ _
    exact h.trans (Keeps.same rfl rfl rfl)

theorem dropTag_quiet (s : State) (w : Nat) : Quiet s (dropTag s w) := by
  unfold dropTag
  split
  · exact Quiet.refl s
  · rename_i t _
    extract_lets u
    have h : Quiet s u := ⟨rfl, id⟩
    split
    · exact h.trans (rootAdd_quiet _ _ _ _ _ _)
    · exact h

/-- One lane's effect on memory keeps the canonical form, whatever the operation. -/
theorem performLane_keeps (s : State) (k : Nat) (o : Op) (m : MemOp) (a : LaneAcc) : Keeps s (performLane s k o m a).1 := by
  unfold performLane
  extract_lets n old saw st atomic
  split
  · exact Keeps.refl s
  · exact auditWrite_keeps _ _ _ _ _ _ _
  · exact auditWrite_keeps _ _ _ _ _ _ _
  · dsimp only
    split
    · exact auditWrite_keeps _ _ _ _ _ _ _
    · exact Keeps.refl s
  · exact Keeps.trans (t := { s with full := s.full.filter (· != a.loc / 4) }) (Keeps.same rfl rfl rfl) (Keeps.quiet (dropTag_quiet _ _))
  · exact Keeps.refl s
  · exact Keeps.trans (t := s.write (some o.ctx) a.loc 4 a.x.toNat (o.stamp s k)) (write_keeps _ _ _ _ _ _) (Keeps.same rfl rfl rfl)

theorem performLanes_keeps (s : State) (k : Nat) (o : Op) (m : MemOp) (lanes : Mask) : Keeps s (performLanes s k o m lanes).1 := by
  unfold performLanes
  refine Keeps.foldl_fst (β := List (Nat × Word) × List Nat) (fun x a => ?_) _ (s, [], [])
  exact performLane_keeps x.1 k o m a

theorem reachLanes_coh (s : State) (o : Op) (m : MemOp) (lanes : Mask) : CohOnly s (reachLanes s o m lanes).1 := by
  unfold reachLanes
  refine CohOnly.foldl_fst (fun x a => ?_) _ (s, lanes)
  dsimp only
  cases h : reachLine x.1 (opVia o m) (opWrites o m) a.loc with
  | none => exact CohOnly.refl _
  | some t => exact reachLine_coh h

theorem writeDst_quiet (s : State) (o : Op) (m : MemOp) (lo hi : Mask) (vals : List (Nat × Word)) : Quiet s (writeDst s o m lo hi vals) :=
  modGrp?_quiet _ _ _

theorem setHandle_quiet (s : State) (g : Option Nat) (k : Nat) (st : HState) : Quiet s (setHandle s g k st) := modGrp?_quiet _ _ _

/-! ### Records and reports (R318, R358, R382) -/

theorem logErr_keeps (s : State) (kind unit : Nat) (w : BitVec 16) (ctx : Option Nat) (addr : Nat) (l : Option Nat) : Keeps s (logErr s kind unit w ctx addr l) :=
  Keeps.same rfl rfl rfl

theorem logBlocked_keeps (s : State) (l : List Nat) : Keeps s (logBlocked s l) := Keeps.foldl (fun _ _ => logErr_keeps _ _ _ _ _ _ _) _ _

theorem ostlerPut_keeps (s : State) (ctx : Option Nat) (pa n x : Nat) : Keeps s (ostlerPut s ctx pa n x) := by
  unfold ostlerPut
  split
  · exact girthWrite_keeps _ _ _ _ _
  · exact logErr_keeps _ _ _ _ _ _ _

theorem ostlerWrite_keeps (s : State) (pa n x : Nat) : Keeps s (ostlerWrite s pa n x) := ostlerPut_keeps _ _ _ _ _

theorem sendMsix_keeps (s : State) (q : Nat) : Keeps s (sendMsix s q) := by
  unfold sendMsix
  split
  · exact Keeps.refl s
  · dsimp only
    split <;> exact Keeps.same rfl rfl rfl

theorem writeRecord_keeps (s : State) (q : Nat) (Q : Queue) (r : CRec) : Keeps s (writeRecord s q Q r) := by
  unfold writeRecord
  extract_lets a s1 s2 s3 s4
  have h1 : Keeps s s1 := ostlerWrite_keeps _ _ _ _
  have h2 : Keeps s1 s2 := ostlerWrite_keeps _ _ _ _
  have h3 : Keeps s2 s3 := ostlerWrite_keeps _ _ _ _
  have h4 : Keeps s3 s4 := Keeps.same rfl rfl rfl
  have h := ((h1.trans h2).trans h3).trans h4
  split
  · exact h.trans (sendMsix_keeps _ _)
  · exact h

theorem putRecord_keeps (s : State) (q : Nat) (r : CRec) : Keeps s (putRecord s q r) := by
  unfold putRecord
  split
  · exact Keeps.refl s
  · split
    · exact Keeps.same rfl rfl rfl
    · extract_lets full s1
      have h1 : Keeps s s1 := logBlocked_keeps _ _
      split
      · exact h1.trans (Keeps.same rfl rfl rfl)
      · exact h1.trans (writeRecord_keeps _ _ _ _)

theorem drainRecords_keeps (n : Nat) (s : State) (q : Nat) : Keeps s (drainRecords n s q) := by
  induction n generalizing s with
  | zero => exact Keeps.refl s
  | succ n ih =>
    unfold drainRecords
    split
    · exact Keeps.refl s
    · split
      · exact Keeps.refl s
      · extract_lets full s1
        have h1 : Keeps s s1 := logBlocked_keeps _ _
        split
        · exact h1
        · refine h1.trans (Keeps.trans (Keeps.trans ?_ (writeRecord_keeps _ _ _ _)) (ih _))
          exact Keeps.same rfl rfl rfl

theorem endPkt_keeps (s : State) (k o b : Nat) (v : Word) (now : Bool) : Keeps s (endPkt s k o b v now) := by
  unfold endPkt
  split
  · exact Keeps.refl s
  · refine Keeps.trans ?_ (putRecord_keeps _ _ _)
    exact ⟨id, id, rising_mdel k⟩

theorem settleBarriers_keeps (n : Nat) (s : State) : Keeps s (settleBarriers n s) := by
  induction n generalizing s with
  | zero => exact Keeps.refl s
  | succ n ih =>
    unfold settleBarriers
    split
    · exact Keeps.refl s
    · exact (endPkt_keeps _ _ _ _ _ _).trans (ih _)

theorem finishPkt_keeps (s : State) (k o b : Nat) (v : Word) (now : Bool) : Keeps s (finishPkt s k o b v now) :=
  (endPkt_keeps _ _ _ _ _ _).trans (settleBarriers_keeps _ _)

theorem writeReport_keeps (s : State) (A : Activity) (addr : Nat) : Keeps s (writeReport s A addr) := by
  unfold writeReport
  split
  · exact (((ostlerPut_keeps _ _ _ _ _).trans (ostlerPut_keeps _ _ _ _ _)).trans (ostlerPut_keeps _ _ _ _ _)).trans (ostlerPut_keeps _ _ _ _ _)
  · exact Keeps.refl s

theorem finishLaunch_keeps (s : State) (l : Nat) (L : Launch) : Keeps s (finishLaunch s l L) := by
  unfold finishLaunch
  extract_lets out s1 s2 s3 s4
  have h1 : Keeps s s1 := by
    unfold s1; split
    · exact writeReport_keeps _ _ _
    · exact Keeps.refl _
  have h2 : Keeps s1 s2 := by
    unfold s2; split
    · exact (ostlerWrite_keeps _ _ _ _).trans (ostlerWrite_keeps _ _ _ _)
    · exact Keeps.refl _
  have h3 : Keeps s2 s3 := Keeps.same rfl rfl rfl
  have h4 : Keeps s3 s4 := Keeps.same rfl rfl rfl
  exact (((h1.trans h2).trans h3).trans h4).trans (finishPkt_keeps _ _ _ _ _ _)

/-! ### Faults and teardown (R279, R284, R285) -/

theorem postFault_keeps (s : State) (ctx : Nat) (h : HeldPage) : Keeps s (postFault s ctx h) := by
  unfold postFault
  split
  · exact Keeps.refl s
  · split
    · exact Keeps.refl s
    · extract_lets a w s1 s2 s3 s4
      have hw : ∀ t i x, Keeps t (w t i x) := fun t i x => girthWrite_keeps t none (a + i) 8 x
      have h1 : Keeps s s1 := hw s 0 _
      have h2 : Keeps s1 s2 := hw s1 8 _
      have h3 : Keeps s2 s3 := Keeps.trans (hw s2 16 0) (hw (w s2 16 0) 24 0)
      have h4 : Keeps s3 s4 := modCtx_keeps _ _ _
      exact (((h1.trans h2).trans h3).trans h4).trans (vifs_keeps _ _)

theorem trapStr_quiet (s : State) (g : Nat) (str : Stream) (cause : BitVec 8) (lanes : Mask) (addr : Word) : Quiet s (trapStr s g str cause lanes addr) := by
  cases str
  · exact trapS_quiet _ _ _ _ _
  · exact trapL_quiet _ _ _ _ _ _ _

theorem holdGroup_keeps (s : State) (g : Nat) (str : Stream) (pages : List HeldPage) : Keeps s (holdGroup s g str pages) := by
  unfold holdGroup
  split
  · exact Keeps.refl s
  · extract_lets ctx s1
    split
    · exact (Keeps.quiet (grp_quiet _ _ _)).trans (Keeps.foldl (fun _ _ => postFault_keeps _ _ _) _ _)
    · split
      · exact Keeps.quiet (trapStr_quiet _ _ _ _ _ _)
      · exact Keeps.refl s

theorem abandon_quiet (s : State) (a : Nat) : Quiet s (abandon s a) := by
  unfold abandon
  split
  · exact Quiet.refl s
  · split
    · exact Quiet.refl s
    · refine Quiet.foldl (fun s k => ?_) _ _
      split
      · exact Quiet.refl s
      · split
        · exact Quiet.refl s
        · extract_lets s1 s2
          have h1 : Quiet s s1 := ⟨rfl, id⟩
          have h2 : Quiet s1 s2 := modLaunch_quiet _ _ _
          exact (h1.trans h2).trans (Quiet.foldl (α := Nat × Group) (fun t p => killGroup_quiet t false p.1) _ _)

theorem launchError_quiet (s : State) (l : Nat) : Quiet s (launchError s l) := by
  unfold launchError
  split
  · exact Quiet.refl s
  · split
    · split
      · exact abandon_quiet _ _
      · exact Quiet.refl s
      · exact modLaunch_quiet _ _ _
    · split
      · exact (modLaunch_quiet _ _ _).trans (Quiet.foldl (fun _ _ => killGroup_quiet _ _ _) _ _)
      · exact modLaunch_quiet _ _ _

theorem endCopy_keeps (s : State) (k : Nat) (st : HState) : Keeps s (endCopy s k st) := by
  unfold endCopy
  split
  · exact Keeps.refl s
  · split
    · extract_lets s1 s2 s3
      have h1 : Quiet s s1 := setHandle_quiet _ _ _ _
      have h2 : Quiet s1 s2 := by
        unfold s2; split
        · exact modGrp?_quiet _ _ _
        · exact Quiet.refl _
      have h := Keeps.quiet ((h1.trans h2).trans (dropOp_quiet _ k))
      split
      · split
        · exact h.trans (finishPkt_keeps _ _ _ _ _ _)
        · exact h
      · exact h
    · exact Keeps.refl s

theorem sweepMem_keeps (s : State) (ctx : Nat) : Keeps s (sweepMem s ctx) := by
  unfold sweepMem
  refine Keeps.foldl_fst (fun x p => ?_) _ (s, [])
  dsimp only
  split
  · split
    · exact Keeps.refl _
    · split
      · exact ((Keeps.coh (reachLanes_coh _ _ _ _)).trans (performLanes_keeps _ _ _ _ _)).trans (Keeps.quiet (dropOp_quiet _ _))
      · exact Keeps.quiet (dropOp_quiet _ _)
  · split
    · exact Keeps.refl _
    · exact Keeps.quiet (dropOp_quiet _ _)
  · exact Keeps.refl _

theorem sweepCopies_keeps (s : State) (ctx : Nat) : Keeps s (sweepCopies s ctx) := by
  unfold sweepCopies
  refine Keeps.foldl (fun s p => ?_) _ _
  dsimp only
  split
  · split
    · exact Keeps.refl _
    · split
      · exact (endCopy_keeps _ _ _).trans (Keeps.same rfl rfl rfl)
      · exact endCopy_keeps _ _ _
  · exact Keeps.refl _

theorem dropDead_keeps (s : State) (q : Nat) : Keeps s (dropDead s q) := by
  unfold dropDead
  split
  · exact Keeps.same rfl rfl rfl
  · exact Keeps.refl s

theorem dropQueue_keeps (s : State) (q : Nat) : Keeps s (dropQueue s q) := by
  unfold dropQueue
  split
  · exact Keeps.refl s
  · extract_lets s1 wr s2 s3
    have h1 : Keeps s s1 := by
      unfold s1; split
      · refine Keeps.trans ?_ (putRecord_keeps _ _ _)
        exact Keeps.same rfl rfl rfl
      · exact Keeps.refl _
    have h2 : Keeps s1 s2 := by
      unfold s2; split
      · exact logBlocked_keeps _ _
      · exact Keeps.refl _
    have h3 : Keeps s2 s3 := Keeps.foldl (fun t _ => (logBlocked_keeps _ _).trans (putRecord_keeps _ _ _)) _ _
    refine ((h1.trans h2).trans h3).trans (Keeps.trans ?_ (dropDead_keeps _ _))
    exact Keeps.same rfl rfl rfl

theorem tags_keeps (s : State) (x : SMap Tag) (c : SMap Nat) : Keeps s { s with tags := x, chans := c } := Keeps.same rfl rfl rfl

theorem dropCopies_keeps (s : State) (ctx : Nat) : Keeps s (dropCopies s ctx) := Keeps.same rfl rfl rfl

/-- A teardown keeps the canonical forms: every write that it lets through is a write of an operation or of a record. -/
theorem teardown_keeps (s : State) (ctx : Nat) : Keeps s (teardown s ctx) := by
  unfold teardown
  split
  · exact Keeps.refl s
  · split
    · exact Keeps.refl s
    · extract_lets s1 s2 s3 s4 s5 s6 s7 s8 s9 s10 s11 s12 s13
      have h1 : Keeps s s1 := (sweepMem_keeps s ctx).trans (Keeps.same rfl rfl rfl)
      have h2 : Keeps s1 s2 := Keeps.same rfl rfl rfl
      have h3 : Keeps s2 s3 := Keeps.foldl (fun _ _ => Keeps.quiet (killGroup_quiet _ _ _)) _ _
      have h4 : Keeps s3 s4 := sweepCopies_keeps _ _
      have h5 : Keeps s4 s5 := Keeps.same rfl rfl rfl
      have h6 : Keeps s5 s6 := Keeps.same rfl rfl rfl
      have h7 : Keeps s6 s7 := Keeps.same rfl rfl rfl
      have h8 : Keeps s7 s8 := Keeps.foldl (fun t p => by
        dsimp only
        split
        · exact finishLaunch_keeps _ _ _
        · exact Keeps.refl _) _ _
      have h9 : Keeps s8 s9 := by
        unfold s9
        refine Keeps.foldl (fun t p => ?_) _ _
        exact finishPkt_keeps _ _ _ _ _ _
      have h10 : Keeps s9 s10 := by
        unfold s10
        refine Keeps.foldl (fun t p => ?_) _ _
        exact dropQueue_keeps t p.1
      have h11 : Keeps s10 s11 := settleBarriers_keeps _ _
      have h12 : Keeps s11 s12 := dropCopies_keeps _ _
      have h13 : Keeps s12 s13 := tags_keeps _ _ _
      exact ((((((((((((h1.trans h2).trans h3).trans h4).trans h5).trans h6).trans h7).trans h8).trans h9).trans h10).trans h11).trans h12).trans h13).trans
        (modCtx_keeps _ _ _)

theorem fatalFault_keeps (s : State) (ctx : Nat) : Keeps s (fatalFault s ctx) := (modCtx_keeps _ _ _).trans (teardown_keeps _ _)

end Sys2Proof.Machine
end

