-- ==== Sys2Proof/Laws/Memory.lean ====
section
/-!
SUPPORT. The operations that write memory beside plain stores keep its canonical form: engines, tile operations, errors, the start, restore and
replay of blocks, and dies that go away. Memory after reset has the form.
-/

namespace Sys2Proof.Machine

theorem reset_memWf : memWf State.reset.mem = true := rfl

theorem memWf_foldl_memWrite {m : List Host.Cell} (l : List Host.Cell) (at_ : Nat → Nat) (h : memWf m = true) :
    memWf (l.foldl (fun m c => memWrite m (at_ c.1) c.2) m) = true := by
  induction l generalizing m with
  | nil => exact h
  | cons c l ih => exact ih (memWf_memWrite _ _ h)

/-! ### Errors (R309, R335, R382) -/

theorem coreErr_keeps (s : State) (kind unit core : Nat) (ctx : Option Nat) (addr : Nat) (l : Option Nat) : Keeps s (coreErr s kind unit core ctx addr l) :=
  Keeps.same rfl rfl rfl

theorem engineConsumes_keeps (s : State) (o : Op) (addr : Nat) : Keeps s (engineConsumes s o addr) := by
  unfold engineConsumes
  split
  · exact logErr_keeps _ _ _ _ _ _ _
  · extract_lets s1
    have h1 : Keeps s s1 := coreErr_keeps _ _ _ _ _ _ _
    split
    · split
      · exact h1.trans (Keeps.quiet (Quiet.foldl (α := Nat × Group) (fun t p => (compFail_quiet _ _ _ _ _ _).trans (killGroup_quiet _ _ p.1)) _ _))
      · split
        · exact h1.trans (Keeps.quiet (launchError_quiet _ _))
        · exact h1
    · exact h1

theorem trapBoundary_quiet (s : State) (g : Nat) (cause : BitVec 8) (addr : Word) : Quiet s (trapBoundary s g cause addr) := by
  unfold trapBoundary
  split
  · exact Quiet.refl s
  · exact trap_quiet _ _ _

theorem groupError_quiet (s : State) (g addr : Nat) (a : Option (Stream × Nat × Nat)) : Quiet s (groupError s g addr a) := by
  have boundary : ∀ s : State, Quiet s (match a with
      | none => trapBoundary s g 0x0F (BitVec.ofNat 64 addr)
      | some (str, ov, off) => trap s g { cause := 0x0F, str := str, ov := ov, off := off, addr := BitVec.ofNat 64 addr }) := by
    intro s
    split
    · exact trapBoundary_quiet _ _ _ _
    · exact trap_quiet _ _ _
  unfold groupError
  split
  · exact Quiet.refl s
  · extract_lets b
    split
    · exact Quiet.refl s
    · split
      · exact boundary s
      · split
        · exact Quiet.refl s
        · split
          · exact killGroup_quiet _ _ _
          · extract_lets s1
            have h1 : Quiet s s1 := launchError_quiet _ _
            split
            · split
              · exact h1
              · split
                · exact h1.trans (boundary s1)
                · exact h1.trans (killGroup_quiet _ _ _)
            · exact h1

/-! ### Engines and packets (R147 to R150, R390) -/

theorem setCopy_keeps (s : State) (k : Nat) (c : CopyOp) : Keeps s (setCopy s k c) := Keeps.quiet (modOp_quiet _ _ _)

theorem engineFault_keeps (s : State) (k : Nat) (o : Op) (c : CopyOp) (va : Nat) (w : Bool) (r : TrRes) : Keeps s (engineFault s k o c va w r) := by
  unfold engineFault
  split
  · exact Keeps.refl s
  · exact setCopy_keeps _ _ _
  · exact (setCopy_keeps _ _ _).trans (fatalFault_keeps _ _)
  · split
    · exact (setCopy_keeps _ _ _).trans (postFault_keeps _ _ _)
    · exact setCopy_keeps _ _ _

theorem chans_keeps (s : State) (c : SMap Nat) : Keeps s { s with chans := c } := Keeps.same rfl rfl rfl

theorem fillTlb_keeps (s : State) (ctx core : Nat) (pages : List Nat) (rset : Option (List RangeReg)) : Keeps s (fillTlb s ctx core pages rset) := by
  unfold fillTlb
  split
  · exact Keeps.refl s
  · extract_lets add
    refine Keeps.foldl (fun t p => ?_) _ _
    split
    · exact Keeps.refl _
    · exact Keeps.same rfl rfl rfl

theorem readIdx_keeps (s : State) (k : Nat) (o : Op) (c : CopyOp) : Keeps s (readIdx s k o c).1 := by
  unfold readIdx
  split
  · exact Keeps.refl s
  · extract_lets a
    split
    · exact (setCopy_keeps _ _ _).trans (engineConsumes_keeps _ _ _)
    · exact setCopy_keeps _ _ _

theorem putCopied_keeps (s : State) (k : Nat) (o : Op) (c : CopyOp) (va b x : Nat) : Keeps s (putCopied s k o c va b x) := by
  unfold putCopied
  extract_lets used s1 s2 s3
  have h1 : Keeps s s1 := by
    unfold s1; split
    · exact Keeps.refl _
    · exact fillTlb_keeps _ _ _ _ _
  have h := (h1.trans (auditWrite_keeps _ _ _ _ _ _ _ : Keeps s1 s2)).trans (setCopy_keeps _ _ _ : Keeps s2 s3)
  split
  · exact h
  · exact h.trans (chans_keeps _ _)

/-- One byte of an engine operation. -/
theorem copyByte_keeps (s : State) (k : Nat) (out : List Nat) : Keeps s (copyByte s k out).1 := by
  unfold copyByte
  split
  · exact Keeps.refl s
  · split
    · split
      · exact Keeps.refl s
      · rename_i o _ _ c _ _
        have hr := readIdx_keeps s k o c
        split
        · rename_i h; rw [h] at hr; exact hr
        · rename_i t h
          rw [h] at hr
          refine hr.trans ?_
          extract_lets c' src va dst
          split
          · split
            · exact setCopy_keeps _ _ _
            · split
              · exact (setCopy_keeps _ _ _).trans (engineConsumes_keeps _ _ _)
              · extract_lets reached
                have h0 : ∀ u, reached = some u → Keeps t u := by
                  intro u hu
                  obtain ⟨v, hv, hw⟩ := Option.bind_eq_some_iff.1 hu
                  refine Keeps.trans ?_ (Keeps.coh (reachLine_coh hw))
                  split at hv
                  · cases hv; exact Keeps.refl _
                  · exact Keeps.coh (reachLine_coh hv)
                clear_value reached
                cases reached with
                | none => exact Keeps.refl _
                | some u => exact (h0 u rfl).trans (putCopied_keeps _ _ _ _ _ _ _)
          · exact engineFault_keeps _ _ _ _ _ _ _
          · exact engineFault_keeps _ _ _ _ _ _ _
    · exact Keeps.refl s

theorem copyBytes_keeps (n : Nat) (s : State) (k : Nat) (out : List Nat) : Keeps s (copyBytes n s k out).1 := by
  induction n generalizing s out with
  | zero => exact Keeps.refl s
  | succ n ih =>
    unfold copyBytes
    have h := copyByte_keeps s k out
    split
    · rename_i e; rw [e] at h; exact h.trans (ih _ _)
    · rename_i e; rw [e] at h; exact h

theorem pktFault_keeps (s : State) (k : Nat) (p : Pkt) (va kind : Nat) (r : TrRes) : Keeps s (pktFault s k p va kind r) := by
  unfold pktFault
  split
  · exact Keeps.refl s
  · exact finishPkt_keeps _ _ _ _ _ _
  · exact (finishPkt_keeps _ _ _ _ _ _).trans (fatalFault_keeps _ _)
  · split
    · refine Keeps.trans ?_ (postFault_keeps _ _ _)
      exact ⟨id, id, rising_mput _ _⟩
    · exact finishPkt_keeps _ _ _ _ _ _

theorem tryPkt_keeps (s : State) (k : Nat) : Keeps s (tryPkt s k) := by
  have blocked (pa : Nat) : Keeps s (finishPkt (logBlocked s [pa]) k 5) := (logBlocked_keeps _ _).trans (finishPkt_keeps _ _ _ _ _ _)
  unfold tryPkt
  split
  · exact Keeps.refl s
  · split
    · exact Keeps.refl s
    · split
      · split
        · split
          · exact blocked _
          · split
            · exact Keeps.refl s
            · exact (girthWrite_keeps _ _ _ _ _).trans (finishPkt_keeps _ _ _ _ _ _)
        · exact pktFault_keeps _ _ _ _ _ _
      · split
        · split
          · exact blocked _
          · split
            · exact finishPkt_keeps _ _ _ _ _ _
            · exact Keeps.refl s
        · exact pktFault_keeps _ _ _ _ _ _
      · exact Keeps.refl s

/-! ### Tile operations (R166 to R176) -/

theorem putList_keeps (s : State) (key : Nat) (o : Op) (list k : Nat) (l : List (Elem × Elem)) : Keeps s (putList s key o list k l) := by
  unfold putList
  extract_lets l1 st s1
  have h1 : Keeps s s1 := auditWrite_keeps _ _ _ _ _ _ _
  refine h1.trans (Keeps.foldl (fun t x => ?_) _ _)
  exact auditWrite_keeps _ _ _ _ _ _ _

theorem setTileRow_keeps (s : State) (tile i : Nat) (r : Lanes) : Keeps s (setTileRow s tile i r) := Keeps.same rfl rfl rfl

theorem tileEffect_keeps (s : State) (key : Nat) (o : Op) (t : TileOp) : Keeps s (tileEffect s key o t) := by
  unfold tileEffect
  extract_lets ls tile get
  split
  · extract_lets k bAt
    split
    · exact Keeps.foldl (fun t i => setTileRow_keeps _ _ _ _) _ _
    · exact Keeps.foldl (fun t i => setTileRow_keeps _ _ _ _) _ _
  · exact Keeps.foldl (fun t i => setTileRow_keeps _ _ _ _) _ _
  · extract_lets p lo hi cols n s1
    have h1 : Keeps s s1 := by
      refine Keeps.foldl (fun t i => ?_) _ _
      refine Keeps.foldl (fun u x => ?_) _ _
      exact auditWrite_keeps _ _ _ _ _ _ _
    split
    · exact h1
    · exact h1.trans (unpoison_keeps _ _)
  · exact Keeps.quiet (modGrp?_quiet _ _ _)
  · exact putList_keeps _ _ _ _ _ _
  · exact putList_keeps _ _ _ _ _ _

/-! ### Blocks (R286, R309, R345, R347) -/

theorem evict_keeps (n : Nat) (s : State) (core m : Nat) : Keeps s (evict n s core m) := by
  induction n generalizing s with
  | zero => exact Keeps.refl s
  | succ n ih =>
    unfold evict
    split
    · exact Keeps.refl s
    · extract_lets able
      split
      · exact Keeps.refl s
      · refine Keeps.trans ?_ (ih _)
        exact Keeps.same rfl rfl rfl

theorem takeSlots_keeps (s : State) (k : Nat) (ev : Bool) : Keeps s (takeSlots s k ev) := by
  unfold takeSlots
  split
  · exact Keeps.refl s
  · split
    · exact Keeps.refl s
    · extract_lets n s1 free
      have h1 : Keeps s s1 := by
        unfold s1; split
        · exact evict_keeps _ _ _ _
        · exact Keeps.refl _
      split
      · exact h1.trans (Keeps.same rfl rfl rfl)
      · exact h1

theorem startLoad_keeps (s : State) (core ctx : Nat) (e : OvEntry) (w : Waiter) : Keeps s (startLoad s core ctx e w).1 := by
  unfold startLoad
  extract_lets id
  split
  · exact Keeps.same rfl rfl rfl
  · refine Keeps.trans ?_ (takeSlots_keeps _ _ _)
    exact Keeps.same rfl rfl rfl

theorem loadFixed_keeps (s : State) (b ctx core : Nat) (e : OvEntry) : Keeps s (loadFixed s b ctx core e).1 := by
  unfold loadFixed
  split
  · split
    · exact startLoad_keeps _ _ _ _ _
    · exact Keeps.same rfl rfl rfl
  · exact startLoad_keeps _ _ _ _ _

/-- The pages of a snapshot put back. -/
theorem restorePages_keeps (s : State) (pages : List (Nat × List Host.Cell)) : Keeps s (restorePages s pages) := by
  unfold restorePages
  refine Keeps.foldl (fun s p => ?_) _ _
  dsimp only
  generalize hu : (List.range 64).foldl (fun s i => girthReaches s (4096 * p.1 + 64 * i)) s = u
  have h : Keeps s u := hu ▸ Keeps.foldl (fun _ _ => Keeps.coh (girthReaches_coh _ _)) _ _
  exact h.trans ⟨fun h => memWf_foldl_memWrite p.2 id (memWf_filter _ h), id, id⟩

/-- A die's scratchpads, zeroed. -/
theorem clearDie_keeps (s : State) (d : Nat) : Keeps s (clearDie s d) := ⟨memWf_filter _, id, id⟩

end Sys2Proof.Machine
end

