-- ==== Sys2Proof/Laws/Pick.lean ====
section
/-!
SUPPORT. What the choice of a stream changes: bookkeeping of the groups and nothing else (R93).
-/

namespace Sys2Proof.Machine

/-- Marking readiness changes groups only, and keeps their order. -/
theorem markReady_keeps (s : State) : Keeps s (markReady s) := ⟨id, rising_map fun _ => rfl, id⟩

@[simp] theorem markReady_mem (s : State) : (markReady s).mem = s.mem := rfl
@[simp] theorem markReady_turn (s : State) : (markReady s).turn = s.turn := rfl
@[simp] theorem markReady_now (s : State) : (markReady s).now = s.now := rfl

theorem tookTurn_quiet (s : State) (g : Nat) (str : Stream) : Quiet s (tookTurn s g str) := modGrp_quiet _ _ _

theorem settleJams_keeps (s : State) : Keeps s (settleJams s) := Keeps.same rfl rfl rfl

/-- A stream that is not ready is not picked. -/
theorem picked_ready {s : State} {g : Nat} {G : Group} {str : Stream} (h : picked s g G str = true) : ∃ r, G.readyOf str = some r := by
  unfold picked at h
  cases hr : G.readyOf str with
  | none => simp [hr] at h
  | some r => exact ⟨r, rfl⟩

/-- What is picked comes before every other ready candidate of its partition. -/
theorem picked_first {s : State} {g : Nat} {G : Group} {str : Stream} {r : Nat} (h : picked s g G str = true) (hr : G.readyOf str = some r)
    {c : Nat × Group × Stream} (hc : c ∈ candidates s G.core G.part) (hne : ¬(c.1 = g ∧ c.2.2 = str)) {q : Nat} (hq : c.2.1.readyOf c.2.2 = some q) :
    goesFirst s G str r c.2.1 c.2.2 q = true := by
  simp only [picked, hr, List.all_eq_true] at h
  have := h c hc
  simp only [hq, Bool.or_eq_true, Bool.and_eq_true, beq_iff_eq] at this
  exact this.resolve_left hne

end Sys2Proof.Machine
end

