-- ==== Sys2Proof/Tests/Slice0.lean ====
section
/-!
SUPPORT. Tests: words that decode to the instruction the spec gives them, ill-formed terms that `Instr.wf` refuses, and for
each statement states that meet its hypotheses.
-/

namespace Sys2Proof.Tests
set_option autoImplicit false
set_option maxRecDepth 4000
open Sys2Proof Sys2Proof.Machine Sys2Proof.Claims


/-! ### Small states for one step -/

/-- What a step gives, if it gives a next state. -/
abbrev ran (o : Out) (p : State → Bool) : Bool := match o with | .next t => p t | _ => false

/-- Group 4 of block 3 of launch 2, at the start of its root overlay (copy 1), with the turn of its scalar stream. -/
abbrev sc : State := State.reset.withFetchWord 32 0x01121432

/-- The same group with a lane run of one split of all lanes, and its turn. -/
abbrev ln : State := State.reset.withFetchWord 96 0x924000000000000000000000

/-- `sc` and `ln` with the group changed. -/
abbrev scg (f : Group → Group) : State := sc.modGrp 4 f
abbrev lng (f : Group → Group) : State := ln.modGrp 4 f

/-- Group 4 of a state meets `p`. -/
abbrev G4 (s : State) (p : Group → Prop) : Prop := ∃ G ∈ mget s.groups 4, p G

/-- Group 4 and its split 0 meet `p`. -/
abbrev S4 (s : State) (p : Group → Split → Prop) : Prop := ∃ G ∈ mget s.groups 4, ∃ S ∈ mget G.splits 0, LaneTurn s 4 G 0 S ∧ p G S

/-- The scalar registers s5 and s6 hold x and y. -/
abbrev xy (x y : Word) : State := scg fun G => (G.ws 5 x).ws 6 y

/-- What `i` leaves in s9 from x in s5 and y in s6. -/
abbrev s9 (i : Instr) (x y r : Word) : Bool := ran (exec i (xy x y)) fun t => (mget t.groups 4).any fun G => G.rs 9 == r && G.pc == 1

/-- `i` traps with a cause (R333, R334). -/
abbrev traps (i : Instr) (s : State) (cause : BitVec 8) : Bool :=
  ran (exec i s) fun t => (mget t.groups 4).any fun G => G.trap.cause == cause && !G.trap.lane

/-- Group 4 after `i`. -/
abbrev after (i : Instr) (s : State) (p : Group → Bool) : Bool := ran (exec i s) fun t => (mget t.groups 4).any p


/-! ### States for the tests of single streams, memory and engines -/

/-- `sc` with a scalar section of 100 words and 100 lane words. -/
abbrev widen (e : OvEntry) : OvEntry := { e with s := 100, l := 100 }

abbrev bigger (s : State) : State :=
  { s.modLaunch 2 fun L => { L with tab := L.tab.map widen } with
    copies := s.copies.map fun p => (p.1, { p.2 with ent := widen p.2.ent, id := .tenant 0 p.2.ent.image 100 100 }) }

abbrev big : State := bigger sc

abbrev bigg (f : Group → Group) : State := big.modGrp 4 f

/-- A launch of two overlays, the second resident as copy 9 (R187). -/
abbrev two : State :=
  { big with
    copies := big.copies ++ [(9, { core := 0, id := .tenant 0 0x2000 100 0, ctx := 0, ent := ⟨0x2000, 100, 0, false, false⟩, slots := [5],
                                   loading := false, code := [], got := [], waiters := [], used := 0, vifs := [0] })],
    launches := big.launches.map fun p => (p.1, { p.2 with tab := p.2.tab ++ [⟨0x2000, 100, 0, false, false⟩],
                                                           desc := { p.2.desc with workset := 8 } }) }

/-- What `Enterable` asks for, in a form that computes. -/
abbrev canEnter (s : State) (G : Group) (ov k : Nat) : Prop :=
  ∃ e ∈ (s.table G)[ov]?, ∃ c ∈ mget s.copies k, copyOf s G.core (s.ctxOf G) e = some (k, c) ∧ c.loading = false ∧
    sumSlots s (blockHolds s G.blk G.core (some 4)) + (if k ∈ blockHolds s G.blk G.core (some 4) then 0 else slotsOf e) ≤ s.workset G

/-- Group 4 EXITING, with everything it waits for gone, or one thing left. -/
abbrev exg (f : Group → Group) : State := scg fun G => f { G with st := .exiting }

/-- An activity of a descriptor. -/
abbrev mkAct (D : LDesc) (l : Nat) (st : ActState) (entries : List StackEntry) : Activity :=
  { ctx := 0, id := 0x99, launch := l, desc := D, tab := [], st := st, entries := entries, deps := [], set := 7, report := 0, reason := 0,
    cause := 0, seq := 0, code := 0, torn := false, answer := none }

/-- Group 4 as a compensation group of entry 1 of activity 7. -/
abbrev cgs : State :=
  { scg fun G => { G with comp := some (7, 1) } with acts := sc.launches.map fun p => (7, mkAct p.2.desc p.1 .abandoning []) }

/-- `ln` with 100 lane words, and the group changed. -/
abbrev lb : State := bigger ln

abbrev lbg (f : Group → Group) : State := lb.modGrp 4 f

/-- Split 0 at pc with mask m and a stack; other splits and joins. -/
abbrev spl (pc : Nat) (m : Mask) (st : List SEntry) (rest : SMap Split) (js : SMap Join) (G : Group) : Group :=
  { G with splits := (0, { pc := pc, mask := m, stack := st, ready := some 0 }) :: rest, joins := js }

abbrev sp1 (pc : Nat) (m : Mask) (st : List SEntry) : Split := { pc := pc, mask := m, stack := st }

abbrev jn (rc : Nat) (arr dm : Mask) (dpc : Nat) : Join := { rc := rc, arrived := arr, defmask := dm, defpc := dpc }

/-- Lanes 0 and 1 of split 0, at offset 10, have p2 set. -/
abbrev div : State := lbg fun G => (spl 10 0xF [] [] [] G).wp 2 3

abbrev divFull : State := lbg fun G => (spl 10 0xF [] [(1, sp1 0 0x10 []), (2, sp1 0 0x20 []), (3, sp1 0 0x40 [])] [] G).wp 2 3

abbrev pcs (G : Group) : List (Nat × Nat × Mask) := G.splits.map fun p => (p.1, p.2.pc, p.2.mask)

/-- Two runs are queued. -/
abbrev runs2 (G : Group) : Group := { G with runs := [⟨9, 0, 1, 0, {}⟩, ⟨10, 0, 1, 50, {}⟩] }

/-- Group 4 in trap mode. -/
abbrev tmg (f : Group → Group) : State := bigg fun G => f { G with trapMode := some { calls := [(0, 3)], ov := 0, off := 7, copy := 1, wait := .none } }

/-- `sc` with debug stops enabled in its context. -/
abbrev dbg (st : GState) : State := (scg fun G => { G with st := st }).modCtx 0 fun C => { C with debug := true }

/-- Group 4 in trap mode after a trap with a cause at offset 30, of the scalar stream or of split 0. -/
abbrev trp (cause : BitVec 8) (lane : Bool) : State :=
  tmg fun G => { spl 10 0xF [] [] [] G with trap := { cause := cause, lane := lane, off := 30 }, lanedone := 5 }

/-- The debug port's name for group 4. -/
abbrev tgt : DbgTarget := { launch := 0, block := none, idx := some 0 }

abbrev stp : State := dbg .stopped

/-- A state whose context has three identity ranges: one of read and write, one of read only, one of neither; and 4 KiB of scratch. -/
abbrev withMem (s : State) : State :=
  { (s.modCtx 0 fun C => { C with ranges :=
      [{ w := true, r := true, e := true, vbase := 0x1000, vlimit := 0x1FFFFF, pbase := 0x1000 },
       { w := false, r := true, e := true, vbase := 0x200000, vlimit := 0x2FFFFF, pbase := 0x200000 },
       { w := false, r := false, e := true, vbase := 0x300000, vlimit := 0x3FFFFF, pbase := 0x300000 }] }).modLaunch 2 (fun L =>
        { L with desc := { L.desc with scratch := 4096 } }) with
    mem := [(0x1000, 0x11), (0x1001, 0x22), (0x1002, 0x33), (0x1003, 0x84), (0x1007, 0x80), (2 ^ 52 + 0x10, 0x55)] }

abbrev mg (f : Group → Group) : State := withMem (scg f)

abbrev lm (f : Group → Group) : State := withMem (lng f)

/-- A copy under way whose destination is the eight bytes at 0x1100. -/
abbrev locks (s : State) : State :=
  { s with ops := [(50, { grp := some 4, str := .scalar, run := none, core := 0, ctx := 0, launch := some 2, blk := some 3, deps := [],
                          body := .copy { kind := .cpy, chan := 0, dst := 0x1100, dstScr := false, src := 0x1200, srcScr := false, len := 8 } })] }

abbrev rd : Need := { r := true, w := false }

abbrev wr : Need := { r := false, w := true }

abbrev rw : Need := { r := true, w := true }

/-- The operation that an instruction put in flight, and group 4. -/
abbrev issued (i : Instr) (s : State) (p : MemOp → Group → Bool) : Bool :=
  ran (exec i s) fun t => (mget t.groups 4).any fun G => (opMem t s.nextId).any fun m => p m G

/-- An operation in flight: key 60, of group 4. -/
abbrev mop (str : Stream) (ld st : Bool) (m : MemOp) : Op :=
  { grp := some 4, str := str, run := none, core := 0, ctx := 0, launch := some 2, blk := some 3, ldc := ld, stc := st, deps := [], body := .mem m }

abbrev flying (s : State) (o : Op) : State := { s with ops := [(60, o)] }

/-- A store of the scalar stream waits for its acknowledgement. -/
abbrev pend (f : Group → Group) : State :=
  flying (mg fun G => f { G with cst := 1, ord := { own := [60] } }) (mop .scalar false true
    { kind := .store, ty := .n64, dst := .none, acc := [{ lane := 0, loc := 0x1010, x := 5 }], todo := 1, lo := 0, hi := 0 })

/-- A load, a store, an add and a compare of the scalar stream in flight. -/
abbrev fly (k : MKind) (ty : Ty) (d : Dst) (todo lo : Mask) (ld st : Bool) (x y : Word) : State :=
  flying (mg fun G => { G with cld := 1, cst := 1 }) (mop .scalar ld st { kind := k, ty := ty, dst := d, acc := [{ lane := 0, loc := 0x1000, x := x, y := y }], todo := todo, lo := lo, hi := 0 })

/-- Lanes 0 and 255 of split 0 under p2. -/
abbrev two255 (G : Group) : Group := G.wp 2 (1 ||| (1 <<< 255))

abbrev mlw (t : Ty) (d : VReg) (m : AMode) (off : BitVec 32) : MemL := { g := ⟨false, 2⟩, ty := t, d := d, mode := m, off := off }

abbrev atw (t : Ty) (k : AKind) (d : VReg) (m : AMode) (c : Opnd) : AtomL :=
  { g := ⟨false, 2⟩, ty := t, kind := k, d := d, mode := m, scope := .die, order := .relaxed, c := c }

abbrev lms : State := lm fun G => (two255 G).ws 5 0x1000

/-- A `vldsf`, `vldsp` or `vstsf` of lane 0 that waits for the word at offset 16. -/
abbrev few (k : MKind) (full : List Nat) (todo : Mask) (more : Bool) : State :=
  { flying (lm fun G => { two255 G with splits := [(0, { pc := 0, mask := Mask.all, stack := [], fe := some 60 })], cld := 1, cst := 1 })
      (mop (.split 0) (k != .fePut) (k == .fePut)
        { kind := k, ty := .i32, dst := if k = .fePut then .none else .v 7, acc := [{ lane := 0, loc := 2 ^ 52 + 16, x := 9 }], todo := todo, lo := 0, hi := 0, more := more }) with full := full }

/-- A descriptor in s20 to s24 and a channel in s6. -/
abbrev dsc (a b c d e ch : Word) (f : Group → Group) : State := mg fun G => f ((((((G.ws 20 a).ws 21 b).ws 22 c).ws 23 d).ws 24 e).ws 6 ch)

/-- `s` with window 2 of 100 blocks of 4096 bytes. -/
abbrev withWin (s : State) : State :=
  s.modCtx 0 fun C => { C with windows := [(2, { sq := 0, cq := 0, doorbell := 0, nsid := 1, qdepth := 16, valid := true, lbas := 100 })] }

/-- An engine operation of channel 0 in flight. -/
abbrev cop (c : CopyOp) (f : Group → Group) : State :=
  { mg f with ops := [(60, { grp := some 4, str := .scalar, run := none, core := 0, ctx := 0, launch := some 2, blk := some 3, deps := [], body := .copy c })] }

abbrev cp8 (done len : Nat) (cancel : Bool) : CopyOp :=
  { kind := .cpy, chan := 0, dst := 0x1100, dstScr := false, src := 0x1000, srcScr := false, len := len, done := done, cancel := cancel }

/-- A gather of two rows of 32 bytes, whose index list stands in scratch; the index of a row has been read or not. -/
abbrev cpg (i : Option (Nat × Nat)) : CopyOp :=
  { kind := .gather, chan := 0, dst := 0x1100, dstScr := false, src := 2 ^ 52 + 16, srcScr := true, len := 64, table := 0x1000, stride := 16, row := 32, idx := i }

abbrev hp (G : Group) : Group := { (G.wh 3 { st := .pending, op := some 60 }) with ccp := 1 }

/-- The engine operation that an instruction put in flight, with the group. -/
abbrev started (i : Instr) (s : State) (p : CopyOp → Group → Bool) : Bool :=
  ran (exec i s) fun t => (mget t.groups 4).any fun G => (mget t.ops s.nextId).any fun o => match o.body with
    | .copy c => p c G
    | _ => false

/-- A finished handle in h3, the address of a scratch word in s5, and a tag in that word. -/
abbrev hs (f : Group → Group) (full : List Nat) (tags : SMap Tag) : State :=
  { mg fun G => f ((G.ws 5 32).wh 3 { st := .done }) with full := full, tags := tags }

abbrev tg : Tag := { serial := 0, h := { st := .cancelled }, blk := 3, core := 0, unit := none }

abbrev wrd : Nat := (2 ^ 52 + 32) / 4

/-- A token of overlay 1 in h3; the second overlay is copy 9 of `two`, loading or not, or absent. -/
abbrev ovs (loading : Bool) (have9 : Bool) : State :=
  { two.modGrp 4 (fun G => (G.ws 5 1).ws 6 256) with copies := (two.copies.map fun p => (p.1, { p.2 with loading := loading && p.1 == 9 })).filter fun p => have9 || p.1 != 9 }

/-- An image of two scalar words whose words have all come. -/
abbrev ldg : State :=
  { scg (·.wh 3 { st := .pending, ov := some (1, 9) }) with
    copies := [(9, { core := 0, id := .tenant 0 0x2000 2 0, ctx := 0, ent := ⟨0x2000, 2, 0, false, false⟩, slots := [5], loading := true, code := [],
                     got := [0, 1], waiters := [.handle 4 3], used := 0, vifs := [0] })] }

/-! ### Decoding: words written out from the spec's layouts (R43, R45, R59, R82, R120 to R173, R202, R353, R354; the worked words of the chapters where they give one) -/

theorem test_register_words_a :
    decodeScalar 0x01139008 none = .ok (.sadd 9 100 1 0, 1) ∧
    decodeScalar 0x02158C11 none = .ok (.ssub 10 99 2 1, 1) ∧
    decodeScalar 0x0317881A none = .ok (.smul 11 98 3 2, 1) ∧
    decodeScalar 0x04198423 none = .ok (.smulh 12 97 4 3, 1) ∧
    decodeScalar 0x051B802C none = .ok (.smulhn 13 96 5 4, 1) ∧
    decodeScalar 0x061D7C35 none = .ok (.sand 14 95 6 5, 1) ∧
    decodeScalar 0x071F783E none = .ok (.sor 15 94 7 6, 1) ∧
    decodeScalar 0x08217447 none = .ok (.sxor 16 93 8 7, 1) ∧
    decodeScalar 0x09237048 none = .ok (.sshl 17 92 9 0, 1) ∧
    decodeScalar 0x0A256C51 none = .ok (.sshr 18 91 10 1, 1) ∧
    decodeScalar 0x0B27685A none = .ok (.ssra 19 90 11 2, 1) ∧
    decodeScalar 0x0C296463 none = .ok (.smin 20 89 12 3, 1) := by
  decide

theorem test_register_words_b :
    decodeScalar 0x0D2B606C none = .ok (.smax 21 88 13 4, 1) ∧
    decodeScalar 0x0E2D5C75 none = .ok (.sminn 22 87 14 5, 1) ∧
    decodeScalar 0x0F2F587E none = .ok (.smaxn 23 86 15 6, 1) ∧
    decodeScalar 0x10315487 none = .ok (.ssel 24 85 16 7, 1) ∧
    decodeScalar 0x11335088 none = .ok (.sbfx 25 84 17 0, 1) ∧
    decodeScalar 0x12354C91 none = .ok (.sbfi 26 83 18 1, 1) ∧
    decodeScalar 0x13FF0000 none = .ok (.spopc 127 64 0, 1) ∧
    decodeScalar 0x14FD0401 none = .ok (.sclz 126 65 1, 1) ∧
    decodeScalar 0x15FB0802 none = .ok (.sctz 125 66 2, 1) ∧
    decodeScalar 0x16F90C03 none = .ok (.smov 124 67 3, 1) ∧
    decodeScalar 0x17B3FE13 none = .ok (.scmp 5 .gen 127 66 3, 1) := by
  decide

theorem test_immediate_words :
    decodeScalar 0x201307FF none = .ok (.saddi 9 65 0x3ff, 1) ∧
    decodeScalar 0x21150BFE none = .ok (.sandi 10 66 0x3fe, 1) ∧
    decodeScalar 0x22170FFD none = .ok (.sori 11 67 0x3fd, 1) ∧
    decodeScalar 0x231913FC none = .ok (.sxori 12 68 0x3fc, 1) ∧
    decodeScalar 0x2413043F none = .ok (.sshli 9 65 63, 1) ∧
    decodeScalar 0x2515083E none = .ok (.sshri 10 66 62, 1) ∧
    decodeScalar 0x26170C3D none = .ok (.ssrai 11 67 61, 1) ∧
    decodeScalar 0x270FFFFB none = .ok (.smovi 7 0x1FFFB, 1) ∧
    decodeScalar 0x28442464 none = .ok (.scmpi 2 .lt 9 100, 1) := by
  decide

theorem test_control_words :
    decodeScalar 0x304FFFFD none = .ok (.sbr 2 false 0xFFFFD, 1) ∧
    decodeScalar 0x31016805 none = .ok (.sjmpr 90 5, 1) ∧
    decodeScalar 0x32712345 none = .ok (.scall 3 true 0x12345, 1) ∧
    decodeScalar 0x33030ABC none = .ok (.sxcall 3 0xABC, 1) ∧
    decodeScalar 0x34000006 none = .ok (.sret 6, 1) ∧
    decodeScalar 0x351203FC none = .ok (.sloop 9 0x3FC, 1) ∧
    decodeScalar 0x36000000 none = .ok (.sexit 0, 1) ∧
    decodeScalar 0x37000000 none = .ok (.syield 0, 1) ∧
    decodeScalar 0x38000007 none = .ok (.snop 7, 1) ∧
    decodeScalar 0x39013404 none = .ok (.sprog 77 4, 1) := by
  decide

theorem test_memory_words :
    decodeScalar 0x40516A00 none = .ok (.sldb 40 90 512, 1) ∧
    decodeScalar 0x41536601 none = .ok (.sldh 41 89 513, 1) ∧
    decodeScalar 0x42556202 none = .ok (.sldw 42 88 514, 1) ∧
    decodeScalar 0x43121410 none = .ok (.sldd 9 5 16, 1) ∧
    decodeScalar 0x44595A04 none = .ok (.sstb 44 86 516, 1) ∧
    decodeScalar 0x455B5605 none = .ok (.ssth 45 85 517, 1) ∧
    decodeScalar 0x465D5206 none = .ok (.sstw 46 84 518, 1) ∧
    decodeScalar 0x475F4E07 none = .ok (.sstd 47 83 519, 1) ∧
    decodeScalar 0x48142C60 (some 0x98000000) = .ok (.satom 10 11 12 0 .package .acqRel, 2) ∧
    decodeScalar 0x498D1E45 (some 0xB0000049) = .ok (.scas 70 71 72 5 .system .release 73, 2) ∧
    decodeScalar 0x4A000012 none = .ok (.sfence .package .rel, 1) := by
  decide

theorem test_lane_run_words :
    decodeScalar 0x50000ABC none = .ok (.lrun 0xABC, 1) ∧
    decodeScalar 0x51018C02 none = .ok (.lrunr 99 2, 1) ∧
    decodeScalar 0x52000000 none = .ok (.lwait 0, 1) ∧
    decodeScalar 0x53120010 none = .ok (.svote 9 2 0, 1) ∧
    decodeScalar 0x54FC10BE none = .ok (.swait 63 1 2 62, 1) := by
  decide

theorem test_engine_words :
    decodeScalar 0x601FF66A none = .ok (.cpy 15 125 77 2, 1) ∧
    decodeScalar 0x610FEE71 none = .ok (.cpyg 7 123 78 true, 1) ∧
    decodeScalar 0x6211F278 none = .ok (.cpyst 8 124 79, 1) ∧
    decodeScalar 0x63A00005 none = .ok (.scwp 80 5, 1) ∧
    decodeScalar 0x64062400 none = .ok (.ovld 3 9, 1) ∧
    decodeScalar 0x65060000 none = .ok (.ovrel 3, 1) ∧
    decodeScalar 0x661C0000 none = .ok (.hwait 14, 1) ∧
    decodeScalar 0x671A03F8 none = .ok (.htest 13 127, 1) ∧
    decodeScalar 0x68180000 none = .ok (.hcancel 12, 1) ∧
    decodeScalar 0x69170800 none = .ok (.hsend 11 66, 1) ∧
    decodeScalar 0x6A150C00 none = .ok (.hrecv 10 67, 1) := by
  decide

theorem test_phaser_words :
    decodeScalar 0x80123002 none = .ok (.phreg 9 12 0 .sig false, 1) ∧
    decodeScalar 0x81018C01 none = .ok (.phdrop 99 true, 1) ∧
    decodeScalar 0x82001C41 none = .ok (.pharr 0 7 8 true, 1) ∧
    decodeScalar 0x83123068 none = .ok (.phaw 9 12 13 false, 1) ∧
    decodeScalar 0x84011A39 none = .ok (.phwt 70 71 true, 1) ∧
    decodeScalar 0x85912401 none = .ok (.phqry 72 73 true, 1) ∧
    decodeScalar 0x86940000 none = .ok (.wsplit 74, 1) ∧
    decodeScalar 0x87012C00 none = .ok (.wret 75, 1) ∧
    decodeScalar 0x88121C41 none = .ok (.phdrain 9 7 8, 1) := by
  decide

theorem test_launch_words :
    decodeScalar 0x90120000 none = .ok (.disp 9, 1) ∧
    decodeScalar 0x91120001 none = .ok (.dlqry 9 true, 1) ∧
    decodeScalar 0x92000000 none = .ok (.wupok, 1) ∧
    decodeScalar 0x93000000 none = .ok (.sndon, 1) ∧
    decodeScalar 0x94000000 none = .ok (.sndoff, 1) := by
  decide

theorem test_activity_words :
    decodeScalar 0xA0125001 none = .ok (.actopen 9 20 true, 1) ∧
    decodeScalar 0xA1000000 none = .ok (.actseal, 1) ∧
    decodeScalar 0xA2000000 none = .ok (.actend, 1) ∧
    decodeScalar 0xA3000000 none = .ok (.actabn, 1) ∧
    decodeScalar 0xA4005400 none = .ok (.actdep 21, 1) ∧
    decodeScalar 0xA5000000 none = .ok (.cmpok, 1) ∧
    decodeScalar 0xA6002400 none = .ok (.cmpfail 9, 1) := by
  decide

theorem test_system_words :
    decodeScalar 0xB0120000 none = .ok (.stime 9 0, 1) ∧
    decodeScalar 0xB19A0003 none = .ok (.scyc 77 3, 1) ∧
    decodeScalar 0xB2120050 none = .ok (.sgetx 9 0x050, 1) ∧
    decodeScalar 0xB3002440 none = .ok (.ssetx 9 0x040, 1) ∧
    decodeScalar 0xB400002A none = .ok (.strap 42, 1) ∧
    decodeScalar 0xB5000001 none = .ok (.stret true, 1) ∧
    decodeScalar 0xB6000000 none = .ok (.sbrk 0, 1) ∧
    decodeScalar 0xFF110000 (some 0x00000007) = .ok (.slit 8 true 7, 2) := by
  decide

theorem test_lane_integer_words_a :
    decodeLane 0x00647D15E3E8010000000000 = .ok (.vadd { g := { inv := true, pg := 2 }, ty := .i32, m := { sat := true, rnd := .rn }, d := 500, a := 700, b := .v 1000 }) ∧
    decodeLane 0x008E7D95F01F450000000000 = .ok (.vsub { g := { inv := false, pg := 7 }, ty := .n32, m := { sat := true, rnd := .rn }, d := 502, a := 702, b := .s 31 }) ∧
    decodeLane 0x00F87E160000950000000012 = .ok (.vmul { g := { inv := true, pg := 12 }, ty := .i16, m := { sat := true, rnd := .rn }, d := 504, a := 704, b := .imm 0x12 }) ∧
    decodeLane 0x01027E9613EE180000000000 = .ok (.vmulh { g := { inv := false, pg := 1 }, ty := .n16, m := { sat := false, rnd := .rn }, d := 506, a := 706, b := .v 1006 }) ∧
    decodeLane 0x016C7F1623F01D0000000840 = .ok (.vmad { g := { inv := true, pg := 6 }, ty := .i8, m := { sat := true, rnd := .rn }, d := 508, a := 708, b := .v 1008, c := .s 64 }) ∧
    decodeLane 0x01967F963000A00000000012 = .ok (.vand { g := { inv := false, pg := 11 }, ty := .n8, m := { sat := false, rnd := .rn }, d := 510, a := 710, b := .imm 0x12 }) ∧
    decodeLane 0x01E0801643F4300000000000 = .ok (.vor { g := { inv := true, pg := 0 }, ty := .i64, m := { sat := false, rnd := .rn }, d := 512, a := 712, b := .v 1012 }) ∧
    decodeLane 0x020A80965025740000000000 = .ok (.vxor { g := { inv := false, pg := 5 }, ty := .n64, m := { sat := false, rnd := .rn }, d := 514, a := 714, b := .s 37 }) ∧
    decodeLane 0x0274813F7000000000000000 = .ok (.vnot { g := { inv := true, pg := 10 }, ty := .i32, m := { sat := false, rnd := .rn }, d := 516, a := 2030 }) ∧
    decodeLane 0x029E819673FA050000000000 = .ok (.vshl { g := { inv := false, pg := 15 }, ty := .n32, m := { sat := true, rnd := .rn }, d := 518, a := 718, b := .v 1018 }) ∧
    decodeLane 0x02E882168028540000000000 = .ok (.vshr { g := { inv := true, pg := 4 }, ty := .i16, m := { sat := false, rnd := .rn }, d := 520, a := 720, b := .s 40 }) ∧
    decodeLane 0x031282969000980000000012 = .ok (.vsra { g := { inv := false, pg := 9 }, ty := .n16, m := { sat := false, rnd := .rn }, d := 522, a := 722, b := .imm 0x12 }) := by
  decide

theorem test_lane_integer_words_b :
    decodeLane 0x037C8316A4001C0000000000 = .ok (.vmin { g := { inv := true, pg := 14 }, ty := .i8, m := { sat := false, rnd := .rn }, d := 524, a := 724, b := .v 1024 }) ∧
    decodeLane 0x03868396B02B600000000000 = .ok (.vmax { g := { inv := false, pg := 3 }, ty := .n8, m := { sat := false, rnd := .rn }, d := 526, a := 726, b := .s 43 }) ∧
    decodeLane 0x03F0843F10001D0000000000 = .ok (.vabs { g := { inv := true, pg := 8 }, ty := .i8, m := { sat := true, rnd := .rn }, d := 528, a := 2018 }) ∧
    decodeLane 0x041A84BF0000350000000000 = .ok (.vneg { g := { inv := false, pg := 13 }, ty := .n64, m := { sat := true, rnd := .rn }, d := 530, a := 2016 }) ∧
    decodeLane 0x0464853EF000000000000000 = .ok (.vclz { g := { inv := true, pg := 2 }, ty := .i32, m := { sat := false, rnd := .rn }, d := 532, a := 2014 }) ∧
    decodeLane 0x048E85BEE000040000000000 = .ok (.vpopc { g := { inv := false, pg := 7 }, ty := .n32, m := { sat := false, rnd := .rn }, d := 534, a := 2012 }) ∧
    decodeLane 0x04F88617040C140000000000 = .ok (.vbfx { g := { inv := true, pg := 12 }, ty := .i16, m := { sat := false, rnd := .rn }, d := 536, a := 736, b := .v 1036 }) ∧
    decodeLane 0x050286971031580000000000 = .ok (.vbfi { g := { inv := false, pg := 1 }, ty := .n16, m := { sat := false, rnd := .rn }, d := 538, a := 738, b := .s 49 }) ∧
    decodeLane 0x056C873EB0001C0000000000 = .ok (.vbrev { g := { inv := true, pg := 6 }, ty := .i8, m := { sat := false, rnd := .rn }, d := 540, a := 2006 }) ∧
    decodeLane 0x059687973033610000000606 = .ok (.vaddmin { g := { inv := false, pg := 11 }, ty := .n8, m := { sat := true, rnd := .rn }, d := 542, a := 742, b := .s 51, c := .v 1542 }) ∧
    decodeLane 0x05E088174414310000000852 = .ok (.vaddmax { g := { inv := true, pg := 0 }, ty := .i64, m := { sat := true, rnd := .rn }, d := 544, a := 744, b := .v 1044, c := .s 82 }) := by
  decide

theorem test_lane_float_words_a :
    decodeLane 0x20247D15E3E8094000000000 = .ok (.vfadd { g := { inv := true, pg := 2 }, ty := .f32, m := { sat := true, rnd := .rz }, d := 500, a := 700, b := .v 1000 }) ∧
    decodeLane 0x204E7D95F01F4D8000000000 = .ok (.vfsub { g := { inv := false, pg := 7 }, ty := .f16, m := { sat := true, rnd := .ru }, d := 502, a := 702, b := .s 31 }) ∧
    decodeLane 0x20B87E16000091C000000012 = .ok (.vfmul { g := { inv := true, pg := 12 }, ty := .bf16, m := { sat := true, rnd := .rd }, d := 504, a := 704, b := .imm 0x12 }) ∧
    decodeLane 0x20C27E9610214900000005E2 = .ok (.vfma { g := { inv := false, pg := 1 }, ty := .f32, m := { sat := true, rnd := .rn }, d := 506, a := 706, b := .s 33, c := .v 1506 }) ∧
    decodeLane 0x212C7F1620224C0000000000 = .ok (.vfmin { g := { inv := true, pg := 6 }, ty := .f16, m := { sat := false, rnd := .rn }, d := 508, a := 708, b := .s 34 }) ∧
    decodeLane 0x21567F963000900000000012 = .ok (.vfmax { g := { inv := false, pg := 11 }, ty := .bf16, m := { sat := false, rnd := .rn }, d := 510, a := 710, b := .imm 0x12 }) ∧
    decodeLane 0x21A0803F9000080000000000 = .ok (.vfabs { g := { inv := true, pg := 0 }, ty := .f32, m := { sat := false, rnd := .rn }, d := 512, a := 2034 }) ∧
    decodeLane 0x21CA80BF80000C0000000000 = .ok (.vfneg { g := { inv := false, pg := 5 }, ty := .f16, m := { sat := false, rnd := .rn }, d := 514, a := 2032 }) ∧
    decodeLane 0x2234813F7000114000000000 = .ok (.vfrcp { g := { inv := true, pg := 10 }, ty := .bf16, m := { sat := true, rnd := .rz }, d := 516, a := 2030 }) ∧
    decodeLane 0x225E81BF6000098000000000 = .ok (.vfrsq { g := { inv := false, pg := 15 }, ty := .f32, m := { sat := true, rnd := .ru }, d := 518, a := 2028 }) ∧
    decodeLane 0x22A8823F50000DC000000000 = .ok (.vfsqrt { g := { inv := true, pg := 4 }, ty := .f16, m := { sat := true, rnd := .rd }, d := 520, a := 2026 }) ∧
    decodeLane 0x22D282BF4000110000000000 = .ok (.vfex2 { g := { inv := false, pg := 9 }, ty := .bf16, m := { sat := true, rnd := .rn }, d := 522, a := 2024 }) := by
  decide

theorem test_lane_float_words_b :
    decodeLane 0x233C833F3000094000000000 = .ok (.vflg2 { g := { inv := true, pg := 14 }, ty := .f32, m := { sat := true, rnd := .rz }, d := 524, a := 2022 }) ∧
    decodeLane 0x234683BF20000D8000000000 = .ok (.vfsin { g := { inv := false, pg := 3 }, ty := .f16, m := { sat := true, rnd := .ru }, d := 526, a := 2020 }) ∧
    decodeLane 0x23B0843F100011C000000000 = .ok (.vfcos { g := { inv := true, pg := 8 }, ty := .bf16, m := { sat := true, rnd := .rd }, d := 528, a := 2018 }) ∧
    decodeLane 0x23DA8496D406090000000000 = .ok (.vfdiv { g := { inv := false, pg := 13 }, ty := .f32, m := { sat := true, rnd := .rn }, d := 530, a := 730, b := .v 1030 }) ∧
    decodeLane 0x2424853EF0000C4000000000 = .ok (.vfrnd { g := { inv := true, pg := 2 }, ty := .f16, m := { sat := false, rnd := .rz }, d := 532, a := 2014 }) ∧
    decodeLane 0x244E85BEE000100000000000 = .ok (.vfcls { g := { inv := false, pg := 7 }, ty := .bf16, m := { sat := false, rnd := .rn }, d := 534, a := 2012 }) ∧
    decodeLane 0x24B88617040C09C000000000 = .ok (.vfscl { g := { inv := true, pg := 12 }, ty := .f32, m := { sat := true, rnd := .rd }, d := 536, a := 736, b := .v 1036 }) := by
  decide

theorem test_lane_convert_words_a :
    decodeLane 0x40333491B800114200000000 = .ok (.vcvt { g := { inv := true, pg := 9 }, dst := .bf16, src := .f32, m := { sat := true, rnd := .rz }, d := 1234, a := 567 }) ∧
    decodeLane 0x405134D1C0001D0000000000 = .ok (.vpack { g := { inv := false, pg := 8 }, dst := .i8, src := .i32, m := { sat := true, rnd := .rn }, d := 1235, a := 568 }) ∧
    decodeLane 0x408F3511C800080900000000 = .ok (.vunpk { g := { inv := false, pg := 7 }, dst := .f32, src := .e4m3, m := { sat := false, rnd := .rn }, d := 1236, a := 569 }) ∧
    decodeLane 0x40EC0151D063442900000000 = .ok (.vcmp { g := { inv := true, pg := 6 }, ty := .n32, rel := .gen, comb := .or, pd := 5, a := 570, b := .s 99 }) ∧
    decodeLane 0x410000C02005001200000000 = .ok (.vsel { g := { inv := false, pg := 0 }, ty := .i32, d := 3, a := 4, b := .v 5, q := 2, inv := true }) ∧
    decodeLane 0x415403C03803000000000000 = .ok (.vpand { g := { inv := false, pg := 10 }, pd := 15, pa := 7, pb := 3 }) ∧
    decodeLane 0x41B603804004000000000000 = .ok (.vpor { g := { inv := true, pg := 11 }, pd := 14, pa := 8, pb := 4 }) ∧
    decodeLane 0x41D803404805000000000000 = .ok (.vpxor { g := { inv := false, pg := 12 }, pd := 13, pa := 9, pb := 5 }) ∧
    decodeLane 0x422803806800000000000000 = .ok (.vpnot { inv := true, pg := 4 } 14 13) ∧
    decodeLane 0x424B3500004D700000000000 = .ok (.vmov { inv := false, pg := 5 } .i64 1236 (.s 77)) ∧
    decodeLane 0x42A535400000900000003F80 = .ok (.vmovi { inv := true, pg := 2 } .bf16 1237 0x3F80) ∧
    decodeLane 0x42DFFFC00000000000000000 = .ok (.vlaneid { inv := false, pg := 15 } 2047) := by
  decide

theorem test_lane_convert_words_b :
    decodeLane 0x432335805800000000000000 = .ok (.vp2v { inv := true, pg := 1 } 1238 11) ∧
    decodeLane 0x43460326B800000000000000 = .ok (.vv2p { inv := false, pg := 3 } 12 1239) := by
  decide

theorem test_lane_memory_words_a :
    decodeLane 0x5027772EE8634810FFFFFFF0 = .ok (.vld { g := { inv := true, pg := 3 }, ty := .f32, d := 1500, mode := .indexed 99 1501, off := 0xfffffff0 }) ∧
    decodeLane 0x504977AF0000342000000008 = .ok (.vst { g := { inv := false, pg := 4 }, ty := .n64, d := 1502, mode := .pointer 1504, off := 0x8 }) ∧
    decodeLane 0x50C001400006400000000100 = .ok (.vsts { g := { inv := false, pg := 0 }, ty := .i32, d := 5, mode := .contig 6, off := 0x100 }) ∧
    decodeLane 0x5085786F18001C2000000004 = .ok (.vlds { g := { inv := false, pg := 2 }, ty := .i8, d := 1505, mode := .pointer 1507, off := 0x4 }) ∧
    decodeLane 0x512B78800062400000000020 = .ok (.vldsf { g := { inv := true, pg := 5 }, ty := .i32, d := 1506, mode := .contig 98, off := 0x20 }) ∧
    decodeLane 0x514D78EF2061441000000024 = .ok (.vstsf { g := { inv := false, pg := 6 }, ty := .n32, d := 1507, mode := .indexed 97 1508, off := 0x24 }) ∧
    decodeLane 0x51AF792F2800082000000028 = .ok (.vldsp { g := { inv := true, pg := 7 }, ty := .f32, d := 1508, mode := .pointer 1509, off := 0x28 }) ∧
    decodeLane 0x51D1798000604806B80005E7 = .ok (.vatom { g := { inv := false, pg := 8 }, ty := .f32, kind := .exch, d := 1510, mode := .contig 96, scope := .system, order := .acqRel, c := .v 1511 }) ∧
    decodeLane 0x5232002F405F44149000085E = .ok (.vatoms { g := { inv := true, pg := 9 }, ty := .n32, kind := .min, d := 0, mode := .indexed 95 1512, scope := .package, order := .release, c := .s 94 }) ∧
    decodeLane 0x52557AAF60003020480005EE = .ok (.vcas { g := { inv := false, pg := 10 }, ty := .i64, kind := .add, d := 1514, mode := .pointer 1516, scope := .cluster, order := .acquire, c := .v 1518 }) ∧
    decodeLane 0x52960000005D400000000040 = .ok (.vprf { g := { inv := false, pg := 11 }, ty := .i32, d := 0, mode := .contig 93, off := 0x40 }) ∧
    decodeLane 0x52F97C00005C640000000044 = .ok (.vldx { g := { inv := true, pg := 12 }, ty := .e4m3, d := 1520, mode := .contig 92, off := 0x44 }) := by
  decide

theorem test_lane_memory_words_b :
    decodeLane 0x531B7C6F905B581000000048 = .ok (.vstx { g := { inv := false, pg := 13 }, ty := .n16, d := 1521, mode := .indexed 91 1522, off := 0x48 }) := by
  decide

theorem test_lane_exchange_words :
    decodeLane 0x70029612C800800200000011 = .ok (.vshup { g := { inv := false, pg := 1 }, ty := .i32, d := 600, a := 601, count := .imm 0x11, fill := .rot }) ∧
    decodeLane 0x70649692E05A74030000025E = .ok (.vshdn { g := { inv := true, pg := 2 }, ty := .n64, d := 602, a := 604, count := .s 90, fill := .c (.v 606) }) ∧
    decodeLane 0x708696D2EA5F0C0000000000 = .ok (.vperm { g := { inv := false, pg := 3 }, ty := .f16, d := 603, a := 605, b := .v 607 }) ∧
    decodeLane 0x70E8981308009C00000000FF = .ok (.vbcast { g := { inv := true, pg := 4 }, ty := .i8, d := 608, a := 609, b := .imm 0xFF }) ∧
    decodeLane 0x710A98931800150000000000 = .ok (.vred { g := { inv := false, pg := 5 }, ty := .i16, sat := true, kind := .add, ex := false, d := 610, a := 611 }) ∧
    decodeLane 0x716C99132800040D00000000 = .ok (.vscan { g := { inv := true, pg := 6 }, ty := .n32, sat := false, kind := .xor, ex := true, d := 612, a := 613 }) ∧
    decodeLane 0x718E02405000000200000000 = .ok (.vvote { inv := false, pg := 7 } .all 9 10) ∧
    decodeLane 0x71F002C00000000000000000 = .ok (.velect { inv := true, pg := 8 } 11) := by
  decide

theorem test_tile_words :
    decodeLane 0x800000C14014400000000815 = .ok (.mma { g := { inv := false, pg := 0 }, tile := 3, fw := 40, sa := 20, sb := 21 }) ∧
    decodeLane 0x80720FDF407E40000000087F = .ok (.mmas { g := { inv := true, pg := 9 }, tile := 63, fw := 1000, sa := 126, sb := 127 }) ∧
    decodeLane 0x80840F800000000000000000 = .ok (.mzero { inv := false, pg := 2 } 62) ∧
    decodeLane 0x80C000C0001851460000081A = .ok (.mepi { g := { inv := false, pg := 0 }, tile := 3, ty := .bf16, m := { sat := true, rnd := .rz }, glob := false, add := false, act := .relu, sb := true, int := false, base := 24, par := 26 }) ∧
    decodeLane 0x80C001C00018483100000000 = .ok (.mepi { g := { inv := false, pg := 0 }, tile := 7, ty := .f32, m := { sat := false, rnd := .rn }, glob := true, add := true, act := .none, sb := false, int := true, base := 24, par := 0 }) ∧
    decodeLane 0x810002001800000500000000 = .ok (.mtrd { inv := false, pg := 0 } 8 3 5) ∧
    decodeLane 0x81660780000A6C010000080C = .ok (.vdist { g := { inv := true, pg := 3 }, ty := .gd8, l2 := true, d := 30, q := 10, c := 12 }) ∧
    decodeLane 0x81880000A01508000000080E = .ok (.topk { inv := false, pg := 4 } 20 21 14) ∧
    decodeLane 0x81EA0000000F40000000080E = .ok (.topkm { inv := true, pg := 5 } 14 15) := by
  decide

theorem test_lane_control_words :
    decodeLane 0x900400000000000000080007 = .ok (.lbr { inv := false, pg := 2 } 7 8) ∧
    decodeLane 0x904000000000000000000ABC = .ok (.ljmp 0xABC) ∧
    decodeLane 0x908000000000000000000000 = .ok (.lrec) ∧
    decodeLane 0x90E600000000000000000000 = .ok (.lexit { inv := true, pg := 3 }) ∧
    decodeLane 0x910000000000000000000000 = .ok (.lend) ∧
    decodeLane 0x914000000000000000000DEF = .ok (.lcall 0xDEF) ∧
    decodeLane 0x918000000000000000000000 = .ok (.lret) ∧
    decodeLane 0x91C000000000000000000000 = .ok (.lpack) ∧
    decodeLane 0x920000000000000000FC10BE = .ok (.lwaitc 63 1 2 62) ∧
    decodeLane 0x924000000000000000000000 = .ok (.lnop) ∧
    decodeLane 0x928600000000000000000007 = .ok (.ltrap { inv := false, pg := 3 } 7) := by
  decide

set_option maxRecDepth 4000 in
set_option exponentiation.threshold 600 in
theorem test_packet_words :
    decodePacket 0x00000000000000000000000000000000000000000000000000000000000000000000000000000000000000000000000000000000000000001122334400000100 = .ok (.nop { urgent := true, after := false, tag := 0x11223344, issue := 0x0 }) ∧
    decodePacket 0x00000000000000000000000000000000000000000000000000000000000000000000000000002010000000000000100000000001234567890000000500000201 = .ok (.launch { urgent := false, after := true, tag := 0x5, issue := 0x123456789 } { desc := 0x1000, bitmap := 0x2010 }) ∧
    decodePacket 0x00000000000000000000000000000000000000000000302000000000000000990000000000002010000000000000100000000000000000070000000600000002 = .ok (.launchActivity { urgent := false, after := false, tag := 0x6, issue := 0x7 } { desc := 0x1000, bitmap := 0x2010 } 0x99 0x3020) ∧
    decodePacket 0x00000000000000000000000000000000000000000000000000000100000000000000000000002222000000000000111100000000000000000000000700000003 = .ok (.copy { urgent := false, after := false, tag := 0x7, issue := 0x0 } 0x1111 0x2222 0x10000000000) ∧
    decodePacket 0x00000000000000000000000000000000000000000000000000000000000000010000000000000055000000000000400800000000000000000000000800000304 = .ok (.signal { urgent := true, after := true, tag := 0x8, issue := 0x0 } 0x4008 0x55 true) ∧
    decodePacket 0x00000000000000000000000000000077000000000000000900000000000000FF0000000000000066000000000000401000000000000000000000000900000005 = .ok (.waitWord { urgent := false, after := false, tag := 0x9, issue := 0x0 } { addr := 0x4010, value := 0x66, mask := 0xFF, rel := .gen, timeout := 0x77 }) ∧
    decodePacket 0x00000000000000000000000000000000000000000000000000000000000000000000000000000001000000000000540000000000000000000000000A00000006 = .ok (.rangeCommit { urgent := false, after := false, tag := 0xa, issue := 0x0 } 0x5400 true) ∧
    decodePacket 0x000000000000000000000000000000000000000000000000000000000000000000000000001F0020000000000000600000000000000000000000000B00000007 = .ok (.preloadOverlay { urgent := false, after := false, tag := 0xb, issue := 0x0 } 0x6000 0x20 0x1F) ∧
    decodePacket 0x00000000000000000000000000000000000000000000000000000000000000000000000000003040000000000000009800000000000000000000000C00000008 = .ok (.activityResume { urgent := false, after := false, tag := 0xc, issue := 0x0 } 0x98 0x3040) ∧
    decodePacket 0x00000000000000000000000000000000000000000000000000000000000000000000000000003060000000000000009700000000000000000000000D00000009 = .ok (.activityDiscard { urgent := false, after := false, tag := 0xd, issue := 0x0 } 0x97 0x3060) ∧
    decodePacket 0x0000000000000000000000000000000000000000000000000000000000000000000000000000000000000000000000F000000000000000000000000E0000000A = .ok (.queueBarrier { urgent := false, after := false, tag := 0xe, issue := 0x0 } 0xF0) := by
  decide

/-! ### Ill-formed terms: one for each check of `Instr.wf` -/

/-- No guard, type t, no modifier: the terms below change one thing each. -/
abbrev bin (t : Ty) (d a : VReg) (b : Opnd) : Bin := { g := ⟨false, 0⟩, ty := t, m := ⟨false, .rn⟩, d := d, a := a, b := b }
abbrev un (t : Ty) (d a : VReg) : Un := { g := ⟨false, 0⟩, ty := t, m := ⟨false, .rn⟩, d := d, a := a }
abbrev ter (t : Ty) (d a : VReg) (b c : Opnd) : Ter :=
  { g := ⟨false, 0⟩, ty := t, m := ⟨false, .rn⟩, d := d, a := a, b := b, c := c }
abbrev cvt (dst src : Ty) (m : Modf) (d a : VReg) : Cvt := { g := ⟨false, 0⟩, dst := dst, src := src, m := m, d := d, a := a }
abbrev ml (t : Ty) (d : VReg) (m : AMode) : MemL := { g := ⟨false, 0⟩, ty := t, d := d, mode := m, off := 0 }
abbrev al (t : Ty) (k : AKind) (d : VReg) (m : AMode) (c : Opnd) : AtomL :=
  { g := ⟨false, 0⟩, ty := t, kind := k, d := d, mode := m, scope := .die, order := .relaxed, c := c }
abbrev rl (t : Ty) (sat : Bool) (k : RKind) (ex : Bool) : RedL :=
  { g := ⟨false, 0⟩, ty := t, sat := sat, kind := k, ex := ex, d := 2, a := 4 }
abbrev mep (t : Ty) (m : Modf) (add : Bool) (base par : SReg) : MepiL :=
  { g := ⟨false, 0⟩, tile := 0, ty := t, m := m, glob := false, add := add, act := .none, sb := false, int := false,
    base := base, par := par }

theorem test_illformed_scalar :
    (Instr.scmp 0 .ord 1 2 0).wf = false ∧ (Instr.scmpi 0 .unord 1 2).wf = false ∧ (Instr.cpy 0 126 1 0).wf = false ∧
    (Instr.cpyg 0 124 1 true).wf = false ∧ (Instr.cpyst 0 125 1).wf = false ∧ (Instr.actopen 1 124 false).wf = false ∧
    (Instr.waitWord ⟨false, false, 0, 0⟩ ⟨0, 0, 0, .ord, 0⟩).wf = false := by
  decide

theorem test_illformed_integer :
    (Instr.vadd (bin .f32 1 2 (.v 3))).wf = false ∧ (Instr.vadd { bin .i32 1 2 (.v 3) with m := ⟨false, .rz⟩ }).wf = false ∧
    (Instr.vand { bin .i32 1 2 (.v 3) with m := ⟨true, .rn⟩ }).wf = false ∧ (Instr.vadd (bin .i64 1 2 (.v 4))).wf = false ∧
    (Instr.vadd (bin .i64 2 3 (.v 4))).wf = false ∧ (Instr.vadd (bin .n64 2 4 (.v 5))).wf = false ∧
    (Instr.vadd (bin .i8 1 2 (.imm 0x80))).wf = false ∧ (Instr.vadd (bin .n8 1 2 (.imm 0x100))).wf = false ∧
    (Instr.vadd (bin .i16 1 2 (.imm 0x8000))).wf = false ∧ (Instr.vadd (bin .n16 1 2 (.imm 0x10000))).wf = false ∧
    (Instr.vabs (un .n32 1 2)).wf = false ∧ (Instr.vnot (un .f16 1 2)).wf = false ∧
    (Instr.vnot { un .i32 1 2 with m := ⟨true, .rn⟩ }).wf = false ∧ (Instr.vmad (ter .i32 1 2 (.imm 3) (.v 4))).wf = false ∧
    (Instr.vmad (ter .i32 1 2 (.v 3) (.imm 4))).wf = false ∧ (Instr.vmad (ter .f32 1 2 (.v 3) (.v 4))).wf = false ∧
    (Instr.vaddmin (ter .e4m3 1 2 (.v 3) (.v 4))).wf = false ∧
    (Instr.vshr { bin .i32 1 2 (.v 3) with m := ⟨true, .rn⟩ }).wf = false := by
  decide

theorem test_illformed_float :
    (Instr.vfadd (bin .i32 1 2 (.v 3))).wf = false ∧ (Instr.vfadd (bin .e4m3 1 2 (.v 3))).wf = false ∧
    (Instr.vfmin { bin .f32 1 2 (.v 3) with m := ⟨false, .ru⟩ }).wf = false ∧
    (Instr.vfmax { bin .f32 1 2 (.v 3) with m := ⟨true, .rn⟩ }).wf = false ∧
    (Instr.vfadd (bin .bf16 1 2 (.imm 0x3F800000))).wf = false ∧ (Instr.vfma (ter .i32 1 2 (.v 3) (.v 4))).wf = false ∧
    (Instr.vfrnd { un .f32 1 2 with m := ⟨true, .rn⟩ }).wf = false ∧ (Instr.vfrcp (un .i32 1 2)).wf = false ∧
    (Instr.vfcls { un .f32 1 2 with m := ⟨false, .rd⟩ }).wf = false ∧ (Instr.vfscl (bin .i32 1 2 (.v 3))).wf = false := by
  decide

theorem test_illformed_conversion :
    (Instr.vcvt (cvt .i32 .i16 ⟨false, .rz⟩ 1 2)).wf = false ∧ (Instr.vcvt (cvt .gd8 .f32 ⟨false, .rd⟩ 1 2)).wf = false ∧
    (Instr.vcvt (cvt .i64 .f32 ⟨false, .rn⟩ 1 2)).wf = false ∧ (Instr.vcvt (cvt .f32 .n64 ⟨false, .rn⟩ 2 1)).wf = false ∧
    (Instr.vpack (cvt .i32 .f32 ⟨false, .rn⟩ 1 2)).wf = false ∧ (Instr.vpack (cvt .i8 .i16 ⟨false, .rn⟩ 1 2)).wf = false ∧
    (Instr.vunpk (cvt .f16 .i8 ⟨false, .rn⟩ 1 2)).wf = false ∧
    (Instr.vcmp { g := ⟨false, 0⟩, ty := .i32, rel := .ord, comb := .set, pd := 1, a := 2, b := .v 3 }).wf = false ∧
    (Instr.vcmp { g := ⟨false, 0⟩, ty := .f32, rel := .ltn, comb := .set, pd := 1, a := 2, b := .v 3 }).wf = false ∧
    (Instr.vcmp { g := ⟨false, 0⟩, ty := .i64, rel := .lt, comb := .set, pd := 1, a := 3, b := .v 4 }).wf = false ∧
    (Instr.vsel { g := ⟨false, 0⟩, ty := .i64, d := 3, a := 4, b := .v 6, q := 1, inv := false }).wf = false ∧
    (Instr.vmov ⟨false, 0⟩ .i32 1 (.imm 5)).wf = false ∧ (Instr.vmovi ⟨false, 0⟩ .n8 1 0x100).wf = false := by
  decide

theorem test_illformed_lane_memory :
    (Instr.vld (ml .i64 3 (.contig 5))).wf = false ∧ (Instr.vst (ml .i32 3 (.pointer 5))).wf = false ∧
    (Instr.vlds (ml .n64 3 (.contig 5))).wf = false ∧ (Instr.vldsf (ml .i16 3 (.contig 5))).wf = false ∧
    (Instr.vprf (ml .i32 3 (.contig 5))).wf = false ∧ (Instr.vatom (al .i16 .add 2 (.contig 5) (.v 4))).wf = false ∧
    (Instr.vatom (al .f32 .and 2 (.contig 5) (.v 4))).wf = false ∧ (Instr.vatom (al .i32 .add 2 (.pointer 5) (.v 4))).wf = false ∧
    (Instr.vatom (al .i32 .add 2 (.contig 5) (.imm 4))).wf = false ∧
    (Instr.vatoms (al .i32 .add 2 (.contig 5) (.v 4))).wf = false ∧
    (Instr.vcas (al .f32 .add 2 (.contig 5) (.v 4))).wf = false ∧ (Instr.vcas (al .i32 .or 2 (.contig 5) (.v 4))).wf = false := by
  decide

theorem test_illformed_exchange :
    (Instr.vshup { g := ⟨false, 0⟩, ty := .i32, d := 1, a := 2, count := .v 3, fill := .zero }).wf = false ∧
    (Instr.vshdn { g := ⟨false, 0⟩, ty := .i32, d := 1, a := 2, count := .imm 3, fill := .c (.v 4) }).wf = false ∧
    (Instr.vshup { g := ⟨false, 0⟩, ty := .i32, d := 1, a := 2, count := .s 3, fill := .c (.imm 4) }).wf = false ∧
    (Instr.vperm { g := ⟨false, 0⟩, ty := .i64, d := 1, a := 2, b := .v 3 }).wf = false ∧
    (Instr.vbcast { g := ⟨false, 0⟩, ty := .i32, d := 1, a := 2, b := .v 3 }).wf = false ∧
    (Instr.vred (rl .f16 false .add false)).wf = false ∧ (Instr.vred (rl .f32 false .xor false)).wf = false ∧
    (Instr.vred (rl .i32 true .min false)).wf = false ∧ (Instr.vred (rl .f32 true .add false)).wf = false ∧
    (Instr.vred (rl .i32 false .add true)).wf = false ∧ (Instr.vscan (rl .e5m2 false .max false)).wf = false ∧
    (Instr.vvote ⟨false, 0⟩ .ballot 1 2).wf = false := by
  decide

theorem test_illformed_tile :
    (Instr.mepi (mep .i64 ⟨false, .rn⟩ false 24 0)).wf = false ∧ (Instr.mepi (mep .f32 ⟨false, .rn⟩ false 127 0)).wf = false ∧
    (Instr.mepi (mep .bf16 ⟨false, .rn⟩ true 24 0)).wf = false ∧ (Instr.mepi (mep .f32 ⟨false, .rz⟩ true 24 0)).wf = false ∧
    (Instr.mepi (mep .f32 ⟨false, .rn⟩ false 24 26)).wf = false ∧
    (Instr.vdist { g := ⟨false, 0⟩, ty := .f32, l2 := false, d := 1, q := 2, c := 3 }).wf = false ∧
    (Instr.vdist { g := ⟨false, 0⟩, ty := .bf16, l2 := false, d := 1, q := 127, c := 3 }).wf = false := by
  decide

/-- Words that break a rule are refused by name: an unassigned code, a nonzero reserved field, a handle above 15, a
missing second word, an odd pair (R16, R43, R67, R68). -/
theorem test_illegal_words :
    decodeScalar 0x18000000 none = .error .unassigned ∧ decodeScalar 0x36020000 none = .error .reserved ∧
    decodeScalar 0x64202400 none = .error .reserved ∧ decodeScalar 0xFF110001 (some 7) = .error .reserved ∧
    decodeScalar 0x48142C60 none = .error .truncated ∧ decodeLane 0x908000000000000000000001 = .error .reserved := by
  decide


/-! ### The scalar stream -/

theorem witness_RegistersReadAfterWrite :
    G4 sc fun G => (G.ws 9 7).rs 9 = 7 ∧ (G.ws 0 7).rs 0 = 0 ∧ (G.wc 2 true).rc 2 = true ∧ (G.wc 0 false).rc 0 = true ∧
      (G.wp 3 5).rp 3 = 5 ∧ (G.wp 0 5).rp 0 = Mask.all ∧ lane ((G.wvMask 2 1 fun _ => 9).rv 2) 0 = 9 ∧
      lane ((G.wvMask 2 1 fun _ => 9).rv 2) 1 = 0 := by
  decide

theorem witness_ScalarArithmetic :
    G4 (xy 5 7) fun G => Scalar (xy 5 7) 4 G ∧ Holds G 0 ∧ ¬ Holds G 2 ∧
      scalarRel .ltn (G.rs 5) (G.rs 6) = some true ∧ scalarRel .ge (G.rs 5) (BitVec.ofInt 64 (0x200 : BitVec 10).toInt) = some true := by
  decide

theorem test_register_arithmetic :
    s9 (.sadd 9 5 6 0) 0xFFFFFFFFFFFFFFFF 2 1 ∧ s9 (.ssub 9 5 6 0) 2 3 0xFFFFFFFFFFFFFFFF ∧
    s9 (.smul 9 5 6 0) 0x100000001 0x100000001 0x200000001 ∧ s9 (.smulh 9 5 6 0) 0xFFFFFFFFFFFFFFFF 2 0xFFFFFFFFFFFFFFFF ∧
    s9 (.smulhn 9 5 6 0) 0xFFFFFFFFFFFFFFFF 2 1 ∧ s9 (.sand 9 5 6 0) 0xC 0xA 8 ∧ s9 (.sor 9 5 6 0) 0xC 0xA 0xE ∧
    s9 (.sxor 9 5 6 0) 0xC 0xA 6 ∧ s9 (.sshl 9 5 6 0) 1 65 2 ∧ s9 (.sshr 9 5 6 0) 0x8000000000000000 63 1 ∧
    s9 (.ssra 9 5 6 0) 0x8000000000000000 63 0xFFFFFFFFFFFFFFFF ∧ s9 (.smin 9 5 6 0) 0xFFFFFFFFFFFFFFFF 1 0xFFFFFFFFFFFFFFFF ∧
    s9 (.smax 9 5 6 0) 0xFFFFFFFFFFFFFFFF 1 1 ∧ s9 (.sminn 9 5 6 0) 0xFFFFFFFFFFFFFFFF 1 1 ∧
    s9 (.smaxn 9 5 6 0) 0xFFFFFFFFFFFFFFFF 1 0xFFFFFFFFFFFFFFFF ∧ s9 (.ssel 9 5 6 0) 3 4 4 ∧
    s9 (.sbfx 9 5 6 0) 0xABCD 0x804 0xBC ∧ s9 (.sbfi 9 5 6 0) 0xFFF 0x804 0xFF0 ∧ s9 (.spopc 9 5 0) 0xF0F 0 8 ∧
    s9 (.sclz 9 5 0) 0 0 64 ∧ s9 (.sctz 9 5 0) 8 0 3 ∧ s9 (.smov 9 5 0) 42 0 42 ∧ s9 (.sadd 9 5 6 2) 1 2 0 := by
  decide

theorem test_immediates_and_compares :
    s9 (.saddi 9 5 0x3FF) 0 0 0xFFFFFFFFFFFFFFFF ∧ s9 (.sandi 9 5 0x200) 0xFFFF 0 0xFE00 ∧ s9 (.sori 9 5 0x200) 1 0 0xFFFFFFFFFFFFFE01 ∧
    s9 (.sxori 9 5 0x1FF) 0xF0 0 0x10F ∧ s9 (.sshli 9 5 63) 3 0 0x8000000000000000 ∧ s9 (.sshri 9 5 1) 0x8000000000000000 0 0x4000000000000000 ∧
    s9 (.ssrai 9 5 1) 0x8000000000000000 0 0xC000000000000000 ∧ s9 (.smovi 9 0x1FFFB) 0 0 0xFFFFFFFFFFFFFFFB ∧
    after (.slit 9 false 0x80000000) (scg (·.ws 9 1)) (fun G => G.rs 9 == 0xFFFFFFFF80000000 && G.pc == 2) ∧
    after (.slit 9 true 7) (scg (·.ws 9 0x1234567800000001)) (fun G => G.rs 9 == 0x700000001) ∧
    after (.scmp 2 .lt 5 6 0) (xy 0xFFFFFFFFFFFFFFFF 1) (·.rc 2) ∧ after (.scmp 2 .ltn 5 6 0) (xy 0xFFFFFFFFFFFFFFFF 1) (!·.rc 2) ∧
    after (.scmpi 2 .eq 5 0x3FF) (xy 0xFFFFFFFFFFFFFFFF 1) (·.rc 2) := by
  decide

theorem witness_ScalarBranches :
    G4 (bigg fun G => { (G.ws 9 2).ws 5 99 with pc := 10 }) (fun G =>
      Scalar (bigg fun G => { (G.ws 9 2).ws 5 99 with pc := 10 }) 4 G ∧ Taken G 0 false ∧ ¬ Taken G 0 true ∧ ¬ Taken G 2 false ∧
      InScalar big G (G.pc + (89 : BitVec 20).toInt) ∧ InScalar big G (G.pc + (0xFFFF6 : BitVec 20).toInt) ∧ G.calls.length < 32 ∧
      (G.rs 5).toNat < 4096 ∧ (G.rs 5).toNat < scalarLen big G ∧ ¬ Holds G 2 ∧ InScalar big G (G.pc + (0x3F6 : BitVec 10).toInt) ∧
      G.rs 9 ≠ 1) ∧
    G4 (bigg fun G => { G.ws 9 1 with pc := 10 }) (fun G => G.rs 9 = 1 ∧ InScalar big G (G.pc + (0x3F6 : BitVec 10).toInt)) := by
  decide

theorem witness_ScalarBranchTraps :
    G4 (bigg fun G => (G.ws 5 100)) (fun G => Scalar (bigg fun G => (G.ws 5 100)) 4 G ∧ ¬ InScalar big G (G.pc + (100 : BitVec 20).toInt) ∧
      ¬ InScalar big G (G.pc + (0x3FF : BitVec 10).toInt) ∧ Holds G 0 ∧ ¬ ((G.rs 5).toNat < 4096 ∧ (G.rs 5).toNat < scalarLen big G) ∧
      G.calls = [] ∧ G.wait = .none) ∧
    G4 (bigg fun G => { G with calls := List.replicate 32 (0, 0) }) (fun G => Taken G 0 false ∧ 32 ≤ G.calls.length) := by
  decide

theorem witness_CallsAcrossOverlays :
    G4 two (fun G => Scalar two 4 G ∧ G.wait = .none ∧ (∃ e ∈ (two.table G)[1]?, 99 < e.s) ∧ G.calls.length < 32 ∧ canEnter two G 1 9 ∧
      Holds G 0 ∧ ¬ Holds G 2) ∧
    G4 (two.modGrp 4 fun G => { G with calls := [(0, 5)] }) (fun G => G.calls = [(0, 5)] ∧ 0 = G.ov) ∧
    G4 (two.modGrp 4 fun G => { G with calls := [(1, 5)] }) (fun G => G.calls = [(1, 5)] ∧ 1 ≠ G.ov ∧ G.wait = .none ∧
      canEnter (two.modGrp 4 fun G => { G with calls := [(1, 5)] }) G 1 9) := by
  decide

theorem test_branches_and_calls :
    after (.sbr 0 false 0xFFFFD) (bigg fun G => { G with pc := 10 }) (·.pc == 7) ∧ after (.sbr 0 true 5) big (·.pc == 1) ∧
    after (.scall 0 false 5) big (fun G => G.pc == 5 && G.calls == [(0, 1)]) ∧ after (.sjmpr 5 0) (bigg (·.ws 5 99)) (·.pc == 99) ∧
    after (.sloop 9 0x3FD) (bigg fun G => { G.ws 9 2 with pc := 10 }) (fun G => G.pc == 7 && G.rs 9 == 1) ∧
    after (.sloop 9 0x3FD) (bigg fun G => { G.ws 9 1 with pc := 10 }) (fun G => G.pc == 11 && G.rs 9 == 0) ∧
    after (.sret 0) (bigg fun G => { G with calls := [(0, 42)] }) (fun G => G.pc == 42 && G.calls == []) ∧
    after (.sxcall 1 7) two (fun G => G.pc == 7 && G.ov == 1 && G.copy == 9 && G.calls == [(0, 1)]) ∧
    traps (.sret 0) big 1 ∧ traps (.sbr 2 false 100) big 1 ∧ after (.snop 0) sc (·.pc == 1) := by
  decide


theorem witness_NopYieldProgress :
    G4 (scg (·.ws 5 0xFFFFFFFF)) (fun G => Scalar (scg (·.ws 5 0xFFFFFFFF)) 4 G ∧ (mget sc.blocks G.blk).isSome ∧ Holds G 0 ∧ ¬ Holds G 2 ∧
      (G.rs 5).toNat < 2 ^ 32) ∧
    G4 (scg (·.ws 5 0x100000000)) (fun G => 2 ^ 32 ≤ (G.rs 5).toNat) := by
  decide

theorem test_yield_and_progress :
    after (.syield 0) sc (fun G => G.yieldAt == some 0 && G.pc == 1) ∧ traps (.sprog 5 0) (scg (·.ws 5 0x100000000)) 1 ∧
    ran (exec (.sprog 5 0) (scg (·.ws 5 77))) (fun t => (mget t.blocks 3).any (·.progress == some 77)) := by
  decide

theorem witness_GroupExits :
    G4 sc (fun G => Scalar sc 4 G ∧ Holds G 0 ∧ ¬ Holds G 2 ∧ G.wait ≠ .leaving ∧ G.trapMode = none) ∧
    G4 (scg fun G => { G with wait := .leaving }) (fun G => G.wait = .leaving ∧ ¬ Holds G 2) ∧
    G4 (scg fun G => { G with trapMode := some ⟨[], 0, 0, 1, .none⟩ }) (fun G => G.trapMode.isSome) ∧
    G4 (exg id) (fun G => G.st = .exiting ∧ G.runs = [] ∧ G.splits = [] ∧ G.cld = 0 ∧ G.cst = 0 ∧ G.ccp = 0 ∧ G.ctl = 0 ∧
      ∀ p ∈ G.hreg, p.2.st ≠ .pending) ∧
    G4 (exg fun G => { G with runs := [⟨9, 0, 1, 0, {}⟩] }) (fun G => G.runs ≠ []) ∧
    G4 (exg fun G => { G with splits := [(0, { pc := 0, mask := 1, stack := [] })] }) (fun G => G.splits ≠ []) ∧
    G4 (exg fun G => { G with cld := 1, cst := 1, ccp := 1, ctl := 1 }) (fun G => 0 < G.cld ∧ 0 < G.cst ∧ 0 < G.ccp ∧ 0 < G.ctl) ∧
    G4 (exg fun G => { G with hreg := [(3, { st := .pending })] }) (fun G => ∃ p ∈ G.hreg, p.2.st = .pending) := by
  decide

theorem test_exit :
    after (.sexit 0) sc (·.st == .exiting) ∧ after (.sexit 2) (scg fun G => { G with wait := .leaving }) (·.st == .exiting) ∧
    after (.groupExitComplete 4) (exg (·.wh 3 { st := .done })) (fun G => G.st == .exited && G.hreg == []) ∧
    after (.groupExitComplete 4) (exg fun G => { G with ctl := 1 }) (·.st == .exiting) := by
  decide

theorem witness_VotesAndWaits :
    G4 (scg fun G => { G with cld := 63, cst := 1 }) (fun G => Scalar (scg fun G => { G with cld := 63, cst := 1 }) 4 G ∧ G.trapMode = none ∧
      Holds G 0 ∧ ¬ Holds G 2 ∧ G.cld ≤ (63 : BitVec 6).toNat ∧ G.cst ≤ (1 : BitVec 6).toNat ∧ G.ccp ≤ (0 : BitVec 6).toNat ∧
      G.ctl ≤ (0 : BitVec 6).toNat ∧ G.runs = []) ∧
    G4 (scg fun G => { G with runs := [⟨9, 0, 1, 0, {}⟩] }) (fun G => G.trapMode = none ∧ G.runs ≠ [] ∧ Holds G 0) := by
  decide

theorem test_votes_and_waits :
    after (.svote 9 3 0) (scg fun G => { G with vote := (5 : Mask) <<< 192 }) (fun G => G.rs 9 == 5) ∧
    after (.swait 63 0 0 0) (scg fun G => { G with cld := 63 }) (·.pc == 1) ∧ after (.swait 63 0 0 0) (scg fun G => { G with cst := 1 }) (·.pc == 0) ∧
    after (.lwait 0) sc (·.pc == 1) ∧ after (.lwait 0) (scg fun G => { G with runs := [⟨9, 0, 1, 0, {}⟩] }) (·.pc == 0) ∧
    after (.scyc 9 0) ((scg id).modDie 0 fun D => { D with clk := 77 }) (fun G => G.rs 9 == 77) := by
  decide

theorem witness_TimeReads : G4 sc fun G => Scalar sc 4 G ∧ Holds G 0 := by decide

theorem witness_LaneRunsQueue :
    G4 (bigg (·.ws 5 99)) (fun G => Scalar (bigg (·.ws 5 99)) 4 G ∧ G.trapMode = none ∧ (∀ p ∈ G.memb, p.2.drain = false) ∧
      (∃ e ∈ (big.table G)[G.ov]?, (99 : BitVec 12).toNat < e.l ∧ e.l ≤ (100 : BitVec 12).toNat ∧ (G.rs 5).toNat < e.l) ∧ G.runs.length < 8 ∧
      Holds G 0 ∧ ¬ Holds G 2 ∧ (G.rs 5).toNat < 4096 ∧ G.splits = [] ∧ G.runs = [] ∧ G.laneact ≠ 0) ∧
    G4 (bigg fun G => { G with runs := List.replicate 8 ⟨9, 0, 1, 0, {}⟩, splits := [(0, { pc := 0, mask := 1, stack := [] })] })
      (fun G => 8 ≤ G.runs.length ∧ G.splits ≠ []) ∧
    G4 (bigg (·.ws 5 100)) (fun G => ¬ ((G.rs 5).toNat < 4096 ∧ (G.rs 5).toNat < 100)) := by
  decide

theorem test_lane_runs :
    after (.lrun 99) big (fun G => G.pc == 1 && G.splits.map (fun p => (p.1, p.2.pc, p.2.mask)) == [(0, 99, Mask.all)]) ∧ traps (.lrun 100) big 1 ∧
    after (.lrunr 5 0) (bigg (·.ws 5 7)) (fun G => G.splits.map (fun p => p.2.pc) == [7]) ∧
    after (.lrun 0) (bigg fun G => { G with runs := List.replicate 8 ⟨9, 0, 1, 0, {}⟩ }) (·.pc == 0) := by
  decide

theorem witness_SpecialRegistersRead :
    G4 sc (fun G => Scalar sc 4 G ∧ (mget sc.blocks G.blk).isSome ∧ (mget sc.launches 2).isSome ∧ G.comp = none ∧
      ((mget sc.launches 2).bind (·.act)) = none ∧ (mget sc.ctxs (sc.ctxOf G)).isSome) ∧
    G4 cgs (fun G => G.comp = some (7, 1) ∧ (mget cgs.acts 7).isSome) ∧
    (∃ D ∈ sc.dies, D.st = .hitched ∧ levelOf D.gen = 3) ∧ (∀ D ∈ sc.dies, D.st = .hitched → 3 ≤ levelOf D.gen) := by
  decide

theorem test_special_registers :
    after (.sgetx 9 0x41) (scg fun G => { G with memmask := (5 : Mask) <<< 64 }) (fun G => G.rs 9 == 5) ∧
    after (.sgetx 9 0x70) sc (fun G => G.rs 9 == 8) ∧ after (.sgetx 9 0x60) cgs (fun G => G.rs 9 == 0x99) ∧
    after (.sgetx 9 0x22) cgs (fun G => G.rs 9 == 1) ∧ traps (.sgetx 9 0x44) sc 1 ∧ traps (.ssetx 5 0x50) sc 1 ∧
    after (.ssetx 5 0x43) (scg fun G => { G.ws 5 7 with memmask := 1 }) (fun G => G.memmask == ((7 : Mask) <<< 192) ||| 1) ∧
    after (.ssetx 5 4) (scg (·.ws 5 7)) (fun G => G.faultmask == 7) ∧ after (.ssetx 5 8) (scg (·.ws 5 7)) (fun G => G.lanedone == 7) := by
  decide

theorem witness_SpecialRegistersWritten :
    G4 sc (fun G => Scalar sc 4 G) ∧ ¬ (4 ≤ (12 : BitVec 10).toNat ∧ (12 : BitVec 10).toNat < 12) ∧
    ¬ (0x40 ≤ (0x44 : BitVec 10).toNat ∧ (0x44 : BitVec 10).toNat < 0x44) ∧ listedSpecial 0x0C = false ∧ listedSpecial 0x16 = false := by
  decide


/-! ### Splits and lane control -/

theorem witness_DrainUnitsOfRuns : sc.runUnits = [] ∧ (mget sc.groups 4).isSome := by decide

theorem witness_SplitArrives :
    S4 ln (fun G S => Passes G S 5) ∧
    S4 (lng (spl 4 1 [.join 7] [] [(7, jn 5 2 4 9)])) (fun G S => S.stack = [.join 7] ∧ (∃ J ∈ mget G.joins 7, J.rc = 5 ∧ J.defmask ≠ 0)) ∧
    S4 (lng (spl 4 1 [.join 7] [(1, sp1 2 4 [.join 7])] [(7, jn 5 2 0 0)])) (fun G _ => (∃ J ∈ mget G.joins 7, J.rc = 5 ∧ J.defmask = 0) ∧
      (∃ p ∈ G.splits, p.1 ≠ 0 ∧ SEntry.join 7 ∈ p.2.stack)) ∧
    S4 (lng (spl 4 1 [.join 7, .call 3] [(1, sp1 2 4 [])] [(7, jn 5 2 0 0)])) (fun G S => S.stack = [.join 7, .call 3] ∧
      (∃ J ∈ mget G.joins 7, J.rc = 5 ∧ J.defmask = 0) ∧ (∀ p ∈ G.splits, p.1 ≠ 0 → SEntry.join 7 ∉ p.2.stack) ∧
      (∀ i ∈ [7, 3], [SEntry.call 3].head? ≠ some (.join i))) := by
  refine ⟨⟨_, rfl, _, rfl, ⟨rfl, rfl, rfl⟩, ?_⟩, by decide, by decide, by decide⟩
  intro j J h; exact nomatch h

/-- A split that arrives at a join above another, and one that stands where its join waits. -/
theorem witness_SplitArrives_nested :
    S4 (lng (spl 5 1 [.join 7, .join 8] [] [(7, jn 5 2 0 0), (8, jn 5 4 0 0)])) (fun G S => S.stack = [.join 7, .join 8] ∧ S.pc = 5 ∧
      (∃ J ∈ mget G.joins 7, J.rc = 5 ∧ J.defmask = 0) ∧ (∀ p ∈ G.splits, p.1 ≠ 0 → SEntry.join 7 ∉ p.2.stack) ∧ (mget G.joins 8).isSome) := by
  decide

theorem witness_LaneBranch_divergent :
    S4 (lbg fun G => (spl 10 0xF [] [] [] G).wp 2 3) (fun G S => laneLen lb G ≤ (100 : BitVec 12).toNat ∧ (99 : BitVec 12).toNat < laneLen lb G ∧
      S.mask &&& ~~~Active G S ⟨false, 0⟩ = 0 ∧ Active G S ⟨false, 3⟩ = 0 ∧ S.mask &&& ~~~Active G S ⟨false, 3⟩ ≠ 0 ∧
      Active G S ⟨false, 2⟩ ≠ 0 ∧ S.mask &&& ~~~Active G S ⟨false, 2⟩ ≠ 0 ∧ (11 : BitVec 12) = 11 ∧ S.pc + 1 = (11 : BitVec 12).toNat ∧
      (20 : BitVec 12) ≠ 30 ∧ S.pc + 1 ≠ (30 : BitVec 12).toNat ∧ S.stack.length < 16 ∧ mget G.splits 1 = none ∧
      (∀ i < 1, mget G.splits i ≠ none) ∧ ((12 : BitVec 12) = 12 ∧ S.pc + 1 ≠ (12 : BitVec 12).toNat) ∧
      ((12 : BitVec 12) ≠ 11 ∧ S.pc + 1 = (11 : BitVec 12).toNat) ∧ topJoin S = none) := by
  decide

theorem witness_LaneBranch_join :
    S4 (lbg (spl 10 0xF (List.replicate 16 (.call 0)) [] [])) (fun _ S => 16 ≤ S.stack.length ∧ topJoin S = none) ∧
    S4 (lbg (spl 10 0xF [] [(1, sp1 0 0x10 []), (2, sp1 0 0x20 []), (3, sp1 0 0x40 [])] [])) (fun G S => (∀ k < 4, mget G.splits k ≠ none) ∧
      S.stack.length < 16) ∧
    S4 (lbg (spl 10 0xF [.join 7] [] [(7, jn 11 0x10 0 0)])) (fun G S => topJoin S = some 7 ∧ (mget G.joins 7).any (·.rc == 11)) := by
  decide

theorem test_lane_branches :
    after (.lbr ⟨false, 2⟩ 20 30) div (fun G => pcs G == [(0, 11, 0xC), (1, 20, 3)]) ∧
    after (.lbr ⟨false, 0⟩ 20 30) div (fun G => pcs G == [(0, 20, 0xF)]) ∧ after (.lbr ⟨false, 3⟩ 20 30) div (fun G => pcs G == [(0, 11, 0xF)]) ∧
    after (.lbr ⟨false, 2⟩ 30 30) div (fun G => pcs G == [(0, 11, 0xC)]) ∧ after (.lbr ⟨false, 2⟩ 20 11) div (fun G => pcs G == [(0, 20, 3)]) ∧
    after (.lbr ⟨false, 2⟩ 20 30) divFull (fun G => (mget G.splits 0).any fun S => S.pc == 20 && S.mask == 3) ∧
    after (.lbr ⟨false, 2⟩ 100 30) div (fun G => G.trap.cause == 1 && G.trap.lane && G.faultmask == 0xF) := by
  decide

theorem witness_LaneJumps :
    S4 lb (fun G S => (99 : BitVec 12).toNat < laneLen lb G ∧ laneLen lb G ≤ (100 : BitVec 12).toNat ∧ S.stack.length < 16 ∧
      S.stack.head? = none ∧ topJoin S = none ∧ G.cld ≤ (0 : BitVec 6).toNat ∧ G.cst ≤ (0 : BitVec 6).toNat ∧ G.ccp ≤ (0 : BitVec 6).toNat ∧
      G.ctl ≤ (0 : BitVec 6).toNat) ∧
    S4 (lbg (spl 10 0xF (List.replicate 16 (.call 0)) [] [])) (fun _ S => 16 ≤ S.stack.length ∧ S.stack.head? = some (.call 0)) ∧
    S4 (lbg (spl 10 0xF [.join 7] [] [(7, jn 11 0x10 0 0)])) (fun G S => topJoin S = some 7 ∧ (mget G.joins 7).isSome ∧
      S.stack.head? = some (.join 7)) ∧
    S4 (lbg fun G => { G with ctl := 1 }) (fun G _ => (0 : BitVec 6).toNat < G.ctl) := by
  decide

theorem test_lane_jumps :
    after (.ljmp 99) lb (fun G => pcs G == [(0, 99, Mask.all)]) ∧
    after (.lcall 99) lb (fun G => G.splits.map (fun p => (p.2.pc, p.2.stack)) == [(99, [.call 1])]) ∧
    after .lret (lbg (spl 10 0xF [.call 42] [] [])) (fun G => pcs G == [(0, 42, 0xF)]) ∧ after .lnop lb (fun G => pcs G == [(0, 1, Mask.all)]) ∧
    after .lpack lb (fun G => pcs G == [(0, 1, Mask.all)]) ∧
    after .lrec (lbg (spl 10 1 [.join 7] [] [(7, jn 30 2 0 0)])) (fun G => pcs G == [(0, 30, 3)]) ∧
    after .lret lb (fun G => G.trap.cause == 1) ∧ after (.lwaitc 0 0 0 0) lb (fun G => pcs G == [(0, 1, Mask.all)]) ∧
    after (.lwaitc 0 0 0 0) (lbg fun G => { G with cst := 1 }) (fun G => pcs G == [(0, 0, Mask.all)]) := by
  decide

theorem witness_SplitEnds_runs :
    S4 (lng (spl 4 1 [] [(1, sp1 2 4 [])] [])) (fun G S => S.stack = [] ∧ ∃ p ∈ G.splits, p.1 ≠ 0) ∧
    S4 (lng fun G => runs2 (spl 4 1 [] [] [] G)) (fun G S => S.stack = [] ∧ (∀ p ∈ G.splits, p.1 = 0) ∧
      G.runs = [⟨9, 0, 1, 0, {}⟩, ⟨10, 0, 1, 50, {}⟩] ∧ (endLanes 2 G 0).laneact ≠ 0) ∧
    S4 ln (fun G S => S.stack = [] ∧ G.runs.length ≤ 1) ∧
    S4 (lng (spl 4 1 [.call 9] [] [])) (fun _ S => S.stack = [.call 9]) := by
  decide

theorem witness_SplitEnds_joins :
    S4 (lng (spl 4 1 [.join 7] [] [(7, jn 5 2 4 9)])) (fun G S => S.stack = [.join 7] ∧ (mget G.joins 7).any (·.defmask != 0)) ∧
    S4 (lng (spl 4 1 [.join 7] [(1, sp1 2 4 [.join 7])] [(7, jn 5 2 0 0)])) (fun G _ => (mget G.joins 7).any (·.defmask == 0) ∧
      ∃ p ∈ G.splits, p.1 ≠ 0 ∧ SEntry.join 7 ∈ p.2.stack) ∧
    S4 (lng (spl 4 1 [.join 7] [] [(7, jn 5 2 0 0)])) (fun G _ => (mget G.joins 7).any (fun J => J.defmask == 0 && J.arrived != 0) ∧
      (∀ p ∈ G.splits, p.1 ≠ 0 → SEntry.join 7 ∉ p.2.stack)) := by
  refine ⟨?_, ?_, ?_⟩ <;> decide

/-- The last lanes under a join end, none having arrived, and the next entry is a join too. -/
theorem witness_SplitEnds_nested :
    S4 (lng (spl 4 1 [.join 7, .join 8] [] [(7, jn 5 0 0 0), (8, jn 6 4 0 0)])) (fun G S => S.stack = [.join 7, .join 8] ∧
      (mget G.joins 7).any (fun J => J.defmask == 0 && J.arrived == 0) ∧ (∀ p ∈ G.splits, p.1 ≠ 0 → SEntry.join 7 ∉ p.2.stack)) ∧
    S4 (lng (spl 4 1 [] [] [])) (fun G S => S.stack = [] ∧ ∀ m, m ≠ 0 → mget G.splits m = none) := by
  refine ⟨by decide, ?_⟩
  refine ⟨_, rfl, _, rfl, ⟨rfl, rfl, rfl⟩, rfl, ?_⟩
  intro m hm
  simpa [mget] using hm

/-- The spans of nested joins: three lanes end under them, and nothing is left of the run. -/
theorem test_nested_joins :
    after (.ljmp 5) (lbg (spl 4 1 [.join 7, .join 8] [] [(7, jn 5 2 0 0), (8, jn 5 4 0 0)])) (fun G => pcs G == [(0, 5, 7)] && G.joins == []) ∧
    after .lend (lbg (spl 4 1 [.join 7, .join 8] [] [(7, jn 5 0 0 0), (8, jn 6 4 0 0)])) (fun G => pcs G == [(0, 6, 4)] && G.joins == []) := by
  decide

theorem witness_LanesEnd :
    S4 (lng fun G => (spl 10 0xF [] [] [] G).wp 2 3) (fun G S => S.mask &&& ~~~Active G S ⟨false, 2⟩ ≠ 0 ∧
      S.mask &&& ~~~Active G S ⟨false, 0⟩ = 0) := by
  decide

theorem test_lanes_end :
    after .lend lb (fun G => G.splits == [] && G.runs == []) ∧
    after (.lexit ⟨false, 2⟩) div (fun G => pcs G == [(0, 11, 0xC)] && G.exitMarks == 3) ∧
    after (.lexit ⟨false, 0⟩) div (fun G => G.splits == [] && G.laneact == ~~~(0xF : Mask)) ∧
    after .lend (lbg fun G => runs2 (spl 4 1 [] [] [] G)) (fun G => pcs G == [(0, 50, Mask.all)]) := by
  decide

/-! ### Traps, the return and the debug port -/

theorem witness_TrapEntry :
    G4 sc (fun G => ∃ L ∈ mget sc.launches 2, MayTrap sc G L ∧ Scalar sc 4 G) ∧ G4 sc (fun G => G.st ≠ .exiting) ∧
    G4 (scg fun G => { G with st := .exiting }) (fun G => G.st = .exiting ∧ G.trapMode = none) ∧
    S4 (lng (·.wp 2 3)) (fun G S => Active G S ⟨false, 2⟩ ≠ 0 ∧ Active G S ⟨false, 3⟩ = 0 ∧ ∃ L ∈ mget ln.launches 2, MayTrap ln G L) := by
  unfold MayTrap; decide

theorem witness_DoubleTrapKills :
    G4 (tmg id) (fun G => G.trapMode ≠ none ∧ G.comp = none ∧ G.st ≠ .exited ∧ G.st ≠ .killed ∧
      (mget big.blocks G.blk).any (fun B => B.comp == none && B.audit == none) ∧ (mget big.launches 2).isSome) := by
  decide

theorem test_traps :
    after (.strap 42) sc (fun G => G.trap.cause == 0x10 && G.trap.code == 42 && G.trapMode.isSome) ∧
    after (.strap 42) (tmg id) (fun G => G.st == .killed) ∧
    after (.ltrap ⟨false, 2⟩ 7) (lng (·.wp 2 3)) (fun G => G.trap.cause == 0x10 && G.trap.code == 7 && G.faultmask == 3 && G.trap.lane) ∧
    after (.ltrap ⟨false, 2⟩ 7) ln (fun G => G.trap.cause == 0 && pcs G == [(0, 1, Mask.all)]) := by
  decide

theorem witness_Breakpoint :
    G4 (dbg .running) (fun G => (∃ L ∈ mget sc.launches 2, MayTrap (dbg .running) G L) ∧ (mget (dbg .running).ctxs ((dbg .running).ctxOf G)).any (·.debug) ∧ Holds G 0 ∧
      ¬ Holds G 2 ∧ ∀ p ∈ G.splits, p.2.fe = none) ∧
    G4 sc (fun G => (mget sc.ctxs (sc.ctxOf G)).any (!·.debug)) := by
  unfold MayTrap; decide

theorem test_breakpoint :
    after (.sbrk 0) (dbg .running) (fun G => G.stopWanted && G.pc == 1) ∧ traps (.sbrk 0) sc 0x11 := by
  decide

theorem witness_TrapReturn :
    G4 big (fun G => Scalar big 4 G ∧ G.trapMode = none) ∧ G4 (trp 0x0F false) (fun G => G.trapMode.isSome ∧ G.trap.cause = 0x0F) ∧
    G4 (trp 1 false) (fun G => Scalar (trp 1 false) 4 G ∧ G.trapMode = some ⟨[(0, 3)], 0, 7, 1, .none⟩ ∧ G.trap.cause ≠ 0x0F ∧ G.wait = .none ∧ G.trap.lane = false ∧
      canEnter (trp 1 false) G G.trap.ov 1) ∧
    (∃ c ∈ mget sc.copies 1, (c.scalarWord 0).isSome) ∧
    G4 (trp 1 true) (fun G => G.trap.lane = true ∧ canEnter (trp 1 true) G 0 1) := by
  decide

theorem test_trap_return :
    after (.stret false) (trp 1 false) (fun G => G.pc == 30 && G.trapMode == none && G.calls == [(0, 3)] && G.lanedone == 5) ∧
    after (.stret true) (trp 1 false) (fun G => G.pc == 31 && G.lanedone == 5) ∧
    after (.stret false) (trp 1 true) (fun G => G.pc == 7 && pcs G == [(0, 30, 0xF)]) ∧
    after (.stret true) (trp 1 true) (fun G => G.pc == 7 && pcs G == [(0, 31, 0xF)] && G.lanedone == 0) ∧
    after (.stret false) (trp 0x0F false) (·.st == .exiting) ∧ traps (.stret false) big 1 := by
  decide

theorem witness_DebugPort :
    (mget (dbg .running).ctxs 0).any (·.debug) ∧ dbgGroups (dbg .running) 0 tgt = [4] ∧
    G4 (dbg .running) (fun G => Named (dbg .running) 0 tgt 4 G ∧ G.st = .running) ∧
    G4 (scg fun G => { G with stopWanted := true }) (fun G => G.st = .running ∧ G.stopWanted = true ∧ ∀ p ∈ sc.ops, writesReg 4 p.2 = false) ∧
    G4 stp (fun G => Named stp 0 tgt 4 G ∧ G.st = .stopped ∧ G.divertDue = false ∧ (7 : VReg).toNat < G.n) ∧ dbgGroups stp 0 tgt = [4] := by
  refine ⟨by decide, by decide, ?_, by decide, ?_, by decide⟩
  · exact ⟨_, rfl, ⟨rfl, _, _, rfl, rfl, rfl, rfl, rfl, nofun, by rintro i ⟨⟩; rfl⟩, rfl⟩
  · exact ⟨_, rfl, ⟨rfl, _, _, rfl, rfl, rfl, rfl, rfl, nofun, by rintro i ⟨⟩; rfl⟩, by decide⟩

theorem test_debug_port :
    after (.stop 0 tgt) (dbg .running) (·.stopWanted) ∧ after (.resume 0 tgt) stp (·.st == .running) ∧
    ran (exec (.read 0 tgt (.s 5)) (stp.modGrp 4 (·.ws 5 9))) (fun t => (mget t.ctxs 0).any (·.dbgOut == some (.word 9))) ∧
    after (.write 0 tgt (.s 5) (.word 9)) stp (fun G => G.rs 5 == 9) ∧ after (.write 0 tgt (.handle 3) (.word 9)) stp (fun G => G.hreg == []) ∧
    ran (exec (.enable 0) sc) (fun t => (mget t.ctxs 0).any (·.debug)) ∧ ran (exec (.disable 0) stp) (fun t => (mget t.ctxs 0).any (!·.debug)) ∧
    after (.groupStopped 4) (scg fun G => { G with stopWanted := true }) (·.st == .stopped) := by
  decide


/-! ### Memory accesses -/

theorem witness_ScalarLoadsAndStores :
    G4 (mg (·.ws 5 0x1000)) (fun G => Scalar (mg (·.ws 5 0x1000)) 4 G ∧ CountersOk G ∧ G.cld < 63 ∧ G.cst < 63 ∧
      Reaches (mg (·.ws 5 0x1000)) G 0x1000 8 rd 0x1000 ∧ Reaches (mg (·.ws 5 0x1000)) G 0x1FFFF8 8 wr 0x1FFFF8 ∧
      Reaches (mg (·.ws 5 0x1000)) G 0x2FFFFF 1 rd 0x2FFFFF) := by
  decide

theorem witness_ScalarAccessTraps :
    G4 (locks (mg id)) (fun G => Scalar (locks (mg id)) 4 G ∧ (0x1001 : Word).toNat % 2 ≠ 0 ∧ (0x1000000000000 : Word).toNat % 8 = 0 ∧
      2 ^ 48 ≤ (0x1000000000000 : Word).toNat ∧ translate (locks (mg id)) 0 G.core none 0x300000 rd = .prot ∧
      translate (locks (mg id)) 0 G.core none 0x200000 wr = .prot ∧ translate (locks (mg id)) 0 G.core none 0x1107 rd = .ok 0x1107 ∧
      lockHit (locks (mg id)) 0 G.core 0x1107 1 false = true ∧ lockHit (locks (mg id)) 0 G.core 0x1207 1 true = true) := by
  decide

theorem test_scalar_accesses :
    issued (.sldw 9 5 4) (mg (·.ws 5 0xFFC)) (fun m G => m.kind == .load && m.acc.map (·.loc) == [0x1000] && G.cld == 1 && G.pc == 1) ∧
    issued (.sstd 9 5 0x3F8) (mg fun G => (G.ws 5 0x1010).ws 9 7) (fun m G => m.kind == .store && m.acc.map (fun a => (a.loc, a.x)) == [(0x1008, 7)] && G.cst == 1) ∧
    traps (.sldh 9 5 1) (mg (·.ws 5 0x1000)) 4 ∧ traps (.sldd 9 5 0) (mg (·.ws 5 0x1000000000000)) 6 ∧
    traps (.sstb 9 5 0) (mg (·.ws 5 0x200000)) 6 ∧ traps (.sldb 9 5 7) (locks (mg (·.ws 5 0x1100))) 7 ∧ traps (.sstb 9 5 8) (locks (mg (·.ws 5 0x1100))) 0 := by
  decide

theorem witness_ScalarAtomicsAndFences :
    G4 (mg (·.ws 5 0x1000)) (fun G => Scalar (mg (·.ws 5 0x1000)) 4 G ∧ CountersOk G ∧ Holds G 0 ∧ ¬ Holds G 2 ∧ G.cst < 63 ∧ G.cld < 63 ∧
      Reaches (mg (·.ws 5 0x1000)) G (G.rs 5) 8 rw 0x1000 ∧
      ReleaseReady (mg (·.ws 5 0x1000)) .system .acqRel (scalarEarlier (mg (·.ws 5 0x1000)) G) ∧ scopeWide .die = false) ∧
    G4 (pend (·.ws 5 0x1000)) (fun G => ¬ ReleaseReady (pend (·.ws 5 0x1000)) .package .release (scalarEarlier (pend (·.ws 5 0x1000)) G) ∧
      scopeWide .package = true ∧ unacked (pend (·.ws 5 0x1000)) (scalarEarlier (pend (·.ws 5 0x1000)) G) ≠ []) := by
  decide

theorem test_atomics_and_fences :
    issued (.satom 9 5 6 0 .die .relaxed) (mg fun G => (G.ws 5 0x1000).ws 6 3) (fun m G => m.kind == .atom .add && m.acc.map (fun a => (a.loc, a.x)) == [(0x1000, 3)] &&
      G.pc == 2 && G.cld == 1 && G.cst == 1) ∧
    issued (.scas 0 5 6 0 .die .relaxed 7) (mg fun G => ((G.ws 5 0x1000).ws 6 3).ws 7 4) (fun m G => m.kind == .cas &&
      m.acc.map (fun a => (a.loc, a.x, a.y)) == [(0x1000, 4, 3)] && G.cld == 0 && G.cst == 1) ∧
    after (.satom 9 5 6 0 .package .release) (pend (·.ws 5 0x1000)) (·.pc == 0) ∧ after (.sfence .package .rel) (pend id) (·.pc == 0) ∧
    after (.sfence .package .acq) (pend id) (·.pc == 1) ∧ after (.sfence .die .rel) (pend id) (fun G => G.pc == 1 && G.ord.fences.map (fun f => (f.1, f.2.ops)) == [(.die, [60])]) := by
  decide

theorem witness_ScalarAccessEnds :
    (∃ o ∈ mget (fly .load .n32 (.s 9) 0 1 true false 0 0).ops 60, o.grp = some 4 ∧ o.unit = none ∧ o.aud = none ∧
      FollowsNothing (fly .load .n32 (.s 9) 0 1 true false 0 0) o ∧ o.ldc = true ∧ o.stc = false) ∧
    (fly .load .n32 (.s 9) 0 1 true false 0 0).runUnits = [] ∧ (fly .load .n32 (.s 9) 0 1 true false 0 0).poison = [] ∧
    (∃ o ∈ mget (fly .load .n32 (.s 9) 0 1 true false 0 0).ops 60, ∃ m ∈ opMem (fly .load .n32 (.s 9) 0 1 true false 0 0) 60,
      (reachLine (fly .load .n32 (.s 9) 0 1 true false 0 0) (opVia o m) (opWrites o m) 0x1000).isSome = true) ∧
    (∃ o ∈ mget (fly .store .n16 .none 1 0 false true 0xABCD 0).ops 60, ∃ m ∈ opMem (fly .store .n16 .none 1 0 false true 0xABCD 0) 60,
      (reachLine (fly .store .n16 .none 1 0 false true 0xABCD 0) (opVia o m) (opWrites o m) 0x1000).isSome = true ∧
      reachLine { fly .store .n16 .none 1 0 false true 0xABCD 0 with coh := { State.reset.coh with hostHolds := [0x40] } } (opVia o m) (opWrites o m) 0x1000 = none) := by
  unfold FollowsNothing; decide

/-- Operation 70 of a group on die 0 wrote 1 over 0 at 0x1000 as a release at die scope; operation 61 of a group of core `c` acquired at die scope, and read that
write. -/
abbrev rlx : State :=
  { withMem sc with mem := [(0x1000, 1)], past := [(61, { view := {}, saw := [0] })], wcount := 1
                    hist := [{ n := 0, loc := 0x1000, was := [0], stamp := { op := 70, rels := [{ who := .group 5 3 0, scope := .die, view := { ops := [70] } }] } }] }
abbrev acqOf (c : Nat) : Ord := { before := { acq := [{ op := 61, scope := .die, who := .group 4 3 c }] } }

theorem witness_ReadsFollowTheOrder :
    (∃ w ∈ rlx.writeNo 0, 0 ∈ rlx.saw 61 ∧ ∃ r ∈ w.stamp.rels, reaches r.scope r.who (.group 4 3 15) = true ∧ reaches .die (.group 4 3 15) r.who = true ∧
      reaches r.scope r.who (.group 4 3 16) = false) ∧
    (∃ e ∈ rlx.hist, (acqOf 15).knows rlx e = true ∧ (acqOf 16).knows rlx e = false ∧ ({ own := [70] } : Ord).knows rlx e = true ∧ ({ own := [61] } : Ord).knows rlx e = true) := by
  decide

/-- An acquire on the releasing die may not read the byte from before the write, one on another die may (R239). -/
theorem test_reads_follow_the_order :
    passes (fun e => (acqOf 15).knows rlx e) 0x1000 1 rlx.hist 0 = [] ∧ passes (fun e => (acqOf 16).knows rlx e) 0x1000 1 rlx.hist 0 = [1] ∧
    byteBack rlx.hist 1 0x1000 (rlx.byte 0x1000) = 0 ∧ byteBack rlx.hist 0 0x1000 (rlx.byte 0x1000) = 1 := by
  decide

theorem test_scope_instances :
    reaches .cluster (.group 4 3 0) (.group 5 9 3) = true ∧ reaches .cluster (.group 4 3 0) (.group 5 9 4) = false ∧ reaches .die (.group 4 3 0) (.group 5 9 16) = false ∧
    reaches .package (.group 4 3 0) .host = false ∧ reaches .system (.group 4 3 0) (.peer 1) = true := by
  decide

theorem test_scalar_access_ends :
    after (.loadComplete 60 1 0) (fly .load .n32 (.s 9) 0 1 true false 0 0) (fun G => G.rs 9 == 0x84332211 && G.cld == 0) ∧
    ran (exec (.storeAck 60 1) (fly .store .n16 .none 1 0 false true 0xABCD 0)) (fun t => t.read 0x1000 4 == 0x8433ABCD && t.ops == []) ∧
    ran (exec (.storeAck 60 1) (fly (.atom .add) .n64 .none 1 0 false true 0xFF 0)) (fun t => t.read 0x1000 8 == 0x8000000084332310) ∧
    ran (exec (.storeAck 60 1) (fly .cas .n64 .none 1 0 false true 7 0x8000000084332211)) (fun t => t.read 0x1000 8 == 7) ∧
    ran (exec (.storeAck 60 1) (fly .cas .n64 .none 1 0 false true 7 0)) (fun t => t.read 0x1000 8 == 0x8000000084332211) := by
  decide

theorem witness_StoresChangeOnlyTheirBytes :
    (opMem (fly .store .n16 .none 1 0 false true 0xABCD 0) 60).isSome ∧ ran (exec (.storeAck 60 1) (fly .store .n16 .none 1 0 false true 0xABCD 0)) (fun _ => true) := by
  decide

theorem witness_LaneAccesses_global :
    S4 lms (fun G S => CountersOk G ∧ G.cld < 63 ∧ G.cst < 63 ∧ Active G S ⟨false, 2⟩ ≠ 0 ∧ Active G S ⟨false, 3⟩ = 0 ∧
      Below G (tyRegs .i32 7 ++ modeRegs true (.contig 5)) ∧
      Below G (tyRegs .i32 7 ++ modeRegs true (.contig 5) ++ opndRegs .i32 (.v 2))) ∧
    S4 lms (fun G S => ∀ i ∈ [0, 255], (Active G S ⟨false, 2⟩).getLsbD i = true ∧
      Reaches lms G (laneEA G true 4 (.contig 5) 0 i) 4 rw (0x1000 + 4 * i)) ∧
    S4 lms (fun G S => lanesOf (Active G S ⟨false, 2⟩) = [0, 255] ∧ (Active G S ⟨false, 2⟩ &&& ~~~G.lanedone) ≠ 0 ∧
      ReleaseReady lms .die .relaxed (splitEarlier lms S)) := by
  refine ⟨?_, ?_, ?_⟩ <;> decide

theorem witness_LaneAccesses_scratch :
    G4 (lm (·.ws 5 0)) (fun G => ∀ i ∈ [0, 255], (laneEA G false 4 (.contig 5) 0 i).toNat % 4 = 0 ∧
      inArea (lm (·.ws 5 0)) G.blk (laneEA G false 4 (.contig 5) 0 i).toNat 4 = true ∧
      lockHit (lm (·.ws 5 0)) 0 G.core (scrLoc G.core (4 * i)) 4 true = false) ∧
    G4 (lm (·.ws 5 0)) (fun G => ∀ i ∈ [0, 255], (laneEA G false 4 (.contig 5) 0 i).toNat < 2 ^ 23 ∧
      inClusterArea (lm (·.ws 5 0)) 0 none (G.core / 4 * 4 + (laneEA G false 4 (.contig 5) 0 i).toNat / 2 ^ 21 % 4)
        ((laneEA G false 4 (.contig 5) 0 i).toNat % 2 ^ 21) 4 = true) := by
  refine ⟨?_, ?_⟩ <;> decide

theorem test_lane_accesses :
    issued (.vld (mlw .i32 7 (.contig 5) 8)) lms (fun m G => m.acc.map (fun a => (a.lane, a.loc)) == [(0, 0x1008), (255, 0x1404)] && G.cld == 1) ∧
    issued (.vst (mlw .i16 7 (.contig 5) 0)) lms (fun m G => m.acc.map (fun a => (a.lane, a.loc)) == [(0, 0x1000), (255, 0x11FE)] && G.cst == 1) ∧
    issued (.vlds (mlw .n64 6 (.contig 6) 8)) lms (fun m _ => m.acc.map (·.loc) == [2 ^ 52 + 8, 2 ^ 52 + 0x800]) ∧
    issued (.vstx (mlw .i8 6 (.contig 6) 0)) lms (fun m _ => m.acc.map (·.loc) == [2 ^ 52, 2 ^ 52 + 255]) ∧
    issued (.vatom (atw .i32 .max 7 (.contig 5) (.s 5))) lms (fun m G => m.kind == .atom .max && m.acc.map (fun a => (a.loc, a.x)) == [(0x1000, 0x1000), (0x13FC, 0x1000)] &&
      G.cld == 1 && G.cst == 1) := by
  refine ⟨?_, ?_, ?_, ?_, ?_⟩ <;> decide

theorem test_lane_access_traps :
    after (.vld (mlw .i32 7 (.contig 5) 2)) lms (fun G => G.trap.cause == 4 && G.faultmask == 1 ||| (1 <<< 255) && G.trap.addr == 0x1002) ∧
    after (.vsts (mlw .i32 7 (.contig 6) 0xC08)) lms (fun G => G.trap.cause == 6 && G.faultmask == 1 <<< 255) ∧
    after (.vprf (mlw .i32 0 (.contig 6) 1)) lms (fun G => G.trap.cause == 0 && pcs G == [(0, 1, Mask.all)]) ∧
    after (.vstx (mlw .i32 7 (.contig 5) 0x400000)) lms (fun G => G.trap.cause == 6) := by
  refine ⟨?_, ?_, ?_, ?_⟩ <;> decide

theorem witness_FullEmptyWords :
    S4 lms (fun G S => S.fe = none ∧ (Active G S ⟨false, 2⟩ &&& ~~~G.lanedone) ≠ 0 ∧ (Active G S ⟨false, 3⟩ &&& ~~~G.lanedone) = 0) ∧
    (∃ o ∈ mget (few .feTake [] 1 true).ops 60, FollowsNothing (few .feTake [] 1 true) o) ∧
    S4 (few .feTake [] 1 true) (fun _ S => S.fe = some 60 ∧ (opMem (few .feTake [] 1 true) 60).any (·.more)) ∧
    S4 (few .feTake [] 0 false) (fun _ S => S.fe = some 60 ∧ (opMem (few .feTake [] 0 false) 60).any (!·.more)) ∧
    (2 ^ 52 + 16) / 4 ∈ (few .feTake [(2 ^ 52 + 16) / 4] 1 true).full ∧ (2 ^ 52 + 16) / 4 ∉ (few .fePut [] 1 true).full := by
  unfold FollowsNothing
  refine ⟨?_, ?_, ?_, ?_, ?_, ?_⟩ <;> decide

theorem test_full_empty_words :
    ran (exec (.fullEmptyWaitDone 4 0 0) (few .feTake [(2 ^ 52 + 16) / 4] 1 true)) (fun t => t.full == []) ∧
    ran (exec (.fullEmptyWaitDone 4 0 0) (few .feKeep [(2 ^ 52 + 16) / 4] 1 true)) (fun t => t.full == [(2 ^ 52 + 16) / 4]) ∧
    ran (exec (.fullEmptyWaitDone 4 0 0) (few .fePut [] 1 true)) (fun t => t.full == [(2 ^ 52 + 16) / 4] && t.read (2 ^ 52 + 16) 4 == 9) ∧
    ran (exec (.fullEmptyWaitDone 4 0 0) (few .feTake [] 1 true)) (fun t => t.ops == (few .feTake [] 1 true).ops) ∧
    after (.vldsf (mlw .i32 7 (.contig 6) 16)) (few .feTake [] 1 true) (fun G => pcs G == [(0, 0, Mask.all)]) ∧
    after (.vldsf (mlw .i32 7 (.contig 6) 16)) (few .feTake [] 0 false) (fun G => pcs G == [(0, 1, Mask.all)]) ∧
    issued (.vstsf (mlw .i32 7 (.contig 6) 16)) lms (fun m G => m.more && m.kind == .fePut && G.cst == 1) := by
  refine ⟨?_, ?_, ?_, ?_, ?_, ?_, ?_⟩ <;> decide


/-! ### Engines, handles and overlays -/

theorem witness_EngineCommandsIssue :
    G4 (dsc 0 0x1000 4096 0 0 7 id) (fun G => Scalar (dsc 0 0x1000 4096 0 0 7 id) 4 G ∧ CountersOk G ∧ NoDrain G ∧ (G.rh 3).st ≠ .pending ∧ (G.rs 6).toNat < 8 ∧
      G.ccp < 63 ∧ (G.rs 22).toNat < 2 ^ 32 ∧ inArea (dsc 0 0x1000 4096 0 0 7 id) G.blk 0 4096 = true ∧ inArea (dsc 0 0x1000 4096 0 0 7 id) G.blk 0 4097 = false) ∧
    G4 (dsc 0 0x1000 0 0 0 8 id) (fun G => 8 ≤ (G.rs 6).toNat ∧ (G.rs 22).toNat = 0) ∧
    G4 (dsc 0 0 0 0 0 0 (·.wh 3 { st := .pending })) (fun G => (G.rh 3).st = .pending) ∧
    G4 (dsc 0 0 0 0 0 0 fun G => { G with ccp := 63 }) (fun G => G.ccp = 63 ∧ CountersOk G) ∧
    G4 (dsc 0 0x2000 64 16 0x4000000020 0 id) (fun G => (G.rs 24).toNat < 2 ^ 48 ∧ (G.rs 24).toNat % 2 ^ 32 = 32 ∧ (G.rs 24).toNat / 2 ^ 32 = 64) ∧
    (∃ C ∈ mget (withWin sc).ctxs 0, ∃ W ∈ mget C.windows 2, W.valid = true ∧ 99 + 1 ≤ W.lbas) := by
  decide

theorem engine_free_without_ops (s : State) (G : Group) (c : CopyOp) (h : s.ops = []) (hn : lockNeed c.kind ≤ 2) : EngineFree s G c := by
  intro o _ _
  have hl : ∀ a n w, lockHit s o.ctx o.core a n w = false := by intro a n w; simp [lockHit, lockers, h]
  simp [engineBlocked, coreCopies, h, hl, Config.lockEntries]
  omega

theorem witness_EngineCommandsIssue_free : ∃ G c, mget sc.groups 4 = some G ∧ EngineFree sc G c :=
  ⟨_, { kind := .cpy, chan := 0, dst := 0, dstScr := true, src := 0x1000, srcScr := false, len := 8 }, rfl, engine_free_without_ops _ _ _ rfl (by decide)⟩

theorem engine_blocked_by_channel (o : Op) (h : o.core = 0) (c : CopyOp) (hc : c.chan = 0) : engineBlocked (cop (cp8 0 8 false) hp) o c = true := by
  have : (coreCopies (cop (cp8 0 8 false) hp) o.core) = [cp8 0 8 false] := by rw [h]; rfl
  simp [engineBlocked, this, hc]

theorem witness_EngineCommandsIssue_held : ∃ G c, mget (cop (cp8 0 8 false) hp).groups 4 = some G ∧
    ∀ o : Op, o.core = G.core → o.ctx = (cop (cp8 0 8 false) hp).ctxOf G → engineBlocked (cop (cp8 0 8 false) hp) o c = true :=
  ⟨_, cp8 0 8 false, rfl, fun o h _ => engine_blocked_by_channel o h _ rfl⟩

theorem test_engine_commands :
    started (.cpy 3 20 6 0) (dsc 64 0x1000 128 0 0 7 id) (fun c G => c.dst == 64 && c.dstScr && c.src == 0x1000 && !c.srcScr && c.len == 128 && c.chan == 7 &&
      G.ccp == 1 && (G.rh 3).st == .pending && G.pc == 1) ∧
    started (.cpy 3 20 6 1) (dsc 0x1000 64 128 0 0 7 id) (fun c _ => c.dst == 0x1000 && !c.dstScr && c.src == 2 ^ 52 + 64 && c.srcScr) ∧
    started (.cpyg 3 20 6 false) (dsc 0 0x2000 2048 16 0x200000020 0 id) (fun c _ => c.len == 64 && c.row == 32 && c.table == 0x2000 && c.stride == 16) ∧
    started (.cpyst 3 20 6) (withWin (dsc 0x1000 2 99 1 0 0 id)) (fun c _ => c.len == 4096 && c.lba == 99 && c.window == 2) ∧
    after (.cpyst 3 20 6) (withWin (dsc 0x1000 2 99 2 0 0 id)) (fun G => (G.rh 3).st == .failed 1 && G.pc == 1) ∧
    after (.cpy 3 20 6 0) (dsc 64 0x1000 0 0 0 7 id) (fun G => (G.rh 3).st == .done && G.ccp == 0) ∧
    after (.cpy 3 20 6 0) (dsc 64 0x1000 4096 0 0 7 id) (fun G => (G.rh 3).st == .failed 1) ∧ traps (.cpy 3 20 6 0) (dsc 0 0 0 0 0 8 id) 1 ∧
    after (.scwp 9 5) ({ scg id with chans := [(5, 0x1234)] }) (fun G => G.rs 9 == 0x1234) := by
  decide

theorem witness_EngineOperationsRun :
    (∃ o ∈ mget (cop (cp8 0 8 false) hp).ops 60, live (cop (cp8 0 8 false) hp) o.deps = [] ∧ MayDeliver (cop (cp8 0 8 false) hp) o (cp8 0 8 false) ∧ o.unit = none ∧ o.grp = some 4) ∧
    (cpg none).kind = .gather ∧ (cpg none).idx = none ∧ (cpg (some (0, 3))).idx = some ((cpg (some (0, 3))).done / (cpg (some (0, 3))).row, 3) ∧
    (∃ o ∈ mget (cop (cpg none) hp).ops 60, MayDeliver (cop (cpg none) hp) o (cpg none) ∧ engineTr (cop (cpg (some (0, 3))) hp) o (cpg (some (0, 3))) (nextSource (cpg (some (0, 3))) 3) false = .ok 0x1030) ∧
    (let c : CopyOp := { cp8 0 4096 false with kind := .storage, window := 2, sent := 1 }
     c.done < c.sent * 2 ^ 20 ∧ c.dstScr = false ∧ ∃ o ∈ mget (cop c hp).ops 60, MayDeliver (cop c hp) o c ∧ engineTr (cop c hp) o c (c.dst + c.done) true = .ok 0x1100 ∧ 0x1100 / 2 ^ 50 % 4 = 0) ∧
    (cop (cp8 0 8 false) hp).runUnits = [] ∧ (cop (cp8 0 8 false) hp).poison = [] ∧
    (∃ o ∈ mget (cop (cp8 0 8 false) hp).ops 60, engineTr (cop (cp8 0 8 false) hp) o (cp8 0 8 false) 0x1000 false = .ok 0x1000 ∧
      engineTr (cop (cp8 0 8 false) hp) o (cp8 0 8 false) 0x1100 true = .ok 0x1100) ∧
    (cp8 8 8 false).cmds = cmdsOf (cp8 8 8 false) ∧
    (cp8 8 8 false).sent = (cp8 8 8 false).cmds ∧
    ({ cp8 0 4096 false with kind := .storage } : CopyOp).cmds < cmdsOf { cp8 0 4096 false with kind := .storage } ∧
    ({ cp8 4096 4096 false with kind := .storage, window := 2, sent := 1 } : CopyOp).cmds < 1 ∧
    (∃ C ∈ mget (withWin sc).ctxs 0, ∃ W ∈ mget C.windows 2, W.valid = true) ∧
    ((reachLine (cop (cp8 0 8 false) hp) (.home 0) false 0x1000).bind (fun u => reachLine u (.home 0) true 0x1100)).isSome ∧
    G4 (cop (cp8 8 8 false) hp) (fun G => (mget G.hreg 3).any (·.op == some 60)) := by
  unfold MayDeliver
  decide

theorem test_engine_operations :
    ran (exec (.copyBytesDelivered 60 4) (cop (cp8 0 8 false) hp)) (fun t => t.read 0x1100 4 == 0x84332211 && mget t.chans 0 == some 0x1104) ∧
    after (.copyComplete 60) (cop (cp8 8 8 false) hp) (fun G => G.ccp == 0 && (G.rh 3).st == .done) ∧
    after (.copyComplete 60) (cop (cp8 4 8 false) hp) (fun G => G.ccp == 1) ∧
    after (.copyComplete 60) (cop (cp8 4 8 true) hp) (fun G => G.ccp == 0 && (G.rh 3).st == .cancelled) ∧
    ran (exec (.nvmeCompletion 60 false) (withWin (cop { cp8 0 4096 false with kind := .storage, window := 2, sent := 1 } hp))) (fun t => (mget t.ops 60).any fun o => match o.body with
      | .copy c => c.cmds == 1 && c.fail == some 3
      | _ => false) ∧
    after (.queuePairDeleted 0 0) (cop { cp8 0 4096 false with kind := .storage } hp) (fun G => (G.rh 3).st == .failed 3 && G.ccp == 0) := by
  decide

theorem witness_HandleInstructions_handles :
    G4 (hs id [] []) (fun G => Scalar (hs id [] []) 4 G ∧ (G.rh 3).st = .done ∧ (G.rh 4).st = .empty ∧ NoDrain G) ∧
    G4 (hs (·.wh 4 { st := .pending, op := some 60 }) [] []) (fun G => (G.rh 4).st = .pending ∧ (G.rh 4).op = some 60) ∧
    G4 (hs (·.wh 4 { st := .pending, ov := some (0, 1) }) [] []) (fun G => (G.rh 4).st = .pending ∧ (G.rh 4).op = none) := by
  decide

theorem witness_HandleInstructions_words :
    G4 (hs id [] []) (fun G => handleWord (hs id [] []) G 5 true = .ok [(0, 2 ^ 52 + 32)] ∧ scalarEarlier (hs id [] []) G = [] ∧
      wrd ∉ (hs id [] []).full) ∧
    G4 ({ hs id [wrd] [(wrd, tg)] with mem := writeLE [] (2 ^ 52 + 32) 4 0xC0000000 }) (fun G => wrd ∈ (hs id [wrd] [(wrd, tg)]).full ∧
      mget (hs id [wrd] [(wrd, tg)]).tags wrd = some tg ∧ readLE (writeLE [] (2 ^ 52 + 32) 4 0xC0000000) (2 ^ 52 + 32) 4 = 0xC0000000 + tg.serial.toNat ∧
      tg.core = G.core ∧ tg.unit = none) := by
  decide

theorem test_handles :
    after (.hwait 3) (hs id [] []) (·.pc == 1) ∧ after (.hwait 4) (hs (·.wh 4 { st := .pending }) [] []) (·.pc == 0) ∧
    after (.htest 4 9) (hs (·.wh 4 { st := .failed 5 }) [] []) (fun G => G.rs 9 == 0x503) ∧ traps (.hcancel 4) (hs id [] []) 0x0B ∧
    ran (exec (.hcancel 3) (cop (cp8 0 8 false) hp)) (fun t => (mget t.ops 60).any fun o => match o.body with
      | .copy c => c.cancel
      | _ => false) ∧
    ran (exec (.hsend 3 5) (hs id [] [])) (fun t => t.full == [wrd] && (mget t.tags wrd).any (·.h.st == .done)) ∧
    after (.hsend 3 5) (hs id [] []) (fun G => (G.rh 3).st == .empty) ∧ after (.hsend 3 5) (hs id [wrd] []) (·.pc == 0) ∧
    after (.hrecv 4 5) ({ hs id [wrd] [(wrd, tg)] with mem := writeLE [] (2 ^ 52 + 32) 4 0xC0000000 }) (fun G => (G.rh 4).st == .cancelled && G.pc == 1) ∧
    traps (.hrecv 4 5) (hs id [wrd] []) 0x0B := by
  decide

theorem witness_OverlayLoads :
    G4 (ovs false true) (fun G => Scalar (ovs false true) 4 G ∧ (G.rh 3).st ≠ .pending ∧ (two.table G)[2]? = none ∧ 255 < (G.rs 6).toNat ∧
      (∃ e ∈ (two.table G)[(G.rs 5).toNat]?, (G.rs 5).toNat ≤ 255 ∧ slotsOf e ≤ two.workset G) ∧ (G.rh 3).ov = none) ∧
    G4 (scg (·.wh 3 { st := .done, ov := some (0, 1) })) (fun G => (G.rh 3).ov ≠ none) := by
  decide

theorem test_overlays :
    after (.ovld 3 5) (ovs false true) (fun G => G.rh 3 == { st := .done, ov := some (1, 9) } && G.pc == 1) ∧
    after (.ovld 3 5) (ovs true true) (fun G => G.rh 3 == { st := .pending, ov := some (1, 9) }) ∧
    after (.ovld 3 5) (ovs false false) (fun G => G.rh 3 == { st := .pending, ov := some (1, two.nextId) }) ∧
    after (.ovld 3 6) (ovs false true) (fun G => G.rh 3 == { st := .failed 1, ov := some (256, 0) }) ∧
    after (.ovld 3 5) ((ovs false true).modLaunch 2 fun L => { L with desc := { L.desc with workset := 1 } }) (fun G => (G.rh 3).st == .failed 5) ∧
    after (.ovrel 3) (scg (·.wh 3 { st := .done, ov := some (0, 1) })) (fun G => (G.rh 3).st == .empty) ∧ traps (.ovrel 3) sc 0x0B := by
  decide

theorem witness_OverlayLoads_end :
    (∃ c ∈ mget ldg.copies 9, c.core = 0 ∧ c.loading = true ∧ c.slots ≠ [] ∧ c.hold = none ∧ c.ent.lib = false ∧ (∀ i < c.ent.s + c.ent.l, i ∈ c.got) ∧
      c.got.length = c.ent.s + c.ent.l ∧ Waiter.handle 4 3 ∈ c.waiters) ∧
    G4 ldg (fun G => (mget G.hreg 3).any fun x => x.st == .pending && x.ov.map (·.2) == some 9) ∧
    after (.overlayLoadEnd 0 9 true) ldg (fun G => (G.rh 3).st == .done) := by
  decide


/-! ### Lane arithmetic, conversions and exchange -/

theorem witness_LaneOperands :
    Ty.i8.wide = false ∧ Ty.i64.wide = true ∧ Ty.n32 ≠ .i64 ∧ (1 : Mask).getLsbD 0 = true ∧ (1 : Mask).getLsbD 1 = false ∧
    G4 ln (fun G => 0 < (G.rv 3).length ∧ 0 < (G.rv 4).length) ∧ Ty.i16.isSigned = true ∧ Ty.n16.isSigned = false ∧ (3 : Nat) ≠ 2 := by
  decide

theorem witness_LaneArithmetic :
    S4 ln (fun G S => Below G (tyRegs .n64 4 ++ tyRegs .n64 2 ++ opndRegs .n64 (.v 6)) ∧ Below G (tyRegs .i32 7 ++ tyRegs .i32 1 ++ opndRegs .n32 (.imm 3)) ∧
      Ty.n64.isInt = true ∧ (fmtOf .bf16).isSome ∧ Below G (tyRegs .f32 7 ++ tyRegs .f32 1 ++ opndRegs .f32 (.v 2) ++ opndRegs .f32 (.v 3)) ∧
      S.mask &&& ~~~S.mask = 0) := by
  decide

theorem witness_FloatSpecialCases : (0 : Nat) < 1 ∧ (Fmt.inf (fmtF32)).isSome := by decide

/-- Values up to the largest finite one and above it, and patterns with the sign bit. -/
theorem witness_RoundsOnce : ∃ f, fmtOf .f16 = some f ∧ (∃ n d : Nat, 0 < d ∧ (n : ℚ) / d ≤ magnitude f f.maxFin) ∧
    (∃ n d : Nat, 0 < d ∧ magnitude f f.maxFin < (n : ℚ) / d) ∧ ∃ p, p ≤ f.maxFin := by
  refine ⟨_, rfl, ⟨0, 1, by decide, ?_⟩, ?_, 0, Nat.zero_le _⟩
  · unfold magnitude
    split
    · simp only [Nat.cast_zero, zero_div]
      positivity
    · simp
  · obtain ⟨n, hn⟩ := exists_nat_gt (magnitude ((fmtOf .f16).get rfl) ((fmtOf .f16).get rfl).maxFin)
    exact ⟨n, 1, by decide, by rw [Nat.cast_one, div_one]; exact hn⟩

/-- Patterns of each kind of source: an integer, a NaN, the infinities, a finite value, and codes of gd8. -/
theorem witness_ElementsConvert :
    decodeTy .f32 0x7FC00000 = .nan ∧ decodeTy .f32 0x7F800000 = .inf false ∧ decodeTy .f16 0xFC00 = .inf true ∧ decodeTy .i8 0xFF = .fin true 1 1 ∧
    decodeTy .gd8 0x80 = .nan ∧ (∃ n d, decodeTy .f32 0x3F800000 = .fin false n d) ∧ (0x7FC00000 : Nat) < 2 ^ Ty.f32.bits ∧ (fmtOf .e4m3).isSome = true := by
  refine ⟨by decide, by decide, by decide, by decide, by decide, ⟨_, _, rfl⟩, by decide, by decide⟩

theorem witness_ConversionsAndPredicates :
    S4 ln (fun G S => Below G (tyRegs .i64 4 ++ tyRegs .f32 2) ∧ Below G (7 :: (List.range (32 / Ty.i8.bits)).map (2 + ·)) ∧
      Below G ((List.range (32 / Ty.f16.bits)).map (4 + ·) ++ [7]) ∧ Below G (tyRegs .n32 1 ++ opndRegs .n32 (.s 5)) ∧
      Below G (tyRegs .i64 4 ++ tyRegs .i64 2 ++ opndRegs .i64 (.imm 1)) ∧ (7 : VReg).toNat < G.n ∧ Active G S ⟨false, 0⟩ ≠ 0) := by
  decide

theorem witness_LaneExchange :
    S4 ln (fun G S => Below G (tyRegs .i32 7 ++ tyRegs .i32 1 ++ opndRegs .i32 (.v 2)) ∧ Below G (tyRegs .i64 4 ++ tyRegs .i64 2 ++ opndRegs .i64 (.v 6)) ∧
      Active G S ⟨false, 0⟩ &&& ~~~G.memmask = 0 ∧ Active G S ⟨false, 3⟩ = 0 ∧ (Active G S ⟨false, 0⟩).getLsbD 0 = true ∧ (∀ j < 0, (Active G S ⟨false, 0⟩).getLsbD j = false) ∧
      Fill.rot ≠ .keep) ∧
    S4 (lng fun G => { G with memmask := ~~~1 }) (fun G S => Active G S ⟨false, 0⟩ &&& ~~~G.memmask ≠ 0) := by
  decide

/-- Lane 0 of v1, v2 and v3 hold x, y and z, the registers after them the upper halves; p2 selects lane 0. -/
abbrev lx (x y z : Nat) : State :=
  lng fun G =>
    let put (r x : Nat) (G : Group) : Group := (G.wvMask r 1 fun _ => BitVec.ofNat 32 x).wvMask (r + 1) 1 fun _ => BitVec.ofNat 32 (x / 2 ^ 32)
    { put 0 x (put 2 y (put 4 z G)) with preg := [(2, 1)], n := 16 }

/-- What `i` leaves in lane 0 of v6, from x in v0, y in v2 and z in v4. -/
abbrev v6 (i : Instr) (x y z : Nat) (r : Elem) : Bool := after i (lx x y z) fun G => lane (G.rv 6) 0 == r && lane (G.rv 6) 1 == 0
abbrev v67 (i : Instr) (x y z r : Nat) : Bool :=
  after i (lx x y z) fun G => (lane (G.rv 6) 0).toNat + 2 ^ 32 * (lane (G.rv 7) 0).toNat == r
abbrev lB (t : Ty) (sat : Bool) : Bin := { g := ⟨false, 2⟩, ty := t, m := ⟨sat, .rn⟩, d := 6, a := 0, b := .v 2 }
abbrev lU (t : Ty) (sat : Bool) : Un := { g := ⟨false, 2⟩, ty := t, m := ⟨sat, .rn⟩, d := 6, a := 0 }
abbrev lT (t : Ty) (sat : Bool) : Ter := { g := ⟨false, 2⟩, ty := t, m := ⟨sat, .rn⟩, d := 6, a := 0, b := .v 2, c := .v 4 }
abbrev lC (dst src : Ty) (sat : Bool) (r : Rnd) : Cvt := { g := ⟨false, 2⟩, dst := dst, src := src, m := ⟨sat, r⟩, d := 6, a := 0 }

theorem test_lane_integers :
    v6 (.vadd (lB .i8 false)) 0x7F 1 0 0xFFFFFF80 ∧ v6 (.vadd (lB .i8 true)) 0x7F 1 0 0x7F ∧ v6 (.vadd (lB .n16 true)) 0xFFFF 1 0 0xFFFF ∧
    v67 (.vadd (lB .n64 false)) 0xFFFFFFFF 1 0 0x100000000 ∧ v6 (.vsub (lB .n8 true)) 1 2 0 0 ∧ v6 (.vsub (lB .n8 false)) 1 2 0 0xFF ∧
    v6 (.vmul (lB .i16 true)) 0x7FFF 2 0 0x7FFF ∧ v6 (.vmulh (lB .i32 false)) 0x80000000 2 0 0xFFFFFFFF ∧ v6 (.vmulh (lB .n32 false)) 0x80000000 2 0 1 ∧
    v6 (.vmad (lT .i32 false)) 3 4 5 17 ∧ v6 (.vand (lB .i32 false)) 0xC 0xA 0 8 ∧ v6 (.vor (lB .i32 false)) 0xC 0xA 0 0xE ∧ v6 (.vxor (lB .i32 false)) 0xC 0xA 0 6 ∧
    v6 (.vnot (lU .n8 false)) 0x0F 0 0 0xF0 := by
  decide

theorem test_lane_shifts_and_fields :
    v6 (.vshl (lB .i8 true)) 0x40 1 0 0x7F ∧ v6 (.vshl (lB .i32 false)) 1 32 0 0 ∧ v6 (.vshr (lB .i16 false)) 0x8000 15 0 1 ∧
    v6 (.vsra (lB .n8 false)) 0x80 8 0 0xFF ∧ v6 (.vmin (lB .i32 false)) 0xFFFFFFFF 1 0 0xFFFFFFFF ∧ v6 (.vmin (lB .n32 false)) 0xFFFFFFFF 1 0 1 ∧
    v6 (.vmax (lB .i32 false)) 0xFFFFFFFF 1 0 1 ∧ v6 (.vabs (lU .i8 false)) 0x80 0 0 0xFFFFFF80 ∧ v6 (.vabs (lU .i8 true)) 0x80 0 0 0x7F ∧
    v6 (.vneg (lU .i32 false)) 1 0 0 0xFFFFFFFF ∧ v6 (.vclz (lU .i16 false)) 1 0 0 15 ∧ v6 (.vpopc (lU .n8 false)) 0xF1 0 0 5 ∧
    v6 (.vbfx (lB .i32 false)) 0xF0 0x404 0 0xFFFFFFFF ∧ v6 (.vbfx (lB .n32 false)) 0xF0 0x404 0 0xF ∧ v6 (.vbfi (lB .n32 false)) 0xF 0x404 0 0xF0 ∧
    v6 (.vbrev (lU .n8 false)) 1 0 0 0x80 ∧ v6 (.vaddmin (lT .i32 false)) 3 4 5 5 ∧ v6 (.vaddmax (lT .i32 false)) 3 4 5 7 := by
  decide

theorem test_lane_floats :
    v6 (.vfadd (lB .f32 false)) 0x3F800000 0x40000000 0 0x40400000 ∧ v6 (.vfsub (lB .f32 false)) 0x3F800000 0x3F800000 0 0 ∧
    v6 (.vfmul (lB .f16 false)) 0x4000 0x4200 0 0x4600 ∧ v6 (.vfma (lT .f32 false)) 0x40000000 0x40400000 0x3F800000 0x40E00000 ∧
    v6 (.vfmin (lB .f32 false)) 0x80000000 0 0 0x80000000 ∧ v6 (.vfmax (lB .f32 false)) 0x3F800000 0xBF800000 0 0x3F800000 ∧
    v6 (.vfabs (lU .bf16 false)) 0xBF80 0 0 0x3F80 ∧ v6 (.vfneg (lU .f32 false)) 0x3F800000 0 0 0xBF800000 ∧
    v6 (.vfrcp (lU .f32 false)) 0x40000000 0 0 0x3F000000 ∧ v6 (.vfrsq (lU .f32 false)) 0x40800000 0 0 0x3F000000 ∧
    v6 (.vfsqrt (lU .f32 false)) 0x40800000 0 0 0x40000000 ∧ v6 (.vfdiv (lB .f32 false)) 0x3F800000 0 0 0x7F800000 ∧
    v6 (.vfdiv (lB .f32 true)) 0x3F800000 0 0 0x7F7FFFFF ∧ v6 (.vfrnd (lU .f32 false)) 0x40200000 0 0 0x40000000 ∧
    v6 (.vfscl (lB .f32 false)) 0x3F800000 3 0 0x41000000 ∧ v6 (.vaddmax (lT .f32 false)) 0x3F800000 0x3F800000 0x40400000 0x40400000 := by
  decide +kernel

theorem test_lane_float_functions :
    v6 (.vfex2 (lU .f32 false)) 0x40400000 0 0 0x41000000 ∧ v6 (.vflg2 (lU .f32 false)) 0x41000000 0 0 0x40400000 ∧
    v6 (.vfsin (lU .f32 false)) 0x80000000 0 0 0x80000000 ∧ v6 (.vfcos (lU .f32 false)) 0 0 0 0x3F800000 ∧ v6 (.vfsin (lU .f32 false)) 0x7F800000 0 0 0x7FC00000 := by
  decide +kernel

theorem test_lane_conversions :
    v6 (.vcvt (lC .i8 .i32 true .rn)) 300 0 0 0x7F ∧ v6 (.vcvt (lC .f16 .f32 false .rz)) 0x3F801FFF 0 0 0x3C00 ∧
    v67 (.vcvt (lC .i64 .f32 false .rn)) 0xC0000000 0 0 0xFFFFFFFFFFFFFFFE ∧ v6 (.vpack (lC .n16 .n32 false .rn)) 0x200000001 0 0 0x20001 ∧
    after (.vunpk (lC .i32 .i16 false .rn)) (lx 0x8000FFFF 0 0) (fun G => lane (G.rv 6) 0 == 0xFFFFFFFF && lane (G.rv 7) 0 == 0xFFFF8000) ∧
    after (.vcmp { g := ⟨false, 2⟩, ty := .i32, rel := .lt, comb := .set, pd := 5, a := 0, b := .v 2 }) (lx 0xFFFFFFFF 1 0) (fun G => G.rp 5 == 1) ∧
    after (.vcmp { g := ⟨false, 2⟩, ty := .f32, rel := .unord, comb := .or, pd := 5, a := 0, b := .v 2 }) (lx 0x7FC00000 1 0) (fun G => G.rp 5 == 1) ∧
    v6 (.vsel { g := ⟨false, 2⟩, ty := .i32, d := 6, a := 0, b := .v 2, q := 2, inv := true }) 1 2 0 2 ∧
    after (.vpand ⟨⟨false, 0⟩, 5, 2, 2⟩) (lx 0 0 0) (fun G => G.rp 5 == 1) ∧ after (.vpor ⟨⟨false, 0⟩, 5, 2, 0⟩) (lx 0 0 0) (fun G => G.rp 5 == Mask.all) ∧
    after (.vpxor ⟨⟨false, 0⟩, 5, 2, 2⟩) (lx 0 0 0) (fun G => G.rp 5 == 0) ∧ after (.vpnot ⟨false, 0⟩ 5 2) (lx 0 0 0) (fun G => G.rp 5 == ~~~1) ∧
    v6 (.vmov ⟨false, 2⟩ .i32 6 (.v 2)) 0 7 0 7 ∧ v6 (.vmovi ⟨false, 2⟩ .i8 6 0xFFFFFFFF) 0 0 0 0xFFFFFFFF ∧
    after (.vlaneid ⟨false, 0⟩ 6) (lx 0 0 0) (fun G => lane (G.rv 6) 255 == 255) ∧ v6 (.vp2v ⟨false, 2⟩ 6 2) 0 0 0 1 ∧
    after (.vv2p ⟨false, 2⟩ 5 0) (lx 4 0 0) (fun G => G.rp 5 == 1) := by
  decide

theorem test_lane_exchange :
    after (.vshup { g := ⟨false, 0⟩, ty := .i32, d := 6, a := 0, count := .imm 1, fill := .zero }) (lx 9 0 0) (fun G => lane (G.rv 6) 1 == 9 && lane (G.rv 6) 0 == 0) ∧
    after (.vshdn { g := ⟨false, 0⟩, ty := .i32, d := 6, a := 0, count := .imm 1, fill := .rot }) (lx 9 0 0) (fun G => lane (G.rv 6) 255 == 9) ∧
    after (.vperm { g := ⟨false, 0⟩, ty := .i32, d := 6, a := 0, b := .imm 256 }) (lx 9 0 0) (fun G => lane (G.rv 6) 255 == 9) ∧
    after (.vbcast { g := ⟨false, 0⟩, ty := .i32, d := 6, a := 0, b := .imm 1 }) (lx 9 0 0) (fun G => lane (G.rv 6) 255 == 0) ∧
    after (.vred { g := ⟨false, 0⟩, ty := .i32, sat := false, kind := .add, ex := false, d := 6, a := 0 }) (lx 9 0 0) (fun G => lane (G.rv 6) 255 == 9) ∧
    after (.vscan { g := ⟨false, 0⟩, ty := .i32, sat := false, kind := .add, ex := true, d := 6, a := 0 }) (lx 9 0 0) (fun G => lane (G.rv 6) 0 == 0 && lane (G.rv 6) 1 == 9) ∧
    after (.vvote ⟨false, 0⟩ .ballot 0 2) (lx 0 0 0) (fun G => G.vote == 1) ∧ after (.vvote ⟨false, 2⟩ .all 5 2) (lx 0 0 0) (fun G => G.rp 5 == 1) ∧
    after (.velect ⟨true, 2⟩ 5) (lx 0 0 0) (fun G => G.rp 5 == 2) ∧
    after (.vperm { g := ⟨false, 0⟩, ty := .i32, d := 6, a := 0, b := .imm 0 }) (lng fun G => { G with memmask := ~~~1 }) (fun G => G.trap.cause == 9 && G.faultmask == 1) := by
  decide


/-! ### The tile engine -/

/-- `lm` with 4 tiles and 64 KiB of scratch, in test mode; p2 selects lane 0, and the tile operands stand in s10 to s14. -/
abbrev tstate (ms : List Host.Cell) (acc : SMap Lanes) (f : Group → Group) : State :=
  { ((lm fun G => f { ((((G.ws 10 0).ws 11 0x300000002).ws 12 0x40).ws 14 0x80) with preg := [(2, 1)] }).modLaunch 2 fun L =>
      { L with desc := { L.desc with scratch := 0x10000, acctiles := 4 } }).modCtx 0 (fun C => { C with flags := 1 }) with mem := ms, acc := acc }

/-- A ranked list of two places at offset 0x80, descending, and a second at 0xC0. -/
abbrev lists : List Host.Cell :=
  writeLE (writeLE (writeLE (writeLE [] (2 ^ 52 + 0x80) 8 0x100000002) (2 ^ 52 + 0x90) 8 0x740000000) (2 ^ 52 + 0xC0) 8 0x100000001) (2 ^ 52 + 0xD0) 8 0x940400000

abbrev gw : LGuard := ⟨false, 2⟩
abbrev mmaw : MmaL := { g := gw, tile := 3, fw := 1, sa := 10, sb := 10 }
abbrev mepw : MepiL :=
  { g := gw, tile := 3, ty := .i32, m := ⟨false, .rn⟩, glob := false, add := false, act := .none, sb := false, int := true, base := 12, par := 0 }
abbrev disw : DistL := { g := gw, ty := .i8, l2 := true, d := 7, q := 10, c := 12 }

/-- The operands of a plan pass their checks. -/
abbrev planOk (s : State) (G : Group) (add : Bool) (p : TilePlan) : Bool := match p with
  | .go areas _ _ _ => (match chkAreas s G add areas with | .ok _ => true | _ => false)
  | _ => false

theorem witness_TileInstructionsIssue :
    S4 (tstate [] [] fun G => G.wvMask 1 1 fun _ => 0x55) (fun G S => CountersOk G ∧ G.ctl < 63 ∧ Members G (Active G S gw) ∧ Active G S gw ≠ 0 ∧
      (1 : VReg).toNat < G.n ∧ 3 ≤ (tstate [] [] id).level G.core ∧ lane (G.rv 1) 0 = 0x55 ∧ pairK false 5 5 = some 64 ∧ pairK true 6 0 = none) ∧
    G4 (tstate [] [] id) (fun G => (mget (tstate [] [] id).blocks G.blk).any (fun B => B.comp == none) ∧
      (mget (tstate [] [] id).launches 2).any (fun L => decide (3 < L.desc.acctiles))) ∧
    S4 (tstate [] [] fun G => { (G.wvMask 1 1 fun _ => 0x55) with preg := [(2, 3)] }) (fun G S => (Active G S gw).getLsbD 0 = true ∧ (Active G S gw).getLsbD 1 = true ∧
      lane (G.rv 1) 0 ≠ lane (G.rv 1) 1) := by
  refine ⟨?_, ?_, ?_⟩ <;> decide

theorem witness_TileInstructionsIssue_plans :
    S4 (tstate lists [] id) (fun G S => planOk (tstate lists [] id) G false (mmaPlan G mmaw false (Active G S gw)) = true ∧
      planOk (tstate lists [] id) G false (mepiPlan G mepw (Active G S gw)) = true ∧ planOk (tstate lists [] id) G false (distPlan G disw (Active G S gw)) = true ∧
      planOk (tstate lists [] id) G false (listPlan (tstate lists [] id) G S (Active G S gw) 0x80 none [(0, 0)]) = true ∧
      planOk (tstate lists [] id) G false (listPlan (tstate lists [] id) G S (Active G S gw) 0x80 (some 0xC0) []) = true) := by
  decide

/-- The tile operation that an instruction put in flight. -/
abbrev tissued (i : Instr) (s : State) (p : TileOp → Bool) : Bool :=
  ran (exec i s) fun t => (mget t.groups 4).any (·.ctl == 1) && (mget t.ops s.nextId).any fun o => match o.body with
    | .tile x => p x
    | _ => false

theorem test_tile_issue :
    tissued (.mma mmaw) (tstate [] [] fun G => G.wvMask 1 1 fun _ => 0x55) (fun x => x.mask == 1 && x.what == .mma false 5 5 (2 ^ 52) (2 ^ 52)) ∧
    tissued (.mmas mmaw) (tstate [] [] fun G => G.wvMask 1 1 fun _ => 0x55) (fun x => x.what == .mma true 5 5 (2 ^ 52) (2 ^ 52)) ∧
    after (.mma mmaw) (tstate [] [] fun G => G.wvMask 1 1 fun _ => 0x54) (fun G => G.trap.cause == 8 && G.faultmask == 1) ∧
    tissued (.mzero gw 3) (tstate [] [] id) (fun x => x.what == .mzero) ∧ tissued (.mepi mepw) (tstate [] [] id) (fun x => x.tile == some (3 * 4 * 64 + 3)) ∧
    tissued (.vdist disw) (tstate [] [] id) (fun x => x.what == .vdist .i8 true 7 0 2 3 0x40) ∧
    tissued (.topk gw 1 2 14) (tstate lists [] id) (fun x => x.what == .topk (2 ^ 52 + 0x80) 2 false [(0, 0)]) ∧
    after (.topk gw 1 2 14) (tstate [] [] id) (fun G => G.trap.cause == 1) := by
  decide

theorem witness_TileReadInTestMode :
    S4 (tstate [] [] id) (fun G S => (mget (tstate [] [] id).ctxs 0).any (·.flags.getLsbD 0) ∧ (7 : VReg).toNat < G.n ∧ Active G S gw ≠ 0 ∧
      tileKey (tstate [] [] id) G 3 = 3 * 4 * 64 + 3 ∧ (tstate [] [] id).accPoison = [] ∧ (tstate [] [] id).accSick = [] ∧
      live (tstate [] [] id) ((G.stall.map (·.2)).getD (tileQueue (tstate [] [] id) (tileKey (tstate [] [] id) G 3))) = []) ∧
    (mget ln.ctxs 0).any (!·.flags.getLsbD 0) := by
  decide

/-- Row 0 of tile 3 of block 3: element j is j. -/
abbrev row0 : SMap Lanes := [((3 * 4 * 64 + 3) * 256, (List.range 32).map fun j => BitVec.ofNat 32 j)]

theorem test_tile_read :
    after (.mtrd gw 7 3 5) (tstate [] row0 id) (fun G => lane (G.rv 7) 0 == 5) ∧ after (.mtrd gw 7 3 5) ln (fun G => G.trap.cause == 1) := by
  decide

/-- A tile operation in flight. -/
abbrev tfly (ms : List Host.Cell) (w : TileDo) : State :=
  { tstate ms row0 (fun G => { G with ctl := 1 }) with
    ops := [(60, { grp := some 4, str := .split 0, run := none, core := 0, ctx := 0, launch := some 2, blk := some 3, deps := [],
                   body := .tile { what := w, tile := some (3 * 4 * 64 + 3), mask := 1, ov := 0, off := 0, split := 0 } })] }

theorem witness_TileReadInTestMode_waits :
    S4 (tfly [] .mzero) (fun G _ => live (tfly [] .mzero) ((G.stall.map (·.2)).getD (tileQueue (tfly [] .mzero) (tileKey (tfly [] .mzero) G 3))) = [60]) ∧
    3 * 4 * 64 + 3 ∈ ({ tstate [] [] id with accSick := [3 * 4 * 64 + 3] } : State).accSick := by
  decide

theorem witness_StalledGroupWaits :
    G4 ((tfly [] .mzero).modGrp 4 fun G => { G with stall := some (0, [60]) }) (fun G => G.stall = some (0, [60]) ∧
      mget (tfly [] .mzero).ops 60 ≠ none ∧ (1 : Nat) ≠ 0) := by
  decide

theorem test_tile_read_stalls :
    after (.mtrd gw 7 3 5) (tfly [] .mzero) (fun G => G.stall == some (0, [60]) && pcs G == [(0, 0, Mask.all)]) ∧
    after (.mtrd gw 7 3 5) ({ tstate [] row0 id with accSick := [3 * 4 * 64 + 3] }) (fun G => lane (G.rv 7) 0 == 0 && G.trap.cause == 0x0F) := by
  decide

theorem witness_TileOperationsRetire :
    (mget (tfly [] .mzero).ops 60).any (fun o => o.grp == some 4 && o.deps == [] && o.unit == none && o.aud == none && o.rel == []) ∧
    (tfly [] .mzero).runUnits = [] ∧ (tfly [] .mzero).poison = [] ∧ (tfly [] .mzero).accPoison = [] ∧ (tfly [] .mzero).accSick = [] ∧
    ((mget (tfly [] .mzero).ops 60).any fun o => match o.body with
      | .tile x => (tileReach (tfly [] .mzero) o x).isSome
      | _ => false) ∧
    (tileRow (tfly [] .mzero) (3 * 4 * 64 + 3) 0).length = 32 ∧ (1 : Mask) = (1 : Mask) <<< 0 ∧ pairK false 5 5 = some 64 ∧
    (5 : Nat) ≠ 2 ∧ (2 : Nat) < 2 ^ 32 ∧ G4 (tfly [] .mzero) (fun G => 0 < (G.rv 7).length) := by
  decide

/-- A: elements 3 and −1 at the start of row 0; B: row 0 of the shared operand begins with 2, row 1 with 5. -/
abbrev abs_ : List Host.Cell := writeLE (writeLE (writeLE [] (2 ^ 52) 2 0xFF03) (2 ^ 52 + 0x1000) 1 2) (2 ^ 52 + 0x1020) 1 5

theorem test_tile_operations :
    ran (exec (.tileOpRetire 60) (tfly [] .mzero)) (fun t => t.acc == [] && t.ops == []) ∧
    ran (exec (.tileOpRetire 60) (tfly [] (.mepi mepw 0x40 0 0 []))) (fun t => t.read (2 ^ 52 + 0x40 + 124) 4 == 31) ∧
    after (.tileOpRetire 60) (tfly (writeLE (writeLE [] (2 ^ 52) 2 0x0201) (2 ^ 52 + 0x40) 2 0x05FF) (.vdist .i8 true 7 0 2 3 0x40)) (fun G =>
      lane (G.rv 7) 0 == 0x41500000 && G.ctl == 0) ∧
    ran (exec (.tileOpRetire 60) (tfly lists (.topk (2 ^ 52 + 0x80) 2 false [(0x40400000, 9)]))) (fun t =>
      t.read (2 ^ 52 + 0x84) 4 == 2 && t.read (2 ^ 52 + 0x90) 8 == 0x940400000 && t.read (2 ^ 52 + 0x98) 8 == 0x740000000) ∧
    ran (exec (.tileOpRetire 60) (tfly lists (.topkm (2 ^ 52 + 0x80) (2 ^ 52 + 0xC0) 2 1 false))) (fun t => t.read (2 ^ 52 + 0x90) 8 == 0x940400000) := by
  decide

theorem test_tile_product :
    ran (exec (.tileOpRetire 60) (tfly abs_ (.mma false 5 5 (2 ^ 52) (2 ^ 52 + 0x1000)))) (fun t =>
      lane (tileRow t (3 * 4 * 64 + 3) 0) 0 == 1 && lane (tileRow t (3 * 4 * 64 + 3) 0) 1 == 1) := by
  decide +kernel


/-! ### Phasers -/

/-- A launch of 2 package phasers: package phaser 1 is in phase 5, block phaser 3 in phase 7 with one arrival of three. -/
abbrev phs (f : Group → Group) (P1 P3 : Phaser) : State :=
  ((scg f).modLaunch 2 fun L => { L with desc := { L.desc with pphasers := 2 }, phasers := [(1, P1)] }).modBlk 3 fun B => { B with phasers := [(3, P3)] }
abbrev pp1 : Phaser := { cur := 5 }
abbrev bp3 : Phaser := { cur := 7, expect := some 3, arr := 1 }
abbrev mb (mode : PhMode) (ag : BitVec 32) (drain : Bool) (hold : Nat) : Memb := { mode := mode, ag := ag, drain := drain, hold := hold }
/-- s5 names phaser 3 (or package phaser 1 with s6), s7 is the count 3. -/
abbrev ops (G : Group) : Group := { ((G.ws 5 3).ws 6 1).ws 7 3 with memb := [] }
abbrev memb3 (m : Memb) (G : Group) : Group := { ops G with memb := [(3, m)] }
abbrev memb65 (m : Memb) (G : Group) : Group := { ops G with memb := [(65, m)] }

theorem hasLaunch_sc (f : Group → Group) (P1 P3 : Phaser) (G : Group) (h : G.blk = 3) : HasLaunch (phs f P1 P3) G := by
  unfold HasLaunch; rw [h]; exact ⟨_, _, rfl, rfl⟩

theorem witness_PhaserMembership :
    G4 (phs ops pp1 bp3) (fun G => Scalar (phs ops pp1 bp3) 4 G ∧ G.blk = 3 ∧ G.audit = none ∧ NamesPhaser (phs ops pp1 bp3) G 5 false 3 ∧
      NamesPhaser (phs ops pp1 bp3) G 6 true 65 ∧ heldMemb (phs ops pp1 bp3) G 3 = none ∧ mget G.memb 3 = none ∧
      (G.memb.filter fun p => 64 ≤ p.1).length < 8 ∧ NoDrain G ∧ (G.rs 6).toNat = true.toNat ∧ (G.rs 0).toNat = false.toNat) ∧
    G4 (phs (memb3 (mb .sw 7 false 0)) pp1 bp3) (fun G => (mget G.memb 3).isSome ∧ heldMemb (phs (memb3 (mb .sw 7 false 0)) pp1 bp3) G 3 = none) := by
  decide

theorem witness_PhaserMembership_none :
    ∃ G, mget (phs (fun G => G.ws 5 64) pp1 bp3).groups 4 = some G ∧ ∀ k, ¬ NamesPhaser (phs (fun G => G.ws 5 64) pp1 bp3) G 5 false k := by
  refine ⟨_, rfl, fun k h => ?_⟩
  rcases h with ⟨-, rfl, h⟩ | ⟨h, -⟩
  · exact absurd h (by decide)
  · cases h

theorem test_phaser_membership :
    after (.phreg 9 5 0 .sw false) (phs ops pp1 bp3) (fun G => G.memb == [(3, mb .sw 8 false 0)] && G.rs 9 == 8 && G.pc == 1) ∧
    after (.phreg 9 6 6 .wait true) (phs ops pp1 bp3) (fun G => G.memb == [(65, mb .wait 5 true 0)] && G.rs 9 == 5) ∧
    traps (.phreg 9 5 0 .sw false) (phs (memb3 (mb .sw 7 false 0)) pp1 bp3) 1 ∧
    after (.phdrop 5 false) (phs (memb3 (mb .sw 7 false 0)) pp1 bp3) (fun G => G.memb == [] && G.pc == 1) ∧ traps (.phdrop 5 false) (phs ops pp1 bp3) 1 ∧
    traps (.pharr 9 5 7 false) (phs (fun G => G.ws 5 64) pp1 bp3) 1 := by
  decide

theorem witness_PhaserArrivals :
    G4 (phs (memb3 (mb .sw 7 false 0)) pp1 bp3) (fun G => Sorted (phs (memb3 (mb .sw 7 false 0)) pp1 bp3).groups ∧ ¬ (mb .sw 7 false 0).mode = .wait ∧
      (mb .sw 7 false 0).ag = ((phs (memb3 (mb .sw 7 false 0)) pp1 bp3).ph G 3).cur ∧ ((phs (memb3 (mb .sw 7 false 0)) pp1 bp3).ph G 3).broken = false ∧
      ((phs (memb3 (mb .sw 7 false 0)) pp1 bp3).ph G 3).drain = false ∧ (G.rs 7).toNat < 2 ^ 16 ∧ ((3 : Nat) = 0 ↔ (G.rs 7).toNat = 0) ∧
      ((phs (memb3 (mb .sw 7 false 0)) pp1 bp3).ph G 3).expect = some (G.rs 7).toNat ∧ ¬ (G.rs 7).toNat ≤ ((phs (memb3 (mb .sw 7 false 0)) pp1 bp3).ph G 3).arr + 1 ∧
      unacked (phs (memb3 (mb .sw 7 false 0)) pp1 bp3) (scalarEarlier (phs (memb3 (mb .sw 7 false 0)) pp1 bp3) G) = []) ∧
    G4 (phs (memb3 (mb .sw 8 false 0)) pp1 { bp3 with arr := 2 }) (fun G => (mb .sw 8 false 0).ag ≠ ((phs (memb3 (mb .sw 8 false 0)) pp1 bp3).ph G 3).cur ∧
      (G.rs 7).toNat ≤ ((phs (memb3 (mb .sw 8 false 0)) pp1 { bp3 with arr := 2 }).ph G 3).arr + 1) := by
  refine ⟨?_, ?_⟩ <;> decide

/-- Phaser 0: one other group of the block has not arrived. -/
theorem witness_PhaserArrivals_waits :
    G4 (phs (fun G => { memb3 (mb .sw 7 false 0) G with wait := .arrived false 3 7 }) pp1 bp3) (fun G => G.wait = .arrived false 3 7 ∧
      ¬ (1 ≤ (bp3.cur - 7).toNat) ∧ 1 ≤ (({ bp3 with cur := 8 } : Phaser).cur - 7).toNat ∧ (({ bp3 with cur := 8 } : Phaser).cur - 7).toNat ≤ 2 ^ 31 ∧ bp3.broken = false) ∧
    G4 (phs (memb3 (mb .wait 7 false 0)) pp1 bp3) (fun G => (mb .wait 7 false 0).mode ≠ .sig ∧ (G.rs 7).toNat < 2 ^ 32 ∧
      1 ≤ (bp3.cur - BitVec.ofNat 32 (G.rs 7).toNat).toNat ∧ (bp3.cur - BitVec.ofNat 32 (G.rs 7).toNat).toNat ≤ 2 ^ 31 ∧ G.wait = .none) ∧
    ({ bp3 with broken := true } : Phaser).broken = true := by
  decide

theorem test_phaser_arrivals :
    ran (exec (.pharr 9 5 7 false) (phs (memb3 (mb .sig 7 false 0)) pp1 bp3)) (fun t => (mget t.blocks 3).any fun B => (mget B.phasers 3).any fun p => p.arr == 2 && p.cur == 7) ∧
    ran (exec (.pharr 9 5 7 false) (phs (memb3 (mb .sig 7 false 0)) pp1 { bp3 with arr := 2 })) (fun t => (mget t.blocks 3).any fun B =>
      (mget B.phasers 3).any fun p => p.arr == 0 && p.cur == 8) ∧
    after (.pharr 9 5 7 false) (phs (memb3 (mb .sig 7 false 0)) pp1 bp3) (fun G => G.rs 9 == 7 && G.pc == 1 && G.memb == [(3, mb .sig 8 false 0)]) ∧
    after (.pharr 9 5 7 false) (phs (memb3 (mb .sig 8 false 0)) pp1 bp3) (fun G => G.pc == 0) ∧
    after (.phaw 9 5 7 false) (phs (memb3 (mb .sw 7 false 0)) pp1 bp3) (fun G => G.pc == 0 && G.wait == .arrived false 3 7) ∧
    after (.phaw 9 5 7 false) (phs (fun G => { memb3 (mb .sw 8 false 0) G with wait := .arrived false 3 7 }) pp1 { bp3 with cur := 8 }) (fun G => G.pc == 1 && G.rs 9 == 7) ∧
    traps (.phaw 9 5 7 false) (phs (fun G => { memb3 (mb .sw 8 false 0) G with wait := .arrived false 3 7 }) pp1 { bp3 with broken := true }) 0x0C ∧
    after (.phwt 5 7 false) (phs (memb3 (mb .wait 7 false 0)) pp1 bp3) (fun G => G.pc == 1) := by
  decide

theorem test_phaser_query :
    after (.phqry 9 5 false) (phs (memb3 (mb .sw 8 false 0)) pp1 bp3) (fun G => G.rs 9 == 0x7800000100000007) ∧
    after (.phqry 9 6 true) (phs ops pp1 bp3) (fun G => G.rs 9 == 5) := by
  decide

theorem witness_DrainShares :
    G4 (phs (fun G => (memb65 (mb .sw 5 true 7) G).ws 8 0x0100000500000003) pp1 bp3) (fun G => G.audit = none ∧ G.comp = none ∧ drainOf G = some (1, mb .sw 5 true 7) ∧
      (∃ L ∈ mget (phs id pp1 bp3).launches 2, 1 < L.desc.pphasers) ∧ (mb .sw 5 true 7).ag = ((phs id pp1 bp3).ph G 65).cur ∧ 2 ≤ (mb .sw 5 true 7).hold ∧
      (mb .sw 5 true 7).hold < 2 ^ 32 ∧ (mb .sw 5 true 1).hold < 2 ∧ 2 ≤ ((phs id pp1 bp3).ph G 65).root0 ∧
      (G.rs 8).toNat = 2 ^ 56 * 1 + 2 ^ 32 * ((mb .sw 5 true 7).ag.toNat % 2 ^ 24) + 3) ∧
    G4 (phs (memb65 (mb .sw 5 true 1)) { pp1 with root0 := 0 } bp3) (fun G => (mb .sw 5 true 1).hold + min (2 ^ 16) ((phs (memb65 (mb .sw 5 true 1)) { pp1 with root0 := 0 } bp3).ph G 65).root0 < 2) ∧
    G4 (phs (fun G => (memb65 (mb .sw 5 true 7) G).ws 8 0x0000000500000003) pp1 bp3) (fun G => (G.rs 8).toNat / 2 ^ 56 = 0 ∧ mget G.memb (64 + 0) = none) := by
  decide

theorem test_drain_shares :
    after (.wsplit 9) (phs (memb65 (mb .sw 5 true 7)) pp1 bp3) (fun G => G.memb == [(65, mb .sw 5 true 4)] && G.rs 9 == 0x0100000500000003) ∧
    ran (exec (.wsplit 9) (phs (memb65 (mb .sw 5 true 0)) pp1 bp3)) (fun t => (mget t.launches 2).any fun L => (mget L.phasers 1).any fun p => p.root0 == 2 ^ 32 - 2 ^ 16) ∧
    after (.wsplit 9) (phs (memb65 (mb .sw 5 true 1)) { pp1 with root0 := 0 } bp3) (fun G => G.memb == [(65, mb .sw 5 true 1)] && G.pc == 0) ∧
    traps (.wret 8) (phs (fun G => (memb65 (mb .sw 5 true 7) G).ws 8 0x0000000500000003) pp1 bp3) 1 ∧
    after (.wret 8) (phs (fun G => (memb65 (mb .sw 5 true 7) G).ws 8 0x0100000500000003) pp1 bp3) (fun G => G.memb == [(65, mb .sw 5 true 10)] && G.pc == 1) := by
  decide

theorem witness_DrainArrival :
    G4 (phs (memb65 (mb .sw 5 true 7)) { pp1 with root0 := 2 ^ 32 - 7 } bp3) (fun G => Scalar (phs (memb65 (mb .sw 5 true 7)) { pp1 with root0 := 2 ^ 32 - 7 } bp3) 4 G ∧
      0 < (G.rs 7).toNat ∧ (G.rs 7).toNat < 2 ^ 16 ∧ pp1.expect = none ∧ pp1.arr + 1 < (G.rs 7).toNat ∧ 2 ^ 32 - 7 + (mb .sw 5 true 7).hold ≤ 2 ^ 32 ∧
      pp1.root1 ≤ 2 ^ 32 ∧ (mb .sw 5 true 7).mode = .sw ∧ G.wait = .none) := by
  decide

theorem test_drain_arrival :
    ran (exec (.phdrain 9 6 7) (phs (memb65 (mb .sw 5 true 7)) { pp1 with root0 := 2 ^ 32 - 7 } bp3)) (fun t => (mget t.launches 2).any fun L => (mget L.phasers 1).any fun p =>
      p.root0 == 2 ^ 32 && p.arr == 1 && p.drain && p.expect == some 3) := by
  decide


/-- What group 4 is after `i` at two turns. -/
abbrev twice (i : Instr) (s : State) (p : Group → Bool) : Bool := ran (exec i s) fun t => ran (exec i t) fun u => (mget u.groups 4).any p

abbrev laststate : State := phs (memb3 (mb .sw 7 false 0)) pp1 { bp3 with arr := 2 }
abbrev lastdrain : State := phs (memb65 (mb .sw 5 true 7)) { pp1 with root0 := 2 ^ 32 - 7, arr := 2 } bp3
abbrev rejoin : State := (phs ops pp1 bp3).modBlk 3 fun B => { B with held := [(0, 3, mb .sw 7 false 0)] }
/-- A unit of package phaser 1 of the phase after the current one. -/
abbrev nextunit : State := phs (fun G => (memb65 (mb .sw 5 true 7) G).ws 8 0x0100000600000003) pp1 bp3

theorem witness_PhaserFormsComplete :
    G4 rejoin (fun G => NamesPhaser rejoin G 5 false 3 ∧ heldMemb rejoin G 3 = some (mb .sw 7 false 0)) ∧
    G4 laststate (fun G => Sorted laststate.groups ∧ mget G.memb 3 = some (mb .sw 7 false 0) ∧ (laststate.ph G 3).cur = 7 ∧ (laststate.ph G 3).broken = false ∧
      (laststate.ph G 3).drain = false ∧ (laststate.ph G 3).expect = some (G.rs 7).toNat ∧ (G.rs 7).toNat ≤ (laststate.ph G 3).arr + 1 ∧ G.wait = .none) ∧
    G4 lastdrain (fun G => NamesPhaser lastdrain G 6 true 65 ∧ Sorted lastdrain.groups ∧ Sorted lastdrain.blocks ∧ mget G.memb 65 = some (mb .sw 5 true 7) ∧ G.wait = .none ∧
      (lastdrain.ph G 65).cur = 5 ∧ (lastdrain.ph G 65).broken = false ∧ (lastdrain.ph G 65).expect = none ∧ (G.rs 7).toNat ≤ (lastdrain.ph G 65).arr + 1 ∧
      (lastdrain.ph G 65).root0 + 7 = 2 ^ 32 ∧ (lastdrain.ph G 65).root1 ≤ 2 ^ 32 ∧ unacked lastdrain (scalarEarlier lastdrain G) = []) ∧
    G4 nextunit (fun G => (G.rs 8).toNat = 2 ^ 56 * 1 + 2 ^ 32 * 6 + 3 ∧ 6 = ((nextunit.ph G 65).cur + 1).toNat % 2 ^ 24 ∧ 6 ≠ (mb .sw 5 true 7).ag.toNat % 2 ^ 24 ∧
      G.comp = none ∧ mget G.memb 65 = some (mb .sw 5 true 7)) := by
  decide

theorem test_phaser_forms_complete :
    after (.phreg 9 5 0 .sw false) rejoin (fun G => G.memb == [(3, mb .sw 7 false 0)] && G.rs 9 == 7) ∧
    twice (.phaw 9 5 7 false) laststate (fun G => G.pc == 1 && G.rs 9 == 7 && G.wait == .none) ∧ twice (.phdrain 9 6 7) lastdrain (fun G => G.pc == 1 && G.rs 9 == 5 && G.wait == .none) ∧
    after (.wret 8) nextunit (·.pc == 1) ∧ after (.phdrop 6 true) (phs (memb65 (mb .sw 5 true 7)) pp1 bp3) (·.pc == 1) := by
  decide

/-! ### Launches -/

/-- Block 3 waiting for core 0, in an interface whose quota has 256 slots of every core, with no group. -/
abbrev bws : State :=
  { (sc.modBlk 3 fun B => { B with st := .waiting }).modLaunch 2 (fun L => { L with desc := { L.desc with scratch := 4096 } }) with
    groups := [], vifs := [(0, { Vif.reset with quota := { Quota.none with clusters := 0xFFFFFFFF, slots := List.replicate 32 256 } })] }

theorem scrPlace_some (s : State) (b n core : Nat) (h : scrFree s core 0 n = true) : ∃ off, scrPlace s b n [core] = some off := by
  unfold scrPlace
  by_cases h' : ([core].all fun c => scrFree s c (Config.freeNat s.tick b % 24577 * 64) n) = true
  · exact ⟨_, if_pos h'⟩
  · refine ⟨0, ?_⟩
    rw [if_neg h']
    simp [List.find?, h]

theorem placed (s : State) (L : Launch) (b : Nat) (B : Block) (core off : Nat) (h : (blockCores B.wide core).all (coreRoom s L B core) = true)
    (h' : scrPlace s b L.desc.scratch (blockCores B.wide core) = some off) : placeFor s L b B core = some (core, off) := by
  simp [placeFor, h, h']

theorem witness_BlockStarts :
    ∃ B L off, mget bws.blocks 3 = some B ∧ mget bws.launches B.launch = some L ∧ B.st = .waiting ∧ B.comp = none ∧ B.audit = none ∧ L.starts = true ∧
      behind bws L (blockCores B.wide B.core) = false ∧ placeFor bws L 3 B B.core = some (B.core, off) ∧ tilesQuiet bws 3 (blockCores B.wide B.core) = true := by
  obtain ⟨off, h⟩ := scrPlace_some bws 3 4096 0 (by decide)
  refine ⟨_, _, off, rfl, rfl, rfl, rfl, rfl, by decide, by decide, ?_, by decide⟩
  exact placed _ _ _ _ _ _ (by decide) h

/-- Group 4 PLACED in its block LOADING; `ready`: its fixed overlay has come. -/
abbrev pls (ready : Bool) : State :=
  { (scg fun G => { G with st := .placed, copy := 0 }).modBlk 3 (fun B => { B with st := .loading }) with
    copies := sc.copies.map fun p => (p.1, { p.2 with loading := !ready }) }

theorem witness_GroupStarts :
    G4 (pls true) (fun G => G.st = .placed ∧ G.comp = none ∧ ∃ B ∈ mget (pls true).blocks G.blk, B.st = .loading ∧ fixedReady (pls true) B = true) ∧
    (∃ B ∈ mget (pls false).blocks 3, fixedReady (pls false) B = false) := by
  decide

theorem test_group_start :
    after (.groupStart 4) (pls true) (fun G => G.st == .running && G.copy == 1) ∧ after (.groupStart 4) (pls false) (·.st == .placed) := by
  decide

/-- Group 4 with its wait, and launch 2 changed. -/
abbrev dsp (w : SWait) (f : Launch → Launch) : State := (scg fun G => { G with wait := w }).modLaunch 2 f
abbrev trig (L : Launch) : Launch := { L with desc := { L.desc with flags := 8, wrapafter := 0, tilespace := 5 } }

/-- At the test trigger: a group that runs, that has been diverted, or that is in a section. -/
abbrev trg (f : Group → Group) : State := (dsp .dispSent trig).modGrp 4 f

theorem witness_TilesDispensed_trigger :
    (∀ f ∈ [fun G : Group => G, fun G => { G with wrapflag := true }, fun G => { G with sect := some (0, 0) }], G4 (trg f) fun G => G.st = .running ∧ G.wait = .dispSent ∧
      G.comp = none ∧ G.audit = none ∧ ∃ B ∈ mget (trg f).blocks 3, B.st = .started ∧ B.comp = none ∧ B.audit = none) ∧
    G4 (trg id) (fun G => G.wrapflag = false ∧ G.sect = none ∧ ∃ c, (trg id).code G G.ov G.copy = some c ∧ c.loading = false ∧ (c.scalarWord G.pc).isSome = true) ∧
    G4 cgs (fun G => G.comp ≠ none ∧ G.wait = .none) := by
  refine ⟨by decide, ⟨_, rfl, rfl, rfl, _, rfl, rfl, rfl⟩, by decide⟩

theorem witness_TilesDispensed :
    G4 (dsp (.dispAnswer 7) id) (fun G => Scalar (dsp (.dispAnswer 7) id) 4 G ∧ G.wait = .dispAnswer 7 ∧ G.comp = none ∧ G.audit = none) ∧ G4 sc (fun G => G.wait = .none) ∧
    G4 (dsp .dispSent id) (fun G => G.wait = .dispSent) ∧
    (∃ L ∈ mget sc.launches 2, L.dispWrapped = false ∧ L.returns = [] ∧ L.next < L.desc.tilespace ∧ ¬ (L.desc.flags.getLsbD 3 = true)) ∧
    (∃ L ∈ mget (dsp .dispSent fun L => { L with next := 1 }).launches 2, L.desc.tilespace ≤ L.next) ∧
    (∃ L ∈ mget (dsp .dispSent trig).launches 2, L.desc.flags.getLsbD 3 = true ∧ L.handed = L.desc.wrapafter ∧ L.desc.wrapafter < L.desc.tilespace ∧ L.wrapped = none) ∧
    (∃ L ∈ mget (dsp .dispSent fun L => { L with returns := [9] }).launches 2, L.returns = [9]) ∧
    (∃ L ∈ mget (dsp .dispSent fun L => { L with dispWrapped := true }).launches 2, L.dispWrapped = true) := by
  decide

abbrev answers (s : State) (x : Word) : Bool := after (.dispenserRequest 4) s (fun G => G.wait == .dispAnswer x)

theorem test_dispenser :
    after (.disp 9) (dsp (.dispAnswer 7) id) (fun G => G.rs 9 == 7 && G.pc == 1) ∧ after (.disp 9) sc (fun G => G.wait == .dispSent && G.pc == 0) ∧
    answers (dsp .dispSent id) 0 ∧ answers (dsp .dispSent fun L => { L with next := 1 }) 0xFFFFFFFFFFFFFFFF ∧
    answers (dsp .dispSent fun L => { L with returns := [9] }) 9 ∧ answers (dsp .dispSent fun L => { L with dispWrapped := true }) 0xFFFFFFFFFFFFFFFE ∧
    ran (exec (.dispenserRequest 4) (dsp .dispSent trig)) (fun t => (mget t.launches 2).any fun L => L.dispWrapped && L.wrapped == some 0) ∧
    answers (trg fun G => { G with wrapflag := true }) 0xFFFFFFFFFFFFFFFE ∧ answers (trg fun G => { G with sect := some (0, 0) }) 0xFFFFFFFFFFFFFFFE ∧
    after (.dispenserRequest 4) (trg id) (fun G => G.wrapflag && G.wait == .none && G.rs 9 == 0xFFFFFFFFFFFFFFFE) ∧ after (.disp 9) cgs (fun G => G.rs 9 == 0xFFFFFFFFFFFFFFFF && G.pc == 1) := by
  decide

/-- Group 4 compensates, until time 100. -/
abbrev cpn_ (now : Nat) : State := { (scg fun G => { G with comp := some (7, 1) }).modBlk 3 (fun B => { B with comp := some (7, 1), budgetEnd := some 100 }) with now := now }

/-- `disp`, its answer, and `disp` again. -/
abbrev dispensed (s : State) (p : Group → Bool) : Bool :=
  ran (exec (.disp 9) s) fun t => ran (exec (.dispenserRequest 4) t) fun u => ran (exec (.disp 9) u) fun v => (mget v.groups 4).any p

theorem witness_TileFormsComplete :
    (∃ L ∈ mget (dsp .none fun L => { L with returns := [9] }).launches 2, L.dispWrapped = false ∧ ¬ (L.desc.flags.getLsbD 3 = true) ∧ L.returns = [9]) ∧
    G4 (dsp .none id) (fun G => Scalar (dsp .none id) 4 G ∧ (∃ B ∈ mget (dsp .none id).blocks G.blk, B.launch = 2) ∧ G.wait = .none ∧ G.comp = none ∧ G.audit = none ∧ G.sect = none ∧
      unacked (dsp .none id) (scalarEarlier (dsp .none id) G) = []) ∧
    G4 (cpn_ 7) (fun G => G.comp.isSome = true ∧ ∃ B ∈ mget (cpn_ 7).blocks G.blk, B.budgetEnd = some 100) ∧ G4 (scg fun G => { G with sect := some (3, 1) }) (fun G => G.sect ≠ none) := by
  decide

theorem test_tile_forms_complete :
    dispensed (dsp .none fun L => { L with returns := [9] }) (fun G => G.rs 9 == 9 && G.pc == 1 && G.wait == .none) ∧ dispensed (dsp .none id) (fun G => G.rs 9 == 0 && G.pc == 1) ∧
    dispensed (dsp .none fun L => { L with dispWrapped := true }) (fun G => G.rs 9 == 0xFFFFFFFFFFFFFFFE && G.pc == 1) ∧
    after (.dlqry 9 true) (cpn_ 7) (fun G => G.rs 9 == 93 && G.pc == 1) := by
  decide

/-- Wrap time 100 and deadline 200, at time `now`. -/
abbrev wst (now : Nat) (f : Group → Group) : State :=
  { (scg f).modLaunch 2 (fun L => { L with wrap := some 100, deadline := some 200 }) with now := now }
abbrev insect (c : Nat) (G : Group) : Group := { G with sect := some (0, c) }

theorem witness_DeadlinesSectionsValidity :
    G4 (wst 100 id) (fun G => Scalar (wst 100 id) 4 G ∧ G.sect = none ∧ G.comp = none ∧ (mget sc.blocks G.blk).any (fun B => B.comp == none && B.audit == none) ∧
      (∃ L ∈ mget (wst 100 id).launches 2, L.wrap = some 100 ∧ L.deadline = some 200) ∧ unacked (wst 100 id) (scalarEarlier (wst 100 id) G) = []) ∧
    G4 (scg (insect 0)) (fun G => G.sect = some (0, 0)) ∧ (∃ L ∈ mget sc.launches 2, L.wrap = none) ∧
    G4 (pend id) (fun G => unacked (pend id) (scalarEarlier (pend id) G) ≠ []) := by
  decide

theorem test_deadlines_sections_validity :
    after (.dlqry 9 false) (wst 150 id) (fun G => G.rs 9 == 0xFFFFFFFFFFFFFFCE) ∧ after (.dlqry 9 true) (wst 150 id) (fun G => G.rs 9 == 50) ∧
    after (.dlqry 9 true) sc (fun G => G.rs 9 == 0x7FFFFFFFFFFFFFFF) ∧ after .sndon sc (fun G => G.sect == some (0, 0)) ∧ traps .sndoff sc 1 ∧
    after .sndoff (scg (insect 0)) (fun G => G.sect == none && G.pc == 1) ∧ traps .sndon (scg (insect 0)) 1 ∧
    ran (exec .wupok sc) (fun t => (mget t.launches 2).any (·.valid == 1)) ∧ after .wupok (pend id) (·.pc == 0) := by
  decide

theorem witness_WrapTimeDiverts :
    (∃ L ∈ mget (wst 100 id).launches 2, L.st ≠ .complete ∧ L.st ≠ .rolling ∧ L.wrap = some 100 ∧ L.wrapped = none ∧ L.deadline = some 200) ∧
    (wst 99 id).now < 100 ∧ 100 ≤ (wst 100 id).now ∧ 200 ≤ (wst 200 id).now ∧
    G4 (wst 100 id) (fun G => G.wrapflag = false ∧ G.st = .running ∧ G.sect = none ∧ G.wait = .none ∧
      (mget sc.blocks G.blk).any (fun B => B.st == .started && B.launch == 2 && B.comp == none && B.audit == none)) ∧
    G4 (wst 100 (insect 0)) (fun G => G.sect ≠ none) ∧ G4 (wst 100 fun G => { G with wait := .dispSent }) (fun G => G.wait = .dispSent ∧ G.wait ≠ .abandoned) ∧
    G4 (wst 100 fun G => { G with wait := .dispAnswer 7 }) (fun G => G.wait = .dispAnswer 7) ∧ G4 (wst 100 fun G => { G with wait := .abandoned }) (fun G => G.wait = .abandoned) ∧
    (∃ c ∈ mget sc.copies 1, c.loading = false ∧ (c.scalarWord 0).isSome) := by
  decide

theorem test_wrap_and_deadline :
    after (.wrapTime 2) (wst 100 id) (fun G => G.wrapflag && G.pc == 0) ∧ after (.wrapTime 2) (wst 99 id) (!·.wrapflag) ∧
    after (.wrapTime 2) (wst 100 (insect 0)) (fun G => G.divertDue && !G.wrapflag) ∧
    after (.wrapTime 2) (wst 100 fun G => { G with wait := .dispSent, copy := 99 }) (fun G => G.wrapflag && G.wait == .none) ∧ after (.deadline 2) (wst 200 id) (·.st == .killed) ∧
    after (.deadline 2) (wst 199 id) (·.st == .running) := by
  decide

/-- Group 4 in a section that counts `n` clocks. -/
abbrev ovr (n : Nat) : State := (scg (insect 0)).modDie 0 fun D => { D with clk := n }

theorem witness_SectionOverruns :
    G4 (ovr 65537) (fun G => (∃ L ∈ mget sc.launches 2, MayTrap (ovr 65537) G L) ∧ G.sect = some (0, 0) ∧ G.st = .running ∧ G.divertDue = false ∧
      65536 < ((ovr 65537).die (G.core / 16)).clk ∧ ((ovr 65536).die (G.core / 16)).clk ≤ 65536) := by
  unfold MayTrap; decide

theorem witness_LimitsHoldAfterSteps : (∃ t, step sc = .next t) ∧ (mget (wst 200 id).launches 2).any (fun L => L.st != .complete && L.st != .rolling && L.deadline == some 200) :=
  ⟨⟨_, rfl⟩, by decide⟩

/-- What has come due after a step is done at once (R302, R303, R305). -/
theorem test_limits :
    (mget (timeUp (ovr 65537)).groups 4).any (fun G => G.trap.cause == 0x0E && G.sect == none) ∧ (mget (timeUp (ovr 65536)).groups 4).any (·.sect.isSome) ∧
    (mget (timeUp (wst 200 id)).groups 4).any (·.st == .killed) ∧ (mget (timeUp (wst 100 id)).groups 4).any (·.wrapflag) := by
  decide

theorem test_section_overrun :
    after (.sectionOverrun 4) (ovr 65537) (fun G => G.trap.cause == 0x0E && G.sect == none) ∧ after (.sectionOverrun 4) (ovr 65536) (fun G => G.trap.cause == 0) := by
  decide

/-- A launch of 3 blocks that wrapped and ended late. -/
abbrev late (v : BitVec 128) (L : Launch) : Launch := { L with blockcnt := 3, wrapped := some 5, endedLate := true, valid := v }

theorem test_launch_outcome :
    (∃ L ∈ mget sc.launches 2, launchOutcome sc L = 0 ∧ launchOutcome sc (late 7 L) = 1 ∧ launchOutcome sc (late 4 L) = 2 ∧ launchOutcome sc (late 0 L) = 3 ∧
      launchOutcome sc { L with faulted := true } = 5 ∧ (late 7 L).blockcnt ≤ 128 ∧ (∀ i < 3, (late 7 L).valid.getLsbD i = true) ∧
      launchOutcome { sc with acts := [(7, mkAct L.desc 2 .abandoned [])] } { L with act := some 7 } = 6 ∧
      launchOutcome { sc with acts := [(7, mkAct L.desc 2 .stuck [])] } { L with act := some 7 } = 7) := by
  decide

/-- Launch 2 over: block ended and no group left; rolled back with one saved page. -/
abbrev over_ : State := { sc.modBlk 3 fun B => { B with st := .ended } with groups := [] }
abbrev roll : State :=
  { sc.modLaunch 2 fun L => { L with st := .rolling, pages := [(5, [(5 * 4096, 9)])], valid := 1, next := 4, handed := 4 } with mem := [(5 * 4096 + 1, 7), (6 * 4096, 8)] }

theorem witness_LaunchEndsAndReplays :
    (∃ L ∈ mget over_.launches 2, L.st ≠ .complete ∧ L.st ≠ .rolling ∧ launchOver over_ 2 L = true ∧ L.act = none ∧
      translate over_ L.ctx girthCore none L.bitmap { r := false, w := true } ≠ .fatal) ∧
    (∃ L ∈ mget sc.launches 2, launchOver sc 2 L = false) ∧
    (∃ L ∈ mget roll.launches 2, L.st = .rolling ∧ Sorted roll.groups ∧ (∀ p ∈ roll.ops, p.2.launch = some 2 → p.2.replays = true) ∧ L.replays < 2 ∧ L.deadline = none ∧
      L.pages = [(5, [(5 * 4096, 9)])] ∧ ([(5 * 4096, (9 : Byte))].map (·.1)).Nodup ∧ (∀ c ∈ [(5 * 4096, (9 : Byte))], c.1 / 4096 = 5)) := by
  decide

theorem test_launch_ends_and_replays :
    ran (exec (.launchComplete 2) over_) (fun t => (mget t.launches 2).any (·.st == .complete)) ∧
    ran (exec (.launchComplete 2) sc) (fun t => (mget t.launches 2).any (·.st == .running)) ∧
    ran (exec (.launchReplay 2) roll) (fun t => t.mem == [(5 * 4096, 9), (6 * 4096, 8)] && t.groups == [] && (mget t.blocks 3).any (·.st == .waiting) &&
      (mget t.launches 2).any fun L => L.st == .admitted && L.replays == 1 && L.valid == 0 && L.next == 0) ∧
    ran (exec .slackClassRecompute (wst 100 id)) (fun t => (mget t.launches 2).any (·.slack == 0)) ∧
    ran (exec .slackClassRecompute sc) (fun t => (mget t.launches 2).any (·.slack == 3)) := by
  refine ⟨?_, ?_, by decide +kernel, ?_, ?_⟩ <;> decide


/-! ### Activities -/

/-- Launch 2 belongs to activity 7. -/
abbrev withAct (s : State) (f : Activity → Activity) : State :=
  { s.modLaunch 2 fun L => { L with act := some 7 } with acts := s.launches.map fun p => (7, f { mkAct p.2.desc p.1 .running [] with tab := p.2.tab }) }
abbrev se (q : Nat) (st : EntState) : StackEntry :=
  { seq := q, entry := 0, ov := 0, commute := false, st := st, die := 0, budget := 5, launch := 0, args := [11, 12, 13, 14], spilled := false, bad := false }
/-- An operand of `actopen` in s20: budget 5 µs, overlay 0, offset 1; arguments 11 to 14. -/
abbrev aopn (G : Group) : Group := ((((G.ws 20 0x500000001).ws 21 11).ws 22 12).ws 23 13).ws 24 14
abbrev aseal (G : Group) : Group := { aopn G with openEntry := some 1 }
abbrev open1 (A : Activity) : Activity := { A with entries := [se 1 .open_] }

theorem witness_ActivityStack_group :
    G4 (withAct (scg aopn) id) (fun G => Scalar (withAct (scg aopn) id) 4 G ∧ ((withAct (scg aopn) id).actOf G).any (·.1 == 7) ∧ (mget (withAct (scg aopn) id).acts 7).isSome ∧
      (G.rs 20).toNat % 2 ^ 16 < 2 ^ 12 ∧ (G.rs 20).toNat / 2 ^ 24 % 2 ^ 8 = 0 ∧ (G.rs 20).toNat / 2 ^ 32 ≠ 0 ∧ G.openEntry = none ∧ G.comp = none) ∧
    G4 sc (fun G => sc.actOf G = none) ∧ G4 (scg aseal) (fun G => G.openEntry = some 1) := by
  decide

theorem witness_ActivityStack_activity :
    (∃ A ∈ mget (withAct (scg aopn) id).acts 7, ∃ e ∈ A.tab[0]?, (0x500000001 : Nat) % 2 ^ 12 < e.s ∧ G4 (withAct (scg aopn) id) (fun G => slotsOf e ≤ (withAct (scg aopn) id).workset G) ∧
      A.st = .running ∧ A.entries.length < 65536 ∧ openHeld (withAct (scg aopn) id) A = false) ∧
    (∃ A ∈ mget (withAct sc fun A => { A with st := .abandoning }).acts 7, A.st ≠ .running) ∧
    G4 (withAct (scg aseal) open1) (fun G => unacked (withAct (scg aseal) open1) (scalarEarlier (withAct (scg aseal) open1) G) = []) ∧
    (mget (withAct (scg aseal) open1).acts 7).any (openHeld (withAct (scg aseal) open1)) = true ∧ G4 (withAct (scg aseal) open1) (fun G => G.openEntry = some 1 ∧ ∃ A ∈ mget (withAct (scg aseal) open1).acts 7, ∃ e ∈ A.entries, e.seq = 1 ∧ e.st = .open_) ∧
    G4 (withAct (scg aseal) fun A => { A with entries := [se 1 .undone] }) (fun G => G.openEntry = some 1 ∧
      ∃ A ∈ mget (withAct (scg aseal) fun A => { A with entries := [se 1 .undone] }).acts 7, ∀ e ∈ A.entries, ¬ (e.seq = 1 ∧ e.st = .open_)) ∧ G4 (scg fun G => { G with wait := .ending }) (fun G => G.wait = .ending) := by
  decide

theorem test_activity_stack :
    after (.actopen 9 20 true) (withAct (scg aopn) id) (fun G => G.rs 9 == 1 && G.openEntry == some 1) ∧
    ran (exec (.actopen 9 20 true) (withAct (scg aopn) id)) (fun t => (mget t.acts 7).any fun A => A.entries ==
      [{ se 1 .open_ with entry := 1, commute := true }] && t.actSeq == 2) ∧
    ran (exec .actseal (withAct (scg aseal) open1)) (fun t => (mget t.acts 7).any fun A => A.entries == [se 1 .sealed]) ∧
    ran (exec .actend (withAct sc id)) (fun t => (mget t.acts 7).any (·.st == .ended)) ∧ traps (.actopen 9 20 false) (withAct (scg aseal) open1) 1 ∧
    after .actend (withAct (scg fun G => { G with wait := .ending }) fun A => { A with st := .ended }) (fun G => G.pc == 1 && G.wait == .none) ∧
    traps .actseal (withAct sc id) 1 ∧ traps .actseal (withAct (scg aseal) fun A => { A with entries := [se 1 .undone] }) 1 ∧ traps .actend sc 1 ∧ traps .cmpok (withAct sc id) 1 := by
  decide

/-- A second activity 8 of the same context with id 0x55, in a state. -/
abbrev dep (st : ActState) : State := { withAct (scg (·.ws 5 0x55)) id with acts := (withAct sc id).acts ++ (withAct sc id).acts.map fun p => (8, { p.2 with id := 0x55, st := st, set := 8 }) }

theorem witness_ActivityAbandoned :
    G4 (withAct (scg (·.ws 5 0x99)) id) (fun G => G.wait = .none ∧ G.comp = none ∧ Sorted (withAct (scg (·.ws 5 0x99)) id).groups ∧ 0 < (G.rs 5).toNat ∧ (G.rs 5).toNat < 2 ^ 32 ∧
      (∃ A ∈ mget (withAct sc id).acts 7, A.st = .running ∧ A.deps.length < 16 ∧ A.id.toNat = (G.rs 5).toNat) ∧
      (∀ p ∈ (withAct sc id).acts, p.2.ctx = 0 → p.2.id = 0x99 → p.1 = 7)) ∧
    G4 (withAct (scg fun G => { G with wait := .abandoned }) fun A => { A with st := .abandoned }) (fun G => G.wait = .abandoned) ∧
    (∃ C ∈ mget (dep .running).acts 8, C.st = .running ∧ C.id.toNat = 0x55 ∧ (8 : Nat) ≠ 7 ∧ ∀ p ∈ (dep .running).acts, p.2.ctx = C.ctx → p.2.id = C.id → p.1 = 8 ∧ p.2 = C) ∧
    (mget (withAct (scg fun G => { G with wait := .abandoned }) fun A => { A with st := .stuck }).acts 7).any (·.st == .stuck) ∧
    (mget (withAct sc fun A => { A with deps := List.replicate 16 9 }).acts 7).any (fun A => A.deps.length == 16 && A.st != .ended) ∧
    (∃ C ∈ mget (dep .ended).acts 8, C.st = .ended) ∧ (∀ p ∈ (withAct sc id).acts, ¬ (p.2.ctx = 0 ∧ p.2.id.toNat = 0x56)) := by
  decide

theorem test_activity_abandoned :
    ran (exec .actabn (withAct sc open1)) (fun t => (mget t.acts 7).any (·.st == .abandoning) && (mget t.groups 4).any (·.wait == .abandoned)) ∧
    after .actabn (withAct (scg fun G => { G with wait := .abandoned }) fun A => { A with st := .abandoned }) (fun G => G.pc == 1 && G.wait == .none) ∧
    ran (exec (.actdep 5) (dep .running)) (fun t => (mget t.acts 7).any (·.deps == [8])) ∧ after (.actdep 5) (dep .ended) (·.pc == 1) ∧
    traps .actabn (withAct (scg fun G => { G with wait := .abandoned }) fun A => { A with st := .stuck }) 0x0D ∧
    traps (.actdep 5) (withAct sc id) 1 ∧ traps .actabn (withAct sc fun A => { A with st := .ended }) 1 := by
  decide

theorem witness_ActivityFormsComplete :
    G4 (withAct (scg aseal) open1) (fun G => ((withAct (scg aseal) open1).actOf G).any (·.1 == 7) ∧ G.openEntry ≠ none ∧
      unacked (withAct (scg aseal) open1) (scalarEarlier (withAct (scg aseal) open1) G) = []) ∧
    G4 (withAct sc id) (fun G => G.openEntry = none ∧ G.wait ≠ .abandoned ∧ ∃ A ∈ mget (withAct sc id).acts 7, A.st = .running ∧ openHeld (withAct sc id) A = false) ∧
    (∃ A ∈ mget (dep .running).acts 7, A.deps.length < 16 ∧ ∀ p ∈ (dep .running).acts, p.2.ctx = A.ctx → p.2.id.toNat = 0x55 → p.1 = 7 ∨ p.2.st = .running ∨ p.2.st = .ended) := by
  decide

theorem test_activity_forms_complete :
    after .actseal (withAct (scg aseal) open1) (fun G => G.pc == 1 && G.openEntry == none) ∧ after .actend (withAct sc id) (fun G => G.pc == 1 && G.wait == .none) ∧
    after (.actdep 5) (withAct (scg (·.ws 5 0x99)) fun A => { A with id := 0x99 }) (·.pc == 1) := by
  decide

/-- Group 4 compensates entry 1 of activity 7, which is ABANDONING, until time 100. -/
abbrev cpn (now : Nat) (f : Group → Group) : State :=
  { (withAct (scg fun G => f { G with comp := some (7, 1) }) fun A => { A with st := .abandoning, entries := [se 1 .sealed] }).modBlk 3 fun B =>
      { B with comp := some (7, 1), budgetEnd := some 100 } with now := now }

theorem witness_Compensation :
    G4 (cpn 0 (·.ws 5 0xFFFF)) (fun G => Scalar (cpn 0 (·.ws 5 0xFFFF)) 4 G ∧ G.comp = some (7, 1) ∧ G.trapMode = none ∧ (G.rs 5).toNat < 2 ^ 16 ∧ G.st ≠ .exited ∧ G.st ≠ .killed ∧ G.compDone = false ∧
      unacked (cpn 0 (·.ws 5 0xFFFF)) (scalarEarlier (cpn 0 (·.ws 5 0xFFFF)) G) = []) ∧
    G4 (cpn 0 (·.ws 5 0x10000)) (fun G => 2 ^ 16 ≤ (G.rs 5).toNat) ∧
    (∃ A ∈ mget (cpn 100 id).acts 7, A.st = .abandoning ∧ se 1 .sealed ∈ A.entries ∧ (se 1 .sealed).seq = 1) ∧
    (∃ B ∈ mget (cpn 100 id).blocks 3, B.budgetEnd = some 100 ∧ (cpn 99 id).now < 100 ∧ 100 ≤ (cpn 100 id).now) := by
  decide

theorem test_compensation :
    ran (exec .cmpok (cpn 0 id)) (fun t => (mget t.acts 7).any (fun A => A.entries == [se 1 .undone]) && (mget t.groups 4).any (·.st == .exiting)) ∧
    ran (exec (.cmpfail 5) (cpn 0 (·.ws 5 0xFFFF))) (fun t => (mget t.acts 7).any fun A => A.st == .stuck && A.code == 0xFFFF && A.reason == 3 && A.entries == [se 1 .failed]) ∧
    ran (exec (.compensationBudgetExpire 4) (cpn 100 id)) (fun t => (mget t.acts 7).any (fun A => A.st == .stuck && A.reason == 2) && (mget t.groups 4).any (·.st == .killed)) ∧
    after (.compensationBudgetExpire 4) (cpn 99 id) (·.st == .running) := by
  decide

/-- An activity that waits for the compensation of its entry 1 on core 0. -/
abbrev cst : State :=
  { withAct { sc.modBlk 3 (fun B => { B with st := .ended }) with groups := [], vifs := [(0, { Vif.reset with quota := { Quota.none with clusters := 0xFFFFFFFF, slots := List.replicate 32 256 } })] }
      (fun A => { A with st := .abandoning, entries := [se 1 .sealed] }) with nextId := 5 }

theorem witness_Compensation_start :
    ∃ A e L off, mget cst.acts 7 = some A ∧ mget cst.launches A.launch = some L ∧ A.st = .abandoning ∧ setDrained cst A.set = true ∧ nextComp cst 7 A = some e ∧ e.bad = false ∧
      coreOk { cst with nextId := 6 } 0 = true ∧ tilesQuiet { cst with nextId := 6 } 6 [0] = true ∧ A.desc.level ≤ ({ cst with nextId := 6 } : State).level 0 ∧
      placeFor { cst with nextId := 6 } L 5 { Block.empty A.launch 0 0 false with comp := some (7, e.seq) } 0 = some (0, off) := by
  obtain ⟨off, h⟩ := scrPlace_some { cst with nextId := 6 } 5 0 0 (by decide)
  exact ⟨_, se 1 .sealed, _, off, rfl, rfl, rfl, by decide, by decide, rfl, by decide, by decide, by decide, placed _ _ _ _ _ _ (by decide) h⟩

/-- Two entries, the second UNDONE: the first is next. -/
abbrev cst2 : State := withAct cst fun A => { A with st := .abandoning, entries := [se 1 .open_, se 2 .undone] }

theorem witness_CompensationOrder :
    (∃ A ∈ mget cst2.acts 7, A.st = .abandoning ∧ A.set = 7 ∧ nextComp cst2 7 A = some (se 1 .open_) ∧ Pending (se 1 .open_) ∧ A.entries = [se 1 .open_, se 2 .undone]) ∧
    cst2.acts.map (·.1) = [7] ∧ (∀ p ∈ cst2.blocks, p.2.comp = none) ∧ (∃ A ∈ mget cst2.acts 7, ∃ e ∈ A.entries, e.seq = 1 ∧ Pending e) := by
  decide

/-- No entry of a set is compensated before one with a higher number, unless both commute (R324). -/
theorem test_compensation_order :
    ((mget (withAct cst fun A => { A with st := .abandoning, entries := [se 1 .open_, se 2 .sealed] }).acts 7).bind
      (nextComp (withAct cst fun A => { A with st := .abandoning, entries := [se 1 .open_, se 2 .sealed] }) 7)).map (·.seq) = some 2 := by
  decide

/-! ### Retries, probes and floors -/

/-- A probe token of the lane-run queue of group 4, in which two runs stand, stands at `at_`; a copy is under way, and the queues that block are `js`. -/
abbrev prb (at_ : QUnit) (js : List Jam) : State := { cop (cp8 0 8 false) runs2 with probes := [{ origin := .laneRuns 4, at_ := at_ }], jams := js }
abbrev jlr : Jam := { q := .laneRuns 4, down := .copyCmds 0, since := 0 }
abbrev jcp : Jam := { q := .copyCmds 0, down := .dieLink 1, since := 0 }
/-- Clock `n` of die 0. -/
abbrev clk (n : Nat) (s : State) : State := s.modDie 0 fun D => { D with clk := n }
abbrev yld (G : Group) : Group := { G with yieldAt := some 0 }
/-- A second group 5 of the same block, whose scalar stream is as `f` says. -/
abbrev twoGrp (f g : Group → Group) : State := { scg f with groups := (scg f).groups ++ (scg g).groups.map fun p => (5, { p.2 with idx := 1 }) }

theorem witness_RetriesProbesAndFloors :
    jamOf (clk 512 (prb (.laneRuns 4) [jlr])) (.laneRuns 4) = some jlr ∧ jlr.since + 512 ≤ queueClk (clk 512 (prb (.laneRuns 4) [jlr])) (.laneRuns 4) ∧
    queueClk (clk 511 (prb (.laneRuns 4) [jlr])) (.laneRuns 4) < jlr.since + 512 ∧ sc.jams = [] ∧ sc.probes = [] ∧ sc.reserve = [] ∧
    (∃ p ∈ (prb (.copyCmds 0) [jlr]).probes[0]?, p.at_ ≠ p.origin ∧ jamOf (prb (.copyCmds 0) [jlr]) p.at_ = none) ∧
    jamOf { sc with jams := [jlr] } (.laneRuns 4) = none ∧ jamOf (prb (.laneRuns 4) [{ jlr with down := .laneRuns 4 }]) (.laneRuns 4) = none ∧
    (jamOf { cop (cp8 0 8 false) (fun G => { G with runs := List.replicate 8 ⟨9, 0, 1, 0, {}⟩ }) with jams := [{ jcp with down := .laneRuns 4 }] } (.copyCmds 0)).isSome ∧
    (.laneRuns 4) ∈ ({ sc with reserve := [.laneRuns 4] } : State).reserve ∧
    (∃ p ∈ (prb (.laneRuns 4) [jlr]).probes[0]?, p.at_ = p.origin) ∧ (∃ p ∈ (prb (.copyCmds 0) [jcp]).probes[0]?, p.at_ ≠ p.origin ∧ jamOf (prb (.copyCmds 0) [jcp]) p.at_ = some jcp) ∧
    G4 (clk 256 (scg yld)) (fun G => G.yieldAt = some 0 ∧ 0 + 256 ≤ ((clk 256 (scg yld)).die (G.core / 16)).clk ∧ ((clk 255 (scg yld)).die (G.core / 16)).clk < 0 + 256) := by
  decide

theorem witness_RetriesProbesAndFloors_order :
    G4 (twoGrp id id) (fun G => (candidates (twoGrp id id) G.core G.part).map (fun c => (c.1, c.2.2)) = [(4, .scalar), (5, .scalar)] ∧ (twoGrp id id).launch? G ≠ none) ∧
    G4 sc (fun G => (candidates sc G.core G.part).map (fun c => (c.1, c.2.2)) = [(4, .scalar)] ∧ G.wait = .none ∧ .scalar ∉ G.aged ∧ G.readyOf .scalar = some 0 ∧ 0 + 64 ≤ ((clk 64 sc).die (G.core / 16)).clk ∧
      (sc.die (G.core / 16)).clk < 0 + 64) ∧
    S4 ln (fun G S => S.fe = none ∧ .split 0 ∉ G.aged ∧ G.readyOf (.split 0) = some 0 ∧ 0 + 64 ≤ ((clk 64 ln).die (G.core / 16)).clk ∧ (ln.die (G.core / 16)).clk < 0 + 64) ∧
    G4 (scg fun G => { G with ready := none }) (fun G => G.readyOf .scalar = none) ∧
    G4 (twoGrp (fun G => { G with ready := some 9 }) fun G => { G with ready := some 3 }) (fun G => G.readyOf .scalar = some 9 ∧ (3 : Nat) < 9 ∧
      ((twoGrp (fun G => { G with ready := some 9 }) fun G => { G with ready := some 3 }).die (G.core / 16)).clk < 3 + 64) ∧
    G4 (twoGrp yld id) (fun G => rankOf (twoGrp yld id) G = 4 ∧ (mget (twoGrp yld id).groups 5).any (fun H => rankOf (twoGrp yld id) H == 3)) := by
  decide

theorem test_retries_probes_and_floors :
    ran (exec (.rejectedAccessRetry 5 true) sc) (fun t => t == sc) ∧ ran (exec (.translationMissRetry 0 1 false) sc) (fun t => t == sc) ∧
    ran (exec (.probeToken 0 none) (prb (.laneRuns 4) [jlr])) (fun t => t.probes == [] && t.reserve == [.laneRuns 4]) ∧
    ran (exec (.probeToken 0 (some (.dieLink 1))) (prb (.copyCmds 0) [jcp])) (fun t => t.probes.map (·.at_) == [.dieLink 1]) ∧
    ran (exec (.probeToken 0 none) (prb (.copyCmds 0) [jlr])) (fun t => t.probes == [] && t.reserve == []) ∧
    ran (exec (.queueBlockTimeout (.laneRuns 4) (.copyCmds 0)) { clk 512 (prb (.laneRuns 4) [jlr]) with probes := [] }) (fun t => t.probes.length == 1) ∧
    after (.syieldWindowExpiry 4) (clk 256 (scg yld)) (·.yieldAt == none) ∧ after (.syieldWindowExpiry 4) (clk 255 (scg yld)) (·.yieldAt == some 0) ∧
    after (.ageingFloor 4 (some 0)) (clk 64 ln) (·.aged == [.split 0]) ∧ after (.ageingFloor 4 none) (clk 63 sc) (·.aged == []) := by
  decide

/-- An aged stream goes before one that is not; of two aged ones, and of two of one class, the one that has waited longer; one that yields after all (R93). -/
theorem test_issue_order :
    (mget (twoGrp id fun G => { G with aged := [.scalar] }).groups 4).any (fun G => !picked (twoGrp id fun G => { G with aged := [.scalar] }) 4 G .scalar) ∧
    (mget (twoGrp (fun G => { G with aged := [.scalar], ready := some 9 }) fun G => { G with aged := [.scalar], ready := some 3 }).groups 4).any (fun G =>
      !picked (twoGrp (fun G => { G with aged := [.scalar], ready := some 9 }) fun G => { G with aged := [.scalar], ready := some 3 }) 4 G .scalar) ∧
    (mget (twoGrp (fun G => { G with ready := some 9 }) fun G => { G with ready := some 3 }).groups 4).any (fun G =>
      !picked (twoGrp (fun G => { G with ready := some 9 }) fun G => { G with ready := some 3 }) 4 G .scalar) ∧
    (mget (twoGrp yld id).groups 4).any (fun G => !picked (twoGrp yld id) 4 G .scalar) ∧
    (mget sc.groups 4).any (fun G => picked sc 4 G .scalar) := by
  decide


/-! ### Packets and records -/

abbrev pq : Queue :=
  { bound := true, vif := 0, ring := 0x120000, ctl := 0x100000, cring := 0x110000, ctx := 0, slots := 4, cslots := 4, vector := 6, coal := 5, rd := 1,
    cwr := 0, taken := some (0, 0), look := { time := 0, launch := none, report := false }, held := [], pend := none }

/-- The ostler's step at a packet of queue 0, whose rings of 16 slots lie apart; an empty quota of 3 queues; context 0 with an identity range. -/
abbrev pks : State :=
  { withMem (State.reset.withFetchWord 512 0) with
    queues := [(0, pq)],
    vifs := [(0, { Vif.reset with quota := { Quota.none with queues := 3 } })] }

/-- `pks` with an open packet of the queue, and nothing taken. -/
abbrev opened (code : Nat) (b : PBody) : State :=
  { pks with queues := [(0, { pq with taken := none })],
             pkts := [(3, { q := 0, idx := 3, code := code, tag := 0x77, urgent := false, ctx := 0, body := b })] }

abbrev hd : PktHdr := { tag := 0x55, urgent := false, after := false, issue := 0 }

abbrev pcp (n : Nat) : CopyOp :=
  { kind := .packet, chan := 0, dst := 0x1100, dstScr := false, src := 0x1000, srcScr := false, len := 8, done := n }

abbrev pcopy (n : Nat) : State :=
  { opened 3 (.copy 60) with
    ops := [(60, { grp := none, str := .scalar, run := none, core := girthCore, ctx := 0, launch := none, blk := none, deps := [], body := .copy (pcp n) })] }

abbrev wb (rel : Rel) (v t : Word) : WaitBody := { addr := 0x1000, value := v, mask := 0xFF, rel := rel, timeout := t }

/-- Queue 0 with its packet, as a property. -/
abbrev Q0 (s : State) (p : Queue → Prop) : Prop := ∃ Q ∈ mget s.queues 0, p Q

theorem ring_ready (s : State) (Q : Queue) (h : Q.held = [] ∧ Q.cwr ≠ s.read (Q.ctl + 32) 8 + 2 ^ Q.cslots)
    (hc : Q.ctl = 0x100000) (hr : Q.cring = 0x110000) (hn : Q.cslots = 4) : RingReady s Q := by
  refine ⟨h.1, h.2, ?_, ?_, ?_⟩
  · rw [hc]; intro i hi; simp only [paClass]; omega
  · rw [hr, hn]; intro i hi; simp only [paClass]; omega
  · rw [hc, hr, hn]; intro i _ j hj; omega

theorem pks_ready : Q0 pks fun Q => RingReady pks Q :=
  ⟨_, rfl, ring_ready _ _ (by decide) rfl rfl rfl⟩

theorem opened_ready (code : Nat) (b : PBody) : Q0 (opened code b) fun Q => Q.taken = none ∧ RingReady (opened code b) Q :=
  ⟨_, rfl, rfl, ring_ready _ _ ⟨rfl, by show (0 : Nat) ≠ pks.read 0x100020 8 + 2 ^ 4; decide⟩ rfl rfl rfl⟩

theorem witness_SimplePackets_taken :
    Q0 pks (fun Q => AtPacket pks 0 Q 0 ∧ Q.ctx = 0 ∧ Q.vif = 0 ∧ (mget pks.vifs Q.vif).map (·.quota.queues) = some 3) ∧ pks.pkts = [] ∧
    GirthPa pks 0 0x1000 { r := true, w := true } 0x1000 ∧ GirthPa pks 0 0x1000 { r := false, w := true } 0x1000 ∧ hostHeld pks 0x1000 = false ∧
    GirthPa pks 0 0x1000 { r := true, w := false } 0x1000 ∧ (∀ p ∈ pks.queues, p.1 ≠ 0 → p.2.taken = none) ∧
    scalarRel .eq (BitVec.ofNat 64 (pks.read 0x1000 8) &&& 0xFF) 0x11 = some true ∧ scalarRel .eq (BitVec.ofNat 64 (pks.read 0x1000 8) &&& 0xFF) 0x12 = some false := by
  unfold AtPacket
  refine ⟨⟨_, rfl, ⟨rfl, rfl, rfl, _, rfl⟩, by decide⟩, ?_⟩
  decide

/-- A bound barrier queue, whose open packet the barrier waits for, and a line of host memory that no window lets the ostler reach. -/
theorem witness_SimplePackets_barrier :
    (let s : State := { pks with queues := [(0, pq), (1, { pq with taken := none })], pkts := [(2 ^ 64 + 3, { q := 1, idx := 3, code := 3, tag := 0, urgent := false, ctx := 0, body := .copy 60 })] }
     (2 : Word).toNat < 2 ^ 3 ∧ Sorted s.pkts ∧ (2 : Word).getLsbD 1 = true ∧ (∃ P ∈ mget s.pkts (2 ^ 64 + 3), P.q = 64 * 0 + 1 ∧ P.body = .copy 60) ∧
       ∃ N ∈ mget s.queues 1, N.bound = true) ∧
    ostlerMay pks 0x1000 = true ∧ ostlerMay pks (2 ^ 50) = false ∧ (∀ i < 8, ¬ OfRing pq (0x1000 + i)) := by
  decide

theorem test_barrier_waits :
    ran (exec (.queueBarrier hd 2) { pks with queues := [(0, pq), (1, { pq with taken := none })], pkts := [(2 ^ 64 + 3, { q := 1, idx := 3, code := 3, tag := 0, urgent := false, ctx := 0, body := .copy 60 })] })
      (fun t => (mget t.pkts 0).any fun P => P.body == .barrier [2 ^ 64 + 3]) := by
  decide

theorem witness_EngineOperationsRun_packet :
    ∃ o ∈ mget (pcopy 0).ops 60, MayDeliver (pcopy 0) o (pcp 0) ∧ (pcp 0).kind = .packet ∧ engineTr (pcopy 0) o (pcp 0) 0x1000 false = .ok 0x1000 := by
  unfold MayDeliver
  decide

theorem witness_SimplePackets_open :
    (∃ P, (pcopy 8).pkts = [(3, P)] ∧ P.q = 0 ∧ P.body = .copy 60) ∧
    (∃ o ∈ mget (pcopy 8).ops 60, o.body = .copy (pcp 8) ∧ o.grp = none ∧ (pcp 8).kind = .packet ∧ (pcp 8).cmds = cmdsOf (pcp 8) ∧ (pcp 8).done = (pcp 8).len) ∧
    (∃ o ∈ mget (pcopy 7).ops 60, o.body = .copy (pcp 7) ∧ (pcp 7).done < (pcp 7).len) ∧
    (∃ P, (opened 5 (.wait (wb .eq 0x11 9) 0)).pkts = [(3, P)] ∧ P.hold = none ∧ P.body = .wait (wb .eq 0x11 9) 0 ∧
      GirthPa (opened 5 (.wait (wb .eq 0x11 9) 0)) P.ctx 0x1000 { r := true, w := false } 0x1000) ∧
    (wb .eq 0 9).timeout ≠ 0 ∧ (wb .eq 0 0).timeout = 0 ∧ Sorted (opened 5 (.wait (wb .eq 0x11 9) 0)).pkts := by
  refine ⟨⟨_, rfl, rfl, rfl⟩, ⟨_, rfl, rfl, rfl, rfl, by decide, rfl⟩, ⟨_, rfl, rfl, by decide⟩, ⟨_, rfl, rfl, rfl, by decide⟩, by decide, rfl, by decide⟩

/-- The record of the packet, as its two words, and cwr. -/
abbrev recd (t : State) (tag outcome code : Nat) : Bool :=
  t.read 0x110000 8 == tag + 2 ^ 32 * outcome + 2 ^ 40 * code && t.read 0x110008 8 == 0 && t.read 0x100018 8 == 1 && t.pkts == []

theorem test_packets_complete :
    ran (exec (.nop hd) pks) (recd · 0x55 0 0) ∧ ran (exec (.signal hd 0x1000 5 true) pks) (fun t => recd t 0x55 0 4 && t.read 0x1000 4 == 0x84332216) ∧
    ran (exec (.signal hd 0x1000 5 false) pks) (fun t => t.read 0x1000 8 == 5) ∧ ran (exec (.signal hd 0x1001 5 false) pks) (recd · 0x55 4 4) := by
  decide

theorem test_packets_wait :
    ran (exec (.waitWord hd (wb .eq 0x11 9)) pks) (recd · 0x55 0 5) ∧ ran (exec (.waitWord hd (wb .eq 0x12 9)) pks) (fun t => t.pkts.length == 1) ∧
    ran (exec (.waitWordTimeout 3) { opened 5 (.wait (wb .eq 0x12 9) 0) with now := 9 }) (recd · 0x77 3 5) ∧
    ran (exec (.waitWordTimeout 3) { opened 5 (.wait (wb .eq 0x12 9) 0) with now := 8 }) (fun t => t.pkts.length == 1) ∧
    ran (exec (.waitWordSatisfied 3) (opened 5 (.wait (wb .eq 0x11 9) 0))) (recd · 0x77 0 5) := by
  decide

theorem test_packets_copy_barrier :
    ran (exec (.copy hd 0x1100 0x1000 (2 ^ 40 + 1)) pks) (recd · 0x55 4 3) ∧ ran (exec (.copy hd 0x1100 0x1000 (2 ^ 40)) pks) (fun t => t.ops.length == 1) ∧
    ran (exec (.copyPacketComplete 3) (pcopy 8)) (recd · 0x77 0 3) ∧ ran (exec (.copyPacketComplete 3) (pcopy 7)) (fun t => t.pkts.length == 1) ∧
    ran (exec (.queueBarrier hd 7) pks) (recd · 0x55 0 10) ∧ ran (exec (.queueBarrier hd 8) pks) (recd · 0x55 4 10) := by
  decide

/-- The bytes of a list of 8-byte words, without those that are 0. -/
abbrev bytesOf (a : Nat) (ws : List Nat) : List Host.Cell :=
  ((List.range (8 * ws.length)).map fun i => (a + i, BitVec.ofNat 8 (ws.getD (i / 8) 0 / 2 ^ (8 * (i % 8))))).filter fun c => c.2 != 0

/-- `pks` with a descriptor of one group and deadline `dl` at 0x2000, its overlay table at 0x3000, and an interface and a die for it. -/
abbrev plk0 (dl : Nat) : State :=
  { pks with
    mem := bytesOf 0x2000 [0x3000, 0x100080001, 0x4000200000000, 0, 0, 7, 1, dl, 10, 1, 0, 0] ++ bytesOf 0x3000 [0x4000, 4, 0, 0]
    dies := pks.dies.modify 0 fun D => { D with st := .hitched }
    vifs := [(0, { Vif.reset with quota := { clusters := 0xFFFFFFFF, slots := List.replicate 32 256, queues := 3, heap := 16, phasers := 8, contexts := 4 } })] }

abbrev lbod : LaunchBody := { desc := 0x2000, bitmap := 0x5000 }

/-- Queue 0, whose packet was taken at time 0 in `s`. -/
abbrev lkq (s : State) : Queue :=
  { pq with look := { time := 0, report := true, launch := match lookLaunch s 0 lbod false with
      | .ok x => some x
      | _ => none } }

abbrev plk (dl : Nat) : State := { plk0 dl with queues := [(0, lkq (plk0 dl))] }

/-- The plan of the launch with a deadline and an issue time. -/
abbrev plan (dl : Nat) (issue : Word) : Option (Launch × Bool × List Nat) :=
  planLaunch (popPacket (plk dl) 0 (lkq (plk0 dl))) 0 (lkq (plk0 dl)) { hd with issue := issue } 0 lbod 0

theorem witness_LaunchPackets_plan :
    AtPacket (plk 1000) 0 (lkq (plk0 1000)) 0 ∧ (plan 1000 0).isSome = true ∧ (∀ p ∈ (plk 1000).acts, p.2.ctx = 0 → p.2.id ≠ 1) ∧ (plk 1000).pkts = [] := by
  refine ⟨⟨rfl, rfl, rfl, _, rfl⟩, ?_⟩
  decide

theorem witness_LaunchPackets_checks :
    (∃ look ∈ (lkq (plk0 1000)).look.launch, (match lookLaunch (plk0 1000) 0 lbod false with
      | .ok x => decide (x.desc = look.desc)
      | _ => false) = true ∧ 1 ≤ look.desc.tilespace ∧ look.desc.flags.getLsbD 2 = false) ∧
    (∀ p ∈ (plk 1000).launches, 1 ≤ p.2.desc.tilespace) ∧ (plan 1000 (2 ^ 40)).isSome = true ∧
    (∃ look ∈ (lkq (plk0 1000)).look.launch, ∀ c ∈ [0, 15], (((plk 1000).die (c / 16)).st = .hitched ∧ look.desc.level ≤ (plk 1000).level c ∧ c ∉ (plk 1000).fencedCores)) ∧
    (planLaunch (popPacket { plk 1000 with now := 2000 } 0 (lkq (plk0 1000))) 0 (lkq (plk0 1000)) hd 0 lbod 0).isNone = true := by
  decide

theorem witness_LaunchPackets_refused : planLaunch (popPacket pks 0 pq) 0 pq hd 0 lbod 0 = none ∧ AtPacket pks 0 pq 0 ∧ pq.look.report = false := by
  refine ⟨by decide, ⟨rfl, rfl, rfl, _, rfl⟩, rfl⟩

theorem witness_LaunchPackets_times :
    (∃ x ∈ plan 1000 0, x.1.deadline = some 1000 ∧ x.1.wrap = some 990 ∧ x.2.2.length = 16) ∧ (∃ x ∈ plan (2 ^ 63 - 1) 0, x.1.deadline = none) ∧
    (∃ x ∈ plan (2 ^ 47) (2 ^ 63 - 2 - 2 ^ 47), x.1.deadline = some (2 ^ 63 - 2)) ∧ (∃ x ∈ plan (2 ^ 47) (2 ^ 63 - 1 - 2 ^ 47), x.1.deadline = none) := by
  decide

theorem test_launch_packets :
    ran (exec (.launch hd lbod) (plk 1000)) (fun t => t.launches.length == 1 && t.blocks.length == 16 && t.blocks.all (·.2.st == .waiting) && t.pkts.length == 1) ∧
    ran (exec (.launchActivity hd lbod 1 0x6000) (plk 1000)) (fun t => t.launches.length == 1 && t.acts.map (fun p => (p.2.id, p.2.report)) == [(1, 0x6000)]) ∧
    ran (exec (.launch hd lbod) pks) (recd · 0x55 4 1) ∧ ran (exec (.launchActivity hd lbod 0 0x6000) (plk 1000)) (recd · 0x55 4 2) := by
  decide

/-- `plk` with the last entry of a table of 256, an image of one range register, and a stuck activity. -/
abbrev pst (torn : Bool) : State :=
  { plk 1000 with
    mem := bytesOf 0x2000 [0x10007, 0x1FFFF, 0x20000, 0] ++ bytesOf 0x4FE0 [0x4000, 4096 + 2 ^ 33, 0, 0]
    acts := sc.launches.map fun p => (7, { mkAct p.2.desc 2 .stuck [se 1 .failed, se 2 .sealed] with torn := torn }) }

abbrev pcm (dies ops : List Nat) : State := { pcopy 8 with pkts := (opened 6 (.commit 0 1 [] true dies ops)).pkts }

/-- Two open commits of context 0 that die 0 has not followed; the second was taken first. -/
abbrev rgx (b : Nat) : RangeReg := { w := true, r := true, e := true, vbase := b, vlimit := b + 0xFFF, pbase := b }
abbrev pcm2 : State :=
  { pks with pkts := [(3, { q := 0, idx := 3, code := 6, tag := 0, urgent := false, ctx := 0, body := .commit 0 9 [rgx 0x1000] true [0] [] }),
                      (8, { q := 1, idx := 0, code := 6, tag := 0, urgent := false, ctx := 0, body := .commit 0 4 [rgx 0x2000] true [0] [] })] }

/-- A lookup of the ostler that gives something for which `p` holds. -/
abbrev found {α : Type} (l : Look α) (p : α → Bool) : Bool := match l with
  | .ok x => p x
  | _ => false

theorem witness_RangeAndActivityPackets :
    AtPacket (pst false) 0 (lkq (plk0 1000)) 0 ∧ (lkq (plk0 1000)).look.report = true ∧ found (readWords (popPacket (pst false) 0 pq) 0 0x2000 128) (fun ws => (rangeImage ws).isSome) ∧
    (mget (pst false).ctxs 0).isSome = true ∧ found (readWords (popPacket (pst false) 0 pq) 0 0x4FE0 128) (fun ws => (rangeImage ws).isNone) ∧
    found (readWords (popPacket (pst false) 0 pq) 0 (0x3000 + 32 * 255) 4) (fun ws => (ovEntry ws).isSome) ∧
    (∃ A ∈ mget (pst false).acts 7, A.ctx = 0 ∧ A.id = 0x99 ∧ A.st = .stuck ∧ A.torn = false ∧ se 2 .sealed ∈ A.entries ∧
      (∀ p ∈ (pst false).acts, p.2.ctx = 0 → p.2.id = 0x99 → p = (7, A))) ∧
    Sorted (pst false).pkts ∧ (∀ p ∈ pks.acts, p.2.ctx = 0 → p.2.id ≠ 0x99) ∧
    (∃ P ∈ mget (pcm [] [61]).pkts 3, P.body = .commit 0 1 [] true [] [61]) ∧ mget (pcm [] [61]).ops 61 = none ∧ mget (pcm [] [60]).ops 60 ≠ none ∧
    (∃ P R, pcm2.pkts = [(3, P), (8, R)] ∧ P.body = .commit 0 9 [rgx 0x1000] true [0] [] ∧ R.body = .commit 0 4 [rgx 0x2000] true [0] [] ∧ 0 ∈ [0]) := by
  refine ⟨⟨rfl, rfl, rfl, _, rfl⟩, by decide, by decide, by decide, by decide, by decide, by decide, by decide, by decide, by decide, by decide, by decide, ?_⟩
  exact ⟨_, _, rfl, rfl, rfl, by decide⟩

set_option maxRecDepth 20000 in
theorem test_range_and_activity_packets :
    ran (exec (.rangeCommit hd 0x2000 true) (pst false)) (fun t => (mget t.ctxs 0).any (fun C => C.ranges.length == 32 &&
      C.ranges.head? == some ⟨true, true, true, 0x10000, 0x1FFFF, 0x20000⟩ && C.dieRanges.length == 1) && t.pkts.length == 1) ∧
    ran (exec (.rangeCommit hd 0x4FE0 true) (pst false)) (recd · 0x55 4 6) ∧
    (mget (rangeSwitch pcm2 0 0).ctxs 0).any (fun C => rangesOf C 0 == [rgx 0x2000]) ∧
    ran (exec (.rangeCommitComplete 3) (pcm [] [61])) (fun t => t.pkts == []) ∧ ran (exec (.rangeCommitComplete 3) (pcm [0] [])) (fun t => t.pkts.length == 1) ∧
    ran (exec (.rangeCommitComplete 3) (pcm [] [60])) (fun t => t.pkts.length == 1) ∧
    ran (exec (.preloadOverlay hd 0x3000 256 255) (pst false)) (recd · 0x55 0 7) ∧ ran (exec (.preloadOverlay hd 0x3000 256 256) (pst false)) (recd · 0x55 4 7) := by
  decide

theorem test_resume_and_discard :
    ran (exec (.activityResume hd 0x99 0x6000) (pst false)) (fun t => (mget t.acts 7).any fun A => A.st == .abandoning && A.entries == [se 1 .open_, se 2 .sealed]) ∧
    ran (exec (.activityResume hd 0x99 0x6000) (pst true)) (recd · 0x55 4 8) ∧ ran (exec (.activityResume hd 0x98 0x6000) (pst false)) (recd · 0x55 4 8) ∧
    ran (exec (.activityDiscard hd 0x99 0x6000) (pst true)) (fun t => t.acts == [] && t.read 0x110000 8 == 0x55 + 2 ^ 32 * 6 + 2 ^ 40 * 9) := by
  decide

/-- `pks` with a held record of queue 0, its ring as full as `cw` says. -/
abbrev heldRec : CRec := { tag := 0x66, outcome := 255, code := 255, blocks := 0, valid := 0, now := false }
abbrev hld (cw : Nat) : State := { pks with queues := [(0, { pq with taken := none, cwr := cw, held := [heldRec] })] }

/-- A message of queue 0 pending since `x`, at time `now`, the last one of the interface sent at time 0 or never. -/
abbrev msg (x now : Nat) (last : Option Nat) (ms : List Nat) : State :=
  { pks with queues := [(0, { pq with pend := some x })], now := now, vifs := [(0, { Vif.reset with last := last, msgs := ms })] }

/-- Queue 0 unbound, of a context that is gone. -/
abbrev unbd : State := { pks with queues := [(0, { pq with bound := false, taken := none })], ctxs := [] }

set_option exponentiation.threshold 600 in
theorem witness_RecordsAndMessages :
    Q0 (hld 0) (fun Q => Q.held = [heldRec] ∧ Q.taken = none) ∧ Q0 (hld 16) (fun Q => cringFull (hld 16) Q = true) ∧
    Q0 (msg 100 5099 none []) (fun Q => Q.pend = some 100 ∧ (msg 100 5099 none []).now < 100 + 1000 * Q.coal) ∧
    Q0 (msg 100 5100 (some 1100) []) (fun Q => Q.pend = some 100 ∧ 100 + 1000 * Q.coal ≤ (msg 100 5100 none []).now) ∧
    (∃ V ∈ mget (msg 100 5100 (some 1100) []).vifs 0, V.last = some 1100 ∧ 1100 + 4000 ≤ (msg 100 5100 none []).now) ∧
    (∃ V ∈ mget (msg 100 4000 (some 0) [0]).vifs 0, V.msgs = [0] ∧ V.last = some 0 ∧ 0 + 4000 ≤ (msg 100 4000 none []).now) ∧
    (∃ V ∈ mget (msg 100 3999 (some 0) [0]).vifs 0, V.msgs = [0] ∧ V.last = some 0 ∧ (msg 100 3999 none []).now < 0 + 4000) ∧
    Q0 unbd (fun Q => Q.bound = false ∧ Q.held = [] ∧ Q.taken = none ∧ Q.pend = none ∧ ∀ C, mget unbd.ctxs Q.ctx = some C → C.st ≠ .active) ∧
    Q0 (hld 16) (fun Q => ostlerMay (hld 16) (Q.ctl + 32) = true ∧ Q.bound = true) ∧ pks.pkts = [] ∧
    Q0 { pks with queues := [(0, { pq with held := [heldRec] })] } (fun Q => Q.taken = some (0, 0) ∧ Q.held ≠ []) ∧
    Q0 pks (fun Q => pks.queues = [(0, Q)] ∧ Q.taken = some (0, 0)) := by
  decide

theorem witness_RecordsAndMessages_ring : Q0 (hld 0) fun Q => RingReady (hld 0) { Q with held := [] } :=
  ⟨_, rfl, ring_ready _ _ (by decide) rfl rfl rfl⟩

abbrev sent (t : State) : List Nat := ((mget t.vifs 0).map (·.sent)).getD []

set_option exponentiation.threshold 600 in
theorem test_records_and_messages :
    ran (exec (.completionRoom 0) (hld 0)) (fun t => t.read 0x110000 8 == 0x66 + 2 ^ 32 * 255 + 2 ^ 40 * 255 && (mget t.queues 0).any (·.held == [])) ∧
    ran (exec (.completionRoom 0) (hld 16)) (fun t => (mget t.queues 0).any (·.held == [heldRec])) ∧
    ran (exec (.completionRoom 0) { hld 0 with ctxs := [] }) (fun t => t.read 0x110000 8 == 0x66 + 2 ^ 32 * 255 + 2 ^ 40 * 255) ∧
    ran (exec (.completionRoom 0) unbd) (fun t => t.queues == []) ∧
    ran (exec (.msixCoalesceTimeout 0) (msg 100 5099 none [])) (sent · == []) ∧ ran (exec (.msixCoalesceTimeout 0) (msg 100 5100 (some 1100) [])) (sent · == [6]) ∧
    ran (exec (.msixRateDelay 0) (msg 100 4000 (some 0) [0])) (sent · == [6]) ∧ ran (exec (.msixRateDelay 0) (msg 100 3999 (some 0) [0])) (sent · == []) ∧
    ran (exec .ostlerWatchdog pks) (fun t => t.batch == [] && (mget t.queues 0).any (·.taken == none) && recd t 0 4 0) := by
  decide

/-! ### Faults, contexts, queues -/

abbrev frec (q : BitVec 32) : FaultRec := { seq := q, page := 0x400, kind := 0, level := 1 }

/-- Group 4 held at page 0x400, with an unanswered record. -/
abbrev fh : State :=
  (scg fun G => { G with holds := [{ str := .scalar, pages := [{ page := 0x400, lanes := 0, addr := 0x400018, kind := 0, level := 1 }] }] }).modCtx 0 fun C =>
    { C with recs := [frec 9], flags := 2 }

theorem witness_FaultAnswers :
    (∃ C ∈ mget fh.ctxs 0, C.recs = [frec 9] ∧ C.st = .active ∧ (∀ r ∈ C.recs, r.seq ≠ 8) ∧ C.flags = 2) ∧
    G4 fh (fun G => fh.ctxOf G = 0 ∧ fh.groups = [(4, G)] ∧ (∃ L ∈ mget fh.launches 2, MayTrap fh G L) ∧ G.st = .running ∧
      G.holds = [{ str := .scalar, pages := [{ page := 0x400, lanes := 0, addr := 0x400018, kind := 0, level := 1 }] }]) ∧
    fh.ops = [] ∧ fh.pkts = [] ∧ { fh with copies := [] }.copies = [] := by
  unfold MayTrap; decide

theorem test_fault_answers :
    ran (exec (.retry 0 9) fh) (fun t => (mget t.groups 4).any (fun G => G.holds == [] && G.pc == 0) && (mget t.ctxs 0).any (·.recs == [])) ∧
    ran (exec (.retry 0 8) fh) (fun t => (mget t.groups 4).any (·.holds.length == 1)) ∧
    ran (exec (.faultTrap 0 9) fh) (fun t => (mget t.groups 4).any fun G => G.trap.cause == 5 && G.trap.addr == 0x400018 && G.holds == []) ∧
    ran (exec (.fatal 0 9) fh) (fun t => (mget t.groups 4).any (·.st == .killed) && (mget t.ctxs 0).any (·.st == .dead)) := by
  decide

/-- A context descriptor at 0x2000 of context 1, with `ents` fault entries, and a quota of four contexts. -/
abbrev cds (ents : Nat) : State :=
  { pks with mem := bytesOf 0x2000 [0x10000, 0x20000, 0x10 + 2 ^ 32 + 3 * 2 ^ 48, 0x40000, ents, 0, 0, 0]
             vifs := [(0, { Vif.reset with quota := { Quota.none with contexts := 4 } })] }

abbrev cst_ (st : CState) (s : State) : State := s.modCtx 0 fun C => { C with st := st }

theorem witness_ContextsAndQuotas_create : ∀ ents ∈ [16, 4096],
    let s := cds ents
    let f (off n : Nat) : Nat := s.read (0x2000 + off) n
    Device 0x2000 64 ∧ Device (f 0 8) 4096 ∧ Device (f 8 8) 4096 ∧ f 20 2 = 1 ∧ f 20 2 / 64 = 0 ∧ f 22 2 = 3 ∧ Device (f 24 8) 64 ∧ (f 32 4 = 2 ^ 4 ∨ f 32 4 = 2 ^ 12) ∧
      f 36 4 = 0 ∧ f 40 8 = 0 ∧ f 48 8 = 0 ∧ f 56 8 = 0 ∧ mget s.ctxs (f 20 2) = none ∧
      (s.ctxs.filter fun p => p.1 / 64 == 0).length < ((mget s.vifs 0).map (·.quota.contexts)).getD 0 := by
  decide

abbrev qfull : Quota := { clusters := 0, slots := List.replicate 128 256, queues := 64, heap := 256, phasers := 256, contexts := 64 }

theorem witness_ContextsAndQuotas :
    (∃ C ∈ mget pks.ctxs 0, C.st = .active) ∧ (∀ p ∈ pks.launches, p.2.ctx = 0 → p.2.st = .complete) ∧ (∃ p ∈ sc.launches, p.2.ctx = 0 ∧ p.2.st ≠ .complete) ∧
    (∃ C ∈ mget (cst_ .dead pks).ctxs 0, C.st = .dead) ∧ (∃ C ∈ mget (cst_ .tearing pks).ctxs 0, C.st ≠ .active ∧ C.st ≠ .dead) ∧
    quotaFits State.reset 0 qfull = true ∧ quotaFits State.reset 0 { qfull with queues := 65 } = false ∧ quotaFits State.reset 17 qfull = false := by
  decide

theorem test_contexts_and_quotas :
    ran (exec (.contextCreate 0 0x2000) (cds 16)) (fun t => (mget t.ctxs 1).any fun C => C.root == 0x10000 && C.flags == 3 && C.faultents == 16 && C.savesize == 16) ∧
    ran (exec (.contextCreate 0 0x2000) (cds 24)) (fun t => t.ctxs.length == 1 && (mget t.vifs 0).any (·.answer == some false)) ∧
    ran (exec (.contextFlagsWrite 0 3) pks) (fun t => (mget t.ctxs 0).any (·.flags == 3)) ∧
    ran (exec (.contextFlagsWrite 0 3) sc) (fun t => (mget t.ctxs 0).any (·.flags != 3) && (mget t.vifs 0).any (·.answer == some false)) ∧
    ran (exec (.teardown 0) sc) (fun t => (mget t.ctxs 0).any (·.st == .dead) && (mget t.groups 4).any (·.st == .killed)) ∧
    ran (exec (.contextRelease 0) (cst_ .dead pks)) (fun t => t.ctxs == []) ∧ ran (exec (.contextRelease 0) (cst_ .tearing pks)) (fun t => t.ctxs.length == 1) ∧
    ran (exec (.quotaSet 0 qfull) State.reset) (fun t => (mget t.vifs 0).any (·.quota == qfull)) := by
  decide

/-- A queue's descriptor: ring, control block and completion ring as `pq`, 2^n slots of each, coalescing time c. -/
abbrev qd (n c : Nat) : BitVec 512 :=
  BitVec.ofNat 512 (0x120000 * 2 ^ 448 + 0x100000 * 2 ^ 384 + 0x110000 * 2 ^ 320 + n * 2 ^ 299 + n * 2 ^ 294 + 6 * 2 ^ 278 + c * 2 ^ 262 + 1)

abbrev unb (d : BitVec 512) : State := { pks with queues := [], qdescs := [(0, d)] }

/-- A storage window: submission and completion queues in device memory, doorbell in the host's, depth `n`. -/
abbrev sw (n : Nat) : BitVec 512 :=
  BitVec.ofNat 512 (0x10000 + 0x20000 * 2 ^ 64 + (2 ^ 50 + 0x3000) * 2 ^ 128 + 1 * 2 ^ 192 + n * 2 ^ 224 + 2 ^ 240 + 100 * 2 ^ 256)

set_option exponentiation.threshold 600 in
theorem witness_QueuesWindowsRegisters :
    queueDescOk pks 0 (qd 4 0) = true ∧ queueDescOk pks 0 (qd 16 50) = true ∧ queueDescOk pks 0 (qd 16 51) = false ∧ queueDescOk pks 0 (qd 3 50) = false ∧
    queueIdle (unb 0) 2 = true ∧ ((mget pks.vifs 0).map (·.quota.queues)).getD 0 = 3 ∧ (mget pks.queues 0).isSome = true ∧
    (∃ C ∈ mget pks.ctxs 0, C.st = .active) ∧
    (∀ n ∈ [2, 4096], paClass (entryField (sw n) 0 8) = 0 ∧ paBad (entryField (sw n) 0 8) = false ∧ paClass (entryField (sw n) 8 8) = 0 ∧ paBad (entryField (sw n) 8 8) = false ∧
      paClass (entryField (sw n) 16 8) = 1 ∧ paBad (entryField (sw n) 16 8) = false ∧ entryField (sw n) 28 2 = n ∧ entryField (sw n) 30 1 < 2 ∧ entryField (sw n) 31 1 = 0 ∧
      entryField (sw n) 40 24 = 0) ∧
    ((mget (unb (qd 4 0 - 1)).qdescs 0).all fun d => !d.getLsbD 0) = true ∧ (qd 4 0 - 1).getLsbD 0 = false ∧ (qd 4 0).getLsbD 0 = true ∧
    pks.dies[7]?.isSome = true := by
  decide

set_option exponentiation.threshold 600 in
theorem test_queues_windows_registers :
    ran (exec (.queueBind 0 2 (qd 16 50)) pks) (fun t => (mget t.queues 2).any fun Q => Q.bound && Q.ring == 0x120000 && Q.ctl == 0x100000 && Q.cring == 0x110000 &&
      Q.slots == 16 && Q.cslots == 16 && Q.vector == 6 && Q.coal == 50) ∧ ran (exec (.queueBind 0 3 (qd 16 50)) pks) (fun t => t.queues.length == 1) ∧
    ran (exec (.queueUnbind 0) pks) (fun t => (mget t.queues 0).any (!·.bound)) ∧
    ran (exec (.storageWindowRegister 0 7 (sw 4096)) pks) (fun t => (mget t.ctxs 0).any fun C => (mget C.windows 7).any fun W => W.valid && W.qdepth == 4096 && W.lbas == 100) ∧
    ran (exec (.storageWindowRegister 0 7 (sw 4097)) pks) (fun t => (mget t.ctxs 0).any (·.windows == [])) ∧
    ran (exec (.storageWindowWithdraw 0 2) (withWin pks)) (fun t => (mget t.ctxs 0).any fun C => (mget C.windows 2).any (!·.valid)) := by
  decide


set_option exponentiation.threshold 600 in
theorem test_register_writes :
    ran (exec (.registerWrite (.queueDesc 0 (qd 4 0 - 1 + 4))) (unb 0)) (fun t => mget t.qdescs 0 == some (qd 4 0 - 1)) ∧
    ran (exec (.registerWrite (.queueDesc 0 0)) (unb 1)) (fun t => mget t.qdescs 0 == some 1) ∧
    ran (exec (.registerWrite (.crd 0 7)) pks) (fun t => t.read 0x100020 8 == 7) ∧
    ran (exec (.registerWrite (.hostWindow 15 1 2)) pks) (fun t => t.modl.hostWindows == [(15, (1, 2))]) ∧
    ran (exec (.registerWrite (.gateHold 7 (some 1000))) pks) (fun t => (t.die 7).hold == some 1000 && (t.die 6).hold == none) ∧
    ran (exec (.registerWrite (.gateHold 7 (some 999))) pks) (· == pks) ∧
    ran (exec (.registerWrite (.testInterval 31 9)) pks) (fun t => t.testEvery == [(31, 9)]) := by
  refine ⟨?_, ?_, ?_, ?_, ?_, ?_, ?_⟩ <;> decide

/-! ### Pre-emption -/

/-- Block 3 with progress estimate `p`, a restart flag, an in-field test of its cluster, and an interface with everything. -/
abbrev pre (flag : Bool) (f : Block → Block) : State :=
  { (sc.modBlk 3 f).modLaunch 2 (fun L => { L with desc := { L.desc with flags := if flag then 1 else 0, scratch := 64 } }) with
    fieldTests := [0], vifs := [(0, { Vif.reset with quota := { qfull with clusters := 0xFFFFFFFF } })], mem := [(2 ^ 52 + 3, 7), (2 ^ 52 + 64, 9)] }

abbrev prog (n : Nat) (B : Block) : Block := { B with progress := some n }
abbrev budg (B : Block) : Block := { B with progress := some 50001, pre := some { who := .inField, until_ := some 100 } }
abbrev at_ (now : Nat) (s : State) : State := { s with now := now }
/-- A save for an in-field test: its records go to the area of HBM that is reserved for it (R384). -/
abbrev sav (B : Block) : Block := { B with st := .saving, pre := some { who := .inField, until_ := none } }

/-- Block 3 saved with its group, or its restore under way. -/
abbrev svd (st : BState) : State :=
  (pre false fun B => { B with
    st := st, scr := [(3, 8), (63, 9)]
    save := [{ grp := 4, was := .running, bytes := [], at_ := none }] }).modGrp 4 fun G =>
      { G with st := if st = .saved then .saved else .running }

theorem witness_Preemption_choice :
    (∃ B ∈ mget (pre false (prog 50000)).blocks 3, ∃ L ∈ mget (pre false (prog 50000)).launches B.launch, B.st = .started ∧ B.comp = none ∧ B.audit = none ∧
      needs (pre false (prog 50000)) B .inField = true ∧ estFits B L (drainBudget .inField) = true ∧ L.act = none ∧ L.wrapped = none) ∧
    (∀ p ∈ (pre false (prog 50000)).groups, p.2.blk = 3 → p.2.sect = none) ∧
    (∃ B ∈ mget (pre false (prog 50001)).blocks 3, ∃ L ∈ mget (pre false (prog 50001)).launches B.launch, estFits B L (drainBudget .inField) = false ∧
      ¬ L.desc.flags.getLsbD 0 = true ∧ saveFits (pre false (prog 50001)) 3 L .inField = true) ∧
    (∃ L ∈ mget (pre true (prog 50001)).launches 2, L.desc.flags.getLsbD 0 = true) ∧
    (∃ B ∈ mget sc.blocks 3, needs sc B .inField = false) ∧
    (∃ B ∈ mget (pre false budg).blocks 3, B.pre = some { who := .inField, until_ := some 100 }) := by
  decide

/-- A group of the block has an open section; its context has no save area; the choice was asked for and waits. -/
abbrev preS : State := (pre false (prog 50001)).modGrp 4 fun G => { G with sect := some (0, 0) }

theorem witness_Preemption_waits :
    G4 preS (fun G => G.blk = 3 ∧ G.sect ≠ none ∧ G.st.here = true ∧ (preS.die (G.core / 16)).st = .hitched ∧ ∃ B ∈ mget preS.blocks 3, B.st = .started ∧ needs preS B .inField = true) ∧
    (∃ B ∈ mget (pre false (prog 50001)).blocks 3, ∃ L ∈ mget (pre false (prog 50001)).launches 2, saveFits (pre false (prog 50001)) 3 L .fencing = false ∧
      saveFits (pre false (prog 50001)) 3 L (.waitingBlock 9) = false ∧ B.audit = none ∧ B.st = .started) ∧
    (let B : Block := { Block.empty 2 0 0 false with st := .started, pre := some { who := .inField, until_ := none, asked := true } }
     B.pre = some { who := .inField, until_ := none, asked := true } ∧ needs (pre false id) B .inField = true) := by
  decide

theorem test_preempt_in_a_section :
    ran (exec (.preempt 3 .inField) preS) (fun t => (mget t.blocks 3).any fun B => B.st == .started && B.pre == some { who := .inField, until_ := none, asked := true }) := by
  decide

/-- Saved on core 0, and a line of its block record has gone bad, or its home cluster is another one. -/
theorem witness_Preemption_restore :
    (∃ B ∈ mget (svd .saved).blocks 3, ∃ L ∈ mget (svd .saved).launches 2, B.wide = false ∧ B.audit = none ∧ B.brec = none ∧ restoreOk (svd .saved) 3 B L 0 = true ∧
      restoreOk (svd .saved) 3 B L 16 = false ∧ (∀ r ∈ B.save, r.now (svd .saved) = r.bytes ∧ recBad (svd .saved) r = false) ∧ blockBad (svd .saved) B = false ∧
      blockBad { svd .saved with poison := [9] } { B with brec := some (9 * 64, [1]) } = true) := by
  decide

theorem witness_Preemption_save_restore :
    (∃ B ∈ mget (pre false fun B => { B with st := .saving }).blocks 3, B.st = .saving ∧ B.wide = false) ∧
    G4 (pre false fun B => { B with st := .saving }) (fun G => drained (pre false fun B => { B with st := .saving }) 4 G = true ∧ G.st ≠ .exited ∧ G.st ≠ .killed) ∧
    Sorted (pre false id).groups ∧ G4 (pend id) (fun G => drained (pend id) 4 G = false) ∧
    (∃ B ∈ mget (svd .restoring).blocks 3, B.st = .restoring ∧ restoreReady (svd .restoring) 3 = true) ∧
    restoreReady { svd .restoring with copies := sc.copies.map fun p => (p.1, { p.2 with loading := true, waiters := [.fixed 3] }) } 3 = false ∧
    (∃ B ∈ mget (svd .saved).blocks 3, ∃ L ∈ mget (svd .saved).launches 2, B.st = .saved ∧ (∀ r ∈ B.save, recBad (svd .saved) r = false) ∧ coreOk (svd .saved) 0 = true ∧ L.desc.level ≤ (svd .saved).level 0 ∧ tilesQuiet (svd .saved) 3 [0] = true ∧
      coreRoom (svd .saved) L B 0 0 = true ∧ scrFree (svd .saved) 0 B.scrOff L.desc.scratch = true ∧ (B.scr.map (·.1)).Nodup ∧ ∀ c ∈ B.scr, c.1 < Config.scratchSpan) ∧
    recBad (svd .saved) { grp := 4, was := .running, bytes := [7], at_ := some 0x9000, bad := true } = true ∧
    (∃ p, sav (Block.empty 2 0 0 false) = { Block.empty 2 0 0 false with st := .saving, pre := some p } ∧ p.who = .inField) := by
  refine ⟨by decide, by decide, by decide, by decide, by decide, by decide, by decide, by decide, ⟨_, rfl, rfl⟩⟩

theorem test_preemption :
    ran (exec (.preempt 3 .inField) (pre false (prog 50000))) (fun t => (mget t.blocks 3).any fun B => B.pre == some { who := .inField, until_ := some 50000000 } && B.st == .started) ∧
    ran (exec (.preempt 3 .inField) (pre true (prog 50001))) (fun t => (mget t.blocks 3).any (·.st == .waiting) && t.groups == []) ∧
    ran (exec (.preempt 3 .inField) (pre false (prog 50001))) (fun t => (mget t.blocks 3).any (·.st == .saving) && t.groups.length == 1) ∧
    ran (exec (.drainBudgetExpire 3) (at_ 99 (pre true budg))) (fun t => t.groups.length == 1) ∧
    ran (exec (.drainBudgetExpire 3) (at_ 100 (pre true budg))) (fun t => t.groups == []) ∧
    ran (exec (.drainBudgetExpire 3) (at_ 100 (pre false budg))) (fun t => (mget t.blocks 3).any (·.st == .saving)) := by
  decide

set_option maxRecDepth 30000 in
theorem test_save_restore :
    ran (exec (.saveRecordWrite 3) (pre false sav)) (fun t => t.mem == [(2 ^ 52 + 64, 9)] && (mget t.groups 4).any (·.st == .saved) &&
      (mget t.blocks 3).any fun B => B.st == .saved && B.scr == [(3, 7)]) ∧
    ran (exec (.restore 3 0) (svd .restoring)) (fun t => (mget t.blocks 3).any fun B => B.st == .started && B.save == []) ∧
    ran (exec (.restore 3 0) (svd .saved)) (fun t => t.mem == [(2 ^ 52 + 3, 8), (2 ^ 52 + 63, 9), (2 ^ 52 + 64, 9)] && (mget t.groups 4).any (·.st == .running) &&
      (mget t.blocks 3).any (·.st == .restoring)) := by
  refine ⟨?_, ?_, ?_⟩ <;> decide

/-! ### Errors, tests and audits -/

/-- Nothing on any core; core 5 suspect, core 6 under test, cluster 2 in its field test, cluster 3 due every 100 ns; every die hitched. -/
abbrev ras (now : Nat) : State :=
  { State.reset with suspects := [5], testing := [6, 8, 9, 10, 11], fieldTests := [2], testEvery := [(3, 100)], now := now
                     dies := State.reset.dies.map fun D => { D with st := .hitched } }

abbrev aud (f : Audit → Audit) : State :=
  { (pre false fun B => { B with st := .ended }).modLaunch 2 fun L => { L with quota := List.replicate 128 256 } with
    audits := [(70, f { launch := 2, tile := 5, core := 0, lin := 1, idx := 2, off := 128, done := true })], nextId := 80
    dies := sc.dies.map fun D => { D with st := .hitched } }

/-- An audit whose replay has ended, with what the two wrote. -/
abbrev cmp_ (x y : Byte) : State := aud fun A => { A with started := true, ended := true, rcore := 16, writes := [(3, x)], replay := [(3, y)] }

theorem witness_ErrorsTestsAudits :
    G4 (tstate [] [] id) (fun G => G.st.here = true ∧ 3 < (((tstate [] [] id).launch? G).map (·.desc.acctiles)).getD 0 ∧ tileKey (tstate [] [] id) G 3 ∉ (tstate [] [] id).accPoison) ∧
    5 ∈ (ras 0).suspects ∧ 5 ∉ (ras 0).testing ∧ 7 ∉ (ras 0).suspects ∧ 6 ∈ (ras 0).testing ∧ 6 / 4 ∉ (ras 0).fieldTests ∧ CoreEmpty (ras 0) 6 ∧
    ¬ CoreEmpty sc 0 ∧ mget (ras 0).testEvery 3 = some 100 ∧ (ras 99).now < (mget (ras 0).lastTest 3).getD 0 + 100 ∧ (mget (ras 0).lastTest 3).getD 0 + 100 ≤ (ras 100).now ∧
    ((ras 100).die (3 / 4)).st = .hitched ∧ 4 * 3 + 0 ∉ (ras 100).fencedCores ∧
    (∀ i < 4, 4 * 3 + i ∉ (ras 100).fencedCores → 4 * 3 + i ∉ (ras 100).testing ∧ 4 * 3 + i ∉ (ras 100).suspects) ∧ 2 ∈ (ras 0).fieldTests ∧ (∀ i < 4, CoreEmpty (ras 0) (4 * 2 + i)) := by
  decide

theorem witness_ErrorsTestsAudits_audit :
    (∃ A ∈ mget (aud id).audits 70, ∃ L ∈ mget (aud id).launches 2, A.launch = 2 ∧ A.tile = 5 ∧ (∀ p ∈ (aud id).audits, p.2.launch = 2 → p.2.tile = 5 → p = (70, A)) ∧
      A.done = true ∧ A.barred = false ∧ A.started = false ∧ auditCore (aud id) A L 16 = true ∧
      coreRoom (aud id) L { Block.empty 2 A.lin 16 false with audit := some 70 } 16 16 = true ∧ scrFree (aud id) 16 A.off L.desc.scratch = true) ∧
    (∃ A ∈ mget (cmp_ 1 1).audits 70, A.started = true ∧ A.writes = A.replay) ∧ (∀ p ∈ (cmp_ 1 1).blocks, p.2.audit = some 70 → p.2.st = .ended) ∧
    (∀ p ∈ (cmp_ 1 1).ops, (p.2.aud.map (·.1)) ≠ some 70) ∧
    (∃ A ∈ mget (cmp_ 1 2).audits 70, A.ended = true ∧ A.writes = [(3, 1)] ∧ A.replay = [(3, 2)]) := by
  decide

/-- The signatures of those writes differ, whichever way the crc takes its bits. -/
theorem witness_ErrorsTestsAudits_signatures : signature [(3, 1)] ≠ signature [(3, 2)] := by
  unfold signature crc64
  generalize Config.crcReflected = c
  cases c <;> decide

theorem test_errors_and_tests :
    ran (exec (.uncorrectableError (.tile 4 3) .hbm) (tstate [] [] id)) (fun t => t.accSick == [3 * 4 * 64 + 3] && t.modl.errs == []) ∧
    ran (exec (.correctedError .hbm 7 ⟨9, none⟩) sc) (fun t => t.modl.errpend && t.modl.errs.map (fun r => (r.kind, r.unit, r.ctx, r.addr)) == [(0, 3, 0xFFFF, 9)]) ∧
    ran (exec (.correctedError .hbm 7 ⟨9, some 65⟩) sc) (fun t => t.modl.viferrs.map (fun p => (p.1, p.2.ctx)) == [(1, 65)]) ∧
    ran (exec (.uncorrectableError (.line 130 none) .hbm) sc) (fun t => t.poison == [2] && t.modl.errs.map (·.kind) == [2]) ∧
    ran (exec (.uncorrectableError (.link 1) .dieLink) sc) (fun t => t.suspects == (List.range 16).map (16 + ·)) ∧
    ran (exec (.selfTest 5) (ras 0)) (fun t => t.suspects == [] && t.testing.contains 5) ∧ ran (exec (.selfTest 7) (ras 0)) (fun t => t == ras 0) ∧
    ran (exec (.selfTestResult 6 false) (ras 0)) (fun t => t.fencedCores == [6]) ∧
    ran (exec (.inFieldTest 3) (ras 100)) (fun t => t.fieldTests == [2, 3]) ∧ ran (exec (.inFieldTest 3) (ras 99)) (fun t => t.fieldTests == [2]) ∧
    ran (exec (.inFieldTestEnd 2 false) (ras 7)) (fun t => t.fieldTests == [] && t.fencedCores == [8, 9, 10, 11] && t.lastTest == [(2, 7)] && (t.die 0).st == .fenced) := by
  decide

theorem test_audits :
    ran (exec (.audit 2 5 16) (aud id)) (fun t => (mget t.audits 70).any (·.started) && t.groups.any fun p => p.2.audit == some 70 && p.2.core == 16 && p.2.rs 6 == 128) ∧
    ran (exec (.audit 2 5 15) (aud id)) (fun t => (mget t.audits 70).any (!·.started)) := by
  decide

/-! ### Coherence, the host and peers -/

/-- Every die HITCHED; line 9 in a state of the directory, with the dies of its region, at dies in some states, a request and messages under way. -/
abbrev chs (st : LineState × Option Nat) (ds : List Nat) (at0 : List (Nat × DieLine)) (busy : Option Trans) (ms : List (Nat × Nat × Msg)) : State :=
  { State.reset with
    dies := State.reset.dies.map fun D => { D with st := .hitched }
    coh := { State.reset.coh with girth :=
      { slices := false, regions := [(1, { dies := ds, lines := [(9, st)], busy := busy, queue := [] })], lines := at0.map fun p => (lineKey p.1 9, p.2), msgs := ms, seen := [] } } }

abbrev dl (st : Moesi) : DieLine := { DieLine.none with st := st }

/-- Line 9 at a die, its region at the Girth, and what is in progress there. -/
abbrev at9 (s : State) (d : Nat) : DieLine := s.coh.girth.at_ d 9
abbrev reg1 (s : State) : Region := s.coh.girth.region 1
abbrev busy1 (s : State) : Option Trans := (reg1 s).busy

theorem witness_LineRequests :
    (∀ s ∈ [chs (.i, none) [] [] none [], chs (.s, none) [1] [(1, dl .s)] none [], chs (.x, some 1) [1] [(1, dl .m)] none [], chs (.o, some 1) [1, 2] [(1, dl .o), (2, dl .s)] none [],
        chs (.s, none) [] [] none [], chs (.o, some 1) [1] [(1, dl .o)] none []],
      LineIdle s 7 9 .i ∧ RegionIdle s 7 9 ∧ s.coh.girth.slices = false) ∧
    (let s := chs (.s, none) [1, 2] [(1, dl .s), (2, dl .s)] none []; LineIdle s 1 9 .s ∧ RegionIdle s 1 9 ∧ (reg1 s).dies.filter (· != 1) ≠ []) ∧
    (let s := chs (.o, some 1) [1] [(1, dl .o)] none []; LineIdle s 1 9 .o ∧ RegionIdle s 1 9 ∧ (reg1 s).dies.filter (· != 1) = []) ∧
    (at9 (chs (.i, none) [] [(1, { dl .i with waits := some .rdS })] none []) 1).waits ≠ none ∧
    (at9 (chs (.i, none) [] [(1, { dl .i with buffer := true })] none []) 1).buffer = true ∧
    (at9 (chs (.i, none) [] [(1, { dl .i with answer := some (.invAck false) })] none []) 1).answer ≠ none ∧ (State.reset.die 1).st ≠ .hitched := by
  decide

theorem test_line_requests :
    ran (exec (.rdS 7 9) (chs (.s, none) [1] [(1, dl .s)] none [])) (fun t => busy1 t == some (.mem .rdS 7 9) && t.coh.girth.msgs == []) ∧
    ran (exec (.rdX 7 9) (chs (.s, none) [1] [(1, dl .s)] none [])) (fun t => busy1 t == some (.inv .rdX 7 9 [1]) && t.coh.girth.msgs == [(1, 9, .inv)]) ∧
    ran (exec (.rdX 7 9) (chs (.o, some 1) [1, 2] [(1, dl .o), (2, dl .s)] none [])) (fun t => busy1 t == some (.inv .rdX 7 9 [2])) ∧
    ran (exec (.rdS 7 9) (chs (.o, some 1) [1, 2] [(1, dl .o), (2, dl .s)] none [])) (fun t => busy1 t == some (.fwd .rdS 7 9 1) && t.coh.girth.msgs == [(1, 9, .fwdS)]) ∧
    ran (exec (.upg 1 9) (chs (.o, some 1) [1] [(1, dl .o)] none [])) (fun t => (reg1 t).line 9 == (.x, some 1) && t.coh.girth.msgs == [(1, 9, .grant)]) ∧
    ran (exec (.rdS 1 9) State.reset) (fun t => t == State.reset) := by
  decide

theorem witness_LineMessages :
    busy1 (chs (.i, none) [] [(7, { dl .i with waits := some .rdS })] (some (.mem .rdS 7 9)) []) = some (.mem .rdS 7 9) ∧
    (∀ m ∈ [Msg.grant, .inv, .fwdS, .fwdX, .wbAck, .data .rdX true, .data .rdX false], Arriving (chs (.x, some 1) [1] [(1, dl .m)] none [(1, 9, m)]) 1 9 m) ∧
    (let x := at9 (chs (.x, some 1) [1] [(1, dl .m)] none []) 1; x.buffer = false ∧ x.st = .m ∧ x.waits = none ∧ x.answer = none) ∧
    (let s := chs (.x, some 1) [1] [(1, dl .e)] none [(1, 9, .fwdS)]; (at9 s 1).buffer = false ∧ (at9 s 1).st = .e ∧ Arriving s 1 9 .fwdS) ∧
    (let s := chs (.x, some 1) [1] [(1, { dl .i with buffer := true, wbOut := true })] none []; (at9 s 1).buffer = true ∧ (at9 s 1).wbOut = true ∧ (1, 9) ∉ s.coh.girth.seen ∧
      busy1 s = none ∧ s.coh.girth.msgs = [] ∧ (reg1 s).line 9 = (.x, some 1) ∧ (∀ p ∈ s.coh.girth.lines, p.1 % 2 ^ 46 = 9 → p.2.st ≠ .s)) ∧
    (let s := chs (.s, none) [1] [(1, { dl .i with buffer := true, answer := some (.fwdData true true) })] none [(1, 9, .inv)]; (at9 s 1).answer ≠ none ∧ Arriving s 1 9 .inv) ∧
    ((chs (.s, none) [1] [(1, dl .s)] none []).coh.girth.taken 1).length < Config.dieLines ∧
    at9 (chs (.s, none) [1] [(1, dl .s)] none []) 1 = dl .s ∧ at9 (chs (.x, some 1) [1] [(1, dl .e)] none []) 1 = dl .e ∧
    (let s := chs (.x, some 1) [1] [(1, { dl .o with answer := some (.fwdData false true) }), (7, { dl .i with waits := some .rdS })] (some (.fwd .rdS 7 9 1)) [];
      (at9 s 1).answer = some (.fwdData false true) ∧ busy1 s = some (.fwd .rdS 7 9 1) ∧ (reg1 s).queue = [] ∧ (at9 s 7).waits ≠ none) ∧
    (∀ q ∈ [Req.rdX, .upg], ∀ due ∈ [[1], [1, 2]], ∀ st ∈ [(LineState.s, none), (.o, some 3)],
      let s := chs st [1, 2] [(1, { dl .i with answer := some (.invAck false) }), (7, { dl .s with waits := some q })] (some (.inv q 7 9 due)) [];
      (at9 s 1).answer = some (.invAck false) ∧ busy1 s = some (.inv q 7 9 due) ∧ (reg1 s).line 9 = st ∧ (reg1 s).queue = [] ∧ (at9 s 7).waits ≠ none) := by
  decide

theorem test_line_messages :
    ran (exec (.data 7 9) (chs (.i, none) [] [(7, { dl .i with waits := some .rdX })] (some (.mem .rdX 7 9)) [])) (fun t => at9 t 7 == dl .e &&
      (reg1 t).dies == [7] && (reg1 t).line 9 == (.x, some 7) && busy1 t == none) ∧
    ran (exec (.inv 1 9) (chs (.s, none) [1] [(1, dl .s)] none [(1, 9, .inv)])) (fun t => at9 t 1 == { dl .i with answer := some (.invAck false) } && t.coh.girth.msgs == []) ∧
    ran (exec (.fwdS 1 9) (chs (.x, some 1) [1] [(1, dl .m)] none [(1, 9, .fwdS)])) (fun t => at9 t 1 == { dl .o with answer := some (.fwdData false true) }) ∧
    ran (exec (.fwdS 1 9) (chs (.x, some 1) [1] [(1, dl .e)] none [(1, 9, .fwdS)])) (fun t => at9 t 1 == { dl .s with answer := some (.fwdData false false) }) ∧
    ran (exec (.fwdX 1 9) (chs (.x, some 1) [1] [(1, dl .m)] none [(1, 9, .fwdX)])) (fun t => at9 t 1 == { dl .i with answer := some (.fwdData false true) }) ∧
    ran (exec (.grant 1 9) (chs (.x, some 1) [1] [(1, { dl .s with waits := some .upg })] none [(1, 9, .grant)])) (fun t => at9 t 1 == dl .m) ∧
    ran (exec (.wb 1 9) (chs (.x, some 1) [1] [(1, dl .m)] none [])) (fun t => at9 t 1 == { dl .i with buffer := true, wbOut := true }) ∧
    ran (exec (.wbAck 1 9) (chs (.i, none) [1] [(1, { dl .i with buffer := true })] none [(1, 9, .wbAck)])) (fun t => at9 t 1 == dl .i) ∧
    ran (exec (.evC 1 9) (chs (.s, none) [1] [(1, dl .s)] none [])) (fun t => at9 t 1 == dl .i) := by
  decide

theorem test_line_answers :
    ran (exec (.fwdData 1 9) (chs (.x, some 1) [1] [(1, { dl .o with answer := some (.fwdData false true) }), (7, { dl .i with waits := some .rdS })] (some (.fwd .rdS 7 9 1)) [])) (fun t =>
      at9 t 1 == dl .o && t.coh.girth.msgs == [(7, 9, .data .rdS false)] && (reg1 t).line 9 == (.o, some 1)) ∧
    ran (exec (.fwdData 1 9) (chs (.x, some 1) [1] [(1, { dl .i with answer := some (.fwdData false true) }), (7, { dl .i with waits := some .rdX })] (some (.fwd .rdX 7 9 1)) [])) (fun t =>
      t.coh.girth.msgs == [(7, 9, .data .rdX true)] && (reg1 t).line 9 == (.x, some 7)) ∧
    ran (exec (.invAck 1 9) (chs (.s, none) [1, 2] [(1, { dl .i with answer := some (.invAck false) })] (some (.inv .rdX 7 9 [1, 2])) [])) (busy1 · == some (.inv .rdX 7 9 [2])) ∧
    ran (exec (.invAck 1 9) (chs (.s, none) [1] [(1, { dl .i with answer := some (.invAck false) }), (7, { dl .i with waits := some .rdX })] (some (.inv .rdX 7 9 [1])) []))
      (busy1 · == some (.mem .rdX 7 9)) ∧
    ran (exec (.wb 1 9) (chs (.x, some 1) [1] [(1, { dl .i with buffer := true, wbOut := true })] none [])) (fun t => t.coh.girth.msgs == [(1, 9, .wbAck)] && (reg1 t).line 9 == (.i, none)) := by
  decide

/-- A core of die 1 writes a line that it holds modified, one that its die holds shared and die 2 too. -/
abbrev own1 : State := (reachLine (chs (.s, none) [1, 2] [(1, dl .s), (2, dl .s)] none []) (.core 17) true (9 * 64)).getD State.reset

theorem witness_WritersOwnTheirLine :
    (let s := chs (.s, none) [1, 2] [(1, dl .s), (2, dl .s)] none []; (s.die (17 / 16)).st = .hitched ∧ hostHeld s (9 * 64) = false ∧
      (reachLine s (.core 17) true (9 * 64)).isSome = true ∧ (at9 s 1).st ≠ .e ∧ (at9 s 1).st ≠ .m) := by
  decide

theorem test_writers_own_their_line :
    (at9 own1 1).st = .m ∧ (at9 own1 2).st = .i ∧ ((own1.home 1).at_ 0 9).st = .m ∧ own1.l1 17 9 = .m ∧ (reg1 own1).line 9 = (.x, some 1) := by
  decide

/-- A region busy at the Girth answers no other request at once, so the write waits (R257, R261). -/
theorem test_a_busy_region_holds_a_write : reachLine (chs (.s, none) [1] [(1, dl .s)] (some (.mem .rdS 7 9)) []) (.core 17) true (9 * 64) = none := by
  decide

/-- A cluster of die 1 asks its home slice for a line that the die holds, and a core's L1 reads it (R258, R259). -/
theorem test_home_slices :
    (((homeEvent (chs (.s, none) [1] [(1, dl .s)] none []) 1 .rdS 0 9).home 1).region 1).busy = some (.mem .rdS 0 9) ∧
    (((homeEvent (chs (.i, none) [] [] none []) 1 .rdS 0 9).home 1).region 1).busy = none ∧
    (l1Event (chs (.s, none) [1] [(1, dl .s)] none []) 17 9 .read).l1 17 9 = .s ∧ (l1Event own1 17 9 .evict).l1 17 9 = .i ∧ ((l1Event own1 17 9 .evict).home 1).at_ 0 9 = dl .m := by
  decide

/-- The host holds line 2, a back-invalidate of line 3 is under way, line 4 is in the host-line cache, peer 5 is up. -/
abbrev hst : State :=
  { State.reset with coh := { State.reset.coh with hostHolds := [2, 3], backInv := [3], hostLines := [4] }, peers := [(5, { set := true, up := true })] }

/-- The table of lines that the host holds is full. -/
abbrev hfull : State := { hst with coh := { hst.coh with hostHolds := 2 :: List.replicate (Config.hostHoldsMore + 1) 3, backInv := [] } }

theorem witness_HostAndPeers :
    2 ∈ hst.coh.hostHolds ∧ 2 ∉ hst.coh.backInv ∧ 4 ∉ hst.coh.hostHolds ∧ 3 ∈ hst.coh.backInv ∧ hst.pkts = [] ∧
    (∀ x ∈ [(56, 8), (63, 1), (2 ^ 50 + 64, 8)], 1 ≤ x.2 ∧ x.2 ≤ 8 ∧ x.1 / 64 = (x.1 + x.2 - 1) / 64 ∧ paBad x.1 = false ∧ paClass x.1 ≤ 1) ∧
    holdsRoom hst 2 = true ∧
    (∃ p ∈ mget hst.peers 5, p.set = true ∧ p.up = true) ∧ 56 / 64 ∉ hst.coh.hostHolds ∧ hst.coh.girth.idle (56 / 64) = true ∧ 128 / 64 ∈ hst.coh.hostHolds ∧ isScr 128 = false ∧
    (∀ t ∈ [Ty.n32, Ty.i64], 64 % t.size = 0 ∧ (t.size = 4 ∨ t.size = 8)) ∧ hst.coh.girth.idle 1 = true ∧
    (chs (.s, none) [1] [(1, dl .s)] (some (.mem .rdS 7 9)) []).coh.girth.idle 9 = false := by
  decide

theorem witness_HostAndPeers_full : holdsRoom hfull 9 = false ∧ hfull.coh.backInv = [] := by
  refine ⟨?_, rfl⟩
  simp [holdsRoom]

theorem test_host_and_peers :
    ran (exec (.hostSnoop 4) hst) (fun t => t.coh.hostLines == []) ∧ ran (exec (.backInvalidate 2) hst) (fun t => t.coh.backInv == [2, 3]) ∧
    ran (exec (.backInvalidateResponse 3) hst) (fun t => t.coh.backInv == [] && t.coh.hostHolds == [2]) ∧
    ran (exec (.hostAccess (.write 130 2 0xABCD) true) hst) (fun t => t.mem == [(130, 0xCD), (131, 0xAB)] && t.coh.hostHolds == [2, 3] && t.coh.hostMod == [2]) ∧
    ran (exec (.peerAccess 5 (.write 64 1 7)) hst) (fun t => t.mem == [(64, 7)]) ∧ ran (exec (.peerAccess 5 (.write 128 1 7)) hst) (fun t => t.mem == []) ∧
    ran (exec (.peerAccess 5 (.atom 64 .n32 .add 7)) { hst with mem := [(64, 3)] }) (fun t => t.mem == [(64, 10)]) ∧
    ran (exec (.peerAccess 5 (.cas 64 .n32 3 9)) { hst with mem := [(64, 3)] }) (fun t => t.mem == [(64, 9)]) ∧ ran (exec (.peerAccess 5 (.cas 64 .n32 4 9)) { hst with mem := [(64, 3)] }) (fun t => t.mem == [(64, 3)]) ∧
    ran (exec (.peerLinkDown 5 true) hst) (fun t => t.peers == [(5, { set := true, up := false })]) ∧
    ran (exec (.peerNumberSet 5 false) hst) (fun t => t.peers == [(5, { set := false, up := true })]) := by
  decide

/-! ### Dies and the module -/

/-- The bring-up has trained the memory and the host link. -/
abbrev up3 (s : State) : State := { s with modl := { s.modl with up := 3 } }

abbrev dst_ (f : Die → Die) (now : Nat) : State := { sc.modDie 1 f with now := now }
abbrev dset (st : DState) (D : Die) : Die := { D with st := st }

theorem witness_DieStates :
    (∃ D ∈ sc.dies[1]?, D.st = .waking ∧ D.gen = 3 ∧ (D.cap0.extractLsb' 24 4).toNat + 1 = 3 ∧ (D.cap0.extractLsb' 16 8).toNat = 16 ∧ (D.cap0.extractLsb' 8 8).toNat = 4 ∧
      (D.cap1.extractLsb' 24 8).toNat = 4 ∧ (D.cap1.extractLsb' 16 8).toNat = 64 ∧ (D.cap1.extractLsb' 8 8).toNat = 8 ∧ (D.cap1.extractLsb' 0 8).toNat = 64) ∧
    (∃ D ∈ (dst_ (fun D => { D with st := .hitching, cap1 := 0x04400740 }) 0).dies[1]?, (D.cap1.extractLsb' 8 8).toNat = 7) ∧
    (∃ D ∈ (dst_ (dset .gated) 0).dies[1]?, D.st = .gated) ∧ 3 ≤ (up3 sc).modl.up ∧ sc.modl.up < 3 ∧ (sc.fencedCores.filter fun c => c / 16 = 1).length < 4 ∧
    (∃ D ∈ (dst_ (fun D => { D with st := .hitching, since := 5, tries := 2 }) 10000005).dies[1]?, D.st = .hitching ∧ D.since + 10000000 = 10000005 ∧ D.tries = 2) ∧
    (∃ D ∈ (dst_ (fun D => { D with st := .hitched, hold := some 9, empty := some 1, mayGate := true }) 10).dies[1]?, D.hold = some 9 ∧ D.empty = some 1 ∧ D.mayGate = true) ∧
    (∃ D ∈ (dst_ (dset .draining) 0).dies[1]?, D.st = .draining) ∧ dieLines (dst_ (dset .draining) 0) 1 = false ∧ (∀ p ∈ sc.ops, p.2.core / 16 ≠ 1) ∧
    dieLines (chs (.s, none) [1] [(1, dl .s)] none []) 1 = true ∧ blocksOn sc 0 ≠ [] := by
  decide

/-- No block is on die 1. -/
theorem witness_DieStates_empty : DieEmpty sc 1 := by
  intro c hc
  have h : ∀ p ∈ sc.blocks, blockCores p.2.wide p.2.core = [0] := by decide
  simp only [blocksOn, List.filter_eq_nil_iff]
  intro p hp
  have h0 : c ≠ 0 := by omega
  simp [h p hp, h0]

theorem test_die_states :
    ran (exec (.wakeRequest 1) (dst_ (dset .gated) 7)) (fun t => (t.die 1).st == .waking && (t.die 1).since == 7) ∧ ran (exec (.powerGood 1) (up3 sc)) (fun t => (t.die 1).st == .hitching) ∧
    ran (exec (.powerGood 1) sc) (· == sc) ∧
    ran (exec (.hitch 1) (dst_ (dset .hitching) 0)) (fun t => (t.die 1).st == .hitched) ∧
    ran (exec (.hitch 1) (dst_ (fun D => { D with st := .hitching, cap1 := 0x04400740 }) 0)) (fun t => (t.die 1).st == .fenced) ∧
    ran (exec (.hitchTimeout 1) (dst_ (fun D => { D with st := .hitching, tries := 1 }) 10000000)) (fun t => (t.die 1).st == .waking && (t.die 1).tries == 2) ∧
    ran (exec (.hitchTimeout 1) (dst_ (fun D => { D with st := .hitching, tries := 2 }) 10000000)) (fun t => (t.die 1).st == .fenced) ∧
    ran (exec (.hitchTimeout 1) (dst_ (fun D => { D with st := .hitching, tries := 2 }) 9999999)) (fun t => (t.die 1).st == .hitching) := by
  decide

theorem test_die_drains :
    ran (exec (.gateHoldTimeout 1) (dst_ (fun D => { D with st := .hitched, hold := some 9, empty := some 1 }) 10)) (fun t => (t.die 1).mayGate) ∧
    ran (exec (.gateHoldTimeout 1) (dst_ (fun D => { D with st := .hitched, hold := some 9, empty := some 1 }) 9)) (fun t => !(t.die 1).mayGate) ∧
    ran (exec (.gateRequest 1) (dst_ (fun D => { D with st := .hitched, mayGate := true }) 0)) (fun t => (t.die 1).st == .draining && !(t.die 1).toReset) ∧
    ran (exec (.resetRequest 1) (dst_ (dset .hitched) 0)) (fun t => (t.die 1).st == .draining && (t.die 1).toReset) ∧
    ran (exec (.resetRequest 0) sc) (fun t => (t.die 0).st == .hitched) ∧
    ran (exec (.dieDrainComplete 1) (dst_ (fun D => { D with st := .draining, toReset := true }) 0)) (fun t => (t.die 1).st == .waking) ∧
    ran (exec (.dieDrainComplete 1) (dst_ (dset .draining) 0)) (fun t => (t.die 1).st == .gated) ∧
    ran (exec (.linkLoss 0) sc) (fun t => (t.die 0).st == .fenced && t.modl.errs.length == 1) := by
  decide

abbrev tbs (state : BitVec 2) (good : Nat) (now : Nat) : State :=
  { State.reset with tb := { state := state, source := 1, offset := 0, good := good, last := 0, everLocked := true }, now := now }

/-- The first selective stream under two keys: the receiver has reported that its old key is free and marked, or neither; the sender waits for the marker's ack or not. -/
abbrev idl (b : Bool) : State :=
  { State.reset with turn := .ideFree 1 true, ides := [(2, { Ide.reset with old := some 4, key := 5, mark := 9, acked := if b then 9 else 8 }),
                                                       (3, { Ide.reset with old := some 4, key := 5, mark := 9, free := b, marked := b })] }

/-- An SPDM session is open. -/
abbrev sess : State := { State.reset with spdm := { State.reset.spdm with session := true } }

/-- The bring-up stands at `n`, and an event of it has the turn. -/
abbrev bru (n : Nat) (t : Turn) : State := { State.reset with turn := t, modl := { State.reset.modl with up := n } }

/-- Locked to the 1PPS input, an edge of which came at 5 ns. -/
abbrev pps : State := { State.reset with turn := .ppsEdge, tb := { State.reset.tb with source := 2, state := 1, edge := some 5 }, now := 500000005 }

abbrev fws (v : Nat) : State := { State.reset with modl := { State.reset.modl with rollback := v, throttle := 15 } }

theorem witness_ModuleAndTime :
    (fws 3).modl.rollback ≤ 3 ∧ ¬ (fws 3).modl.rollback ≤ 2 ∧ State.reset.dies[1]?.isSome = true ∧ (State.reset.ide 4 true).stopped = false ∧ (State.reset.ide 4 true).old = none ∧
    (∀ b ∈ [true, false], ((idl b).ide 1 true).stopped = false ∧ ((idl b).ide 1 true).old ≠ none ∧ ((idl b).ide 1 true).free = b ∧ ((idl b).ide 1 true).marked = b ∧ (idl b).turn = .ideFree 1 true) ∧
    ((idl true).ide 1 false).mark ≤ ((idl true).ide 1 false).acked ∧ ((idl false).ide 1 false).acked < ((idl false).ide 1 false).mark ∧ ((idl true).ide 1 false).old ≠ none ∧
    (State.reset.ide 3 false).acked < 1 ∧ sess.spdm.session = true ∧ (idl true).modl.tripped = false ∧ State.reset.dies.length = 8 ∧
    (∀ s ∈ [bru 1 .hbmTrained, bru 2 (.hostTrained 16 64), bru 3 (.hostTrained 4 16), bru 2 (.hostTrained 12 64), bru 1 (.hostTrained 16 64)], s.modl.tripped = false ∧ s.modl.up ≤ 3) ∧
    pps.tb.source = 2 ∧ pps.tb.edge = some 5 ∧ pps.now ≤ 5 + 500000000 ∧ pps.turn = .ppsEdge ∧
    (tbs 1 7 0).tb.state = 1 ∧ (tbs 1 7 0).tb.good = 7 ∧ (tbs 1 7 0).tb.source ≠ 0 ∧ (tbs 1 6 0).tb.good < 7 ∧ (tbs 2 0 0).tb.state = 2 ∧ (tbs 3 0 0).tb.state ≠ 2 ∧
    ((100 : BitVec 32).toInt.natAbs ≤ 100) ∧ ((-100 : BitVec 32).toInt.natAbs ≤ 100) ∧ 100 < (101 : BitVec 32).toInt.natAbs ∧ (tbs 1 0 0).tb.everLocked = true ∧
    (∃ p ∈ (wst 0 id).launches, p.2.st ≠ .complete ∧ p.2.deadline ≠ none) ∧ (tbs 2 0 0).tb.last + 2000000000 ≤ (tbs 2 0 2000000000).now := by
  decide

theorem test_module :
    ran (exec .packageReset { sc with mem := [(5, 1), (2 ^ 52 + 5, 2)] }) (fun t => t.groups == [] && t.mem == [(5, 1)] && t.dies.all (·.st == .waking)) ∧
    ran (exec (.firmwareLoad { version := 3, signed := true }) (fws 3)) (fun t => t.modl.version == 3) ∧
    ran (exec (.firmwareLoad { version := 2, signed := true }) (fws 3)) (fun t => t.modl.version == 0) ∧
    ran (exec (.firmwareLoad { version := 3, signed := false }) (fws 3)) (fun t => t.modl.version == 0) ∧
    ran (exec (.powerWindow 2201) State.reset) (fun t => t.modl.throttle == 1) ∧ ran (exec (.powerWindow 2201) (fws 0)) (fun t => t.modl.throttle == 15) ∧
    ran (exec (.thermalThrottle 1 95) State.reset) (fun t => (t.die 1).throttled) ∧ ran (exec (.thermalThrottle 1 94) State.reset) (fun t => !(t.die 1).throttled) ∧
    ran (exec (.thermalTrip 1 110) State.reset) (·.modl.tripped) ∧ ran (exec (.thermalTrip 1 109) State.reset) (!·.modl.tripped) ∧
    ran (exec .errpendClear { State.reset with modl := { State.reset.modl with errpend := true } }) (!·.modl.errpend) := by
  decide

theorem test_link_and_time :
    ran (exec (.markerAck ⟨1, true⟩) (idl true)) (fun t => (t.ide 1 true).old == none && (t.ide 1 true).acked == 9) ∧ ran (exec (.markerAck ⟨1, true⟩) (idl false)) (fun t => (t.ide 1 true).old == some 4) ∧
    ran (runTurn (idl true)) (fun t => (t.ide 1 true).old == none) ∧ ran (runTurn (idl false)) (fun t => (t.ide 1 true).old == some 4 && (t.ide 1 true).free) ∧
    ran (exec (.keyRollover ⟨4, true⟩) sess) (fun t => (t.ide 4 true).key == 1 && (t.ide 4 true).old == some 0 && (t.ide 4 false).key == 0) ∧ ran (exec (.keyRollover ⟨4, true⟩) State.reset) (· == State.reset) ∧
    ran (exec (.keyRollover ⟨5, true⟩) sess) (· == sess) ∧ ran (exec (.replayRequest ⟨3, 1⟩) State.reset) (fun t => (t.ide 3 false).replay == some 1) ∧
    ran (exec .ideIntegrityFailure ({ State.reset with ides := [(5, { Ide.reset with bad := true })] } : State)) (fun t => (t.ide 2 true).stopped && (t.ide 2 false).stopped && !(t.ide 1 true).stopped && t.modl.errpend) ∧
    ran (runTurn ({ State.reset with turn := .ideBad 2 } : State)) (fun t => (t.ide 2 true).bad && !(t.ide 2 false).bad) ∧
    ran (runTurn (bru 1 .hbmTrained)) (·.modl.up == 2) ∧ ran (runTurn (bru 2 (.hostTrained 8 32))) (fun t => t.modl.up == 3 && t.modl.link == some (8, 32)) ∧
    ran (runTurn (bru 1 (.hostTrained 8 32))) (·.modl.up == 1) ∧ ran (runTurn (bru 2 (.hostTrained 12 32))) (·.modl.up == 2) ∧ ran (runTurn pps) (·.tb.edge == some 500000005) ∧
    ran (exec (.timeMeasurement 5) pps) (·.tb.good == 1) ∧ ran (exec (.timeMeasurement 5) { pps with now := 500000006 }) (·.tb.good == 0) ∧
    ran (exec (.timeSourceSelect 2) State.reset) (fun t => t.tb.source == 2 && t.tb.state == 1) ∧ ran (exec (.timeSourceSelect 3) State.reset) (fun t => t.tb.source == 0) ∧
    ran (exec (.timeMeasurement 100) (tbs 1 7 0)) (fun t => t.tb.state == 2) ∧ ran (exec (.timeMeasurement 100) (tbs 1 6 0)) (fun t => t.tb.state == 1 && t.tb.good == 7) ∧
    ran (exec (.timeMeasurement 101) (tbs 2 0 0)) (fun t => t.tb.state == 3) ∧ ran (exec (.timeMeasurement (-100)) (tbs 2 0 0)) (fun t => t.tb.state == 2) ∧
    ran (exec .holdover (tbs 2 0 2000000000)) (fun t => t.tb.state == 3) ∧ ran (exec .holdover (tbs 2 0 1999999999)) (fun t => t.tb.state == 2) := by
  refine ⟨?_, ?_, ?_, ?_, ?_, ?_, ?_, ?_, ?_, ?_, ?_, ?_, ?_, ?_, ?_, ?_, ?_, ?_, ?_, ?_, ?_, ?_, ?_, ?_⟩ <;> decide

/-- SPDM with its algorithms agreed, a key exchange done. -/
abbrev spd : State := { State.reset with spdm := { version := true, caps := true, algs := true, exchanged := true, session := false, answers := [] } }

theorem test_attestation :
    spd.spdm.algs = true ∧ State.reset.spdm.algs = false ∧
    ran (exec .getVersion spd) (fun t => t.spdm.version && !t.spdm.caps && !t.spdm.algs) ∧ ran (exec .getCapabilities spd) (·.spdm.caps) ∧
    ran (exec .getCapabilities State.reset) (!·.spdm.caps) ∧ ran (exec (.negotiateAlgorithms true false) spd) (!·.spdm.algs) ∧
    ran (exec .getDigests spd) (·.spdm.answers.length == 1) ∧ ran (exec .getDigests State.reset) (·.spdm.answers == []) ∧
    ran (exec (.getCertificate 1) spd) (·.spdm.answers == []) ∧ ran (exec (.challenge 0) spd) (·.spdm.answers.length == 1) ∧
    ran (exec (.getMeasurements 7) spd) (·.spdm.answers.length == 1) ∧ ran (exec (.getMeasurements 8) spd) (·.spdm.answers == []) ∧
    ran (exec (.keyExchange 0) spd) (fun t => t.spdm.exchanged && t.spdm.answers.length == 1) ∧ ran (exec .finish spd) (fun t => t.spdm.session && !t.spdm.exchanged) := by
  decide

/-! ### Translation -/

/-- `sc` with tables of context 0 at 0x10000 (level 4), 0x20000, 0x30000 and 0x40000: a 4 KiB page at 0x7000 for virtual page 0, a 2 MiB page for entry 1, a 1 GiB page
for entry 1 of level 3, malformed entries; two range registers that both cover 0x8000_0000. -/
abbrev trs : State :=
  { sc.modCtx 0 fun C => { C with root := 0x10000, ranges :=
      [{ w := false, r := true, e := false, vbase := 0, vlimit := 2 ^ 48 - 1, pbase := 0 }, { w := false, r := true, e := true, vbase := 0x80000000, vlimit := 0x8000FFFF, pbase := 0x90000 },
       { w := true, r := true, e := true, vbase := 0x80000000, vlimit := 0x8000FFFF, pbase := 0xA0000 }] } with
    mem := bytesOf 0x10000 [0x20001, 0x20003] ++ bytesOf 0x20000 [0x30001, 0x40000007] ++ bytesOf 0x30000 [0x40001, 0x20000F, 0x50009] ++ bytesOf 0x40000 [0x7007, 0x8001, 0x900B] }

abbrev rN : Need := { r := true, w := false }
abbrev wN : Need := { r := false, w := true }

theorem witness_TranslationWalks :
    (∃ C ∈ mget trs.ctxs 0, C.st = .active ∧ C.root = 0x10000 ∧ cachedFor trs 0 0 0x7FF = [] ∧ (∃ r ∈ (rangesOf C 0)[1]?, Covers r 0x80000000 ∧ Covers r 0x8000FFFF) ∧
      (∃ r ∈ (rangesOf C 0)[0]?, ¬ Covers r 0x80000000) ∧ (∀ r ∈ rangesOf C 0, ¬ Covers r 0x7FF)) := by
  decide

theorem witness_TranslationWalks_entries :
    PointsTo (entryAt trs 0x7FF 4 0x10000) 0x20000 ∧ PointsTo (entryAt trs 0x7FF 3 0x20000) 0x30000 ∧ PointsTo (entryAt trs 0x7FF 2 0x30000) 0x40000 ∧
    LeafOf (entryAt trs 0x7FF 1 0x40000) 0x7000 4096 true false ∧ LeafOf (entryAt trs 0x200000 2 0x30000) 0x200000 (2 ^ 21) true true ∧
    LeafOf (entryAt trs 0x40000000 3 0x20000) 0x40000000 (2 ^ 30) true false ∧ entryAt trs 0x600000 2 0x30000 % 2 = 0 ∧
    (let e := entryAt trs 0x1000 1 0x40000; e % 2 = 1 ∧ e / 2 % 2 = 0) ∧ (let e := entryAt trs 0x2000 1 0x40000; e % 2 = 1 ∧ e / 2 % 2 = 1 ∧ e / 8 % 2 = 1 ∧ e / 4 % 2 = 0) ∧
    (let e := entryAt trs 0x8000000000 4 0x10000; e % 2 = 1 ∧ e / 2 % 2 = 1) := by
  decide

theorem witness_TranslationWalks_tables :
    TableAt trs 0x10000 0x7FF 0 0x10000 ∧ TableAt trs 0x10000 0x7FF 1 0x20000 ∧ TableAt trs 0x10000 0x7FF 2 0x30000 ∧ TableAt trs 0x10000 0x7FF 3 0x40000 := by
  have h1 : TableAt trs 0x10000 0x7FF 1 0x20000 := ⟨_, rfl, by decide⟩
  have h2 : TableAt trs 0x10000 0x7FF 2 0x30000 := ⟨_, h1, by decide⟩
  exact ⟨rfl, h1, h2, _, h2, by decide⟩

theorem test_translation :
    translate trs 0 0 none 0x7FF rN = .ok 0x77FF ∧ translate trs 0 0 none 0x7FF wN = .prot ∧ translate trs 0 0 none 0x3FFFFF wN = .ok 0x3FFFFF ∧
    translate trs 0 0 none 0x7FFFFFFF rN = .ok 0x7FFFFFFF ∧ translate trs 0 0 none 0x600000 rN = .absent 2 ∧ translate trs 0 0 none 0x1000 rN = .fatal ∧
    translate trs 0 0 none 0x2000 rN = .fatal ∧ translate trs 0 0 none 0x8000000000 rN = .fatal ∧ translate trs 0 0 none 0x10000000000 rN = .absent 4 ∧
    translate trs 0 0 none 0x8000FFFF rN = .ok 0x9FFFF ∧ translate trs 0 0 none 0x80000000 wN = .prot := by
  decide

/-- The scalar stream of `trs` with an address in s5, replay enabled or not, and a fault ring at 0x100000. -/
abbrev pgs (a : Word) (replay : Bool) : State :=
  (trs.modGrp 4 (·.ws 5 a)).modCtx 0 fun C => { C with flags := if replay then 2 else 0, faultring := 0x100000, faultents := 16, seq := 3 }

theorem witness_AbsentPagesHold :
    G4 (pgs 0x600000 true) (fun G => Scalar (pgs 0x600000 true) 4 G ∧ (pgs 0x600000 true).ctxOf G = 0 ∧ (G.rs 5 + (8 : BitVec 10).signExtend 64).toNat % 8 = 0 ∧
      (G.rs 5 + (8 : BitVec 10).signExtend 64).toNat < 2 ^ 48) ∧
    translate (pgs 0x600000 true) 0 0 none 0x600008 rN = .absent 2 ∧ translate (pgs 0x1000 true) 0 0 none 0x1008 rN = .fatal ∧
    (∃ C ∈ mget (pgs 0x600000 true).ctxs 0, C.flags.getLsbD 1 = true ∧ C.recs = [] ∧ 0 < C.faultents ∧ C.st = .active) ∧
    (∃ C ∈ mget (pgs 0x600000 false).ctxs 0, C.flags.getLsbD 1 = false) := by
  decide

theorem test_absent_pages :
    ran (exec (.sldd 9 5 8) (pgs 0x600000 true)) (fun t => (mget t.groups 4).any (fun G => G.pc == 0 && G.holds.length == 1) && t.read 0x100060 8 == 0x600000 &&
      t.read 0x100068 8 == 3 + 2 ^ 40 * 2) ∧
    traps (.sldd 9 5 8) (pgs 0x600000 false) 5 ∧ ran (exec (.sldd 9 5 8) (pgs 0x1000 true)) (fun t => (mget t.ctxs 0).any (·.st == .dead)) := by
  decide

/-! ### Words and steps -/

theorem witness_ScalarWordsRoundTrip :
    isScalar (.sadd 9 5 6 2) = true ∧ isScalar .lnop = false ∧ isLane .lnop = true ∧ isLane (.nop hd) = false ∧ isPacket (.nop hd) = true ∧ isPacket (.sadd 9 5 6 2) = false ∧ (Instr.lnop).wf = true ∧
    (Instr.sadd 9 5 6 2).wf = true ∧ (encodeScalar (.sadd 9 5 6 2)).isSome = true ∧
    (Instr.satom 10 11 12 0 .package .acqRel).wf = true ∧ ((encodeScalar (.satom 10 11 12 0 .package .acqRel)).map (·.length)) = some 2 := by
  decide

theorem witness_LaneWordsRoundTrip :
    (Instr.mma { g := { inv := false, pg := 0 }, tile := 3, fw := 40, sa := 20, sb := 21 }).wf = true ∧
    (encodeLane (.mma { g := { inv := false, pg := 0 }, tile := 3, fw := 40, sa := 20, sb := 21 })).isSome = true := by
  decide

theorem witness_PacketsRoundTrip : (Instr.nop hd).wf = true ∧ (encodePacket (.nop hd)).isSome = true := by
  decide

/-- Group 4 at the second of two words; a pc past its section; a word that decodes to nothing. -/
abbrev at1 : State := scg fun G => { G with pc := 1 }
abbrev at2 : State := scg fun G => { G with pc := 2 }
abbrev bad : State := State.reset.withFetchWord 32 0

/-- A lane word that decodes to nothing, and a region past its section. -/
abbrev badLane : State := State.reset.withFetchWord 96 0

theorem witness_StepRunsDecoded_code :
    G4 sc (fun G => ∃ c, sc.code G G.ov G.copy = some c ∧ (c.scalarWord G.pc).isSome = true) ∧ G4 at2 (fun G => ∃ c, at2.code G G.ov G.copy = some c ∧ c.scalarWord G.pc = none) ∧
    G4 bad (fun G => ∃ c, bad.code G G.ov G.copy = some c ∧ c.scalarWord G.pc = some 0) ∧
    (∀ s ∈ [ln, badLane, lng (spl 1 0xF [] [] [])], G4 s fun G => ∃ r ∈ G.runs.head?, (s.code G r.ov r.copy).isSome = true) := by
  refine ⟨⟨_, rfl, _, rfl, rfl⟩, ⟨_, rfl, _, rfl, rfl⟩, ⟨_, rfl, _, rfl, rfl⟩, by decide⟩

theorem witness_StepRunsDecoded :
    sc.modl.tripped = false ∧ sc.turn = .scalar 4 ∧
    G4 sc (fun G => scalarMay sc G = true ∧ picked sc 4 G .scalar = true ∧ divertReady G = false ∧ (∃ c ∈ mget sc.copies G.copy, (c.scalarWord G.pc).isSome = true ∧
      ((c.scalarWord G.pc).map fun w => (decodeScalar w (c.scalarWord (G.pc + 1))).toOption) = some (some (.sadd 9 5 6 2, 1)))) ∧
    G4 bad (fun G => scalarMay bad G = true ∧ picked bad 4 G .scalar = true ∧ ∃ c ∈ mget bad.copies G.copy, c.scalarWord G.pc = some 0 ∧
      (decodeScalar 0 (c.scalarWord (G.pc + 1))).toOption = none) ∧
    G4 at2 (fun G => scalarMay at2 G = true ∧ picked at2 4 G .scalar = true ∧ ∃ c ∈ mget at2.copies G.copy, c.scalarWord G.pc = none) := by
  decide

theorem witness_StepRunsDecoded_lane :
    ln.turn = .lane 4 0 ∧
    S4 ln (fun G S => laneMay ln G 0 = true ∧ picked ln 4 G (.split 0) = true ∧ divertReady G = false ∧ (∃ r ∈ G.runs.head?, ∃ c ∈ mget ln.copies r.copy,
      ((c.laneWord S.pc).map fun w => (decodeLane w).toOption.isSome) = some true ∧ c.laneWord 1 = none)) ∧
    G4 badLane (fun G => laneMay badLane G 0 = true ∧ picked badLane 4 G (.split 0) = true ∧ ∃ S ∈ mget G.splits 0, ∃ r ∈ G.runs.head?, ∃ c ∈ mget badLane.copies r.copy,
      c.laneWord S.pc = some 0 ∧ (decodeLane 0).toOption = none) ∧
    S4 (lng (spl 1 0xF [] [] [])) (fun _ S => S.pc = 1) := by
  decide

set_option exponentiation.threshold 600 in
theorem witness_StepRunsDecoded_ostler :
    pks.turn = .ostler ∧ pks.batch.head? = some 0 ∧ Q0 pks (fun Q => Q.taken = some (0, 0)) ∧ (decodePacket 0).toOption.isSome = true := by
  decide

/-- An event in turn. -/
abbrev evt (e : Instr) : State := { State.reset with turn := .event e }

theorem witness_StepRunsDecoded_event : (evt .errpendClear).turn = .event .errpendClear ∧ ran (exec .errpendClear (evt .errpendClear)) (fun _ => true) = true ∧
    (match exec (.sadd 9 5 6 0) (evt (.sadd 9 5 6 0)) with
      | .fault _ => true
      | _ => false) = true := by
  decide

/-- What a step makes of group 4, before time passes. -/
abbrev turned (s : State) (p : Group → Bool) : Bool := ran (runTurn s) fun t => (mget t.groups 4).any p

theorem test_turns :
    turned sc (·.pc == 1) ∧ turned bad (·.trap.cause == 1) ∧ turned at2 (·.trap.cause == 1) ∧ turned (lng (spl 1 0xF [] [] [])) (fun G => G.trap.cause == 1 && G.trap.lane) ∧
    turned (scg fun G => { G with stopWanted := true }) (·.pc == 0) ∧ turned (scg fun G => { G with divertDue := true }) (fun G => G.wrapflag && G.pc == 0) ∧
    turned { sc with modl := { sc.modl with tripped := true } } (·.pc == 0) := by
  decide

abbrev heldS (str : Stream) (G : Group) : Group := { G with holds := [{ str := str, pages := [] }] }

theorem witness_StreamsThatMayNotIssue :
    (∀ f ∈ [fun G : Group => { G with st := .exiting }, fun G => { G with stopWanted := true }, heldS .scalar], G4 (scg f) fun G => scalarMay (scg f) G = false) ∧
    G4 (tfly [] .mzero) (fun G => mget (tfly [] .mzero).ops 60 ≠ none ∧ scalarMay ((tfly [] .mzero).modGrp 4 fun G => { G with stall := some (0, [60]) }) { G with stall := some (0, [60]) } = false) ∧
    G4 (twoGrp id fun G => { G with aged := [.scalar] }) (fun G => picked (twoGrp id fun G => { G with aged := [.scalar] }) 4 G .scalar = false) ∧
    G4 (scg fun G => { G with divertDue := true }) (fun G => scalarMay (scg fun G => { G with divertDue := true }) G = true ∧
      picked (scg fun G => { G with divertDue := true }) 4 G .scalar = true ∧ G.sect = none ∧ G.divertDue = true ∧ G.wait ≠ .abandoned) ∧
    (∀ f ∈ [fun G : Group => { G with st := .stopped }, fun G => { G with stopWanted := true }, heldS (.split 0), fun G => { G with trapMode := some ⟨[], 0, 0, 1, .none⟩ }],
      G4 (lng f) fun G => laneMay (lng f) G 0 = false) ∧
    G4 (sc.modDie 0 fun D => { D with st := .draining }) (fun G => ((sc.modDie 0 fun D => { D with st := .draining }).die (G.core / 16)).st ≠ .hitched) := by
  decide

theorem test_reset : MemInv State.reset ∧ Sorted State.reset.groups ∧ Sorted State.reset.pkts ∧ (∀ d < 8, capsOk (State.reset.die d) = true) := by
  refine ⟨by unfold MemInv; decide, by decide, by decide, by decide⟩

/-- A step has a state to start from that meets what every step keeps. -/
theorem witness_KeptBySteps : MemInv sc ∧ Sorted sc.groups ∧ Sorted sc.pkts := by
  refine ⟨by unfold MemInv; decide, by decide, by decide⟩

end Sys2Proof.Tests
end

section
/-!
PROOFS. The register files and the elements of lanes in them: reads after writes, operands, and where lane results go (R15, R16, R32 to R36, R46, R47, R54).
-/

namespace Sys2Proof.Proofs
open Sys2Proof.Machine Sys2Proof.Claims

/-! ### The register files: what a write leaves (R32, R34, R54) -/

theorem ws_frame (G : Group) (d : SReg) (x : Word) : G.ws d x = { G with sreg := (G.ws d x).sreg } := by
  unfold Group.ws; split <;> rfl

theorem wc_frame (G : Group) (d : CReg) (b : Bool) : G.wc d b = { G with creg := (G.wc d b).creg } := by
  unfold Group.wc; split <;> rfl

theorem wp_frame (G : Group) (d : PReg) (x : Mask) : G.wp d x = { G with preg := (G.wp d x).preg } := by
  unfold Group.wp; split <;> rfl

theorem wvMask_frame (G : Group) (d : Nat) (m : Mask) (f : Nat → Elem) :
    G.wvMask d m f = { G with vreg := (G.wvMask d m f).vreg } := by
  unfold Group.wvMask; split <;> rfl

/-- A scalar predicate other than c0 is its bit of the file. -/
theorem rc_of_ne_zero (G : Group) {c : CReg} (h : c ≠ 0) : G.rc c = G.creg.getLsbD c.toNat := by
  rw [Group.rc, beq_false_of_ne h, Bool.false_or]

/-- The bit that names a scalar predicate names no other one. -/
theorem getLsbD_predBit (c r : CReg) : ((1 : BitVec 8) <<< c.toNat).getLsbD r.toNat = decide (r = c) := by
  have hc : c.toNat < 8 := c.isLt
  change (BitVec.twoPow 8 c.toNat).getLsbD r.toNat = _
  rw [BitVec.getLsbD_twoPow, decide_eq_true hc, Bool.true_and, decide_eq_decide, eq_comm, BitVec.toNat_inj]

/-- c0 reads true and discards what is written; any other predicate holds what was written to it last. -/
theorem rc_after_wc (G : Group) (d r : CReg) (b : Bool) :
    (G.wc d b).rc r = if r = 0 then true else if r = d then b else G.rc r := by
  by_cases hr : r = 0
  · rw [hr, Group.rc_zero, if_pos rfl]
  rw [if_neg hr, rc_of_ne_zero _ hr, rc_of_ne_zero _ hr]
  by_cases hd : d = 0
  · have hrd : r ≠ d := fun e => hr (e.trans hd)
    rw [Group.wc, if_pos hd, if_neg hrd]
  have hlt : r.toNat < 8 := r.isLt
  rw [Group.wc, if_neg hd]
  cases b
  · simp only [Bool.false_eq_true, if_false, BitVec.getLsbD_and, BitVec.getLsbD_not, hlt, getLsbD_predBit, decide_true, Bool.true_and]
    by_cases hrd : r = d <;> simp [hrd]
  · simp only [if_true, BitVec.getLsbD_or, getLsbD_predBit]
    by_cases hrd : r = d <;> simp [hrd]

/-- s0 reads zero and discards what is written. -/
theorem rs_after_ws (G : Group) (d r : SReg) (x : Word) :
    (G.ws d x).rs r = if r = 0 then 0 else if r = d then x else G.rs r := by
  rw [Group.rs_ws]
  by_cases hr : r = 0
  · rw [if_pos hr, hr, Group.rs_zero, if_neg fun ⟨e, h⟩ => h e.symm]
  · grind

/-- p0 reads true in every lane and discards what is written. -/
theorem rp_after_wp (G : Group) (d r : PReg) (x : Mask) :
    (G.wp d x).rp r = if r = 0 then Mask.all else if r = d then x else G.rp r := by
  rw [Group.rp_wp]
  by_cases hr : r = 0
  · rw [if_pos hr, hr, Group.rp_zero, if_neg fun ⟨e, h⟩ => h e.symm]
  · grind

theorem registersReadAfterWrite : RegistersReadAfterWrite := by
  refine fun G => ⟨fun d r x => ⟨rs_after_ws G d r x, ws_frame G d x⟩, fun d r b => ⟨rc_after_wc G d r b, wc_frame G d b⟩,
    fun d r x => ⟨rp_after_wp G d r x, wp_frame G d x⟩, fun d r x => ⟨Group.rh_wh G d r x, rfl⟩, fun d r m f i => ⟨?_, wvMask_frame G d m f⟩⟩
  rw [Group.lane_wvMask]
  exact if_congr (by tauto) rfl rfl

/-! ### Elements of lanes (R15, R16, R36, R46, R47) -/

theorem el_narrow (G : Group) {t : Ty} (h : t.wide = false) (r i : Nat) : G.el t r i = (lane (G.rv r) i).toNat % 2 ^ t.bits := by
  simp [Group.el, h]

theorem el_wide (G : Group) {t : Ty} (h : t.wide = true) (r i : Nat) :
    G.el t r i = (lane (G.rv r) i).toNat + 2 ^ 32 * (lane (G.rv (r + 1)) i).toNat := by
  simp [Group.el, h]

/-- An immediate's value in its type: its low bits, which for n64 is zero-extension; i64 alone extends the sign (R47). -/
theorem immEl_of_ne_i64 {t : Ty} (h : t ≠ .i64) (x : Elem) : immEl t x = x.toNat % 2 ^ t.bits := by
  have hx : x.toNat < 2 ^ 64 := lt_trans x.isLt (by decide)
  unfold immEl
  rw [if_neg h]
  split
  · next h64 => rw [h64, Ty.bits, Nat.mod_eq_of_lt hx]
  · rfl

theorem laneOperandsRead : LaneOperandsRead :=
  fun G _ _ _ x i => ⟨fun h => ⟨el_narrow G h _ i, el_narrow G h _ i⟩, fun h => el_wide G h _ i, rfl, fun h => immEl_of_ne_i64 h x, rfl⟩

/-! ### Where a lane result goes (R15, R16, R54) -/

theorem putEl_narrow (G : Group) {t : Ty} (h : t.wide = false) (d : Nat) (m : Mask) (f : Nat → Nat) :
    G.putEl t d m f = G.wvMask d m fun i => place t (f i) := by
  simp [Group.putEl, h]

theorem putEl_wide (G : Group) {t : Ty} (h : t.wide = true) (d : Nat) (m : Mask) (f : Nat → Nat) :
    G.putEl t d m f = (G.wvMask d m fun i => BitVec.ofNat 32 (f i)).wvMask (d + 1) m fun i => BitVec.ofNat 32 (f i / 2 ^ 32) := by
  simp [Group.putEl, h]

theorem putEl_frame (G : Group) (t : Ty) (d : Nat) (m : Mask) (f : Nat → Nat) :
    G.putEl t d m f = { G with vreg := (G.putEl t d m f).vreg } := by
  cases h : t.wide
  · rw [putEl_narrow G h]; exact wvMask_frame G d m _
  · rw [putEl_wide G h, wvMask_frame _ (d + 1), wvMask_frame G d]

/-- A masked write of register `d` leaves the lanes outside the mask, and every other register, as they were. -/
theorem lane_wvMask_other (G : Group) {d r : Nat} {m : Mask} (f : Nat → Elem) {i : Nat} (h : r ≠ d ∨ m.getLsbD i = false) :
    lane ((G.wvMask d m f).rv r) i = lane (G.rv r) i := by
  rw [Group.lane_wvMask, if_neg]
  rintro ⟨hr, -, hm⟩
  rcases h with h | h
  · exact h hr
  · simp [h] at hm

/-- In a lane of the mask the register written holds the new value. -/
theorem lane_wvMask_same (G : Group) {d : Nat} {m : Mask} (f : Nat → Elem) {i : Nat} (hm : m.getLsbD i = true) (hi : i < (G.rv d).length) :
    lane ((G.wvMask d m f).rv d) i = f i := by
  rw [Group.lane_wvMask, if_pos ⟨rfl, hi, hm⟩]

theorem length_rv_wvMask (G : Group) (d r : Nat) (m : Mask) (f : Nat → Elem) : ((G.wvMask d m f).rv r).length = (G.rv r).length := by
  unfold Group.wvMask
  split
  · rfl
  · rw [Group.rv_wv]
    split
    · next h => rw [length_setLanes, h]
    · rfl

/-- A lane result leaves the lanes outside the mask, and every register but its destination or pair, as they were. -/
theorem lane_putEl_other (G : Group) {t : Ty} {d r : Nat} {m : Mask} (f : Nat → Nat) {i : Nat}
    (h : (r ≠ d ∧ (t.wide = true → r ≠ d + 1)) ∨ m.getLsbD i = false) : lane ((G.putEl t d m f).rv r) i = lane (G.rv r) i := by
  cases hw : t.wide
  · rw [putEl_narrow G hw, lane_wvMask_other G _ (h.imp_left And.left)]
  · rw [putEl_wide G hw, lane_wvMask_other _ _ (h.imp_left fun h => h.2 hw), lane_wvMask_other G _ (h.imp_left And.left)]

theorem bits_le_of_narrow {t : Ty} (h : t.wide = false) : t.bits ≤ 32 := by
  revert h
  cases t <;> decide

theorem place_unsigned {t : Ty} (hw : t.wide = false) (hs : t.isSigned = false) (x : Nat) : place t x = BitVec.ofNat 32 (x % 2 ^ t.bits) := by
  simp [place, bits_le_of_narrow hw, hs]

/-- The model's two's complement reading of a pattern that fits is the one of R17. -/
theorem toInt_eq_sgnOf (t : Ty) {x : Nat} (hx : x < 2 ^ t.bits) : toInt true t.bits x = sgnOf t x := by
  have hc : (x : Int) % 2 ^ t.bits = x := by exact_mod_cast congrArg Nat.cast (Nat.mod_eq_of_lt hx)
  unfold Machine.toInt sgnOf
  simp [Nat.mod_eq_of_lt hx, hc]

theorem intOf_of_signed {t : Ty} (hs : t.isSigned = true) (x : Nat) : intOf t x = sgnOf t x := by
  simp [intOf, sgnOf, hs]

theorem place_signed {t : Ty} (hw : t.wide = false) (hs : t.isSigned = true) {x : Nat} (hx : x < 2 ^ t.bits) :
    place t x = BitVec.ofInt 32 (intOf t x) := by
  simp [place, bits_le_of_narrow hw, hs, toInt_eq_sgnOf t hx, intOf_of_signed hs]

theorem laneResultsPlaced : LaneResultsPlaced := by
  intro G t d m f i r
  refine ⟨putEl_frame G t d m f, fun hr hp => lane_putEl_other G f (.inl ⟨hr, hp⟩), fun hm => lane_putEl_other G f (.inr hm), fun hm hi => ⟨?_, ?_, ?_, ?_⟩⟩
  · intro hw
    rw [putEl_wide G hw, lane_wvMask_other _ _ (.inl (by omega)), lane_wvMask_same G _ hm hi]
  · intro hw hi'
    rw [putEl_wide G hw, lane_wvMask_same _ _ hm (by rw [length_rv_wvMask]; exact hi')]
  · intro hw hs
    rw [putEl_narrow G hw, lane_wvMask_same G _ hm hi, place_unsigned hw hs]
  · intro hw hs hf
    rw [putEl_narrow G hw, lane_wvMask_same G _ hm hi, place_signed hw hs hf]

/-- Settles O22: each kind of register through the model's sparse maps, lane results through the masked write of one or two registers. -/
theorem registerFiles : Obligations.RegisterFiles := ⟨registersReadAfterWrite, laneOperandsRead, laneResultsPlaced⟩

end Sys2Proof.Proofs
end

section
/-!
PROOFS. The binary formats: values of patterns, one rounding, exact arithmetic and its special cases, and the lane floating-point instructions (R6, R10, R12, R13,
R124 to R127).
-/

namespace Sys2Proof.Proofs
open Sys2Proof.Machine Sys2Proof.Claims

/-! ### Fractions scaled by powers of two -/

/-- `scale2 n d e` is the fraction `n / d * 2^e`. -/
theorem scale2_value (n d : Nat) (e : Int) : ((scale2 n d e).1 : ℚ) / (scale2 n d e).2 = n / d * 2 ^ e := by
  unfold scale2
  split
  · next h =>
    obtain ⟨k, rfl⟩ := Int.eq_ofNat_of_zero_le h
    simp [mul_div_right_comm]
  · next h =>
    obtain ⟨k, hk⟩ := Int.eq_ofNat_of_zero_le (a := -e) (by omega)
    have he : e = -(k : Int) := by omega
    simp only [he, neg_neg, Int.toNat_natCast, Nat.cast_mul, Nat.cast_pow, Nat.cast_ofNat, zpow_neg, zpow_natCast]
    ring

theorem scale2_den_pos (n : Nat) {d : Nat} (hd : 0 < d) (e : Int) : 0 < (scale2 n d e).2 := by
  unfold scale2
  split
  · exact hd
  · exact Nat.mul_pos hd (Nat.two_pow_pos _)

theorem natLog2_bounds {n : Nat} (hn : 0 < n) : (2 : ℚ) ^ (Nat.log2 n : Int) ≤ n ∧ (n : ℚ) < 2 ^ ((Nat.log2 n : Int) + 1) := by
  have h1 := Nat.log2_self_le hn.ne'
  have h2 := Nat.lt_log2_self (n := n)
  constructor
  · exact_mod_cast h1
  · exact_mod_cast h2

/-- `log2Ratio` is the binary exponent of a positive fraction. -/
theorem log2Ratio_bounds {n d : Nat} (hn : 0 < n) (hd : 0 < d) :
    (2 : ℚ) ^ log2Ratio n d ≤ n / d ∧ (n : ℚ) / d < 2 ^ (log2Ratio n d + 1) := by
  obtain ⟨hn1, hn2⟩ := natLog2_bounds hn
  obtain ⟨hd1, hd2⟩ := natLog2_bounds hd
  have hdq : (0 : ℚ) < d := by exact_mod_cast hd
  set e : Int := (Nat.log2 n : Int) - Nat.log2 d with he
  have upper : (n : ℚ) / d < 2 ^ (e + 1) := by
    rw [div_lt_iff₀ hdq]
    calc (n : ℚ) < 2 ^ ((Nat.log2 n : Int) + 1) := hn2
      _ = 2 ^ (e + 1) * 2 ^ (Nat.log2 d : Int) := by rw [← zpow_add₀ two_ne_zero]; congr 1; omega
      _ ≤ 2 ^ (e + 1) * d := by gcongr
  have lower : (2 : ℚ) ^ (e - 1) ≤ n / d := by
    rw [le_div_iff₀ hdq]
    calc (2 : ℚ) ^ (e - 1) * d ≤ 2 ^ (e - 1) * 2 ^ ((Nat.log2 d : Int) + 1) := by gcongr
      _ = 2 ^ (Nat.log2 n : Int) := by rw [← zpow_add₀ two_ne_zero]; congr 1; omega
      _ ≤ n := hn1
  -- the comparison of `log2Ratio` asks whether `n / d` lies below `2^e`
  have test : n * (scale2 d 1 e).2 < (scale2 d 1 e).1 ↔ (n : ℚ) / d < 2 ^ e := by
    have hb : (0 : ℚ) < (scale2 d 1 e).2 := by exact_mod_cast scale2_den_pos d one_pos e
    have hv := scale2_value d 1 e
    rw [Nat.cast_one, div_one] at hv
    rw [div_lt_iff₀ hdq, mul_comm _ (d : ℚ), ← hv, lt_div_iff₀ hb]
    exact_mod_cast Iff.rfl
  have hl : log2Ratio n d = if n * (scale2 d 1 e).2 < (scale2 d 1 e).1 then e - 1 else e := rfl
  rw [hl]
  split
  · next h => exact ⟨lower, by rw [sub_add_cancel]; exact test.mp h⟩
  · next h => exact ⟨not_lt.mp (mt test.mpr h), upper⟩

/-! ### The patterns of a binary format and their values (R5, R6) -/

/-- What the binary formats have in common: a fraction field, the sign bit above every finite pattern, and a largest finite pattern that is
not the first of its binade. -/
structure FmtOk (f : Fmt) : Prop where
  frac_pos : 0 < f.frac
  maxFin_lt : f.maxFin < 2 ^ (f.bits - 1)
  maxFin_mod : f.maxFin % 2 ^ f.frac ≠ 0

theorem fmtOk_of_fmtOf {t : Ty} {f : Fmt} (h : fmtOf t = some f) : FmtOk f := by
  cases t with
  | f32 | f16 | bf16 | e4m3 | e5m2 =>
    obtain rfl := Option.some.inj h
    constructor <;> decide
  | _ => cases h

/-- The value of pattern `p`, with no bound on the exponent. -/
def patVal (f : Fmt) (p : Nat) : ℚ :=
  if p / 2 ^ f.frac = 0 then (p : ℚ) * 2 ^ (f.emin - f.frac)
  else ((2 ^ f.frac + p % 2 ^ f.frac : Nat) : ℚ) * 2 ^ (f.emin + (p / 2 ^ f.frac : Nat) - 1 - f.frac)

/-- The distance of neighbours in binade `E`; the subnormals stand in binade 0 with the least normal ones. -/
def unit (f : Fmt) (E : Nat) : ℚ := 2 ^ (f.emin + E - f.frac)

theorem unit_pos (f : Fmt) (E : Nat) : 0 < unit f E := by unfold unit; positivity

/-- Significand `k` of binade `E` counts its units, also where `k` has just reached the next binade. -/
theorem patVal_binade (f : Fmt) {E k : Nat} (hlo : E = 0 ∨ 2 ^ f.frac ≤ k) (hhi : k ≤ 2 ^ (f.frac + 1)) :
    patVal f (E * 2 ^ f.frac + k) = k * unit f E := by
  have hP : 0 < 2 ^ f.frac := Nat.two_pow_pos _
  rcases lt_or_ge k (2 ^ f.frac) with hk | hk
  · have hE : E = 0 := hlo.resolve_right (by omega)
    simp [patVal, unit, hE, Nat.div_eq_of_lt hk]
  obtain ⟨j, rfl⟩ := Nat.exists_eq_add_of_le hk
  rw [pow_succ] at hhi
  rcases lt_or_eq_of_le (show j ≤ 2 ^ f.frac by omega) with hj | rfl
  · have hp : E * 2 ^ f.frac + (2 ^ f.frac + j) = j + (E + 1) * 2 ^ f.frac := by ring
    rw [patVal, unit, hp, Nat.add_mul_div_right _ _ hP, Nat.add_mul_mod_self_right, Nat.div_eq_of_lt hj, Nat.mod_eq_of_lt hj, if_neg (by omega)]
    congr 2
    push_cast
    ring
  · have hp : E * 2 ^ f.frac + (2 ^ f.frac + 2 ^ f.frac) = (E + 2) * 2 ^ f.frac := by ring
    have he : f.emin + ((E + 2 : Nat) : Int) - 1 - f.frac = f.emin + E - f.frac + 1 := by push_cast; ring
    rw [patVal, unit, hp, Nat.mul_div_cancel _ hP, Nat.mul_mod_left, if_neg (by omega), he, zpow_add_one₀ two_ne_zero]
    push_cast
    ring

/-- The binade of a pattern. -/
def binade (f : Fmt) (p : Nat) : Nat := p / 2 ^ f.frac - 1

theorem pattern_binade (f : Fmt) (p : Nat) : ∃ k, p = binade f p * 2 ^ f.frac + k ∧ (binade f p = 0 ∨ 2 ^ f.frac ≤ k) ∧ k < 2 ^ (f.frac + 1) := by
  have hP : 0 < 2 ^ f.frac := Nat.two_pow_pos _
  have hdm := Nat.div_add_mod p (2 ^ f.frac)
  have hm := Nat.mod_lt p hP
  rw [mul_comm] at hdm
  rw [binade, pow_succ]
  rcases Nat.eq_zero_or_pos (p / 2 ^ f.frac) with h0 | h0
  · rw [h0] at hdm ⊢
    exact ⟨p, by simp, .inl rfl, by omega⟩
  · obtain ⟨E, hE⟩ := Nat.exists_eq_add_of_lt h0
    rw [hE] at hdm ⊢
    refine ⟨2 ^ f.frac + p % 2 ^ f.frac, ?_, .inr (by omega), by omega⟩
    rw [← hdm]
    simp
    ring

/-- The next pattern has the next value up, one unit of the binade away. -/
theorem patVal_succ (f : Fmt) (p : Nat) : patVal f (p + 1) = patVal f p + unit f (binade f p) := by
  obtain ⟨k, hp, hlo, hhi⟩ := pattern_binade f p
  set E := binade f p
  rw [hp, add_assoc, patVal_binade f hlo hhi.le, patVal_binade f (hlo.imp_right (by omega)) hhi]
  push_cast
  ring

theorem patVal_strictMono (f : Fmt) : StrictMono (patVal f) :=
  strictMono_nat_of_lt_succ fun p => by
    rw [patVal_succ]
    linarith [unit_pos f (binade f p)]

theorem patVal_zero (f : Fmt) : patVal f 0 = 0 := by simp [patVal]

/-- The largest finite pattern lies as far above the one below it as the next value would lie above it. -/
theorem patVal_maxFin_spacing {f : Fmt} (hf : FmtOk f) :
    patVal f (f.maxFin + 1) - patVal f f.maxFin = patVal f f.maxFin - patVal f (f.maxFin - 1) := by
  have hm := Nat.pos_of_ne_zero hf.maxFin_mod
  have hle := Nat.mod_le f.maxFin (2 ^ f.frac)
  have hb : binade f (f.maxFin - 1) = binade f f.maxFin := by
    have hr := Nat.mod_lt f.maxFin (Nat.two_pow_pos f.frac)
    have hM : f.maxFin - 1 = (f.maxFin % 2 ^ f.frac - 1) + 2 ^ f.frac * (f.maxFin / 2 ^ f.frac) := by
      have := Nat.mod_add_div f.maxFin (2 ^ f.frac)
      omega
    rw [binade, binade, hM, Nat.add_mul_div_left _ _ (Nat.two_pow_pos _), Nat.div_eq_of_lt (by omega), Nat.zero_add]
  have h := patVal_succ f (f.maxFin - 1)
  rw [Nat.sub_add_cancel (by omega), hb] at h
  rw [patVal_succ, h]
  ring

/-- The sign bit, set for a negative value. -/
def signBit (f : Fmt) (neg : Bool) : Nat := if neg then 2 ^ (f.bits - 1) else 0

/-- A finite pattern with its sign bit decodes to its sign and the fraction of its value. -/
theorem decodeFmt_finite {f : Fmt} (hf : FmtOk f) {p : Nat} (hp : p ≤ f.maxFin) (b : Bool) :
    ∃ n d : Nat, decodeFmt f (signBit f b + p) = .fin b n d ∧ (n : ℚ) / d = patVal f p := by
  have hlt : p < 2 ^ (f.bits - 1) := lt_of_le_of_lt hp hf.maxFin_lt
  have hsign : decide ((signBit f b + p) / 2 ^ (f.bits - 1) % 2 = 1) = b := by
    cases b <;> simp [signBit, Nat.div_eq_of_lt hlt, Nat.add_div_left]
  have hmag : (signBit f b + p) % 2 ^ (f.bits - 1) = p := by
    cases b <;> simp [signBit, Nat.mod_eq_of_lt hlt]
  suffices h : ∃ (k : Nat) (e : Int), decodeFmt f (signBit f b + p) = .fin b (scale2 k 1 e).1 (scale2 k 1 e).2 ∧ (k : ℚ) * 2 ^ e = patVal f p by
    obtain ⟨k, e, hd, hv⟩ := h
    exact ⟨_, _, hd, by rw [scale2_value, ← hv, Nat.cast_one, div_one]⟩
  by_cases he : p / 2 ^ f.frac = 0
  · refine ⟨p % 2 ^ f.frac, f.emin - f.frac, ?_, ?_⟩
    · simp only [decodeFmt, hsign, hmag, if_pos hp, if_pos he]
    · rw [patVal, if_pos he, Nat.mod_eq_of_lt (Nat.lt_of_div_eq_zero (Nat.two_pow_pos _) he)]
  · refine ⟨2 ^ f.frac + p % 2 ^ f.frac, f.emin + (p / 2 ^ f.frac : Nat) - 1 - f.frac, ?_, ?_⟩
    · simp only [decodeFmt, hsign, hmag, if_pos hp, if_neg he]
    · rw [patVal, if_neg he]

theorem decodeFmt_zero_sign (f : Fmt) (p : Nat) : decodeFmt f p = decodeFmt f (signBit f false + p) := by
  rw [signBit, if_neg Bool.false_ne_true, Nat.zero_add]

theorem magnitude_eq_patVal {f : Fmt} (hf : FmtOk f) {p : Nat} (hp : p ≤ f.maxFin) : magnitude f p = patVal f p := by
  obtain ⟨n, d, hd, hv⟩ := decodeFmt_finite hf hp false
  rw [magnitude, decodeFmt_zero_sign, hd]
  exact hv

theorem signedValue_decodeFmt {f : Fmt} (hf : FmtOk f) {p : Nat} (hp : p ≤ f.maxFin) (b : Bool) :
    signedValue (decodeFmt f (signBit f b + p)) = some ((if b then -1 else 1) * magnitude f p) := by
  obtain ⟨n, d, hd, hv⟩ := decodeFmt_finite hf hp b
  rw [hd, magnitude_eq_patVal hf hp, ← hv]
  rfl

theorem patternsHaveValues : PatternsHaveValues := by
  intro t f ht p hp
  have hf := fmtOk_of_fmtOf ht
  exact ⟨lt_of_le_of_lt hp hf.maxFin_lt, magnitude_eq_patVal hf hp, signedValue_decodeFmt hf hp⟩

/-! ### One rounding (R10, R12, R13) -/

/-- The exponent that rounding works in: the binary exponent of the magnitude, but no less than that of the least normal number. -/
def roundExp (f : Fmt) (n d : Nat) : Int := max (log2Ratio n d) f.emin

/-- The magnitude as a fraction of the units of its binade. -/
def scaled (f : Fmt) (n d : Nat) : Nat × Nat := scale2 n d (f.frac - roundExp f n d)

/-- The pattern just below a magnitude, with no bound on the exponent. -/
def floorPattern (f : Fmt) (n d : Nat) : Nat :=
  (roundExp f n d - f.emin).toNat * 2 ^ f.frac + (scaled f n d).1 / (scaled f n d).2

/-- The magnitude is cut upwards. -/
def cutsUp (f : Fmt) (m : Rnd) (neg : Bool) (n d : Nat) : Bool :=
  roundUp m neg ((scaled f n d).1 / (scaled f n d).2) ((scaled f n d).1 % (scaled f n d).2) (scaled f n d).2

/-- The mode cuts the magnitude of a value of this sign: towards zero, or towards the side of zero that the value is not on. -/
def Cuts (m : Rnd) (neg : Bool) : Prop := m = .rz ∨ m = .ru ∧ neg = true ∨ m = .rd ∧ neg = false

/-- The modes that round a value of this sign away from zero. -/
def Raises (m : Rnd) (neg : Bool) : Prop := m = .ru ∧ neg = false ∨ m = .rd ∧ neg = true

theorem rn_or_raises_of_not_cuts : ∀ {m : Rnd} {neg : Bool}, ¬ Cuts m neg → m = .rn ∨ Raises m neg
  | .rn, _, _ => .inl rfl
  | .rz, _, h => absurd (.inl rfl) h
  | .ru, false, _ => .inr (.inl ⟨rfl, rfl⟩)
  | .ru, true, h => absurd (.inr (.inl ⟨rfl, rfl⟩)) h
  | .rd, true, _ => .inr (.inr ⟨rfl, rfl⟩)
  | .rd, false, h => absurd (.inr (.inr ⟨rfl, rfl⟩)) h

theorem not_cuts_of_raises {m : Rnd} {neg : Bool} (h : Raises m neg) : ¬ Cuts m neg := by
  rcases h with ⟨rfl, rfl⟩ | ⟨rfl, rfl⟩ <;> simp [Cuts]

theorem not_cuts_rn (neg : Bool) : ¬ Cuts .rn neg := by simp [Cuts]

/-- What a rounded magnitude becomes: its pattern, or above the largest finite pattern that one or what an infinite result gives (R12, R13). -/
def Bounded (f : Fmt) (m : Rnd) (sat neg : Bool) (r out : Nat) : Prop :=
  (r ≤ f.maxFin → out = signBit f neg + r) ∧
  (f.maxFin < r → (Cuts m neg → out = signBit f neg + f.maxFin) ∧ (¬ Cuts m neg → out = encodeFmt f m sat (.inf neg)))

/-- The end of `roundFin`: the model's choice above the largest finite pattern, in the mode and sign at hand. -/
theorem roundFin_bounded (f : Fmt) (m : Rnd) (sat neg : Bool) {n : Nat} (hn : n ≠ 0) (d : Nat) :
    Bounded f m sat neg (floorPattern f n d + (cutsUp f m neg n d).toNat) (roundFin f m sat neg n d) := by
  have hk (b : Bool) (k : Nat) : (if b = true then k + 1 else k) = k + b.toNat := by cases b <;> rfl
  simp only [roundFin, if_neg hn, hk, Nat.add_assoc, floorPattern, cutsUp, scaled, roundExp]
  generalize _ + Bool.toNat _ = r
  refine ⟨fun h => if_pos h, fun h => ?_⟩
  simp only [if_neg h.not_ge]
  cases sat with
  | true => exact ⟨fun _ => rfl, fun _ => rfl⟩
  | false =>
    constructor
    · rintro (rfl | ⟨rfl, rfl⟩ | ⟨rfl, rfl⟩) <;> rfl
    · intro hc
      rcases rn_or_raises_of_not_cuts hc with rfl | ⟨rfl, rfl⟩ | ⟨rfl, rfl⟩ <;> cases hi : f.inf <;> simp [encodeFmt, hi]

theorem roundExp_units (f : Fmt) (n d : Nat) : unit f (roundExp f n d - f.emin).toNat = 2 ^ (roundExp f n d - f.frac) := by
  have h : f.emin ≤ roundExp f n d := le_max_right _ _
  rw [unit, Int.toNat_of_nonneg (by omega)]
  congr 1
  ring

theorem scaled_value (f : Fmt) (n d : Nat) : ((scaled f n d).1 : ℚ) / (scaled f n d).2 = n / d * 2 ^ ((f.frac : Int) - roundExp f n d) :=
  scale2_value n d _

theorem scaled_lt (f : Fmt) {n d : Nat} (hn : 0 < n) (hd : 0 < d) : (scaled f n d).1 / (scaled f n d).2 < 2 ^ (f.frac + 1) := by
  have hs : 0 < (scaled f n d).2 := scale2_den_pos n hd _
  have hsq : (0 : ℚ) < (scaled f n d).2 := by exact_mod_cast hs
  have he : log2Ratio n d ≤ roundExp f n d := le_max_left _ _
  have hv : ((scaled f n d).1 : ℚ) / (scaled f n d).2 < 2 ^ (f.frac + 1) := by
    calc ((scaled f n d).1 : ℚ) / (scaled f n d).2 = n / d * 2 ^ ((f.frac : Int) - roundExp f n d) := scaled_value f n d
      _ < 2 ^ (log2Ratio n d + 1) * 2 ^ ((f.frac : Int) - roundExp f n d) := by gcongr; exact (log2Ratio_bounds hn hd).2
      _ = 2 ^ (log2Ratio n d + 1 + ((f.frac : Int) - roundExp f n d)) := (zpow_add₀ two_ne_zero _ _).symm
      _ ≤ 2 ^ ((f.frac + 1 : Nat) : Int) := zpow_le_zpow_right₀ one_le_two (by push_cast; omega)
      _ = 2 ^ (f.frac + 1) := zpow_natCast _ _
  rw [Nat.div_lt_iff_lt_mul hs]
  rw [div_lt_iff₀ hsq] at hv
  exact_mod_cast hv

theorem le_scaled (f : Fmt) {n d : Nat} (hn : 0 < n) (hd : 0 < d) (hE : (roundExp f n d - f.emin).toNat ≠ 0) :
    2 ^ f.frac ≤ (scaled f n d).1 / (scaled f n d).2 := by
  have hs : 0 < (scaled f n d).2 := scale2_den_pos n hd _
  have hsq : (0 : ℚ) < (scaled f n d).2 := by exact_mod_cast hs
  have he : roundExp f n d = log2Ratio n d := by unfold roundExp at hE ⊢; omega
  have hv : (2 : ℚ) ^ f.frac ≤ (scaled f n d).1 / (scaled f n d).2 := by
    calc (2 : ℚ) ^ f.frac = 2 ^ (log2Ratio n d) * 2 ^ ((f.frac : Int) - log2Ratio n d) := by rw [← zpow_add₀ two_ne_zero]; simp
      _ ≤ n / d * 2 ^ ((f.frac : Int) - log2Ratio n d) := by gcongr; exact (log2Ratio_bounds hn hd).1
      _ = (scaled f n d).1 / (scaled f n d).2 := by rw [scaled_value, he]
  rw [Nat.le_div_iff_mul_le hs]
  rw [le_div_iff₀ hsq] at hv
  exact_mod_cast hv

/-- How far a magnitude lies above the pattern just below it: the share of a unit that the division leaves. -/
def excess (f : Fmt) (n d : Nat) : ℚ := ((scaled f n d).1 % (scaled f n d).2 : Nat) / (scaled f n d).2

theorem excess_nonneg (f : Fmt) (n d : Nat) : 0 ≤ excess f n d := by unfold excess; positivity

theorem excess_lt_one (f : Fmt) (n : Nat) {d : Nat} (hd : 0 < d) : excess f n d < 1 := by
  have hs : 0 < (scaled f n d).2 := scale2_den_pos n hd _
  rw [excess, div_lt_one (by exact_mod_cast hs)]
  exact_mod_cast Nat.mod_lt _ hs

/-- The magnitude lies `excess` units above the pattern just below it, and one unit separates that pattern from the next. -/
theorem floorPattern_spec (f : Fmt) {n d : Nat} (hn : 0 < n) (hd : 0 < d) :
    ∃ u > 0, patVal f (floorPattern f n d + 1) = patVal f (floorPattern f n d) + u ∧ (n : ℚ) / d = patVal f (floorPattern f n d) + excess f n d * u := by
  have hs : 0 < (scaled f n d).2 := scale2_den_pos n hd _
  have hsq : (0 : ℚ) < (scaled f n d).2 := by exact_mod_cast hs
  have hlt := scaled_lt f hn hd
  have hlo : (roundExp f n d - f.emin).toNat = 0 ∨ 2 ^ f.frac ≤ (scaled f n d).1 / (scaled f n d).2 := or_iff_not_imp_left.mpr (le_scaled f hn hd)
  refine ⟨unit f (roundExp f n d - f.emin).toNat, unit_pos f _, ?_, ?_⟩
  · rw [floorPattern, Nat.add_assoc, patVal_binade f hlo hlt.le, patVal_binade f (hlo.imp_right (by omega)) hlt]
    push_cast
    ring
  · have hsplit : ((scaled f n d).1 : ℚ) / (scaled f n d).2 = ((scaled f n d).1 / (scaled f n d).2 : Nat) + excess f n d := by
      rw [excess, div_eq_iff hsq.ne', add_mul, div_mul_cancel₀ _ hsq.ne', mul_comm]
      exact_mod_cast (Nat.div_add_mod _ _).symm
    rw [floorPattern, patVal_binade f hlo hlt.le, ← add_mul, ← hsplit, scaled_value, roundExp_units, mul_assoc, ← zpow_add₀ two_ne_zero]
    simp

theorem floorPattern_parity {f : Fmt} (hf : FmtOk f) (n d : Nat) : floorPattern f n d % 2 = (scaled f n d).1 / (scaled f n d).2 % 2 := by
  obtain ⟨k, hk⟩ := Nat.exists_eq_add_of_lt hf.frac_pos
  rw [floorPattern, hk, Nat.zero_add, pow_succ, ← mul_assoc, Nat.mul_add_mod']

/-- A magnitude `x` between the values `lo` and `hi` of pattern `p` and the next one goes to the next one. -/
def GoesUp (m : Rnd) (neg : Bool) (p : Nat) (lo hi x : ℚ) : Prop :=
  match m with
  | .rn => hi - x < x - lo ∨ hi - x = x - lo ∧ p % 2 = 1
  | .rz => False
  | .ru => neg = false ∧ lo < x
  | .rd => neg = true ∧ lo < x

theorem not_goesUp_self (m : Rnd) (neg : Bool) (p : Nat) {lo hi : ℚ} (h : lo < hi) : ¬ GoesUp m neg p lo hi lo := by
  cases m <;> simp only [GoesUp, sub_self, lt_self_iff_false, and_false, not_false_eq_true]
  rintro (h' | ⟨h', -⟩) <;> linarith

theorem cutsUp_iff {f : Fmt} (hf : FmtOk f) (m : Rnd) (neg : Bool) {n d : Nat} (hn : 0 < n) (hd : 0 < d) :
    cutsUp f m neg n d = true ↔
      GoesUp m neg (floorPattern f n d) (patVal f (floorPattern f n d)) (patVal f (floorPattern f n d + 1)) (n / d) := by
  obtain ⟨u, hu, hnext, hx⟩ := floorPattern_spec f hn hd
  have hs : (0 : ℚ) < (scaled f n d).2 := by exact_mod_cast scale2_den_pos n hd _
  rw [hnext, hx]
  generalize patVal f (floorPattern f n d) = lo
  have hpos : lo < lo + excess f n d * u ↔ (scaled f n d).1 % (scaled f n d).2 ≠ 0 := by
    rw [lt_add_iff_pos_right, mul_pos_iff_of_pos_right hu, excess, div_pos_iff_of_pos_right hs, Nat.cast_pos, Nat.pos_iff_ne_zero]
  have hmore : lo + u - (lo + excess f n d * u) < lo + excess f n d * u - lo ↔ (scaled f n d).2 < 2 * ((scaled f n d).1 % (scaled f n d).2) := by
    calc _ ↔ 1 * u < 2 * excess f n d * u := by constructor <;> intro h <;> linarith
      _ ↔ 1 < 2 * excess f n d := mul_lt_mul_iff_left₀ hu
      _ ↔ _ := by rw [excess, mul_div_assoc', one_lt_div hs]; exact_mod_cast Iff.rfl
  have htie : lo + u - (lo + excess f n d * u) = lo + excess f n d * u - lo ↔ 2 * ((scaled f n d).1 % (scaled f n d).2) = (scaled f n d).2 := by
    calc _ ↔ 2 * excess f n d * u = 1 * u := by constructor <;> intro h <;> linarith
      _ ↔ 2 * excess f n d = 1 := mul_left_inj' hu.ne'
      _ ↔ _ := by rw [excess, mul_div_assoc', div_eq_one_iff_eq hs.ne']; exact_mod_cast Iff.rfl
  cases m with
  | rn => simp only [cutsUp, roundUp, GoesUp, floorPattern_parity hf, hmore, htie, Bool.or_eq_true, Bool.and_eq_true, decide_eq_true_eq]
  | rz => simp [cutsUp, roundUp, GoesUp]
  | ru => simp [cutsUp, roundUp, GoesUp, hpos]
  | rd => simp [cutsUp, roundUp, GoesUp, hpos]

/-- One rounding: the magnitude has a pattern just below it, `GoesUp` says whether it goes to the next one, and the result is bounded. -/
theorem roundFin_spec {f : Fmt} (hf : FmtOk f) (m : Rnd) (sat neg : Bool) (n : Nat) {d : Nat} (hd : 0 < d) :
    ∃ p r, patVal f p ≤ n / d ∧ (n : ℚ) / d < patVal f (p + 1) ∧
      (GoesUp m neg p (patVal f p) (patVal f (p + 1)) (n / d) → r = p + 1) ∧
      (¬ GoesUp m neg p (patVal f p) (patVal f (p + 1)) (n / d) → r = p) ∧
      Bounded f m sat neg r (encodeFmt f m sat (.fin neg n d)) := by
  rcases Nat.eq_zero_or_pos n with rfl | hn
  · have h1 : 0 < patVal f 1 := by
      rw [← patVal_zero f]
      exact patVal_strictMono f zero_lt_one
    have hx : ((0 : Nat) : ℚ) / d = patVal f 0 := by rw [patVal_zero, Nat.cast_zero, zero_div]
    rw [hx]
    exact ⟨0, 0, le_rfl, by rwa [patVal_zero], fun h => absurd h (not_goesUp_self m neg 0 (by rwa [patVal_zero])), fun _ => rfl, fun _ => rfl,
      fun h => absurd h (Nat.not_lt_zero _)⟩
  · have hup := cutsUp_iff hf m neg hn hd
    obtain ⟨u, hu, hnext, hx⟩ := floorPattern_spec f hn hd
    refine ⟨floorPattern f n d, floorPattern f n d + (cutsUp f m neg n d).toNat, ?_, ?_, fun h => by rw [hup.mpr h, Bool.toNat_true], fun h => ?_,
      roundFin_bounded f m sat neg hn.ne' d⟩
    · rw [hx, le_add_iff_nonneg_right]
      exact mul_nonneg (excess_nonneg f n d) hu.le
    · rw [hx, hnext, add_lt_add_iff_left]
      exact mul_lt_of_lt_one_left hu (excess_lt_one f n hd)
    · rw [Bool.eq_false_iff.mpr (mt hup.mp h), Bool.toNat_false, Nat.add_zero]

theorem not_goesUp_of_cuts {m : Rnd} {neg : Bool} (h : Cuts m neg) (p : Nat) (lo hi x : ℚ) : ¬ GoesUp m neg p lo hi x := by
  rcases h with rfl | ⟨rfl, rfl⟩ | ⟨rfl, rfl⟩ <;> simp [GoesUp]

theorem goesUp_of_raises {m : Rnd} {neg : Bool} (h : Raises m neg) (p : Nat) (lo hi x : ℚ) : GoesUp m neg p lo hi x ↔ lo < x := by
  rcases h with ⟨rfl, rfl⟩ | ⟨rfl, rfl⟩ <;> simp [GoesUp]

/-- Of the two neighbours of `x`, the one that `rn` takes is the nearest of all patterns; another as near only leaves an even one. -/
theorem nearest_of_goesUp {f : Fmt} {p r : Nat} {x : ℚ} {neg : Bool} (hlo : patVal f p ≤ x) (hhi : x < patVal f (p + 1))
    (hup : GoesUp .rn neg p (patVal f p) (patVal f (p + 1)) x → r = p + 1) (hdown : ¬ GoesUp .rn neg p (patVal f p) (patVal f (p + 1)) x → r = p) (q : Nat) :
    |x - patVal f r| ≤ |x - patVal f q| ∧ (q ≠ r → |x - patVal f r| = |x - patVal f q| → r % 2 = 0) := by
  have hmono := patVal_strictMono f
  have below : ∀ {k}, k ≤ p → |x - patVal f k| = x - patVal f k := fun hk => abs_of_nonneg (by linarith [hmono.monotone hk])
  have above : ∀ {k}, p + 1 ≤ k → |x - patVal f k| = patVal f k - x := fun hk => by
    rw [abs_sub_comm]
    exact abs_of_nonneg (by linarith [hmono.monotone hk])
  by_cases hg : GoesUp .rn neg p (patVal f p) (patVal f (p + 1)) x
  · have hnear : patVal f (p + 1) - x ≤ x - patVal f p := hg.elim le_of_lt fun h => h.1.le
    rw [hup hg, above le_rfl]
    rcases le_or_gt q p with hq | hq
    · rw [below hq]
      have hv := hmono.monotone hq
      refine ⟨by linarith, fun _ htie => ?_⟩
      have hodd : p % 2 = 1 := hg.elim (fun h => absurd h (by linarith)) And.right
      omega
    · rw [above hq]
      refine ⟨by linarith [hmono.monotone hq], fun hne htie => ?_⟩
      have hv : patVal f (p + 1) < patVal f q := hmono (by omega)
      linarith
  · obtain ⟨hnear, heven⟩ := not_or.mp hg
    rw [hdown hg, below le_rfl]
    rcases le_or_gt q p with hq | hq
    · rw [below hq]
      refine ⟨by linarith [hmono.monotone hq], fun hne htie => ?_⟩
      have hv : patVal f q < patVal f p := hmono (by omega)
      linarith
    · rw [above hq]
      have hv := hmono.monotone hq
      refine ⟨by linarith, fun _ htie => ?_⟩
      have hodd : p % 2 ≠ 1 := fun h => heven ⟨by linarith, h⟩
      omega

/-- The rounded pattern of a magnitude that does not exceed the largest finite value (R12). -/
theorem rounds_within {f : Fmt} (hf : FmtOk f) (m : Rnd) (sat neg : Bool) (n : Nat) {d : Nat} (hd : 0 < d) (hx : (n : ℚ) / d ≤ patVal f f.maxFin) :
    ∃ r ≤ f.maxFin, encodeFmt f m sat (.fin neg n d) = signBit f neg + r ∧
      (Cuts m neg → patVal f r ≤ n / d ∧ (n : ℚ) / d < patVal f (r + 1)) ∧
      (Raises m neg → (n : ℚ) / d ≤ patVal f r ∧ (0 < r → patVal f (r - 1) < n / d)) ∧
      (m = .rn → ∀ q, |(n : ℚ) / d - patVal f r| ≤ |(n : ℚ) / d - patVal f q| ∧ (q ≠ r → |(n : ℚ) / d - patVal f r| = |(n : ℚ) / d - patVal f q| → r % 2 = 0)) := by
  have hmono := patVal_strictMono f
  obtain ⟨p, r, hlo, hhi, hup, hdown, hfin, -⟩ := roundFin_spec hf m sat neg n hd
  generalize (n : ℚ) / d = x at *
  have hp : p ≤ f.maxFin := hmono.le_iff_le.mp (hlo.trans hx)
  have hr : r ≤ f.maxFin := by
    by_cases hg : GoesUp m neg p (patVal f p) (patVal f (p + 1)) x
    · have hne : p ≠ f.maxFin := by
        rintro rfl
        rw [le_antisymm hx hlo] at hg hhi
        exact not_goesUp_self m neg _ hhi hg
      rw [hup hg]
      omega
    · rwa [hdown hg]
  refine ⟨r, hr, hfin hr, fun hc => ?_, fun hc => ?_, ?_⟩
  · rw [hdown (not_goesUp_of_cuts hc _ _ _ _)]
    exact ⟨hlo, hhi⟩
  · have hg := goesUp_of_raises hc p (patVal f p) (patVal f (p + 1)) x
    rcases hlo.lt_or_eq with h | h
    · rw [hup (hg.mpr h)]
      exact ⟨hhi.le, fun _ => h⟩
    · rw [hdown (mt hg.mp h.not_lt), h]
      exact ⟨le_rfl, fun h0 => h ▸ hmono (by omega)⟩
  · rintro rfl q
    exact nearest_of_goesUp hlo hhi hup hdown q

/-- The rounded result of a magnitude above the largest finite value (R12, R13): to nearest, the last neighbour decides as it would with no bound. -/
theorem rounds_above {f : Fmt} (hf : FmtOk f) (m : Rnd) (sat neg : Bool) (n : Nat) {d : Nat} (hd : 0 < d) (hx : patVal f f.maxFin < (n : ℚ) / d) :
    (Cuts m neg → encodeFmt f m sat (.fin neg n d) = signBit f neg + f.maxFin) ∧
    (Raises m neg → encodeFmt f m sat (.fin neg n d) = encodeFmt f m sat (.inf neg)) ∧
    (m = .rn → n / d < patVal f (f.maxFin + 1) → ¬ GoesUp m neg f.maxFin (patVal f f.maxFin) (patVal f (f.maxFin + 1)) (n / d) →
      encodeFmt f m sat (.fin neg n d) = signBit f neg + f.maxFin) ∧
    (m = .rn → GoesUp m neg f.maxFin (patVal f f.maxFin) (patVal f (f.maxFin + 1)) (n / d) →
      encodeFmt f m sat (.fin neg n d) = encodeFmt f m sat (.inf neg)) := by
  have hmono := patVal_strictMono f
  obtain ⟨p, r, hlo, hhi, hup, hdown, hfin, hinf⟩ := roundFin_spec hf m sat neg n hd
  generalize (n : ℚ) / d = x at *
  have hp : f.maxFin ≤ p := Nat.lt_succ_iff.mp (hmono.lt_iff_lt.mp (hx.trans hhi))
  have hpr : p ≤ r := by
    by_cases hg : GoesUp m neg p (patVal f p) (patVal f (p + 1)) x
    · rw [hup hg]; omega
    · rw [hdown hg]
  -- a pattern past the largest finite one, or that one with its value passed upwards, is past the bound
  have past (hg : p = f.maxFin → GoesUp m neg p (patVal f p) (patVal f (p + 1)) x) : f.maxFin < r := by
    rcases hp.lt_or_eq with h | h
    · omega
    · have := hup (hg h.symm)
      omega
  refine ⟨fun hc => ?_, fun hc => ?_, ?_, ?_⟩
  · rcases (hp.trans hpr).lt_or_eq with h | h
    · exact (hinf h).1 hc
    · rw [hfin h.ge, h]
  · refine (hinf (past fun h => ?_)).2 (not_cuts_of_raises hc)
    rw [goesUp_of_raises hc, h]
    exact hx
  · intro _ hnext hg
    have hpe : p = f.maxFin := le_antisymm (Nat.lt_succ_iff.mp (hmono.lt_iff_lt.mp (hlo.trans_lt hnext))) hp
    subst hpe
    have hr := hdown hg
    rw [hfin hr.le, hr]
  · rintro rfl hg
    exact (hinf (past fun h => h ▸ hg)).2 (not_cuts_rn neg)

theorem roundsOnce : RoundsOnce := by
  intro t f ht m sat neg n d hd
  have hf := fmtOk_of_fmtOf ht
  have hmag {p : Nat} (hp : p ≤ f.maxFin) := magnitude_eq_patVal hf hp
  intro x sign out top ulp down up large
  have htop : top = patVal f f.maxFin := hmag le_rfl
  have hulp : ulp = patVal f (f.maxFin + 1) - patVal f f.maxFin := by
    rw [patVal_maxFin_spacing hf, ← htop, ← hmag (Nat.sub_le _ _)]
  have hlarge : large = encodeFmt f m sat (.inf neg) := rfl
  constructor
  · intro hx
    rw [htop] at hx
    obtain ⟨r, hr, hout, hdown, hup, hnear⟩ := rounds_within hf m sat neg n hd hx
    refine ⟨r, hr, hout, fun hc => ?_, fun hc => ?_, fun hm q hq => ?_⟩
    · rw [hmag hr]
      exact ⟨(hdown hc).1, fun hlt => hmag hlt ▸ (hdown hc).2⟩
    · rw [hmag hr]
      exact ⟨(hup hc).1, fun h0 => hmag ((Nat.sub_le r 1).trans hr) ▸ (hup hc).2 h0⟩
    · rw [hmag hr, hmag hq]
      exact hnear hm q
  · intro hx
    rw [htop] at hx
    obtain ⟨hdown, hup, hstay, hpass⟩ := rounds_above hf m sat neg n hd hx
    have hpos : 0 < ulp := by
      rw [hulp, sub_pos]
      exact patVal_strictMono f f.maxFin.lt_succ_self
    rw [htop]
    refine ⟨hdown, fun hc => (hup hc).trans hlarge.symm, fun hm h => ?_, fun hm h => ?_⟩
    · subst hm
      have hle : 2 * (x - patVal f f.maxFin) ≤ ulp := h.elim le_of_lt fun h => h.1.le
      refine hstay rfl (by linarith) ?_
      rintro (hlt | ⟨heq, hodd⟩)
      · linarith
      · exact h.elim (fun h => by linarith) fun h => by omega
    · subst hm
      refine (hpass rfl ?_).trans hlarge.symm
      exact h.imp (fun h => by linarith) fun ⟨heq, hodd⟩ => ⟨by linarith, hodd⟩

/-! ### Exact arithmetic (R12, R126) -/

/-- The factor of a sign. -/
def sgn (b : Bool) : ℚ := if b then -1 else 1

theorem sgn_xor (a b : Bool) : sgn (a != b) = sgn a * sgn b := by cases a <;> cases b <;> simp [sgn]

theorem sgn_not (b : Bool) : sgn (!b) = -sgn b := by cases b <;> simp [sgn]

theorem sgn_mul_cast (b : Bool) (n : Nat) : (((if b then -(n : Int) else n) : Int) : ℚ) = sgn b * n := by cases b <;> simp [sgn]

theorem signedValue_fin (neg : Bool) (n d : Nat) : signedValue (.fin neg n d) = some (sgn neg * ((n : ℚ) / d)) := rfl

/-- A finite value from an integer over a natural number has that quotient for its value. -/
theorem signedValue_ofInt (x : Int) (d : Nat) : signedValue (.fin (decide (x < 0)) x.natAbs d) = some ((x : ℚ) / d) := by
  have h : sgn (decide (x < 0)) * (x.natAbs : ℚ) = x := by
    rw [Nat.cast_natAbs]
    rcases lt_or_ge x 0 with hx | hx
    · simp [sgn, hx, abs_of_neg hx]
    · simp [sgn, hx.not_gt, abs_of_nonneg hx]
  rw [signedValue_fin, ← mul_div_assoc, h]

theorem signedValue_fAdd (m : Rnd) (a b : Bool) (n p : Nat) {d q : Nat} (hd : 0 < d) (hq : 0 < q) :
    signedValue (fAdd m (.fin a n d) (.fin b p q)) = some (sgn a * ((n : ℚ) / d) + sgn b * (p / q)) := by
  have hdq : (d : ℚ) ≠ 0 := by exact_mod_cast hd.ne'
  have hqq : (q : ℚ) ≠ 0 := by exact_mod_cast hq.ne'
  set x : Int := (if a then -((n * q : Nat) : Int) else (n * q : Nat)) + (if b then -((p * d : Nat) : Int) else (p * d : Nat)) with hx
  have hsum : sgn a * ((n : ℚ) / d) + sgn b * (p / q) = x / (d * q : Nat) := by
    rw [hx, Int.cast_add, sgn_mul_cast, sgn_mul_cast]
    push_cast
    field_simp
  have hadd : fAdd m (.fin a n d) (.fin b p q) =
      if x = 0 then .fin (if a = b then a else m = .rd) 0 1 else .fin (decide (x < 0)) x.natAbs (d * q) := rfl
  rw [hsum, hadd]
  split
  · next h => simp [signedValue_fin, h]
  · exact signedValue_ofInt x (d * q)

theorem signedValue_fMul (a b : Bool) (n d p q : Nat) :
    signedValue (fMul (.fin a n d) (.fin b p q)) = some (sgn a * ((n : ℚ) / d) * (sgn b * (p / q))) := by
  rw [fMul, signedValue_fin, sgn_xor, Nat.cast_mul, Nat.cast_mul, ← div_mul_div_comm]
  congr 1
  ring

theorem signedValue_fDiv (a b : Bool) (n d : Nat) {p : Nat} (hp : 0 < p) (q : Nat) :
    signedValue (fDiv (.fin a n d) (.fin b p q)) = some (sgn a * ((n : ℚ) / d) / (sgn b * (p / q))) := by
  have hinv : (sgn b)⁻¹ = sgn b := by cases b <;> simp [sgn, inv_neg]
  rw [fDiv, if_neg hp.ne', signedValue_fin, sgn_xor, Nat.cast_mul, Nat.cast_mul, div_eq_mul_inv _ (sgn b * _), mul_inv, hinv, inv_div,
    mul_div_mul_comm]
  congr 1
  ring

theorem signedValue_fNeg (b : Bool) (p q : Nat) : signedValue (fNeg (.fin b p q)) = some (-(sgn b * ((p : ℚ) / q))) := by
  rw [fNeg, signedValue_fin, sgn_not, neg_mul]

/-- A scale within the bounds that `fScale` puts on it is exact. -/
theorem signedValue_fScale {k : Int} (hk : -2 ^ 14 ≤ k) (hk' : k ≤ 2 ^ 14) (a : Bool) (n d : Nat) :
    signedValue (fScale k (.fin a n d)) = some (sgn a * ((n : ℚ) / d) * 2 ^ k) := by
  rcases eq_or_ne n 0 with rfl | hn
  · simp [fScale, signedValue_fin]
  · have hclamp : max (-16384) (min 16384 k) = k := by omega
    simp only [fScale, if_neg hn, hclamp]
    rw [signedValue_fin, scale2_value, mul_assoc]

theorem arithmeticIsExact : ArithmeticIsExact := by
  intro m a b n d p q hd hq
  exact ⟨signedValue_fAdd m a b n p hd hq, signedValue_fMul a b n d p q, fun hp => signedValue_fDiv a b n d hp q, signedValue_fNeg b p q,
    fun k hk hk' => signedValue_fScale hk hk' a n d⟩

/-! ### Special cases (R126) -/

theorem fAdd_cancel (m : Rnd) (a : Bool) (n d : Nat) : fAdd m (.fin a n d) (.fin (!a) n d) = .fin (decide (m = .rd)) 0 1 := by
  cases a <;> simp [fAdd]

theorem fAdd_inf (m : Rnd) (a b : Bool) : fAdd m (.inf a) (.inf b) = if a = b then .inf a else .nan := rfl

/-- A NaN operand gives a NaN. -/
theorem nan_operand (m : Rnd) (x : FVal) :
    fAdd m .nan x = .nan ∧ fAdd m x .nan = .nan ∧ fMul .nan x = .nan ∧ fMul x .nan = .nan ∧ fDiv .nan x = .nan ∧ fDiv x .nan = .nan := by
  cases x <;> exact ⟨rfl, rfl, rfl, rfl, rfl, rfl⟩

theorem fDiv_by_zero (a b : Bool) {n : Nat} (h : 0 < n) (d : Nat) : fDiv (.fin a n d) (.fin b 0 1) = .inf (a != b) := by
  rw [fDiv, if_pos rfl, if_neg h.ne']

theorem fSqrt_negative {n : Nat} (h : 0 < n) (d : Nat) : fSqrt (.fin true n d) = .nan := by
  rw [fSqrt, if_neg h.ne', if_pos rfl]

theorem fRsq_negative {n : Nat} (h : 0 < n) (d : Nat) : fRsq (.fin true n d) = .nan := by
  rw [fRsq, if_neg h.ne', if_pos rfl]

theorem encodeFmt_inf_of_some {f : Fmt} {i : Nat} (h : f.inf = some i) (m : Rnd) (a : Bool) : encodeFmt f m false (.inf a) = signBit f a + i := by
  simp [encodeFmt, signBit, h]

theorem floatSpecialCases : FloatSpecialCases := by
  intro m a b n d f sat
  refine ⟨?_, ?_, fAdd_cancel m a n d, rfl, nan_operand m, rfl, rfl, fun h => fDiv_by_zero a b h d, rfl, rfl, ?_, ?_, rfl, fun h => fSqrt_negative h d,
    rfl, rfl, rfl, fun h => fRsq_negative h d, rfl, fun k => ⟨rfl, rfl⟩, rfl, rfl, fun i hi => encodeFmt_inf_of_some hi m a⟩
  · rw [fAdd_inf, if_neg (Bool.not_ne_self a).symm]
  · rw [fAdd_inf, if_pos rfl]
  · rw [fDiv_by_zero false a one_pos 1, Bool.false_bne]
  · exact congrArg (FVal.fin · 0 1) (Bool.false_bne a)

/-! ### Lane instructions that only write lanes (R118, R120, R124 to R127) -/

section LaneInstructions
variable {i : Instr} {s : State} {g n : Nat} {G : Group} {S : Split}

/-- A lane instruction that the model runs by `laneAlu` and that writes only its destination does so in its active lanes. -/
theorem laneWrites_alu (hl : LaneTurn s g G n S) {gd : LGuard} {regs : List Nat} {t : Ty} {d : Nat} (F : Group → Nat → Nat)
    (he : exec i s = laneAlu s gd regs fun G m => G.putEl t d m (F G)) (hb : Below G regs) : LaneWrites i s g G n S t d (Active G S gd) (F G) := by
  obtain ⟨ht, hg, hS⟩ := hl
  rw [LaneWrites, LaneBecomes, he, laneAlu_of ht hg hS gd hb, afterLane, Group.putEl_splits, hS]
  rfl

theorem laneWrites_un (hl : LaneTurn s g G n S) {w : Un} (hb : Below G (tyRegs w.ty w.d ++ tyRegs w.ty w.a)) (F : Nat → Nat) (he : exec i s = unStep s w F) :
    LaneWrites i s g G n S w.ty w.d.toNat (Active G S w.g) fun j => F (G.el w.ty w.a.toNat j) :=
  laneWrites_alu hl (fun G j => F (G.el w.ty w.a.toNat j)) he hb

theorem laneWrites_bin (hl : LaneTurn s g G n S) {w : Bin} (hb : Below G (tyRegs w.ty w.d ++ tyRegs w.ty w.a ++ opndRegs w.ty w.b)) (F : Nat → Nat → Nat)
    (he : exec i s = binStep s w F) :
    LaneWrites i s g G n S w.ty w.d.toNat (Active G S w.g) fun j => F (G.el w.ty w.a.toNat j) (G.opnd w.ty w.b j) :=
  laneWrites_alu hl (fun G j => F (G.el w.ty w.a.toNat j) (G.opnd w.ty w.b j)) he hb

theorem laneWrites_ter (hl : LaneTurn s g G n S) {w : Ter}
    (hb : Below G (tyRegs w.ty w.d ++ tyRegs w.ty w.a ++ opndRegs w.ty w.b ++ opndRegs w.ty w.c)) (F : Nat → Nat → Nat → Nat) (he : exec i s = terStep s w F) :
    LaneWrites i s g G n S w.ty w.d.toNat (Active G S w.g) fun j => F (G.el w.ty w.a.toNat j) (G.opnd w.ty w.b j) (G.opnd w.ty w.c j) :=
  laneWrites_alu hl (fun G j => F (G.el w.ty w.a.toNat j) (G.opnd w.ty w.b j) (G.opnd w.ty w.c j)) he hb

variable {f : Fmt}

theorem fmt_of_fmtOf {t : Ty} (h : fmtOf t = some f) : fmt t = f := by rw [fmt, h, Option.getD_some]

/-- A float instruction with one source: its exact operation on the decoded source, rounded once. -/
theorem laneWrites_fUn (hl : LaneTurn s g G n S) {w : Un} (hf : fmtOf w.ty = some f) (hb : Below G (tyRegs w.ty w.d ++ tyRegs w.ty w.a)) (op : FVal → FVal)
    (he : exec i s = fUn s w op) :
    LaneWrites i s g G n S w.ty w.d.toNat (Active G S w.g) fun j => encodeFmt f w.m.rnd w.m.sat (op (decodeFmt f (G.el w.ty w.a.toNat j))) := by
  obtain rfl := fmt_of_fmtOf hf
  exact laneWrites_un hl hb (fun x => encodeFmt (fmt w.ty) w.m.rnd w.m.sat (op (decodeFmt (fmt w.ty) x))) he

/-- A float instruction with two sources: its exact operation on the decoded sources, rounded once. -/
theorem laneWrites_fBin (hl : LaneTurn s g G n S) {w : Bin} (hf : fmtOf w.ty = some f) (hb : Below G (tyRegs w.ty w.d ++ tyRegs w.ty w.a ++ opndRegs w.ty w.b))
    (op : FVal → FVal → FVal) (he : exec i s = fBin s w op) :
    LaneWrites i s g G n S w.ty w.d.toNat (Active G S w.g) fun j =>
      encodeFmt f w.m.rnd w.m.sat (op (decodeFmt f (G.el w.ty w.a.toNat j)) (decodeFmt f (G.opnd w.ty w.b j))) := by
  obtain rfl := fmt_of_fmtOf hf
  exact laneWrites_bin hl hb (fun x y => encodeFmt (fmt w.ty) w.m.rnd w.m.sat (op (decodeFmt (fmt w.ty) x) (decodeFmt (fmt w.ty) y))) he

end LaneInstructions

/-- An operand of a narrow type is a pattern of that type. -/
theorem opnd_lt (G : Group) {t : Ty} (h : t.wide = false) (o : Opnd) (i : Nat) : G.opnd t o i < 2 ^ t.bits := by
  have hpos : 0 < 2 ^ t.bits := Nat.two_pow_pos _
  cases o with
  | v r => exact (el_narrow G h r.toNat i).trans_lt (Nat.mod_lt _ hpos)
  | s r => exact Nat.mod_lt _ hpos
  | imm x =>
    have hi : t ≠ .i64 := by
      rintro rfl
      exact absurd h (by decide)
    exact (immEl_of_ne_i64 hi x).trans_lt (Nat.mod_lt _ hpos)

/-- `vfscl` scales by its 32-bit count as a signed integer. -/
theorem vfscl_writes {s : State} {g n : Nat} {G : Group} {S : Split} (hl : LaneTurn s g G n S) {w : Bin} {f : Fmt} (hf : fmtOf w.ty = some f)
    (hb : Below G (tyRegs w.ty w.d ++ tyRegs w.ty w.a ++ opndRegs .i32 w.b)) :
    LaneWrites (.vfscl w) s g G n S w.ty w.d.toNat (Active G S w.g) fun i =>
      encodeFmt f w.m.rnd w.m.sat (fScale (sgnOf .i32 (G.opnd .i32 w.b i)) (decodeFmt f (G.el w.ty w.a.toNat i))) := by
  obtain rfl := fmt_of_fmtOf hf
  have hcount (i : Nat) : toInt true 32 (G.opnd .i32 w.b i) = sgnOf .i32 (G.opnd .i32 w.b i) := toInt_eq_sgnOf .i32 (opnd_lt G rfl w.b i)
  simp only [← hcount]
  exact laneWrites_alu hl (fun G i =>
    encodeFmt (fmt w.ty) w.m.rnd w.m.sat (fScale (toInt true 32 (G.opnd .i32 w.b i)) (decodeFmt (fmt w.ty) (G.el w.ty w.a.toNat i)))) rfl hb

/-- `vaddmin` and `vaddmax` of a float type round the sum once and compare it with c. -/
theorem addSel_writes {i : Instr} {s : State} {g n : Nat} {G : Group} {S : Split} (hl : LaneTurn s g G n S) {w : Ter} {f : Fmt} (hf : fmtOf w.ty = some f)
    (hb : Below G (tyRegs w.ty w.d ++ tyRegs w.ty w.a ++ opndRegs w.ty w.b ++ opndRegs w.ty w.c)) (mx : Bool) (he : exec i s = addSel mx s w) :
    LaneWrites i s g G n S w.ty w.d.toNat (Active G S w.g) fun j =>
      fMinMax mx f (encodeFmt f w.m.rnd w.m.sat (fAdd w.m.rnd (decodeFmt f (G.el w.ty w.a.toNat j)) (decodeFmt f (G.opnd w.ty w.b j)))) (G.opnd w.ty w.c j) := by
  simp only [addSel, hf] at he
  exact laneWrites_ter hl hb (fun x y z => fMinMax mx f (encodeFmt f w.m.rnd w.m.sat (fAdd w.m.rnd (decodeFmt f x) (decodeFmt f y))) z) he

theorem laneFloats : LaneFloats := by
  intro s g G n S hl
  refine ⟨fun w f hf hb => ?_, fun w f hf hb => vfscl_writes hl hf hb, fun w f hf hb => ?_, fun w f hf hb => ?_⟩
  · have hfmt := fmt_of_fmtOf hf
    exact ⟨laneWrites_fBin hl hf hb (fAdd w.m.rnd) rfl, laneWrites_fBin hl hf hb (fun x y => fAdd w.m.rnd x (fNeg y)) rfl,
      laneWrites_fBin hl hf hb fMul rfl, laneWrites_fBin hl hf hb fDiv rfl,
      laneWrites_bin hl hb (fMinMax false f) (hfmt ▸ rfl), laneWrites_bin hl hb (fMinMax true f) (hfmt ▸ rfl)⟩
  · have hfmt := fmt_of_fmtOf hf
    exact ⟨laneWrites_un hl hb (· % 2 ^ (w.ty.bits - 1)) rfl, laneWrites_un hl hb (· ^^^ 2 ^ (w.ty.bits - 1)) rfl,
      laneWrites_fUn hl hf hb (fDiv (.fin false 1 1)) rfl, laneWrites_fUn hl hf hb fRsq rfl, laneWrites_fUn hl hf hb fSqrt rfl,
      laneWrites_un hl hb (fun x => ex2 f w.m (decodeFmt f x)) (hfmt ▸ rfl), laneWrites_un hl hb (fun x => lg2 f w.m (decodeFmt f x)) (hfmt ▸ rfl),
      laneWrites_un hl hb (fun x => trig false f w.m (decodeFmt f x)) (hfmt ▸ rfl), laneWrites_un hl hb (fun x => trig true f w.m (decodeFmt f x)) (hfmt ▸ rfl),
      laneWrites_fUn hl hf hb (fRound w.m.rnd) rfl, laneWrites_alu hl (fun G i => fClass f (G.el w.ty w.a.toNat i)) (hfmt ▸ rfl) hb⟩
  · have hfmt := fmt_of_fmtOf hf
    exact ⟨laneWrites_ter hl hb (fun x y z => encodeFmt f w.m.rnd w.m.sat (fAdd w.m.rnd (fMul (decodeFmt f x) (decodeFmt f y)) (decodeFmt f z))) (hfmt ▸ rfl),
      addSel_writes hl hf hb false rfl, addSel_writes hl hf hb true rfl⟩

/-- Settles O24: the lane words through what `laneAlu` answers, the rounding through the pattern just below a magnitude, which the one after it succeeds
by one unit of its binade. -/
theorem laneFloatsAndSpecialCases : Obligations.LaneFloatsAndSpecialCases :=
  ⟨laneFloats, floatSpecialCases, patternsHaveValues, roundsOnce, arithmeticIsExact⟩

end Sys2Proof.Proofs
end

section
/-!
PROOFS. Scalar words: what each field of an encoded word reads, the readers of the scalar map on the words of their layouts, and the round trip (R43, R44, R50 to R54, R59,
R61).
-/

namespace Sys2Proof.Proofs
open Sys2Proof.Machine Sys2Proof.Claims Decode Encode

/-! ### Fields of a concatenation -/

theorem field_below {m n start len : Nat} (x : BitVec m) (y : BitVec n) (h : start + len ≤ n) :
    (x ++ y).extractLsb' start len = y.extractLsb' start len := BitVec.extractLsb'_append_eq_of_add_le h

theorem field_above {m n start len : Nat} (x : BitVec m) (y : BitVec n) (h : n ≤ start) :
    (x ++ y).extractLsb' start len = x.extractLsb' (start - n) len := BitVec.extractLsb'_append_eq_of_le h

/-- A bit of a word, read as a field of width one. -/
theorem bit_of_field {n i : Nat} {w : BitVec n} {b : Bool} (hi : i < n) (h : w.extractLsb' i 1 = BitVec.ofBool b) : w[i] = b := by
  have h0 : (w.extractLsb' i 1).getLsbD 0 = w.getLsbD i := by simp
  rw [h] at h0
  rw [← BitVec.getLsbD_eq_getElem, ← h0]
  cases b <;> rfl

@[simp] theorem getElem_ofBool_zero (b : Bool) : (BitVec.ofBool b)[0] = b := by cases b <;> rfl

/-! ### Codes (R10, R49 to R52, R113, R196) -/

@[simp] theorem scope_ofCode (x : Scope) : Scope.ofCode x.code = some x := by cases x <;> rfl
@[simp] theorem order_ofCode (x : Order) : Order.ofCode x.code = x := by cases x <;> rfl
@[simp] theorem fenceKind_ofCode (x : FenceKind) : FenceKind.ofCode x.code = x := by cases x <;> rfl
@[simp] theorem rel_ofCode (x : Rel) : Rel.ofCode x.code = some x := by cases x <;> rfl
@[simp] theorem phMode_ofCode (x : PhMode) : PhMode.ofCode x.code = some x := by cases x <;> rfl

/-! ### Layouts of scalar words (R43) -/

section Layouts
variable (op : BitVec 8) (d a b : SReg) (g sub : CReg) (imm : BitVec 10)

/-- A field of a word of layout SR, read from its parts. -/
theorem extract_wSR (start len : Nat) : (wSR op d a b g).extractLsb' start len = (op ++ d ++ a ++ b ++ g).extractLsb' start len := rfl

@[simp] theorem opcode_wSR : (wSR op d a b g).extractLsb' 24 8 = op := by simp [extract_wSR, field_above, -Nat.reduceAdd]
@[simp] theorem fd_wSR : fd (wSR op d a b g) = d := by simp [fd, extract_wSR, field_above, field_below, -Nat.reduceAdd]
@[simp] theorem fa_wSR : fa (wSR op d a b g) = a := by simp [fa, extract_wSR, field_above, field_below, -Nat.reduceAdd]
@[simp] theorem fb_wSR : fb (wSR op d a b g) = b := by simp [fb, extract_wSR, field_above, field_below, -Nat.reduceAdd]
@[simp] theorem fg_wSR : fg (wSR op d a b g) = g := by simp [fg, extract_wSR, field_below, -Nat.reduceAdd]

/-- Bits of the lowest field. -/
theorem sub_wSR {start len : Nat} (h : start + len ≤ 3) : (wSR op d a b g).extractLsb' start len = g.extractLsb' start len := by
  rw [extract_wSR, field_below _ _ h]

theorem bit_wSR : (wSR op d a b g)[0] = g[0] := by
  show (op ++ d ++ a ++ b ++ g)[0] = _
  rw [BitVec.getElem_append, dif_pos (by decide)]

theorem extract_wSI (start len : Nat) : (wSI op d a imm).extractLsb' start len = (op ++ d ++ a ++ imm).extractLsb' start len := rfl

@[simp] theorem opcode_wSI : (wSI op d a imm).extractLsb' 24 8 = op := by simp [extract_wSI, field_above, -Nat.reduceAdd]
@[simp] theorem fd_wSI : fd (wSI op d a imm) = d := by simp [fd, extract_wSI, field_above, field_below, -Nat.reduceAdd]
@[simp] theorem fa_wSI : fa (wSI op d a imm) = a := by simp [fa, extract_wSI, field_above, field_below, -Nat.reduceAdd]
@[simp] theorem fimm_wSI : fimm (wSI op d a imm) = imm := by simp [fimm, extract_wSI, field_below, -Nat.reduceAdd]

theorem extract_wSC (cd : CReg) (rel : BitVec 4) (start len : Nat) :
    (wSC op cd rel a imm).extractLsb' start len = (op ++ cd ++ rel ++ a ++ imm).extractLsb' start len := rfl

@[simp] theorem opcode_wSC (cd : CReg) (rel : BitVec 4) : (wSC op cd rel a imm).extractLsb' 24 8 = op := by simp [extract_wSC, field_above, -Nat.reduceAdd]

theorem extract_wSB (n : Bool) (off : BitVec 20) (start len : Nat) :
    (wSB op g n off).extractLsb' start len = (op ++ g ++ BitVec.ofBool n ++ off).extractLsb' start len := rfl

@[simp] theorem opcode_wSB (n : Bool) (off : BitVec 20) : (wSB op g n off).extractLsb' 24 8 = op := by simp [extract_wSB, field_above, -Nat.reduceAdd]

section Handles
variable (h : HReg)

/-- A word of layout SE is one of layout SR with a handle number in field d. -/
theorem wSE_eq : wSE op h a b sub = wSR op ((0 : BitVec 3) ++ h) a b sub := rfl

@[simp] theorem opcode_wSE : (wSE op h a b sub).extractLsb' 24 8 = op := opcode_wSR ..
@[simp] theorem fa_wSE : fa (wSE op h a b sub) = a := fa_wSR ..
@[simp] theorem fb_wSE : fb (wSE op h a b sub) = b := fb_wSR ..
@[simp] theorem fg_wSE : fg (wSE op h a b sub) = sub := fg_wSR ..

theorem extract_wSE (start len : Nat) : (wSE op h a b sub).extractLsb' start len = (op ++ ((0 : BitVec 3) ++ h) ++ a ++ b ++ sub).extractLsb' start len := rfl

@[simp] theorem fh_wSE : fh (wSE op h a b sub) = true := by simp [fh, extract_wSE, field_above, field_below, -Nat.reduceAdd]
@[simp] theorem hreg_wSE : hreg (wSE op h a b sub) = h := by simp [hreg, extract_wSE, field_above, field_below, -Nat.reduceAdd]

end Handles

/-- The scope bit of a phaser word. -/
@[simp] theorem upper_wPh (p : Bool) : (wPh p).extractLsb' 1 2 = 0 := by cases p <;> rfl
@[simp] theorem bit_wPh (p : Bool) : (wPh p)[0] = p := by cases p <;> rfl

end Layouts

/-! ### Readers of the scalar map (R59, R61) -/

theorem reserve_true {α : Type} {ok : Bool} {k : Dec α} (h : ok = true) : reserve ok k = k := by rw [reserve, if_pos h]

section Readers
variable (op : BitVec 8) (d a b : SReg) (g : CReg) (imm : BitVec 10)

theorem rSR_wSR (mk : SReg → SReg → SReg → CReg → Instr) : rSR (wSR op d a b g) mk = .ok (mk d a b g, 1) := by simp [rSR]
theorem rSR2_wSR (mk : SReg → SReg → CReg → Instr) : rSR2 (wSR op d a 0 g) mk = .ok (mk d a g, 1) := by simp [rSR2, reserve]
theorem rA_wSR (mk : SReg → CReg → Instr) : rA (wSR op 0 a 0 g) mk = .ok (mk a g, 1) := by simp [rA, reserve]
theorem rG_wSR (mk : CReg → Instr) : rG (wSR op 0 0 0 g) mk = .ok (mk g, 1) := by simp [rG, reserve]
theorem rD_wSR (mk : SReg → Instr) : rD (wSR op d 0 0 0) mk = .ok (mk d, 1) := by simp [rD, reserve]
theorem rSI_wSI (mk : SReg → SReg → BitVec 10 → Instr) : rSI (wSI op d a imm) mk = .ok (mk d a imm, 1) := by simp [rSI]
theorem rPh_wSR {ok : Bool} (p : Bool) (mk : Bool → Instr) (h : ok = true) : rPh (wSR op d a b (wPh p)) ok mk = .ok (mk p, 1) := by
  simp [rPh, reserve, sub_wSR, bit_wSR, h]

theorem rSh_wSI (sh : BitVec 6) (mk : SReg → SReg → BitVec 6 → Instr) : rSh (wSI op d a ((0 : BitVec 4) ++ sh)) mk = .ok (mk d a sh, 1) := by
  have word (start len : Nat) : (wSI op d a (0#4 ++ sh)).extractLsb' start len = (op ++ d ++ a ++ (0#4 ++ sh)).extractLsb' start len := rfl
  simp [rSh, reserve, word, field_above, field_below, -Nat.reduceAdd]

theorem rCmp_wSC (cd : CReg) (rel : Rel) : rCmp (wSC op cd rel.code a (b ++ g)) = .ok (.scmp cd rel a b g, 1) := by
  have word (start len : Nat) : (wSC op cd rel.code a (b ++ g)).extractLsb' start len = (op ++ cd ++ rel.code ++ a ++ (b ++ g)).extractLsb' start len := rfl
  simp [rCmp, fa, fb, fg, word, field_above, field_below, -Nat.reduceAdd]

theorem rCmpI_wSC (cd : CReg) (rel : Rel) : rCmpI (wSC op cd rel.code a imm) = .ok (.scmpi cd rel a imm, 1) := by
  simp [rCmpI, fa, fimm, extract_wSC, field_above, field_below, -Nat.reduceAdd]

theorem rSB_wSB (n : Bool) (off : BitVec 20) (mk : CReg → Bool → BitVec 20 → Instr) : rSB (wSB op g n off) mk = .ok (mk g n off, 1) := by
  have bit : (wSB op g n off)[20] = (op ++ g ++ BitVec.ofBool n ++ off)[20] := rfl
  simp [rSB, extract_wSB, bit, BitVec.getElem_append, field_above, field_below, -Nat.reduceAdd]

theorem rHA_wSE (h : HReg) (mk : HReg → SReg → Instr) : rHA (wSE op h a 0 0) mk = .ok (mk h a, 1) := by simp [rHA, reserve]
theorem rH_wSE (h : HReg) (mk : HReg → Instr) : rH (wSE op h 0 0 0) mk = .ok (mk h, 1) := by simp [rH, reserve]

theorem rPhreg_wSR (m : PhMode) (p : Bool) : rPhreg (wSR op d a b (m.code ++ BitVec.ofBool p)) = .ok (.phreg d a b m p, 1) := by
  have bit : (wSR op d a b (m.code ++ BitVec.ofBool p))[0] = (op ++ d ++ a ++ b ++ (m.code ++ BitVec.ofBool p))[0] := rfl
  have word (start len : Nat) :
    (wSR op d a b (m.code ++ BitVec.ofBool p)).extractLsb' start len = (op ++ d ++ a ++ b ++ (m.code ++ BitVec.ofBool p)).extractLsb' start len := rfl
  simp [rPhreg, word, bit, BitVec.getElem_append, field_above, field_below, -Nat.reduceAdd]

theorem rFence_wSI (s : Scope) (k : FenceKind) : rFence (wSI op 0 0 ((0 : BitVec 5) ++ s.code ++ k.code)) = .ok (.sfence s k, 1) := by
  have word (start len : Nat) :
    (wSI op 0#7 0#7 (0#5 ++ s.code ++ k.code)).extractLsb' start len = (op ++ 0#7 ++ 0#7 ++ (0#5 ++ s.code ++ k.code)).extractLsb' start len := rfl
  simp [rFence, reserve, word, field_above, field_below, -Nat.reduceAdd]

/-- The second word of `satom` and `scas`. -/
theorem rSX_wSX (s : Scope) (o : Order) (e : SReg) (k : Scope → Order → SReg → Dec (Instr × Nat)) : rSX (some (wSX s o e)) k = k s o e := by
  have word (start len : Nat) : (wSX s o e).extractLsb' start len = (s.code ++ o.code ++ (0 : BitVec 20) ++ e).extractLsb' start len := rfl
  simp [rSX, reserve, word, field_above, field_below, -Nat.reduceAdd]

theorem rSatom_words (s : Scope) (o : Order) : rSatom (wSR op d a b g) (some (wSX s o 0)) = .ok (.satom d a b g s o, 2) := by
  simp [rSatom, rSX_wSX, reserve]

theorem rScas_words (s : Scope) (o : Order) (e : SReg) : rScas (wSR op d a b g) (some (wSX s o e)) = .ok (.scas d a b g s o e, 2) := by
  simp [rScas, rSX_wSX]

end Readers

/-! ### Words with a layout of their own (R37, R73, R100, R101, R103): `w` is a word with the fields of the concatenation -/

section OwnLayouts
variable {w : BitVec 32}

theorem scalarRaw_smovi {d : SReg} {imm : BitVec 17} (word : ∀ start len, w.extractLsb' start len = (0x27#8 ++ d ++ imm).extractLsb' start len) :
    scalarRaw w none = .ok (.smovi d imm, 1) := by
  have op : w.extractLsb' 24 8 = 0x27 := by simp [word, field_above, -Nat.reduceAdd]
  have hd : fd w = d := by simp [fd, word, field_above, field_below, -Nat.reduceAdd]
  have himm : w.extractLsb' 0 17 = imm := by simp [word, field_below, -Nat.reduceAdd]
  rw [scalarRaw, op]
  exact congrArg Except.ok (by rw [hd, himm])

theorem scalarRaw_sxcall {ov : BitVec 8} {e : BitVec 12} (word : ∀ start len, w.extractLsb' start len = (0x33#8 ++ ov ++ 0#4 ++ e).extractLsb' start len) :
    scalarRaw w none = .ok (.sxcall ov e, 1) := by
  have op : w.extractLsb' 24 8 = 0x33 := by simp [word, field_above, -Nat.reduceAdd]
  rw [scalarRaw, op]
  refine (reserve_true ?_).trans ?_ <;> simp [word, field_above, field_below, -Nat.reduceAdd]

theorem scalarRaw_lrun {off : BitVec 12} (word : ∀ start len, w.extractLsb' start len = (0x50#8 ++ 0#12 ++ off).extractLsb' start len) :
    scalarRaw w none = .ok (.lrun off, 1) := by
  have op : w.extractLsb' 24 8 = 0x50 := by simp [word, field_above, -Nat.reduceAdd]
  rw [scalarRaw, op]
  refine (reserve_true ?_).trans ?_ <;> simp [word, field_above, field_below, -Nat.reduceAdd]

theorem scalarRaw_swait {ld st cp tl : BitVec 6} (word : ∀ start len, w.extractLsb' start len = (0x54#8 ++ ld ++ st ++ cp ++ tl).extractLsb' start len) :
    scalarRaw w none = .ok (.swait ld st cp tl, 1) := by
  have op : w.extractLsb' 24 8 = 0x54 := by simp [word, field_above, -Nat.reduceAdd]
  have fields : w.extractLsb' 18 6 = ld ∧ w.extractLsb' 12 6 = st ∧ w.extractLsb' 6 6 = cp ∧ w.extractLsb' 0 6 = tl := by
    simp [word, field_above, field_below, -Nat.reduceAdd]
  obtain ⟨rfl, rfl, rfl, rfl⟩ := fields
  rw [scalarRaw, op]
  rfl

theorem scalarRaw_slit {d : SReg} {h : Bool} {l : BitVec 32}
    (word : ∀ start len, w.extractLsb' start len = (0xFF#8 ++ d ++ BitVec.ofBool h ++ 0#16).extractLsb' start len) : scalarRaw w (some l) = .ok (.slit d h l, 2) := by
  have op : w.extractLsb' 24 8 = 0xFF := by simp [word, field_above, -Nat.reduceAdd]
  have bit : w[16] = h := bit_of_field (by decide) (by simp [word, field_above, field_below, -Nat.reduceAdd])
  have slit : rSlit w (some l) = .ok (.slit d h l, 2) := by
    simp [rSlit, reserve, fd, word, bit, field_above, field_below, -Nat.reduceAdd]
  rw [scalarRaw, op]
  exact slit

theorem scalarRaw_svote {d : SReg} {q : BitVec 2} {g : CReg}
    (word : ∀ start len, w.extractLsb' start len = (0x53#8 ++ d ++ 0#7 ++ (0#5 ++ q) ++ g).extractLsb' start len) : scalarRaw w none = .ok (.svote d q g, 1) := by
  have op : w.extractLsb' 24 8 = 0x53 := by simp [word, field_above, -Nat.reduceAdd]
  rw [scalarRaw, op]
  refine (reserve_true ?_).trans ?_ <;> simp [fd, fa, fg, word, field_above, field_below, -Nat.reduceAdd]

theorem scalarRaw_cpy {h : HReg} {a b : SReg} {sub : BitVec 2}
    (word : ∀ start len, w.extractLsb' start len = (0x60#8 ++ (0#3 ++ h) ++ a ++ b ++ (0#1 ++ sub)).extractLsb' start len) :
    scalarRaw w none = .ok (.cpy h a b sub, 1) := by
  have op : w.extractLsb' 24 8 = 0x60 := by simp [word, field_above, -Nat.reduceAdd]
  have bit : w[2] = false := bit_of_field (by decide) (by simp [word, field_above, field_below, -Nat.reduceAdd])
  have top : (fg w)[2] = false := by simpa [fg] using bit
  rw [scalarRaw, op]
  refine (reserve_true ?_).trans ?_ <;> simp [fh, hreg, fa, fb, top, word, field_above, field_below, -Nat.reduceAdd]

theorem scalarRaw_cpyg {h : HReg} {a b : SReg} {glob : Bool}
    (word : ∀ start len, w.extractLsb' start len = (0x61#8 ++ (0#3 ++ h) ++ a ++ b ++ (0#2 ++ BitVec.ofBool glob)).extractLsb' start len) :
    scalarRaw w none = .ok (.cpyg h a b glob, 1) := by
  have bit : w[0] = glob := bit_of_field (by decide) (by simp [word, field_below, -Nat.reduceAdd])
  have op : w.extractLsb' 24 8 = 0x61 := by simp [word, field_above, -Nat.reduceAdd]
  rw [scalarRaw, op]
  refine (reserve_true ?_).trans ?_ <;> simp [fh, hreg, fa, fb, word, bit, field_above, field_below, -Nat.reduceAdd]

end OwnLayouts

/-! ### The round trip -/

/-- The words of `i` decode to `i`, and to no more than its words. -/
def ScalarReads (i : Instr) : Prop :=
  ∃ w rest, encodeScalar i = some (w :: rest) ∧ rest.length ≤ 1 ∧ decodeScalar w rest.head? = .ok (i, rest.length + 1)

theorem decodeScalar_of_raw {w : BitVec 32} {w2 : Option (BitVec 32)} {i : Instr} {n : Nat} (h : scalarRaw w w2 = .ok (i, n)) (hw : i.wf = true) :
    decodeScalar w w2 = .ok (i, n) := by simp [decodeScalar, h, hw]

theorem scalarReads_one {i : Instr} {w : BitVec 32} (he : encodeScalar i = some [w]) (hr : scalarRaw w none = .ok (i, 1)) (hw : i.wf = true) : ScalarReads i :=
  ⟨w, [], he, Nat.zero_le 1, decodeScalar_of_raw hr hw⟩

theorem scalarReads_two {i : Instr} {w x : BitVec 32} (he : encodeScalar i = some [w, x]) (hr : scalarRaw w (some x) = .ok (i, 2)) (hw : i.wf = true) :
    ScalarReads i :=
  ⟨w, [x], he, le_rfl, decodeScalar_of_raw hr hw⟩

theorem scalarReads {i : Instr} (hw : i.wf = true) (hs : isScalar i = true) : ScalarReads i := by
  cases i with
  | sadd d a b g | ssub d a b g | smul d a b g | smulh d a b g | smulhn d a b g | sand d a b g | sor d a b g | sxor d a b g | sshl d a b g | sshr d a b g
  | ssra d a b g | smin d a b g | smax d a b g | sminn d a b g | smaxn d a b g | ssel d a b g | sbfx d a b g | sbfi d a b g =>
    exact scalarReads_one rfl (by rw [scalarRaw, opcode_wSR]; exact rSR_wSR ..) hw
  | spopc d a g | sclz d a g | sctz d a g | smov d a g =>
    exact scalarReads_one rfl (by rw [scalarRaw, opcode_wSR]; exact rSR2_wSR ..) hw
  | sjmpr a g | sprog a g | lrunr a g =>
    exact scalarReads_one rfl (by rw [scalarRaw, opcode_wSR]; exact rA_wSR ..) hw
  | sret g | sexit g | syield g | snop g | lwait g | sbrk g =>
    exact scalarReads_one rfl (by rw [scalarRaw, opcode_wSR]; exact rG_wSR ..) hw
  | wsplit d | disp d =>
    exact scalarReads_one rfl (by rw [scalarRaw, opcode_wSR]; exact rD_wSR ..) hw
  | wupok | sndon | sndoff | actseal | actend | actabn | cmpok => exact scalarReads_one rfl rfl hw
  | saddi d a imm | sandi d a imm | sori d a imm | sxori d a imm | sldb d a imm | sldh d a imm | sldw d a imm | sldd d a imm | sstb d a imm | ssth d a imm
  | sstw d a imm | sstd d a imm =>
    exact scalarReads_one rfl (by rw [scalarRaw, opcode_wSI]; exact rSI_wSI ..) hw
  | phdrop | pharr | phaw | phwt | phqry =>
    exact scalarReads_one rfl (by rw [scalarRaw, opcode_wSR]; refine (rPh_wSR _ _ _ _ _ _ ?_).trans ?_ <;> simp) hw
  | phdrain | wret | actdep | cmpfail | scwp | stime | scyc =>
    exact scalarReads_one rfl (by rw [scalarRaw, opcode_wSR]; refine (reserve_true ?_).trans ?_ <;> simp) hw
  | sgetx | ssetx | strap | sloop =>
    exact scalarReads_one rfl (by rw [scalarRaw, opcode_wSI]; refine (reserve_true ?_).trans ?_ <;> simp) hw
  | dlqry | actopen =>
    exact scalarReads_one rfl (by rw [scalarRaw, opcode_wSR]; refine (reserve_true ?_).trans ?_ <;> simp [sub_wSR, bit_wSR]) hw
  | sshli d a sh | sshri d a sh | ssrai d a sh =>
    exact scalarReads_one rfl (by rw [scalarRaw, opcode_wSI]; exact rSh_wSI ..) hw
  | scmp cd rel a b g => exact scalarReads_one rfl (by rw [scalarRaw, opcode_wSC]; exact rCmp_wSC ..) hw
  | scmpi cd rel a imm => exact scalarReads_one rfl (by rw [scalarRaw, opcode_wSC]; exact rCmpI_wSC ..) hw
  | sbr g n off | scall g n off => exact scalarReads_one rfl (by rw [scalarRaw, opcode_wSB]; exact rSB_wSB ..) hw
  | cpy h a b s => exact scalarReads_one rfl (scalarRaw_cpy fun _ _ => rfl) hw
  | cpyg h a b s => exact scalarReads_one rfl (scalarRaw_cpyg fun _ _ => rfl) hw
  | cpyst | htest => exact scalarReads_one rfl (by rw [scalarRaw, opcode_wSE]; refine (reserve_true ?_).trans ?_ <;> simp) hw
  | ovld h a | hsend h a | hrecv h a => exact scalarReads_one rfl (by rw [scalarRaw, opcode_wSE]; exact rHA_wSE ..) hw
  | ovrel h | hwait h | hcancel h => exact scalarReads_one rfl (by rw [scalarRaw, opcode_wSE]; exact rH_wSE ..) hw
  | phreg d a b m p => exact scalarReads_one rfl (by rw [scalarRaw, opcode_wSR]; exact rPhreg_wSR ..) hw
  | svote d q g => exact scalarReads_one rfl (scalarRaw_svote fun _ _ => rfl) hw
  | sfence s k => exact scalarReads_one rfl (by rw [scalarRaw, opcode_wSI]; exact rFence_wSI ..) hw
  | stret k => exact scalarReads_one rfl (by rw [scalarRaw, opcode_wSI]; cases k <;> exact (reserve_true rfl).trans rfl) hw
  | smovi d imm => exact scalarReads_one rfl (scalarRaw_smovi fun _ _ => rfl) hw
  | sxcall ov e => exact scalarReads_one rfl (scalarRaw_sxcall fun _ _ => rfl) hw
  | lrun off => exact scalarReads_one rfl (scalarRaw_lrun fun _ _ => rfl) hw
  | swait ld st cp tl => exact scalarReads_one rfl (scalarRaw_swait fun _ _ => rfl) hw
  | satom d a b g s o => exact scalarReads_two rfl (by rw [scalarRaw, opcode_wSR]; exact rSatom_words ..) hw
  | scas d a b g s o e => exact scalarReads_two rfl (by rw [scalarRaw, opcode_wSR]; exact rScas_words ..) hw
  | slit d h l => exact scalarReads_two rfl (scalarRaw_slit fun _ _ => rfl) hw
  | _ => exact absurd hs Bool.false_ne_true

theorem isScalar_eq_isSome (i : Instr) : isScalar i = (encodeScalar i).isSome := by cases i <;> rfl

/-- Settles O51: each instruction's words through the reader of its layout. -/
theorem scalarWordsRoundTrip : Obligations.ScalarWordsRoundTrip := by
  refine fun i hw => ⟨scalarReads hw, fun hs => ?_⟩
  rwa [isScalar_eq_isSome, Option.isSome_eq_false_iff, Option.isNone_iff_eq_none] at hs

end Sys2Proof.Proofs
end

section
/-!
PROOFS. Lane words: packing, the operands and address modes of an encoded word, the readers of the lane map on the words of their shapes, and the round trip (R45 to R52, R62,
R82, R120 to R161).
-/

namespace Sys2Proof.Proofs
open Sys2Proof.Machine Sys2Proof.Claims Decode Encode

/-! ### Packing (R45) -/

theorem unpack_pack (f : LaneF) : LaneF.unpack f.pack = f := by
  have word (start len : Nat) : f.pack.extractLsb' start len =
    (f.op ++ BitVec.ofBool f.n ++ f.pg ++ f.d ++ f.a ++ f.b ++ f.bk ++ f.ty ++ f.mod ++ f.ext ++ f.imm).extractLsb' start len := rfl
  have bit : f.pack[85] = f.n := bit_of_field (by decide) (by simp [word, field_above, field_below, -Nat.reduceAdd])
  simp [LaneF.unpack, word, bit, field_above, field_below, -Nat.reduceAdd]

/-! ### Codes (R10, R49, R130, R142, R153, R156, R168) -/

@[simp] theorem ty_ofCode (x : Ty) : Ty.ofCode x.code = some x := by cases x <;> rfl
@[simp] theorem aKind_ofCode (x : AKind) : AKind.ofCode x.code = some x := by cases x <;> rfl
@[simp] theorem rKind_ofCode (x : RKind) : RKind.ofCode x.code = some x := by cases x <;> rfl
@[simp] theorem voteKind_ofCode (x : VoteKind) : VoteKind.ofCode x.code = some x := by cases x <;> rfl
@[simp] theorem act_ofCode (x : Act) : Act.ofCode x.code = some x := by cases x <;> rfl
@[simp] theorem combine_ofCode (x : Combine) : Combine.ofCode x.code = some x := by cases x <;> rfl

@[simp] theorem modf_ofCode (m : Modf) : Modf.ofCode m.code = some m := by
  obtain ⟨sat, rnd⟩ := m
  cases sat <;> cases rnd <;> rfl

/-! ### Fields that hold a register or tile number (R45) -/

@[simp] theorem isP_wP (p : PReg) : isP (wP p) = true := by
  have word (start len : Nat) : (wP p).extractLsb' start len = (0#7 ++ p).extractLsb' start len := rfl
  simp [isP, word, field_above, -Nat.reduceAdd]

@[simp] theorem preg_wP (p : PReg) : preg (wP p) = p := by
  have word (start len : Nat) : (wP p).extractLsb' start len = (0#7 ++ p).extractLsb' start len := rfl
  simp [preg, word, field_below, -Nat.reduceAdd]

@[simp] theorem isT_wT (t : BitVec 6) : isT (wT t) = true := by
  have word (start len : Nat) : (wT t).extractLsb' start len = (0#5 ++ t).extractLsb' start len := rfl
  simp [isT, word, field_above, -Nat.reduceAdd]

@[simp] theorem tile_wT (t : BitVec 6) : (wT t).extractLsb' 0 6 = t := by
  have word : (wT t).extractLsb' 0 6 = (0#5 ++ t).extractLsb' 0 6 := rfl
  simp [word, field_below, -Nat.reduceAdd]

@[simp] theorem isS_wS (r : SReg) : isS (wS r) = true := by
  have word (start len : Nat) : (wS r).extractLsb' start len = (0#4 ++ r).extractLsb' start len := rfl
  simp [isS, word, field_above, -Nat.reduceAdd]

@[simp] theorem sreg_wS (r : SReg) : sreg (wS r) = r := by
  have word (start len : Nat) : (wS r).extractLsb' start len = (0#4 ++ r).extractLsb' start len := rfl
  simp [sreg, word, field_below, -Nat.reduceAdd]

/-! ### Operands (R46) -/

@[simp] theorem opB_setB (f : LaneF) (o : Opnd) : opB (setB f o) = some o := by
  cases o <;> simp [opB, setB]

/-- Operand b that is no immediate, whatever imm32 holds. -/
theorem opBx_setB (f : LaneF) {t : Ty} {o : Opnd} (h : Wf.opndC t o = true) {x : BitVec 32} {e : BitVec 6} : opBx { setB f o with ext := e, imm := x } = some o := by
  cases o with
  | v r => simp [opBx, setB]
  | s r => simp [opBx, setB]
  | imm x => cases h

theorem opC_wC {t : Ty} {o : Opnd} (h : Wf.opndC t o = true) : opC (wC o) = some o := by
  cases o with
  | v r =>
    have word (start len : Nat) : (wC (.v r)).extractLsb' start len = (0#19 ++ 0#2 ++ r).extractLsb' start len := rfl
    simp [opC, word, field_above, field_below, -Nat.reduceAdd]
  | s r =>
    have word (start len : Nat) : (wC (.s r)).extractLsb' start len = (0#19 ++ 1#2 ++ 0#4 ++ r).extractLsb' start len := rfl
    simp [opC, word, field_above, field_below, -Nat.reduceAdd]
  | imm x => cases h

@[simp] theorem opCs_wC (r : SReg) : opCs (wC (.s r)) = some r := by
  rw [opCs, opC_wC (t := .i32) rfl]

/-! ### Address modes (R134, R135) -/

@[simp] theorem amode_setMode (f : LaneF) (m : AMode) : amode (setMode f m) = some m := by
  cases m with
  | contig sb =>
    have word : (setMode f (.contig sb)).ext.extractLsb' 4 2 = (0#2 ++ f.ext.extractLsb' 0 4).extractLsb' 4 2 := rfl
    rw [amode, word, field_above _ _ le_rfl]
    simp [setMode]
  | indexed sb va =>
    have word : (setMode f (.indexed sb va)).ext.extractLsb' 4 2 = (1#2 ++ f.ext.extractLsb' 0 4).extractLsb' 4 2 := rfl
    rw [amode, word, field_above _ _ le_rfl]
    simp [setMode]
  | pointer va =>
    have word : (setMode f (.pointer va)).ext.extractLsb' 4 2 = (2#2 ++ f.ext.extractLsb' 0 4).extractLsb' 4 2 := rfl
    rw [amode, word, field_above _ _ le_rfl]
    simp [setMode]

/-- The low bits of ext beside an address mode. -/
@[simp] theorem ext_setMode (f : LaneF) (m : AMode) : (setMode f m).ext.extractLsb' 0 4 = f.ext.extractLsb' 0 4 := by
  have low (x : BitVec 2) : (x ++ f.ext.extractLsb' 0 4).extractLsb' 0 4 = f.ext.extractLsb' 0 4 := by rw [field_below _ _ le_rfl, BitVec.extractLsb'_eq_self]
  cases m <;> exact low _

/-- What an address mode leaves of a word. -/
theorem setMode_frame (f : LaneF) (m : AMode) :
    setMode f m = { f with a := (setMode f m).a, b := (setMode f m).b, bk := (setMode f m).bk, ext := (setMode f m).ext } := by
  cases m <;> rfl

/-- What operand b leaves of a word. -/
theorem setB_frame (f : LaneF) (o : Opnd) : setB f o = { f with b := (setB f o).b, bk := (setB f o).bk, imm := (setB f o).imm } := by
  cases o <;> rfl

/-- ext and operand b are set in either order. -/
theorem setB_ext (f : LaneF) (e : BitVec 6) (o : Opnd) : { setB f o with ext := e } = setB { f with ext := e } o := by cases o <;> rfl

@[simp] theorem immFree_setB (f : LaneF) (o : Opnd) (h : f.imm = 0) : immFree (setB f o) = true := by
  cases o <;> simp [immFree, setB, h]

/-! ### Readers of the lane map (R62) -/

theorem uUn_wUn (op : BitVec 10) (w : Un) (mk : Un → Instr) : uUn (wUn op w) mk = .ok (mk w) := by
  simp [uUn, wUn, base, reserve, gd]

theorem uBin_wBin (op : BitVec 10) (w : Bin) (mk : Bin → Instr) : uBin (wBin op w) mk = .ok (mk w) := by
  rw [uBin, wBin, opB_setB, immFree_setB _ _ rfl, setB_frame]
  simp [base, reserve, gd]

theorem uTer_wTer (op : BitVec 10) (w : Ter) (mk : Ter → Instr) (hb : Wf.opndC w.ty w.b = true) (hc : Wf.opndC w.ty w.c = true) :
    uTer (wTer op w) mk = .ok (mk w) := by
  have b : opBx (wTer op w) = some w.b := opBx_setB { base op w.g with d := w.d, a := w.a, ty := w.ty.code, mod := w.m.code } hb
  rw [uTer, b, wTer, setB_frame]
  simp [base, reserve, gd, opC_wC hc]

theorem uCvt_wCvt (op : BitVec 10) (w : Cvt) (mk : Cvt → Instr) : uCvt (wCvt op w) mk = .ok (mk w) := by
  have word (start len : Nat) : (0#2 ++ w.src.code : BitVec 6).extractLsb' start len = (0#2 ++ w.src.code).extractLsb' start len := rfl
  simp [uCvt, wCvt, base, reserve, gd, word, field_above, field_below, -Nat.reduceAdd]

theorem uCmp_wCmp (w : CmpL) : uCmp (wCmp w) = .ok (.vcmp w) := by
  have word (start len : Nat) : (w.comb.code ++ w.rel.code : BitVec 6).extractLsb' start len = (w.comb.code ++ w.rel.code).extractLsb' start len := rfl
  rw [uCmp, wCmp, opB_setB, immFree_setB _ _ rfl, setB_frame]
  simp [base, reserve, gd, word, field_above, field_below, -Nat.reduceAdd]

theorem uPLog_wPLog (op : BitVec 10) (w : PLog) (mk : PLog → Instr) : uPLog (wPLog op w) mk = .ok (mk w) := by
  simp [uPLog, wPLog, wPreds, base, reserve, gd]

theorem uPNot_wPreds (g : LGuard) (pd pa : PReg) : uPNot (wPreds 0x108 g pd pa) = .ok (.vpnot g pd pa) := by
  simp [uPNot, wPreds, base, reserve, gd]

theorem uSel_wSel (w : SelL) : uSel (wSel w) = .ok (.vsel w) := by
  have word (start len : Nat) : (0#1 ++ BitVec.ofBool w.inv ++ w.q : BitVec 6).extractLsb' start len = (0#1 ++ BitVec.ofBool w.inv ++ w.q).extractLsb' start len := rfl
  have top : (0#1 ++ BitVec.ofBool w.inv ++ w.q : BitVec 6)[5] = false := bit_of_field (by decide) (by simp [field_above, -Nat.reduceAdd])
  have inv : (0#1 ++ BitVec.ofBool w.inv ++ w.q : BitVec 6)[4] = w.inv := bit_of_field (by decide) (by simp [field_above, field_below, -Nat.reduceAdd])
  rw [uSel, wSel, opB_setB, immFree_setB _ _ rfl, setB_frame]
  simp [base, reserve, gd, word, top, inv, field_below, -Nat.reduceAdd]

theorem uMov_wMov (g : LGuard) (ty : Ty) (d : VReg) (b : Opnd) (hb : Wf.opndC ty b = true) : uMov (wMov g ty d b) = .ok (.vmov g ty d b) := by
  cases b with
  | v r => simp [uMov, wMov, setB, opBx, base, reserve, gd]
  | s r => simp [uMov, wMov, setB, opBx, base, reserve, gd]
  | imm x => cases hb

theorem uMovi_word (g : LGuard) (ty : Ty) (d : VReg) (x : Elem) :
    uMovi { base 0x10A g with d := d, bk := 2, ty := ty.code, imm := x } = .ok (.vmovi g ty d x) := by
  simp [uMovi, base, reserve, gd]

/-- A word with only its registers set. -/
theorem uPlain_word {op : BitVec 10} {g : LGuard} {d a : BitVec 11} {ok : Bool} {i j : Instr} (h : ok = true) (hi : i = j) :
    uPlain { base op g with d := d, a := a } ok i = .ok j := by
  simp [uPlain, base, reserve, h, hi]

theorem uMem_wMem (op : BitVec 10) (w : MemL) (mk : MemL → Instr) : uMem (wMem op w) mk = .ok (mk w) := by
  rw [uMem, wMem, amode_setMode, ext_setMode, setMode_frame]
  simp [base, reserve, gd]

/-- A word whose upper 19 bits are zero is its lower 13 bits. -/
theorem setWidth_extract_of_upper {x : BitVec 32} (h : x.extractLsb' 13 19 = 0) : (x.extractLsb' 0 13).setWidth 32 = x := by
  have hx : x.toNat < 2 ^ 32 := x.isLt
  have hu : x.toNat / 2 ^ 13 % 2 ^ 19 = 0 := by simpa [BitVec.extractLsb'_toNat, Nat.shiftRight_eq_div_pow] using congrArg BitVec.toNat h
  apply BitVec.eq_of_toNat_eq
  simp only [BitVec.toNat_setWidth, BitVec.extractLsb'_toNat, Nat.shiftRight_zero]
  omega

theorem upper_wC (o : Opnd) : (wC o).extractLsb' 13 19 = 0 := by
  cases o with
  | v r =>
    have word : (wC (.v r)).extractLsb' 13 19 = (0#19 ++ 0#2 ++ r).extractLsb' 13 19 := rfl
    simp [word, field_above, -Nat.reduceAdd]
  | s r =>
    have word : (wC (.s r)).extractLsb' 13 19 = (0#19 ++ 1#2 ++ 0#4 ++ r).extractLsb' 13 19 := rfl
    simp [word, field_above, -Nat.reduceAdd]
  | imm x => simp [wC]

theorem uAtom_wAtom (op : BitVec 10) (w : AtomL) (mk : AtomL → Instr) (hc : Wf.opndC w.ty w.c = true) : uAtom (wAtom op w) mk = .ok (mk w) := by
  have kind : (0#2 ++ w.kind.code : BitVec 6).extractLsb' 0 4 = (0#2 ++ w.kind.code).extractLsb' 0 4 := rfl
  have word (start len : Nat) : (w.scope.code ++ w.order.code ++ 0#14 ++ (wC w.c).extractLsb' 0 13 : BitVec 32).extractLsb' start len =
    (w.scope.code ++ w.order.code ++ 0#14 ++ (wC w.c).extractLsb' 0 13).extractLsb' start len := rfl
  have c : opC (((wC w.c).extractLsb' 0 13).setWidth 32) = some w.c := by rw [setWidth_extract_of_upper (upper_wC _), opC_wC hc]
  rw [uAtom, wAtom, amode_setMode, ext_setMode, setMode_frame]
  simp [base, reserve, gd, kind, word, c, field_above, field_below, -Nat.reduceAdd]

theorem uShift_wShift (op : BitVec 10) (w : ShiftL) (mk : ShiftL → Instr) (h : Wf.shift w = true) : uShift (wShift op w) mk = .ok (mk w) := by
  obtain ⟨g, ty, d, a, count, fill⟩ := w
  cases fill with
  | zero =>
    simp only [uShift, wShift]
    rw [opB_setB, immFree_setB _ _ rfl, setB_frame]
    simp [base, reserve, gd]
  | keep =>
    simp only [uShift, wShift, setB_ext]
    rw [opB_setB, immFree_setB _ _ rfl, setB_frame]
    simp [base, reserve, gd]
  | rot =>
    simp only [uShift, wShift, setB_ext]
    rw [opB_setB, immFree_setB _ _ rfl, setB_frame]
    simp [base, reserve, gd]
  | c x =>
    cases count with
    | s r =>
      have hx : Wf.opndC ty x = true := by simp_all [Wf.shift]
      simp [uShift, wShift, setB, opBx, base, reserve, gd, opC_wC hx]
    | v r => simp [Wf.shift] at h
    | imm y => simp [Wf.shift] at h

theorem uPerm_wPerm (op : BitVec 10) (w : PermL) (mk : PermL → Instr) : uPerm (wPerm op w) mk = .ok (mk w) := by
  rw [uPerm, wPerm, opB_setB, immFree_setB _ _ rfl, setB_frame]
  simp [base, reserve, gd]

theorem uRed_wRed (op : BitVec 10) (w : RedL) (mk : RedL → Instr) : uRed (wRed op w) mk = .ok (mk w) := by
  have ext (start len : Nat) : (0#2 ++ BitVec.ofBool w.ex ++ w.kind.code : BitVec 6).extractLsb' start len = (0#2 ++ BitVec.ofBool w.ex ++ w.kind.code).extractLsb' start len := rfl
  have ex : (0#2 ++ BitVec.ofBool w.ex ++ w.kind.code : BitVec 6)[3] = w.ex := bit_of_field (by decide) (by simp [field_above, field_below, -Nat.reduceAdd])
  have sat : (0#1 ++ BitVec.ofBool w.sat ++ 0#2 : BitVec 4)[2] = w.sat := bit_of_field (by decide) (by simp [field_above, field_below, -Nat.reduceAdd])
  have other : (0#1 ++ BitVec.ofBool w.sat ++ 0#2 : BitVec 4) &&& 11#4 = 0 := by cases w.sat <;> rfl
  simp [uRed, wRed, base, reserve, gd, ext, ex, sat, other, field_above, field_below, -Nat.reduceAdd]

theorem uVote_wVote (g : LGuard) (k : VoteKind) (pd pa : PReg) : uVote { wPreds 0x1C6 g pd pa with ext := (0 : BitVec 4) ++ k.code } = .ok (.vvote g k pd pa) := by
  have word (start len : Nat) : (0#4 ++ k.code : BitVec 6).extractLsb' start len = (0#4 ++ k.code).extractLsb' start len := rfl
  simp [uVote, wPreds, base, reserve, gd, word, field_above, field_below, -Nat.reduceAdd]

theorem uMma_wMma (op : BitVec 10) (w : MmaL) (mk : MmaL → Instr) : uMma (wMma op w) mk = .ok (mk w) := by
  simp [uMma, wMma, base, reserve, gd]

theorem uMepi_wMepi (w : MepiL) (h : Wf.mepi w = true) : uMepi (wMepi w) = .ok (.mepi w) := by
  have ext (start len : Nat) : (wMepi w).ext.extractLsb' start len =
    (BitVec.ofBool w.glob ++ BitVec.ofBool w.add ++ w.act.code ++ BitVec.ofBool w.sb ++ BitVec.ofBool w.int).extractLsb' start len := rfl
  have glob : (wMepi w).ext[5] = w.glob := bit_of_field (by decide) (by simp [ext, field_above, -Nat.reduceAdd])
  have add : (wMepi w).ext[4] = w.add := bit_of_field (by decide) (by simp [ext, field_above, field_below, -Nat.reduceAdd])
  have sb : (wMepi w).ext[1] = w.sb := bit_of_field (by decide) (by simp [ext, field_above, field_below, -Nat.reduceAdd])
  have int : (wMepi w).ext[0] = w.int := bit_of_field (by decide) (by simp [ext, field_below, -Nat.reduceAdd])
  have act : (wMepi w).ext.extractLsb' 2 2 = w.act.code := by simp [ext, field_above, field_below, -Nat.reduceAdd]
  rw [uMepi, reserve_true (by simp [wMepi, base])]
  have ty : Ty.ofCode (wMepi w).ty = some w.ty := ty_ofCode _
  have mod : Modf.ofCode (wMepi w).mod = some w.m := modf_ofCode _
  have tile : (wMepi w).d.extractLsb' 0 6 = w.tile := tile_wT _
  have basereg : sreg (wMepi w).b = w.base := sreg_wS _
  have guard : gd (wMepi w) = w.g := rfl
  have bk : (wMepi w).bk = 1 := rfl
  by_cases hp : w.sb = true ∨ w.act = .clamp
  · have imm : (wMepi w).imm = wC (.s w.par) := by simp [wMepi, hp]
    simp [ty, mod, glob, add, sb, int, act, tile, basereg, bk, guard, imm, hp]
  · have par : w.par = 0 := by simp_all [Wf.mepi]
    have imm : (wMepi w).imm = 0 := by simp [wMepi, hp]
    simp [ty, mod, glob, add, sb, int, act, tile, basereg, bk, guard, reserve, imm, hp, ← par]

theorem uMtrd_word (g : LGuard) (d : VReg) (t : BitVec 6) (c : BitVec 5) :
    uMtrd { base 0x204 g with d := d, a := wT t, ext := (0 : BitVec 1) ++ c } = .ok (.mtrd g d t c) := by
  have word (start len : Nat) : (0#1 ++ c : BitVec 6).extractLsb' start len = (0#1 ++ c).extractLsb' start len := rfl
  have top : (0#1 ++ c : BitVec 6)[5] = false := bit_of_field (by decide) (by simp [field_above, -Nat.reduceAdd])
  simp [uMtrd, base, reserve, gd, word, top, field_below, -Nat.reduceAdd]

theorem uDist_wDist (w : DistL) : uDist (wDist w) = .ok (.vdist w) := by
  have word (start len : Nat) : (0#5 ++ BitVec.ofBool w.l2 : BitVec 6).extractLsb' start len = (0#5 ++ BitVec.ofBool w.l2).extractLsb' start len := rfl
  have bit : (0#5 ++ BitVec.ofBool w.l2 : BitVec 6)[0] = w.l2 := bit_of_field (by decide) (by simp [field_below, -Nat.reduceAdd])
  simp [uDist, wDist, base, reserve, gd, word, bit, field_above, -Nat.reduceAdd]

theorem uTopk_word (g : LGuard) (a b : VReg) (l : SReg) :
    uTopk { base 0x206 g with a := a, b := b, ty := 2, imm := wC (.s l) } = .ok (.topk g a b l) := by
  simp [uTopk, base, reserve, gd]

theorem uTopkm_word (g : LGuard) (d s : SReg) :
    uTopkm { base 0x207 g with b := wS s, bk := 1, imm := wC (.s d) } = .ok (.topkm g d s) := by
  simp [uTopkm, base, reserve, gd]

/-- A lane control word: nothing set but its guard and imm32. -/
theorem uCtl_word {f : LaneF} {op : BitVec 10} {g : LGuard} {guarded : Bool} {ok : BitVec 32 → Bool} {i j : Instr} (hf : f = { base op g with imm := f.imm })
    (hg : guarded = true ∨ g = noGuard) (hx : ok f.imm = true) (hi : i = j) : uCtl f guarded ok i = .ok j := by
  have hg' : guarded = true ∨ g.pg = 0 ∧ g.inv = false := hg.imp_right fun e => by rw [e]; exact ⟨rfl, rfl⟩
  rw [hf, uCtl, reserve_true (by simpa [base, hx] using hg'), hi]

/-! ### Opcodes of words whose operand b or address mode is of several kinds -/

@[simp] theorem op_setB (f : LaneF) (o : Opnd) : (setB f o).op = f.op := by cases o <;> rfl
@[simp] theorem op_setMode (f : LaneF) (m : AMode) : (setMode f m).op = f.op := by cases m <;> rfl

theorem op_wBin (op : BitVec 10) (w : Bin) : (wBin op w).op = op := op_setB _ _
theorem op_wTer (op : BitVec 10) (w : Ter) : (wTer op w).op = op := op_setB _ _
theorem op_wMem (op : BitVec 10) (w : MemL) : (wMem op w).op = op := op_setMode _ _
theorem op_wAtom (op : BitVec 10) (w : AtomL) : (wAtom op w).op = op := op_setMode _ _
theorem op_wPerm (op : BitVec 10) (w : PermL) : (wPerm op w).op = op := op_setB _ _

theorem op_wShift (op : BitVec 10) (w : ShiftL) : (wShift op w).op = op := by
  unfold wShift
  split <;> exact op_setB _ _

/-! ### The round trip -/

/-- The word of `i` decodes to `i`. -/
def LaneReads (i : Instr) : Prop := ∃ w, encodeLane i = some w ∧ decodeLane w = .ok i

theorem laneReads_of {i : Instr} {f : LaneF} (he : encodeLaneF i = some f) (hr : laneRaw f = .ok i) (hw : i.wf = true) : LaneReads i := by
  refine ⟨f.pack, by rw [encodeLane, he, Option.map_some], ?_⟩
  rw [decodeLane, unpack_pack, decodeLaneF, hr]
  exact if_pos hw

/-- The registers of a well-formed three-operand word are no immediates. -/
theorem opndC_of_terRegs {w : Ter} {p : Bool} (h : (Wf.terRegs w && p) = true) : Wf.opndC w.ty w.b = true ∧ Wf.opndC w.ty w.c = true := by
  simp only [Wf.terRegs, Bool.and_eq_true] at h
  exact ⟨h.1.1.2, h.1.2⟩

theorem opndC_of_atom {w : AtomL} (h : Wf.atom w = true) : Wf.opndC w.ty w.c = true := (Bool.and_eq_true_iff.1 h).2

theorem laneReads {i : Instr} (hw : i.wf = true) (hl : isLane i = true) : LaneReads i := by
  cases i with
  | vadd w | vsub w | vmul w | vmulh w | vand w | vor w | vxor w | vshl w | vshr w | vsra w | vmin w | vmax w | vbfx w | vbfi w | vfadd w | vfsub w | vfmul w
  | vfmin w | vfmax w | vfdiv w | vfscl w =>
    exact laneReads_of rfl (by rw [laneRaw, op_wBin]; exact uBin_wBin ..) hw
  | vnot w | vabs w | vneg w | vclz w | vpopc w | vbrev w | vfabs w | vfneg w | vfrcp w | vfrsq w | vfsqrt w | vfex2 w | vflg2 w | vfsin w | vfcos w | vfrnd w
  | vfcls w => exact laneReads_of rfl (uUn_wUn ..) hw
  | vmad w =>
    obtain ⟨hb, hc⟩ := opndC_of_terRegs (Bool.and_eq_true_iff.1 hw).1
    exact laneReads_of rfl (by rw [laneRaw, op_wTer]; exact uTer_wTer _ _ _ hb hc) hw
  | vaddmin w | vaddmax w | vfma w =>
    obtain ⟨hb, hc⟩ := opndC_of_terRegs hw
    exact laneReads_of rfl (by rw [laneRaw, op_wTer]; exact uTer_wTer _ _ _ hb hc) hw
  | vcvt w | vpack w | vunpk w => exact laneReads_of rfl (uCvt_wCvt ..) hw
  | vcmp w => exact laneReads_of rfl (by rw [laneRaw, wCmp, op_setB, ← wCmp]; exact uCmp_wCmp ..) hw
  | vsel w => exact laneReads_of rfl (by rw [laneRaw, wSel, op_setB, ← wSel]; exact uSel_wSel ..) hw
  | vpand w | vpor w | vpxor w => exact laneReads_of rfl (uPLog_wPLog ..) hw
  | vpnot g pd pa => exact laneReads_of rfl (uPNot_wPreds ..) hw
  | vmov g ty d b => exact laneReads_of rfl (by rw [laneRaw, wMov, op_setB, ← wMov]; exact uMov_wMov _ _ _ _ (Bool.and_eq_true_iff.1 hw).2) hw
  | vmovi g ty d x => exact laneReads_of rfl (uMovi_word ..) hw
  | vlaneid g d => exact laneReads_of rfl (uPlain_word rfl rfl) hw
  | vp2v g d pa => exact laneReads_of rfl (uPlain_word (isP_wP pa) (congrArg _ (preg_wP pa))) hw
  | vv2p g pd a => exact laneReads_of rfl (uPlain_word (isP_wP pd) (by rw [preg_wP]; rfl)) hw
  | vld w | vst w | vlds w | vsts w | vldsf w | vstsf w | vldsp w | vprf w | vldx w | vstx w =>
    exact laneReads_of rfl (by rw [laneRaw, op_wMem]; exact uMem_wMem ..) hw
  | vatom w => exact laneReads_of rfl (by rw [laneRaw, op_wAtom]; exact uAtom_wAtom _ _ _ (opndC_of_atom hw)) hw
  | vatoms w => exact laneReads_of rfl (by rw [laneRaw, op_wAtom]; exact uAtom_wAtom _ _ _ (opndC_of_atom (Bool.and_eq_true_iff.1 hw).1)) hw
  | vcas w => exact laneReads_of rfl (by rw [laneRaw, op_wAtom]; exact uAtom_wAtom _ _ _ (opndC_of_atom (Bool.and_eq_true_iff.1 (Bool.and_eq_true_iff.1 hw).1).1)) hw
  | vshup w | vshdn w => exact laneReads_of rfl (by rw [laneRaw, op_wShift]; exact uShift_wShift _ _ _ hw) hw
  | vperm w | vbcast w => exact laneReads_of rfl (by rw [laneRaw, op_wPerm]; exact uPerm_wPerm ..) hw
  | vred w | vscan w => exact laneReads_of rfl (uRed_wRed ..) hw
  | vvote g k pd pa => exact laneReads_of rfl (uVote_wVote ..) hw
  | velect g pd => exact laneReads_of rfl (uPlain_word (by rw [Bool.and_eq_true_iff]; exact ⟨isP_wP pd, rfl⟩) (congrArg _ (preg_wP pd))) hw
  | mma w | mmas w => exact laneReads_of rfl (uMma_wMma ..) hw
  | mzero g t => exact laneReads_of rfl (uPlain_word (by rw [Bool.and_eq_true_iff]; exact ⟨isT_wT t, rfl⟩) (congrArg _ (tile_wT t))) hw
  | mepi w => exact laneReads_of rfl (uMepi_wMepi w hw) hw
  | mtrd g d t c => exact laneReads_of rfl (uMtrd_word ..) hw
  | vdist w => exact laneReads_of rfl (uDist_wDist w) hw
  | topk g a b l => exact laneReads_of rfl (uTopk_word ..) hw
  | topkm g d s => exact laneReads_of rfl (uTopkm_word ..) hw
  | lrec | lend | lret | lpack | lnop => exact laneReads_of rfl rfl hw
  | lexit g => exact laneReads_of rfl (uCtl_word rfl (.inl rfl) rfl rfl) hw
  | ljmp t | lcall t =>
    have word (start len : Nat) : (0#20 ++ t : BitVec 32).extractLsb' start len = (0#20 ++ t).extractLsb' start len := rfl
    refine laneReads_of rfl ?_ hw
    rw [laneRaw]
    change uCtl _ _ _ _ = _
    refine uCtl_word rfl (.inr rfl) ?_ ?_ <;> simp [word, field_above, field_below, -Nat.reduceAdd]
  | lbr g t rc =>
    have word (start len : Nat) : (0#4 ++ rc ++ 0#4 ++ t : BitVec 32).extractLsb' start len = (0#4 ++ rc ++ 0#4 ++ t).extractLsb' start len := rfl
    refine laneReads_of rfl ?_ hw
    rw [laneRaw]
    change uCtl _ _ _ _ = _
    refine uCtl_word rfl (.inl rfl) ?_ ?_ <;> simp [word, gd, base, field_above, field_below, -Nat.reduceAdd]
  | lwaitc ld st cp tl =>
    have word (start len : Nat) : (0#8 ++ ld ++ st ++ cp ++ tl : BitVec 32).extractLsb' start len = (0#8 ++ ld ++ st ++ cp ++ tl).extractLsb' start len := rfl
    refine laneReads_of rfl ?_ hw
    rw [laneRaw]
    change uCtl _ _ _ _ = _
    refine uCtl_word rfl (.inr rfl) ?_ ?_ <;> simp [word, field_above, field_below, -Nat.reduceAdd]
  | ltrap g c =>
    have word (start len : Nat) : (0#22 ++ c : BitVec 32).extractLsb' start len = (0#22 ++ c).extractLsb' start len := rfl
    refine laneReads_of rfl ?_ hw
    rw [laneRaw]
    change uCtl _ _ _ _ = _
    refine uCtl_word rfl (.inl rfl) ?_ ?_ <;> simp [word, gd, base, field_above, field_below, -Nat.reduceAdd]
  | _ => exact absurd hl Bool.false_ne_true

theorem isLane_eq_isSome (i : Instr) : isLane i = (encodeLane i).isSome := by cases i <;> rfl

/-- Settles O52: each instruction's word through the reader of its shape. -/
theorem laneWordsRoundTrip : Obligations.LaneWordsRoundTrip := by
  refine fun i hw => ⟨laneReads hw, fun hs => ?_⟩
  rwa [isLane_eq_isSome, Option.isSome_eq_false_iff, Option.isNone_iff_eq_none] at hs

end Sys2Proof.Proofs
end

section
/-!
PROOFS. Scalar immediates, literals and compares (R52, R53, R100 to R102).
-/

namespace Sys2Proof.Proofs
open Sys2Proof.Machine Sys2Proof.Claims

/-! ### Guarded scalar words as the statements have them (R43, R53) -/

/-- The model's guard test is the guard of R53. -/
theorem guardOk_eq_true_iff (G : Group) (gd : CReg) : guardOk G gd = true ↔ Holds G gd := by
  simp [guardOk, Group.rc, Holds]

section
variable {s : State} {g : Nat} {G : Group}

/-- An instruction that changes the group to `f G = E` under its guard and moves the pc past its `n` words. -/
theorem guarded_of_scalarStep (hs : Scalar s g G) {i : Instr} {gd : CReg} {n : Nat} {f : Group → Group} {E : Group}
    (hi : exec i s = scalarStep s n gd f) (hf : f G = E) : Guarded i gd n s g G E := by
  obtain ⟨ht, hg⟩ := hs
  rw [scalarStep_of ht hg, hf] at hi
  refine ⟨fun h => ?_, fun h => ?_⟩
  · rwa [if_pos ((guardOk_eq_true_iff G gd).2 h)] at hi
  · rwa [if_neg (mt (guardOk_eq_true_iff G gd).1 h)] at hi

/-- An instruction without a guard field that changes the group to `f G = E` and moves the pc past its `n` words. -/
theorem becomes_of_scalarStep (hs : Scalar s g G) {i : Instr} {n : Nat} {f : Group → Group} {E : Group}
    (hi : exec i s = scalarStep s n 0 f) (hf : f G = E) : Becomes i s g (past E n) := by
  obtain ⟨ht, hg⟩ := hs
  rwa [scalarStep_zero ht hg, hf] at hi

/-- An unguarded instruction of `n` words that writes `f G = r` to `s_d`. -/
theorem becomes_of_write (hs : Scalar s g G) {i : Instr} {n : Nat} {d : SReg} {f : Group → Word} {r : Word}
    (hi : exec i s = scalarStep s n 0 fun G => G.ws d (f G)) (hr : f G = r) : Becomes i s g (past (G.ws d r) n) :=
  becomes_of_scalarStep hs hi (congrArg (G.ws d) hr)

end

/-! ### The values of the rows (R52, R100 to R102) -/

/-- imm10 is sign-extended. -/
theorem imm10_eq (x : BitVec 10) : imm10 x = BitVec.ofInt 64 x.toInt := rfl

theorem shiftLeft_eq_mul (x : Word) (n : Nat) : x <<< n = BitVec.ofNat 64 (x.toNat * 2 ^ n) := by
  apply BitVec.eq_of_toNat_eq
  simp [Nat.shiftLeft_eq]

theorem ushiftRight_eq_div (x : Word) (n : Nat) : x >>> n = BitVec.ofNat 64 (x.toNat / 2 ^ n) := by
  apply BitVec.eq_of_toNat_eq
  rw [BitVec.toNat_ushiftRight, Nat.shiftRight_eq_div_pow, BitVec.toNat_ofNat]
  exact (Nat.mod_eq_of_lt ((Nat.div_le_self _ _).trans_lt x.isLt)).symm

theorem sshiftRight_eq_div (x : Word) (n : Nat) : x.sshiftRight n = BitVec.ofInt 64 (x.toInt / 2 ^ n) := by
  rw [BitVec.sshiftRight, Int.shiftRight_eq_div_pow]
  norm_cast

/-- The high literal stands above the low half of the register (R101). -/
theorem highLiteral_eq (lit : BitVec 32) (x : Word) :
    (lit ++ x.truncate 32 : Word) = BitVec.ofNat 64 (2 ^ 32 * lit.toNat + x.toNat % 2 ^ 32) := by
  apply BitVec.eq_of_toNat_eq
  have hl := lit.isLt
  rw [BitVec.toNat_append, BitVec.toNat_ofNat, BitVec.truncate_eq_setWidth, BitVec.toNat_setWidth, Nat.shiftLeft_eq, mul_comm,
    ← Nat.two_pow_add_eq_or_of_lt (Nat.mod_lt _ (by decide))]
  omega

/-- The scalar compares are the column of R52, where it has a relation. -/
theorem relWord_of_scalarRel {r : Rel} {x y : Word} {v : Bool} (h : scalarRel r x y = some v) : relWord r x y = v := by
  cases r <;> simp only [scalarRel, Option.some.injEq, reduceCtorEq] at h <;> subst h <;>
    simp [relWord, relInt, BitVec.toInt_inj, bne, beq_eq_decide]

/-! ### The immediates, the literals and the compares (R100 to R102) -/

/-- The rows of R100 and R101. -/
theorem scalarImmediates : Claims.ScalarImmediates := by
  intro s g G d a imm sh imm17 lit hs
  exact ⟨becomes_of_write hs rfl (by rw [imm10_eq, BitVec.ofInt_add, BitVec.ofInt_toInt]),
    becomes_of_write hs rfl rfl,
    becomes_of_write hs rfl rfl,
    becomes_of_write hs rfl rfl,
    becomes_of_write hs rfl (shiftLeft_eq_mul _ _),
    becomes_of_write hs rfl (ushiftRight_eq_div _ _),
    becomes_of_write hs rfl (sshiftRight_eq_div _ _),
    becomes_of_write hs rfl rfl,
    becomes_of_write hs rfl rfl,
    becomes_of_write hs rfl (highLiteral_eq _ _)⟩

/-- The rows of R102. -/
theorem scalarCompares : Claims.ScalarCompares := by
  intro s g G cd rel a b gd imm v w hs hv hw
  rw [← relWord_of_scalarRel hv, ← relWord_of_scalarRel hw, ← imm10_eq]
  exact ⟨guarded_of_scalarStep hs rfl rfl, becomes_of_scalarStep hs rfl rfl⟩

/-- Settles O2: each row is one guarded or unguarded step, whose value is the row's. -/
theorem scalarImmediatesAndCompares : Obligations.ScalarImmediatesAndCompares := ⟨scalarImmediates, scalarCompares⟩

end Sys2Proof.Proofs
end

section
/-!
PROOFS. Special registers: what each index reads, and what a write leaves (R40, R41, R117).
-/

namespace Sys2Proof.Proofs
open Sys2Proof.Machine Sys2Proof.Claims

/-! ### Instructions that read and write special registers -/

section
variable {s : State} {g : Nat} {G : Group}

/-- sgetx of an index with a value. -/
theorem sgetx_of_special (hs : Scalar s g G) (d : SReg) {idx : BitVec 10} {x : Word} (h : special s G idx.toNat = some x) :
    Becomes (.sgetx d idx) s g (past (G.ws d x) 1) := by
  obtain ⟨ht, hg⟩ := hs
  change execSgetx d idx s = _
  rw [execSgetx, withScalar_of ht hg, h]
  rfl

/-- sgetx of an index without one. -/
theorem sgetx_of_unlisted (hs : Scalar s g G) (d : SReg) {idx : BitVec 10} (h : special s G idx.toNat = none) :
    exec (.sgetx d idx) s = .next (trapS s g 0x01) := by
  obtain ⟨ht, hg⟩ := hs
  change execSgetx d idx s = _
  rw [execSgetx, withScalar_of ht hg, h]

/-- ssetx of an index that may be written. -/
theorem ssetx_of_setSpecial (hs : Scalar s g G) {a : SReg} {idx : BitVec 10} {E : Group}
    (h : setSpecial G idx.toNat (G.rs a) = some E) : Becomes (.ssetx a idx) s g (past E 1) := by
  obtain ⟨ht, hg⟩ := hs
  change execSsetx a idx s = _
  rw [execSsetx, withScalar_of ht hg, h]
  rfl

/-- ssetx of an index that may not. -/
theorem ssetx_of_unwritable (hs : Scalar s g G) {a : SReg} {idx : BitVec 10} (h : setSpecial G idx.toNat (G.rs a) = none) :
    exec (.ssetx a idx) s = .next (trapS s g 0x01) := by
  obtain ⟨ht, hg⟩ := hs
  change execSsetx a idx s = _
  rw [execSsetx, withScalar_of ht hg, h]

end

/-! ### The mask registers: 64 lanes at an index (R40, R41) -/

/-- An index of a row of the table does not wrap in its 10 bits. -/
theorem toNat_index {n : Nat} (h : n < 1024) : (BitVec.ofNat 10 n).toNat = n := by
  rw [BitVec.toNat_ofNat]; exact Nat.mod_eq_of_lt h

/-- The four rows of 64 lanes of a mask. -/
theorem special_masks (s : State) (G : Group) {j : Nat} (hj : j < 4) :
    special s G j = some (G.laneact.extractLsb' (64 * j) 64) ∧ special s G (4 + j) = some (G.faultmask.extractLsb' (64 * j) 64) ∧
      special s G (8 + j) = some (G.lanedone.extractLsb' (64 * j) 64) ∧
      special s G (0x40 + j) = some (G.memmask.extractLsb' (64 * j) 64) := by
  interval_cases j <;> exact ⟨rfl, rfl, rfl, rfl⟩

/-- Writing 64 lanes of a mask leaves the lanes below and above them. -/
theorem setMaskPart_eq (m : Mask) {j : Nat} (hj : j < 4) (x : Word) :
    setMaskPart m j x =
      BitVec.ofNat 256 (m.toNat % 2 ^ (64 * j) + 2 ^ (64 * j) * x.toNat + 2 ^ (64 * j + 64) * (m.toNat / 2 ^ (64 * j + 64))) := by
  have hsum : m.toNat % 2 ^ (64 * j) + 2 ^ (64 * j) * x.toNat + 2 ^ (64 * j + 64) * (m.toNat / 2 ^ (64 * j + 64)) =
      2 ^ (64 * j) * (2 ^ 64 * (m.toNat / 2 ^ (64 * j + 64)) + x.toNat) + m.toNat % 2 ^ (64 * j) := by
    rw [pow_add]; ring
  have hlow : m.toNat % 2 ^ (64 * j) < 2 ^ (64 * j) := Nat.mod_lt _ (by positivity)
  have hall : maskPart Mask.all 0 = BitVec.allOnes 64 := by decide
  apply BitVec.eq_of_getLsbD_eq
  intro i hi
  rw [hsum, BitVec.getLsbD_ofNat, Nat.testBit_two_pow_mul_add _ hlow, Nat.testBit_two_pow_mul_add _ x.isLt, setMaskPart, hall]
  simp only [BitVec.getLsbD_or, BitVec.getLsbD_and, BitVec.getLsbD_not, BitVec.getLsbD_shiftLeft, BitVec.getLsbD_setWidth,
    BitVec.getLsbD_allOnes, Nat.testBit_mod_two_pow, Nat.testBit_div_two_pow, BitVec.testBit_toNat, hi]
  by_cases h1 : i < 64 * j
  · simp [h1]
  · by_cases h2 : i - 64 * j < 64
    · have h3 : i - 64 * j < 256 := by omega
      simp [h1, h2, h3]
    · have h3 : i - 64 * j - 64 + (64 * j + 64) = i := by omega
      have h4 : x.getLsbD (i - 64 * j) = false := BitVec.getLsbD_of_ge _ _ (by omega)
      simp [h1, h2, h3, h4]

/-- The three rows that can be written. -/
theorem setSpecial_masks (G : Group) {j : Nat} (hj : j < 4) (x : Word) :
    setSpecial G (4 + j) x = some { G with faultmask := setMaskPart G.faultmask j x } ∧
      setSpecial G (8 + j) x = some { G with lanedone := setMaskPart G.lanedone j x } ∧
      setSpecial G (0x40 + j) x = some { G with memmask := setMaskPart G.memmask j x } := by
  interval_cases j <;> exact ⟨rfl, rfl, rfl⟩

theorem setSpecial_unwritable (G : Group) {i : Nat} (x : Word) (h1 : ¬ (4 ≤ i ∧ i < 12)) (h2 : ¬ (0x40 ≤ i ∧ i < 0x44)) :
    setSpecial G i x = none := by
  rw [setSpecial, if_neg (by simp; omega), if_neg (by simp; omega), if_neg (by simpa using h2)]

/-- An index outside the table has no value. -/
theorem special_unlisted (s : State) (G : Group) {i : Nat} (h : listedSpecial i = false) : special s G i = none := by
  simp only [listedSpecial, Bool.or_eq_false_iff, decide_eq_false_iff_not] at h
  obtain ⟨⟨⟨⟨⟨h0, h1⟩, h2⟩, h3⟩, h4⟩, h5⟩ := h
  have hi4 : ¬ i < 4 := by omega
  have hi8 : ¬ i < 8 := by omega
  have hrest : i ≠ 0x50 ∧ i ≠ 0x60 ∧ i ≠ 0x70 ∧ i ≠ 0x80 := by simpa using h5
  unfold special
  simp only [if_neg hi4, if_neg hi8, if_neg h0]
  split
  case h_27 => rfl
  all_goals omega

/-! ### The other registers (R40, R324, R368) -/

/-- What sgetx reads of the launch and the block. -/
theorem special_launch {s : State} {G : Group} {B : Block} {L : Launch} (hB : s.blk? G = some B) (hL : s.launch? G = some L) :
    special s G 0x20 = some L.id ∧
      special s G 0x21 = some (BitVec.ofNat 64 (if G.comp.isSome then 0 else B.lin)) ∧
      special s G 0x22 = some (BitVec.ofNat 64 (if G.comp.isSome then 1 else L.blockcnt)) ∧
      special s G 0x24 = some (BitVec.ofNat 64 (if G.comp.isSome then 1 else L.desc.groups)) ∧
      special s G 0x25 = some L.desc.args ∧ special s G 0x26 = some (BitVec.ofNat 64 B.scrOff) := by
  refine ⟨?_, ?_, ?_, ?_, ?_, ?_⟩ <;> simp [special, hB, hL]

/-- The id of the activity that a group belongs to, and 0 without one. -/
theorem special_activity (s : State) (G : Group) : special s G 0x60 = some (BitVec.ofNat 64 (((s.actOf G).map (·.2.id.toNat)).getD 0)) := rfl

/-- A fold that keeps the least value and takes 0 for none yet is the fold by `min`, once it holds a value. -/
theorem foldl_least_of_ne_zero {α : Type} (f : α → Nat) {l : List α} (hf : ∀ x ∈ l, f x ≠ 0) {m : Nat} (hm : m ≠ 0) :
    l.foldl (fun m x => if m = 0 then f x else min m (f x)) m = (l.map f).foldl min m := by
  induction l generalizing m with
  | nil => rfl
  | cons x xs ih =>
    have hx : f x ≠ 0 := hf x List.mem_cons_self
    rw [List.foldl_cons, if_neg hm, List.map_cons, List.foldl_cons]
    exact ih (fun y hy => hf y (List.mem_cons_of_mem _ hy)) (by omega)

/-- A fold that keeps the least value, from none, has the least value of the list. -/
theorem foldl_least {α : Type} (f : α → Nat) {l : List α} (hf : ∀ x ∈ l, f x ≠ 0) :
    l.foldl (fun m x => if m = 0 then f x else min m (f x)) 0 = (l.map f).min?.getD 0 := by
  cases l with
  | nil => rfl
  | cons x xs => exact foldl_least_of_ne_zero f (fun y hy => hf y (List.mem_cons_of_mem _ hy)) (hf x List.mem_cons_self)

theorem levelOf_ne_zero (gen : Nat) : levelOf gen ≠ 0 := by
  unfold levelOf; split <;> decide

/-- The Chegon level of the hitched dies is their least. -/
theorem comlevel_eq {s : State} {m : Nat} (hm : ∃ D ∈ s.dies, D.st = .hitched ∧ levelOf D.gen = m)
    (hle : ∀ D ∈ s.dies, D.st = .hitched → m ≤ levelOf D.gen) : comlevel s = m := by
  have hmin : ((s.dies.filter (·.st = .hitched)).map fun d => levelOf d.gen).min? = some m := by
    rw [List.min?_eq_some_iff]
    simp only [List.mem_map, List.mem_filter, decide_eq_true_eq, and_assoc, forall_exists_index, and_imp]
    exact ⟨hm, fun b D hD hst hb => hb ▸ hle D hD hst⟩
  rw [comlevel, foldl_least _ fun d _ => levelOf_ne_zero d.gen, hmin, Option.getD_some]

/-! ### The statements (R40, R41, R117) -/

theorem specialRegistersRead : Claims.SpecialRegistersRead := by
  intro s g G d B L hs hB hL gives nat comp
  have hB' : s.blk? G = some B := hB
  have hL' : s.launch? G = some L := by rw [State.launch?, hB']; exact hL
  obtain ⟨hid, hlin, hcnt, hgrp, hargs, hscr⟩ := special_launch hB' hL'
  have read {idx : BitVec 10} {x : Word} (h : special s G idx.toNat = some x) : gives idx x := sgetx_of_special hs d h
  refine ⟨fun j hj => ?_, read rfl, read rfl, read rfl, read rfl, read rfl, read rfl, read hid, read hlin, read hcnt, read rfl, read hgrp,
    read hargs, read hscr, read rfl, read rfl, read rfl, read rfl, fun m hm hle => ?_, read rfl, read rfl, fun a ha A hA => ?_,
    fun hc hn => ?_, fun C hC => ?_⟩
  · obtain ⟨h1, h2, h3, h4⟩ := special_masks s G hj
    refine ⟨read ?_, read ?_, read ?_, read ?_⟩
    all_goals rw [toNat_index (by omega)]; assumption
  · refine read (?_ : special s G 0x32 = _)
    rw [← comlevel_eq hm hle]; rfl
  · have hact : s.actOf G = some (a, A) := by
      rw [State.actOf, hL']
      cases hc : G.comp <;> simp_all
    exact read ((special_activity s G).trans (by rw [hact]; rfl))
  · have hact : s.actOf G = none := by rw [State.actOf, hL', hc, Option.bind_some, hn]; rfl
    exact read ((special_activity s G).trans (by rw [hact]; rfl))
  · refine read (?_ : special s G 0x80 = _)
    simp [special, hC]

theorem specialRegistersWritten : Claims.SpecialRegistersWritten := by
  intro s g G a hs
  refine ⟨fun j hj => ?_, fun idx h1 h2 => ?_, fun d idx h => ?_⟩
  · obtain ⟨h1, h2, h3⟩ := setSpecial_masks G hj (G.rs a)
    rw [setMaskPart_eq _ hj] at h1 h2 h3
    refine ⟨ssetx_of_setSpecial hs ?_, ssetx_of_setSpecial hs ?_, ssetx_of_setSpecial hs ?_⟩
    all_goals rw [toNat_index (by omega)]; assumption
  · exact ssetx_of_unwritable hs (setSpecial_unwritable G _ h1 h2)
  · exact sgetx_of_unlisted hs d (special_unlisted s G h)

/-- Settles O6: every index of the table is read, the mask registers are written 64 lanes at a time, and any other index traps. -/
theorem specialRegisters : Obligations.SpecialRegisters := ⟨specialRegistersRead, specialRegistersWritten⟩

end Sys2Proof.Proofs
end

section
/-!
PROOFS. The words that the spec works out (R43 to R48, R67).
-/

namespace Sys2Proof.Proofs
open Sys2Proof Sys2Proof.Machine Sys2Proof.Claims

/-- Settles O50: each word is decoded by evaluation. -/
theorem workedWordsDecode : Obligations.WorkedWordsDecode := by
  refine ⟨?_, ?_, ?_, ?_, ?_, ?_, ?_, ?_, ?_, ?_, ?_, ?_, ?_, ?_, ?_, ?_, ?_, ?_⟩ <;> decide

end Sys2Proof.Proofs
end

section
/-!
PROOFS. A step runs what the words at the pc decode to (R44, R48, R55, R75, R93, R331, R355).
-/

namespace Sys2Proof.Proofs
open Sys2Proof Sys2Proof.Machine Sys2Proof.Claims

/-! ### What decodes is well formed (R43, R45, R354) -/

theorem wf_of_decodeScalar {w : BitVec 32} {w2 : Option (BitVec 32)} {i : Instr} {n : Nat} (h : decodeScalar w w2 = .ok (i, n)) :
    i.wf = true := by
  unfold decodeScalar at h
  grind

theorem wf_of_decodeLane {w : BitVec 96} {i : Instr} (h : decodeLane w = .ok i) : i.wf = true := by
  unfold decodeLane decodeLaneF at h
  grind

theorem wf_of_decodePacket {p : BitVec 512} {i : Instr} (h : decodePacket p = .ok i) : i.wf = true := by
  unfold decodePacket at h
  grind

/-! ### The fetch (R44, R48, R55, R75) -/

section
variable {s : State} {G : Group} {c : OvCopy}

/-- What the scalar words at the pc decode to, if anything. -/
theorem fetchScalar_of_code (hc : s.code G G.ov G.copy = some c) :
    fetchScalar s G = (c.scalarWord G.pc).bind fun w => (decodeScalar w (c.scalarWord (G.pc + 1))).toOption.map (·.1) := by
  simp only [fetchScalar, hc]
  cases c.scalarWord G.pc with
  | none => rfl
  | some w => cases h : decodeScalar w (c.scalarWord (G.pc + 1)) <;> simp [h, Except.toOption]

variable {n : Nat} {S : Split} {r : Run} {rest : List Run}

theorem fetchLaneWord_of_code (hS : mget G.splits n = some S) (hr : G.runs = r :: rest) (hc : s.code G r.ov r.copy = some c) :
    fetchLaneWord s G n = c.laneWord S.pc := by
  rw [fetchLaneWord, hr, hS]
  exact congrArg (·.bind fun c => c.laneWord S.pc) hc

/-- What the lane word at the pc of a split decodes to, if anything. -/
theorem fetchLane_of_code (hS : mget G.splits n = some S) (hr : G.runs = r :: rest) (hc : s.code G r.ov r.copy = some c) :
    fetchLane s G n = (c.laneWord S.pc).bind fun w => (decodeLane w).toOption := by
  rw [fetchLane, fetchLaneWord_of_code hS hr hc]
  cases c.laneWord S.pc with
  | none => rfl
  | some w => cases h : decodeLane w <;> simp [h, Except.toOption]

/-- The lanes that the guard field of the word at the pc leaves, or the lanes of the split past the section. -/
theorem rawActive_of_code (hS : mget G.splits n = some S) (hr : G.runs = r :: rest) (hc : s.code G r.ov r.copy = some c) :
    rawActive s G n = ((c.laneWord S.pc).map fun w => Active G S (Decode.gd (LaneF.unpack w))).getD S.mask := by
  rw [rawActive, hS, fetchLaneWord_of_code hS hr hc]
  cases c.laneWord S.pc <;> rfl

end

/-! ### The turn (R93, R331, R355) -/

/-- A step is its turn, and what follows. -/
theorem step_of_runTurn {s : State} {o : Out} (h : runTurn s = o) : step s = thenAdvance o := by
  subst h; rfl

section
variable {s : State}

/-- A turn of a scalar stream that issues. -/
theorem scalarTurn_of_issue {g : Nat} {G : Group} (hg : mget s.groups g = some G) (hm : scalarMay s G = true)
    (hp : picked s g G .scalar = true) (hd : divertReady G = false) :
    scalarTurn s g = (fetchScalar s G).elim (.next (trapS s g 0x01)) fun i => exec i (tookTurn s g .scalar) := by
  simp only [scalarTurn, hg, hm, hp, hd, Bool.not_true, Bool.or_self, Bool.false_eq_true, if_false]
  cases fetchScalar s G <;> rfl

/-- A turn of a split that issues. -/
theorem laneTurn_of_issue {g n : Nat} {G : Group} (hg : mget s.groups g = some G) (hm : laneMay s G n = true)
    (hp : picked s g G (.split n) = true) (hd : divertReady G = false) :
    laneTurn s g n =
      (fetchLane s G n).elim (.next (trapL s g n 0x01 (rawActive s G n))) fun i => exec i (tookTurn s g (.split n)) := by
  simp only [laneTurn, hg, hm, hp, hd, Bool.not_true, Bool.or_self, Bool.false_eq_true, if_false]
  cases fetchLane s G n <;> rfl

/-- A turn of the ostler with a packet at the head. -/
theorem ostlerTurn_of_head {q : Nat} {Q : Queue} {idx : Nat} {w : BitVec 512} {i : Instr} (hb : s.batch.head? = some q) (hQ : mget s.queues q = some Q)
    (ht : Q.taken = some (idx, w)) (hd : decodePacket w = .ok i) : ostlerTurn s = exec i s := by
  obtain ⟨qs, hqs⟩ : ∃ qs, s.batch = q :: qs := by cases h : s.batch <;> simp_all
  have hh : headPacket s = some (q, Q, idx, w) := by simp [headPacket, hqs, hQ, ht]
  simp [ostlerTurn, hqs, hh, hd]

variable (hup : s.modl.tripped = false)
include hup

theorem runTurn_scalar {g : Nat} (ht : s.turn = .scalar g) : runTurn s = scalarTurn s g := by
  simp [runTurn, hup, ht]

theorem runTurn_lane {g n : Nat} (ht : s.turn = .lane g n) : runTurn s = laneTurn s g n := by
  simp [runTurn, hup, ht]

theorem runTurn_ostler (ht : s.turn = .ostler) : runTurn s = ostlerTurn s := by
  simp [runTurn, hup, ht]

theorem runTurn_event {e : Instr} (ht : s.turn = .event e) : runTurn s = eventTurn s e := by
  simp [runTurn, hup, ht]

end

/-- Settles O54: the turn of each stream fetches and runs, or traps; the ostler runs its head packet, an event's turn the event. -/
theorem stepRunsDecoded : Obligations.StepRunsDecoded := by
  intro s hup
  refine ⟨fun g G c ht hg hm hp hd hc => ?_, fun g G n S r rest c ht hg hS hm hp hd hr hc => ?_, fun q Q idx w i ht hb hQ hw hi => ?_,
    fun e t ht he => ?_, fun e f ht he => ?_⟩
  · have hturn := scalarTurn_of_issue hg hm hp hd
    rw [fetchScalar_of_code hc, ← runTurn_scalar hup ht] at hturn
    refine ⟨fun w i n hw hi => ?_, fun w r hw hr => ?_, fun hw => ?_⟩
    · rw [hw, Option.bind_some, hi] at hturn
      exact ⟨wf_of_decodeScalar hi, step_of_runTurn hturn⟩
    · rw [hw, Option.bind_some, hr] at hturn
      exact step_of_runTurn hturn
    · rw [hw] at hturn
      exact step_of_runTurn hturn
  · have hturn := laneTurn_of_issue hg hm hp hd
    rw [fetchLane_of_code hS hr hc, rawActive_of_code hS hr hc, ← runTurn_lane hup ht] at hturn
    refine ⟨fun w i hw hi => ?_, fun w r hw hr => ?_, fun hw => ?_⟩
    · rw [hw, Option.bind_some, hi] at hturn
      exact ⟨wf_of_decodeLane hi, step_of_runTurn hturn⟩
    · rw [hw, Option.bind_some, hr] at hturn
      exact step_of_runTurn hturn
    · rw [hw] at hturn
      exact step_of_runTurn hturn
  · exact ⟨wf_of_decodePacket hi, step_of_runTurn ((runTurn_ostler hup ht).trans (ostlerTurn_of_head hb hQ hw hi))⟩
  · exact step_of_runTurn ((runTurn_event hup ht).trans (by rw [eventTurn, he]))
  · exact step_of_runTurn ((runTurn_event hup ht).trans (by rw [eventTurn, he]))

end Sys2Proof.Proofs
end

section
/-!
PROOFS. Every state has a next state: what each class of instructions answers, which class a word decodes to, and that a turn asks an instruction only of the
class that has the turn (R55, R67, R331).
-/

namespace Sys2Proof.Proofs
open Sys2Proof Sys2Proof.Machine Sys2Proof.Claims

/-! ### Answers -/

/-- An outcome that is a next state. -/
def IsNext (o : Out) : Prop := ∃ t, o = .next t

/-- An outcome that is a next state where `c` holds, and elsewhere perhaps a fault; it is never a refusal. -/
def IsNextWhen (c : Prop) (o : Out) : Prop := IsNext o ∨ (¬ c ∧ ∃ f, o = .fault f)

/-- A scalar stream of a group that is there has the turn. -/
def ScalarTurn (s : State) : Prop := ∃ g G, s.turn = .scalar g ∧ mget s.groups g = some G

/-- A split that is there has the turn. -/
def SplitTurn (s : State) : Prop := ∃ g n G S, s.turn = .lane g n ∧ mget s.groups g = some G ∧ mget G.splits n = some S

/-- The ostler has the turn, with a packet at the head. -/
def PacketTurn (s : State) : Prop := s.turn = .ostler ∧ headPacket s ≠ none

theorem IsNext.next (t : State) : IsNext (.next t) := ⟨t, rfl⟩

theorem IsNextWhen.isNext {c : Prop} {o : Out} (h : IsNextWhen c o) (hc : c) : IsNext o := h.resolve_right fun hn => hn.1 hc

section
variable {s : State}

theorem withScalar_answers {k : Nat → Group → Out} (h : ∀ g G, IsNext (k g G)) : IsNextWhen (ScalarTurn s) (withScalar s k) := by
  unfold withScalar
  split
  case h_1 g ht =>
    cases hg : mget s.groups g with
    | none => exact .inr ⟨fun ⟨g', G, ht', hg'⟩ => by simp_all, _, rfl⟩
    | some G => exact .inl (h g G)
  case h_2 ht => exact .inr ⟨fun ⟨g, G, ht', _⟩ => ht g ht', _, rfl⟩

/-- A form of `withSplit` whose continuation may use that it has the turn. -/
theorem withSplit_answers_of {k : Nat → Group → Nat → Split → Out}
    (h : ∀ g G n S, s.turn = .lane g n → mget s.groups g = some G → mget G.splits n = some S → IsNext (k g G n S)) :
    IsNextWhen (SplitTurn s) (withSplit s k) := by
  unfold withSplit
  split
  case h_1 g n ht =>
    cases hg : mget s.groups g with
    | none => exact .inr ⟨fun ⟨g', n', G, S, ht', hg', _⟩ => by simp_all, _, rfl⟩
    | some G =>
      cases hS : mget G.splits n with
      | none => exact .inr ⟨fun ⟨g', n', G', S, ht', hg', hS'⟩ => by simp_all, _, by simp only [hS]; rfl⟩
      | some S => exact .inl (by simp only [hS]; exact h g G n S ht hg hS)
  case h_2 ht => exact .inr ⟨fun ⟨g, n, G, S, ht', _⟩ => ht g n ht', _, rfl⟩

theorem withSplit_answers {k : Nat → Group → Nat → Split → Out} (h : ∀ g G n S, IsNext (k g G n S)) :
    IsNextWhen (SplitTurn s) (withSplit s k) := withSplit_answers_of fun g G n S _ _ _ => h g G n S

theorem packetStep_answers (h : PktHdr) (code : Nat) (k : State → Nat → Queue → Nat → Pkt → State) :
    IsNextWhen (PacketTurn s) (packetStep s h code k) := by
  unfold packetStep
  split
  case h_1 ht =>
    cases hp : headPacket s with
    | none => exact .inr ⟨fun hq => hq.2 hp, _, rfl⟩
    | some p => exact .inl (IsNext.next _)
  case h_2 ht => exact .inr ⟨fun hq => ht hq.1, _, rfl⟩

/-! ### The shared issue helpers -/

theorem scalarStep_answers (n : Nat) (gd : CReg) (f : Group → Group) : IsNextWhen (ScalarTurn s) (scalarStep s n gd f) :=
  withScalar_answers fun _ _ => IsNext.next _

theorem onChk_isNext {g : Nat} {str : Stream} {c : Chk} {k : List (Nat × Nat) → Out} (h : ∀ l, IsNext (k l)) : IsNext (onChk s g str c k) := by
  unfold onChk
  split
  case h_1 l => exact h l
  all_goals exact IsNext.next _

theorem enterStep_isNext (g : Nat) (G waiting : Group) (ov off : Nat) (popped : Bool) (k : State → Group → Nat → State) (fail : State → State) :
    IsNext (enterStep s g G waiting ov off popped k fail) := by
  unfold enterStep
  extract_lets ask
  have hask (G : Group) : IsNext (ask G) := by
    dsimp only [ask]
    split <;> exact IsNext.next _
  clear_value ask
  repeat' first | with_reducible exact IsNext.next _ | exact hask _ | split

theorem whenHandle_answers {h : HReg} {k : State → Nat → Group → Handle → Out} (hk : ∀ s g G x, IsNext (k s g G x)) :
    IsNextWhen (ScalarTurn s) (whenHandle s h k) := by
  refine withScalar_answers fun g G => ?_
  extract_lets x
  split
  · exact IsNext.next _
  · exact hk _ _ _ _

theorem queueRun_isNext (g : Nat) (G : Group) (off : Nat) : IsNext (queueRun s g G off) := by
  unfold queueRun
  split
  · exact IsNext.next _
  · split <;> exact IsNext.next _

theorem loadStep_answers (ty : Ty) (d a : SReg) (imm : BitVec 10) : IsNextWhen (ScalarTurn s) (loadStep s ty d a imm) :=
  withScalar_answers fun _ _ => onChk_isNext fun _ => by split <;> exact IsNext.next _

theorem storeStep_answers (ty : Ty) (d a : SReg) (imm : BitVec 10) : IsNextWhen (ScalarTurn s) (storeStep s ty d a imm) :=
  withScalar_answers fun _ _ => onChk_isNext fun _ => by split <;> exact IsNext.next _

theorem atomStep_answers (kind : MKind) (d a : SReg) (gd : CReg) (scope : Scope) (order : Order) (x y : Group → Word) :
    IsNextWhen (ScalarTurn s) (atomStep s kind d a gd scope order x y) := by
  refine withScalar_answers fun g G => ?_
  split
  · exact IsNext.next _
  · refine onChk_isNext fun l => ?_
    repeat' first | with_reducible exact IsNext.next _ | split

theorem engineStep_answers (h : HReg) (b : SReg) (bar : Bool) (mk : State → Group → Nat → Option CopyOp) :
    IsNextWhen (ScalarTurn s) (engineStep s h b bar mk) := by
  refine whenHandle_answers fun s g G x => ?_
  repeat' first | with_reducible exact IsNext.next _ | extract_lets | split

theorem memberStep_isNext {g : Nat} {G : Group} {id : Option Nat} {ok : Nat → Memb → Bool} {k : Nat → Memb → Phaser → Out}
    (h : ∀ key m p, IsNext (k key m p)) : IsNext (memberStep s g G id ok k) := by
  unfold memberStep
  repeat' first | with_reducible exact IsNext.next _ | exact h _ _ _ | split

theorem waitStep_isNext (s0 : State) (g : Nat) (G : Group) (key : Nat) (phase : BitVec 32) (d : SReg) :
    IsNext (waitStep s0 s g G key phase d) := by
  unfold waitStep
  repeat' first | with_reducible exact IsNext.next _ | extract_lets | split

theorem arriveStep_isNext (s0 : State) (g : Nat) (G : Group) (id : Option Nat) (b : SReg) (drain : Bool) (mode : PhMode → Bool)
    (k : State → Nat → BitVec 32 → State) : IsNext (arriveStep s0 s g G id b drain mode k) := by
  refine memberStep_isNext fun key m p => ?_
  repeat' first | with_reducible exact IsNext.next _ | extract_lets | split

theorem phaserStep_answers {k : State → State → Nat → Group → Out} (h : ∀ s0 s g G, IsNext (k s0 s g G)) :
    IsNextWhen (ScalarTurn s) (phaserStep s k) := withScalar_answers fun g G => h _ _ g G

theorem awaitStep_answers (d a b : SReg) (pkg drain : Bool) : IsNextWhen (ScalarTurn s) (awaitStep s d a b pkg drain) := by
  refine phaserStep_answers fun s0 s g G => ?_
  split
  · exact waitStep_isNext _ _ _ _ _ _
  · exact arriveStep_isNext _ _ _ _ _ _ _ _

theorem actStep_answers {k : Nat → Group → Nat → Activity → Out} (h : ∀ g G a A, IsNext (k g G a A)) :
    IsNextWhen (ScalarTurn s) (actStep s k) := by
  refine withScalar_answers fun g G => ?_
  split
  · exact h _ _ _ _
  · exact IsNext.next _

theorem liveStep_answers {f : Group → Group} {k : Nat → Group → Nat → Activity → Out} (h : ∀ g G a A, IsNext (k g G a A)) :
    IsNextWhen (ScalarTurn s) (liveStep s f k) := by
  refine actStep_answers fun g G a A => ?_
  split
  · exact IsNext.next _
  · exact h _ _ _ _

theorem abnStep_isNext (g : Nat) (G : Group) (k : Nat) (A : Activity) : IsNext (abnStep s g G k A) := by
  unfold abnStep
  repeat' first | with_reducible exact IsNext.next _ | split

/-- The checks of a lane word leave the question to its instruction. -/
theorem laneIssue_answers {gd : LGuard} {level3 : Bool} {regs tiles : List Nat} {k : Nat → Group → Nat → Split → Out}
    (h : ∀ g G n S, IsNext (k g G n S)) : IsNextWhen (SplitTurn s) (laneIssue s gd level3 regs tiles k) := by
  refine withSplit_answers fun g G n S => ?_
  repeat' first | with_reducible exact IsNext.next _ | exact h _ _ _ _ | split

theorem laneAlu_answers (gd : LGuard) (regs : List Nat) (f : Group → Mask → Group) : IsNextWhen (SplitTurn s) (laneAlu s gd regs f) :=
  laneIssue_answers fun _ _ _ _ => IsNext.next _

theorem collective_answers {gd : LGuard} {level3 : Bool} {regs tiles : List Nat} {k : Nat → Group → Nat → Split → Mask → Out}
    (h : ∀ g G n S m, IsNext (k g G n S m)) : IsNextWhen (SplitTurn s) (collective s gd level3 regs tiles k) := by
  refine laneIssue_answers fun g G n S => ?_
  extract_lets act
  split
  · exact IsNext.next _
  · exact h _ _ _ _ _

theorem plainStep_answers (w : MemL) (sp : Space) (store : Bool) : IsNextWhen (SplitTurn s) (plainStep s w sp store) := by
  refine laneIssue_answers fun g G n S => onChk_isNext fun l => ?_
  repeat' first | with_reducible exact IsNext.next _ | split

theorem feStep_answers (w : MemL) (kind : MKind) : IsNextWhen (SplitTurn s) (feStep s w kind) := by
  refine laneIssue_answers fun g G n S => ?_
  split
  · split <;> exact IsNext.next _
  · refine onChk_isNext fun l => ?_
    repeat' first | with_reducible exact IsNext.next _ | split

theorem vatomStep_answers (w : AtomL) (kind : MKind) (ret : Bool) : IsNextWhen (SplitTurn s) (vatomStep s w kind ret) := by
  refine laneIssue_answers fun g G n S => ?_
  extract_lets act size eas
  split
  · exact onChk_isNext fun _ => IsNext.next _
  · repeat' first | with_reducible exact IsNext.next _ | exact onChk_isNext fun _ => IsNext.next _ | extract_lets | split

theorem permStep_answers (w : PermL) (index : Group → Nat → Nat) : IsNextWhen (SplitTurn s) (permStep s w index) :=
  collective_answers fun _ _ _ _ _ => IsNext.next _

theorem tileIssue_isNext (g n : Nat) (G : Group) (S : Split) (act : Mask) (add : Bool) (plan : TilePlan) :
    IsNext (tileIssue s g n G S act add plan) := by
  unfold tileIssue
  repeat' first | with_reducible exact IsNext.next _ | exact onChk_isNext fun _ => IsNext.next _ | split

theorem mmaStep_answers (w : MmaL) (sparse : Bool) : IsNextWhen (SplitTurn s) (mmaStep s w sparse) :=
  collective_answers fun _ _ _ _ _ => tileIssue_isNext _ _ _ _ _ _ _

theorem onDie_isNext (d : Nat) (k : Die → State) : IsNext (onDie? s d k) := by
  unfold onDie?
  split <;> exact IsNext.next _

theorem stuckStep_answers (h : PktHdr) (code : Nat) (id : BitVec 32) (report : Word) (torn : Bool) (f : State → Nat → Nat → State) :
    IsNextWhen (PacketTurn s) (stuckStep s h code id report torn f) := packetStep_answers _ _ _

end

end Sys2Proof.Proofs
end

section
/-!
PROOFS. What the instructions of each class answer.
-/

namespace Sys2Proof.Proofs
open Sys2Proof Sys2Proof.Machine Sys2Proof.Claims

/-- The dispenser's instruction waits or returns. -/
theorem execDisp_answers {s : State} (d : SReg) : IsNextWhen (ScalarTurn s) (execDisp d s) := by
  delta execDisp
  refine withScalar_answers fun g G => ?_
  extract_lets done
  have hdone (s : State) (x : Word) : IsNext (done s x) := IsNext.next _
  clear_value done
  cases G.wait with
  | dispAnswer x => exact hdone _ _
  | dispSent => exact IsNext.next _
  | _ =>
    dsimp only
    cases G.comp.isSome
    · cases G.audit.bind fun k => (mget s.audits k).map fun A => (k, A)
      · exact IsNext.next _
      · simp only [Bool.false_eq_true, if_false]
        split <;> exact hdone _ _
    · exact hdone _ _

/-- ovld loads, or its handle has failed. -/
theorem execOvld_answers {s : State} (h : HReg) (a : SReg) : IsNextWhen (ScalarTurn s) (execOvld h a s) := by
  delta execOvld
  refine whenHandle_answers fun s g G x => ?_
  extract_lets done n G' s' ctx held
  split
  · exact IsNext.next _
  · split
    · exact IsNext.next _
    · extract_lets c extra
      clear_value extra c
      repeat' first | with_reducible exact IsNext.next _ | split

/-- A scalar instruction answers a next state to a scalar stream. -/
theorem exec_scalar_answers (s : State) {i : Instr} (h : isScalar i = true) : IsNextWhen (ScalarTurn s) (exec i s) := by
  cases i
  case sadd | ssub | smul | smulh | smulhn | sand | sor | sxor | sshl | sshr | ssra | smin | smax | sminn | smaxn | ssel | sbfx | sbfi | spopc |
      sclz | sctz | smov | saddi | sandi | sori | sxori | sshli | sshri | ssrai | smovi | scyc | scmp | scmpi | slit | stime | snop | syield =>
    exact scalarStep_answers _ _ _
  case sldb | sldh | sldw | sldd => exact loadStep_answers _ _ _ _
  case sstb | ssth | sstw | sstd => exact storeStep_answers _ _ _ _
  case satom | scas => exact atomStep_answers _ _ _ _ _ _ _ _
  case cpy | cpyg | cpyst =>
    delta exec; dsimp only
    delta execCpy execCpyg execCpyst
    exact engineStep_answers _ _ _ _
  case phaw | phdrain => exact awaitStep_answers _ _ _ _ _
  case pharr =>
    delta exec; dsimp only
    delta execPharr
    exact phaserStep_answers fun _ _ _ _ => arriveStep_isNext _ _ _ _ _ _ _ _
  case hwait =>
    delta exec; dsimp only
    delta execHwait
    exact whenHandle_answers fun _ _ _ _ => IsNext.next _
  case sexit | swait | scwp | htest | strap | dlqry =>
    delta exec; dsimp only
    delta execSexit execSwait execScwp execHtest execStrap execDlqry
    exact withScalar_answers fun _ _ => IsNext.next _
  case sbr | scall | sjmpr | sloop | sprog | lwait | svote | sgetx | ssetx | sbrk | sfence | hcancel | wupok | sndon | sndoff =>
    delta exec; dsimp only
    delta execSbr execScall execSjmpr execSloop execSprog execLwait execSvote execSgetx execSsetx execSbrk execSfence execHcancel execWupok execSndon
      execSndoff
    refine withScalar_answers fun g G => ?_
    repeat' first | with_reducible exact IsNext.next _ | extract_lets | split
  case disp => exact execDisp_answers _
  case hsend | hrecv =>
    delta exec; dsimp only
    delta execHsend execHrecv
    refine withScalar_answers fun g G => onChk_isNext fun l => ?_
    repeat' first | with_reducible exact IsNext.next _ | extract_lets | split
  case sxcall | sret | stret =>
    delta exec; dsimp only
    delta execSxcall execSret execStret
    refine withScalar_answers fun g G => ?_
    repeat' first | with_reducible exact IsNext.next _ | exact enterStep_isNext _ _ _ _ _ _ _ _ | extract_lets | split
  case lrun | lrunr =>
    delta exec; dsimp only
    delta execLrun execLrunr
    refine withScalar_answers fun g G => ?_
    repeat' first | with_reducible exact IsNext.next _ | exact queueRun_isNext _ _ _ | extract_lets | split
  case ovld => exact execOvld_answers _ _
  case ovrel =>
    delta exec; dsimp only
    delta execOvrel
    refine whenHandle_answers fun s g G x => ?_
    repeat' first | with_reducible exact IsNext.next _ | extract_lets | split
  case phreg | phdrop | phqry | wsplit | wret =>
    delta exec; dsimp only
    delta execPhreg execPhdrop execPhqry execWsplit execWret
    refine phaserStep_answers fun s0 s g G => ?_
    repeat' first | with_reducible exact IsNext.next _ | extract_lets | split
  case phwt =>
    delta exec; dsimp only
    delta execPhwt
    refine phaserStep_answers fun s0 s g G => ?_
    split
    · exact waitStep_isNext _ _ _ _ _ _
    · refine memberStep_isNext fun key m p => ?_
      split
      · exact waitStep_isNext _ _ _ _ _ _
      · exact IsNext.next _
  case actopen | actseal | actend | actabn | actdep =>
    delta exec; dsimp only
    delta execActopen execActseal execActend execActabn execActdep
    refine liveStep_answers fun g G k A => ?_
    repeat' first | with_reducible exact IsNext.next _ | exact abnStep_isNext _ _ _ _ | extract_lets | split
  case cmpok | cmpfail =>
    delta exec; dsimp only
    delta execCmpok execCmpfail
    refine actStep_answers fun g G k A => ?_
    repeat' first | with_reducible exact IsNext.next _ | extract_lets | split
  all_goals exact absurd h Bool.false_ne_true

/-! ### The lane instructions -/

section
variable {s : State}

theorem unStep_answers (w : Un) (f : Nat → Nat) : IsNextWhen (SplitTurn s) (unStep s w f) := laneAlu_answers _ _ _
theorem binStep_answers (w : Bin) (f : Nat → Nat → Nat) : IsNextWhen (SplitTurn s) (binStep s w f) := laneAlu_answers _ _ _
theorem cntStep_answers (w : Bin) (f : Nat → Nat → Nat → Nat) : IsNextWhen (SplitTurn s) (cntStep s w f) := laneAlu_answers _ _ _
theorem terStep_answers (w : Ter) (f : Nat → Nat → Nat → Nat) : IsNextWhen (SplitTurn s) (terStep s w f) := laneAlu_answers _ _ _
theorem addSel_answers (mx : Bool) (w : Ter) : IsNextWhen (SplitTurn s) (addSel mx s w) := terStep_answers _ _
theorem intBin_answers (w : Bin) (f : Int → Int → Int) : IsNextWhen (SplitTurn s) (intBin s w f) := binStep_answers _ _
theorem intUn_answers (w : Un) (f : Int → Int) : IsNextWhen (SplitTurn s) (intUn s w f) := unStep_answers _ _
theorem fBin_answers (w : Bin) (f : FVal → FVal → FVal) : IsNextWhen (SplitTurn s) (fBin s w f) := binStep_answers _ _
theorem fUn_answers (w : Un) (f : FVal → FVal) : IsNextWhen (SplitTurn s) (fUn s w f) := unStep_answers _ _
theorem predStep_answers (gd : LGuard) (pd : PReg) (f : Group → Mask) : IsNextWhen (SplitTurn s) (predStep s gd pd f) := laneAlu_answers _ _ _
theorem shiftStep_answers (up : Bool) (w : ShiftL) : IsNextWhen (SplitTurn s) (shiftStep s up w) := by
  delta shiftStep
  exact laneAlu_answers _ _ _

end

/-- A lane instruction answers a next state to a split. -/
theorem exec_lane_answers (s : State) {i : Instr} (h : isLane i = true) : IsNextWhen (SplitTurn s) (exec i s) := by
  cases i
  case vadd | vsub | vmul | vmulh | vmin | vmax =>
    delta exec; dsimp only
    delta execVadd execVsub execVmul execVmulh execVmin execVmax
    exact intBin_answers _ _
  case vabs | vneg =>
    delta exec; dsimp only
    delta execVabs execVneg
    exact intUn_answers _ _
  case vand | vor | vxor | vfmin | vfmax =>
    delta exec; dsimp only
    delta execVand execVor execVxor execVfmin execVfmax
    exact binStep_answers _ _
  case vnot | vclz | vpopc | vbrev | vfabs | vfneg | vfex2 | vflg2 | vfsin | vfcos =>
    delta exec; dsimp only
    delta execVnot execVclz execVpopc execVbrev execVfabs execVfneg execVfex2 execVflg2 execVfsin execVfcos
    exact unStep_answers _ _
  case vshl | vshr | vsra | vbfx | vbfi =>
    delta exec; dsimp only
    delta execVshl execVshr execVsra execVbfx execVbfi
    exact cntStep_answers _ _
  case vmad | vfma =>
    delta exec; dsimp only
    delta execVmad execVfma
    exact terStep_answers _ _
  case vaddmin | vaddmax => exact addSel_answers _ _
  case vfadd | vfsub | vfmul | vfdiv =>
    delta exec; dsimp only
    delta execVfadd execVfsub execVfmul execVfdiv
    exact fBin_answers _ _
  case vfrcp | vfrsq | vfsqrt | vfrnd =>
    delta exec; dsimp only
    delta execVfrcp execVfrsq execVfsqrt execVfrnd
    exact fUn_answers _ _
  case vpand | vpor | vpxor | vpnot =>
    delta exec; dsimp only
    delta execVpand execVpor execVpxor execVpnot
    exact predStep_answers _ _ _
  case vfcls | vfscl | vcvt | vpack | vunpk | vcmp | vsel | vmov | vmovi | vlaneid | vp2v | vv2p =>
    delta exec; dsimp only
    delta execVfcls execVfscl execVcvt execVpack execVunpk execVcmp execVsel execVmov execVmovi execVlaneid execVp2v execVv2p
    exact laneAlu_answers _ _ _
  case vshup | vshdn => exact shiftStep_answers _ _
  case vld | vst | vlds | vsts | vldx | vstx => exact plainStep_answers _ _ _
  case vldsf | vstsf | vldsp => exact feStep_answers _ _
  case vatom | vatoms | vcas => exact vatomStep_answers _ _ _
  case vprf =>
    delta exec; dsimp only
    delta execVprf
    exact laneIssue_answers fun _ _ _ _ => IsNext.next _
  case vperm | vbcast => exact permStep_answers _ _
  case vred | vscan | vvote | velect =>
    delta exec; dsimp only
    delta execVred execVscan execVvote execVelect
    exact collective_answers fun _ _ _ _ _ => IsNext.next _
  case mma | mmas => exact mmaStep_answers _ _
  case mzero | mepi | topkm =>
    delta exec; dsimp only
    delta execMzero execMepi execTopkm
    exact laneIssue_answers fun _ _ _ _ => tileIssue_isNext _ _ _ _ _ _ _
  case vdist | topk =>
    delta exec; dsimp only
    delta execVdist execTopk
    exact collective_answers fun _ _ _ _ _ => tileIssue_isNext _ _ _ _ _ _ _
  case lend | lpack | lnop =>
    delta exec; dsimp only
    delta execLend execLpack execLnop
    exact withSplit_answers fun _ _ _ _ => IsNext.next _
  case lbr | ljmp | lcall | lrec | lret | lexit | lwaitc | ltrap =>
    delta exec; dsimp only
    delta execLbr execLjmp execLcall execLrec execLret execLexit execLwaitc execLtrap
    refine withSplit_answers fun g G n S => ?_
    repeat' first | with_reducible exact IsNext.next _ | extract_lets | split
  case mtrd =>
    delta exec; dsimp only
    delta execMtrd
    refine withSplit_answers_of fun g G n S ht hg hS => ?_
    split
    · exact IsNext.next _
    · refine (laneIssue_answers fun g G n S => ?_).isNext ⟨g, n, G, S, ht, hg, hS⟩
      repeat' first | with_reducible exact IsNext.next _ | extract_lets | split
  all_goals exact absurd h Bool.false_ne_true

/-- A packet answers a next state to the ostler. -/
theorem exec_packet_answers (s : State) {i : Instr} (h : isPacket i = true) : IsNextWhen (PacketTurn s) (exec i s) := by
  cases i
  case nop | launch | launchActivity | copy | signal | waitWord | rangeCommit | preloadOverlay | queueBarrier =>
    delta exec; dsimp only
    delta execNop execLaunch execLaunchActivity execCopy execSignal execWaitWord execRangeCommit execPreloadOverlay execQueueBarrier
    exact packetStep_answers _ _ _
  case activityResume | activityDiscard => exact stuckStep_answers _ _ _ _ _ _
  all_goals exact absurd h Bool.false_ne_true

end Sys2Proof.Proofs
end

section
/-!
PROOFS. Commands and events answer a next state from every state.
-/

namespace Sys2Proof.Proofs
open Sys2Proof Sys2Proof.Machine Sys2Proof.Claims

/-- What is no instruction of a stream and no packet is a command or an event, and answers a next state. -/
theorem exec_event_isNext (s : State) {i : Instr} (h : (isScalar i || isLane i || isPacket i) = false) : IsNext (exec i s) := by
  cases i
  case retry | faultTrap | fatal | resume | enable | disable | rejectedAccessRetry | translationMissRetry | slackClassRecompute | queueUnbind |
      storageWindowWithdraw | quotaSet | teardown | drainBudgetExpire | correctedError | compensationBudgetExpire | rdS | rdX | upg | wb | evC |
      invAck | fwdData | data | grant | inv | fwdS | fwdX | wbAck | hostSnoop | packageReset | ideIntegrityFailure | holdover | getVersion |
      getDigests | getCertificate | challenge | getMeasurements | finish | errpendClear | queuePairDeleted =>
    exact IsNext.next _
  case wakeRequest | powerGood | hitch | hitchTimeout | gateRequest | resetRequest | gateHoldTimeout | dieDrainComplete | linkLoss |
      thermalThrottle | thermalTrip =>
    exact onDie_isNext _ _
  case stop | read | write | groupStart | groupExitComplete | loadComplete | storeAck | tileOpRetire | copyComplete | nvmeCompletion |
      fullEmptyWaitDone | queueBlockTimeout | probeToken | syieldWindowExpiry =>
    delta exec; dsimp only
    delta execStop execRead execWrite execGroupStart execGroupExitComplete execLoadComplete execStoreAck execTileOpRetire execCopyComplete
      execNvmeCompletion execFullEmptyWaitDone execQueueBlockTimeout execProbeToken execSyieldWindowExpiry
    repeat' first | with_reducible exact IsNext.next _ | extract_lets | split
  case ageingFloor | overlayLoadEnd | dispenserRequest | blockStart | wrapTime | deadline | sectionOverrun | launchComplete | launchReplay |
      copyPacketComplete | waitWordSatisfied | waitWordTimeout | rangeCommitComplete | completionRoom =>
    delta exec; dsimp only
    delta execAgeingFloor execOverlayLoadEnd execDispenserRequest execBlockStart execWrapTime execDeadline execSectionOverrun execLaunchComplete
      execLaunchReplay execCopyPacketComplete execWaitWordSatisfied execWaitWordTimeout execRangeCommitComplete execCompletionRoom
    repeat' first | with_reducible exact IsNext.next _ | extract_lets | split
  case msixCoalesceTimeout | msixRateDelay | ostlerWatchdog | queueBind | storageWindowRegister | contextCreate | contextFlagsWrite |
      contextRelease | groupStopped | preempt | saveRecordWrite | restore | uncorrectableError | selfTest =>
    delta exec; dsimp only
    delta execMsixCoalesceTimeout execMsixRateDelay execOstlerWatchdog execQueueBind execStorageWindowRegister execContextCreate
      execContextFlagsWrite execContextRelease execGroupStopped execPreempt execSaveRecordWrite execRestore execUncorrectableError execSelfTest
    repeat' first | with_reducible exact IsNext.next _ | extract_lets | split
  case selfTestResult | inFieldTest | audit | auditCompare | compensationStart | backInvalidate | backInvalidateResponse | hostAccess | peerAccess |
      peerLinkDown | peerNumberSet | firmwareLoad | keyRollover | markerAck =>
    delta exec; dsimp only
    delta execSelfTestResult execInFieldTest execAudit execAuditCompare execCompensationStart execBackInvalidate execBackInvalidateResponse
      execHostAccess execPeerAccess execPeerLinkDown execPeerNumberSet execFirmwareLoad execKeyRollover execMarkerAck
    repeat' first | with_reducible exact IsNext.next _ | extract_lets | split
  case timeSourceSelect | timeMeasurement | getCapabilities | negotiateAlgorithms | keyExchange | powerWindow | registerWrite | copyBytesDelivered |
      inFieldTestEnd | replayRequest =>
    delta exec; dsimp only
    delta execTimeSourceSelect execTimeMeasurement execGetCapabilities execNegotiateAlgorithms execKeyExchange execPowerWindow execRegisterWrite
      execCopyBytesDelivered execInFieldTestEnd execReplayRequest
    repeat' first | with_reducible exact IsNext.next _ | extract_lets | split
  all_goals exact absurd h.symm Bool.false_ne_true

end Sys2Proof.Proofs
end

section
/-!
PROOFS. The class of what a word decodes to, and that from every state the step answers a next state (R55, R67, R331).
-/

namespace Sys2Proof.Proofs
open Sys2Proof Sys2Proof.Machine Sys2Proof.Claims

/-! ### The class of what a word decodes to (R61, R62, R354) -/

/-- What decodes, if anything, has the property `P`. -/
def Yields {α : Type} (P : α → Prop) (x : Dec α) : Prop := ∀ a, x = .ok a → P a

section
variable {α : Type} {P : α → Prop}

theorem Yields.ok {a : α} (h : P a) : Yields P (.ok a) := fun _ e => Except.ok.inj e ▸ h

theorem Yields.error (r : Reject) : Yields P (.error r) := fun _ e => nomatch e

theorem Yields.reserve (b : Bool) {k : Dec α} (h : Yields P k) : Yields P (reserve b k) := by
  unfold Sys2Proof.reserve
  split
  · exact h
  · exact Yields.error _

end

/-- The scalar map holds scalar instructions. -/
theorem scalarRaw_yields (w : BitVec 32) (w2 : Option (BitVec 32)) : Yields (fun p => isScalar p.1 = true) (Decode.scalarRaw w w2) := by
  simp only [Decode.scalarRaw, Decode.rSR, Decode.rSR2, Decode.rA, Decode.rG, Decode.rNone, Decode.rD, Decode.rSI, Decode.rSh, Decode.rCmp, Decode.rCmpI,
    Decode.rSB, Decode.rSO, Decode.rHA, Decode.rH, Decode.rFence, Decode.rSX, Decode.rSatom, Decode.rScas, Decode.rSlit, Decode.rPhreg, Decode.rPh]
  split
  all_goals
    repeat' first | with_reducible exact Yields.error _ | with_reducible exact Yields.ok rfl | with_reducible refine Yields.reserve _ ?_ | split

/-- The lane map holds lane instructions. -/
theorem laneRaw_yields (f : LaneF) : Yields (fun i => isLane i = true) (Decode.laneRaw f) := by
  simp only [Decode.laneRaw, Decode.uUn, Decode.uBin, Decode.uTer, Decode.uCvt, Decode.uCmp, Decode.uSel, Decode.uPLog, Decode.uPNot, Decode.uMov,
    Decode.uMovi, Decode.uPlain, Decode.uMem, Decode.uAtom, Decode.uShift, Decode.uPerm, Decode.uRed, Decode.uVote, Decode.uElect, Decode.uMma,
    Decode.uMepi, Decode.uMtrd, Decode.uDist, Decode.uTopk, Decode.uTopkm, Decode.uCtl]
  split
  all_goals
    repeat' first | with_reducible exact Yields.error _ | with_reducible exact Yields.ok rfl | with_reducible refine Yields.reserve _ ?_ | split

/-- The packet map holds packets. -/
theorem packetRaw_yields (p : BitVec 512) : Yields (fun i => isPacket i = true) (Decode.packetRaw p) := by
  simp only [Decode.packetRaw, Decode.withHdr]
  split
  all_goals
    repeat' first | with_reducible exact Yields.error _ | with_reducible exact Yields.ok rfl | with_reducible refine Yields.reserve _ ?_ | split

theorem isScalar_of_decodeScalar {w : BitVec 32} {w2 : Option (BitVec 32)} {i : Instr} {n : Nat} (h : decodeScalar w w2 = .ok (i, n)) :
    isScalar i = true := by
  have hraw := scalarRaw_yields w w2
  unfold decodeScalar at h
  grind [Yields]

theorem isLane_of_decodeLane {w : BitVec 96} {i : Instr} (h : decodeLane w = .ok i) : isLane i = true := by
  have hraw := laneRaw_yields (LaneF.unpack w)
  unfold decodeLane decodeLaneF at h
  grind [Yields]

theorem isPacket_of_decodePacket {p : BitVec 512} {i : Instr} (h : decodePacket p = .ok i) : isPacket i = true := by
  have hraw := packetRaw_yields p
  unfold decodePacket at h
  grind [Yields]

/-! ### Turns (R93, R331, R355) -/

section
variable {s : State}

theorem isScalar_of_fetch {G : Group} {i : Instr} (h : fetchScalar s G = some i) : isScalar i = true := by
  unfold fetchScalar at h
  grind [isScalar_of_decodeScalar]

theorem isLane_of_fetch {G : Group} {n : Nat} {i : Instr} (h : fetchLane s G n = some i) : isLane i = true := by
  unfold fetchLane at h
  grind [isLane_of_decodeLane]

/-- A stream keeps the turn while it takes it. -/
theorem mget_tookTurn {g : Nat} {G : Group} (hg : mget s.groups g = some G) (str : Stream) :
    mget (tookTurn s g str).groups g = some (G.turns str ((s.die (dieOf G.core)).clk + Config.issueLatency s.tick g str.num)) := by
  rw [tookTurn, State.modGrp_groups, mget_mupd, if_pos rfl, hg]
  rfl

theorem mget_splits_turns {G : Group} {n : Nat} {S : Split} (hS : mget G.splits n = some S) (free : Nat) :
    mget (G.turns (.split n) free).splits n = some { S with free := free, ready := none } := by
  change mget (mupd G.splits n fun S => { S with free := free, ready := none }) n = _
  rw [mget_mupd, if_pos rfl, hS]
  rfl

theorem scalarTurn_isNext {g : Nat} (ht : s.turn = .scalar g) : IsNext (scalarTurn s g) := by
  unfold scalarTurn
  split
  case h_1 => exact IsNext.next _
  case h_2 G hg =>
    split
    · exact IsNext.next _
    · split
      · exact IsNext.next _
      · split
        case h_1 i hi => exact (exec_scalar_answers _ (isScalar_of_fetch hi)).isNext ⟨g, _, ht, mget_tookTurn hg _⟩
        case h_2 => exact IsNext.next _

theorem laneTurn_isNext {g n : Nat} (ht : s.turn = .lane g n) : IsNext (laneTurn s g n) := by
  unfold laneTurn
  split
  case h_1 => exact IsNext.next _
  case h_2 G hg =>
    split
    · exact IsNext.next _
    case isFalse hmay =>
      split
      · exact IsNext.next _
      · split
        case h_1 i hi =>
          have hS : (mget G.splits n).isSome = true := by
            simp only [laneMay, Bool.or_eq_true, Bool.not_eq_true', not_or, Bool.not_eq_false, Bool.and_eq_true] at hmay
            tauto
          obtain ⟨S, hS⟩ := Option.isSome_iff_exists.1 hS
          exact (exec_lane_answers _ (isLane_of_fetch hi)).isNext ⟨g, n, _, _, ht, mget_tookTurn hg _, mget_splits_turns hS _⟩
        case h_2 => exact IsNext.next _

theorem ostlerTurn_isNext (ht : s.turn = .ostler) : IsNext (ostlerTurn s) := by
  unfold ostlerTurn
  split
  · exact IsNext.next _
  · split
    case h_1 => exact IsNext.next _
    case h_2 q Q idx w hp =>
      split
      case h_1 i hi => exact (exec_packet_answers s (isPacket_of_decodePacket hi)).isNext ⟨ht, by rw [hp]; simp⟩
      case h_2 => exact IsNext.next _

/-- No instruction, packet, command or event is refused. -/
theorem exec_isNext_or_fault (s : State) (e : Instr) : IsNext (exec e s) ∨ ∃ f, exec e s = .fault f := by
  by_cases hs : isScalar e = true
  · exact (exec_scalar_answers s hs).imp_right And.right
  by_cases hl : isLane e = true
  · exact (exec_lane_answers s hl).imp_right And.right
  by_cases hp : isPacket e = true
  · exact (exec_packet_answers s hp).imp_right And.right
  · exact .inl (exec_event_isNext s (by simp [hs, hl, hp]))

theorem eventTurn_isNext (s : State) (e : Instr) : IsNext (eventTurn s e) := by
  unfold eventTurn
  rcases exec_isNext_or_fault s e with ⟨t, ht⟩ | ⟨f, hf⟩
  · rw [ht]; exact IsNext.next _
  · rw [hf]; exact IsNext.next _

theorem runTurn_isNext (s : State) : IsNext (runTurn s) := by
  unfold runTurn
  split
  · split <;> exact IsNext.next _
  · split
    case h_2 g ht => exact scalarTurn_isNext ht
    case h_3 g n ht => exact laneTurn_isNext ht
    case h_4 ht => exact ostlerTurn_isNext ht
    case h_18 e ht => exact eventTurn_isNext s e
    all_goals exact IsNext.next _

end

/-- Settles O59: a turn asks an instruction only of the stream that has it, and an event that faults leaves the state. -/
theorem everyStateSteps : Obligations.EveryStateSteps := by
  intro s
  obtain ⟨t, ht⟩ := runTurn_isNext s
  exact ⟨_, step_of_runTurn ht⟩

end Sys2Proof.Proofs
end

section
/-!
PROOFS. Which agents a scope holds, which writes a read may not look past, and the bytes that a store leaves (R230 to R232, R235, R237, R238).
-/

namespace Sys2Proof.Proofs
open Sys2Proof.Machine Sys2Proof.Claims

/-! ### Scope instances (R232) -/

theorem scopeInstances : Claims.ScopeInstances := by
  intro g b c h b' c' A
  refine ⟨by simp [A, reaches], by simp [A, reaches], by simp [A, reaches, clusterOf], by simp [A, reaches, dieOf], fun x => ?_, fun x => rfl, fun x hx => ?_⟩
  · cases x <;> simp [reaches]
  · cases x with
    | group h b c => exact absurd rfl (hx h b c)
    | _ => exact ⟨rfl, rfl, rfl, rfl⟩

/-! ### The bytes that a write leaves (R230) -/

theorem memRead_writeLE_outside (m : List Host.Cell) (a n x i : Nat) (h : i < a ∨ a + n ≤ i) : memRead (writeLE m a n x) i = memRead m i := by
  induction n generalizing m a x with
  | zero => rfl
  | succ n ih =>
    rw [writeLE, ih _ _ _ (by omega), memRead_memWrite, if_neg (by omega)]

/-- Every byte outside the bytes of the accesses of `m` reads in `t` as in `s`. -/
def SameOutside (m : MemOp) (s t : State) : Prop :=
  ∀ a, (∀ x ∈ m.acc, a < x.loc ∨ x.loc + m.ty.size ≤ a) → memRead t.mem a = memRead s.mem a

namespace SameOutside
variable {m : MemOp} {s t u : State}

theorem of_mem (h : t.mem = s.mem) : SameOutside m s t := fun _ _ => by rw [h]

theorem trans (h : SameOutside m s t) (k : SameOutside m t u) : SameOutside m s u := fun a ha => (k a ha).trans (h a ha)

end SameOutside

theorem auditWrite_sameOutside {m : MemOp} {x : LaneAcc} (hx : x ∈ m.acc) (s : State) (aud : Option (Nat × Bool)) (ctx y : Nat) (st : Stamp) :
    SameOutside m s (auditWrite s aud ctx x.loc (accSize m.ty) y st) := by
  intro a ha
  have hw : memRead (writeLE s.mem x.loc (accSize m.ty) y) a = memRead s.mem a := memRead_writeLE_outside _ _ _ _ _ (ha x hx)
  unfold auditWrite
  split
  · exact hw
  · dsimp only
    split
    · rfl
    · exact hw

/-- One lane of a store or an atomic writes only its own bytes. -/
theorem performLane_sameOutside {m : MemOp} (hk : m.kind.acks = true) {x : LaneAcc} (hx : x ∈ m.acc) (s : State) (k : Nat) (o : Op) :
    SameOutside m s (performLane s k o m x).1 := by
  unfold performLane
  extract_lets n old saw st atomic
  split
  case h_2 => exact auditWrite_sameOutside hx _ _ _ _ _
  case h_3 => exact auditWrite_sameOutside hx _ _ _ _ _
  case h_4 =>
    dsimp only
    split
    · exact auditWrite_sameOutside hx _ _ _ _ _
    · exact SameOutside.of_mem rfl
  all_goals simp_all [MKind.acks]

theorem performLanes_sameOutside {m : MemOp} (hk : m.kind.acks = true) (s : State) (k : Nat) (o : Op) (lanes : Mask) :
    SameOutside m s (performLanes s k o m lanes).1 := by
  unfold performLanes
  refine List.foldlRecOn _ _ (motive := fun x : State × List (Nat × Word) × List Nat => SameOutside m s x.1) (SameOutside.of_mem rfl) fun x hx a ha => ?_
  exact hx.trans (performLane_sameOutside hk (List.mem_of_mem_filter ha) x.1 k o)

theorem consumeAt_mem (s : State) (o : Op) (bad : List LaneAcc) : (consumeAt s o bad).mem = s.mem := by
  unfold consumeAt
  split
  · rfl
  · split
    · exact (groupError_quiet _ _ _ _).mem
    · rfl

theorem unpoison_mem (s : State) (bytes : List Nat) : (s.unpoison bytes).mem = s.mem := by
  unfold State.unpoison
  split <;> rfl

theorem performOp_sameOutside {m : MemOp} (hk : m.kind.acks = true) (s : State) (k : Nat) (o : Op) (lanes : Mask) :
    SameOutside m s (performOp s k o m lanes) := by
  unfold performOp
  extract_lets bad good
  have h := performLanes_sameOutside hk s k o good
  revert h
  cases performLanes s k o m good with
  | mk t r =>
    intro h
    refine h.trans (SameOutside.of_mem ?_)
    dsimp only
    rw [consumeAt_mem, (settleMem_quiet _ _).mem, unpoison_mem]
    rfl

theorem opMem_of_mget {s : State} {k : Nat} {o : Op} {m : MemOp} (ho : mget s.ops k = some o) (hm : o.body = .mem m) : opMem s k = some m := by
  rw [opMem, ho]
  simp only [hm]

theorem storesChangeOnlyTheirBytes : Claims.StoresChangeOnlyTheirBytes := by
  intro s t k part o m ho hm h
  change execStoreAck k part s = _ at h
  simp only [execStoreAck, ho, opMem_of_mget ho hm] at h
  split at h
  · cases h
    exact SameOutside.of_mem rfl
  case isFalse hready =>
    have hk : m.kind.acks = true := by simp_all
    have hcoh := reachLanes_coh s o m (m.todo &&& part)
    revert h hcoh
    cases reachLanes s o m (m.todo &&& part) with
    | mk s1 lanes =>
      intro h hcoh
      have h1 : SameOutside m s s1 := SameOutside.of_mem hcoh.mem
      dsimp only at h
      split at h
      · cases h
        exact h1
      · cases h
        -- which writes are still to be acknowledged plays no part
        exact h1.trans (performOp_sameOutside (m := { m with unack := m.unack &&& ~~~hostFree s m (m.unack &&& part) }) hk s1 k o lanes)

/-! ### Lists of numbers as sets, and views (R237) -/

theorem mem_insNat {l : List Nat} {i j : Nat} : j ∈ insNat l i ↔ j = i ∨ j ∈ l := by
  induction l with
  | nil => simp [insNat]
  | cons k l ih =>
    rw [insNat]
    split
    · simp_all
    · split
      · simp
      · simp only [List.mem_cons, ih]; tauto

theorem mem_sunion {a b : List Nat} {j : Nat} : j ∈ sunion a b ↔ j ∈ a ∨ j ∈ b := by
  unfold sunion
  induction b generalizing a with
  | nil => simp
  | cons k b ih => rw [List.foldl_cons, ih, mem_insNat, List.mem_cons]; tauto

/-- `w` holds the writes of `v`. -/
structure ViewLe (v w : View) : Prop where
  ops : ∀ x ∈ v.ops, x ∈ w.ops
  pos : ∀ x ∈ v.pos, x ∈ w.pos
  upto : v.upto ≤ w.upto

namespace ViewLe

theorem refl (v : View) : ViewLe v v := ⟨fun _ h => h, fun _ h => h, le_rfl⟩

theorem trans {u v w : View} (h : ViewLe u v) (k : ViewLe v w) : ViewLe u w :=
  ⟨fun x hx => k.ops x (h.ops x hx), fun x hx => k.pos x (h.pos x hx), h.upto.trans k.upto⟩

theorem join_left (v w : View) : ViewLe v (v.join w) :=
  ⟨fun _ h => mem_sunion.2 (.inl h), fun _ h => mem_sunion.2 (.inl h), le_max_left _ _⟩

theorem join_right (v w : View) : ViewLe w (v.join w) :=
  ⟨fun _ h => mem_sunion.2 (.inr h), fun _ h => mem_sunion.2 (.inr h), le_max_right _ _⟩

theorem join_le {u v w : View} (h : ViewLe u w) (k : ViewLe v w) : ViewLe (u.join v) w :=
  ⟨fun x hx => (mem_sunion.1 hx).elim (h.ops x) (k.ops x), fun x hx => (mem_sunion.1 hx).elim (h.pos x) (k.pos x), max_le h.upto k.upto⟩

/-- A fold whose every step keeps what it has holds what it began with. -/
theorem foldl {α : Type} {f : View → α → View} (hf : ∀ v x, ViewLe v (f v x)) (l : List α) (v : View) : ViewLe v (l.foldl f v) := by
  induction l generalizing v with
  | nil => exact refl v
  | cons x l ih => exact (hf v x).trans (ih _)

/-- Such a fold holds what the step of an element of the list brings. -/
theorem foldl_of_mem {α : Type} {f : View → α → View} (hf : ∀ v x, ViewLe v (f v x)) {l : List α} {a : α} (ha : a ∈ l) {w : View}
    (hw : ∀ v, ViewLe w (f v a)) (v : View) : ViewLe w (l.foldl f v) := by
  induction l generalizing v with
  | nil => cases ha
  | cons x l ih =>
    rcases List.mem_cons.1 ha with rfl | hl
    · exact (hw v).trans (foldl hf l _)
    · exact ih hl _

end ViewLe

/-- What an acquire gains from one write that it read. -/
def gainOf (s : State) (who : Agent) (sc : Scope) (v : View) (n : Nat) : View :=
  match s.writeNo n with
  | none => v
  | some e => e.stamp.rels.foldl (fun v r =>
      if reaches r.scope r.who who && reaches sc who r.who then (v.join r.view).join { pos := [n] } else v) v

theorem gain_eq (s : State) (who : Agent) (sc : Scope) (saw : List Nat) : gain s who sc saw = saw.foldl (gainOf s who sc) {} := rfl

theorem gainRelease_le (who : Agent) (sc : Scope) (n : Nat) (v : View) (r : Release) :
    ViewLe v (if reaches r.scope r.who who && reaches sc who r.who then (v.join r.view).join { pos := [n] } else v) := by
  split
  · exact (ViewLe.join_left _ _).trans (ViewLe.join_left _ _)
  · exact ViewLe.refl v

theorem gainOf_le (s : State) (who : Agent) (sc : Scope) (v : View) (n : Nat) : ViewLe v (gainOf s who sc v n) := by
  unfold gainOf
  split
  · exact ViewLe.refl v
  · exact ViewLe.foldl (gainRelease_le who sc n) _ v

/-- An acquire that reads a write gains from each of its releases that reaches it and that it reaches (R237). -/
theorem le_gain {s : State} {who : Agent} {sc : Scope} {saw : List Nat} {w : MemWrite} (hn : w.n ∈ saw) (hw : s.writeNo w.n = some w) {r : Release}
    (hr : r ∈ w.stamp.rels) (h1 : reaches r.scope r.who who = true) (h2 : reaches sc who r.who = true) :
    ViewLe (r.view.join { pos := [w.n] }) (gain s who sc saw) := by
  rw [gain_eq]
  refine ViewLe.foldl_of_mem (gainOf_le s who sc) hn (fun v => ?_) _
  rw [gainOf, hw]
  refine ViewLe.foldl_of_mem (gainRelease_le who sc w.n) hr (fun v => ?_) v
  rw [if_pos (by rw [h1, h2]; rfl)]
  exact ViewLe.join_le ((ViewLe.join_right _ _).trans (ViewLe.join_left _ _)) (ViewLe.join_right _ _)

/-! ### The writes that come before an access (R231, R237) -/

section
variable {s : State} {e : Earlier}

/-- The three folds of the closure: the operations, the acquires, and the writes that a sequential fence has seen. -/
def opsView (s : State) (e : Earlier) : View := e.ops.foldl (fun v k => (v.join (s.pastView k)).join { ops := [k] }) e.view

def acqView (s : State) (e : Earlier) : View :=
  e.acq.foldl (fun v a => ((v.join (s.pastView a.op)).join { ops := [a.op] }).join (gain s a.who a.scope (s.saw a.op))) (opsView s e)

theorem opsView_le (v : View) (k : Nat) : ViewLe v ((v.join (s.pastView k)).join { ops := [k] }) :=
  (ViewLe.join_left _ _).trans (ViewLe.join_left _ _)

theorem acqView_le_viewOf : ViewLe (acqView s e) (s.viewOf e) := by
  change ViewLe (acqView s e) (e.seen.foldl _ (acqView s e))
  refine ViewLe.foldl (fun v k => ViewLe.foldl (fun v n => ?_) _ v) _ _
  split
  · exact ((ViewLe.join_left _ _).trans (ViewLe.join_left _ _)).trans (ViewLe.join_left _ _)
  · exact ViewLe.refl v

theorem opsView_le_acqView : ViewLe (opsView s e) (acqView s e) :=
  ViewLe.foldl (fun v (a : AcqRead) => (opsView_le v a.op).trans (ViewLe.join_left _ _)) _ _

theorem opsView_le_viewOf : ViewLe (opsView s e) (s.viewOf e) := opsView_le_acqView.trans acqView_le_viewOf

theorem view_le_viewOf : ViewLe e.view (s.viewOf e) := (ViewLe.foldl opsView_le _ _).trans opsView_le_viewOf

/-- An operation that comes before is in the closure, with what it puts before what follows it. -/
theorem op_le_viewOf {k : Nat} (hk : k ∈ e.ops) : ViewLe ((s.pastView k).join { ops := [k] }) (s.viewOf e) := by
  refine ViewLe.trans (ViewLe.foldl_of_mem opsView_le hk (fun v => ?_) _) opsView_le_viewOf
  exact ViewLe.join_le ((ViewLe.join_right _ _).trans (ViewLe.join_left _ _)) (ViewLe.join_right _ _)

/-- What an acquire that comes before has gained is in the closure. -/
theorem acq_le_viewOf {a : AcqRead} (ha : a ∈ e.acq) : ViewLe (gain s a.who a.scope (s.saw a.op)) (s.viewOf e) := by
  refine ViewLe.trans (ViewLe.foldl_of_mem (fun v (a : AcqRead) => (opsView_le v a.op).trans (ViewLe.join_left _ _)) ha (fun v => ?_) _) acqView_le_viewOf
  exact ViewLe.join_right _ _

end

/-! ### The writes that a read may not look past (R231, R235, R238) -/

/-- A write is among those of a view, as the statement says it. -/
def InView (e : MemWrite) (v : View) : Prop := e.stamp.op ∈ v.ops ∨ e.n ∈ v.pos ∨ e.n < v.upto

theorem InView.mono {e : MemWrite} {v w : View} (h : InView e v) (hle : ViewLe v w) : InView e w :=
  h.imp (hle.ops _) (Or.imp (hle.pos _) fun h => h.trans_le hle.upto)

/-- What a stream knows: the writes of its view, its own, and those that it has read. -/
theorem ord_knows_iff {s : State} {o : Ord} {e : MemWrite} :
    o.knows s e = true ↔ InView e ((s.viewOf o.before).join o.mine) ∨ e.stamp.op ∈ o.ran ∨ ∃ k ∈ o.ran, e.n ∈ s.saw k := by
  simp only [Ord.knows, InView, Bool.or_eq_true, decide_eq_true_eq, List.contains_iff_mem, List.mem_flatMap]
  tauto

theorem mem_ran {o : Ord} {k : Nat} : k ∈ o.ran ↔ k ∈ o.own ∨ k ∈ o.prior := mem_sunion

section
variable {s : State} {o : Ord} {e : MemWrite}

theorem knows_of_view {v : View} (h : InView e v) (hle : ViewLe v (s.viewOf o.before)) : o.knows s e = true :=
  ord_knows_iff.2 (.inl (h.mono (hle.trans (ViewLe.join_left _ _))))

theorem knows_of_ran {k : Nat} (hk : k ∈ o.own ∨ k ∈ o.prior) (h : e.stamp.op = k ∨ e.n ∈ s.saw k) : o.knows s e = true := by
  rw [← mem_ran] at hk
  exact ord_knows_iff.2 (.inr (h.imp (fun h => by rwa [h]) fun h => ⟨k, hk, h⟩))

theorem knows_of_before {k : Nat} (hk : k ∈ o.before.ops) (h : e.stamp.op = k ∨ InView e (s.pastView k)) : o.knows s e = true := by
  rcases h with h | h
  · exact knows_of_view (.inl (by simp [h]) : InView e { ops := [k] }) ((ViewLe.join_right _ _).trans (op_le_viewOf hk))
  · exact knows_of_view h ((ViewLe.join_left _ _).trans (op_le_viewOf hk))

end

/-- An operation that has acquired leaves what it gained. -/
theorem gain_le_pastOf (s : State) (k : Nat) {p : Op} (h : p.acq = true) : ViewLe (gain s p.agent p.scope (s.saw k)) (pastOf s k p).view := by
  simp only [pastOf, h, if_true]
  exact ViewLe.join_right _ _

/-- A release of its own holds what the stream did and what came before. -/
theorem release_of_relse (s : State) {p : Op} (h : p.relse = true) :
    ∃ r ∈ p.releases s, r.who = p.agent ∧ r.scope = p.scope ∧ ∀ k, k ∈ p.ord.own ∨ k ∈ p.ord.before.ops → k ∈ r.view.ops := by
  refine ⟨_, List.mem_append_left _ (by rw [if_pos h]; exact List.mem_singleton_self _), rfl, rfl, fun k hk => ?_⟩
  have hmem : k ∈ p.ord.earlier.ops := mem_sunion.2 hk.symm
  exact ((ViewLe.join_right _ _).trans (op_le_viewOf hmem)).ops k (List.mem_singleton_self k)

/-- A release fence before a write gives it a release of what the fence ordered. -/
theorem release_of_fence (s : State) {p : Op} {f : Scope × Earlier} (hf : f ∈ p.ord.fences) :
    ∃ r ∈ p.releases s, r.who = p.agent ∧ r.scope = f.1 ∧ ∀ k ∈ f.2.ops, k ∈ r.view.ops := by
  refine ⟨_, List.mem_append_right _ (List.mem_map_of_mem hf), rfl, rfl, fun k hk => ?_⟩
  exact ((ViewLe.join_right _ _).trans (op_le_viewOf hk)).ops k (List.mem_singleton_self k)

/-- A byte that none of the newest writes touches stands as it is. -/
theorem byteBack_of_untouched {h : List MemWrite} {j a : Nat} {b : Byte} (hu : ∀ e ∈ h.take j, ¬ (e.loc ≤ a ∧ a < e.loc + e.was.length)) :
    byteBack h j a b = b := by
  induction h generalizing j with
  | nil => rfl
  | cons e h ih =>
    cases j with
    | zero => rfl
    | succ j =>
      have he := hu e (by simp)
      rw [byteBack, if_neg (by simpa using he)]
      exact ih fun f hf => hu f (by simp [hf])

/-- The bytes of memory, folded from the top one, are the number that they make. -/
theorem foldr_bytes_eq_readLE (m : List Host.Cell) (a n : Nat) :
    (List.range n).foldr (fun i y => (memRead m (a + i)).toNat + 256 * y) 0 = readLE m a n := by
  induction n generalizing a with
  | zero => rfl
  | succ n ih =>
    rw [List.range_succ_eq_map, List.foldr_cons, List.foldr_map, readLE, ← ih (a + 1)]
    simp only [Nat.add_zero, Nat.succ_eq_add_one, Nat.add_assoc, Nat.add_comm 1]

/-- A read that may look past no write gives the bytes as they stand. -/
theorem mayRead_of_knows {s : State} {knows after : MemWrite → Bool} {loc n x : Nat}
    (h : ∀ e ∈ s.hist, Touches loc n e → knows e = true ∧ after e = false) (hx : MayRead s knows after loc n x) : x = s.read loc n := by
  obtain ⟨j, hx, -, hj⟩ := hx
  have hnone : ∀ e ∈ s.hist.take j, ¬ Touches loc n e := by
    rcases hj with hj | ⟨l, e, h', hhist, -, -, f, hf, hft, hfa⟩
    · intro e he ht
      have hk := (h e (List.mem_of_mem_take he) ht).1
      rw [hj e he ht] at hk
      cases hk
    · have hk := (h f (by rw [hhist]; exact List.mem_append_right _ hf) hft).2
      rw [hfa] at hk
      cases hk
  rw [hx, State.read, ← foldr_bytes_eq_readLE]
  refine List.foldr_ext _ _ _ fun i hi y => ?_
  have hin := List.mem_range.1 hi
  rw [byteBack_of_untouched fun e he hc => hnone e he ⟨by omega, by omega⟩]
  rfl

theorem readsFollowTheOrder : Claims.ReadsFollowTheOrder := by
  refine ⟨fun s o e => ?_, fun s k p hacq w hn hw r hr h1 h2 => ?_, fun s p => ⟨release_of_relse s, fun f => release_of_fence s⟩,
    fun s knows after loc n x => mayRead_of_knows⟩
  · refine ⟨fun k => knows_of_ran, fun k => knows_of_before, fun h => ?_, fun a ha w hn hw r hr h1 h2 h => ?_, fun ran b k hk => .inr (mem_sunion.2 hk),
      fun p => ⟨fun h => by simp [Op.knows, h], fun h1 h2 => by simp [Op.knows, h1, dieOf, h2]⟩⟩
    · rcases h with h | h
      · exact knows_of_view h view_le_viewOf
      · exact ord_knows_iff.2 (.inl (InView.mono h (ViewLe.join_right _ _)))
    · have hle := (le_gain hn hw hr h1 h2).trans (acq_le_viewOf (s := s) ha)
      rcases h with h | h
      · exact knows_of_view (.inr (.inl (by simp [h])) : InView e { pos := [w.n] }) ((ViewLe.join_right _ _).trans hle)
      · exact knows_of_view h ((ViewLe.join_left _ _).trans hle)
  · have hle := (le_gain hn hw hr h1 h2).trans (gain_le_pastOf s k hacq)
    have hview := (ViewLe.join_left _ _).trans hle
    exact ⟨((ViewLe.join_right _ _).trans hle).pos _ (List.mem_singleton_self _), hview.ops, hview.pos, hview.upto⟩

end Sys2Proof.Proofs
end

section
/-!
PROOFS. How an operation of the scalar stream ends (R37, R109, R111, R231, R238, R257).
-/

namespace Sys2Proof.Proofs
open Sys2Proof.Machine Sys2Proof.Claims

/-! ### Which writes a read looks past (R231, R238) -/

section
variable {knows after : MemWrite → Bool} {a n : Nat}

/-- The test of a write against a range is the statement's. -/
theorem touches_iff (e : MemWrite) : (decide (e.loc < a + n) && decide (a < e.loc + e.was.length)) = true ↔ Touches a n e := by
  rw [Bool.and_eq_true, decide_eq_true_eq, decide_eq_true_eq]

/-- Every number of newest writes that may be looked past holds none that is known. -/
theorem not_knows_of_mem_passes {h : List MemWrite} {i j : Nat} (hj : j ∈ passes knows a n h i) :
    i < j ∧ ∀ e ∈ h.take (j - i), Touches a n e → knows e = false := by
  induction h generalizing i with
  | nil => cases hj
  | cons e h ih =>
    rw [passes] at hj
    have hrest (hm : j ∈ passes knows a n h (i + 1)) (he : Touches a n e → knows e = false) :
        i < j ∧ ∀ e' ∈ (e :: h).take (j - i), Touches a n e' → knows e' = false := by
      obtain ⟨hlt, hall⟩ := ih hm
      have hsub : j - i = (j - (i + 1)) + 1 := by omega
      refine ⟨by omega, fun f hf => ?_⟩
      rw [hsub, List.take_succ_cons] at hf
      rcases List.mem_cons.1 hf with rfl | hf
      · exact he
      · exact hall f hf
    split at hj
    case isTrue ht =>
      split at hj
      · cases hj
      case isFalse hk =>
        have hk' : knows e = false := by simpa using hk
        rcases List.mem_cons.1 hj with rfl | hj
        · refine ⟨by omega, fun f hf _ => ?_⟩
          have hf' : f = e := by simpa using hf
          rw [hf', hk']
        · exact hrest hj fun _ => hk'
    case isFalse ht => exact hrest hj fun h => absurd ((touches_iff e).2 h) ht

/-- Up to a write that touches the range, all may be looked past if none is known. -/
theorem mem_passes_of_not_knows {l : List MemWrite} {f : MemWrite} {r : List MemWrite} (hf : Touches a n f)
    (hk : ∀ e ∈ l ++ [f], Touches a n e → knows e = false) (i : Nat) : i + l.length + 1 ∈ passes knows a n (l ++ f :: r) i := by
  induction l generalizing i with
  | nil =>
    rw [List.nil_append, passes, if_pos ((touches_iff f).2 hf), hk f (by simp) hf]
    exact List.mem_cons_self
  | cons e l ih =>
    have hmem : i + (e :: l).length + 1 ∈ passes knows a n (l ++ f :: r) (i + 1) := by
      have := ih (fun e he => hk e (by simp at he ⊢; tauto)) (i + 1)
      rwa [List.length_cons, show i + (l.length + 1) + 1 = i + 1 + l.length + 1 by omega]
    rw [List.cons_append, passes]
    split
    case isTrue ht =>
      rw [hk e (by simp) ((touches_iff e).1 ht)]
      exact List.mem_cons_of_mem _ hmem
    case isFalse => exact hmem

/-- How many writes a read must look past: up to the last of those that it happens before. -/
theorem mustPass_cases (after : MemWrite → Bool) (a n : Nat) (h : List MemWrite) (i k : Nat) :
    (mustPass after a n h i k = k ∧ ∀ e ∈ h, Touches a n e → after e = false) ∨
      ∃ l f r, h = l ++ f :: r ∧ Touches a n f ∧ after f = true ∧ (∀ e ∈ r, Touches a n e → after e = false) ∧
        mustPass after a n h i k = i + l.length + 1 := by
  induction h generalizing i k with
  | nil => exact .inl ⟨rfl, fun _ h => nomatch h⟩
  | cons e h ih =>
    rw [mustPass]
    rcases ih (i + 1) (if decide (e.loc < a + n) && decide (a < e.loc + e.was.length) && after e then i + 1 else k) with ⟨hk, hall⟩ | ⟨l, f, r, rfl, hf, hfa, hr, hk⟩
    · by_cases he : (decide (e.loc < a + n) && decide (a < e.loc + e.was.length) && after e) = true
      · rw [if_pos he] at hk ⊢
        obtain ⟨ht, ha⟩ := Bool.and_eq_true_iff.1 he
        exact .inr ⟨[], e, h, rfl, (touches_iff e).1 ht, ha, hall, hk⟩
      · rw [if_neg he] at hk ⊢
        refine .inl ⟨hk, fun f hf ht => ?_⟩
        rcases List.mem_cons.1 hf with rfl | hf
        · simpa [ht.1, ht.2] using he
        · exact hall f hf ht
    · exact .inr ⟨e :: l, f, r, rfl, hf, hfa, hr, hk.trans (by rw [List.length_cons]; omega)⟩

/-- None of the writes after which a read must look is left when it looks past at least as many. -/
theorem not_after_of_mustPass_le {h : List MemWrite} {j : Nat} (hj : mustPass after a n h 0 0 ≤ j) :
    ∀ e ∈ h.drop j, Touches a n e → after e = false := by
  intro e he
  rcases mustPass_cases after a n h 0 0 with ⟨-, hall⟩ | ⟨l, f, r, rfl, -, -, hr, hk⟩
  · exact hall e (List.mem_of_mem_drop he)
  · have hdrop : (l ++ f :: r).drop j = r.drop (j - (l.length + 1)) := by
      rw [List.append_cons, List.drop_append, List.drop_eq_nil_of_le (by simp; omega)]
      simp
    rw [hdrop] at he
    exact hr e (List.mem_of_mem_drop he)

/-- Where a read may not look past all that it must, a known write stands before one that it must look past. -/
theorem exists_known_of_mustPass_not_mem {h : List MemWrite} (hno : mustPass after a n h 0 0 ∉ 0 :: passes knows a n h 0) :
    ∃ l e h', h = l ++ e :: h' ∧ Touches a n e ∧ knows e = true ∧ ∃ f ∈ e :: h', Touches a n f ∧ after f = true := by
  rcases mustPass_cases after a n h 0 0 with ⟨h0, -⟩ | ⟨l, f, r, hh, hf, hfa, -, hlast⟩
  · exact absurd (by rw [h0]; exact List.mem_cons_self) hno
  have hknown : ∃ e ∈ l ++ [f], Touches a n e ∧ knows e = true := by
    by_contra hnk
    have hmem := mem_passes_of_not_knows (knows := knows) (r := r) hf (fun e he ht => by
      by_contra hk
      exact hnk ⟨e, he, ht, by simpa using hk⟩) 0
    rw [← hh, ← hlast] at hmem
    exact hno (List.mem_cons_of_mem _ hmem)
  obtain ⟨e, he, ht, hke⟩ := hknown
  obtain ⟨l1, l2, hsplit⟩ := List.append_of_mem he
  have hfl : f ∈ e :: l2 := by
    have hend := congrArg List.getLast? hsplit
    rw [List.getLast?_append_of_ne_nil _ (by simp), List.getLast?_append_of_ne_nil _ (by simp), List.getLast?_singleton] at hend
    exact List.mem_of_getLast? hend.symm
  refine ⟨l1, e, l2 ++ r, ?_, ht, hke, f, ?_, hf, hfa⟩
  · rw [hh, List.append_cons, hsplit, List.append_assoc, List.cons_append]
  · rw [← List.cons_append]
    exact List.mem_append_left _ hfl

end

/-- A read gives what the order allows. -/
theorem readAt_mayRead (s : State) (knows after : MemWrite → Bool) (use a n : Nat) : MayRead s knows after a n (s.readAt knows after use a n).1 := by
  let least := mustPass after a n s.hist 0 0
  let ks := (0 :: passes knows a n s.hist 0).filter (decide <| least ≤ ·)
  let k := if ks.length ≤ 1 then least else ks.getD (Config.freeNat s.tick use % ks.length) least
  have hpass {j : Nat} (hj : j ∈ ks) : least ≤ j ∧ ∀ e ∈ s.hist.take j, Touches a n e → knows e = false := by
    obtain ⟨hj, hle⟩ := List.mem_filter.1 hj
    refine ⟨by simpa using hle, ?_⟩
    rcases List.mem_cons.1 hj with rfl | hj
    · simp
    · exact (not_knows_of_mem_passes hj).2
  refine ⟨k, rfl, ?_⟩
  by_cases hl : ks.length ≤ 1
  · rw [show k = least from if_pos hl]
    refine ⟨not_after_of_mustPass_le le_rfl, ?_⟩
    by_cases hne : ∃ j, j ∈ ks
    · obtain ⟨j, hj⟩ := hne
      obtain ⟨hle, hall⟩ := hpass hj
      exact .inl fun e he => hall e ((List.take_prefix_take_left hle).subset he)
    · exact .inr (exists_known_of_mustPass_not_mem fun hm => hne ⟨least, List.mem_filter.2 ⟨hm, by simp⟩⟩)
  · have hlt : Config.freeNat s.tick use % ks.length < ks.length := Nat.mod_lt _ (by omega)
    have hk : k = ks[Config.freeNat s.tick use % ks.length] := by
      rw [show k = _ from if_neg hl, List.getD_eq_getElem _ _ hlt]
    obtain ⟨hle, hall⟩ := hpass (hk ▸ List.getElem_mem hlt)
    exact ⟨not_after_of_mustPass_le hle, .inl hall⟩

end Sys2Proof.Proofs
end

section
/-!
PROOFS. How an operation of the scalar stream ends: its counters, its bytes and its registers (R37, R109, R111, R257).
-/

namespace Sys2Proof.Proofs
open Sys2Proof.Machine Sys2Proof.Claims

/-! ### Operations that nothing else waits for (R37, R207) -/

theorem settleRuns_of_nil {s : State} (h : s.runUnits = []) : settleRuns s = s := by
  unfold settleRuns
  rw [h]; rfl

/-- An operation with no drain unit leaves. -/
theorem dropOp_of_unit_none {s : State} {k : Nat} {o : Op} (ho : mget s.ops k = some o) (hu : o.unit = none) (hr : s.runUnits = []) :
    dropOp s k = { s with ops := mdel s.ops k, past := mput s.past k (pastOf s k o) } := by
  simp only [dropOp, ho, hu]
  exact settleRuns_of_nil hr

/-- The operation as its counters have fallen. -/
def countersFallen (ld st : Bool) (o : Op) : Op := { o with ldc := o.ldc && !ld, stc := o.stc && !st }

section
variable {s : State} {k g : Nat} {o : Op} {m : MemOp}

/-- A memory operation of which nothing is left: its counters fall, and it leaves. -/
theorem settleMem_of_over (ho : mget s.ops k = some o) (hm : o.body = .mem m) (hg : o.grp = some g) (hu : o.unit = none) (hr : s.runUnits = [])
    (hlo : m.lo = 0) (hhi : m.hi = 0) (htodo : m.todo = 0) (hun : m.unack = 0) (hmore : m.more = false) :
    ∃ p, settleMem s k = { s with groups := mupd s.groups g fun G => G.fall o.ldc o.stc false false,
                                  ops := mdel (mupd s.ops k (countersFallen o.ldc o.stc)) k, past := p } := by
  simp only [settleMem, ho, hm, hlo, hhi, htodo, hun, hmore, hg, modGrp?, Bool.and_true, decide_true, Bool.not_false, if_true]
  refine ⟨_, dropOp_of_unit_none (o := countersFallen o.ldc o.stc o) ?_ hu hr⟩
  change mget (mupd s.ops k (countersFallen o.ldc o.stc)) k = _
  rw [mget_mupd_same, ho]
  rfl

/-- A memory operation of which all is performed and acknowledged, and that has still to bring a value: its store counter falls. -/
theorem settleMem_of_loading (ho : mget s.ops k = some o) (hm : o.body = .mem m) (hg : o.grp = some g) (hr : s.runUnits = [])
    (hlo : m.lo ≠ 0) (htodo : m.todo = 0) (hun : m.unack = 0) (hmore : m.more = false) :
    settleMem s k = { s with groups := mupd s.groups g fun G => G.fall false o.stc false false,
                             ops := mupd s.ops k (countersFallen false o.stc) } := by
  have hf : (fun o' : Op => { o' with ldc := o'.ldc && !false, stc := o'.stc && !o.stc }) = countersFallen false o.stc := rfl
  simp only [settleMem, ho, hm, hlo, htodo, hun, hmore, hg, modGrp?, Bool.and_true, Bool.and_false, Bool.false_and, decide_true, decide_false,
    Bool.not_false, Bool.false_eq_true, if_false] at hf ⊢
  rw [settleRuns_of_nil (by exact hr), hf]
  rfl

end

/-! ### One lane (R109, R111) -/

/-- The mask of a property holds the lanes that have it. -/
theorem getLsbD_maskOf (f : Nat → Bool) (i : Nat) : (maskOf f).getLsbD i = (decide (i < 256) && f i) := by
  have hfold (n : Nat) (hn : n ≤ 256) : ((List.range n).foldl (fun (m : Mask) i => if f i then m ||| (1 <<< i) else m) 0).getLsbD i = (decide (i < n) && f i) := by
    induction n with
    | zero => simp
    | succ n ih =>
      have hbit : ((1 <<< n : Nat) : Mask).getLsbD i = decide (i = n) := by
        change (BitVec.ofNat 256 (1 <<< n)).getLsbD i = _
        rw [BitVec.getLsbD_ofNat, Nat.one_shiftLeft, Nat.testBit_two_pow]
        by_cases h : i = n
        · simp [h, show n < 256 by omega]
        · simp [h, Ne.symm h]
      rw [List.range_succ, List.foldl_append, List.foldl_cons, List.foldl_nil]
      have hi := ih (by omega)
      by_cases hf : f n = true
      · rw [if_pos hf, BitVec.getLsbD_or, hi, hbit]
        by_cases hin : i = n
        · simp [hin, hf]
        · simp [hin, show i < n + 1 ↔ i < n by omega]
      · rw [if_neg hf, hi]
        by_cases hin : i = n
        · simp [hin, hf]
        · simp [show i < n + 1 ↔ i < n by omega]
  exact hfold 256 le_rfl

theorem gotMask_nil {m : MemOp} (h : m.got = []) : gotMask m = 0 := by
  apply BitVec.eq_of_getLsbD_eq
  intro i _
  simp [gotMask, h, getLsbD_maskOf]

theorem gotMask_zero {m : MemOp} {x : Word} (h : m.got = [(0, x)]) : gotMask m = 1 := by
  apply BitVec.eq_of_getLsbD_eq
  intro i hi
  rw [gotMask, h, getLsbD_maskOf, show (1 : Mask) = BitVec.twoPow 256 0 from rfl, BitVec.getLsbD_twoPow]
  simp [hi, eq_comm]

section
variable {s : State} {o : Op} {m : MemOp} {a : LaneAcc}

/-- The one lane of a scalar access can be reached, or waits. -/
theorem reachLanes_one (hacc : m.acc = [a]) (ha : a.lane = 0) :
    reachLanes s o m 1 = ((reachLine s (opVia o m) (opWrites o m) a.loc).elim (s, 0) fun t => (t, 1)) := by
  have h1 : (1 : Mask).getLsbD a.lane = true := by rw [ha]; decide
  rw [reachLanes, hacc, List.filter_cons_of_pos (by exact h1), List.filter_nil, List.foldl_cons, List.foldl_nil]
  dsimp only
  cases reachLine s (opVia o m) (opWrites o m) a.loc with
  | none =>
    have hz : (1 : Mask) &&& ~~~((1 : Mask) <<< a.lane) = 0 := by rw [ha]; decide
    simp only [Option.elim_none, hz]
  | some t => simp only [Option.elim_some]

theorem performLanes_one (hacc : m.acc = [a]) (ha : a.lane = 0) (k : Nat) :
    performLanes s k o m 1 = ((performLane s k o m a).1, [(0, (performLane s k o m a).2.1)], sunion [] (performLane s k o m a).2.2) := by
  have h1 : (1 : Mask).getLsbD a.lane = true := by rw [ha]; decide
  rw [performLanes, hacc, List.filter_cons_of_pos (by exact h1), List.filter_nil, List.foldl_cons, List.foldl_nil, ha]
  rfl

theorem poisonedLanes_of_nil (h : s.poison = []) (lanes : Mask) : poisonedLanes s m lanes = [] := by
  rw [poisonedLanes, h]; rfl

theorem unpoison_of_nil (h : s.poison = []) (bytes : List Nat) : s.unpoison bytes = s := by
  rw [State.unpoison, h]; rfl

theorem depsGone_of_follows (h : FollowsNothing s o) : depsGone s o = true := by
  obtain ⟨h1, h2, -⟩ := h
  rw [depsGone, h1, h2]; rfl

theorem relGone_of_follows (h : FollowsNothing s o) : relGone s o m = true := by
  obtain ⟨-, -, h3⟩ := h
  rw [relGone, h3]; rfl

end

theorem maskOf_false : maskOf (fun _ => false) = 0 := by
  apply BitVec.eq_of_getLsbD_eq
  intro i _
  simp [getLsbD_maskOf]

/-! ### A load ends (R109, R231, R238) -/

/-- The memory operation of one lane, as scalar instructions issue it (R109, R111). -/
def scalarOp (kind : MKind) (ty : Ty) (dst : Dst) (a : LaneAcc) (todo lo : Mask) : MemOp :=
  { kind := kind, ty := ty, dst := dst, acc := [a], todo := todo, lo := lo, hi := 0 }

/-- The operation with another state of its accesses. -/
def withMem (m : MemOp) (o : Op) : Op := { o with body := .mem m }

section
variable {s : State} {k g : Nat} {o : Op} {ty : Ty} {dst : Dst} {a : LaneAcc}

theorem loadVals_scalarOp (ha : a.lane = 0) : loadVals s k o (scalarOp .load ty dst a 0 1) 1 =
    ([(0, BitVec.ofNat 64 (s.readOf k o (256 * k) a.loc (accSize ty)).1)], sunion [] (s.readOf k o (256 * k) a.loc (accSize ty)).2) := by
  have h1 : ((1 : Mask).getLsbD a.lane && !(([] : List (Nat × Word)).map (·.1)).contains a.lane) = true := by rw [ha]; decide
  rw [loadVals, scalarOp, List.filter_cons_of_pos (by exact h1), List.filter_nil, List.foldl_cons, List.foldl_nil, ha]
  rfl

/-- The value of the one lane arrives: the register is written, and nothing of the operation is left. -/
theorem loadComplete_of_reached {t : State} {m : MemOp} {want : Mask} (ho : mget s.ops k = some o) (hm : o.body = .mem m) (hf : FollowsNothing s o)
    (hlo : m.lo = 1) (hhi : m.hi = 0) (htodo : m.todo = 0) (hable : m.kind = .load ∨ gotMask m = 1)
    (hwant : (if m.kind = .load then (1 : Mask) &&& ~~~gotMask m else 0) = want) (ht : reachLanes s o m want = (t, want)) (hp : t.poison = []) :
    exec (.loadComplete k 1 0) s = .next (settleMem ((writeDst t o m 1 0 (loadVals t k o m 1).1).modOp k
      (withMem { m with lo := 0, hi := 0, got := [], saw := (loadVals t k o m 1).2 })) k) := by
  have hlo1 : (1 : Mask) &&& 1 &&& (if m.kind = .load then Mask.all else gotMask m) = 1 := by
    split
    · decide
    · next hk => rw [hable.resolve_left hk]; decide
  have hhi0 (x : Mask) : m.hi &&& x = 0 := by rw [hhi]; exact BitVec.zero_and
  have hz (x : Mask) : (0 : Mask) &&& x = 0 := BitVec.zero_and
  have hor : (1 : Mask) ||| 0 = 1 := by decide
  have hself : (1 : Mask) &&& ~~~(want &&& ~~~want) = 1 := by
    rw [show want &&& ~~~want = 0 by ext i hi; simp]; decide
  have hall : (1 : Mask) &&& ~~~(0 : Mask) = 1 := by decide
  have hnone : (1 : Mask) &&& ~~~(1 : Mask) &&& ~~~(0 : Mask) = 0 := by decide
  have hone : (1 : Mask) ≠ 0 := by decide
  have hbit (i : Nat) : (0 : Mask).getLsbD i = false := BitVec.getLsbD_zero
  change execLoadComplete k 1 0 s = _
  delta execLoadComplete
  simp only [ho, opMem_of_mget ho hm, depsGone_of_follows hf, Bool.not_true, Bool.false_eq_true, if_false, hlo1, hhi0, hor, hz, hwant, ht, hself,
    hone, poisonedLanes_of_nil hp, List.any_nil, maskOf_false, hall, hlo, hnone, htodo, hbit, Bool.or_self, List.filter_false]
  rfl

/-- A load whose line cannot be reached waits. -/
theorem loadComplete_of_unreached {m : MemOp} (ho : mget s.ops k = some o) (hm : o.body = .mem m) (hf : FollowsNothing s o)
    (hlo : m.lo = 1) (hhi : m.hi = 0) (hkind : m.kind = .load) (hgot : gotMask m = 0) (ht : reachLanes s o m 1 = (s, 0)) :
    exec (.loadComplete k 1 0) s = .next s := by
  have hlo1 : (1 : Mask) &&& 1 &&& Mask.all = 1 := by decide
  have hhi0 (x : Mask) : m.hi &&& x = 0 := by rw [hhi]; exact BitVec.zero_and
  have hz (x : Mask) : (0 : Mask) &&& x = 0 := BitVec.zero_and
  have hor : (1 : Mask) ||| 0 = 1 := by decide
  have hall : (1 : Mask) &&& ~~~(0 : Mask) = 1 := by decide
  have hnone : (1 : Mask) &&& ~~~(1 : Mask) ||| 0 = 0 := by decide
  change execLoadComplete k 1 0 s = _
  delta execLoadComplete
  simp only [ho, opMem_of_mget ho hm, depsGone_of_follows hf, Bool.not_true, Bool.false_eq_true, if_false, hkind, if_true, hlo, hlo1, hhi0, hor, hgot, hall,
    ht, hz, hnone]

/-- The value of the one lane goes to the scalar register. -/
theorem writeDst_scalar {m : MemOp} {d : SReg} {x : Word} (hd : m.dst = .s d.toNat) (hg : o.grp = some g) :
    writeDst s o m 1 0 [(0, x)] = s.modGrp g fun G => G.ws d x := by
  have hone : (1 : Mask) ≠ 0 := by decide
  simp only [writeDst, hd, hg, modGrp?, hone, if_false, List.find?_cons, beq_self_eq_true, Option.map_some, Option.getD_some, BitVec.ofNat_toNat,
    BitVec.setWidth_eq]

/-- A scalar register is written, and the load counter falls: in either order. -/
theorem fall_ws (G : Group) (d : SReg) (x : Word) : (G.ws d x).fall true false false false = { G.ws d x with cld := G.cld - 1 } := by
  unfold Group.fall Group.ws
  split <;> rfl

/-- The load operation's register is written, its counter falls, and it leaves. -/
theorem loadComplete_over {t : State} {m : MemOp} {want : Mask} {d : SReg} {x : Word} {saw : List Nat} {G : Group}
    (ho : mget s.ops k = some o) (hm : o.body = .mem m) (hf : FollowsNothing s o)
    (hlo : m.lo = 1) (hhi : m.hi = 0) (htodo : m.todo = 0) (hun : m.unack = 0) (hmore : m.more = false) (hable : m.kind = .load ∨ gotMask m = 1)
    (hwant : (if m.kind = .load then (1 : Mask) &&& ~~~gotMask m else 0) = want) (ht : reachLanes s o m want = (t, want)) (hc : CohOnly s t)
    (hp : s.poison = []) (hr : s.runUnits = []) (hd : m.dst = .s d.toNat) (hg : o.grp = some g) (hu : o.unit = none) (hld : o.ldc = true)
    (hst : o.stc = false) (hG : mget s.groups g = some G) (hv : loadVals t k o m 1 = ([(0, x)], saw)) :
    ∃ u, exec (.loadComplete k 1 0) s = .next u ∧ u.mem = s.mem ∧ mget u.ops k = none ∧
      mget u.groups g = some { G.ws d x with cld := G.cld - 1 } := by
  have hp' : t.poison = [] := by rw [hc]; exact hp
  have hops : (t.modGrp g fun G => G.ws d x).ops = s.ops := hc.ops
  have hrun : t.runUnits = [] := by rw [hc]; exact hr
  rw [loadComplete_of_reached ho hm hf hlo hhi htodo hable hwant ht hp', hv, writeDst_scalar hd hg]
  obtain ⟨p, hs⟩ := settleMem_of_over (s := (t.modGrp g fun G => G.ws d x).modOp k (withMem { m with lo := 0, hi := 0, got := [], saw := saw }))
    (k := k) (o := withMem { m with lo := 0, hi := 0, got := [], saw := saw } o) (m := { m with lo := 0, hi := 0, got := [], saw := saw })
    (by rw [State.modOp, hops, mget_mupd_same, ho]; rfl) rfl hg hu hrun rfl rfl htodo hun hmore
  rw [hs]
  refine ⟨_, rfl, hc.mem, by simp [mget_mdel], ?_⟩
  change mget (mupd (mupd t.groups g _) g _) g = _
  rw [mget_mupd_same, mget_mupd_same, hc.groups, hG, Option.map_some, Option.map_some, show (withMem _ o).ldc = true from hld,
    show (withMem _ o).stc = false from hst, fall_ws]

end

/-! ### A store or an atomic ends (R109, R111, R257) -/

/-- The state an acknowledged access leaves apart from memory and its history. -/
structure OnlyMemory (s t : State) : Prop where
  groups : t.groups = s.groups
  ops : t.ops = s.ops
  runUnits : t.runUnits = s.runUnits
  poison : t.poison = s.poison

theorem OnlyMemory.refl (s : State) : OnlyMemory s s := ⟨rfl, rfl, rfl, rfl⟩

theorem OnlyMemory.write (s : State) (ctx : Option Nat) (a n x : Nat) (st : Stamp) : OnlyMemory s (s.write ctx a n x st) := ⟨rfl, rfl, rfl, rfl⟩

section
variable {s t : State} {k g : Nat} {o : Op} {m : MemOp} {a : LaneAcc}

theorem performLane_onlyMemory (haud : o.aud = none) (hk : m.kind.acks = true) : OnlyMemory s (performLane s k o m a).1 := by
  unfold performLane auditWrite
  rw [haud]
  cases hkind : m.kind with
  | store | atom => exact .write ..
  | cas =>
    dsimp only
    split
    · exact .write ..
    · exact .refl s
  | load | feTake | feKeep | fePut => rw [hkind] at hk; cases hk

/-- The operation after its lane is performed: the value read is kept if a register still waits for it. -/
def performedOp (m : MemOp) (x : Word) (saw : List Nat) : MemOp :=
  { m with todo := 0, unack := 0, more := false, got := if m.lo = 0 then [] else [(0, x)], saw := saw }

theorem MKind.ne_fe_of_acks {kd : MKind} (h : kd.acks = true) : (kd == .feTake) = false ∧ (kd == .feKeep) = false := by
  cases kd <;> simp_all [MKind.acks]

/-- The one lane is performed: what it read is kept, and the operation's counters follow. -/
theorem performOp_one (hk : m.kind.acks = true) (haud : o.aud = none) (hp : s.poison = []) (hmore : m.more = false) (htodo : m.todo = 1)
    (hun : m.unack = 0) (hhi : m.hi = 0) (hgot : m.got = []) (hacc : m.acc = [a]) (ha : a.lane = 0) :
    ∃ saw, performOp s k o m 1 = settleMem ((performLane s k o m a).1.modOp k (withMem (performedOp m (performLane s k o m a).2.1 saw))) k := by
  have hor0 (x : Mask) : x ||| 0 = x := BitVec.or_zero
  have hall : (1 : Mask) &&& ~~~(0 : Mask) = 1 := by decide
  have hself : (1 : Mask) &&& ~~~(1 : Mask) = 0 := by decide
  have hnot (x : Mask) : x &&& ~~~(0 : Mask) = x := by
    rw [show ~~~(0 : Mask) = BitVec.allOnes 256 by decide]; exact BitVec.and_allOnes
  obtain ⟨hft, hfk⟩ := MKind.ne_fe_of_acks hk
  have hpoison (f : Op → Op) : ((performLane s k o m a).1.modOp k f).poison = [] := (performLane_onlyMemory haud hk).poison.trans hp
  have hop : ({ m with todo := 0, got := if (m.lo != 0) = true then [(0, (performLane s k o m a).2.1)] else [],
                       saw := sunion m.saw (sunion [] (performLane s k o m a).2.2), more := false } : MemOp) =
      performedOp m (performLane s k o m a).2.1 (sunion m.saw (sunion [] (performLane s k o m a).2.2)) := by
    unfold performedOp
    rw [hun]
    by_cases h : m.lo = 0 <;> simp [h]
  refine ⟨sunion m.saw (sunion [] (performLane s k o m a).2.2), ?_⟩
  rw [← hop]
  delta performOp
  simp only [poisonedLanes_of_nil hp, ite_self, List.any_nil, maskOf_false, hall, performLanes_one hacc ha, hhi, hor0, hft, hfk, Bool.or_false,
    htodo, hself, Bool.false_eq_true, if_false, hnot, hmore, Bool.false_and, hgot, List.nil_append]
  rw [unpoison_of_nil (hpoison _)]
  rfl

/-- A single lane whose line can be reached is performed and acknowledged. -/
theorem storeAck_of_reached (ho : mget s.ops k = some o) (hm : o.body = .mem m) (hf : FollowsNothing s o) (haud : o.aud = none)
    (hk : m.kind.acks = true) (hmore : m.more = false) (htodo : m.todo = 1) (hun : m.unack = 0) (hhi : m.hi = 0) (hgot : m.got = [])
    (hacc : m.acc = [a]) (ha : a.lane = 0) (ht : reachLine s (opVia o m) (opWrites o m) a.loc = some t) (hp : s.poison = []) :
    ∃ saw, exec (.storeAck k 1) s = .next (noteInv s (settleMem ((performLane t k o m a).1.modOp k
      (withMem (performedOp m (performLane t k o m a).2.1 saw))) k)) := by
  have hpt : t.poison = [] := by rw [reachLine_coh ht]; exact hp
  have hreach := reachLanes_one (s := s) (o := o) hacc ha
  rw [ht, Option.elim_some] at hreach
  have hz (x : Mask) : (0 : Mask) &&& x = 0 := BitVec.zero_and
  have hone : (1 : Mask) ≠ 0 := by decide
  have h11 : (1 : Mask) &&& 1 = 1 := by decide
  have hor : (1 : Mask) ||| 0 = 1 := by decide
  have hmq : ({ m with todo := 1, unack := 0, more := false } : MemOp) = m := by rw [← hun, ← htodo, ← hmore]
  obtain ⟨saw, hperf⟩ := performOp_one (s := t) (k := k) hk haud hpt hmore htodo hun hhi hgot hacc ha
  refine ⟨saw, ?_⟩
  change execStoreAck k 1 s = _
  delta execStoreAck
  simp only [ho, opMem_of_mget ho hm, hk, hmore, depsGone_of_follows hf, relGone_of_follows hf, Bool.not_true, Bool.or_self, Bool.false_eq_true, if_false,
    htodo, h11, hreach, hun, hz, hostFree, hor, hone]
  rw [hmq, hperf]

/-- A lane whose line cannot be reached waits. -/
theorem storeAck_of_unreached (ho : mget s.ops k = some o) (hm : o.body = .mem m) (hun : m.unack = 0) (htodo : m.todo = 1)
    (hacc : m.acc = [a]) (ha : a.lane = 0) (ht : reachLine s (opVia o m) (opWrites o m) a.loc = none) : exec (.storeAck k 1) s = .next s := by
  have hreach := reachLanes_one (s := s) (o := o) hacc ha
  rw [ht, Option.elim_none] at hreach
  have hz (x : Mask) : (0 : Mask) &&& x = 0 := BitVec.zero_and
  have h11 : (1 : Mask) &&& 1 = 1 := by decide
  have hor : (0 : Mask) ||| 0 = 0 := by decide
  change execStoreAck k 1 s = _
  delta execStoreAck
  simp only [ho, opMem_of_mget ho hm, htodo, h11, hreach, hun, hz, hostFree, hor, if_true, ite_self]

end

section
variable {s t : State} {k g : Nat} {o : Op} {m : MemOp} {a : LaneAcc} {G : Group}

/-- A store or an atomic without a register ends as its lane is performed. -/
theorem storeAck_over (ho : mget s.ops k = some o) (hm : o.body = .mem m) (hf : FollowsNothing s o) (haud : o.aud = none)
    (hk : m.kind.acks = true) (hmore : m.more = false) (htodo : m.todo = 1) (hun : m.unack = 0) (hlo : m.lo = 0) (hhi : m.hi = 0) (hgot : m.got = [])
    (hacc : m.acc = [a]) (ha : a.lane = 0) (ht : reachLine s (opVia o m) (opWrites o m) a.loc = some t) (hp : s.poison = []) (hr : s.runUnits = [])
    (hg : o.grp = some g) (hu : o.unit = none) (hld : o.ldc = false) (hst : o.stc = true) (hG : mget s.groups g = some G) :
    ∃ u, exec (.storeAck k 1) s = .next u ∧ u.mem = (performLane t k o m a).1.mem ∧ u.hist = (noteInv s (performLane t k o m a).1).hist ∧
      mget u.ops k = none ∧ mget u.groups g = some { G with cst := G.cst - 1 } := by
  have hc := reachLine_coh ht
  obtain ⟨hgr, hops, hrun, -⟩ := performLane_onlyMemory (s := t) (k := k) (a := a) haud hk
  obtain ⟨saw, hx⟩ := storeAck_of_reached ho hm hf haud hk hmore htodo hun hhi hgot hacc ha ht hp
  obtain ⟨p, hs⟩ := settleMem_of_over (s := (performLane t k o m a).1.modOp k (withMem (performedOp m (performLane t k o m a).2.1 saw)))
    (k := k) (o := withMem (performedOp m (performLane t k o m a).2.1 saw) o) (m := performedOp m (performLane t k o m a).2.1 saw)
    (by rw [State.modOp, hops, hc.ops, mget_mupd_same, ho]; rfl) rfl hg hu (hrun.trans (by rw [hc]; exact hr)) hlo hhi rfl rfl rfl
  rw [hs] at hx
  refine ⟨_, hx, rfl, rfl, by simp [mget_mdel, noteInv], ?_⟩
  change mget (mupd (performLane t k o m a).1.groups g _) g = _
  rw [mget_mupd_same, hgr, hc.groups, hG, Option.map_some, show (withMem _ o).ldc = false from hld, show (withMem _ o).stc = true from hst]
  rfl

/-- The store counter falls first, and the load counter with the register. -/
theorem ws_of_fallen (G : Group) (d : SReg) (x : Word) :
    ({ ({ G with cst := G.cst - 1 } : Group).ws d x with cld := G.cld - 1 } : Group) = { G.ws d x with cld := G.cld - 1, cst := G.cst - 1 } := by
  unfold Group.ws
  split <;> rfl

/-- What an operation follows does not come back as another operation is performed. -/
theorem followsNothing_mono {u : State} {p : Op} (h : FollowsNothing s o) (hdeps : p.deps = o.deps) (hperf : p.perf = o.perf) (hrel : p.rel = o.rel)
    (hlive : ∀ i, (mget u.ops i).isSome = true → (mget s.ops i).isSome = true)
    (htodo : ∀ i, ((opMem u i).map fun m => m.todo != 0).getD false = true → ((opMem s i).map fun m => m.todo != 0).getD false = true) :
    FollowsNothing u p := by
  obtain ⟨h1, h2, h3⟩ := h
  have hsub {f f' : Nat → Bool} {l : List Nat} (hff : ∀ i, f' i = true → f i = true) (hl : l.filter f = []) : l.filter f' = [] := by
    rw [List.filter_eq_nil_iff] at hl ⊢
    exact fun i hi hc => hl i hi (hff i hc)
  exact ⟨hdeps ▸ hsub hlive h1, hperf ▸ hsub htodo h2, hrel ▸ hsub htodo h3⟩

/-- An atomic with a register is performed first: its value is kept, and only the store counter falls. -/
theorem storeAck_loading (ho : mget s.ops k = some o) (hm : o.body = .mem m) (hf : FollowsNothing s o) (haud : o.aud = none)
    (hk : m.kind.acks = true) (hmore : m.more = false) (htodo : m.todo = 1) (hun : m.unack = 0) (hlo : m.lo = 1) (hhi : m.hi = 0) (hgot : m.got = [])
    (hacc : m.acc = [a]) (ha : a.lane = 0) (ht : reachLine s (opVia o m) (opWrites o m) a.loc = some t) (hp : s.poison = []) (hr : s.runUnits = [])
    (hg : o.grp = some g) (hst : o.stc = true) (hG : mget s.groups g = some G) :
    ∃ u saw, exec (.storeAck k 1) s = .next u ∧ u.mem = (performLane t k o m a).1.mem ∧ mget u.groups g = some { G with cst := G.cst - 1 } ∧
      mget u.ops k = some (countersFallen false true (withMem (performedOp m (performLane t k o m a).2.1 saw) o)) ∧ u.poison = [] ∧ u.runUnits = [] ∧
      FollowsNothing u (countersFallen false true (withMem (performedOp m (performLane t k o m a).2.1 saw) o)) := by
  have hc := reachLine_coh ht
  obtain ⟨hgr, hops, hrun, hpoi⟩ := performLane_onlyMemory (s := t) (k := k) (a := a) haud hk
  obtain ⟨saw, hx⟩ := storeAck_of_reached ho hm hf haud hk hmore htodo hun hhi hgot hacc ha ht hp
  have hone : (1 : Mask) ≠ 0 := by decide
  have hr' : t.runUnits = [] := by rw [hc]; exact hr
  have hp' : t.poison = [] := by rw [hc]; exact hp
  have hs := settleMem_of_loading (s := (performLane t k o m a).1.modOp k (withMem (performedOp m (performLane t k o m a).2.1 saw)))
    (k := k) (o := withMem (performedOp m (performLane t k o m a).2.1 saw) o) (m := performedOp m (performLane t k o m a).2.1 saw)
    (by rw [State.modOp, hops, hc.ops, mget_mupd_same, ho]; rfl) rfl hg (hrun.trans hr') (by rw [show (performedOp m _ saw).lo = m.lo from rfl, hlo]; exact hone)
    rfl rfl rfl
  rw [hs, show (withMem _ o).stc = true from hst] at hx
  have hmops (i : Nat) : mget (mupd (mupd (performLane t k o m a).1.ops k (withMem (performedOp m (performLane t k o m a).2.1 saw))) k
      (countersFallen false true)) i = if i = k then some (countersFallen false true (withMem (performedOp m (performLane t k o m a).2.1 saw) o))
        else mget s.ops i := by
    rw [hops, hc.ops, mget_mupd, mget_mupd_same, ho]
    split
    · rfl
    · next hi => rw [mget_mupd, if_neg hi]
  refine ⟨_, saw, hx, rfl, ?_, (hmops k).trans (if_pos rfl), hpoi.trans hp', hrun.trans hr', followsNothing_mono hf rfl rfl rfl (fun i hi => ?_) (fun i hi => ?_)⟩
  · change mget (mupd (performLane t k o m a).1.groups g _) g = _
    rw [mget_mupd_same, hgr, hc.groups, hG]
    rfl
  · by_cases hik : i = k
    · rw [hik, ho]; rfl
    · have := (hmops i).trans (if_neg hik)
      exact this ▸ hi
  · by_cases hik : i = k
    · subst hik
      rw [opMem_of_mget ((hmops i).trans (if_pos rfl)) rfl] at hi
      cases hi
    · have h := (hmops i).trans (if_neg hik)
      simp only [opMem] at hi ⊢
      exact h ▸ hi

end

section
variable {s t : State} {k g : Nat} {o : Op} {m : MemOp} {a : LaneAcc} {G : Group}

/-- No line is asked for when no lane wants one. -/
theorem reachLanes_zero : reachLanes s o m 0 = (s, 0) := by
  rw [reachLanes, List.filter_eq_nil_iff.2 fun a _ => by simp]
  rfl

theorem loadVals_of_got {x : Word} (hacc : m.acc = [a]) (ha : a.lane = 0) (hgot : m.got = [(0, x)]) : loadVals s k o m 1 = ([(0, x)], m.saw) := by
  rw [loadVals, hacc, hgot, List.filter_eq_nil_iff.2 fun b hb => by rw [List.mem_singleton.1 hb, ha]; simp]
  rfl

/-- An atomic with a register: its store counter falls as it is performed, and its load counter as the value that it read arrives. -/
theorem atomic_over {d : SReg} (ho : mget s.ops k = some o) (hm : o.body = .mem m) (hf : FollowsNothing s o) (haud : o.aud = none)
    (hk : m.kind.acks = true) (hmore : m.more = false) (htodo : m.todo = 1) (hun : m.unack = 0) (hlo : m.lo = 1) (hhi : m.hi = 0) (hgot : m.got = [])
    (hacc : m.acc = [a]) (ha : a.lane = 0) (ht : reachLine s (opVia o m) (opWrites o m) a.loc = some t) (hp : s.poison = []) (hr : s.runUnits = [])
    (hg : o.grp = some g) (hu : o.unit = none) (hld : o.ldc = true) (hst : o.stc = true) (hd : m.dst = .s d.toNat) (hG : mget s.groups g = some G) :
    ∃ u v, exec (.storeAck k 1) s = .next u ∧ mget u.groups g = some { G with cst := G.cst - 1 } ∧ exec (.loadComplete k 1 0) u = .next v ∧
      mget v.ops k = none ∧ v.mem = u.mem ∧
      mget v.groups g = some { G.ws d (performLane t k o m a).2.1 with cld := G.cld - 1, cst := G.cst - 1 } := by
  obtain ⟨u, saw, hx, -, hG', ho', hp', hr', hf'⟩ := storeAck_loading ho hm hf haud hk hmore htodo hun hlo hhi hgot hacc ha ht hp hr hg hst hG
  have hkind : m.kind ≠ .load := by
    intro h; rw [h] at hk; cases hk
  have hgot' : (performedOp m (performLane t k o m a).2.1 saw).got = [(0, (performLane t k o m a).2.1)] := by
    have hone : (1 : Mask) ≠ 0 := by decide
    simp only [performedOp, hlo, hone, if_false]
  obtain ⟨v, hv, hvm, hvo, hvg⟩ := loadComplete_over ho' rfl hf' hlo hhi rfl rfl rfl (.inr (gotMask_zero hgot')) (if_neg hkind) reachLanes_zero
    (CohOnly.refl u) hp' hr' hd hg hu (by rw [countersFallen, show (withMem _ o).ldc = true from hld]; rfl)
    (by rw [countersFallen, show (withMem _ o).stc = true from hst]; rfl) hG' (loadVals_of_got hacc ha hgot')
  exact ⟨u, v, hx, hG', hv, hvo, hvm, hvg.trans (by rw [ws_of_fallen])⟩

end

/-! ### What the one lane reads and writes -/

section
variable {s t : State} {k : Nat} {o : Op} {m : MemOp} {a : LaneAcc}

theorem performLane_store (hk : m.kind = .store) (haud : o.aud = none) :
    (performLane s k o m a).1 = s.write (some o.ctx) a.loc m.ty.size a.x.toNat (o.stamp s k) := by
  rw [performLane, hk, haud]; rfl

/-- An atomic returns the bytes as they stand. -/
theorem performLane_old (hk : m.kind.acks = true) (hs : m.kind ≠ .store) : (performLane s k o m a).2.1 = BitVec.ofNat 64 (s.read a.loc m.ty.size) := by
  unfold performLane
  cases hkind : m.kind with
  | atom | cas => rfl
  | store => exact absurd hkind hs
  | load | feTake | feKeep | fePut => rw [hkind] at hk; cases hk

theorem performLane_add_mem (hk : m.kind = .atom .add) (hty : m.ty = .n64) (haud : o.aud = none) :
    (performLane s k o m a).1.mem = writeLE s.mem a.loc m.ty.size ((s.read a.loc m.ty.size + a.x.toNat) % 2 ^ 64) := by
  rw [performLane, hk, haud, hty]
  have hx : a.x.toNat % 2 ^ Ty.n64.bits = a.x.toNat := Nat.mod_eq_of_lt a.x.isLt
  rw [hx]
  rfl

theorem performLane_cas_mem (hk : m.kind = .cas) (haud : o.aud = none) : (performLane s k o m a).1.mem =
    if s.read a.loc m.ty.size = a.y.toNat % 2 ^ m.ty.bits then writeLE s.mem a.loc m.ty.size a.x.toNat else s.mem := by
  rw [performLane, hk, haud]
  by_cases h : s.read a.loc m.ty.size = a.y.toNat % 2 ^ m.ty.bits
  · simp only [accSize, h, if_true]; rfl
  · simp only [accSize, h, if_false]

/-- What a read may give does not rest on the caches (R231). -/
theorem readOf_of_coh (hc : CohOnly s t) (use b n : Nat) : t.readOf k o use b n = s.readOf k o use b n := by
  rw [hc]; rfl

theorem stamp_of_coh (hc : CohOnly s t) : o.stamp t k = o.stamp s k := by
  rw [hc]; rfl

/-- The history gains the lane's write, with the dies whose copies it has invalidated; what stood in it keeps all but those (R257). -/
theorem noteInv_write_hist (ctx b n x : Nat) (st : Stamp) (hc : CohOnly s t) :
    (noteInv s (t.write (some ctx) b n x st)).hist.head? = some
      { n := s.wcount, loc := b, was := bytesAt s.mem b n, stamp := st
        inv := if isScr b then [] else (List.range 8).filter fun d => (s.coh.girth.at_ d (b / 64)).st != .i } ∧
    ((noteInv s (t.write (some ctx) b n x st)).hist.tail.map fun e => { e with inv := [] }) = s.hist.map fun e => { e with inv := [] } := by
  rw [hc]
  refine ⟨?_, ?_⟩
  · change some (if _ then _ else _) = _
    by_cases hb : isScr b = true
    · simp [hb]
    · simp [hb, Config.numDies]
  · change List.map _ (List.map _ s.hist) = _
    rw [List.map_map]
    refine List.map_congr_left fun e _ => ?_
    dsimp only [Function.comp]
    split <;> rfl

end

/-- R109, R111, R37: each access of one lane ends with its bytes, its register and its counters. -/
theorem scalarAccessEnds : Claims.ScalarAccessEnds := by
  intro s g G k o ty loc ea x y hG ho hg hu haud hf hr hp n m
  have hsome {m' : MemOp} (h : Reached s o m' loc) : ∃ t, reachLine s (opVia o m') (opWrites o m') loc = some t := Option.ne_none_iff_exists'.1 h
  have hnone {m' : MemOp} (h : ¬ Reached s o m' loc) : reachLine s (opVia o m') (opWrites o m') loc = none := not_not.1 h
  have hacks {kd : MKind} (h : (kd = .atom .add ∧ ty = .n64) ∨ kd = .cas) : kd.acks = true ∧ kd ≠ .store := by
    rcases h with ⟨rfl, -⟩ | rfl <;> exact ⟨rfl, nofun⟩
  refine ⟨fun d hb hld hst => ⟨fun h => ?_, fun h => ?_⟩, fun hb h => ?_, fun hb hld hst h => ?_, fun kd hkd hb hld hst h => ?_,
    fun kd d hkd hb hst hld h => ?_⟩
  · obtain ⟨t, ht⟩ := hsome h
    have hc := reachLine_coh ht
    have hreach := reachLanes_one (s := s) (o := o) (m := m .load (some d) 0 1) rfl rfl
    rw [ht, Option.elim_some] at hreach
    have hgot : gotMask (m .load (some d) 0 1) = 0 := gotMask_nil rfl
    obtain ⟨u, hu, hmem, hops, hgrp⟩ := loadComplete_over ho hb hf rfl rfl rfl rfl rfl (.inl rfl)
      (by rw [if_pos rfl, hgot]; decide) hreach hc hp hr (d := d) rfl hg hu hld hst hG (loadVals_scalarOp rfl)
    refine ⟨u, _, hu, hmem, hops, ?_, hgrp⟩
    rw [readOf_of_coh hc]
    exact readAt_mayRead s (o.knows s) (fun e => e.stamp.view.ops.contains k) _ loc n
  · have hreach := reachLanes_one (s := s) (o := o) (m := m .load (some d) 0 1) rfl rfl
    rw [hnone h, Option.elim_none] at hreach
    exact loadComplete_of_unreached ho hb hf rfl rfl rfl (gotMask_nil rfl) hreach
  · exact storeAck_of_unreached ho hb rfl rfl rfl rfl (hnone h)
  · obtain ⟨t, ht⟩ := hsome h
    have hc := reachLine_coh ht
    obtain ⟨u, hx, hmem, hhist, hops, hgrp⟩ := storeAck_over ho hb hf haud rfl rfl rfl rfl rfl rfl rfl rfl rfl ht hp hr hg hu hld hst hG
    rw [performLane_store rfl haud, stamp_of_coh hc] at hhist
    obtain ⟨hhead, htail⟩ := noteInv_write_hist o.ctx loc ty.size x.toNat (o.stamp s k) hc
    refine ⟨u, hx, ?_, hops, by rw [hhist]; exact hhead, by rw [hhist]; exact htail, hgrp⟩
    rw [hmem, performLane_store rfl haud, State.write_mem, hc.mem]
  · obtain ⟨t, ht⟩ := hsome h
    have hc := reachLine_coh ht
    obtain ⟨u, hx, hmem, -, hops, hgrp⟩ := storeAck_over ho hb hf haud (hacks hkd).1 rfl rfl rfl rfl rfl rfl rfl rfl ht hp hr hg hu hld hst hG
    refine ⟨u, hx, hops, hgrp, ?_⟩
    rcases hkd with ⟨rfl, rfl⟩ | rfl
    · rw [hmem, performLane_add_mem rfl rfl haud, State.read, hc.mem]
      rfl
    · rw [hmem, performLane_cas_mem rfl haud, State.read, hc.mem]
      rfl
  · obtain ⟨t, ht⟩ := hsome h
    have hc := reachLine_coh ht
    obtain ⟨u, v, hx, hG', hv, hvo, hvm, hvg⟩ := atomic_over ho hb hf haud (hacks hkd).1 rfl rfl rfl rfl rfl rfl rfl rfl ht hp hr hg hu hld hst
      (d := d) rfl hG
    refine ⟨u, v, hx, hG', hv, hvo, hvm, hvg.trans ?_⟩
    rw [performLane_old (hacks hkd).1 (hacks hkd).2, State.read, hc.mem]
    rfl

/-- Settles O15: one access ends with its bytes and its register, a store changes no other byte, and a read passes no write that its order puts
before it. -/
theorem accessesLand : Obligations.AccessesLand :=
  ⟨scalarAccessEnds, storesChangeOnlyTheirBytes, scopeInstances, readsFollowTheOrder⟩

end Sys2Proof.Proofs
end

section
/-!
PROOFS. Waiting for, reading, cancelling, sending and receiving handles (R39, R151, R152, R210).
-/

namespace Sys2Proof.Proofs
open Sys2Proof.Machine Sys2Proof.Claims

/-! ### What the instructions share -/

/-- Of two updates of one key, the later one stands. -/
theorem mput_mput {β : Type} (m : SMap β) (i : Nat) (x y : β) : mput (mput m i x) i y = mput m i y := by
  induction m with
  | nil => simp [mput]
  | cons p m ih =>
    obtain ⟨k, v⟩ := p
    by_cases hk : i = k
    · simp [mput, hk]
    · by_cases hlt : i < k
      · simp [mput, hk, hlt]
      · simp [mput, hk, hlt, ih]

/-- Where no membership drains, nothing is taken (R207). -/
theorem takeUnits_of_noDrain {G : Group} (h : NoDrain G) (s : State) (g need take : Nat) : takeUnits s g G need take = some (s, G, none) := by
  have hd : drainOf G = none := by
    rw [drainOf, List.find?_eq_none.2 fun p hp => by simp [h p hp]]
    rfl
  rw [takeUnits, hd]

theorem unblock_memb (G : Group) (x : Handle) : (G.unblock x).memb = G.memb := by
  unfold Group.unblock Group.observe
  split
  · split <;> rfl
  · rfl

section
variable {s : State} {g : Nat} {G : Group}

/-- An instruction that overwrites a handle waits while that is PENDING (R39). -/
theorem whenHandle_of_pending (hs : Scalar s g G) {h : HReg} (hp : (G.rh h.toNat).st = .pending) (k : State → Nat → Group → Handle → Out) :
    whenHandle s h k = .next (s.grp g { G with wait := .onHandle }) := by
  rw [whenHandle, withScalar_of hs.1 hs.2]
  exact if_pos hp

/-- It goes on with the group that waits no longer. -/
theorem whenHandle_of_settled (hs : Scalar s g G) {h : HReg} (hp : (G.rh h.toNat).st ≠ .pending) (k : State → Nat → Group → Handle → Out) :
    whenHandle s h k = k (if G.wait = .onHandle then s.grp g (G.unblock (G.rh h.toNat)) else s) g (G.unblock (G.rh h.toNat)) (G.rh h.toNat) := by
  rw [whenHandle, withScalar_of hs.1 hs.2]
  exact if_neg hp

end

/-! ### Waiting, testing and cancelling (R39, R151, R242) -/

section
variable {s : State} {g : Nat} {G : Group} {h : HReg} {a b : SReg}

theorem hwait_of_pending (hs : Scalar s g G) (hp : (G.rh h.toNat).st = .pending) : Becomes (.hwait h) s g { G with wait := .onHandle } := by
  change execHwait h s = _
  rw [execHwait, whenHandle_of_pending hs hp]
  rfl

/-- `hwait` goes on, and observes the end. -/
theorem hwait_of_settled (hs : Scalar s g G) (hp : (G.rh h.toNat).st ≠ .pending) :
    Becomes (.hwait h) s g (past ((G.unblock (G.rh h.toNat)).observe (G.rh h.toNat)) 1) := by
  change execHwait h s = _
  rw [execHwait, whenHandle_of_settled hs hp]
  split
  · rw [State.grp, State.grp, mput_mput]; rfl
  · rfl

/-- The number that `htest` reads, by the handle's state (R151). -/
theorem code_eq {x : HState} {v : Nat} (h0 : x = .empty → v = 0) (h1 : x = .pending → v = 1) (h2 : x = .done → v = 2)
    (h3 : ∀ r, x = .failed r → v = 3 + 256 * r) (h4 : x = .cancelled → v = 4) : x.code = v := by
  cases x with
  | empty => exact (h0 rfl).symm
  | pending => exact (h1 rfl).symm
  | done => exact (h2 rfl).symm
  | failed r => exact (h3 r rfl).symm
  | cancelled => exact (h4 rfl).symm

theorem htest_becomes (hs : Scalar s g G) :
    Becomes (.htest h b) s g (past ((if (G.rh h.toNat).st = .empty ∨ (G.rh h.toNat).st = .pending then G else G.observe (G.rh h.toNat)).ws b
      (BitVec.ofNat 64 (G.rh h.toNat).st.code)) 1) := by
  change execHtest h b s = _
  rw [execHtest, withScalar_of hs.1 hs.2]
  simp only [or_comm (a := (G.rh h.toNat).st = .pending), Bool.or_eq_true, decide_eq_true_eq]
  rfl

/-- A handle that has left PENDING is cancelled no more. -/
theorem hcancel_of_settled (hs : Scalar s g G) (he : (G.rh h.toNat).st ≠ .empty) (hp : (G.rh h.toNat).st ≠ .pending) :
    Becomes (.hcancel h) s g (past (G.observe (G.rh h.toNat)) 1) := by
  change execHcancel h s = _
  rw [execHcancel, withScalar_of hs.1 hs.2]
  cases hx : (G.rh h.toNat).st with
  | empty => exact absurd hx he
  | pending => exact absurd hx hp
  | done | failed | cancelled => simp only [hx]; rfl

theorem hcancel_of_empty (hs : Scalar s g G) (he : (G.rh h.toNat).st = .empty) : exec (.hcancel h) s = .next (trapS s g 0x0B) := by
  change execHcancel h s = _
  rw [execHcancel, withScalar_of hs.1 hs.2]
  simp only [he]

/-- An engine operation is asked to end (R151). -/
theorem hcancel_of_copy (hs : Scalar s g G) (hp : (G.rh h.toNat).st = .pending) {k : Nat} (hk : (G.rh h.toNat).op = some k) {o : Op} {c : CopyOp}
    (ho : mget s.ops k = some o) (hc : o.body = .copy c) :
    exec (.hcancel h) s = .next { s with ops := mput s.ops k { o with body := .copy { c with cancel := true } } } := by
  change execHcancel h s = _
  rw [execHcancel, withScalar_of hs.1 hs.2]
  simp only [hp, hk, State.modOp, mupd, ho, hc]

/-- A handle that waits for an overlay is CANCELLED at once. -/
theorem hcancel_of_load (hs : Scalar s g G) (hp : (G.rh h.toNat).st = .pending) (hk : (G.rh h.toNat).op = none) :
    ∃ t, exec (.hcancel h) s = .next t ∧ mget t.groups g = some (past (G.wh h.toNat { G.rh h.toNat with st := .cancelled }) 1) ∧ t.mem = s.mem := by
  have hx : exec (.hcancel h) s = .next (dropIdleLoads ((dropWaiters s (· == .handle g h.toNat)).grp g
      ((G.wh h.toNat { G.rh h.toNat with st := .cancelled }).adv 1))) := by
    change execHcancel h s = _
    rw [execHcancel, withScalar_of hs.1 hs.2]
    simp only [hp, hk]
  exact ⟨_, hx, mget_mput_same _ _ _, rfl⟩

end

/-! ### Sending and receiving (R152, R210) -/

section
variable {s : State} {g : Nat} {G : Group} {h : HReg} {a : SReg} {loc lane : Nat}

theorem barAudit_keeps (s : State) (G : Group) : (barAudit s G).full = s.full ∧ (barAudit s G).mem = s.mem ∧ (barAudit s G).nextId = s.nextId := by
  unfold barAudit
  split <;> exact ⟨rfl, rfl, rfl⟩

theorem unblock_blk_core (G : Group) (x : Handle) : (G.unblock x).blk = G.blk ∧ (G.unblock x).core = G.core := by
  unfold Group.unblock Group.observe
  split
  · split <;> exact ⟨rfl, rfl⟩
  · exact ⟨rfl, rfl⟩

/-- `hsend` waits for a PENDING handle. -/
theorem hsend_of_pending (hs : Scalar s g G) (hw : handleWord s G a true = .ok [(lane, loc)]) (hp : (G.rh h.toNat).st = .pending) :
    Becomes (.hsend h a) s g { G with wait := .onHandle } := by
  change execHsend h a s = _
  rw [execHsend, withScalar_of hs.1 hs.2, hw]
  exact if_pos hp

theorem hsend_of_empty (hs : Scalar s g G) (hw : handleWord s G a true = .ok [(lane, loc)]) (he : (G.rh h.toNat).st = .empty) :
    exec (.hsend h a) s = .next (trapS s g 0x0B) := by
  change execHsend h a s = _
  rw [execHsend, withScalar_of hs.1 hs.2, hw]
  simp only [onChk, he, reduceCtorEq, if_false, if_true]

/-- `hsend` waits for a word that is full, and for writes that are not performed. -/
theorem hsend_of_waiting (hs : Scalar s g G) (hw : handleWord s G a true = .ok [(lane, loc)]) (hp : (G.rh h.toNat).st ≠ .pending)
    (he : (G.rh h.toNat).st ≠ .empty) (hwait : loc / 4 ∈ s.full ∨ unperf s (scalarEarlier s G) ≠ []) : exec (.hsend h a) s = .next s := by
  have hb : (s.full.contains (loc / 4) || !(unperf s (scalarEarlier s G)).isEmpty) = true := by
    simpa [Bool.or_eq_true, List.isEmpty_iff] using hwait
  change execHsend h a s = _
  rw [execHsend, withScalar_of hs.1 hs.2, hw]
  simp only [onChk, List.headD_cons, hp, he, if_false, hb, if_true]

/-- The handle goes into the word, which becomes full. -/
theorem hsend_sends (hs : Scalar s g G) (hw : handleWord s G a true = .ok [(lane, loc)]) (hd : NoDrain G) (hp : (G.rh h.toNat).st ≠ .pending)
    (he : (G.rh h.toNat).st ≠ .empty) (hfull : loc / 4 ∉ s.full) (hun : unperf s (scalarEarlier s G) = []) :
    ∃ t T G', exec (.hsend h a) s = .next t ∧ t.mem = writeLE s.mem loc 4 (0xC0000000 + T.serial.toNat) ∧ loc / 4 ∈ t.full ∧
      mget t.tags (loc / 4) = some T ∧ T.h = G.rh h.toNat ∧ T.blk = G.blk ∧ T.core = G.core ∧ T.unit = none ∧ T.op = s.nextId ∧
      mget t.groups g = some G' ∧ G' = past ({ G.unblock (G.rh h.toNat) with ord := G'.ord }.wh h.toNat { st := .empty }) 1 := by
  have hb : (s.full.contains (loc / 4) || !(unperf s (scalarEarlier s G)).isEmpty) = false := by simp [hfull, hun]
  have hd' : NoDrain (G.unblock (G.rh h.toNat)) := by rw [NoDrain, unblock_memb]; exact hd
  obtain ⟨hf, hm, hn⟩ := barAudit_keeps s G
  obtain ⟨hblk, hcore⟩ := unblock_blk_core G (G.rh h.toNat)
  have hx : exec (.hsend h a) s = execHsend h a s := rfl
  rw [execHsend, withScalar_of hs.1 hs.2, hw] at hx
  simp only [onChk, List.headD_cons, hp, he, if_false, hb, Bool.false_eq_true, takeUnits_of_noDrain hd', State.fresh] at hx
  refine ⟨_, _, _, hx, ?_, ?_, mget_mput_same _ _ _, rfl, hblk, hcore, rfl, hn, mget_mput_same _ _ _, rfl⟩
  · rw [← hm]; rfl
  · exact mem_insNat.2 (.inl rfl)

/-- What `hrecv` checks of its register and its word. -/
theorem hrecv_of_held (hs : Scalar s g G) (hw : handleWord s G a false = .ok [(lane, loc)]) (he : (G.rh h.toNat).st ≠ .empty) :
    exec (.hrecv h a) s = .next (trapS s g 0x0B) := by
  change execHrecv h a s = _
  rw [execHrecv, withScalar_of hs.1 hs.2, hw]
  exact if_pos he

theorem hrecv_of_emptyWord (hs : Scalar s g G) (hw : handleWord s G a false = .ok [(lane, loc)]) (he : (G.rh h.toNat).st = .empty)
    (hfull : loc / 4 ∉ s.full) : exec (.hrecv h a) s = .next s := by
  have hb : (!s.full.contains (loc / 4)) = true := by simp [hfull]
  change execHrecv h a s = _
  rw [execHrecv, withScalar_of hs.1 hs.2, hw]
  simp only [onChk, List.headD_cons, he, ne_eq, not_true, if_false, hb, if_true]

section
variable (hs : Scalar s g G) (hw : handleWord s G a false = .ok [(lane, loc)]) (he : (G.rh h.toNat).st = .empty) (hfull : loc / 4 ∈ s.full)
include hs hw he hfull

theorem hrecv_of_noTag (ht : mget s.tags (loc / 4) = none) : exec (.hrecv h a) s = .next (trapS s g 0x0B) := by
  have hb : (!s.full.contains (loc / 4)) = false := by simp [hfull]
  change execHrecv h a s = _
  rw [execHrecv, withScalar_of hs.1 hs.2, hw]
  simp only [onChk, List.headD_cons, he, ne_eq, not_true, if_false, hb, Bool.false_eq_true, ht]

/-- A word that no longer holds its tag, and an overlay token of another core, are no handle to receive. -/
theorem hrecv_of_badTag {T : Tag} (ht : mget s.tags (loc / 4) = some T)
    (hbad : s.read loc 4 ≠ 0xC0000000 + T.serial.toNat ∨ (T.h.st = .done ∧ T.h.ov ≠ none ∧ T.core ≠ G.core)) :
    exec (.hrecv h a) s = .next (trapS s g 0x0B) := by
  have hb : (!s.full.contains (loc / 4)) = false := by simp [hfull]
  have hbad' : (decide (s.read loc 4 ≠ 0xC0000000 + T.serial.toNat) || (decide (T.h.st = .done) && T.h.ov.isSome && decide (T.core ≠ G.core))) = true := by
    simpa [Bool.or_eq_true, Option.isSome_iff_ne_none, and_assoc] using hbad
  change execHrecv h a s = _
  rw [execHrecv, withScalar_of hs.1 hs.2, hw]
  simp only [onChk, List.headD_cons, he, ne_eq, not_true, if_false, hb, Bool.false_eq_true, ht]
  exact if_pos hbad'

/-- The handle comes out of the word, which becomes empty. -/
theorem hrecv_receives {T : Tag} (ht : mget s.tags (loc / 4) = some T) (hread : s.read loc 4 = 0xC0000000 + T.serial.toNat)
    (hcore : T.h.st = .done → T.h.ov ≠ none → T.core = G.core) (hu : T.unit = none) :
    ∃ t G', exec (.hrecv h a) s = .next t ∧ t.mem = s.mem ∧ loc / 4 ∉ t.full ∧ mget t.tags (loc / 4) = none ∧
      mget t.groups g = some G' ∧ G' = past ({ G with ord := G'.ord }.wh h.toNat T.h) 1 := by
  have hb : (!s.full.contains (loc / 4)) = false := by simp [hfull]
  have hok : (decide (s.read loc 4 ≠ 0xC0000000 + T.serial.toNat) || (decide (T.h.st = .done) && T.h.ov.isSome && decide (T.core ≠ G.core))) = false := by
    simpa [Bool.or_eq_false_iff, hread, Option.isSome_iff_ne_none, Bool.and_eq_false_iff, or_iff_not_imp_left] using hcore
  have hx : exec (.hrecv h a) s = execHrecv h a s := rfl
  rw [execHrecv, withScalar_of hs.1 hs.2, hw] at hx
  simp only [onChk, List.headD_cons, he, ne_eq, not_true, if_false, hb, Bool.false_eq_true, ht, joinUnit, hu] at hx
  rw [if_neg (by rw [Bool.not_eq_true]; exact hok)] at hx
  refine ⟨_, _, hx, (barAudit_keeps s G).2.1, ?_, ?_, mget_mput_same _ _ _, rfl⟩
  · simp [State.grp]
  · simp [State.grp, mget_mdel]

end

end

/-- Settles O20: a PENDING handle is waited for, and every other handle is read, cancelled, sent and received as its state says. -/
theorem handleInstructions : Obligations.HandleInstructions := by
  intro s g G h b a hs x seen
  refine ⟨hwait_of_settled hs, hwait_of_pending hs, fun v h0 h1 h2 h3 h4 => ?_, hcancel_of_empty hs,
    hcancel_of_settled hs, fun k o c hp hk ho hc => hcancel_of_copy hs hp hk ho hc, hcancel_of_load hs,
    fun loc lane hw hp => hsend_of_pending hs hw hp, fun loc lane hd hw hp => ?_, fun loc lane hd hw => ?_⟩
  · rw [← code_eq h0 h1 h2 h3 h4]
    exact htest_becomes hs
  · exact ⟨hsend_of_empty hs hw, fun he hf => hsend_of_waiting hs hw hp he (.inl hf), fun he hn => hsend_of_waiting hs hw hp he (.inr hn),
      hsend_sends hs hw hd hp⟩
  · exact ⟨hrecv_of_held hs hw, hrecv_of_emptyWord hs hw, hrecv_of_noTag hs hw, fun T he hf ht =>
      ⟨hrecv_of_badTag hs hw he hf ht, hrecv_receives hs hw he hf ht⟩⟩

end Sys2Proof.Proofs
end

section
/-!
PROOFS. Blocks and groups start (R33, R69, R193, R286, R294, R295).
-/

namespace Sys2Proof.Proofs
open Sys2Proof.Machine Sys2Proof.Claims

/-! ### Loads of a block's fixed overlays (R193) -/

/-- Nothing but the copies and the next key changes. -/
def LoadsOnly (s t : State) : Prop := t = { s with copies := t.copies, nextId := t.nextId }

namespace LoadsOnly

theorem refl (s : State) : LoadsOnly s s := rfl

theorem trans {s t u : State} (h : LoadsOnly s t) (k : LoadsOnly t u) : LoadsOnly s u := by
  unfold LoadsOnly at *
  rw [k, h]

theorem mem {s t : State} (h : LoadsOnly s t) : t.mem = s.mem := by rw [h]
theorem full {s t : State} (h : LoadsOnly s t) : t.full = s.full := by rw [h]
theorem blocks {s t : State} (h : LoadsOnly s t) : t.blocks = s.blocks := by rw [h]

theorem foldl_fst {α β : Type} {f : State × β → α → State × β} (h : ∀ x a, LoadsOnly x.1 (f x a).1) (l : List α) (x : State × β) :
    LoadsOnly x.1 (l.foldl f x).1 := by
  induction l generalizing x with
  | nil => exact refl _
  | cons a l ih => exact (h x a).trans (ih _)

end LoadsOnly

theorem evict_loadsOnly (n : Nat) (s : State) (core m : Nat) : LoadsOnly s (evict n s core m) := by
  induction n generalizing s with
  | zero => exact .refl s
  | succ n ih =>
    unfold evict
    split
    · exact .refl s
    · extract_lets able
      split
      · exact .refl s
      · refine LoadsOnly.trans ?_ (ih _)
        rfl

theorem takeSlots_loadsOnly (s : State) (k : Nat) (ev : Bool) : LoadsOnly s (takeSlots s k ev) := by
  unfold takeSlots
  split
  · exact .refl s
  · split
    · exact .refl s
    · extract_lets n s1 free
      have h1 : LoadsOnly s s1 := by
        unfold s1; split
        · exact evict_loadsOnly _ _ _ _
        · exact .refl _
      split
      · exact h1.trans rfl
      · exact h1

theorem startLoad_loadsOnly (s : State) (core ctx : Nat) (e : OvEntry) (w : Waiter) : LoadsOnly s (startLoad s core ctx e w).1 := by
  unfold startLoad
  extract_lets id
  split
  · rfl
  · refine LoadsOnly.trans ?_ (takeSlots_loadsOnly _ _ _)
    rfl

theorem loadFixed_loadsOnly (s : State) (b ctx core : Nat) (e : OvEntry) : LoadsOnly s (loadFixed s b ctx core e).1 := by
  unfold loadFixed
  split
  · split
    · exact startLoad_loadsOnly _ _ _ _ _
    · rfl
  · exact startLoad_loadsOnly _ _ _ _ _

/-! ### The groups of a block (R294) -/

/-- Group `i` of a block is placed under the next key. -/
def placeGroup (mk : State → Nat → Nat → Machine.Group) (s : State) (i : Nat) : State :=
  { s with nextId := s.nextId + 1, groups := mput s.groups s.nextId (mk { s with nextId := s.nextId + 1 } s.nextId i) }

/-- The first `n` groups stand under the next `n` keys. -/
theorem placeGroup_foldl (mk : State → Nat → Nat → Machine.Group) (s : State) (n : Nat) :
    ∃ G, (List.range n).foldl (placeGroup mk) s = { s with nextId := s.nextId + n, groups := G } ∧
      ∀ i < n, ∃ u, mget G (s.nextId + i) = some (mk u (s.nextId + i) i) := by
  induction n with
  | zero => exact ⟨s.groups, rfl, fun i hi => absurd hi (Nat.not_lt_zero i)⟩
  | succ n ih =>
    obtain ⟨G, hG, hi⟩ := ih
    refine ⟨mput G (s.nextId + n) (mk { s with nextId := s.nextId + n + 1, groups := G } (s.nextId + n) n), ?_, fun i hlt => ?_⟩
    · rw [List.range_succ, List.foldl_append, hG]; rfl
    · rcases Nat.lt_succ_iff_lt_or_eq.1 hlt with h | rfl
      · obtain ⟨u, hu⟩ := hi i h
        exact ⟨u, by rw [mget_mput_ne _ _ (by omega), hu]⟩
      · exact ⟨_, mget_mput_same _ _ _⟩

/-- A register map of s1 to s6 reads as its values, and zero elsewhere (R33). -/
theorem rs_launchGroup (b : Nat) (L : Launch) (B : Block) (core off : Nat) (s : State) (k i : Nat) :
    let G := launchGroup b L B core off s k i
    G.rs 1 = L.desc.args ∧ G.rs 2 = BitVec.ofNat 64 B.lin ∧ G.rs 3 = BitVec.ofNat 64 L.blockcnt ∧ G.rs 4 = BitVec.ofNat 64 i ∧
      G.rs 5 = BitVec.ofNat 64 L.desc.groups ∧ G.rs 6 = BitVec.ofNat 64 off ∧ ∀ r : SReg, 7 ≤ r.toNat → G.rs r = 0 := by
  have hrs (r : SReg) (hr : r ≠ 0) : (launchGroup b L B core off s k i).rs r = (mget (launchGroup b L B core off s k i).sreg r.toNat).getD 0 := if_neg hr
  refine ⟨?_, ?_, ?_, ?_, ?_, ?_, fun r hr => ?_⟩
  iterate 6
    rw [hrs _ (by decide)]
    simp [launchGroup, Group.start, startRegs, getD_mset]
  rw [hrs _ fun h => by rw [h] at hr; exact absurd hr (by decide)]
  simp only [launchGroup, Group.start, startRegs, List.foldl_cons, List.foldl_nil, getD_mset]
  simp [show r.toNat ≠ 1 by omega, show r.toNat ≠ 2 by omega, show r.toNat ≠ 3 by omega, show r.toNat ≠ 4 by omega, show r.toNat ≠ 5 by omega,
    show r.toNat ≠ 6 by omega, mget]

/-! ### A block takes its place (R286, R295) -/

/-- A place inside the scratch areas that a block takes. -/
def InAreas (cores : List Nat) (off n a : Nat) : Prop := ∃ c ∈ cores, scrLoc c off ≤ a ∧ a < scrLoc c off + n

theorem mget_filter_key {β : Type} (m : SMap β) (f : Nat → Bool) (a : Nat) : mget (m.filter fun c => f c.1) a = if f a then mget m a else none := by
  induction m with
  | nil => simp [mget]
  | cons p m ih =>
    obtain ⟨k, v⟩ := p
    by_cases hk : a = k
    · subst hk
      by_cases hf : f a = true
      · simp [hf, mget]
      · simp only [List.filter_cons, hf, Bool.false_eq_true, if_false, ih]
    · by_cases hf : f k = true
      · simp [hf, mget, hk, ih]
      · simp [hf, mget, hk, ih]

theorem forget_foldl_blocks (cores : List Nat) (off n : Nat) (s : State) :
    (cores.foldl (fun s c => s.forget (scrLoc c off) n) s).blocks = s.blocks := by
  induction cores generalizing s with
  | nil => rfl
  | cons c cores ih => exact ih (s.forget (scrLoc c off) n)

section
variable {s : State} {b : Nat} {B : Block} {L : Launch} {core off compOv : Nat} {mk : State → Nat → Nat → Machine.Group}

/-- What a block's start leaves: its areas zeroed and empty, its place, and its groups under keys of their own. -/
theorem startBlock_leaves (hB : mget s.blocks b = some B) :
    ∃ t, startBlock s b B L core off compOv mk = t ∧
      (∃ B', mget t.blocks b = some B' ∧ B'.st = .loading ∧ B'.core = core ∧ B'.scrOff = off) ∧
      (∀ a, InAreas (blockCores B.wide core) off L.desc.scratch a → memRead t.mem a = 0) ∧
      (∀ w, InAreas (blockCores B.wide core) off L.desc.scratch (4 * w) → w ∉ t.full) ∧
      (∀ a, ¬ InAreas (blockCores B.wide core) off L.desc.scratch a → memRead t.mem a = memRead s.mem a) ∧
      ∀ i < blockGroups B L.desc, ∃ g u, mget t.groups g = some (mk u g i) := by
  refine ⟨_, rfl, ?_⟩
  unfold startBlock
  extract_lets cores mine tiles s0 s1 s2 loads s3 s4
  have hmine (a : Nat) : mine a = true ↔ InAreas cores off L.desc.scratch a := by
    simp [mine, InAreas]
  have hload : LoadsOnly s2 loads.1 := by
    refine LoadsOnly.foldl_fst (fun x c => LoadsOnly.foldl_fst (fun y ov => ?_) _ _) cores (s2, [])
    dsimp only
    split
    · exact loadFixed_loadsOnly _ _ _ _ _
    · exact .refl _
  obtain ⟨G, hG, hi⟩ := placeGroup_foldl mk s3 (blockGroups B L.desc)
  have hs4 : s4 = { s3 with nextId := s3.nextId + blockGroups B L.desc, groups := G } := hG
  have hmem : (dropReady s4 b).mem = s1.mem := by rw [hs4]; exact hload.mem
  have hfull : (dropReady s4 b).full = s1.full := by rw [hs4]; exact hload.full
  have hblk : (dropReady s4 b).blocks = s3.blocks := by rw [hs4]; rfl
  have hs2 : loads.1.blocks = s2.blocks := hload.blocks
  have hread (a : Nat) : memRead s1.mem a = if mine a then 0 else memRead s.mem a := by
    rw [memRead, show s1.mem = s.mem.filter fun c => !mine c.1 from rfl, mget_filter_key s.mem (fun a => !mine a)]
    cases mine a <;> rfl
  refine ⟨?_, fun a ha => ?_, fun w hw => ?_, fun a ha => ?_, fun i hlt => ?_⟩
  · have hs0 : mget s2.blocks b = _ := (mget_mupd_same s0.blocks b _).trans (by rw [forget_foldl_blocks, hB])
    have hs3 : mget (dropReady s4 b).blocks b = _ :=
      (congrArg (mget · b) hblk).trans ((mget_mupd_same loads.1.blocks b _).trans (by rw [hs2, hs0, Option.map_some, Option.map_some]))
    exact ⟨_, hs3, rfl, rfl, rfl⟩
  · rw [hmem, hread, if_pos ((hmine a).2 ha)]
  · rw [hfull, show s1.full = s.full.filter fun w => !mine (4 * w) from rfl, List.mem_filter, (hmine _).2 hw]
    exact fun h => Bool.false_ne_true h.2
  · rw [hmem, hread, if_neg fun h => ha ((hmine a).1 h)]
  · obtain ⟨u, hu⟩ := hi i hlt
    exact ⟨_, u, by rw [hs4]; exact hu⟩

/-- A waiting block whose own place has room starts there. -/
theorem blockStart_of_place (hB : mget s.blocks b = some B) (hL : mget s.launches B.launch = some L) (hst : B.st = .waiting) (hcomp : B.comp = none)
    (haud : B.audit = none) (hstart : L.starts = true) (hbehind : behind s L (blockCores B.wide B.core) = false)
    (hplace : placeFor s L b B B.core = some (B.core, off)) (hquiet : tilesQuiet s b (blockCores B.wide B.core) = true) :
    exec (.blockStart b) s = .next (startBlock s b B L B.core off 0 (launchGroup b L B B.core off)) := by
  have hroom : (blockCores B.wide B.core).all (coreRoom s L B B.core) = true := by
    by_contra h
    rw [placeFor, if_neg h] at hplace
    cases hplace
  have hok : (blockCores B.wide B.core).all (coreOk s) = true := by
    refine List.all_eq_true.2 fun c hc => ?_
    have h := List.all_eq_true.1 hroom c hc
    simp only [coreRoom, coreUp, Bool.and_eq_true] at h
    exact h.1.1.1.1.1.1
  have hcands : startCands s L B = [B.core] := if_pos hok
  change execBlockStart b s = _
  simp only [execBlockStart, hB, hL, hst, hcomp, haud, hstart, hcands, hbehind, hquiet, hplace, List.filter_cons, List.filter_nil,
    List.filterMap_cons, List.filterMap_nil, Option.isSome_none, ne_eq, not_true, decide_false, Bool.not_true, Bool.not_false, Bool.or_self,
    Bool.and_self, Bool.false_eq_true, if_false, if_true, List.length_nil, Nat.zero_add, Nat.mod_one, List.getD_cons_zero]

end

theorem scrLoc_add (c off i : Nat) : scrLoc c (off + i) = scrLoc c off + i := (Nat.add_assoc _ _ _).symm

/-- R33, R69, R286, R294, R295: a block takes its core, an area that reads as zero, and its groups. -/
theorem blockStarts : Claims.BlockStarts := by
  intro s b B L off hB hL hst hcomp haud hstart hbehind hplace hquiet
  obtain ⟨t, ht, ⟨B', hB', hst', hcore', hoff'⟩, hzero, hempty, hframe, hgroups⟩ :=
    startBlock_leaves (L := L) (core := B.core) (off := off) (compOv := 0) (mk := launchGroup b L B B.core off) hB
  have hn : blockGroups B L.desc = L.desc.groups := by simp [blockGroups, hcomp, haud]
  refine ⟨t, B', ht ▸ blockStart_of_place hB hL hst hcomp haud hstart hbehind hplace hquiet, hB', hst', hcore', hoff', fun c hc i hi => ?_, fun a ha => ?_,
    fun i hi => ?_⟩
  · have hin : InAreas (blockCores B.wide B.core) off L.desc.scratch (scrLoc c (off + i)) := ⟨c, hc, by rw [scrLoc_add]; omega⟩
    refine ⟨hzero _ hin, fun h4 => hempty _ ?_⟩
    have hdiv : 4 * (scrLoc c (off + i) / 4) = scrLoc c (off + i) := by
      unfold scrLoc Config.scratchSpan
      omega
    rwa [hdiv]
  · exact hframe a fun ⟨c, hc, h1, h2⟩ => by have := ha c hc; omega
  · obtain ⟨g, u, hg⟩ := hgroups i (hn ▸ hi)
    obtain ⟨h1, h2, h3, h4, h5, h6, h7⟩ := rs_launchGroup b L B B.core off u g i
    exact ⟨g, _, hg, rfl, rfl, rfl, rfl, rfl, rfl, rfl, h1, h2, h3, h4, h5, h6, h7, fun _ => rfl, rfl, rfl, rfl, rfl, rfl, rfl, rfl, rfl, rfl, rfl, rfl,
      rfl, rfl, rfl, rfl⟩

/-! ### A group starts (R69, R193) -/

theorem join_view (n : Nat) : ({} : Earlier).join { view := { upto := n } } = { view := { upto := n } } := by
  simp [Earlier.join, View.join, sunion]

/-- R69, R193: a placed group runs at its entry once its overlays are there, and its block has started. -/
theorem groupStarts : Claims.GroupStarts := by
  intro s g G B hG hB hst
  refine ⟨fun hB' hready hcomp => ?_, fun hready => ?_⟩
  · have hblk : (decide (B.st ≠ .loading) && decide (B.st ≠ .started)) = false := by
      rcases hB' with h | h <;> simp [h]
    have hx : exec (.groupStart g) s = execGroupStart g s := rfl
    simp only [execGroupStart, hG, State.blk?, hB, hst, hblk, hready, hcomp, ne_eq, not_true, decide_false, Bool.not_true, Bool.or_self,
      Bool.false_eq_true, if_false, join_view] at hx
    exact ⟨_, _, hx, by rw [hcomp]; exact mget_mput_same _ _ _, (mget_mupd_same _ _ _).trans (by rw [State.grp, hB]; rfl), rfl, rfl⟩
  · change execGroupStart g s = _
    simp only [execGroupStart, hG, State.blk?, hB, hready, Bool.not_false, Bool.or_true, if_true]

/-- Settles O31: a block takes its place with its groups, and they start once its overlays are loaded. -/
theorem blocksAndGroupsStart : Obligations.BlocksAndGroupsStart := ⟨blockStarts, groupStarts⟩

end Sys2Proof.Proofs
end

section
/-!
PROOFS. Which lanes conversions, packing, compares, selects, predicate logic and moves write, and with which element (R52, R128 to R133).
-/

namespace Sys2Proof.Proofs
open Sys2Proof.Machine Sys2Proof.Claims

/-! ### What the lane instructions share -/

section
variable {i : Instr} {s : State} {g n : Nat} {G : Machine.Group} {S : Split}

/-- A lane instruction that changes registers only: its split goes on to the next word. -/
theorem laneBecomes_alu (hl : LaneTurn s g G n S) {gd : LGuard} {regs : List Nat} {F : Machine.Group → Mask → Machine.Group} {H : Machine.Group}
    (he : exec i s = laneAlu s gd regs F) (hb : Below G regs) (hF : F G (Active G S gd) = H) (hs : H.splits = G.splits) :
    LaneBecomes i s g (H.goto n (S.pc + 1)) := by
  obtain ⟨ht, hg, hS⟩ := hl
  have hF' : F G (active G S gd) = H := hF
  rw [LaneBecomes, he, laneAlu_of ht hg hS gd hb, hF', afterLane, hs, hS]
  rfl

theorem wp_splits (G : Machine.Group) (p : PReg) (x : Mask) : (G.wp p x).splits = G.splits := by
  rw [wp_frame]

/-- An instruction that computes a predicate writes it in its active lanes (R132). -/
theorem predWrites_alu (hl : LaneTurn s g G n S) {gd : LGuard} {regs : List Nat} {pd : PReg} {r : Mask} {F : Machine.Group → Mask → Machine.Group}
    (he : exec i s = laneAlu s gd regs F) (hb : Below G regs) (hF : F G (Active G S gd) = G.wpMask pd (Active G S gd) r) :
    PredWrites i s g G n S pd (Active G S gd) r :=
  laneBecomes_alu hl he hb hF (wp_splits _ _ _)

theorem predWrites_step (hl : LaneTurn s g G n S) {gd : LGuard} {pd : PReg} {f : Machine.Group → Mask} (he : exec i s = predStep s gd pd f) :
    PredWrites i s g G n S pd (Active G S gd) (f G) :=
  predWrites_alu (regs := []) hl he (fun _ h => absurd h List.not_mem_nil) rfl

theorem below_one {r : Nat} (h : r < G.n) : Below G [r] := fun _ hr => List.mem_singleton.1 hr ▸ h

end

/-- A write takes nothing but the values of the written lanes. -/
theorem wvMask_congr (G : Machine.Group) (r : Nat) {m : Mask} {f h : Nat → Elem} (hfh : ∀ i < 256, m.getLsbD i = true → f i = h i) :
    G.wvMask r m f = G.wvMask r m h := by
  have hset (l : Lanes) (i : Nat) : setLanes m f i l = setLanes m h i l := by
    induction l generalizing i with
    | nil => rfl
    | cons x l ih =>
      rw [setLanes, setLanes, ih]
      by_cases hm : m.getLsbD i = true
      · rw [if_pos hm, if_pos hm, hfh i (BitVec.lt_of_getLsbD hm) hm]
      · rw [if_neg hm, if_neg hm]
  rw [Group.wvMask, Group.wvMask, hset]

theorem getLsbD_select (q : Mask) (inv : Bool) {i : Nat} (hi : i < 256) : (if inv then ~~~q else q).getLsbD i = (q.getLsbD i != inv) := by
  cases inv <;> simp [hi]

/-! ### Packing (R129) -/

theorem zipIdx_map_range {α : Type} (F : Nat → α) (k : Nat) : ((List.range k).map F).zipIdx = (List.range k).map fun j => (F j, j) := by
  apply List.ext_getElem <;> simp

theorem foldl_add_eq_sum (h : Nat → Nat) (l : List Nat) (x : Nat) : l.foldl (fun acc j => acc + h j) x = x + (l.map h).sum := by
  induction l generalizing x with
  | nil => rfl
  | cons a l ih => rw [List.foldl_cons, ih, List.map_cons, List.sum_cons, Nat.add_assoc]

theorem vpack_writes {s : State} {g n : Nat} {G : Machine.Group} {S : Split} (hl : LaneTurn s g G n S) (w : Cvt)
    (hb : Below G (w.d.toNat :: (List.range (32 / w.dst.bits)).map (w.a.toNat + ·))) :
    LaneWrites (.vpack w) s g G n S .n32 w.d.toNat (Active G S w.g) fun i =>
      ((List.range (32 / w.dst.bits)).map fun j =>
        convert w.dst w.src w.m (G.el w.src (w.a.toNat + j) i) % 2 ^ w.dst.bits * 2 ^ (w.dst.bits * j)).sum := by
  have he : exec (.vpack w) s = execVpack w s := rfl
  unfold execVpack at he
  refine laneBecomes_alu hl he hb ?_ (Group.putEl_splits ..)
  refine congrArg (G.putEl .n32 w.d.toNat _) (funext fun i => ?_)
  rw [zipIdx_map_range, List.foldl_map]
  exact (foldl_add_eq_sum _ _ 0).trans (Nat.zero_add _)

theorem foldl_putEl_splits (t : Ty) (d : Nat) (m : Mask) (f : Nat → Nat → Nat) (l : List Nat) (G : Machine.Group) :
    (l.foldl (fun H j => H.putEl t (d + j) m (f j)) G).splits = G.splits := by
  induction l generalizing G with
  | nil => rfl
  | cons j l ih => exact (ih _).trans (Group.putEl_splits ..)

theorem vunpk_becomes {s : State} {g n : Nat} {G : Machine.Group} {S : Split} (hl : LaneTurn s g G n S) (w : Cvt)
    (hb : Below G ((List.range (32 / w.src.bits)).map (w.d.toNat + ·) ++ [w.a.toNat])) :
    LaneBecomes (.vunpk w) s g (((List.range (32 / w.src.bits)).foldl (fun H j => H.putEl w.dst (w.d.toNat + j) (Active G S w.g) fun i =>
      convert w.dst w.src w.m ((lane (G.rv w.a.toNat) i).toNat / 2 ^ (w.src.bits * j) % 2 ^ w.src.bits)) G).goto n (S.pc + 1)) := by
  have hel (i : Nat) : G.el .n32 w.a.toNat i = (lane (G.rv w.a.toNat) i).toNat :=
    (el_narrow G rfl _ i).trans (Nat.mod_eq_of_lt (lane (G.rv w.a.toNat) i).isLt)
  have he : exec (.vunpk w) s = execVunpk w s := rfl
  unfold execVunpk at he
  refine laneBecomes_alu hl he hb ?_ (foldl_putEl_splits ..)
  simp only [← hel]
  rfl

/-! ### The obligation's first part -/

/-- R52, R128 to R133: which lanes get which element. -/
theorem lanesConvertAndMove : Claims.LanesConvertAndMove := by
  intro s g G n S hl
  refine ⟨fun w => ⟨fun hb => ?_, vpack_writes hl w, vunpk_becomes hl w⟩, fun w hb => ?_, fun w hw hb => ?_, fun w hw hb => ?_, fun w => ?_,
    fun gd pd pa => predWrites_step hl (f := fun G => ~~~(G.rp pa)) rfl, fun gd ty d b hb => ⟨fun hw => ?_, fun hw => ?_⟩, fun gd ty d x hb => ?_,
    fun gd d pa hd => ⟨?_, ?_⟩, fun gd pd a ha => ?_⟩
  · exact laneWrites_alu hl (fun G i => convert w.dst w.src w.m (G.el w.src w.a.toNat i)) rfl hb
  · refine ⟨maskOf fun i => (Active G S w.g).getLsbD i && relLane w.ty w.rel (G.el w.ty w.a.toNat i) (G.opnd w.ty w.b i), fun i hi hact => ?_,
      predWrites_alu hl (show exec (.vcmp w) s = execVcmp w s from rfl) hb rfl⟩
    rw [getLsbD_maskOf, hact, Bool.true_and]
    simp [hi]
  · refine laneBecomes_alu hl (show exec (.vsel w) s = execVsel w s from rfl) hb ?_ (Group.wvMask_splits ..)
    dsimp only
    rw [if_neg (by rw [hw]; decide)]
    refine wvMask_congr G _ fun i hi _ => ?_
    rw [getLsbD_select _ _ hi]
  · refine ⟨_, fun i hi => ?_, laneBecomes_alu hl (show exec (.vsel w) s = execVsel w s from rfl) hb (if_pos hw) (Group.putEl_splits ..)⟩
    rw [getLsbD_select _ _ hi]
  · exact ⟨predWrites_step hl (f := fun G => G.rp w.pa &&& G.rp w.pb) rfl, predWrites_step hl (f := fun G => G.rp w.pa ||| G.rp w.pb) rfl,
      predWrites_step hl (f := fun G => G.rp w.pa ^^^ G.rp w.pb) rfl⟩
  · exact laneBecomes_alu hl (show exec (.vmov gd ty d b) s = execVmov gd ty d b s from rfl) hb (if_pos hw) (Group.putEl_splits ..)
  · exact laneBecomes_alu hl (show exec (.vmov gd ty d b) s = execVmov gd ty d b s from rfl) hb (if_neg (by rw [hw]; decide)) (Group.wvMask_splits ..)
  · exact laneWrites_alu hl (fun _ _ => immEl ty x) rfl hb
  · exact laneWrites_alu hl (fun _ i => i) rfl (below_one hd)
  · exact laneWrites_alu hl (fun G i => if (G.rp pa).getLsbD i then 1 else 0) rfl (below_one hd)
  · refine ⟨maskOf fun i => lane (G.rv a.toNat) i != 0, fun i hi => ?_, predWrites_alu hl (show exec (.vv2p gd pd a) s = execVv2p gd pd a s from rfl) (below_one ha) rfl⟩
    rw [getLsbD_maskOf, decide_eq_true hi, Bool.true_and, Bool.eq_iff_iff, bne_iff_ne, decide_eq_true_eq]

end Sys2Proof.Proofs
end

section
/-!
PROOFS. The relations of lane compares (R52, R130).
-/

namespace Sys2Proof.Proofs
open Sys2Proof.Machine Sys2Proof.Claims

/-! ### Integers of a type (R14, R17) -/

theorem toInt_eq_intOf (t : Ty) {x : Nat} (hx : x < 2 ^ t.bits) : toInt t.isSigned t.bits x = intOf t x := by
  cases hs : t.isSigned with
  | true => rw [toInt_eq_sgnOf t hx, intOf_of_signed hs]
  | false => simp [toInt, intOf, hs, Nat.mod_eq_of_lt hx]

theorem toInt_unsigned {n x : Nat} (hx : x < 2 ^ n) : toInt false n x = x := by simp [toInt, Nat.mod_eq_of_lt hx]

/-- Different patterns of a type are different integers. -/
theorem intOf_inj (t : Ty) {x y : Nat} (hx : x < 2 ^ t.bits) (hy : y < 2 ^ t.bits) : intOf t x = intOf t y ↔ x = y := by
  unfold intOf
  cases t.isSigned with
  | false => simp
  | true =>
    simp only [true_and]
    split <;> split <;> omega

/-! ### Exact values of a type (R6, R28) -/

/-- The denominator of a finite value is not zero. -/
def DenPos (v : FVal) : Prop := ∀ neg n d, v = .fin neg n d → 0 < d

theorem decodeFmt_denPos (f : Fmt) (x : Nat) : DenPos (decodeFmt f x) := by
  intro neg n d h
  unfold decodeFmt at h
  extract_lets sg m at h
  split at h
  · obtain ⟨-, -, rfl⟩ := FVal.fin.inj h
    exact scale2_den_pos _ Nat.one_pos _
  · split at h <;> cases h

theorem gd8Mag_den_pos (c : Nat) : 0 < (gd8Mag c).2 := by
  unfold gd8Mag
  dsimp only
  split <;> positivity

theorem decodeGd8_denPos (x : Nat) : DenPos (decodeGd8 x) := by
  intro neg n d h
  unfold decodeGd8 at h
  extract_lets y at h
  split at h
  · obtain ⟨-, -, rfl⟩ := FVal.fin.inj h
    exact Nat.one_pos
  · split at h
    · cases h
    · obtain ⟨-, -, rfl⟩ := FVal.fin.inj h
      exact gd8Mag_den_pos _

theorem decodeTy_denPos (t : Ty) (x : Nat) : DenPos (decodeTy t x) := by
  unfold decodeTy
  split
  · exact decodeFmt_denPos _ _
  · split
    · exact decodeGd8_denPos _
    · intro neg n d h
      obtain ⟨-, -, rfl⟩ := FVal.fin.inj h
      exact Nat.one_pos

/-! ### The order of values (R52) -/

section
variable {a b : Bool} {n d p q : Nat}

theorem fEq_fin_iff (hd : 0 < d) (hq : 0 < q) : fEq (.fin a n d) (.fin b p q) = true ↔ sgn a * ((n : ℚ) / d) = sgn b * ((p : ℚ) / q) := by
  have hx : (0 : ℚ) ≤ (n : ℚ) / d := by positivity
  have hy : (0 : ℚ) ≤ (p : ℚ) / q := by positivity
  have heq : n * q = p * d ↔ (n : ℚ) / d = (p : ℚ) / q := by
    rw [div_eq_div_iff (by positivity) (by positivity)]
    exact_mod_cast Iff.rfl
  have hzero : n = 0 ↔ (n : ℚ) / d = 0 := by
    rw [div_eq_zero_iff]
    simp [hd.ne']
  simp only [fEq, Bool.and_eq_true, decide_eq_true_eq, Bool.or_eq_true, beq_iff_eq, heq, hzero]
  generalize (n : ℚ) / d = x at *
  generalize (p : ℚ) / q = y at *
  cases a <;> cases b <;> simp only [sgn] <;> grind

theorem fLt_fin_iff (hd : 0 < d) (hq : 0 < q) : (fLt (.fin a n d) (.fin b p q) && !fEq (.fin a n d) (.fin b p q)) = true ↔
    sgn a * ((n : ℚ) / d) < sgn b * ((p : ℚ) / q) := by
  have hx : (0 : ℚ) ≤ (n : ℚ) / d := by positivity
  have hy : (0 : ℚ) ≤ (p : ℚ) / q := by positivity
  have hlt : n * q < p * d ↔ (n : ℚ) / d < (p : ℚ) / q := by
    rw [div_lt_div_iff₀ (by positivity) (by positivity)]
    exact_mod_cast Iff.rfl
  have hgt : p * d < n * q ↔ (p : ℚ) / q < (n : ℚ) / d := by
    rw [div_lt_div_iff₀ (by positivity) (by positivity)]
    exact_mod_cast Iff.rfl
  have hne : (!fEq (.fin a n d) (.fin b p q)) = true ↔ sgn a * ((n : ℚ) / d) ≠ sgn b * ((p : ℚ) / q) := by
    rw [Bool.not_eq_true', ← Bool.not_eq_true, fEq_fin_iff hd hq]
  rw [Bool.and_eq_true, hne]
  generalize hX : (n : ℚ) / d = x at *
  generalize hY : (p : ℚ) / q = y at *
  cases a <;> cases b <;> simp only [fLt, sgn, Bool.not_true, Bool.not_false, Bool.and_self, Bool.and_true, Bool.and_false, Bool.false_eq_true,
    if_true, if_false, decide_eq_true_eq, hlt, hgt, true_and, one_mul, neg_mul, neg_lt_neg_iff, false_and]
  · exact ⟨And.left, fun h => ⟨h, h.ne⟩⟩
  · exact iff_of_false id (by linarith)
  · exact ⟨fun h => lt_of_le_of_ne (by linarith) h, fun h => h.ne⟩
  · exact ⟨And.left, fun h => ⟨h, fun he => h.ne' (neg_injective he)⟩⟩

end

/-- Equality of the float column is equality of values that are no NaN: -0 equals +0. -/
theorem fEq_iff {v w : FVal} (hv : DenPos v) (hw : DenPos w) : fEq v w = true ↔ ¬ (v = .nan ∨ w = .nan) ∧ placed v = placed w := by
  cases v with
  | nan => simp [fEq]
  | inf a => cases w with
    | nan => simp [fEq]
    | inf b => cases a <;> cases b <;> simp [fEq, placed]
    | fin b p q => cases a <;> simp [fEq, placed]
  | fin a n d => cases w with
    | nan => simp [fEq]
    | inf b => cases b <;> simp [fEq, placed]
    | fin b p q =>
      rw [fEq_fin_iff (hv _ _ _ rfl) (hw _ _ _ rfl)]
      simp [placed, sgn]

/-- The order of the float column is the order of the values. -/
theorem fLt_iff {v w : FVal} (hv : DenPos v) (hw : DenPos w) (hvn : v ≠ .nan) (hwn : w ≠ .nan) :
    (fLt v w && !fEq v w) = true ↔ placed v < placed w := by
  cases v with
  | nan => exact absurd rfl hvn
  | inf a => cases w with
    | nan => exact absurd rfl hwn
    | inf b => cases a <;> cases b <;> simp [fLt, fEq, placed]
    | fin b p q => cases a <;> simp [fLt, fEq, placed]
  | fin a n d => cases w with
    | nan => exact absurd rfl hwn
    | inf b => cases b with
      | true => simp [fLt, fEq, placed]
      | false => exact iff_of_true rfl (WithBot.coe_lt_coe.2 (WithTop.coe_lt_top _))
    | fin b p q =>
      rw [fLt_fin_iff (hv _ _ _ rfl) (hw _ _ _ rfl)]
      simp [placed, sgn]

/-- The float column of R52. -/
theorem relFloat_iff {v w : FVal} (hv : DenPos v) (hw : DenPos w) :
    let un := v = .nan ∨ w = .nan
    (relFloat .unord v w = true ↔ un) ∧ (relFloat .ord v w = true ↔ ¬ un) ∧ (relFloat .eq v w = true ↔ ¬ un ∧ placed v = placed w) ∧
    (relFloat .ne v w = true ↔ un ∨ placed v ≠ placed w) ∧
    (relFloat .lt v w = true ↔ ¬ un ∧ placed v < placed w) ∧ (relFloat .le v w = true ↔ ¬ un ∧ placed v ≤ placed w) ∧
    (relFloat .gt v w = true ↔ ¬ un ∧ placed w < placed v) ∧ (relFloat .ge v w = true ↔ ¬ un ∧ placed w ≤ placed v) := by
  intro un
  have hun : (decide (v = .nan) || decide (w = .nan)) = decide un := by simp [un]
  have heq := fEq_iff hv hw
  by_cases h : un
  · have hf : fEq v w = false := by rw [Bool.eq_false_iff]; exact fun he => (heq.1 he).1 h
    simp [relFloat, hun, h, hf]
  · have hne : v ≠ .nan ∧ w ≠ .nan := not_or.1 h
    have hlt := fLt_iff hv hw hne.1 hne.2
    have hgt := fLt_iff hw hv hne.2 hne.1
    have hsymm : fEq w v = fEq v w := by
      rw [Bool.eq_iff_iff, fEq_iff hw hv, heq, eq_comm (a := placed w), or_comm (a := w = .nan)]
    have heq' : fEq v w = true ↔ placed v = placed w := heq.trans (and_iff_right h)
    have hle : (fLt v w && !fEq v w || fEq v w) = true ↔ placed v ≤ placed w := by rw [Bool.or_eq_true, hlt, heq', le_iff_lt_or_eq]
    have hge : (fLt w v && !fEq w v || fEq v w) = true ↔ placed w ≤ placed v := by
      rw [Bool.or_eq_true, hgt, heq', le_iff_lt_or_eq, eq_comm (a := placed v)]
    simp only [relFloat, hun, h, decide_false, Bool.not_false, Bool.true_and, hlt, hgt, hle, hge, heq', Bool.not_eq_true', ← Bool.not_eq_true,
      not_false_eq_true, true_and, false_or, Bool.false_eq_true, and_self, ne_eq]

/-! ### Lane compares (R130) -/

theorem relLane_of_int {t : Ty} (ht : t.isInt = true) (r : Rel) {x y : Nat} (hx : x < 2 ^ t.bits) (hy : y < 2 ^ t.bits) :
    relLane t r x y = relInt r (intOf t x) (intOf t y) x y := by
  rw [relLane, if_pos ht, relTy, toInt_eq_intOf t hx, toInt_eq_intOf t hy, toInt_unsigned hx, toInt_unsigned hy]

theorem relLane_of_float {t : Ty} (ht : t.isInt = false) (r : Rel) (x y : Nat) : relLane t r x y = relFloat r (decodeTy t x) (decodeTy t y) :=
  if_neg (by rw [ht]; decide)

/-- R52, R130: integers compare as integers or as patterns, floats as values. -/
theorem laneRelations : Claims.LaneRelations := by
  intro t x y hx hy a b v w rel
  refine ⟨fun ht => ?_, fun ht => ?_⟩
  · simp only [rel, relLane_of_int ht _ hx hy, relInt, beq_iff_eq, bne_iff_ne, decide_eq_true_eq, ne_eq, Nat.cast_lt, Nat.cast_le, gt_iff_lt, ge_iff_le,
      intOf_inj t hx hy, a, b, and_self]
  · simp only [rel, relLane_of_float ht]
    exact relFloat_iff (decodeTy_denPos t x) (decodeTy_denPos t y)

end Sys2Proof.Proofs
end

section
/-!
PROOFS. What a conversion of one element gives, and the codes of gd8 (R13, R14, R17 to R19, R128).
-/

namespace Sys2Proof.Proofs
open Sys2Proof.Machine Sys2Proof.Claims

/-! ### Codes of gd8 (R18) -/

theorem decodeGd8_of_code {c : Nat} (h1 : 1 ≤ c) (h2 : c ≤ 127) :
    decodeGd8 c = .fin false (gd8Mag c).1 (gd8Mag c).2 ∧ decodeGd8 (128 + c) = .fin true (gd8Mag c).1 (gd8Mag c).2 := by
  constructor
  · rw [decodeGd8, show c % 256 = c by omega, if_neg (by omega), if_neg (by omega), show c % 128 = c by omega, decide_eq_false (by omega)]
  · rw [decodeGd8, show (128 + c) % 256 = 128 + c by omega, if_neg (by omega), if_neg (by omega), show (128 + c) % 128 = c by omega,
      decide_eq_true (by omega)]

theorem gd8Value_eq (c : Nat) : gd8Value c = (1 + 9 * ((gd8Fields c).2.1 : ℚ) / 2 ^ (gd8Fields c).2.2) * 10 ^ (gd8Fields c).1 := by
  rcases hf : gd8Fields c with ⟨e, fr, m⟩
  have hm : (2 : ℚ) ^ m ≠ 0 := by positivity
  rw [gd8Value, gd8Mag, hf]
  dsimp only
  split
  · next he =>
    have hz : (10 : ℚ) ^ e = 10 ^ e.toNat := by rw [← zpow_natCast, Int.toNat_of_nonneg he]
    rw [hz]
    push_cast
    field_simp
  · next he =>
    have hz : (10 : ℚ) ^ e = (10 ^ (-e).toNat)⁻¹ := by rw [← zpow_natCast, Int.toNat_of_nonneg (by omega), zpow_neg, inv_inv]
    rw [hz]
    push_cast
    field_simp

/-- R18: zero, the NaN, and the sign and magnitude of every other code. -/
theorem gd8Codes : Claims.Gd8Codes := by
  refine ⟨rfl, rfl, fun c h1 h2 => ?_⟩
  obtain ⟨hp, hn⟩ := decodeGd8_of_code h1 h2
  refine ⟨?_, ?_, gd8Value_eq c⟩
  · rw [hp, signedValue_fin, sgn, if_neg (by decide), one_mul, gd8Value]
  · rw [hn, signedValue_fin, sgn, if_pos rfl, neg_one_mul, gd8Value]

/-! ### The nearest code (R19) -/

/-- Code `c` is nearer to `y` than code `x`, or as near and wins the tie. -/
def Nearer (y : ℚ) (x c : Nat) : Prop :=
  |y - gd8Value c| < |y - gd8Value x| ∨ |y - gd8Value c| = |y - gd8Value x| ∧ (gd8Even c ∧ ¬ gd8Even x ∨ (gd8Even c ↔ gd8Even x) ∧ gd8Value x < gd8Value c)

theorem Nearer.irrefl (y : ℚ) (c : Nat) : ¬ Nearer y c c := by
  simp [Nearer]

theorem Nearer.trans {y : ℚ} {x c e : Nat} (h : Nearer y x c) (k : Nearer y c e) : Nearer y x e := by
  unfold Nearer at *
  grind

/-- A distance over its common denominator. -/
theorem gd8Dist_value (n : Nat) {d : Nat} (hd : 0 < d) (c : Nat) : ((gd8Dist n d c).1 : ℚ) / (gd8Dist n d c).2 = |(n : ℚ) / d - gd8Value c| := by
  have hb := gd8Mag_den_pos c
  rcases hm : gd8Mag c with ⟨a, b⟩
  rw [hm] at hb
  rw [gd8Dist, gd8Value, hm]
  dsimp only at *
  have hsub : (n : ℚ) / d - a / b = (n * b - a * d) / (b * d) := by field_simp
  rw [hsub, abs_div, abs_of_pos (show (0 : ℚ) < b * d by positivity)]
  push_cast
  congr 1
  split
  · next h =>
    have h' : (a : ℚ) * d ≤ n * b := by exact_mod_cast h
    rw [Nat.cast_sub h, abs_of_nonneg (by linarith)]
    push_cast
    rfl
  · next h =>
    have h' : (n : ℚ) * b ≤ a * d := by exact_mod_cast (not_le.1 h).le
    rw [Nat.cast_sub (not_le.1 h).le, abs_of_nonpos (by linarith)]
    push_cast
    ring

theorem gd8Dist_den_pos (n : Nat) {d : Nat} (hd : 0 < d) (c : Nat) : 0 < (gd8Dist n d c).2 := Nat.mul_pos (gd8Mag_den_pos c) hd

/-- The model's comparison of two codes. -/
theorem gd8Better_iff {n d : Nat} (hd : 0 < d) (x c : Nat) : gd8Better n d x c = true ↔ Nearer ((n : ℚ) / d) x c := by
  have hlt : (gd8Dist n d c).1 * (gd8Dist n d x).2 < (gd8Dist n d x).1 * (gd8Dist n d c).2 ↔ |(n : ℚ) / d - gd8Value c| < |(n : ℚ) / d - gd8Value x| := by
    rw [← gd8Dist_value n hd, ← gd8Dist_value n hd, div_lt_div_iff₀ (by exact_mod_cast gd8Dist_den_pos n hd c) (by exact_mod_cast gd8Dist_den_pos n hd x)]
    exact_mod_cast Iff.rfl
  have heq : (gd8Dist n d c).1 * (gd8Dist n d x).2 = (gd8Dist n d x).1 * (gd8Dist n d c).2 ↔ |(n : ℚ) / d - gd8Value c| = |(n : ℚ) / d - gd8Value x| := by
    rw [← gd8Dist_value n hd, ← gd8Dist_value n hd, div_eq_div_iff (by exact_mod_cast (gd8Dist_den_pos n hd c).ne')
      (by exact_mod_cast (gd8Dist_den_pos n hd x).ne')]
    exact_mod_cast Iff.rfl
  have hmag : (gd8Mag x).1 * (gd8Mag c).2 < (gd8Mag c).1 * (gd8Mag x).2 ↔ gd8Value x < gd8Value c := by
    rw [gd8Value, gd8Value, div_lt_div_iff₀ (by exact_mod_cast gd8Mag_den_pos x) (by exact_mod_cast gd8Mag_den_pos c)]
    exact_mod_cast Iff.rfl
  have heven (e : Nat) : ((gd8Fields e).2.2 == 0 || (gd8Fields e).2.1 % 2 == 0) = true ↔ gd8Even e := by
    simp [gd8Even]
  unfold gd8Better Nearer
  dsimp only
  rw [← heven c, ← heven x]
  by_cases hd : (gd8Dist n d c).1 * (gd8Dist n d x).2 = (gd8Dist n d x).1 * (gd8Dist n d c).2
  · rw [if_neg (not_not.2 hd)]
    have hq := heq.1 hd
    have htie (ec ex : Bool) {P : Prop} [Decidable P] : (if (ec != ex) = true then ec else decide P) = true ↔
        ec = true ∧ ¬ ex = true ∨ (ec = true ↔ ex = true) ∧ P := by
      cases ec <;> cases ex <;> simp
    rw [htie, hmag, hq]
    simp only [lt_irrefl, false_or, true_and]
  · rw [if_pos hd, decide_eq_true_eq, hlt]
    exact (or_iff_left fun h => hd (heq.2 h.1)).symm

/-- The best of the codes from 1 to `k + 1`. -/
theorem foldl_best {better : Nat → Nat → Bool} {R : Nat → Nat → Prop} (hR : ∀ x c, better x c = true ↔ R x c) (hirr : ∀ c, ¬ R c c)
    (htrans : ∀ x c e, R x c → R c e → R x e) (k : Nat) :
    let r := (List.range k).foldl (fun best i => if better best (i + 1) then i + 1 else best) 1
    1 ≤ r ∧ r ≤ max 1 k ∧ ∀ e, 1 ≤ e → e ≤ max 1 k → ¬ R r e := by
  induction k with
  | zero => exact ⟨le_rfl, le_rfl, fun e h1 h2 => by rw [show e = 1 by omega]; exact hirr 1⟩
  | succ k ih =>
    obtain ⟨h1, h2, h3⟩ := ih
    rw [List.range_succ, List.foldl_append, List.foldl_cons, List.foldl_nil]
    dsimp only at *
    generalize (List.range k).foldl (fun best i => if better best (i + 1) then i + 1 else best) 1 = r at *
    by_cases hb : better r (k + 1) = true
    · rw [if_pos hb]
      refine ⟨by omega, by omega, fun e he1 he2 hre => ?_⟩
      rcases Nat.lt_or_ge k e with h | h
      · rw [show e = k + 1 by omega] at hre
        exact hirr _ hre
      · exact h3 e he1 (by omega) (htrans _ _ _ ((hR _ _).1 hb) hre)
    · rw [if_neg hb]
      refine ⟨h1, by omega, fun e he1 he2 => ?_⟩
      rcases Nat.lt_or_ge k e with h | h
      · by_cases hk : k = 0
        · subst hk
          exact h3 e he1 (by omega)
        · rw [show e = k + 1 by omega]
          exact fun hre => hb ((hR _ _).2 hre)
      · exact h3 e he1 (by omega)

/-! ### Into gd8 (R19) -/

section
variable {neg : Bool} {n d : Nat}

theorem encodeGd8_of_large (hd : 0 < d) (h : 10 ^ 9 < (n : ℚ) / d) : encodeGd8 (.fin neg n d) = if neg then 0x83 else 0x03 := by
  have hn : d * 10 ^ 9 < n := by
    rw [lt_div_iff₀ (by exact_mod_cast hd), mul_comm] at h
    exact_mod_cast h
  rw [encodeGd8, if_pos hn]
  cases neg <;> rfl

theorem encodeGd8_of_small (hd : 0 < d) (h : (n : ℚ) / d < 1 / (2 * 10 ^ 11)) : encodeGd8 (.fin neg n d) = 0 := by
  have hn : n * 2 * 10 ^ 11 < d := by
    rw [div_lt_div_iff₀ (by exact_mod_cast hd) (by positivity), one_mul, ← mul_assoc] at h
    exact_mod_cast h
  rw [encodeGd8, if_neg (by omega), if_pos hn]

theorem encodeGd8_of_between (hd : 0 < d) (h : 1 / (2 * 10 ^ 11) ≤ (n : ℚ) / d) (h' : (n : ℚ) / d ≤ 10 ^ 9) :
    ∃ c, 1 ≤ c ∧ c ≤ 127 ∧ encodeGd8 (.fin neg n d) = (if neg then 128 else 0) + c ∧ ∀ e, 1 ≤ e → e ≤ 127 → ¬ Nearer ((n : ℚ) / d) c e := by
  have hn : ¬ n > d * 10 ^ 9 := by
    rw [div_le_iff₀ (by exact_mod_cast hd), mul_comm] at h'
    exact not_lt.2 (by exact_mod_cast h')
  have hn' : ¬ n * 2 * 10 ^ 11 < d := by
    rw [div_le_div_iff₀ (by positivity) (by exact_mod_cast hd), one_mul, ← mul_assoc] at h
    exact not_lt.2 (by exact_mod_cast h)
  obtain ⟨h1, h2, h3⟩ := foldl_best (gd8Better_iff hd) (Nearer.irrefl ((n : ℚ) / d)) (fun _ _ _ => Nearer.trans) 127
  exact ⟨_, h1, h2, by rw [encodeGd8, if_neg hn, if_neg hn'], h3⟩

/-- Of two codes of which none is nearer, what the tie says (R19). -/
theorem nearest_of_not_nearer {y : ℚ} {c e : Nat} (h : ¬ Nearer y c e) : |y - gd8Value c| ≤ |y - gd8Value e| ∧ (|y - gd8Value c| = |y - gd8Value e| →
    (gd8Even e → gd8Even c) ∧ ((gd8Even e ↔ gd8Even c) → gd8Value e ≤ gd8Value c)) := by
  obtain ⟨hlt, htie⟩ := not_or.1 h
  refine ⟨not_lt.1 hlt, fun heq => ?_⟩
  have ht := not_or.1 fun ht => htie ⟨heq.symm, ht⟩
  exact ⟨fun he => by_contra fun hc => ht.1 ⟨he, hc⟩, fun hiff => not_lt.1 fun hv => ht.2 ⟨hiff, hv⟩⟩

end

/-! ### Into an integer type (R14) -/

section
variable {neg : Bool} {n d : Nat}

theorem quotient_split (hd : 0 < d) : (n : ℚ) / d = (n / d : Nat) + ((n % d : Nat) : ℚ) / d := by
  have h : (n : ℚ) = d * (n / d : Nat) + (n % d : Nat) := by exact_mod_cast (Nat.div_add_mod n d).symm
  field_simp
  linarith

theorem rem_quotient_bounds (hd : 0 < d) : (0 : ℚ) ≤ ((n % d : Nat) : ℚ) / d ∧ ((n % d : Nat) : ℚ) / d < 1 := by
  have hd' : (0 : ℚ) < d := by exact_mod_cast hd
  exact ⟨by positivity, (div_lt_one hd').2 (by exact_mod_cast Nat.mod_lt n hd)⟩

theorem floor_quotient (hd : 0 < d) : ⌊(n : ℚ) / d⌋ = ((n / d : Nat) : Int) := by
  obtain ⟨h0, h1⟩ := rem_quotient_bounds (n := n) hd
  rw [Int.floor_eq_iff, quotient_split hd, Int.cast_natCast]
  constructor <;> linarith

theorem ceil_quotient (hd : 0 < d) : ⌈(n : ℚ) / d⌉ = if n % d = 0 then ((n / d : Nat) : Int) else ((n / d + 1 : Nat) : Int) := by
  obtain ⟨h0, h1⟩ := rem_quotient_bounds (n := n) hd
  have hd' : (0 : ℚ) < d := by exact_mod_cast hd
  rw [Int.ceil_eq_iff, quotient_split hd]
  split
  · next h =>
    rw [h, Nat.cast_zero, zero_div, add_zero, Int.cast_natCast]
    constructor <;> linarith
  · next h =>
    have hpos : 0 < ((n % d : Nat) : ℚ) / d := div_pos (by exact_mod_cast Nat.pos_of_ne_zero h) hd'
    rw [Int.cast_natCast, Nat.cast_add, Nat.cast_one]
    constructor <;> linarith

/-- To nearest, ties to even, of a magnitude. -/
theorem roundNearest_spec (neg : Bool) (hd : 0 < d) {k : Nat} (hk : k = if roundUp .rn neg (n / d) (n % d) d then n / d + 1 else n / d) :
    |(n : ℚ) / d - k| ≤ 1 / 2 ∧ (|(n : ℚ) / d - k| = 1 / 2 → k % 2 = 0) := by
  have hd' : (0 : ℚ) < d := by exact_mod_cast hd
  obtain ⟨h0, h1⟩ := rem_quotient_bounds (n := n) hd
  have hgt : d < 2 * (n % d) ↔ 1 / 2 < ((n % d : Nat) : ℚ) / d := by
    rw [div_lt_div_iff₀ two_pos hd', one_mul, mul_comm]
    exact_mod_cast Iff.rfl
  have heq : 2 * (n % d) = d ↔ ((n % d : Nat) : ℚ) / d = 1 / 2 := by
    rw [div_eq_div_iff hd'.ne' two_ne_zero, one_mul, mul_comm]
    exact_mod_cast Iff.rfl
  have hup : roundUp .rn neg (n / d) (n % d) d = true ↔ d < 2 * (n % d) ∨ 2 * (n % d) = d ∧ n / d % 2 = 1 := by simp [roundUp]
  rw [quotient_split hd]
  by_cases h : roundUp .rn neg (n / d) (n % d) d = true
  · rw [if_pos h] at hk
    rw [hk, Nat.cast_add, Nat.cast_one, show ∀ x y : ℚ, x + y - (x + 1) = -(1 - y) by intros; ring, abs_neg, abs_of_nonneg (by linarith)]
    rcases hup.1 h with hl | ⟨he, hodd⟩
    · have := hgt.1 hl
      exact ⟨by linarith, fun hx => by linarith⟩
    · have := heq.1 he
      exact ⟨by linarith, fun _ => by omega⟩
  · rw [if_neg h] at hk
    obtain ⟨hl, he⟩ := not_or.1 (mt hup.2 h)
    have hl' := mt hgt.2 hl
    rw [hk, show ∀ x y : ℚ, x + y - x = y by intros; ring, abs_of_nonneg h0]
    refine ⟨not_lt.1 hl', fun hx => ?_⟩
    have hodd : ¬ n / d % 2 = 1 := fun hodd => he ⟨heq.2 hx, hodd⟩
    omega

/-- One rounding to an integer is what its mode says. -/
theorem roundInt_spec (neg : Bool) (hd : 0 < d) (m : Rnd) : RoundsToInt m (sgn neg * ((n : ℚ) / d)) (roundInt m neg n d) := by
  have hfloor := floor_quotient (n := n) hd
  have hceil := ceil_quotient (n := n) hd
  have hq : (0 : ℚ) ≤ (n : ℚ) / d := by positivity
  cases m with
  | rz =>
    cases neg with
    | false => simp only [RoundsToInt, sgn, roundInt, roundUp, Bool.false_eq_true, if_false, one_mul, if_neg (not_lt.2 hq), hfloor]
    | true =>
      simp only [RoundsToInt, sgn, roundInt, roundUp, Bool.false_eq_true, if_false, if_true, neg_one_mul, Int.ceil_neg, hfloor, Int.floor_neg]
      split
      · rfl
      · next h =>
        have hz : (n : ℚ) / d = 0 := by linarith
        rw [← hfloor, hz]
        simp
  | ru =>
    cases neg with
    | false =>
      simp only [RoundsToInt, sgn, roundInt, roundUp, Bool.false_eq_true, if_false, one_mul, Bool.not_false, Bool.true_and, decide_eq_true_eq, hceil,
        ne_eq, ite_not]
      split <;> rfl
    | true => simp only [RoundsToInt, sgn, roundInt, roundUp, Bool.not_true, Bool.false_and, Bool.false_eq_true, if_false, if_true, neg_one_mul,
        Int.ceil_neg, hfloor]
  | rd =>
    cases neg with
    | false => simp only [RoundsToInt, sgn, roundInt, roundUp, Bool.false_and, Bool.false_eq_true, if_false, one_mul, hfloor]
    | true =>
      simp only [RoundsToInt, sgn, roundInt, roundUp, if_true, neg_one_mul, Int.floor_neg, Bool.true_and, decide_eq_true_eq, hceil, ne_eq, ite_not]
      split <;> rfl
  | rn =>
    obtain ⟨hle, htie⟩ := roundNearest_spec (n := n) neg hd rfl
    have hr : (sgn neg * ((n : ℚ) / d) - (roundInt .rn neg n d : Int)) =
        sgn neg * ((n : ℚ) / d - ((if roundUp .rn neg (n / d) (n % d) d then n / d + 1 else n / d : Nat) : ℚ)) := by
      unfold roundInt
      cases neg <;> simp only [sgn, if_true, Bool.false_eq_true, if_false, Int.cast_neg, Int.cast_natCast] <;> ring
    have habs (x : ℚ) : |sgn neg * x| = |x| := by cases neg <;> simp [sgn]
    refine ⟨by rw [hr, habs]; exact hle, fun h => ?_⟩
    rw [hr, habs] at h
    have := htie h
    unfold roundInt
    dsimp only
    split <;> omega

end

/-! ### One element (R128) -/

theorem fmtOf_of_int {t : Ty} (h : t.isInt = true) : fmtOf t = none ∧ t ≠ .gd8 := by
  cases t <;> simp [fmtOf, Ty.isInt] at h ⊢

theorem fmt_bits {t : Ty} {f : Fmt} (h : fmtOf t = some f) : f.bits = t.bits := by
  cases t <;> cases h <;> rfl

theorem decodeTy_of_int {t : Ty} (h : t.isInt = true) {x : Nat} (hx : x < 2 ^ t.bits) :
    decodeTy t x = .fin (decide (intOf t x < 0)) (intOf t x).natAbs 1 := by
  obtain ⟨hf, hg⟩ := fmtOf_of_int h
  simp only [decodeTy, hf, hg, if_false, toInt_eq_intOf t hx]

theorem decodeTy_of_fmt {t : Ty} {f : Fmt} (h : fmtOf t = some f) {x : Nat} (hx : x < 2 ^ t.bits) : decodeTy t x = decodeFmt f x := by
  simp only [decodeTy, h]
  rw [Nat.mod_eq_of_lt (by rw [fmt_bits h]; exact hx)]

section
variable {dst src : Ty} {m : Modf} {x : Nat}

theorem convert_of_fmt {f : Fmt} (h : fmtOf dst = some f) : convert dst src m x = encodeFmt f m.rnd m.sat (decodeTy src x) := by
  have hg : dst ≠ .gd8 := by rintro rfl; cases h
  simp only [convert, hg, if_false, h]

theorem convert_int_int (hd : dst.isInt = true) (hs : src.isInt = true) (hx : x < 2 ^ src.bits) : convert dst src m x = fitted dst m.sat (intOf src x) := by
  obtain ⟨hf, hg⟩ := fmtOf_of_int hd
  simp only [convert, hf, hg, hs, if_false, if_true, toInt_eq_intOf src hx]
  rfl

theorem convert_float_int (hd : dst.isInt = true) (hs : src.isInt = false) : convert dst src m x = toIntTy dst m.rnd (decodeTy src x) := by
  obtain ⟨hf, hg⟩ := fmtOf_of_int hd
  simp only [convert, hf, hg, hs, if_false, Bool.false_eq_true]

/-- A finite value rounds to an integer, which is clamped into the type. -/
theorem toIntTy_of_value (t : Ty) (m : Rnd) {v : FVal} (hv : DenPos v) {q : ℚ} (hq : signedValue v = some q) :
    ∃ r, RoundsToInt m q r ∧ toIntTy t m v = wrapped t (max (least t) (min (largest t) r)) := by
  cases v with
  | nan => cases hq
  | inf a => cases hq
  | fin neg n d =>
    obtain rfl := Option.some.inj ((signedValue_fin neg n d).symm.trans hq)
    exact ⟨_, roundInt_spec neg (hv _ _ _ rfl) m, rfl⟩

end

/-- R13, R14, R17, R19, R128: what a conversion of one element gives. -/
theorem elementsConvert : Claims.ElementsConvert := by
  intro dst src m x hx v
  refine ⟨fun h => decodeTy_of_int h hx, fun f h => decodeTy_of_fmt h hx, fun h => by subst h; rfl, fun hd hs => convert_int_int hd hs hx,
    fun f h => ⟨convert_of_fmt h, fun hv => ?_⟩, fun b hd hv => ?_, fun hd hs => ⟨fun hv => ?_, fun hv => ?_, fun hv => ?_, fun q hq => ?_⟩, fun hd => ?_⟩
  · rw [convert_of_fmt h, show decodeTy src x = .nan from hv, encodeFmt]
  · rw [convert_of_fmt (hd ▸ rfl : fmtOf dst = some fmtE4m3), show decodeTy src x = .inf b from hv]
    cases b <;> cases hs : m.sat <;> rfl
  · rw [convert_float_int hd hs, show decodeTy src x = .nan from hv, toIntTy]
  · rw [convert_float_int hd hs, show decodeTy src x = .inf false from hv]
    rfl
  · rw [convert_float_int hd hs, show decodeTy src x = .inf true from hv]
    rfl
  · rw [convert_float_int hd hs]
    exact toIntTy_of_value dst m.rnd (decodeTy_denPos src x) hq
  · subst hd
    have hconv : convert .gd8 src m x = encodeGd8 v := rfl
    simp only [hconv]
    refine ⟨fun hv => by rw [hv, encodeGd8], fun hv => by rw [hv]; rfl, fun hv => by rw [hv]; rfl, fun neg n d hv => ?_⟩
    have hd : 0 < d := decodeTy_denPos src x neg n d hv
    rw [hv]
    refine ⟨encodeGd8_of_large hd, encodeGd8_of_small hd, fun h h' => ?_⟩
    obtain ⟨c, h1, h2, hc, hbest⟩ := encodeGd8_of_between (neg := neg) hd h h'
    exact ⟨c, h1, h2, hc, fun e he1 he2 => nearest_of_not_nearer (hbest e he1 he2)⟩

/-- Settles O25: each lane's conversion, compare, select or move gives the element its rule names. -/
theorem conversionsAndPredicates : Obligations.ConversionsAndPredicates :=
  ⟨lanesConvertAndMove, elementsConvert, gd8Codes, laneRelations⟩

end Sys2Proof.Proofs
end

section
/-!
PROOFS. Engine operations running and ending (R146 to R151, R362): the frame of an NVMe completion fails where two operations stand under one key.
-/

namespace Sys2Proof.Proofs
open Sys2Proof.Machine Sys2Proof.Claims

/-! ### Entries of a window's queues (R362) -/

/-- Writes past a byte leave it. -/
theorem freeEntry_tail (l : List Nat) (s : State) {pa : Nat} (hl : ∀ i ∈ l, 0 < i) :
    memRead (l.foldl (fun s i => girthWrite s none (pa + 8 * i) 8 (Config.freeWord s.tick (pa + 8 * i)).toNat) s).mem pa = memRead s.mem pa := by
  induction l generalizing s with
  | nil => rfl
  | cons i l ih =>
    have hi := hl i List.mem_cons_self
    rw [List.foldl_cons, ih _ fun j hj => hl j (List.mem_cons_of_mem i hj), girthWrite, State.write_mem,
      memRead_writeLE_outside _ _ _ _ _ (Or.inl (by omega)), (girthReaches_coh s _).mem]

/-- The first byte of an entry is that of a free word, whatever stood there. -/
theorem freeEntry_first (s : State) (pa : Nat) :
    memRead (freeEntry s pa 64).mem pa = BitVec.ofNat 8 (Config.freeWord s.tick pa).toNat := by
  rw [freeEntry, show List.range (64 / 8) = 0 :: [1, 2, 3, 4, 5, 6, 7] from rfl, List.foldl_cons, freeEntry_tail _ _ (by decide), girthWrite,
    State.write_mem, writeLE, memRead_writeLE_outside _ _ _ _ _ (Or.inl (by omega)), Nat.mul_zero, Nat.add_zero, memRead_memWrite, if_pos rfl]

/-! ### A state with two operations under one key -/

/-- A storage window whose queues stand in the memory of a peer, out of the reach of the package's caches. -/
def peerWindow (sq cq : Nat) : Window := { sq := sq, cq := cq, doorbell := 0, nsid := 1, qdepth := 4, valid := true, lbas := 100 }

/-- A `cpyst` of one block through window `w`, of which `sent` commands are sent. -/
def oneBlock (w sent : Nat) : Op :=
  { grp := none, str := .scalar, run := none, core := 0, ctx := 0, launch := none, blk := none, deps := []
    body := .copy { kind := .storage, chan := 0, dst := 0, dstScr := false, src := 0, srcScr := false, len := 4096, window := w, sent := sent } }

/-- Window 0 has one command in flight, of operation 0; under key 1 stand an operation of window 1, which the key finds, and one of window 0. -/
def twoUnderOneKey (m : List Host.Cell) : State :=
  { State.reset with
    mem := m
    ops := [(0, oneBlock 0 1), (1, oneBlock 1 0), (1, oneBlock 0 0)]
    ctxs := [(0, { st := .active, root := 0, savebase := 0, savesize := 0, flags := 0, faultring := 0, faultents := 16, seq := 0, recs := [], ranges := []
                   dieRanges := [], windows := [(0, peerWindow (2 ^ 51) (2 ^ 51 + 4096)), (1, peerWindow (2 ^ 51 + 8192) (2 ^ 51 + 12288))]
                   cause := none, debug := false, dbgOut := none })] }

/-- The state as the completion of operation 0's command is entered, before commands that waited are sent. -/
def afterCompletion (m : List Host.Cell) : State :=
  (freeEntry (setCopy (twoUnderOneKey m) 0
      { kind := .storage, chan := 0, dst := 0, dstScr := false, src := 0, srcScr := false, len := 4096, window := 0, sent := 1, cmds := 1, fail := some 3 })
    (2 ^ 51 + 4096) 16).modCtx 0 fun x => { x with windows := mupd x.windows 0 fun W => { W with head := (W.head + 1) % W.qdepth } }

theorem exec_completion (m : List Host.Cell) :
    exec (.nvmeCompletion 0 false) (twoUnderOneKey m) = .next (sendWaiting (afterCompletion m) 0 0) := by
  change execNvmeCompletion 0 false (twoUnderOneKey m) = _
  rfl

/-- The completion sends a command of window 1: an entry of that window's submission queue is written. -/
theorem completion_writes_other_window (m : List Host.Cell) :
    memRead (sendWaiting (afterCompletion m) 0 0).mem (2 ^ 51 + 8192) = BitVec.ofNat 8 (Config.freeWord 0 (2 ^ 51 + 8192)).toNat := by
  have hmem : (sendWaiting (afterCompletion m) 0 0).mem = (freeEntry (afterCompletion m) (2 ^ 51 + 8192) 64).mem := rfl
  rw [hmem, freeEntry_first]
  rfl

/-- The obligation would keep the first byte of that entry, whatever it is. -/
theorem entry_kept_of_engineOperationsRun (h : Obligations.EngineOperationsRun) (m : List Host.Cell) :
    BitVec.ofNat 8 (Config.freeWord 0 (2 ^ 51 + 8192)).toNat = memRead m (2 ^ 51 + 8192) := by
  obtain ⟨-, -, -, -, hnvme⟩ := h (twoUnderOneKey m) 0 (oneBlock 0 1) _ rfl rfl rfl rfl rfl
  obtain ⟨hends, -⟩ := hnvme rfl (by decide)
  obtain ⟨t, o', c', ht, -, -, -, hframe, -⟩ := hends false _ (peerWindow (2 ^ 51) (2 ^ 51 + 4096)) (.inl rfl) (by decide) rfl rfl rfl
  rw [exec_completion] at ht
  obtain rfl := Host.Outcome.next.inj ht
  rw [← completion_writes_other_window m]
  exact hframe _ (.inr (by decide)) (.inr (by decide))

/-- Refutes O19: nothing keeps two operations from standing under one key. Where they do, commands that waited for room in one window are sent for the
operation that the key finds, and that one's command goes to the queue of another window, so a completion writes outside the queues of its own. -/
theorem not_engineOperationsRun : ¬ Obligations.EngineOperationsRun := by
  intro h
  have h0 := entry_kept_of_engineOperationsRun h []
  have h1 := entry_kept_of_engineOperationsRun h [(2 ^ 51 + 8192, 1)]
  exact absurd (h0.symm.trans h1) (by decide)

end Sys2Proof.Proofs
end

section
/-!
PROOFS. The shared operations on the state that keep the canonical forms of memory, groups and packets, after those of `Laws/Keeps` and `Laws/Quiet`:
operations, overlays, copies, launches, activities and packets.
-/

namespace Sys2Proof.Proofs
open Sys2Proof Sys2Proof.Machine Sys2Proof.Claims

/-! ### Named updates and folds -/

theorem grp_keeps (s : State) (g : Nat) (G : Group) : Keeps s (s.grp g G) := Keeps.quiet (grp_quiet s g G)

theorem modGrp_keeps (s : State) (g : Nat) (f : Group → Group) : Keeps s (s.modGrp g f) := Keeps.quiet (modGrp_quiet s g f)

theorem modBlk_keeps (s : State) (b : Nat) (f : Block → Block) : Keeps s (s.modBlk b f) := Keeps.same rfl rfl rfl

theorem modLaunch_keeps (s : State) (l : Nat) (f : Launch → Launch) : Keeps s (s.modLaunch l f) := Keeps.same rfl rfl rfl

theorem modDie_keeps (s : State) (d : Nat) (f : Die → Die) : Keeps s (s.modDie d f) := Keeps.same rfl rfl rfl

theorem modCopy_keeps (s : State) (k : Nat) (f : OvCopy → OvCopy) : Keeps s (s.modCopy k f) := Keeps.same rfl rfl rfl

/-- Groups that leave leave the others in order. -/
theorem Keeps.groupsFiltered {s t : State} (hm : t.mem = s.mem) (p : Nat × Group → Bool) (hg : t.groups = s.groups.filter p) (hp : t.pkts = s.pkts) : Keeps s t :=
  ⟨by rw [hm]; exact id, by rw [hg]; exact rising_filter p, by rw [hp]; exact id⟩

/-- A new group, or a new state of one, takes its place. -/
theorem Keeps.groupPut {s t : State} (hm : t.mem = s.mem) {g : Nat} {G : Group} (hg : t.groups = mput s.groups g G) (hp : t.pkts = s.pkts) : Keeps s t :=
  ⟨by rw [hm]; exact id, by rw [hg]; exact rising_mput g G, by rw [hp]; exact id⟩

/-- A new packet, or a new state of one, takes its place. -/
theorem Keeps.pktPut {s t : State} (hm : t.mem = s.mem) (hg : t.groups = s.groups) {k : Nat} {p : Pkt} (hp : t.pkts = mput s.pkts k p) : Keeps s t :=
  ⟨by rw [hm]; exact id, by rw [hg]; exact id, by rw [hp]; exact rising_mput k p⟩

theorem pktPut_keeps (s : State) (k : Nat) (p : Pkt) : Keeps s { s with pkts := mput s.pkts k p } := Keeps.pktPut rfl rfl rfl

/-- A fold of steps that may wait. -/
theorem Keeps.foldl_bind {α : Type} {f : State → α → Option State} (h : ∀ s x t, f s x = some t → Keeps s t) (l : List α)
    {s t : State}
    (ht : l.foldl (fun o x => o.bind fun s => f s x) (some s) = some t) : Keeps s t := by
  induction l generalizing s with
  | nil => exact Option.some.inj ht ▸ Keeps.refl s
  | cons x l ih =>
    rw [List.foldl_cons, Option.bind_some] at ht
    cases hx : f s x with
    | none =>
      have hnone (l : List α) : l.foldl (fun o x => o.bind fun s => f s x) none = none := by induction l with
        | nil => rfl
        | cons _ _ ih => exact ih
      rw [hx, hnone] at ht
      contradiction
    | some u => rw [hx] at ht; exact (h s x u hx).trans (ih ht)

theorem forget_keeps (s : State) (lo n : Nat) : Keeps s (s.forget lo n) := Keeps.same rfl rfl rfl


/-! ### Groups that end or move -/

theorem fatalKill_quiet (s : State) (cause g : Nat) : Quiet s (fatalKill s cause g) := by
  unfold fatalKill
  split
  · exact Quiet.refl s
  · split
    · split
      · exact killGroup_quiet _ _ _
      · exact (compFail_quiet _ _ _ _ _ _).trans (killGroup_quiet _ _ _)
    · exact killGroup_quiet _ _ _

theorem exitGroup_quiet (s : State) (g : Nat) (G : Group) : Quiet s (exitGroup s g G) := (grp_quiet _ _ _).trans (settleRuns_quiet _)

theorem advanceLane_quiet (s : State) (g n : Nat) : Quiet s (advanceLane s g n) := by
  unfold advanceLane
  split
  · exact afterLane_quiet _ _ _ _
  · exact Quiet.refl s

theorem divertNow_quiet (s : State) (g : Nat) : Quiet s (divertNow s g) := by
  unfold divertNow
  split
  · exact Quiet.refl s
  · split
    · exact (grp_quiet _ _ _).trans (divert_quiet _ _)
    · exact (grp_quiet _ _ _).trans (divert_quiet _ _)
    · exact divert_quiet _ _

theorem wrapGroup_quiet (s : State) (g : Nat) : Quiet s (wrapGroup s g) := by
  unfold wrapGroup
  split
  · exact Quiet.refl s
  · rename_i G _
    extract_lets later
    have hl : Quiet s later := grp_quiet _ _ _
    split
    · exact Quiet.refl s
    · split
      case h_1 =>
        split
        · exact hl
        · exact divertNow_quiet _ _
      case h_5 => exact Quiet.refl s
      all_goals exact hl

theorem answerDisp_quiet (s : State) (g : Nat) (x : Word) : Quiet s (answerDisp s g x) := modGrp_quiet _ _ _

theorem overrunNow_quiet (s : State) (g : Nat) : Quiet s (overrunNow s g) := by
  unfold overrunNow
  split
  · split
    · exact (grp_quiet _ _ _).trans (divertNow_quiet _ _)
    · exact (grp_quiet _ _ _).trans (trapBoundary_quiet _ _ _ _)
  · exact Quiet.refl s

theorem resumeSaved_quiet (s : State) (g : Nat) : Quiet s (resumeSaved s g) := by
  unfold resumeSaved
  split
  · split
    · exact divertNow_quiet _ _
    · exact Quiet.refl s
  · exact Quiet.refl s

theorem compUp_quiet (s : State) (g : Nat) : Quiet s (compUp s g) := by
  unfold compUp
  split
  · exact Quiet.refl s
  · split
    · extract_lets o
      split
      · exact (compFail_quiet _ _ _ _ _ _).trans (killGroup_quiet _ _ _)
      · exact Quiet.refl s
    · exact Quiet.refl s

theorem unitHome_quiet (s : State) (b : Nat) (u : Option (Nat × BitVec 32)) (e : Earlier) : Quiet s (unitHome s b u e) := by
  unfold unitHome
  split
  · exact rootAdd_quiet _ _ _ _ _ _
  · exact Quiet.refl s

theorem joinUnit_quiet (s : State) (g : Nat) (G : Group) (u : Option (Nat × BitVec 32)) (e : Earlier) : Quiet s (joinUnit s g G u e) := by
  unfold joinUnit
  split
  · split
    · exact modGrp_quiet _ _ _
    · exact unitHome_quiet _ _ _ _
  · exact unitHome_quiet _ _ _ _
  · exact Quiet.refl s

theorem barAudit_quiet (s : State) (G : Group) : Quiet s (barAudit s G) := by
  unfold barAudit
  split
  · exact ⟨rfl, id⟩
  · exact Quiet.refl s

/-! ### Operations that issue -/

theorem addOp_keeps (s : State) (g : Nat) (o : Op) : Keeps s (addOp s g o).2 := by
  refine Keeps.trans ?_ (modGrp_keeps _ g _)
  exact Keeps.same rfl rfl rfl

theorem issueScalar_keeps (s : State) (g : Nat) (G : Group) (words : Nat) (m : MemOp) (ld st : Bool) (deps : List Nat) (c : Carries) (page : Nat) :
    Keeps s (issueScalar s g G words m ld st deps c page) :=
  ((fillTlb_keeps _ _ _ _ _).trans (addOp_keeps _ _ _)).trans (modGrp_keeps _ _ _)

theorem issueLane_keeps (s : State) (g n : Nat) (G : Group) (S : Split) (m : MemOp) (ld st : Bool) (deps : List Nat) (c : Carries) (pages : List Nat) :
    Keeps s (issueLane s g n G S m ld st deps c pages).2 :=
  ((fillTlb_keeps _ _ _ _ _).trans (addOp_keeps _ _ _)).trans (modGrp_keeps _ _ _)

theorem issueTile_keeps (s : State) (g n : Nat) (G : Group) (S : Split) (tile : Option Nat) (m : Mask) (what : TileDo) (pages : List Nat) :
    Keeps s (issueTile s g n G S tile m what pages) := by
  unfold issueTile
  extract_lets key t before o
  refine Keeps.trans (Keeps.trans (Keeps.trans ?_ (fillTlb_keeps _ _ _ _ _)) (modGrp_keeps _ _ _)) (Keeps.quiet (advanceLane_quiet _ _ _))
  exact Keeps.same rfl rfl rfl

theorem freeEntry_keeps (s : State) (pa n : Nat) : Keeps s (freeEntry s pa n) := Keeps.foldl (fun _ _ => girthWrite_keeps _ _ _ _ _) _ _

theorem sendSome_keeps (n : Nat) (s : State) (k : Nat) : Keeps s (sendSome n s k) := by
  induction n generalizing s with
  | zero => exact Keeps.refl s
  | succ n ih =>
    unfold sendSome
    split
    · exact Keeps.refl s
    · split
      · split
        · exact Keeps.refl s
        · split
          · exact setCopy_keeps _ _ _
          · split
            · exact Keeps.refl s
            · exact (((freeEntry_keeps _ _ _).trans (modCtx_keeps _ _ _)).trans (setCopy_keeps _ _ _)).trans (ih _)
      · exact Keeps.refl s

theorem sendCmds_keeps (s : State) (k : Nat) : Keeps s (sendCmds s k) := sendSome_keeps _ _ _

theorem sendWaiting_keeps (s : State) (ctx w : Nat) : Keeps s (sendWaiting s ctx w) := by
  refine Keeps.foldl (fun s p => ?_) _ _
  dsimp only
  split
  · split
    · exact sendCmds_keeps _ _
    · exact Keeps.refl s
  · exact Keeps.refl s

theorem noteConsumed_keeps (s : State) (o : Op) (addr : Nat) : Keeps s (noteConsumed s o addr) := coreErr_keeps _ _ _ _ _ _ _

theorem consumeAt_keeps (s : State) (o : Op) (l : List LaneAcc) : Keeps s (consumeAt s o l) := by
  unfold consumeAt
  split
  · exact Keeps.refl s
  · split
    · exact (noteConsumed_keeps _ _ _).trans (Keeps.quiet (groupError_quiet _ _ _ _))
    · exact Keeps.refl s

theorem performOp_keeps (s : State) (op : Nat) (o : Op) (m : MemOp) (lanes : Mask) : Keeps s (performOp s op o m lanes) := by
  unfold performOp
  extract_lets bad good
  have h := performLanes_keeps s op o m good
  split
  rename_i t got saw ht
  rw [ht] at h
  exact (((h.trans (Keeps.quiet (modOp_quiet _ _ _))).trans (unpoison_keeps _ _)).trans (Keeps.quiet (settleMem_quiet _ _))).trans (consumeAt_keeps _ _ _)

theorem noteInv_keeps {s t : State} (u : State) (h : Keeps s t) : Keeps s (noteInv u t) := h.trans (Keeps.same rfl rfl rfl)

theorem storePerform_keeps (s : State) (op : Nat) (part : Mask) : Keeps s (storePerform s op part) := by
  unfold storePerform
  split
  · rename_i o m _ _
    split
    · exact Keeps.refl s
    · extract_lets held
      split
      rename_i t lanes ht
      have h : Keeps s t := by
        refine Eq.subst (motive := Keeps s) (congrArg Prod.fst ht) (Keeps.foldl_fst (fun x a => ?_) _ (s, 0))
        dsimp only
        split
        case h_1 u hu => exact Keeps.coh (reachDie_coh hu)
        case h_2 => exact Keeps.refl _
      split
      · exact Keeps.refl s
      · exact noteInv_keeps _ (h.trans (performOp_keeps _ _ _ _ _))
  · exact Keeps.refl s

/-! ### Tile operations -/

theorem distWrite_quiet (s : State) (key : Nat) (o : Op) (m : Mask) (ty : Ty) (l2 : Bool) (d q dim stride c : Nat) :
    Quiet s (distWrite s key o m ty l2 d q dim stride c) := modGrp?_quiet _ _ _

theorem tileError_keeps (s : State) (k : Nat) (o : Op) (t : TileOp) : Keeps s (tileError s k o t) := by
  unfold tileError
  extract_lets u x v
  have hu : Keeps s u := by
    unfold u; split
    · exact Keeps.same rfl rfl rfl
    · exact Keeps.refl s
  have hv : Keeps u v := (Keeps.quiet ((modGrp?_quiet _ _ _).trans (dropOp_quiet _ _))).trans (coreErr_keeps _ _ _ _ _ _ _)
  split
  · exact (hu.trans hv).trans (Keeps.quiet (groupError_quiet _ _ _ _))
  · exact hu.trans hv

theorem tileReach_keeps {s u : State} {o : Op} {t : TileOp} (h : tileReach s o t = some u) : Keeps s u := by
  unfold tileReach at h
  split at h
  · exact Keeps.foldl_bind (fun _ _ _ h => Keeps.coh (reachBytes_coh h)) _ h
  · cases h; exact Keeps.refl s

theorem tileLanes_keeps (s : State) (op : Nat) (lanes : Mask) : Keeps s (tileLanes s op lanes) := by
  unfold tileLanes
  split
  · split
    · split
      · split
        · exact Keeps.refl s
        · exact Keeps.quiet ((distWrite_quiet _ _ _ _ _ _ _ _ _ _ _).trans (modOp_quiet _ _ _))
      · exact Keeps.refl s
    · exact Keeps.refl s
  · exact Keeps.refl s

/-! ### Blocks and launches -/

theorem startBlock_keeps (s : State) (b : Nat) (B : Block) (L : Launch) (core off compOv : Nat) (mk : State → Nat → Nat → Group) :
    Keeps s (startBlock s b B L core off compOv mk) := by
  unfold startBlock
  extract_lets cores mine tiles s1 s2 s3 loads s4 s5
  have h1 : Keeps s s1 := Keeps.foldl (fun s c => forget_keeps s (scrLoc c off) L.desc.scratch) cores s
  have h2 : Keeps s s2 := ⟨memWf_filter _, h1.groups, h1.pkts⟩
  have h3 : Keeps s2 s3 := modBlk_keeps _ _ _
  have h4 : Keeps s3 loads.1 := Keeps.foldl_fst (fun x c => Keeps.foldl_fst (fun x ov => by
    dsimp only
    split
    · exact loadFixed_keeps _ _ _ _ _
    · exact Keeps.refl _) _ x) cores (s3, [])
  have h5 : Keeps loads.1 s4 := modBlk_keeps _ _ _
  have h6 : Keeps s4 s5 := by
    refine Keeps.foldl (fun s i => ?_) _ _
    exact Keeps.groupPut rfl rfl rfl
  refine ((((h2.trans h3).trans h4).trans h5).trans h6).trans ?_
  exact Keeps.same rfl rfl rfl

theorem cancelStart_keeps (s : State) (b : Nat) : Keeps s (cancelStart s b) := by
  unfold cancelStart
  split
  · split
    · exact Keeps.refl s
    · exact Keeps.groupsFiltered rfl _ rfl rfl
  · exact Keeps.refl s

theorem cancelStarts_keeps (s : State) (l : Nat) : Keeps s (cancelStarts s l) := Keeps.foldl (fun _ _ => cancelStart_keeps _ _) _ _

theorem wrapNow_keeps (s : State) (l : Nat) : Keeps s (wrapNow s l) := by
  unfold wrapNow
  split
  · exact Keeps.refl s
  · split
    · exact Keeps.refl s
    · extract_lets o s1 s2 hand s3
      have h1 : Keeps s s1 := modLaunch_keeps _ _ _
      have h2 : Keeps s1 s2 := cancelStarts_keeps _ _
      have h3 : Keeps s2 s3 := Keeps.same rfl rfl rfl
      exact ((h1.trans h2).trans h3).trans (Keeps.quiet (Quiet.foldl wrapGroup_quiet _ _))

theorem deadlineNow_keeps (s : State) (l : Nat) : Keeps s (deadlineNow s l) := by
  unfold deadlineNow
  split
  · exact Keeps.refl s
  · extract_lets t
    have h : Keeps s t := (wrapNow_keeps _ _).trans (Keeps.foldl (fun _ _ => Keeps.quiet (killGroup_quiet _ _ _)) _ _)
    split
    · exact h.trans (Keeps.quiet (abandon_quiet _ _))
    · exact h

theorem launchesUp_keeps (s : State) : Keeps s (launchesUp s) := by
  unfold launchesUp
  extract_lets t
  have h : Keeps s t := by
    refine Keeps.foldl (fun s p => ?_) _ _
    dsimp only
    split
    · exact Keeps.quiet (overrunNow_quiet _ _)
    · exact Keeps.refl _
  refine h.trans (Keeps.foldl (fun s p => ?_) _ _)
  dsimp only
  split
  · exact Keeps.refl _
  · split
    · exact deadlineNow_keeps _ _
    · split
      · exact wrapNow_keeps _ _
      · exact Keeps.refl _

theorem handTile_keeps (s : State) (g : Nat) (G : Group) (l : Nat) (L : Launch) (t next : Nat) (returns : List Nat) :
    Keeps s (handTile s g G l L t next returns) := by
  unfold handTile
  extract_lets s1 s2
  have h : Keeps s s2 := (Keeps.quiet (tileDone_quiet _ _ _)).trans (modLaunch_keeps _ _ _)
  refine h.trans (Keeps.trans ?_ (modGrp_keeps _ _ _))
  split <;> exact Keeps.same rfl rfl rfl

theorem admitLaunch_keeps (s : State) (L : Launch) (wide : Bool) (cores : List Nat) : Keeps s (admitLaunch s L wide cores).2 := by
  refine Keeps.trans (t := { s with nextId := s.nextId + 1, launches := mput s.launches s.nextId L }) (Keeps.same rfl rfl rfl) ?_
  refine Keeps.foldl (fun s p => ?_) _ _
  exact Keeps.same rfl rfl rfl

/-! ### Activities -/

theorem spill_keeps (s : State) (d : Nat) : Keeps s (spill s d) := by
  unfold spill
  extract_lets l
  split
  · exact Keeps.refl s
  · split
    · exact Keeps.same rfl rfl rfl
    · exact Keeps.refl s

theorem moveActs_keeps (s : State) : Keeps s (moveActs s) := by
  unfold moveActs
  extract_lets t
  have h : Keeps s t := by
    refine Keeps.foldl (fun s p => ?_) _ _
    dsimp only
    split
    · split
      · exact Keeps.quiet (abandon_quiet _ _)
      · exact Keeps.refl _
    · exact Keeps.refl _
  exact h.trans (Keeps.same rfl rfl rfl)

theorem answerAct_keeps (s : State) (k : Nat) : Keeps s (answerAct s k) := by
  unfold answerAct
  split
  · exact Keeps.refl s
  · split
    · exact Keeps.refl s
    · split
      · exact Keeps.refl s
      · extract_lets named addr s1 s2 s3
        have h1 : Keeps s s1 := writeReport_keeps _ _ _
        have h2 : Keeps s1 s2 := Keeps.same rfl rfl rfl
        have h3 : Keeps s2 s3 := by
          unfold s3; split
          · exact finishPkt_keeps _ _ _ _ _ _
          · exact Keeps.refl _
        have h := (h1.trans h2).trans h3
        split
        · exact h.trans (Keeps.same rfl rfl rfl)
        · exact h

theorem settleActs_keeps (s : State) : Keeps s (settleActs s) := by
  unfold settleActs
  split
  · exact Keeps.refl s
  · exact (moveActs_keeps _).trans (Keeps.foldl answerAct_keeps _ _)

/-! ### Packets -/

theorem takePacket_keeps (s : State) (q : Nat) : Keeps s (takePacket s q) := by
  unfold takePacket
  split
  · exact Keeps.refl s
  · rename_i Q _
    split
    · exact Keeps.refl s
    · extract_lets s1 a w
      have h1 : Keeps s s1 := logBlocked_keeps _ _
      split
      · exact h1
      · split
        rename_i look fatal kept _
        extract_lets s2 s3 s4
        have h2 : Keeps s1 s2 := logBlocked_keeps _ _
        have h3 : Keeps s2 s3 := Keeps.same rfl rfl rfl
        have h4 : Keeps s3 s4 := ostlerWrite_keeps _ _ _ _
        have h := ((h1.trans h2).trans h3).trans h4
        split
        · exact h.trans (fatalFault_keeps _ _)
        · exact h

theorem formBatch_keeps (s : State) : Keeps s (formBatch s) :=
  (Keeps.foldl takePacket_keeps _ s).trans (Keeps.same rfl rfl rfl)

theorem popPacket_keeps (s : State) (q : Nat) (Q : Queue) : Keeps s (popPacket s q Q) := Keeps.same rfl rfl rfl

theorem refuseHead_keeps (s : State) : Keeps s (refuseHead s) := by
  unfold refuseHead
  split
  · exact Keeps.same rfl rfl rfl
  · exact ((popPacket_keeps _ _ _).trans (putRecord_keeps _ _ _)).trans (settleBarriers_keeps _ _)

theorem donePkt_keeps (s : State) (k : Nat) (p : Pkt) (outcome : Nat) (now : Bool) : Keeps s (donePkt s k p outcome now) :=
  (pktPut_keeps _ _ _).trans (finishPkt_keeps _ _ _ _ _ _)

theorem openPkt_keeps (s : State) (k : Nat) (p : Pkt) (body : PBody) : Keeps s (openPkt s k p body) := pktPut_keeps _ _ _

theorem retrySignals_keeps (s : State) : Keeps s (retrySignals s) := by
  refine Keeps.foldl (fun s k => ?_) _ _
  split
  · exact tryPkt_keeps _ _
  · exact Keeps.refl s

theorem dropTlb_keeps (s : State) (out : Nat → Nat → Bool) : Keeps s (dropTlb s out) := Keeps.same rfl rfl rfl

theorem rangeSwitch_keeps (s : State) (die ctx : Nat) : Keeps s (rangeSwitch s die ctx) := by
  unfold rangeSwitch
  extract_lets mine
  split
  · extract_lets ops s1 s2
    have h : Keeps s s2 := (pktPut_keeps _ _ _).trans (modCtx_keeps _ _ _)
    split
    · exact h.trans (dropTlb_keeps _ _)
    · exact h
  · exact Keeps.refl s

theorem preloadOn_keeps (s : State) (ctx : Nat) (e : OvEntry) (core : Nat) : Keeps s (preloadOn s ctx e core) := by
  unfold preloadOn
  extract_lets vif fits
  split
  · exact Keeps.refl s
  · split
    · split
      · exact startLoad_keeps _ _ _ _ _
      · exact Keeps.refl s
    · split
      · exact startLoad_keeps _ _ _ _ _
      · exact Keeps.refl s

end Sys2Proof.Proofs
end

section
/-!
PROOFS. The rest of the operations that keep the canonical forms: answers to faults, loads of overlays, pre-emption and restore, dies, caches, and what follows
of itself after a step.
-/

namespace Sys2Proof.Proofs
open Sys2Proof Sys2Proof.Machine Sys2Proof.Claims

/-! ### Loads of overlays -/

theorem failWaiter_keeps (r copy : Nat) (s : State) (w : Waiter) : Keeps s (failWaiter r copy s w) := by
  unfold failWaiter
  split
  · exact modGrp_keeps _ _ _
  · exact modGrp_keeps _ _ _
  · split
    · exact Keeps.refl s
    · split
      · extract_lets t
        have h : Keeps s t := by
          unfold t; split
          · exact Keeps.quiet (compFail_quiet _ _ _ _ _ _)
          · exact Keeps.refl s
        exact h.trans (Keeps.foldl (fun _ (p : Nat × Group) => Keeps.quiet (killGroup_quiet _ _ p.1)) _ _)
      · split
        · exact (Keeps.quiet (compFail_quiet _ _ _ _ _ _)).trans (Keeps.groupsFiltered rfl _ rfl rfl)
        · split
          · exact (cancelStart_keeps _ _).trans (Keeps.groupsFiltered rfl _ rfl rfl)
          · exact ((cancelStart_keeps _ _).trans (modLaunch_keeps _ _ _)).trans (cancelStarts_keeps _ _)
  · exact Keeps.refl s

theorem failLoad_keeps (s : State) (copy r : Nat) : Keeps s (failLoad s copy r) := by
  unfold failLoad
  split
  · exact Keeps.refl s
  · exact Keeps.trans (t := { s with copies := mdel s.copies copy }) (Keeps.same rfl rfl rfl) (Keeps.foldl (failWaiter_keeps r copy) _ _)

theorem loadFault_keeps (s : State) (k : Nat) (c : OvCopy) (va : Nat) (r : TrRes) : Keeps s (loadFault s k c va r) := by
  unfold loadFault
  split
  · exact fatalFault_keeps _ _
  · split
    · extract_lets h
      refine Keeps.trans ?_ (postFault_keeps _ _ _)
      exact Keeps.same rfl rfl rfl
    · exact failLoad_keeps _ _ _
  · exact failLoad_keeps _ _ _

theorem loadedWaiter_keeps (copy : Nat) (s : State) (w : Waiter) : Keeps s (loadedWaiter copy s w) := by
  unfold loadedWaiter
  split
  · exact modGrp_keeps _ _ _
  · exact Keeps.refl s

theorem joinCopy_keeps (s : State) (k dest : Nat) (c : OvCopy) : Keeps s (joinCopy s k dest c) := by
  unfold joinCopy
  extract_lets move t
  have h : Keeps s t := ⟨id, rising_map fun _ => rfl, id⟩
  split
  · split
    · exact h
    · extract_lets u
      have hu : Keeps t u := Keeps.foldl (loadedWaiter_keeps dest) _ _
      exact (h.trans hu).trans (Keeps.same rfl rfl rfl)
  · exact h

theorem readIdentity_keeps (s : State) (k : Nat) (c : OvCopy) : Keeps s (readIdentity s k c) := by
  unfold readIdentity
  split
  · split
    · split
      · exact joinCopy_keeps _ _ _ _
      · exact Keeps.same rfl rfl rfl
    · exact failLoad_keeps _ _ _
    · exact loadFault_keeps _ _ _ _ _
  · exact Keeps.refl s

theorem readOverlayWord_keeps (s : State) (k i : Nat) : Keeps s (readOverlayWord s k i) := by
  unfold readOverlayWord
  extract_lets s1 s2
  have h1 : Keeps s s1 := by
    unfold s1; split
    · split
      · exact readIdentity_keeps _ _ _
      · exact Keeps.refl s
    · exact Keeps.refl s
  have h2 : Keeps s s2 := h1.trans (takeSlots_keeps _ _ _)
  split
  · exact h2
  · extract_lets known
    split
    · exact h2
    · split
      · split
        · exact h2
        · rename_i t ht
          have h3 : Keeps s t := h2.trans (Keeps.foldl_bind (fun _ _ _ h => Keeps.coh (reachLine_coh h)) _ ht)
          split
          · exact h3.trans (failLoad_keeps _ _ _)
          · exact (h3.trans (fillTlb_keeps _ _ _ _ _)).trans (Keeps.same rfl rfl rfl)
      · exact h2.trans (loadFault_keeps _ _ _ _ _)

/-! ### Answers to faults (R279, R280) -/

theorem answerGroup_keeps (s : State) (a : Answer) (page g : Nat) : Keeps s (answerGroup s a page g) := by
  unfold answerGroup
  split
  · exact Keeps.refl s
  · extract_lets t
    have h : Keeps s t := grp_keeps _ _ _
    split
    · exact h.trans (Keeps.quiet (trapStr_quiet _ _ _ _ _ _))
    · exact h

theorem answerLoads_keeps (s : State) (a : Answer) (page ctx : Nat) : Keeps s (answerLoads s a page ctx) := by
  unfold answerLoads
  split
  · exact Keeps.same rfl rfl rfl
  · exact Keeps.foldl (fun _ _ => failLoad_keeps _ _ _) _ _

theorem answerPkts_keeps (s : State) (a : Answer) (page ctx : Nat) : Keeps s (answerPkts s a page ctx) := by
  refine Keeps.foldl (fun s p => ?_) _ _
  dsimp only
  split
  · exact (pktPut_keeps _ _ _).trans (tryPkt_keeps _ _)
  · exact finishPkt_keeps _ _ _ _ _ _

theorem postWaiting_keeps (s : State) (ctx : Nat) : Keeps s (postWaiting s ctx) := Keeps.foldl (fun _ _ => postFault_keeps _ _ _) _ _

theorem answerFault_keeps (s : State) (a : Answer) (ctx : Nat) (seq : BitVec 32) : Keeps s (answerFault s a ctx seq) := by
  unfold answerFault
  split
  · exact Keeps.refl s
  · extract_lets s1 s2 s3
    have h1 : Keeps s s1 := modCtx_keeps _ _ _
    have h2 : Keeps s1 s2 := Keeps.foldl (fun _ _ => answerGroup_keeps _ _ _ _) _ _
    have h3 : Keeps s2 s3 := Keeps.same rfl rfl rfl
    exact ((((h1.trans h2).trans h3).trans (answerLoads_keeps _ _ _ _)).trans (answerPkts_keeps _ _ _ _)).trans (postWaiting_keeps _ _)

theorem resetLane_keeps (s : State) (q : Nat) : Keeps s (resetLane s q) := by
  unfold resetLane
  split
  · exact Keeps.refl s
  · extract_lets s1 rd s2
    have h : Keeps s s2 := (logBlocked_keeps _ _).trans (Keeps.same rfl rfl rfl)
    split
    · exact h.trans (putRecord_keeps _ _ _)
    · exact h

theorem answerVif_keeps (s : State) (vif : Nat) (ok : Bool) : Keeps s (answerVif s vif ok) := vifs_keeps _ _

/-! ### Pre-emption and restore (R343 to R347) -/

theorem putBytesAt_keeps (s : State) (ctx die n a : Nat) (bs : List Byte) : Keeps s (putBytesAt s ctx die n a bs) := by
  induction n generalizing s a bs with
  | zero => exact Keeps.refl s
  | succ n ih =>
    unfold putBytesAt
    split
    · exact Keeps.refl s
    · exact ((Keeps.coh (homeReaches_coh _ _ _)).trans (write_keeps _ _ _ _ _ _)).trans (ih _ _ _)

theorem recBlock_keeps (s : State) (b : Nat) (B : Block) (L : Launch) : Keeps s (recBlock s b B L).1 := by
  unfold recBlock
  split
  · exact Keeps.refl s
  · extract_lets bs
    split
    · exact Keeps.refl s
    · exact Keeps.same rfl rfl rfl

theorem flushBlock_keeps (s : State) (b : Nat) : Keeps s (flushBlock s b) := by
  unfold flushBlock
  extract_lets gs s1 s2 s3 s4 s5
  have h1 : Keeps s s1 := Keeps.foldl (fun _ _ => Keeps.quiet ((interruptFe_quiet _ _).trans (unrequest_quiet _ _))) _ _
  have h2 : Keeps s1 s2 := by
    refine Keeps.foldl (fun s g => ?_) _ _
    split
    · rename_i G B _ _
      extract_lets packs u v held
      have hu : Keeps s u := by
        refine Keeps.foldl (fun s p => ?_) _ _
        dsimp only
        split
        · exact Keeps.quiet (rootAdd_quiet _ _ _ _ _ _)
        · exact Keeps.refl s
      have hv : Keeps u v := by
        unfold v; split
        · split
          · exact Keeps.same rfl rfl rfl
          · exact modLaunch_keeps _ _ _
        · exact Keeps.refl _
      exact (hu.trans hv).trans (modBlk_keeps _ _ _)
    · exact Keeps.refl s
  have h3 : Keeps s2 s3 := Keeps.groupsFiltered rfl _ rfl rfl
  have h4 : Keeps s3 s4 := Keeps.foldl (fun _ (p : Nat × Tag) => Keeps.quiet (dropTag_quiet _ p.1)) _ _
  have h5 : Keeps s4 s5 := Keeps.quiet (dropWaiters_quiet _ _)
  exact ((((h1.trans h2).trans h3).trans h4).trans h5).trans
    (Keeps.quiet (((modBlk_quiet _ _ _).trans (dropIdleLoads_quiet _)).trans (settleRuns_quiet _)))

theorem flushReplay_keeps (s : State) (b a : Nat) : Keeps s (flushReplay s b a) := by
  unfold flushReplay
  extract_lets t
  refine (flushBlock_keeps s b).trans ?_
  split <;> exact Keeps.same rfl rfl rfl

theorem startSave_keeps (s : State) (b : Nat) (who : Requester) : Keeps s (startSave s b who) :=
  (Keeps.foldl (fun _ (p : Nat × Group) => (Keeps.quiet (interruptFe_quiet _ p.1)).trans (modGrp_keeps _ _ _)) _ s).trans (modBlk_keeps _ _ _)

theorem preempt_keeps (s : State) (b : Nat) (B : Block) (L : Launch) (who : Requester) (drain : Bool) : Keeps s (preempt s b B L who drain) := by
  unfold preempt
  extract_lets wait
  have hw (t : Option Nat) : Keeps s (wait t) := modBlk_keeps _ _ _
  split
  · exact hw _
  · split
    · split
      · exact flushReplay_keeps _ _ _
      · exact flushBlock_keeps _ _
    · split
      · exact startSave_keeps _ _ _
      · split
        · exact Keeps.foldl (fun _ (p : Nat × Group) => Keeps.quiet (fatalKill_quiet _ _ p.1)) _ _
        · exact hw _

theorem unload_keeps (s : State) (b : Nat) (B : Block) : Keeps s (unload s b B) := by
  unfold unload
  extract_lets t
  have h : Keeps s t := cancelStart_keeps _ _
  split
  · exact h
  · exact h.trans (Keeps.same rfl rfl rfl)

theorem preemptBlock_keeps (s : State) (b : Nat) (who : Requester) : Keeps s (preemptBlock s b who) := by
  unfold preemptBlock
  split
  · exact Keeps.refl s
  · split
    · exact Keeps.refl s
    · split
      · exact unload_keeps _ _ _
      · split
        · exact Keeps.refl s
        · split
          · exact modBlk_keeps _ _ _
          · exact preempt_keeps _ _ _ _ _ _

theorem preemptCores_keeps (s : State) (cores : List Nat) (who : Requester) : Keeps s (preemptCores s cores who) :=
  Keeps.foldl (fun _ _ => preemptBlock_keeps _ _ _) _ _

theorem budgetUp_keeps (s : State) (b : Nat) : Keeps s (budgetUp s b) := by
  unfold budgetUp
  split
  · exact Keeps.refl s
  · split
    · split
      · exact Keeps.refl s
      · split
        · split
          · exact preempt_keeps _ _ _ _ _ _
          · exact modBlk_keeps _ _ _
        · split
          · exact preempt_keeps _ _ _ _ _ _
          · exact Keeps.refl s
    · exact Keeps.refl s

theorem repin_keeps (s : State) (b core : Nat) (tab : List OvEntry) (ctx ov : Nat) : Keeps s (repin s b core tab ctx ov).1 := by
  unfold repin
  split
  · exact loadFixed_keeps _ _ _ _ _
  · exact Keeps.refl s

theorem repinGroup_keeps (s : State) (b g : Nat) (L : Launch) : Keeps s (repinGroup s b g L) := by
  unfold repinGroup
  split
  · exact Keeps.refl s
  · rename_i G _
    extract_lets pin enter
    have hpin (t : State) (ov : Nat) : Keeps t (pin t ov).1 := repin_keeps _ _ _ _ _ _
    have henter (t : State) (w : SWait) : Keeps t (enter t w).1 := by
      unfold enter
      split
      · split
        · exact startLoad_keeps _ _ _ _ _
        · exact Keeps.refl t
      · exact Keeps.refl t
    clear_value pin enter
    have h1 := hpin s G.ov
    split
    rename_i s1 copy e1
    rw [e1] at h1
    split
    rename_i s2 runs e2
    have h2 : Keeps s1 s2 := Eq.subst (motive := Keeps s1) (congrArg Prod.fst e2)
      (Keeps.foldl_fst (β := List Run) (fun x r => hpin x.1 r.ov) _ (s1, []))
    split
    rename_i s3 hs e3
    have h3 : Keeps s2 s3 := by
      refine Eq.subst (motive := Keeps s2) (congrArg Prod.fst e3) (Keeps.foldl_fst (β := SMap Handle) (fun x p => ?_) _ (s2, []))
      dsimp only
      split
      · split
        · exact hpin _ _
        · exact Keeps.refl _
      · exact Keeps.refl _
    have h4 := henter s3 G.wait
    split
    rename_i s4 wait e4
    rw [e4] at h4
    split
    rename_i s5 mode e5
    have h5 : Keeps s4 s5 := by
      refine Eq.subst (motive := Keeps s4) (congrArg Prod.fst e5) ?_
      split
      · exact hpin _ _
      · exact Keeps.refl _
    exact ((((h1.trans h2).trans h3).trans h4).trans h5).trans (modGrp_keeps _ _ _)

theorem repinTag_keeps (s : State) (b core : Nat) (L : Launch) (t : Tag) : Keeps s (repinTag s b core L t).1 := by
  unfold repinTag
  split
  · split
    · exact repin_keeps _ _ _ _ _ _
    · exact Keeps.refl s
  · exact Keeps.refl s

theorem startRestore_keeps (s : State) (b : Nat) (B : Block) (L : Launch) (core : Nat) : Keeps s (startRestore s b B L core) := by
  unfold startRestore
  have h0 := recBlock_keeps s b B L
  split
  rename_i s0 B0 e0
  rw [e0] at h0
  extract_lets recs cores at_ mine s1 s2 s3 s4 loads s5 s6
  have h1 : Keeps s0 s1 := Keeps.foldl (fun _ _ => forget_keeps _ _ _) _ _
  have h2 : Keeps s1 s2 := ⟨fun h => memWf_foldl_memWrite B0.scr at_ (memWf_filter _ h), id, id⟩
  have h3 : Keeps s2 s3 := modBlk_keeps _ _ _
  have h4 : Keeps s3 s4 := Keeps.foldl (fun _ _ => modGrp_keeps _ _ _) _ _
  have h5 : Keeps s4 loads.1 := Keeps.foldl_fst (β := List (Nat × Nat × Nat))
    (fun x c => Keeps.foldl_fst (β := List (Nat × Nat × Nat)) (fun x ov => repin_keeps _ _ _ _ _ _) _ x) cores (s4, [])
  have h6 : Keeps loads.1 s5 := modBlk_keeps _ _ _
  have h7 : Keeps s5 s6 := Keeps.foldl (fun _ _ => repinGroup_keeps _ _ _ _) _ _
  refine (((((((h0.trans h1).trans h2).trans h3).trans h4).trans h5).trans h6).trans h7).trans (Keeps.foldl (fun s p => ?_) _ _)
  refine (repinTag_keeps s b (groupCore B0.wide core (p.1 * 4 / Config.scratchSpan)) L p.2).trans ?_
  exact Keeps.same rfl rfl rfl

/-! ### Caches and accesses from outside -/

theorem girthEvent_keeps (s : State) (ev : CohEv) (die line : Nat) : Keeps s (girthEvent s ev die line) := by
  unfold girthEvent
  split
  · exact Keeps.refl s
  · split
    · exact Keeps.refl s
    · rename_i t ht
      extract_lets u
      have h1 : CohOnly s t := by
        split at ht
        · exact dieRoom_coh ht
        · cases ht; exact CohOnly.refl _
      have h2 : CohOnly t u := by
        unfold u; split
        · exact fetchHost_coh _ _
        · exact CohOnly.refl _
      exact Keeps.coh (((h1.trans h2).trans (setGirth_coh _ _)).trans (syncDie_coh _ _ _))

theorem homeEvent_keeps (s : State) (d : Nat) (ev : CohEv) (c line : Nat) : Keeps s (homeEvent s d ev c line) := by
  unfold homeEvent
  split
  · exact Keeps.refl s
  · split
    · exact Keeps.refl s
    · rename_i t ht
      have h1 : CohOnly s t := by
        split at ht
        · exact sliceRoom_coh ht
        · cases ht; exact CohOnly.refl _
      exact Keeps.coh (((h1.trans (setHome_coh _ _ _)).trans (markUp_coh _ _ _)).trans (syncL1_coh _ _ _))

/-- A cache that may take a line. -/
theorem getD_keeps {s : State} {o : Option State} (h : ∀ t, o = some t → CohOnly s t) : Keeps s (o.getD s) := by
  cases o with
  | none => exact Keeps.refl s
  | some t => exact Keeps.coh (h t rfl)

theorem l1Event_keeps (s : State) (core line : Nat) (a : L1Act) : Keeps s (l1Event s core line a) := by
  unfold l1Event
  split
  · split
    · exact Keeps.refl s
    · exact Keeps.coh (setL1_coh _ _ _ _)
  · split
    · exact getD_keeps fun _ => coreReads_coh
    · exact Keeps.refl s
  · split
    · exact getD_keeps fun _ => coreTakes_coh
    · exact Keeps.refl s

theorem outsideRead_keeps (s : State) (k pa n : Nat) : Keeps s (outsideRead s k pa n) := Keeps.same rfl rfl rfl

theorem outsideDoes_keeps (s : State) (k : Nat) (a : ExtAccess) : Keeps s (outsideDoes s k a) := by
  unfold outsideDoes
  split
  · exact outsideRead_keeps _ _ _ _
  · exact outsideWrite_keeps _ _ _ _ _
  · exact (outsideRead_keeps _ _ _ _).trans (outsideWrite_keeps _ _ _ _ _)
  · extract_lets t
    have h : Keeps s t := outsideRead_keeps _ _ _ _
    split
    · exact h.trans (outsideWrite_keeps _ _ _ _ _)
    · exact h

theorem askHost_keeps (s : State) (line : Nat) : Keeps s (askHost s line) := Keeps.same rfl rfl rfl

theorem makeHoldsRoom_keeps (s : State) : Keeps s (makeHoldsRoom s) := by
  unfold makeHoldsRoom
  split
  · exact Keeps.refl s
  · exact askHost_keeps _ _

/-! ### Dies (R364 to R370) -/

theorem clearCaches_keeps (s : State) (d : Nat) : Keeps s (clearCaches s d) := Keeps.same rfl rfl rfl

theorem dropDie_keeps (s : State) (d : Nat) : Keeps s (dropDie s d) := Keeps.same rfl rfl rfl

theorem leaveHitched_keeps (s : State) (d : Nat) : Keeps s (leaveHitched s d) := by
  refine Keeps.foldl (fun t p => ?_) _ _
  dsimp only
  split
  · split
    · exact rangeSwitch_keeps _ _ _
    · exact Keeps.refl _
  · exact Keeps.refl _

theorem fenceDie_keeps (s : State) (d : Nat) : Keeps s (fenceDie s d) := by
  refine (((modDie_keeps s d fun D => { D with st := .fenced }).trans (leaveHitched_keeps _ d)).trans (dropDie_keeps _ d)).trans ?_
  exact Keeps.same rfl rfl rfl

theorem fenceCore_keeps (s : State) (core : Nat) : Keeps s (fenceCore s core) := by
  unfold fenceCore
  extract_lets t d
  have h : Keeps s t := Keeps.same rfl rfl rfl
  split
  · exact h.trans (fenceDie_keeps _ _)
  · exact h

theorem hitchUp_keeps (s : State) (d : Nat) (D : Die) : Keeps s (hitchUp s d D) := by
  unfold hitchUp
  split
  · exact Keeps.refl s
  · exact modDie_keeps _ _ _

theorem startDrain_keeps (s : State) (d : Nat) (reset : Bool) : Keeps s (startDrain s d reset) := (modDie_keeps _ _ _).trans (leaveHitched_keeps _ _)

/-! ### The package -/

theorem hbmTrained_keeps (s : State) : Keeps s (hbmTrained s) := by
  unfold hbmTrained
  split
  · exact Keeps.same rfl rfl rfl
  · exact Keeps.refl s

theorem hostTrained_keeps (s : State) (width speed : Nat) : Keeps s (hostTrained s width speed) := by
  unfold hostTrained
  split
  · exact Keeps.same rfl rfl rfl
  · exact Keeps.refl s

theorem setIde_keeps (s : State) (stream : Nat) (rx : Bool) (x : Ide) : Keeps s (s.setIde stream rx x) := Keeps.same rfl rfl rfl

theorem ideFree_keeps (s : State) (stream : Nat) (rx : Bool) : Keeps s (ideFree s stream rx) := by
  unfold ideFree
  extract_lets x
  split
  · exact Keeps.refl s
  · exact setIde_keeps _ _ _ _

theorem ideBad_keeps (s : State) (stream : Nat) : Keeps s (ideBad s stream) := by
  unfold ideBad
  extract_lets x
  split
  · exact Keeps.refl s
  · exact setIde_keeps _ _ _ _

theorem ideStop_keeps (s : State) (stream : Nat) : Keeps s (ideStop s stream) :=
  ((logErr_keeps _ _ _ _ _ _ _).trans (setIde_keeps _ _ _ _)).trans (setIde_keeps _ _ _ _)

theorem ppsEdge_keeps (s : State) : Keeps s (ppsEdge s) := by
  unfold ppsEdge
  split
  · exact Keeps.same rfl rfl rfl
  · exact Keeps.refl s

theorem holdoverUp_keeps (s : State) : Keeps s (holdoverUp s) := by
  unfold holdoverUp
  split
  · exact Keeps.same rfl rfl rfl
  · exact Keeps.refl s

theorem spdmAnswer_keeps (s : State) (which : Nat) : Keeps s (spdmAnswer s which) := Keeps.same rfl rfl rfl

theorem queueBlocks_keeps (s : State) (q down : QUnit) : Keeps s (queueBlocks s q down) := by
  unfold queueBlocks
  extract_lets j
  split
  · exact Keeps.refl s
  · exact Keeps.same rfl rfl rfl

theorem queueMoves_keeps (s : State) (q : QUnit) : Keeps s (queueMoves s q) := by
  unfold queueMoves
  split <;> exact Keeps.same rfl rfl rfl

/-! ### After a step -/

theorem settleCtxs_keeps (s : State) : Keeps s (settleCtxs s) := Keeps.same rfl rfl rfl

theorem settleDies_keeps (s : State) : Keeps s (settleDies s) := Keeps.same rfl rfl rfl

theorem settleCopies_keeps (s : State) : Keeps s (settleCopies s) := Keeps.same rfl rfl rfl

theorem settle_keeps (s : State) : Keeps s (settle s) :=
  (((((retrySignals_keeps s).trans (settleActs_keeps _)).trans (settleCtxs_keeps _)).trans (settleDies_keeps _)).trans (settleCopies_keeps _)).trans
    (settleJams_keeps _)

theorem advance_keeps (s : State) : Keeps s (advance s) := Keeps.same rfl rfl rfl

theorem timeUp_keeps (s : State) : Keeps s (timeUp s) := by
  unfold timeUp
  extract_lets s1 s2 s3
  have h1 : Keeps s s1 := launchesUp_keeps s
  have h2 : Keeps s1 s2 := by
    refine Keeps.foldl (fun s d => ?_) _ _
    cases s.dies[d]? with
    | none => exact Keeps.refl s
    | some D => exact hitchUp_keeps s d D
  have h3 : Keeps s2 s3 := Keeps.foldl budgetUp_keeps _ _
  exact (((h1.trans h2).trans h3).trans (Keeps.foldl (fun _ _ => Keeps.quiet (compUp_quiet _ _)) _ _)).trans (holdoverUp_keeps _)

end Sys2Proof.Proofs
end

section
/-!
PROOFS. What an instruction answers keeps the canonical forms: the issue helpers that the instructions share.
-/

namespace Sys2Proof.Proofs
open Sys2Proof Sys2Proof.Machine Sys2Proof.Claims

/-- An outcome whose next state, if it is one, keeps the canonical forms. -/
def OutKeeps (s : State) (o : Out) : Prop := ∀ t, o = .next t → Keeps s t

namespace OutKeeps

variable {s t : State} {o : Out}

theorem next (h : Keeps s t) : OutKeeps s (.next t) := fun _ e => Host.Outcome.next.inj e ▸ h

theorem fault (r : Fault) : OutKeeps s (.fault r) := fun _ e => nomatch e

theorem trans (h : Keeps s t) (k : OutKeeps t o) : OutKeeps s o := fun u e => h.trans (k u e)

theorem stay (s : State) : OutKeeps s (.next s) := next (Keeps.refl s)

theorem quiet (h : Quiet s t) : OutKeeps s (.next t) := next (Keeps.quiet h)

theorem grp (s : State) (g : Nat) (G : Group) : OutKeeps s (.next (s.grp g G)) := next (grp_keeps s g G)

theorem modGrp (s : State) (g : Nat) (f : Group → Group) : OutKeeps s (.next (s.modGrp g f)) := next (modGrp_keeps s g f)

theorem trapS (s : State) (g : Nat) (cause : BitVec 8) (addr : Word) (code : BitVec 10) : OutKeeps s (.next (trapS s g cause addr code)) :=
  quiet (trapS_quiet _ _ _ _ _)

theorem trapL (s : State) (g n : Nat) (cause : BitVec 8) (lanes : Mask) (addr : Word) (code : BitVec 10) :
    OutKeeps s (.next (trapL s g n cause lanes addr code)) := quiet (trapL_quiet _ _ _ _ _ _ _)

theorem afterLane (s : State) (g n : Nat) (G : Group) : OutKeeps s (.next (afterLane s g n G)) := quiet (afterLane_quiet _ _ _ _)

theorem advanceLane (s : State) (g n : Nat) : OutKeeps s (.next (advanceLane s g n)) := quiet (advanceLane_quiet _ _ _)

theorem settleGrp (s : State) (g : Nat) (G : Group) : OutKeeps s (.next (settleRuns (s.grp g G))) := quiet ((grp_quiet _ _ _).trans (settleRuns_quiet _))

theorem ite {c : Prop} [Decidable c] {o p : Out} (ho : OutKeeps s o) (hp : OutKeeps s p) : OutKeeps s (if c then o else p) := by
  split
  · exact ho
  · exact hp

end OutKeeps

section
variable {s : State}

/-! ### Scalar helpers -/

theorem withScalar_keeps {k : Nat → Group → Out} (h : ∀ g G, OutKeeps s (k g G)) : OutKeeps s (withScalar s k) := by
  unfold withScalar
  split
  · split
    · exact h _ _
    · exact OutKeeps.fault _
  · exact OutKeeps.fault _

theorem withSplit_keeps {k : Nat → Group → Nat → Split → Out} (h : ∀ g G n S, OutKeeps s (k g G n S)) : OutKeeps s (withSplit s k) := by
  unfold withSplit
  split
  · split
    · split
      · exact h _ _ _ _
      · exact OutKeeps.fault _
    · exact OutKeeps.fault _
  · exact OutKeeps.fault _

theorem scalarStep_keeps (n : Nat) (gd : CReg) (f : Group → Group) : OutKeeps s (scalarStep s n gd f) := withScalar_keeps fun _ _ => OutKeeps.grp _ _ _

/-- The check is made in `t`, which comes from `s`. -/
theorem onChk_keeps_of {t : State} (hst : Keeps s t) {g : Nat} {str : Stream} {c : Chk} {k : List (Nat × Nat) → Out} (h : ∀ l, OutKeeps s (k l)) :
    OutKeeps s (onChk t g str c k) := by
  unfold onChk
  split
  · exact h _
  · exact OutKeeps.next (hst.trans (Keeps.quiet (trapStr_quiet _ _ _ _ _ _)))
  · exact OutKeeps.next (hst.trans (holdGroup_keeps _ _ _ _))
  · split
    · exact OutKeeps.next (hst.trans (fatalFault_keeps _ _))
    · exact OutKeeps.next hst

theorem onChk_keeps {g : Nat} {str : Stream} {c : Chk} {k : List (Nat × Nat) → Out} (h : ∀ l, OutKeeps s (k l)) : OutKeeps s (onChk s g str c k) :=
  onChk_keeps_of (Keeps.refl s) h

theorem touchOv_keeps (s : State) (G : Group) (ov k : Nat) : Keeps s (touchOv s G ov k) := by
  unfold touchOv
  split
  · exact modCopy_keeps _ _ _
  · exact Keeps.refl s

/-- Entering an overlay may ask for its load. -/
theorem enter_keeps {g : Nat} {G : Group} {ov c : Nat} {t : State} (h : enter s g G ov = .wait c t) : Keeps s t := by
  have hload {core ctx : Nat} {e : OvEntry} {w : Waiter}
      (h : (match startLoad s core ctx e w with | (t, k) => Enter.wait k t) = .wait c t) : Keeps s t := by
    obtain ⟨-, rfl⟩ := Enter.wait.inj h
    exact startLoad_keeps _ _ _ _ _
  unfold enter at h
  split at h
  · contradiction
  · extract_lets ctx held d extra at h
    clear_value extra d
    split at h
    · contradiction
    · split at h
      · split at h
        · contradiction
        · split at h
          · exact hload h
          · contradiction
      · split at h
        · exact hload h
        · contradiction

theorem enterStep_keeps {g : Nat} {G waiting : Group} {ov off : Nat} {popped : Bool} {k : State → Group → Nat → State} {fail : State → State}
    (hk : ∀ t H c, Keeps t (k t H c)) (hf : ∀ t, Keeps t (fail t)) : OutKeeps s (enterStep s g G waiting ov off popped k fail) := by
  unfold enterStep
  extract_lets ask
  have hask (H : Group) : OutKeeps s (ask H) := by
    unfold ask
    split
    · exact OutKeeps.next ((touchOv_keeps _ _ _ _).trans (hk _ _ _))
    case h_2 c t ht => exact OutKeeps.next ((enter_keeps ht).trans (grp_keeps _ _ _))
    · exact OutKeeps.next ((grp_keeps _ _ _).trans (hf _))
  clear_value ask
  split
  · exact OutKeeps.next (((grp_keeps _ _ _).trans (Keeps.quiet (unwait_quiet _ _))).trans (hf _))
  · split
    · split
      · exact OutKeeps.stay s
      · exact OutKeeps.next (((Keeps.quiet (unwait_quiet _ _)).trans (touchOv_keeps _ _ _ _)).trans (hk _ _ _))
    · exact hask _
  · exact hask _

theorem whenHandle_keeps {h : HReg} {k : State → Nat → Group → Handle → Out} (hk : ∀ s g G x, OutKeeps s (k s g G x)) :
    OutKeeps s (whenHandle s h k) := by
  refine withScalar_keeps fun g G => ?_
  extract_lets x t
  have h : Keeps s t := by
    unfold t; split
    · exact grp_keeps _ _ _
    · exact Keeps.refl s
  split
  · exact OutKeeps.grp _ _ _
  · exact OutKeeps.trans h (hk _ _ _ _)

theorem queueRun_keeps (g : Nat) (G : Group) (off : Nat) : OutKeeps s (queueRun s g G off) := by
  unfold queueRun
  split
  · exact OutKeeps.stay s
  · split
    · exact OutKeeps.stay s
    · rename_i t H unit ht
      refine OutKeeps.next ((Keeps.quiet (takeUnits_quiet ht)).trans (Keeps.trans ?_ (Keeps.quiet ((grp_quiet _ _ _).trans (settleRuns_quiet _)))))
      split <;> exact Keeps.same rfl rfl rfl

theorem loadStep_keeps (ty : Ty) (d a : SReg) (imm : BitVec 10) : OutKeeps s (loadStep s ty d a imm) :=
  withScalar_keeps fun _ _ => onChk_keeps fun _ => OutKeeps.ite (OutKeeps.stay s) (OutKeeps.next (issueScalar_keeps _ _ _ _ _ _ _ _ _ _))

theorem storeStep_keeps (ty : Ty) (d a : SReg) (imm : BitVec 10) : OutKeeps s (storeStep s ty d a imm) :=
  withScalar_keeps fun _ _ => onChk_keeps fun _ => OutKeeps.ite (OutKeeps.stay s) (OutKeeps.next (issueScalar_keeps _ _ _ _ _ _ _ _ _ _))

theorem atomStep_keeps (kind : MKind) (d a : SReg) (gd : CReg) (scope : Scope) (order : Order) (x y : Group → Word) :
    OutKeeps s (atomStep s kind d a gd scope order x y) :=
  withScalar_keeps fun _ _ => OutKeeps.ite (OutKeeps.grp _ _ _) <| onChk_keeps fun _ => OutKeeps.ite (OutKeeps.stay s) <| OutKeeps.ite (OutKeeps.stay s) <|
    OutKeeps.next ((Keeps.quiet (barAudit_quiet _ _)).trans (issueScalar_keeps _ _ _ _ _ _ _ _ _ _))

theorem engineStep_keeps (h : HReg) (b : SReg) (bar : Bool) (mk : State → Group → Nat → Option CopyOp) : OutKeeps s (engineStep s h b bar mk) := by
  refine whenHandle_keeps fun s g G x => ?_
  extract_lets ch s0
  have h0 : Keeps s s0 := by
    unfold s0; split
    · exact Keeps.quiet (barAudit_quiet _ _)
    · exact Keeps.refl s
  split
  · exact OutKeeps.trapS _ _ _ _ _
  · split
    · exact OutKeeps.stay s
    · split
      · exact OutKeeps.stay s
      · rename_i s1 G1 unit ht
        extract_lets atOnce
        have h1 : Keeps s s1 := h0.trans (Keeps.quiet (takeUnits_quiet ht))
        have hat (st : HState) : OutKeeps s (atOnce st) := OutKeeps.next ((h1.trans (Keeps.quiet (unitHome_quiet _ _ _ _))).trans (modGrp_keeps _ _ _))
        clear_value atOnce
        split
        · exact hat _
        · split
          · exact hat _
          · extract_lets o
            split
            · exact OutKeeps.stay s
            · refine OutKeeps.next ((h1.trans (Keeps.trans ?_ (modGrp_keeps _ _ _))).trans (sendCmds_keeps _ _))
              exact Keeps.same rfl rfl rfl

/-! ### Phasers and activities -/

theorem phaserStep_keeps {k : State → State → Nat → Group → Out} (h : ∀ s0 s g G, Keeps s0 s → OutKeeps s0 (k s0 s g G)) : OutKeeps s (phaserStep s k) :=
  withScalar_keeps fun g G => h s _ g G (Keeps.quiet (barAudit_quiet _ _))

theorem memberStep_keeps {g : Nat} {G : Group} {id : Option Nat} {ok : Nat → Memb → Bool} {k : Nat → Memb → Phaser → Out}
    (h : ∀ key m p, OutKeeps s (k key m p)) : OutKeeps s (memberStep s g G id ok k) := by
  unfold memberStep
  split
  · exact OutKeeps.trapS _ _ _ _ _
  · split
    · exact OutKeeps.trapS _ _ _ _ _
    · exact OutKeeps.ite (OutKeeps.trapS _ _ _ _ _) (OutKeeps.ite (OutKeeps.trapS _ _ _ _ _) (h _ _ _))

theorem waitStep_keeps {s0 : State} (h : Keeps s0 s) (g : Nat) (G : Group) (key : Nat) (phase : BitVec 32) (d : SReg) :
    OutKeeps s0 (waitStep s0 s g G key phase d) :=
  OutKeeps.ite (OutKeeps.trans h (OutKeeps.grp _ _ _)) (OutKeeps.ite (OutKeeps.trapS _ _ _ _ _) (OutKeeps.stay s0))

theorem arriveStep_keeps {s0 : State} (h : Keeps s0 s) (g : Nat) (G : Group) (id : Option Nat) (b : SReg) (drain : Bool) (mode : PhMode → Bool)
    {k : State → Nat → BitVec 32 → State} (hk : ∀ t key phase, Keeps t (k t key phase)) : OutKeeps s0 (arriveStep s0 s g G id b drain mode k) := by
  refine memberStep_keeps fun key m p => ?_
  refine OutKeeps.ite (OutKeeps.stay s0) (OutKeeps.ite (OutKeeps.stay s0) (OutKeeps.ite (OutKeeps.trapS _ _ _ _ _) ?_))
  extract_lets p' s1 s2 s3 s4
  have h1 : Keeps s s1 := Keeps.quiet (setPh_quiet _ _ _ _)
  have h2 : Keeps s1 s2 := grp_keeps _ _ _
  have h3 : Keeps s2 s3 := hk _ _ _
  have h4 : Keeps s3 s4 := by
    unfold s4; split
    · split
      · exact Keeps.quiet (rootAdd_quiet _ _ _ _ _ _)
      · exact Keeps.refl _
    · exact Keeps.refl _
  exact OutKeeps.next ((((h.trans h1).trans h2).trans (h3.trans h4)).trans (Keeps.quiet (settlePh_quiet _ _ _)))

theorem awaitStep_keeps (d a b : SReg) (pkg drain : Bool) : OutKeeps s (awaitStep s d a b pkg drain) := by
  refine phaserStep_keeps fun s0 s g G h => ?_
  split
  · exact waitStep_keeps h _ _ _ _ _
  · exact arriveStep_keeps h _ _ _ _ _ _ fun _ _ _ => modGrp_keeps _ _ _

theorem actStep_keeps {k : Nat → Group → Nat → Activity → Out} (h : ∀ g G a A, OutKeeps s (k g G a A)) : OutKeeps s (actStep s k) := by
  refine withScalar_keeps fun g G => ?_
  split
  · exact h _ _ _ _
  · exact OutKeeps.trapS _ _ _ _ _

theorem liveStep_keeps {f : Group → Group} {k : Nat → Group → Nat → Activity → Out} (h : ∀ g G a A, OutKeeps s (k g G a A)) :
    OutKeeps s (liveStep s f k) := actStep_keeps fun g G a A => OutKeeps.ite (OutKeeps.grp _ _ _) (h g G a A)

theorem abnStep_keeps (g : Nat) (G : Group) (k : Nat) (A : Activity) : OutKeeps s (abnStep s g G k A) :=
  OutKeeps.ite (OutKeeps.trapS _ _ _ _ _) <| OutKeeps.ite (OutKeeps.grp _ _ _) <| OutKeeps.ite (OutKeeps.trapS _ _ _ _ _) <|
    OutKeeps.quiet ((grp_quiet _ _ _).trans (abandon_quiet _ _))

theorem modEntry_keeps (s : State) (a q : Nat) (f : StackEntry → StackEntry) : Keeps s (modEntry s a q f) := Keeps.same rfl rfl rfl

/-! ### Lane helpers -/

theorem laneIssue_keeps {gd : LGuard} {level3 : Bool} {regs tiles : List Nat} {k : Nat → Group → Nat → Split → Out}
    (h : ∀ g G n S, OutKeeps s (k g G n S)) : OutKeeps s (laneIssue s gd level3 regs tiles k) :=
  withSplit_keeps fun g G n S => OutKeeps.ite (OutKeeps.trapL _ _ _ _ _ _ _) (OutKeeps.ite (OutKeeps.trapL _ _ _ _ _ _ _) (h g G n S))

theorem laneAlu_keeps (gd : LGuard) (regs : List Nat) (f : Group → Mask → Group) : OutKeeps s (laneAlu s gd regs f) :=
  laneIssue_keeps fun _ _ _ _ => OutKeeps.afterLane _ _ _ _

theorem collective_keeps {gd : LGuard} {level3 : Bool} {regs tiles : List Nat} {k : Nat → Group → Nat → Split → Mask → Out}
    (h : ∀ g G n S m, OutKeeps s (k g G n S m)) : OutKeeps s (collective s gd level3 regs tiles k) :=
  laneIssue_keeps fun g G n S => OutKeeps.ite (OutKeeps.trapL _ _ _ _ _ _ _) (h g G n S _)

theorem plainStep_keeps (w : MemL) (sp : Space) (store : Bool) : OutKeeps s (plainStep s w sp store) :=
  laneIssue_keeps fun _ _ _ _ => onChk_keeps fun _ => OutKeeps.ite (OutKeeps.stay s) <| OutKeeps.ite (OutKeeps.advanceLane _ _ _) <|
    OutKeeps.next ((issueLane_keeps _ _ _ _ _ _ _ _ _ _ _).trans (Keeps.quiet (advanceLane_quiet _ _ _)))

theorem clearDone_keeps (s : State) (g n : Nat) : Keeps s (advanceLane (s.modGrp g fun G => G.clearDone n) g n) :=
  (modGrp_keeps _ _ _).trans (Keeps.quiet (advanceLane_quiet _ _ _))

theorem feStep_keeps (w : MemL) (kind : MKind) : OutKeeps s (feStep s w kind) := by
  refine laneIssue_keeps fun g G n S => ?_
  split
  · exact OutKeeps.ite (OutKeeps.stay s) (OutKeeps.next (clearDone_keeps _ _ _))
  · extract_lets put act eas
    refine onChk_keeps fun l => OutKeeps.ite (OutKeeps.stay s) (OutKeeps.ite (OutKeeps.next (clearDone_keeps _ _ _)) ?_)
    exact OutKeeps.next (((Keeps.quiet (barAudit_quiet _ _)).trans (issueLane_keeps _ _ _ _ _ _ _ _ _ _ _)).trans (modGrp_keeps _ _ _))

theorem vatomStep_keeps (w : AtomL) (kind : MKind) (ret : Bool) : OutKeeps s (vatomStep s w kind ret) := by
  refine laneIssue_keeps fun g G n S => ?_
  extract_lets act size eas
  split
  · exact onChk_keeps fun _ => OutKeeps.stay s
  · refine OutKeeps.ite (OutKeeps.stay s) (OutKeeps.ite (OutKeeps.stay s) ?_)
    split
    extract_lets done s1 m s2
    have h1 : Keeps s s1 := by
      unfold s1; split
      · exact Keeps.refl s
      · exact Keeps.quiet (barAudit_quiet _ _)
    have h2 : Keeps s1 s2 := by
      unfold s2; split
      · exact Keeps.refl _
      · exact issueLane_keeps _ _ _ _ _ _ _ _ _ _ _
    refine OutKeeps.trans (h1.trans h2) ?_
    split
    · exact OutKeeps.next (clearDone_keeps _ _ _)
    · exact onChk_keeps_of (modGrp_keeps _ _ _) fun _ => OutKeeps.stay _

theorem permStep_keeps (w : PermL) (index : Group → Nat → Nat) : OutKeeps s (permStep s w index) :=
  collective_keeps fun _ _ _ _ _ => OutKeeps.afterLane _ _ _ _

theorem tileIssue_keeps (g n : Nat) (G : Group) (S : Split) (act : Mask) (add : Bool) (plan : TilePlan) :
    OutKeeps s (tileIssue s g n G S act add plan) := by
  refine OutKeeps.ite (OutKeeps.stay s) (OutKeeps.ite (OutKeeps.advanceLane _ _ _) ?_)
  split
  · exact OutKeeps.trapL _ _ _ _ _ _ _
  · exact OutKeeps.stay s
  · exact onChk_keeps fun _ => OutKeeps.stay s
  · exact onChk_keeps fun _ => OutKeeps.next (issueTile_keeps _ _ _ _ _ _ _ _ _)

theorem mmaStep_keeps (w : MmaL) (sparse : Bool) : OutKeeps s (mmaStep s w sparse) :=
  collective_keeps fun _ _ _ _ _ => tileIssue_keeps _ _ _ _ _ _ _

/-! ### Packets and dies -/

theorem packetStep_keeps {h : PktHdr} {code : Nat} {k : State → Nat → Queue → Nat → Pkt → State} (hk : ∀ t q Q key p, Keeps t (k t q Q key p)) :
    OutKeeps s (packetStep s h code k) := by
  unfold packetStep
  split
  · split
    · exact OutKeeps.fault _
    · exact OutKeeps.next ((popPacket_keeps _ _ _).trans (hk _ _ _ _ _))
  · exact OutKeeps.fault _

theorem stuckStep_keeps (h : PktHdr) (code : Nat) (id : BitVec 32) (report : Word) (torn : Bool) {f : State → Nat → Nat → State}
    (hf : ∀ t set k, Keeps t (f t set k)) : OutKeeps s (stuckStep s h code id report torn f) := by
  refine packetStep_keeps fun t q Q key p => ?_
  split
  · split
    · exact donePkt_keeps _ _ _ _ _
    · exact ((openPkt_keeps _ _ _ _).trans (hf _ _ _)).trans (settleActs_keeps _)
  · exact donePkt_keeps _ _ _ _ _

theorem onDie_keeps (d : Nat) {k : Die → State} (h : ∀ D, Keeps s (k D)) : OutKeeps s (onDie? s d k) := by
  unfold onDie?
  split
  · exact OutKeeps.next (h _)
  · exact OutKeeps.stay s

end

end Sys2Proof.Proofs
end

section
/-!
PROOFS. Every instruction of a stream and every packet keeps the canonical forms.
-/

namespace Sys2Proof.Proofs
open Sys2Proof Sys2Proof.Machine Sys2Proof.Claims

/-! ### Scalar instructions with state of their own -/

section
variable {s : State}

theorem execStret_keeps (skip : Bool) : OutKeeps s (execStret skip s) := by
  delta execStret
  refine withScalar_keeps fun g G => ?_
  split
  · exact OutKeeps.trapS _ _ _ _ _
  · split
    · exact OutKeeps.quiet (exitGroup_quiet _ _ _)
    · refine enterStep_keeps (fun t H c => ?_) fun t => Keeps.quiet (trapS_quiet _ _ _ _ _)
      extract_lets H'
      clear_value H'
      split
      · split
        · exact (Keeps.quiet (trapReturn_quiet _ _ _ _ _ _)).trans (modGrp_keeps _ _ _)
        · exact Keeps.quiet (trapReturn_quiet _ _ _ _ _ _)
      · exact Keeps.quiet (trapReturn_quiet _ _ _ _ _ _)

theorem execSxcall_keeps (ov : BitVec 8) (entry : BitVec 12) : OutKeeps s (execSxcall ov entry s) := by
  delta execSxcall
  refine withScalar_keeps fun g G => ?_
  split
  · exact OutKeeps.trapS _ _ _ _ _
  · exact OutKeeps.ite (OutKeeps.trapS _ _ _ _ _) (enterStep_keeps (fun _ _ _ => grp_keeps _ _ _) fun _ => Keeps.quiet (trapS_quiet _ _ _ _ _))

theorem execSret_keeps (gd : CReg) : OutKeeps s (execSret gd s) := by
  delta execSret
  refine withScalar_keeps fun g G => ?_
  extract_lets go
  have hgo (ov off : Nat) (H : Group) : OutKeeps s (go ov off H) :=
    enterStep_keeps (fun _ _ _ => grp_keeps _ _ _) fun _ => Keeps.quiet (trapS_quiet _ _ _ _ _)
  clear_value go
  split
  · exact hgo _ _ _
  · exact hgo _ _ _
  · refine OutKeeps.ite (OutKeeps.grp _ _ _) ?_
    split
    · exact OutKeeps.trapS _ _ _ _ _
    · exact OutKeeps.ite (OutKeeps.grp _ _ _) (hgo _ _ _)

theorem execSfence_keeps (scope : Scope) (kind : FenceKind) : OutKeeps s (execSfence scope kind s) := by
  delta execSfence
  refine withScalar_keeps fun g G => OutKeeps.ite (OutKeeps.stay s) ?_
  split
  · exact OutKeeps.grp _ _ _
  · exact OutKeeps.grp _ _ _
  · exact OutKeeps.grp _ _ _
  · refine OutKeeps.next (Keeps.trans ?_ (grp_keeps _ _ _))
    exact Keeps.same rfl rfl rfl

theorem execHcancel_keeps (h : HReg) : OutKeeps s (execHcancel h s) := by
  delta execHcancel
  refine withScalar_keeps fun g G => ?_
  extract_lets x
  split
  · exact OutKeeps.trapS _ _ _ _ _
  · split
    · exact OutKeeps.quiet (modOp_quiet _ _ _)
    · exact OutKeeps.quiet (((dropWaiters_quiet _ _).trans (grp_quiet _ _ _)).trans (dropIdleLoads_quiet _))
  · exact OutKeeps.grp _ _ _

theorem execHsend_keeps (h : HReg) (a : SReg) : OutKeeps s (execHsend h a s) := by
  delta execHsend
  refine withScalar_keeps fun g G => onChk_keeps fun l => ?_
  refine OutKeeps.ite (OutKeeps.grp _ _ _) (OutKeeps.ite (OutKeeps.trapS _ _ _ _ _) (OutKeeps.ite (OutKeeps.stay s) ?_))
  split
  · exact OutKeeps.stay s
  · rename_i t H unit ht
    refine OutKeeps.next (((Keeps.quiet ((barAudit_quiet _ _).trans (takeUnits_quiet ht))).trans ?_).trans (grp_keeps _ _ _))
    exact ⟨memWf_writeLE _ _ _, id, id⟩

theorem execHrecv_keeps (h : HReg) (a : SReg) : OutKeeps s (execHrecv h a s) := by
  delta execHrecv
  refine withScalar_keeps fun g G => onChk_keeps fun l => ?_
  refine OutKeeps.ite (OutKeeps.trapS _ _ _ _ _) (OutKeeps.ite (OutKeeps.stay s) ?_)
  split
  · exact OutKeeps.trapS _ _ _ _ _
  · refine OutKeeps.ite (OutKeeps.trapS _ _ _ _ _) ?_
    refine OutKeeps.next (((Keeps.quiet (barAudit_quiet _ G)).trans ?_).trans (Keeps.quiet ((grp_quiet _ _ _).trans (joinUnit_quiet _ _ _ _ _))))
    exact Keeps.same rfl rfl rfl

theorem execDisp_keeps (d : SReg) : OutKeeps s (execDisp d s) := by
  delta execDisp
  refine withScalar_keeps fun g G => ?_
  extract_lets done
  have hdone (t : State) (x : Word) (h : Keeps s t) : OutKeeps s (done t x) := OutKeeps.next (h.trans (modGrp_keeps _ _ _))
  clear_value done
  cases G.wait with
  | dispAnswer x => exact hdone _ _ (Keeps.refl s)
  | dispSent => exact OutKeeps.stay s
  | _ =>
    refine OutKeeps.ite (hdone _ _ (Keeps.refl s)) ?_
    cases G.audit.bind fun k => (mget s.audits k).map fun A => (k, A) with
    | none => exact OutKeeps.quiet ((tileDone_quiet _ _ _).trans (modGrp_quiet _ _ _))
    | some p => exact OutKeeps.ite (hdone _ _ (Keeps.refl s)) (hdone _ _ (Keeps.same rfl rfl rfl))

theorem execWupok_keeps : OutKeeps s (execWupok s) := by
  delta execWupok
  refine withScalar_keeps fun g G => OutKeeps.ite (OutKeeps.stay s) ?_
  extract_lets t
  have h : Keeps s t := grp_keeps _ _ _
  split
  · exact OutKeeps.ite (OutKeeps.next h) (OutKeeps.next (h.trans (modLaunch_keeps _ _ _)))
  · exact OutKeeps.next h

theorem execPhreg_keeps (d a b : SReg) (mode : PhMode) (pkg : Bool) : OutKeeps s (execPhreg d a b mode pkg s) := by
  delta execPhreg
  refine phaserStep_keeps fun s0 s g G h => ?_
  split
  · exact OutKeeps.trapS _ _ _ _ _
  · rename_i k _
    extract_lets drain join packages
    have hjoin (m : Memb) : OutKeeps s0 (join (dropHeld s G k) m) := OutKeeps.next ((h.trans (modBlk_keeps _ _ _)).trans (grp_keeps _ _ _))
    clear_value join
    refine OutKeeps.ite (OutKeeps.trapS _ _ _ _ _) (OutKeeps.ite (OutKeeps.next (h.trans (Keeps.quiet (killGroup_quiet _ _ _)))) ?_)
    split
    · exact hjoin _
    · exact OutKeeps.ite (OutKeeps.trapS _ _ _ _ _) (hjoin _)

theorem execPhdrop_keeps (a : SReg) (pkg : Bool) : OutKeeps s (execPhdrop a pkg s) := by
  delta execPhdrop
  refine phaserStep_keeps fun s0 s g G h => ?_
  split
  · exact OutKeeps.trapS _ _ _ _ _
  · exact OutKeeps.ite (OutKeeps.trapS _ _ _ _ _) (OutKeeps.next (h.trans (Keeps.quiet ((leavePh_quiet _ _ _).trans (modGrp_quiet _ _ _)))))

theorem execPhwt_keeps (a b : SReg) (pkg : Bool) : OutKeeps s (execPhwt a b pkg s) := by
  delta execPhwt
  refine phaserStep_keeps fun s0 s g G h => ?_
  split
  · exact waitStep_keeps h _ _ _ _ _
  · exact memberStep_keeps fun _ _ _ => OutKeeps.ite (waitStep_keeps h _ _ _ _ _) (OutKeeps.grp _ _ _)

theorem execPhqry_keeps (d a : SReg) (pkg : Bool) : OutKeeps s (execPhqry d a pkg s) := by
  delta execPhqry
  refine phaserStep_keeps fun s0 s g G h => ?_
  split
  · exact OutKeeps.trapS _ _ _ _ _
  · exact OutKeeps.next (h.trans (grp_keeps _ _ _))

theorem execWsplit_keeps (d : SReg) : OutKeeps s (execWsplit d s) := by
  delta execWsplit
  refine phaserStep_keeps fun s0 s g G h => ?_
  split
  · exact OutKeeps.trapS _ _ _ _ _
  · exact OutKeeps.ite (OutKeeps.stay s0) (OutKeeps.next (h.trans (Keeps.quiet ((setPh_quiet _ _ _ _).trans (grp_quiet _ _ _)))))

theorem execWret_keeps (a : SReg) : OutKeeps s (execWret a s) := by
  delta execWret
  refine phaserStep_keeps fun s0 s g G h => ?_
  refine OutKeeps.ite (OutKeeps.trapS _ _ _ _ _) (OutKeeps.ite (OutKeeps.next (h.trans (Keeps.quiet (killGroup_quiet _ _ _)))) ?_)
  extract_lets mine
  split
  · exact OutKeeps.next (h.trans (grp_keeps _ _ _))
  · exact OutKeeps.next (h.trans (Keeps.quiet ((rootAdd_quiet _ _ _ _ _ _).trans (modGrp_quiet _ _ _))))
  · exact OutKeeps.next (h.trans (grp_keeps _ _ _))

theorem execActopen_keeps (d a : SReg) (commute : Bool) : OutKeeps s (execActopen d a commute s) := by
  delta execActopen
  refine liveStep_keeps fun g G k A => OutKeeps.ite (OutKeeps.trapS _ _ _ _ _) ?_
  refine OutKeeps.next (((spill_keeps s (dieOf G.core)).trans ?_).trans (grp_keeps _ _ _))
  exact Keeps.same rfl rfl rfl

theorem execActend_keeps : OutKeeps s (execActend s) := by
  delta execActend
  refine liveStep_keeps fun g G k A => OutKeeps.ite (OutKeeps.trapS _ _ _ _ _) (OutKeeps.ite (OutKeeps.grp _ _ _) ?_)
  refine OutKeeps.next (Keeps.trans ?_ (grp_keeps _ _ _))
  split
  · exact Keeps.same rfl rfl rfl
  · exact Keeps.refl s

theorem execActdep_keeps (a : SReg) : OutKeeps s (execActdep a s) := by
  delta execActdep
  refine liveStep_keeps fun g G k A => OutKeeps.ite (abnStep_keeps _ _ _ _) (OutKeeps.ite (OutKeeps.trapS _ _ _ _ _) ?_)
  split
  · exact OutKeeps.grp _ _ _
  · refine OutKeeps.ite (OutKeeps.grp _ _ _) (OutKeeps.ite (OutKeeps.next (Keeps.trans ?_ (grp_keeps _ _ _))) (abnStep_keeps _ _ _ _))
    exact Keeps.same rfl rfl rfl

theorem execOvld_keeps (h : HReg) (a : SReg) : OutKeeps s (execOvld h a s) := by
  delta execOvld
  refine whenHandle_keeps fun s g G x => ?_
  extract_lets done n
  have hdone (t : State) (H : Group) (x : Handle) (h : Keeps s t) : OutKeeps s (done t H x) := OutKeeps.next (h.trans (grp_keeps _ _ _))
  have htouch (k ctx : Nat) (e : OvEntry) : Keeps s (touch s k ctx e) := modCopy_keeps _ _ _
  clear_value done
  split
  · exact hdone _ _ _ (Keeps.refl s)
  · refine OutKeeps.ite (hdone _ _ _ (Keeps.refl s)) ?_
    extract_lets c extra
    clear_value extra c
    refine OutKeeps.ite (hdone _ _ _ ?_) ?_
    · split
      · exact htouch _ _ _
      · exact Keeps.refl s
    · split
      · exact OutKeeps.ite (hdone _ _ _ (htouch _ _ _)) (hdone _ _ _ (startLoad_keeps _ _ _ _ _))
      · exact hdone _ _ _ ((grp_keeps _ _ _).trans (startLoad_keeps _ _ _ _ _))

theorem execMtrd_keeps (gd : LGuard) (d : VReg) (tile : BitVec 6) (col : BitVec 5) : OutKeeps s (execMtrd gd d tile col s) := by
  delta execMtrd
  refine withSplit_keeps fun g G n S => OutKeeps.ite (OutKeeps.trapL _ _ _ _ _ _ _) (laneIssue_keeps fun g G n S => ?_)
  extract_lets act k due H
  refine OutKeeps.ite (OutKeeps.next ((grp_keeps _ _ _).trans (Keeps.quiet (advanceLane_quiet _ _ _)))) (OutKeeps.ite (OutKeeps.grp _ _ _) ?_)
  refine OutKeeps.ite (OutKeeps.next (Keeps.trans ?_ (Keeps.quiet (groupError_quiet _ _ _ _)))) (OutKeeps.afterLane _ _ _ _)
  refine Keeps.trans ?_ (Keeps.quiet ((grp_quiet _ _ _).trans (advanceLane_quiet _ _ _)))
  exact Keeps.same rfl rfl rfl

end

/-! ### Streams and packets -/

/-- A scalar instruction keeps the canonical forms. -/
theorem exec_scalar_keeps (s : State) {i : Instr} (h : isScalar i = true) : OutKeeps s (exec i s) := by
  cases i
  case sadd | ssub | smul | smulh | smulhn | sand | sor | sxor | sshl | sshr | ssra | smin | smax | sminn | smaxn | ssel | sbfx | sbfi | spopc |
      sclz | sctz | smov | saddi | sandi | sori | sxori | sshli | sshri | ssrai | smovi | scyc | scmp | scmpi | slit | stime | snop | syield =>
    exact scalarStep_keeps _ _ _
  case sldb | sldh | sldw | sldd => exact loadStep_keeps _ _ _ _
  case sstb | ssth | sstw | sstd => exact storeStep_keeps _ _ _ _
  case satom | scas => exact atomStep_keeps _ _ _ _ _ _ _ _
  case cpy | cpyg | cpyst =>
    delta exec; dsimp only
    delta execCpy execCpyg execCpyst
    exact engineStep_keeps _ _ _ _
  case phaw | phdrain => exact awaitStep_keeps _ _ _ _ _
  case pharr =>
    delta exec; dsimp only
    delta execPharr
    exact phaserStep_keeps fun _ _ _ _ h => arriveStep_keeps h _ _ _ _ _ _ fun _ _ _ => modGrp_keeps _ _ _
  case hwait =>
    delta exec; dsimp only
    delta execHwait
    exact whenHandle_keeps fun _ _ _ _ => OutKeeps.grp _ _ _
  case scwp | htest | dlqry =>
    delta exec; dsimp only
    delta execScwp execHtest execDlqry
    exact withScalar_keeps fun _ _ => OutKeeps.grp _ _ _
  case strap => exact withScalar_keeps fun _ _ => OutKeeps.trapS _ _ _ _ _
  case sexit =>
    refine withScalar_keeps fun g G => OutKeeps.next ?_
    split
    · exact Keeps.quiet (exitGroup_quiet _ _ _)
    · exact grp_keeps _ _ _
  case swait =>
    refine withScalar_keeps fun g G => OutKeeps.next ?_
    split
    · exact grp_keeps _ _ _
    · exact Keeps.refl s
  case sprog =>
    exact withScalar_keeps fun g G => OutKeeps.ite (OutKeeps.grp _ _ _) (OutKeeps.ite (OutKeeps.trapS _ _ _ _ _) (OutKeeps.next (modBlk_keeps _ _ _ |> (grp_keeps _ _ _).trans)))
  case sbrk =>
    exact withScalar_keeps fun g G => OutKeeps.ite (OutKeeps.grp _ _ _) (OutKeeps.ite (OutKeeps.quiet ((grp_quiet _ _ _).trans (interruptFe_quiet _ _))) (OutKeeps.trapS _ _ _ _ _))
  case sbr | scall | sjmpr | sloop | lwait | svote | sgetx | ssetx | sndon | sndoff =>
    delta exec; dsimp only
    delta execSbr execScall execSjmpr execSloop execLwait execSvote execSgetx execSsetx execSndon execSndoff
    refine withScalar_keeps fun g G => ?_
    repeat' first | with_reducible exact OutKeeps.grp _ _ _ | with_reducible exact OutKeeps.trapS _ _ _ _ _ | with_reducible exact OutKeeps.stay _ | split
  case lrun => exact withScalar_keeps fun _ _ => OutKeeps.ite (OutKeeps.trapS _ _ _ _ _) (queueRun_keeps _ _ _)
  case lrunr => exact withScalar_keeps fun _ _ => OutKeeps.ite (OutKeeps.grp _ _ _) (OutKeeps.ite (OutKeeps.trapS _ _ _ _ _) (queueRun_keeps _ _ _))
  case sfence => exact execSfence_keeps _ _
  case hcancel => exact execHcancel_keeps _
  case wupok => exact execWupok_keeps
  case disp => exact execDisp_keeps _
  case hsend => exact execHsend_keeps _ _
  case hrecv => exact execHrecv_keeps _ _
  case sxcall => exact execSxcall_keeps _ _
  case sret => exact execSret_keeps _
  case stret => exact execStret_keeps _
  case ovld => exact execOvld_keeps _ _
  case ovrel =>
    delta exec; dsimp only
    delta execOvrel
    exact whenHandle_keeps fun _ _ _ _ => OutKeeps.ite (OutKeeps.trapS _ _ _ _ _) (OutKeeps.grp _ _ _)
  case phreg => exact execPhreg_keeps _ _ _ _ _
  case phdrop => exact execPhdrop_keeps _ _
  case phwt => exact execPhwt_keeps _ _ _
  case phqry => exact execPhqry_keeps _ _ _
  case wsplit => exact execWsplit_keeps _
  case wret => exact execWret_keeps _
  case actopen => exact execActopen_keeps _ _ _
  case actseal =>
    refine liveStep_keeps fun g G k A => ?_
    split
    · exact OutKeeps.trapS _ _ _ _ _
    · exact OutKeeps.ite (OutKeeps.stay s) (OutKeeps.next ((modEntry_keeps _ _ _ _).trans (grp_keeps _ _ _)))
  case actend => exact execActend_keeps
  case actabn => exact liveStep_keeps fun _ _ _ _ => abnStep_keeps _ _ _ _
  case actdep => exact execActdep_keeps _
  case cmpok =>
    refine actStep_keeps fun g G k A => ?_
    split
    · exact OutKeeps.trapS _ _ _ _ _
    · exact OutKeeps.ite (OutKeeps.stay s) (OutKeeps.next ((modEntry_keeps _ _ _ _).trans (Keeps.quiet (exitGroup_quiet _ _ _))))
  case cmpfail =>
    refine actStep_keeps fun g G k A => ?_
    split
    · exact OutKeeps.trapS _ _ _ _ _
    · exact OutKeeps.ite (OutKeeps.trapS _ _ _ _ _) (OutKeeps.quiet ((compFail_quiet _ _ _ _ _ _).trans (exitGroup_quiet _ _ _)))
  all_goals exact absurd h Bool.false_ne_true

section
variable {s : State}

theorem unStep_keeps (w : Un) (f : Nat → Nat) : OutKeeps s (unStep s w f) := laneAlu_keeps _ _ _
theorem binStep_keeps (w : Bin) (f : Nat → Nat → Nat) : OutKeeps s (binStep s w f) := laneAlu_keeps _ _ _
theorem cntStep_keeps (w : Bin) (f : Nat → Nat → Nat → Nat) : OutKeeps s (cntStep s w f) := laneAlu_keeps _ _ _
theorem terStep_keeps (w : Ter) (f : Nat → Nat → Nat → Nat) : OutKeeps s (terStep s w f) := laneAlu_keeps _ _ _
theorem intBin_keeps (w : Bin) (f : Int → Int → Int) : OutKeeps s (intBin s w f) := binStep_keeps _ _
theorem intUn_keeps (w : Un) (f : Int → Int) : OutKeeps s (intUn s w f) := unStep_keeps _ _
theorem fBin_keeps (w : Bin) (f : FVal → FVal → FVal) : OutKeeps s (fBin s w f) := binStep_keeps _ _
theorem fUn_keeps (w : Un) (f : FVal → FVal) : OutKeeps s (fUn s w f) := unStep_keeps _ _
theorem predStep_keeps (gd : LGuard) (pd : PReg) (f : Group → Mask) : OutKeeps s (predStep s gd pd f) := laneAlu_keeps _ _ _
theorem shiftStep_keeps (up : Bool) (w : ShiftL) : OutKeeps s (shiftStep s up w) := by
  delta shiftStep
  exact laneAlu_keeps _ _ _

end

/-- A lane instruction keeps the canonical forms. -/
theorem exec_lane_keeps (s : State) {i : Instr} (h : isLane i = true) : OutKeeps s (exec i s) := by
  cases i
  case vadd | vsub | vmul | vmulh | vmin | vmax =>
    delta exec; dsimp only
    delta execVadd execVsub execVmul execVmulh execVmin execVmax
    exact intBin_keeps _ _
  case vabs | vneg =>
    delta exec; dsimp only
    delta execVabs execVneg
    exact intUn_keeps _ _
  case vand | vor | vxor | vfmin | vfmax =>
    delta exec; dsimp only
    delta execVand execVor execVxor execVfmin execVfmax
    exact binStep_keeps _ _
  case vnot | vclz | vpopc | vbrev | vfabs | vfneg | vfex2 | vflg2 | vfsin | vfcos =>
    delta exec; dsimp only
    delta execVnot execVclz execVpopc execVbrev execVfabs execVfneg execVfex2 execVflg2 execVfsin execVfcos
    exact unStep_keeps _ _
  case vshl | vshr | vsra | vbfx | vbfi =>
    delta exec; dsimp only
    delta execVshl execVshr execVsra execVbfx execVbfi
    exact cntStep_keeps _ _
  case vmad | vfma =>
    delta exec; dsimp only
    delta execVmad execVfma
    exact terStep_keeps _ _
  case vaddmin | vaddmax =>
    delta exec; dsimp only
    delta execVaddmin execVaddmax addSel
    exact terStep_keeps _ _
  case vfadd | vfsub | vfmul | vfdiv =>
    delta exec; dsimp only
    delta execVfadd execVfsub execVfmul execVfdiv
    exact fBin_keeps _ _
  case vfrcp | vfrsq | vfsqrt | vfrnd =>
    delta exec; dsimp only
    delta execVfrcp execVfrsq execVfsqrt execVfrnd
    exact fUn_keeps _ _
  case vpand | vpor | vpxor | vpnot =>
    delta exec; dsimp only
    delta execVpand execVpor execVpxor execVpnot
    exact predStep_keeps _ _ _
  case vfcls | vfscl | vcvt | vpack | vunpk | vcmp | vsel | vmov | vmovi | vlaneid | vp2v | vv2p =>
    delta exec; dsimp only
    delta execVfcls execVfscl execVcvt execVpack execVunpk execVcmp execVsel execVmov execVmovi execVlaneid execVp2v execVv2p
    exact laneAlu_keeps _ _ _
  case vshup | vshdn => exact shiftStep_keeps _ _
  case vld | vst | vlds | vsts | vldx | vstx => exact plainStep_keeps _ _ _
  case vldsf | vstsf | vldsp => exact feStep_keeps _ _
  case vatom | vatoms | vcas => exact vatomStep_keeps _ _ _
  case vprf =>
    delta exec; dsimp only
    delta execVprf
    exact laneIssue_keeps fun _ _ _ _ => OutKeeps.next ((fillTlb_keeps _ _ _ _ _).trans (Keeps.quiet (advanceLane_quiet _ _ _)))
  case vperm | vbcast => exact permStep_keeps _ _
  case vred | vscan | vvote | velect =>
    delta exec; dsimp only
    delta execVred execVscan execVvote execVelect
    exact collective_keeps fun _ _ _ _ _ => OutKeeps.afterLane _ _ _ _
  case mma | mmas => exact mmaStep_keeps _ _
  case mzero | mepi | topkm =>
    delta exec; dsimp only
    delta execMzero execMepi execTopkm
    exact laneIssue_keeps fun _ _ _ _ => tileIssue_keeps _ _ _ _ _ _ _
  case vdist | topk =>
    delta exec; dsimp only
    delta execVdist execTopk
    exact collective_keeps fun _ _ _ _ _ => tileIssue_keeps _ _ _ _ _ _ _
  case lpack | lnop => exact withSplit_keeps fun _ _ _ _ => OutKeeps.afterLane _ _ _ _
  case lend => exact withSplit_keeps fun _ _ _ _ => OutKeeps.settleGrp _ _ _
  case lbr | ljmp | lcall | lrec | lret | lexit | lwaitc | ltrap =>
    delta exec; dsimp only
    delta execLbr execLjmp execLcall execLrec execLret execLexit execLwaitc execLtrap
    refine withSplit_keeps fun g G n S => ?_
    repeat' first
      | with_reducible exact OutKeeps.settleGrp _ _ _ | with_reducible exact OutKeeps.afterLane _ _ _ _ | with_reducible exact OutKeeps.trapL _ _ _ _ _ _ _
      | with_reducible exact OutKeeps.grp _ _ _ | with_reducible exact OutKeeps.stay _ | extract_lets | split
  case mtrd => exact execMtrd_keeps _ _ _ _
  all_goals exact absurd h Bool.false_ne_true

section
variable {s : State}

theorem execCopy_keeps (h : PktHdr) (dst src len : Word) : OutKeeps s (execCopy h dst src len s) := by
  delta execCopy
  refine packetStep_keeps fun t q Q k p => ?_
  split
  · exact donePkt_keeps _ _ _ _ _
  · refine Keeps.trans ?_ (openPkt_keeps _ _ _ _)
    exact Keeps.same rfl rfl rfl

theorem execRangeCommit_keeps (h : PktHdr) (image : Word) (inval : Bool) : OutKeeps s (execRangeCommit h image inval s) := by
  delta execRangeCommit
  refine packetStep_keeps fun t q Q k p => ?_
  split
  · exact (donePkt_keeps _ _ _ _ _).trans (fatalFault_keeps _ _)
  · extract_lets dies old t1 t2
    have h1 : Keeps t t1 := modCtx_keeps _ _ _
    have h2 : Keeps t1 t2 := by
      unfold t2; split
      · exact dropTlb_keeps _ _
      · exact Keeps.refl _
    exact (h1.trans h2).trans (openPkt_keeps _ _ _ _)
  · exact (logBlocked_keeps _ _).trans (donePkt_keeps _ _ _ _ _)

theorem execLaunch_keeps (h : PktHdr) (b : LaunchBody) : OutKeeps s (execLaunch h b s) := by
  delta execLaunch
  refine packetStep_keeps fun t q Q k p => ?_
  split
  · exact (admitLaunch_keeps _ _ _ _).trans (openPkt_keeps _ _ _ _)
  · exact donePkt_keeps _ _ _ _ _

theorem execLaunchActivity_keeps (h : PktHdr) (b : LaunchBody) (id : BitVec 32) (report : Word) : OutKeeps s (execLaunchActivity h b id report s) := by
  delta execLaunchActivity
  refine packetStep_keeps fun t q Q k p => ?_
  split
  · exact donePkt_keeps _ _ _ _ _
  · split
    · rename_i L wide cores _
      refine Keeps.trans (Keeps.trans (Keeps.trans (t := { t with nextId := t.nextId + 1 }) (Keeps.same rfl rfl rfl)
        (admitLaunch_keeps _ { L with act := some t.nextId } wide cores)) ?_) (openPkt_keeps _ _ _ _)
      exact Keeps.same rfl rfl rfl
    · exact donePkt_keeps _ _ _ _ _

theorem execPreloadOverlay_keeps (h : PktHdr) (table : Word) (len index : BitVec 16) : OutKeeps s (execPreloadOverlay h table len index s) := by
  delta execPreloadOverlay
  refine packetStep_keeps fun t q Q k p => ?_
  split
  · exact donePkt_keeps _ _ _ _ _
  · split
    · exact donePkt_keeps _ _ _ _ _
    · exact (logBlocked_keeps _ _).trans (donePkt_keeps _ _ _ _ _)
    · exact (donePkt_keeps _ _ _ _ _).trans (fatalFault_keeps _ _)
    · exact (Keeps.foldl (fun _ _ => preloadOn_keeps _ _ _ _) _ _).trans (donePkt_keeps _ _ _ _ _)

end

/-- A packet keeps the canonical forms. -/
theorem exec_packet_keeps (s : State) {i : Instr} (h : isPacket i = true) : OutKeeps s (exec i s) := by
  cases i
  case nop =>
    delta exec; dsimp only
    delta execNop
    exact packetStep_keeps fun _ _ _ _ _ => donePkt_keeps _ _ _ _ _
  case copy => exact execCopy_keeps _ _ _ _
  case signal | waitWord =>
    delta exec; dsimp only
    delta execSignal execWaitWord
    refine packetStep_keeps fun t q Q k p => ?_
    split
    · exact donePkt_keeps _ _ _ _ _
    · exact (openPkt_keeps _ _ _ _).trans (tryPkt_keeps _ _)
  case rangeCommit => exact execRangeCommit_keeps _ _ _
  case launch => exact execLaunch_keeps _ _
  case launchActivity => exact execLaunchActivity_keeps _ _ _ _
  case preloadOverlay => exact execPreloadOverlay_keeps _ _ _ _
  case activityResume | activityDiscard => exact stuckStep_keeps _ _ _ _ _ fun _ _ _ => Keeps.same rfl rfl rfl
  case queueBarrier =>
    delta exec; dsimp only
    delta execQueueBarrier
    refine packetStep_keeps fun t q Q k p => ?_
    extract_lets n named keys
    split
    · exact donePkt_keeps _ _ _ _ _
    · exact (openPkt_keeps _ _ _ _).trans (settleBarriers_keeps _ _)
  all_goals exact absurd h Bool.false_ne_true

end Sys2Proof.Proofs
end

section
/-!
PROOFS. Every command and event keeps the canonical forms.
-/

namespace Sys2Proof.Proofs
open Sys2Proof Sys2Proof.Machine Sys2Proof.Claims

section
variable {s : State}

/-! ### Engines and memory -/

theorem execCopyBytesDelivered_keeps (op n : Nat) : OutKeeps s (execCopyBytesDelivered op n s) := by
  delta execCopyBytesDelivered
  split
  · split
    · exact OutKeeps.next ((copyBytes_keeps _ _ _ _).trans (unpoison_keeps _ _))
    · exact OutKeeps.stay s
  · exact OutKeeps.stay s

theorem execNvmeCompletion_keeps (op : Nat) (ok : Bool) : OutKeeps s (execNvmeCompletion op ok s) := by
  delta execNvmeCompletion
  split
  · split
    · refine OutKeeps.ite (OutKeeps.stay s) (OutKeeps.ite (OutKeeps.stay s) ?_)
      extract_lets t u
      have ht : Keeps s t := setCopy_keeps _ _ _
      have hu : Keeps t u := by
        unfold u; split
        · exact (freeEntry_keeps _ _ _).trans (modCtx_keeps _ _ _)
        · exact Keeps.refl _
      exact OutKeeps.next ((ht.trans hu).trans (sendWaiting_keeps _ _ _))
    · exact OutKeeps.stay s
  · exact OutKeeps.stay s

theorem execQueuePairDeleted_keeps (ctx w : Nat) : OutKeeps s (execQueuePairDeleted ctx w s) := by
  refine OutKeeps.next (Keeps.foldl (fun t p => ?_) _ _)
  dsimp only
  split
  · split
    · exact endCopy_keeps _ _ _
    · exact Keeps.refl _
  · exact Keeps.refl _

theorem execLoadComplete_keeps (op : Nat) (lo hi : Mask) : OutKeeps s (execLoadComplete op lo hi s) := by
  delta execLoadComplete
  split
  · rename_i o m _ _
    extract_lets able lo hi want
    refine OutKeeps.ite (OutKeeps.stay s) ?_
    split
    rename_i t fresh ht
    have h : Keeps s t := Eq.subst (motive := Keeps s) (congrArg Prod.fst ht) (Keeps.coh (reachLanes_coh s o m want))
    extract_lets lo hi bad badMask
    refine OutKeeps.ite (OutKeeps.next h) ?_
    split
    extract_lets s' m'
    exact OutKeeps.next ((h.trans (Keeps.quiet (((writeDst_quiet _ _ _ _ _ _).trans (modOp_quiet _ _ _)).trans (settleMem_quiet _ _)))).trans
      (consumeAt_keeps _ _ _))
  · exact OutKeeps.stay s

theorem execStoreAck_keeps (op : Nat) (part : Mask) : OutKeeps s (execStoreAck op part s) := by
  delta execStoreAck
  split
  · rename_i o m _ _
    refine OutKeeps.ite (OutKeeps.stay s) ?_
    extract_lets acked
    split
    rename_i t lanes ht
    have h : Keeps s t := Eq.subst (motive := Keeps s) (congrArg Prod.fst ht) (Keeps.coh (reachLanes_coh s o m (m.todo &&& part)))
    exact OutKeeps.ite (OutKeeps.next h) (OutKeeps.next (noteInv_keeps _ (h.trans (performOp_keeps _ _ _ _ _))))
  · exact OutKeeps.stay s

theorem execFullEmptyWaitDone_keeps (g split : Nat) (lane : BitVec 8) : OutKeeps s (execFullEmptyWaitDone g split lane s) := by
  delta execFullEmptyWaitDone
  split
  · exact OutKeeps.stay s
  · split
    · exact OutKeeps.ite (OutKeeps.stay s) (OutKeeps.next (performOp_keeps _ _ _ _ _))
    · exact OutKeeps.stay s

theorem execTileOpRetire_keeps (op : Nat) : OutKeeps s (execTileOpRetire op s) := by
  delta execTileOpRetire
  split
  · split
    · refine OutKeeps.ite (OutKeeps.stay s) (OutKeeps.ite (OutKeeps.next (tileError_keeps _ _ _ _)) ?_)
      split
      · exact OutKeeps.stay s
      case h_2 t ht =>
        exact OutKeeps.next (((tileReach_keeps ht).trans (tileEffect_keeps _ _ _ _)).trans (Keeps.quiet ((modGrp?_quiet _ _ _).trans (dropOp_quiet _ _))))
    · exact OutKeeps.stay s
  · exact OutKeeps.stay s

/-! ### Blocks, groups and launches -/

theorem execBlockStart_keeps (b : Nat) : OutKeeps s (execBlockStart b s) := by
  delta execBlockStart
  split
  · exact OutKeeps.stay s
  · split
    · exact OutKeeps.stay s
    · refine OutKeeps.ite (OutKeeps.stay s) ?_
      split
      · exact OutKeeps.stay s
      · exact OutKeeps.next (startBlock_keeps _ _ _ _ _ _ _ _)

theorem execGroupStart_keeps (g : Nat) : OutKeeps s (execGroupStart g s) := by
  delta execGroupStart
  split
  · exact OutKeeps.stay s
  · split
    · exact OutKeeps.stay s
    · exact OutKeeps.ite (OutKeeps.stay s) (OutKeeps.quiet (((grp_quiet _ _ _).trans (modBlk_quiet _ _ _)).trans (modLaunch_quiet _ _ _)))

theorem execGroupExitComplete_keeps (g : Nat) : OutKeeps s (execGroupExitComplete g s) := by
  delta execGroupExitComplete
  split
  · exact OutKeeps.stay s
  · refine OutKeeps.ite (OutKeeps.stay s) ?_
    extract_lets _ s1 s2 s3 s4 s5
    have h1 : Quiet s s1 := grp_quiet _ _ _
    have h2 : Quiet s1 s2 := Quiet.foldl (fun _ _ => leavePh_quiet _ _ _) _ _
    have h3 : Quiet s2 s3 := tileDone_quiet _ _ _
    have h4 : Quiet s3 s4 := by
      unfold s4; split
      · split
        · exact Quiet.refl _
        · exact compFail_quiet _ _ _ _ _ _
      · exact Quiet.refl _
    have h5 : Quiet s4 s5 := by
      unfold s5; split
      · exact ⟨rfl, id⟩
      · exact Quiet.refl _
    exact OutKeeps.quiet (((((h1.trans h2).trans h3).trans h4).trans h5).trans (tryEndBlock_quiet _ _))

theorem execWrapTime_keeps (l : Nat) : OutKeeps s (execWrapTime l s) := by
  delta execWrapTime
  split
  · refine OutKeeps.next ?_
    split
    · split
      · exact deadlineNow_keeps _ _
      · exact wrapNow_keeps _ _
    · exact Keeps.refl s
  · exact OutKeeps.stay s

theorem execDispenserRequest_keeps (g : Nat) : OutKeeps s (execDispenserRequest g s) := by
  delta execDispenserRequest
  have hans (t : State) (g : Nat) (x : Word) : Keeps t (answerDisp t g x) := Keeps.quiet (answerDisp_quiet _ _ _)
  split
  · exact OutKeeps.stay s
  · split
    · refine OutKeeps.ite (OutKeeps.stay s) (OutKeeps.ite (OutKeeps.next (hans _ _ _)) ?_)
      refine OutKeeps.ite (OutKeeps.next (((modLaunch_keeps _ _ _).trans (wrapNow_keeps _ _)).trans (hans _ _ _))) ?_
      split
      · exact OutKeeps.next (handTile_keeps _ _ _ _ _ _ _ _)
      · exact OutKeeps.ite (OutKeeps.next (handTile_keeps _ _ _ _ _ _ _ _)) (OutKeeps.next (hans _ _ _))
    · exact OutKeeps.stay s

theorem execLaunchComplete_keeps (l : Nat) : OutKeeps s (execLaunchComplete l s) := by
  delta execLaunchComplete
  split
  · refine OutKeeps.ite (OutKeeps.next ?_) (OutKeeps.stay s)
    split
    · exact fatalFault_keeps _ _
    · exact finishLaunch_keeps _ _ _
  · exact OutKeeps.stay s

theorem execLaunchReplay_keeps (l : Nat) : OutKeeps s (execLaunchReplay l s) := by
  delta execLaunchReplay
  split
  · exact OutKeeps.stay s
  · refine OutKeeps.ite (OutKeeps.stay s) ?_
    extract_lets t mine reset u v
    have ht : Keeps s t := (restorePages_keeps _ _).trans (cancelStarts_keeps _ _)
    have hu : Keeps t u := Keeps.groupsFiltered rfl _ rfl rfl
    have hv : Keeps u v := Keeps.same rfl rfl rfl
    exact OutKeeps.ite (OutKeeps.next (((ht.trans hu).trans hv).trans (modLaunch_keeps _ _ _))) (OutKeeps.next (ht.trans (modLaunch_keeps _ _ _)))

theorem execCompensationStart_keeps (act core : Nat) : OutKeeps s (execCompensationStart act core s) := by
  delta execCompensationStart
  split
  · exact OutKeeps.stay s
  · refine OutKeeps.ite (OutKeeps.stay s) ?_
    split
    · refine OutKeeps.ite (OutKeeps.quiet (compFail_quiet _ _ _ _ _ _)) ?_
      refine OutKeeps.ite (OutKeeps.next (Keeps.same rfl rfl rfl)) ?_
      split
      · refine OutKeeps.next (Keeps.trans ?_ (startBlock_keeps _ _ _ _ _ _ _ _))
        exact Keeps.same rfl rfl rfl
      · exact OutKeeps.next (Keeps.same rfl rfl rfl)
    · exact OutKeeps.stay s

theorem execSaveRecordWrite_keeps (b : Nat) : OutKeeps s (execSaveRecordWrite b s) := by
  delta execSaveRecordWrite
  split
  · exact OutKeeps.stay s
  · split
    · exact OutKeeps.stay s
    · extract_lets gs reserved recs brec put s1 s2 sick s3 rel B' s4
      refine OutKeeps.ite (OutKeeps.stay s) ?_
      have hput (t : State) (a : Nat) (bs : List Byte) : Keeps t (put t a bs) := (putBytesAt_keeps _ _ _ _ _ _).trans (unpoison_keeps _ _)
      clear_value put brec
      have h1 : Keeps s s1 := by
        refine Keeps.foldl (fun t r => ?_) _ _
        split
        · exact hput _ _ _
        · exact Keeps.refl _
      have h2 : Keeps s1 s2 := by
        unfold s2; split
        · exact hput _ _ _
        · exact Keeps.refl _
      have h3 : Keeps s2 s3 := by
        refine Keeps.trans (t := { s2 with accSick := s2.accSick.filter (!sick.contains ·) }) (Keeps.same rfl rfl rfl) (Keeps.foldl (fun t k => ?_) _ _)
        exact Keeps.trans (t := { t with accPoison := insNat t.accPoison k }) (Keeps.same rfl rfl rfl) (coreErr_keeps _ _ _ _ _ _ _)
      have h4 : Keeps s3 s4 := Keeps.foldl (fun _ (p : Nat × Group) => Keeps.quiet ((grp_quiet _ p.1 _).trans (unrequest_quiet _ p.1))) _ _
      exact OutKeeps.next ((((h1.trans h2).trans h3).trans h4).trans ⟨memWf_filter _, id, id⟩)

theorem execRestore_keeps (b core : Nat) : OutKeeps s (execRestore b core s) := by
  delta execRestore
  split
  · exact OutKeeps.stay s
  · split
    · exact OutKeeps.stay s
    · split
      · extract_lets lost t u
        have ht : Keeps s t := Keeps.foldl (fun _ _ => coreErr_keeps _ _ _ _ _ _ _) _ _
        have hu : Keeps t u := by
          unfold u; split
          · exact Keeps.refl _
          · exact Keeps.quiet (launchError_quiet _ _)
        refine OutKeeps.ite (OutKeeps.next ?_) (OutKeeps.next ((ht.trans hu).trans (Keeps.foldl (fun _ _ => Keeps.quiet (fatalKill_quiet _ _ _)) _ _)))
        split
        · exact startRestore_keeps _ _ _ _ _
        · exact Keeps.refl s
      · refine OutKeeps.ite (OutKeeps.stay s) ?_
        exact OutKeeps.quiet ((((dropWaiters_quiet _ _).trans (modBlk_quiet _ _ _)).trans (Quiet.foldl (fun _ _ => modGrp_quiet _ _ _) _ _)).trans
          (Quiet.foldl (fun _ _ => resumeSaved_quiet _ _) _ _))
      · exact OutKeeps.stay s

theorem execOverlayLoadEnd_keeps (core copy : Nat) (verified : Bool) : OutKeeps s (execOverlayLoadEnd core copy verified s) := by
  delta execOverlayLoadEnd
  split
  · exact OutKeeps.stay s
  · refine OutKeeps.ite (OutKeeps.stay s) ?_
    extract_lets t
    have ht : Keeps s t := Keeps.foldl (fun _ _ => readOverlayWord_keeps _ _ _) _ _
    split
    · exact OutKeeps.next ht
    · refine OutKeeps.ite (OutKeeps.next ht) (OutKeeps.ite (OutKeeps.next (ht.trans (failLoad_keeps _ _ _))) ?_)
      extract_lets u
      have hu : Keeps t u := Keeps.foldl (loadedWaiter_keeps copy) _ _
      exact OutKeeps.next ((ht.trans hu).trans (Keeps.same rfl rfl rfl))

/-! ### Debugging -/

theorem execStop_keeps (ctx : Nat) (d : DbgTarget) : OutKeeps s (execStop ctx d s) := by
  delta execStop
  refine OutKeeps.ite (OutKeeps.stay s) (OutKeeps.next (Keeps.foldl (fun t g => ?_) _ _))
  split
  · exact Keeps.quiet ((interruptFe_quiet _ _).trans (modGrp_quiet _ _ _))
  · exact Keeps.refl t

theorem execResume_keeps (ctx : Nat) (d : DbgTarget) : OutKeeps s (execResume ctx d s) := by
  refine OutKeeps.next (Keeps.foldl (fun t g => ?_) _ _)
  split
  · split
    · exact Keeps.refl t
    · split
      · exact Keeps.quiet ((grp_quiet _ _ _).trans (divertNow_quiet _ _))
      · exact grp_keeps _ _ _
  · exact Keeps.refl t

theorem execWrite_keeps (ctx : Nat) (d : DbgTarget) (r : DbgReg) (x : DbgVal) : OutKeeps s (execWrite ctx d r x s) := by
  delta execWrite
  split
  · split
    · refine OutKeeps.next (Keeps.trans ?_ (Keeps.quiet (settleRuns_quiet _)))
      split
      · exact grp_keeps _ _ _
      · exact Keeps.quiet ((grp_quiet _ _ _).trans (unwait_quiet _ _))
    · exact OutKeeps.stay s
  · exact OutKeeps.stay s

theorem execProbeToken_keeps (tok : Nat) (next : Option QUnit) : OutKeeps s (execProbeToken tok next s) := by
  delta execProbeToken
  have hs (t : State) (ht : t.mem = s.mem ∧ t.groups = s.groups ∧ t.pkts = s.pkts) : OutKeeps s (.next t) := OutKeeps.next (Keeps.same ht.1 ht.2.1 ht.2.2)
  split
  · exact OutKeeps.stay s
  · extract_lets rest
    refine OutKeeps.ite (OutKeeps.next ?_) ?_
    · split <;> exact Keeps.same rfl rfl rfl
    · split
      · exact OutKeeps.ite (hs _ ⟨rfl, rfl, rfl⟩) (OutKeeps.stay s)
      · exact OutKeeps.ite (hs _ ⟨rfl, rfl, rfl⟩) (OutKeeps.stay s)

end
end Sys2Proof.Proofs
end

section
/-!
PROOFS. Every command and event keeps the canonical forms: packets, tables, dies, errors and the host.
-/

namespace Sys2Proof.Proofs
open Sys2Proof Sys2Proof.Machine Sys2Proof.Claims

theorem OutKeeps.same {s t : State} (hm : t.mem = s.mem) (hg : t.groups = s.groups) (hp : t.pkts = s.pkts) : OutKeeps s (.next t) :=
  OutKeeps.next (Keeps.same hm hg hp)

section
variable {s : State}

/-! ### Timers of launches and packets -/

theorem execDeadline_keeps (l : Nat) : OutKeeps s (execDeadline l s) := by
  delta execDeadline
  split
  · refine OutKeeps.next ?_
    split
    · exact deadlineNow_keeps _ _
    · exact Keeps.refl s
  · exact OutKeeps.stay s

theorem execSectionOverrun_keeps (g : Nat) : OutKeeps s (execSectionOverrun g s) := by
  delta execSectionOverrun
  split
  · refine OutKeeps.next ?_
    split
    · exact Keeps.quiet (overrunNow_quiet _ _)
    · exact Keeps.refl s
  · exact OutKeeps.stay s

theorem execCopyComplete_keeps (op : Nat) : OutKeeps s (execCopyComplete op s) := by
  delta execCopyComplete
  split
  · split
    · refine OutKeeps.ite (OutKeeps.stay s) ?_
      split
      · exact OutKeeps.next (endCopy_keeps _ _ _)
      · exact OutKeeps.stay s
    · exact OutKeeps.stay s
  · exact OutKeeps.stay s

theorem execCopyPacketComplete_keeps (p : Nat) : OutKeeps s (execCopyPacketComplete p s) := by
  delta execCopyPacketComplete
  split
  · split
    · split
      · split
        · split
          · exact OutKeeps.next (endCopy_keeps _ _ _)
          · exact OutKeeps.stay s
        · exact OutKeeps.stay s
      · exact OutKeeps.stay s
    · exact OutKeeps.stay s
  · exact OutKeeps.stay s

theorem execWaitWordSatisfied_keeps (p : Nat) : OutKeeps s (execWaitWordSatisfied p s) := by
  delta execWaitWordSatisfied
  split
  · exact OutKeeps.next (tryPkt_keeps _ _)
  · exact OutKeeps.stay s

theorem execWaitWordTimeout_keeps (p : Nat) : OutKeeps s (execWaitWordTimeout p s) := by
  delta execWaitWordTimeout
  split
  · exact OutKeeps.ite (OutKeeps.next (finishPkt_keeps _ _ _ _ _ _)) (OutKeeps.stay s)
  · exact OutKeeps.stay s

theorem execRangeCommitComplete_keeps (p : Nat) : OutKeeps s (execRangeCommitComplete p s) := by
  delta execRangeCommitComplete
  split
  · refine OutKeeps.ite (OutKeeps.stay s) (OutKeeps.next ((finishPkt_keeps s p 0 0 0 false).trans ?_))
    split
    · exact Keeps.refl _
    · exact modCtx_keeps _ _ _
  · exact OutKeeps.stay s

/-! ### Queues and interrupts -/

theorem execCompletionRoom_keeps (q : Nat) : OutKeeps s (execCompletionRoom q s) := by
  delta execCompletionRoom
  split
  · exact OutKeeps.next ((drainRecords_keeps _ _ _).trans (dropDead_keeps _ _))
  · exact OutKeeps.stay s

theorem execMsixCoalesceTimeout_keeps (q : Nat) : OutKeeps s (execMsixCoalesceTimeout q s) := by
  delta execMsixCoalesceTimeout
  split
  · refine OutKeeps.next ?_
    split
    · exact (sendMsix_keeps _ _).trans (dropDead_keeps _ _)
    · exact Keeps.refl s
  · exact OutKeeps.stay s

theorem execMsixRateDelay_keeps (vif : Nat) : OutKeeps s (execMsixRateDelay vif s) := by
  delta execMsixRateDelay
  split
  · exact OutKeeps.next ((sendMsix_keeps _ _).trans (dropDead_keeps _ _))
  · exact OutKeeps.stay s

theorem execOstlerWatchdog_keeps : OutKeeps s (execOstlerWatchdog s) := by
  delta execOstlerWatchdog
  extract_lets t
  have ht : Keeps s t := Keeps.trans (t := { s with batch := [] }) (Keeps.same rfl rfl rfl) (Keeps.foldl (fun _ _ => resetLane_keeps _ _) _ _)
  exact OutKeeps.next (ht.trans (settleBarriers_keeps _ _))

theorem execQueueBind_keeps (vif q : Nat) (d : BitVec 512) : OutKeeps s (execQueueBind vif q d s) := by
  delta execQueueBind
  extract_lets k n bound ctl t
  refine OutKeeps.ite (OutKeeps.stay s) (OutKeeps.next ((logBlocked_keeps s [ctl + 16]).trans ?_))
  exact Keeps.same rfl rfl rfl

/-! ### Contexts, windows and registers -/

theorem execStorageWindowRegister_keeps (ctx w : Nat) (e : BitVec 512) : OutKeeps s (execStorageWindowRegister ctx w e s) := by
  delta execStorageWindowRegister
  extract_lets W ok
  split
  · refine OutKeeps.next ?_
    split
    · exact modCtx_keeps _ _ _
    · exact Keeps.refl s
  · exact OutKeeps.stay s

theorem execQuotaSet_keeps (vif : Nat) (q : Quota) : OutKeeps s (execQuotaSet vif q s) := by
  refine OutKeeps.next ?_
  split
  · exact vifs_keeps _ _
  · exact Keeps.refl s

theorem execContextCreate_keeps (vif pa : Nat) : OutKeeps s (execContextCreate vif pa s) := by
  delta execContextCreate
  extract_lets
  refine OutKeeps.ite (OutKeeps.stay s) (OutKeeps.ite (OutKeeps.next (answerVif_keeps _ _ _)) (OutKeeps.next (Keeps.trans ?_ (answerVif_keeps _ _ _))))
  exact Keeps.same rfl rfl rfl

theorem execContextFlagsWrite_keeps (ctx : Nat) (flags : BitVec 16) : OutKeeps s (execContextFlagsWrite ctx flags s) :=
  OutKeeps.ite (OutKeeps.next (answerVif_keeps _ _ _)) (OutKeeps.next ((modCtx_keeps _ _ _).trans (answerVif_keeps _ _ _)))

theorem execContextRelease_keeps (ctx : Nat) : OutKeeps s (execContextRelease ctx s) := by
  delta execContextRelease
  split
  · exact OutKeeps.ite (OutKeeps.stay s) (OutKeeps.same rfl rfl rfl)
  · exact OutKeeps.stay s

theorem execRegisterWrite_keeps (r : PlainReg) : OutKeeps s (execRegisterWrite r s) := by
  cases r with
  | queueDesc q bits => exact OutKeeps.ite (OutKeeps.stay s) (OutKeeps.same rfl rfl rfl)
  | crd q x =>
    delta execRegisterWrite; dsimp only
    split
    · exact OutKeeps.next (outsideWrite_keeps _ _ _ _ _)
    · exact OutKeeps.stay s
  | hostWindow i base limit => exact OutKeeps.ite (OutKeeps.same rfl rfl rfl) (OutKeeps.stay s)
  | gateHold die ns => exact OutKeeps.ite (OutKeeps.next (modDie_keeps _ _ _)) (OutKeeps.stay s)
  | testInterval cl ns => exact OutKeeps.ite (OutKeeps.same rfl rfl rfl) (OutKeeps.stay s)

/-! ### Turns and debugging -/

theorem execQueueBlockTimeout_keeps (q down : QUnit) : OutKeeps s (execQueueBlockTimeout q down s) := by
  delta execQueueBlockTimeout
  split
  · exact OutKeeps.stay s
  · exact OutKeeps.ite (OutKeeps.stay s) (OutKeeps.same rfl rfl rfl)

theorem execSyieldWindowExpiry_keeps (g : Nat) : OutKeeps s (execSyieldWindowExpiry g s) := by
  delta execSyieldWindowExpiry
  split
  · split
    · refine OutKeeps.next ?_
      split
      · exact grp_keeps _ _ _
      · exact Keeps.refl s
    · exact OutKeeps.stay s
  · exact OutKeeps.stay s

theorem execAgeingFloor_keeps (g : Nat) (split : Option Nat) : OutKeeps s (execAgeingFloor g split s) := by
  delta execAgeingFloor
  extract_lets str
  split
  · exact OutKeeps.stay s
  · split
    · exact OutKeeps.stay s
    · exact OutKeeps.ite (OutKeeps.stay s) (OutKeeps.grp _ _ _)

theorem execGroupStopped_keeps (g : Nat) : OutKeeps s (execGroupStopped g s) := by
  delta execGroupStopped
  split
  · exact OutKeeps.ite (OutKeeps.grp _ _ _) (OutKeeps.stay s)
  · exact OutKeeps.stay s

theorem execRead_keeps (ctx : Nat) (d : DbgTarget) (r : DbgReg) : OutKeeps s (execRead ctx d r s) := by
  delta execRead
  split
  · exact OutKeeps.next (modCtx_keeps _ _ _)
  · exact OutKeeps.stay s

theorem execPreempt_keeps (b : Nat) (who : Requester) : OutKeeps s (execPreempt b who s) := by
  delta execPreempt
  split
  · refine OutKeeps.next ?_
    split
    · exact preemptBlock_keeps _ _ _
    · exact Keeps.refl s
  · exact OutKeeps.stay s

theorem execFatal_keeps (ctx : Nat) (seq : BitVec 32) : OutKeeps s (execFatal ctx seq s) := by
  refine OutKeeps.next ?_
  split
  · exact fatalFault_keeps _ _
  · exact Keeps.refl s

/-! ### The host and the peers -/

theorem execBackInvalidate_keeps (line : Nat) : OutKeeps s (execBackInvalidate line s) :=
  OutKeeps.ite (OutKeeps.next (askHost_keeps _ _)) (OutKeeps.stay s)

theorem execBackInvalidateResponse_keeps (line : Nat) : OutKeeps s (execBackInvalidateResponse line s) :=
  OutKeeps.ite (OutKeeps.stay s) (OutKeeps.next (Keeps.coh (dropHost_coh _ _)))

theorem execHostAccess_keeps (a : ExtAccess) (cache : Bool) : OutKeeps s (execHostAccess a cache s) := by
  delta execHostAccess
  extract_lets pa line _ hold
  have hhold (t : State) (m : Bool) : Keeps t (hold t m) := by
    unfold hold; split
    · exact Keeps.same rfl rfl rfl
    · exact Keeps.refl t
  clear_value hold
  refine OutKeeps.ite (OutKeeps.stay s) (OutKeeps.ite (OutKeeps.next (Keeps.trans ?_ (outsideDoes_keeps _ _ _))) ?_)
  · split
    · exact Keeps.same rfl rfl rfl
    · exact Keeps.refl s
  refine OutKeeps.ite (OutKeeps.next (makeHoldsRoom_keeps _)) (OutKeeps.ite (OutKeeps.next ?_) (OutKeeps.next ?_))
  · exact ((Keeps.coh (girthTakes_coh _ _)).trans (hhold _ _)).trans (outsideDoes_keeps _ _ _)
  · refine (Keeps.trans ?_ (hhold _ _)).trans (outsideDoes_keeps _ _ _)
    split
    · exact Keeps.coh (hostShares_coh _ _)
    · exact Keeps.coh (hostReads_coh _ _)

theorem execPeerAccess_keeps (peer : BitVec 4) (a : ExtAccess) : OutKeeps s (execPeerAccess peer a s) := by
  delta execPeerAccess
  extract_lets ok pa
  refine OutKeeps.ite (OutKeeps.stay s) (OutKeeps.next ?_)
  cases h : reachLine s .port (ExtAccess.writes a) pa with
  | none => exact Keeps.refl s
  | some t => exact (Keeps.coh (reachLine_coh h)).trans (outsideDoes_keeps _ _ _)

/-! ### Errors, tests and audits -/

theorem execUncorrectableError_keeps (site : ErrSite) (unit : ErrUnit) : OutKeeps s (execUncorrectableError site unit s) := by
  delta execUncorrectableError
  cases site with
  | line pa ctx =>
    refine OutKeeps.next (Keeps.trans ?_ (logErr_keeps _ _ _ _ _ _ _))
    exact Keeps.same rfl rfl rfl
  | tileOp op =>
    dsimp only
    split
    · split
      · refine OutKeeps.next ?_
        split
        · exact Keeps.refl s
        · exact tileError_keeps _ _ _ _
      · exact OutKeeps.stay s
    · exact OutKeeps.stay s
  | tile g t =>
    dsimp only
    split
    · exact OutKeeps.ite (OutKeeps.same rfl rfl rfl) (OutKeeps.stay s)
    · exact OutKeeps.stay s
  | group g =>
    dsimp only
    split
    · exact OutKeeps.ite (OutKeeps.next ((coreErr_keeps _ _ _ _ _ _ _).trans (Keeps.quiet (groupError_quiet _ _ _ _)))) (OutKeeps.stay s)
    · exact OutKeeps.stay s
  | stackEntry act seq =>
    dsimp only
    split
    · exact OutKeeps.ite (OutKeeps.next ((modEntry_keeps _ _ _ _).trans (logErr_keeps _ _ _ _ _ _ _))) (OutKeeps.stay s)
    · exact OutKeeps.stay s
  | engine op =>
    dsimp only
    split
    · split
      · exact OutKeeps.ite (OutKeeps.stay s) (OutKeeps.next ((setCopy_keeps _ _ _).trans (engineConsumes_keeps _ _ _)))
      · exact OutKeeps.stay s
    · exact OutKeeps.stay s
  | link die => exact OutKeeps.same rfl rfl rfl
  | saveRecord b =>
    dsimp only
    split
    · exact OutKeeps.ite (OutKeeps.stay s) (OutKeeps.next ((logErr_keeps _ _ _ _ _ _ _).trans (modBlk_keeps _ _ _)))
    · exact OutKeeps.stay s

theorem execSelfTest_keeps (core : Nat) : OutKeeps s (execSelfTest core s) := by
  refine OutKeeps.ite (OutKeeps.stay s) (OutKeeps.next (Keeps.trans ?_ (preemptCores_keeps _ _ _)))
  exact Keeps.same rfl rfl rfl

theorem execSelfTestResult_keeps (core : Nat) (pass : Bool) : OutKeeps s (execSelfTestResult core pass s) := by
  delta execSelfTestResult
  refine OutKeeps.ite (OutKeeps.stay s) ?_
  extract_lets t
  have ht : Keeps s t := Keeps.same rfl rfl rfl
  refine OutKeeps.next ?_
  split
  · exact ht
  · exact ht.trans (fenceCore_keeps _ _)

theorem execInFieldTest_keeps (cluster : Nat) : OutKeeps s (execInFieldTest cluster s) := by
  delta execInFieldTest
  extract_lets cores due t
  exact OutKeeps.ite (OutKeeps.stay s) (OutKeeps.next (Keeps.trans (Keeps.same rfl rfl rfl : Keeps s t) (preemptCores_keeps _ _ _)))

theorem execInFieldTestEnd_keeps (cluster : Nat) (pass : Bool) : OutKeeps s (execInFieldTestEnd cluster pass s) := by
  delta execInFieldTestEnd
  extract_lets cores t
  have ht : Keeps s t := Keeps.same rfl rfl rfl
  refine OutKeeps.ite (OutKeeps.stay s) (OutKeeps.next ?_)
  split
  · exact ht
  · exact ht.trans (Keeps.foldl (fun _ _ => fenceCore_keeps _ _) _ _)

theorem execAudit_keeps (l tile core : Nat) : OutKeeps s (execAudit l tile core s) := by
  delta execAudit
  split
  · refine OutKeeps.ite (OutKeeps.stay s) (OutKeeps.next (Keeps.trans ?_ (startBlock_keeps _ _ _ _ _ _ _ _)))
    exact Keeps.same rfl rfl rfl
  · exact OutKeeps.stay s

theorem execAuditCompare_keeps (a : Nat) : OutKeeps s (execAuditCompare a s) := by
  delta execAuditCompare
  split
  · exact OutKeeps.stay s
  · refine OutKeeps.ite (OutKeeps.stay s) (OutKeeps.ite (OutKeeps.same rfl rfl rfl) (OutKeeps.next ?_))
    refine Keeps.trans ?_ ((coreErr_keeps _ _ _ _ _ _ _).trans (coreErr_keeps _ _ _ _ _ _ _))
    exact Keeps.same rfl rfl rfl

/-! ### Dies and the package -/

theorem execPowerGood_keeps (d : Nat) : OutKeeps s (execPowerGood d s) := onDie_keeps d fun D => by
  split
  · exact modDie_keeps _ _ _
  · exact Keeps.refl s

theorem execHitch_keeps (d : Nat) : OutKeeps s (execHitch d s) := onDie_keeps d fun D => by
  split
  · exact Keeps.refl s
  · split
    · exact modDie_keeps _ _ _
    · exact (clearDie_keeps _ _).trans (modDie_keeps _ _ _)

theorem execWakeRequest_keeps (d : Nat) : OutKeeps s (execWakeRequest d s) := onDie_keeps d fun D => by
  split
  · exact modDie_keeps _ _ _
  · exact Keeps.refl s

theorem execGateRequest_keeps (d : Nat) : OutKeeps s (execGateRequest d s) := onDie_keeps d fun D => by
  split
  · exact startDrain_keeps _ _ _
  · exact Keeps.refl s

theorem execResetRequest_keeps (d : Nat) : OutKeeps s (execResetRequest d s) := onDie_keeps d fun D => by
  split
  · exact startDrain_keeps _ _ _
  · exact Keeps.refl s

theorem execGateHoldTimeout_keeps (d : Nat) : OutKeeps s (execGateHoldTimeout d s) := onDie_keeps d fun D => by
  split
  · split
    · exact modDie_keeps _ _ _
    · exact Keeps.refl s
  · exact Keeps.refl s

theorem execDieDrainComplete_keeps (d : Nat) : OutKeeps s (execDieDrainComplete d s) := onDie_keeps d fun D => by
  split
  · exact Keeps.refl s
  · refine (clearDie_keeps s d).trans (Keeps.trans ?_ (modDie_keeps _ _ _))
    exact Keeps.same rfl rfl rfl

theorem execLinkLoss_keeps (d : Nat) : OutKeeps s (execLinkLoss d s) := onDie_keeps d fun D => by
  split
  · exact (logErr_keeps _ _ _ _ _ _ _).trans (fenceDie_keeps _ _)
  · exact Keeps.refl s

theorem execThermalThrottle_keeps (d : Nat) (temp : BitVec 8) : OutKeeps s (execThermalThrottle d temp s) := onDie_keeps d fun D => by
  dsimp only
  split
  · exact (logErr_keeps _ _ _ _ _ _ _).trans (modDie_keeps _ _ _)
  · exact modDie_keeps _ _ _

theorem execThermalTrip_keeps (d : Nat) (temp : BitVec 8) : OutKeeps s (execThermalTrip d temp s) := onDie_keeps d fun D => by
  dsimp only
  split
  · exact modDie_keeps _ _ _
  · exact Keeps.same rfl rfl rfl

theorem execPackageReset_keeps : OutKeeps s (execPackageReset s) :=
  OutKeeps.next ⟨memWf_filter _, fun _ => List.Pairwise.nil, fun _ => List.Pairwise.nil⟩

/-! ### The module, the time base and the secure session -/

theorem execFirmwareLoad_keeps (image : FwImage) : OutKeeps s (execFirmwareLoad image s) := OutKeeps.ite (OutKeeps.same rfl rfl rfl) (OutKeeps.stay s)

theorem execKeyRollover_keeps (way : IdeWay) : OutKeeps s (execKeyRollover way s) :=
  OutKeeps.ite (OutKeeps.stay s) (OutKeeps.next (setIde_keeps _ _ _ _))

theorem execMarkerAck_keeps (way : IdeWay) : OutKeeps s (execMarkerAck way s) :=
  OutKeeps.ite (OutKeeps.stay s) (OutKeeps.next (setIde_keeps _ _ _ _))

theorem execReplayRequest_keeps (flit : IdeFlit) : OutKeeps s (execReplayRequest flit s) :=
  OutKeeps.ite (OutKeeps.stay s) (OutKeeps.next (setIde_keeps _ _ _ _))

theorem execTimeSourceSelect_keeps (src : BitVec 2) : OutKeeps s (execTimeSourceSelect src s) := OutKeeps.ite (OutKeeps.stay s) (OutKeeps.same rfl rfl rfl)

theorem execTimeMeasurement_keeps (offset : BitVec 32) : OutKeeps s (execTimeMeasurement offset s) :=
  OutKeeps.ite (OutKeeps.stay s) (OutKeeps.same rfl rfl rfl)

theorem execGetCapabilities_keeps : OutKeeps s (execGetCapabilities s) := OutKeeps.ite (OutKeeps.same rfl rfl rfl) (OutKeeps.stay s)

theorem execNegotiateAlgorithms_keeps (ed25519 sha512 : Bool) : OutKeeps s (execNegotiateAlgorithms ed25519 sha512 s) :=
  OutKeeps.ite (OutKeeps.same rfl rfl rfl) (OutKeeps.stay s)

theorem execKeyExchange_keeps (slot : Nat) : OutKeeps s (execKeyExchange slot s) := OutKeeps.ite (OutKeeps.same rfl rfl rfl) (OutKeeps.stay s)

/-- A request of the secure session that is answered only where `b` allows it. -/
theorem spdmAnswer_ite_keeps (b : Bool) (which : Nat) : OutKeeps s (.next (if b then spdmAnswer s which else s)) := by
  refine OutKeeps.next ?_
  split
  · exact spdmAnswer_keeps _ _
  · exact Keeps.refl s

end

end Sys2Proof.Proofs
end

section
/-!
PROOFS. Every step keeps the canonical form of memory and the order of groups and packets.
-/

namespace Sys2Proof.Proofs
open Sys2Proof Sys2Proof.Machine Sys2Proof.Claims

/-- What is no instruction of a stream and no packet is a command or an event, and keeps the canonical forms. -/
theorem exec_event_keeps (s : State) {i : Instr} (h : (isScalar i || isLane i || isPacket i) = false) : OutKeeps s (exec i s) := by
  cases i
  case retry | faultTrap => exact OutKeeps.next (answerFault_keeps _ _ _ _)
  case rejectedAccessRetry | translationMissRetry => exact OutKeeps.stay s
  case rdS | rdX | upg | wb | evC | invAck | fwdData | data | grant | inv | fwdS | fwdX | wbAck => exact OutKeeps.next (girthEvent_keeps _ _ _ _)
  case getDigests | getCertificate | challenge | getMeasurements => exact spdmAnswer_ite_keeps _ _
  case enable | disable | storageWindowWithdraw => exact OutKeeps.next (modCtx_keeps _ _ _)
  case slackClassRecompute | queueUnbind | hostSnoop | peerLinkDown | peerNumberSet | powerWindow | errpendClear | getVersion | finish =>
    exact OutKeeps.same rfl rfl rfl
  case teardown => exact OutKeeps.next (teardown_keeps _ _)
  case drainBudgetExpire => exact OutKeeps.next (budgetUp_keeps _ _)
  case correctedError => exact OutKeeps.next (logErr_keeps _ _ _ _ _ _ _)
  case compensationBudgetExpire => exact OutKeeps.quiet (compUp_quiet _ _)
  case ideIntegrityFailure => exact OutKeeps.next (Keeps.foldl (fun _ _ => ideStop_keeps _ _) _ _)
  case holdover => exact OutKeeps.next (holdoverUp_keeps _)
  case hitchTimeout => exact onDie_keeps _ fun _ => hitchUp_keeps _ _ _
  case fatal => exact execFatal_keeps _ _
  case resume => exact execResume_keeps _ _
  case quotaSet => exact execQuotaSet_keeps _ _
  case queuePairDeleted => exact execQueuePairDeleted_keeps _ _
  case packageReset => exact execPackageReset_keeps
  case wakeRequest => exact execWakeRequest_keeps _
  case powerGood => exact execPowerGood_keeps _
  case hitch => exact execHitch_keeps _
  case gateRequest => exact execGateRequest_keeps _
  case resetRequest => exact execResetRequest_keeps _
  case gateHoldTimeout => exact execGateHoldTimeout_keeps _
  case dieDrainComplete => exact execDieDrainComplete_keeps _
  case linkLoss => exact execLinkLoss_keeps _
  case thermalThrottle => exact execThermalThrottle_keeps _ _
  case thermalTrip => exact execThermalTrip_keeps _ _
  case stop => exact execStop_keeps _ _
  case read => exact execRead_keeps _ _ _
  case write => exact execWrite_keeps _ _ _ _
  case groupStart => exact execGroupStart_keeps _
  case groupExitComplete => exact execGroupExitComplete_keeps _
  case loadComplete => exact execLoadComplete_keeps _ _ _
  case storeAck => exact execStoreAck_keeps _ _
  case tileOpRetire => exact execTileOpRetire_keeps _
  case copyComplete => exact execCopyComplete_keeps _
  case nvmeCompletion => exact execNvmeCompletion_keeps _ _
  case fullEmptyWaitDone => exact execFullEmptyWaitDone_keeps _ _ _
  case queueBlockTimeout => exact execQueueBlockTimeout_keeps _ _
  case probeToken => exact execProbeToken_keeps _ _
  case syieldWindowExpiry => exact execSyieldWindowExpiry_keeps _
  case ageingFloor => exact execAgeingFloor_keeps _ _
  case overlayLoadEnd => exact execOverlayLoadEnd_keeps _ _ _
  case dispenserRequest => exact execDispenserRequest_keeps _
  case blockStart => exact execBlockStart_keeps _
  case wrapTime => exact execWrapTime_keeps _
  case deadline => exact execDeadline_keeps _
  case sectionOverrun => exact execSectionOverrun_keeps _
  case launchComplete => exact execLaunchComplete_keeps _
  case launchReplay => exact execLaunchReplay_keeps _
  case copyPacketComplete => exact execCopyPacketComplete_keeps _
  case waitWordSatisfied => exact execWaitWordSatisfied_keeps _
  case waitWordTimeout => exact execWaitWordTimeout_keeps _
  case rangeCommitComplete => exact execRangeCommitComplete_keeps _
  case completionRoom => exact execCompletionRoom_keeps _
  case msixCoalesceTimeout => exact execMsixCoalesceTimeout_keeps _
  case msixRateDelay => exact execMsixRateDelay_keeps _
  case ostlerWatchdog => exact execOstlerWatchdog_keeps
  case queueBind => exact execQueueBind_keeps _ _ _
  case storageWindowRegister => exact execStorageWindowRegister_keeps _ _ _
  case contextCreate => exact execContextCreate_keeps _ _
  case contextFlagsWrite => exact execContextFlagsWrite_keeps _ _
  case contextRelease => exact execContextRelease_keeps _
  case groupStopped => exact execGroupStopped_keeps _
  case preempt => exact execPreempt_keeps _ _
  case saveRecordWrite => exact execSaveRecordWrite_keeps _
  case restore => exact execRestore_keeps _ _
  case uncorrectableError => exact execUncorrectableError_keeps _ _
  case selfTest => exact execSelfTest_keeps _
  case selfTestResult => exact execSelfTestResult_keeps _ _
  case inFieldTest => exact execInFieldTest_keeps _
  case inFieldTestEnd => exact execInFieldTestEnd_keeps _ _
  case audit => exact execAudit_keeps _ _ _
  case auditCompare => exact execAuditCompare_keeps _
  case compensationStart => exact execCompensationStart_keeps _ _
  case backInvalidate => exact execBackInvalidate_keeps _
  case backInvalidateResponse => exact execBackInvalidateResponse_keeps _
  case hostAccess => exact execHostAccess_keeps _ _
  case peerAccess => exact execPeerAccess_keeps _ _
  case firmwareLoad => exact execFirmwareLoad_keeps _
  case keyRollover => exact execKeyRollover_keeps _
  case markerAck => exact execMarkerAck_keeps _
  case timeSourceSelect => exact execTimeSourceSelect_keeps _
  case timeMeasurement => exact execTimeMeasurement_keeps _
  case getCapabilities => exact execGetCapabilities_keeps
  case negotiateAlgorithms => exact execNegotiateAlgorithms_keeps _ _
  case keyExchange => exact execKeyExchange_keeps _
  case registerWrite => exact execRegisterWrite_keeps _
  case copyBytesDelivered => exact execCopyBytesDelivered_keeps _ _
  case replayRequest => exact execReplayRequest_keeps _
  all_goals exact absurd h.symm Bool.false_ne_true

/-- Whatever runs keeps the canonical forms. -/
theorem exec_keeps (s : State) (i : Instr) : OutKeeps s (exec i s) := by
  by_cases hs : isScalar i = true
  · exact exec_scalar_keeps s hs
  by_cases hl : isLane i = true
  · exact exec_lane_keeps s hl
  by_cases hp : isPacket i = true
  · exact exec_packet_keeps s hp
  · exact exec_event_keeps s (by simp [hs, hl, hp])

/-! ### Turns and steps -/

theorem scalarTurn_keeps (s : State) (g : Nat) : OutKeeps s (scalarTurn s g) := by
  unfold scalarTurn
  split
  · exact OutKeeps.stay s
  · refine OutKeeps.ite (OutKeeps.stay s) (OutKeeps.ite (OutKeeps.quiet (divertNow_quiet _ _)) ?_)
    split
    · exact OutKeeps.trans (Keeps.quiet (tookTurn_quiet _ _ _)) (exec_keeps _ _)
    · exact OutKeeps.trapS _ _ _ _ _

theorem laneTurn_keeps (s : State) (g n : Nat) : OutKeeps s (laneTurn s g n) := by
  unfold laneTurn
  split
  · exact OutKeeps.stay s
  · refine OutKeeps.ite (OutKeeps.stay s) (OutKeeps.ite (OutKeeps.quiet (divertNow_quiet _ _)) ?_)
    split
    · exact OutKeeps.trans (Keeps.quiet (tookTurn_quiet _ _ _)) (exec_keeps _ _)
    · exact OutKeeps.next (Keeps.quiet (trapL_quiet _ _ _ _ _ _ _))

theorem ostlerTurn_keeps (s : State) : OutKeeps s (ostlerTurn s) := by
  unfold ostlerTurn
  refine OutKeeps.ite (OutKeeps.next (formBatch_keeps _)) ?_
  split
  · exact OutKeeps.next (refuseHead_keeps _)
  · split
    · exact exec_keeps _ _
    · exact OutKeeps.next (refuseHead_keeps _)

theorem eventTurn_keeps (s : State) (e : Instr) : OutKeeps s (eventTurn s e) := by
  unfold eventTurn
  split
  · exact OutKeeps.stay s
  · exact exec_keeps _ _

theorem runTurn_keeps (s : State) : OutKeeps s (runTurn s) := by
  unfold runTurn
  refine OutKeeps.ite (OutKeeps.ite (exec_keeps _ _) (OutKeeps.stay s)) ?_
  cases s.turn with
  | idle => exact OutKeeps.stay s
  | scalar g => exact scalarTurn_keeps s g
  | lane g n => exact laneTurn_keeps s g n
  | ostler => exact ostlerTurn_keeps s
  | rangeSwitch die ctx => exact OutKeeps.next (rangeSwitch_keeps _ _ _)
  | overlayRead copy word => exact OutKeeps.next (readOverlayWord_keeps _ _ _)
  | tileLanes op lanes => exact OutKeeps.next (tileLanes_keeps _ _ _)
  | storePerform op lanes => exact OutKeeps.next (storePerform_keeps _ _ _)
  | home die ev cluster line => exact OutKeeps.next (homeEvent_keeps _ _ _ _ _)
  | l1 core line act => exact OutKeeps.next (l1Event_keeps _ _ _ _)
  | queueBlocks q down => exact OutKeeps.next (queueBlocks_keeps _ _ _)
  | queueMoves q => exact OutKeeps.next (queueMoves_keeps _ _)
  | ideFree stream rx => exact OutKeeps.next (ideFree_keeps _ _ _)
  | ideBad stream => exact OutKeeps.next (ideBad_keeps _ _)
  | ppsEdge => exact OutKeeps.next (ppsEdge_keeps _)
  | hbmTrained => exact OutKeeps.next (hbmTrained_keeps _)
  | hostTrained width speed => exact OutKeeps.next (hostTrained_keeps _ _ _)
  | event e => exact eventTurn_keeps s e

/-- A step keeps the canonical form of memory and the order of groups and packets. -/
theorem step_keeps {s t : State} (h : step s = .next t) : Keeps s t := by
  have hrun := runTurn_keeps s
  unfold step at h
  cases hr : runTurn s with
  | fault f => rw [hr] at h; exact nomatch h
  | refused r => rw [hr] at h; exact nomatch h
  | next u =>
    rw [hr] at h
    obtain rfl := Host.Outcome.next.inj h
    exact (hrun u hr).trans ((settle_keeps _).trans ((advance_keeps _).trans ((timeUp_keeps _).trans (markReady_keeps _))))

/-- A map is in order exactly when its keys rise. -/
theorem sorted_iff_rising {β : Type} (m : SMap β) : Sorted m ↔ Rising m := List.pairwise_map

/-- Settles O58: a step changes the groups and the packets only in ways that keep their keys rising, whatever runs in it. -/
theorem mapsStaySorted : Obligations.MapsStaySorted := by
  intro s t hs hst
  have hk := step_keeps hst
  rw [sorted_iff_rising, sorted_iff_rising] at hs ⊢
  exact ⟨hk.groups hs.1, hk.pkts hs.2⟩

end Sys2Proof.Proofs
end

section
/-!
PROOFS. Streams that may not issue leave the state to the passing of time (R69, R93, R171, R279, R303, R341, R387).
-/

namespace Sys2Proof.Proofs
open Sys2Proof Sys2Proof.Machine Sys2Proof.Claims

section
variable {s : State} {g : Nat} {G : Group}

/-! ### When a stream may issue (R69, R71, R171, R279, R332, R341) -/

theorem stalled_of_live {str : Stream} {n k : Nat} {ops : List Nat} (hst : G.stall = some (n, ops)) (hn : str ≠ .split n) (hk : k ∈ ops)
    (hop : mget s.ops k ≠ none) : stalled s G str = true := by
  have hlive : k ∈ live s ops := List.mem_filter.2 ⟨hk, Option.isSome_iff_ne_none.2 hop⟩
  simp [stalled, hst, hn, List.ne_nil_of_mem hlive]

theorem hitched_of_hosted (h : hosted s G = true) : (s.die (G.core / 16)).st = .hitched := by
  rw [hosted, Bool.and_eq_true] at h
  exact eq_of_beq h.2

theorem scalarMay_iff : scalarMay s G = true ↔
    G.st = .running ∧ hosted s G = true ∧ G.stopWanted = false ∧ (∀ h ∈ G.holds, h.str ≠ .scalar) ∧ stalled s G .scalar = false := by
  simp [scalarMay, and_assoc]

theorem laneMay_iff {n : Nat} : laneMay s G n = true ↔
    (G.st = .running ∨ G.st = .exiting) ∧ hosted s G = true ∧ G.stopWanted = false ∧ G.trapMode = none ∧ (mget G.splits n).isSome = true ∧
      (∀ h ∈ G.holds, h.str ≠ .split n) ∧ stalled s G (.split n) = false := by
  simp [laneMay, and_assoc]

theorem divertReady_of_scalarMay (hm : scalarMay s G = true) (hd : G.divertDue = true) (hs : G.sect = none) (hw : G.wait ≠ .abandoned) :
    divertReady G = true := by
  simp [divertReady, hd, hs, hw, (scalarMay_iff.1 hm).1]

/-! ### Turns that issue nothing (R93, R387) -/

theorem scalarTurn_of_idle (hg : mget s.groups g = some G) (h : scalarMay s G = false ∨ picked s g G .scalar = false) : scalarTurn s g = .next s := by
  rcases h with h | h <;> simp [scalarTurn, hg, h]

theorem laneTurn_of_idle {n : Nat} (hg : mget s.groups g = some G) (h : laneMay s G n = false ∨ picked s g G (.split n) = false) :
    laneTurn s g n = .next s := by
  rcases h with h | h <;> simp [laneTurn, hg, h]

theorem scalarTurn_of_divert (hg : mget s.groups g = some G) (hm : scalarMay s G = true) (hp : picked s g G .scalar = true) (hd : divertReady G = true) :
    scalarTurn s g = .next (divertNow s g) := by
  simp [scalarTurn, hg, hm, hp, hd]

theorem runTurn_of_tripped (ht : s.modl.tripped = true) (hr : s.turn ≠ .event .packageReset) : runTurn s = .next s := by
  simp [runTurn, ht, hr]

end

/-- Settles O55: a turn of a stream that may not issue, or is not picked, and of a package that has tripped, leaves the state as it is. -/
theorem streamsThatMayNotIssue : Obligations.StreamsThatMayNotIssue := by
  intro s
  refine ⟨fun g G hup ht hg => ⟨fun h => ?_, fun h => ?_, fun hm hp hd hs hw => ?_⟩, fun g n G hup ht hg => ⟨fun h => ?_, fun h => ?_⟩, fun ht hr => ?_⟩
  · exact step_of_runTurn ((runTurn_scalar hup ht).trans (scalarTurn_of_idle hg h))
  · refine Bool.eq_false_iff.2 fun hm => ?_
    obtain ⟨hrun, hhost, hstop, hhold, hstall⟩ := scalarMay_iff.1 hm
    rcases h with h | h | ⟨x, hx, h⟩ | h | ⟨n, ops, h, k, hk, hop⟩
    · exact h hrun
    · simp [hstop] at h
    · exact hhold x hx h
    · exact h (hitched_of_hosted hhost)
    · simp [stalled_of_live h (str := .scalar) (by simp) hk hop] at hstall
  · exact step_of_runTurn ((runTurn_scalar hup ht).trans (scalarTurn_of_divert hg hm hp (divertReady_of_scalarMay hm hd hs hw)))
  · exact step_of_runTurn ((runTurn_lane hup ht).trans (laneTurn_of_idle hg h))
  · refine Bool.eq_false_iff.2 fun hm => ?_
    obtain ⟨hrun, -, hstop, htrap, -, hhold, -⟩ := laneMay_iff.1 hm
    rcases h with h | ⟨h, h'⟩ | h | ⟨x, hx, h⟩
    · exact h htrap
    · exact hrun.elim h h'
    · simp [hstop] at h
    · exact hhold x hx h
  · exact step_of_runTurn (runTurn_of_tripped ht hr)

end Sys2Proof.Proofs
end

section
/-!
PROOFS. What the ends of phases and the return of drain units leave of a group: all but its memberships, and no new one (R202, R207).
-/

namespace Sys2Proof.Proofs
open Sys2Proof Sys2Proof.Machine Sys2Proof.Claims

/-- Memory and turn stay, and each group becomes one that is `R` to it. -/
structure Tracks (R : Group → Group → Prop) (s t : State) : Prop where
  mem : t.mem = s.mem
  turn : t.turn = s.turn
  groups : ∀ g G, mget s.groups g = some G → ∃ G', mget t.groups g = some G' ∧ R G G'

/-- Only the memberships differ, and none is new. -/
def MembOnly (G G' : Group) : Prop := G' = { G with memb := G'.memb } ∧ ∀ k, mget G.memb k = none → mget G'.memb k = none

/-- State and handles are the same, and no membership is new. -/
def EndKept (G G' : Group) : Prop := G'.st = G.st ∧ G'.hreg = G.hreg ∧ ∀ k, mget G.memb k = none → mget G'.memb k = none

theorem membOnly_refl : ∀ G, MembOnly G G := fun _ => ⟨rfl, fun _ => id⟩

theorem membOnly_trans : ∀ ⦃G H K⦄, MembOnly G H → MembOnly H K → MembOnly G K := fun _ _ _ h h' => ⟨by rw [h'.1, h.1], fun k hk => h'.2 k (h.2 k hk)⟩

theorem endKept_refl : ∀ G, EndKept G G := fun _ => ⟨rfl, rfl, fun _ => id⟩

theorem endKept_trans : ∀ ⦃G H K⦄, EndKept G H → EndKept H K → EndKept G K := fun _ _ _ h h' => ⟨h'.1.trans h.1, h'.2.1.trans h.2.1, fun k hk => h'.2.2 k (h.2.2 k hk)⟩

theorem MembOnly.endKept {G H : Group} (h : MembOnly G H) : EndKept G H := ⟨by rw [h.1], by rw [h.1], h.2⟩

theorem membOnly_mupd (G : Group) (k : Nat) (f : Memb → Memb) : MembOnly G { G with memb := mupd G.memb k f } := by
  refine ⟨rfl, fun j hj => ?_⟩
  rw [mget_mupd]
  split
  · next h => rw [← h, hj]; rfl
  · exact hj

theorem membOnly_mdel (G : Group) (k : Nat) : MembOnly G { G with memb := mdel G.memb k } := by
  refine ⟨rfl, fun j hj => ?_⟩
  rw [mget_mdel]
  split
  · rfl
  · exact hj

section
variable {R : Group → Group → Prop}

theorem Tracks.trans (hR : ∀ ⦃G H K⦄, R G H → R H K → R G K) {s t u : State} (h : Tracks R s t) (h' : Tracks R t u) : Tracks R s u where
  mem := h'.mem.trans h.mem
  turn := h'.turn.trans h.turn
  groups g G hg := by
    obtain ⟨H, hH, hGH⟩ := h.groups g G hg
    obtain ⟨K, hK, hHK⟩ := h'.groups g H hH
    exact ⟨K, hK, hR hGH hHK⟩

theorem Tracks.mono {Q : Group → Group → Prop} (hQ : ∀ {G H}, R G H → Q G H) {s t : State} (h : Tracks R s t) : Tracks Q s t where
  mem := h.mem
  turn := h.turn
  groups g G hg := by
    obtain ⟨H, hH, hGH⟩ := h.groups g G hg
    exact ⟨H, hH, hQ hGH⟩

/-- The groups, memory and the turn are the same. -/
theorem Tracks.same (hR : ∀ G, R G G) {s t : State} (hm : t.mem = s.mem) (ht : t.turn = s.turn) (hg : t.groups = s.groups) : Tracks R s t :=
  ⟨hm, ht, fun _ G h => ⟨G, hg ▸ h, hR G⟩⟩

theorem Tracks.modGrp (hR : ∀ G, R G G) (s : State) (g : Nat) {f : Group → Group} (h : ∀ G, R G (f G)) : Tracks R s (s.modGrp g f) := by
  refine ⟨rfl, rfl, fun j G hj => ?_⟩
  rw [State.modGrp_groups, mget_mupd]
  split
  · next e => exact ⟨f G, by rw [← e, hj]; rfl, h G⟩
  · exact ⟨G, hj, hR G⟩

theorem Tracks.foldl (hR : ∀ G, R G G) (hT : ∀ ⦃G H K⦄, R G H → R H K → R G K) {α : Type} {f : State → α → State} (h : ∀ s a, Tracks R s (f s a))
    (l : List α) (s : State) : Tracks R s (l.foldl f s) := by
  induction l generalizing s with
  | nil => exact Tracks.same hR rfl rfl rfl
  | cons a l ih => exact Tracks.trans hT (h s a) (ih _)

end

/-- What leaves all of each group but its memberships. -/
abbrev TracksMemb (s t : State) : Prop := Tracks MembOnly s t

theorem TracksMemb.refl (s : State) : TracksMemb s s := Tracks.same membOnly_refl rfl rfl rfl

theorem TracksMemb.same {s t : State} (hm : t.mem = s.mem) (ht : t.turn = s.turn) (hg : t.groups = s.groups) : TracksMemb s t :=
  Tracks.same membOnly_refl hm ht hg

theorem TracksMemb.trans {s t u : State} (h : TracksMemb s t) (h' : TracksMemb t u) : TracksMemb s u := Tracks.trans membOnly_trans h h'

theorem TracksMemb.foldl {α : Type} {f : State → α → State} (h : ∀ s a, TracksMemb s (f s a)) (l : List α) (s : State) : TracksMemb s (l.foldl f s) :=
  Tracks.foldl membOnly_refl membOnly_trans h l s

theorem setPh_tracks (s : State) (b k : Nat) (p : Phaser) : TracksMemb s (s.setPh b k p) := by
  unfold State.setPh
  split
  · exact TracksMemb.refl s
  · split <;> exact TracksMemb.same rfl rfl rfl

theorem endPhase_tracks (s : State) (b k : Nat) (p : Phaser) : TracksMemb s (endPhase s b k p) := by
  unfold endPhase
  extract_lets old catchUp p' t gs u
  have ht : TracksMemb s t := setPh_tracks _ _ _ _
  have hu : TracksMemb t u :=
    TracksMemb.foldl (fun s _ => Tracks.modGrp membOnly_refl s _ fun G => membOnly_mupd G k catchUp) _ _
  split
  · exact ht
  · split
    · exact ht.trans hu
    · exact (ht.trans hu).trans (TracksMemb.same rfl rfl rfl)

theorem settlePh_tracks (s : State) (b k : Nat) : TracksMemb s (settlePh s b k) := by
  unfold settlePh
  split
  · exact TracksMemb.refl s
  · extract_lets p
    split
    · exact endPhase_tracks _ _ _ _
    · exact TracksMemb.refl s

theorem rootAdd_tracks (s : State) (l ph : Nat) (phase : BitVec 32) (n : Nat) (e : Earlier) : TracksMemb s (rootAdd s l ph phase n e) := by
  unfold rootAdd
  split
  · exact TracksMemb.refl s
  · extract_lets p p1 p2 t
    have ht : TracksMemb s t := TracksMemb.same rfl rfl rfl
    split
    · exact ht.trans (settlePh_tracks _ _ _)
    · exact ht

theorem settleRuns_tracks (s : State) : TracksMemb s (settleRuns s) := by
  unfold settleRuns
  split
  · exact TracksMemb.refl s
  · refine TracksMemb.trans ?_ (TracksMemb.foldl (fun _ (u : RunUnit) => rootAdd_tracks _ u.launch u.ph u.phase 1 { ops := u.ran }) _ _)
    exact TracksMemb.same rfl rfl rfl

/-- After the units of runs have gone home a group is what it was, but for its memberships. -/
theorem settleRuns_put (s : State) (g : Nat) (G : Group) :
    ∃ G', mget (settleRuns { s with groups := mput s.groups g G }).groups g = some G' ∧ G' = { G with memb := G'.memb } ∧
      (settleRuns { s with groups := mput s.groups g G }).mem = s.mem := by
  have h := settleRuns_tracks { s with groups := mput s.groups g G }
  obtain ⟨G', hG', hm, -⟩ := h.groups g G (mget_mput_same _ _ _)
  exact ⟨G', hG', hm, h.mem⟩

theorem leavePh_tracks (s : State) (g k : Nat) : TracksMemb s (leavePh s g k) := by
  unfold leavePh
  split
  · exact TracksMemb.refl s
  · next G hg =>
    split
    · exact TracksMemb.refl s
    · extract_lets t u
      have ht : TracksMemb s t := by
        refine ⟨rfl, rfl, fun j H hj => ?_⟩
        rw [State.grp_groups, mget_mput]
        split
        · next e => exact ⟨_, rfl, by rw [e, hg] at hj; exact Option.some.inj hj ▸ membOnly_mdel G k⟩
        · exact ⟨H, hj, membOnly_refl H⟩
      have hu : TracksMemb t u := by
        unfold u; split
        · split
          · exact rootAdd_tracks _ _ _ _ _ _
          · exact TracksMemb.refl t
        · exact TracksMemb.refl t
      split
      · exact (ht.trans hu).trans (settlePh_tracks _ _ _)
      · exact ht.trans hu

/-- A group that leaves a phaser is no member of it. -/
theorem leavePh_left {s : State} {g k : Nat} {G : Group} (hg : mget s.groups g = some G) :
    ∃ G', mget (leavePh s g k).groups g = some G' ∧ mget G'.memb k = none := by
  unfold leavePh
  split
  · next h => exact nomatch hg.symm.trans h
  next G' hg' =>
  obtain rfl : G' = G := Option.some.inj (hg'.symm.trans hg)
  split
  · next hk => exact ⟨G', hg, hk⟩
  · extract_lets t u
    have hu : TracksMemb t u := by
      unfold u; split
      · split
        · exact rootAdd_tracks _ _ _ _ _ _
        · exact TracksMemb.refl t
      · exact TracksMemb.refl t
    obtain ⟨H, hH, -, hnone⟩ := hu.groups g { G' with memb := mdel G'.memb k } (mget_mput_same _ _ _)
    have hk : mget H.memb k = none := hnone k (by simp [mget_mdel])
    split
    · obtain ⟨K, hK, -, hnone'⟩ := (settlePh_tracks u G'.blk 0).groups g H hH
      exact ⟨K, hK, hnone' k hk⟩
    · exact ⟨H, hH, hk⟩

/-- A group that leaves every phaser of a list is a member of none of them. -/
theorem foldl_leavePh_left {g : Nat} (ks : List Nat) {s : State} {G : Group} (hg : mget s.groups g = some G) :
    ∃ G', mget (ks.foldl (fun s k => leavePh s g k) s).groups g = some G' ∧ ∀ k ∈ ks, mget G'.memb k = none := by
  induction ks generalizing s G with
  | nil => exact ⟨G, hg, by simp⟩
  | cons k ks ih =>
    obtain ⟨H, hH, hk⟩ := leavePh_left (k := k) hg
    obtain ⟨K, hK, hks⟩ := ih hH
    have ht : TracksMemb (leavePh s g k) (ks.foldl (fun s k => leavePh s g k) (leavePh s g k)) :=
      TracksMemb.foldl (fun s k => leavePh_tracks s g k) _ _
    obtain ⟨K', hK', -, hnone⟩ := ht.groups g H hH
    obtain rfl : K' = K := Option.some.inj (hK'.symm.trans hK)
    exact ⟨K', hK, fun j hj => (List.mem_cons.1 hj).elim (fun e => e ▸ hnone k hk) (hks j)⟩

end Sys2Proof.Proofs
end

section
/-!
PROOFS. What else steers the scalar stream or reads a clock: exit, yield, progress, votes, waits, time (R71, R76, R78, R93, R114 to R116, R297).
-/

namespace Sys2Proof.Proofs
open Sys2Proof Sys2Proof.Machine Sys2Proof.Claims

section
variable {s : State} {g : Nat} {G : Group}

/-- A scalar instruction that is run with the group. -/
theorem exec_of_withScalar (hs : Scalar s g G) {i : Instr} {k : Nat → Group → Out} (hi : exec i s = withScalar s k) : exec i s = k g G :=
  hi.trans (withScalar_of hs.1 hs.2 k)

theorem guardOk_of_holds {gd : CReg} (h : Holds G gd) : guardOk G gd = true := (guardOk_eq_true_iff G gd).2 h

theorem guardOk_of_not_holds {gd : CReg} (h : ¬ Holds G gd) : guardOk G gd = false := Bool.eq_false_iff.2 (mt (guardOk_eq_true_iff G gd).1 h)

/-! ### The end of a group (R71) -/

theorem mget_eq_none_of_not_mem {β : Type} {m : SMap β} {k : Nat} (h : k ∉ mkeys m) : mget m k = none := by
  induction m with
  | nil => rfl
  | cons p m ih =>
    rw [mkeys, List.map_cons, List.mem_cons, not_or] at h
    rw [mget, if_neg h.1]
    exact ih h.2

theorem atMost_iff {ld st cp tl : BitVec 6} :
    G.atMost ld st cp tl = true ↔ G.cld ≤ ld.toNat ∧ G.cst ≤ st.toNat ∧ G.ccp ≤ cp.toNat ∧ G.ctl ≤ tl.toNat := by
  simp [Group.atMost]

theorem exitReady_iff : exitReady G = true ↔
    G.runs = [] ∧ G.splits = [] ∧ (G.cld = 0 ∧ G.cst = 0 ∧ G.ccp = 0 ∧ G.ctl = 0) ∧ ∀ p ∈ G.hreg, p.2.st ≠ .pending := by
  simp [exitReady, atMost_iff, and_assoc]

/-- A tile that is done leaves the group's state, handles and memberships. -/
theorem tileDone_tracks (s : State) (g : Nat) (bar : Bool) : Tracks EndKept s (tileDone s g bar) := by
  unfold tileDone
  split
  · exact Tracks.same endKept_refl rfl rfl rfl
  · split
    · extract_lets t u v
      have hv : Tracks EndKept s v :=
        Tracks.trans endKept_trans (t := u) (Tracks.same endKept_refl rfl rfl rfl) (Tracks.modGrp endKept_refl u g fun G => ⟨rfl, rfl, fun _ => id⟩)
      split
      · exact Tracks.trans endKept_trans hv (Tracks.same endKept_refl rfl rfl rfl)
      · exact hv
    · exact Tracks.same endKept_refl rfl rfl rfl

theorem compFail_tracks (s : State) (act seq reason cause : Nat) (code : BitVec 16) : TracksMemb s (compFail s act seq reason cause code) := by
  unfold compFail
  split
  · exact TracksMemb.refl s
  · split
    · exact TracksMemb.refl s
    · exact TracksMemb.same rfl rfl rfl

theorem tryEndBlock_tracks (s : State) (b : Nat) : TracksMemb s (tryEndBlock s b) := by
  unfold tryEndBlock
  split
  · exact TracksMemb.refl s
  · next B hB =>
    extract_lets gs t u v w
    split
    · have ht : TracksMemb s t := by
        refine TracksMemb.foldl (fun s h => ?_) _ _
        split
        · exact rootAdd_tracks _ _ _ _ _ _
        · exact TracksMemb.refl s
      have hw : TracksMemb t w := TracksMemb.same rfl rfl rfl
      split
      · exact ht.trans hw
      · exact (ht.trans hw).trans (TracksMemb.same rfl rfl rfl)
    · exact TracksMemb.refl s

/-- A group that is EXITING and ready is EXITED, with no handle and no membership; memory stays. -/
theorem groupExitComplete_of_ready (hg : mget s.groups g = some G) (hst : G.st = .exiting) (hr : exitReady G = true) :
    ∃ t G', exec (.groupExitComplete g) s = .next t ∧ mget t.groups g = some G' ∧ G'.st = .exited ∧ G'.hreg = [] ∧
      (∀ k, mget G'.memb k = none) ∧ t.mem = s.mem := by
  have hexec : exec (.groupExitComplete g) s = execGroupExitComplete g s := rfl
  rw [hexec]
  delta execGroupExitComplete
  split
  · next h => exact nomatch hg.symm.trans h
  next G' hg' =>
  obtain rfl : G' = G := Option.some.inj (hg'.symm.trans hg)
  rw [if_neg (by simp [hst, hr])]
  extract_lets _ s1 s2 s3 s4 s5
  have h1 : mget s1.groups g = some { G'.emptyHandles with st := .exited, holds := [] } := mget_mput_same _ _ _
  have h12 : TracksMemb s1 s2 := TracksMemb.foldl (fun s k => leavePh_tracks s g k) _ _
  have h34 : TracksMemb s3 s4 := by
    unfold s4; split
    · split
      · exact TracksMemb.refl s3
      · exact compFail_tracks _ _ _ _ _ _
    · exact TracksMemb.refl s3
  have h45 : TracksMemb s4 s5 := by
    unfold s5; split
    · exact TracksMemb.same rfl rfl rfl
    · exact TracksMemb.refl s4
  have h2e : Tracks EndKept s2 (tryEndBlock s5 G'.blk) :=
    Tracks.trans endKept_trans (tileDone_tracks s2 g false) (((h34.trans h45).trans (tryEndBlock_tracks s5 G'.blk)).mono MembOnly.endKept)
  obtain ⟨H, hH, hleft⟩ := foldl_leavePh_left (mkeys G'.memb) h1
  obtain ⟨H', hH', hkept, hnew⟩ := h12.groups g _ h1
  obtain rfl : H' = H := Option.some.inj (hH'.symm.trans hH)
  obtain ⟨K, hK, hst, hreg, hnone⟩ := h2e.groups g H' hH'
  refine ⟨_, K, rfl, hK, hst.trans (by rw [hkept]), hreg.trans (by rw [hkept]; rfl), fun k => hnone k ?_, h2e.mem.trans h12.mem⟩
  by_cases hk : k ∈ mkeys G'.memb
  · exact hleft k hk
  · exact hnew k (mget_eq_none_of_not_mem hk)

/-- A group that is EXITING and not ready waits. -/
theorem groupExitComplete_of_not_ready (hg : mget s.groups g = some G) (hr : exitReady G ≠ true) : exec (.groupExitComplete g) s = .next s := by
  have hexec : exec (.groupExitComplete g) s = execGroupExitComplete g s := rfl
  rw [hexec, execGroupExitComplete, hg]
  simp [hr]

theorem groupExits : Claims.GroupExits := by
  refine ⟨fun s g G gd hs => ⟨fun h => ?_, fun h hw => ?_⟩, fun s g G hg hst => ⟨fun hr hsp hld hct hcp htl hh => ?_, fun h => ?_⟩⟩
  · rw [exec_of_withScalar hs (i := .sexit gd) rfl, if_pos]
    · rfl
    · simpa using h.symm.imp_right guardOk_of_holds
  · rw [Becomes, exec_of_withScalar hs (i := .sexit gd) rfl, if_neg]
    · rfl
    · simp [hw, guardOk_of_not_holds h]
  · exact groupExitComplete_of_ready hg hst (exitReady_iff.2 ⟨hr, hsp, ⟨hld, hct, hcp, htl⟩, hh⟩)
  · refine groupExitComplete_of_not_ready hg fun hr => ?_
    obtain ⟨hr, hsp, ⟨hld, hct, hcp, htl⟩, hh⟩ := exitReady_iff.1 hr
    rcases h with h | h | h | h | h | h | ⟨p, hp, h⟩
    · exact h hr
    · exact h hsp
    · omega
    · omega
    · omega
    · omega
    · exact hh p hp h

end

/-! ### Progress, votes, waits and clocks (R76, R78, R93, R114 to R116, R297) -/

theorem nopYieldProgress : Claims.NopYieldProgress := by
  intro s g G a gd B hs hB
  refine ⟨guarded_of_scalarStep hs rfl rfl, guarded_of_scalarStep hs rfl rfl, fun h hx => ?_, fun h hx => ?_, fun h => ?_⟩
  · rw [exec_of_withScalar hs (i := .sprog a gd) rfl, guardOk_of_holds h, if_neg (by simp), if_neg (by omega)]
    simp only [State.modBlk, State.grp_blocks, mupd, hB]
    rfl
  · rw [exec_of_withScalar hs (i := .sprog a gd) rfl, guardOk_of_holds h, if_neg (by simp), if_pos hx]
  · rw [Becomes, exec_of_withScalar hs (i := .sprog a gd) rfl, guardOk_of_not_holds h, if_pos (by rfl)]
    rfl

theorem votesAndWaits : Claims.VotesAndWaits := by
  intro s g G d q gd ld st cp tl hs
  refine ⟨fun ht => ⟨fun h => ?_, fun h => ?_⟩, fun h1 h2 h3 h4 => ?_, fun h => ?_, fun ht hr h => ?_, fun ht hr h => ?_, fun h => ?_,
    guarded_of_scalarStep hs rfl rfl⟩
  · rw [Becomes, exec_of_withScalar hs (i := .svote d q gd) rfl, guardOk_of_holds h, if_neg (by simp), if_neg (by simp [ht])]
    rfl
  · rw [Becomes, exec_of_withScalar hs (i := .svote d q gd) rfl, guardOk_of_not_holds h, if_pos (by rfl)]
    rfl
  · rw [Becomes, exec_of_withScalar hs (i := .swait ld st cp tl) rfl, if_pos (atMost_iff.2 ⟨h1, h2, h3, h4⟩)]
    rfl
  · rw [exec_of_withScalar hs (i := .swait ld st cp tl) rfl, if_neg (by rw [atMost_iff]; omega)]
  · rw [Becomes, exec_of_withScalar hs (i := .lwait gd) rfl, guardOk_of_holds h, if_neg (by simp), if_neg (by simp [ht]), if_neg (by simp [hr])]
    rfl
  · rw [exec_of_withScalar hs (i := .lwait gd) rfl, guardOk_of_holds h, if_neg (by simp), if_neg (by simp [ht]), if_pos (by simpa using hr)]
  · rw [Becomes, exec_of_withScalar hs (i := .lwait gd) rfl, guardOk_of_not_holds h, if_pos (by rfl)]
    rfl

theorem timeReads : Claims.TimeReads := by
  intro s die
  refine ⟨s.now + min (s.die die).tb 100 - 50, by omega, by omega, fun g G d gd hd hs => ?_⟩
  refine guarded_of_scalarStep (i := .stime d gd) (n := 1) hs rfl ?_
  have hdie : dieOf G.core = die := hd
  rw [← hdie]
  rfl

/-- Settles O4: each instruction is its guard and one update of its group; an exit ends with what the group's memberships hold going home. -/
theorem scalarStreamControl : Obligations.ScalarStreamControl := ⟨groupExits, nopYieldProgress, votesAndWaits, timeReads⟩

end Sys2Proof.Proofs
end

section
/-!
PROOFS. Queueing lane runs (R73, R74).
-/

namespace Sys2Proof.Proofs
open Sys2Proof Sys2Proof.Machine Sys2Proof.Claims

section
variable {s : State} {g : Nat} {G : Group}

theorem startRun_of_lanes {r : Run} {rs : List Run} (n : Nat) (hr : G.runs = r :: rs) (hl : G.laneact ≠ 0) :
    startRun (n + 1) G =
      { G with splits := [(0, { pc := r.off, mask := G.laneact, stack := [], ord := { r.ord with prior := G.laneRan } })], joins := [] } := by
  rw [startRun, hr]
  exact if_neg hl

theorem startRun_of_no_lanes {r : Run} (n : Nat) (hr : G.runs = [r]) (hl : G.laneact = 0) : startRun (n + 2) G = { G with runs := [] } := by
  rw [startRun, hr]
  refine (if_pos hl).trans ?_
  rw [startRun]

/-- The start of a run changes the queue, the splits and the joins of its group only. -/
theorem startRun_kept (n : Nat) (G : Group) : ∃ rs ss js, startRun n G = { G with runs := rs, splits := ss, joins := js } := by
  induction n generalizing G with
  | zero => exact ⟨_, _, _, rfl⟩
  | succ n ih =>
    rw [startRun]
    split
    · exact ⟨_, _, _, rfl⟩
    · split
      · obtain ⟨rs, ss, js, h⟩ := ih { G with runs := _ }
        exact ⟨rs, ss, js, h⟩
      · exact ⟨_, _, _, rfl⟩

/-- The run that is queued. -/
def newRun (s : State) (G : Group) (off : Nat) : Run :=
  { key := s.nextId, ov := G.ov, copy := G.copy, off := off, ord := { before := G.ord.earlier, fences := G.ord.fences, mine := G.ord.mine } }

/-- The group with the run queued: one that runs nothing starts it. -/
def withRun (s : State) (G : Group) (off : Nat) : Group :=
  let H : Group := { G with runs := G.runs ++ [newRun s G off] }
  (if G.splits.isEmpty then startRun Config.runQueueLen H else H).adv 1

theorem withRun_kept (off : Nat) : ∃ rs ss js, withRun s G off = { G with pc := G.pc + 1, runs := rs, splits := ss, joins := js } := by
  rw [withRun]
  split
  · obtain ⟨rs, ss, js, h⟩ := startRun_kept Config.runQueueLen { G with runs := G.runs ++ [newRun s G off] }
    exact ⟨rs, ss, js, by rw [h]; rfl⟩
  · exact ⟨_, _, _, rfl⟩

theorem withRun_of_running {off : Nat} (hs : G.splits ≠ []) : withRun s G off = { G with pc := G.pc + 1, runs := G.runs ++ [newRun s G off] } := by
  rw [withRun, if_neg (by simpa using hs)]
  rfl

theorem withRun_of_lanes {off : Nat} (hs : G.splits = []) (hr : G.runs = []) (hl : G.laneact ≠ 0) :
    ∃ o, withRun s G off = { G with pc := G.pc + 1, runs := [newRun s G off], joins := [],
                                    splits := [(0, { pc := off, mask := G.laneact, stack := [], ord := o })] } := by
  rw [withRun, if_pos (by simp [hs]), hr]
  exact ⟨_, congrArg (Group.adv · 1) (startRun_of_lanes (G := { G with runs := [newRun s G off] }) 7 rfl hl)⟩

theorem withRun_of_no_lanes {off : Nat} (hs : G.splits = []) (hr : G.runs = []) (hl : G.laneact = 0) :
    withRun s G off = { G with pc := G.pc + 1, runs := [] } := by
  rw [withRun, if_pos (by simp [hs]), hr]
  exact congrArg (Group.adv · 1) (startRun_of_no_lanes (G := { G with runs := [newRun s G off] }) 6 rfl hl)

/-- A group that is a member of no drain phaser queues its run without a unit. -/
theorem queueRun_of_room (hd : ∀ p ∈ G.memb, p.2.drain = false) (hr : G.runs.length < 8) (off : Nat) :
    queueRun s g G off = .next (settleRuns (s.fresh.2.grp g (withRun s G off))) := by
  have hdrain : drainOf G = none := by
    simp only [drainOf, Option.map_eq_none_iff, List.find?_eq_none]
    exact fun p hp => by simp [hd p hp]
  rw [queueRun, if_neg (by simpa [Config.runQueueLen] using hr)]
  simp only [takeUnits, hdrain]
  rfl

end

/-- Settles O5: a queued run waits behind those before it, or starts at once; the unit of a run that ended goes home. -/
theorem laneRunsQueue : Obligations.LaneRunsQueue := by
  intro s g G off a gd e hs htrap he hd queued
  have hcur : ((curOv s G).map (·.l)).getD 0 = e.l := by rw [curOv, he]; rfl
  have hlrun : exec (.lrun off) s = _ := exec_of_withScalar hs rfl
  have hlrunr : exec (.lrunr a gd) s = _ := exec_of_withScalar hs rfl
  simp only [hcur, htrap, Option.isSome_none, Bool.or_false, decide_eq_true_eq] at hlrun hlrunr
  have hqueued (i : Instr) (at_ : Nat) (hr : G.runs.length < 8) (hi : exec i s = queueRun s g G at_) : queued i at_ := by
    obtain ⟨G', hG', hm, hmem⟩ := settleRuns_put s.fresh.2 g (withRun s G at_)
    obtain ⟨rs, ss, js, hkept⟩ := withRun_kept (s := s) (G := G) at_
    refine ⟨_, G', newRun s G at_, hi.trans (queueRun_of_room hd hr at_), hG', ?_, rfl, rfl, rfl, hmem, ?_, ?_, fun hsp => ?_, fun hsp hrn hl => ?_, fun hsp hrn hl => ?_⟩
    · rw [hm, hkept]
    · rw [hm, hkept]
    · rw [hm, hkept]
    · rw [hm, withRun_of_running hsp]
      exact ⟨rfl, rfl⟩
    · obtain ⟨o, ho⟩ := withRun_of_lanes (s := s) (off := at_) hsp hrn hl
      rw [hm, ho]
      exact ⟨rfl, _, rfl, rfl, rfl, rfl⟩
    · rw [hm, withRun_of_no_lanes hsp hrn hl]
      exact ⟨rfl, hsp⟩
  have hfull (at_ : Nat) (hr : 8 ≤ G.runs.length) : queueRun s g G at_ = .next s := by
    rw [queueRun, if_pos (by exact hr)]
  refine ⟨fun ho hr => hqueued _ _ hr ?_, fun ho hr => ?_, fun ho => ?_, fun h hlt hl hr => hqueued _ _ hr ?_, fun h hl => ?_, fun h => ?_⟩
  · rw [hlrun, if_neg (by omega)]
  · rw [hlrun, if_neg (by omega), hfull _ hr]
  · rw [hlrun, if_pos ho]
  · rw [hlrunr, guardOk_of_holds h, if_neg (by simp), if_neg (by simp; omega)]
  · rw [hlrunr, guardOk_of_holds h, if_neg (by simp), if_pos (by simp; omega)]
  · rw [Becomes, hlrunr, guardOk_of_not_holds h, if_pos (by rfl)]
    rfl

end Sys2Proof.Proofs
end

section
/-!
PROOFS. Jumps, calls, returns, early reconvergence and waits of a split, and the ends of lanes (R83 to R86).
-/

namespace Sys2Proof.Proofs
open Sys2Proof Sys2Proof.Machine Sys2Proof.Claims

section
variable {s : State} {g n : Nat} {G : Group} {S : Split}

/-- A lane instruction that is run with the split. -/
theorem exec_of_withSplit (hs : LaneTurn s g G n S) {i : Instr} {k : Nat → Group → Nat → Split → Out} (hi : exec i s = withSplit s k) :
    exec i s = k g G n S :=
  hi.trans (withSplit_of hs.1 hs.2.1 hs.2.2 k)

theorem inSection_of_lt {t : Nat} (h : t < laneLen s G) : inSection s G t = true := decide_eq_true h

theorem inSection_of_le {t : Nat} (h : laneLen s G ≤ t) : inSection s G t = false := decide_eq_false (by omega)

/-- The pc of a split whose pc is `pc` advances. -/
theorem afterLane_of_pc {H : Group} {T : Split} (hT : mget H.splits n = some T) : afterLane s g n H = settleRuns (s.grp g (H.goto n (T.pc + 1))) := by
  rw [afterLane, hT]
  rfl

/-- A split that is changed in place, and whose pc advances. -/
theorem afterLane_put (G : Group) (T : Split) :
    afterLane s g n { G with splits := mput G.splits n T } = settleRuns (s.grp g ({ G with splits := mput G.splits n T }.goto n (T.pc + 1))) :=
  afterLane_of_pc (mget_mput_same _ _ _)

theorem topJoin_eq_some_iff {j : Nat} : topJoin S = some j ↔ ∃ rest, S.stack = .join j :: rest := by
  unfold topJoin
  split
  · next i rest h => simp [h]
  · next h => exact ⟨fun e => (nomatch e), fun ⟨rest, e⟩ => (h j rest e).elim⟩

end

theorem laneJumps : Claims.LaneJumps := by
  intro s g G n S target ld st cp tl hs
  refine ⟨fun ht => ?_, fun ht hd => ?_, fun ht => ⟨?_, ?_⟩, fun hd => ?_, fun r rest hr => ?_, fun h => ?_, fun j J hj hJ => ?_, fun h => ?_, ?_, ?_,
    fun h1 h2 h3 h4 => ?_, fun h => ?_⟩
  · rw [LaneBecomes, exec_of_withSplit hs (i := .ljmp target) rfl, inSection_of_lt ht, if_neg (by simp)]
    rfl
  · rw [Becomes, exec_of_withSplit hs (i := .lcall target) rfl, inSection_of_lt ht, if_neg (by simpa [Config.stackDepth] using hd)]
    rfl
  · rw [exec_of_withSplit hs (i := .ljmp target) rfl, inSection_of_le ht, if_pos (by rfl)]
  · rw [exec_of_withSplit hs (i := .lcall target) rfl, inSection_of_le ht, if_pos (by simp)]
  · rw [exec_of_withSplit hs (i := .lcall target) rfl, if_pos (by simp [Config.stackDepth, hd])]
  · rw [LaneBecomes, exec_of_withSplit hs (i := .lret) rfl, hr]
    rfl
  · rw [exec_of_withSplit hs (i := .lret) rfl]
    split
    · next r rest hr => exact absurd (by rw [hr]; rfl) (h r)
    · rfl
  · obtain ⟨rest, hr⟩ := topJoin_eq_some_iff.1 hj
    rw [LaneBecomes, exec_of_withSplit hs (i := .lrec) rfl, hr]
    dsimp only
    rw [hJ]
    rfl
  · refine ⟨{ S with ord := S.ord.merged S.ord.own S.ord.earlier }, rfl, ?_⟩
    rw [LaneBecomes, exec_of_withSplit hs (i := .lrec) rfl]
    split
    · next j rest hr => exact absurd (topJoin_eq_some_iff.2 ⟨rest, hr⟩) (by simp [h])
    · exact congrArg _ (afterLane_put G _)
  · rw [LaneBecomes, exec_of_withSplit hs (i := .lnop) rfl, afterLane_of_pc hs.2.2]
    rfl
  · rw [LaneBecomes, exec_of_withSplit hs (i := .lpack) rfl, afterLane_of_pc hs.2.2]
    rfl
  · rw [LaneBecomes, exec_of_withSplit hs (i := .lwaitc ld st cp tl) rfl, if_pos (atMost_iff.2 ⟨h1, h2, h3, h4⟩), afterLane_put]
    rfl
  · rw [exec_of_withSplit hs (i := .lwaitc ld st cp tl) rfl, if_neg (by rw [atMost_iff]; omega)]

theorem lanesEnd : Claims.LanesEnd := by
  intro s g G n S gd hs out H
  have hexit : exec (.lexit gd) s = if S.mask &&& ~~~out = 0 then .next (settleRuns (s.grp g (endLanes loopFuel H n))) else .next (afterLane s g n H) := by
    rw [exec_of_withSplit hs (i := .lexit gd) rfl]
    rfl
  refine ⟨exec_of_withSplit hs (i := .lend) rfl, fun h => ?_, fun h => ?_⟩
  · rw [LaneBecomes, hexit, if_neg h, afterLane_of_pc (mget_mput_same _ _ _)]
    rfl
  · rw [LaneBecomes, hexit, if_pos h]
    rfl

/-- Settles O9: each instruction moves its split's pc, or ends lanes of it, or traps before it changes anything. -/
theorem laneJumpsAndEnds : Obligations.LaneJumpsAndEnds := ⟨laneJumps, lanesEnd⟩

end Sys2Proof.Proofs
end

section
/-!
PROOFS. Arrival at a reconvergence point and the end of lanes (R81, R207).
-/

namespace Sys2Proof.Proofs
open Sys2Proof Sys2Proof.Machine Sys2Proof.Claims

/-! ### Maps -/

theorem mem_mput_of_ne {β : Type} {l : SMap β} {n m : Nat} {x y : β} (h : m ≠ n) : (m, y) ∈ mput l n x ↔ (m, y) ∈ l := by
  induction l with
  | nil => simp [mput, h]
  | cons p l ih =>
    obtain ⟨k, v⟩ := p
    unfold mput
    split
    · next e => simp [h, ← e]
    · split
      · simp [h]
      · simp [ih]

theorem mdel_mput {β : Type} (l : SMap β) (n : Nat) (x : β) : mdel (mput l n x) n = mdel l n := by
  induction l with
  | nil => simp [mput, mdel]
  | cons p l ih =>
    obtain ⟨k, v⟩ := p
    unfold mput
    split
    · next e => simp [mdel, ← e]
    · split
      · simp [mdel]
      · unfold mdel at ih ⊢
        rw [List.filter_cons, List.filter_cons, ih]

theorem mem_of_mget {β : Type} {l : SMap β} {n : Nat} {x : β} (h : mget l n = some x) : (n, x) ∈ l := by
  induction l with
  | nil => exact nomatch h
  | cons p l ih =>
    obtain ⟨k, v⟩ := p
    rw [mget] at h
    split at h
    · next e => rw [e, Option.some.inj h]; exact List.mem_cons_self
    · exact List.mem_cons_of_mem _ (ih h)

/-! ### The branches of R81 -/

/-- Another split than `n` holds the join `j`. -/
def HeldElsewhere (G : Group) (n j : Nat) : Prop := ∃ m T, (m, T) ∈ G.splits ∧ m ≠ n ∧ .join j ∈ T.stack

theorem heldElsewhere_iff {G : Group} {n j : Nat} : (G.splits.any fun (m, T) => m != n && T.holds j) = true ↔ HeldElsewhere G n j := by
  simp [HeldElsewhere, Split.holds, List.any_eq_true]

theorem not_heldElsewhere {G : Group} {n j : Nat} (h : ∀ m T, (m, T) ∈ G.splits → m ≠ n → .join j ∉ T.stack) : ¬ HeldElsewhere G n j :=
  fun ⟨m, T, hm, hn, hj⟩ => h m T hm hn hj

theorem heldElsewhere_mput {G : Group} {n j : Nat} {S : Split} : HeldElsewhere { G with splits := mput G.splits n S } n j ↔ HeldElsewhere G n j :=
  exists_congr fun _ => exists_congr fun _ => ⟨fun ⟨hm, hn, hj⟩ => ⟨(mem_mput_of_ne hn).1 hm, hn, hj⟩, fun ⟨hm, hn, hj⟩ => ⟨(mem_mput_of_ne hn).2 hm, hn, hj⟩⟩

/-- The join as the lanes of `S` arrive. -/
def arrivedAt (J : Join) (S : Split) : Join := { J.meet S.ord with arrived := J.arrived ||| S.mask }

/-- Split `n`, which was `S`, takes over the lanes that `J` defers. -/
def takesDeferred (G : Group) (n : Nat) (S : Split) (j : Nat) (J : Join) : Group :=
  { G with splits := mput G.splits n { S with mask := J.defmask, pc := J.defpc, ord := J.ord0 }, joins := mput G.joins j { J with defmask := 0 } }

/-- The entry of split `n` is freed while another split holds the join. -/
def leavesEntry (G : Group) (n j : Nat) (J : Join) : Group := { G with splits := mdel G.splits n, joins := mput G.joins j J }

/-- The join is popped and marked lanes leave laneact; split `n` is now `S`. -/
def popsJoin (G : Group) (n : Nat) (S : Split) (j : Nat) : Group := { G.dropMarks with splits := mput G.splits n S, joins := mdel G.joins j }

/-- The last split to arrive, with every lane that arrived. -/
def goesOn (S : Split) (J : Join) (rest : List SEntry) : Split :=
  { S with mask := J.arrived ||| S.mask, stack := rest, ord := S.ord.merged (arrivedAt J S).ran (arrivedAt J S).before }

/-- A split whose lanes ended, without its join. -/
def endsIn (S : Split) (J : Join) (rest : List SEntry) : Split :=
  { S with stack := rest, ord := S.ord.merged (J.meet S.ord).ran (J.meet S.ord).before }

section
variable {G : Group} {n j f : Nat} {S : Split} {J : Join} {rest : List SEntry}

theorem arrive_of_passes (hS : mget G.splits n = some S) (hp : Passes G S S.pc) : arrive f G n = G := by
  cases f with
  | zero => rfl
  | succ f =>
    rw [arrive, hS]
    dsimp only
    split
    · next j rest hst =>
      split
      · rfl
      · next J hJ => exact if_pos (hp j J (topJoin_eq_some_iff.2 ⟨rest, hst⟩) hJ)
    · rfl

theorem passes_of_head {pc : Nat} (h : ∀ i, S.stack.head? ≠ some (.join i)) : Passes G S pc := by
  intro i J hi
  obtain ⟨rest, hr⟩ := topJoin_eq_some_iff.1 hi
  exact absurd (by rw [hr]; rfl) (h i)

variable (hS : mget G.splits n = some S) (hst : S.stack = .join j :: rest) (hJ : mget G.joins j = some J)
include hS hst hJ

/-- The tests of R81 for a split with a join on top of its stack. -/
theorem arrive_join : arrive (f + 1) G n =
    if J.rc ≠ S.pc then G else
    if J.defmask ≠ 0 then takesDeferred G n S j (arrivedAt J S) else
    if G.splits.any fun (m, T) => m != n && T.holds j then leavesEntry G n j (arrivedAt J S) else
    arrive f (popsJoin G n (goesOn S J rest) j) n := by
  rw [arrive, hS]
  dsimp only
  rw [hst]
  dsimp only
  rw [hJ, takesDeferred, hst]
  rfl

theorem arrive_of_deferred (hrc : J.rc = S.pc) (hd : J.defmask ≠ 0) : arrive (f + 1) G n = takesDeferred G n S j (arrivedAt J S) := by
  rw [arrive_join hS hst hJ, if_neg (not_not.2 hrc), if_pos hd]

theorem arrive_of_held (hrc : J.rc = S.pc) (hd : J.defmask = 0) (hh : HeldElsewhere G n j) :
    arrive (f + 1) G n = leavesEntry G n j (arrivedAt J S) := by
  rw [arrive_join hS hst hJ, if_neg (not_not.2 hrc), if_neg (not_not.2 hd), if_pos (heldElsewhere_iff.2 hh)]

theorem arrive_of_last (hrc : J.rc = S.pc) (hd : J.defmask = 0) (hh : ¬ HeldElsewhere G n j) :
    arrive (f + 1) G n = arrive f (popsJoin G n (goesOn S J rest) j) n := by
  rw [arrive_join hS hst hJ, if_neg (not_not.2 hrc), if_neg (not_not.2 hd), if_neg (mt heldElsewhere_iff.1 hh)]

/-- The tests of R81 for lanes that end under a join. -/
theorem endLanes_join : endLanes (f + 1) G n =
    if J.defmask ≠ 0 then takesDeferred G n S j (J.meet S.ord) else
    if G.splits.any fun (m, T) => m != n && T.holds j then leavesEntry G n j (J.meet S.ord) else
    if J.arrived ≠ 0 then arrive f (popsJoin G n { endsIn S J rest with mask := J.arrived, pc := J.rc } j) n
    else endLanes f (popsJoin G n (endsIn S J rest) j) n := by
  rw [endLanes, hS]
  dsimp only
  rw [hst]
  dsimp only
  rw [hJ, takesDeferred, hst]
  rfl

end

/-! ### Arrival (R81) -/

/-- The group with split `n` as `S`. -/
def putSplit (G : Group) (n : Nat) (S : Split) : Group := { G with splits := mput G.splits n S }

section
variable {G : Group} {n : Nat} {S : Split}

@[simp] theorem takesDeferred_putSplit (T : Split) (j : Nat) (J : Join) : takesDeferred (putSplit G n T) n S j J = takesDeferred G n S j J := by
  simp [takesDeferred, putSplit, mput_mput]

@[simp] theorem leavesEntry_putSplit (T : Split) (j : Nat) (J : Join) : leavesEntry (putSplit G n T) n j J = leavesEntry G n j J := by
  simp [leavesEntry, putSplit, mdel_mput]

@[simp] theorem popsJoin_putSplit (T : Split) (j : Nat) : popsJoin (putSplit G n T) n S j = popsJoin G n S j := by
  simp [popsJoin, putSplit, Group.dropMarks, mput_mput]

theorem goto_eq (hS : mget G.splits n = some S) (pc : Nat) : G.goto n pc = arrive loopFuel (putSplit G n { S with pc := pc }) n := by
  rw [Group.goto, mupd, hS]
  rfl

/-- Putting a split as it is changes nothing of its arrival. -/
theorem arrive_putSplit {j f : Nat} {J : Join} {rest : List SEntry} (hS : mget G.splits n = some S) (hst : S.stack = .join j :: rest)
    (hJ : mget G.joins j = some J) (hrc : J.rc = S.pc) : arrive (f + 1) (putSplit G n S) n = arrive (f + 1) G n := by
  have hS' : mget (putSplit G n S).splits n = some S := mget_mput_same _ _ _
  have hJ' : mget (putSplit G n S).joins j = some J := hJ
  by_cases hd : J.defmask = 0
  · by_cases hh : HeldElsewhere G n j
    · rw [arrive_of_held hS' hst hJ' hrc hd (heldElsewhere_mput.2 hh), arrive_of_held hS hst hJ hrc hd hh, leavesEntry_putSplit]
    · rw [arrive_of_last hS' hst hJ' hrc hd (mt heldElsewhere_mput.1 hh), arrive_of_last hS hst hJ hrc hd hh, popsJoin_putSplit]
  · rw [arrive_of_deferred hS' hst hJ' hrc hd, arrive_of_deferred hS hst hJ hrc hd, takesDeferred_putSplit]

/-- A bound above the depth of the stack changes nothing. -/
theorem arrive_bound (f : Nat) (hS : mget G.splits n = some S) (hf : S.stack.length ≤ f) : arrive (f + 1) G n = arrive (f + 2) G n := by
  induction f generalizing G S with
  | zero =>
    have hp : Passes G S S.pc := passes_of_head fun i => by simp [List.length_eq_zero_iff.1 (Nat.le_zero.1 hf)]
    rw [arrive_of_passes hS hp, arrive_of_passes hS hp]
  | succ f ih =>
    by_cases hp : Passes G S S.pc
    · rw [arrive_of_passes hS hp, arrive_of_passes hS hp]
    · simp only [Passes, not_forall] at hp
      obtain ⟨j, J, hj, hJ, hrc⟩ := hp
      obtain ⟨rest, hst⟩ := topJoin_eq_some_iff.1 hj
      rw [arrive_join hS hst hJ, arrive_join hS hst hJ,
        ih (mget_mput_same _ _ _ : mget (popsJoin G n (goesOn S J rest) j).splits n = _) (by simp [hst] at hf; exact hf)]

end

theorem splitArrives : Claims.SplitArrives := by
  intro G n S pc hS
  have hput : mget (putSplit G n { S with pc := pc }).splits n = some { S with pc := pc } := mget_mput_same _ _ _
  refine ⟨fun hp => (goto_eq hS pc).trans (arrive_of_passes hput hp), fun j J rest hst hJ hrc => ?_⟩
  have hJ' : mget (putSplit G n { S with pc := pc }).joins j = some J := hJ
  rw [goto_eq hS pc, show loopFuel = 33 + 1 from rfl]
  refine ⟨fun hd => ?_, fun hd hh => ?_, fun hd hh hhead => ?_, fun hd hh f hpc => ?_, fun hpc => ⟨?_, fun f hf => arrive_bound f hS hf⟩⟩
  · rw [arrive_of_deferred hput hst hJ' hrc hd]
    exact ⟨_, _, mget_mput_same _ _ _, mget_mput_same _ _ _, rfl, rfl, rfl, rfl, rfl, hrc⟩
  · rw [arrive_of_held hput hst hJ' hrc hd (heldElsewhere_mput.2 hh)]
    exact ⟨_, mget_mput_same _ _ _, by simp [leavesEntry, mget_mdel], rfl, rfl⟩
  · rw [arrive_of_last hput hst hJ' hrc hd (mt heldElsewhere_mput.1 (not_heldElsewhere hh)), popsJoin_putSplit,
      arrive_of_passes (mget_mput_same _ _ _) (passes_of_head hhead)]
    exact ⟨_, mget_mput_same _ _ _, rfl, rfl, rfl, by simp [popsJoin, mget_mdel], rfl, rfl⟩
  · exact ⟨_, _, arrive_of_last hS hst hJ (hrc.trans hpc.symm) hd (not_heldElsewhere hh), mget_mput_same _ _ _, rfl, hpc, rfl,
      fun m hm => mget_mput_ne _ _ hm, by simp [popsJoin, mget_mdel], fun i hi => by simp [popsJoin, mget_mdel, hi], rfl, rfl, rfl⟩
  · subst hpc
    exact arrive_putSplit hS hst hJ hrc

/-! ### The return of drain units (R207) -/

theorem drainUnitsOfRuns : Claims.DrainUnitsOfRuns := fun s =>
  ⟨settleRuns_of_nil, (settleRuns_tracks s).mem, (settleRuns_tracks s).turn, fun g G hg =>
    let ⟨G', hG', hm, _⟩ := (settleRuns_tracks s).groups g G hg
    ⟨G', hG', hm⟩⟩

/-! ### The end of lanes (R81) -/

theorem mget_ne_none_of_mem {β : Type} {l : SMap β} {n : Nat} {x : β} (h : (n, x) ∈ l) : mget l n ≠ none := by
  induction l with
  | nil => exact nomatch h
  | cons p l ih =>
    obtain ⟨k, v⟩ := p
    rw [mget]
    split
    · simp
    · next e => exact ih ((List.mem_cons.1 h).resolve_left fun h => e (Prod.mk.inj h).1)

theorem mdel_ne_nil {β : Type} {l : SMap β} {n m : Nat} (hm : m ≠ n) (h : mget l m ≠ none) : mdel l n ≠ [] := by
  intro he
  rw [← if_neg hm (t := none) (e := mget l m), ← mget_mdel, he] at h
  exact h rfl

theorem mdel_eq_nil {β : Type} {l : SMap β} {n : Nat} (h : ∀ m, m ≠ n → mget l m = none) : mdel l n = [] := by
  refine List.filter_eq_nil_iff.2 fun p hp => ?_
  simpa using not_imp_comm.1 (h p.1) (mget_ne_none_of_mem hp)

section
variable {G : Group} {n f : Nat} {S : Split}

theorem endLanes_of_nil (hS : mget G.splits n = some S) (hst : S.stack = []) : endLanes (f + 1) G n = freeSplit G n S := by
  rw [endLanes, hS]
  dsimp only
  rw [hst]

theorem endLanes_of_call {r : Nat} {rest : List SEntry} (hS : mget G.splits n = some S) (hst : S.stack = .call r :: rest) :
    endLanes (f + 1) G n = endLanes f (putSplit G n { S with stack := rest }) n := by
  rw [endLanes, hS]
  dsimp only
  rw [hst]
  rfl

theorem freeSplit_of_others {m : Nat} (hm : m ≠ n) (h : mget G.splits m ≠ none) :
    freeSplit G n S = { G with splits := mdel G.splits n, laneDone := sunion G.laneDone S.ord.earlier.ops, laneRan := sunion G.laneRan S.ord.ran } :=
  if_neg (by simpa using mdel_ne_nil hm h)

/-- The last split of a run ends the run. -/
theorem freeSplit_of_last (h : ∀ m, m ≠ n → mget G.splits m = none) :
    freeSplit G n S = startRun 8 { G.dropMarks with
      runs := G.runs.tail, splits := [], joins := [], laneDone := sunion G.laneDone S.ord.earlier.ops, laneRan := sunion G.laneRan S.ord.ran } :=
  if_pos (by simp [mdel_eq_nil h])

end

theorem splitEnds : Claims.SplitEnds := by
  intro f G n S hS H
  refine ⟨fun hst ⟨m, hm, h⟩ => ?_, fun hst h => ?_, fun r rest hst => endLanes_of_call hS hst, fun j J rest hst hJ => ?_⟩
  · have hH : H = _ := (endLanes_of_nil hS hst).trans (freeSplit_of_others hm h)
    rw [hH]
    exact ⟨by simp [mget_mdel], rfl, rfl, fun m hm => by simp [mget_mdel, hm]⟩
  · have hH : H = _ := (endLanes_of_nil hS hst).trans (freeSplit_of_last h)
    obtain ⟨rs, ss, js, hkept⟩ := startRun_kept 8 { G.dropMarks with
      runs := G.runs.tail, splits := [], joins := [], laneDone := sunion G.laneDone S.ord.earlier.ops, laneRan := sunion G.laneRan S.ord.ran }
    have hact : H.laneact = G.laneact &&& ~~~G.exitMarks := by rw [hH, hkept]; rfl
    refine ⟨hact, by rw [hH, hkept]; rfl, fun hr => ?_, fun r q rest hr hl => ?_⟩
    · have htail : G.runs.tail = [] := List.length_eq_zero_iff.1 (by simp; omega)
      rw [hH, htail]
      exact ⟨rfl, rfl⟩
    · rw [hact] at hl ⊢
      rw [hH, hr, startRun_of_lanes (r := q) (rs := rest) 7 rfl hl]
      exact ⟨rfl, _, rfl, rfl, rfl, rfl⟩
  · have hH : H = _ := endLanes_join hS hst hJ
    refine ⟨fun hd => ?_, fun hd hh => ?_, fun hd hh ha hhead => ?_, fun hd hh => ?_⟩
    · rw [hH, if_pos hd]
      exact ⟨_, _, mget_mput_same _ _ _, mget_mput_same _ _ _, rfl, rfl, rfl, rfl, rfl⟩
    · rw [hH, if_neg (not_not.2 hd), if_pos (heldElsewhere_iff.2 hh)]
      exact ⟨by simp [leavesEntry, mget_mdel], rfl, _, mget_mput_same _ _ _, rfl⟩
    · rw [hH, if_neg (not_not.2 hd), if_neg (mt heldElsewhere_iff.1 (not_heldElsewhere hh)), if_pos ha,
        arrive_of_passes (mget_mput_same _ _ _) (passes_of_head hhead)]
      exact ⟨_, mget_mput_same _ _ _, rfl, rfl, rfl, by simp [popsJoin, mget_mdel], rfl⟩
    · rw [if_neg (not_not.2 hd), if_neg (mt heldElsewhere_iff.1 (not_heldElsewhere hh))] at hH
      suffices h : ∃ T : Split, T.stack = rest ∧ (J.arrived ≠ 0 → H = arrive f (popsJoin G n T j) n ∧ T.mask = J.arrived ∧ T.pc = J.rc) ∧
          (J.arrived = 0 → H = endLanes f (popsJoin G n T j) n) by
        obtain ⟨T, hT, hgo⟩ := h
        exact ⟨popsJoin G n T j, T, mget_mput_same _ _ _, hT, by simp [popsJoin, mget_mdel], fun i hi => by simp [popsJoin, mget_mdel, hi],
          fun m hm => mget_mput_ne _ _ hm, rfl, rfl, rfl, hgo⟩
      by_cases ha : J.arrived = 0
      · rw [if_neg (not_not.2 ha)] at hH
        exact ⟨endsIn S J rest, rfl, fun h => absurd ha h, fun _ => hH⟩
      · rw [if_pos ha] at hH
        exact ⟨{ endsIn S J rest with mask := J.arrived, pc := J.rc }, rfl, fun _ => ⟨hH, rfl, rfl⟩, fun h => absurd h ha⟩

/-- Settles O8: each test of R81 is one branch of the two loops; a loop that goes on starts again from the next entry of the stack. -/
theorem splitsReconverge : Obligations.SplitsReconverge := ⟨drainUnitsOfRuns, splitArrives, splitEnds⟩

end Sys2Proof.Proofs
end

section
/-!
PROOFS. The lane branch and its reconvergence stack (R80).
-/

namespace Sys2Proof.Proofs
open Sys2Proof Sys2Proof.Machine Sys2Proof.Claims

/-! ### Joins and entries (R79, R80, R333) -/

/-- The key of a new join is that of no join. -/
theorem mget_freeJoin (G : Group) : mget G.joins (freeJoin G) = none := by
  refine mget_eq_none_of_not_mem fun h => ?_
  obtain ⟨p, hp, hk⟩ := List.mem_map.1 h
  have hle (l : SMap Join) (a : Nat) : a ≤ l.foldl (fun m p => max m (p.1 + 1)) a ∧ ∀ p ∈ l, p.1 < l.foldl (fun m p => max m (p.1 + 1)) a := by
    induction l generalizing a with
    | nil => simp
    | cons q l ih =>
      obtain ⟨h1, h2⟩ := ih (max a (q.1 + 1))
      refine ⟨by rw [List.foldl_cons]; omega, fun p hp => ?_⟩
      rw [List.foldl_cons]
      rcases List.mem_cons.1 hp with rfl | hp
      · omega
      · exact h2 p hp
  exact absurd hk ((hle G.joins 0).2 p hp).ne

/-- The lowest free entry. -/
theorem freeSplitKey_of_lowest {G : Group} {k : Nat} (hk : k < 4) (hfree : mget G.splits k = none) (hlow : ∀ i < k, mget G.splits i ≠ none) :
    freeSplitKey G = some k := by
  rw [freeSplitKey, List.find?_range_eq_some]
  exact ⟨by simp [hfree], List.mem_range.2 hk, fun i hi => by simpa using Option.isSome_iff_ne_none.2 (hlow i hi)⟩

theorem freeSplitKey_of_full {G : Group} (h : ∀ k < 4, mget G.splits k ≠ none) : freeSplitKey G = none := by
  rw [freeSplitKey, List.find?_eq_none]
  intro k hk
  simpa using h k (List.mem_range.1 hk)

/-! ### The branch, case by case (R80) -/

/-- The join of a branch of split `S` that meets again at `rc`. -/
def newJoin (S : Split) (rc : Nat) : Join := { rc := rc, arrived := 0, defmask := 0, defpc := 0, ord0 := S.ord }

/-- The lanes `m` of split `S`, at `pc`, under the join `j`. -/
def underJoin (S : Split) (j : Nat) (m : Mask) (pc : Nat) : Split := { S with stack := .join j :: S.stack, mask := m, pc := pc }

/-- The group whose split `n` is `A`, with one join set. -/
def withJoin (G : Group) (n : Nat) (A : Split) (j : Nat) (J : Join) : Group := { G with splits := mput G.splits n A, joins := mput G.joins j J }

/-- The lanes that are at the reconvergence point already, if one side is. -/
def homeLanes (S : Split) (T : Mask) (target rc : Nat) : Mask := if target = rc then T else S.mask &&& ~~~T

/-- The lanes that go on. -/
def awayLanes (S : Split) (T : Mask) (target rc : Nat) : Mask := if target = rc then S.mask &&& ~~~T else T

def awayPc (S : Split) (target rc : Nat) : Nat := if target = rc then S.pc + 1 else target

/-- The join on top of the stack, if it waits at `rc`. -/
def waitingJoin (G : Group) (S : Split) (rc : Nat) : Option Nat :=
  S.top.bind fun e => match e with
    | .join j => (mget G.joins j).bind fun J => if J.rc = rc then some j else none
    | .call _ => none

section
variable {G : Group} {n target rc : Nat} {S : Split} {T : Mask}

theorem branch_of_all (hF : S.mask &&& ~~~T = 0) : branch G n S T target rc = some (G.goto n target) := by
  rw [branch, if_pos hF]

theorem branch_of_none (hF : S.mask &&& ~~~T ≠ 0) (hT : T = 0) : branch G n S T target rc = some (G.goto n (S.pc + 1)) := by
  rw [branch, if_neg hF, if_pos hT]

theorem branch_of_meet (hF : S.mask &&& ~~~T ≠ 0) (hT : T ≠ 0) (ht : target = rc) (hn : S.pc + 1 = rc) : branch G n S T target rc = some (G.goto n rc) := by
  rw [branch, if_neg hF, if_neg hT, if_pos (by simp [ht, hn])]

section
variable (hF : S.mask &&& ~~~T ≠ 0) (hT : T ≠ 0)
include hF hT

/-- Both sides go on, and the stack is full. -/
theorem branch_of_deep (ht : target ≠ rc) (hn : S.pc + 1 ≠ rc) (hd : 16 ≤ S.stack.length) : branch G n S T target rc = none := by
  rw [branch, if_neg hF, if_neg hT, if_neg (by simp [ht]), if_neg (by simp [ht, hn]),
    if_pos (show S.stack.length ≥ Config.stackDepth from hd)]

/-- Both sides go on, and entry `k` is free: the taking lanes become a split of their own. -/
theorem branch_of_free {k : Nat} (ht : target ≠ rc) (hn : S.pc + 1 ≠ rc) (hd : S.stack.length < 16)
    (hk : freeSplitKey (pushJoin G n S rc).2.1 = some k) :
    branch G n S T target rc = some (putSplit (withJoin G n (underJoin S (freeJoin G) (S.mask &&& ~~~T) (S.pc + 1)) (freeJoin G) (newJoin S rc))
      k { underJoin S (freeJoin G) T target with fe := none }) := by
  rw [branch, if_neg hF, if_neg hT, if_neg (by simp [ht]), if_neg (by simp [ht, hn]), if_neg (by simp [Config.stackDepth]; omega)]
  dsimp only
  rw [hk]
  simp only [pushJoin, mput_mput]
  rfl

/-- Both sides go on, and no entry is free: the other lanes are deferred. -/
theorem branch_of_full (ht : target ≠ rc) (hn : S.pc + 1 ≠ rc) (hd : S.stack.length < 16) (hk : freeSplitKey (pushJoin G n S rc).2.1 = none) :
    branch G n S T target rc = some (withJoin G n (underJoin S (freeJoin G) T target) (freeJoin G)
      { newJoin S rc with defmask := S.mask &&& ~~~T, defpc := S.pc + 1 }) := by
  rw [branch, if_neg hF, if_neg hT, if_neg (by simp [ht]), if_neg (by simp [ht, hn]), if_neg (by simp [Config.stackDepth]; omega)]
  dsimp only
  rw [hk]
  simp only [pushJoin, mput_mput, mupd, mget_mput_same]
  rfl

/-- One side is already at the reconvergence point: it arrives at once at the join that waits there, or at a new one, and only the other side goes on. -/
theorem branch_of_one (hone : target = rc ∧ S.pc + 1 ≠ rc ∨ target ≠ rc ∧ S.pc + 1 = rc) : branch G n S T target rc =
    (waitingJoin G S rc).elim
      (if 16 ≤ S.stack.length then none else some (withJoin G n (underJoin S (freeJoin G) (awayLanes S T target rc) (awayPc S target rc)) (freeJoin G)
        { (newJoin S rc).meet S.ord with arrived := homeLanes S T target rc }))
      fun j => some (putSplit { G with joins := mupd G.joins j fun J => { J.meet S.ord with arrived := J.arrived ||| homeLanes S T target rc } } n
        { S with mask := awayLanes S T target rc, pc := awayPc S target rc }) := by
  have hpush (A : Split) (f : Join → Join) :
      putSplit { (pushJoin G n S rc).2.1 with joins := mupd (pushJoin G n S rc).2.1.joins (freeJoin G) f } n A = withJoin G n A (freeJoin G) (f (newJoin S rc)) := by
    simp only [pushJoin, putSplit, withJoin, mupd, mget_mput_same, mput_mput]
    rfl
  rw [branch, if_neg hF, if_neg hT, homeLanes, awayLanes, awayPc]
  rcases hone with ⟨ht, hn⟩ | ⟨ht, hn⟩
  · rw [if_neg (by simp [hn]), if_pos (by simp [ht])]
    simp only [if_pos ht]
    split
    · next j hj => rw [show waitingJoin G S rc = some j from hj]; rfl
    · next hj =>
      rw [show waitingJoin G S rc = none from hj]
      exact if_congr Iff.rfl rfl (congrArg some (hpush _ fun J => { J.meet S.ord with arrived := _ }))
  · rw [if_neg (by simp [ht]), if_pos (by simp [hn])]
    simp only [if_neg ht]
    split
    · next j hj => rw [show waitingJoin G S rc = some j from hj]; rfl
    · next hj =>
      rw [show waitingJoin G S rc = none from hj]
      exact if_congr Iff.rfl rfl (congrArg some (hpush _ fun J => { J.meet S.ord with arrived := _ }))

end

theorem waitingJoin_of_join {j : Nat} {J : Join} (hj : topJoin S = some j) (hJ : mget G.joins j = some J) (hrc : J.rc = rc) :
    waitingJoin G S rc = some j := by
  obtain ⟨rest, hst⟩ := topJoin_eq_some_iff.1 hj
  simp [waitingJoin, Split.top, hst, hJ, hrc]

theorem waitingJoin_of_passes (hp : Passes G S rc) : waitingJoin G S rc = none := by
  cases hst : S.stack with
  | nil => simp [waitingJoin, Split.top, hst]
  | cons e rest =>
    cases e with
    | call r => simp [waitingJoin, Split.top, hst]
    | join j =>
      cases hJ : mget G.joins j with
      | none => simp [waitingJoin, Split.top, hst, hJ]
      | some J => simpa [waitingJoin, Split.top, hst, hJ] using hp j J (topJoin_eq_some_iff.2 ⟨rest, hst⟩) hJ

/-- Pushing a join leaves the entries that are free. -/
theorem isNone_splits_pushJoin (hS : mget G.splits n = some S) (k : Nat) : (mget (pushJoin G n S rc).2.1.splits k = none) = (mget G.splits k = none) := by
  rw [pushJoin, mget_mput]
  split
  · next h => simp [h, hS]
  · rfl

end

section
variable {s : State} {g : Nat} {G : Group} {n : Nat} {S : Split} {gd : LGuard} {target rc : BitVec 12}

/-- A branch with both its addresses in the section. -/
theorem exec_lbr (hs : LaneTurn s g G n S) (ht : target.toNat < laneLen s G) (hr : rc.toNat < laneLen s G) :
    exec (.lbr gd target rc) s = (branch G n S (Active G S gd) target.toNat rc.toNat).elim (.next (trapL s g n 0x01 S.mask))
      fun G' => .next (settleRuns { s with groups := mput s.groups g G' }) := by
  rw [exec_of_withSplit hs (i := .lbr gd target rc) rfl, inSection_of_lt ht, inSection_of_lt hr, if_neg (by simp)]
  cases h : branch G n S (Active G S gd) target.toNat rc.toNat with
  | none => rw [show branch G n S (active G S gd) target.toNat rc.toNat = none from h]; rfl
  | some G' => rw [show branch G n S (active G S gd) target.toNat rc.toNat = some G' from h]; rfl

end

/-- Settles O7: the branch is decided by which sides have lanes, which are at the reconvergence point, and what room there is. -/
theorem laneBranch : Obligations.LaneBranch := by
  intro s g G n S gd target rc hs T F next runs
  have hS : mget G.splits n = some S := hs.2.2
  refine ⟨fun h => ?_, fun ht hr => ?_⟩
  · rw [exec_of_withSplit hs (i := .lbr gd target rc) rfl, if_pos]
    rcases h with h | h
    · simp [inSection_of_le h]
    · simp [inSection_of_le h]
  have hexec := exec_lbr (gd := gd) hs ht hr
  have hruns {G' : Group} (h : branch G n S T target.toNat rc.toNat = some G') : runs G' := by rw [h] at hexec; exact hexec
  have htrap (h : branch G n S T target.toNat rc.toNat = none) : exec (.lbr gd target rc) s = .next (trapL s g n 0x01 S.mask) := by rw [h] at hexec; exact hexec
  refine ⟨fun hF => hruns (branch_of_all hF), fun hF hT => hruns (branch_of_none hF hT),
    fun hF hT htr hn => hruns (branch_of_meet hF hT (congrArg _ htr) hn), fun hF hT htr hn => ⟨fun hd => ?_, fun hd => ?_⟩,
    fun hF hT hone => ?_⟩
  · exact htrap (branch_of_deep hF hT (mt BitVec.eq_of_toNat_eq htr) hn hd)
  · have htr' : target.toNat ≠ rc.toNat := mt BitVec.eq_of_toNat_eq htr
    have hlow (k : Nat) (hk : k < 4) (hfree : mget G.splits k = none) (hlow : ∀ i < k, mget G.splits i ≠ none) :
        freeSplitKey (pushJoin G n S rc.toNat).2.1 = some k :=
      freeSplitKey_of_lowest hk ((isNone_splits_pushJoin hS k).mpr hfree) fun i hi => mt (isNone_splits_pushJoin hS i).mp (hlow i hi)
    cases hkey : freeSplitKey (pushJoin G n S rc.toNat).2.1 with
    | some k' =>
      refine ⟨_, freeJoin G, newJoin S rc.toNat, hruns (branch_of_free hF hT htr' hn hd hkey), mget_freeJoin G, mget_mput_same _ _ _, rfl, rfl,
        fun i hi => mget_mput_ne _ _ hi, fun k hk hfree hall => ?_, fun hfull => ?_⟩
      · obtain rfl : k' = k := Option.some.inj (hkey.symm.trans (hlow k hk hfree hall))
        have hkn : k' ≠ n := fun h => by rw [h, hS] at hfree; exact nomatch hfree
        refine ⟨rfl, ⟨_, (mget_mput_ne _ _ hkn.symm).trans (mget_mput_same _ _ _), rfl, rfl, rfl⟩, ⟨_, mget_mput_same _ _ _, rfl, rfl, rfl⟩, fun i hin hik => ?_⟩
        exact (mget_mput_ne _ _ hik).trans (mget_mput_ne _ _ hin)
      · rw [freeSplitKey_of_full fun k hk => mt (isNone_splits_pushJoin hS k).mp (hfull k hk)] at hkey
        exact nomatch hkey
    | none =>
      refine ⟨_, freeJoin G, _, hruns (branch_of_full hF hT htr' hn hd hkey), mget_freeJoin G, mget_mput_same _ _ _, rfl, rfl,
        fun i hi => mget_mput_ne _ _ hi, fun k hk hfree hall => ?_, fun _ => ?_⟩
      · rw [hlow k hk hfree hall] at hkey
        exact nomatch hkey
      · exact ⟨rfl, rfl, ⟨_, mget_mput_same _ _ _, rfl, rfl, rfl⟩, fun i hi => mget_mput_ne _ _ hi⟩
  · intro home away apc
    have hone' : target.toNat = rc.toNat ∧ S.pc + 1 ≠ rc.toNat ∨ target.toNat ≠ rc.toNat ∧ S.pc + 1 = rc.toNat := by
      simp only [ne_eq, BitVec.toNat_inj]
      exact hone
    have hhome : homeLanes S T target.toNat rc.toNat = home := if_congr BitVec.toNat_inj rfl rfl
    have haway : awayLanes S T target.toNat rc.toNat = away := if_congr BitVec.toNat_inj rfl rfl
    have hapc : awayPc S target.toNat rc.toNat = apc := if_congr BitVec.toNat_inj rfl rfl
    have hbranch := branch_of_one (G := G) (n := n) hF hT hone'
    rw [hhome, haway, hapc] at hbranch
    refine ⟨fun j J hj hJ hrc => ?_, fun hp hd => ?_, fun hp hd => ?_⟩
    · rw [waitingJoin_of_join hj hJ hrc] at hbranch
      exact ⟨_, _, _, hruns hbranch, mget_mput_same _ _ _, (mget_mupd_same _ _ _).trans (congrArg (Option.map _) hJ), rfl, rfl, rfl, rfl, rfl⟩
    · rw [waitingJoin_of_passes hp, Option.elim_none, if_neg (by omega)] at hbranch
      exact ⟨_, _, freeJoin G, _, hruns hbranch, mget_mput_same _ _ _, mget_freeJoin G, mget_mput_same _ _ _, rfl, rfl, rfl, rfl, rfl, rfl⟩
    · rw [waitingJoin_of_passes hp, Option.elim_none, if_pos hd] at hbranch
      exact htrap hbranch

end Sys2Proof.Proofs
end

section
/-!
PROOFS. Lane exchange: shifts, permutes and votes, and the traps of collectives (R90, R153 to R157).
-/

namespace Sys2Proof.Proofs
open Sys2Proof Sys2Proof.Machine Sys2Proof.Claims

section
variable {i : Instr} {s : State} {g n : Nat} {G : Machine.Group} {S : Split}

/-! ### Collectives (R90) -/

section
variable {gd : LGuard} {regs : List Nat} {k : Nat → Machine.Group → Nat → Split → Mask → Out}
variable (hl : LaneTurn s g G n S) (he : exec i s = collective s gd false regs [] k) (hb : Below G regs)
include hl he hb

/-- A collective whose active lanes are members, and that changes registers only. -/
theorem laneBecomes_collective (hm : Active G S gd &&& ~~~G.memmask = 0) {H : Machine.Group}
    (hk : k g G n S (Active G S gd) = .next (afterLane s g n H)) (hs : H.splits = G.splits) : LaneBecomes i s g (H.goto n (S.pc + 1)) := by
  obtain ⟨ht, hg, hS⟩ := hl
  rw [LaneBecomes, he, collective_of ht hg hS gd hb hm]
  refine hk.trans ?_
  rw [afterLane, hs, hS]
  rfl

theorem laneWrites_collective (hm : Active G S gd &&& ~~~G.memmask = 0) {t : Ty} {d : Nat} {f : Nat → Nat}
    (hk : k g G n S (Active G S gd) = .next (afterLane s g n (G.putEl t d (Active G S gd) f))) : LaneWrites i s g G n S t d (Active G S gd) f :=
  laneBecomes_collective hl he hb hm hk (Group.putEl_splits _ _ _ _ _)

theorem collective_outside (hm : Active G S gd &&& ~~~G.memmask ≠ 0) :
    exec i s = .next (trapL s g n 0x09 (Active G S gd &&& ~~~G.memmask)) := by
  obtain ⟨ht, hg, hS⟩ := hl
  rw [he, collective_traps ht hg hS gd hb hm]
  rfl

end

theorem below_nil : Below G [] := fun _ h => absurd h List.not_mem_nil

/-! ### Shifts (R154) -/

/-- The lane that a shift by `k` takes for lane `i`, if there is one. -/
def shiftSource (up : Bool) (fill : Fill) (k i : Nat) : Option Nat :=
  match fill with
  | .rot => some (if up then (i + 256 - k % 256) % 256 else (i + k) % 256)
  | _ => if up then (if k ≤ i then some (i - k) else none) else (if i + k ≤ 255 then some (i + k) else none)

theorem shiftSource_rot (up : Bool) (k i : Nat) : shiftSource up .rot k i = some (if up then (i + 256 - k % 256) % 256 else (i + k) % 256) := rfl

theorem shiftSource_up {fill : Fill} (h : fill ≠ .rot) (k i : Nat) : shiftSource true fill k i = if k ≤ i then some (i - k) else none := by
  cases fill with
  | rot => exact absurd rfl h
  | zero | keep | c x => rfl

theorem shiftSource_down {fill : Fill} (h : fill ≠ .rot) (k i : Nat) : shiftSource false fill k i = if i + k ≤ 255 then some (i + k) else none := by
  cases fill with
  | rot => exact absurd rfl h
  | zero | keep | c x => rfl

/-- What a shift of a narrow type gives lanes without a source. -/
def fillNarrow (G : Machine.Group) (w : ShiftL) (i : Nat) : Elem :=
  match w.fill with
  | .keep => lane (G.rv w.d.toNat) i
  | .c x => G.opnd32 w.ty x i
  | _ => 0

def fillWide (G : Machine.Group) (w : ShiftL) (i : Nat) : Nat :=
  match w.fill with
  | .keep => G.el w.ty w.d.toNat i
  | .c x => G.opnd w.ty x i
  | _ => 0

/-- The registers that a shift names. -/
def shiftRegs (w : ShiftL) : List Nat :=
  tyRegs w.ty w.d ++ tyRegs w.ty w.a ++ match w.fill with
    | .c x => opndRegs w.ty x
    | _ => []

section
variable {w : ShiftL} {up : Bool} (hl : LaneTurn s g G n S) (he : exec i s = shiftStep s up w) (hb : Below G (shiftRegs w))
include hl he hb

theorem shift_narrow (hw : w.ty.wide = false) {f : Nat → Elem}
    (hf : ∀ j, (shiftSource up w.fill (G.opnd .n32 w.count 0) j).elim (fillNarrow G w j) (lane (G.rv w.a.toNat)) = f j) :
    LaneBecomes i s g ((G.wvMask w.d.toNat (Active G S w.g) f).goto n (S.pc + 1)) := by
  rw [shiftStep] at he
  refine laneBecomes_alu hl he hb ?_ (Group.wvMask_splits _ _ _ _)
  simp only [hw, Bool.false_eq_true, if_false]
  refine congrArg (G.wvMask w.d.toNat _) (funext fun j => ?_)
  rw [← hf]
  unfold shiftSource fillNarrow Group.opndN32
  cases w.fill with
  | rot => rfl
  | zero | keep | c x =>
    dsimp only
    generalize (if up = true then _ else _ : Option Nat) = o
    cases o <;> rfl

theorem shift_wide (hw : w.ty.wide = true) {f : Nat → Nat}
    (hf : ∀ j, (shiftSource up w.fill (G.opnd .n32 w.count 0) j).elim (fillWide G w j) (G.el w.ty w.a.toNat) = f j) :
    LaneWrites i s g G n S w.ty w.d.toNat (Active G S w.g) f := by
  rw [shiftStep] at he
  refine laneBecomes_alu hl he hb ?_ (Group.putEl_splits _ _ _ _ _)
  simp only [hw, if_true]
  refine congrArg (G.putEl w.ty w.d.toNat _) (funext fun j => ?_)
  rw [← hf]
  unfold shiftSource fillWide Group.opndN32
  cases w.fill with
  | rot => rfl
  | zero | keep | c x =>
    dsimp only
    generalize (if up = true then _ else _ : Option Nat) = o
    cases o <;> rfl

end

/-! ### Permutes (R155) and votes (R157) -/

theorem perm_writes (hl : LaneTurn s g G n S) {w : PermL} (he : exec i s = permStep s w fun G => G.opndN32 w.b)
    (hb : Below G (tyRegs w.ty w.d ++ tyRegs w.ty w.a ++ opndRegs .n32 w.b)) (hm : Active G S w.g &&& ~~~G.memmask = 0) :
    LaneWrites i s g G n S (if w.ty.wide then w.ty else .n32) w.d.toNat (Active G S w.g) fun j =>
      if (Active G S w.g).getLsbD (G.opnd .n32 w.b j % 256) then
        G.el (if w.ty.wide then w.ty else .n32) w.a.toNat (G.opnd .n32 w.b j % 256) else 0 :=
  laneWrites_collective hl he hb hm rfl

/-- A collective that writes a predicate of a group with the same splits. -/
theorem predWrites_collective {gd : LGuard} {k : Nat → Machine.Group → Nat → Split → Mask → Out} (hl : LaneTurn s g G n S)
    (he : exec i s = collective s gd false [] [] k) (hm : Active G S gd &&& ~~~G.memmask = 0) {H : Machine.Group} {pd : PReg} {x : Mask}
    (hk : k g G n S (Active G S gd) = .next (afterLane s g n (H.wpMask pd (Active G S gd) x))) (hs : H.splits = G.splits) :
    PredWrites i s g H n S pd (Active G S gd) x :=
  laneBecomes_collective hl he below_nil hm hk ((wp_splits _ _ _).trans hs)

theorem lowest_zero : lowest 0 = none := rfl

/-- The lowest lane of a mask. -/
theorem lowest_of_first {m : Mask} {j : Nat} (hj : j < 256) (hm : m.getLsbD j = true) (hlow : ∀ k < j, m.getLsbD k = false) : lowest m = some j := by
  have hne : m ≠ 0 := fun h => by rw [h] at hm; simp at hm
  rw [lowest, lanesOf, if_neg hne, List.head?_filter, List.find?_range_eq_some]
  exact ⟨hm, List.mem_range.2 hj, fun k hk => by simp [hlow k hk]⟩

end

end Sys2Proof.Proofs
end

section
/-!
PROOFS. Reductions and scans of lists of patterns (R27, R28, R156).
-/

namespace Sys2Proof.Proofs
open Sys2Proof Sys2Proof.Machine Sys2Proof.Claims

/-! ### Patterns of a type (R15 to R17) -/

theorem el_lt (G : Machine.Group) (t : Ty) (r i : Nat) : G.el t r i < 2 ^ t.bits := by
  cases hw : t.wide with
  | false => rw [el_narrow G hw]; exact Nat.mod_lt _ (Nat.two_pow_pos _)
  | true =>
    have hb : t.bits = 64 := eq_of_beq hw
    rw [Group.el, if_pos hw, hb]
    have h1 := (lane (G.rv r) i).isLt
    have h2 := (lane (G.rv (r + 1)) i).isLt
    omega

theorem wrapped_lt (t : Ty) (x : Int) : wrapped t x < 2 ^ t.bits := by
  have hpos : (0 : Int) < (2 ^ t.bits : Nat) := by exact_mod_cast Nat.two_pow_pos _
  have h := Int.emod_lt_of_pos x hpos
  rw [wrapped]
  omega

/-- A pattern is the wrapping of its integer. -/
theorem wrapped_intOf (t : Ty) {x : Nat} (hx : x < 2 ^ t.bits) : wrapped t (intOf t x) = x := by
  have h : intOf t x % (2 ^ t.bits : Nat) = x := by
    unfold intOf
    split
    · rw [Int.sub_emod_right]
      exact_mod_cast Nat.mod_eq_of_lt hx
    · exact_mod_cast Nat.mod_eq_of_lt hx
  rw [wrapped, h, Int.toNat_natCast]

theorem redId_lt {t : Ty} (ht : t.isInt = true) (k : RKind) : redId t k < 2 ^ t.bits := by
  have hpos := Nat.two_pow_pos t.bits
  unfold redId
  rw [(fmtOf_of_int ht).1]
  cases k with
  | min | max => exact wrapped_lt t _
  | and => exact Nat.sub_lt hpos Nat.one_pos
  | add | or | xor => exact hpos

/-! ### Reductions (R156) -/

section
variable {t : Ty} (ht : t.isInt = true) {sat : Bool} {xs : List Nat}

/-- The identity of a reduction of integers, and one step of it. -/
theorem redOp_of_int (ht : t.isInt = true) (k : RKind) (x y : Nat) : redOp t k x y = match k with
    | .min => if toInt t.isSigned t.bits y < toInt t.isSigned t.bits x then y else x
    | .max => if toInt t.isSigned t.bits x < toInt t.isSigned t.bits y then y else x
    | .and => x &&& y
    | .or => x ||| y
    | _ => x ^^^ y := by
  have hfmt : fmtOf t = none := (fmtOf_of_int ht).1
  cases k <;> simp only [redOp, hfmt]

include ht

theorem redSum_of_int (sat : Bool) (hx : ∀ x ∈ xs, x < 2 ^ t.bits) : reduce t sat .add xs = fitted t sat ((xs.map (intOf t)).sum) := by
  have hmap : xs.map (toInt t.isSigned t.bits) = xs.map (intOf t) := List.map_congr_left fun x h => toInt_eq_intOf t (hx x h)
  have hf32 : t ≠ .f32 := by rintro rfl; cases ht
  rw [reduce, if_pos rfl, if_neg hf32, redSum, hmap, List.sum_eq_foldl]
  rfl

end

/-- A choice between two values that prefers the lesser key finds, in a list, one of least key. -/
theorem foldl_chosen {op : Nat → Nat → Nat} {key : Nat → Int} (hsel : ∀ x y, op x y = if key y < key x then y else x) (xs : List Nat) (a : Nat) :
    xs.foldl op a ∈ a :: xs ∧ ∀ q ∈ a :: xs, key (xs.foldl op a) ≤ key q := by
  induction xs generalizing a with
  | nil => simp
  | cons x xs ih =>
    obtain ⟨hmem, hle⟩ := ih (op a x)
    rw [List.foldl_cons]
    have hop : op a x = a ∨ op a x = x := by rw [hsel]; split <;> simp
    have hkey : key (op a x) ≤ key a ∧ key (op a x) ≤ key x := by rw [hsel]; split <;> omega
    have hfold := hle _ List.mem_cons_self
    refine ⟨?_, fun q hq => ?_⟩
    · rcases List.mem_cons.1 hmem with h | h
      · rw [h]; rcases hop with h | h <;> simp [h]
      · exact List.mem_cons_of_mem _ (List.mem_cons_of_mem _ h)
    · rcases List.mem_cons.1 hq with rfl | hq
      · omega
      · rcases List.mem_cons.1 hq with rfl | hq
        · omega
        · exact hle q (List.mem_cons_of_mem _ hq)

section
variable {t : Ty} (ht : t.isInt = true) {sat : Bool} {xs : List Nat} (hx : ∀ x ∈ xs, x < 2 ^ t.bits)
include ht hx

omit ht in
/-- The reduction by a choice is the pattern of the chosen integer. -/
theorem reduceList_choice {k : RKind} {sgn : Int} (hsel : ∀ x y, redOp t k x y = if sgn * toInt t.isSigned t.bits y < sgn * toInt t.isSigned t.bits x then y else x)
    (hne : xs ≠ []) : ∃ v : Int, reduceList t k xs = wrapped t v ∧ (∀ q ∈ xs, sgn * v ≤ sgn * intOf t q) ∧ v ∈ xs.map (intOf t) := by
  cases xs with
  | nil => exact absurd rfl hne
  | cons a xs =>
    have haa : redOp t k a a = a := by rw [hsel]; split <;> rfl
    obtain ⟨hmem, hle⟩ := foldl_chosen (key := fun x => sgn * toInt t.isSigned t.bits x) hsel xs a
    refine ⟨intOf t (xs.foldl (redOp t k) a), ?_, fun q hq => ?_, List.mem_map_of_mem hmem⟩
    · rw [reduceList, haa, wrapped_intOf t (hx _ hmem)]
    · have h := hle q hq
      rwa [toInt_eq_intOf t (hx _ hmem), toInt_eq_intOf t (hx _ hq)] at h

theorem reduce_min (hne : xs ≠ []) : ∃ v : Int, reduce t sat .min xs = wrapped t v ∧ (∀ q ∈ xs, v ≤ intOf t q) ∧ v ∈ xs.map (intOf t) := by
  simpa [reduce] using reduceList_choice hx (k := .min) (sgn := 1) (fun x y => by simp [redOp_of_int ht]) hne

theorem reduce_max (hne : xs ≠ []) : ∃ v : Int, reduce t sat .max xs = wrapped t v ∧ (∀ q ∈ xs, intOf t q ≤ v) ∧ v ∈ xs.map (intOf t) := by
  simpa [reduce] using reduceList_choice hx (k := .max) (sgn := -1) (fun x y => by simp [redOp_of_int ht]) hne

theorem reduce_and : reduce t sat .and xs = xs.foldl (· &&& ·) (2 ^ t.bits - 1) := by
  have hop : redOp t .and = (· &&& ·) := funext fun x => funext fun y => redOp_of_int ht .and x y
  cases xs with
  | nil => simp [reduce, reduceList, redId, (fmtOf_of_int ht).1]
  | cons a xs =>
    have ha : (2 ^ t.bits - 1) &&& a = a := by
      rw [Nat.and_comm, Nat.and_two_pow_sub_one_eq_mod, Nat.mod_eq_of_lt (hx a List.mem_cons_self)]
    simp [reduce, reduceList, hop, ha]

theorem reduce_or : reduce t sat .or xs = xs.foldl (· ||| ·) 0 := by
  have hop : redOp t .or = (· ||| ·) := funext fun x => funext fun y => redOp_of_int ht .or x y
  cases xs with
  | nil => simp [reduce, reduceList, redId, (fmtOf_of_int ht).1]
  | cons a xs => simp [reduce, reduceList, hop]

omit hx in
theorem reduce_xor : reduce t sat .xor xs = xs.foldl (· ^^^ ·) 0 := by
  have hop : redOp t .xor = (· ^^^ ·) := funext fun x => funext fun y => redOp_of_int ht .xor x y
  simp [reduce, hop]

end

/-! ### The formats (R27, R28) -/

theorem decodeFmt_nan {t : Ty} {f : Fmt} (h : fmtOf t = some f) : decodeFmt f f.nan = .nan := by
  cases t with
  | f32 | f16 | bf16 | e4m3 | e5m2 =>
    obtain rfl := Option.some.inj h
    decide
  | _ => cases h

/-- The minimum or maximum of two NaNs is the canonical NaN. -/
theorem fMinMax_nan (mx : Bool) {f : Fmt} {x y : Nat} (hx : decodeFmt f x = .nan) (hy : decodeFmt f y = .nan) : fMinMax mx f x y = f.nan := by
  simp [fMinMax, hx, hy]

theorem foldl_fMinMax_nan (mx : Bool) {f : Fmt} (hf : decodeFmt f f.nan = .nan) (xs : List Nat) (h : ∀ p ∈ xs, decodeFmt f p = .nan) :
    xs.foldl (fMinMax mx f) f.nan = f.nan := by
  induction xs with
  | nil => rfl
  | cons x xs ih =>
    rw [List.foldl_cons, fMinMax_nan mx hf (h x List.mem_cons_self)]
    exact ih fun p hp => h p (List.mem_cons_of_mem _ hp)

section
variable {t : Ty} {f : Fmt} (hf : fmtOf t = some f) {k : RKind} (hk : k = .min ∨ k = .max) {sat : Bool} {xs : List Nat} (hne : xs ≠ [])
include hf hk hne

theorem reduce_fmt : reduce t sat k xs = xs.tail.foldl (fMinMax (k = .max) f) (fMinMax (k = .max) f (xs.headD 0) (xs.headD 0)) := by
  have hop : redOp t k = fMinMax (k = .max) f := by funext x y; rw [redOp, hf]
  cases xs with
  | nil => exact absurd rfl hne
  | cons a xs =>
    have hadd : k ≠ .add := by rcases hk with rfl | rfl <;> simp
    have hxor : k ≠ .xor := by rcases hk with rfl | rfl <;> simp
    rw [reduce, if_neg hadd, if_neg hxor, reduceList, hop]
    rfl

theorem reduce_fmt_nan (h : ∀ p ∈ xs, decodeFmt f p = .nan) : reduce t sat k xs = f.nan := by
  rw [reduce_fmt hf hk hne]
  cases xs with
  | nil => exact absurd rfl hne
  | cons a xs =>
    rw [List.headD_cons, fMinMax_nan _ (h a List.mem_cons_self) (h a List.mem_cons_self)]
    exact foldl_fMinMax_nan _ (decodeFmt_nan hf) xs fun p hp => h p (List.mem_cons_of_mem _ hp)

end

/-! ### Scans (R27, R156) -/

/-- The positions that a scan reduces for lane `i`. -/
def upTo (ex : Bool) (i : Nat) : Nat := if ex then i else i + 1

/-- What a scan gives lane `i`. -/
def scanOut (t : Ty) (sat : Bool) (k : RKind) (ex : Bool) (xs : List Nat) (i : Nat) : Nat :=
  (if ex then redId t k :: scanAll t sat k xs else scanAll t sat k xs).getD i 0

theorem scanF32_getD (xs : List Nat) (a d : Nat) {i : Nat} (h : i < xs.length) : (scanF32 a xs).getD i d = (xs.take (i + 1)).foldl addF32 a := by
  induction xs generalizing a i with
  | nil => simp at h
  | cons x xs ih =>
    rw [scanF32]
    cases i with
    | zero => simp
    | succ i => simpa using ih (addF32 a x) (by simpa using h)

section
variable {t : Ty} {sat : Bool} {k : RKind} {ex : Bool} {xs : List Nat} {i : Nat} (hi : i < xs.length)
include hi

theorem scanOut_f32 : scanOut .f32 sat .add ex xs i = (xs.take (upTo ex i)).foldl addF32 0x80000000 := by
  have hall : scanAll .f32 sat .add xs = scanF32 0x80000000 xs := rfl
  rw [scanOut, hall]
  cases ex with
  | false => exact scanF32_getD xs _ 0 hi
  | true =>
    cases i with
    | zero => rfl
    | succ i => exact scanF32_getD xs _ 0 (by omega)

/-- A scan gives every lane the reduction of the lanes up to it, or before it. -/
theorem scanOut_eq (h : k ≠ .add ∨ t ≠ .f32) :
    scanOut t sat k ex xs i = if upTo ex i = 0 then redId t k else reduce t sat k (xs.take (upTo ex i)) := by
  have hall : scanAll t sat k xs = (List.range xs.length).map fun i => reduce t sat k (xs.take (i + 1)) := by
    rw [scanAll, if_neg (by simpa [imp_iff_not_or] using h)]
  rw [scanOut, hall]
  cases ex with
  | false => simp [upTo, hi]
  | true =>
    cases i with
    | zero => rfl
    | succ i => simp [upTo, show i < xs.length by omega]

end

end Sys2Proof.Proofs
end

section
/-!
PROOFS. Lane exchange: what each instruction writes (R90, R153 to R157, R27, R28).
-/

namespace Sys2Proof.Proofs
open Sys2Proof Sys2Proof.Machine Sys2Proof.Claims

section
variable {s : State} {g n : Nat} {G : Machine.Group} {S : Split}

/-! ### The positions of a reduction (R90, R156) -/

/-- The pattern at position `i`: a participant's, or the identity. -/
def position (G : Machine.Group) (w : RedL) (m : Mask) (i : Nat) : Nat := if m.getLsbD i then G.el w.ty w.a.toNat i else redId w.ty w.kind

theorem positions_length (w : RedL) (m : Mask) : (positions G w m).length = 256 := by simp [positions]

theorem positions_ne_nil (w : RedL) (m : Mask) : positions G w m ≠ [] := List.ne_nil_of_length_eq_add_one (positions_length w m)

theorem take_positions (w : RedL) (m : Mask) {k : Nat} (hk : k ≤ 256) : (positions G w m).take k = (List.range k).map (position G w m) := by
  rw [positions, ← List.map_take, List.take_range, min_eq_left hk]
  rfl

theorem positions_eq (w : RedL) (m : Mask) : positions G w m = (List.range 256).map (position G w m) := rfl

theorem position_lt {w : RedL} (ht : w.ty.isInt = true) (m : Mask) (i : Nat) : position G w m i < 2 ^ w.ty.bits := by
  rw [position]
  split
  · exact el_lt _ _ _ _
  · exact redId_lt ht _

theorem positions_lt {w : RedL} (ht : w.ty.isInt = true) (m : Mask) (k : Nat) : ∀ x ∈ (List.range k).map (position G w m), x < 2 ^ w.ty.bits := by
  simp only [List.mem_map, forall_exists_index, and_imp, forall_apply_eq_imp_iff₂]
  exact fun i _ => position_lt ht m i

/-! ### Reductions and scans -/

section
variable (hl : LaneTurn s g G n S) {w : RedL} (hb : Below G (tyRegs w.ty w.d ++ tyRegs w.ty w.a)) (hm : Active G S w.g &&& ~~~G.memmask = 0)
include hl hb hm

theorem vred_writes : LaneWrites (.vred w) s g G n S w.ty w.d.toNat (Active G S w.g) fun _ =>
    reduce w.ty w.sat w.kind (positions G w (Active G S w.g)) := by
  have he : exec (.vred w) s = execVred w s := rfl
  rw [execVred] at he
  exact laneWrites_collective hl he hb hm rfl

theorem vscan_writes : LaneWrites (.vscan w) s g G n S w.ty w.d.toNat (Active G S w.g)
    (scanOut w.ty w.sat w.kind w.ex (positions G w (Active G S w.g))) := by
  have he : exec (.vscan w) s = execVscan w s := rfl
  rw [execVscan] at he
  exact laneWrites_collective hl he hb hm rfl

end

/-! ### Reductions of integers -/

theorem fitted_zero (t : Ty) (sat : Bool) : fitted t sat 0 = 0 := by
  have hlo : least t ≤ 0 := by unfold least; split <;> simp
  have hhi : 0 ≤ largest t := by
    have h1 := Nat.one_le_two_pow (n := t.bits - 1)
    have h2 := Nat.one_le_two_pow (n := t.bits)
    unfold largest; split <;> omega
  rw [fitted, min_eq_right hhi, max_eq_right hlo, ite_self, wrapped, Int.zero_emod]
  rfl

theorem redId_add {t : Ty} (ht : t.isInt = true) : redId t .add = 0 := by
  unfold redId
  rw [(fmtOf_of_int ht).1]

theorem upTo_le {ex : Bool} {i : Nat} (hi : i < 256) : upTo ex i ≤ 256 := by unfold upTo; split <;> omega

/-- A reduction of nothing, other than a sum, is the identity. -/
theorem reduce_nil {t : Ty} {k : RKind} (ht : t.isInt = true) (sat : Bool) (hk : k ≠ .add) : reduce t sat k [] = redId t k := by
  cases k with
  | add => exact absurd rfl hk
  | min | max | and | or => rfl
  | xor =>
    unfold redId
    rw [(fmtOf_of_int ht).1]
    rfl

section
variable {w : RedL} (ht : w.ty.isInt = true) (m : Mask)
include ht

theorem red_add : reduce w.ty w.sat .add (positions G w m) = fitted w.ty w.sat (((List.range 256).map fun i => intOf w.ty (position G w m i)).sum) := by
  rw [positions_eq, redSum_of_int ht _ (positions_lt ht m 256), List.map_map]
  rfl

theorem scan_add {i : Nat} (hi : i < 256) : scanOut w.ty w.sat .add w.ex (positions G w m) i =
    fitted w.ty w.sat (((List.range (upTo w.ex i)).map fun i => intOf w.ty (position G w m i)).sum) := by
  have hf32 : w.ty ≠ .f32 := fun h => by rw [h] at ht; cases ht
  rw [scanOut_eq (by rw [positions_length]; exact hi) (.inr hf32), take_positions w m (upTo_le hi), redSum_of_int ht _ (positions_lt ht m _), List.map_map]
  split
  · next h0 => rw [h0, redId_add ht]; exact (fitted_zero _ _).symm
  · rfl

/-- What a reduction other than a sum finds among the first `k` positions. -/
theorem red_first (k : Nat) :
    (w.kind = .min → k ≠ 0 → ∃ v : Int, reduce w.ty w.sat w.kind ((List.range k).map (position G w m)) = wrapped w.ty v ∧
      (∀ j < k, v ≤ intOf w.ty (position G w m j)) ∧ v ∈ (List.range k).map fun i => intOf w.ty (position G w m i)) ∧
    (w.kind = .max → k ≠ 0 → ∃ v : Int, reduce w.ty w.sat w.kind ((List.range k).map (position G w m)) = wrapped w.ty v ∧
      (∀ j < k, intOf w.ty (position G w m j) ≤ v) ∧ v ∈ (List.range k).map fun i => intOf w.ty (position G w m i)) ∧
    (w.kind = .and → reduce w.ty w.sat w.kind ((List.range k).map (position G w m)) = ((List.range k).map (position G w m)).foldl (· &&& ·) (2 ^ w.ty.bits - 1)) ∧
    (w.kind = .or → reduce w.ty w.sat w.kind ((List.range k).map (position G w m)) = ((List.range k).map (position G w m)).foldl (· ||| ·) 0) ∧
    (w.kind = .xor → reduce w.ty w.sat w.kind ((List.range k).map (position G w m)) = ((List.range k).map (position G w m)).foldl (· ^^^ ·) 0) := by
  have hlt := positions_lt (G := G) ht m k
  have hne (h : k ≠ 0) : (List.range k).map (position G w m) ≠ [] := by simpa using h
  have hmem {j : Nat} (h : j < k) : position G w m j ∈ (List.range k).map (position G w m) := List.mem_map_of_mem (List.mem_range.2 h)
  refine ⟨fun h h0 => ?_, fun h h0 => ?_, fun h => ?_, fun h => ?_, fun h => ?_⟩
  · obtain ⟨v, hv, hle, hin⟩ := reduce_min (sat := w.sat) ht hlt (hne h0)
    rw [List.map_map] at hin
    exact ⟨v, h ▸ hv, fun j hj => hle _ (hmem hj), hin⟩
  · obtain ⟨v, hv, hle, hin⟩ := reduce_max (sat := w.sat) ht hlt (hne h0)
    rw [List.map_map] at hin
    exact ⟨v, h ▸ hv, fun j hj => hle _ (hmem hj), hin⟩
  · rw [h]; exact reduce_and ht hlt
  · rw [h]; exact reduce_or ht hlt
  · rw [h]; exact reduce_xor ht

theorem scan_other (hk : w.kind ≠ .add) {i : Nat} (hi : i < 256) :
    scanOut w.ty w.sat w.kind w.ex (positions G w m) i = reduce w.ty w.sat w.kind ((List.range (upTo w.ex i)).map (position G w m)) := by
  rw [scanOut_eq (by rw [positions_length]; exact hi) (.inl hk), take_positions w m (upTo_le hi)]
  split
  · next h0 => rw [h0, List.range_zero, List.map_nil, reduce_nil ht _ hk]
  · rfl

end

/-! ### Reductions of floats (R27, R28) -/

theorem wide_of_fmtOf {t : Ty} {f : Fmt} (h : fmtOf t = some f) : t.wide = false := by
  cases t with
  | i64 | n64 => cases h
  | _ => rfl

theorem tyRegs_narrow {t : Ty} (h : t.wide = false) (r : VReg) : tyRegs t r = [r.toNat] := by
  rw [tyRegs, h]
  rfl

end

/-! ### The instructions that are collectives (R90) -/

section
variable (s : State)

/-- The group after a vote `v` of the lanes `m`. -/
def voted (G : Machine.Group) (kind : VoteKind) (pd : PReg) (m v : Mask) : Machine.Group :=
  match kind with
  | .ballot => { G with vote := v }
  | .any => { G with vote := v }.wpMask pd m (if v = 0 then 0 else Mask.all)
  | .all => { G with vote := v }.wpMask pd m (if v = m then Mask.all else 0)

theorem exec_vred (w : RedL) : ∃ k, exec (.vred w) s = collective s w.g false (tyRegs w.ty w.d ++ tyRegs w.ty w.a) [] k :=
  ⟨_, show execVred w s = _ by rw [execVred]⟩

theorem exec_vscan (w : RedL) : ∃ k, exec (.vscan w) s = collective s w.g false (tyRegs w.ty w.d ++ tyRegs w.ty w.a) [] k :=
  ⟨_, show execVscan w s = _ by rw [execVscan]⟩

theorem exec_vperm (w : PermL) : ∃ k, exec (.vperm w) s = collective s w.g false (tyRegs w.ty w.d ++ tyRegs w.ty w.a ++ opndRegs .n32 w.b) [] k :=
  ⟨_, show execVperm w s = _ by rw [execVperm, permStep]⟩

theorem exec_vbcast (w : PermL) : ∃ k, exec (.vbcast w) s = collective s w.g false (tyRegs w.ty w.d ++ tyRegs w.ty w.a ++ opndRegs .n32 w.b) [] k :=
  ⟨_, show execVbcast w s = _ by rw [execVbcast, permStep]⟩

theorem exec_vvote (gd : LGuard) (kind : VoteKind) (pd pa : PReg) : exec (.vvote gd kind pd pa) s = collective s gd false [] [] fun g G n _ m =>
    .next (afterLane s g n (voted G kind pd m (m &&& G.rp pa))) := by
  change execVvote gd kind pd pa s = _
  rw [execVvote]
  cases kind <;> rfl

theorem exec_velect (gd : LGuard) (pd : PReg) : exec (.velect gd pd) s = collective s gd false [] [] fun g G n _ m =>
    .next (afterLane s g n (G.wpMask pd m ((lowest m).elim 0 fun i => (1 : Mask) <<< i))) := by
  change execVelect gd pd s = _
  rw [execVelect]
  refine congrArg _ (funext fun g => funext fun G => funext fun n => funext fun S => funext fun m => ?_)
  cases lowest m <;> rfl

end

/-- Settles O26: shifts take their lane; permutes, reductions, scans and votes are collectives of the active lanes. -/
theorem laneExchange : Obligations.LaneExchange := by
  intro s g G n S hl
  refine ⟨fun w hw hb => ?_, fun w hw hb => ?_, fun w hb => ?_, fun w ht hb => ?_, fun w hty hk hb => ?_,
    fun w f hf hk hb => ?_, fun w hb ho => ⟨?_, ?_⟩, fun gd kind pd pa ho => ⟨?_, ?_⟩, fun gd pd pa hm => ⟨?_, ?_, ?_⟩,
    fun gd pd hm => ⟨fun h0 => ?_, fun i hi hmi hlow => ?_⟩⟩
  · refine ⟨fun hr => ⟨?_, ?_⟩, fun hr => ⟨?_, ?_⟩⟩
    · refine shift_narrow (i := .vshup w) (up := true) hl rfl hb hw fun j => ?_
      rw [shiftSource_up hr]; split <;> rfl
    · refine shift_narrow (i := .vshdn w) (up := false) hl rfl hb hw fun j => ?_
      rw [shiftSource_down hr]; split <;> rfl
    · exact shift_narrow (i := .vshup w) (up := true) hl rfl hb hw fun j => by rw [hr, shiftSource_rot]; rfl
    · exact shift_narrow (i := .vshdn w) (up := false) hl rfl hb hw fun j => by rw [hr, shiftSource_rot]; rfl
  · refine ⟨fun hr => ⟨?_, ?_⟩, fun hr => ⟨?_, ?_⟩⟩
    · refine shift_wide (i := .vshup w) (up := true) hl rfl hb hw fun j => ?_
      rw [shiftSource_up hr]; split <;> rfl
    · refine shift_wide (i := .vshdn w) (up := false) hl rfl hb hw fun j => ?_
      rw [shiftSource_down hr]; split <;> rfl
    · exact shift_wide (i := .vshup w) (up := true) hl rfl hb hw fun j => by rw [hr, shiftSource_rot]; rfl
    · exact shift_wide (i := .vshdn w) (up := false) hl rfl hb hw fun j => by rw [hr, shiftSource_rot]; rfl
  · refine ⟨fun hm => ⟨?_, ?_⟩, fun hm => ⟨?_, ?_⟩⟩
    · exact perm_writes (i := .vperm w) hl rfl hb hm
    · exact perm_writes (i := .vbcast w) hl rfl hb hm
    · obtain ⟨k, he⟩ := exec_vperm s w
      exact collective_outside hl he hb hm
    · obtain ⟨k, he⟩ := exec_vbcast s w
      exact collective_outside hl he hb hm
  · intro m x hm
    have hred := vred_writes hl hb hm
    have hscan := vscan_writes hl hb hm
    have hlist (i : Nat) (hi : i < 256) : (positions G w m).take (upTo w.ex i) = (List.range (upTo w.ex i)).map (position G w m) :=
      take_positions w m (upTo_le hi)
    obtain ⟨hmin, hmax, hand, hor, hxor⟩ := red_first (G := G) ht m 256
    refine ⟨fun hk => ⟨?_, _, hscan, fun i hi => ?_⟩, fun hk => ?_, fun hk => ?_, fun hk => ⟨_, hscan, fun i hi => ?_⟩, fun hk => ?_, fun hk => ?_, fun hk => ?_⟩
    · rw [hk, red_add ht] at hred
      exact hred
    · rw [hk]
      exact scan_add ht m hi
    · obtain ⟨v, hv, hle, hin⟩ := hmin hk (by omega)
      rw [positions_eq, hv] at hred
      exact ⟨v, hred, hle, hin⟩
    · obtain ⟨v, hv, hle, hin⟩ := hmax hk (by omega)
      rw [positions_eq, hv] at hred
      exact ⟨v, hred, hle, hin⟩
    · obtain ⟨hmin, hmax, hand, hor, hxor⟩ := red_first (G := G) ht m (upTo w.ex i)
      rw [scan_other ht m hk hi]
      refine ⟨fun h0 => ?_, hmin, hmax, fun hk => ?_, fun hk => ?_, fun hk => ?_⟩
      · rw [show upTo w.ex i = 0 from h0]
        exact reduce_nil ht _ hk
      · exact (hand hk).trans (by rw [← hlist i hi]; rfl)
      · exact (hor hk).trans (by rw [← hlist i hi]; rfl)
      · exact (hxor hk).trans (by rw [← hlist i hi]; rfl)
    · rw [positions_eq, hand hk] at hred
      exact hred
    · rw [positions_eq, hor hk] at hred
      exact hred
    · rw [positions_eq, hxor hk] at hred
      exact hred
  · intro m pats hm
    have hpats : positions G w m = pats := by rw [positions, hty, hk]; rfl
    have hregs : tyRegs w.ty w.d ++ tyRegs w.ty w.a = [w.d.toNat, w.a.toNat] := by rw [hty]; rfl
    have hred := vred_writes hl (hregs ▸ hb) hm
    have hscan := vscan_writes hl (hregs ▸ hb) hm
    rw [hpats, hty, hk] at hred hscan
    refine ⟨hred, _, hscan, fun i hi => ?_⟩
    exact scanOut_f32 (by rw [← hpats, positions_length]; exact hi)
  · intro m pats hm
    have hw := wide_of_fmtOf hf
    have hregs : tyRegs w.ty w.d ++ tyRegs w.ty w.a = [w.d.toNat, w.a.toNat] := by rw [tyRegs_narrow hw, tyRegs_narrow hw]; rfl
    refine ⟨_, vred_writes hl (hregs ▸ hb) hm, reduce_fmt hf hk (positions_ne_nil w m), reduce_fmt_nan hf hk (positions_ne_nil w m),
      _, vscan_writes hl (hregs ▸ hb) hm, fun i hi => ?_⟩
    have hadd : w.kind ≠ .add := by rcases hk with h | h <;> simp [h]
    rw [scanOut_eq (by rw [positions_length]; exact hi) (.inl hadd)]
    refine ⟨fun h0 => if_pos h0, fun (h0 : upTo w.ex i ≠ 0) => ?_⟩
    rw [if_neg h0]
    have hne : (positions G w m).take (upTo w.ex i) ≠ [] := by simpa [positions_ne_nil] using h0
    refine ⟨(reduce_fmt hf hk hne).trans ?_, reduce_fmt_nan hf hk hne⟩
    obtain ⟨k, hk'⟩ := Nat.exists_eq_succ_of_ne_zero h0
    have hhead : ((positions G w m).take (upTo w.ex i)).headD 0 = pats.headD 0 := by
      rw [hk', List.headD_eq_head?_getD, List.head?_take, if_neg (Nat.succ_ne_zero k), ← List.headD_eq_head?_getD]
      rfl
    rw [hhead]
    rfl
  · obtain ⟨k, he⟩ := exec_vred s w
    exact collective_outside hl he hb ho
  · obtain ⟨k, he⟩ := exec_vscan s w
    exact collective_outside hl he hb ho
  · exact collective_outside hl (exec_vvote s gd kind pd pa) below_nil ho
  · exact collective_outside hl (exec_velect s gd pd) below_nil ho
  · exact laneBecomes_collective hl (exec_vvote s gd .ballot pd pa) below_nil hm rfl rfl
  · exact predWrites_collective hl (exec_vvote s gd .any pd pa) hm rfl rfl
  · exact predWrites_collective hl (exec_vvote s gd .all pd pa) hm rfl rfl
  · refine predWrites_collective hl (exec_velect s gd pd) hm ?_ rfl
    rw [show Active G S gd = 0 from h0]
    rfl
  · refine predWrites_collective hl (exec_velect s gd pd) hm ?_ rfl
    rw [lowest_of_first hi hmi hlow]
    rfl

end Sys2Proof.Proofs
end

section
/-!
PROOFS. The outcome of a launch and its end (R292, R306).
-/

namespace Sys2Proof.Proofs
open Sys2Proof Sys2Proof.Machine Sys2Proof.Claims

/-! ### The outcome (R306) -/

/-- All of the first `n` bits of a word are set, or some is. -/
theorem mod_two_pow_eq_ones_iff (x n : Nat) : x % 2 ^ n = 2 ^ n - 1 ↔ ∀ i < n, x.testBit i = true := by
  constructor
  · intro h i hi
    have hb := congrArg (Nat.testBit · i) h
    simpa [Nat.testBit_mod_two_pow, Nat.testBit_two_pow_sub_one, hi] using hb
  · intro h
    refine Nat.eq_of_testBit_eq fun i => ?_
    by_cases hi : i < n
    · simp [Nat.testBit_mod_two_pow, Nat.testBit_two_pow_sub_one, hi, h i hi]
    · simp [Nat.testBit_mod_two_pow, Nat.testBit_two_pow_sub_one, hi]

theorem mod_two_pow_ne_zero_iff (x n : Nat) : x % 2 ^ n ≠ 0 ↔ ∃ i < n, x.testBit i = true := by
  constructor
  · intro h
    by_contra hno
    refine h (Nat.eq_of_testBit_eq fun i => ?_)
    by_cases hi : i < n
    · simpa [Nat.testBit_mod_two_pow, hi] using fun hb => hno ⟨i, hi, hb⟩
    · simp [Nat.testBit_mod_two_pow, hi]
  · rintro ⟨i, hi, hb⟩ h
    have := congrArg (Nat.testBit · i) h
    simp [Nat.testBit_mod_two_pow, hi, hb] at this

theorem launchOutcome_holds : Claims.LaunchOutcome := by
  intro s L hn st all any
  have hall : L.valid.toNat % 2 ^ L.blockcnt = 2 ^ L.blockcnt - 1 ↔ all := mod_two_pow_eq_ones_iff _ _
  have hany : L.valid.toNat % 2 ^ L.blockcnt ≠ 0 ↔ any := mod_two_pow_ne_zero_iff _ _
  have hst : (L.act.bind fun a => mget s.acts a).map (·.st) = st := rfl
  unfold launchOutcome
  simp only [hst]
  refine ⟨fun hf => if_pos hf, fun hf ha => ?_, fun hf ha => ?_, fun hf ha hs => ⟨fun h => ?_, fun hw he => ⟨fun h => ?_, fun h h' => ?_, fun h h0 => ?_⟩⟩⟩
  · rw [if_neg (by simp [hf]), if_pos ha]
  · rw [if_neg (by simp [hf]), if_neg (by rw [ha]; simp), if_pos ha]
  · rw [if_neg (by simp [hf]), if_neg ha, if_neg hs, if_pos (by rcases h with h | h <;> simp [h])]
  all_goals have hlate : ¬ (L.wrapped.isNone || !L.endedLate) = true := by simp [he, hw]
  · rw [if_neg (by simp [hf]), if_neg ha, if_neg hs, if_neg hlate, if_pos (hall.2 h)]
  · rw [if_neg (by simp [hf]), if_neg ha, if_neg hs, if_neg hlate, if_neg (mt hall.1 h), if_pos (hany.2 h')]
  · have hz : L.valid.toNat % 2 ^ L.blockcnt = 0 := not_not.1 (mt hany.1 h)
    have h1 := Nat.one_lt_two_pow h0.ne'
    rw [if_neg (by simp [hf]), if_neg ha, if_neg hs, if_neg hlate, if_neg (by omega), if_neg (not_not.2 hz)]

/-! ### What a completion leaves of the launches (R292, R356) -/

/-- The launches are the same. -/
def SameLaunches (s t : State) : Prop := t.launches = s.launches

theorem SameLaunches.trans {s t u : State} (h : SameLaunches s t) (h' : SameLaunches t u) : SameLaunches s u := Eq.trans h' h

theorem SameLaunches.of_coh {s t : State} (h : CohOnly s t) : SameLaunches s t := by
  rw [SameLaunches, h]

theorem SameLaunches.foldl {α : Type} {f : State → α → State} (h : ∀ s a, SameLaunches s (f s a)) (l : List α) (s : State) : SameLaunches s (l.foldl f s) := by
  induction l generalizing s with
  | nil => rfl
  | cons a l ih => exact (h s a).trans (ih _)

theorem notePage_none (s : State) (a : Nat) : notePage s none a = s.launches := by
  have h : (fun p : Nat × Launch => p) = id := rfl
  simp [notePage, h]

theorem ostlerWrite_launches (s : State) (pa n x : Nat) : SameLaunches s (ostlerWrite s pa n x) := by
  unfold ostlerWrite ostlerPut
  split
  · exact (SameLaunches.of_coh (girthReaches_coh s pa)).trans (notePage_none _ _)
  · rfl

theorem sendMsix_launches (s : State) (q : Nat) : SameLaunches s (sendMsix s q) := by
  unfold sendMsix
  split
  · rfl
  · dsimp only
    split <;> rfl

theorem writeRecord_launches (s : State) (q : Nat) (Q : Queue) (r : CRec) : SameLaunches s (writeRecord s q Q r) := by
  unfold writeRecord
  extract_lets a s1 s2 s3 s4
  have h1 : SameLaunches s s1 := ostlerWrite_launches _ _ _ _
  have h2 : SameLaunches s1 s2 := ostlerWrite_launches _ _ _ _
  have h3 : SameLaunches s2 s3 := ostlerWrite_launches _ _ _ _
  have h4 : SameLaunches s3 s4 := rfl
  have h := ((h1.trans h2).trans h3).trans h4
  split
  · exact h.trans (sendMsix_launches _ _)
  · exact h

theorem logBlocked_launches (s : State) (l : List Nat) : SameLaunches s (logBlocked s l) :=
  SameLaunches.foldl (f := fun s a => logErr s 4 5 0 none a none) (fun _ _ => rfl) (l.filter fun pa => !ostlerMay s pa) s

theorem putRecord_launches (s : State) (q : Nat) (r : CRec) : SameLaunches s (putRecord s q r) := by
  unfold putRecord
  split
  · rfl
  · split
    · rfl
    · extract_lets full s1
      have h1 : SameLaunches s s1 := logBlocked_launches _ _
      split
      · exact h1.trans rfl
      · exact h1.trans (writeRecord_launches _ _ _ _)

theorem endPkt_launches (s : State) (k o b : Nat) (v : Word) (now : Bool) : SameLaunches s (endPkt s k o b v now) := by
  unfold endPkt
  split
  · rfl
  · exact SameLaunches.trans (t := { s with pkts := mdel s.pkts k }) rfl (putRecord_launches _ _ _)

theorem settleBarriers_launches (n : Nat) (s : State) : SameLaunches s (settleBarriers n s) := by
  induction n generalizing s with
  | zero => rfl
  | succ n ih =>
    unfold settleBarriers
    split
    · rfl
    · exact (endPkt_launches _ _ _ _ _ _).trans (ih _)

theorem finishPkt_launches (s : State) (k o b : Nat) (v : Word) (now : Bool) : SameLaunches s (finishPkt s k o b v now) :=
  (endPkt_launches _ _ _ _ _ _).trans (settleBarriers_launches _ _)

/-- A launch without an activity that ends is COMPLETE. -/
theorem finishLaunch_complete {s : State} {l : Nat} {L : Launch} (hL : mget s.launches l = some L) (ha : L.act = none) :
    mget (finishLaunch s l L).launches l = some { L with st := .complete, phasers := [], pages := [] } := by
  unfold finishLaunch
  extract_lets out s1 s2 s3 s4
  have h1 : SameLaunches s s1 := by
    unfold s1
    rw [ha]
    rfl
  have h2 : SameLaunches s1 s2 := by
    unfold s2
    split
    · exact (ostlerWrite_launches _ _ _ _).trans (ostlerWrite_launches _ _ _ _)
    · rfl
  have h3 : SameLaunches s s3 := (h1.trans h2).trans rfl
  rw [show (finishPkt s4 L.pkt out L.blockcnt (BitVec.ofNat 64 L.valid.toNat) L.deadline.isSome).launches = s4.launches from finishPkt_launches _ _ _ _ _ _]
  refine (mget_mupd_same s3.launches l _).trans ?_
  rw [show s3.launches = s.launches from h3, hL]
  rfl

theorem launchEnds (s : State) (l : Nat) (L : Launch) (hL : mget s.launches l = some L) (hc : L.st ≠ .complete) (hr : L.st ≠ .rolling) :
    (launchOver s l L = true → L.act = none → translate s L.ctx girthCore none L.bitmap { r := false, w := true } ≠ .fatal →
      ∃ t L', exec (.launchComplete l) s = .next t ∧ mget t.launches l = some L' ∧ L'.st = .complete ∧ L'.phasers = []) ∧
    (launchOver s l L = false → exec (.launchComplete l) s = .next s) := by
  have hexec : exec (.launchComplete l) s = execLaunchComplete l s := rfl
  rw [execLaunchComplete, hL] at hexec
  dsimp only at hexec
  refine ⟨fun ho ha hf => ?_, fun ho => ?_⟩
  · have hs : actSettled s L = true := by rw [actSettled, ha]; rfl
    rw [if_pos (by simp [hc, hr, ho, hs]), if_neg hf] at hexec
    exact ⟨_, _, hexec, finishLaunch_complete hL ha, rfl, rfl⟩
  · rw [if_neg (by simp [ho])] at hexec
    exact hexec

end Sys2Proof.Proofs
end

section
/-!
PROOFS. The replay of a launch and its slack class (R92, R309).
-/

namespace Sys2Proof.Proofs
open Sys2Proof Sys2Proof.Machine Sys2Proof.Claims

/-! ### Maps -/

theorem eq_of_sorted {β : Type} {m : SMap β} (hm : Sorted m) {k : Nat} {x y : β} (hx : (k, x) ∈ m) (hy : (k, y) ∈ m) : x = y := by
  have hnodup : (m.map (·.1)).Nodup := hm.imp ne_of_lt
  exact congrArg Prod.snd (List.inj_on_of_nodup_map hnodup hx hy rfl)

theorem mget_map_pair {β : Type} (m : SMap β) (f : Nat → β → β) (k : Nat) : mget (m.map fun (i, x) => (i, f i x)) k = (mget m k).map (f k) := by
  induction m with
  | nil => rfl
  | cons p m ih =>
    obtain ⟨i, v⟩ := p
    rw [List.map_cons, mget, mget]
    split
    · next h => rw [h]; rfl
    · exact ih

/-! ### The slack class (R92) -/

theorem slackClass_room (now w : Nat) (L : Launch) (hw : L.wrap = some w) (hlt : now < w) :
    slackClass now L = if 1000 * L.desc.estimate ≤ (w - now) * L.blockcnt then
      (if 4 * (1000 * L.desc.estimate) ≤ (w - now) * L.blockcnt then
        (if 16 * (1000 * L.desc.estimate) ≤ (w - now) * L.blockcnt then 3 else 2) else 1) else 0 := by
  unfold slackClass
  rw [hw]
  simp only [show ¬ w ≤ now by omega, decide_false, Bool.false_or, Bool.not_eq_true', decide_eq_false_iff_not, Nat.mul_assoc]
  generalize (w - now) * L.blockcnt = room
  generalize L.desc.estimate = e
  split_ifs <;> omega

theorem slackRecomputed (s : State) : ∃ t, exec .slackClassRecompute s = .next t ∧ t.groups = s.groups ∧ t.mem = s.mem ∧
    ∀ l L, mget s.launches l = some L → ∃ L', mget t.launches l = some L' ∧ L' = { L with slack := slackClass s.now L } := by
  refine ⟨_, rfl, rfl, rfl, fun l L hL => ⟨_, ?_, rfl⟩⟩
  exact (mget_map_pair s.launches (fun _ L => { L with slack := slackClass s.now L }) l).trans (by rw [hL]; rfl)

/-! ### What undoing the start of blocks leaves (R309) -/

/-- A block of launch `l` of its own. -/
def OwnBlock (l : Nat) (B : Block) : Prop := B.launch = l ∧ B.comp = none ∧ B.audit = none

/-- Groups go and blocks change, but each block belongs where it did. -/
structure Cancels (s t : State) : Prop where
  mem : t.mem = s.mem
  launches : t.launches = s.launches
  groups : ∀ p ∈ t.groups, p ∈ s.groups
  blocks : ∀ b B, mget s.blocks b = some B → ∃ B', mget t.blocks b = some B' ∧ ∀ l, OwnBlock l B → OwnBlock l B'

theorem Cancels.refl (s : State) : Cancels s s := ⟨rfl, rfl, fun _ => id, fun _ B h => ⟨B, h, fun _ => id⟩⟩

theorem Cancels.trans {s t u : State} (h : Cancels s t) (h' : Cancels t u) : Cancels s u where
  mem := h'.mem.trans h.mem
  launches := h'.launches.trans h.launches
  groups p hp := h.groups p (h'.groups p hp)
  blocks b B hB := by
    obtain ⟨B', hB', hown⟩ := h.blocks b B hB
    obtain ⟨B'', hB'', hown'⟩ := h'.blocks b B' hB'
    exact ⟨B'', hB'', fun l hl => hown' l (hown l hl)⟩

theorem cancelStart_cancels (s : State) (b : Nat) : Cancels s (cancelStart s b) := by
  unfold cancelStart
  split
  · next B hB =>
    split
    · exact Cancels.refl s
    · refine ⟨rfl, rfl, fun p hp => (List.mem_filter.1 hp).1, fun b' B' hB' => ?_⟩
      have hget : mget (mupd s.blocks b fun B => { B with st := .waiting, fixed := [] }) b' = _ := mget_mupd _ _ _ _
      by_cases h : b' = b
      · subst h
        rw [if_pos rfl, hB'] at hget
        exact ⟨_, hget, fun _ => id⟩
      · rw [if_neg h, hB'] at hget
        exact ⟨_, hget, fun _ => id⟩
  · exact Cancels.refl s

theorem cancelStarts_cancels (s : State) (l : Nat) : Cancels s (cancelStarts s l) := by
  unfold cancelStarts
  generalize s.blocks.filter _ = bs
  induction bs generalizing s with
  | nil => exact Cancels.refl s
  | cons p bs ih => exact (cancelStart_cancels s p.1).trans (ih _)

/-! ### The pages of a launch (R309) -/

/-- What a restored page reads: its listed cells, zero elsewhere; the other pages stay. -/
theorem memRead_restored (m : List Host.Cell) (p : Nat) (cells : List Host.Cell) (hn : (cells.map (·.1)).Nodup) (hp : ∀ c ∈ cells, c.1 / 4096 = p) :
    let m' := cells.foldl (fun m c => memWrite m c.1 c.2) (m.filter fun c => c.1 / 4096 != p)
    (∀ c ∈ cells, memRead m' c.1 = c.2) ∧ (∀ a, a / 4096 = p → a ∉ cells.map (·.1) → memRead m' a = 0) ∧ ∀ a, a / 4096 ≠ p → memRead m' a = memRead m a := by
  have hout (cells : List Host.Cell) (m : List Host.Cell) (a : Nat) (h : a ∉ cells.map (·.1)) :
      memRead (cells.foldl (fun m c => memWrite m c.1 c.2) m) a = memRead m a := by
    induction cells generalizing m with
    | nil => rfl
    | cons c cells ih =>
      rw [List.map_cons, List.mem_cons, not_or] at h
      rw [List.foldl_cons, ih _ h.2, memRead_memWrite, if_neg h.1]
  have hin (cells : List Host.Cell) (m : List Host.Cell) (hn : (cells.map (·.1)).Nodup) :
      ∀ c ∈ cells, memRead (cells.foldl (fun m c => memWrite m c.1 c.2) m) c.1 = c.2 := by
    induction cells generalizing m with
    | nil => simp
    | cons c cells ih =>
      rw [List.map_cons, List.nodup_cons] at hn
      intro d hd
      rcases List.mem_cons.1 hd with rfl | hd
      · rw [List.foldl_cons, hout _ _ _ hn.1, memRead_memWrite, if_pos rfl]
      · exact ih _ hn.2 d hd
  have hfilter (a : Nat) : memRead (m.filter fun c => c.1 / 4096 != p) a = if a / 4096 != p then memRead m a else 0 := by
    rw [memRead, mget_filter_key m fun a => a / 4096 != p]
    split <;> rfl
  refine ⟨hin cells _ hn, fun a ha hc => ?_, fun a ha => ?_⟩
  · rw [hout _ _ _ hc, hfilter, if_neg (by simp [ha])]
  · rw [hout _ _ _ fun h => ?_, hfilter, if_pos (by simp [ha])]
    obtain ⟨c, hc, rfl⟩ := List.mem_map.1 h
    exact ha (hp c hc)

/-- Restoring pages leaves groups, blocks and launches. -/
theorem restorePages_leaves (s : State) (pages : List (Nat × List Host.Cell)) :
    (restorePages s pages).groups = s.groups ∧ (restorePages s pages).blocks = s.blocks ∧ (restorePages s pages).launches = s.launches := by
  unfold restorePages
  induction pages generalizing s with
  | nil => exact ⟨rfl, rfl, rfl⟩
  | cons p pages ih =>
    obtain ⟨p, cells⟩ := p
    obtain ⟨hg, hb, hl⟩ := ih _
    have hcoh : CohOnly s ((List.range 64).foldl (fun s i => girthReaches s (4096 * p + 64 * i)) s) := CohOnly.foldl (fun s i => girthReaches_coh s _) _ _
    rw [List.foldl_cons]
    refine ⟨hg.trans ?_, hb.trans ?_, hl.trans ?_⟩
    all_goals dsimp only; rw [hcoh]; rfl

theorem restorePages_one_mem (s : State) (p : Nat) (cells : List Host.Cell) :
    (restorePages s [(p, cells)]).mem = cells.foldl (fun m c => memWrite m c.1 c.2) (s.mem.filter fun c => c.1 / 4096 != p) := by
  have hcoh : CohOnly s ((List.range 64).foldl (fun s i => girthReaches s (4096 * p + 64 * i)) s) := CohOnly.foldl (fun s i => girthReaches_coh s _) _ _
  rw [restorePages, List.foldl_cons, List.foldl_nil]
  dsimp only
  rw [hcoh]

/-! ### The replay (R309) -/

section
variable {s : State} {l : Nat} {L : Launch}

/-- The state as a replay finds it: the pages are restored, and no block is starting. -/
abbrev unstartedState (s : State) (l : Nat) (L : Launch) : State := cancelStarts (restorePages s L.pages) l

theorem unstartedState_launches (s : State) (l : Nat) (L : Launch) : (unstartedState s l L).launches = s.launches :=
  (cancelStarts_cancels _ l).launches.trans (restorePages_leaves s L.pages).2.2

theorem unstartedState_mem (s : State) (l : Nat) (L : Launch) : (unstartedState s l L).mem = (restorePages s L.pages).mem := (cancelStarts_cancels _ l).mem

theorem unstartedState_groups {p : Nat × Machine.Group} (h : p ∈ (unstartedState s l L).groups) : p ∈ s.groups :=
  (restorePages_leaves s L.pages).1 ▸ (cancelStarts_cancels _ l).groups p h

theorem unstartedState_block {b : Nat} {B : Block} (hB : mget s.blocks b = some B) (hown : OwnBlock l B) :
    ∃ B', mget (unstartedState s l L).blocks b = some B' ∧ OwnBlock l B' := by
  rw [← (restorePages_leaves s L.pages).2.1] at hB
  obtain ⟨B', hB', h⟩ := (cancelStarts_cancels _ l).blocks b B hB
  exact ⟨B', hB', h l hown⟩

/-- Block `b` is one of launch `l` of its own. -/
def isOwn (s : State) (l b : Nat) : Bool := ((mget s.blocks b).map fun B => B.launch == l && B.comp.isNone && B.audit.isNone).getD false

theorem isOwn_of_ownBlock {b : Nat} {B : Block} (hB : mget s.blocks b = some B) (h : OwnBlock l B) : isOwn s l b = true := by
  obtain ⟨hl, hc, ha⟩ := h
  simp [isOwn, hB, hl, hc, ha]

/-- The launch as a replay admits it again. -/
def readmitted (L : Launch) : Launch :=
  { L with pages := [], valid := 0, next := 0, handed := 0, returns := [], done := 0, st := .admitted, replays := L.replays + 1, wrap := L.wrapTime,
           wrapped := none, dispWrapped := false, phasers := [], killed := false, endedLate := false }

/-- A rolled-back launch with no finite deadline is replayed. -/
theorem launchReplay_of_rolling (hL : mget s.launches l = some L) (hst : L.st = .rolling) (hops : ∀ p ∈ s.ops, p.2.launch = some l → p.2.replays = true)
    (hr : L.replays < 2) (hd : L.deadline = none) :
    exec (.launchReplay l) s = .next ({ unstartedState s l L with
      groups := (unstartedState s l L).groups.filter fun p => !isOwn (unstartedState s l L) l p.2.blk,
      blocks := (unstartedState s l L).blocks.map fun (b, B) => (b, if isOwn (unstartedState s l L) l b then unstarted B else B) }.modLaunch l readmitted) := by
  have hexec : exec (.launchReplay l) s = execLaunchReplay l s := rfl
  have hany : (s.ops.any fun p => p.2.launch == some l && !p.2.replays) = false := by
    refine List.any_eq_false.2 fun p hp => ?_
    simpa using hops p hp
  have hmay : mayReplay (unstartedState s l L) L = true := by simp [mayReplay, hr, Launch.wrapTime, hd]
  rw [hexec, execLaunchReplay, hL]
  dsimp only
  rw [if_neg (by rw [hst]; simpa using hany), if_pos hmay]
  rfl

end

theorem launchReplays (s : State) (l : Nat) (L : Launch) (hL : mget s.launches l = some L) (hst : L.st = .rolling) (hsorted : Sorted s.groups)
    (hops : ∀ p ∈ s.ops, p.2.launch = some l → p.2.replays = true) (hr : L.replays < 2) (hd : L.deadline = none) :
    ∃ t, exec (.launchReplay l) s = .next t ∧ mget t.launches l = some (readmitted L) ∧
      (∀ b B, mget s.blocks b = some B → OwnBlock l B → ∃ B', mget t.blocks b = some B' ∧ B'.st = .waiting ∧ B'.phasers = [] ∧ B'.progress = none) ∧
      (∀ g G, OfLaunch s l g G → mget t.groups g = none) ∧ t.mem = (restorePages s L.pages).mem := by
  refine ⟨_, launchReplay_of_rolling hL hst hops hr hd, ?_, fun b B hB hown => ?_, fun g G hG => ?_, unstartedState_mem s l L⟩
  · exact (mget_mupd_same _ _ _).trans (by rw [unstartedState_launches, hL]; rfl)
  · obtain ⟨B', hB', hown'⟩ := unstartedState_block (L := L) hB hown
    refine ⟨_, (mget_map_pair _ (fun b B => if isOwn (unstartedState s l L) l b then unstarted B else B) b).trans (by rw [hB', Option.map_some]), ?_⟩
    rw [if_pos (isOwn_of_ownBlock hB' hown')]
    exact ⟨rfl, rfl, rfl⟩
  · obtain ⟨hg, B, hB, hown⟩ := hG
    obtain ⟨B', hB', hown'⟩ := unstartedState_block (L := L) hB hown
    by_contra hne
    obtain ⟨H, hH⟩ := Option.ne_none_iff_exists'.1 hne
    obtain ⟨hmem, hown⟩ := List.mem_filter.1 (mem_of_mget hH)
    obtain rfl : H = G := eq_of_sorted hsorted (unstartedState_groups hmem) (mem_of_mget hg)
    rw [isOwn_of_ownBlock hB' hown'] at hown
    exact absurd hown (by decide)

theorem launchEndsAndReplays : Claims.LaunchEndsAndReplays := by
  refine ⟨launchEnds, fun s l L hL hst hsorted hops hr hd => ?_, fun s => ?_⟩
  · obtain ⟨t, hexec, hlaunch, hblocks, hgroups, hmem⟩ := launchReplays s l L hL hst hsorted hops hr hd
    refine ⟨t, _, hexec, hlaunch, rfl, rfl, rfl, ?_, rfl, rfl, rfl, rfl, rfl, rfl, fun b B hB hl hc ha => hblocks b B hB ⟨hl, hc, ha⟩, hgroups,
      fun p cells hp hn hin => ?_⟩
    · simp [readmitted, Launch.wrapTime, hd]
    · rw [hmem, hp, restorePages_one_mem]
      exact memRead_restored s.mem p cells hn hin
  · obtain ⟨t, hexec, hg, hm, hslack⟩ := slackRecomputed s
    refine ⟨t, hexec, hg, hm, fun l L hL => ?_⟩
    obtain ⟨L', hL', he⟩ := hslack l L hL
    have hs : L'.slack = slackClass s.now L := by rw [he]
    refine ⟨L', hL', by rw [hs]; exact he, fun hw => ?_, fun w hw hle => ?_, fun w hw hlt => ?_⟩
    · rw [hs, slackClass, hw]
    · rw [hs, slackClass, hw]
      exact if_pos (by simp [hle])
    · rw [hs, slackClass_room s.now w L hw hlt]
      refine ⟨fun h => ?_, fun h h' => ?_, fun h h' => ?_, fun h => ?_⟩
      · rw [if_neg (by omega)]
      · rw [if_pos h, if_neg (by omega)]
      · rw [if_pos (by omega), if_pos h, if_neg (by omega)]
      · rw [if_pos (by omega), if_pos (by omega), if_pos h]

/-- Settles O34: the table of outcomes row by row; an end changes one launch; a replay undoes what its launch wrote, started and counted. -/
theorem launchOutcomesAndReplay : Obligations.LaunchOutcomesAndReplay := ⟨launchOutcome_holds, launchEndsAndReplays⟩

end Sys2Proof.Proofs
end

section
/-!
PROOFS. Retries, probe tokens (R94, R95) and the order in which the streams of a partition issue (R93).
-/

namespace Sys2Proof.Proofs
open Sys2Proof Sys2Proof.Machine Sys2Proof.Claims

variable {s : State} {g : Nat} {G H : Group} {str : Stream} {r : Nat}

/-! ### Blocked queues and probe tokens (R95) -/

theorem jamOf_spec {q : QUnit} {j : Jam} (h : jamOf s q = some j) : j ∈ s.jams ∧ j.q = q ∧ queueHead s q = true ∧ queueFull s j.down = true := by
  have hp := List.find?_some h
  simp only [Jam.stands, Bool.and_eq_true, beq_iff_eq] at hp
  obtain ⟨hq, hhead, hfull⟩ := hp
  exact ⟨List.mem_of_find?_eq_some h, hq, hq ▸ hhead, hfull⟩

theorem queueHead_laneRuns (hg : mget s.groups g = some G) : queueHead s (.laneRuns g) = true ↔ G.runs ≠ [] := by simp [queueHead, hg]

theorem queueFull_laneRuns (hg : mget s.groups g = some G) : queueFull s (.laneRuns g) = true ↔ 8 ≤ G.runs.length := by
  simp only [queueFull, hg, Option.map_some, Option.getD_some]
  exact decide_eq_true_iff

theorem blockedQueueStands (s : State) (q : QUnit) (j : Jam) (h : jamOf s q = some j) :
    j ∈ s.jams ∧ j.q = q ∧ (∀ g G, q = .laneRuns g → mget s.groups g = some G → G.runs ≠ []) ∧
      ∀ g G, j.down = .laneRuns g → mget s.groups g = some G → 8 ≤ G.runs.length := by
  obtain ⟨hmem, hq, hhead, hfull⟩ := jamOf_spec h
  exact ⟨hmem, hq, fun g G e hg => (queueHead_laneRuns hg).1 (e ▸ hhead), fun g G e hg => (queueFull_laneRuns hg).1 (e ▸ hfull)⟩

theorem queueBlockTimeout_free {q : QUnit} (down : QUnit) (h : jamOf s q = none) : exec (.queueBlockTimeout q down) s = .next s := by
  have hexec : exec (.queueBlockTimeout q down) s = execQueueBlockTimeout q down s := rfl
  rw [hexec, execQueueBlockTimeout, h]

theorem queueBlockTimeout_blocked {q : QUnit} (down : QUnit) {j : Jam} (h : jamOf s q = some j) :
    exec (.queueBlockTimeout q down) s = if j.down ≠ down || decide (queueClk s q < j.since + 512) || s.probes.any (·.origin == q) then .next s
      else .next { s with probes := s.probes ++ [{ origin := q, at_ := down }] } := by
  have hexec : exec (.queueBlockTimeout q down) s = execQueueBlockTimeout q down s := rfl
  rw [hexec, execQueueBlockTimeout, h]
  rfl

theorem queueBlockTimeouts (s : State) (q down : QUnit) :
    (jamOf s q = none → exec (.queueBlockTimeout q down) s = .next s) ∧
    ∀ j, jamOf s q = some j →
      (j.down = down → j.since + 512 ≤ queueClk s q → (∀ p ∈ s.probes, p.origin ≠ q) →
        exec (.queueBlockTimeout q down) s = .next { s with probes := s.probes ++ [{ origin := q, at_ := down }] }) ∧
      (j.down ≠ down ∨ queueClk s q < j.since + 512 → exec (.queueBlockTimeout q down) s = .next s) := by
  refine ⟨queueBlockTimeout_free down, fun j hj => ⟨fun hd hc hp => ?_, fun h => ?_⟩⟩
  · rw [queueBlockTimeout_blocked down hj, if_neg]
    simpa [hd, hc] using hp
  · rw [queueBlockTimeout_blocked down hj, if_pos]
    rcases h with h | h <;> simp [h]

/-- A probe token that is back at its origin. -/
theorem probeToken_home {k : Nat} (next : Option QUnit) {p : Probe} (hp : s.probes[k]? = some p) (ha : p.at_ = p.origin) :
    exec (.probeToken k next) s =
      .next (if s.reserve.contains p.origin || (jamOf s p.origin).isNone then { s with probes := s.probes.eraseIdx k }
        else { s with probes := s.probes.eraseIdx k, reserve := s.reserve ++ [p.origin], jams := s.jams.filter (·.q != p.origin) }) := by
  have hexec : exec (.probeToken k next) s = execProbeToken k next s := rfl
  rw [hexec, execProbeToken, hp]
  exact if_pos (beq_iff_eq.2 ha)

/-- A probe token on its way. -/
theorem probeToken_away {k : Nat} (next : Option QUnit) {p : Probe} (hp : s.probes[k]? = some p) (ha : p.at_ ≠ p.origin) :
    exec (.probeToken k next) s = match jamOf s p.at_ with
      | some j => if next = some j.down then .next { s with probes := s.probes.set k { p with at_ := j.down } } else .next s
      | none => if next = none then .next { s with probes := s.probes.eraseIdx k } else .next s := by
  have hexec : exec (.probeToken k next) s = execProbeToken k next s := rfl
  rw [hexec, execProbeToken, hp]
  exact (if_neg (mt beq_iff_eq.1 ha)).trans rfl

theorem probeTokens (s : State) (k : Nat) (next : Option QUnit) (p : Probe) (hp : s.probes[k]? = some p) :
    (p.at_ = p.origin →
      (p.origin ∉ s.reserve → jamOf s p.origin ≠ none →
        exec (.probeToken k next) s =
          .next { s with probes := s.probes.eraseIdx k, reserve := s.reserve ++ [p.origin], jams := s.jams.filter fun j => j.q != p.origin }) ∧
      (p.origin ∈ s.reserve ∨ jamOf s p.origin = none → exec (.probeToken k next) s = .next { s with probes := s.probes.eraseIdx k })) ∧
    (p.at_ ≠ p.origin → ∀ j, jamOf s p.at_ = some j → next = some j.down →
      exec (.probeToken k next) s = .next { s with probes := s.probes.set k { p with at_ := j.down } }) ∧
    (p.at_ ≠ p.origin → jamOf s p.at_ = none → next = none → exec (.probeToken k next) s = .next { s with probes := s.probes.eraseIdx k }) := by
  refine ⟨fun ha => ⟨fun hr hj => ?_, fun h => ?_⟩, fun ha j hj hn => ?_, fun ha hj hn => ?_⟩
  · rw [probeToken_home next hp ha, if_neg]
    simpa [hr] using hj
  · rw [probeToken_home next hp ha, if_pos]
    simpa using h
  · rw [probeToken_away next hp ha, hj]
    exact if_pos hn
  · rw [probeToken_away next hp ha, hj]
    exact if_pos hn

theorem retriesAndProbes_holds : Claims.RetriesAndProbes := by
  refine ⟨fun _ _ _ => rfl, fun _ _ _ _ => rfl, blockedQueueStands, queueBlockTimeouts, probeTokens, fun s q => ⟨fun h => ?_, fun h => ?_⟩⟩
  · rw [queueMoves, if_pos (List.contains_iff_mem.2 h)]
  · rw [queueMoves, if_neg (mt List.contains_iff_mem.1 h)]

/-! ### The order of two ready streams (R93) -/

theorem isAged_iff : isAged s G str r = true ↔ str ∈ G.aged ∨ r + 64 ≤ (s.die (G.core / 16)).clk := by
  simp only [isAged, Bool.or_eq_true, List.contains_iff_mem]
  exact or_congr_right decide_eq_true_iff

variable {t : Stream} {q : Nat}

theorem goesFirst_iff : goesFirst s G str r H t q = true ↔
    (isAged s G str r = true ∧ (¬ isAged s H t q = true ∨ r ≤ q)) ∨
    (¬ isAged s G str r = true ∧ ¬ isAged s H t q = true ∧ (rankOf s G < rankOf s H ∨ rankOf s G = rankOf s H ∧ r ≤ q)) := by
  cases hG : isAged s G str r <;> cases hH : isAged s H t q <;> simp [goesFirst, hG, hH]

theorem picked_of_not_ready (h : G.readyOf str = none) : picked s g G str = false := by rw [picked, h]

/-- A stream is not picked when another ready candidate of its partition must go first. -/
theorem not_picked_of_not_goesFirst {h : Nat} (hr : G.readyOf str = some r) (hc : (h, H, t) ∈ candidates s G.core G.part) (hne : h ≠ g ∨ t ≠ str)
    (hq : H.readyOf t = some q) (hfirst : ¬ goesFirst s G str r H t q = true) : picked s g G str = false := by
  by_contra hp
  exact hfirst (picked_first (Bool.not_eq_false _ ▸ hp) hr hc (not_and_or.2 hne) hq)

theorem picked_of_goesFirst (hr : G.readyOf str = some r)
    (hall : ∀ h H t, (h, H, t) ∈ candidates s G.core G.part → h ≠ g ∨ t ≠ str → ∀ q, H.readyOf t = some q → goesFirst s G str r H t q = true) :
    picked s g G str = true := by
  simp only [picked, hr, List.all_eq_true]
  rintro ⟨h, H, t⟩ hc
  by_cases hne : h = g ∧ t = str
  · simp [hne]
  · cases hq : H.readyOf t with
    | none => simp
    | some q => simp [hall h H t hc (not_and_or.1 hne) q hq]

/-! ### Yields and ageing (R93) -/

theorem syieldWindow (s : State) (g : Nat) (G : Group) (x : Nat) (hg : mget s.groups g = some G) (hy : G.yieldAt = some x) :
    (x + 256 ≤ (s.die (G.core / 16)).clk → Becomes (.syieldWindowExpiry g) s g { G with yieldAt := none }) ∧
    ((s.die (G.core / 16)).clk < x + 256 → exec (.syieldWindowExpiry g) s = .next s) := by
  have hexec : exec (.syieldWindowExpiry g) s =
      .next (if decide (x + 256 ≤ (s.die (G.core / 16)).clk) then s.grp g { G with yieldAt := none } else s) := by
    have hdef : exec (.syieldWindowExpiry g) s = execSyieldWindowExpiry g s := rfl
    rw [hdef, execSyieldWindowExpiry, hg]
    dsimp only
    rw [hy]
    rfl
  refine ⟨fun h => ?_, fun h => ?_⟩
  · rw [Becomes, hexec, if_pos (decide_eq_true h)]
    rfl
  · rw [hexec, if_neg (by simpa using h)]

theorem rankOf_of_yield_over {L : Launch} (hL : s.launch? G = some L) (h : ∀ x, G.yieldAt = some x → x + 256 ≤ (s.die (G.core / 16)).clk) :
    rankOf s G = L.slack := by
  rw [rankOf, if_neg, hL]
  · rfl
  · intro hany
    obtain ⟨x, hy, hlt⟩ := (Option.any_eq_true _ _).1 hany
    exact absurd (of_decide_eq_true hlt) (Nat.not_lt.2 (h x hy))

theorem rankOf_of_yielding {x : Nat} (hy : G.yieldAt = some x) (h : (s.die (G.core / 16)).clk < x + 256) : rankOf s G = 4 := by
  rw [rankOf, hy]
  exact if_pos (decide_eq_true h)

/-- The stream that an ageing event names. -/
def ageingStream : Option Nat → Stream
  | none => .scalar
  | some n => .split n

theorem ageingFloor_eq (k : Option Nat) (hg : mget s.groups g = some G) :
    exec (.ageingFloor g k) s = match G.readyOf (ageingStream k) with
      | none => .next s
      | some r => if G.aged.contains (ageingStream k) || decide ((s.die (G.core / 16)).clk < r + 64) then .next s
        else .next { s with groups := mput s.groups g { G with aged := G.aged ++ [ageingStream k] } } := by
  have hexec : exec (.ageingFloor g k) s = execAgeingFloor g k s := rfl
  rw [hexec]
  unfold execAgeingFloor
  rw [hg]
  cases k <;> rfl

theorem ageingFloors (s : State) (g : Nat) (G : Group) (k : Option Nat) (hg : mget s.groups g = some G) :
    (G.readyOf (ageingStream k) = none → exec (.ageingFloor g k) s = .next s) ∧
    ∀ r, G.readyOf (ageingStream k) = some r →
      (ageingStream k ∉ G.aged → r + 64 ≤ (s.die (G.core / 16)).clk →
        Becomes (.ageingFloor g k) s g { G with aged := G.aged ++ [ageingStream k] }) ∧
      (ageingStream k ∈ G.aged ∨ (s.die (G.core / 16)).clk < r + 64 → exec (.ageingFloor g k) s = .next s) := by
  refine ⟨fun hr => ?_, fun r hr => ⟨fun hn hc => ?_, fun h => ?_⟩⟩
  · rw [ageingFloor_eq k hg, hr]
  · rw [Becomes, ageingFloor_eq k hg, hr]
    exact if_neg (by simp [hn, hc])
  · rw [ageingFloor_eq k hg, hr]
    exact if_pos (by simpa using h)

/-! ### Readiness is kept by every step (R93) -/

theorem scalarMay_markReady (s : State) (g : Nat) (G : Group) : scalarMay (markReady s) (readied s g G) = scalarMay s G := rfl

theorem scalar_mem_streams (h : (G.streams s).contains .scalar = true) : scalarMay s G = true := by
  by_contra hm
  simp [Group.streams, hm] at h

theorem readyAt_scalar (h : readyAt s g G .scalar ≠ none) : scalarMay s G = true ∧ G.free ≤ (s.die (dieOf G.core)).clk := by
  have hc : ((G.streams s).contains .scalar && isReady s g G .scalar) = true := by
    by_contra hc
    exact h (if_neg hc)
  rw [Bool.and_eq_true] at hc
  obtain ⟨hmem, hready⟩ := hc
  have hfree := (Bool.and_eq_true_iff.1 hready).1
  exact ⟨scalar_mem_streams hmem, of_decide_eq_true hfree⟩

/-- After every step a scalar stream that counts as ready may issue and is not interlocked. -/
theorem readyAfterStep (s t : State) (g : Nat) (G : Group) (hstep : step s = .next t) (hg : mget t.groups g = some G) (hr : G.ready ≠ none) :
    scalarMay t G = true ∧ G.free ≤ (t.die (G.core / 16)).clk := by
  obtain ⟨u, rfl⟩ : ∃ u, t = markReady u := by
    unfold step at hstep
    split at hstep
    · exact ⟨_, (Host.Outcome.next.inj hstep).symm⟩
    all_goals exact nomatch hstep
  have hmap : mget (markReady u).groups g = (mget u.groups g).map (readied u g) := mget_map_pair u.groups (readied u) g
  rw [hmap, Option.map_eq_some_iff] at hg
  obtain ⟨G₀, -, rfl⟩ := hg
  exact (scalarMay_markReady u g G₀).symm ▸ readyAt_scalar hr

theorem issueOrder_holds : Claims.IssueOrder := by
  refine ⟨syieldWindow, ⟨fun _ _ _ _ => picked_of_not_ready, fun s g G str r h H t q hr hc hne hq => ?_, fun s g G str r hr hall => ?_⟩,
    fun s G L hL => ⟨rankOf_of_yield_over hL, fun _ => rankOf_of_yielding⟩, ageingFloors, readyAfterStep⟩
  · have hno := not_picked_of_not_goesFirst hr hc hne hq
    rw [goesFirst_iff, isAged_iff, isAged_iff] at hno
    refine ⟨fun hG hH => hno ?_, fun hG hH hlt => hno ?_, fun hG hH hlt => hno ?_⟩
    · rintro (⟨h, -⟩ | ⟨-, h, -⟩)
      · exact hG h
      · exact h hH
    · rintro (⟨-, h | h⟩ | ⟨h, -⟩)
      · exact h hH
      · omega
      · exact h hG
    · rintro (⟨h, -⟩ | ⟨-, -, h⟩)
      · exact hG h
      · omega
  · refine picked_of_goesFirst hr fun h H t hc hne q hq => ?_
    rw [goesFirst_iff, isAged_iff, isAged_iff]
    exact hall h H t hc hne q hq

/-- Settles O37: retries leave the state; a probe token's send, move, drop and grant; the order of two ready streams decides what is picked; readiness
is marked anew after every step. -/
theorem retriesProbesAndFloors : Obligations.RetriesProbesAndFloors := ⟨retriesAndProbes_holds, issueOrder_holds⟩

end Sys2Proof.Proofs
end

section
/-!
PROOFS. Scalar register arithmetic and bit fields (R53, R98, R99).
-/

namespace Sys2Proof.Proofs
open Sys2Proof.Machine Sys2Proof.Claims

/-! ### Sums, products and extrema (R98) -/

theorem add_eq_ofNat (x y : Word) : x + y = BitVec.ofNat 64 (x.toNat + y.toNat) := by
  rw [BitVec.ofNat_add, BitVec.ofNat_toNat, BitVec.ofNat_toNat, BitVec.setWidth_eq, BitVec.setWidth_eq]

theorem sub_eq_ofInt (x y : Word) : x - y = BitVec.ofInt 64 (x.toInt - y.toInt) := by
  apply BitVec.eq_of_toInt_eq
  rw [BitVec.toInt_sub, BitVec.toInt_ofInt]

theorem mul_eq_ofNat (x y : Word) : x * y = BitVec.ofNat 64 (x.toNat * y.toNat) := by
  rw [BitVec.ofNat_mul, BitVec.ofNat_toNat, BitVec.ofNat_toNat, BitVec.setWidth_eq, BitVec.setWidth_eq]

/-- By a reading that tells words apart, a strict and a weak comparison choose the same word: where they differ, the words are equal. -/
theorem ite_lt_eq_ite_le {α : Type} [LinearOrder α] {f : Word → α} (hf : Function.Injective f) (x y : Word) :
    (if f x < f y then x else y) = (if f x ≤ f y then x else y) ∧ (if f x < f y then y else x) = if f x ≤ f y then y else x := by
  rcases lt_trichotomy (f x) (f y) with h | h | h
  · simp [h, h.le]
  · simp [hf h]
  · simp [h.not_gt, h.not_ge]

theorem ite_slt_eq_ite_le (x y : Word) :
    (if x.slt y then x else y) = (if x.toInt ≤ y.toInt then x else y) ∧ (if x.slt y then y else x) = if x.toInt ≤ y.toInt then y else x := by
  simpa only [BitVec.slt_iff_toInt_lt] using ite_lt_eq_ite_le (fun _ _ => BitVec.toInt_inj.1) x y

theorem ite_ult_eq_ite_le (x y : Word) :
    (if x.ult y then x else y) = (if x.toNat ≤ y.toNat then x else y) ∧ (if x.ult y then y else x) = if x.toNat ≤ y.toNat then y else x := by
  simpa only [BitVec.ult_iff_toNat_lt] using ite_lt_eq_ite_le (fun _ _ => BitVec.toNat_inj.1) x y

/-! ### Counts of bits (R98) -/

/-- The recursion on halves counts the 1 bits. -/
theorem popc_eq_length_filter (n x : Nat) : popc n x = ((List.range n).filter x.testBit).length := by
  induction n generalizing x with
  | zero => rfl
  | succ n ih =>
    have hhalf : ((List.range n).map Nat.succ).filter x.testBit = ((List.range n).filter (x / 2).testBit).map Nat.succ := by
      rw [List.filter_map]
      congr 2
      funext i
      exact Nat.testBit_succ x i
    rw [popc, ih, List.range_succ_eq_map, List.filter_cons, hhalf, Nat.testBit_zero]
    rcases Nat.mod_two_eq_zero_or_one x with h | h <;> simp [h]
    omega

/-- The recursion on halves stops at the lowest 1 bit. -/
theorem ctz_spec (n x : Nat) : ctz n x ≤ n ∧ (∀ k < ctz n x, x.testBit k = false) ∧ (ctz n x < n → x.testBit (ctz n x) = true) := by
  induction n generalizing x with
  | zero => simp [ctz]
  | succ n ih =>
    obtain ⟨hle, hlow, hbit⟩ := ih (x / 2)
    rw [ctz]
    split
    · next h => exact ⟨Nat.zero_le _, fun k hk => absurd hk k.not_lt_zero, fun _ => by simp [h]⟩
    · next h =>
      rw [Nat.add_comm 1]
      refine ⟨by omega, fun k hk => ?_, fun hk => (Nat.testBit_succ x _).trans (hbit (by omega))⟩
      cases k with
      | zero => simpa using h
      | succ k => exact (Nat.testBit_succ x k).trans (hlow k (by omega))

theorem trailingZeros_ctz (x : Word) : TrailingZeros x (ctz 64 x.toNat) := ctz_spec 64 x.toNat

/-- The highest 1 bit is the one of the logarithm. -/
theorem leadingZeros_clz (x : Word) : LeadingZeros x (clz 64 x.toNat) := by
  rw [clz, Nat.mod_eq_of_lt x.isLt]
  split
  · next h0 =>
    have hx : x = 0 := BitVec.eq_of_toNat_eq h0
    exact ⟨le_rfl, fun k _ => by simp [hx], fun h => absurd h (lt_irrefl _)⟩
  · next h0 =>
    have hlt : x.toNat.log2 < 64 := (Nat.log2_lt h0).2 x.isLt
    refine ⟨by omega, fun k hk => Nat.testBit_lt_two_pow ((Nat.log2_lt h0).1 (by omega)), fun _ => ?_⟩
    have hpos : 63 - (64 - 1 - x.toNat.log2) = x.toNat.log2 := by omega
    rw [hpos]
    exact Nat.testBit_log2 h0

/-! ### Bit fields (R99) -/

theorem getLsbD_maskN (n i : Nat) : (maskN n).getLsbD i = (decide (i < 64) && decide (i < n)) := by
  rw [maskN, BitVec.getLsbD_ofNat, Nat.testBit_two_pow_sub_one]

/-- The field that sbfx extracts. -/
theorem getLsbD_extract (x : Word) (pos len : Nat) {i : Nat} (hi : i < 64) :
    ((x >>> pos) &&& maskN len).getLsbD i = (decide (i < len) && x.getLsbD (pos + i)) := by
  rw [BitVec.getLsbD_and, BitVec.getLsbD_ushiftRight, getLsbD_maskN, decide_eq_true hi, Bool.true_and, Bool.and_comm]

/-- The field that sbfi inserts. -/
theorem getLsbD_insert (d x : Word) (pos len : Nat) {i : Nat} (hi : i < 64) :
    ((d &&& ~~~(maskN len <<< pos)) ||| ((x <<< pos) &&& (maskN len <<< pos))).getLsbD i =
      if pos ≤ i ∧ i < pos + len then x.getLsbD (i - pos) else d.getLsbD i := by
  have hi' : i - pos < 64 := by omega
  have hfield : (decide (i < pos) = false ∧ i - pos < len) ↔ pos ≤ i ∧ i < pos + len := by
    rw [decide_eq_false_iff_not]; omega
  rw [← if_congr hfield rfl rfl]
  simp only [BitVec.getLsbD_or, BitVec.getLsbD_and, BitVec.getLsbD_not, BitVec.getLsbD_shiftLeft, getLsbD_maskN, hi, hi']
  by_cases h1 : i < pos
  · simp [h1]
  · by_cases h2 : i - pos < len <;> simp [h1, h2]

/-! ### The rows -/

section
variable {s : State} {g : Nat} {G : Group}

/-- A guarded instruction of one word that writes `f G = r` to `s_d`. -/
theorem guarded_of_aluStep (hs : Scalar s g G) {i : Instr} {gd : CReg} {d : SReg} {f : Group → Word} {r : Word}
    (hi : exec i s = aluStep s gd d f) (hr : f G = r) : Guarded i gd 1 s g G (G.ws d r) :=
  guarded_of_scalarStep hs hi (congrArg (G.ws d) hr)

end

/-- Settles O1: every row is one guarded write, whose value is the row's. -/
theorem scalarArithmetic : Obligations.ScalarArithmetic := by
  intro s g G d a b gd hs x y sh gives
  have write {i : Instr} {f : Group → Word} {r : Word} (hi : exec i s = aluStep s gd d f) (hr : f G = r) : gives i r := guarded_of_aluStep hs hi hr
  refine ⟨write rfl (add_eq_ofNat x y), write rfl (sub_eq_ofInt x y), write rfl (mul_eq_ofNat x y), write rfl rfl, write rfl rfl, write rfl rfl,
    write rfl rfl, write rfl rfl, write rfl (shiftLeft_eq_mul x sh), write rfl (ushiftRight_eq_div x sh), write rfl (sshiftRight_eq_div x sh),
    write rfl (ite_slt_eq_ite_le x y).1, write rfl (ite_slt_eq_ite_le x y).2, write rfl (ite_ult_eq_ite_le x y).1, write rfl (ite_ult_eq_ite_le x y).2,
    write rfl rfl, write rfl (congrArg (BitVec.ofNat 64) (popc_eq_length_filter 64 x.toNat)), ⟨_, leadingZeros_clz x, write rfl rfl⟩,
    ⟨_, trailingZeros_ctz x, write rfl rfl⟩, write rfl rfl, ⟨_, fun i hi => getLsbD_extract x _ _ hi, write rfl rfl⟩,
    ⟨_, fun i hi => getLsbD_insert (G.rs d) x _ _ hi, write rfl rfl⟩⟩

end Sys2Proof.Proofs
end

section
/-!
PROOFS. Branches, calls, jumps, loops and returns of the scalar stream (R53, R103 to R108, R187).
-/

namespace Sys2Proof.Proofs
open Sys2Proof Sys2Proof.Machine Sys2Proof.Claims

section
variable {s : State} {g : Nat} {G : Group}

/-! ### Branches in a section (R53, R103 to R105, R108) -/

/-- The model's test of an SB word is the one of R53. -/
theorem taken_eq_true_iff (G : Group) (gd : CReg) (n : Bool) : taken G gd n = true ↔ Taken G gd n := by
  rw [taken, bne_iff_ne, ne_eq, Bool.eq_iff_iff, guardOk_eq_true_iff]

theorem taken_of_not {gd : CReg} {n : Bool} (h : ¬ Taken G gd n) : taken G gd n = false := Bool.eq_false_iff.2 (mt (taken_eq_true_iff G gd n).1 h)

theorem branchTo_of_inScalar {off : Int} (h : InScalar s G (G.pc + off)) : branchTo s G off = some ((G.pc : Int) + off).toNat := by
  rw [branchTo, if_pos (by simpa using h)]

theorem branchTo_of_not_inScalar {off : Int} (h : ¬ InScalar s G (G.pc + off)) : branchTo s G off = none := by
  rw [branchTo, if_neg (by simpa using h)]

section
variable (hs : Scalar s g G) {gd : CReg} {n : Bool} {off : BitVec 20}
include hs

/-- What sbr and scall do at a target inside the section. -/
theorem exec_branches_of_inScalar (hin : InScalar s G (G.pc + off.toInt)) :
    exec (.sbr gd n off) s = .next (s.grp g (if taken G gd n then { G with pc := ((G.pc : Int) + off.toInt).toNat } else G.adv 1)) ∧
    exec (.scall gd n off) s = if !taken G gd n then .next (s.grp g (G.adv 1)) else
      if G.calls.length ≥ Config.callDepth then .next (trapS s g 0x01) else .next (s.grp g { G.push (G.pc + 1) with pc := ((G.pc : Int) + off.toInt).toNat }) := by
  constructor
  · rw [exec_of_withScalar hs (i := .sbr gd n off) rfl, branchTo_of_inScalar hin]
  · rw [exec_of_withScalar hs (i := .scall gd n off) rfl, branchTo_of_inScalar hin]

/-- A target outside the section traps, taken or not. -/
theorem exec_branches_of_not_inScalar (hin : ¬ InScalar s G (G.pc + off.toInt)) :
    exec (.sbr gd n off) s = .next (trapS s g 0x01) ∧ exec (.scall gd n off) s = .next (trapS s g 0x01) := by
  constructor
  · rw [exec_of_withScalar hs (i := .sbr gd n off) rfl, branchTo_of_not_inScalar hin]
  · rw [exec_of_withScalar hs (i := .scall gd n off) rfl, branchTo_of_not_inScalar hin]

/-- A taken call that finds the stack full traps, wherever it goes. -/
theorem scall_of_full (ht : Taken G gd n) (hfull : 32 ≤ G.calls.length) : exec (.scall gd n off) s = .next (trapS s g 0x01) := by
  by_cases hin : InScalar s G (G.pc + off.toInt)
  · rw [(exec_branches_of_inScalar hs hin).2, (taken_eq_true_iff G gd n).2 ht, if_neg (by simp), if_pos (by exact hfull)]
  · exact (exec_branches_of_not_inScalar hs hin).2

end

theorem sloop_of_inScalar (hs : Scalar s g G) {d : SReg} {imm : BitVec 10} (hin : InScalar s G (G.pc + imm.toInt)) :
    exec (.sloop d imm) s = .next (s.grp g (if G.rs d - 1 ≠ 0 then { G.ws d (G.rs d - 1) with pc := ((G.pc : Int) + imm.toInt).toNat }
      else (G.ws d (G.rs d - 1)).adv 1)) := by
  rw [exec_of_withScalar hs (i := .sloop d imm) rfl, branchTo_of_inScalar hin]

/-- sjmpr under its guard. -/
theorem sjmpr_of_holds (hs : Scalar s g G) (a : SReg) {gd : CReg} (h : Holds G gd) :
    exec (.sjmpr a gd) s = if (G.rs a).toNat < 4096 ∧ (G.rs a).toNat < scalarLen s G then .next (s.grp g { G with pc := (G.rs a).toNat })
      else .next (trapS s g 0x01) := by
  rw [exec_of_withScalar hs (i := .sjmpr a gd) rfl, guardOk_of_holds h, if_neg (by simp)]
  exact if_congr (by simp) rfl rfl

theorem sjmpr_of_not_holds (hs : Scalar s g G) (a : SReg) {gd : CReg} (h : ¬ Holds G gd) : Becomes (.sjmpr a gd) s g (past G 1) := by
  rw [Becomes, exec_of_withScalar hs (i := .sjmpr a gd) rfl, guardOk_of_not_holds h, if_pos (by rfl)]
  rfl

/-- The rows of R104, R105 and R108. -/
theorem scalarBranches : Claims.ScalarBranches := by
  intro s g G d a gd n off imm hs
  refine ⟨fun hin => ?_, fun h1 h2 h => ?_, sjmpr_of_not_holds hs a, fun hin => ⟨fun h => ?_, fun h => ?_⟩⟩
  · obtain ⟨hbr, hcall⟩ := exec_branches_of_inScalar hs (gd := gd) (n := n) hin
    refine ⟨fun h => ?_, fun h => ?_, fun h hroom => ?_, fun h => ?_⟩
    · rw [Becomes, hbr, if_pos ((taken_eq_true_iff G gd n).2 h)]
      rfl
    · rw [Becomes, hbr, taken_of_not h]
      rfl
    · rw [Becomes, hcall, (taken_eq_true_iff G gd n).2 h, if_neg (by simp), if_neg (by simpa [Config.callDepth] using hroom)]
      rfl
    · rw [Becomes, hcall, taken_of_not h]
      rfl
  · rw [Becomes, sjmpr_of_holds hs a h, if_pos ⟨h1, h2⟩]
    rfl
  · rw [Becomes, sloop_of_inScalar hs hin, if_pos (sub_ne_zero.2 h)]
    rfl
  · rw [Becomes, sloop_of_inScalar hs hin, h, if_neg (by simp)]
    rfl

/-- The traps of R103 to R105. -/
theorem scalarBranchTraps : Claims.ScalarBranchTraps := by
  intro s g G d a gd n off imm hs
  refine ⟨exec_branches_of_not_inScalar hs, fun hin => ?_, fun h hout => ?_, scall_of_full hs, fun h hc hw => ?_⟩
  · rw [exec_of_withScalar hs (i := .sloop d imm) rfl, branchTo_of_not_inScalar hin]
  · rw [sjmpr_of_holds hs a h, if_neg hout]
  · rw [exec_of_withScalar hs (i := .sret gd) rfl]
    simp only [hw, hc, guardOk_of_holds h]
    rfl

/-! ### Calls across overlays (R106, R107, R187) -/

theorem enter_of_enterable {ov k : Nat} (h : Enterable s g G ov k) : enter s g G ov = .now k := by
  obtain ⟨e, c, he, hc, hl, hroom⟩ := h
  rw [enter]
  simp only [he, hc, hl]
  rw [if_neg (Nat.not_lt.2 (by simpa using hroom))]
  rfl

theorem touchOv_frame (s : State) (G : Group) (ov k : Nat) : touchOv s G ov k = { s with copies := (touchOv s G ov k).copies } := by
  unfold touchOv
  split <;> rfl

/-- A group `W`, as it would wait, enters an overlay at once: it becomes `E`, and beside it only the instruction store changes. -/
theorem enterStep_of_enterable {W E : Group} {ov off c : Nat} {popped : Bool} {k : State → Group → Nat → State} {fail : State → State}
    (hG : G.wait = .none) (hW : W.wait = .none) (he : Enterable s g W ov c) (hk : ∀ t, k t W c = t.grp g E) :
    ∃ t, enterStep s g G W ov off popped k fail = .next t ∧ mget t.groups g = some E ∧ t = { s with groups := t.groups, copies := t.copies } ∧
      ∀ j, j ≠ g → mget t.groups j = mget s.groups j := by
  have hstep : enterStep s g G W ov off popped k fail = .next (k (touchOv s W ov c) { W with wait := .none } c) := by
    simp only [enterStep, hG, enter_of_enterable he]
  have hwait : ({ W with wait := .none } : Group) = W := by rw [← hW]
  rw [hwait, hk, touchOv_frame] at hstep
  exact ⟨_, hstep, mget_mput_same _ _ _, rfl, fun j hj => mget_mput_ne _ _ hj⟩

theorem sret_of_not_holds (hs : Scalar s g G) (hw : G.wait = .none) {gd : CReg} (h : ¬ Holds G gd) : Becomes (.sret gd) s g (past G 1) := by
  rw [Becomes, exec_of_withScalar hs (i := .sret gd) rfl]
  simp only [hw, guardOk_of_not_holds h]
  rfl

/-- sret goes back to the place on top of the stack. -/
theorem sret_of_entry (hs : Scalar s g G) (hw : G.wait = .none) {gd : CReg} (h : Holds G gd) {home off : Nat} {rest : List (Nat × Nat)}
    (hc : G.calls = (home, off) :: rest) :
    exec (.sret gd) s = if home = G.ov then .next (s.grp g { G with calls := rest, pc := off }) else
      enterStep s g G { G with calls := rest } home off true (fun s G c => s.grp g { G with ov := home, copy := c, pc := off }) fun s => trapS s g 0x0A := by
  rw [exec_of_withScalar hs (i := .sret gd) rfl]
  dsimp only
  split
  · next hwait => exact nomatch hw.symm.trans hwait
  · next hwait => exact nomatch hw.symm.trans hwait
  · rw [guardOk_of_holds h, if_neg (by simp), hc]

/-- The rows of R106, R107 and R187. -/
theorem callsAcrossOverlays : Claims.CallsAcrossOverlays := by
  intro s g G gd ov entry e k home off rest hs hw
  refine ⟨fun he hlt hroom hen => ?_, fun h hc hov => ?_, fun h hc hov hen => ?_, sret_of_not_holds hs hw⟩
  · have hok : ¬ (decide (entry.toNat ≥ e.s) || decide (G.calls.length ≥ Config.callDepth)) = true := by
      simpa [Config.callDepth] using ⟨hlt, hroom⟩
    rw [exec_of_withScalar hs (i := .sxcall ov entry) rfl]
    simp only [he]
    rw [if_neg hok]
    exact enterStep_of_enterable hw hw hen fun _ => rfl
  · rw [Becomes, sret_of_entry hs hw h hc, if_pos hov]
    rfl
  · rw [sret_of_entry hs hw h hc, if_neg hov]
    exact enterStep_of_enterable hw hw hen fun _ => rfl

end

/-- Settles O3: a branch is one update of the pc and the call stack where its target is in the section, and a call across overlays enters a copy that is
there. -/
theorem scalarBranchesAndCalls : Obligations.ScalarBranchesAndCalls := ⟨scalarBranches, scalarBranchTraps, callsAcrossOverlays⟩

end Sys2Proof.Proofs
end

section
/-!
PROOFS. Scalar loads and stores: their checks, in order, and their issue (R38, R109, R110).
-/

namespace Sys2Proof.Proofs
open Sys2Proof Sys2Proof.Machine Sys2Proof.Claims

/-! ### The checks of an access of the scalar stream (R110) -/

section
variable {s : State} {g : Nat} {G : Group} {ctx core pa : Nat} {ea : Word} {size : Nat} {need : Need} {kind : Nat}

/-- A trap of the one address of a scalar access holds it. -/
theorem onChk_failTrap (s : State) (g : Nat) (cause : BitVec 8) (ea : Word) (k : List (Nat × Nat) → Out) :
    onChk s g .scalar (failTrap cause [(0, ea)]) k = .next (trapS s g cause ea) := rfl

theorem chkAddr_one (ea : Word) (size : Nat) :
    chkAddr [(0, ea)] size = if ea.toNat % size ≠ 0 then some (failTrap 0x04 [(0, ea)]) else
      if 2 ^ 48 ≤ ea.toNat then some (failTrap 0x06 [(0, ea)]) else none := by
  simp only [chkAddr, List.filter_cons, List.filter_nil, bne_iff_ne, decide_eq_true_eq, ge_iff_le]
  by_cases h : ea.toNat % size ≠ 0
  · simp only [if_pos h]
  · by_cases h48 : 2 ^ 48 ≤ ea.toNat
    · simp only [if_neg h, if_pos h48]
    · simp only [if_neg h, if_neg h48]

theorem chkTranslate_of_prot (h : translate s ctx core none ea.toNat need = .prot) :
    chkTranslate s ctx core [(0, ea)] need kind = failTrap 0x06 [(0, ea)] := by
  simp only [chkTranslate, List.map_cons, List.map_nil, h]
  rfl

theorem chkTranslate_of_ok (h : translate s ctx core none ea.toNat need = .ok pa) :
    chkTranslate s ctx core [(0, ea)] need kind = .ok [(0, pa)] := by
  simp only [chkTranslate, List.map_cons, List.map_nil, h]
  rfl

theorem chkLocks_one (write : Bool) :
    chkLocks s ctx core [(0, ea)] [(0, pa)] size write = if lockHit s ctx core pa size write then failTrap 0x07 [(0, ea)] else .ok [(0, pa)] := by
  simp only [chkLocks, List.zip_cons_cons, List.zip_nil_right, List.filter_cons, List.filter_nil]
  cases lockHit s ctx core pa size write <;> rfl

theorem scalarChk_of_misaligned (h : ea.toNat % size ≠ 0) : scalarChk s G ea size need kind = failTrap 0x04 [(0, ea)] := by
  rw [scalarChk, chkGlobal, chkAddr_one, if_pos h]

theorem scalarChk_of_high (h : ea.toNat % size = 0) (h48 : 2 ^ 48 ≤ ea.toNat) : scalarChk s G ea size need kind = failTrap 0x06 [(0, ea)] := by
  rw [scalarChk, chkGlobal, chkAddr_one, if_neg (not_not.2 h), if_pos h48]

section
variable (h : ea.toNat % size = 0) (h48 : ea.toNat < 2 ^ 48)
include h h48

theorem scalarChk_of_prot (htr : translate s (s.ctxOf G) G.core none ea.toNat need = .prot) :
    scalarChk s G ea size need kind = failTrap 0x06 [(0, ea)] := by
  rw [scalarChk, chkGlobal, chkAddr_one, if_neg (not_not.2 h), if_neg (Nat.not_le.2 h48), chkTranslate_of_prot htr]
  rfl

/-- An address that translates is checked against the range locks. -/
theorem scalarChk_of_ok (htr : translate s (s.ctxOf G) G.core none ea.toNat need = .ok pa) :
    scalarChk s G ea size need kind = if lockHit s (s.ctxOf G) G.core pa size need.w then failTrap 0x07 [(0, ea)] else .ok [(0, pa)] := by
  rw [scalarChk, chkGlobal, chkAddr_one, if_neg (not_not.2 h), if_neg (Nat.not_le.2 h48), chkTranslate_of_ok htr]
  exact chkLocks_one _

end

/-- An access that passes every check has the place that its address translates to. -/
theorem scalarChk_of_reaches (h : Reaches s G ea size need pa) : scalarChk s G ea size need kind = .ok [(0, pa)] := by
  obtain ⟨hal, h48, htr, hlock⟩ := h
  rw [scalarChk_of_ok hal h48 htr, hlock, if_neg Bool.false_ne_true]

/-- The traps of an access by its checks, in their order. -/
theorem access_traps {i : Instr} {k : List (Nat × Nat) → Out} (hi : exec i s = onChk s g .scalar (scalarChk s G ea size need kind) k) :
    (ea.toNat % size ≠ 0 → exec i s = .next (trapS s g 0x04 ea)) ∧
    (ea.toNat % size = 0 → 2 ^ 48 ≤ ea.toNat → exec i s = .next (trapS s g 0x06 ea)) ∧
    (ea.toNat % size = 0 → ea.toNat < 2 ^ 48 → translate s (s.ctxOf G) G.core none ea.toNat need = .prot → exec i s = .next (trapS s g 0x06 ea)) ∧
    ∀ pa, ea.toNat % size = 0 → ea.toNat < 2 ^ 48 → translate s (s.ctxOf G) G.core none ea.toNat need = .ok pa →
      lockHit s (s.ctxOf G) G.core pa size need.w = true → exec i s = .next (trapS s g 0x07 ea) := by
  refine ⟨fun h => ?_, fun h h48 => ?_, fun h h48 htr => ?_, fun pa h h48 htr hlock => ?_⟩
  · rw [hi, scalarChk_of_misaligned h, onChk_failTrap]
  · rw [hi, scalarChk_of_high h h48, onChk_failTrap]
  · rw [hi, scalarChk_of_prot h h48 htr, onChk_failTrap]
  · rw [hi, scalarChk_of_ok h h48 htr, if_pos hlock, onChk_failTrap]

end

/-! ### Issue (R38, R109) -/

/-- Filling the translation caches changes them only. -/
theorem fillTlb_frame (s : State) (ctx core : Nat) (pages : List Nat) (rset : Option (List RangeReg)) :
    fillTlb s ctx core pages rset =
      { s with tlbCore := (fillTlb s ctx core pages rset).tlbCore, tlbCluster := (fillTlb s ctx core pages rset).tlbCluster } := by
  unfold fillTlb
  split
  · rfl
  · extract_lets add
    refine List.foldlRecOn (motive := fun t : State => t = { s with tlbCore := t.tlbCore, tlbCluster := t.tlbCluster }) _ _ rfl fun t ht p _ => ?_
    split
    · exact ht
    · rw [ht]

theorem mget_mupd_mupd {β : Type} {m : SMap β} {k : Nat} {x : β} (h : mget m k = some x) (f f' : β → β) :
    mget (mupd (mupd m k f) k f') k = some (f' (f x)) := by
  rw [mget_mupd_same, mget_mupd_same, h]
  rfl

section
variable {s u : State} {g : Nat} {G : Group}

/-- An instruction of the scalar stream that issues `m`, from a state `u` that has the memory, the groups and the keys of `s`. -/
theorem scalarIssues_of_issueScalar {i : Instr} {words : Nat} {m : MemOp} {ld st : Bool} {deps : List Nat} {c : Carries} {page : Nat}
    (hi : exec i s = .next (issueScalar u g G words m ld st deps c page)) (hg : mget u.groups g = some G) (hm : u.mem = s.mem) (hk : u.nextId = s.nextId) :
    ScalarIssues i s g G words m ld st := by
  rw [issueScalar, fillTlb_frame] at hi
  refine ⟨_, _, _, hi, mget_mupd_mupd hg _ _, (congrArg (mget _) hk.symm).trans (mget_mput_same _ _ _), rfl, rfl, rfl, rfl, hm, ?_⟩
  cases c.acq <;> rfl

theorem roomFor_iff {ld st : Bool} (hc : CountersOk G) : G.roomFor ld st false false = true ↔ G.cld + ld.toNat ≤ 63 ∧ G.cst + st.toNat ≤ 63 := by
  obtain ⟨-, -, hcp, htl⟩ := hc
  simp [Group.roomFor, hcp, htl]

/-- EA of R109, as the model adds it. -/
theorem scalarEA_eq (x : Word) (imm : BitVec 10) : BitVec.ofInt 64 (x.toInt + imm.toInt) = x + imm10 imm := by
  rw [imm10_eq, BitVec.ofInt_add, BitVec.ofInt_toInt]

section
variable (hs : Scalar s g G) {i : Instr} {ty : Ty} {d a : SReg} {imm : BitVec 10} {ea : Word} {pa : Nat} (hea : ea = G.rs a + imm10 imm)
include hs hea

theorem load_issues (hi : exec i s = loadStep s ty d a imm) (hc : CountersOk G) (hroom : G.cld < 63)
    (hr : Reaches s G ea ty.size { r := true, w := false } pa) :
    ScalarIssues i s g G 1 { kind := .load, ty := ty, dst := .s d.toNat, acc := [{ lane := 0, loc := pa, ea := ea }], todo := 0, lo := 1, hi := 0 } true false := by
  subst hea
  have hok : G.roomFor true false false false = true := (roomFor_iff hc).2 ⟨hroom, hc.2.1⟩
  rw [loadStep, withScalar_of hs.1 hs.2] at hi
  dsimp only at hi
  rw [accSize, scalarChk_of_reaches hr, onChk, hok, if_neg (by simp)] at hi
  exact scalarIssues_of_issueScalar hi hs.2 rfl rfl

theorem store_issues (hi : exec i s = storeStep s ty d a imm) (hc : CountersOk G) (hroom : G.cst < 63)
    (hr : Reaches s G ea ty.size { r := false, w := true } pa) :
    ScalarIssues i s g G 1 { kind := .store, ty := ty, dst := .none, acc := [{ lane := 0, loc := pa, ea := ea, x := G.rs d }], todo := 1, lo := 0, hi := 0 } false true := by
  subst hea
  have hok : G.roomFor false true false false = true := (roomFor_iff hc).2 ⟨hc.1, hroom⟩
  rw [storeStep, withScalar_of hs.1 hs.2] at hi
  dsimp only at hi
  rw [accSize, scalarChk_of_reaches hr, onChk, hok, if_neg (by simp)] at hi
  exact scalarIssues_of_issueScalar hi hs.2 rfl rfl

end

/-- The rows of R109. -/
theorem scalarLoadsAndStores : Claims.ScalarLoadsAndStores := by
  intro s g G d a imm pa hs hc ea loads stores
  have hea : ea = G.rs a + imm10 imm := scalarEA_eq (G.rs a) imm
  have load {i : Instr} (ty : Ty) (hi : exec i s = loadStep s ty d a imm) : loads i ty ty.size := load_issues hs hea hi hc
  have store {i : Instr} (ty : Ty) (hi : exec i s = storeStep s ty d a imm) : stores i ty ty.size := store_issues hs hea hi hc
  exact ⟨load .n8 rfl, load .n16 rfl, load .n32 rfl, load .n64 rfl, store .n8 rfl, store .n16 rfl, store .n32 rfl, store .n64 rfl⟩

/-- The traps of R110. -/
theorem scalarAccessTraps : Claims.ScalarAccessTraps := by
  intro s g G d a imm hs ea checks
  have load {i : Instr} (ty : Ty) (hi : exec i s = loadStep s ty d a imm) : checks i ty.size { r := true, w := false } :=
    access_traps (exec_of_withScalar hs hi)
  have store {i : Instr} (ty : Ty) (hi : exec i s = storeStep s ty d a imm) : checks i ty.size { r := false, w := true } :=
    access_traps (exec_of_withScalar hs hi)
  exact ⟨load .n8 rfl, load .n16 rfl, load .n32 rfl, load .n64 rfl, store .n8 rfl, store .n16 rfl, store .n32 rfl, store .n64 rfl⟩

end

/-- Settles O13: the checks of R110 decide, in their order, whether an access traps or issues as one operation. -/
theorem scalarLoadsStoresAndTraps : Obligations.ScalarLoadsStoresAndTraps := ⟨scalarLoadsAndStores, scalarAccessTraps⟩

end Sys2Proof.Proofs
end

section
/-!
PROOFS. Atomics of the scalar stream (R111) and its fences (R113, R235, R236, R240).
-/

namespace Sys2Proof.Proofs
open Sys2Proof Sys2Proof.Machine Sys2Proof.Claims

section
variable {s : State} {g : Nat} {G : Group}

/-! ### Atomics (R111) -/

/-- The model's test for earlier writes is the wait of R111. -/
theorem mustWait_eq_true_iff {scope : Scope} {order : Order} {earlier : List Nat} :
    (ordRel order && scopeWide scope && !(unacked s earlier).isEmpty) = true ↔ ¬ ReleaseReady s scope order earlier := by
  simp [ReleaseReady, and_assoc]

theorem barAudit_groups (s : State) (G : Group) : (barAudit s G).groups = s.groups := by
  unfold barAudit
  split <;> rfl

/-- The operation of a scalar atomic at `pa`: it returns what stood there to `s_d`, unless that is s0. -/
def scalarAtomOp (kind : MKind) (d : SReg) (pa : Nat) (ea x y : Word) : MemOp :=
  { kind := kind, ty := .n64, dst := if d = 0 then .none else .s d.toNat, acc := [{ lane := 0, loc := pa, ea := ea, x := x, y := y }], todo := 1,
    lo := if d = 0 then 0 else 1, hi := 0 }

section
variable (hs : Scalar s g G) {i : Instr} {kind : MKind} {d a : SReg} {gd : CReg} {scope : Scope} {order : Order} {x y : Group → Word} {pa : Nat}
  (hi : exec i s = atomStep s kind d a gd scope order x y)
include hs hi

theorem atom_of_not_holds (h : ¬ Holds G gd) : Becomes i s g (past G 2) := by
  rw [Becomes, hi, atomStep, withScalar_of hs.1 hs.2, guardOk_of_not_holds h, if_pos (by rfl)]
  rfl

section
variable (h : Holds G gd) (hc : CountersOk G) (hst : G.cst < 63) (hld : d ≠ 0 → G.cld < 63) (hr : Reaches s G (G.rs a) 8 { r := true, w := true } pa)
include h hc hst hld hr

/-- An atomic that passes its checks, and for which the counters have room, waits for earlier writes or issues. -/
theorem atom_of_reaches : exec i s = if ordRel order && scopeWide scope && !(unacked s (scalarEarlier s G)).isEmpty then .next s else
    .next (issueScalar (barAudit s G) g G 2 (scalarAtomOp kind d pa (G.rs a) (x G) (y G)) (d != 0) true (accDeps (barAudit s G) G.ord [pa] 8)
      { scope := scope, acq := ordAcq order, rel := ordRel order } ((G.rs a).toNat / 4096)) := by
  have hroom : G.cld + (d != 0).toNat ≤ 63 := by
    by_cases hd : d = 0
    · simpa [hd] using hc.1
    · rw [bne_iff_ne.2 hd]
      exact hld hd
  have hok : G.roomFor (d != 0) true false false = true := (roomFor_iff hc).2 ⟨hroom, hst⟩
  rw [hi, atomStep, withScalar_of hs.1 hs.2, guardOk_of_holds h, if_neg (by simp)]
  dsimp only
  rw [scalarChk_of_reaches hr, onChk, hok, if_neg (by simp)]
  rfl

theorem atom_waits (hw : ¬ ReleaseReady s scope order (scalarEarlier s G)) : exec i s = .next s := by
  rw [atom_of_reaches hs hi h hc hst hld hr, if_pos (mustWait_eq_true_iff.2 hw)]

theorem atom_issues (hw : ReleaseReady s scope order (scalarEarlier s G)) :
    ScalarIssues i s g G 2 (scalarAtomOp kind d pa (G.rs a) (x G) (y G)) (d != 0) true := by
  have hx := atom_of_reaches hs hi h hc hst hld hr
  rw [if_neg fun hwait => mustWait_eq_true_iff.1 hwait hw] at hx
  obtain ⟨-, hmem, hkey⟩ := barAudit_keeps s G
  exact scalarIssues_of_issueScalar hx (by rw [barAudit_groups]; exact hs.2) hmem hkey

end

end

/-! ### What comes before what follows a fence (R113, R234 to R236) -/

section
variable {e f : Earlier} {o : Ord} {k : Nat}

theorem mem_keys : k ∈ e.keys ↔ k ∈ e.ops ∨ ∃ a ∈ e.acq, a.op = k := by
  rw [Earlier.keys, mem_sunion, List.mem_map]

theorem mem_acq_join {a : AcqRead} : a ∈ (e.join f).acq ↔ a ∈ e.acq ∨ a ∈ f.acq := by
  simp only [Earlier.join, List.mem_append, List.mem_filter, Bool.not_eq_true', List.contains_eq_mem, decide_eq_false_iff_not]
  tauto

theorem mem_keys_join : k ∈ (e.join f).keys ↔ k ∈ e.keys ∨ k ∈ f.keys := by
  have hops : k ∈ (e.join f).ops ↔ k ∈ e.ops ∨ k ∈ f.ops := mem_sunion
  simp only [mem_keys, hops, mem_acq_join, or_and_right, exists_or]
  exact or_or_or_comm

theorem mem_earlier_keys : k ∈ o.earlier.keys ↔ k ∈ o.before.keys ∨ k ∈ o.own := by
  have hops : k ∈ o.earlier.ops ↔ k ∈ o.before.ops ∨ k ∈ o.own := mem_sunion
  rw [mem_keys, hops, mem_keys]
  exact or_right_comm

/-- What a stream had before itself it still has after an acquire. -/
theorem mem_earlier_keys_gain (h : k ∈ o.earlier.keys) : k ∈ (o.gain e).earlier.keys :=
  mem_earlier_keys.2 ((mem_earlier_keys.1 h).imp_left fun h => mem_keys_join.2 (.inl h))

/-- Every access of the stream follows what is in flight of what comes before. -/
theorem mem_accDeps_of_before (h : k ∈ o.before.keys) (hl : (mget s.ops k).isSome = true) (locs : List Nat) (n : Nat) : k ∈ accDeps s o locs n :=
  List.mem_filter.2 ⟨mem_sunion.2 (.inl h), hl⟩

/-- The operations that some release fences put before later writes. -/
theorem mem_foldl_keys {l : List (Scope × Earlier)} {init : List Nat} :
    k ∈ l.foldl (fun l f => sunion l f.2.keys) init ↔ k ∈ init ∨ ∃ f ∈ l, k ∈ f.2.keys := by
  induction l generalizing init with
  | nil => simp
  | cons f l ih => rw [List.foldl_cons, ih, mem_sunion, List.exists_mem_cons_iff, or_assoc]

end

/-- Later writes carry a release fence's release, and wait until the writes before it are performed (R113, R235). -/
theorem fence_orders {e : Earlier} (he : ∀ k ∈ G.ord.earlier.keys, k ∈ e.keys) (o : Ord) (scope : Scope) :
    (∃ e', (scope, e') ∈ (o.fence scope e).fences ∧ ∀ k ∈ scalarEarlier s G, k ∈ e'.keys) ∧
      ∀ k ∈ unperf s (scalarEarlier s G), k ∈ fencePerf s (o.fence scope e) := by
  have hmem : (scope, e) ∈ (o.fence scope e).fences := List.mem_append_right _ (List.mem_singleton_self _)
  have hkeys : ∀ k ∈ scalarEarlier s G, k ∈ e.keys := fun k hk => he k (List.mem_of_mem_filter hk)
  refine ⟨⟨e, hmem, hkeys⟩, fun k hk => ?_⟩
  obtain ⟨hk, hp⟩ := List.mem_filter.1 hk
  exact List.mem_filter.2 ⟨mem_foldl_keys.2 (.inr ⟨_, hmem, hkeys k hk⟩), hp⟩

/-- The reads before an acquire fence become acquires at its scope, and every later access follows them (R236). -/
theorem acquireFence_orders {scope : Scope} {f : Ord} (hf : ∀ a ∈ (G.ord.acquireFence s (G.agent g) scope).before.acq, a ∈ f.before.acq) :
    ∀ k ∈ readsOf s (sunion G.ord.own G.ord.cov), { op := k, scope := scope, who := G.agent g } ∈ f.before.acq ∧
      ((mget s.ops k).isSome = true → ∀ locs n, k ∈ accDeps s f locs n) := by
  intro k hk
  have hread := hf { op := k, scope := scope, who := G.agent g } (mem_acq_join.2 (.inr (List.mem_map_of_mem hk)))
  exact ⟨hread, mem_accDeps_of_before (mem_keys.2 (.inr ⟨_, hread, rfl⟩))⟩

/-! ### Fences (R113, R235, R236, R240) -/

/-- What a sequential fence of the scalar stream puts before what follows it: what an acquire and release fence there would, and what the sequential fences
before it have put (R240). -/
def seqEarlier (s : State) (g : Nat) (G : Group) (scope : Scope) : Earlier :=
  let acq := G.ord.acquireFence s (G.agent g) scope
  { acq.earlier with seen := sunion acq.earlier.seen acq.fenced }.join (seqBefore s (G.agent g) scope)

theorem mem_seqEarlier_keys {scope : Scope} {k : Nat} (h : k ∈ G.ord.earlier.keys) : k ∈ (seqEarlier s g G scope).keys :=
  mem_keys_join.2 (.inl (mem_earlier_keys_gain h))

/-- A fence that need not wait moves on with its kind's order. -/
theorem sfence_passes (hs : Scalar s g G) {scope : Scope} {kind : FenceKind} (hgo : kind = .acq ∨ scopeWide scope = false ∨ unacked s (scalarEarlier s G) = []) :
    ∃ f q, exec (.sfence scope kind) s = .next { s with groups := mput s.groups g (past { G with ord := f } 1), seqs := s.seqs ++ q } ∧
      (kind ≠ .seq → q = []) ∧ (kind = .seq → ∃ x, q = [x] ∧ x.who = G.agent g ∧ x.scope = scope) ∧
      (kind ≠ .acq → (∃ e, (scope, e) ∈ f.fences ∧ ∀ k ∈ scalarEarlier s G, k ∈ e.keys) ∧ ∀ k ∈ unperf s (scalarEarlier s G), k ∈ fencePerf s f) ∧
      (kind = .seq → ∀ k ∈ scalarEarlier s G, ∀ locs n, k ∈ accDeps s f locs n) ∧
      (kind ≠ .rel → ∀ k ∈ readsOf s (sunion G.ord.own G.ord.cov), { op := k, scope := scope, who := G.agent g } ∈ f.before.acq ∧
        ((mget s.ops k).isSome = true → ∀ locs n, k ∈ accDeps s f locs n)) := by
  have hno : ¬ (kind != .acq && scopeWide scope && !(unacked s (scalarEarlier s G)).isEmpty) = true := by
    rcases hgo with h | h | h <;> simp [h]
  have hx : exec (.sfence scope kind) s = _ := exec_of_withScalar hs rfl
  rw [if_neg hno] at hx
  cases kind with
  | acq =>
    exact ⟨_, [], hx.trans (by rw [List.append_nil]; rfl), fun _ => rfl, nofun, fun h => absurd rfl h, nofun, fun _ => acquireFence_orders fun _ => id⟩
  | rel =>
    exact ⟨_, [], hx.trans (by rw [List.append_nil]; rfl), fun _ => rfl, nofun, fun _ => fence_orders (fun _ => id) _ _, nofun, fun h => absurd rfl h⟩
  | acqRel =>
    exact ⟨_, [], hx.trans (by rw [List.append_nil]; rfl), fun _ => rfl, nofun, fun _ => fence_orders (fun _ => mem_earlier_keys_gain) _ _, nofun,
      fun _ => acquireFence_orders fun _ => id⟩
  | seq =>
    refine ⟨((G.ord.acquireFence s (G.agent g) scope).gain (seqEarlier s g G scope)).fence scope (seqEarlier s g G scope), [_], hx,
      fun h => absurd rfl h, fun _ => ⟨_, rfl, rfl, rfl⟩, fun _ => fence_orders (fun _ => mem_seqEarlier_keys) _ _, fun _ k hk => ?_,
      fun _ => acquireFence_orders fun _ ha => mem_acq_join.2 (.inl ha)⟩
    obtain ⟨hk, hlive⟩ := List.mem_filter.1 hk
    exact mem_accDeps_of_before (mem_keys_join.2 (.inr (mem_seqEarlier_keys hk))) hlive

/-- A release fence at a wide scope waits for the writes before it (R113, R240). -/
theorem sfence_waits (hs : Scalar s g G) {scope : Scope} {kind : FenceKind} (hk : kind ≠ .acq) (hw : scopeWide scope = true)
    (hun : unacked s (scalarEarlier s G) ≠ []) : exec (.sfence scope kind) s = .next s := by
  rw [exec_of_withScalar hs (i := .sfence scope kind) rfl, if_pos (by simp [hk, hw, hun])]

end

/-- Settles O14: an atomic skips, waits or issues as its guard and its order say; a fence that need not wait leaves an order that holds what the stream did, and
the reads that it made acquires, before what follows. -/
theorem scalarAtomicsAndFences : Obligations.ScalarAtomicsAndFences := by
  intro s g G d a b e gd scope order kind pa hs hc
  have hadd : exec (.satom d a b gd scope order) s = atomStep s (.atom .add) d a gd scope order (fun G => G.rs b) fun _ => 0 := rfl
  have hcas : exec (.scas d a b gd scope order e) s = atomStep s .cas d a gd scope order (fun G => G.rs e) fun G => G.rs b := rfl
  refine ⟨fun h => ⟨atom_of_not_holds hs hadd h, atom_of_not_holds hs hcas h⟩, fun h hst hld hr => ⟨fun hw => ?_, fun hw => ?_⟩,
    sfence_passes hs, sfence_waits hs⟩
  · exact ⟨atom_issues hs hadd h hc hst hld hr hw, atom_issues hs hcas h hc hst hld hr hw⟩
  · exact ⟨atom_waits hs hadd h hc hst hld hr hw, atom_waits hs hcas h hc hst hld hr hw⟩

end Sys2Proof.Proofs
end

section
/-!
PROOFS. Lane integer instructions (R17, R121 to R123).
-/

namespace Sys2Proof.Proofs
open Sys2Proof Sys2Proof.Machine Sys2Proof.Claims

/-! ### Integers of a type (R15 to R17) -/

theorem opnd_lt_two_pow (G : Machine.Group) (t : Ty) (o : Opnd) (i : Nat) : G.opnd t o i < 2 ^ t.bits := by
  cases o with
  | v r => exact el_lt G t r.toNat i
  | s r => exact Nat.mod_lt _ (Nat.two_pow_pos _)
  | imm x =>
    by_cases h : t = .i64
    · subst h
      exact (x.signExtend 64).isLt
    · exact (immEl_of_ne_i64 h x).trans_lt (Nat.mod_lt _ (Nat.two_pow_pos _))

/-- The model's wrapping or clamping is that of R17. -/
theorem narrow_eq_fitted (t : Ty) (sat : Bool) (r : Int) : narrow sat t.isSigned t.bits r = fitted t sat r := rfl

theorem fitted_lt (t : Ty) (sat : Bool) (r : Int) : fitted t sat r < 2 ^ t.bits := wrapped_lt t _

/-- A pattern and its integer are the same number modulo `2 ^ n`. -/
theorem intOf_modEq (t : Ty) (x : Nat) : intOf t x ≡ x [ZMOD (2 ^ t.bits : Nat)] := by
  unfold intOf
  split
  · exact Int.sub_emod_right _ _
  · rfl

/-- The lesser and the greater of two integers of a type are the ones of their patterns. -/
theorem wrapped_min_max (t : Ty) {x y : Nat} (hx : x < 2 ^ t.bits) (hy : y < 2 ^ t.bits) :
    wrapped t (min (intOf t x) (intOf t y)) = (if intOf t x ≤ intOf t y then x else y) ∧
    wrapped t (max (intOf t x) (intOf t y)) = if intOf t x ≤ intOf t y then y else x := by
  rw [min_def, max_def]
  split <;> exact ⟨wrapped_intOf t ‹_›, wrapped_intOf t ‹_›⟩

/-! ### Shifts (R122) -/

/-- A shift left that wraps drops the bits that leave the type. -/
theorem wrapped_mul_two_pow (t : Ty) (x c : Nat) :
    wrapped t (intOf t x * (2 ^ c : Nat)) = if c ≥ t.bits then 0 else x * 2 ^ c % 2 ^ t.bits := by
  have hval : wrapped t (intOf t x * (2 ^ c : Nat)) = x * 2 ^ c % 2 ^ t.bits := by
    rw [wrapped, (intOf_modEq t x).mul_right _]
    exact Int.toNat_natCast _
  rw [hval]
  split
  · next h => exact Nat.mod_eq_zero_of_dvd ((pow_dvd_pow 2 h).mul_left x)
  · rfl

theorem neg_two_pow_le_least (t : Ty) : -((2 ^ t.bits : Nat) : Int) ≤ least t := by
  have h : 2 ^ (t.bits - 1) ≤ 2 ^ t.bits := Nat.pow_le_pow_right two_pos (Nat.sub_le _ _)
  have h0 := Nat.two_pow_pos t.bits
  unfold least
  split <;> omega

theorem largest_le_two_pow (t : Ty) : largest t ≤ (2 ^ t.bits : Nat) := by
  have h : 2 ^ (t.bits - 1) ≤ 2 ^ t.bits := Nat.pow_le_pow_right two_pos (Nat.sub_le _ _)
  unfold largest
  split <;> omega

/-- A shift left that clamps leaves the type with any count of `n` or more, on the side of its sign. -/
theorem fitted_mul_two_pow_min (t : Ty) (a : Int) (c : Nat) : fitted t true (a * (2 ^ min c t.bits : Nat)) = fitted t true (a * (2 ^ c : Nat)) := by
  rcases le_total c t.bits with hc | hc
  · rw [min_eq_left hc]
  have hpow : ((2 ^ t.bits : Nat) : Int) ≤ (2 ^ c : Nat) := by exact_mod_cast Nat.pow_le_pow_right two_pos hc
  have hN : (0 : Int) ≤ (2 ^ t.bits : Nat) := Int.natCast_nonneg _
  have hlo := neg_two_pow_le_least t
  have hhi := largest_le_two_pow t
  rw [min_eq_right hc]
  suffices h : max (least t) (min (largest t) (a * (2 ^ t.bits : Nat))) = max (least t) (min (largest t) (a * (2 ^ c : Nat))) from
    congrArg (wrapped t) h
  generalize ((2 ^ t.bits : Nat) : Int) = N at *
  generalize ((2 ^ c : Nat) : Int) = C at *
  rcases lt_trichotomy a 0 with ha | rfl | ha
  · have h1 : a * N ≤ least t := by nlinarith
    have h2 : a * C ≤ least t := by nlinarith
    rw [max_eq_left (min_le_of_right_le h1), max_eq_left (min_le_of_right_le h2)]
  · simp
  · have h1 : largest t ≤ a * N := by nlinarith
    have h2 : largest t ≤ a * C := by nlinarith
    rw [min_eq_left h1, min_eq_left h2]

/-- What vshl writes for `x` and the count `c`. -/
def shiftedLeft (t : Ty) (sat : Bool) (x c : Nat) : Nat :=
  if sat then narrow true t.isSigned t.bits (Machine.toInt t.isSigned t.bits x * (2 ^ min c t.bits : Nat))
  else if c ≥ t.bits then 0 else x * 2 ^ c % 2 ^ t.bits

theorem exec_vshl (w : Bin) (s : State) : exec (.vshl w) s = cntStep s w fun _ => shiftedLeft w.ty w.m.sat := rfl

theorem shiftedLeft_eq_fitted (t : Ty) {x : Nat} (hx : x < 2 ^ t.bits) (sat : Bool) (c : Nat) :
    shiftedLeft t sat x c = fitted t sat (intOf t x * (2 ^ c : Nat)) := by
  unfold shiftedLeft
  cases sat with
  | false => exact (wrapped_mul_two_pow t x c).symm
  | true => rw [if_pos rfl, narrow_eq_fitted, toInt_eq_intOf t hx, fitted_mul_two_pow_min]

theorem shiftRight_eq_div {n x : Nat} (hx : x < 2 ^ n) (c : Nat) : (if c ≥ n then 0 else x / 2 ^ c) = x / 2 ^ c := by
  split
  · next h => exact (Nat.div_eq_of_lt (hx.trans_le (Nat.pow_le_pow_right two_pos h))).symm
  · rfl

/-- A quotient by a power of 2 that is no less than the number is its sign. -/
theorem ediv_natCast_of_bounds {a : Int} {N : Nat} (hlo : -N ≤ a) (hhi : a < N) : a / N = if a < 0 then -1 else 0 := by
  split
  · next h => exact Int.ediv_eq_neg_one_of_neg_of_le h (by omega)
  · next h => exact Int.ediv_eq_zero_of_lt (by omega) hhi

theorem sgnOf_div_two_pow_min (t : Ty) {x : Nat} (hx : x < 2 ^ t.bits) (c : Nat) :
    sgnOf t x / (2 ^ min c t.bits : Nat) = sgnOf t x / (2 ^ c : Nat) := by
  rcases le_total c t.bits with hc | hc
  · rw [min_eq_left hc]
  have hpow : 2 ^ t.bits ≤ 2 ^ c := Nat.pow_le_pow_right two_pos hc
  have hlo : -((2 ^ t.bits : Nat) : Int) ≤ sgnOf t x := by unfold sgnOf; split <;> omega
  have hhi : sgnOf t x < (2 ^ t.bits : Nat) := by unfold sgnOf; split <;> omega
  rw [min_eq_right hc, ediv_natCast_of_bounds hlo hhi, ediv_natCast_of_bounds (by omega) (by omega)]

theorem arithmeticShiftRight_eq_wrapped (t : Ty) {x : Nat} (hx : x < 2 ^ t.bits) (c : Nat) :
    wrap t.bits (Machine.toInt true t.bits x / (2 ^ min c t.bits : Nat)) = wrapped t (sgnOf t x / (2 ^ c : Nat)) := by
  rw [toInt_eq_sgnOf t hx, sgnOf_div_two_pow_min t hx, wrap, wrapped]

/-! ### Counts and the reversal of bits (R121) -/

/-- The logarithm is the highest 1 bit. -/
theorem clz_spec {n x : Nat} (hx : x < 2 ^ n) : clz n x ≤ n ∧ x < 2 ^ (n - clz n x) ∧ (clz n x < n → 2 ^ (n - 1 - clz n x) ≤ x) := by
  rw [clz, Nat.mod_eq_of_lt hx]
  split
  · next h => simp [h]
  · next h =>
    have hlog : x.log2 < n := (Nat.log2_lt h).2 hx
    have h1 : n - (n - 1 - x.log2) = x.log2 + 1 := by omega
    have h2 : n - 1 - (n - 1 - x.log2) = x.log2 := by omega
    rw [h1, h2]
    exact ⟨by omega, Nat.lt_log2_self, fun _ => Nat.log2_self_le h⟩

/-- The lowest bit of `n + 1` goes to the top, and the others are reversed below it. -/
theorem bitrev_spec (n x : Nat) : bitrev n x < 2 ^ n ∧ ∀ j < n, (bitrev n x).testBit j = x.testBit (n - 1 - j) := by
  induction n generalizing x with
  | zero => simp [bitrev]
  | succ n ih =>
    obtain ⟨hlt, hbit⟩ := ih (x / 2)
    rw [bitrev, Nat.mul_comm]
    refine ⟨?_, fun j hj => ?_⟩
    · rcases Nat.mod_two_eq_zero_or_one x with h | h <;> rw [h] <;> omega
    · rw [Nat.testBit_two_pow_mul_add _ hlt]
      split
      · next h =>
        have hidx : n + 1 - 1 - j = n - 1 - j + 1 := by omega
        rw [hbit j h, hidx, Nat.testBit_succ]
      · next h =>
        obtain rfl : j = n := by omega
        simp

/-! ### Bit fields (R122) -/

theorem vfieldPos_add_vfieldLen_le {n b : Nat} (h : vfieldLen n b ≠ 0) : vfieldPos b + vfieldLen n b ≤ n := by
  by_cases hp : vfieldPos b < n
  · rw [vfieldLen, if_pos hp]
    omega
  · exact absurd (if_neg hp) h

/-- The sign of a two's complement number of `l` bits fills the bits above them. -/
theorem testBit_wrap_toInt {n l : Nat} (hl : 0 < l) (sg : Bool) {y : Nat} (hy : y < 2 ^ l) {j : Nat} (hj : j < n) :
    (wrap n (Machine.toInt sg l y)).testBit j = if j < l then y.testBit j else (sg && y.testBit (l - 1)) := by
  cases sg with
  | false =>
    have hwrap : wrap n (Machine.toInt false l y) = y % 2 ^ n := by
      rw [toInt_unsigned hy]
      exact Int.toNat_natCast _
    rw [hwrap, Nat.testBit_mod_two_pow, decide_eq_true hj, Bool.true_and, Bool.false_and]
    split
    · rfl
    · next h => exact Nat.testBit_lt_two_pow (hy.trans_le (Nat.pow_le_pow_right two_pos (not_lt.1 h)))
  | true =>
    have hnat : (BitVec.ofNat l y).toNat = y := by rw [BitVec.toNat_ofNat, Nat.mod_eq_of_lt hy]
    have hpow : 2 ^ l = 2 * 2 ^ (l - 1) := by rw [← pow_succ', Nat.sub_add_cancel hl]
    have hint : Machine.toInt true l y = (BitVec.ofNat l y).toInt := by
      have hcast : (y : Int) % 2 ^ l = y := by exact_mod_cast congrArg Nat.cast (Nat.mod_eq_of_lt hy)
      have htop : 2 ^ (l - 1) ≤ y ↔ ¬ 2 * y < 2 ^ l := by omega
      rw [BitVec.toInt_eq_toNat_cond, hnat]
      simp only [Machine.toInt, Nat.mod_eq_of_lt hy, hcast, Bool.true_and, decide_eq_true_eq, htop, ite_not]
      push_cast
      rfl
    have hwrap : wrap n (Machine.toInt true l y) = ((BitVec.ofNat l y).signExtend n).toNat := by
      rw [hint, BitVec.signExtend, BitVec.toNat_ofInt, wrap]
    rw [hwrap]
    change ((BitVec.ofNat l y).signExtend n).getLsbD j = _
    rw [BitVec.getLsbD_signExtend, BitVec.msb_eq_getLsbD_last, BitVec.getLsbD, BitVec.getLsbD, hnat]
    simp [hj]

/-- What vbfx writes for `x` and the descriptor `b`. -/
def extracted (t : Ty) (x b : Nat) : Nat :=
  let l := vfieldLen t.bits b
  if l = 0 then 0 else wrap t.bits (Machine.toInt t.isSigned l (x / 2 ^ vfieldPos b % 2 ^ l))

/-- What vbfi writes over `old` for `x` and the descriptor `b`. -/
def inserted (n old x b : Nat) : Nat :=
  let p := vfieldPos b
  let l := vfieldLen n b
  if l = 0 then old else old / 2 ^ (p + l) * 2 ^ (p + l) + x % 2 ^ l * 2 ^ p + old % 2 ^ p

theorem exec_vbfx (w : Bin) (s : State) : exec (.vbfx w) s = cntStep s w fun _ => extracted w.ty := rfl

theorem exec_vbfi (w : Bin) (s : State) : exec (.vbfi w) s = cntStep s w (inserted w.ty.bits) := rfl

theorem extracted_spec (t : Ty) (x b : Nat) :
    extracted t x b < 2 ^ t.bits ∧ ∀ j < t.bits, (extracted t x b).testBit j =
      if j < vfieldLen t.bits b then x.testBit (vfieldPos b + j)
      else (t.isSigned && decide (0 < vfieldLen t.bits b) && x.testBit (vfieldPos b + vfieldLen t.bits b - 1)) := by
  unfold extracted
  generalize vfieldPos b = p
  generalize vfieldLen t.bits b = l
  by_cases h : l = 0
  · simp [h]
  · have hl : 0 < l := Nat.pos_of_ne_zero h
    have hfield (k : Nat) (hk : k < l) : (x / 2 ^ p % 2 ^ l).testBit k = x.testBit (p + k) := by
      rw [Nat.testBit_mod_two_pow, Nat.testBit_div_two_pow, decide_eq_true hk, Bool.true_and, Nat.add_comm]
    dsimp only
    rw [if_neg h]
    refine ⟨wrapped_lt t _, fun j hj => ?_⟩
    rw [testBit_wrap_toInt hl _ (Nat.mod_lt _ (Nat.two_pow_pos _)) hj, hfield _ (Nat.sub_lt hl one_pos), decide_eq_true hl, Bool.and_true,
      Nat.add_sub_assoc hl]
    exact if_ctx_congr Iff.rfl (hfield j) fun _ => rfl

/-- The bits of `old` above the field, the field, and the bits of `old` below it. -/
theorem testBit_concat (old x p l j : Nat) : (old / 2 ^ (p + l) * 2 ^ (p + l) + x % 2 ^ l * 2 ^ p + old % 2 ^ p).testBit j =
    if p ≤ j ∧ j < p + l then x.testBit (j - p) else old.testBit j := by
  have hlow : old % 2 ^ p < 2 ^ p := Nat.mod_lt _ (Nat.two_pow_pos _)
  have hmid : x % 2 ^ l < 2 ^ l := Nat.mod_lt _ (Nat.two_pow_pos _)
  have hnest : old / 2 ^ (p + l) * 2 ^ (p + l) + x % 2 ^ l * 2 ^ p + old % 2 ^ p = 2 ^ p * (2 ^ l * (old / 2 ^ (p + l)) + x % 2 ^ l) + old % 2 ^ p := by
    rw [pow_add]
    ring
  rw [hnest, Nat.testBit_two_pow_mul_add _ hlow, Nat.testBit_two_pow_mul_add _ hmid, Nat.testBit_mod_two_pow, Nat.testBit_mod_two_pow,
    Nat.testBit_div_two_pow]
  by_cases hbelow : j < p
  · simp [hbelow, hbelow.not_ge]
  by_cases hin : j < p + l
  · have hk : j - p < l := by omega
    simp [hbelow, hin, hk, not_lt.1 hbelow]
  · have hk : ¬ j - p < l := by omega
    have hj : j - p - l + (p + l) = j := by omega
    simp [hbelow, hin, hk, hj]

theorem inserted_spec {n old : Nat} (hold : old < 2 ^ n) (x b : Nat) :
    inserted n old x b < 2 ^ n ∧ ∀ j < n, (inserted n old x b).testBit j =
      if vfieldPos b ≤ j ∧ j < vfieldPos b + vfieldLen n b then x.testBit (j - vfieldPos b) else old.testBit j := by
  by_cases h : vfieldLen n b = 0
  · rw [inserted, if_pos h]
    refine ⟨hold, fun j _ => (if_neg ?_).symm⟩
    omega
  · have hfits := vfieldPos_add_vfieldLen_le h
    rw [inserted, if_neg h]
    refine ⟨Nat.lt_pow_two_of_testBit _ fun j hj => ?_, fun j _ => testBit_concat _ _ _ _ j⟩
    rw [testBit_concat, if_neg (by omega)]
    exact Nat.testBit_lt_two_pow (hold.trans_le (Nat.pow_le_pow_right two_pos hj))

/-! ### The rows -/

section
variable {i : Instr} {s : State} {g n : Nat} {G : Machine.Group} {S : Split} {t : Ty} {d : Nat} {act : Mask} {f f' : Nat → Nat}

theorem laneWrites_congr (h : LaneWrites i s g G n S t d act f) (hf : ∀ j, f j = f' j) : LaneWrites i s g G n S t d act f' := funext hf ▸ h

/-- An exact function of two integers, wrapped or clamped once. -/
theorem laneWrites_intBin (hl : LaneTurn s g G n S) {w : Bin} (hb : Below G (tyRegs w.ty w.d ++ tyRegs w.ty w.a ++ opndRegs w.ty w.b)) (op : Int → Int → Int)
    (he : exec i s = intBin s w op) : LaneWrites i s g G n S w.ty w.d.toNat (Active G S w.g) fun j =>
      fitted w.ty w.m.sat (op (intOf w.ty (G.el w.ty w.a.toNat j)) (intOf w.ty (G.opnd w.ty w.b j))) :=
  laneWrites_congr (laneWrites_bin hl hb _ he) fun j => by rw [narrow_eq_fitted, toInt_eq_intOf _ (el_lt _ _ _ _), toInt_eq_intOf _ (opnd_lt_two_pow _ _ _ _)]

theorem laneWrites_intUn (hl : LaneTurn s g G n S) {w : Un} (hb : Below G (tyRegs w.ty w.d ++ tyRegs w.ty w.a)) (op : Int → Int) (he : exec i s = intUn s w op) :
    LaneWrites i s g G n S w.ty w.d.toNat (Active G S w.g) fun j => fitted w.ty w.m.sat (op (intOf w.ty (G.el w.ty w.a.toNat j))) :=
  laneWrites_congr (laneWrites_un hl hb _ he) fun j => by rw [narrow_eq_fitted, toInt_eq_intOf _ (el_lt _ _ _ _)]

/-- An instruction with a count or a field descriptor writes a function of the old destination, a, and the 32 bits of b. -/
theorem laneWrites_cnt (hl : LaneTurn s g G n S) {w : Bin} (hb : Below G (tyRegs w.ty w.d ++ tyRegs w.ty w.a ++ opndRegs .n32 w.b)) (F : Nat → Nat → Nat → Nat)
    (he : exec i s = cntStep s w F) : LaneWrites i s g G n S w.ty w.d.toNat (Active G S w.g) fun j =>
      F (G.el w.ty w.d.toNat j) (G.el w.ty w.a.toNat j) (G.opnd .n32 w.b j) :=
  laneWrites_alu hl (fun G j => F (G.el w.ty w.d.toNat j) (G.el w.ty w.a.toNat j) (G.opnd .n32 w.b j)) he hb

/-- A product and a sum, computed exactly, are wrapped or clamped once (R121). -/
theorem vmad_writes (hl : LaneTurn s g G n S) {w : Ter} (hb : Below G (tyRegs w.ty w.d ++ tyRegs w.ty w.a ++ opndRegs w.ty w.b ++ opndRegs w.ty w.c)) :
    LaneWrites (.vmad w) s g G n S w.ty w.d.toNat (Active G S w.g) fun j => fitted w.ty w.m.sat
      (intOf w.ty (G.el w.ty w.a.toNat j) * intOf w.ty (G.opnd w.ty w.b j) + intOf w.ty (G.opnd w.ty w.c j)) := by
  have he : exec (.vmad w) s = execVmad w s := rfl
  refine laneWrites_congr (laneWrites_ter hl hb _ he) fun j => ?_
  have ho (o : Opnd) := toInt_eq_intOf w.ty (opnd_lt_two_pow G w.ty o j)
  rw [narrow_eq_fitted, toInt_eq_intOf _ (el_lt _ _ _ _), ho, ho]

/-- The integer forms of vaddmin and vaddmax choose between c and the sum that the type holds (R123). -/
theorem addSel_writes_of_int (hl : LaneTurn s g G n S) {w : Ter} (ht : w.ty.isInt = true)
    (hb : Below G (tyRegs w.ty w.d ++ tyRegs w.ty w.a ++ opndRegs w.ty w.b ++ opndRegs w.ty w.c)) (mx : Bool) (he : exec i s = addSel mx s w) :
    LaneWrites i s g G n S w.ty w.d.toNat (Active G S w.g) fun j =>
      let sum := intOf w.ty (fitted w.ty w.m.sat (intOf w.ty (G.el w.ty w.a.toNat j) + intOf w.ty (G.opnd w.ty w.b j)))
      let c := intOf w.ty (G.opnd w.ty w.c j)
      wrapped w.ty (if mx then max sum c else min sum c) := by
  simp only [addSel, (fmtOf_of_int ht).1] at he
  refine laneWrites_congr (laneWrites_ter hl hb _ he) fun j => ?_
  have ho (o : Opnd) := toInt_eq_intOf w.ty (opnd_lt_two_pow G w.ty o j)
  rw [toInt_eq_intOf _ (el_lt _ _ _ _), ho, ho, narrow_eq_fitted, toInt_eq_intOf _ (fitted_lt _ _ _)]
  rfl

end

/-- Settles O23: each row is one masked write, of what its rule names of the lane's operands as integers or as patterns. -/
theorem laneIntegers : Obligations.LaneIntegers := by
  intro s g G n S hl
  refine ⟨fun w _ hb => ?_, fun w _ hb => ?_, fun w _ hb => ?_, fun w ht hb =>
    ⟨vmad_writes hl hb, addSel_writes_of_int hl ht hb false rfl, addSel_writes_of_int hl ht hb true rfl⟩⟩
  · intro A B a b gives
    have exactly {i : Instr} {f : Nat → Nat} (op : Int → Int → Int) (he : exec i s = intBin s w op)
        (hf : ∀ j, fitted w.ty w.m.sat (op (a j) (b j)) = f j) : gives i f := laneWrites_congr (laneWrites_intBin hl hb op he) hf
    have bitwise {i : Instr} (op : Nat → Nat → Nat) (he : exec i s = binStep s w op) : gives i fun j => op (A j) (B j) := laneWrites_bin hl hb op he
    refine ⟨exactly (· + ·) rfl fun _ => rfl, exactly (· - ·) rfl fun _ => rfl, exactly (· * ·) rfl fun _ => rfl, fun hsat => ?_⟩
    have wraps (r : Int) : fitted w.ty w.m.sat r = wrapped w.ty r := by rw [hsat]; rfl
    have chooses (j : Nat) := wrapped_min_max w.ty (el_lt G w.ty w.a.toNat j) (opnd_lt_two_pow G w.ty w.b j)
    exact ⟨exactly (fun x y => x * y / (2 ^ w.ty.bits : Nat)) rfl fun _ => wraps _, bitwise (· &&& ·) rfl, bitwise (· ||| ·) rfl, bitwise (· ^^^ ·) rfl,
      exactly min rfl fun j => (wraps _).trans (chooses j).1, exactly max rfl fun j => (wraps _).trans (chooses j).2⟩
  · intro A D c gives
    have write {i : Instr} {f : Nat → Nat} (F : Nat → Nat → Nat → Nat) (he : exec i s = cntStep s w F) (hf : ∀ j, F (D j) (A j) (c j) = f j) : gives i f :=
      laneWrites_congr (laneWrites_cnt hl hb F he) hf
    have hA (j : Nat) : A j < 2 ^ w.ty.bits := el_lt G w.ty w.a.toNat j
    have hD (j : Nat) : D j < 2 ^ w.ty.bits := el_lt G w.ty w.d.toNat j
    exact ⟨write _ (exec_vshl w s) fun j => shiftedLeft_eq_fitted w.ty (hA j) _ _,
      write (fun _ x c => if c ≥ w.ty.bits then 0 else x / 2 ^ c) rfl fun j => shiftRight_eq_div (hA j) _,
      write (fun _ x c => wrap w.ty.bits (Machine.toInt true w.ty.bits x / (2 ^ min c w.ty.bits : Nat))) rfl fun j => arithmeticShiftRight_eq_wrapped w.ty (hA j) _,
      ⟨_, write _ (exec_vbfx w s) fun _ => rfl, fun j => extracted_spec _ _ _⟩, ⟨_, write _ (exec_vbfi w s) fun _ => rfl, fun j => inserted_spec (hD j) _ _⟩⟩
  · intro A a gives
    have exactly {i : Instr} {f : Nat → Nat} (op : Int → Int) (he : exec i s = intUn s w op) (hf : ∀ j, fitted w.ty w.m.sat (op (a j)) = f j) : gives i f :=
      laneWrites_congr (laneWrites_intUn hl hb op he) hf
    have write {i : Instr} (F : Nat → Nat) (he : exec i s = unStep s w F) : gives i fun j => F (A j) := laneWrites_un hl hb F he
    exact ⟨exactly (fun x => (x.natAbs : Int)) rfl fun j => by rw [Int.abs_eq_natAbs], exactly (fun x => -x) rfl fun j => by rw [zero_sub],
      write (2 ^ w.ty.bits - 1 - ·) rfl, laneWrites_congr (write (popc w.ty.bits) rfl) fun j => popc_eq_length_filter _ _,
      ⟨_, write (clz w.ty.bits) rfl, fun j => clz_spec (el_lt _ _ _ _)⟩, ⟨_, write (bitrev w.ty.bits) rfl, fun j => bitrev_spec _ _⟩⟩

end Sys2Proof.Proofs
end

section
/-!
PROOFS. The checks of lane accesses (R110, R138): where every lane passes, each has its place.
-/

namespace Sys2Proof.Proofs
open Sys2Proof Sys2Proof.Machine Sys2Proof.Claims

/-! ### Lanes of a mask -/

theorem mem_lanesOf {m : Mask} {i : Nat} : i ∈ lanesOf m ↔ m.getLsbD i = true := by
  unfold lanesOf
  split
  · next h => simp [h]
  · simpa using BitVec.lt_of_getLsbD

/-- The mask of a list of lanes that holds just those of `m`. -/
theorem maskOf_contains {l : List Nat} {m : Mask} (h : ∀ i, i ∈ l ↔ m.getLsbD i = true) : (maskOf fun i => l.contains i) = m := by
  apply BitVec.eq_of_getLsbD_eq
  intro i hi
  rw [getLsbD_maskOf, decide_eq_true hi, Bool.true_and, Bool.eq_iff_iff, List.contains_iff_mem, h]

/-! ### Checks that every lane passes (R110, R138) -/

/-- The places of some accesses, where lane `i` goes to `loc i`. -/
def placed (loc : Nat → Nat) (eas : List (Nat × Word)) : List (Nat × Nat) := eas.map fun e => (e.1, loc e.1)

section
variable {s : State} {G : Group} {ctx core size kind : Nat} {need : Need} {write : Bool} {eas : List (Nat × Word)} {loc : Nat → Nat}

theorem chkAddr_of_passes (h : ∀ e ∈ eas, e.2.toNat % size = 0 ∧ e.2.toNat < 2 ^ 48) : chkAddr eas size = none := by
  have hal : (eas.filter fun (_, a) => a.toNat % size != 0) = [] := List.filter_eq_nil_iff.2 fun e he => by simp [(h e he).1]
  have hlo : (eas.filter fun (_, a) => decide (a.toNat ≥ 2 ^ 48)) = [] :=
    List.filter_eq_nil_iff.2 fun e he => by simpa using (h e he).2
  rw [chkAddr, hal]
  dsimp only
  rw [hlo]

theorem chkTranslate_of_passes (h : ∀ e ∈ eas, translate s ctx core none e.2.toNat need = .ok (loc e.1)) :
    chkTranslate s ctx core eas need kind = .ok (placed loc eas) := by
  have hrs : (eas.map fun e => (e.1, e.2, translate s ctx core none e.2.toNat need)) = eas.map fun e => (e.1, e.2, TrRes.ok (loc e.1)) :=
    List.map_congr_left fun e he => by rw [h e he]
  rw [chkTranslate]
  dsimp only
  rw [hrs]
  have hprot (l : Nat) : (TrRes.ok l == TrRes.prot) = false := beq_false_of_ne nofun
  simp [List.any_map, List.filter_map, List.filterMap_map, Function.comp_def, hprot, placed]

theorem chkLocks_of_passes (h : ∀ e ∈ eas, lockHit s ctx core (loc e.1) size write = false) :
    chkLocks s ctx core eas (placed loc eas) size write = .ok (placed loc eas) := by
  have hno : ((eas.zip (placed loc eas)).filter fun (_, l) => lockHit s ctx core l.2 size write) = [] := by
    refine List.filter_eq_nil_iff.2 fun p hp => ?_
    obtain ⟨e, he, hpe⟩ := List.mem_map.1 (List.of_mem_zip hp).2
    simp [← hpe, h e he]
  rw [chkLocks, hno]

theorem chkGlobal_of_reaches (h : ∀ e ∈ eas, Reaches s G e.2 size need (loc e.1)) :
    chkGlobal s (s.ctxOf G) G.core eas size need kind = .ok (placed loc eas) := by
  rw [chkGlobal, chkAddr_of_passes fun e he => ⟨(h e he).1, (h e he).2.1⟩]
  dsimp only
  rw [chkTranslate_of_passes fun e he => (h e he).2.2.1]
  exact chkLocks_of_passes fun e he => (h e he).2.2.2

end

/-- The access of group `G` at address `a` of a space passes the checks of R138 and goes to `pa`. -/
def PassesChecks (s : State) (G : Group) (size : Nat) (need : Need) (pa : Nat) (a : Word) : Space → Prop
  | .global => Reaches s G a size need pa
  | .own => a.toNat % size = 0 ∧ inArea s G.blk a.toNat size = true ∧ lockHit s (s.ctxOf G) G.core pa size need.w = false ∧ pa = scrLoc G.core a.toNat
  | .cluster => a.toNat % size = 0 ∧ a.toNat < 2 ^ 23 ∧
      inClusterArea s (s.ctxOf G) none (mateOf G.core (a.toNat / 2 ^ 21 % 4)) (a.toNat % 2 ^ 21) size = true ∧
      lockHit s (s.ctxOf G) G.core pa size need.w = false ∧ pa = scrLoc (mateOf G.core (a.toNat / 2 ^ 21 % 4)) (a.toNat % 2 ^ 21)

/-- Where every lane's access passes its checks, each lane has its place. -/
theorem laneChk_of_passes {s : State} {G : Group} {size kind : Nat} {need : Need} {eas : List (Nat × Word)} {loc : Nat → Nat} (sp : Space)
    (h : ∀ e ∈ eas, PassesChecks s G size need (loc e.1) e.2 sp) : laneChk s G sp eas size need kind = .ok (placed loc eas) := by
  cases sp with
  | global => exact chkGlobal_of_reaches h
  | own =>
    have hal : (eas.filter fun (_, a) => a.toNat % size != 0) = [] := List.filter_eq_nil_iff.2 fun e he => by simp [(h e he).1]
    have hin : (eas.filter fun (_, a) => !inArea s G.blk a.toNat size) = [] := List.filter_eq_nil_iff.2 fun e he => by simp [(h e he).2.1]
    have hpl : (eas.map fun (i, a) => (i, scrLoc G.core a.toNat)) = placed loc eas := List.map_congr_left fun e he => by rw [(h e he).2.2.2]
    rw [laneChk, chkScratch, hal]
    simp only [Bool.false_eq_true, if_false, hin, hpl]
    exact chkLocks_of_passes fun e he => (h e he).2.2.1
  | cluster =>
    have hal : (eas.filter fun (_, a) => a.toNat % size != 0) = [] := List.filter_eq_nil_iff.2 fun e he => by simp [(h e he).1]
    have hin : (eas.filter fun (_, a) => !(decide (a.toNat < 2 ^ 23) &&
        inClusterArea s (s.ctxOf G) none (mateOf G.core (a.toNat / 2 ^ 21 % 4)) (a.toNat % 2 ^ 21) size)) = [] :=
      List.filter_eq_nil_iff.2 fun e he => by simpa using ⟨(h e he).2.1, (h e he).2.2.1⟩
    have hpl : (eas.map fun (i, a) => (i, scrLoc (mateOf G.core (a.toNat / 2 ^ 21 % 4)) (a.toNat % 2 ^ 21))) = placed loc eas :=
      List.map_congr_left fun e he => by rw [(h e he).2.2.2.2]
    rw [laneChk, chkScratch, hal]
    simp only [if_true, hin, hpl]
    exact chkLocks_of_passes fun e he => (h e he).2.2.2.1

theorem mem_laneEAs {G : Group} {glob : Bool} {size : Nat} {mode : AMode} {off : BitVec 32} {m : Mask} {e : Nat × Word} :
    e ∈ laneEAs G glob size mode off m ↔ m.getLsbD e.1 = true ∧ e.2 = laneEA G glob size mode off e.1 := by
  obtain ⟨i, a⟩ := e
  rw [laneEAs, List.mem_map]
  constructor
  · rintro ⟨j, hj, hje⟩
    obtain ⟨rfl, rfl⟩ := Prod.mk.inj hje
    exact ⟨mem_lanesOf.1 hj, rfl⟩
  · exact fun ⟨hi, ha⟩ => ⟨i, mem_lanesOf.2 hi, Prod.ext rfl ha.symm⟩

end Sys2Proof.Proofs
end

section
/-!
PROOFS. The advance of a split (R81), and the issue of lane memory operations (R38, R57, R137, R138).
-/

namespace Sys2Proof.Proofs
open Sys2Proof Sys2Proof.Machine Sys2Proof.Claims

/-! ### The advance of a split looks at splits, joins and laneact only (R81) -/

/-- Two groups have the same splits, joins, live lanes and lanes marked by `lexit`. -/
structure SameLanes (G H : Machine.Group) : Prop where
  splits : H.splits = G.splits
  joins : H.joins = G.joins
  laneact : H.laneact = G.laneact
  exitMarks : H.exitMarks = G.exitMarks

theorem arrive_of_absent {G : Machine.Group} {n : Nat} (f : Nat) (hS : mget G.splits n = none) : arrive f G n = G := by
  cases f with
  | zero => rfl
  | succ f => rw [arrive, hS]

/-- A split either stays where it is, or its top join waits at its pc. -/
theorem passes_or_waits (G : Machine.Group) (S : Split) :
    Passes G S S.pc ∨ ∃ j J rest, S.stack = .join j :: rest ∧ mget G.joins j = some J ∧ J.rc = S.pc := by
  refine or_iff_not_imp_left.2 fun hp => ?_
  simp only [Passes, not_forall, not_not] at hp
  obtain ⟨j, J, hj, hJ, hrc⟩ := hp
  obtain ⟨rest, hst⟩ := topJoin_eq_some_iff.1 hj
  exact ⟨j, J, rest, hst, hJ, hrc⟩

theorem arrive_sameLanes (f : Nat) {G H : Machine.Group} (n : Nat) (h : SameLanes G H) : SameLanes (arrive f G n) (arrive f H n) := by
  induction f generalizing G H with
  | zero => exact h
  | succ f ih =>
    cases hS : mget G.splits n with
    | none =>
      rw [arrive_of_absent _ hS, arrive_of_absent _ (h.splits ▸ hS)]
      exact h
    | some S =>
      have hS' : mget H.splits n = some S := h.splits ▸ hS
      rcases passes_or_waits G S with hp | ⟨j, J, rest, hst, hJ, hrc⟩
      · rw [arrive_of_passes hS hp, arrive_of_passes hS' (by rw [Passes, h.joins]; exact hp)]
        exact h
      · rw [arrive_join hS hst hJ, arrive_join hS' hst (h.joins ▸ hJ), h.splits, if_neg (not_not.2 hrc), if_neg (not_not.2 hrc)]
        split
        · exact ⟨congrArg (mput · n _) h.splits, congrArg (mput · j _) h.joins, h.laneact, h.exitMarks⟩
        · split
          · exact ⟨congrArg (mdel · n) h.splits, congrArg (mput · j _) h.joins, h.laneact, h.exitMarks⟩
          · exact ih ⟨congrArg (mput · n _) h.splits, congrArg (mdel · j) h.joins, congrArg₂ (· &&& ~~~ ·) h.laneact h.exitMarks, rfl⟩

/-- Arrival changes the splits, the joins and the live lanes of its group only. -/
theorem arrive_frame (f : Nat) (G : Machine.Group) (n : Nat) : ∃ ss js la em, arrive f G n = { G with splits := ss, joins := js, laneact := la, exitMarks := em } := by
  induction f generalizing G with
  | zero => exact ⟨_, _, _, _, rfl⟩
  | succ f ih =>
    cases hS : mget G.splits n with
    | none => exact ⟨_, _, _, _, arrive_of_absent _ hS⟩
    | some S =>
      rcases passes_or_waits G S with hp | ⟨j, J, rest, hst, hJ, hrc⟩
      · exact ⟨_, _, _, _, arrive_of_passes hS hp⟩
      · rw [arrive_join hS hst hJ]
        split
        · exact ⟨_, _, _, _, rfl⟩
        · split
          · exact ⟨_, _, _, _, rfl⟩
          · split
            · exact ⟨_, _, _, _, rfl⟩
            · obtain ⟨ss, js, la, em, h⟩ := ih (popsJoin G n (goesOn S J rest) j)
              exact ⟨ss, js, la, em, h⟩

theorem goto_sameLanes {G H : Machine.Group} (n pc : Nat) (h : SameLanes G H) : SameLanes (G.goto n pc) (H.goto n pc) :=
  arrive_sameLanes _ _ ⟨congrArg (mupd · n fun S => { S with pc := pc }) h.splits, h.joins, h.laneact, h.exitMarks⟩

theorem goto_frame (G : Machine.Group) (n pc : Nat) : ∃ ss js la em, G.goto n pc = { G with splits := ss, joins := js, laneact := la, exitMarks := em } :=
  let ⟨ss, js, la, em, h⟩ := arrive_frame loopFuel { G with splits := mupd G.splits n fun S => { S with pc := pc } } n
  ⟨ss, js, la, em, h⟩

/-! ### Drain units that go home leave the operations -/

theorem setPh_ops (s : State) (b k : Nat) (p : Phaser) : (s.setPh b k p).ops = s.ops := by
  unfold State.setPh
  split
  · rfl
  · split <;> rfl

theorem endPhase_ops (s : State) (b k : Nat) (p : Phaser) : (endPhase s b k p).ops = s.ops := by
  unfold endPhase
  extract_lets old catchUp p' t gs u
  have ht : t.ops = s.ops := setPh_ops _ _ _ _
  have hu : u.ops = t.ops := List.foldlRecOn (motive := fun v : State => v.ops = t.ops) _ _ rfl fun _ hv _ _ => hv
  split
  · exact ht
  · split <;> exact hu.trans ht

theorem settlePh_ops (s : State) (b k : Nat) : (settlePh s b k).ops = s.ops := by
  unfold settlePh
  split
  · rfl
  · extract_lets p
    split
    · exact endPhase_ops _ _ _ _
    · rfl

theorem rootAdd_ops (s : State) (l ph : Nat) (phase : BitVec 32) (n : Nat) (e : Earlier) : (rootAdd s l ph phase n e).ops = s.ops := by
  unfold rootAdd
  split
  · rfl
  · dsimp only
    split
    · exact settlePh_ops _ _ _
    · rfl

theorem settleRuns_ops (s : State) : (settleRuns s).ops = s.ops := by
  unfold settleRuns
  split
  · rfl
  · exact List.foldlRecOn (motive := fun v : State => v.ops = s.ops) _ _ rfl fun _ hv _ _ => (rootAdd_ops _ _ _ _ _ _).trans hv

/-! ### The end of the issue: the split advances -/

section
variable {s : State} {g n : Nat} {G : Machine.Group} {S : Split}

/-- The split advances in its group; of the rest, only memberships may change, as the unit of a run that ended goes home. -/
theorem advanceLane_of (hg : mget s.groups g = some G) (hS : mget G.splits n = some S) :
    advanceLane s g n = settleRuns (s.grp g (G.goto n (S.pc + 1))) := by
  rw [advanceLane, hg]
  exact afterLane_of_pc hS

theorem advanceLane_keeps (hg : mget s.groups g = some G) (hS : mget G.splits n = some S) :
    (∃ G', mget (advanceLane s g n).groups g = some G' ∧ G' = { G.goto n (S.pc + 1) with memb := G'.memb }) ∧
      (advanceLane s g n).mem = s.mem ∧ (advanceLane s g n).ops = s.ops := by
  rw [advanceLane_of hg hS]
  obtain ⟨G', hG', hm, hmem⟩ := settleRuns_put s g (G.goto n (S.pc + 1))
  exact ⟨⟨G', hG', hm⟩, hmem, settleRuns_ops _⟩

/-- An instruction that only completes: the split advances in the group as it stands. -/
theorem laneBecomes_of_advance {i : Instr} {u : State} {H : Machine.Group} {T : Split} (hi : exec i s = .next (advanceLane u g n)) (hg : mget u.groups g = some H)
    (hT : mget H.splits n = some T) (hu : ∀ K, u.grp g K = s.grp g K) : LaneBecomes i s g (H.goto n (T.pc + 1)) := by
  rw [LaneBecomes, hi, advanceLane_of hg hT, hu]
  rfl

end

/-! ### An instruction that has skipped the lanes in lanedone completes (R40, R141, R144) -/

theorem clearDone_split {G : Machine.Group} {n : Nat} {S : Split} (hS : mget G.splits n = some S) :
    mget (G.clearDone n).splits n = some { S with redo := false, fe := none } := by
  change mget (mupd G.splits n _) n = _
  rw [mget_mupd_same, hS]
  rfl

theorem laneBecomes_clearDone {i : Instr} {s : State} {g n : Nat} {G : Machine.Group} {S : Split}
    (hi : exec i s = .next (advanceLane (s.modGrp g fun G => G.clearDone n) g n)) (hg : mget s.groups g = some G) (hS : mget G.splits n = some S) :
    LaneBecomes i s g ((G.clearDone n).goto n (S.pc + 1)) := by
  rw [State.modGrp, mupd, hg] at hi
  exact laneBecomes_of_advance (T := { S with redo := false, fe := none }) hi (mget_mput_same _ _ _) (clearDone_split hS)
    fun K => by rw [State.grp, State.grp, mput_mput]

/-! ### What an issue leaves of the group -/

/-- `H` is `G` after the issue of an access of split `n`, which was `S`: the counters have risen, and of the split its order and what its instruction notes
may have changed. -/
structure IssuedIn (G H : Machine.Group) (n : Nat) (S : Split) (ld st : Bool) : Prop where
  split : ∃ T : Split, T.pc = S.pc ∧ T.mask = S.mask ∧ T.stack = S.stack ∧ H.splits = mput G.splits n T
  joins : H.joins = G.joins
  laneact : H.laneact = G.laneact
  exitMarks : H.exitMarks = G.exitMarks
  cld : H.cld = G.cld + ld.toNat
  cst : H.cst = G.cst + st.toNat
  sreg : H.sreg = G.sreg
  vreg : H.vreg = G.vreg
  creg : H.creg = G.creg
  preg : H.preg = G.preg
  hreg : H.hreg = G.hreg

namespace IssuedIn
variable {G H : Machine.Group} {n : Nat} {S : Split} {ld st : Bool}

theorem clearDone (h : IssuedIn G H n S ld st) : IssuedIn G (H.clearDone n) n S ld st := by
  obtain ⟨T, hpc, hmask, hstack, hT⟩ := h.split
  refine { h with split := ⟨{ T with redo := false, fe := none }, hpc, hmask, hstack, ?_⟩ }
  rw [Group.clearDone, hT, mupd, mget_mput_same]
  exact mput_mput _ _ _ _

/-- The group after the split has advanced. -/
theorem advances (h : IssuedIn G H n S ld st) {K : Machine.Group} (hK : K = { H.goto n (S.pc + 1) with memb := K.memb }) : Advances G K n S := by
  obtain ⟨T, hpc, hmask, hstack, hT⟩ := h.split
  obtain ⟨hs, hj, hl, -⟩ := goto_sameLanes n (S.pc + 1)
    (⟨hT, h.joins, h.laneact, h.exitMarks⟩ : SameLanes { G with splits := mput G.splits n T } H)
  refine ⟨T, hpc, hmask, hstack, ?_⟩
  rw [hK]
  exact ⟨hs, hj, hl⟩

end IssuedIn

/-! ### The operation -/

/-- Each lane of a mask has its place, and no other lane has one. -/
def Places (locs : List (Nat × Nat)) (act : Mask) (loc : Nat → Nat) : Prop := ∀ p, p ∈ locs ↔ act.getLsbD p.1 = true ∧ p.2 = loc p.1

theorem places_placed {G : Machine.Group} {glob : Bool} {size : Nat} {mode : AMode} {off : BitVec 32} {act : Mask} {loc : Nat → Nat} :
    Places (placed loc (laneEAs G glob size mode off act)) act loc := by
  intro p
  rw [placed, List.mem_map]
  constructor
  · rintro ⟨e, he, rfl⟩
    exact ⟨(mem_laneEAs.1 he).1, rfl⟩
  · exact fun ⟨hp, hl⟩ => ⟨(p.1, laneEA G glob size mode off p.1), mem_laneEAs.2 ⟨hp, rfl⟩, Prod.ext rfl hl.symm⟩

/-- The memory operation of a lane instruction, as the statements have it. -/
structure LaneOp (m : MemOp) (kind : MKind) (ty : Ty) (dst : Dst) (act : Mask) (loc : Nat → Nat) (x y : Nat → Word) : Prop where
  kind : m.kind = kind
  ty : m.ty = ty
  dst : m.dst = dst
  lo : m.lo ≠ 0 → m.lo = act
  todo : m.todo ≠ 0 → m.todo = act
  acc : ∀ a ∈ m.acc, act.getLsbD a.lane = true ∧ a.loc = loc a.lane ∧ a.x = x a.lane ∧ a.y = y a.lane
  all : ∀ k < 256, act.getLsbD k = true → ∃ a ∈ m.acc, a.lane = k

/-- One access for each lane that has a place. -/
theorem acc_of_places {locs : List (Nat × Nat)} {act : Mask} {loc : Nat → Nat} (h : Places locs act loc) (ea x y : Nat → Word) :
    (∀ a ∈ locs.map fun p => { lane := p.1, loc := p.2, ea := ea p.1, x := x p.1, y := y p.1 : LaneAcc },
      act.getLsbD a.lane = true ∧ a.loc = loc a.lane ∧ a.x = x a.lane ∧ a.y = y a.lane) ∧
    ∀ k < 256, act.getLsbD k = true → ∃ a ∈ locs.map fun p => { lane := p.1, loc := p.2, ea := ea p.1, x := x p.1, y := y p.1 : LaneAcc }, a.lane = k := by
  constructor
  · intro a ha
    obtain ⟨p, hp, rfl⟩ := List.mem_map.1 ha
    exact ⟨((h p).1 hp).1, ((h p).1 hp).2, rfl, rfl⟩
  · exact fun k _ hk => ⟨_, List.mem_map_of_mem ((h (k, loc k)).2 ⟨hk, rfl⟩), rfl⟩

/-- The order of a stream that has issued operation `k`. -/
def ranAlso (o : Ord) (k : Nat) : Ord := { o with own := o.own ++ [k] }

section
variable {s u : State} {g n : Nat} {G : Machine.Group} {S : Split} {m : MemOp} {ld st : Bool} {deps : List Nat} {c : Carries} {pages : List Nat}

/-- The issue of a lane operation: it is in flight under the next key, and its group is as `IssuedIn` says. -/
theorem issueLane_issues (hg : mget u.groups g = some G) (hS : mget G.splits n = some S) :
    ∃ H o, (issueLane u g n G S m ld st deps c pages).1 = u.nextId ∧
      mget (issueLane u g n G S m ld st deps c pages).2.groups g = some H ∧ IssuedIn G H n S ld st ∧
      mget (issueLane u g n G S m ld st deps c pages).2.ops u.nextId = some o ∧
      o.grp = some g ∧ o.str = .split n ∧ o.body = .mem m ∧ o.ldc = ld ∧ o.stc = st ∧
      (issueLane u g n G S m ld st deps c pages).2.mem = u.mem ∧ (issueLane u g n G S m ld st deps c pages).2.full = u.full := by
  have hown : mupd G.splits n (fun S => { S with ord := ranAlso S.ord u.nextId }) = mput G.splits n { S with ord := ranAlso S.ord u.nextId } := by
    rw [mupd, hS]
  rw [issueLane, fillTlb_frame]
  refine ⟨_, _, rfl, mget_mupd_mupd hg _ _, ?_, mget_mput_same _ _ _, rfl, rfl, rfl, rfl, rfl, rfl, rfl⟩
  cases c.acq with
  | false => exact ⟨⟨{ S with ord := ranAlso S.ord u.nextId }, rfl, rfl, rfl, hown⟩, rfl, rfl, rfl, rfl, rfl, rfl, rfl, rfl, rfl, rfl⟩
  | true =>
    refine ⟨⟨{ S with ord := (ranAlso S.ord u.nextId).gain { ops := [u.nextId] } }, rfl, rfl, rfl, ?_⟩, rfl, rfl, rfl, rfl, rfl, rfl, rfl, rfl, rfl, rfl⟩
    refine (congrArg (mupd · n fun S => { S with ord := S.ord.gain { ops := [u.nextId] } }) hown).trans ?_
    rw [mupd, mget_mput_same]
    exact mput_mput _ _ _ _

/-- An instruction whose operation has issued, and whose split advances in a group `H`. -/
theorem laneIssues_of_advance {i : Instr} {H : Machine.Group} {kind : MKind} {ty : Ty} {dst : Dst} {act : Mask} {loc : Nat → Nat} {x y : Nat → Word} {o : Op}
    (hi : exec i s = .next (advanceLane u g n)) (hS : mget G.splits n = some S) (hH : mget u.groups g = some H) (hin : IssuedIn G H n S ld st)
    (ho : mget u.ops s.nextId = some o) (hgrp : o.grp = some g) (hstr : o.str = .split n) (hbody : o.body = .mem m) (hld : o.ldc = ld) (hst : o.stc = st)
    (hmem : u.mem = s.mem) (hm : LaneOp m kind ty dst act loc x y) : LaneIssues i s g G n kind ty dst act loc x y ld st := by
  obtain ⟨T, hpc, -, -, hT⟩ := hin.split
  obtain ⟨⟨K, hK, hKm⟩, hmem', hops⟩ := advanceLane_keeps hH (hT ▸ mget_mput_same _ _ _ : mget H.splits n = some T)
  rw [hpc] at hKm
  obtain ⟨ss, js, la, em, hgoto⟩ := goto_frame H n (S.pc + 1)
  have hadv := hin.advances hKm
  rw [hgoto] at hKm
  refine ⟨_, K, o, m, hi, hK, hops ▸ ho, hmem'.trans hmem, hgrp, hstr, hbody, hld, hst, hm.kind, hm.ty, hm.dst, hm.lo, hm.todo, hm.acc, hm.all,
    fun S' hS' => Option.some.inj (hS.symm.trans hS') ▸ hadv, ?_⟩
  rw [hKm]
  exact ⟨hin.cld, hin.cst, hin.sreg, hin.vreg, hin.creg, hin.preg, hin.hreg⟩

end

end Sys2Proof.Proofs
end

section
/-!
PROOFS. Plain lane loads, stores and prefetches (R135, R137, R138, R145).
-/

namespace Sys2Proof.Proofs
open Sys2Proof Sys2Proof.Machine Sys2Proof.Claims

/-- The operation of a plain access whose lanes `act` have the places `locs`. -/
def plainOp (G : Machine.Group) (w : MemL) (store : Bool) (act : Mask) (ea : Nat → Word) (locs : List (Nat × Nat)) : MemOp :=
  { kind := if store then .store else .load, ty := w.ty, dst := if store then .none else .v w.d.toNat,
    acc := locs.map fun p => { lane := p.1, loc := p.2, ea := ea p.1, x := if store then BitVec.ofNat 64 (G.el w.ty w.d.toNat p.1) else 0, y := 0 },
    todo := if store then act else 0, lo := if store then 0 else act, hi := if store || !w.ty.wide then 0 else act }

section
variable {i : Instr} {s : State} {g n : Nat} {G : Machine.Group} {S : Split} {w : MemL} {sp : Space} {store : Bool}

section
variable (hl : LaneTurn s g G n S) (hi : exec i s = plainStep s w sp store) (hb : Below G (tyRegs w.ty w.d ++ modeRegs (sp = .global) w.mode))
  (hroom : G.roomFor (!store) store false false = true)
include hl hi hb hroom

/-- What a plain access does once its checks have given each lane a place. -/
theorem plain_of_passes {loc : Nat → Nat} (hp : ∀ k, (active G S w.g).getLsbD k = true →
      PassesChecks s G w.ty.size { r := !store, w := store } (loc k) (laneEA G (sp = .global) w.ty.size w.mode w.off k) sp) :
    ∃ ea deps pages, exec i s = if active G S w.g = 0 then .next (advanceLane s g n) else
      .next (advanceLane (issueLane s g n G S (plainOp G w store (active G S w.g) ea
        (placed loc (laneEAs G (sp = .global) w.ty.size w.mode w.off (active G S w.g)))) (!store) store deps {} pages).2 g n) := by
  obtain ⟨ht, hg, hS⟩ := hl
  have hchk := laneChk_of_passes (kind := store.toNat) sp fun e (he : e ∈ laneEAs G (sp = .global) w.ty.size w.mode w.off (active G S w.g)) =>
    (mem_laneEAs.1 he).2 ▸ hp e.1 (mem_laneEAs.1 he).1
  rw [plainStep, laneIssue_of ht hg hS _ (by simp) hb (by simp)] at hi
  dsimp only [accSize] at hi
  rw [hchk, onChk, hroom, if_neg (by simp)] at hi
  exact ⟨addrOf (laneEAs G (sp = .global) w.ty.size w.mode w.off (active G S w.g)), _, _, hi⟩

theorem plain_issues (hact : Active G S w.g ≠ 0) {loc : Nat → Nat} (hp : ∀ k < 256, (Active G S w.g).getLsbD k = true →
      PassesChecks s G w.ty.size { r := !store, w := store } (loc k) (laneEA G (sp = .global) w.ty.size w.mode w.off k) sp) :
    LaneIssues i s g G n (if store then .store else .load) w.ty (if store then .none else .v w.d.toNat) (Active G S w.g) loc
      (fun k => if store then BitVec.ofNat 64 (G.el w.ty w.d.toNat k) else 0) (fun _ => 0) (!store) store := by
  obtain ⟨ea, deps, pages, hx⟩ := plain_of_passes hl hi hb hroom fun k hk => hp k (BitVec.lt_of_getLsbD hk) hk
  rw [if_neg (c := active G S w.g = 0) hact] at hx
  obtain ⟨H, o, -, hH, hin, ho, hgrp, hstr, hbody, hld, hst, hmem, -⟩ := issueLane_issues hl.2.1 hl.2.2
  obtain ⟨hacc, hall⟩ := acc_of_places places_placed ea (fun k => if store then BitVec.ofNat 64 (G.el w.ty w.d.toNat k) else 0) fun _ => 0
  refine laneIssues_of_advance hx hl.2.2 hH hin ho hgrp hstr hbody hld hst hmem ⟨rfl, rfl, rfl, ?_, ?_, hacc, hall⟩
  · cases store <;> simp [plainOp, active]
  · cases store <;> simp [plainOp, active]

/-- With no active lane a plain access only advances. -/
theorem plain_advances (hact : Active G S w.g = 0) : LaneBecomes i s g (G.goto n (S.pc + 1)) := by
  have hzero : active G S w.g = 0 := hact
  obtain ⟨ea, deps, pages, hx⟩ := plain_of_passes (loc := id) hl hi hb hroom fun k hk => by simp [hzero] at hk
  rw [if_pos hzero] at hx
  exact laneBecomes_of_advance hx hl.2.1 hl.2.2 fun _ => rfl

end

/-- A prefetch fills translation caches, and its split advances (R145). -/
theorem vprf_advances (hl : LaneTurn s g G n S) (hb : Below G (modeRegs true w.mode)) :
    ∃ t G', exec (.vprf w) s = .next t ∧ mget t.groups g = some G' ∧ t.mem = s.mem ∧
      Advances G G' n S ∧ G'.sreg = G.sreg ∧ G'.vreg = G.vreg ∧ G'.cld = G.cld := by
  obtain ⟨ht, hg, hS⟩ := hl
  obtain ⟨pages, hx⟩ : ∃ pages, exec (.vprf w) s = .next (advanceLane (fillTlb s (s.ctxOf G) G.core pages) g n) :=
    ⟨_, laneIssue_of ht hg hS w.g (by simp) hb (by simp) _⟩
  rw [fillTlb_frame] at hx
  obtain ⟨⟨K, hK, hKm⟩, hmem, -⟩ := advanceLane_keeps (s := { s with
    tlbCore := (fillTlb s (s.ctxOf G) G.core pages).tlbCore, tlbCluster := (fillTlb s (s.ctxOf G) G.core pages).tlbCluster }) hg hS
  obtain ⟨ss, js, la, em, hgoto⟩ := goto_frame G n (S.pc + 1)
  refine ⟨_, K, hx, hK, hmem, ⟨S, rfl, rfl, rfl, ?_⟩, ?_⟩
  · have hput : ({ G with splits := mput G.splits n S } : Machine.Group).goto n (S.pc + 1) = G.goto n (S.pc + 1) := by
      rw [goto_eq (mget_mput_same _ _ _), goto_eq hS, putSplit, putSplit, mput_mput]
    rw [hKm, hput]
    exact ⟨rfl, rfl, rfl⟩
  · rw [hKm, hgoto]
    exact ⟨rfl, rfl, rfl⟩

end

end Sys2Proof.Proofs
end

section
/-!
PROOFS. Vector atomics (R142 to R144): the pages of their lanes, taken one after the other, and their issue.
-/

namespace Sys2Proof.Proofs
open Sys2Proof Sys2Proof.Machine Sys2Proof.Claims

/-! ### The page of an address holds it (R268, R270, R276) -/

/-- The page of a cached translation holds an address. -/
def OnPage (e : TlbEnt) (va : Nat) : Prop := e.va ≤ va ∧ va < e.va + e.size

theorem onPage_aligned {e : TlbEnt} {va size : Nat} (hsize : 0 < size) (hva : e.va = va / size * size) (hs : e.size = size) : OnPage e va := by
  have hdiv := Nat.div_add_mod' va size
  have hmod := Nat.mod_lt va hsize
  rw [OnPage, hva, hs]
  omega

theorem leafOf_onPage {va level x : Nat} {e : TlbEnt} {c : Bool} (h : leafOf va level x = .leaf e c) : OnPage e va := by
  unfold leafOf at h
  extract_lets b size addr at h
  split at h
  · cases h
  · obtain ⟨rfl, -⟩ := Walk.leaf.inj h
    refine onPage_aligned (size := size) ?_ rfl rfl
    unfold size
    split <;> exact Nat.two_pow_pos _

theorem walkFrom_onPage {s : State} {va : Nat} {e : TlbEnt} {c : Bool} (level table : Nat) (h : walkFrom s va level table = .leaf e c) : OnPage e va := by
  induction level generalizing table with
  | zero => cases h
  | succ level ih =>
    rw [walkFrom] at h
    dsimp only at h
    split at h
    · cases h
    · split at h
      · cases h
      · split at h
        · exact leafOf_onPage h
        · split at h
          · cases h
          · split at h
            · cases h
            · exact ih _ h

theorem walk_onPage {s : State} {root va : Nat} {e : TlbEnt} {c : Bool} (h : walk s root va = .leaf e c) : OnPage e va := by
  unfold walk at h
  split at h
  · next e0 h0 =>
    extract_lets base all at h
    split at h
    · obtain ⟨rfl, -⟩ := Walk.leaf.inj h
      exact walkFrom_onPage 4 root h0
    · split at h
      · obtain ⟨rfl, -⟩ := Walk.leaf.inj h
        exact onPage_aligned (size := 2 ^ 16) (by decide) rfl rfl
      · next hother => exact absurd h (hother e c)
  · exact walkFrom_onPage 4 root h

theorem getD_cons_eq_or_mem {α : Type} (x : α) (l : List α) (k : Nat) : (x :: l).getD k x = x ∨ (x :: l).getD k x ∈ l := by
  rw [List.getD_eq_getElem?_getD]
  cases h : (x :: l)[k]? with
  | none => exact .inl rfl
  | some y => exact List.mem_cons.1 (List.mem_of_getElem? h)

theorem lookup_onPage {s : State} {c : Context} {ctx core va : Nat} {rset : Option (List RangeReg)} {e : TlbEnt}
    (h : lookup s c ctx core rset va = .leaf e) : OnPage e va := by
  unfold lookup at h
  split at h
  · cases h
  · extract_lets w old use at h
    have hold : ∀ x ∈ old, OnPage x va := fun x hx => by
      have hcached := (List.mem_filter.1 (List.mem_of_mem_filter hx)).2
      simp only [Bool.and_eq_true, decide_eq_true_eq] at hcached
      exact ⟨hcached.1.2, hcached.2⟩
    clear_value old
    -- the walk serves, or one of the cached translations that differ from it
    have huse : use = w ∨ ∃ x ∈ old, use = .leaf x false := by
      unfold use
      split
      · exact .inl rfl
      · refine (getD_cons_eq_or_mem _ _ _).imp_right fun h => ?_
        obtain ⟨x, hx, hxu⟩ := List.mem_map.1 h
        exact ⟨x, hx, hxu.symm⟩
    clear_value use
    split at h
    · obtain rfl := Found.leaf.inj h
      rcases huse with hw | ⟨x, hx, hxu⟩
      · exact walk_onPage hw.symm
      · obtain ⟨rfl, -⟩ := Walk.leaf.inj hxu
        exact hold _ hx
    · cases h
    · cases h

theorem pageAt_holds (s : State) (ctx core va : Nat) : (pageAt s ctx core va).1 ≤ va ∧ va < (pageAt s ctx core va).1 + (pageAt s ctx core va).2 := by
  unfold pageAt
  split
  · next e h =>
    obtain ⟨c, -, hc⟩ := Option.map_eq_some_iff.1 h
    exact lookup_onPage hc
  · dsimp only
    omega

/-! ### The pages of some addresses (R144) -/

/-- Some page of a list, by first byte and size, holds an address. -/
def OnPages (m : List (Nat × Nat)) (a : Nat) : Prop := ∃ p ∈ m, p.1 ≤ a ∧ a < p.1 + p.2

/-- The pages with that of `a` added, where none of them holds it. -/
def addPage (s : State) (G : Machine.Group) (m : SMap Nat) (a : Nat) : SMap Nat :=
  if m.any fun p => decide (p.1 ≤ a) && decide (a < p.1 + p.2) then m
  else mput m (pageAt s (s.ctxOf G) G.core a).1 (pageAt s (s.ctxOf G) G.core a).2

theorem atomPages_eq (s : State) (G : Machine.Group) (eas : List (Nat × Word)) : atomPages s G eas = eas.foldl (fun m e => addPage s G m e.2.toNat) [] := rfl

section
variable {s : State} {G : Machine.Group}

/-- Adding a page takes no address from the pages: where it takes the place of one, it is the larger one. -/
theorem onPages_addPage {m : SMap Nat} {a b : Nat} (h : OnPages m b ∨ b = a) : OnPages (addPage s G m a) b := by
  have hheld : (m.any fun p => decide (p.1 ≤ a) && decide (a < p.1 + p.2)) = true ↔ OnPages m a := by simp [OnPages, List.any_eq_true]
  have hpage := pageAt_holds s (s.ctxOf G) G.core a
  unfold addPage
  split
  · next hany =>
    rcases h with h | rfl
    · exact h
    · exact hheld.1 hany
  · next hany =>
    have hnew : (pageAt s (s.ctxOf G) G.core a) ∈ mput m (pageAt s (s.ctxOf G) G.core a).1 (pageAt s (s.ctxOf G) G.core a).2 :=
      mem_of_mget (mget_mput_same _ _ _)
    rcases h with ⟨p, hp, hlo, hhi⟩ | rfl
    · by_cases hkey : p.1 = (pageAt s (s.ctxOf G) G.core a).1
      · have hout : ¬ (p.1 ≤ a ∧ a < p.1 + p.2) := fun hin => hany (hheld.2 ⟨p, hp, hin⟩)
        exact ⟨_, hnew, by omega, by omega⟩
      · exact ⟨p, (mem_mput_of_ne hkey).2 hp, hlo, hhi⟩
    · exact ⟨_, hnew, hpage⟩

theorem onPages_atomPages {eas : List (Nat × Word)} {e : Nat × Word} (he : e ∈ eas) : OnPages (atomPages s G eas) e.2.toNat := by
  have hfold (l : List (Nat × Word)) (m : SMap Nat) (b : Nat) (h : OnPages m b ∨ ∃ x ∈ l, b = x.2.toNat) :
      OnPages (l.foldl (fun m e => addPage s G m e.2.toNat) m) b := by
    induction l generalizing m with
    | nil => exact h.resolve_right (by simp)
    | cons y l ih =>
      refine ih _ ?_
      rcases h with h | ⟨x, hx, hb⟩
      · exact .inl (onPages_addPage (.inl h))
      · rcases List.mem_cons.1 hx with rfl | hx
        · exact .inl (onPages_addPage (.inr hb))
        · exact .inr ⟨x, hx, hb⟩
  rw [atomPages_eq]
  exact hfold eas [] _ (.inr ⟨e, he, rfl⟩)

/-- Page by page, every lane gets its place where each passes its checks. -/
theorem chkPages_of_reaches {size : Nat} {eas : List (Nat × Word)} {loc : Nat → Nat} (h : ∀ e ∈ eas, Reaches s G e.2 size { r := true, w := true } (loc e.1))
    (pages ok : List (Nat × Nat)) (hok : ∀ p ∈ ok, p ∈ placed loc eas) :
    ∃ locs, chkPages s G size eas pages ok = (locs, none) ∧ (∀ p ∈ locs, p ∈ placed loc eas) ∧ (∀ p ∈ ok, p ∈ locs) ∧
      ∀ e ∈ eas, OnPages pages e.2.toNat → (e.1, loc e.1) ∈ locs := by
  induction pages generalizing ok with
  | nil => exact ⟨ok, rfl, hok, fun _ => id, fun e _ ⟨p, hp, _⟩ => nomatch hp⟩
  | cons q pages ih =>
    obtain ⟨lo, n⟩ := q
    obtain ⟨here, hh⟩ : ∃ here, here = eas.filter fun e => decide (lo ≤ e.2.toNat) && decide (e.2.toNat < lo + n) && !(ok.map (·.1)).contains e.1 := ⟨_, rfl⟩
    have hsub : ∀ e ∈ here, e ∈ eas := fun e he => List.mem_of_mem_filter (hh ▸ he)
    rw [chkPages, ← hh]
    have hhere : ∀ e ∈ here, Reaches s G e.2 size { r := true, w := true } (loc e.1) := fun e he => h e (hsub e he)
    rw [chkTranslate_of_passes fun e he => (hhere e he).2.2.1]
    dsimp only
    rw [chkLocks_of_passes fun e he => (hhere e he).2.2.2]
    obtain ⟨locs, hlocs, hin, hkept, hall⟩ := ih (ok ++ placed loc here) fun p hp => by
      rcases List.mem_append.1 hp with hp | hp
      · exact hok p hp
      · obtain ⟨e, he, hep⟩ := List.mem_map.1 hp
        exact List.mem_map.2 ⟨e, hsub e he, hep⟩
    refine ⟨locs, hlocs, hin, fun p hp => hkept p (List.mem_append_left _ hp), fun e he hon => ?_⟩
    obtain ⟨p, hp, hlo, hhi⟩ := hon
    rcases List.mem_cons.1 hp with rfl | hp
    · by_cases hold : e.1 ∈ ok.map (·.1)
      · obtain ⟨r, hr, hre⟩ := List.mem_map.1 hold
        obtain ⟨e', -, he'⟩ := List.mem_map.1 (hok r hr)
        have hr' : r = (e.1, loc e.1) := by rw [← hre, ← he']
        exact hkept _ (List.mem_append_left _ (hr' ▸ hr))
      · have hmem : e ∈ here := hh ▸ List.mem_filter.2 ⟨he, by simpa [hlo, hhi] using hold⟩
        exact hkept _ (List.mem_append_right _ (List.mem_map_of_mem hmem))
    · exact hall e he ⟨p, hp, hlo, hhi⟩

end

/-! ### Issue (R142, R143) -/

/-- The operation of a vector atomic whose lanes `act` have the places `locs`. -/
def atomOp (G : Machine.Group) (w : AtomL) (kind : MKind) (ret : Bool) (act : Mask) (ea : Nat → Word) (locs : List (Nat × Nat)) : MemOp :=
  { kind := kind, ty := w.ty, dst := if ret then .v w.d.toNat else .none,
    acc := locs.map fun p => { lane := p.1, loc := p.2, ea := ea p.1, x := BitVec.ofNat 64 (G.opnd w.ty w.c p.1), y := BitVec.ofNat 64 (G.el w.ty w.d.toNat p.1) },
    todo := act, lo := if ret then act else 0, hi := if ret && w.ty.wide then act else 0 }

section
variable {i : Instr} {s : State} {g n : Nat} {G : Machine.Group} {S : Split} {w : AtomL} {kind : MKind} {ret : Bool} {act : Mask}
variable (hl : LaneTurn s g G n S) (hi : exec i s = vatomStep s w kind ret)
  (hb : Below G (tyRegs w.ty w.d ++ modeRegs true w.mode ++ opndRegs w.ty w.c)) (hroom : G.roomFor ret true false false = true)
  (hw : ReleaseReady s w.scope w.order (splitEarlier s S)) (hact : active G S w.g &&& ~~~G.lanedone = act)
include hl hi hb hroom hw hact

/-- What an atomic does once every lane has passed its checks. -/
theorem vatom_of_passes {loc : Nat → Nat}
    (hp : ∀ k, act.getLsbD k = true → Reaches s G (laneEA G true w.ty.size w.mode 0 k) w.ty.size { r := true, w := true } (loc k)) :
    ∃ ea deps c pages locs, Places locs act loc ∧
      exec i s = .next (advanceLane ((if locs.isEmpty then s else
        (issueLane (barAudit s G) g n G S (atomOp G w kind ret act ea locs) ret true deps c pages).2).modGrp g fun G => G.clearDone n) g n) := by
  obtain ⟨ht, hg, hS⟩ := hl
  have hregs : ∀ r ∈ (if ret then tyRegs w.ty w.d else []) ++ modeRegs true w.mode ++ opndRegs w.ty w.c, r < G.n := fun r hr => hb r <| by
    cases ret
    · simp only [List.mem_append, Bool.false_eq_true, if_false, List.not_mem_nil, false_or] at hr ⊢
      tauto
    · exact hr
  obtain ⟨eas, heas⟩ : ∃ eas, laneEAs G true w.ty.size w.mode 0 act = eas := ⟨_, rfl⟩
  have hreach : ∀ e ∈ eas, Reaches s G e.2 w.ty.size { r := true, w := true } (loc e.1) := fun e he =>
    have h := mem_laneEAs.1 (heas ▸ he)
    h.2 ▸ hp e.1 h.1
  obtain ⟨locs, hlocs, hin, -, hall⟩ := chkPages_of_reaches hreach (atomPages s G eas) [] (by simp)
  have hplaces : Places locs act loc := fun p => by
    refine Iff.trans ⟨hin p, fun h => ?_⟩ (heas ▸ places_placed p)
    obtain ⟨e, he, rfl⟩ := List.mem_map.1 h
    exact hall e he (onPages_atomPages he)
  have hmask : (maskOf fun k => (locs.map (·.1)).contains k) = act := maskOf_contains fun k => by
    rw [List.mem_map]
    exact ⟨fun ⟨p, hp, hpk⟩ => hpk ▸ ((hplaces p).1 hp).1, fun hk => ⟨(k, loc k), (hplaces _).2 ⟨hk, rfl⟩, rfl⟩⟩
  rw [vatomStep, laneIssue_of ht hg hS _ (by simp) hregs (by simp)] at hi
  dsimp only [accSize] at hi
  rw [hact, heas, chkAddr_of_passes fun e he => ⟨(hreach e he).1, (hreach e he).2.1⟩] at hi
  dsimp only at hi
  rw [hroom, if_neg (by simp), if_neg fun hwait => mustWait_eq_true_iff.1 hwait hw, hlocs] at hi
  dsimp only at hi
  rw [hmask] at hi
  refine ⟨addrOf eas, accDeps (barAudit s G) S.ord (locs.map (·.2)) w.ty.size, { scope := w.scope, acq := ordAcq w.order, rel := ordRel w.order },
    eaPages .global eas, locs, hplaces, hi.trans ?_⟩
  cases locs.isEmpty <;> rfl

/-- With no lane to act on an atomic completes. -/
theorem vatom_advances (hzero : act = 0) : LaneBecomes i s g ((G.clearDone n).goto n (S.pc + 1)) := by
  obtain ⟨ea, deps, c, pages, locs, hplaces, hx⟩ := vatom_of_passes (loc := id) hl hi hb hroom hw hact fun k hk => by rw [hzero] at hk; simp at hk
  have hnil : locs = [] := List.eq_nil_iff_forall_not_mem.2 fun p hp => by simpa [hzero] using ((hplaces p).1 hp).1
  obtain ⟨ht, hg, hS⟩ := hl
  rw [hnil, List.isEmpty_nil, if_pos rfl] at hx
  exact laneBecomes_clearDone hx hg hS

theorem vatom_issues (hne : act ≠ 0) {loc : Nat → Nat}
    (hp : ∀ k < 256, act.getLsbD k = true → Reaches s G (laneEA G true w.ty.size w.mode 0 k) w.ty.size { r := true, w := true } (loc k)) :
    LaneIssues i s g G n kind w.ty (if ret then .v w.d.toNat else .none) act loc
      (fun k => BitVec.ofNat 64 (G.opnd w.ty w.c k)) (fun k => BitVec.ofNat 64 (G.el w.ty w.d.toNat k)) ret true := by
  obtain ⟨ea, deps, c, pages, locs, hplaces, hx⟩ := vatom_of_passes hl hi hb hroom hw hact fun k hk => hp k (BitVec.lt_of_getLsbD hk) hk
  have hsome : locs.isEmpty = false := by
    rw [List.isEmpty_eq_false_iff]
    rintro rfl
    have hnone (k : Nat) : act.getLsbD k = false := Bool.eq_false_iff.2 fun hk => nomatch (hplaces (k, loc k)).2 ⟨hk, rfl⟩
    exact hne (BitVec.eq_of_getLsbD_eq fun k _ => (hnone k).trans BitVec.getLsbD_zero.symm)
  rw [hsome, if_neg Bool.false_ne_true] at hx
  obtain ⟨-, hmem, hkey⟩ := barAudit_keeps s G
  have hg : mget (barAudit s G).groups g = some G := by rw [barAudit_groups]; exact hl.2.1
  obtain ⟨H, o, -, hH, hin, ho, hgrp, hstr, hbody, hld, hst, hmem', -⟩ := issueLane_issues (m := atomOp G w kind ret act ea locs)
    (ld := ret) (st := true) (deps := deps) (c := c) (pages := pages) hg hl.2.2
  obtain ⟨hacc, hall⟩ := acc_of_places hplaces ea (fun k => BitVec.ofNat 64 (G.opnd w.ty w.c k)) fun k => BitVec.ofNat 64 (G.el w.ty w.d.toNat k)
  refine laneIssues_of_advance hx hl.2.2 (H := H.clearDone n) ?_ hin.clearDone (hkey ▸ ho) hgrp hstr hbody hld hst (hmem'.trans hmem)
    ⟨rfl, rfl, rfl, ?_, fun _ => rfl, hacc, hall⟩
  · rw [State.modGrp_groups, mget_mupd_same, hH]
    rfl
  · cases ret
    · exact fun h => absurd rfl h
    · exact fun _ => rfl

end

/-- Settles O16: the checks give every lane its place, in any space and for an atomic page by page; the operation issues with them, and the split advances. -/
theorem laneAccesses : Obligations.LaneAccesses := by
  intro s g G n S w v loc hl hc hld hst
  have hload : G.roomFor true false false false = true := (roomFor_iff hc).2 ⟨hld, hc.2.1⟩
  have hstore : G.roomFor false true false false = true := (roomFor_iff hc).2 ⟨hc.1, hst⟩
  have hboth : G.roomFor true true false false = true := (roomFor_iff hc).2 ⟨hld, hst⟩
  constructor
  · intro act val z ea
    refine ⟨fun hb => ⟨?_, ?_, ?_⟩, vprf_advances hl, fun hb => ⟨?_, ?_⟩⟩
    · exact fun hact hp => plain_issues (sp := .global) (store := false) hl rfl hb hload hact hp
    · exact fun hact hp => plain_issues (sp := .global) (store := true) hl rfl hb hstore hact hp
    · exact fun hact => ⟨plain_advances (sp := .global) (store := false) hl rfl hb hload hact, plain_advances (sp := .global) (store := true) hl rfl hb hstore hact⟩
    · intro hact
      simp only [List.mem_cons, List.not_mem_nil, or_false, forall_eq_or_imp, forall_eq]
      exact ⟨plain_advances (sp := .own) (store := false) hl rfl hb hload hact, plain_advances (sp := .own) (store := true) hl rfl hb hstore hact,
        plain_advances (sp := .cluster) (store := false) hl rfl hb hload hact, plain_advances (sp := .cluster) (store := true) hl rfl hb hstore hact⟩
    · intro own far
      have hfar {wr : Bool} {k : Nat} (h : far wr k) : PassesChecks s G w.ty.size { r := !wr, w := wr } (loc k) (ea false k) .cluster := by
        simpa [far, PassesChecks, mateOf] using h
      refine ⟨fun hact hp => ?_, fun hact hp => ?_, fun hact hp => ?_, fun hact hp => ?_⟩
      · exact plain_issues (sp := .own) (store := false) hl rfl hb hload hact hp
      · exact plain_issues (sp := .own) (store := true) hl rfl hb hstore hact hp
      · exact plain_issues (sp := .cluster) (store := false) hl rfl hb hload hact fun k hk ha => hfar (hp k hk ha)
      · exact plain_issues (sp := .cluster) (store := true) hl rfl hb hstore hact fun k hk ha => hfar (hp k hk ha)
  · intro act
    refine ⟨fun hb hw hact => ?_, ?_⟩
    · simp only [List.mem_cons, List.not_mem_nil, or_false, forall_eq_or_imp, forall_eq]
      exact ⟨vatom_advances (ret := true) hl rfl hb hboth hw rfl hact, vatom_advances (ret := false) hl rfl hb hstore hw rfl hact,
        vatom_advances (ret := true) hl rfl hb hboth hw rfl hact⟩
    · intro ea x y hb hw hact hp
      exact ⟨vatom_issues (ret := true) hl rfl hb hboth hw rfl hact hp, vatom_issues (ret := false) hl rfl hb hstore hw rfl hact hp,
        vatom_issues (ret := true) hl rfl hb hboth hw rfl hact hp⟩

end Sys2Proof.Proofs
end

section
/-!
PROOFS. Full and empty words (R140, R141).
-/

namespace Sys2Proof.Proofs
open Sys2Proof Sys2Proof.Machine Sys2Proof.Claims

/-! ### Issue (R140) -/

/-- A full/empty access of group `G` passes its checks at address `a` of its block's scratch (R138, R140). -/
def PassesFe (s : State) (G : Machine.Group) (put : Bool) (a : Word) : Prop :=
  a.toNat % 4 = 0 ∧ inArea s G.blk a.toNat 4 = true ∧ lockHit s (s.ctxOf G) G.core (scrLoc G.core a.toNat) 4 put = false

/-- The operation of a full/empty instruction whose lanes `act` have the places `locs`. -/
def feOp (G : Machine.Group) (w : MemL) (kind : MKind) (act : Mask) (ea : Nat → Word) (locs : List (Nat × Nat)) : MemOp :=
  { kind := kind, ty := w.ty, dst := if kind == .fePut then .none else .v w.d.toNat,
    acc := locs.map fun p => { lane := p.1, loc := p.2, ea := ea p.1, x := BitVec.ofNat 64 (G.el w.ty w.d.toNat p.1) },
    todo := act, lo := 0, hi := 0, more := true }

section
variable {i : Instr} {s : State} {g n : Nat} {G : Machine.Group} {S : Split} {w : MemL} {kind : MKind} {put : Bool} {act : Mask}
variable (hl : LaneTurn s g G n S) (hi : exec i s = feStep s w kind) (hb : Below G (tyRegs w.ty w.d ++ modeRegs false w.mode))
include hl hi hb

section
variable (hkind : (kind == .fePut) = put) (hroom : G.roomFor (!put) put false false = true) (hfe : S.fe = none)
  (hact : active G S w.g &&& ~~~G.lanedone = act)
include hkind hroom hfe hact

/-- What a full/empty instruction does once every lane has passed its checks. -/
theorem fe_of_passes (hp : ∀ j, act.getLsbD j = true → PassesFe s G put (laneEA G false 4 w.mode w.off j)) :
    ∃ ea deps c locs, Places locs act (fun j => scrLoc G.core (laneEA G false 4 w.mode w.off j).toNat) ∧
      exec i s = if act = 0 then .next (advanceLane (s.modGrp g fun G => G.clearDone n) g n) else
        let r := issueLane (barAudit s G) g n G S (feOp G w kind act ea locs) (!put) put deps c []
        .next (r.2.modGrp g fun G => { G with splits := mupd G.splits n fun S => { S with fe := some r.1 } }) := by
  obtain ⟨ht, hg, hS⟩ := hl
  have hchk := laneChk_of_passes (kind := 0) (need := { r := !put, w := put }) (loc := fun j => scrLoc G.core (laneEA G false 4 w.mode w.off j).toNat) .own
    fun e (he : e ∈ laneEAs G false 4 w.mode w.off act) => by
      obtain ⟨hal, hin, hfree⟩ := hp e.1 (mem_laneEAs.1 he).1
      rw [(mem_laneEAs.1 he).2]
      exact ⟨hal, hin, hfree, rfl⟩
  rw [feStep, laneIssue_of ht hg hS _ (by simp) hb (by simp)] at hi
  dsimp only at hi
  rw [hfe] at hi
  dsimp only at hi
  rw [hkind, hact, hchk, onChk, hroom, if_neg (by simp)] at hi
  exact ⟨_, _, _, _, places_placed, by rw [feOp, hkind]; exact hi⟩

theorem fe_advances (hzero : act = 0) : LaneBecomes i s g ((G.clearDone n).goto n (S.pc + 1)) := by
  obtain ⟨ea, deps, c, locs, -, hx⟩ := fe_of_passes hl hi hb hkind hroom hfe hact fun j hj => by simp [hzero] at hj
  rw [if_pos hzero] at hx
  exact laneBecomes_clearDone hx hl.2.1 hl.2.2

theorem fe_issues (hne : act ≠ 0) (hp : ∀ j < 256, act.getLsbD j = true → PassesFe s G put (laneEA G false 4 w.mode w.off j)) :
    ∃ t G' S' o m, exec i s = .next t ∧ mget t.groups g = some G' ∧ mget G'.splits n = some S' ∧ S'.pc = S.pc ∧ S'.fe = some s.nextId ∧
      mget t.ops s.nextId = some o ∧ o.body = .mem m ∧ m.kind = kind ∧ m.todo = act ∧ m.more = true ∧ t.mem = s.mem ∧ t.full = s.full ∧
      (∀ a ∈ m.acc, a.loc = scrLoc G.core (laneEA G false 4 w.mode w.off a.lane).toNat) ∧ G'.cld = G.cld + (!put).toNat ∧ G'.cst = G.cst + put.toNat := by
  obtain ⟨ea, deps, c, locs, hplaces, hx⟩ := fe_of_passes hl hi hb hkind hroom hfe hact fun j hj => hp j (BitVec.lt_of_getLsbD hj) hj
  rw [if_neg hne] at hx
  obtain ⟨hfull, hmem, hkey⟩ := barAudit_keeps s G
  have hg : mget (barAudit s G).groups g = some G := by rw [barAudit_groups]; exact hl.2.1
  obtain ⟨H, o, hk, hH, hin, ho, -, -, hbody, -, -, hmem', hfull'⟩ := issueLane_issues (m := feOp G w kind act ea locs)
    (ld := !put) (st := put) (deps := deps) (c := c) (pages := []) hg hl.2.2
  obtain ⟨T, hpc, -, -, hT⟩ := hin.split
  obtain ⟨hacc, -⟩ := acc_of_places hplaces ea (fun j => BitVec.ofNat 64 (G.el w.ty w.d.toNat j)) fun _ => 0
  refine ⟨_, { H with splits := mupd H.splits n fun S => { S with fe := some s.nextId } }, { T with fe := some s.nextId }, o, _, hx, ?_, ?_, hpc, rfl, hkey ▸ ho, hbody, rfl, rfl, rfl, hmem'.trans hmem, hfull'.trans hfull,
    fun a ha => (hacc a ha).2.1, hin.cld, hin.cst⟩
  · rw [State.modGrp_groups, mget_mupd_same, hH, hk, hkey]
    rfl
  · rw [mget_mupd_same, hT, mget_mput_same]
    rfl

end

/-! ### The wait for the words (R140, R141) -/

/-- While a lane waits for its word the split stays at its instruction. -/
theorem fe_stays {k : Nat} (hfe : S.fe = some k) {m : MemOp} (hm : opMem s k = some m) (hmore : m.more = true) : exec i s = .next s := by
  obtain ⟨ht, hg, hS⟩ := hl
  rw [feStep, laneIssue_of ht hg hS _ (by simp) hb (by simp)] at hi
  simpa [hfe, hm, hmore] using hi

/-- Once no lane waits the instruction completes. -/
theorem fe_completes {k : Nat} (hfe : S.fe = some k) (hmore : ∀ m, opMem s k = some m → m.more = false) :
    exec i s = .next (advanceLane (s.modGrp g fun G => G.clearDone n) g n) := by
  obtain ⟨ht, hg, hS⟩ := hl
  have hnone : ((opMem s k).map (·.more)).getD false = false := by
    cases hm : opMem s k with
    | none => rfl
    | some m => exact hmore m hm
  rw [feStep, laneIssue_of ht hg hS _ (by simp) hb (by simp)] at hi
  simpa [hfe, hnone] using hi

end

section
variable {G : Machine.Group} {n : Nat}

theorem getLsbD_noLane (j : Nat) : (0 : Mask).getLsbD j = false := BitVec.getLsbD_zero

/-- What stays of lanedone is within the lanes of other splits whose instruction was interrupted. -/
theorem clearDone_lanedone (G : Machine.Group) (n j : Nat) : (G.clearDone n).lanedone.getLsbD j =
    (G.lanedone.getLsbD j && G.splits.any fun p => p.1 != n && p.2.redo && p.2.mask.getLsbD j) := by
  have hfold (l : SMap Split) (m : Mask) : (l.foldl (fun (m : Mask) p => if p.1 != n && p.2.redo then m ||| p.2.mask else m) m).getLsbD j =
      (m.getLsbD j || l.any fun p => p.1 != n && p.2.redo && p.2.mask.getLsbD j) := by
    induction l generalizing m with
    | nil => simp
    | cons p l ih =>
      rw [List.foldl_cons, ih, List.any_cons]
      cases p.1 != n && p.2.redo <;> simp [Bool.or_assoc]
  rw [Group.clearDone, BitVec.getLsbD_and, hfold, getLsbD_noLane, Bool.false_or]

theorem clearDone_lanedone_eq_zero (h : ∀ p ∈ G.splits, p.1 ≠ n → p.2.redo = false) : (G.clearDone n).lanedone = 0 := by
  refine BitVec.eq_of_getLsbD_eq fun j _ => ?_
  have hnone : (G.splits.any fun p => p.1 != n && p.2.redo && p.2.mask.getLsbD j) = false := by
    simp only [List.any_eq_false, Bool.and_eq_true, bne_iff_ne]
    exact fun p hp ⟨⟨hne, hredo⟩, _⟩ => Bool.noConfusion ((h p hp hne).symm.trans hredo)
  rw [clearDone_lanedone, hnone, Bool.and_false, getLsbD_noLane]

/-- What another split's interrupted instruction has recorded stays. -/
theorem clearDone_lanedone_of_redo {p : Nat × Split} (hp : p ∈ G.splits) (hne : p.1 ≠ n) (hredo : p.2.redo = true) :
    (G.clearDone n).lanedone &&& p.2.mask = G.lanedone &&& p.2.mask := by
  refine BitVec.eq_of_getLsbD_eq fun j _ => ?_
  rw [BitVec.getLsbD_and, BitVec.getLsbD_and, clearDone_lanedone]
  cases hj : p.2.mask.getLsbD j with
  | false => rw [Bool.and_false, Bool.and_false]
  | true =>
    have hany : (G.splits.any fun p => p.1 != n && p.2.redo && p.2.mask.getLsbD j) = true :=
      List.any_eq_true.2 ⟨p, hp, by simp [hne, hredo, hj]⟩
    rw [hany, Bool.and_true]

end

section
variable {i : Instr} {s : State} {g n k : Nat} {G : Machine.Group} {S : Split}

/-- A full/empty instruction that completes: its split advances, and lanedone is clear but for what other splits have recorded (R141). -/
theorem advances_of_clearDone (hg : mget s.groups g = some G) (hS : mget G.splits n = some S)
    (hi : exec i s = .next (advanceLane (s.modGrp g fun G => G.clearDone n) g n)) :
    ∃ t G', exec i s = .next t ∧ mget t.groups g = some G' ∧ t.mem = s.mem ∧ G'.lanedone = (G.clearDone n).lanedone ∧
      (Passes G S (S.pc + 1) → ∃ S', mget G'.splits n = some S' ∧ S'.pc = S.pc + 1 ∧ S'.fe = none) := by
  have hH : mget (s.modGrp g fun G => G.clearDone n).groups g = some (G.clearDone n) := by
    rw [State.modGrp_groups, mget_mupd_same, hg]
    rfl
  have hT := clearDone_split hS
  obtain ⟨⟨K, hK, hKm⟩, hmem, -⟩ := advanceLane_keeps hH hT
  refine ⟨_, K, hi, hK, hmem, ?_, fun hp => ⟨{ S with redo := false, fe := none, pc := S.pc + 1 }, ?_, rfl, rfl⟩⟩
  · obtain ⟨ss, js, la, em, hgoto⟩ := goto_frame (G.clearDone n) n (S.pc + 1)
    rw [hKm, hgoto]
  · rw [hKm, (splitArrives _ n _ _ hT).1 hp]
    exact mget_mput_same _ _ _

end

/-! ### A lane finds its word ready (R140) -/

/-- The mask of one lane, as the model writes it. -/
theorem getLsbD_laneBit {i : Nat} (hi : i < 256) (j : Nat) : ((1 <<< i : Nat) : Mask).getLsbD j = decide (j = i) := by
  change (BitVec.ofNat 256 (1 <<< i)).getLsbD j = _
  rw [BitVec.getLsbD_ofNat, Nat.one_shiftLeft, Nat.testBit_two_pow, Bool.eq_iff_iff, Bool.and_eq_true, decide_eq_true_eq, decide_eq_true_eq, decide_eq_true_eq]
  omega

section
variable {s : State} {k : Nat} {o : Op} {m : MemOp} {a : LaneAcc} {lanes : Mask}

theorem performLanes_lane (hacc : m.acc.filter (fun b => lanes.getLsbD b.lane) = [a]) :
    performLanes s k o m lanes = ((performLane s k o m a).1, [(a.lane, (performLane s k o m a).2.1)], sunion [] (performLane s k o m a).2.2) := by
  rw [performLanes, hacc]
  rfl

/-- Performing one lane changes of memory and of the full words what the lane's access changes. -/
theorem performOp_lane (hacc : m.acc.filter (fun b => lanes.getLsbD b.lane) = [a]) (hpoison : s.poison = [])
    (hp : (performLane s k o m a).1.poison = []) : Quiet (performLane s k o m a).1 (performOp s k o m lanes) := by
  have hbad : (if m.kind = .store || m.kind = .fePut then [] else poisonedLanes s m lanes) = [] := by
    rw [poisonedLanes_of_nil hpoison, ite_self]
  have hgood : (lanes &&& ~~~(maskOf fun j => ([] : List LaneAcc).any (·.lane == j))) = lanes := by
    have hall : ~~~(0 : Mask) = BitVec.allOnes 256 := BitVec.not_zero
    simp only [List.any_nil, maskOf_false, hall, BitVec.and_allOnes]
  rw [performOp]
  dsimp only
  rw [hbad, hgood, performLanes_lane hacc]
  dsimp only
  rw [unpoison_of_nil (by exact hp), consumeAt]
  exact (modOp_quiet _ _ _).trans (settleMem_quiet _ _)

end

/-- The word at a place is ready for a full/empty access: full, or for a `vstsf` empty. -/
abbrev feReady (s : State) (m : MemOp) (a : LaneAcc) : Bool := s.full.contains (a.loc / 4) != (m.kind == .fePut)

section
variable {s : State} {g n k : Nat} {G : Machine.Group} {S : Split} {o : Op} {m : MemOp} {lane : BitVec 8} {a : LaneAcc}
variable (hg : mget s.groups g = some G) (hS : mget G.splits n = some S) (hfe : S.fe = some k) (ho : mget s.ops k = some o) (hm : o.body = .mem m)
  (hf : FollowsNothing s o) (hacc : m.acc.filter (fun b => b.lane = lane.toNat) = [a]) (htodo : m.todo.getLsbD lane.toNat = true)
include hg hS hfe ho hm hf hacc htodo

/-- A lane that waits for its word is performed when the word is ready. -/
theorem execFullEmptyWaitDone_eq : exec (.fullEmptyWaitDone g n lane) s =
    if feReady s m a then .next (performOp s k o m (1 <<< lane.toNat : Nat)) else .next s := by
  have hany : (m.acc.any fun b => b.lane == lane.toNat && feReady s m b) = feReady s m a := by
    rw [← List.any_filter, show m.acc.filter (fun b => b.lane == lane.toNat) = [a] from hacc, List.any_cons, List.any_nil, Bool.or_false]
  change execFullEmptyWaitDone g n lane s = _
  rw [execFullEmptyWaitDone, hg, Option.bind_some, hS, Option.bind_some, hfe]
  dsimp only
  rw [ho, opMem_of_mget ho hm]
  dsimp only
  rw [htodo, hany, depsGone_of_follows hf, relGone_of_follows hf]
  cases feReady s m a <;> rfl

theorem fe_waits (hready : feReady s m a = false) : exec (.fullEmptyWaitDone g n lane) s = .next s := by
  rw [execFullEmptyWaitDone_eq hg hS hfe ho hm hf hacc htodo, hready]
  rfl

/-- A lane whose word is ready makes its access. -/
theorem fe_finishes (hpoison : s.poison = []) (hready : feReady s m a = true) (hp : (performLane s k o m a).1.poison = []) :
    ∃ t, exec (.fullEmptyWaitDone g n lane) s = .next t ∧ Quiet (performLane s k o m a).1 t := by
  have hlane : (m.acc.filter fun b => ((1 <<< lane.toNat : Nat) : Mask).getLsbD b.lane) = [a] := by
    simpa only [getLsbD_laneBit lane.isLt] using hacc
  rw [execFullEmptyWaitDone_eq hg hS hfe ho hm hf hacc htodo, hready]
  exact ⟨_, rfl, performOp_lane hlane hpoison hp⟩

end

/-- Settles O17: the checks give every lane its place at issue; the split stays while lanes wait; and a lane whose word is ready makes its one access. -/
theorem fullEmptyWords : Obligations.FullEmptyWords := by
  refine ⟨fun s g G n S w hl hc hld hst hfe hb => ?_, fun s g G n S w k hl hb hfe => ?_, ?_⟩
  · have hload : G.roomFor true false false false = true := (roomFor_iff hc).2 ⟨hld, hc.2.1⟩
    have hstore : G.roomFor false true false false = true := (roomFor_iff hc).2 ⟨hc.1, hst⟩
    refine ⟨fun hp hne => fe_issues hl rfl hb rfl hload hfe rfl hne hp, fun hp hne => fe_issues hl rfl hb rfl hload hfe rfl hne hp,
      fun hp hne => fe_issues hl rfl hb rfl hstore hfe rfl hne hp, fun hzero => ?_⟩
    simp only [List.mem_cons, List.not_mem_nil, or_false, forall_eq_or_imp, forall_eq]
    exact ⟨fe_advances hl rfl hb rfl hload hfe rfl hzero, fe_advances hl rfl hb rfl hload hfe rfl hzero, fe_advances hl rfl hb rfl hstore hfe rfl hzero⟩
  · have hstays {i : Instr} {kind : MKind} (hi : exec i s = feStep s w kind) :
        ((∃ m, opMem s k = some m ∧ m.more = true) → exec i s = .next s) ∧
        ((∀ m, opMem s k = some m → m.more = false) → ∃ t G', exec i s = .next t ∧ mget t.groups g = some G' ∧ t.mem = s.mem ∧
          ((∀ p ∈ G.splits, p.1 ≠ n → p.2.redo = false) → G'.lanedone = 0) ∧
          (∀ p ∈ G.splits, p.1 ≠ n → p.2.redo = true → G'.lanedone &&& p.2.mask = G.lanedone &&& p.2.mask) ∧
          (Passes G S (S.pc + 1) → ∃ S', mget G'.splits n = some S' ∧ S'.pc = S.pc + 1 ∧ S'.fe = none)) := by
      refine ⟨fun ⟨m, hm, hmore⟩ => fe_stays hl hi hb hfe hm hmore, fun hmore => ?_⟩
      obtain ⟨t, G', ht, hG', hmem, hdone, hpass⟩ := advances_of_clearDone hl.2.1 hl.2.2 (fe_completes hl hi hb hfe hmore)
      refine ⟨t, G', ht, hG', hmem, fun h => ?_, fun p hp hne hredo => ?_, hpass⟩
      · rw [hdone, clearDone_lanedone_eq_zero h]
      · rw [hdone, clearDone_lanedone_of_redo hp hne hredo]
    exact ⟨hstays rfl, hstays rfl, hstays rfl⟩
  · intro s g G n S k o m lane a hg hS hfe ho hm hf hpoison hacc htodo _
    have hfinish := fe_finishes hg hS hfe ho hm hf hacc htodo hpoison
    have hwait := fe_waits hg hS hfe ho hm hf hacc htodo
    refine ⟨fun hkind hfull => ?_, fun hkind hfull => ?_, fun hkind hempty => ?_, fun hkind hempty => hwait ?_, fun hkind hfull => hwait ?_⟩
    · have hlane : (performLane s k o m a).1 = dropTag { s with full := s.full.filter (· != a.loc / 4) } (a.loc / 4) := by
        rw [performLane, hkind]
      have hquiet := dropTag_quiet { s with full := s.full.filter (· != a.loc / 4) } (a.loc / 4)
      obtain ⟨t, ht, hq⟩ := hfinish (by simp [feReady, hkind, hfull]) (by rw [hlane, hquiet.eq]; exact hpoison)
      rw [hlane] at hq
      refine ⟨t, ht, hq.mem.trans hquiet.mem, ?_⟩
      rw [hq.full, hquiet.full]
      simp
    · have hlane : (performLane s k o m a).1 = s := by rw [performLane, hkind]
      obtain ⟨t, ht, hq⟩ := hfinish (by simp [feReady, hkind, hfull]) (by rw [hlane]; exact hpoison)
      rw [hlane] at hq
      exact ⟨t, ht, hq.mem, hq.full⟩
    · obtain ⟨u, hu, hlane⟩ : ∃ u, u = s.write (some o.ctx) a.loc 4 a.x.toNat (o.stamp s k) ∧
          (performLane s k o m a).1 = { u with full := insNat u.full (a.loc / 4) } := ⟨_, rfl, by rw [performLane, hkind]⟩
      obtain ⟨t, ht, hq⟩ := hfinish (by simp [feReady, hkind, hempty]) (by rw [hlane, hu]; exact hpoison)
      rw [hlane] at hq
      refine ⟨t, ht, hq.mem.trans (hu ▸ rfl), ?_⟩
      rw [hq.full]
      exact mem_insNat.2 (.inl rfl)
    · simp [feReady, hkind, hempty]
    · simp [feReady, hkind, hfull]

end Sys2Proof.Proofs
end

section
/-!
PROOFS. The engine instructions at issue (R146, R147, R150): what they share.
-/

namespace Sys2Proof.Proofs
open Sys2Proof Sys2Proof.Machine Sys2Proof.Claims

/-! ### The group and the state an engine instruction reads -/

/-- Of the group, the end of a wait changes the order of its accesses and its wait (R39, R242). -/
theorem unblock_frame (G : Machine.Group) (x : Handle) : ∃ o w, G.unblock x = { G with ord := o, wait := w } := by
  unfold Group.unblock Group.observe
  split
  · split <;> exact ⟨_, _, rfl⟩
  · exact ⟨_, _, rfl⟩

theorem unblock_rs (G : Machine.Group) (x : Handle) (r : SReg) : (G.unblock x).rs r = G.rs r := by
  obtain ⟨o, w, hH⟩ := unblock_frame G x
  rw [hH]
  rfl

/-- Two states differ in their groups and audits only. -/
def SameEngine (s u : State) : Prop := ∃ gs as, u = { s with groups := gs, audits := as }

section
variable {s u : State}

theorem SameEngine.barAudit (h : SameEngine s u) (G : Machine.Group) : SameEngine s (barAudit u G) := by
  obtain ⟨gs, as, rfl⟩ := h
  unfold Machine.barAudit
  split <;> exact ⟨_, _, rfl⟩

theorem awake_sameEngine (s : State) (g : Nat) (G : Machine.Group) (x : Handle) : SameEngine s (Awake s g G x) := by
  unfold Awake
  split <;> exact ⟨_, _, rfl⟩

theorem SameEngine.engineBlocked (h : SameEngine s u) (o : Op) (c : CopyOp) : engineBlocked u o c = Machine.engineBlocked s o c := by
  obtain ⟨gs, as, rfl⟩ := h
  rfl

theorem SameEngine.inArea (h : SameEngine s u) (b off n : Nat) : inArea u b off n = Machine.inArea s b off n := by
  obtain ⟨gs, as, rfl⟩ := h
  rfl

theorem SameEngine.ctxOf (h : SameEngine s u) (G : Machine.Group) : u.ctxOf G = s.ctxOf G := by
  obtain ⟨gs, as, rfl⟩ := h
  rfl

theorem SameEngine.window? (h : SameEngine s u) (ctx w : Nat) : window? u ctx w = Machine.window? s ctx w := by
  obtain ⟨gs, as, rfl⟩ := h
  rfl

theorem SameEngine.notDevice (h : SameEngine s u) (ctx core va n : Nat) : notDevice u ctx core va n = Machine.notDevice s ctx core va n := by
  obtain ⟨gs, as, rfl⟩ := h
  rfl

end

theorem awake_group {s : State} {g : Nat} {G : Machine.Group} (hg : mget s.groups g = some G) (x : Handle) :
    mget (Awake s g G x).groups g = some (G.unblock x) := by
  unfold Awake
  split
  · exact mget_mput_same _ _ _
  · next h => rw [Group.unblock, if_neg h, hg]

/-! ### An engine instruction whose handle is settled, with a channel and room in its counter -/

/-- The operation of an engine command. -/
def engineOp (s : State) (g : Nat) (H : Machine.Group) (c : CopyOp) : Op :=
  { newOp s g H .scalar { before := H.ord.earlier } (unitDeps s H.ord) (.copy c) with unit := none }

/-- The group after the issue of engine operation `k`. -/
def startedGroup (H : Machine.Group) (h : HReg) (k : Nat) : Machine.Group :=
  ((H.wh h.toNat { st := .pending, op := some k }).rise false false true false).adv 1

/-- The state in which an engine command of channel `ch` has just started. -/
def engineStarted (s : State) (g : Nat) (H : Machine.Group) (h : HReg) (ch : Nat) (c : CopyOp) : State :=
  State.modGrp
    { s with nextId := s.nextId + 1, ops := mput s.ops s.nextId (engineOp s g H c), chans := mput s.chans (chanKey (s.ctxOf H) H.core ch) c.dst } g
    fun G => startedGroup G h s.nextId

/-- The state in which an engine command has ended at once. -/
def endedAtOnce (s : State) (g : Nat) (h : HReg) (st : HState) : State := s.modGrp g fun G => (G.wh h.toNat { st := st }).adv 1

/-- What an engine command does, by what its descriptor says: `u` is the state as it found it, and `s` that state with an audit's bar raised. -/
def engineGoes (u s : State) (g : Nat) (H : Machine.Group) (h : HReg) (ch : Nat) : Option CopyOp → Out
  | none => .next (endedAtOnce s g h (.failed 1))
  | some c =>
    if c.len = 0 then .next (endedAtOnce s g h .done)
    else if engineBlocked s (engineOp s g H c) c then .next u
    else .next (sendCmds (engineStarted s g H h ch c) s.nextId)

/-- The state as an engine command reads its descriptor: for a `cpyst` an audit's bar is raised. -/
abbrev engineReads (bar : Bool) (u : State) (H : Machine.Group) : State := if bar then barAudit u H else u

section
variable {i : Instr} {s : State} {g : Nat} {G : Machine.Group} {h : HReg} {b : SReg} {bar : Bool} {mk : State → Machine.Group → Nat → Option CopyOp}

/-- An engine instruction whose handle is settled. -/
theorem engineStep_of_settled (hs : Scalar s g G) (hi : exec i s = engineStep s h b bar mk) (hx : (G.rh h.toNat).st ≠ .pending) (hd : NoDrain G) :
    let u := Awake s g G (G.rh h.toNat)
    let H := G.unblock (G.rh h.toNat)
    exec i s = if 8 ≤ (G.rs b).toNat then .next (trapS u g 0x01) else if G.roomFor false false true false = false then .next u else
      engineGoes u (engineReads bar u H) g H h (G.rs b).toNat (mk (engineReads bar u H) H (G.rs b).toNat) := by
  intro u H
  obtain ⟨o, w, hH⟩ := unblock_frame G (G.rh h.toNat)
  have hroom : (G.unblock (G.rh h.toNat)).roomFor false false true false = G.roomFor false false true false := by rw [hH]; rfl
  have hd' : NoDrain (G.unblock (G.rh h.toNat)) := by rw [NoDrain, unblock_memb]; exact hd
  rw [engineStep, whenHandle_of_settled hs hx] at hi
  dsimp only at hi
  rw [unblock_rs, hroom, takeUnits_of_noDrain hd'] at hi
  refine hi.trans (if_congr Iff.rfl rfl (if_congr (by simp) rfl ?_))
  dsimp only
  split <;> next hmk => exact congrArg (engineGoes u (engineReads bar u H) g H h (G.rs b).toNat) hmk.symm

end

/-! ### An engine command, by its descriptor -/

/-- What an engine instruction does, where the descriptor of a `legal` one gives the command `c`, and `starts` says what its start is. -/
def EngineCommand (i : Instr) (s : State) (g : Nat) (G : Machine.Group) (h : HReg) (ch : Nat) (legal : Prop) (c : CopyOp) (starts : Prop) : Prop :=
  let x := G.rh h.toNat
  let u := Awake s g G x
  (x.st = .pending → Becomes i s g { G with wait := .onHandle }) ∧
  (x.st ≠ .pending → 8 ≤ ch → exec i s = .next (trapS u g 0x01)) ∧
  (x.st ≠ .pending → ch < 8 → G.ccp = 63 → exec i s = .next u) ∧
  (x.st ≠ .pending → ch < 8 → G.ccp < 63 →
    (¬ legal → EndsAtOnce i s g (G.unblock x) h (.failed 1)) ∧
    (legal → c.len = 0 → EndsAtOnce i s g (G.unblock x) h .done) ∧
    (legal → c.len ≠ 0 → EngineFree s G c → starts) ∧
    (legal → c.len ≠ 0 → (∀ o : Op, o.core = G.core → o.ctx = s.ctxOf G → engineBlocked s o c = true) → exec i s = .next u))

theorem engineReads_sameEngine (bar : Bool) (s : State) (g : Nat) (G : Machine.Group) (x : Handle) :
    SameEngine s (engineReads bar (Awake s g G x) (G.unblock x)) := by
  cases bar
  · exact awake_sameEngine s g G x
  · exact (awake_sameEngine s g G x).barAudit _

theorem engineReads_group {s : State} {g : Nat} {G : Machine.Group} (hg : mget s.groups g = some G) (bar : Bool) (x : Handle) :
    mget (engineReads bar (Awake s g G x) (G.unblock x)).groups g = some (G.unblock x) := by
  cases bar
  · exact awake_group hg x
  · rw [engineReads, if_pos rfl, barAudit_groups]
    exact awake_group hg x

section
variable {i : Instr} {s v : State} {g : Nat} {G H : Machine.Group} {h : HReg}

/-- A command that ends at once sets its handle, and nothing more. -/
theorem endsAtOnce_of (hv : SameEngine s v) (hH : mget v.groups g = some H) {st : HState} (hi : exec i s = .next (endedAtOnce v g h st)) :
    EndsAtOnce i s g H h st := by
  obtain ⟨gs, as, rfl⟩ := hv
  refine ⟨_, hi, ?_, rfl, rfl⟩
  rw [endedAtOnce, State.modGrp_groups, mget_mupd_same, hH]
  rfl

theorem ctxOf_unblock (hv : SameEngine s v) (G : Machine.Group) (x : Handle) : v.ctxOf (G.unblock x) = s.ctxOf G := by
  obtain ⟨o, w, hH⟩ := unblock_frame G x
  rw [hv.ctxOf, hH]
  rfl

/-- The group of a command that has started has its handle PENDING, cp risen and the pc past the word. -/
theorem startedGroup_unblock (G : Machine.Group) (h : HReg) (x : Handle) (k : Nat) :
    (startedGroup (G.unblock x) h k).rh h.toNat = { st := .pending, op := some k } ∧ (startedGroup (G.unblock x) h k).ccp = G.ccp + 1 ∧
      (startedGroup (G.unblock x) h k).pc = G.pc + 1 ∧ (startedGroup (G.unblock x) h k).sreg = G.sreg ∧ (startedGroup (G.unblock x) h k).vreg = G.vreg := by
  obtain ⟨o, w, hH⟩ := unblock_frame G x
  have hrh : ((G.unblock x).wh h.toNat { st := .pending, op := some k }).rh h.toNat = { st := .pending, op := some k } := by
    rw [Group.rh_wh, if_pos rfl]
  refine ⟨hrh, ?_⟩
  rw [hH]
  exact ⟨rfl, rfl, rfl, rfl⟩

theorem engineStarted_group (hH : mget v.groups g = some H) (ch : Nat) (c : CopyOp) :
    mget (engineStarted v g H h ch c).groups g = some (startedGroup H h v.nextId) := by
  rw [engineStarted, State.modGrp_groups, mget_mupd_same]
  exact congrArg (Option.map _) hH

theorem engineStarted_op (v : State) (g : Nat) (H : Machine.Group) (h : HReg) (ch : Nat) (c : CopyOp) :
    mget (engineStarted v g H h ch c).ops v.nextId = some (engineOp v g H c) := mget_mput_same _ _ _

end

section
variable {i : Instr} {s : State} {g : Nat} {G : Machine.Group} {h : HReg} {b : SReg} {bar : Bool} {mk : State → Machine.Group → Nat → Option CopyOp}
  {legal starts : Prop} {c : CopyOp}

/-- An engine instruction is as `EngineCommand` says, once its descriptor is read as it says and what its start leaves is as it says. -/
theorem engineCommand_of (hs : Scalar s g G) (hc : CountersOk G) (hd : NoDrain G) (hi : exec i s = engineStep s h b bar mk)
    (hmk : ∀ v, SameEngine s v → ∃ ok : Bool, (ok = true ↔ legal) ∧
      mk v (G.unblock (G.rh h.toNat)) (G.rs b).toNat = if ok then some c else none)
    (hstarts : legal → ∀ v, SameEngine s v → mget v.groups g = some (G.unblock (G.rh h.toNat)) →
      exec i s = .next (sendCmds (engineStarted v g (G.unblock (G.rh h.toNat)) h (G.rs b).toNat c) v.nextId) → starts) :
    EngineCommand i s g G h (G.rs b).toNat legal c starts := by
  obtain ⟨hcld, hcst, hccp, hctl⟩ := hc
  refine ⟨fun hx => ?_, fun hx hch => ?_, fun hx hch hfull => ?_, fun hx hch hroom => ?_⟩
  · rw [engineStep, whenHandle_of_pending hs hx] at hi
    exact hi
  · exact (engineStep_of_settled hs hi hx hd).trans (if_pos hch)
  · refine (engineStep_of_settled hs hi hx hd).trans ((if_neg (by omega)).trans (if_pos ?_))
    simp [Group.roomFor, hfull]
  · have hgoes := (engineStep_of_settled hs hi hx hd).trans ((if_neg (by omega)).trans (if_neg (by
      simp only [Group.roomFor, Bool.toNat_false, Bool.toNat_true, decide_eq_false_iff_not, not_not]; omega)))
    have hsame := engineReads_sameEngine bar s g G (G.rh h.toNat)
    have hH := engineReads_group hs.2 bar (G.rh h.toNat)
    generalize engineReads bar (Awake s g G (G.rh h.toNat)) (G.unblock (G.rh h.toNat)) = v at hgoes hsame hH
    have hcore : (engineOp v g (G.unblock (G.rh h.toNat)) c).core = G.core := (unblock_blk_core G _).2
    have hctx : (engineOp v g (G.unblock (G.rh h.toNat)) c).ctx = s.ctxOf G := ctxOf_unblock hsame G _
    obtain ⟨ok, hok, hread⟩ := hmk v hsame
    have hlegal (hyes : legal) : mk v (G.unblock (G.rh h.toNat)) (G.rs b).toNat = some c := hread.trans (if_pos (hok.2 hyes))
    have hillegal (hno : ¬ legal) : mk v (G.unblock (G.rh h.toNat)) (G.rs b).toNat = none := hread.trans (if_neg (mt hok.1 hno))
    refine ⟨fun hno => ?_, fun hyes hlen => ?_, fun hyes hlen hfree => ?_, fun hyes hlen hblocked => ?_⟩
    · rw [hillegal hno] at hgoes
      exact endsAtOnce_of hsame hH hgoes
    · rw [hlegal hyes] at hgoes
      exact endsAtOnce_of hsame hH (hgoes.trans (if_pos hlen))
    · rw [hlegal hyes] at hgoes
      refine hstarts hyes v hsame hH (hgoes.trans ((if_neg hlen).trans (if_neg ?_)))
      rw [hsame.engineBlocked, hfree _ hcore hctx]
      exact Bool.false_ne_true
    · rw [hlegal hyes] at hgoes
      refine hgoes.trans ((if_neg hlen).trans (if_pos ?_))
      rw [hsame.engineBlocked, hblocked _ hcore hctx]

end

/-! ### Copies and gathers start (R146, R147) -/

theorem sendCmds_of_sent {s : State} {k : Nat} {o : Op} {c : CopyOp} (ho : mget s.ops k = some o) (hc : o.body = .copy c) (hsent : cmdsOf c ≤ c.sent) :
    sendCmds s k = s := by
  rw [sendCmds, sendSome, ho]
  dsimp only
  rw [hc]
  simp [hsent]

/-- An operation that sends no commands starts as `EngineStarts` says. -/
theorem engineStarts_of {i : Instr} {s v : State} {g : Nat} {G : Machine.Group} {h : HReg} {c : CopyOp} {ch : Nat} (hv : SameEngine s v)
    (hH : mget v.groups g = some (G.unblock (G.rh h.toNat))) (hk : c.kind ≠ .storage)
    (hi : exec i s = .next (sendCmds (engineStarted v g (G.unblock (G.rh h.toNat)) h ch c) v.nextId)) : EngineStarts i s g G h c := by
  have hop := engineStarted_op v g (G.unblock (G.rh h.toNat)) h ch c
  rw [sendCmds_of_sent hop rfl (by simp [cmdsOf, hk])] at hi
  obtain ⟨hrh, hrest⟩ := startedGroup_unblock G h (G.rh h.toNat) v.nextId
  have hgrp := engineStarted_group (h := h) hH ch c
  obtain ⟨gs, as, rfl⟩ := hv
  exact ⟨_, _, _, hi, hgrp, hop, rfl, rfl, rfl, hrh, hrest⟩

end Sys2Proof.Proofs
end

section
/-!
PROOFS. The descriptors of the engine instructions, the NVMe Reads of a cpyst, and the reads of write pointers (R146, R149, R362).
-/

namespace Sys2Proof.Proofs
open Sys2Proof Sys2Proof.Machine Sys2Proof.Claims

/-! ### A storage window's submission queue (R362) -/

theorem window?_eq_some {s : State} {ctx w : Nat} {W : Window} :
    window? s ctx w = some W ↔ ∃ C, mget s.ctxs ctx = some C ∧ mget C.windows w = some W ∧ W.valid = true := by
  simp only [window?, Option.filter_eq_some_iff, Option.bind_eq_some_iff]
  tauto

/-- Writing a submission entry changes the 64 bytes of the entry only; groups, operations and contexts stay. -/
theorem freeEntry_frame (s : State) (pa : Nat) :
    (freeEntry s pa 64).groups = s.groups ∧ (freeEntry s pa 64).ops = s.ops ∧ (freeEntry s pa 64).ctxs = s.ctxs ∧
      ∀ a, a < pa ∨ pa + 64 ≤ a → memRead (freeEntry s pa 64).mem a = memRead s.mem a := by
  refine List.foldlRecOn (motive := fun t : State => t.groups = s.groups ∧ t.ops = s.ops ∧ t.ctxs = s.ctxs ∧
    ∀ a, a < pa ∨ pa + 64 ≤ a → memRead t.mem a = memRead s.mem a) _ _ ⟨rfl, rfl, rfl, fun _ _ => rfl⟩ ?_
  intro t ⟨hgroups, hops, hctxs, hmem⟩ i hi
  have hcoh := girthReaches_coh t (pa + 8 * i)
  have hlt : i < 8 := List.mem_range.1 hi
  refine ⟨hcoh.groups.trans hgroups, hcoh.ops.trans hops, (show (girthReaches t (pa + 8 * i)).ctxs = t.ctxs by rw [hcoh]).trans hctxs, fun a ha => ?_⟩
  rw [girthWrite, State.write_mem, memRead_writeLE_outside _ _ _ _ _ (by omega), hcoh.mem, hmem a ha]

/-- The window after one command has been put at its tail. -/
def tailed (W : Window) : Window := { W with tail := (W.tail + 1) % W.qdepth, rung := (W.tail + 1) % W.qdepth }

/-- The state after one command of operation `k` has been sent through window `W`. -/
def sentOne (s : State) (k : Nat) (o : Op) (c : CopyOp) (W : Window) : State :=
  setCopy ((freeEntry s (W.sq + 64 * W.tail) 64).modCtx o.ctx fun x =>
    { x with windows := mupd x.windows c.window fun V => { V with tail := (W.tail + 1) % W.qdepth, rung := (W.tail + 1) % W.qdepth } }) k { c with sent := c.sent + 1 }

section
variable {s : State} {k : Nat} {o : Op} {c : CopyOp} {W : Window}

theorem sentOne_window (hW : window? s o.ctx c.window = some W) : window? (sentOne s k o c W) o.ctx c.window = some (tailed W) := by
  obtain ⟨C, hC, hw, hv⟩ := window?_eq_some.1 hW
  obtain ⟨-, -, hctxs, -⟩ := freeEntry_frame s (W.sq + 64 * W.tail)
  have hC' : mget (sentOne s k o c W).ctxs o.ctx =
      some { C with windows := mupd C.windows c.window fun V => { V with tail := (W.tail + 1) % W.qdepth, rung := (W.tail + 1) % W.qdepth } } := by
    refine (mget_mupd_same _ _ _).trans ?_
    rw [hctxs, hC]
    rfl
  exact window?_eq_some.2 ⟨_, hC', (mget_mupd_same _ _ _).trans (congrArg (Option.map _) hw), hv⟩

theorem sentOne_op (ho : mget s.ops k = some o) : mget (sentOne s k o c W).ops k = some { o with body := .copy { c with sent := c.sent + 1 } } := by
  obtain ⟨-, hops, -, -⟩ := freeEntry_frame s (W.sq + 64 * W.tail)
  refine (mget_mupd_same _ _ _).trans ?_
  rw [State.modCtx, hops, ho]
  rfl

theorem sentOne_frame (s : State) (k : Nat) (o : Op) (c : CopyOp) (W : Window) : (sentOne s k o c W).groups = s.groups ∧
    ∀ a, a < W.sq + 64 * W.tail ∨ W.sq + 64 * W.tail + 64 ≤ a → memRead (sentOne s k o c W).mem a = memRead s.mem a := by
  obtain ⟨hgroups, -, -, hmem⟩ := freeEntry_frame s (W.sq + 64 * W.tail)
  exact ⟨hgroups, hmem⟩

/-- One turn of the loop: an operation that may send, and for which the queue has room, sends a command. -/
theorem sendSome_succ (ho : mget s.ops k = some o) (hc : o.body = .copy c) (hcan : c.cancel = false) (hfail : c.fail = none)
    (hW : window? s o.ctx c.window = some W) (f : Nat) : sendSome (f + 1) s k =
      if cmdsOf c ≤ c.sent ∨ W.qdepth ≤ windowBusy s o.ctx c.window + 1 then s else sendSome f (sentOne s k o c W) k := by
  have hstop : (decide (cmdsOf c ≤ c.sent) || c.cancel || c.fail.isSome) = decide (cmdsOf c ≤ c.sent) := by simp [hcan, hfail]
  rw [sendSome, ho]
  dsimp only
  rw [hc]
  dsimp only
  rw [hstop, hW]
  simp only [decide_eq_true_eq]
  by_cases hsent : cmdsOf c ≤ c.sent
  · rw [if_pos hsent, if_pos (.inl hsent)]
  · rw [if_neg hsent]
    exact if_congr (by simp [hsent]) rfl rfl

end

/-- Every byte outside the submission queue of a window, and outside the entry at its tail, is the same in two states. -/
def SameOutsideQueue (s t : State) (W : Window) : Prop :=
  ∀ a, a < W.sq ∨ W.sq + 64 * max W.qdepth (W.tail + 1) ≤ a → memRead t.mem a = memRead s.mem a

/-- Commands are sent until all are, or the queue is full; entries of the queue alone are written. -/
theorem sendSome_sends (f : Nat) {s : State} {k : Nat} {o : Op} {c : CopyOp} {W : Window} (ho : mget s.ops k = some o) (hc : o.body = .copy c)
    (hcan : c.cancel = false) (hfail : c.fail = none) (hW : window? s o.ctx c.window = some W) (hle : c.sent ≤ cmdsOf c) (hf : cmdsOf c ≤ f + c.sent) :
    ∃ n ≤ cmdsOf c, mget (sendSome f s k).ops k = some { o with body := .copy { c with sent := n } } ∧
      (n < cmdsOf c → W.qdepth ≤ windowBusy (sendSome f s k) o.ctx c.window + 1) ∧ (sendSome f s k).groups = s.groups ∧
      SameOutsideQueue s (sendSome f s k) W := by
  have hself : o = { o with body := .copy { c with sent := c.sent } } := by rw [← hc]
  induction f generalizing s o c W with
  | zero => exact ⟨c.sent, hle, hself ▸ ho, fun hlt => by omega, rfl, fun _ _ => rfl⟩
  | succ f ih =>
    rw [sendSome_succ ho hc hcan hfail hW]
    split
    · next hstop => exact ⟨c.sent, hle, hself ▸ ho, fun hlt => hstop.resolve_left (by omega), rfl, fun _ _ => rfl⟩
    · next hgo =>
      obtain ⟨hmore, hroom⟩ := not_or.1 hgo
      obtain ⟨hgroups, hmem⟩ := sentOne_frame s k o c W
      have hcmds : cmdsOf { c with sent := c.sent + 1 } = cmdsOf c := rfl
      obtain ⟨n, hn, hop, hfull, hgrp, hout⟩ := ih (s := sentOne s k o c W) (o := { o with body := .copy { c with sent := c.sent + 1 } })
        (c := { c with sent := c.sent + 1 }) (sentOne_op ho) rfl hcan hfail (sentOne_window hW) (by dsimp only; omega) (by dsimp only; omega) rfl
      refine ⟨n, hn, hop, hfull, hgrp.trans hgroups, fun a ha => (hout a ?_).trans (hmem a (by omega))⟩
      have htail : (W.tail + 1) % W.qdepth < W.qdepth := Nat.mod_lt _ (by omega)
      dsimp only [tailed]
      omega

theorem sendCmds_sends {s : State} {k : Nat} {o : Op} {c : CopyOp} {W : Window} (ho : mget s.ops k = some o) (hc : o.body = .copy c)
    (hcan : c.cancel = false) (hfail : c.fail = none) (hW : window? s o.ctx c.window = some W) (hsent : c.sent = 0) (hmost : cmdsOf c ≤ 4096) :
    ∃ n ≤ cmdsOf c, mget (sendCmds s k).ops k = some { o with body := .copy { c with sent := n } } ∧
      (n < cmdsOf c → W.qdepth ≤ windowBusy (sendCmds s k) o.ctx c.window + 1) ∧ (sendCmds s k).groups = s.groups ∧
      SameOutsideQueue s (sendCmds s k) W := by
  rw [sendCmds]
  exact sendSome_sends 4096 ho hc hcan hfail hW (by omega) (by omega)

/-! ### Descriptors (R146) -/

section
variable {s v : State} {G : Machine.Group}

theorem scrOk_iff (hv : SameEngine s v) (x : Handle) {off n : Nat} : scrOk v (G.unblock x) off n = true ↔ n = 0 ∨ inArea s G.blk off n = true := by
  rw [scrOk, hv.inArea, (unblock_blk_core G x).1, Bool.or_eq_true, beq_iff_eq]

/-- Every byte of the destination that has a place lies in device memory. -/
theorem notDevice_eq_false {ctx core va n : Nat} : notDevice s ctx core va n = false ↔ ∀ p ∈ pagesOf va n, max va (4096 * p) < 2 ^ 48 →
    ∀ pa, translate s ctx core none (max va (4096 * p)) { r := false, w := true } = .ok pa → pa / 2 ^ 50 % 4 = 0 := by
  rw [notDevice, List.any_eq_false]
  refine forall₂_congr fun p _ => ?_
  dsimp only
  by_cases hhigh : 2 ^ 48 ≤ max va (4096 * p)
  · rw [if_pos hhigh]
    exact ⟨fun _ hlow => absurd hlow (Nat.not_lt.2 hhigh), fun _ => nofun⟩
  · rw [if_neg hhigh, forall_prop_of_true (Nat.not_le.1 hhigh)]
    cases translate s ctx core none (max va (4096 * p)) { r := false, w := true } with
    | ok pa => simp [paClass]
    | _ => simp

end

section
variable {s : State} {g : Nat} {G : Machine.Group} (h : HReg) (a b : SReg) (hs : Scalar s g G) (hc : CountersOk G) (hd : NoDrain G)
include hs hc hd

theorem cpy_command (sub : BitVec 2) :
    let r (i : Nat) : Nat := (G.rs (a + BitVec.ofNat 7 i)).toNat
    let own (off n : Nat) : Prop := n = 0 ∨ inArea s G.blk off n = true
    let ds := sub = 0 ∨ sub = 2
    let ss := sub = 1 ∨ sub = 2
    let c : CopyOp :=
      { kind := .cpy, chan := (G.rs b).toNat, dst := r 0, dstScr := decide ds, src := if ss then scrLoc G.core (r 1) else r 1, srcScr := decide ss, len := r 2 }
    EngineCommand (.cpy h a b sub) s g G h (G.rs b).toNat (r 2 < 2 ^ 32 ∧ (ds → own (r 0) (r 2)) ∧ (ss → own (r 1) (r 2))) c
      (EngineStarts (.cpy h a b sub) s g G h c) := by
  intro r own ds ss c
  have hds : (sub == 0 || sub == 2) = decide ds := (Bool.decide_or _ _).symm
  have hss : (sub == 1 || sub == 2) = decide ss := (Bool.decide_or _ _).symm
  have hi : exec (.cpy h a b sub) s = execCpy h a b sub s := rfl
  rw [execCpy] at hi
  refine engineCommand_of hs hc hd hi (fun v hv => ⟨decide (r 2 < 2 ^ 32) && (!decide ds || scrOk v (G.unblock (G.rh h.toNat)) (r 0) (r 2)) &&
    (!decide ss || scrOk v (G.unblock (G.rh h.toNat)) (r 1) (r 2)), ?_, ?_⟩) fun _ v hv hH hi => engineStarts_of hv hH nofun hi
  · simp only [Bool.and_eq_true, Bool.or_eq_true, Bool.not_eq_true', decide_eq_true_eq, decide_eq_false_iff_not, scrOk_iff hv, imp_iff_not_or, and_assoc, own]
  · have hr0 : G.rs a = G.rs (a + BitVec.ofNat 7 0) := by simp
    simp only [unblock_rs, SReg.nth, hds, hss, hr0, (unblock_blk_core G (G.rh h.toNat)).2, decide_eq_true_eq]
    rfl

theorem cpyg_command (glob : Bool) :
    let r (i : Nat) : Nat := (G.rs (a + BitVec.ofNat 7 i)).toNat
    let own (off n : Nat) : Prop := n = 0 ∨ inArea s G.blk off n = true
    let row := r 4 % 2 ^ 32
    let count := r 4 / 2 ^ 32 % 2 ^ 16
    let c : CopyOp :=
      { kind := .gather, chan := (G.rs b).toNat, dst := r 0, dstScr := !glob, src := scrLoc G.core (r 2), srcScr := true, len := row * count,
        table := r 1, stride := r 3, row := row }
    EngineCommand (.cpyg h a b glob) s g G h (G.rs b).toNat (r 4 < 2 ^ 48 ∧ (glob = false → own (r 0) (row * count)) ∧ own (r 2) (4 * count)) c
      (EngineStarts (.cpyg h a b glob) s g G h c) := by
  intro r own row count c
  have hi : exec (.cpyg h a b glob) s = execCpyg h a b glob s := rfl
  rw [execCpyg] at hi
  refine engineCommand_of hs hc hd hi (fun v hv => ⟨decide (r 4 < 2 ^ 48) && (glob || scrOk v (G.unblock (G.rh h.toNat)) (r 0) (row * count)) &&
    scrOk v (G.unblock (G.rh h.toNat)) (r 2) (4 * count), ?_, ?_⟩) fun _ v hv hH hi => engineStarts_of hv hH nofun hi
  · simp only [Bool.and_eq_true, Bool.or_eq_true, decide_eq_true_eq, scrOk_iff hv, imp_iff_not_or, Bool.not_eq_false, and_assoc, own]
  · have hr0 : G.rs a = G.rs (a + BitVec.ofNat 7 0) := by simp
    simp only [unblock_rs, SReg.nth, hr0, (unblock_blk_core G (G.rh h.toNat)).2]
    rfl

theorem cpyst_command :
    let r (i : Nat) : Nat := (G.rs (a + BitVec.ofNat 7 i)).toNat
    let c : CopyOp :=
      { kind := .storage, chan := (G.rs b).toNat, dst := r 0, dstScr := false, src := 0, srcScr := false, len := 4096 * r 3, window := r 1, lba := r 2 }
    let window (W : Window) : Prop := r 1 < 8 ∧ ∃ C, mget s.ctxs (s.ctxOf G) = some C ∧ mget C.windows (r 1) = some W ∧ W.valid = true
    EngineCommand (.cpyst h a b) s g G h (G.rs b).toNat ((∃ W, window W ∧ r 3 ≤ 65536 ∧ r 2 + r 3 ≤ W.lbas) ∧
        ∀ p ∈ pagesOf (r 0) (4096 * r 3), max (r 0) (4096 * p) < 2 ^ 48 → ∀ pa,
          translate s (s.ctxOf G) G.core none (max (r 0) (4096 * p)) { r := false, w := true } = .ok pa → pa / 2 ^ 50 % 4 = 0) c
      (∀ W, window W → ReadsSent (.cpyst h a b) s g G h c W) := by
  intro r c window
  have hi : exec (.cpyst h a b) s = execCpyst h a b s := rfl
  have hr0 : G.rs a = G.rs (a + BitVec.ofNat 7 0) := by simp
  have hwindow (W : Window) : window W ↔ (if r 1 < 8 then window? s (s.ctxOf G) (r 1) else none) = some W := by
    simp only [window, ← window?_eq_some, Option.ite_none_right_eq_some]
  rw [execCpyst] at hi
  refine engineCommand_of hs hc hd hi (fun v hv => ?_) fun ⟨⟨W', _, hmost, _⟩, _⟩ v hv hH hi W hW => ?_
  · have hctx := ctxOf_unblock hv G (G.rh h.toNat)
    simp only [unblock_rs, SReg.nth, hr0, (unblock_blk_core G (G.rh h.toNat)).2, hctx, hv.window?, hv.notDevice]
    simp only [hwindow, ← notDevice_eq_false]
    rw [show (G.rs (a + BitVec.ofNat 7 1)).toNat = r 1 from rfl]
    cases (if r 1 < 8 then window? s (s.ctxOf G) (r 1) else none) with
    | none => exact ⟨false, by simp, rfl⟩
    | some W => exact ⟨_, by simp [and_assoc, r], rfl⟩
  · have hop := engineStarted_op v g (G.unblock (G.rh h.toNat)) h (G.rs b).toNat c
    have hgrp := engineStarted_group (h := h) hH (G.rs b).toNat c
    obtain ⟨hrh, hrest⟩ := startedGroup_unblock G h (G.rh h.toNat) v.nextId
    have hctx : (engineOp v g (G.unblock (G.rh h.toNat)) c).ctx = s.ctxOf G := ctxOf_unblock hv G _
    obtain ⟨gs, as, rfl⟩ := hv
    have hcmds : cmdsOf c = (c.len + 2 ^ 20 - 1) / 2 ^ 20 := if_pos rfl
    have hfew : cmdsOf c ≤ 4096 := by
      rw [hcmds, show c.len = 4096 * r 3 from rfl]
      omega
    obtain ⟨n, hn, hsent, hfull, hgroups, hout⟩ := sendCmds_sends (W := W) hop rfl rfl rfl (window?_eq_some.2 (by rw [hctx]; exact hW.2)) rfl hfew
    rw [← hgroups] at hgrp
    rw [hcmds] at hn hfull
    exact ⟨_, _, _, n, hi, hgrp, hsent, rfl, rfl, hn, hfull, hout, hrh, hrest⟩

end

/-- Settles O18: each descriptor gives the command that its instruction starts; a cpyst's Reads are entries of its window's submission queue alone. -/
theorem engineCommandsIssue : Obligations.EngineCommandsIssue := by
  intro s g G h a b hs hc hd
  exact ⟨cpy_command h a b hs hc hd, cpyg_command h a b hs hc hd, cpyst_command h a b hs hc hd, fun d k => withScalar_of hs.1 hs.2 _⟩

end Sys2Proof.Proofs
end

section
/-!
PROOFS. The issue of tile instructions (R54, R161 to R168, R173 to R175), and the test-mode read of a tile (R171, R172).
-/

namespace Sys2Proof.Proofs
open Sys2Proof Sys2Proof.Machine Sys2Proof.Claims

/-! ### A tile instruction whose operands are in bounds issues or advances -/

section
variable {s : State} {g n : Nat} {G : Machine.Group} {S : Split}

theorem lt_tileLimit_of_below {t : Nat} (h : TileBelow s G t) : t < tileLimit s G := by
  obtain ⟨B, L, hB, hL, hcomp, ht⟩ := h
  simpa [tileLimit, State.launch?, State.blk?, hB, hL, hcomp] using ht

/-- A collective whose level, registers and tiles are in bounds, and whose active lanes are members. -/
theorem collective_in_bounds (hl : LaneTurn s g G n S) {gd : LGuard} {level3 : Bool} {regs tiles : List Nat} (hlev : level3 = true → 3 ≤ s.level G.core)
    (hr : ∀ r ∈ regs, r < G.n) (ht : ∀ t ∈ tiles, t < tileLimit s G) (hm : Members G (Active G S gd)) (k : Nat → Machine.Group → Nat → Split → Mask → Out) :
    collective s gd level3 regs tiles k = k g G n S (Active G S gd) := by
  rw [collective, laneIssue_of hl.1 hl.2.1 hl.2.2 gd hlev hr ht]
  exact if_neg (not_not.2 hm)

theorem roomFor_tile (hc : CountersOk G) (htl : G.ctl < 63) : G.roomFor false false false true = true := by
  obtain ⟨hld, hst, hcp, -⟩ := hc
  simp [Group.roomFor, hld, hst, hcp]
  omega

/-- A split advances from a group `H` that has the lanes of `G`. -/
theorem advances_of_sameLanes {H K : Machine.Group} (hS : mget G.splits n = some S) (h : SameLanes G H)
    (hK : K = { H.goto n (S.pc + 1) with memb := K.memb }) : Advances G K n S := by
  have hput : ({ G with splits := mput G.splits n S } : Machine.Group).goto n (S.pc + 1) = G.goto n (S.pc + 1) := by
    rw [goto_eq (mget_mput_same _ _ _), goto_eq hS, putSplit, putSplit, mput_mput]
  obtain ⟨hs, hj, hla, -⟩ := goto_sameLanes n (S.pc + 1) h
  refine ⟨S, rfl, rfl, rfl, ?_⟩
  rw [hput, hK]
  exact ⟨hs, hj, hla⟩

section
variable {act : Mask} {add : Bool} {plan : TilePlan} (hroom : G.roomFor false false false true = true)
include hroom

theorem tileIssue_of_idle (hact : act = 0) : tileIssue s g n G S act add plan = .next (advanceLane s g n) := by
  unfold tileIssue
  rw [hroom, if_neg (by simp), if_pos hact]

theorem tileIssue_of_trap {cause : BitVec 8} {lanes : Mask} (hact : act ≠ 0) (hp : plan = .trap cause lanes) :
    tileIssue s g n G S act add plan = .next (trapL s g n cause lanes) := by
  unfold tileIssue
  rw [hroom, if_neg (by simp), if_neg hact, hp]

theorem tileIssue_of_go {areas : List Area} {what : List (Nat × Nat) → TileDo} {tile : Option Nat} {pg : List Nat} {pages : List (Nat × Nat)} (hact : act ≠ 0)
    (hp : plan = .go areas what tile pg) (hchk : chkAreas s G add areas = .ok pages) :
    tileIssue s g n G S act add plan = .next (issueTile s g n G S tile act (what pages) pg) := by
  unfold tileIssue
  rw [hroom, if_neg (by simp), if_neg hact, hp]
  dsimp only
  rw [hchk, onChk]

end

/-- The issue of a tile operation: before its split advances it is in flight under the next key and counts in tl. -/
theorem issueTile_eq (hg : mget s.groups g = some G) (tile : Option Nat) (act : Mask) (what : TileDo) (pg : List Nat) :
    ∃ u H o x, issueTile s g n G S tile act what pg = advanceLane u g n ∧ mget u.groups g = some H ∧ SameLanes G H ∧ H.ctl = G.ctl + 1 ∧ H.sreg = G.sreg ∧
      H.vreg = G.vreg ∧ mget u.ops s.nextId = some o ∧ o.grp = some g ∧ o.body = .tile x ∧ x.what = what ∧ x.tile = tile.map (tileKey s G) ∧ x.mask = act ∧
      u.mem = s.mem ∧ u.acc = s.acc := by
  have hmod (f : Machine.Group → Machine.Group) : mget (mupd s.groups g f) g = some (f G) := by rw [mget_mupd_same, hg]; rfl
  unfold issueTile
  dsimp only [State.fresh]
  rw [fillTlb_frame]
  exact ⟨_, _, _, _, rfl, hmod _, ⟨rfl, rfl, rfl, rfl⟩, rfl, rfl, rfl, mget_mput_same _ _ _, rfl, rfl, rfl, rfl, rfl, rfl, rfl⟩

/-- An instruction that issues a tile operation. -/
theorem tileIssues_of_issueTile {i : Instr} (hl : LaneTurn s g G n S) {tile : Option Nat} {act : Mask} {what : TileDo} {pg : List Nat}
    (hi : exec i s = .next (issueTile s g n G S tile act what pg)) : TileIssues i s g G n (tile.map (tileKey s G)) act what := by
  obtain ⟨ht, hg, hS⟩ := hl
  obtain ⟨u, H, o, x, hu, hH, hlanes, hctl, hsreg, hvreg, ho, hgrp, hbody, hwhat, htile, hmask, hmem, hacc⟩ := issueTile_eq (n := n) (S := S) hg tile act what pg
  obtain ⟨⟨K, hK, hKm⟩, hmem', hops⟩ := advanceLane_keeps hH (hlanes.splits ▸ hS : mget H.splits n = some S)
  have hadv : Advances G K n S := advances_of_sameLanes hS hlanes hKm
  obtain ⟨ss, js, la, em, hgoto⟩ := goto_frame H n (S.pc + 1)
  rw [hgoto] at hKm
  refine ⟨_, K, o, x, hi.trans (congrArg _ hu), hK, hops ▸ ho, hgrp, hbody, hwhat, htile, hmask, hmem'.trans hmem, (advanceLane_quiet u g n).acc.trans hacc,
    fun S' hS' => Option.some.inj (hS.symm.trans hS') ▸ hadv, ?_⟩
  rw [hKm]
  exact ⟨hctl, hsreg, hvreg⟩

theorem chkAreas_nil (s : State) (G : Machine.Group) (add : Bool) : chkAreas s G add [] = .ok [] := by
  unfold chkAreas
  exact ite_self _

/-- A tile instruction with no active lane only advances. -/
theorem laneBecomes_of_idle {i : Instr} (hl : LaneTurn s g G n S) (hroom : G.roomFor false false false true = true) {act : Mask} (hact : act = 0) {add : Bool}
    {plan : TilePlan} (hi : exec i s = tileIssue s g n G S act add plan) : LaneBecomes i s g (G.goto n (S.pc + 1)) :=
  laneBecomes_of_advance (hi.trans (tileIssue_of_idle hroom hact)) hl.2.1 hl.2.2 fun _ => rfl

/-- A tile instruction whose plan passes its checks issues. -/
theorem tileIssues_of_go {i : Instr} (hl : LaneTurn s g G n S) (hroom : G.roomFor false false false true = true) {act : Mask} (hact : act ≠ 0) {add : Bool}
    {plan : TilePlan} (hi : exec i s = tileIssue s g n G S act add plan) {areas : List Area} {what : List (Nat × Nat) → TileDo} {tile : Option Nat}
    {pg : List Nat} {pages : List (Nat × Nat)} (hp : plan = .go areas what tile pg) (hchk : chkAreas s G add areas = .ok pages) :
    TileIssues i s g G n (tile.map (tileKey s G)) act (what pages) :=
  tileIssues_of_issueTile hl (hi.trans (tileIssue_of_go hroom hact hp hchk))

/-! ### Each tile instruction is the issue of its plan -/

section
variable (hl : LaneTurn s g G n S)
include hl

theorem exec_mma_of {w : MmaL} (sparse : Bool) (hm : Members G (Active G S w.g)) (hfw : w.fw.toNat < G.n) (ht : TileBelow s G w.tile.toNat)
    (hlev : sparse = true → 3 ≤ s.level G.core) :
    exec (if sparse then .mmas w else .mma w) s = tileIssue s g n G S (Active G S w.g) false (mmaPlan G w sparse (Active G S w.g)) := by
  have hexec : exec (if sparse then .mmas w else .mma w) s = mmaStep s w sparse := by cases sparse <;> rfl
  rw [hexec]
  exact collective_in_bounds hl hlev (by simpa using hfw) (by simpa using lt_tileLimit_of_below ht) hm _

theorem exec_mzero_of {gd : LGuard} {tile : BitVec 6} (ht : TileBelow s G tile.toNat) :
    exec (.mzero gd tile) s = tileIssue s g n G S (Active G S gd) false (.go [] (fun _ => .mzero) (some tile.toNat) []) :=
  laneIssue_of hl.1 hl.2.1 hl.2.2 gd (by simp) (by simp) (by simpa using lt_tileLimit_of_below ht) _

theorem exec_mepi_of {w : MepiL} (ht : TileBelow s G w.tile.toNat) :
    exec (.mepi w) s = tileIssue s g n G S (Active G S w.g) w.add (mepiPlan G w (Active G S w.g)) :=
  laneIssue_of hl.1 hl.2.1 hl.2.2 w.g (by simp) (by simp) (by simpa using lt_tileLimit_of_below ht) _

theorem exec_vdist_of {w : DistL} (hm : Members G (Active G S w.g)) (hd : w.d.toNat < G.n) :
    exec (.vdist w) s = tileIssue s g n G S (Active G S w.g) false (distPlan G w (Active G S w.g)) :=
  collective_in_bounds (level3 := false) (regs := [w.d.toNat]) (tiles := []) hl (by simp) (by simpa using hd) (by simp) hm
    fun g G n S act => tileIssue s g n G S act false (distPlan G w act)

theorem exec_topk_of {gd : LGuard} {a b : VReg} (list : SReg) (hm : Members G (Active G S gd)) (ha : a.toNat < G.n) (hb : b.toNat < G.n) :
    exec (.topk gd a b list) s = tileIssue s g n G S (Active G S gd) false (listPlan s G S (Active G S gd) (low32 (G.rs list)) none
      ((lanesOf (Active G S gd)).map fun i => (lane (G.rv a.toNat) i, lane (G.rv b.toNat) i))) :=
  collective_in_bounds (level3 := false) (regs := [a.toNat, b.toNat]) (tiles := []) hl (by simp) (by simpa using ⟨ha, hb⟩) (by simp) hm fun g G n S act =>
    tileIssue s g n G S act false (listPlan s G S act (low32 (G.rs list)) none ((lanesOf act).map fun i => (lane (G.rv a.toNat) i, lane (G.rv b.toNat) i)))

theorem exec_topkm_of (gd : LGuard) (dst src : SReg) :
    exec (.topkm gd dst src) s = tileIssue s g n G S (Active G S gd) false
      (listPlan s G S (Active G S gd) (low32 (G.rs dst)) (some (low32 (G.rs src))) []) :=
  laneIssue_of hl.1 hl.2.1 hl.2.2 gd (by simp) (by simp) (by simp) _

end

end

/-! ### The format word of a matrix product (R164) -/

/-- The lowest lane of a mask that has one is a lane of it. -/
theorem exists_lowest {m : Mask} (h : m ≠ 0) : ∃ i, lowest m = some i ∧ m.getLsbD i = true := by
  cases hl : lanesOf m with
  | nil =>
    refine absurd (BitVec.eq_of_getLsbD_eq fun i _ => ?_) h
    rw [show BitVec.getLsbD (0 : Mask) i = false from BitVec.getLsbD_zero, ← Bool.not_eq_true, ← mem_lanesOf, hl]
    exact List.not_mem_nil
  | cons i l =>
    refine ⟨i, by rw [lowest, hl]; rfl, mem_lanesOf.1 (by rw [hl]; exact List.mem_cons_self)⟩

section
variable {G : Machine.Group} {w : MmaL} {sparse : Bool} {act : Mask}

/-- One format word for all lanes decides the plan alone. -/
theorem mmaPlan_of_same {x : Elem} (hact : act ≠ 0) (h : ∀ l < 256, act.getLsbD l = true → lane (G.rv w.fw.toNat) l = x) :
    (∀ k, x.toNat < 256 → pairK sparse (x.toNat % 16) (x.toNat / 16 % 16) = some k → ∃ areas,
      mmaPlan G w sparse act = .go areas (fun _ => .mma sparse (x.toNat % 16) (x.toNat / 16 % 16) (scrLoc G.core ((G.rs w.sa).toNat % 2 ^ 32))
        (areaLoc G .cluster ((G.rs w.sb).toNat % 2 ^ 32))) (some w.tile.toNat) []) ∧
    (256 ≤ x.toNat ∨ pairK sparse (x.toNat % 16) (x.toNat / 16 % 16) = none → mmaPlan G w sparse act = .trap 0x08 act) := by
  obtain ⟨i, hlow, hi⟩ := exists_lowest hact
  have hfirst : lane (G.rv w.fw.toNat) ((lowest act).getD 0) = x := by rw [hlow]; exact h i (BitVec.lt_of_getLsbD hi) hi
  have hsame : (maskOf fun i => act.getLsbD i && lane (G.rv w.fw.toNat) i != x) = 0 := by
    refine BitVec.eq_of_getLsbD_eq fun j hj => ?_
    rw [getLsbD_maskOf, show BitVec.getLsbD (0 : Mask) j = false from BitVec.getLsbD_zero]
    by_cases ha : act.getLsbD j = true
    · simp [h j hj ha]
    · simp [ha]
  unfold mmaPlan
  dsimp only
  rw [hfirst, hsame, if_neg (by simp)]
  refine ⟨fun k hx hk => ?_, fun hbad => ?_⟩
  · rw [if_pos hx, hk]
    exact ⟨_, rfl⟩
  · have hnone : (if x.toNat < 256 then pairK sparse (x.toNat % 16) (x.toNat / 16 % 16) else none) = none := by
      rcases hbad with h | h
      · exact if_neg (by omega)
      · rw [h, ite_self]
    rw [hnone]

/-- Format words that differ trap in some of the active lanes. -/
theorem mmaPlan_of_differ {l m : Nat} (hl : act.getLsbD l = true) (hm : act.getLsbD m = true)
    (hne : lane (G.rv w.fw.toNat) l ≠ lane (G.rv w.fw.toNat) m) :
    ∃ lanes, lanes ≠ 0 ∧ lanes &&& ~~~act = 0 ∧ mmaPlan G w sparse act = .trap 0x08 lanes := by
  have hbit (i : Nat) : (maskOf fun i => act.getLsbD i && lane (G.rv w.fw.toNat) i != lane (G.rv w.fw.toNat) ((lowest act).getD 0)).getLsbD i =
      (act.getLsbD i && lane (G.rv w.fw.toNat) i != lane (G.rv w.fw.toNat) ((lowest act).getD 0)) := by
    rw [getLsbD_maskOf]
    by_cases ha : act.getLsbD i = true
    · simp [BitVec.lt_of_getLsbD ha]
    · simp [ha]
  have hnz : (maskOf fun i => act.getLsbD i && lane (G.rv w.fw.toNat) i != lane (G.rv w.fw.toNat) ((lowest act).getD 0)) ≠ 0 := by
    intro h0
    have hz (i : Nat) (hi : act.getLsbD i = true) : lane (G.rv w.fw.toNat) i = lane (G.rv w.fw.toNat) ((lowest act).getD 0) := by
      have := hbit i
      rw [h0, hi] at this
      simpa using this
    exact hne ((hz l hl).trans (hz m hm).symm)
  refine ⟨_, hnz, BitVec.eq_of_getLsbD_eq fun i _ => ?_, ?_⟩
  · rw [BitVec.getLsbD_and, hbit, BitVec.getLsbD_not]
    cases act.getLsbD i <;> simp
  · unfold mmaPlan
    exact if_pos hnz

end

/-- The plan of a merge names no tile. -/
theorem listPlan_tile {s : State} {G : Machine.Group} {S : Split} {act : Mask} {dst : Nat} {src : Option Nat} {pairs : List (Elem × Elem)} {areas : List Area}
    {what : List (Nat × Nat) → TileDo} {tile : Option Nat} {pg : List Nat} (h : listPlan s G S act dst src pairs = .go areas what tile pg) : tile = none := by
  unfold listPlan at h
  dsimp only at h
  split at h
  · split at h
    · cases h
    · split at h
      · cases h
      · split at h
        · cases h
        · exact (TilePlan.go.inj h).2.2.1.symm
  · cases h

/-- R54, R161 to R164, R168, R173 to R175: tile instructions issue once their operands pass, advance with no active lane, and trap at a bad format word. -/
theorem tileInstructionsIssue : Claims.TileInstructionsIssue := by
  intro s g G n S hl hc htl
  have hroom := roomFor_tile hc htl
  refine ⟨fun w gd tile e v a b list src => ?_, fun w sparse => ?_, fun gd tile hact ht => ?_, fun w areas what tile pg pages hact ht hp hchk => ?_,
    fun w areas what tile pg pages hact hm hd hp hchk => ?_, fun gd a b list areas what tile pg pages => ?_, fun gd dst src areas what tile pg pages => ?_⟩
  · have members {gd : LGuard} (h : Active G S gd = 0) : Members G (Active G S gd) := by rw [h]; exact BitVec.zero_and
    refine ⟨fun h hfw ht => ⟨?_, fun hlev => ?_⟩, fun h ht => ?_, fun h ht => ?_, fun h hd => ?_, fun h ha hb => ?_, fun h => ?_⟩
    · exact laneBecomes_of_idle hl hroom h (exec_mma_of hl false (members h) hfw ht (by simp))
    · exact laneBecomes_of_idle hl hroom h (exec_mma_of hl true (members h) hfw ht fun _ => hlev)
    · exact laneBecomes_of_idle hl hroom h (exec_mzero_of hl ht)
    · exact laneBecomes_of_idle hl hroom h (exec_mepi_of hl ht)
    · exact laneBecomes_of_idle hl hroom h (exec_vdist_of hl (members h) hd)
    · exact laneBecomes_of_idle hl hroom h (exec_topk_of hl list (members h) ha hb)
    · exact laneBecomes_of_idle hl hroom h (exec_topkm_of hl gd list src)
  · intro act i word hm hact hfw ht hlev
    have hi := exec_mma_of hl sparse hm hfw ht hlev
    refine ⟨fun x hx => ⟨fun k hlt hk => ?_, fun hbad => ?_⟩, fun ⟨l, m, _, _, hla, hma, hne⟩ => ?_⟩
    · obtain ⟨areas, hp⟩ := (mmaPlan_of_same hact hx).1 k hlt hk
      exact ⟨areas, hp, fun pages hchk => tileIssues_of_go hl hroom hact hi hp hchk⟩
    · exact hi.trans (tileIssue_of_trap hroom hact ((mmaPlan_of_same hact hx).2 hbad))
    · obtain ⟨lanes, hnz, hsub, hp⟩ := mmaPlan_of_differ (sparse := sparse) hla hma hne
      exact ⟨lanes, hnz, hsub, hi.trans (tileIssue_of_trap hroom hact hp)⟩
  · exact tileIssues_of_go hl hroom hact (exec_mzero_of hl ht) rfl (chkAreas_nil s G false)
  · have htile : tile = some w.tile.toNat := by
      unfold mepiPlan at hp
      exact (TilePlan.go.inj hp).2.2.1.symm
    subst htile
    exact tileIssues_of_go hl hroom hact (exec_mepi_of hl ht) hp hchk
  · have htile : tile = none := by
      unfold distPlan at hp
      dsimp only at hp
      split at hp
      · cases hp
      · exact (TilePlan.go.inj hp).2.2.1.symm
    subst htile
    exact tileIssues_of_go hl hroom hact (exec_vdist_of hl hm hd) hp hchk
  · intro act hact hm ha hb hp hchk
    obtain rfl := listPlan_tile hp
    exact tileIssues_of_go hl hroom hact (exec_topk_of hl list hm ha hb) hp hchk
  · intro act hact hp hchk
    obtain rfl := listPlan_tile hp
    exact tileIssues_of_go hl hroom hact (exec_topkm_of hl gd dst src) hp hchk

/-! ### The test-mode read (R171, R172) -/

section
variable {s : State} {g n : Nat} {G : Machine.Group} {S : Split} {C : Context} {gd : LGuard} {d : VReg} {tile : BitVec 6} {col : BitVec 5}

/-- Outside test mode mtrd is an illegal instruction. -/
theorem mtrd_outside_testMode (hl : LaneTurn s g G n S) (hC : mget s.ctxs (s.ctxOf G) = some C) (hmode : C.flags.getLsbD 0 = false) :
    exec (.mtrd gd d tile col) s = .next (trapL s g n 0x01 (Active G S gd)) := by
  refine (withSplit_of hl.1 hl.2.1 hl.2.2 _).trans ?_
  rw [hC, Option.map_some, hmode]
  rfl

section
variable (hl : LaneTurn s g G n S) (hC : mget s.ctxs (s.ctxOf G) = some C) (hmode : C.flags.getLsbD 0 = true) (hd : d.toNat < G.n)
  (ht : TileBelow s G tile.toNat)
include hl hC hmode hd ht

/-- In test mode, with its register and its tile in bounds, mtrd advances with no active lane, stalls while older operations on the tile are in flight, meets
the tile's error, or reads the column. -/
theorem mtrd_in_testMode :
    let k := tileKey s G tile.toNat
    let due := live s ((G.stall.map (·.2)).getD (tileQueue s k))
    let H : Machine.Group := { G with stall := none }
    let u : State := coreErr { s with accPoison := insNat s.accPoison k, accSick := s.accSick.filter (· != k) } 1 1 G.core (some (s.ctxOf G)) 0
      ((s.blk? G).map (·.launch))
    exec (.mtrd gd d tile col) s =
      if Active G S gd = 0 then .next (advanceLane (s.grp g H) g n)
      else if !due.isEmpty then .next (s.grp g { G with stall := some (n, due) })
      else if s.accPoison.contains k || s.accSick.contains k then
        .next (groupError (advanceLane (u.grp g H) g n) g 0 (some (.split n, runOv G, S.pc)))
      else .next (afterLane s g n (H.wvMask d.toNat (Active G S gd) fun i => lane (tileRow s k i) col.toNat)) := by
  refine (withSplit_of hl.1 hl.2.1 hl.2.2 _).trans ?_
  rw [hC, Option.map_some, hmode]
  exact laneIssue_of (regs := [d.toNat]) (tiles := [tile.toNat]) hl.1 hl.2.1 hl.2.2 gd (level3 := false) (by simp) (by simpa using hd)
    (by simpa using lt_tileLimit_of_below ht) _

/-- A tile with an uncorrectable error gives no value (R172): the split has advanced, and the tile is poisoned, before the group meets the error. -/
theorem mtrd_of_poisoned (hact : Active G S gd ≠ 0) (hdue : live s ((G.stall.map (·.2)).getD (tileQueue s (tileKey s G tile.toNat))) = [])
    (hbad : tileKey s G tile.toNat ∈ s.accPoison ∨ tileKey s G tile.toNat ∈ s.accSick) :
    ∃ u, exec (.mtrd gd d tile col) s = .next (groupError u g 0 (some (.split n, runOv G, S.pc))) ∧ tileKey s G tile.toNat ∈ u.accPoison ∧ u.mem = s.mem ∧
      ∃ G', mget u.groups g = some G' ∧ G'.vreg = G.vreg := by
  have hx := mtrd_in_testMode (gd := gd) (col := col) hl hC hmode hd ht
  dsimp only at hx
  rw [if_neg hact, hdue, if_neg (by simp), if_pos (by simpa using hbad)] at hx
  obtain ⟨⟨K, hK, hKm⟩, hmem, -⟩ := advanceLane_keeps (n := n) (S := S) (s := State.grp _ g { G with stall := none }) (mget_mput_same _ _ _) hl.2.2
  obtain ⟨ss, js, la, em, hgoto⟩ := goto_frame { G with stall := none } n (S.pc + 1)
  rw [hgoto] at hKm
  refine ⟨_, hx, ?_, hmem, K, hK, by rw [hKm]⟩
  rw [(advanceLane_quiet _ _ _).eq]
  exact mem_insNat.2 (.inl rfl)

end

end

/-- R171, R172: mtrd in test mode and outside it. -/
theorem tileReadInTestMode : Claims.TileReadInTestMode := by
  intro s g G n S gd d tile col C hl hC k
  refine ⟨mtrd_outside_testMode hl hC, fun hmode hd ht hact => ?_, fun hmode hd ht hact => ⟨fun hdue => ?_, fun hdue hp hs => ?_,
    mtrd_of_poisoned hl hC hmode hd ht hact⟩⟩
  all_goals have hx := mtrd_in_testMode (gd := gd) (col := col) hl hC hmode hd ht
  · refine laneBecomes_of_advance (u := s.grp g { G with stall := none }) (H := { G with stall := none }) (hx.trans (if_pos hact)) (mget_mput_same _ _ _)
      hl.2.2 fun K => by simp only [State.grp, mput_mput]
  · exact hx.trans ((if_neg hact).trans (if_pos (by simpa using hdue)))
  · have hS : mget (({ G with stall := none } : Machine.Group).wvMask d.toNat (Active G S gd) fun i => lane (tileRow s k i) col.toNat).splits n = some S := by
      rw [wvMask_frame]
      exact hl.2.2
    have hgood : (s.accPoison.contains k || s.accSick.contains k) = false := by simp [hp, hs]
    refine hx.trans ((if_neg hact).trans ((if_neg (by rw [hdue]; simp)).trans ((if_neg (by rw [hgood]; exact Bool.false_ne_true)).trans ?_)))
    rw [afterLane_of_pc hS]
    rfl

/-- A stream of a group that stalls for an mtrd may not issue (R171). -/
theorem stalledGroupWaits : Claims.StalledGroupWaits := by
  intro s G n ops k hst hk hlive
  have hne : (live s ops).isEmpty = false := by
    rw [List.isEmpty_eq_false_iff_exists_mem]
    exact ⟨k, List.mem_filter.2 ⟨hk, by simpa using Option.ne_none_iff_isSome.1 hlive⟩⟩
  have hstalled (str : Stream) (h : str ≠ .split n) : stalled s G str = true := by simp [stalled, hst, hne, h]
  refine ⟨?_, fun m hm => ?_⟩
  · simp [scalarMay, hstalled .scalar nofun]
  · simp [laneMay, hstalled (.split m) (by simpa using hm)]

/-- Settles O27: each tile instruction is the issue of its plan; mtrd reads, waits or meets an error; and a stalled group waits. -/
theorem tileInstructions : Obligations.TileInstructions := ⟨tileInstructionsIssue, tileReadInTestMode, stalledGroupWaits⟩

end Sys2Proof.Proofs
end

section
/-!
PROOFS. The ranked lists of the search instructions (R29, R175).
-/

namespace Sys2Proof.Proofs

open Sys2Proof Sys2Proof.Machine Sys2Proof.Claims

/-! ### Ranked lists (R29, R175) -/

/-- A value is negative; −0 is. -/
def isNeg : FVal → Bool
  | .inf neg => neg
  | .fin neg _ _ => neg
  | .nan => false

/-- Where a value that is no NaN stands in the order of `fLt`: by its value, and −0 before +0. -/
def placedSigned (v : FVal) : Lex (WithBot (WithTop ℚ) × Bool) := toLex (Claims.placed v, !isNeg v)

theorem fLt_of_fEq {v w : FVal} (h : fEq v w = true) : fLt v w = (isNeg v && !isNeg w) := by
  cases v with
  | nan => simp [fEq] at h
  | inf a =>
    cases w with
    | nan => simp [fEq] at h
    | inf b => cases a <;> cases b <;> simp_all [fEq, fLt, isNeg]
    | fin b p q => simp [fEq] at h
  | fin a n d =>
    cases w with
    | nan => simp [fEq] at h
    | inf b => simp [fEq] at h
    | fin b p q =>
      have he : n * q = p * d := by simp_all [fEq]
      cases a <;> cases b <;> simp [fLt, isNeg, he]

theorem fLt_iff_placedSigned {v w : FVal} (hv : DenPos v) (hw : DenPos w) (hvn : v ≠ .nan) (hwn : w ≠ .nan) :
    fLt v w = true ↔ placedSigned v < placedSigned w := by
  rw [placedSigned, placedSigned, Prod.Lex.toLex_lt_toLex]
  have hlt := fLt_iff hv hw hvn hwn
  have heq := fEq_iff hv hw
  cases h : fEq v w with
  | true =>
    have hp : Claims.placed v = Claims.placed w := (heq.1 h).2
    rw [fLt_of_fEq h]
    cases isNeg v <;> cases isNeg w <;> simp [hp]
  | false =>
    have hp : Claims.placed v ≠ Claims.placed w := fun hp => by simp [heq.2 ⟨by simp [hvn, hwn], hp⟩] at h
    simp only [h, Bool.not_false, Bool.and_true] at hlt
    simp [hlt, hp]

/-- The score of a pair is a NaN. -/
def ranksLast (x : Elem × Elem) : Prop := decodeFmt fmtF32 x.1.toNat = .nan

/-- Where the score of a pair stands. -/
def scorePlace (x : Elem × Elem) : Lex (WithBot (WithTop ℚ) × Bool) := placedSigned (decodeFmt fmtF32 x.1.toNat)

/-- R29: a NaN after every number, then by score in the direction asked for, then by the id. -/
theorem ranksBefore_iff (asc : Bool) (x y : Elem × Elem) : ranksBefore asc x y = true ↔
    (¬ ranksLast x ∧ ranksLast y) ∨ (ranksLast x ∧ ranksLast y ∧ x.2.toNat < y.2.toNat) ∨
    (¬ ranksLast x ∧ ¬ ranksLast y ∧ ((if asc then scorePlace x < scorePlace y else scorePlace y < scorePlace x) ∨
      (scorePlace x = scorePlace y ∧ x.2.toNat < y.2.toNat))) := by
  unfold ranksBefore
  by_cases hx : decodeFmt fmtF32 x.1.toNat = .nan
  · by_cases hy : decodeFmt fmtF32 y.1.toNat = .nan <;> simp [ranksLast, hx, hy]
  by_cases hy : decodeFmt fmtF32 y.1.toNat = .nan
  · simp [ranksLast, hx, hy]
  have hxy : fLt (decodeFmt fmtF32 x.1.toNat) (decodeFmt fmtF32 y.1.toNat) = true ↔ scorePlace x < scorePlace y :=
    fLt_iff_placedSigned (decodeFmt_denPos _ _) (decodeFmt_denPos _ _) hx hy
  have hyx : fLt (decodeFmt fmtF32 y.1.toNat) (decodeFmt fmtF32 x.1.toNat) = true ↔ scorePlace y < scorePlace x :=
    fLt_iff_placedSigned (decodeFmt_denPos _ _) (decodeFmt_denPos _ _) hy hx
  simp only [ranksLast, hx, hy, hxy, hyx, decide_false, Bool.or_self, Bool.false_eq_true, if_false, not_false_eq_true, and_false, false_and,
    true_and, false_or]
  rcases lt_trichotomy (scorePlace x) (scorePlace y) with h | h | h
  · cases asc <;> simp [h, h.not_gt, h.ne]
  · cases asc <;> simp [h]
  · cases asc <;> simp [h, h.not_gt, h.ne']

theorem ranksBefore_asymm {asc : Bool} {x y : Elem × Elem} (h : ranksBefore asc x y = true) : ranksBefore asc y x = false := by
  rw [← Bool.not_eq_true, ranksBefore_iff]
  rw [ranksBefore_iff] at h
  cases asc <;> grind

/-- What ranks before a pair ranks before every pair that this one does not rank after. -/
theorem ranksBefore_of_not {asc : Bool} {x y z : Elem × Elem} (h : ranksBefore asc x y = true) (hz : ranksBefore asc z y = false) :
    ranksBefore asc x z = true := by
  rw [← Bool.not_eq_true, ranksBefore_iff] at hz
  rw [ranksBefore_iff] at h ⊢
  cases asc <;> grind

theorem rankIns_perm (asc : Bool) (x : Elem × Elem) (l : List (Elem × Elem)) : (rankIns asc x l).Perm (x :: l) := by
  induction l with
  | nil => exact .refl _
  | cons y ys ih =>
    unfold rankIns
    split
    · exact .refl _
    · exact (ih.cons y).trans (.swap x y ys)

/-- None ranks before an earlier one. -/
abbrev Ranked (asc : Bool) : List (Elem × Elem) → Prop := List.Pairwise fun x y => ranksBefore asc y x = false

theorem rankIns_ranked {asc : Bool} (x : Elem × Elem) {l : List (Elem × Elem)} (h : Ranked asc l) : Ranked asc (rankIns asc x l) := by
  induction l with
  | nil => exact List.pairwise_singleton _ _
  | cons y ys ih =>
    obtain ⟨hy, hys⟩ := List.pairwise_cons.1 h
    unfold rankIns
    split
    case isTrue hxy =>
      refine List.pairwise_cons.2 ⟨fun z hz => ?_, h⟩
      rcases List.mem_cons.1 hz with rfl | hz
      · exact ranksBefore_asymm hxy
      · exact ranksBefore_asymm (ranksBefore_of_not hxy (hy z hz))
    case isFalse hxy =>
      refine List.pairwise_cons.2 ⟨fun z hz => ?_, ih hys⟩
      rcases List.mem_cons.1 ((rankIns_perm asc x ys).mem_iff.1 hz) with rfl | hz
      · exact Bool.eq_false_of_not_eq_true hxy
      · exact hy z hz

theorem rankSort_foldl (asc : Bool) (l r : List (Elem × Elem)) (h : Ranked asc r) :
    (l.foldl (fun r x => rankIns asc x r) r).Perm (l ++ r) ∧ Ranked asc (l.foldl (fun r x => rankIns asc x r) r) := by
  induction l generalizing r with
  | nil => exact ⟨.refl _, h⟩
  | cons x xs ih =>
    obtain ⟨hp, hs⟩ := ih (rankIns asc x r) (rankIns_ranked x h)
    exact ⟨hp.trans (((rankIns_perm asc x r).append_left xs).trans List.perm_middle), hs⟩

theorem rankedListsSorted : RankedListsSorted := by
  intro asc l
  obtain ⟨hp, hs⟩ := rankSort_foldl asc l [] .nil
  exact ⟨by simpa [rankSort] using hp, hs⟩

end Sys2Proof.Proofs
end

section
/-!
PROOFS. What tile operations leave as they retire (R22 to R29, R37, R160 to R176).
-/

namespace Sys2Proof.Proofs

open Sys2Proof Sys2Proof.Machine Sys2Proof.Claims

/-! ### Lanes of a mask -/

theorem nodup_lanesOf (m : Mask) : (lanesOf m).Nodup := by
  unfold lanesOf
  split
  · exact List.nodup_nil
  · exact List.nodup_range.filter _

theorem lanesOf_shift_one {i : Nat} (hi : i < 256) : lanesOf ((1 : Mask) <<< i) = [i] := by
  have hbit (j : Nat) : ((1 : Mask) <<< i).getLsbD j = decide (j = i) := by
    change ((1#256) <<< i).getLsbD j = _
    rw [BitVec.getLsbD_shiftLeft, BitVec.getLsbD_one]
    rcases lt_trichotomy j i with h | rfl | h
    · simp [h, h.ne]
    · simp [hi]
    · simp [h.ne', show j - i ≠ 0 by omega]
  refine List.perm_singleton.1 ((List.perm_ext_iff_of_nodup (nodup_lanesOf _) (List.nodup_singleton i)).2 fun j => ?_)
  rw [mem_lanesOf, hbit, List.mem_singleton, decide_eq_true_iff]

/-! ### Rows of a tile -/

theorem tileRow_setTileRow (s : State) (tile i j : Nat) (r : Lanes) :
    tileRow (setTileRow s tile i r) tile j = if j = i then r else tileRow s tile j := by
  have h := getD_mset rowZero s.acc (tile * 256 + i) (tile * 256 + j) r
  simpa only [tileRow, setTileRow, Nat.add_left_cancel_iff] using h

/-- Rows of a tile rewritten one after the other, each from what it held. -/
def rewriteRows (tile : Nat) (F : Nat → Lanes → Lanes) (ls : List Nat) (s : State) : State :=
  ls.foldl (fun s i => setTileRow s tile i (F i (tileRow s tile i))) s

theorem tileRow_rewriteRows {ls : List Nat} (hn : ls.Nodup) (tile : Nat) (F : Nat → Lanes → Lanes) (s : State) (j : Nat) :
    tileRow (rewriteRows tile F ls s) tile j = if j ∈ ls then F j (tileRow s tile j) else tileRow s tile j := by
  unfold rewriteRows
  induction ls generalizing s with
  | nil => rfl
  | cons i is ih =>
    obtain ⟨hi, his⟩ := List.nodup_cons.1 hn
    rw [List.foldl_cons, ih his, tileRow_setTileRow]
    by_cases hj : j = i
    · subst hj; simp [hi]
    · simp [hj]

theorem rewriteRows_acc (tile : Nat) (F : Nat → Lanes → Lanes) (ls : List Nat) (s : State) :
    rewriteRows tile F ls s = { s with acc := (rewriteRows tile F ls s).acc } := by
  unfold rewriteRows
  induction ls generalizing s with
  | nil => rfl
  | cons i is ih => rw [List.foldl_cons, ih]; rfl

theorem tileRow_of_acc {s t : State} (h : t.acc = s.acc) (tile i : Nat) : tileRow t tile i = tileRow s tile i := by rw [tileRow, h]; rfl

/-- Lane `j` of a row made of columns and the row before. -/
theorem lane_map_zip {α : Type} (c : Nat → α) (f : α × Elem → Elem) {row : Lanes} {j : Nat} (hr : row.length = 32) (hj : j < 32) :
    lane ((((List.range 32).map c).zip row).map f) j = f (c j, lane row j) := by
  have h : j < row.length := by omega
  have hl : j < ((((List.range 32).map c).zip row).map f).length := by simp; omega
  rw [lane, List.getD_eq_getElem _ _ hl, List.getElem_map, List.getElem_zip, List.getElem_map, List.getElem_range, lane, List.getD_eq_getElem _ _ h]

/-! ### Bytes -/

theorem readLE_congr {m m' : List Host.Cell} {a n : Nat} (h : ∀ y, a ≤ y → y < a + n → memRead m y = memRead m' y) : readLE m a n = readLE m' a n := by
  induction n generalizing a with
  | zero => rfl
  | succ n ih => rw [readLE, readLE, h a (by omega) (by omega), ih fun y _ _ => h y (by omega) (by omega)]

/-- A byte that no step of a fold writes stays. -/
theorem memRead_foldl {α : Type} {f : State → α → State} {l : List α} {y : Nat} (h : ∀ s, ∀ a ∈ l, memRead (f s a).mem y = memRead s.mem y) (s : State) :
    memRead (l.foldl f s).mem y = memRead s.mem y :=
  List.foldlRecOn (motive := fun t => memRead t.mem y = memRead s.mem y) l f rfl fun t ht a ha => (h t a ha).trans ht

/-- Of writes to places that do not overlap each is still there at the end. -/
theorem readLE_foldl_writes {α : Type} {f : State → α → State} {loc v : α → Nat} {n : Nat} {l : List α}
    (h : ∀ s, ∀ a ∈ l, (f s a).mem = writeLE s.mem (loc a) n (v a)) (hd : l.Pairwise fun a b => loc a + n ≤ loc b ∨ loc b + n ≤ loc a)
    {a : α} (ha : a ∈ l) (s : State) : readLE (l.foldl f s).mem (loc a) n = v a % 256 ^ n := by
  induction l generalizing s with
  | nil => cases ha
  | cons b l ih =>
    obtain ⟨hb, hl⟩ := List.pairwise_cons.1 hd
    have hrest : ∀ s, ∀ a ∈ l, (f s a).mem = writeLE s.mem (loc a) n (v a) := fun s c hc => h s c (List.mem_cons_of_mem _ hc)
    rw [List.foldl_cons]
    rcases List.mem_cons.1 ha with rfl | ha
    · rw [readLE_congr (m' := (f s a).mem) fun y _ _ => memRead_foldl (fun s c hc => ?_) _, h s a List.mem_cons_self, readLE_writeLE]
      rw [hrest s c hc]
      exact memRead_writeLE_outside _ _ _ _ _ (by have := hb c hc; omega)
    · exact ih hrest hl ha _

/-! ### What the effect of a tile operation leaves alone -/

/-- From `s` to `t` at most memory with its history and pages, the accumulators and the registers of groups have changed. -/
def TileWrites (s t : State) : Prop :=
  t = { s with mem := t.mem, acc := t.acc, hist := t.hist, wcount := t.wcount, launches := t.launches, groups := t.groups }

/-- The same, and groups and accumulators stand too. -/
def MemWrites (s t : State) : Prop := t = { s with mem := t.mem, hist := t.hist, wcount := t.wcount, launches := t.launches }

theorem MemWrites.refl (s : State) : MemWrites s s := rfl

theorem MemWrites.trans {s t u : State} (h : MemWrites s t) (k : MemWrites t u) : MemWrites s u := by
  unfold MemWrites at *; rw [k, h]

theorem MemWrites.foldl {α : Type} {f : State → α → State} (h : ∀ s a, MemWrites s (f s a)) (l : List α) (s : State) : MemWrites s (l.foldl f s) :=
  List.foldlRecOn l f (MemWrites.refl s) fun _ ht a _ => ht.trans (h _ a)

theorem MemWrites.tile {s t : State} (h : MemWrites s t) : TileWrites s t := by
  unfold MemWrites at h; unfold TileWrites; rw [h]

theorem MemWrites.acc {s t : State} (h : MemWrites s t) : t.acc = s.acc := by rw [h]
theorem MemWrites.groups {s t : State} (h : MemWrites s t) : t.groups = s.groups := by rw [h]
theorem MemWrites.poison {s t : State} (h : MemWrites s t) : t.poison = s.poison := by rw [h]

theorem write_memWrites (s : State) (ctx : Option Nat) (a n x : Nat) (st : Stamp) : MemWrites s (s.write ctx a n x st) := rfl

section
variable {s : State} {k : Nat} {o : Op} {x : TileOp}

/-! ### Products and zeroes (R24, R25, R166) -/

/-- Row `i` of a tile after a pass, from the row before. -/
def mmaRow (get : TileGet) (sparse : Bool) (fa fb a b n i : Nat) (row : Lanes) : Lanes :=
  let bAt (kk j : Nat) : Nat := get (b + fmtSize fb * (32 * kk + j)) (fmtSize fb)
  if fa = 5 then
    (((List.range 32).map fun j => (List.range n).map fun kk => toInt true 8 (bAt kk j)).zip row).map fun c =>
      mmaIntElem ((List.range n).map (aInt get sparse a i)) c.1 c.2
  else
    (((List.range 32).map fun j => (List.range n).map fun kk => decodeF32 (fmtTy fb) (bAt kk j)).zip row).map fun c =>
      mmaElem (Nat.log2 n) ((List.range n).map (aElem get sparse fa a i)) c.1 c.2

theorem tileEffect_mma {sparse : Bool} {fa fb a b : Nat} (hx : x.what = .mma sparse fa fb a b) : tileEffect s k o x =
    rewriteRows (x.tile.getD 0) (mmaRow (tileGet s k o) sparse fa fb a b ((pairK sparse fa fb).getD 0)) (lanesOf x.mask) s := by
  unfold tileEffect rewriteRows
  rw [hx]
  simp only [mmaRow]
  by_cases hfa : fa = 5
  · simp only [if_pos hfa]
  · simp only [if_neg hfa]

theorem tileEffect_mzero (hx : x.what = .mzero) : tileEffect s k o x = rewriteRows (x.tile.getD 0) (fun _ _ => rowZero) (lanesOf x.mask) s := by
  unfold tileEffect rewriteRows
  rw [hx]

/-- A column of a pass (R24, R25). -/
theorem lane_mmaRow {get : TileGet} {sparse : Bool} {fa fb a b n i j : Nat} {row : Lanes} (hr : row.length = 32) (hj : j < 32) :
    (fa ≠ 5 → lane (mmaRow get sparse fa fb a b n i row) j = mmaElem (Nat.log2 n) ((List.range n).map (aElem get sparse fa a i))
      ((List.range n).map fun q => decodeF32 (fmtTy fb) (get (b + fmtSize fb * (32 * q + j)) (fmtSize fb))) (lane row j)) ∧
    (fa = 5 → lane (mmaRow get sparse fa fb a b n i row) j = mmaIntElem ((List.range n).map (aInt get sparse a i))
      ((List.range n).map fun q => toInt true 8 (get (b + fmtSize fb * (32 * q + j)) (fmtSize fb))) (lane row j)) := by
  unfold mmaRow
  constructor <;> intro hfa
  · simp only [if_neg hfa, lane_map_zip _ _ hr hj]
  · simp only [if_pos hfa, lane_map_zip _ _ hr hj]

/-! ### Drained rows (R169) -/

/-- What a column of `mepi` is made from: its number, its scale and bias, and the element of the tile. -/
abbrev MepiCol := (Nat × Nat × Nat) × Elem

/-- The element that a column of `mepi` leaves. -/
def mepiValue (get : TileGet) (s : State) (w : MepiL) (core base stride par : Nat) (pages : List (Nat × Nat)) (i : Nat) (c : MepiCol) : Nat :=
  let v := mepiElem w c.1.2.1 c.1.2.2 (if w.act = .clamp then get (par + 256) 4 else 0) (if w.act = .clamp then get (par + 260) 4 else 0) c.2
  let a := mepiLoc w core base stride pages i c.1.1
  if w.add then (if w.ty = .f32 then addF32 (s.read a 4) v else (s.read a 4 + v) % 2 ^ 32) else v

/-- The columns of `mepi` in one row. -/
def mepiCols (get : TileGet) (w : MepiL) (par : Nat) (row : Lanes) : List MepiCol :=
  ((List.range 32).map fun j => (j, if w.sb then get (par + 4 * j) 4 else 0, if w.sb then get (par + (128 + 4 * j)) 4 else 0)).zip row

/-- One column of `mepi` is stored. -/
def mepiStore (get : TileGet) (st : Stamp) (ctx : Nat) (w : MepiL) (core base stride par : Nat) (pages : List (Nat × Nat)) (i : Nat) (s : State) (c : MepiCol) :
    State :=
  let a := mepiLoc w core base stride pages i c.1.1
  s.write (some ctx) a w.ty.size (mepiValue get s w core base stride par pages i c)
    { st with rels := st.rels ++ if w.add then carried s (s.writersOf a w.ty.size) else [] }

/-- The rows of `mepi` are stored, lane by lane. -/
def mepiRows (get : TileGet) (st : Stamp) (ctx tile : Nat) (w : MepiL) (core base stride par : Nat) (pages : List (Nat × Nat)) (ls : List Nat) (s : State) :
    State :=
  ls.foldl (fun s i => (mepiCols get w par (tileRow s tile i)).foldl (mepiStore get st ctx w core base stride par pages i) s) s

theorem mepiRows_memWrites (get : TileGet) (st : Stamp) (ctx tile : Nat) (w : MepiL) (core base stride par : Nat) (pages : List (Nat × Nat)) (ls : List Nat)
    (s : State) : MemWrites s (mepiRows get st ctx tile w core base stride par pages ls s) :=
  .foldl (fun _ _ => .foldl (fun _ _ => write_memWrites _ _ _ _ _ _) _ _) _ _

theorem tileEffect_mepi {w : MepiL} {base stride par : Nat} {pages : List (Nat × Nat)} (haud : o.aud = none) (hp : s.poison = [])
    (hx : x.what = .mepi w base stride par pages) :
    tileEffect s k o x = mepiRows (tileGet s k o) (o.stamp s k) o.ctx (x.tile.getD 0) w o.core base stride par pages (lanesOf x.mask) s := by
  have hm := mepiRows_memWrites (tileGet s k o) (o.stamp s k) o.ctx (x.tile.getD 0) w o.core base stride par pages (lanesOf x.mask) s
  have he : tileEffect s k o x = if w.add then mepiRows (tileGet s k o) (o.stamp s k) o.ctx (x.tile.getD 0) w o.core base stride par pages (lanesOf x.mask) s else
      (mepiRows (tileGet s k o) (o.stamp s k) o.ctx (x.tile.getD 0) w o.core base stride par pages (lanesOf x.mask) s).unpoison
        ((mepiLocs x o.core).flatMap fun a => (List.range w.ty.size).map (a + ·)) := by
    unfold tileEffect
    rw [hx, haud]
    rfl
  rw [he, unpoison_of_nil (hm.poison.trans hp), ite_self]

/-- A column of a row is one of the 32 columns. -/
theorem lt_of_mem_mepiCols {get : TileGet} {w : MepiL} {par : Nat} {row : Lanes} {c : MepiCol} (h : c ∈ mepiCols get w par row) : c.1.1 < 32 := by
  obtain ⟨j, hj, hc⟩ := List.mem_map.1 (List.of_mem_zip h).1
  rw [← hc]
  exact List.mem_range.1 hj

/-- `mepi` writes nothing beside its element places. -/
theorem memRead_mepiRows {get : TileGet} {st : Stamp} {ctx tile : Nat} {w : MepiL} {core base stride par : Nat} {pages : List (Nat × Nat)}
    (hx : x.what = .mepi w base stride par pages) {y : Nat} (hy : ∀ l ∈ mepiLocs x core, y < l ∨ l + w.ty.size ≤ y) (s : State) :
    memRead (mepiRows get st ctx tile w core base stride par pages (lanesOf x.mask) s).mem y = memRead s.mem y := by
  refine memRead_foldl (fun s i hi => memRead_foldl (fun s c hc => ?_) s) s
  have hloc : mepiLoc w core base stride pages i c.1.1 ∈ mepiLocs x core := by
    unfold mepiLocs
    rw [hx]
    exact List.mem_flatMap.2 ⟨i, hi, List.mem_map.2 ⟨_, List.mem_range.2 (lt_of_mem_mepiCols hc), rfl⟩⟩
  exact memRead_writeLE_outside _ _ _ _ _ (hy _ hloc)

/-- Column `j` of the one row that a `mepi` to scratch stores. -/
theorem read_mepiRows_single {get : TileGet} {st : Stamp} {ctx tile : Nat} {w : MepiL} {core base stride par : Nat} {pages : List (Nat × Nat)} {i j : Nat}
    (hj : j < 32) (hg : w.glob = false) (ha : w.add = false) (hsb : w.sb = false) (hact : w.act ≠ .clamp) (hr : (tileRow s tile i).length = 32) :
    readLE (mepiRows get st ctx tile w core base stride par pages [i] s).mem (scrLoc core ((base + i * stride) % 2 ^ 32 + j * w.ty.size)) w.ty.size =
      mepiElem w 0 0 0 0 (lane (tileRow s tile i) j) % 256 ^ w.ty.size := by
  have hloc (q : Nat) : mepiLoc w core base stride pages i q = scrLoc core ((base + i * stride) % 2 ^ 32 + q * w.ty.size) := by
    simp only [mepiLoc, mepiRow, hg, Bool.false_eq_true, if_false]
  have hcols : mepiCols get w par (tileRow s tile i) = ((List.range 32).map fun q => (q, 0, 0)).zip (tileRow s tile i) := by
    simp only [mepiCols, hsb, Bool.false_eq_true, if_false]
  have hlen : (mepiCols get w par (tileRow s tile i)).length = 32 := by simp [hcols, hr]
  have hget (q : Nat) (hq : q < 32) : (mepiCols get w par (tileRow s tile i))[q]'(by omega) = ((q, 0, 0), lane (tileRow s tile i) q) := by
    have hq' : q < (tileRow s tile i).length := by omega
    simp only [hcols, List.getElem_zip, List.getElem_map, List.getElem_range, lane, List.getD_eq_getElem _ _ hq']
  have hd : (mepiCols get w par (tileRow s tile i)).Pairwise fun c d =>
      mepiLoc w core base stride pages i c.1.1 + w.ty.size ≤ mepiLoc w core base stride pages i d.1.1 ∨
      mepiLoc w core base stride pages i d.1.1 + w.ty.size ≤ mepiLoc w core base stride pages i c.1.1 := by
    refine List.pairwise_iff_getElem.2 fun p q hp hq hpq => .inl ?_
    rw [hget p (by omega), hget q (by omega), hloc, hloc, scrLoc, scrLoc]
    have := Nat.mul_le_mul_right w.ty.size (Nat.succ_le_of_lt hpq)
    rw [Nat.succ_mul] at this
    dsimp only
    omega
  have hv := readLE_foldl_writes (f := mepiStore get st ctx w core base stride par pages i) (loc := fun c => mepiLoc w core base stride pages i c.1.1)
    (v := fun c => mepiElem w c.1.2.1 c.1.2.2 0 0 c.2) (fun s c _ => by
      have he : mepiValue get s w core base stride par pages i c = mepiElem w c.1.2.1 c.1.2.2 0 0 c.2 := by
        simp only [mepiValue, ha, if_neg hact, Bool.false_eq_true, if_false]
      rw [← he]
      rfl) hd (List.getElem_mem (n := j) (by omega)) s
  rw [hget j hj, hloc] at hv
  exact hv

/-! ### Scores and merged lists (R26, R29, R173 to R175) -/

theorem tileEffect_vdist {ty : Ty} {l2 : Bool} {d q dim stride c g : Nat} (hg : o.grp = some g) (hx : x.what = .vdist ty l2 d q dim stride c) :
    tileEffect s k o x = s.modGrp g fun G => G.wvMask d x.mask fun i => distScore ty l2
      ((List.range dim).map fun e => tileGet s k o (scrLoc o.core q + ty.size * e) ty.size)
      ((List.range dim).map fun e => tileGet s k o (scrLoc o.core ((c + i * stride) % 2 ^ 32) + ty.size * e) ty.size) := by
  unfold tileEffect
  rw [hx]
  simp only [distWrite, hg, modGrp?]

theorem tileEffect_list {list n : Nat} {asc : Bool} {new : List (Elem × Elem)}
    (h : (∃ pairs, x.what = .topk list n asc pairs ∧ new = rankSort asc (listEntries (tileGet s k o) list n ++ pairs)) ∨
      (∃ src n2, x.what = .topkm list src n n2 asc ∧ new = rankSort asc (listEntries (tileGet s k o) list n ++ listEntries (tileGet s k o) src n2))) :
    tileEffect s k o x = putList s k o list n new := by
  unfold tileEffect
  rcases h with ⟨pairs, hx, rfl⟩ | ⟨src, n2, hx, rfl⟩ <;> rw [hx]

/-- The entries of a list are written. -/
def putEntries (st : Stamp) (ctx list : Nat) (l : List (Elem × Elem)) (s : State) : State :=
  ((List.range l.length).zip l).foldl (fun s e => s.write (some ctx) (list + 16 + 8 * e.1) 8 (e.2.1.toNat + 2 ^ 32 * e.2.2.toNat) st) s

theorem putList_eq (haud : o.aud = none) (list n : Nat) (l : List (Elem × Elem)) :
    putList s k o list n l = putEntries (o.stamp s k) o.ctx list (l.take n) (s.write (some o.ctx) (list + 4) 4 (l.take n).length (o.stamp s k)) := by
  unfold putList
  rw [haud]
  rfl

theorem putEntries_memWrites (st : Stamp) (ctx list : Nat) (l : List (Elem × Elem)) (s : State) : MemWrites s (putEntries st ctx list l s) :=
  .foldl (fun _ _ => write_memWrites _ _ _ _ _ _) _ _

theorem putList_memWrites (haud : o.aud = none) (list n : Nat) (l : List (Elem × Elem)) : MemWrites s (putList s k o list n l) := by
  rw [putList_eq haud]
  exact (write_memWrites _ _ _ _ _ _).trans (putEntries_memWrites _ _ _ _ _)

/-- Bytes beside the entries stay. -/
theorem memRead_putEntries (st : Stamp) (ctx list : Nat) (l : List (Elem × Elem)) (s : State) {y : Nat} (hy : y < list + 16 ∨ list + 16 + 8 * l.length ≤ y) :
    memRead (putEntries st ctx list l s).mem y = memRead s.mem y := by
  refine memRead_foldl (fun s e he => ?_) s
  have h := List.mem_range.1 (List.of_mem_zip he).1
  exact memRead_writeLE_outside _ _ _ _ _ (by omega)

theorem read_putEntries (st : Stamp) (ctx list : Nat) (l : List (Elem × Elem)) (s : State) {e : Nat} (he : e < l.length) :
    readLE (putEntries st ctx list l s).mem (list + 16 + 8 * e) 8 = l[e].1.toNat + 2 ^ 32 * l[e].2.toNat := by
  have hget (q : Nat) (hq : q < l.length) : ((List.range l.length).zip l)[q]'(by simpa using hq) = (q, l[q]) := by
    simp only [List.getElem_zip, List.getElem_range]
  have hlen : ((List.range l.length).zip l).length = l.length := by simp
  have hd : ((List.range l.length).zip l).Pairwise fun c d => list + 16 + 8 * c.1 + 8 ≤ list + 16 + 8 * d.1 ∨ list + 16 + 8 * d.1 + 8 ≤ list + 16 + 8 * c.1 := by
    refine List.pairwise_iff_getElem.2 fun p q hp hq hpq => .inl ?_
    rw [hget p (by omega), hget q (by omega)]
    omega
  have hv := readLE_foldl_writes (f := fun s e => s.write (some ctx) (list + 16 + 8 * e.1) 8 (e.2.1.toNat + 2 ^ 32 * e.2.2.toNat) st)
    (fun _ _ _ => rfl) hd (List.getElem_mem (n := e) (by omega)) s
  rw [hget e he] at hv
  rw [putEntries, hv]
  have h1 := l[e].1.isLt
  have h2 := l[e].2.isLt
  dsimp only
  omega

/-- What a list holds once it is written: the count, the entries, and all else as before (R174, R175). -/
theorem putList_spec (haud : o.aud = none) {list n : Nat} (hn : n < 2 ^ 32) (l : List (Elem × Elem)) :
    readLE (putList s k o list n l).mem (list + 4) 4 = min n l.length ∧
    (∀ e p, e < n → l[e]? = some p → readLE (putList s k o list n l).mem (list + 16 + 8 * e) 8 = p.1.toNat + 2 ^ 32 * p.2.toNat) ∧
    ∀ a, a < list + 4 ∨ list + 8 ≤ a ∧ a < list + 16 ∨ list + 16 + 8 * n ≤ a → memRead (putList s k o list n l).mem a = memRead s.mem a := by
  rw [putList_eq haud]
  have hlen : (l.take n).length = min n l.length := List.length_take
  refine ⟨?_, fun e p he hp => ?_, fun a ha => ?_⟩
  · rw [readLE_congr fun y _ _ => memRead_putEntries _ _ _ _ _ (by omega), State.write_mem, readLE_writeLE, hlen]
    omega
  · obtain ⟨hel, rfl⟩ := List.getElem?_eq_some_iff.1 hp
    rw [read_putEntries _ _ _ _ _ (by omega), List.getElem_take]
  · rw [memRead_putEntries _ _ _ _ _ (by omega), State.write_mem, memRead_writeLE_outside _ _ _ _ _ (by omega)]


/-! ### Every tile operation -/

/-- The three kinds of effect: rows of the tile are rewritten, memory is written, or lanes of a register of the group are. -/
theorem tileEffect_cases (haud : o.aud = none) (hp : s.poison = []) {g : Nat} (hg : o.grp = some g) :
    (∃ F, tileEffect s k o x = rewriteRows (x.tile.getD 0) F (lanesOf x.mask) s) ∨ MemWrites s (tileEffect s k o x) ∨
    ∃ d f, tileEffect s k o x = s.modGrp g fun G => G.wvMask d x.mask f := by
  cases hx : x.what with
  | mma sparse fa fb a b => exact .inl ⟨_, tileEffect_mma hx⟩
  | mzero => exact .inl ⟨_, tileEffect_mzero hx⟩
  | mepi w base stride par pages => exact .inr (.inl (by rw [tileEffect_mepi haud hp hx]; exact mepiRows_memWrites _ _ _ _ _ _ _ _ _ _ _ _))
  | vdist ty l2 d q dim stride c => exact .inr (.inr ⟨_, _, tileEffect_vdist hg hx⟩)
  | topk list n asc pairs => exact .inr (.inl (by rw [tileEffect_list (.inl ⟨_, hx, rfl⟩)]; exact putList_memWrites haud _ _ _))
  | topkm list src n n2 asc => exact .inr (.inl (by rw [tileEffect_list (.inr ⟨_, _, hx, rfl⟩)]; exact putList_memWrites haud _ _ _))

/-- The effect of a tile operation reaches memory, accumulators and the registers of its group alone. -/
theorem tileEffect_writes (haud : o.aud = none) (hp : s.poison = []) {g : Nat} (hg : o.grp = some g) : TileWrites s (tileEffect s k o x) := by
  rcases tileEffect_cases (k := k) (x := x) haud hp hg with ⟨F, he⟩ | hw | ⟨d, f, he⟩
  · rw [he, rewriteRows_acc]; rfl
  · exact hw.tile
  · rw [he]; rfl

/-- At most a vector register of the group has changed. -/
theorem tileEffect_group (haud : o.aud = none) (hp : s.poison = []) {g : Nat} {G : Group} (hg : o.grp = some g) (hG : mget s.groups g = some G) :
    ∃ v, mget (tileEffect s k o x).groups g = some { G with vreg := v } := by
  rcases tileEffect_cases (k := k) (x := x) haud hp hg with ⟨F, he⟩ | hw | ⟨d, f, he⟩
  · rw [he, rewriteRows_acc]; exact ⟨_, hG⟩
  · rw [hw.groups]; exact ⟨_, hG⟩
  · rw [he, State.modGrp, mget_mupd_same, hG, Option.map_some, wvMask_frame]
    exact ⟨_, rfl⟩

/-- Rows of inactive lanes stay (R160). -/
theorem tileRow_tileEffect_inactive (haud : o.aud = none) (hp : s.poison = []) {g : Nat} (hg : o.grp = some g) {i : Nat} (hi : x.mask.getLsbD i = false) :
    tileRow (tileEffect s k o x) (x.tile.getD 0) i = tileRow s (x.tile.getD 0) i := by
  rcases tileEffect_cases (k := k) (x := x) haud hp hg with ⟨F, he⟩ | hw | ⟨d, f, he⟩
  · rw [he, tileRow_rewriteRows (nodup_lanesOf _), if_neg (by simp [mem_lanesOf, hi])]
  · exact tileRow_of_acc hw.acc _ _
  · rw [he]; rfl

/-! ### Retiring (R37, R160, R163) -/

theorem tileReach_coh {u : State} (h : tileReach s o x = some u) : CohOnly s u := by
  unfold tileReach at h
  split at h
  · obtain ⟨s', hs, hc⟩ := CohOnly.foldl_bind (fun _ _ _ ht => reachBytes_coh ht) _ h
    cases hs
    exact hc
  · cases h
    exact .refl _

/-- Where nothing is poisoned no tile operation meets an error (R172). -/
theorem tilePoisoned_of_nil (hp : s.poison = []) (ha : s.accPoison = []) (hs : s.accSick = []) (core : Nat) : tilePoisoned s x core = false := by
  have hpoisoned : (x.tile.map s.accPoison.contains).getD false = false := by cases x.tile <;> simp [ha]
  have hsick : (x.tile.map s.accSick.contains).getD false = false := by cases x.tile <;> simp [hs]
  unfold tilePoisoned
  rw [hpoisoned, hsick, hp]
  cases x.what <;> simp

/-- A tile operation retires: its effect is there, tl falls and it is gone. -/
theorem tileOpRetire_of (ho : mget s.ops k = some o) (hb : o.body = .tile x) {g : Nat} (hg : o.grp = some g) (hl : live s o.deps = []) (hu : o.unit = none)
    (haud : o.aud = none) (hr : s.runUnits = []) (hp : s.poison = []) (ha : s.accPoison = []) (hs : s.accSick = []) {u : State} (hreach : tileReach s o x = some u) :
    ∃ past, exec (.tileOpRetire k) s = .next { tileEffect u k o x with
      groups := mupd (tileEffect u k o x).groups g fun G => G.fall false false false true, ops := mdel s.ops k, past := past } := by
  have hc := tileReach_coh hreach
  have hw : TileWrites u (tileEffect u k o x) := tileEffect_writes haud (by rw [hc]; exact hp) hg
  have hops : (tileEffect u k o x).ops = s.ops := by rw [hw, hc]
  have hruns : (tileEffect u k o x).runUnits = [] := by rw [hw, hc]; exact hr
  have hd := dropOp_of_unit_none (s := (tileEffect u k o x).modGrp g fun G => G.fall false false false true) (k := k) (o := o)
    (by rw [State.modGrp, hops]; exact ho) hu hruns
  refine ⟨pastOf ((tileEffect u k o x).modGrp g fun G => G.fall false false false true) k o |> mput (tileEffect u k o x).past k, ?_⟩
  change execTileOpRetire k s = _
  unfold execTileOpRetire
  rw [ho]
  dsimp only
  rw [hb]
  dsimp only
  rw [hl, tilePoisoned_of_nil hp ha hs, hreach, Bool.and_false, if_neg (by simp), if_neg (by simp), hg]
  dsimp only [modGrp?]
  rw [hd, ← hops]
  rfl

end

theorem tileOperationsRetire : TileOperationsRetire := by
  intro s k o x g G ho hb hg hG hl hu haud hr hp ha hs hreach tile get
  obtain ⟨u, hreach⟩ := Option.ne_none_iff_exists'.1 hreach
  have hc := tileReach_coh hreach
  have hget : tileGet u k o = get := funext fun _ => funext fun _ => congrArg Prod.fst (readOf_of_coh hc _ _ _)
  have hrow (i : Nat) : tileRow u tile i = tileRow s tile i := tileRow_of_acc (by rw [hc]) _ _
  have hpu : u.poison = [] := by rw [hc]; exact hp
  obtain ⟨past, he⟩ := tileOpRetire_of ho hb hg hl hu haud hr hp ha hs hreach
  obtain ⟨v, hv⟩ := tileEffect_group (s := u) (k := k) (o := o) (x := x) haud hpu hg (by rw [hc.groups]; exact hG)
  have hfall : mget (mupd (tileEffect u k o x).groups g fun G => G.fall false false false true) g =
      some (Group.fall { G with vreg := v } false false false true) := by rw [mget_mupd_same, hv, Option.map_some]
  refine ⟨fun loc n => readAt_mayRead _ _ _ _ _ _, _, he, by simp [mget_mdel], ⟨_, hfall, rfl, rfl⟩, fun i _ hi => ?_, fun hx => ?_,
    fun sparse fa fb a b n hx hn => ?_, fun w base stride par pages hx => ?_, fun ty l2 d q dim stride c hx => ?_, fun list n asc new hx hn => ?_⟩
  · exact (tileRow_tileEffect_inactive haud hpu hg hi).trans (hrow i)
  · rw [tileEffect_mzero hx, ← hc.mem]
    refine ⟨by rw [rewriteRows_acc], fun i _ hi => ?_⟩
    exact (tileRow_rewriteRows (nodup_lanesOf _) _ _ _ _).trans (if_pos (mem_lanesOf.2 hi))
  · have hE := tileEffect_mma (s := u) (k := k) (o := o) hx
    rw [hget, hn, Option.getD_some] at hE
    have hmem : (tileEffect u k o x).mem = s.mem := by rw [hE, rewriteRows_acc]; exact hc.mem
    refine ⟨hmem, fun i j _ hj hi hlen => ?_⟩
    have hrowE : tileRow (tileEffect u k o x) tile i = mmaRow get sparse fa fb a b n i (tileRow s tile i) := by
      rw [hE, tileRow_rewriteRows (nodup_lanesOf _), if_pos (mem_lanesOf.2 hi), hrow]
    have hl := lane_mmaRow (get := get) (sparse := sparse) (fa := fa) (fb := fb) (a := a) (b := b) (n := n) (i := i) hlen hj
    rw [← hrowE] at hl
    exact hl
  · have hE := tileEffect_mepi (k := k) haud hpu hx
    refine ⟨fun y hy => ?_, fun i j hi hj hm hglob hadd hsb hact hlen => ?_⟩
    · have h := memRead_mepiRows (get := tileGet u k o) (st := o.stamp u k) (ctx := o.ctx) (tile := tile) hx hy u
      rw [← hE, hc.mem] at h
      exact h
    · have h := read_mepiRows_single (s := u) (get := tileGet u k o) (st := o.stamp u k) (ctx := o.ctx) (tile := tile) (core := o.core) (base := base)
        (stride := stride) (par := par) (pages := pages) hj hglob hadd hsb hact (by rw [hrow]; exact hlen)
      rw [hm, lanesOf_shift_one hi] at hE
      rw [← hE, hrow] at h
      exact h
  · have hE := tileEffect_vdist (s := u) (k := k) hg hx
    rw [hget] at hE
    have hmem : (tileEffect u k o x).mem = s.mem := by rw [hE]; exact hc.mem
    have hgrp : mget (tileEffect u k o x).groups g = some (G.wvMask d x.mask fun i => distScore ty l2
        ((List.range dim).map fun e => get (scrLoc o.core q + ty.size * e) ty.size)
        ((List.range dim).map fun e => get (scrLoc o.core ((c + i * stride) % 2 ^ 32) + ty.size * e) ty.size)) := by
      rw [hE, State.modGrp, mget_mupd_same, hc.groups, hG, Option.map_some]
    refine ⟨hmem, _, (mget_mupd_same _ _ _).trans (congrArg _ hgrp), fun i _ hi hlt => ?_⟩
    exact lane_wvMask_same (G := G) _ hi hlt
  · rw [← hget] at hx
    have hE := tileEffect_list hx
    obtain ⟨hcount, hentry, hout⟩ := putList_spec (s := u) (k := k) haud hn new (list := list)
    rw [← hE] at hcount hentry hout
    exact ⟨hcount, hentry, fun a ha => (hout a ha).trans (by rw [hc.mem])⟩

/-- Settles O28: each kind of tile operation has its effect in closed form, and insertion in the strict order of R29 keeps a list ranked. -/
theorem tileOperations : Obligations.TileOperations := ⟨tileOperationsRetire, rankedListsSorted⟩

end Sys2Proof.Proofs
end

section
/-!
PROOFS. Errors, tests and audits (R172, R309, R327, R380 to R384).
-/

namespace Sys2Proof.Proofs
open Sys2Proof Sys2Proof.Machine Sys2Proof.Claims

/-! ### What a pre-emption reaches (R343 to R346) -/

/-- One group leaves a flushed block: its tile goes back, and what it holds of package phasers stays with the block (R346). -/
def flushGroup (b : Nat) (s : State) (g : Nat) : State :=
  match mget s.groups g, mget s.blocks b with
  | some G, some B =>
    let packs := G.memb.filter fun (k, _) => decide (64 ≤ k)
    let s : State := packs.foldl (fun s (k, m) => if m.drain && m.hold > 0 then rootAdd s B.launch (k - 64) m.ag m.hold else s) s
    let s : State := match G.tile with
      | some (t, a) =>
        let s : State := match a with
          | some k => { s with audits := mdel s.audits k }
          | none => s
        s.modLaunch B.launch fun L => { L with returns := L.returns ++ [t] }
      | none => s
    let held := (((mget s.groups g).map (·.memb)).getD []).filter fun (k, _) => decide (64 ≤ k)
    (s.modBlk b fun B => { B with held := B.held ++ held.map fun (k, m) => (G.idx, k, { m with hold := 0 }) })
  | _, _ => s

/-- A flush ends the groups' requests, takes them away one by one, and the block waits (R346). -/
theorem flushBlock_eq (s : State) (b : Nat) : flushBlock s b =
    let gs := (groupsOf s b).map (·.1)
    let s := gs.foldl (flushGroup b) (gs.foldl (fun s g => unrequest (interruptFe s g) g) s)
    let s : State := { s with groups := s.groups.filter fun (_, G) => G.blk != b }
    let s := dropWaiters ((s.tags.filter fun (_, t) => t.blk == b).foldl (fun s (w, _) => dropTag s w) s) (· == .fixed b)
    settleRuns (dropIdleLoads (s.modBlk b fun B => { B with st := .waiting, phasers := [], fixed := [], progress := none, pre := none, save := [], brec := none, home := none })) :=
  rfl

theorem flushGroup_quiet (b : Nat) (s : State) (g : Nat) : Quiet s (flushGroup b s g) := by
  unfold flushGroup
  split
  · rename_i G B _ _
    extract_lets packs u v held
    have hu : Quiet s u := by
      refine Quiet.foldl (fun s p => ?_) _ _
      dsimp only
      split
      · exact rootAdd_quiet _ _ _ _ _ _
      · exact .refl s
    have hv : Quiet u v := by
      unfold v
      split
      · split
        · exact ⟨rfl, id⟩
        · exact modLaunch_quiet _ _ _
      · exact .refl u
    exact (hu.trans hv).trans (modBlk_quiet _ _ _)
  · exact .refl s

theorem groupsFiltered_quiet (s : State) (f : Nat × Group → Bool) : Quiet s { s with groups := s.groups.filter f } := ⟨rfl, rising_filter f⟩

theorem flushBlock_quiet (s : State) (b : Nat) : Quiet s (flushBlock s b) := by
  rw [flushBlock_eq]
  extract_lets gs s1 s2 s3
  have h1 : Quiet s s1 :=
    (Quiet.foldl (fun _ _ => (interruptFe_quiet _ _).trans (unrequest_quiet _ _)) _ _).trans (Quiet.foldl (flushGroup_quiet b) _ _)
  have h3 : Quiet s2 s3 := (Quiet.foldl (fun _ (p : Nat × Tag) => dropTag_quiet _ p.1) _ _).trans (dropWaiters_quiet _ _)
  exact ((h1.trans (groupsFiltered_quiet _ _)).trans h3).trans (((modBlk_quiet _ _ _).trans (dropIdleLoads_quiet _)).trans (settleRuns_quiet _))

theorem startSave_quiet (s : State) (b : Nat) (who : Requester) : Quiet s (startSave s b who) :=
  (Quiet.foldl (fun _ (p : Nat × Group) => (interruptFe_quiet _ p.1).trans (modGrp_quiet _ _ _)) _ s).trans (modBlk_quiet _ _ _)

theorem cancelStart_quiet (s : State) (b : Nat) : Quiet s (cancelStart s b) := by
  unfold cancelStart
  split
  · split
    · exact .refl s
    · exact (groupsFiltered_quiet s _).trans (((dropWaiters_quiet _ _).trans (modBlk_quiet _ _ _)).trans (dropIdleLoads_quiet _))
  · exact .refl s

/-- Which cores wait for their test, are tested or are fenced, and the in-field tests, are as they were. -/
structure ServiceKept (s t : State) : Prop where
  testing : t.testing = s.testing
  suspects : t.suspects = s.suspects
  fieldTests : t.fieldTests = s.fieldTests
  lastTest : t.lastTest = s.lastTest
  fencedCores : t.fencedCores = s.fencedCores

theorem ServiceKept.refl (s : State) : ServiceKept s s := ⟨rfl, rfl, rfl, rfl, rfl⟩

theorem ServiceKept.trans {s t u : State} (h : ServiceKept s t) (k : ServiceKept t u) : ServiceKept s u :=
  ⟨k.1.trans h.1, k.2.trans h.2, k.3.trans h.3, k.4.trans h.4, k.5.trans h.5⟩

theorem ServiceKept.foldl {α : Type} {f : State → α → State} (h : ∀ s a, ServiceKept s (f s a)) (l : List α) (s : State) : ServiceKept s (l.foldl f s) :=
  List.foldlRecOn l f (ServiceKept.refl s) fun _ ht a _ => ht.trans (h _ a)

theorem ServiceKept.quiet {s t : State} (h : Quiet s t) : ServiceKept s t := by
  rw [h.eq]; exact ⟨rfl, rfl, rfl, rfl, rfl⟩

theorem flushReplay_service (s : State) (b a : Nat) : ServiceKept s (flushReplay s b a) := by
  unfold flushReplay
  extract_lets t
  refine (ServiceKept.quiet (flushBlock_quiet s b)).trans ?_
  split <;> exact ⟨rfl, rfl, rfl, rfl, rfl⟩

theorem preempt_service (s : State) (b : Nat) (B : Block) (L : Launch) (who : Requester) (drain : Bool) : ServiceKept s (preempt s b B L who drain) := by
  unfold preempt
  extract_lets wait
  have hw (t : Option Nat) : ServiceKept s (wait t) := .quiet (modBlk_quiet _ _ _)
  split
  · exact hw _
  · split
    · split
      · exact flushReplay_service _ _ _
      · exact .quiet (flushBlock_quiet _ _)
    · split
      · exact .quiet (startSave_quiet _ _ _)
      · split
        · exact .quiet (Quiet.foldl (fun _ (p : Nat × Group) => fatalKill_quiet _ _ p.1) _ _)
        · exact hw _

theorem unload_service (s : State) (b : Nat) (B : Block) : ServiceKept s (unload s b B) := by
  unfold unload
  refine (ServiceKept.quiet (cancelStart_quiet s b)).trans ?_
  extract_lets t
  split <;> exact ⟨rfl, rfl, rfl, rfl, rfl⟩

theorem preemptBlock_service (s : State) (b : Nat) (who : Requester) : ServiceKept s (preemptBlock s b who) := by
  unfold preemptBlock
  split
  · exact .refl s
  · split
    · exact .refl s
    · split
      · exact unload_service _ _ _
      · split
        · exact .refl s
        · split
          · exact .quiet (modBlk_quiet _ _ _)
          · exact preempt_service _ _ _ _ _ _

theorem preemptCores_service (s : State) (cores : List Nat) (who : Requester) : ServiceKept s (preemptCores s cores who) :=
  .foldl (fun _ _ => preemptBlock_service _ _ _) _ _

/-! ### What fencing a core reaches (R364, R383) -/

theorem rangeSwitch_service (s : State) (die ctx : Nat) : ServiceKept s (rangeSwitch s die ctx) := by
  unfold rangeSwitch
  extract_lets mine
  split
  · extract_lets ops u v
    split <;> exact ⟨rfl, rfl, rfl, rfl, rfl⟩
  · exact .refl s

theorem leaveHitched_service (s : State) (d : Nat) : ServiceKept s (leaveHitched s d) := by
  unfold leaveHitched
  refine ServiceKept.foldl (fun t p => ?_) s.pkts s
  dsimp only
  split
  · split
    · exact rangeSwitch_service _ _ _
    · exact .refl _
  · exact .refl _

theorem dropDie_service (s : State) (d : Nat) : ServiceKept s (dropDie s d) := ⟨rfl, rfl, rfl, rfl, rfl⟩

theorem fenceDie_service (s : State) (d : Nat) : ServiceKept s (fenceDie s d) := by
  unfold fenceDie
  extract_lets lost t
  have h : ServiceKept s (s.modDie d fun D => { D with st := .fenced }) := ⟨rfl, rfl, rfl, rfl, rfl⟩
  have ht : ServiceKept s t := (h.trans (leaveHitched_service _ d)).trans (dropDie_service _ d)
  exact ht.trans ⟨rfl, rfl, rfl, rfl, rfl⟩

/-- A fenced core is one of the fenced cores, and no test changes. -/
theorem fenceCore_service (s : State) (core : Nat) : ServiceKept { s with fencedCores := insNat s.fencedCores core } (fenceCore s core) := by
  unfold fenceCore
  extract_lets t d
  split
  · exact fenceDie_service _ _
  · exact .refl _

/-- Cores fenced one after the other: tests stay, the fenced ones stay fenced, and each of them is. -/
theorem foldl_fenceCore (cores : List Nat) (s : State) :
    (cores.foldl fenceCore s).testing = s.testing ∧ (cores.foldl fenceCore s).fieldTests = s.fieldTests ∧ (cores.foldl fenceCore s).lastTest = s.lastTest ∧
      ∀ c, c ∈ (cores.foldl fenceCore s).fencedCores ↔ c ∈ s.fencedCores ∨ c ∈ cores := by
  induction cores generalizing s with
  | nil => simp
  | cons d cores ih =>
    have h := fenceCore_service s d
    obtain ⟨htest, hfield, hlast, hfenced⟩ := ih (fenceCore s d)
    refine ⟨htest.trans h.testing, hfield.trans h.fieldTests, hlast.trans h.lastTest, fun c => (hfenced c).trans ?_⟩
    rw [h.fencedCores, mem_insNat, List.mem_cons]
    tauto

/-! ### Error records (R382) -/

/-- An error is logged: the record, a copy for the interface of the context, and nothing else changes. -/
theorem logErr_eq (s : State) (kind unit : Nat) (wh : BitVec 16) (ctx : Option Nat) (addr : Nat) (launch : Option Nat) :
    ∃ r, logErr s kind unit wh ctx addr launch = { s with modl := { s.modl with
      errs := s.modl.errs ++ [r], viferrs := s.modl.viferrs ++ (ctx.map fun c => (c / 64, r)).toList, errpend := true } } ∧
      r.kind = kind ∧ r.addr = addr := by
  cases ctx <;> exact ⟨_, rfl, rfl, rfl⟩

/-- The error of a core makes it suspect (R383). -/
theorem coreErr_eq (s : State) (kind unit core : Nat) (ctx : Option Nat) (addr : Nat) (launch : Option Nat) :
    ∃ r, coreErr s kind unit core ctx addr launch = { s with suspects := insNat s.suspects core, modl := { s.modl with
      errs := s.modl.errs ++ [r], viferrs := s.modl.viferrs ++ (ctx.map fun c => (c / 64, r)).toList, errpend := true } } ∧ r.kind = kind := by
  cases ctx <;> exact ⟨_, rfl, rfl⟩

theorem tileError_found {s : State} {g n : Nat} {G : Group} (unit : ErrUnit) (hG : mget s.groups g = some G) (hh : G.st.here = true)
    (hn : n < ((s.launch? G).map (·.desc.acctiles)).getD 0) (hp : tileKey s G n ∉ s.accPoison) :
    exec (.uncorrectableError (.tile g n) unit) s = .next { s with accSick := insNat s.accSick (tileKey s G n) } := by
  change execUncorrectableError (.tile g n) unit s = _
  simp [execUncorrectableError, hG, hh, hn, hp]

theorem correctedError_logged (s : State) (unit : ErrUnit) (loc : BitVec 16) (addr : Nat) (ctx : Option Nat) :
    let r : ErrRec := { time := s.now, kind := 0, unit := ErrUnit.num unit, where_ := loc, ctx := BitVec.ofNat 16 (ctx.getD 0xFFFF), addr := addr, launch := 0 }
    exec (.correctedError unit loc ⟨addr, ctx⟩) s = .next { s with modl := { s.modl with
      errpend := true, errs := s.modl.errs ++ [r], viferrs := s.modl.viferrs ++ (ctx.map fun c => (c / 64, r)).toList } } := by
  cases ctx <;> rfl

/-- A poisoned line is logged, and stays in memory. -/
theorem lineError_logged (s : State) (unit : ErrUnit) (pa : Nat) (ctx : Option Nat) : ∃ t r, exec (.uncorrectableError (.line pa ctx) unit) s = .next t ∧
    t.modl.viferrs = s.modl.viferrs ++ (ctx.map fun c => (c / 64, r)).toList ∧ pa / 64 ∈ t.poison ∧ t.modl.errs = s.modl.errs ++ [r] ∧ r.kind = 2 ∧ r.addr = pa ∧
    t.modl.errpend = true ∧ t.mem = s.mem ∧ t.groups = s.groups := by
  obtain ⟨r, he, hk, ha⟩ := logErr_eq { s with poison := insNat s.poison (pa / 64) } 2 (ErrUnit.num unit) 0 ctx pa none
  have hx : exec (.uncorrectableError (.line pa ctx) unit) s = .next (logErr { s with poison := insNat s.poison (pa / 64) } 2 (ErrUnit.num unit) 0 ctx pa none) := rfl
  rw [he] at hx
  exact ⟨_, r, hx, rfl, mem_insNat.2 (.inl rfl), rfl, hk, ha, rfl, rfl, rfl⟩

theorem mem_foldl_insNat {l m : List Nat} {j : Nat} : j ∈ l.foldl insNat m ↔ j ∈ m ∨ j ∈ l := mem_sunion (a := m) (b := l)

theorem mem_coresOf {die c : Nat} (h : c / 16 = die) : c ∈ coresOf die := by
  refine List.mem_map.2 ⟨c % 16, List.mem_range.2 (Nat.mod_lt _ (by decide)), ?_⟩
  change 16 * die + c % 16 = c
  omega

/-- A link's error makes every core of its die suspect. -/
theorem linkError_logged (s : State) (unit : ErrUnit) (die : Nat) : ∃ t r, exec (.uncorrectableError (.link die) unit) s = .next t ∧
    t.modl.errs = s.modl.errs ++ [r] ∧ r.kind = 4 ∧ t.mem = s.mem ∧ t.groups = s.groups ∧ ∀ c, c / 16 = die → c ∈ t.suspects := by
  obtain ⟨r, he, hk, -⟩ := logErr_eq s 4 (ErrUnit.num unit) (BitVec.ofNat 16 (256 * die)) none 0 none
  refine ⟨{ logErr s 4 (ErrUnit.num unit) (BitVec.ofNat 16 (256 * die)) none 0 none with suspects := (coresOf die).foldl insNat s.suspects }, r, rfl, ?_, hk, rfl, rfl,
    fun c hc => ?_⟩
  · rw [he]
  · dsimp only
    exact mem_foldl_insNat.2 (.inr (mem_coresOf hc))

/-! ### Tests (R383, R384) -/

theorem coresEmpty_iff {s : State} {cores : List Nat} : coresEmpty s cores = true ↔ ∀ c ∈ cores, CoreEmpty s c := by
  simp [coresEmpty, CoreEmpty]

theorem mem_coresOfCluster {cl c : Nat} : c ∈ coresOfCluster cl ↔ ∃ i < 4, c = 4 * cl + i := by
  simp [coresOfCluster, eq_comm]

/-- A suspect core goes into test. -/
theorem selfTest_suspect {s : State} {core : Nat} (hs : core ∈ s.suspects) (ht : core ∉ s.testing) :
    ∃ t, exec (.selfTest core) s = .next t ∧ core ∈ t.testing ∧ core ∉ t.suspects := by
  have h := preemptCores_service { s with testing := insNat s.testing core, suspects := s.suspects.filter (· != core) } [core] .selfTest
  refine ⟨_, if_neg (by simp [hs, ht]), ?_, ?_⟩
  · rw [h.testing]; exact mem_insNat.2 (.inl rfl)
  · rw [h.suspects]; simp

theorem selfTest_other {s : State} {core : Nat} (hs : core ∉ s.suspects) : exec (.selfTest core) s = .next s := if_pos (by simp [hs])

theorem selfTestResult_empty {s : State} {core : Nat} {pass : Bool} (ht : core ∈ s.testing) (hf : core / 4 ∉ s.fieldTests) (he : CoreEmpty s core) :
    ∃ t, exec (.selfTestResult core pass) s = .next t ∧ core ∉ t.testing ∧ (pass = true → t.fencedCores = s.fencedCores) ∧
      (pass = false → core ∈ t.fencedCores) := by
  have hce : coresEmpty s [core] = true := coresEmpty_iff.2 (by simpa using he)
  change ∃ t, execSelfTestResult core pass s = .next t ∧ _
  unfold execSelfTestResult
  extract_lets u
  have hu : core ∉ u.testing := by simp [u]
  have h := fenceCore_service u core
  refine ⟨if pass then u else fenceCore u core, if_neg (by simp [ht, hf, hce, clusterOf]), ?_⟩
  cases pass with
  | true => exact ⟨hu, fun _ => rfl, nofun⟩
  | false =>
    refine ⟨?_, nofun, fun _ => ?_⟩
    · change core ∉ (fenceCore u core).testing
      rwa [h.testing]
    · change core ∈ (fenceCore u core).fencedCores
      rw [h.fencedCores]
      exact mem_insNat.2 (.inl rfl)

theorem selfTestResult_held {s : State} {core : Nat} {pass : Bool} (he : ¬ CoreEmpty s core) : exec (.selfTestResult core pass) s = .next s := by
  have hce : coresEmpty s [core] = false := Bool.eq_false_iff.2 fun h => he (coresEmpty_iff.1 h core (by simp))
  exact if_pos (by simp [hce])

section
variable {s : State} {cl n : Nat}

theorem inFieldTest_early (hn : mget s.testEvery cl = some n) (h : s.now < (mget s.lastTest cl).getD 0 + n) : exec (.inFieldTest cl) s = .next s := by
  change execInFieldTest cl s = _
  unfold execInFieldTest
  extract_lets cores due t
  have hdue : due = false := by simp [due, hn, h]
  rw [hdue]
  rfl

/-- A test that has fallen due takes the cores of the cluster that are not fenced. -/
theorem inFieldTest_due (hcl : cl < 32) (hn : mget s.testEvery cl = some n) (h : (mget s.lastTest cl).getD 0 + n ≤ s.now) (hd : (s.die (cl / 4)).st = .hitched)
    (hsome : ∃ i < 4, 4 * cl + i ∉ s.fencedCores) (hfree : ∀ i < 4, 4 * cl + i ∉ s.fencedCores → 4 * cl + i ∉ s.testing ∧ 4 * cl + i ∉ s.suspects) :
    ∃ t, exec (.inFieldTest cl) s = .next t ∧ cl ∈ t.fieldTests ∧ ∀ i < 4, 4 * cl + i ∉ s.fencedCores → 4 * cl + i ∈ t.testing := by
  change ∃ t, execInFieldTest cl s = .next t ∧ _
  unfold execInFieldTest
  extract_lets cores due t
  have hmem (c : Nat) : c ∈ cores ↔ (∃ i < 4, c = 4 * cl + i) ∧ c ∉ s.fencedCores := by
    simp [cores, mem_coresOfCluster]
  have hdue : due = true := by simp [due, hn, h]
  have hne : cores.isEmpty = false := by
    obtain ⟨i, hi, hif⟩ := hsome
    exact List.isEmpty_eq_false_iff_exists_mem.2 ⟨_, (hmem _).2 ⟨⟨i, hi, rfl⟩, hif⟩⟩
  have hany (c : Nat) (hc : c ∈ cores) : c ∉ s.testing ∧ c ∉ s.suspects := by
    obtain ⟨⟨i, hi, rfl⟩, hif⟩ := (hmem c).1 hc
    exact hfree i hi hif
  have hnum : decide (cl ≥ Config.numClusters) = false := decide_eq_false (Nat.not_le.2 hcl)
  have hs := preemptCores_service t cores .inField
  refine ⟨preemptCores t cores .inField, if_neg (by simpa [hdue, hne, hnum, hd] using hany), ?_, fun i hi hif => ?_⟩
  · rw [hs.fieldTests]; exact mem_insNat.2 (.inl rfl)
  · rw [hs.testing]; exact mem_foldl_insNat.2 (.inr ((hmem _).2 ⟨⟨i, hi, rfl⟩, hif⟩))

theorem inFieldTestEnd_empty {pass : Bool} (hf : cl ∈ s.fieldTests) (he : ∀ i < 4, CoreEmpty s (4 * cl + i)) :
    ∃ t, exec (.inFieldTestEnd cl pass) s = .next t ∧ cl ∉ t.fieldTests ∧ mget t.lastTest cl = some s.now ∧
      ∀ i < 4, 4 * cl + i ∉ t.testing ∧ (pass = false → 4 * cl + i ∈ t.fencedCores) := by
  have hce : coresEmpty s (coresOfCluster cl) = true := by
    refine coresEmpty_iff.2 fun c hc => ?_
    obtain ⟨i, hi, rfl⟩ := mem_coresOfCluster.1 hc
    exact he i hi
  have hmem {i : Nat} (hi : i < 4) : 4 * cl + i ∈ coresOfCluster cl := mem_coresOfCluster.2 ⟨i, hi, rfl⟩
  change ∃ t, execInFieldTestEnd cl pass s = .next t ∧ _
  unfold execInFieldTestEnd
  extract_lets cores u
  obtain ⟨htest, hfield, hlast, hfenced⟩ := foldl_fenceCore cores u
  refine ⟨if pass then u else cores.foldl fenceCore u, if_neg (by simp [hf, hce, cores]), ?_⟩
  have hu : cl ∉ u.fieldTests ∧ mget u.lastTest cl = some s.now ∧ ∀ i < 4, 4 * cl + i ∉ u.testing :=
    ⟨by simp [u], mget_mput_same _ _ _, fun i hi => by simp [u, cores, hmem hi]⟩
  obtain ⟨hu1, hu2, hu3⟩ := hu
  cases pass with
  | true => exact ⟨hu1, hu2, fun i hi => ⟨hu3 i hi, nofun⟩⟩
  | false =>
    refine ⟨?_, ?_, fun i hi => ⟨?_, fun _ => (hfenced _).2 (.inr (hmem hi))⟩⟩
    · change cl ∉ (cores.foldl fenceCore u).fieldTests
      rwa [hfield]
    · change mget (cores.foldl fenceCore u).lastTest cl = _
      rwa [hlast]
    · change _ ∉ (cores.foldl fenceCore u).testing
      rw [htest]
      exact hu3 i hi

theorem inFieldTestEnd_held {pass : Bool} (he : ∃ i < 4, ¬ CoreEmpty s (4 * cl + i)) : exec (.inFieldTestEnd cl pass) s = .next s := by
  obtain ⟨i, hi, he⟩ := he
  have hce : coresEmpty s (coresOfCluster cl) = false :=
    Bool.eq_false_iff.2 fun h => he (coresEmpty_iff.1 h _ (mem_coresOfCluster.2 ⟨i, hi, rfl⟩))
  exact if_pos (by simp [hce])

end

/-! ### Audits (R380, R381) -/

/-- The group that replays a tile starts with the original s1 to s6. -/
theorem rs_replayGroup (b a : Nat) (A : Audit) (L : Launch) (core : Nat) (s : State) (k i : Nat) :
    let G := replayGroup b a A L core s k i
    G.rs 1 = L.desc.args ∧ G.rs 2 = BitVec.ofNat 64 A.lin ∧ G.rs 3 = BitVec.ofNat 64 L.blockcnt ∧ G.rs 4 = BitVec.ofNat 64 A.idx ∧
      G.rs 5 = BitVec.ofNat 64 L.desc.groups ∧ G.rs 6 = BitVec.ofNat 64 A.off := by
  have hrs (r : SReg) (hr : r ≠ 0) : (replayGroup b a A L core s k i).rs r = (mget (replayGroup b a A L core s k i).sreg r.toNat).getD 0 := if_neg hr
  refine ⟨?_, ?_, ?_, ?_, ?_, ?_⟩
  all_goals
    rw [hrs _ (by decide)]
    simp [replayGroup, Group.start, startRegs, getD_mset]

theorem foldl_placeGroup_audits (mk : State → Nat → Nat → Machine.Group) (s : State) (n : Nat) : ((List.range n).foldl (placeGroup mk) s).audits = s.audits := by
  obtain ⟨G, hG, -⟩ := placeGroup_foldl mk s n
  rw [hG]

theorem forget_foldl_audits (cores : List Nat) (off n : Nat) (s : State) : (cores.foldl (fun s c => s.forget (scrLoc c off) n) s).audits = s.audits :=
  List.foldlRecOn (motive := fun t : State => t.audits = s.audits) cores _ rfl fun _ ht _ _ => ht

/-- A block that takes its place leaves the audits. -/
theorem startBlock_audits (s : State) (b : Nat) (B : Block) (L : Launch) (core off compOv : Nat) (mk : State → Nat → Nat → Machine.Group) :
    (startBlock s b B L core off compOv mk).audits = s.audits := by
  unfold startBlock
  extract_lets cores mine tiles s0 s1 s2 loads s3 s4
  have hload : LoadsOnly s2 loads.1 := by
    refine LoadsOnly.foldl_fst (fun x c => LoadsOnly.foldl_fst (fun y ov => ?_) _ _) cores (s2, [])
    dsimp only
    split
    · exact loadFixed_loadsOnly _ _ _ _ _
    · exact .refl _
  have h4 : s4.audits = s3.audits := foldl_placeGroup_audits mk s3 _
  have h3 : s3.audits = loads.1.audits := rfl
  have h2 : loads.1.audits = s2.audits := by rw [hload]
  have h1 : s2.audits = s0.audits := rfl
  exact h4.trans (h3.trans (h2.trans (h1.trans (forget_foldl_audits _ _ _ _))))

/-- The audit of a chosen tile that waits for its replay is found. -/
theorem find_audit {s : State} {l tile a : Nat} {A : Audit} (ha : mget s.audits a = some A)
    (hu : ∀ p ∈ s.audits, p.2.launch = l → p.2.tile = tile → p = (a, A)) (hl : A.launch = l) (ht : A.tile = tile) (hd : A.done = true) (hb : A.barred = false)
    (hs : A.started = false) : (s.audits.find? fun (_, A) => A.launch == l && A.tile == tile && A.done && !A.barred && !A.started) = some (a, A) := by
  cases hf : s.audits.find? fun (_, A) => A.launch == l && A.tile == tile && A.done && !A.barred && !A.started with
  | none => exact absurd (List.find?_eq_none.1 hf _ (mem_of_mget ha)) (by simp [hl, ht, hd, hb, hs])
  | some p =>
    have hp := List.find?_some hf
    simp only [Bool.and_eq_true, beq_iff_eq] at hp
    obtain ⟨⟨⟨⟨hpl, hpt⟩, -⟩, -⟩, -⟩ := hp
    rw [hu p (List.mem_of_find?_eq_some hf) hpl hpt]

/-- The replay of a tile starts as its only group on a core of another die. -/
theorem audit_starts {s : State} {l tile core a : Nat} {A : Audit} {L : Launch} (ha : mget s.audits a = some A)
    (hu : ∀ p ∈ s.audits, p.2.launch = l → p.2.tile = tile → p = (a, A)) (hl : A.launch = l) (ht : A.tile = tile) (hL : mget s.launches l = some L)
    (hd : A.done = true) (hb : A.barred = false) (hs : A.started = false) (hcore : auditCore s A L core = true)
    (hroom : coreRoom s L { Block.empty l A.lin core false with audit := some a } core core = true)
    (hscr : scrFree s core A.off L.desc.scratch = true) (hq : tilesQuiet s s.nextId [core] = true) :
    ∃ t A' g G, exec (.audit l tile core) s = .next t ∧ mget t.audits a = some A' ∧ A'.started = true ∧ A'.rcore = core ∧ mget t.groups g = some G ∧
      G.audit = some a ∧ G.blk = s.nextId ∧ G.core = core ∧ G.ov = L.desc.rootov ∧ G.pc = L.desc.rootent ∧ G.rs 1 = L.desc.args ∧ G.rs 2 = BitVec.ofNat 64 A.lin ∧
      G.rs 3 = BitVec.ofNat 64 L.blockcnt ∧ G.rs 4 = BitVec.ofNat 64 A.idx ∧ G.rs 5 = BitVec.ofNat 64 L.desc.groups ∧ G.rs 6 = BitVec.ofNat 64 A.off := by
  let B : Block := { Block.empty l A.lin core false with audit := some a }
  let s' : State := { s with nextId := s.nextId + 1, blocks := mput s.blocks s.nextId B, audits := mput s.audits a { A with started := true, rcore := core } }
  have hx : exec (.audit l tile core) s = .next (startBlock s' s.nextId B L core A.off 0 (replayGroup s.nextId a A L core)) := by
    change execAudit l tile core s = _
    unfold execAudit
    rw [find_audit ha hu hl ht hd hb hs, hL]
    exact if_neg (by simp [hcore, hroom, hscr, hq])
  obtain ⟨t, ht, -, -, -, -, hgroups⟩ := startBlock_leaves (s := s') (b := s.nextId) (B := B) (L := L) (core := core) (off := A.off) (compOv := 0)
    (mk := replayGroup s.nextId a A L core) (mget_mput_same _ _ _)
  have haud := startBlock_audits s' s.nextId B L core A.off 0 (replayGroup s.nextId a A L core)
  rw [ht] at hx haud
  obtain ⟨g, u, hg⟩ := hgroups 0 Nat.one_pos
  refine ⟨t, { A with started := true, rcore := core }, g, _, hx, ?_, rfl, rfl, hg, rfl, rfl, rfl, rfl, rfl, rs_replayGroup s.nextId a A L core u g 0⟩
  rw [haud]
  exact mget_mput_same _ _ _

section
variable {s : State} {a : Nat} {A : Audit}

/-- A comparison whose writes are over. -/
theorem auditCompare_past (ha : mget s.audits a = some A) (hst : A.started = true) (hb : ∀ p ∈ s.blocks, p.2.audit = some a → p.2.st = .ended)
    (ho : ∀ p ∈ s.ops, ∀ x, p.2.aud = some x → x.1 ≠ a) : exec (.auditCompare a) s =
      let u : State := { s with audits := mdel s.audits a }
      if !A.ended || signature A.writes == signature A.replay then .next u else
      let ctx := (mget u.launches A.launch).map (·.ctx)
      .next (coreErr (coreErr u 3 0 A.core ctx 0 (some A.launch)) 3 0 A.rcore ctx 0 (some A.launch)) := by
  have hblocks : (s.blocks.all fun (_, B) => B.audit != some a || B.st = .ended) = true := by
    refine List.all_eq_true.2 fun p hp => ?_
    by_cases h : p.2.audit = some a
    · simp [hb p hp h]
    · simp [h]
  have hops : (s.ops.any fun (_, o) => (o.aud.map (·.1)) == some a) = false := by
    refine List.any_eq_false.2 fun p hp => ?_
    rw [beq_iff_eq, Option.map_eq_some_iff]
    rintro ⟨x, hx, hxa⟩
    exact ho p hp x hx hxa
  change execAuditCompare a s = _
  unfold execAuditCompare
  rw [ha]
  exact if_neg (by simp [hst, hblocks, hops])

theorem auditCompare_same (ha : mget s.audits a = some A) (hst : A.started = true) (hb : ∀ p ∈ s.blocks, p.2.audit = some a → p.2.st = .ended)
    (ho : ∀ p ∈ s.ops, ∀ x, p.2.aud = some x → x.1 ≠ a) (h : A.ended = false ∨ A.writes = A.replay) :
    exec (.auditCompare a) s = .next { s with audits := mdel s.audits a } := by
  refine (auditCompare_past ha hst hb ho).trans (if_pos ?_)
  rcases h with h | h <;> simp [h]

theorem auditCompare_differs (ha : mget s.audits a = some A) (hst : A.started = true) (hb : ∀ p ∈ s.blocks, p.2.audit = some a → p.2.st = .ended)
    (ho : ∀ p ∈ s.ops, ∀ x, p.2.aud = some x → x.1 ≠ a) (he : A.ended = true) (h : signature A.writes ≠ signature A.replay) :
    ∃ t r r', exec (.auditCompare a) s = .next t ∧ mget t.audits a = none ∧ t.modl.errs = s.modl.errs ++ [r, r'] ∧ r.kind = 3 ∧ r'.kind = 3 ∧
      A.core ∈ t.suspects ∧ A.rcore ∈ t.suspects ∧ t.mem = s.mem ∧ t.groups = s.groups := by
  have hx := (auditCompare_past ha hst hb ho).trans (if_neg (by simp [he, h]))
  dsimp only at hx
  obtain ⟨r, hr, hk⟩ := coreErr_eq { s with audits := mdel s.audits a } 3 0 A.core ((mget s.launches A.launch).map (·.ctx)) 0 (some A.launch)
  rw [hr] at hx
  obtain ⟨r', hr', hk'⟩ := coreErr_eq { s with
    audits := mdel s.audits a, suspects := insNat s.suspects A.core, modl := { s.modl with
      errs := s.modl.errs ++ [r], viferrs := s.modl.viferrs ++ (((mget s.launches A.launch).map (·.ctx)).map fun c => (c / 64, r)).toList, errpend := true } }
    3 0 A.rcore ((mget s.launches A.launch).map (·.ctx)) 0 (some A.launch)
  rw [hr'] at hx
  refine ⟨_, r, r', hx, (mget_mdel _ _ _).trans (if_pos rfl), List.append_assoc _ _ _, hk, hk', ?_, ?_, rfl, rfl⟩
  · exact mem_insNat.2 (.inr (mem_insNat.2 (.inl rfl)))
  · exact mem_insNat.2 (.inl rfl)

end

/-- Settles O44: each error, test and audit in turn; a pre-emption leaves the tests, and fencing only fences. -/
theorem errorsTestsAudits : Obligations.ErrorsTestsAudits := by
  refine ⟨fun s g G n unit => tileError_found unit, fun s unit loc addr ctx => correctedError_logged s unit loc addr ctx, lineError_logged, linkError_logged,
    fun s core => selfTest_suspect, fun s core => selfTest_other, fun s core pass ht hf => ⟨selfTestResult_empty ht hf, selfTestResult_held⟩,
    fun s cl n hcl hn => ⟨inFieldTest_early hn, inFieldTest_due hcl hn⟩, fun s cl pass hf => ⟨inFieldTestEnd_empty hf, inFieldTestEnd_held⟩,
    fun s l tile core a A L => audit_starts, fun s a A ha hst hb ho => ⟨auditCompare_same ha hst hb ho, auditCompare_differs ha hst hb ho⟩⟩

end Sys2Proof.Proofs
end

section
/-!
PROOFS. What the ends of phases, of operations and of full/empty instructions leave of groups and blocks (R141, R198, R206, R207).
-/

namespace Sys2Proof.Proofs
open Sys2Proof Sys2Proof.Machine Sys2Proof.Claims

/-- A group goes on as it was: its state, the block it is of, where it stands, its registers and its held accesses. -/
structure Undisturbed (G G' : Group) : Prop where
  st : G'.st = G.st
  blk : G'.blk = G.blk
  pc : G'.pc = G.pc
  sreg : G'.sreg = G.sreg
  vreg : G'.vreg = G.vreg
  holds : G'.holds = G.holds

theorem Undisturbed.refl (G : Group) : Undisturbed G G := ⟨rfl, rfl, rfl, rfl, rfl, rfl⟩

theorem Undisturbed.trans {G H K : Group} (h : Undisturbed G H) (k : Undisturbed H K) : Undisturbed G K :=
  ⟨k.st.trans h.st, k.blk.trans h.blk, k.pc.trans h.pc, k.sreg.trans h.sreg, k.vreg.trans h.vreg, k.holds.trans h.holds⟩

/-- Blocks keep all but the memberships they hold. -/
def BlocksHeld (s t : State) : Prop := ∀ b B, mget s.blocks b = some B → ∃ h, mget t.blocks b = some { B with held := h }

theorem BlocksHeld.same {s t : State} (h : t.blocks = s.blocks) : BlocksHeld s t := fun _ B hB => ⟨B.held, h ▸ hB⟩

theorem BlocksHeld.trans {s t u : State} (h : BlocksHeld s t) (k : BlocksHeld t u) : BlocksHeld s u := fun b B hB => by
  obtain ⟨x, hx⟩ := h b B hB
  obtain ⟨y, hy⟩ := k b _ hx
  exact ⟨y, hy⟩

theorem BlocksHeld.foldl {α : Type} {f : State → α → State} (h : ∀ s a, BlocksHeld s (f s a)) (l : List α) (s : State) : BlocksHeld s (l.foldl f s) :=
  List.foldlRecOn l f (BlocksHeld.same rfl) fun _ ht a _ => ht.trans (h _ a)

/-- Blocks keep all but the memberships they hold, groups go on as they were, and no block has new ones. -/
structure Settles (s t : State) : Prop where
  blocks : BlocksHeld s t
  groups : ∀ g G, mget s.groups g = some G → ∃ G', mget t.groups g = some G' ∧ Undisturbed G G'
  blks : ∀ p ∈ t.groups, ∃ q ∈ s.groups, q.2.blk = p.2.blk

namespace Settles

/-- The groups are the same and the blocks keep all but what they hold. -/
theorem ofBlocks {s t : State} (hb : BlocksHeld s t) (hg : t.groups = s.groups) : Settles s t :=
  ⟨hb, fun _ G h => ⟨G, hg ▸ h, .refl G⟩, fun p hp => ⟨p, hg ▸ hp, rfl⟩⟩

/-- The groups and the blocks are the same. -/
theorem same {s t : State} (hb : t.blocks = s.blocks) (hg : t.groups = s.groups) : Settles s t := ofBlocks (.same hb) hg

theorem refl (s : State) : Settles s s := same rfl rfl

theorem trans {s t u : State} (h : Settles s t) (k : Settles t u) : Settles s u where
  blocks := h.blocks.trans k.blocks
  groups g G hG := by
    obtain ⟨H, hH, hGH⟩ := h.groups g G hG
    obtain ⟨K, hK, hHK⟩ := k.groups g H hH
    exact ⟨K, hK, hGH.trans hHK⟩
  blks p hp := by
    obtain ⟨q, hq, hqp⟩ := k.blks p hp
    obtain ⟨r, hr, hrq⟩ := h.blks q hq
    exact ⟨r, hr, hrq.trans hqp⟩

theorem foldl {α : Type} {f : State → α → State} (h : ∀ s a, Settles s (f s a)) (l : List α) (s : State) : Settles s (l.foldl f s) :=
  List.foldlRecOn l f (refl s) fun _ ht a _ => ht.trans (h _ a)

/-- One group changes in what does not disturb it. -/
theorem modGrp (s : State) (g : Nat) {f : Group → Group} (h : ∀ G, Undisturbed G (f G)) : Settles s (s.modGrp g f) where
  blocks := .same rfl
  groups j G hj := by
    rw [State.modGrp_groups, mget_mupd]
    split
    · next e => exact ⟨f G, by rw [← e, hj]; rfl, h G⟩
    · exact ⟨G, hj, .refl G⟩
  blks p hp := by
    rw [State.modGrp_groups] at hp
    unfold mupd at hp
    split at hp
    · next x hx =>
      rcases mem_mput hp with rfl | hp
      · exact ⟨_, mem_of_mget hx, (h x).blk.symm⟩
      · exact ⟨p, hp, rfl⟩
    · exact ⟨p, hp, rfl⟩

end Settles

/-- The memberships that a block holds as a phase of phaser `k` of launch `l` ends. -/
def heldAfter (catchUp : Memb → Memb) (k : Nat) (l : Option Nat) (B : Block) : List (Nat × Nat × Memb) :=
  B.held.map fun (i, k', m) => if k' == k && l == some B.launch then (i, k', catchUp m) else (i, k', m)

theorem setPh_settles (s : State) (b : Nat) {k : Nat} (hk : 64 ≤ k) (p : Phaser) : Settles s (s.setPh b k p) := by
  unfold State.setPh
  split
  · exact .refl s
  · rw [if_neg (by omega)]
    exact .same rfl rfl

theorem endPhase_settles (s : State) (b : Nat) {k : Nat} (hk : 64 ≤ k) (p : Phaser) : Settles s (endPhase s b k p) := by
  unfold endPhase
  extract_lets old catchUp p' t gs u
  have ht : Settles s t := setPh_settles _ _ hk _
  have hu : Settles t u := .foldl (fun s _ => .modGrp s _ fun G => by constructor <;> rfl) _ _
  rw [if_neg (by omega), if_neg (by omega)]
  let l : Option Nat := (mget u.blocks b).map fun X : Block => X.launch
  exact (ht.trans hu).trans (.ofBlocks (fun x B hB => ⟨heldAfter catchUp k l B,
    (mget_map_pair u.blocks (fun _ B => { B with held := heldAfter catchUp k l B }) x).trans (congrArg _ hB)⟩) rfl)

theorem settlePh_settles (s : State) (b : Nat) {k : Nat} (hk : 64 ≤ k) : Settles s (settlePh s b k) := by
  unfold settlePh
  split
  · exact .refl s
  · extract_lets p
    split
    · exact endPhase_settles _ _ hk _
    · exact .refl s

theorem rootAdd_settles (s : State) (l ph : Nat) (phase : BitVec 32) (n : Nat) (e : Earlier) : Settles s (rootAdd s l ph phase n e) := by
  unfold rootAdd
  split
  · exact .refl s
  · extract_lets p p1 p2 t
    have ht : Settles s t := .same rfl rfl
    split
    · exact ht.trans (settlePh_settles _ _ (by omega))
    · exact ht

theorem settleRuns_settles (s : State) : Settles s (settleRuns s) := by
  unfold settleRuns
  split
  · exact .refl s
  · extract_lets busy home
    exact Settles.trans (t := { s with runUnits := s.runUnits.filter busy }) (.same rfl rfl) (.foldl (fun _ _ => rootAdd_settles _ _ _ _ _ _) _ _)

theorem dropOp_settles (s : State) (k : Nat) : Settles s (dropOp s k) := by
  unfold dropOp
  split
  · exact .refl s
  · extract_lets t u
    have hu : Settles t u := by
      unfold u
      split
      · exact rootAdd_settles _ _ _ _ _ _
      · exact .refl t
    have ht : Settles s t := .same rfl rfl
    exact (ht.trans hu).trans (settleRuns_settles _)

theorem modGrp?_settles (s : State) (g : Option Nat) {f : Group → Group} (h : ∀ G, Undisturbed G (f G)) : Settles s (modGrp? s g f) := by
  cases g with
  | none => exact .refl s
  | some g => exact .modGrp s g h

theorem modOp_settles (s : State) (k : Nat) (f : Op → Op) : Settles s (s.modOp k f) := .same rfl rfl

theorem settleMem_settles (s : State) (k : Nat) : Settles s (settleMem s k) := by
  unfold settleMem
  split
  · exact .refl s
  · split
    · extract_lets ldOver stOver t u
      have ht : Settles s t := modGrp?_settles s _ fun G => ⟨rfl, rfl, rfl, rfl, rfl, rfl⟩
      have hu : Settles s u := ht.trans (modOp_settles _ _ _)
      split
      · exact hu.trans (dropOp_settles _ _)
      · exact hu.trans (settleRuns_settles _)
    · exact .refl s

theorem interruptFe_settles (s : State) (g : Nat) : Settles s (interruptFe s g) := by
  unfold interruptFe
  split
  · exact .refl s
  · refine .foldl (fun s p => ?_) _ _
    dsimp only
    split
    · split
      · refine ((Settles.modGrp s g ?_).trans (modOp_settles _ _ _)).trans (settleMem_settles _ _)
        exact fun G => ⟨rfl, rfl, rfl, rfl, rfl, rfl⟩
      · exact .refl s
    · exact .refl s

theorem unrequest_settles (s : State) (g : Nat) : Settles s (unrequest s g) := .same rfl rfl

theorem dropTag_settles (s : State) (w : Nat) : Settles s (dropTag s w) := by
  unfold dropTag
  split
  · exact .refl s
  · extract_lets t
    have ht : Settles s t := .same rfl rfl
    split
    · exact ht.trans (rootAdd_settles _ _ _ _ _ _)
    · exact ht

end Sys2Proof.Proofs
end

section
/-!
PROOFS. The choice of a pre-emption: DRAIN, FLUSH-RESTART, SAVE or none yet (R303, R343, R344, R346).
-/

namespace Sys2Proof.Proofs
open Sys2Proof Sys2Proof.Machine Sys2Proof.Claims

/-! ### FLUSH-RESTART (R346) -/

/-- Block `b` is there. -/
def HasBlock (b : Nat) (s : State) : Prop := ∃ B, mget s.blocks b = some B

theorem HasBlock.settles {b : Nat} {s t : State} (h : HasBlock b s) (hs : Settles s t) : HasBlock b t := by
  obtain ⟨B, hB⟩ := h
  obtain ⟨x, hx⟩ := hs.blocks b B hB
  exact ⟨_, hx⟩

theorem HasBlock.modBlk {b : Nat} {s : State} (h : HasBlock b s) (f : Block → Block) : HasBlock b (s.modBlk b f) := by
  obtain ⟨B, hB⟩ := h
  exact ⟨f B, by rw [State.modBlk, mget_mupd_same, hB, Option.map_some]⟩

theorem HasBlock.foldl {α : Type} {b : Nat} {f : State → α → State} (h : ∀ s a, HasBlock b s → HasBlock b (f s a)) (l : List α) {s : State} (hs : HasBlock b s) :
    HasBlock b (l.foldl f s) :=
  List.foldlRecOn l f hs fun _ ht a _ => h _ a ht

theorem flushGroup_hasBlock (b : Nat) (s : State) (g : Nat) (h : HasBlock b s) : HasBlock b (flushGroup b s g) := by
  unfold flushGroup
  split
  · extract_lets packs u v held
    have hu : Settles s u := by
      refine Settles.foldl (fun s p => ?_) _ _
      dsimp only
      split
      · exact rootAdd_settles _ _ _ _ _ _
      · exact .refl s
    have hv : Settles u v := by
      unfold v
      split
      · split <;> exact .same rfl rfl
      · exact .refl u
    exact (h.settles (hu.trans hv)).modBlk _
  · exact h

/-- After a flush the block waits with nothing of its run left, and none of its groups is there. -/
theorem flushBlock_waits {s : State} {b : Nat} {B : Block} (hB : mget s.blocks b = some B) :
    (∃ B', mget (flushBlock s b).blocks b = some B' ∧ B'.st = .waiting ∧ B'.phasers = [] ∧ B'.progress = none) ∧
      ∀ p ∈ (flushBlock s b).groups, p.2.blk ≠ b := by
  rw [flushBlock_eq]
  extract_lets gs s1 s2 s3
  have h1 : HasBlock b s1 :=
    .foldl (flushGroup_hasBlock b) _ (.foldl (fun s g h => h.settles ((interruptFe_settles s g).trans (unrequest_settles _ g))) _ ⟨B, hB⟩)
  have h2 : HasBlock b s2 := h1
  have hs3 : Settles s2 s3 := (Settles.foldl (fun s (p : Nat × Tag) => dropTag_settles s p.1) _ _).trans (.same rfl rfl)
  obtain ⟨B3, hB3⟩ := h2.settles hs3
  generalize ht : dropIdleLoads (s3.modBlk b fun B =>
    { B with st := .waiting, phasers := [], fixed := [], progress := none, pre := none, save := [], brec := none, home := none }) = t
  have hBt : mget t.blocks b = some { B3 with st := .waiting, phasers := [], fixed := [], progress := none, pre := none, save := [], brec := none, home := none } := by
    rw [← ht]
    exact (mget_mupd_same _ _ _).trans (congrArg _ hB3)
  have hgt : t.groups = s3.groups := by rw [← ht]; rfl
  have hst := settleRuns_settles t
  refine ⟨?_, fun p hp => ?_⟩
  · obtain ⟨x, hx⟩ := hst.blocks b _ hBt
    exact ⟨_, hx, rfl, rfl, rfl⟩
  · obtain ⟨q, hq, hqp⟩ := hst.blks p hp
    obtain ⟨r, hr, hrq⟩ := hs3.blks q (hgt ▸ hq)
    rw [← hqp, ← hrq]
    simpa using (List.mem_filter.1 hr).2

/-! ### SAVE begins (R345) -/

/-- One group gives up its full/empty waits and its held accesses. -/
def giveUp (s : State) (g : Nat) : State := (interruptFe s g).modGrp g fun G => { G with holds := [] }

theorem giveUp_blocks {s : State} {g b : Nat} (h : HasBlock b s) : HasBlock b (giveUp s g) := by
  obtain ⟨B, hB⟩ := h.settles (interruptFe_settles s g)
  exact ⟨B, hB⟩

/-- A group with the registers of `G`, and with no held access where `none` says so. -/
def Saving (G : Group) (gone : Prop) (s : State) (g : Nat) : Prop :=
  ∃ G', mget s.groups g = some G' ∧ G'.pc = G.pc ∧ G'.sreg = G.sreg ∧ G'.vreg = G.vreg ∧ (gone → G'.holds = [])

theorem giveUp_saving {G : Group} {gone : Prop} {s : State} {g : Nat} (j : Nat) (h : Saving G gone s g) : Saving G (gone ∨ j = g) (giveUp s j) g := by
  obtain ⟨H, hH, hpc, hs, hv, hh⟩ := h
  obtain ⟨K, hK, hu⟩ := (interruptFe_settles s j).groups g H hH
  have hget : mget (giveUp s j).groups g = _ := mget_mupd _ _ _ _
  by_cases hj : g = j
  · subst hj
    rw [if_pos rfl, hK, Option.map_some] at hget
    exact ⟨_, hget, hu.pc.trans hpc, hu.sreg.trans hs, hu.vreg.trans hv, fun _ => rfl⟩
  · rw [if_neg hj, hK] at hget
    exact ⟨K, hget, hu.pc.trans hpc, hu.sreg.trans hs, hu.vreg.trans hv, fun h => hu.holds.trans (hh (h.resolve_right (Ne.symm hj)))⟩

theorem foldl_giveUp_saving {G : Group} {gone : Prop} {g : Nat} (l : List (Nat × Group)) {s : State} (h : Saving G gone s g) :
    Saving G (gone ∨ ∃ p ∈ l, p.1 = g) (l.foldl (fun s p => giveUp s p.1) s) g := by
  induction l generalizing s gone with
  | nil =>
    obtain ⟨H, hH, hpc, hs, hv, hh⟩ := h
    exact ⟨H, hH, hpc, hs, hv, fun h => hh (h.resolve_right (by simp))⟩
  | cons p l ih =>
    obtain ⟨H, hH, hpc, hs, hv, hh⟩ := ih (giveUp_saving p.1 h)
    refine ⟨H, hH, hpc, hs, hv, fun h => hh ?_⟩
    rcases h with h | ⟨q, hq, hqg⟩
    · exact .inl (.inl h)
    · rcases List.mem_cons.1 hq with rfl | hq
      · exact .inl (.inr hqg)
      · exact .inr ⟨q, hq, hqg⟩

theorem startSave_eq (s : State) (b : Nat) (who : Requester) : startSave s b who =
    ((groupsOf s b).foldl (fun s p => giveUp s p.1) s).modBlk b fun B => { B with st := .saving, pre := some { who := who, until_ := none } } := rfl

/-- As SAVE begins the streams stop where they are, and no access is held (R345). -/
theorem startSave_saves {s : State} {b : Nat} {B : Block} (who : Requester) (hB : mget s.blocks b = some B) :
    (∃ B', mget (startSave s b who).blocks b = some B' ∧ B'.st = .saving) ∧
      ∀ g G, mget s.groups g = some G → G.blk = b →
        ∃ G', mget (startSave s b who).groups g = some G' ∧ G'.holds = [] ∧ G'.pc = G.pc ∧ G'.sreg = G.sreg ∧ G'.vreg = G.vreg := by
  rw [startSave_eq]
  constructor
  · obtain ⟨B', hB'⟩ : HasBlock b ((groupsOf s b).foldl (fun s p => giveUp s p.1) s) := .foldl (fun _ _ h => giveUp_blocks h) _ ⟨B, hB⟩
    exact ⟨_, (mget_mupd_same _ _ _).trans (congrArg _ hB'), rfl⟩
  · intro g G hG hb
    have h0 : Saving G False s g := ⟨G, hG, rfl, rfl, rfl, fun h => h.elim⟩
    obtain ⟨G', hG', hpc, hs, hv, hh⟩ := foldl_giveUp_saving (groupsOf s b) h0
    have hmem : (g, G) ∈ groupsOf s b := List.mem_filter.2 ⟨mem_of_mget hG, by simpa using hb⟩
    exact ⟨G', hG', hh (.inr ⟨_, hmem, rfl⟩), hpc, hs, hv⟩

/-! ### The choice (R344) -/

section
variable {s : State} {b : Nat} {B : Block} {L : Launch} {who : Requester}

theorem mupd_of_mget {β : Type} {m : SMap β} {k : Nat} {x : β} (h : mget m k = some x) (f : β → β) : mupd m k f = mput m k (f x) := by
  rw [mupd, h]

theorem modBlk_of_mget (hB : mget s.blocks b = some B) (f : Block → Block) : s.modBlk b f = { s with blocks := mput s.blocks b (f B) } := by
  rw [State.modBlk, mupd_of_mget hB]

theorem sectionOpen_of_none (h : ∀ g G, (g, G) ∈ s.groups → G.blk = b → G.sect = none) : sectionOpen s b = false := by
  refine List.any_eq_false.2 fun p hp => ?_
  obtain ⟨hp, hb⟩ := List.mem_filter.1 hp
  simp [h p.1 p.2 hp (by simpa using hb)]

theorem sectionOpen_of_some {g : Nat} {G : Group} (hg : (g, G) ∈ s.groups) (hb : G.blk = b) (hs : G.sect ≠ none) (hh : G.st.here = true)
    (hd : (s.die (G.core / 16)).st = .hitched) : sectionOpen s b = true := by
  refine List.any_eq_true.2 ⟨(g, G), List.mem_filter.2 ⟨hg, by simpa using hb⟩, ?_⟩
  have hd' : (s.die (dieOf G.core)).st = .hitched := hd
  simp [Option.isSome_iff_ne_none, hs, hh, hd']

theorem exec_preempt (hB : mget s.blocks b = some B) : exec (.preempt b who) s = .next (if needs s B who then preemptBlock s b who else s) := by
  change execPreempt b who s = _
  rw [execPreempt, hB]

/-- A block that has started, with no section open, meets the choice. -/
theorem preemptBlock_chooses (hB : mget s.blocks b = some B) (hL : mget s.launches B.launch = some L) (hst : B.st = .started)
    (hs : sectionOpen s b = false) : preemptBlock s b who = preempt s b B L who true := by
  simp [preemptBlock, hB, hL, hst, hs]

theorem exec_preempt_chooses (hB : mget s.blocks b = some B) (hL : mget s.launches B.launch = some L) (hst : B.st = .started)
    (hs : sectionOpen s b = false) (hn : needs s B who = true) : exec (.preempt b who) s = .next (preempt s b B L who true) := by
  rw [exec_preempt hB, if_pos hn, preemptBlock_chooses hB hL hst hs]

/-- The row that FLUSH-RESTART answers. -/
def Flushable (L : Launch) : Prop := L.desc.flags.getLsbD 0 = true ∧ L.act = none ∧ L.wrapped = none

theorem flushable_iff : (L.desc.flags.getLsbD 0 && L.act.isNone && L.wrapped.isNone) = true ↔ Flushable L := by
  simp [Flushable, and_assoc]

/-- The row that DRAIN answers: the block goes on until its budget runs out. -/
theorem preempt_drains (he : estFits B L (drainBudget who) = true) :
    preempt s b B L who true = s.modBlk b fun B => { B with pre := some { who := who, until_ := some (s.now + 1000 * drainBudget who) } } := by
  simp [preempt, he]

/-- Where the DRAIN row is left out, or does not apply. -/
theorem no_drain {drain : Bool} (he : drain = true → estFits B L (drainBudget who) = false) : ¬ (drain && estFits B L (drainBudget who)) = true := by
  cases drain with
  | false => simp
  | true => simp [he rfl]

theorem preempt_flushes {drain : Bool} (he : drain = true → estFits B L (drainBudget who) = false) (hf : Flushable L) (ha : B.audit = none) :
    preempt s b B L who drain = flushBlock s b := by
  rw [preempt, if_neg (no_drain he), if_pos (flushable_iff.2 hf), ha]

theorem preempt_saves {drain : Bool} (he : drain = true → estFits B L (drainBudget who) = false) (hf : ¬ Flushable L) (hs : saveFits s b L who = true) :
    preempt s b B L who drain = startSave s b who := by
  rw [preempt, if_neg (no_drain he), if_neg (mt flushable_iff.1 hf), if_pos hs]

theorem preempt_waits {drain : Bool} (he : drain = true → estFits B L (drainBudget who) = false) (hf : ¬ Flushable L) (hs : saveFits s b L who = false)
    (hw : who ≠ .fencing) : preempt s b B L who drain = s.modBlk b fun B => { B with pre := some { who := who, until_ := none } } := by
  rw [preempt, if_neg (no_drain he), if_neg (mt flushable_iff.1 hf), if_neg (by simp [hs]), if_neg (by simpa using hw)]

/-- What a pre-emption leaves that answers with FLUSH-RESTART. -/
theorem flushes_of {i : Instr} (hB : mget s.blocks b = some B) (h : exec i s = .next (flushBlock s b)) : ∃ t B', exec i s = .next t ∧ mget t.blocks b = some B' ∧
    B'.st = .waiting ∧ (∀ p ∈ t.groups, p.2.blk ≠ b) ∧ B'.phasers = [] ∧ B'.progress = none := by
  obtain ⟨⟨B', hB', hw, hph, hpr⟩, hgone⟩ := flushBlock_waits hB
  exact ⟨_, B', h, hB', hw, hgone, hph, hpr⟩

/-- What a pre-emption leaves that answers with SAVE. -/
theorem saves_of {i : Instr} (hB : mget s.blocks b = some B) (h : exec i s = .next (startSave s b who)) : ∃ t B', exec i s = .next t ∧ mget t.blocks b = some B' ∧
    B'.st = .saving ∧ ∀ g G, mget s.groups g = some G → G.blk = b →
      ∃ G', mget t.groups g = some G' ∧ G'.holds = [] ∧ G'.pc = G.pc ∧ G'.sreg = G.sreg ∧ G'.vreg = G.vreg := by
  obtain ⟨⟨B', hB', hsv⟩, hkept⟩ := startSave_saves who hB
  exact ⟨_, B', h, hB', hsv, hkept⟩

/-- DRAIN_BUDGET_EXPIRE of a block that has started and has no section open. -/
theorem exec_drainBudgetExpire {p : Preempt} (hB : mget s.blocks b = some B) (hL : mget s.launches B.launch = some L) (hst : B.st = .started)
    (hs : sectionOpen s b = false) (hp : B.pre = some p) : exec (.drainBudgetExpire b) s = .next
      (if p.asked then (if needs s B p.who then preempt s b B L p.who true else s.modBlk b fun B => { B with pre := none })
      else if due s.now p.until_ then preempt s b B L p.who false else s) := by
  change Host.Outcome.next (budgetUp s b) = _
  simp [budgetUp, hB, hL, hst, hs, hp]

end

/-- R303: an open section holds the choice back. -/
theorem preemption_asked {s : State} {b : Nat} {who : Requester} {B : Block} {L : Launch} {g : Nat} {G : Group} (hB : mget s.blocks b = some B)
    (hL : mget s.launches B.launch = some L) (hst : B.st = .started) (hn : needs s B who = true) (hg : (g, G) ∈ s.groups) (hb : G.blk = b) (hs : G.sect ≠ none)
    (hh : G.st.here = true) (hd : (s.die (G.core / 16)).st = .hitched) : exec (.preempt b who) s =
      .next { s with blocks := mput s.blocks b { B with pre := some { who := who, until_ := none, asked := true } } } := by
  have hopen := sectionOpen_of_some hg hb hs hh hd
  rw [exec_preempt hB, if_pos hn, ← modBlk_of_mget hB fun B => { B with pre := some { who := who, until_ := none, asked := true } }]
  simp [preemptBlock, hB, hL, hst, hopen]

end Sys2Proof.Proofs
end

section
/-!
PROOFS. The record of a group, and the bytes that a save writes (R265, R287).
-/

namespace Sys2Proof.Proofs
open Sys2Proof Sys2Proof.Machine Sys2Proof.Claims

/-! ### The layout of a record (R287) -/

theorem length_leBytes (n x : Nat) : (leBytes n x).length = n := by simp [leBytes]

/-- The first 56 bytes of a record, before its crc. -/
def saveHead (G : Group) (level tiles len : Nat) : List Byte :=
  leBytes 2 G.n ++ leBytes 1 G.splits.length ++ leBytes 1 level ++ leBytes 1 ((mkeys G.memb).filter fun k => decide (64 ≤ k)).length ++
    leBytes 1 tiles ++ leBytes 2 G.n ++ leBytes 4 len ++ List.replicate 44 0

/-- What follows the header of a record. -/
def saveRest (G : Group) : List Byte := padTo8 (saveBody G) ++ (List.range G.n).flatMap fun r => ventry r (G.rv r)

theorem saveBytes_eq (G : Group) (level tiles : Nat) : saveBytes G level tiles =
    saveHead G level tiles (64 + (saveRest G).length) ++ (leBytes 8 (crc64 (saveHead G level tiles (64 + (saveRest G).length) ++ saveRest G)).toNat ++ saveRest G) :=
  List.append_assoc _ _ _

theorem length_saveHead (G : Group) (level tiles len : Nat) : (saveHead G level tiles len).length = 56 := by
  simp [saveHead, length_leBytes]

theorem length_saveBytes (G : Group) (level tiles : Nat) : (saveBytes G level tiles).length = 64 + (saveRest G).length := by
  rw [saveBytes_eq, List.length_append, List.length_append, length_saveHead, length_leBytes]
  omega

/-- R287: the header of a record, its length and its crc. -/
theorem saveBytes_layout (G : Group) (level tiles : Nat) :
    let bs := saveBytes G level tiles
    bs.take 2 = leBytes 2 G.n ∧ bs.getD 2 0 = BitVec.ofNat 8 G.splits.length ∧ bs.getD 3 0 = BitVec.ofNat 8 level ∧ bs.getD 5 0 = BitVec.ofNat 8 tiles ∧
      bs.getD 4 0 = BitVec.ofNat 8 (((mkeys G.memb).filter fun k => decide (64 ≤ k)).length) ∧
      (bs.drop 8).take 4 = leBytes 4 bs.length ∧ (bs.drop 56).take 8 = leBytes 8 (crc64 (bs.take 56 ++ bs.drop 64)).toNat := by
  intro bs
  have hlen : bs.length = 64 + (saveRest G).length := length_saveBytes G level tiles
  have hhead := length_saveHead G level tiles (64 + (saveRest G).length)
  have htake : bs.take 56 = saveHead G level tiles (64 + (saveRest G).length) := by
    rw [show bs = _ from saveBytes_eq G level tiles, List.take_left' hhead]
  have hdrop : bs.drop 56 = leBytes 8 (crc64 (saveHead G level tiles (64 + (saveRest G).length) ++ saveRest G)).toNat ++ saveRest G := by
    rw [show bs = _ from saveBytes_eq G level tiles, List.drop_left' hhead]
  have hrest : bs.drop 64 = saveRest G := by
    rw [show 64 = 56 + 8 from rfl, ← List.drop_drop, hdrop, List.drop_left' (length_leBytes _ _)]
  have hb (i : Nat) (hi : i < 56) : bs.getD i 0 = (saveHead G level tiles bs.length).getD i 0 := by
    rw [hlen, ← htake, List.getD_eq_getElem?_getD, List.getD_eq_getElem?_getD, List.getElem?_take_of_lt hi]
  refine ⟨?_, ?_, ?_, ?_, ?_, ?_, ?_⟩
  · rw [show 2 = min 2 56 from rfl, ← List.take_take, htake]; rfl
  · rw [hb 2 (by omega)]; simp [saveHead, leBytes, List.range_succ]
  · rw [hb 3 (by omega)]; simp [saveHead, leBytes, List.range_succ]
  · rw [hb 5 (by omega)]; simp [saveHead, leBytes, List.range_succ]
  · rw [hb 4 (by omega)]; simp [saveHead, leBytes, List.range_succ]
  · have h : (bs.drop 8).take 4 = ((bs.take 56).drop 8).take 4 := by
      rw [List.drop_take, List.take_take]; rfl
    rw [h, htake, ← hlen]; rfl
  · rw [hdrop, List.take_left' (length_leBytes _ _), htake, hrest]

/-! ### Bytes in a save area (R265) -/

/-- Memory with its history and pages, the caches and the poison change, and nothing else. -/
def PutsOnly (s t : State) : Prop :=
  t = { s with mem := t.mem, hist := t.hist, wcount := t.wcount, launches := t.launches, coh := t.coh, poison := t.poison }

namespace PutsOnly

theorem refl (s : State) : PutsOnly s s := rfl

theorem trans {s t u : State} (h : PutsOnly s t) (k : PutsOnly t u) : PutsOnly s u := by
  unfold PutsOnly at *; rw [k, h]

theorem coh {s t : State} (h : CohOnly s t) : PutsOnly s t := by
  unfold CohOnly at h; unfold PutsOnly; rw [h]

theorem foldl {α : Type} {f : State → α → State} (h : ∀ s a, PutsOnly s (f s a)) (l : List α) (s : State) : PutsOnly s (l.foldl f s) :=
  List.foldlRecOn l f (refl s) fun _ ht a _ => ht.trans (h _ a)

theorem write (s : State) (ctx : Option Nat) (a n x : Nat) : PutsOnly s (s.write ctx a n x) := rfl

theorem accSick {s t : State} (h : PutsOnly s t) : t.accSick = s.accSick := by rw [h]

end PutsOnly

/-- A byte of a number made from bytes. -/
theorem byte_leVal (l : List Byte) (i : Nat) : BitVec.ofNat 8 (leVal l / 256 ^ i) = l.getD i 0 := by
  induction l generalizing i with
  | nil => simp [leVal]
  | cons b l ih =>
    have hb := b.isLt
    have hval : leVal (b :: l) = b.toNat + 256 * leVal l := rfl
    cases i with
    | zero =>
      rw [hval, Nat.pow_zero, Nat.div_one, List.getD_cons_zero]
      apply BitVec.eq_of_toNat_eq
      rw [BitVec.toNat_ofNat]
      omega
    | succ i =>
      have hdiv : (b.toNat + 256 * leVal l) / 256 = leVal l := by omega
      rw [hval, Nat.pow_succ', ← Nat.div_div_eq_div_mul, hdiv, ih, List.getD_cons_succ]

theorem putBytesAt_puts (ctx die n a : Nat) (bs : List Byte) (s : State) : PutsOnly s (putBytesAt s ctx die n a bs) := by
  induction n generalizing s a bs with
  | zero => exact .refl s
  | succ n ih =>
    unfold putBytesAt
    split
    · exact .refl s
    · exact ((PutsOnly.coh (homeReaches_coh s die a)).trans (.write _ _ _ _ _)).trans (ih _ _ _)

/-- The bytes stand where they are put, and all others are as they were. -/
theorem memRead_putBytesAt (ctx die : Nat) {n : Nat} (a : Nat) {bs : List Byte} (hn : bs.length ≤ n) (s : State) (y : Nat) :
    memRead (putBytesAt s ctx die n a bs).mem y = if a ≤ y ∧ y < a + bs.length then bs.getD (y - a) 0 else memRead s.mem y := by
  induction n generalizing s a bs with
  | zero =>
    obtain rfl : bs = [] := List.eq_nil_of_length_eq_zero (by omega)
    rw [if_neg (by simp)]
    rfl
  | succ n ih =>
    unfold putBytesAt
    split
    · rw [if_neg (by simp)]
    · next hne =>
      have hpos : 0 < bs.length := List.length_pos_iff.2 hne
      have hdrop : (bs.drop 8).length = bs.length - 8 := List.length_drop
      rw [ih (a + 8) (by omega), State.write_mem, (homeReaches_coh s die a).mem, hdrop]
      by_cases h8 : a + 8 ≤ y ∧ y < a + 8 + (bs.length - 8)
      · rw [if_pos h8, if_pos (by omega), List.getD_eq_getElem?_getD, List.getElem?_drop, List.getD_eq_getElem?_getD]
        congr 2
        omega
      · rw [if_neg h8]
        by_cases hin : a ≤ y ∧ y < a + bs.length
        · obtain ⟨i, rfl⟩ := Nat.exists_eq_add_of_le hin.1
          have hi : i < min 8 bs.length := by omega
          rw [if_pos hin, memRead_writeLE_in _ _ hi, Nat.add_sub_cancel_left]
          refine (byte_leVal (bs.take 8) i).trans ?_
          rw [List.getD_eq_getElem?_getD, List.getElem?_take_of_lt (by omega), List.getD_eq_getElem?_getD]
        · rw [if_neg hin, memRead_writeLE_outside _ _ _ _ _ (by omega)]

/-- One record is put at its place. -/
def putRecord (ctx die : Nat) (s : State) (a : Nat) (bs : List Byte) : State :=
  (putBytesAt s ctx die bs.length a bs).unpoison ((List.range bs.length).map (a + ·))

theorem unpoison_puts (s : State) (bytes : List Nat) : PutsOnly s (s.unpoison bytes) := by
  unfold State.unpoison
  split
  · exact .refl s
  · rfl

theorem putRecord_puts (ctx die : Nat) (s : State) (a : Nat) (bs : List Byte) : PutsOnly s (putRecord ctx die s a bs) :=
  (putBytesAt_puts _ _ _ _ _ _).trans (unpoison_puts _ _)

theorem memRead_putRecord (ctx die : Nat) (s : State) (a : Nat) (bs : List Byte) (y : Nat) :
    memRead (putRecord ctx die s a bs).mem y = if a ≤ y ∧ y < a + bs.length then bs.getD (y - a) 0 else memRead s.mem y := by
  rw [putRecord, unpoison_mem, memRead_putBytesAt _ _ _ le_rfl]

/-- The records of a save, those that have a place. -/
def putRecords (ctx die : Nat) (recs : List SaveRec) (s : State) : State :=
  recs.foldl (fun s r => match r.at_ with
    | some a => putRecord ctx die s a r.bytes
    | none => s) s

/-- The block record of a save. -/
def putBlockRecord (ctx die : Nat) (brec : Option (Nat × List Byte)) (s : State) : State :=
  match brec with
  | some (a, bs) => putRecord ctx die s a bs
  | none => s

theorem putRecords_puts (ctx die : Nat) (recs : List SaveRec) (s : State) : PutsOnly s (putRecords ctx die recs s) := by
  refine PutsOnly.foldl (fun s r => ?_) _ _
  split
  · exact putRecord_puts _ _ _ _ _
  · exact .refl s

theorem putBlockRecord_puts (ctx die : Nat) (brec : Option (Nat × List Byte)) (s : State) : PutsOnly s (putBlockRecord ctx die brec s) := by
  unfold putBlockRecord
  split
  · exact putRecord_puts _ _ _ _ _
  · exact .refl s

theorem memRead_putRecords_out {ctx die : Nat} {recs : List SaveRec} {y : Nat} (h : ∀ r ∈ recs, ∀ x, r.at_ = some x → y < x ∨ x + r.bytes.length ≤ y) (s : State) :
    memRead (putRecords ctx die recs s).mem y = memRead s.mem y := by
  refine memRead_foldl (fun s r hr => ?_) s
  split
  · next x hx =>
    have := h r hr x hx
    rw [memRead_putRecord, if_neg (by omega)]
  · rfl

theorem memRead_putBlockRecord_out {ctx die : Nat} {brec : Option (Nat × List Byte)} {y : Nat} (h : ∀ p, brec = some p → y < p.1 ∨ p.1 + p.2.length ≤ y)
    (s : State) : memRead (putBlockRecord ctx die brec s).mem y = memRead s.mem y := by
  unfold putBlockRecord
  split
  · next a bs =>
    have := h _ rfl
    rw [memRead_putRecord, if_neg (by simp only at this; omega)]
  · rfl

end Sys2Proof.Proofs
end

section
/-!
PROOFS. SAVE: the records are written and the core is free (R172, R345).
-/

namespace Sys2Proof.Proofs
open Sys2Proof Sys2Proof.Machine Sys2Proof.Claims

/-! ### A block's scratch area on its one core -/

/-- A place of the scratch area of one core. -/
abbrev InArea (core off n a : Nat) : Prop := scrLoc core off ≤ a ∧ a < scrLoc core off + n

theorem scrLoc_ge (core off : Nat) : 2 ^ 52 ≤ scrLoc core off := by unfold scrLoc; omega

theorem relPlace_single (core off n a : Nat) : relPlace [core] off n a = if InArea core off n a then some (a - scrLoc core off) else none := by
  have hge := scrLoc_ge core off
  unfold relPlace
  by_cases h : InArea core off n a
  · have hscr : isScr a = true := decide_eq_true (le_trans hge h.1)
    simp [hscr, List.findIdx?_cons, h.1, h.2]
  · have hf : (decide (scrLoc core off ≤ a) && decide (a < scrLoc core off + n)) = false := by simpa [InArea] using h
    rw [if_neg h]
    simp [List.findIdx?_cons, hf]

/-- The bytes of an area, under their offsets in it. -/
theorem mget_filterMap_area (m : List Host.Cell) {core off n a : Nat} (ha : InArea core off n a) :
    mget (m.filterMap fun c => (relPlace [core] off n c.1).map fun x => (x, c.2)) (a - scrLoc core off) = mget m a := by
  induction m with
  | nil => rfl
  | cons c m ih =>
    by_cases hc : InArea core off n c.1
    · rw [List.filterMap_cons, relPlace_single, if_pos hc, Option.map_some]
      dsimp only
      rw [mget, mget, ih]
      have heq : a - scrLoc core off = c.1 - scrLoc core off ↔ a = c.1 := by
        have := ha.1
        have := hc.1
        omega
      simp only [heq]
    · rw [List.filterMap_cons, relPlace_single, if_neg hc, Option.map_none]
      have hne : a ≠ c.1 := fun h => hc (h ▸ ha)
      dsimp only
      rw [ih, mget, if_neg hne]

/-- What stays of memory as the area of a saved block is given up. -/
theorem memRead_outside_area (m : List Host.Cell) (core off n a : Nat) :
    memRead (m.filter fun c => (relPlace [core] off n c.1).isNone) a = if InArea core off n a then 0 else memRead m a := by
  have h := mget_filter_key m (fun k => (relPlace [core] off n k).isNone) a
  rw [memRead, h, relPlace_single]
  by_cases ha : InArea core off n a
  · rw [if_pos ha, if_pos ha]; rfl
  · rw [if_neg ha, if_neg ha]; rfl

/-! ### The parts of SAVE_RECORD_WRITE -/

/-- The groups of a block that a save writes. -/
def savedGroups (s : State) (b : Nat) : List (Nat × Group) := (groupsOf s b).filter fun (_, G) => G.st != .exited && G.st != .killed

/-- The save is for an in-field test, and goes to the reserved area (R384). -/
def reservedSave (B : Block) : Bool := (B.pre.map (·.who)) == some .inField

/-- The records of a block. -/
def savedRecs (s : State) (b : Nat) (B : Block) (L : Launch) : List SaveRec :=
  saveRecs s (savedGroups s b) L (if reservedSave B then none else some (saveFree s L.ctx))

/-- The block record, after the records of the groups. -/
def savedBrec (s : State) (b : Nat) (B : Block) (L : Launch) : Option (Nat × List Byte) :=
  if reservedSave B then none else
    some (((savedRecs s b B L).filterMap fun r => r.at_.map (· + recRoom r.bytes.length)).foldl max (saveFree s L.ctx), blockBytes s b B L)

/-- One tile whose checksums fail: the error is logged, and the tile is poisoned (R172). -/
def poisonTile (B : Block) (L : Launch) (s : State) (k : Nat) : State :=
  coreErr { s with accPoison := insNat s.accPoison k } 2 1 B.core (some L.ctx) 0 (some B.launch)

/-- The tiles of a block whose checksums fail. -/
def sickTiles (b : Nat) (s : State) : List Nat := s.accSick.filter fun k => k / 64 / 4 == b

/-- The checksums of a block's tiles are checked. -/
def checkTiles (b : Nat) (B : Block) (L : Launch) (s : State) : State :=
  (sickTiles b s).foldl (poisonTile B L) { s with accSick := s.accSick.filter (!(sickTiles b s).contains ·) }

/-- The state with every record written. -/
def recordsWritten (s : State) (b : Nat) (B : Block) (L : Launch) : State :=
  checkTiles b B L (putBlockRecord L.ctx (dieOf B.core) (savedBrec s b B L) (putRecords L.ctx (dieOf B.core) (savedRecs s b B L) s))

/-- Groups are saved, and request no load. -/
def saveGroups (gs : List (Nat × Group)) (s : State) : State := gs.foldl (fun s (g, G) => unrequest (s.grp g (saveGroup s G)) g) s

/-- A block as it is saved, from the state with its records written. -/
def savedBlock (B : Block) (L : Launch) (recs : List SaveRec) (brec : Option (Nat × List Byte)) (s : State) : Block :=
  let rel := relPlace (blockCores B.wide B.core) B.scrOff L.desc.scratch
  { B with st := .saved, pre := none, fixed := [], save := recs, brec := brec, home := if reservedSave B then some (clusterOf B.core) else none,
           scr := s.mem.filterMap fun c => (rel c.1).map fun x => (x, c.2),
           full := s.full.filterMap fun w => (rel (4 * w)).map (· / 4),
           tags := s.tags.filterMap fun (w, t) => (rel (4 * w)).map fun x => (x / 4, t) }

/-- A block leaves its core: its area is given up (R345). -/
def leaveCore (b : Nat) (B' : Block) (rel : Nat → Option Nat) (s : State) : State :=
  { s with
    blocks := mput s.blocks b B', mem := s.mem.filter fun c => (rel c.1).isNone, full := s.full.filter fun w => (rel (4 * w)).isNone,
    tags := s.tags.filter fun x => (rel (4 * x.1)).isNone }

/-- The state in which a block is saved. -/
def savedState (s : State) (b : Nat) (B : Block) (L : Launch) : State :=
  leaveCore b (savedBlock B L (savedRecs s b B L) (savedBrec s b B L) (recordsWritten s b B L)) (relPlace (blockCores B.wide B.core) B.scrOff L.desc.scratch)
    (saveGroups (savedGroups s b) (recordsWritten s b B L))

section
variable {s : State} {b : Nat} {B : Block} {L : Launch}

theorem saveRecordWrite_of (hB : mget s.blocks b = some B) (hL : mget s.launches B.launch = some L) (hst : B.st = .saving) :
    exec (.saveRecordWrite b) s = .next (if (savedGroups s b).all (fun (g, G) => drained s g G) then savedState s b B L else s) := by
  change execSaveRecordWrite b s = _
  unfold execSaveRecordWrite
  rw [hB]
  dsimp only
  rw [hL]
  dsimp only
  by_cases h : (savedGroups s b).all (fun (g, G) => drained s g G) = true
  · rw [if_pos h]
    refine (if_neg ?_).trans rfl
    change ¬ (decide (B.st ≠ .saving) || !(savedGroups s b).all fun (g, G) => drained s g G) = true
    rw [h, hst]; simp
  · rw [if_neg h]
    refine if_pos ?_
    change (decide (B.st ≠ .saving) || !(savedGroups s b).all fun (g, G) => drained s g G) = true
    simp [h]

theorem mem_savedGroups {g : Nat} {G : Group} : (g, G) ∈ savedGroups s b ↔ (g, G) ∈ s.groups ∧ G.blk = b ∧ G.st ≠ .exited ∧ G.st ≠ .killed := by
  simp only [savedGroups, groupsOf, List.mem_filter, beq_iff_eq, Bool.and_eq_true, bne_iff_ne, and_assoc]

/-! ### What the save leaves -/

/-- The checks of tiles change the poison of tiles, the suspects and the error log. -/
def ErrsOnly (s t : State) : Prop := t = { s with accPoison := t.accPoison, suspects := t.suspects, modl := t.modl }

theorem ErrsOnly.mem {s t : State} (h : ErrsOnly s t) : t.mem = s.mem := by rw [h]
theorem ErrsOnly.groups {s t : State} (h : ErrsOnly s t) : t.groups = s.groups := by rw [h]
theorem ErrsOnly.accSick {s t : State} (h : ErrsOnly s t) : t.accSick = s.accSick := by rw [h]

theorem ErrsOnly.trans {s t u : State} (h : ErrsOnly s t) (k : ErrsOnly t u) : ErrsOnly s u := by
  unfold ErrsOnly at *; rw [k, h]

/-- Poisoned tiles one after the other: each is poisoned at the end, and no accumulator's error is left out or found. -/
theorem foldl_poisonTile (B : Block) (L : Launch) (l : List Nat) (s : State) :
    ErrsOnly s (l.foldl (poisonTile B L) s) ∧ ∀ k, k ∈ (l.foldl (poisonTile B L) s).accPoison ↔ k ∈ s.accPoison ∨ k ∈ l := by
  induction l generalizing s with
  | nil => exact ⟨rfl, by simp⟩
  | cons j l ih =>
    obtain ⟨he, hp⟩ := ih (poisonTile B L s j)
    have hj : ErrsOnly s (poisonTile B L s j) := rfl
    refine ⟨hj.trans he, fun k => (hp k).trans ?_⟩
    have hins : (poisonTile B L s j).accPoison = insNat s.accPoison j := rfl
    rw [hins, mem_insNat, List.mem_cons]
    tauto

theorem checkTiles_errs (b : Nat) (B : Block) (L : Launch) (s : State) :
    ErrsOnly { s with accSick := s.accSick.filter (!(sickTiles b s).contains ·) } (checkTiles b B L s) := (foldl_poisonTile B L _ _).1

/-- A tile of the block whose checksums fail is poisoned, and its error is found (R172). -/
theorem checkTiles_found {k : Nat} (hk : k ∈ s.accSick) (hb : k / 256 = b) : k ∈ (checkTiles b B L s).accPoison ∧ k ∉ (checkTiles b B L s).accSick := by
  have hsick : k ∈ sickTiles b s := List.mem_filter.2 ⟨hk, by simp [Nat.div_div_eq_div_mul, hb]⟩
  refine ⟨((foldl_poisonTile B L _ _).2 k).2 (.inr hsick), ?_⟩
  rw [(checkTiles_errs b B L s).accSick]
  simp [hsick]

theorem saveGroups_keeps (gs : List (Nat × Group)) (s : State) :
    saveGroups gs s = { s with groups := (saveGroups gs s).groups, copies := (saveGroups gs s).copies } := by
  unfold saveGroups
  induction gs generalizing s with
  | nil => rfl
  | cons p gs ih => rw [List.foldl_cons, ih]; rfl

/-- A group as it is saved. -/
def IsSaved (G : Group) (s : State) (g : Nat) : Prop := ∃ u, mget s.groups g = some (saveGroup u G)

theorem saveGroups_saves {gs : List (Nat × Group)} {g : Nat} {G : Group} (hu : ∀ H, (g, H) ∈ gs → H = G) {s : State} (h : IsSaved G s g ∨ (g, G) ∈ gs) :
    IsSaved G (saveGroups gs s) g := by
  unfold saveGroups
  induction gs generalizing s with
  | nil => exact h.resolve_right (by simp)
  | cons p gs ih =>
    rw [List.foldl_cons]
    refine ih (fun H hH => hu H (List.mem_cons_of_mem _ hH)) ?_
    obtain ⟨k, K⟩ := p
    have hget : mget (unrequest (s.grp k (saveGroup s K)) k).groups g = _ := mget_mput s.groups k g (saveGroup s K)
    by_cases hp : g = k
    · obtain rfl : K = G := hu K (by rw [hp]; exact List.mem_cons_self)
      rw [if_pos hp] at hget
      exact .inl ⟨s, hget⟩
    · rw [if_neg hp] at hget
      rcases h with ⟨u, hu⟩ | h
      · exact .inl ⟨u, hget.trans hu⟩
      · exact .inr ((List.mem_cons.1 h).resolve_left fun he => hp (Prod.mk.inj he).1)

theorem recordsWritten_mem : (recordsWritten s b B L).mem =
    (putBlockRecord L.ctx (dieOf B.core) (savedBrec s b B L) (putRecords L.ctx (dieOf B.core) (savedRecs s b B L) s)).mem := (checkTiles_errs b B L _).mem

/-- A place outside every record. -/
def OutsideRecords (recs : List SaveRec) (brec : Option (Nat × List Byte)) (a : Nat) : Prop :=
  (∀ r ∈ recs, ∀ x, r.at_ = some x → a < x ∨ x + r.bytes.length ≤ a) ∧ ∀ p, brec = some p → a < p.1 ∨ p.1 + p.2.length ≤ a

theorem memRead_recordsWritten_out {a : Nat} (h : OutsideRecords (savedRecs s b B L) (savedBrec s b B L) a) :
    memRead (recordsWritten s b B L).mem a = memRead s.mem a := by
  obtain ⟨hr, hb⟩ := h
  rw [recordsWritten_mem, memRead_putBlockRecord_out hb, memRead_putRecords_out hr]

theorem memRead_savedState (hw : B.wide = false) (a : Nat) : memRead (savedState s b B L).mem a =
    if InArea B.core B.scrOff L.desc.scratch a then 0 else memRead (recordsWritten s b B L).mem a := by
  have hcores : blockCores B.wide B.core = [B.core] := by rw [hw]; rfl
  have h := memRead_outside_area (recordsWritten s b B L).mem B.core B.scrOff L.desc.scratch a
  rw [← h]
  unfold savedState leaveCore
  rw [hcores, saveGroups_keeps]

/-- The scratch area in a saved block (R345). -/
theorem savedBlock_scr (hw : B.wide = false) (recs : List SaveRec) (brec : Option (Nat × List Byte)) (u : State) {a : Nat}
    (ha : InArea B.core B.scrOff L.desc.scratch a) :
    (mget (savedBlock B L recs brec u).scr (a - scrLoc B.core B.scrOff)).getD 0 = memRead u.mem a := by
  have hcores : blockCores B.wide B.core = [B.core] := by rw [hw]; rfl
  have h := mget_filterMap_area u.mem ha
  unfold savedBlock
  rw [hcores, h]
  rfl

theorem reservedSave_iff : reservedSave B = true ↔ ∃ p, B.pre = some p ∧ p.who = .inField := by
  simp [reservedSave]

theorem recRoom_ge (n : Nat) : n ≤ recRoom n := by unfold recRoom; omega

theorem le_foldl_max (l : List Nat) (n : Nat) : n ≤ l.foldl max n ∧ ∀ x ∈ l, x ≤ l.foldl max n := by
  induction l generalizing n with
  | nil => simp
  | cons y l ih =>
    obtain ⟨h1, h2⟩ := ih (max n y)
    rw [List.foldl_cons]
    refine ⟨le_trans (le_max_left _ _) h1, fun x hx => ?_⟩
    rcases List.mem_cons.1 hx with rfl | hx
    · exact le_trans (le_max_right _ _) h1
    · exact h2 x hx

/-- The block record stands after the records of the groups. -/
theorem savedBrec_after {r : SaveRec} {x : Nat} (hr : r ∈ savedRecs s b B L) (hx : r.at_ = some x) {p : Nat × List Byte} (hp : savedBrec s b B L = some p) :
    x + r.bytes.length ≤ p.1 := by
  unfold savedBrec at hp
  split at hp
  · cases hp
  · obtain rfl := Option.some.inj hp
    have hmem : x + recRoom r.bytes.length ∈ (savedRecs s b B L).filterMap fun r => r.at_.map (· + recRoom r.bytes.length) :=
      List.mem_filterMap.2 ⟨r, hr, by rw [hx]; rfl⟩
    exact le_trans (Nat.add_le_add_left (recRoom_ge _) x) ((le_foldl_max _ _).2 _ hmem)

/-- Where every record ends below the scratchpads. -/
def Placed (recs : List SaveRec) (brec : Option (Nat × List Byte)) : Prop :=
  (∀ r ∈ recs, ∀ x, r.at_ = some x → x + r.bytes.length ≤ 2 ^ 52) ∧ ∀ p, brec = some p → p.1 + p.2.length ≤ 2 ^ 52

theorem outsideRecords_of_area {recs : List SaveRec} {brec : Option (Nat × List Byte)} {core off n a : Nat} (hp : Placed recs brec) (ha : InArea core off n a) :
    OutsideRecords recs brec a := by
  have hge := scrLoc_ge core off
  obtain ⟨hr, hb⟩ := hp
  exact ⟨fun r hrm x hx => .inr (le_trans (hr r hrm x hx) (le_trans hge ha.1)), fun p hpm => .inr (le_trans (hb p hpm) (le_trans hge ha.1))⟩

theorem not_inArea_of_lt {core off n a : Nat} (h : a < 2 ^ 52) : ¬ InArea core off n a := fun ha => by
  have := scrLoc_ge core off
  have := ha.1
  omega

/-- The one record of a block stands where it is put. -/
theorem memRead_savedState_record (hw : B.wide = false) {r : SaveRec} {x i : Nat} (hr : savedRecs s b B L = [r]) (hx : r.at_ = some x)
    (hp : Placed (savedRecs s b B L) (savedBrec s b B L)) (hi : i < r.bytes.length) : memRead (savedState s b B L).mem (x + i) = r.bytes.getD i 0 := by
  have hmem : r ∈ savedRecs s b B L := by rw [hr]; exact List.mem_singleton_self r
  have hlt : x + i < 2 ^ 52 := by have := hp.1 r hmem x hx; omega
  rw [memRead_savedState hw, if_neg (not_inArea_of_lt hlt), recordsWritten_mem,
    memRead_putBlockRecord_out fun p hpm => .inl (by have := savedBrec_after hmem hx hpm; omega), hr]
  unfold putRecords
  rw [List.foldl_cons, List.foldl_nil, hx]
  dsimp only
  rw [memRead_putRecord, if_pos (by omega), Nat.add_sub_cancel_left]

/-- The block record stands where it is put. -/
theorem memRead_savedState_brec (hw : B.wide = false) {p : Nat × List Byte} {i : Nat} (hb : savedBrec s b B L = some p)
    (hp : Placed (savedRecs s b B L) (savedBrec s b B L)) (hi : i < p.2.length) : memRead (savedState s b B L).mem (p.1 + i) = p.2.getD i 0 := by
  have hlt : p.1 + i < 2 ^ 52 := by have := hp.2 p hb; omega
  rw [memRead_savedState hw, if_neg (not_inArea_of_lt hlt), recordsWritten_mem, hb]
  unfold putBlockRecord
  dsimp only
  rw [memRead_putRecord, if_pos (by omega), Nat.add_sub_cancel_left]

/-- A group of the saved block is as it was but for what a save drops (R345). -/
theorem savedState_group {g : Nat} {G : Group} (hG : mget s.groups g = some G) (hb : G.blk = b) (he : G.st ≠ .exited) (hk : G.st ≠ .killed)
    (hsort : Sorted s.groups) : ∃ u, mget (savedState s b B L).groups g = some (saveGroup u G) := by
  have hmem := mem_of_mget hG
  have hu (H : Group) (hH : (g, H) ∈ savedGroups s b) : H = G := eq_of_sorted hsort (mem_savedGroups.1 hH).1 hmem
  exact saveGroups_saves hu (.inr (mem_savedGroups.2 ⟨hmem, hb, he, hk⟩))

/-- The record of a block of one group. -/
theorem savedRecs_single {g : Nat} {G : Group} (hs : s.groups = [(g, G)]) (hb : G.blk = b) (he : G.st ≠ .exited) (hk : G.st ≠ .killed) :
    savedRecs s b B L = [{ grp := g, was := G.st, bytes := saveBytes (saveGroup s G) L.desc.level L.desc.acctiles,
                           at_ := if reservedSave B then none else some (saveFree s L.ctx) }] := by
  have hgs : savedGroups s b = [(g, G)] := by
    simp [savedGroups, groupsOf, hs, hb, he, hk]
  rw [savedRecs, hgs]
  rfl

theorem savedState_found {k : Nat} (hk : k ∈ s.accSick) (hb : k / 256 = b) : k ∈ (savedState s b B L).accPoison ∧ k ∉ (savedState s b B L).accSick := by
  have hputs : PutsOnly s (putBlockRecord L.ctx (dieOf B.core) (savedBrec s b B L) (putRecords L.ctx (dieOf B.core) (savedRecs s b B L) s)) :=
    (putRecords_puts _ _ _ _).trans (putBlockRecord_puts _ _ _ _)
  have h := checkTiles_found (B := B) (L := L) (hputs.accSick ▸ hk) hb
  unfold savedState leaveCore
  rw [saveGroups_keeps]
  exact h

/-- Every group has drained: the block is saved. -/
theorem saveRecordWrite_drained (hB : mget s.blocks b = some B) (hL : mget s.launches B.launch = some L) (hst : B.st = .saving)
    (hd : ∀ g G, (g, G) ∈ s.groups → G.blk = b → G.st ≠ .exited → G.st ≠ .killed → drained s g G = true) :
    exec (.saveRecordWrite b) s = .next (savedState s b B L) := by
  refine (saveRecordWrite_of hB hL hst).trans (congrArg _ (if_pos (List.all_eq_true.2 fun p hp => ?_)))
  obtain ⟨hg, hb, he, hk⟩ := mem_savedGroups.1 hp
  exact hd _ _ hg hb he hk

/-- A group has not drained: the save waits. -/
theorem saveRecordWrite_undrained (hB : mget s.blocks b = some B) (hL : mget s.launches B.launch = some L) (hst : B.st = .saving) {g : Nat} {G : Group}
    (hg : (g, G) ∈ s.groups) (hb : G.blk = b) (he : G.st ≠ .exited) (hk : G.st ≠ .killed) (hd : drained s g G = false) :
    exec (.saveRecordWrite b) s = .next s := by
  refine (saveRecordWrite_of hB hL hst).trans (congrArg _ (if_neg fun hall => ?_))
  have := List.all_eq_true.1 hall _ (mem_savedGroups.2 ⟨hg, hb, he, hk⟩)
  simp [hd] at this

/-- The block as it is saved, in the state in which it is. -/
theorem savedState_block : mget (savedState s b B L).blocks b = some (savedBlock B L (savedRecs s b B L) (savedBrec s b B L) (recordsWritten s b B L)) :=
  mget_mput_same _ _ _

end

end Sys2Proof.Proofs
end

section
/-!
PROOFS. RESTORE: a saved block is rebuilt, and resumes (R287, R347).
-/

namespace Sys2Proof.Proofs
open Sys2Proof Sys2Proof.Machine Sys2Proof.Claims

/-! ### The end of a restore -/

theorem divert_blocks (s : State) (g : Nat) : BlocksHeld s (divert s g) := by
  unfold divert
  extract_lets t
  have ht : BlocksHeld s t := (interruptFe_settles s g).blocks
  split
  · exact (ht.trans (t := t.grp g _) (.same rfl)).trans (settleRuns_settles _).blocks
  · exact ht

theorem divertNow_blocks (s : State) (g : Nat) : BlocksHeld s (divertNow s g) := by
  have grp (G : Group) : BlocksHeld s (s.grp g G) := .same rfl
  unfold divertNow
  split
  · exact .same rfl
  · split
    · exact (grp _).trans (divert_blocks _ _)
    · exact (grp _).trans (divert_blocks _ _)
    · exact divert_blocks _ _

theorem resumeSaved_blocks (s : State) (g : Nat) : BlocksHeld s (resumeSaved s g) := by
  unfold resumeSaved
  split
  · split
    · exact divertNow_blocks _ _
    · exact .same rfl
  · exact .same rfl

theorem begins_blocks (s : State) (g : Nat) : BlocksHeld s (s.modGrp g fun G => G.begins) := .same rfl

/-- The groups of some records begin again and go on. -/
def resumeGroups (l : List SaveRec) (s : State) : State :=
  l.foldl (fun s r => resumeSaved s r.grp) (l.foldl (fun s r => s.modGrp r.grp fun G => G.begins) s)

theorem resumeGroups_quiet (l : List SaveRec) (s : State) : Quiet s (resumeGroups l s) :=
  (Quiet.foldl (fun s (r : SaveRec) => modGrp_quiet s r.grp _) _ _).trans (Quiet.foldl (fun s (r : SaveRec) => resumeSaved_quiet s r.grp) _ _)

theorem resumeGroups_blocks (l : List SaveRec) (s : State) : BlocksHeld s (resumeGroups l s) :=
  have hbegin : BlocksHeld s (l.foldl (fun s r => s.modGrp r.grp fun G => G.begins) s) := .foldl (fun s _ => begins_blocks s _) _ _
  hbegin.trans (.foldl (fun s (r : SaveRec) => resumeSaved_blocks s r.grp) _ _)

section
variable {s : State} {b core : Nat} {B : Block} {L : Launch}

theorem exec_restore_restoring (hB : mget s.blocks b = some B) (hL : mget s.launches B.launch = some L) (hst : B.st = .restoring) :
    exec (.restore b core) s = if !restoreReady s b then .next s else .next (resumeGroups B.save
      ((dropWaiters s (· == .fixed b)).modBlk b fun B => { B with st := .started, save := [], brec := none, home := none })) := by
  change execRestore b core s = _
  unfold execRestore
  rw [hB]
  dsimp only
  rw [hL]
  dsimp only
  rw [hst]
  rfl

/-- A block whose overlays are pinned resumes. -/
theorem restore_resumes (hB : mget s.blocks b = some B) (hL : mget s.launches B.launch = some L) (hst : B.st = .restoring) (hr : restoreReady s b = true) :
    ∃ t B', exec (.restore b core) s = .next t ∧ mget t.blocks b = some B' ∧ B'.st = .started ∧ B'.save = [] ∧ t.mem = s.mem := by
  have hx := exec_restore_restoring (core := core) hB hL hst
  rw [if_neg (by simp [hr])] at hx
  generalize h1 : (dropWaiters s (· == .fixed b)).modBlk b (fun B => { B with st := .started, save := [], brec := none, home := none }) = s1 at hx
  have hB1 : mget s1.blocks b = some { B with st := .started, save := [], brec := none, home := none } := by
    rw [← h1]
    exact (mget_mupd_same _ _ _).trans (congrArg _ hB)
  have hm1 : s1.mem = s.mem := by rw [← h1]; rfl
  obtain ⟨x, hB'⟩ := resumeGroups_blocks B.save s1 b _ hB1
  exact ⟨_, _, hx, hB', rfl, rfl, (resumeGroups_quiet B.save s1).mem.trans hm1⟩

theorem restore_waits (hB : mget s.blocks b = some B) (hL : mget s.launches B.launch = some L) (hst : B.st = .restoring) (hr : restoreReady s b = false) :
    exec (.restore b core) s = .next s := by
  rw [exec_restore_restoring hB hL hst, if_pos (by simp [hr])]

end

/-! ### A record that is lost (R287, R382) -/

/-- A group is EXITED or KILLED. -/
def GroupEnded (G : Group) : Prop := G.st = .exited ∨ G.st = .killed

/-- Groups stay, and those that have ended stay so. -/
def StayEnded (s t : State) : Prop := ∀ g G, mget s.groups g = some G → ∃ G', mget t.groups g = some G' ∧ (GroupEnded G → GroupEnded G')

theorem StayEnded.same {s t : State} (h : t.groups = s.groups) : StayEnded s t := fun _ G hG => ⟨G, h ▸ hG, id⟩

theorem StayEnded.trans {s t u : State} (h : StayEnded s t) (k : StayEnded t u) : StayEnded s u := fun g G hG => by
  obtain ⟨H, hH, hGH⟩ := h g G hG
  obtain ⟨K, hK, hHK⟩ := k g H hH
  exact ⟨K, hK, hHK ∘ hGH⟩

theorem StayEnded.foldl {α : Type} {f : State → α → State} (h : ∀ s a, StayEnded s (f s a)) (l : List α) (s : State) : StayEnded s (l.foldl f s) :=
  List.foldlRecOn l f (StayEnded.same rfl) fun _ ht a _ => ht.trans (h _ a)

theorem StayEnded.tracks {s t : State} (h : Tracks EndKept s t) : StayEnded s t := fun g G hG => by
  obtain ⟨H, hH, hst, -, -⟩ := h.groups g G hG
  exact ⟨H, hH, fun he => by rwa [GroupEnded, hst]⟩

theorem StayEnded.tracksMemb {s t : State} (h : TracksMemb s t) : StayEnded s t := .tracks (h.mono MembOnly.endKept)

theorem StayEnded.settles {s t : State} (h : Settles s t) : StayEnded s t := fun g G hG => by
  obtain ⟨H, hH, hu⟩ := h.groups g G hG
  exact ⟨H, hH, fun he => by rwa [GroupEnded, hu.st]⟩

/-- A group changes to one that has ended, or has ended if the group had. -/
theorem StayEnded.modGrp (s : State) (g : Nat) {f : Group → Group} (h : ∀ G, GroupEnded G → GroupEnded (f G)) : StayEnded s (s.modGrp g f) := fun j G hj => by
  rw [State.modGrp_groups, mget_mupd]
  split
  · next e => exact ⟨f G, by rw [← e, hj]; rfl, h G⟩
  · exact ⟨G, hj, id⟩

theorem breakPhasers_stayEnded (s : State) (g : Nat) : StayEnded s (breakPhasers s g) := by
  unfold breakPhasers
  split
  · exact .same rfl
  · exact .foldl (fun s k => .tracksMemb (setPh_tracks _ _ _ _)) _ _

/-- A killed group, and each that had ended, has ended. -/
theorem killGroup_ends (s : State) (fatal : Bool) (g : Nat) :
    StayEnded s (killGroup s fatal g) ∧ ∀ G, mget s.groups g = some G → ∃ G', mget (killGroup s fatal g).groups g = some G' ∧ GroupEnded G' := by
  unfold killGroup
  split
  · next h => exact ⟨.same rfl, fun G hG => nomatch h.symm.trans hG⟩
  next G hG =>
  split
  · next he => exact ⟨.same rfl, fun H hH => ⟨H, hH, by rw [hG] at hH; exact Option.some.inj hH ▸ he⟩⟩
  extract_lets s1 s2 s3 s4 s5
  have h1 : StayEnded s s1 := by
    refine StayEnded.trans ?_ ((StayEnded.settles (interruptFe_settles _ g)).trans (.same rfl))
    split
    · exact breakPhasers_stayEnded _ _
    · exact .same rfl
  have h2 : StayEnded s1 s2 := .modGrp s1 g fun _ _ => .inr rfl
  have h3 : StayEnded s2 s3 :=
    ((StayEnded.tracks (tileDone_tracks s2 g true)).trans (.tracksMemb (settleRuns_tracks _))).trans (.tracksMemb (settlePh_tracks _ _ _))
  have h5 : StayEnded s3 s5 := by
    refine StayEnded.trans (t := s4) (.same rfl) ?_
    unfold s5
    split
    · split <;> exact .same rfl
    · exact .same rfl
  have h6 : StayEnded s5 (tryEndBlock s5 G.blk) := .tracksMemb (tryEndBlock_tracks s5 G.blk)
  have htail : StayEnded s2 (tryEndBlock s5 G.blk) := (h3.trans h5).trans h6
  refine ⟨(h1.trans h2).trans htail, fun H hH => ?_⟩
  obtain ⟨H1, hH1, -⟩ := h1 g H hH
  obtain ⟨K, hK, he⟩ := htail g _ ((mget_mupd_same s1.groups g _).trans (congrArg _ hH1))
  exact ⟨K, hK, he (.inr rfl)⟩

theorem compFail_stayEnded (s : State) (a q r c : Nat) (code : BitVec 16) : StayEnded s (compFail s a q r c code) := .tracksMemb (compFail_tracks _ _ _ _ _ _)

theorem fatalKill_ends (s : State) (cause g : Nat) :
    StayEnded s (fatalKill s cause g) ∧ ∀ G, mget s.groups g = some G → ∃ G', mget (fatalKill s cause g).groups g = some G' ∧ GroupEnded G' := by
  unfold fatalKill
  split
  · next h => exact ⟨.same rfl, fun G hG => nomatch h.symm.trans hG⟩
  next G hG =>
  split
  · next act seq _ =>
    have hc : StayEnded s (if G.compDone then s else compFail s act seq 1 cause 0) := by
      split
      · exact .same rfl
      · exact compFail_stayEnded _ _ _ _ _ _
    obtain ⟨hk, he⟩ := killGroup_ends (if G.compDone then s else compFail s act seq 1 cause 0) true g
    refine ⟨hc.trans hk, fun H hH => ?_⟩
    obtain ⟨K, hK, -⟩ := hc g H hH
    exact he K hK
  · exact killGroup_ends s true g

theorem killGroup_stayEnded (s : State) (fatal : Bool) (g : Nat) : StayEnded s (killGroup s fatal g) := (killGroup_ends s fatal g).1

theorem abandon_stayEnded (s : State) (a : Nat) : StayEnded s (abandon s a) := by
  unfold abandon
  split
  · exact .same rfl
  · split
    · exact .same rfl
    · refine .foldl (fun s k => ?_) _ _
      split
      · exact .same rfl
      · split
        · exact .same rfl
        · extract_lets s1 s2
          exact StayEnded.trans (t := s2) (.same rfl) (.foldl (α := Nat × Group) (fun t p => killGroup_stayEnded t false p.1) _ _)

theorem launchError_stayEnded (s : State) (l : Nat) : StayEnded s (launchError s l) := by
  unfold launchError
  split
  · exact .same rfl
  · split
    · split
      · exact abandon_stayEnded _ _
      · exact .same rfl
      · exact .same rfl
    · split
      · extract_lets t
        exact StayEnded.trans (t := t) (.same rfl) (.foldl (fun _ _ => killGroup_stayEnded _ _ _) _ _)
      · exact .same rfl

/-- Groups killed one after the other have ended. -/
theorem foldl_fatalKill_ends (l : List SaveRec) (s : State) : StayEnded s (l.foldl (fun s r => fatalKill s 0x0F r.grp) s) ∧
    ∀ r ∈ l, ∀ G, mget s.groups r.grp = some G → ∃ G', mget (l.foldl (fun s r => fatalKill s 0x0F r.grp) s).groups r.grp = some G' ∧ GroupEnded G' := by
  induction l generalizing s with
  | nil => exact ⟨.same rfl, by simp⟩
  | cons p l ih =>
    obtain ⟨hs, he⟩ := ih (fatalKill s 0x0F p.grp)
    obtain ⟨hks, hke⟩ := fatalKill_ends s 0x0F p.grp
    refine ⟨hks.trans hs, fun r hr G hG => ?_⟩
    rcases List.mem_cons.1 hr with rfl | hr
    · obtain ⟨H, hH, hHe⟩ := hke G hG
      obtain ⟨K, hK, hKe⟩ := hs _ _ hH
      exact ⟨K, hK, hKe hHe⟩
    · obtain ⟨H, hH, -⟩ := hks _ _ hG
      exact he r hr H hH

end Sys2Proof.Proofs
end

section
/-!
PROOFS. RESTORE of a saved block: where it may go, and the block as its records give it (R287, R324, R347, R368, R381, R384).
-/

namespace Sys2Proof.Proofs
open Sys2Proof Sys2Proof.Machine Sys2Proof.Claims

/-! ### Where a block may be restored (R347) -/

section
variable {s : State} {b core : Nat} {B : Block} {L : Launch}

theorem mayHost_iff (ha : B.audit = none) : mayHost s L B core = true ↔ (B.comp = none → core ∈ L.eligible) := by
  unfold mayHost
  rw [ha]
  cases B.comp <;> simp

theorem homeOk_iff (hw : B.wide = false) :
    homeOk s B core = true ↔ ∀ cl, B.home = some cl → core / 4 = cl ∨ ∀ i < 4, coreOk s (4 * cl + i) = false := by
  have hcluster (cl : Nat) : (coresOfCluster cl).any (coreOk s) = false ↔ ∀ i < 4, coreOk s (4 * cl + i) = false := by
    simp [coresOfCluster]
  have hcl : clusterOf core = core / 4 := rfl
  unfold homeOk
  rw [hw]
  cases B.home with
  | none => simp
  | some cl => simp [hcluster, hcl]

theorem coreOk_iff : coreOk s core = true ↔ (s.die (core / 16)).st = .hitched ∧ core ∉ s.fencedCores := by
  have hdie : dieOf core = core / 16 := rfl
  simp [coreOk, hdie]

theorem restoreOk_iff (hw : B.wide = false) (ha : B.audit = none) : restoreOk s b B L core = true ↔
    (s.die (core / 16)).st = .hitched ∧ core ∉ s.fencedCores ∧ L.desc.level ≤ s.level core ∧ (B.comp = none → core ∈ L.eligible) ∧
    (∀ cl, B.home = some cl → core / 4 = cl ∨ ∀ i < 4, coreOk s (4 * cl + i) = false) ∧
    coreRoom s L B core core = true ∧ scrFree s core B.scrOff L.desc.scratch = true ∧ tilesQuiet s b [core] = true := by
  have hcores : blockCores B.wide core = [core] := by rw [hw]; rfl
  unfold restoreOk
  rw [hcores, hw, ← homeOk_iff hw, ← mayHost_iff (L := L) (s := s) (core := core) ha]
  simp only [Bool.not_false, Bool.true_or, Bool.true_and, List.all_cons, List.all_nil, Bool.and_true, Bool.and_eq_true, decide_eq_true_eq, coreOk_iff]
  tauto

/-! ### Records that are lost (R287, R382) -/

/-- Where the lost records of a block stand. -/
def lostRecords (s : State) (B : Block) : List Nat :=
  ((B.save.filter (recBad s)).map fun r => r.at_.getD 0) ++ if blockBad s B then (B.brec.map (·.1)).toList else []

theorem lostRecords_of_good (hr : ∀ r ∈ B.save, recBad s r = false) (hb : blockBad s B = false) : lostRecords s B = [] := by
  have hf : B.save.filter (recBad s) = [] := List.filter_eq_nil_iff.2 fun r hr' => by simp [hr r hr']
  simp [lostRecords, hf, hb]

theorem lostRecords_of_bad (h : (∃ r ∈ B.save, recBad s r = true) ∨ blockBad s B = true) : lostRecords s B ≠ [] := by
  unfold lostRecords
  rcases h with ⟨r, hr, hbad⟩ | hbad
  · exact List.append_ne_nil_of_left_ne_nil (List.ne_nil_of_mem (List.mem_map.2 ⟨r, List.mem_filter.2 ⟨hr, hbad⟩, rfl⟩)) _
  · refine List.append_ne_nil_of_right_ne_nil _ ?_
    rw [if_pos hbad]
    cases hrec : B.brec with
    | none => simp [blockBad, hrec] at hbad
    | some p => simp

theorem exec_restore_saved (hB : mget s.blocks b = some B) (hL : mget s.launches B.launch = some L) (hst : B.st = .saved) :
    exec (.restore b core) s = if (lostRecords s B).isEmpty then .next (if restoreOk s b B L core then startRestore s b B L core else s) else
      let u := (lostRecords s B).foldl (fun s a => coreErr s 1 3 core (some L.ctx) a (some B.launch)) s
      let v := if B.comp.isSome || B.audit.isSome then u else launchError u B.launch
      .next (B.save.foldl (fun s r => fatalKill s 0x0F r.grp) v) := by
  change execRestore b core s = _
  unfold execRestore
  rw [hB]
  dsimp only
  rw [hL]
  dsimp only
  rw [hst]
  rfl

theorem ErrsOnly.foldl {α : Type} {f : State → α → State} (h : ∀ s a, ErrsOnly s (f s a)) (l : List α) (s : State) : ErrsOnly s (l.foldl f s) :=
  List.foldlRecOn (motive := ErrsOnly s) l f rfl fun _ ht a _ => ht.trans (h _ a)

theorem coreErr_errs (s : State) (kind unit core : Nat) (ctx : Option Nat) (addr : Nat) (launch : Option Nat) :
    ErrsOnly s (coreErr s kind unit core ctx addr launch) := rfl

/-- A block one of whose records is lost meets an uncorrectable error: its groups have ended, and memory is as it was. -/
theorem restore_lost (hB : mget s.blocks b = some B) (hL : mget s.launches B.launch = some L) (hst : B.st = .saved)
    (hbad : (∃ r ∈ B.save, recBad s r = true) ∨ blockBad s B = true) : ∃ t, exec (.restore b core) s = .next t ∧ t.mem = s.mem ∧
      ∀ r ∈ B.save, ∀ G, mget s.groups r.grp = some G → ∃ G', mget t.groups r.grp = some G' ∧ (G'.st = .exited ∨ G'.st = .killed) := by
  have hx := exec_restore_saved (core := core) hB hL hst
  rw [if_neg (by simpa using lostRecords_of_bad hbad)] at hx
  extract_lets u v at hx
  have hu : ErrsOnly s u := .foldl (fun _ _ => coreErr_errs _ _ _ _ _ _ _) _ _
  have hv : v.mem = u.mem ∧ StayEnded u v := by
    unfold v
    split
    · exact ⟨rfl, .same rfl⟩
    · exact ⟨(launchError_quiet _ _).mem, launchError_stayEnded _ _⟩
  obtain ⟨hmem, hstay⟩ := hv
  have hq : Quiet v (B.save.foldl (fun s r => fatalKill s 0x0F r.grp) v) := Quiet.foldl (fun s (r : SaveRec) => fatalKill_quiet s 0x0F r.grp) _ _
  refine ⟨_, hx, hq.mem.trans (hmem.trans hu.mem), fun r hr G hG => ?_⟩
  obtain ⟨H, hH, -⟩ := hstay r.grp G (hu.groups ▸ hG)
  exact (foldl_fatalKill_ends B.save v).2 r hr H hH

theorem restore_stays (hB : mget s.blocks b = some B) (hL : mget s.launches B.launch = some L) (hst : B.st = .saved) (hr : ∀ r ∈ B.save, recBad s r = false)
    (hb : blockBad s B = false) (hok : restoreOk s b B L core = false) : exec (.restore b core) s = .next s := by
  rw [exec_restore_saved hB hL hst, lostRecords_of_good hr hb, hok]
  rfl

theorem restore_starts (hB : mget s.blocks b = some B) (hL : mget s.launches B.launch = some L) (hst : B.st = .saved) (hr : ∀ r ∈ B.save, recBad s r = false)
    (hb : blockBad s B = false) (hok : restoreOk s b B L core = true) : exec (.restore b core) s = .next (startRestore s b B L core) := by
  rw [exec_restore_saved hB hL hst, lostRecords_of_good hr hb, hok]
  rfl

end

/-! ### What a restore rebuilds (R345, R347) -/

/-- A group whose overlays are pinned anew: its state, its core and its registers are as they were. -/
structure Repinned (G G' : Group) : Prop where
  st : G'.st = G.st
  core : G'.core = G.core
  pc : G'.pc = G.pc
  sreg : G'.sreg = G.sreg
  vreg : G'.vreg = G.vreg

theorem Repinned.refl (G : Group) : Repinned G G := ⟨rfl, rfl, rfl, rfl, rfl⟩

theorem Repinned.trans {G H K : Group} (h : Repinned G H) (k : Repinned H K) : Repinned G K :=
  ⟨k.st.trans h.st, k.core.trans h.core, k.pc.trans h.pc, k.sreg.trans h.sreg, k.vreg.trans h.vreg⟩

/-- Overlays are pinned anew: memory and blocks stay, and so do the groups but for what they pin. -/
structure Repins (s t : State) : Prop where
  mem : t.mem = s.mem
  blocks : t.blocks = s.blocks
  groups : ∀ g G, mget s.groups g = some G → ∃ G', mget t.groups g = some G' ∧ Repinned G G'

namespace Repins

theorem same {s t : State} (hm : t.mem = s.mem) (hb : t.blocks = s.blocks) (hg : t.groups = s.groups) : Repins s t :=
  ⟨hm, hb, fun _ G hG => ⟨G, hg ▸ hG, .refl G⟩⟩

theorem refl (s : State) : Repins s s := same rfl rfl rfl

theorem loads {s t : State} (h : LoadsOnly s t) : Repins s t := same h.mem h.blocks (by rw [h])

theorem trans {s t u : State} (h : Repins s t) (k : Repins t u) : Repins s u where
  mem := k.mem.trans h.mem
  blocks := k.blocks.trans h.blocks
  groups g G hG := by
    obtain ⟨H, hH, hGH⟩ := h.groups g G hG
    obtain ⟨K, hK, hHK⟩ := k.groups g H hH
    exact ⟨K, hK, hGH.trans hHK⟩

theorem foldl {α : Type} {f : State → α → State} (h : ∀ s a, Repins s (f s a)) (l : List α) (s : State) : Repins s (l.foldl f s) :=
  List.foldlRecOn l f (refl s) fun _ ht a _ => ht.trans (h _ a)

theorem modGrp (s : State) (g : Nat) {f : Group → Group} (h : ∀ G, Repinned G (f G)) : Repins s (s.modGrp g f) := by
  refine ⟨rfl, rfl, fun j G hj => ?_⟩
  rw [State.modGrp_groups, mget_mupd]
  split
  · next e => exact ⟨f G, by rw [← e, hj]; rfl, h G⟩
  · exact ⟨G, hj, .refl G⟩

end Repins

theorem repin_loads (s : State) (b core : Nat) (tab : List OvEntry) (ctx ov : Nat) : LoadsOnly s (repin s b core tab ctx ov).1 := by
  unfold repin
  split
  · exact loadFixed_loadsOnly _ _ _ _ _
  · exact .refl s

theorem repinGroup_repins (s : State) (b g : Nat) (L : Launch) : Repins s (repinGroup s b g L) := by
  unfold repinGroup
  split
  · exact .refl s
  · next G _ =>
    extract_lets pin enter
    have hpin (t : State) (ov : Nat) : LoadsOnly t (pin t ov).1 := repin_loads _ _ _ _ _ _
    have henter (t : State) (w : SWait) : LoadsOnly t (enter t w).1 := by
      unfold enter
      split
      · split
        · exact startLoad_loadsOnly _ _ _ _ _
        · exact .refl t
      · exact .refl t
    clear_value pin enter
    split
    next s1 copy e1 =>
    have h1 : LoadsOnly s s1 := Eq.subst (motive := LoadsOnly s) (congrArg Prod.fst e1) (hpin s G.ov)
    split
    next s2 runs e2 =>
    have h2 : LoadsOnly s1 s2 := Eq.subst (motive := LoadsOnly s1) (congrArg Prod.fst e2)
      (LoadsOnly.foldl_fst (β := List Run) (fun x r => hpin x.1 r.ov) _ (s1, []))
    split
    next s3 hs e3 =>
    have h3 : LoadsOnly s2 s3 := by
      refine Eq.subst (motive := LoadsOnly s2) (congrArg Prod.fst e3) (LoadsOnly.foldl_fst (β := SMap Handle) (fun x p => ?_) _ (s2, []))
      dsimp only
      split
      · split
        · exact hpin _ _
        · exact .refl _
      · exact .refl _
    split
    next s4 wait e4 =>
    have h4 : LoadsOnly s3 s4 := Eq.subst (motive := LoadsOnly s3) (congrArg Prod.fst e4) (henter s3 G.wait)
    split
    next s5 mode e5 =>
    have h5 : LoadsOnly s4 s5 := by
      refine Eq.subst (motive := LoadsOnly s4) (congrArg Prod.fst e5) ?_
      split
      · exact hpin _ _
      · exact .refl _
    exact (Repins.loads ((((h1.trans h2).trans h3).trans h4).trans h5)).trans (.modGrp s5 g fun G => by constructor <;> rfl)

theorem repinTag_loads (s : State) (b core : Nat) (L : Launch) (t : Tag) : LoadsOnly s (repinTag s b core L t).1 := by
  unfold repinTag
  split
  · split
    · exact repin_loads _ _ _ _ _ _
    · exact .refl s
  · exact .refl s

/-- A byte at none of the places written stays. -/
theorem memRead_foldl_memWrite_out (place : Nat → Nat) {cells : List (Nat × Byte)} {a : Nat} (ha : a ∉ cells.map fun c => place c.1) (m : List Host.Cell) :
    memRead (cells.foldl (fun m c => memWrite m (place c.1) c.2) m) a = memRead m a := by
  induction cells generalizing m with
  | nil => rfl
  | cons c cells ih =>
    rw [List.map_cons, List.mem_cons, not_or] at ha
    rw [List.foldl_cons, ih ha.2, memRead_memWrite, if_neg ha.1]

/-- Bytes written at places that differ are all there at the end. -/
theorem memRead_foldl_memWrite (place : Nat → Nat) {cells : List (Nat × Byte)} (hn : (cells.map fun c => place c.1).Nodup) (m : List Host.Cell) :
    ∀ c ∈ cells, memRead (cells.foldl (fun m c => memWrite m (place c.1) c.2) m) (place c.1) = c.2 := by
  induction cells generalizing m with
  | nil => simp
  | cons c cells ih =>
    obtain ⟨hc, hcells⟩ := List.nodup_cons.1 hn
    intro d hd
    rw [List.foldl_cons]
    rcases List.mem_cons.1 hd with rfl | hd
    · rw [memRead_foldl_memWrite_out place hc, memRead_memWrite, if_pos rfl]
    · exact ih hcells _ d hd

/-- A place of the record of a block's scratch area, on its one core. -/
theorem absPlace_single (core off : Nat) {rel : Nat} (h : rel < Config.scratchSpan) : absPlace [core] off rel = scrLoc core (off + rel) := by
  rw [absPlace, Nat.div_eq_of_lt h, Nat.mod_eq_of_lt h]
  rfl

/-- The block record stands as it was written. -/
theorem recBlock_same {s : State} {b : Nat} {B : Block} {L : Launch} (h : ∀ p, B.brec = some p → bytesAt s.mem p.1 p.2.length = p.2) :
    recBlock s b B L = (s, B) := by
  unfold recBlock
  split
  · rfl
  · next a old hrec => simp [h _ hrec]

theorem recGroup_same (G : Group) (r : SaveRec) : recGroup G r r.bytes = G := by
  unfold recGroup
  rw [if_pos (by simp)]

section
variable {s : State} {b core : Nat} {B : Block} {L : Launch}

theorem forget_foldl_groups (cores : List Nat) (off n : Nat) (s : State) : (cores.foldl (fun s c => s.forget (scrLoc c off) n) s).groups = s.groups :=
  List.foldlRecOn (motive := fun t : State => t.groups = s.groups) cores _ rfl fun _ ht _ _ => ht

theorem foldl_keeps_mem_blocks {α : Type} {f : State → α → State} (h : ∀ s a, (f s a).mem = s.mem ∧ (f s a).blocks = s.blocks) (l : List α) (s : State) :
    (l.foldl f s).mem = s.mem ∧ (l.foldl f s).blocks = s.blocks :=
  List.foldlRecOn (motive := fun t : State => t.mem = s.mem ∧ t.blocks = s.blocks) l f ⟨rfl, rfl⟩ fun t ht a _ =>
    ⟨(h t a).1.trans ht.1, (h t a).2.trans ht.2⟩

/-- A block that is rebuilt: its place, its scratch area and its group are as its records give them. -/
theorem startRestore_rebuilds (hB : mget s.blocks b = some B) (hw : B.wide = false) (hnow : ∀ r ∈ B.save, r.now s = r.bytes)
    (hrec : ∀ p, B.brec = some p → bytesAt s.mem p.1 p.2.length = p.2) (hn : (B.scr.map (·.1)).Nodup) (hlt : ∀ c ∈ B.scr, c.1 < Config.scratchSpan) :
    (∃ B', mget (startRestore s b B L core).blocks b = some B' ∧ B'.st = .restoring ∧ B'.core = core ∧ B'.save = B.save) ∧
    (∀ c ∈ B.scr, memRead (startRestore s b B L core).mem (scrLoc core (B.scrOff + c.1)) = c.2) ∧
    ∀ r G, B.save = [r] → mget s.groups r.grp = some G → ∃ G', mget (startRestore s b B L core).groups r.grp = some G' ∧ G'.st = r.was ∧
      G'.core = groupCore false core G.idx ∧ G'.pc = G.pc ∧ G'.sreg = G.sreg ∧ G'.vreg = G.vreg := by
  generalize ht : startRestore s b B L core = t
  unfold startRestore at ht
  split at ht
  next s0 B0 e0 =>
  rw [recBlock_same hrec] at e0
  obtain ⟨rfl, rfl⟩ := Prod.mk.inj e0
  have hcores : blockCores B.wide core = [core] := by rw [hw]; rfl
  rw [hcores] at ht
  extract_lets recs cores at_ mine s1 s2 s3 s4 loads s5 s6 at ht
  have hplace (c : Nat × Byte) (hc : c ∈ B.scr) : at_ c.1 = scrLoc core (B.scrOff + c.1) := absPlace_single core B.scrOff (hlt c hc)
  have hg1 := forget_foldl_groups [core] B.scrOff L.desc.scratch s
  have hb1 := forget_foldl_blocks [core] B.scrOff L.desc.scratch s
  have hm4 : s4.mem = s3.mem ∧ s4.blocks = s3.blocks := foldl_keeps_mem_blocks (fun s p => by constructor <;> rfl) recs s3
  have hload : LoadsOnly s4 loads.1 := LoadsOnly.foldl_fst (β := List (Nat × Nat × Nat))
    (fun x c => LoadsOnly.foldl_fst (β := List (Nat × Nat × Nat)) (fun x ov => repin_loads _ _ _ _ _ _) _ x) [core] (s4, [])
  have hlast : Repins s5 t := by
    have h6 : Repins s5 s6 := .foldl (fun s (r : SaveRec) => repinGroup_repins s b r.grp L) _ _
    rw [← ht]
    refine h6.trans (.foldl (fun s p => ?_) _ _)
    exact (Repins.loads (repinTag_loads s b (groupCore B.wide core (p.1 * 4 / Config.scratchSpan)) L p.2)).trans (.same rfl rfl rfl)
  refine ⟨?_, fun c hc => ?_, fun r G hr hG => ?_⟩
  · have hB3 : mget s3.blocks b = some { B with st := .restoring, core := core, scr := [], full := [], tags := [] } := by
      refine (mget_mupd_same _ _ _).trans ?_
      rw [show s2.blocks = s.blocks from hb1, hB]
      rfl
    have hB5 : mget s5.blocks b = some { B with st := .restoring, core := core, scr := [], full := [], tags := [], fixed := loads.2 } := by
      refine (mget_mupd_same _ _ _).trans ?_
      rw [hload.blocks, hm4.2, hB3]
      rfl
    rw [hlast.blocks]
    exact ⟨_, hB5, rfl, rfl, rfl⟩
  · have hmem : t.mem = s2.mem := hlast.mem.trans (hload.mem.trans hm4.1)
    have hnodup : (B.scr.map fun c => at_ c.1).Nodup := by
      have hinj : ∀ x ∈ B.scr.map (·.1), ∀ y ∈ B.scr.map (·.1), at_ x = at_ y → x = y := by
        intro x hx y hy hxy
        obtain ⟨c, hc, rfl⟩ := List.mem_map.1 hx
        obtain ⟨d, hd, rfl⟩ := List.mem_map.1 hy
        rw [hplace c hc, hplace d hd, scrLoc, scrLoc] at hxy
        omega
      have h := List.Nodup.map_on hinj hn
      rwa [List.map_map] at h
    rw [hmem, ← hplace c hc]
    exact memRead_foldl_memWrite at_ hnodup _ c hc
  · have hrecs : recs = [(r, r.bytes)] := by
      have hr' : r.now s = r.bytes := hnow r (by rw [hr]; exact List.mem_singleton_self r)
      simp only [recs, hr, List.map_cons, List.map_nil, hr']
    have hG4 : ∃ part sect, mget s4.groups r.grp = some { G with st := r.was, core := groupCore false core G.idx, part := part, sect := sect } := by
      have hs4 : s4 = List.foldl _ s3 recs := rfl
      rw [hrecs] at hs4
      have hget := (congrArg (fun u : State => mget u.groups r.grp) hs4).trans (mget_mupd_same _ _ _)
      rw [show s3.groups = s.groups from hg1, hG, Option.map_some, recGroup_same, hw] at hget
      exact ⟨_, _, hget⟩
    obtain ⟨part, sect, hG4⟩ := hG4
    have hG5 : mget s5.groups r.grp = some { G with st := r.was, core := groupCore false core G.idx, part := part, sect := sect } := by
      refine Eq.trans ?_ hG4
      rw [show s5.groups = loads.1.groups from rfl, hload]
    obtain ⟨G', hG', hp⟩ := hlast.groups _ _ hG5
    exact ⟨G', hG', hp.st, hp.core, hp.pc, hp.sreg, hp.vreg⟩

end

/-- Settles O43: the choice row by row, the records as they are written, and the block as they give it back. -/
theorem preemption : Obligations.Preemption := by
  refine ⟨fun G level tiles _ => saveBytes_layout G level tiles, fun s b who B L hB hL hst hsect => ?_,
    fun s b who B L g G hB hL hst hn hg hb hs hh hd => preemption_asked hB hL hst hn hg hb hs hh hd, fun s b B L hB hL hst hw => ⟨fun hd => ?_, ?_⟩,
    fun s b core B L hB hL => ⟨restore_resumes hB hL, restore_waits hB hL, restore_lost hB hL, restoreOk_iff, restore_stays hB hL,
      fun hst hw hr hb hrec hok hn hlt => ?_⟩⟩
  · have hs := sectionOpen_of_none hsect
    refine ⟨fun hn => ?_, fun hn => ⟨fun he => ?_, fun he hf ha => flushes_of hB ?_, fun he hf hfit => saves_of (who := who) hB ?_, fun he hf hfit hw => ?_⟩, fun hp hn => ?_,
      fun x hp => ⟨fun hx => ?_, fun hx => ⟨fun hf ha => flushes_of hB ?_, fun hf hfit => saves_of (who := who) hB ?_⟩⟩⟩
    · rw [exec_preempt hB, hn]; rfl
    · refine ⟨{ who := who, until_ := some (s.now + 1000 * drainBudget who) }, ?_, rfl, rfl⟩
      rw [exec_preempt_chooses hB hL hst hs hn, preempt_drains he, modBlk_of_mget hB]
    · rw [exec_preempt_chooses hB hL hst hs hn, preempt_flushes (fun _ => he) hf ha]
    · rw [exec_preempt_chooses hB hL hst hs hn, preempt_saves (fun _ => he) hf hfit]
    · rw [exec_preempt_chooses hB hL hst hs hn, preempt_waits (fun _ => he) hf hfit hw, modBlk_of_mget hB]
    · rw [exec_drainBudgetExpire hB hL hst hs hp, exec_preempt_chooses hB hL hst hs hn, if_pos rfl, if_pos hn]
    · rw [exec_drainBudgetExpire hB hL hst hs hp, if_neg (by simp), if_neg (by simpa [due] using hx)]
    · rw [exec_drainBudgetExpire hB hL hst hs hp, if_neg (by simp), if_pos (by simpa [due] using hx), preempt_flushes (drain := false) nofun hf ha]
    · rw [exec_drainBudgetExpire hB hL hst hs hp, if_neg (by simp), if_pos (by simpa [due] using hx), preempt_saves (drain := false) nofun hf hfit]
  · refine ⟨_, _, saveRecordWrite_drained hB hL hst hd, savedState_block, rfl, fun g G hG hb he hk hsort => ?_, fun a ha => ⟨?_, fun hp => ?_⟩,
      fun a ha hr hb => ?_, fun r x hr hx hp i hi => memRead_savedState_record hw hr hx hp hi,
      fun g G hs hb he hk => ⟨_, savedRecs_single hs hb he hk, rfl, rfl, rfl, ?_⟩, fun hf => ?_, fun hf => ?_, fun k hk hb => savedState_found hk hb⟩
    · obtain ⟨u, hu⟩ := savedState_group (B := B) (L := L) hG hb he hk hsort
      exact ⟨_, hu, rfl, rfl, rfl, rfl, rfl, rfl, rfl, rfl, rfl, rfl, rfl⟩
    · rw [memRead_savedState hw, if_pos ha]
    · rw [savedBlock_scr hw _ _ _ ha, memRead_recordsWritten_out (outsideRecords_of_area hp ha)]
    · rw [memRead_savedState hw, if_neg ha, memRead_recordsWritten_out ⟨hr, hb⟩]
    · refine Iff.trans ?_ reservedSave_iff
      dsimp only
      cases reservedSave B <;> simp
    · have hres := reservedSave_iff.2 hf
      exact ⟨if_pos hres, if_pos hres⟩
    · have hres : ¬ reservedSave B = true := mt reservedSave_iff.1 hf
      have hbrec : savedBrec s b B L = _ := if_neg hres
      exact ⟨if_neg hres, _, hbrec, fun hp i hi => memRead_savedState_brec hw hbrec hp hi⟩
  · rintro ⟨g, G, hg, hb, he, hk, hd⟩
    exact saveRecordWrite_undrained hB hL hst hg hb he hk hd
  · obtain ⟨⟨B', hB', hrestoring, hcore, hsave⟩, hscr, hgroup⟩ := startRestore_rebuilds (core := core) (L := L) hB hw (fun r h => (hr r h).2) hrec hn hlt
    exact ⟨_, B', restore_starts hB hL hst (fun r h => (hr r h).1) hb hok, hB', hrestoring, hcore, hsave, hscr, hgroup⟩

end Sys2Proof.Proofs
end
